-- ==== Sys2Proof/Word.lean ====
section
/-! DEFINITION. The word type of the part and its plainest arithmetic (spec 00_scope, Numbers and formats; 17_register_interface R441). -/

namespace Sys2Proof

/-- One 20-bit word: a register, a memory word, a Q1.19 datum (R441). -/
abbrev Word := BitVec 20

/-- A 24-bit data address of a core (R312). -/
abbrev Addr := BitVec 24

/-- A 48-bit accumulator, Q9.39 (R312). -/
abbrev Acc := BitVec 48

/-- The word holding the low 20 bits of a number. -/
def word (n : Nat) : Word := BitVec.ofNat 20 n

/-- The word holding an integer modulo 2^20. -/
def wordI (n : Int) : Word := BitVec.ofInt 20 n

end Sys2Proof
end

