-- ==== Sys2Proof/Syntax.lean ====
section
/-! DEFINITION. The commands of the SV128: one constructor of Instr per row of the table of operations and events (spec opcode_table.json), with the row's operands. -/

namespace Sys2Proof

/-- One of the eight control cores (R309). -/
abbrev CoreId := Fin 8
/-- A data register D0-D15 (R312). -/
abbrev DReg := Fin 16
/-- A Trellis address unit 0-7 (R312). -/
abbrev Unit8 := Fin 8
/-- A register code of R339. -/
abbrev RCode := Fin 64
/-- An accumulator AC0 or AC1. -/
abbrev AcId := Fin 2
/-- A profile object: axis 0-255, or 256 + mover 0-31 (R89). -/
abbrev Obj := Fin 288

/-- The modify codes of R354. -/
inductive Modify where
  | keep | plus | minus | rev
  deriving DecidableEq, Repr

/-- What the ECC of a data word read answers (R316, R330). -/
inductive Ecc where
  | good | corrected | uncorrectable
  deriving DecidableEq, Repr

/-- The M-slot operation of a dual word (R350). -/
inductive MSlot where
  | nop
  | ldxy (dx dy : DReg) (a b : Fin 4) (ma mb : Modify) (ecc : Ecc)
  | ld (r : RCode) (k : Unit8) (mod : Modify) (w : Bool) (ecc : Ecc)
  | st (r : RCode) (k : Unit8) (mod : Modify) (w : Bool)
  | mov (rd rs : RCode)
  | movf (dd : DReg) (k : AcId) (sh : BitVec 5)
  | movi (rd : RCode) (imm : BitVec 11)
  | stxy (dx dy : DReg) (a b : Fin 4) (ma mb : Modify)
  | moda (k : Unit8) (mod : Modify)
  deriving DecidableEq, Repr

/-- The modes of a product (R346); mode 11b is reserved. -/
inductive MacMode where
  | frac | int | uint
  deriving DecidableEq, Repr

/-- The branch conditions 0h-Eh (R358). -/
inductive Cond where
  | t | eq | ne | mi | pl | vs | vc | cs | cc | ge | lt | gt | le | av0 | av1
  deriving DecidableEq, Repr

/-- The count of a repeat (R360). -/
inductive RptCount where
  | imm (n : BitVec 16)
  | reg (d : DReg)
  deriving DecidableEq, Repr

/-- Why a program word raises fault 04h at D, or 08h (R330, R338). -/
inductive BadWord where
  /-- a reserved encoding or a nonzero zero field -/
  | reserved
  /-- a pairing breach (R341) -/
  | breach
  /-- an uncorrectable ECC error in the program word, fault 08h -/
  | ecc
  deriving DecidableEq, Repr

/-- The requesters of R441. -/
inductive Requester where
  | core (n : CoreId)
  | host
  | kiosk
  | mirror
  deriving DecidableEq, Repr

/-- The memories by ECC diagnostic (R266): Gatehouse's own; servo engine, profile, link, pair or Sundial; core, Pergola, CAN, Kiosk or Belvedere; MRAM. -/
inductive EccMem where
  | gatehouse | engine | core | mram
  deriving DecidableEq, Repr


/-- How a received frame fares in the code, CRC, format and address checks (R205): the first that fails. -/
inductive RxCheck where
  | ok | code | crc | format | address
  deriving DecidableEq, Repr

/-- A port that receives: LKA0, LKA1, LKB0, LKB1, or 4 for the pair lane. -/
abbrev PortId := Fin 5
/-- A link address. -/
abbrev LinkAddr := Fin 128

/-- A MARK as received (R192, R194): flags, times in 1/8 ns, and the path delay from the head that sent it. -/
structure MarkIn where
  src : Nat
  seq : BitVec 32
  epoch : BitVec 16
  perInt : BitVec 16
  perFr : BitVec 16
  time : BitVec 64
  corr : BitVec 16
  locked : Bool
  tLocked : Bool
  delay : Nat
  deriving DecidableEq, Repr

/-- One axis record of an uplink (R196). -/
structure UplRec where
  pos : BitVec 40
  fact : BitVec 20
  astat : BitVec 12
  deriving DecidableEq, Repr

/-- An uplink as received (R192, R196); arrival is that of its /S/ after T0, in 1/8 ns. -/
structure UplIn where
  node : LinkAddr
  seq : BitVec 32
  nst : BitVec 4
  nstat : BitVec 16
  grep : BitVec 16
  auxIdx : BitVec 4
  angle : BitVec 20
  arrival : Nat
  recs : List UplRec
  deriving DecidableEq, Repr

/-- What a service uplink carries (R217-R222): a fragment, or a join request with, for LKx0 and LKx1, the time from the SVD leaving to the SVU arriving and the turn time of the node port that faces it, in 1/8 ns. -/
inductive SvuBody where
  | reply (msgid : BitVec 8) (last : Bool) (frag : Nat) (data : List Nat)
  | join (nax : Nat) (m0 m1 : Option (Nat × Nat))
  deriving DecidableEq, Repr

/-- A service uplink as received; refused: its ACKNAK refuses this cycle's SVD. -/
structure SvuIn where
  node : LinkAddr
  seq : BitVec 32
  refused : Bool
  body : SvuBody
  deriving DecidableEq, Repr

/-- An axis record of a SETP: CMD, FF1, FF2, ACTL (R195). -/
abbrev SetpRec := Int × Word × Word × Nat

/-- The records of a SETP frame, and when its reception ends (R205). -/
structure SetpIn where
  recs : List SetpRec
  t : Nat
  deriving DecidableEq, Repr

/-- What a SIG frame says of its signatures (R237): q of the cycle, the batch, and whether they rest on the unit's own inputs. -/
structure SigKey where
  seq : BitVec 32
  batch : Nat
  own : Bool
  deriving DecidableEq, Repr

/-- An edge of a level at its synchroniser: when it is first sampled, and for how long the level is held (R62). -/
structure EdgeIn where
  t : Nat
  held : Nat
  deriving DecidableEq, Repr

/-- An edge of Z, with the level it goes to (R68). -/
structure ZEdge where
  z : Bool
  t : Nat
  held : Nat
  deriving DecidableEq, Repr

/-- An edge of MAINS_SENSE or TIME_PPS (R56, R212). -/
structure PinEdge where
  rising : Bool
  t : Nat
  deriving DecidableEq, Repr

/-- A feedback channel in an INC frame (R230): reported count at CI, its fraction and the fraction that following uses (R101), and the flags. -/
structure FbIn where
  cnt : Int
  frac : Int
  fol : Int
  perValid : Bool
  seated : Bool
  fault : Bool
  deriving DecidableEq, Repr

/-- An entry of a boundary record BND (R234): a mirrored register write, or a boundary action. -/
inductive BndEntry where
  | write (addr : Nat) (value : Word)
  | paramSet (axis set : Nat)
  | overlay (slot : Nat) (select : Bool)
  /-- safe-off groups and brakes as commanded by the active -/
  | outputs (sto ss1 brk : Nat)
  | level (eff : Nat)
  | degraded
  /-- replace the whole selected set (R435) -/
  | overlaySet (req : Nat)
  deriving DecidableEq, Repr

/-- ADOPT content (R242). -/
inductive Adopt where
  | regs (img : List (Nat × Word))
  /-- state words of every profile, and of the group sequence -/
  | motion (prof : List (Nat × List Int)) (gw : List Int)
  /-- state words of the axes and movers of a batch -/
  | batch (b : Nat) (loops : List (Nat × List Int))
  deriving DecidableEq, Repr


/-- A STATE frame as received (R230): ACT and UNIT of its header, role, PR_STAT[19:8], CFGSIG, stored epoch and mains-lock index. -/
structure StateIn where
  act : Bool
  unitB : Bool
  role : BitVec 3
  status : BitVec 12
  cfgsig : BitVec 32
  stored : BitVec 16
  j : BitVec 11
  deriving DecidableEq, Repr

/-- How a frame on a CAN bus ends for a controller (R402, R405): as its transmitter, sent, arbitration lost, no dominant ACK, or another error; as a receiver, an error that adds 1 or 8 to REC; or a frame of another node that ends with nothing to note. -/
inductive FrameResult where
  | sent | lost | ackError | txError | rxError (eight : Bool) | foreign
  deriving DecidableEq, Repr

/-- A frame valid for the receiver (R409, R411, R418). -/
structure RxFrame where
  xtd : Bool
  fdf : Bool
  brs : Bool
  esi : Bool
  rtr : Bool
  dlc : BitVec 4
  base : BitVec 11
  ext : BitVec 18
  data : List (BitVec 8)
  noack : Bool
  deriving DecidableEq, Repr

/-- An instruction of the test access port (R478). -/
inductive TapOp where
  | bypass | idcode | sample | extest | clamp | highz
  /-- a maker's private instruction -/
  | makers
  deriving DecidableEq, Repr

/-- One byte of a dictionary message, of a PDO or of a host-port frame. -/
abbrev Byte := BitVec 8

/-- The ports by which dictionary traffic travels (R429): CAN, the link service channel with the node's address, the pair lane, the host port mailbox, and entry 2011h with the kind of the port by which the entry was written: 0 and 1 CAN, 2 link, 3 pair lane, 4 host port. -/
inductive KPort where
  | can (c : Fin 2)
  | link (node : LinkAddr)
  | pair
  | hp
  | entry (via : Nat)
  deriving DecidableEq, Repr

/-- Where a dictionary request comes from and goes to (R430): port it came by, source and destination SNN, request identifier, number of forwardings so far. -/
structure KFrom where
  port : KPort
  src : BitVec 18
  dst : BitVec 18
  reqid : BitVec 16
  hop : BitVec 8
  deriving DecidableEq, Repr

/-- A dictionary request (R430): data bytes least significant first. -/
structure KReq where
  from_ : KFrom
  write : Bool
  index : BitVec 16
  sub : BitVec 8
  data : List Byte
  deriving DecidableEq, Repr

/-- A response: data bytes, or an abort code. -/
inductive KResp where
  | data (bytes : List Byte)
  | abort (code : BitVec 32)
  deriving DecidableEq, Repr

/-- Relayed service-channel or dictionary traffic on the pair lane (R221, R282, R430, R438). -/
inductive LaneMsg where
  | request (q : KReq)
  | response (src : BitVec 18) (reqid : BitVec 16) (r : KResp)
  /-- a request for a link node, passed to the unit that leads the link -/
  | toNode (node : LinkAddr) (q : KReq)
  /-- an RW-S write to be logged in this unit too, and its outcome -/
  | logWrite (q : KReq)
  | logDone (src : BitVec 18) (reqid : BitVec 16) (ok : Bool)
  /-- a store, a restore or an overlay write to be completed in this unit too, and its outcome -/
  | complete (q : KReq)
  | completed (src : BitVec 18) (reqid : BitVec 16) (ok : Bool)
  deriving DecidableEq, Repr
/-- The commands: one constructor per row of the table of operations and events. -/
inductive Instr where
  -- Sundial (02); t is an instant in cy
  | w0Write (who : Requester) (e : Fin 2048) (v : Word)
  | timebaseStandstill (t : Fin 16)
  | mainsSenseEdge (e : PinEdge)
  -- Feedback and reference inputs (03); t is the time of the first sample of the new level, in cy, and held for how many cy the synchronised input holds it
  | quadratureEdge (n : Fin 16) (a b : Bool) (e : EdgeIn)
  | pulseAndDirectionStep (n : Fin 16) (b stable : Bool) (e : EdgeIn)
  | toothEdge (n : Fin 16) (b : Bool) (e : EdgeIn)
  | zIndex (n : Fin 16) (e : ZEdge)
  | ssiFrameEnd (n : Fin 16) (lowAtCi start tailHigh clkBad : Bool) (v : BitVec 32)
  | mainsZeroCrossing (n : Fin 16) (e : EdgeIn)
  | phaseLost (n : Fin 16)
  | fack (who : Requester) (n : Fin 16)
  | unseat (who : Requester) (n : Fin 16)
  -- Motion profiles (04); an Obj is an axis 0-255 or 256 + a mover
  | move (o : Obj)
  | speed (o : Obj)
  | follow (o : Obj)
  | stopNormal (o : Obj)
  | stopQuick (o : Obj)
  | landing (o : Obj)
  | ack (o : Obj)
  | standstillEntry (o : Obj)
  | standstillStore (o : Obj) (ok : Bool)
  | treatmentWithdrawalTimeout (o : Obj)
  -- Servo engine (05); late: a batch at its latest start; bad: the check lane disagrees
  | batchStart (late : Bool) (t : Nat)
  | batchEnd (bad : Bool) (t : Nat)
  | start (g : Fin 2)
  | abort (who : Requester) (g : Fin 2)
  | injectionEnd (g : Fin 2)
  -- Henbel link (07); port 0-3 is LKA0, LKA1, LKB0, LKB1
  | markReceived (p : Fin 4) (k : RxCheck) (m : MarkIn) (t : Nat)
  | cstartReceived (p : Fin 4) (k : RxCheck) (src : LinkAddr) (u : BitVec 64)
  | retry (who : Requester)
  | uplinkFrame (p : Fin 4) (k : RxCheck) (u : UplIn)
  | emptySlot (n : LinkAddr)
  | serviceDownlink (c : Fin 2)
  | serviceUplink (p : Fin 4) (k : RxCheck) (u : SvuIn) (accept : Bool)
  | setPointFrame (c : Fin 2)
  | partnerSetpHeard (p : Fin 4) (k : RxCheck) (n : LinkAddr) (seq : BitVec 32) (e : BitVec 16) (x : SetpIn)
  | linkPortSyncLost (p : PortId) (inFrame : Bool)
  | portSyncAcquired (p : PortId)
  | timePpsEdge (e : PinEdge)
  -- Group writes (04)
  -- Redundant head pair (08); every frame carries its header's epoch
  | stateReceived (k : RxCheck) (e : BitVec 16) (u : StateIn)
  | incReceived (k : RxCheck) (e : BitVec 16) (fb : List FbIn) (sdm : List (Int × BitVec 4)) (km : Nat)
  | inReceived (k : RxCheck) (e : BitVec 16) (b : Nat) (mask : BitVec 8) (recs : List UplRec)
  | sigReceived (k : RxCheck) (e : BitVec 16) (b : SigKey) (isig : BitVec 32) (osig : List (BitVec 16))
  | dresReceived (k : RxCheck) (e : BitVec 16) (pass : Bool)
  | bndCutOff (bad : Bool)
  | bndReceived (k : RxCheck) (e : BitVec 16) (entries : List BndEntry)
  | adoptReceived (k : RxCheck) (e : BitVec 16) (a : Adopt)
  | failReceived (k : RxCheck) (e : BitVec 16) (cause : BitVec 8)
  | xreqReceived (k : RxCheck) (e : BitVec 16) (x : BitVec 32)
  | xackReceived (k : RxCheck) (e : BitVec 16) (x : BitVec 32) (refusal : BitVec 8)
  -- Belvedere (06)
  | arm (who : Requester) (g : Fin 4)
  | force (who : Requester) (g : Fin 4)
  | stop (who : Requester) (g : Fin 4)
  | recordDone (g : Fin 4)
  | arch (who : Requester) (g : Fin 4) (slot : Fin 64) (ovw : Bool)
  | archiveComplete (ok : Bool)
  -- Gatehouse (09)
  | dsto (who : Requester) (groups : BitVec 4)
  | dss1 (who : Requester) (groups : BitVec 4)
  | gatehouseAck (who : Requester) (groups : BitVec 4)
  | bdlyExpiry (g : Fin 4)
  | ss1tExpiry (g : Fin 4)
  | demandDiscrepancy (d : Fin 8)
  | testPulse (g : Fin 4) (low : Bool)
  | testPulseEnd (g : Fin 4) (pass : Bool)
  | safeOffLineMismatch (g : Fin 4)
  | brakeFeedbackMismatch (n : Fin 8)
  | brkFbChange (n : Fin 8) (level : Bool)
  | watchdogService (who : Requester) (c : Fin 3) (v : Word) (t : Nat)
  | watchdogConfigWrite (who : Requester) (c : Fin 3) (v : Word) (t : Nat)
  | watchdogWindowMissed (c : Fin 3)
  | rescan (b : Fin 16384) (off : Fin 64) (mask : Word)
  | scrub (m : EccMem) (e : Ecc)
  | clockFault (reference : Bool)
  -- Pumphouse (10); stuck: the bitstream has held one level for 4 x OSR clocks; rails in mV
  | sdmResult (k : Fin 8) (r : Word) (stuck : Bool)
  | railFault (r : Fin 4)
  | railMeasurement (vcore vser vaux vio : Word)
  -- CAN FD ports (15)
  | initSet (who : Requester) (c : Fin 2)
  | initClear (who : Requester) (c : Fin 2)
  | integrationComplete (c : Fin 2)
  | txrq (who : Requester) (c : Fin 2) (o : Fin 128)
  | cancel (who : Requester) (c : Fin 2) (o : Fin 128)
  | push (who : Requester) (c : Fin 2)
  | flush (who : Requester) (c : Fin 2)
  | rpop (who : Requester) (c : Fin 2)
  | pop (who : Requester) (c : Fin 2)
  | startOfFrame (c : Fin 2) (t : Nat)
  | frameEnd (c : Fin 2) (r : FrameResult) (tdcm : Option (Fin 128)) (t : Nat)
  | frameReceived (c : Fin 2) (f : RxFrame) (sof : Nat)
  | busOffRecovery (c : Fin 2)
  -- Start-up, reset and test access (19, 20); testEn: TEST_EN was high when PORST_N was released
  | powerUpEnd (testEn : Bool)
  | bootStepComplete (damaged : BitVec 5)
  | nvPdataWrite (hi lo : Word)
  | nvMdataWrite (v : Word)
  | nvMdataRead (who : Requester)
  | run (who : Requester)
  | bstore (who : Requester)
  | swrst (who : Requester)
  | recov (who : Requester)
  | tapInstruction (op : TapOp)
  -- Object dictionary (16), password and change log (09), CANopen services (15)
  | svcReceived (k : RxCheck) (e : BitVec 16) (m : LaneMsg)
  | roleExchange (f : KFrom) (data : List Byte)
  | password (f : KFrom) (data : List Byte)
  | close (f : KFrom) (data : List Byte)
  | newPassword (f : KFrom) (data : List Byte)
  | authorisationIdleTimeout (src : BitVec 18) (port : KPort)
  | logAck (f : KFrom) (data : List Byte)
  | logEntryVerified (ok : Bool)
  | sdoRequest (c : Fin 2) (write : Bool) (index : BitVec 16) (sub : BitVec 8) (data : List Byte) (reqid : BitVec 16)
  | nmtResetNode (c : Fin 2)
  | nmtResetCommunication (c : Fin 2)
  | nmtStopped (c : Fin 2)
  | heartbeat (c : Fin 2)
  | rpdo (n : Fin 64) (data : List Byte)
  | tpdoEventTimer (n : Fin 64)
  | tpdoInhibitExpiry (n : Fin 64)
  | dictionaryRead (f : KFrom) (index : BitVec 16) (sub : BitVec 8)
  | dictionaryWrite (f : KFrom) (index : BitVec 16) (sub : BitVec 8) (data : List Byte)
  | key (f : KFrom) (data : List Byte)
  | storeParameters (f : KFrom) (data : List Byte)
  | restoreDefaults (f : KFrom) (data : List Byte)
  | routedRequest (f : KFrom) (data : List Byte)
  | routedResponse (f : KFrom)
  | overlayWrite (f : KFrom) (k : Fin 16) (data : List Byte)
  | approval (f : KFrom) (k : Fin 16) (data : List Byte)
  | overlaySelection (f : KFrom) (data : List Byte)
  | forwardTimeout (msgid : BitVec 8)
  | forwardedResponse (msgid : BitVec 8) (r : KResp)
  | configurationStoreComplete (ok : Bool)
  | go (who : Requester)
  -- Register accesses (17) and the commits of 04 and 05
  | registerWrite (who : Requester) (a : Addr) (v : Word)
  | scUnlock (who : Requester) (v : Word)
  | hostPortFrame (frame : List Byte)
  | gpioEdge (pin : Fin 32) (level : Bool)
  | biquadCommit (who : Requester) (n : Fin 1024) (v : Word)
  | blendTableCommit (who : Requester) (n : Fin 192) (v : Word)
  -- The cycle (01, 07, 17): a servo-period boundary and a common instant, at cycle t
  | servoPeriodBoundary (t : Nat)
  | commonInstant (t : Nat)
  -- Control cores: event entry, halt, memory traffic (11); c is the core
  | taskAcceptance (c : CoreId) (h : Nat)
  | halt (who : Requester) (c : CoreId)
  | storeBufferDrain (c : CoreId)
  | loadDataReturn (c : CoreId)
  -- Dual words by their A-slot operation; m is the M-slot operation of the same word (12)
  | nop (c : CoreId) (m : MSlot)
  | add (c : CoreId) (d r : DReg) (m : MSlot)
  | adc (c : CoreId) (d r : DReg) (m : MSlot)
  | sub (c : CoreId) (d r : DReg) (m : MSlot)
  | sbc (c : CoreId) (d r : DReg) (m : MSlot)
  | cmp (c : CoreId) (d r : DReg) (m : MSlot)
  | and (c : CoreId) (d r : DReg) (m : MSlot)
  | or (c : CoreId) (d r : DReg) (m : MSlot)
  | xor (c : CoreId) (d r : DReg) (m : MSlot)
  | adds (c : CoreId) (d r : DReg) (m : MSlot)
  | subs (c : CoreId) (d r : DReg) (m : MSlot)
  | min (c : CoreId) (d r : DReg) (m : MSlot)
  | max (c : CoreId) (d r : DReg) (m : MSlot)
  | tst (c : CoreId) (d r : DReg) (m : MSlot)
  | neg (c : CoreId) (d : DReg) (m : MSlot)
  | abs (c : CoreId) (d : DReg) (m : MSlot)
  | not (c : CoreId) (d : DReg) (m : MSlot)
  | asl (c : CoreId) (d : DReg) (n : Fin 20) (m : MSlot)
  | asr (c : CoreId) (d : DReg) (n : Fin 20) (m : MSlot)
  | lsr (c : CoreId) (d : DReg) (n : Fin 20) (m : MSlot)
  | aslv (c : CoreId) (d r : DReg) (m : MSlot)
  | asrv (c : CoreId) (d r : DReg) (m : MSlot)
  | lsrv (c : CoreId) (d r : DReg) (m : MSlot)
  | bset (c : CoreId) (d : DReg) (b : Fin 20) (m : MSlot)
  | bclr (c : CoreId) (d : DReg) (b : Fin 20) (m : MSlot)
  | btst (c : CoreId) (d : DReg) (b : Fin 20) (m : MSlot)
  | norm (c : CoreId) (d r : DReg) (m : MSlot)
  | exp (c : CoreId) (d r : DReg) (m : MSlot)
  | mpy (c : CoreId) (k : AcId) (d r : DReg) (mode : MacMode) (m : MSlot)
  | mac (c : CoreId) (k : AcId) (d r : DReg) (mode : MacMode) (m : MSlot)
  | msu (c : CoreId) (k : AcId) (d r : DReg) (mode : MacMode) (m : MSlot)
  | lda (c : CoreId) (k : AcId) (d : DReg) (m : MSlot)
  | adda (c : CoreId) (k : AcId) (d : DReg) (m : MSlot)
  | suba (c : CoreId) (k : AcId) (d : DReg) (m : MSlot)
  | clra (c : CoreId) (k : AcId) (m : MSlot)
  | nega (c : CoreId) (k : AcId) (m : MSlot)
  | absa (c : CoreId) (k : AcId) (m : MSlot)
  | shav (c : CoreId) (k : AcId) (r : DReg) (m : MSlot)
  | suma (c : CoreId) (k : AcId) (m : MSlot)
  | norma (c : CoreId) (k : AcId) (d : DReg) (m : MSlot)
  | expa (c : CoreId) (d : DReg) (k : AcId) (m : MSlot)
  | rnda (c : CoreId) (k : AcId) (m : MSlot)
  -- A-immediate words
  | addi (c : CoreId) (d : DReg) (imm : Word)
  | subi (c : CoreId) (d : DReg) (imm : Word)
  | cmpi (c : CoreId) (d : DReg) (imm : Word)
  | andi (c : CoreId) (d : DReg) (imm : Word)
  | ori (c : CoreId) (d : DReg) (imm : Word)
  | xori (c : CoreId) (d : DReg) (imm : Word)
  | tsti (c : CoreId) (d : DReg) (imm : Word)
  | ldi (c : CoreId) (d : DReg) (imm : Word)
  -- Dual words whose A-slot is NOP, by their M-slot operation
  | ldxy (c : CoreId) (dx dy : DReg) (a b : Fin 4) (ma mb : Modify) (ecc : Ecc)
  | stxy (c : CoreId) (dx dy : DReg) (a b : Fin 4) (ma mb : Modify)
  | ld (c : CoreId) (r : RCode) (k : Unit8) (mod : Modify) (w : Bool) (ecc : Ecc)
  | st (c : CoreId) (r : RCode) (k : Unit8) (mod : Modify) (w : Bool)
  | mov (c : CoreId) (rd rs : RCode)
  | movf (c : CoreId) (dd : DReg) (k : AcId) (sh : BitVec 5)
  | movi (c : CoreId) (rd : RCode) (imm : BitVec 11)
  | moda (c : CoreId) (k : Unit8) (mod : Modify)
  -- Long moves, control flow, repeat and system words
  | ldLong (c : CoreId) (r : RCode) (addr : Addr) (ecc : Ecc)
  | stLong (c : CoreId) (r : RCode) (addr : Addr)
  | movi24 (c : CoreId) (r : RCode) (imm : BitVec 24)
  | b (c : CoreId) (cond : Cond) (anl : Bool) (target : BitVec 17)
  | call (c : CoreId) (cond : Cond) (anl : Bool) (r : DReg) (target : BitVec 17)
  | jr (c : CoreId) (cond : Cond) (anl : Bool) (r : DReg)
  | lbrk (c : CoreId)
  | rpt (c : CoreId) (count : RptCount) (last : BitVec 17)
  | systemNop (c : CoreId)
  | wait (c : CoreId)
  | rte (c : CoreId)
  | illegalInstruction (c : CoreId) (why : BadWord)
  -- Pergola (13)
  | post (who : Requester) (n : CoreId) (desc : BitVec 9)
  | dpost (who : Requester) (n : CoreId) (desc : BitVec 9)
  | dcancel (who : Requester) (n : CoreId) (handle : Word)
  | eventSourcePost (n : Fin 128)
  -- Performance counters (14)
  | snap (who : Requester)
  | counterLoad (who : Requester) (k : Fin 112) (lo : Word)
  | counterWrap (k : Fin 112) (amount : Fin 3)
  -- Commands without operands, of every block, in the table's order
  | sundialUpdate
  | sundialDispatch
  | mainsLost
  | listenEnd
  | coldstartEnd
  | clash
  | ppsHoldover
  | stage
  | abortBeforeCommit
  | clear
  | groupCommitDecision
  | groupInconsistent
  | diagnosisOutcome
  | pairLost
  | bridging
  | takeover
  | xackTimeout
  | exchange
  | exchangeOverlapEnd
  | demandInputSample
  | refreshLoss
  | degradedTimeExpiry
  | faultRecordWrite
  | retTExpiry
  | chopperDutyEnd
  | porstNLow
  | railPowerOnReset
  | rstNReset
  | rstNRelease
  | bwaitExpiry
  | bootHold
  | bootHoldRelease
  | autorunExpiry
  | flushComplete
  | internalResetRelease
  | operatingHour
  | tapReset
  | lockoutEnd
  | partnerCompletionTimeout
  | slowDomainTransfer
  | systemTick
  deriving DecidableEq, Repr

end Sys2Proof
end

