-- ==== Sys2Proof/Decode.lean ====
section
/-! DEFINITION. The part takes commands, not words: no row of the table of operations and events gives its command any bits, so no word spells one. -/

namespace Sys2Proof

/-- The command a word spells: none, since no row of the table has bits. -/
def decodeTableWord (_nbits _w : Nat) : Option Instr := none

end Sys2Proof
end

