-- ==== Sys2Proof/Config.lean ====
section
/-! DEFINITION. What an implementation fixes and the free values: values the spec leaves open, about which nothing can be proved. -/

namespace Sys2Proof

/-- The n-th free value (DESIGN CHOICE, log entry 2): nothing constrains it. State.freeCtr numbers the uses. -/
opaque Config.freeValue : Nat → Nat

/-- UID, the 64-bit unique device number fused at manufacture (R194). -/
opaque Config.uid : BitVec 64

/-- The silicon revision, bits 31:28 of IDCODE (R478) and the revision number of 1018h:03h (R424). -/
opaque Config.siliconRevision : BitVec 4

/-- Hardware version string of 1009h:00h, two characters (R424). -/
opaque Config.hardwareVersion : BitVec 16

/-- By how much a word of the fixed sine table of R156 differs from the sine, within half a unit of Q1.19: the spec does not give the table's words (DESIGN CHOICE, log entry 68). -/
opaque Config.sineError : Nat → Nat

/-- The firmware's table of the entries 5000h-5FFFh (R428): the type code of R421 of an index and sub-index, 0 where the table names no entry. -/
opaque Config.firmwareType : Nat → Nat → Nat

/-- The access right of such an entry: 0 CONST, 1 RO, 2 WO, 3 RW, 4 RW-K, 5 RW-S. -/
opaque Config.firmwareRight : Nat → Nat → Nat

/-- The attributes of such an entry: 1 for P, 2 for O, 4 for M (R428). -/
opaque Config.firmwareAttr : Nat → Nat → Nat

/-- The register that backs such an entry, 0 where firmware alone supplies its value (R428). -/
opaque Config.firmwareReg : Nat → Nat → Nat

/-- The value that firmware supplies for such an entry at one time, and its default: free values, named by index, sub-index and a counter (R428; DESIGN CHOICE, log entry 2). -/
opaque Config.firmwareValue : Nat → Nat → Nat → Nat
opaque Config.firmwareDefault : Nat → Nat → Nat

/-- What a division by a scale of 0 makes of a value (SV_VMAX, SV_AFS or SV_MNOM at 0), which the spec does not state (DESIGN CHOICE, log entry 43). -/
opaque Config.byZeroScale : Int → Int

/-- What a result outside its number format becomes, which the spec does not state (DESIGN CHOICE, log entry 45). -/
opaque Config.beyondFormat : Int → Nat

end Sys2Proof
end

