-- ==== Sys2Proof/Machine/Bits.lean ====
section
/-! DEFINITION. Bit fields, sign extension, saturation, rounding and the cyclic redundancy checks, each written once (17 R441, 07 R193, 04 R108). -/

namespace Sys2Proof.Machine

/-- Bits hi..lo of a word as a number. -/
def fld (w : Word) (hi lo : Nat) : Nat := w.toNat / 2 ^ lo % 2 ^ (hi + 1 - lo)

/-- Bit n of a word. -/
def bit (w : Word) (n : Nat) : Bool := w.toNat / 2 ^ n % 2 == 1

/-- A number with its bits hi..lo replaced. -/
def natSetFld (w hi lo v : Nat) : Nat :=
  w / 2 ^ (hi + 1) * 2 ^ (hi + 1) + v % 2 ^ (hi + 1 - lo) * 2 ^ lo + w % 2 ^ lo

/-- A word with its bits hi..lo replaced. -/
def setFld (w : Word) (hi lo v : Nat) : Word := word (natSetFld w.toNat hi lo v)

/-- A word with bit n replaced. -/
def setBit (w : Word) (n : Nat) (b : Bool) : Word := setFld w n n b.toNat

/-- The signed value of an n-bit field. -/
def sext (n v : Nat) : Int :=
  if v % 2 ^ n < 2 ^ (n - 1) then (v % 2 ^ n : Nat) else ((v % 2 ^ n : Nat) : Int) - 2 ^ n

/-- The signed value of bits hi..lo of a word. -/
def sfld (w : Word) (hi lo : Nat) : Int := sext (hi + 1 - lo) (fld w hi lo)

/-- The signed value of a word (Q1.19 in units of 2^-19). -/
def sval (w : Word) : Int := w.toInt

/-- A value clamped to an interval. -/
def clampI (lo hi v : Int) : Int := if v < lo then lo else if hi < v then hi else v

/-- A value saturated to n bits two's complement. -/
def satI (n : Nat) (v : Int) : Int := clampI (-(2 ^ (n - 1))) (2 ^ (n - 1) - 1) v

/-- The residue of an integer modulo 2^n, as a number. -/
def wrapN (n : Nat) (v : Int) : Nat := (v % (2 ^ n : Int)).toNat

/-- Two's complement value of an integer taken modulo 2^n. -/
def wrapI (n : Nat) (v : Int) : Int := sext n (wrapN n v)

/-- Arithmetic right shift, truncating toward minus infinity. -/
def asr (v : Int) (n : Nat) : Int := v / (2 ^ n : Int)

/-- Right shift rounding to nearest, ties toward plus infinity. -/
def roundShift (v : Int) (n : Nat) : Int := if n = 0 then v else (v + 2 ^ (n - 1)) / (2 ^ n : Int)

/-- Quotient rounded to nearest, ties toward plus infinity (the divisor is positive). -/
def roundDiv (a b : Int) : Int := if b = 0 then 0 else (2 * a + b) / (2 * b)

/-- The distance and order of serial numbers modulo 2^k: a is newer than b (R508). -/
def serialNewer (k a b : Nat) : Bool :=
  let d := (a + 2 ^ k - b % 2 ^ k) % 2 ^ k
  decide (1 ≤ d) && decide (d ≤ 2 ^ (k - 1) - 1)

/-- Serial number a is older than b: it differs and is not newer, so a distance of half the range counts as older (R508). -/
def serialOlder (k a b : Nat) : Bool := a % 2 ^ k != b % 2 ^ k && !serialNewer k a b

/-- The n bits of a number, most significant first. -/
def bitsOf : Nat → Nat → List Bool
  | 0, _ => []
  | n + 1, v => (v / 2 ^ n % 2 == 1) :: bitsOf n v

/-- One step of a CRC register of width n and polynomial p, most significant bit first. -/
def crcStep (n p : Nat) (c : Nat) (b : Bool) : Nat :=
  let top := (c / 2 ^ (n - 1) % 2 == 1)
  let sh := c * 2 % 2 ^ n
  if top != b then sh ^^^ p else sh

/-- A CRC of a bit string. -/
def crcBits (n p init : Nat) (bs : List Bool) : Nat := bs.foldl (crcStep n p) init

/-- CRC-32 of R193: polynomial 04C11DB7h, first remainder all ones, result inverted. -/
def crc32 (bs : List Bool) : Nat := crcBits 32 0x04C11DB7 0xFFFFFFFF bs ^^^ 0xFFFFFFFF

/-- CRC-16 of R108: polynomial 1021h, first remainder FFFFh. -/
def crc16 (bs : List Bool) : Nat := crcBits 16 0x1021 0xFFFF bs

/-- The bits of a list of words, each taken as 20 bits. -/
def wordBits (ws : List Word) : List Bool := ws.flatMap fun w => bitsOf 20 w.toNat

/-- The bit-reversal of an n-bit number (R357). -/
def revBits : Nat → Nat → Nat
  | 0, _ => 0
  | n + 1, v => v % 2 * 2 ^ n + revBits n (v / 2)

/-- Largest r with r * r at most v, found bit by bit. -/
def isqrtAux : Nat → Nat → Nat → Nat
  | 0, _, r => r
  | n + 1, v, r => isqrtAux n v (if (r + 2 ^ n) * (r + 2 ^ n) ≤ v then r + 2 ^ n else r)

/-- Integer square root, rounded down. -/
def isqrt (v : Nat) : Nat := isqrtAux 40 v 0

end Sys2Proof.Machine
end

