-- ==== Sys2Proof/Machine/RegMap.lean ====
section
/-! DEFINITION. The register map: every register of every block, its fields, access codes, reset values and marks, from the register tables of the chapters (17 R455, R457). -/

namespace Sys2Proof.Machine

/-- The access codes of R442. -/
inductive Access where
  | rw | ro | wo | sc | w1c | w0c
  deriving DecidableEq, Repr

/-- The Takes effect marks of R13. -/
inductive Mark where
  | b | i
  deriving DecidableEq, Repr

/-- One field of a register table. -/
structure Fld where
  hi : Nat
  lo : Nat
  acc : Access
  mark : Mark
  reset : Nat
  cfg : Bool
  deriving DecidableEq, Repr

/-- One row of a register map: a register, or an array of n by m registers. -/
structure RegRow where
  name : String
  base : Nat
  fields : List Fld
  n : Nat
  step : Nat
  m : Nat
  step2 : Nat
  /-- K register (R451). -/
  k : Bool
  /-- (S) register: written only by Kiosk (R282). -/
  sec : Bool
  /-- Marked "paired, atomic" with its neighbour (R443). -/
  pair : Bool
  deriving DecidableEq, Repr

def rwI (hi lo : Nat) (reset : Nat := 0) : Fld := ⟨hi, lo, .rw, .i, reset, false⟩
def rwB (hi lo : Nat) (reset : Nat := 0) : Fld := ⟨hi, lo, .rw, .b, reset, false⟩
/-- RW, CONFIG only, mark I. -/
def cfI (hi lo : Nat) (reset : Nat := 0) : Fld := ⟨hi, lo, .rw, .i, reset, true⟩
/-- RW, CONFIG only, mark B. -/
def cfB (hi lo : Nat) (reset : Nat := 0) : Fld := ⟨hi, lo, .rw, .b, reset, true⟩
def ro (hi lo : Nat) (reset : Nat := 0) : Fld := ⟨hi, lo, .ro, .i, reset, false⟩
def wo (hi lo : Nat) : Fld := ⟨hi, lo, .wo, .i, 0, false⟩
/-- W, self-clearing. -/
def scI (hi lo : Nat) : Fld := ⟨hi, lo, .sc, .i, 0, false⟩
def scB (hi lo : Nat) : Fld := ⟨hi, lo, .sc, .b, 0, false⟩
def w1c (hi lo : Nat) (reset : Nat := 0) : Fld := ⟨hi, lo, .w1c, .i, reset, false⟩
def w0c (hi lo : Nat) (reset : Nat := 0) : Fld := ⟨hi, lo, .w0c, .i, reset, false⟩

/-- One register. -/
def reg (name : String) (base : Nat) (fields : List Fld) : RegRow :=
  ⟨name, base, fields, 1, 1, 1, 1, false, false, false⟩

/-- A 20-bit counter: RW, reset 0, takes effect I. -/
def cnt (name : String) (base : Nat) : RegRow := reg name base [rwI 19 0]

/-- An array of n registers, one every step addresses. -/
def RegRow.arr (r : RegRow) (n step : Nat) : RegRow := { r with n := n, step := step }

/-- A second index inside the first. -/
def RegRow.arr2 (r : RegRow) (m step2 : Nat) : RegRow := { r with m := m, step2 := step2 }

def RegRow.locked (r : RegRow) : RegRow := { r with k := true }
def RegRow.kioskOnly (r : RegRow) : RegRow := { r with sec := true }
def RegRow.paired (r : RegRow) : RegRow := { r with pair := true }

/-- Whether an address is one of a row's registers. -/
def RegRow.holds (r : RegRow) (a : Nat) : Bool :=
  if a < r.base then false
  else
    let off := a - r.base
    let i := off / r.step
    let rest := off % r.step
    decide (i < r.n) && decide (rest % r.step2 = 0) && decide (rest / r.step2 < r.m)

/-- The first index of an address in a row. -/
def RegRow.index (r : RegRow) (a : Nat) : Nat := (a - r.base) / r.step

/-- The row of a list that holds an address. -/
def findRow : List RegRow → Nat → Option RegRow
  | [], _ => none
  | r :: rs, a => if r.holds a then some r else findRow rs a

/-- The reset word of a list of fields. -/
def fieldsReset : List Fld → Nat
  | [] => 0
  | f :: fs => f.reset * 2 ^ f.lo + fieldsReset fs

/-- Sundial (02, Registers). W1 to W4 of an event entry are staged words that only a write of W0 commits (R48): they carry mark I here and the commit reads them. -/
def sdRows : List RegRow := [
  (reg "SD_TBn_CFG" 0xF00000 [rwB 19 19, rwB 18 16, rwB 15 15, rwB 14 14 1, rwB 7 0]).arr 16 16,
  ((reg "SD_TBn_MOD_HI" 0xF00002 [rwB 19 0]).arr 16 16).paired,
  ((reg "SD_TBn_MOD_LO" 0xF00003 [rwB 19 0]).arr 16 16).paired,
  (reg "SD_TBn_STILL" 0xF00004 [rwB 15 0 0x3E8]).arr 16 16,
  (reg "SD_TBn_STAT" 0xF00005 [ro 19 19, ro 18 18, ro 17 17, ro 16 16, w1c 15 15, w1c 14 14, ro 13 13]).arr 16 16,
  ((reg "SD_TBn_VAL_HI" 0xF00006 [ro 19 0]).arr 16 16).paired,
  ((reg "SD_TBn_VAL_LO" 0xF00007 [ro 19 0]).arr 16 16).paired,
  (reg "SD_TBn_VAL_FR" 0xF00008 [ro 19 8]).arr 16 16,
  reg "SD_ML_CFG" 0xF00100 [rwB 19 19, rwB 18 16 4, rwB 10 0 0x280],
  reg "SD_ML_PHASE" 0xF00101 [rwB 19 0],
  reg "SD_ML_STAT" 0xF00102 [ro 19 19, ro 18 18, ro 17 17, ro 16 16, ro 15 15, ro 11 0],
  (reg "SD_PERIOD_HI" 0xF00104 [ro 15 0 0x493E]).paired,
  (reg "SD_PERIOD_LO" 0xF00105 [ro 19 4]).paired,
  reg "SD_STAT" 0xF00106 [w1c 19 19, ro 18 18],
  cnt "SD_HOLD_CNT" 0xF00107,
  cnt "SD_LOST_CNT" 0xF00108,
  reg "SD_HOLDQ_LVL" 0xF00109 [ro 6 0],
  (reg "SD_W0" 0xF01000 [rwI 19 19, rwI 18 17, rwI 16 16, rwI 15 12, rwI 11 8, rwI 7 4, w0c 3 3, ro 2 2, ro 1 1, w0c 0 0]).arr 2048 1,
  (reg "SD_W1" 0xF01800 [rwI 19 0]).arr 2048 1,
  (reg "SD_W2" 0xF02000 [rwI 19 0]).arr 2048 1,
  (reg "SD_W3" 0xF02800 [rwI 19 8]).arr 2048 1,
  (reg "SD_W4" 0xF03000 [rwI 19 0]).arr 2048 1]

/-- Feedback and reference inputs (03 R87). -/
def fbRows : List RegRow := [
  (reg "FB_n_CFG" 0xF04000 [rwB 19 17, rwB 16 16, rwB 15 14, rwB 13 8, rwB 7 0]).arr 16 32,
  (reg "FB_n_REFCFG" 0xF04001 [rwB 19 18, rwB 17 16 1, rwB 15 12, rwB 11 11 1]).arr 16 32,
  (reg "FB_n_NTEETH" 0xF04002 [rwB 19 0]).arr 16 32,
  (reg "FB_n_SSI" 0xF04003 [rwB 19 14 0xD, rwB 13 13, rwB 11 0 0x257]).arr 16 32,
  (reg "FB_n_SSI_AUX" 0xF04004 [rwB 19 14 0x14, rwB 13 11]).arr 16 32,
  ((reg "FB_n_REFPOS_HI" 0xF04006 [rwB 19 0]).arr 16 32).paired,
  ((reg "FB_n_REFPOS_LO" 0xF04007 [rwB 19 0]).arr 16 32).paired,
  ((reg "FB_n_CNT_HI" 0xF04008 [ro 19 0]).arr 16 32).paired,
  ((reg "FB_n_CNT_LO" 0xF04009 [ro 19 0]).arr 16 32).paired,
  ((reg "FB_n_RAW_HI" 0xF0400A [ro 19 0]).arr 16 32).paired,
  ((reg "FB_n_RAW_LO" 0xF0400B [ro 19 0]).arr 16 32).paired,
  ((reg "FB_n_ZCAP_HI" 0xF0400C [ro 19 0]).arr 16 32).paired,
  ((reg "FB_n_ZCAP_LO" 0xF0400D [ro 19 0]).arr 16 32).paired,
  ((reg "FB_n_PER_HI" 0xF0400E [ro 3 0 0xF]).arr 16 32).paired,
  ((reg "FB_n_PER_LO" 0xF0400F [ro 19 0 0xFFFFF]).arr 16 32).paired,
  (reg "FB_n_STAT" 0xF04010 [ro 19 19, ro 18 18, w1c 17 17, w1c 16 16, w1c 15 15, w1c 14 14, w1c 13 13, ro 12 12, ro 11 11, ro 10 10, ro 9 9, w1c 8 8, w1c 7 7, ro 6 6, w1c 5 5, ro 4 4]).arr 16 32,
  (reg "FB_n_CTRL" 0xF04011 [scI 19 19, scI 18 18]).arr 16 32,
  (cnt "FB_n_MISCNT" 0xF04012).arr 16 32,
  (cnt "FB_n_ERRCNT" 0xF04013).arr 16 32,
  (reg "FB_n_REFEDGES" 0xF04014 [ro 19 0]).arr 16 32,
  (reg "FB_n_SSI_MAXD" 0xF04015 [rwB 19 0 0xFFFFF]).arr 16 32,
  (reg "FB_FBOm_CFG" 0xF04200 [rwB 19 19, rwB 18 15]).arr 8 1]

/-- The registers that axis and mover blocks of the motion profiles share, offsets +00h to +23h (04 R124). -/
def mpShared (base n : Nat) : List RegRow :=
  let w (name : String) (off : Nat) (f : List Fld) : RegRow := (reg name (base + off) f).arr n 64
  [ w "MP_CFG" 0 [rwB 19 19, rwB 18 18 1, rwB 17 17, rwB 16 16, rwB 15 15, rwB 14 14],
    w "MP_CMD" 1 [scB 19 16],
    w "MP_STAT" 2 [ro 19 17, ro 16 15, ro 14 14, ro 13 13, w1c 12 12, ro 11 11, w1c 10 10, ro 9 9, w1c 8 8, ro 7 7, w1c 6 6, w1c 5 5, w1c 4 4, ro 3 3, w1c 2 2, ro 1 1, w1c 0 0],
    w "MP_STILL" 3 [rwB 19 8 0x10, rwB 7 0 0x64],
    (w "TGT_HI" 4 [rwB 19 0]).paired, (w "TGT_LO" 5 [rwB 19 0]).paired,
    (w "VTGT_HI" 6 [rwB 11 0]).paired, (w "VTGT_LO" 7 [rwB 19 0]).paired,
    (w "VLIM_HI" 8 [rwB 11 0]).paired, (w "VLIM_LO" 9 [rwB 19 0]).paired,
    (w "ALIM_HI" 10 [rwB 11 0]).paired, (w "ALIM_LO" 11 [rwB 19 0]).paired,
    (w "JLIM_HI" 12 [rwB 11 0]).paired, (w "JLIM_LO" 13 [rwB 19 0]).paired,
    (w "NRM_D_HI" 14 [rwB 11 0]).paired, (w "NRM_D_LO" 15 [rwB 19 0]).paired,
    (w "NRM_J_HI" 16 [rwB 11 0]).paired, (w "NRM_J_LO" 17 [rwB 19 0]).paired,
    (w "QCK_D_HI" 18 [rwB 11 0]).paired, (w "QCK_D_LO" 19 [rwB 19 0]).paired,
    (w "QCK_J_HI" 20 [rwB 11 0]).paired, (w "QCK_J_LO" 21 [rwB 19 0]).paired,
    (w "SAF_D_HI" 22 [rwB 11 0]).paired, (w "SAF_D_LO" 23 [rwB 19 0]).paired,
    (w "SAF_J_HI" 24 [rwB 11 0]).paired, (w "SAF_J_LO" 25 [rwB 19 0]).paired,
    (w "SP_HI" 26 [ro 19 0]).paired, (w "SP_LO" 27 [ro 19 0]).paired,
    w "XR_CFG" 28 [rwB 19 18, rwB 17 14, rwB 13 13],
    (w "XR_RATIO_HI" 30 [rwB 19 0]).paired, (w "XR_RATIO_LO" 31 [rwB 19 0]).paired,
    (w "XR_OFFS_HI" 32 [rwB 19 0]).paired, (w "XR_OFFS_LO" 33 [rwB 19 0]).paired,
    (w "XR_RLIM_HI" 34 [rwB 11 0]).paired, (w "XR_RLIM_LO" 35 [rwB 19 0]).paired ]

/-- Motion profiles (04 R124). W[0] to W[63] of a blend table are staged words that only a write of W[63] commits (R125): they carry mark I here. -/
def mpRows : List RegRow :=
  mpShared 0xF08000 256 ++ [
  (reg "SEG" 0xF08024 [rwB 19 16, rwB 15 8 0xFF]).arr 256 64,
  ((reg "ZONE_Z0_HI" 0xF08026 [rwB 19 0]).arr 256 64).paired,
  ((reg "ZONE_Z0_LO" 0xF08027 [rwB 19 0]).arr 256 64).paired,
  (reg "ZONE_LEN" 0xF08028 [rwB 19 0]).arr 256 64,
  (reg "BLEND" 0xF0C000 [rwI 19 0]).arr (192 * 64) 1] ++
  mpShared 0xF0F000 32 ++ [
  (reg "MV_CFG" 0xF0F024 [rwB 19 16, rwB 15 8, rwB 7 0]).arr 32 64,
  ((reg "MV_POS_HI" 0xF0F026 [ro 19 0]).arr 32 64).paired,
  ((reg "MV_POS_LO" 0xF0F027 [ro 19 0]).arr 32 64).paired,
  (reg "MV_FORCE" 0xF0F028 [ro 19 0]).arr 32 64,
  (reg "MV_MASS" 0xF0F029 [rwB 19 0]).arr 32 64,
  ((reg "MV_PMIN_HI" 0xF0F02A [rwB 19 0]).arr 32 64).paired,
  ((reg "MV_PMIN_LO" 0xF0F02B [rwB 19 0]).arr 32 64).paired,
  ((reg "MV_PMAX_HI" 0xF0F02C [rwB 19 0]).arr 32 64).paired,
  ((reg "MV_PMAX_LO" 0xF0F02D [rwB 19 0]).arr 32 64).paired,
  (reg "LD_CFG" 0xF0F800 [rwB 19 19, rwB 18 15]).arr 64 4,
  ((reg "LD_POS_HI" 0xF0F802 [rwB 19 0]).arr 64 4).paired,
  ((reg "LD_POS_LO" 0xF0F803 [rwB 19 0]).arr 64 4).paired,
  reg "MP_GW_CTRL" 0xF0FA00 [scB 19 16],
  reg "MP_GW_STAT" 0xF0FA01 [ro 19 18, ro 17 16, ro 15 0],
  reg "MP_GW_MISS" 0xF0FA02 [w1c 19 19, ro 6 0],
  (reg "MP_GW_MEMB" 0xF0FA04 [rwB 19 0]).arr 6 1,
  reg "MP_GSTAT" 0xF0FA10 [w1c 19 19, w1c 18 18, w1c 17 17]]

/-- The servo engine's axis windows, and the global registers at offsets E0h to FFh, held once at the window of axis 0 (05 R158). B0 to A2 of a biquad are staged words that only a write of A2 commits (R159). -/
def svRows : List RegRow :=
  let w (name : String) (off : Nat) (f : List Fld) : RegRow := (reg name (0xF10000 + off) f).arr 256 256
  [ w "SV_CFG" 0 [cfB 19 18, cfB 17 17, rwB 16 12, rwB 11 10, rwB 9 9, rwB 8 5],
    w "SV_PSET" 1 [rwB 19 18, ro 17 16],
    w "SV_STAT" 2 [ro 19 8],
    w "SV_STICKY" 3 [w1c 19 8],
    (w "SV_VMAX_HI" 4 [rwB 11 0]).paired, (w "SV_VMAX_LO" 5 [rwB 19 0]).paired,
    (w "SV_AFS_HI" 6 [rwB 11 0]).paired, (w "SV_AFS_LO" 7 [rwB 19 0]).paired,
    (w "SV_FBRATIO_HI" 8 [rwB 19 0]).paired, (w "SV_FBRATIO_LO" 9 [rwB 19 0]).paired,
    w "SV_SCALE" 10 [rwB 19 15 0x10, rwB 14 11],
    w "SV_FLIM_POS" 11 [rwB 18 0], w "SV_FLIM_NEG" 12 [rwB 18 0],
    w "SV_PRATED" 13 [rwB 19 0], w "SV_MNOM" 14 [rwB 19 0],
    (w "SV_SET0" 0x20 [rwB 19 0]).arr2 12 1, (w "SV_SET1" 0x30 [rwB 19 0]).arr2 12 1,
    (w "SV_SET2" 0x40 [rwB 19 0]).arr2 12 1, (w "SV_SET3" 0x50 [rwB 19 0]).arr2 12 1,
    (w "SV_SET_SH2" 0x2C [rwB 19 15]).arr2 4 16,
    (w "SV_BQ0" 0x60 [rwI 19 0]).arr2 5 1, (w "SV_BQ1" 0x68 [rwI 19 0]).arr2 5 1,
    (w "SV_BQ2" 0x70 [rwI 19 0]).arr2 5 1, (w "SV_BQ3" 0x78 [rwI 19 0]).arr2 5 1,
    (w "SV_XACT_HI" 0x80 [ro 19 0]).paired, (w "SV_XACT_LO" 0x81 [ro 19 0]).paired,
    w "SV_XACT_FR" 0x82 [ro 19 8],
    (w "SV_READ" 0x83 [ro 19 0]).arr2 3 1,
    (w "SV_IVEL_HI" 0x86 [ro 19 0]).paired, (w "SV_IVEL_LO" 0x87 [ro 19 0]).paired,
    (w "SV_READ" 0x88 [ro 19 0]).arr2 7 1,
    w "SV_CHKCNT" 0x90 [rwI 19 0],
    (w "SV_CHKSEQ_HI" 0x92 [ro 11 0]).paired, (w "SV_CHKSEQ_LO" 0x93 [ro 19 0]).paired,
    reg "SV_GSTAT" 0xF100E0 [ro 19 14, w1c 13 13, w1c 12 12, w1c 11 11, w1c 10 10],
    cnt "SV_GCHK" 0xF100E1,
    reg "SV_GEND" 0xF100E2 [ro 16 0],
    ((reg "INJ_CFG" 0xF100F0 [rwB 19 19, rwB 18 11, rwB 10 9, rwB 8 6, rwB 5 0]).arr 2 8).locked,
    (reg "INJ_AMP" 0xF100F1 [rwB 19 0]).arr 2 8,
    ((reg "INJ_F0_HI" 0xF100F2 [rwB 11 0]).arr 2 8).paired, ((reg "INJ_F0_LO" 0xF100F3 [rwB 19 0]).arr 2 8).paired,
    ((reg "INJ_F1_HI" 0xF100F4 [rwB 11 0]).arr 2 8).paired, ((reg "INJ_F1_LO" 0xF100F5 [rwB 19 0]).arr 2 8).paired,
    (reg "INJ_LEN" 0xF100F6 [rwB 19 0]).arr 2 8,
    (reg "INJ_CTRL" 0xF100F7 [scB 19 19, scI 18 18, ro 17 17, w1c 16 16, ro 15 13]).arr 2 8 ]

/-- Belvedere (06 R180). The group, channel and measurement settings are used from the ARM that follows them (R164). -/
def bvRows : List RegRow := [
  (reg "BV_CHn_SRC" 0xF20000 [rwB 19 16, rwB 15 8, rwB 7 4]).arr 16 2,
  (reg "BV_CHn_AUX" 0xF20001 [rwB 19 15, rwB 14 13]).arr 16 2,
  (reg "BV_Gg_CFG" 0xF20100 [rwB 19 8, rwB 7 1]).arr 4 16,
  (reg "BV_Gg_RED" 0xF20101 [rwB 19 4]).arr 4 16,
  ((reg "BV_Gg_NSAMP_HI" 0xF20102 [rwB 11 0]).arr 4 16).paired,
  ((reg "BV_Gg_NSAMP_LO" 0xF20103 [rwB 19 0]).arr 4 16).paired,
  (reg "BV_Gg_BASE" 0xF20104 [rwB 18 0]).arr 4 16,
  (reg "BV_Gg_LEN" 0xF20105 [rwB 19 0]).arr 4 16,
  (reg "BV_Gg_TRG" 0xF20106 [rwB 19 16, rwB 15 14, rwB 13 10, rwB 7 0]).arr 4 16,
  (reg "BV_Gg_TLO" 0xF20107 [rwB 19 0]).arr 4 16,
  (reg "BV_Gg_THI" 0xF20108 [rwB 19 0]).arr 4 16,
  (reg "BV_Gg_CTRL" 0xF20109 [scB 19 19, scI 18 18, scI 17 17, ro 16 14, ro 13 11, w1c 10 10, ro 9 9, w1c 8 8, w1c 7 7]).arr 4 16,
  (reg "BV_Gg_FPTR" 0xF20180 [ro 18 0]).arr 4 32,
  (reg "BV_Gg_NWORDS" 0xF20181 [ro 19 0]).arr 4 32,
  ((reg "BV_Gg_TIDX_HI" 0xF20182 [ro 19 0]).arr 4 32).paired,
  ((reg "BV_Gg_TIDX_LO" 0xF20183 [ro 19 0]).arr 4 32).paired,
  ((reg "BV_Gg_NREC_HI" 0xF20184 [ro 11 0]).arr 4 32).paired,
  ((reg "BV_Gg_NREC_LO" 0xF20185 [ro 19 0]).arr 4 32).paired] ++
  ((List.range 20).map fun i => (reg "BV_Gg_TIMES" (0xF20186 + i) [ro 19 0]).arr 4 32) ++ [
  (reg "BV_Gg_CH_MAP" 0xF2019A [ro 15 0]).arr 4 32,
  (reg "BV_Gg_FIRST_N" 0xF2019B [ro 16 0]).arr 4 32,
  ((reg "BV_Gg_Q0_HI" 0xF2019C [ro 11 0]).arr 4 32).paired,
  ((reg "BV_Gg_Q0_LO" 0xF2019D [ro 19 0]).arr 4 32).paired,
  (reg "BV_Mg_CFG" 0xF20200 [rwB 19 16, rwB 15 12, rwB 11 8, rwB 7 0 1]).arr 4 32,
  (reg "BV_Mg_MTGT" 0xF20201 [rwB 19 0]).arr 4 32,
  (reg "BV_Mg_SBAND" 0xF20202 [rwB 19 0]).arr 4 32,
  (reg "BV_Mg_VSTOP" 0xF20203 [rwB 19 0]).arr 4 32,
  (reg "BV_Mg_PLEVEL" 0xF20204 [rwB 19 0]).arr 4 32,
  (reg "BV_Mg_PHYST" 0xF20205 [rwB 19 0]).arr 4 32,
  (reg "BV_Mg_DSCALE" 0xF20206 [rwB 19 0]).arr 4 32,
  ((reg "BV_Mg_VSCALE_HI" 0xF20208 [rwB 11 0]).arr 4 32).paired,
  ((reg "BV_Mg_VSCALE_LO" 0xF20209 [rwB 19 0]).arr 4 32).paired,
  (reg "BV_Mg_RES" 0xF20210 [ro 19 0]).arr 4 32 |>.arr2 4 1,
  (((reg "BV_Mg_PERIOD" 0xF20214 [ro 19 0]).arr 4 32).arr2 2 1).paired,
  (reg "BV_Mg_OVS" 0xF20216 [ro 19 0]).arr 4 32,
  (((reg "BV_Mg_RES" 0xF20218 [ro 19 0]).arr 4 32).arr2 6 1).paired,
  (reg "BV_Mg_STAT" 0xF2021E [ro 19 19, ro 18 18, ro 17 17, ro 16 16]).arr 4 32,
  (reg "BV_ARC_CTRL" 0xF20280 [scI 19 19, rwI 18 17, rwI 16 11, rwI 10 10, ro 9 9, w1c 8 8, ro 7 5]).locked,
  (reg "BV_ARC_OCC" 0xF20281 [ro 15 0]).arr 4 1]

/-- Henbel link (07 R225). -/
def lkRows : List RegRow := [
  (reg "LK_CFG" 0xF28000 [cfB 19 19, cfB 18 18]).locked,
  reg "LK_GUARD" 0xF28001 [cfB 9 0 0x60],
  (reg "LK_HOPMAX" 0xF28002 [cfB 11 0 0x3E8]).arr 2 1,
  reg "LK_UPEND_MIN" 0xF28004 [cfB 19 0],
  reg "LK_UPEND" 0xF28005 [ro 19 0],
  (reg "LK_SVEND" 0xF28006 [ro 19 0]).arr 2 1,
  reg "LK_CTRL" 0xF28008 [scI 19 19],
  reg "LK_STAT" 0xF28009 [ro 19 17, ro 16 16, ro 15 15, ro 14 14, ro 13 13, w1c 12 12, w1c 11 11, w1c 10 10],
  (reg "LK_SEQ_HI" 0xF2800A [ro 11 0]).paired,
  (reg "LK_SEQ_LO" 0xF2800B [ro 19 0]).paired,
  reg "LK_EPOCH" 0xF2800C [ro 15 0],
  cnt "LK_SVC_NAKCNT" 0xF2800D,
  (reg "LK_PORTp_CFG" 0xF28010 [cfB 19 18]).arr 4 1,
  (reg "LK_PORTp_STAT" 0xF28014 [ro 19 19]).arr 4 1,
  (cnt "LK_PORTp_CRCCNT" 0xF28018).arr 4 1,
  (cnt "LK_PORTp_CODECNT" 0xF2801C).arr 4 1,
  reg "LK_TIME_0" 0xF28020 [ro 3 0],
  (reg "LK_TIME" 0xF28021 [ro 19 0]).arr 3 1,
  reg "LK_TIME_CFG" 0xF28024 [rwB 19 19],
  reg "LK_TIME_STAT" 0xF28025 [ro 19 19, ro 18 18, w1c 17 17, ro 11 0],
  (reg "LK_N_CFG" 0xF28120 [cfB 19 19, cfB 18 18, cfB 17 14, cfB 13 6]).arr 120 16,
  (reg "LK_N_STAT" 0xF28121 [ro 19 19, ro 18 18, ro 17 17]).arr 120 16,
  (cnt "LK_N_CNT" 0xF28122).arr 120 16 |>.arr2 5 1,
  (reg "LK_N_OFS" 0xF28127 [ro 19 0]).arr 120 16,
  (reg "LK_N_DLY0" 0xF28128 [ro 19 0 0xFFFFF]).arr 120 16,
  (reg "LK_N_DLY1" 0xF28129 [ro 19 0 0xFFFFF]).arr 120 16,
  (reg "LK_N_SLOT" 0xF2812A [ro 19 0]).arr 120 16]

/-- Redundant head pair (08 R254). -/
def prRows : List RegRow := [
  reg "PR_CFG" 0xF30000 [rwB 19 8 0x16D],
  (reg "PR_CTRL" 0xF30001 [scB 19 19]).locked,
  reg "PR_STAT" 0xF30002 [ro 19 17, ro 16 16, ro 15 15, ro 14 14, ro 13 13, ro 12 12, ro 11 11, ro 10 10, ro 9 9, w1c 8 8, w1c 7 7, ro 5 0],
  reg "PR_DIAG" 0xF30003 [ro 19 18, ro 17 16, ro 15 8, ro 7 0],
  (reg "PR_DIVSEQ_HI" 0xF30004 [ro 11 0]).paired,
  (reg "PR_DIVSEQ_LO" 0xF30005 [ro 19 0]).paired,
  reg "PR_XAGE" 0xF30006 [ro 19 0],
  (cnt "PR_CNT" 0xF30008).arr 7 1,
  (cnt "PR_LANE_CNT" 0xF30010).arr 2 1]

/-- Gatehouse (09 R287). -/
def ghRows : List RegRow := [
  (reg "GH_CFG" 0xF34000 [rwB 19 11 0x3C]).kioskOnly,
  (reg "GH_DEG_VCAP" 0xF34001 [rwB 19 0 0x26666]).kioskOnly,
  (reg "GH_DEG_LTOL" 0xF34002 [rwB 19 0 0x3E8]).kioskOnly,
  reg "GH_STAT" 0xF34003 [ro 19 19, ro 18 18, w1c 17 17, w1c 16 16],
  reg "GH_DEG_LEFT" 0xF34004 [ro 18 0],
  reg "GH_GRP" 0xF34005 [ro 19 16 0xF, ro 15 12, ro 7 0 0xFF],
  (reg "GH_CMD" 0xF34006 [scI 19 16, scI 15 12, scB 11 8]).locked,
  reg "GH_BRK_REQ" 0xF34007 [rwB 7 0],
  (reg "GH_BRK_CFG" 0xF34008 [cfB 15 0]).kioskOnly,
  (reg "GH_BRK_EN" 0xF34009 [cfB 19 11 0x32, cfB 7 0]).kioskOnly,
  (reg "GH_TP_CFG" 0xF3400A [rwB 19 14 0x14, cfB 13 13, rwB 12 0 0x64]).kioskOnly,
  (reg "GH_LK_CFG" 0xF3400B [rwB 19 16 3, rwB 15 14]).kioskOnly,
  ((reg "GH_GRPg_CFG" 0xF3400C [rwB 19 8 0x190, rwB 7 0 0x64]).arr 4 1).kioskOnly,
  ((reg "GH_DINd_CFG" 0xF34010 [rwB 19 19, rwB 18 18, rwB 17 17, rwB 16 16 1, rwB 15 12, rwB 11 8, rwB 7 0 0x32]).arr 8 1).kioskOnly,
  (reg "GH_WDc_CFG" 0xF34018 [rwI 19 10, rwI 9 0]).arr 3 1,
  (reg "GH_WDc_SVC" 0xF3401C [wo 19 0]).arr 3 1,
  ((reg "GH_AXGi" 0xF34020 [cfB 15 0]).arr 32 1).kioskOnly,
  reg "GH_FCODE" 0xF34040 [ro 19 12, ro 11 8, ro 7 0],
  (cnt "GH_FCNT" 0xF34041).arr 2 1,
  reg "GH_RS_STAT" 0xF34043 [w1c 19 19, ro 13 0],
  (reg "GH_PW_CFG" 0xF34044 [rwI 19 8 0x12C]).kioskOnly,
  reg "GH_PW_STAT" 0xF34045 [ro 19 19, ro 18 18, ro 17 17, ro 11 0],
  cnt "GH_PW_FAILCNT" 0xF34046,
  (reg "GH_LOG_NEXT_HI" 0xF34048 [ro 11 0]).paired,
  (reg "GH_LOG_NEXT_LO" 0xF34049 [ro 19 0]).paired,
  (reg "GH_LOG_ACK_HI" 0xF3404A [ro 11 0 0xFFF]).paired,
  (reg "GH_LOG_ACK_LO" 0xF3404B [ro 19 0 0xFFFFF]).paired,
  reg "GH_LOG_STAT" 0xF3404C [ro 19 19, ro 18 18, w1c 17 17, ro 12 0],
  ((reg "GH_CKc_CFG" 0xF34100 [rwB 19 19, rwB 18 15, rwB 14 13, rwB 12 11, rwB 10 9, rwB 8 5, rwB 4 3]).arr 64 8).kioskOnly,
  ((reg "GH_CKc_SRC" 0xF34101 [rwB 19 12, rwB 11 4]).arr 64 8).kioskOnly,
  (((reg "GH_CKc_LIM1_HI" 0xF34102 [rwB 11 0]).arr 64 8).kioskOnly).paired,
  (((reg "GH_CKc_LIM1_LO" 0xF34103 [rwB 19 0]).arr 64 8).kioskOnly).paired,
  (((reg "GH_CKc_LIM2_HI" 0xF34104 [rwB 11 0]).arr 64 8).kioskOnly).paired,
  (((reg "GH_CKc_LIM2_LO" 0xF34105 [rwB 19 0]).arr 64 8).kioskOnly).paired,
  ((reg "GH_CKc_SPAN" 0xF34106 [rwB 19 0]).arr 64 8).kioskOnly,
  (reg "GH_CKc_STAT" 0xF34107 [ro 19 19, ro 18 18, w1c 17 17, ro 16 16]).arr 64 8]

/-- Pumphouse (10 R307). -/
def phRows : List RegRow := [
  (reg "PH_CFG" 0xF38000 [rwB 19 16 2, rwB 15 8 0x64]).kioskOnly,
  (reg "PH_PHCH" 0xF38001 [rwB 15 0]).kioskOnly,
  (reg "PH_BUS_CFG" 0xF38002 [rwB 19 19, rwB 18 16]).kioskOnly,
  (reg "PH_BUS_FS" 0xF38003 [rwB 19 0 0x2710]).kioskOnly,
  (reg "PH_BUS_NOM" 0xF38004 [rwB 19 0 0x1964]).kioskOnly,
  (reg "PH_TH1" 0xF38005 [rwB 19 0 0xE6014]).kioskOnly,
  (reg "PH_TH2" 0xF38006 [rwB 19 0 0xD4814]).kioskOnly,
  (reg "PH_TH3" 0xF38007 [rwB 19 0 0xBB814]).kioskOnly,
  (reg "PH_TH4" 0xF38008 [rwB 19 0 0xA2814]).kioskOnly,
  (reg "PH_SAG" 0xF38009 [rwB 19 0 0xE12BC]).kioskOnly,
  (reg "PH_PSUP" 0xF3800A [rwB 19 0 0xFFFFF]).kioskOnly,
  (reg "PH_L2FRAC" 0xF3800B [rwB 19 0 0x40000]).kioskOnly,
  (reg "PH_PSTORE" 0xF3800C [rwB 19 0 0xFFFFF]).kioskOnly,
  ((reg "PH_PLOSS_PCHOP_KCH" 0xF3800D [rwB 19 0]).arr 3 1).kioskOnly,
  (reg "PH_CHOP_CFG" 0xF38010 [rwB 19 0 0x14096]).kioskOnly,
  (reg "PH_HOLD_CFG" 0xF38011 [rwB 19 19, rwB 18 16]).kioskOnly,
  ((reg "PH_HOLD_FS_NOM" 0xF38012 [rwB 19 0]).arr 2 1).kioskOnly,
  (reg "PH_HOLD_LIM" 0xF38014 [rwB 19 0 0xF52BC]).kioskOnly,
  (reg "PH_OVL" 0xF38015 [rwB 19 19 1, rwB 18 15 0xE, rwB 14 14, rwB 13 10, rwB 9 9, rwB 8 5]).kioskOnly,
  (reg "PH_SDM_CLK" 0xF38016 [cfB 7 0 0xE]).kioskOnly,
  ((reg "PH_SDMk_CFG" 0xF38018 [rwB 19 19, rwB 18 17 3]).arr 8 1).kioskOnly,
  reg "PH_LEVEL" 0xF38020 [ro 19 17, ro 16 14, ro 13 13, ro 12 12, ro 11 11, ro 10 10, ro 9 9, ro 8 8, ro 7 7],
  reg "PH_STAT" 0xF38021 [w1c 19 12, w1c 11 8, w1c 7 7, w1c 6 6],
  (reg "PH_CTRL" 0xF38022 [rwB 19 18]).locked,
  (reg "PH_VBUS_VHOLD" 0xF38023 [ro 19 10]).arr 2 1,
  reg "PH_KM" 0xF38025 [ro 19 0 0x7FFFF],
  (reg "PH_MSUM_HI" 0xF38026 [ro 11 0]).paired,
  (reg "PH_MSUM_LO" 0xF38027 [ro 19 0]).paired,
  (reg "PH_RSUM_HI" 0xF38028 [ro 11 0]).paired,
  (reg "PH_RSUM_LO" 0xF38029 [ro 19 0]).paired,
  reg "PH_CHOP_DUTY" 0xF3802A [ro 7 0],
  (reg "PH_RAIL" 0xF3802C [ro 19 0]).arr 4 1,
  (cnt "PH_LkCNT" 0xF38030).arr 5 1]

/-- Pergola (13 R382). -/
def pgRows : List RegRow := [
  (reg "PG_Dd_CFG" 0xF3C000 [rwB 19 19, rwB 18 17, rwB 16 14, rwB 13 13, rwB 12 7]).arr 512 4,
  (reg "PG_Dd_MAP" 0xF3C001 [rwB 19 12, rwB 11 4 1]).arr 512 4,
  (reg "PG_Dd_ENTRY" 0xF3C002 [rwB 16 0]).arr 512 4,
  (reg "PG_Dd_STAT" 0xF3C003 [ro 19 12, ro 11 11, ro 10 8, w1c 7 7, w1c 6 6, w1c 5 5]).arr 512 4,
  reg "PG_STAT" 0xF3C800 [ro 19 19, ro 18 18],
  reg "PG_RFREE" 0xF3C801 [ro 10 0 1024],
  reg "PG_DFREE" 0xF3C802 [ro 10 0 1024],
  cnt "PG_BPCNT" 0xF3C803,
  cnt "PG_DISCARD" 0xF3C804,
  (reg "PG_KEYS" 0xF3C808 [ro 15 0]).arr 4 1,
  (reg "PG_Cn_PARG" 0xF3C900 [rwI 19 0]).arr 8 16,
  (reg "PG_Cn_POST" 0xF3C901 [wo 8 0]).arr 8 16,
  ((reg "PG_Cn_DVAL_HI" 0xF3C902 [rwI 19 0]).arr 8 16).paired,
  ((reg "PG_Cn_DVAL_LO" 0xF3C903 [rwI 19 0]).arr 8 16).paired,
  (reg "PG_Cn_DSEL" 0xF3C904 [rwI 19 19, rwI 18 17, rwI 16 15, rwI 14 11]).arr 8 16,
  (reg "PG_Cn_DPOST" 0xF3C905 [wo 8 0]).arr 8 16,
  (reg "PG_Cn_DHANDLE" 0xF3C906 [ro 19 19, ro 18 10, ro 9 0]).arr 8 16,
  (reg "PG_Cn_DCANCEL" 0xF3C907 [wo 19 0]).arr 8 16,
  (reg "PG_Cn_DCRES" 0xF3C908 [ro 19 18]).arr 8 16,
  (reg "PG_Cn_ARG" 0xF3C909 [ro 19 0]).arr 8 16,
  (reg "PG_Cn_DESC" 0xF3C90A [ro 19 19, ro 8 0]).arr 8 16,
  (cnt "PG_Cn_STALLCNT" 0xF3C90B).arr 8 16]

/-- The event controller (13 R382). -/
def evRows : List RegRow := [
  (reg "EV_s_CFG" 0xF40000 [rwB 19 19, ro 18 18, w1c 17 17, ro 16 15, rwB 8 0]).arr 128 1,
  cnt "EV_OVRCNT" 0xF40080]

/-- System control and the core blocks (17 R455, 11 R335). -/
def scRows : List RegRow := [
  reg "SC_UNLOCK" 0xF50000 [wo 19 0],
  cnt "SC_WRITE_DROP" 0xF50001,
  (reg "SC_DROP_ADDR_HI" 0xF50002 [ro 3 0]).paired,
  (reg "SC_DROP_ADDR_LO" 0xF50003 [ro 19 0]).paired,
  reg "SC_DROP_SRC" 0xF50004 [ro 19 16, ro 15 8],
  reg "SC_STAT" 0xF50005 [ro 19 18, ro 17 14 1],
  ((reg "SC_Cn_CTRL" 0xF50200 [scI 19 19]).arr 8 16).locked,
  (reg "SC_Cn_STAT" 0xF50201 [ro 19 19, ro 18 18, ro 17 17, ro 16 16, ro 15 15, ro 14 14, ro 13 11, ro 10 9]).arr 8 16,
  (reg "SC_Cn_ESP" 0xF50202 [rwI 16 0 0x10000]).arr 8 16,
  (reg "SC_Cn_ESL" 0xF50203 [rwI 15 0 0xF000]).arr 8 16,
  (reg "SC_Cn_FVEC" 0xF50204 [rwI 16 0 8]).arr 8 16,
  (reg "SC_Cn_FCODE" 0xF50205 [ro 19 12, ro 11 11]).arr 8 16,
  ((reg "SC_Cn_FADDR_HI" 0xF50206 [ro 3 0]).arr 8 16).paired,
  ((reg "SC_Cn_FADDR_LO" 0xF50207 [ro 19 0]).arr 8 16).paired,
  (reg "SC_Cn_FPC" 0xF50208 [ro 16 0]).arr 8 16,
  (reg "SC_Cn_HOMAX" 0xF50209 [rwI 19 0]).arr 8 16,
  (cnt "SC_Cn_FCNT" 0xF5020A).arr 8 16,
  (cnt "SC_Cn_ENTCNT" 0xF5020B).arr 8 16]

/-- The MRAM controller (19 R482). -/
def nvRows : List RegRow := [
  reg "NV_CTRL" 0xF54000 [⟨19, 19, .sc, .i, 0, true⟩, rwI 18 18, rwI 17 17, ⟨16, 16, .sc, .i, 0, true⟩, scI 15 15, scI 14 14],
  reg "NV_STAT" 0xF54001 [ro 19 19, ro 18 18, ro 17 17, ro 16 16, ro 15 15, w1c 14 14, ro 13 13, w1c 12 12, ro 11 4],
  reg "NV_MODE" 0xF54002 [cfB 19 18],
  reg "NV_BOOT" 0xF54003 [cfI 17 17, cfI 16 9, cfI 8 1],
  reg "NV_RSTSRC" 0xF54004 [ro 19 16 2, ro 15 12],
  reg "NV_MADDR" 0xF54005 [rwI 18 0],
  reg "NV_MDATA" 0xF54006 [wo 19 0],
  reg "NV_PADDR" 0xF54007 [rwI 19 17, rwI 16 0],
  (reg "NV_PDATA_HI" 0xF54008 [wo 19 0]).paired,
  (reg "NV_PDATA_LO" 0xF54009 [wo 19 0]).paired,
  reg "NV_FR_NEXT" 0xF5400A [ro 19 0],
  cnt "NV_FR_LOST" 0xF5400B]

/-- The host port (17 R454). -/
def hpRows : List RegRow := [
  reg "HP_STAT" 0xF58000 [w1c 19 19, w1c 18 18, ro 17 17],
  cnt "HP_FRAMECNT" 0xF58001,
  cnt "HP_ERRCNT" 0xF58002]

/-- GPIO (17 R456). -/
def ioRows : List RegRow := [
  (reg "IO_DIR" 0xF5C000 [rwI 15 0]).arr 2 1,
  (reg "IO_OUT" 0xF5C002 [rwI 15 0]).arr 2 1,
  (reg "IO_IN" 0xF5C004 [ro 15 0]).arr 2 1,
  (reg "IO_EDGE" 0xF5C008 [rwI 15 0]).arr 4 1]

/-- A CAN FD controller whose block begins at base (15 R418). -/
def cnBlock (base : Nat) : List RegRow :=
  let w (name : String) (off : Nat) (f : List Fld) : RegRow := reg name (base + off) f
  [ w "CN_CTRL" 0 [rwI 19 19 1, rwI 18 18],
    w "CN_CFG" 1 [rwI 19 19, rwI 18 18, rwI 17 17 1, rwI 16 16, rwI 15 15 1, rwI 14 7],
    w "CN_STAT" 2 [ro 19 17, ro 16 16, ro 15 15, ro 14 14, w1c 13 13],
    w "CN_EVT" 3 [w1c 19 11], w "CN_EVTEN" 4 [rwI 19 11],
    w "CN_ERRC" 5 [ro 19 11, ro 10 3],
    w "CN_NBT0" 6 [rwI 19 12, rwI 11 4], w "CN_NBT1" 7 [rwI 19 13, rwI 12 6],
    w "CN_DBT0" 8 [rwI 19 15, rwI 14 10, rwI 9 6, rwI 5 2], w "CN_DBT1" 9 [rwI 19 19, rwI 18 12],
    w "CN_TDCM" 10 [ro 6 0],
    w "CN_COP" 12 [rwI 19 19, rwI 18 18, rwI 17 11],
    (w "CN_COUNT" 16 [rwI 19 0]).arr 6 1,
    w "CN_RX_CTRL" 0x20 [scI 19 19, ro 18 18, ro 9 0],
    w "CN_TQ_CTRL" 0x22 [scI 19 19, scI 18 18, scI 17 17, ro 13 8, ro 5 0],
    w "CN_TQ_RES" 0x24 [ro 19 19, ro 18 16, ro 7 0],
    (w "CN_RXW" 0x100 [ro 19 0]).arr 40 1,
    w "CN_TQW0" 0x180 [rwI 19 19, rwI 18 18, rwI 17 17, ro 16 16, rwI 15 15, rwI 14 11, rwI 8 7],
    w "CN_TQW1" 0x181 [rwI 10 0], w "CN_TQW2" 0x182 [rwI 17 0], w "CN_TQW3" 0x183 [rwI 7 0],
    (w "CN_TQW_T" 0x184 [ro 19 0]).arr 4 1,
    (w "CN_TQW_D" 0x188 [rwI 15 0]).arr 32 1,
    (w "CN_OBJ0" 0x800 [rwI 19 19, rwI 18 18, rwI 17 17, ro 16 16, rwI 15 15, rwI 14 11, rwI 10 10, rwI 9 9, rwI 8 7, rwI 6 6]).arr 128 40,
    (w "CN_OBJ1" 0x801 [rwI 10 0]).arr 128 40, (w "CN_OBJ2" 0x802 [rwI 17 0]).arr 128 40,
    (w "CN_OBJ3" 0x803 [scI 19 19, scI 18 18, ro 17 17, ro 16 14, w1c 13 13, w1c 12 12]).arr 128 40,
    (w "CN_OBJ_T" 0x804 [ro 19 0]).arr 128 40 |>.arr2 4 1,
    (w "CN_OBJ_D" 0x808 [rwI 15 0]).arr 128 40 |>.arr2 32 1 ]

/-- Kiosk (16 R439). -/
def ksRows : List RegRow := [
  (reg "KS_CFG" 0xF48000 [cfB 17 0]).locked,
  (reg "KS_ALIAS" 0xF48001 [cfB 19 19, cfB 17 0]).locked,
  reg "KS_PARTNER" 0xF48002 [cfB 17 0],
  reg "KS_TOUT" 0xF48003 [rwB 7 0 0x14],
  (reg "KS_SRC" 0xF48004 [rwB 17 0]).arr 3 1,
  reg "KS_STAT" 0xF48007 [ro 19 19, w1c 18 18, ro 17 17],
  reg "KS_OVL_REQ" 0xF48008 [rwB 15 0],
  (reg "KS_OVL_SEL_PHB" 0xF48009 [ro 15 0]).arr 2 1,
  (cnt "KS_CNT" 0xF48010).arr 6 1,
  reg "KS_HP_CTRL" 0xF48018 [scI 19 19, w1c 18 18, rwI 17 17],
  (reg "KS_RT_EN" 0xF48400 [rwB 19 19]).arr 1024 4,
  (reg "KS_RT_LO" 0xF48401 [rwB 17 0]).arr 1024 4,
  (reg "KS_RT_HI" 0xF48402 [rwB 17 0]).arr 1024 4,
  (reg "KS_RT_PORT" 0xF48403 [rwB 19 17, rwB 7 0]).arr 1024 4,
  (reg "KS_HP_REQ" 0xF49400 [rwI 15 0]).arr 0x810 1,
  (reg "KS_HP_RSP" 0xF49C10 [ro 15 0]).arr 0x810 1]

/-- Performance counters and their snapshots (14 R394). -/
def pcRows : List RegRow := [
  (reg "PC_Cn_CFG" 0xF4C000 [rwI 19 19, rwI 18 18, rwI 17 17, rwI 6 0]).arr 8 64 |>.arr2 8 1,
  (reg "PC_Cn_TDCFG" 0xF4C008 [rwI 19 19, rwI 17 17]).arr 8 64,
  (reg "PC_Cn_OVF" 0xF4C009 [ro 19 12, ro 11 8]).arr 8 64,
  (reg "PC_Cn_SAMP" 0xF4C00A [rwI 19 19, rwI 18 16]).arr 8 64,
  (reg "PC_Cn_SPC" 0xF4C00B [ro 16 0]).arr 8 64,
  (reg "PC_Cn_SINFO" 0xF4C00C [w1c 19 19, ro 18 16, ro 15 15, ro 14 13, ro 8 0]).arr 8 64,
  (reg "PC_Cn_SLOST" 0xF4C00D [rwI 19 0]).arr 8 64,
  ((reg "PC_Cn_P_HI" 0xF4C010 [rwI 19 0]).arr 8 64 |>.arr2 12 2).paired,
  ((reg "PC_Cn_P_LO" 0xF4C011 [rwI 19 0]).arr 8 64 |>.arr2 12 2).paired,
  (reg "PC_Sk_CFG" 0xF4C200 [rwI 19 19, rwI 18 18, rwI 17 17, rwI 6 0]).arr 16 1,
  ((reg "PC_Sk_HI" 0xF4C220 [rwI 19 0]).arr 16 2).paired,
  ((reg "PC_Sk_LO" 0xF4C221 [rwI 19 0]).arr 16 2).paired,
  reg "PC_S_OVF" 0xF4C240 [ro 15 0],
  reg "PC_FREEZE" 0xF4C300 [rwI 19 19, scI 18 18, ro 17 17, ro 16 16],
  (reg "PC_SN_OVF" 0xF4C409 [ro 19 8]).arr 8 64,
  ((reg "PC_SN_P_HI" 0xF4C410 [ro 19 0]).arr 8 64 |>.arr2 12 2).paired,
  ((reg "PC_SN_P_LO" 0xF4C411 [ro 19 0]).arr 8 64 |>.arr2 12 2).paired,
  ((reg "PC_SN_S_HI" 0xF4C620 [ro 19 0]).arr 16 2).paired,
  ((reg "PC_SN_S_LO" 0xF4C621 [ro 19 0]).arr 16 2).paired,
  reg "PC_SN_S_OVF" 0xF4C640 [ro 15 0]]

/-- The servo window of an axis maps its offsets E0h to FFh to the global registers (05 R158). -/
def canonAddr (a : Nat) : Nat :=
  if 0xF10000 ≤ a ∧ a < 0xF20000 ∧ 0xE0 ≤ a % 256 then 0xF10000 + a % 256 else a

/-- The block rows that may hold an address (R455). -/
def blockRows (a : Nat) : List RegRow :=
  if a < 0xF00000 then []
  else if a < 0xF04000 then sdRows
  else if a < 0xF08000 then fbRows
  else if a < 0xF10000 then mpRows
  else if a < 0xF20000 then svRows
  else if a < 0xF28000 then bvRows
  else if a < 0xF30000 then lkRows
  else if a < 0xF34000 then prRows
  else if a < 0xF38000 then ghRows
  else if a < 0xF3C000 then phRows
  else if a < 0xF40000 then pgRows
  else if a < 0xF44000 then evRows
  else if a < 0xF46000 then cnBlock 0xF44000
  else if a < 0xF48000 then cnBlock 0xF46000
  else if a < 0xF4C000 then ksRows
  else if a < 0xF50000 then pcRows
  else if a < 0xF54000 then scRows
  else if a < 0xF58000 then nvRows
  else if a < 0xF5C000 then hpRows
  else if a < 0xF60000 then ioRows
  else []

/-- The register at an address; none for an address that no block holds (R455). -/
def rowOf (a : Nat) : Option RegRow := findRow (blockRows a) (canonAddr a)

/-- The reset word of an address; a reserved offset reads 00000h (R442). -/
def resetWord (a : Nat) : Word :=
  match rowOf a with
  | some r => word (fieldsReset r.fields)
  | none => 0

/-- The slow-clock domain (R447). -/
def isSlow (a : Nat) : Bool :=
  (0xF38000 ≤ a && a < 0xF3C000) || (0xF54000 ≤ a && a < 0xF58000) || a == 0xF34004 || a == 0xF34045 ||
  (0xF34018 ≤ a && a ≤ 0xF3401E) || a == 0xF30006

/-- The event controller's class of a source, fixed (R376). -/
def evClass (n : Nat) : Nat :=
  if n < 16 then 0 else if n < 32 then 1 else if n < 96 then 2 else 3

end Sys2Proof.Machine
end

