-- ==== Sys2Proof/Machine/Store.lean ====
section
/-! DEFINITION. Sparse maps in one canonical form: keys strictly rising, no entry equal to what an unlisted key reads as. Every memory and the register file are such maps. -/

namespace Sys2Proof.Machine

/-- A sparse map from numbers to values, as plain data. -/
abbrev SMap (β : Type) := List (Nat × β)

/-- The value at key a; d is what an unlisted key reads as. -/
def mapGet {β : Type} (d : β) : SMap β → Nat → β
  | [], _ => d
  | (k, v) :: m, a => if a = k then v else mapGet d m a

/-- Whether a key is listed. -/
def mapHas {β : Type} : SMap β → Nat → Bool
  | [], _ => false
  | (k, _) :: m, a => if a = k then true else mapHas m a

/-- The map without key a. -/
def mapErase {β : Type} : SMap β → Nat → SMap β
  | [], _ => []
  | (k, v) :: m, a => if a = k then mapErase m a else (k, v) :: mapErase m a

/-- The map with key a listed at value v, keys kept rising. -/
def mapInsert {β : Type} : SMap β → Nat → β → SMap β
  | [], a, v => [(a, v)]
  | (k, w) :: m, a, v =>
    if a < k then (a, v) :: (k, w) :: m
    else if a = k then (a, v) :: m
    else (k, w) :: mapInsert m a v

/-- The map with key a at value v; writing the unlisted value d removes the entry. -/
def mapPut {β : Type} [DecidableEq β] (d : β) (m : SMap β) (a : Nat) (v : β) : SMap β :=
  if v = d then mapErase m a else mapInsert m a v

/-- The canonical form: keys strictly rising and no entry at its default. -/
def mapWf {β : Type} [DecidableEq β] (dflt : Nat → β) : SMap β → Bool
  | [] => true
  | (k, v) :: m => decide (v ≠ dflt k) && m.all (fun e => decide (k < e.1)) && mapWf dflt m

/-- Several consecutive words, from address a on. -/
def mapPutAll (d : Word) : SMap Word → Nat → List Word → SMap Word
  | m, _, [] => m
  | m, a, w :: ws => mapPutAll d (mapPut d m a w) (a + 1) ws

end Sys2Proof.Machine
end

