-- ==== Sys2Proof/Machine/State.lean ====
section
/-! DEFINITION. The state of the SV128: every register, memory, queue and mode the spec gives it, as plain data, with the reasons a command can stop and the state after reset. -/

namespace Sys2Proof.Machine

/-- The operating states of R8, numbered as SC_STAT.STATE. -/
inductive OpState where
  | powerUp | boot | config | join | runActive | runStandby | degraded | safe | recovery | test
  deriving DecidableEq, Repr

/-- A response and the request it answers (R430). -/
structure KAnswer where
  req : KReq
  resp : KResp
  deriving DecidableEq, Repr


/-- The register file of one core (R312). -/
structure CoreRegs where
  d : Vector Word 16
  a : Vector Addr 8
  m : Vector Addr 8
  b : Vector Addr 8
  l : Vector Addr 8
  ac : Vector Acc 2
  lpc : Vector Word 3
  lps : Vector (BitVec 17) 3
  lpe : Vector (BitVec 17) 3
  st : Word
  deriving DecidableEq, Repr

/-- A load whose target register is still to be written (R316, R318): code of R339, value, whether the value is 24 bits wide, and whether the source is remote (shared memory, the Belvedere window, a peripheral). -/
structure Load where
  code : Nat
  value : Nat
  wide : Bool
  remote : Bool
  deriving DecidableEq, Repr

/-- An entry of a core's store buffer (R316): address, word, and the second word of a paired store. -/
structure BufStore where
  addr : Nat
  value : Word
  second : Option Word
  deriving DecidableEq, Repr

/-- A move into a loop register that the repeat logic does not yet see (R318): code, old value, instructions left. -/
structure LoopOld where
  code : Nat
  old : Nat
  left : Nat
  deriving DecidableEq, Repr

/-- What follows the two delay slots of a taken branch or of RTE (R319, R327). -/
inductive AfterSlots where
  | none
  | jump (target : BitVec 17)
  /-- RTE that restores the frame on top of the event stack -/
  | restore
  /-- a chained entry: entry address, priority -/
  | chain (entry prio : Nat)
  deriving DecidableEq, Repr

/-- A post to Pergola by a core that stalls because it was refused for lack of room (R379). -/
inductive StalledPost where
  | post (desc : Nat) (arg : Word)
  /-- written in the block of core blk -/
  | delay (blk : Fin 8) (desc : Nat) (arg : Word) (dval : Nat) (dsel : Word)
  deriving DecidableEq, Repr

/-- One level of a core's nesting: descriptor, argument, and the ordering key held by the task (R370, R371). -/
structure Nest where
  desc : Nat
  arg : Word
  key : Option Nat
  deriving DecidableEq, Repr

/-- One control core (chapter 11). -/
structure Core where
  r : CoreRegs
  pc : BitVec 17
  /-- fetching instructions -/
  run : Bool
  halted : Bool
  /-- halted by a second fault (R331) -/
  dflt : Bool
  /-- in the base context -/
  base : Bool
  /-- in WAIT -/
  waiting : Bool
  /-- A, M, B and L registers written by a move in the instruction before: address generation still sees these values (R318) -/
  agOld : List (Nat × Addr)
  /-- loads of the instruction before: written at the end of the load-delay slot -/
  ldSlot : List Load
  /-- remote loads past their delay slot, still in flight -/
  inFlight : List Load
  /-- AV0 and AV1 formed one and two instructions ago, not yet visible (R317, R318) -/
  avMid : BitVec 2
  avNew : BitVec 2
  loopOld : List LoopOld
  /-- delay slots still to come, of any branch or RTE -/
  slots : Nat
  /-- of those, slots annulled by an annulling branch not taken -/
  annul : Nat
  after : AfterSlots
  /-- the instruction before ended an iteration or exited a repeat level (R324, condition 5) -/
  atLoopEdge : Bool
  storeBuf : List BufStore
  stalled : Option StalledPost
  /-- the nesting of tasks, innermost first (R370) -/
  nest : List Nest
  deriving DecidableEq, Repr

/-- The register file when a core starts: every register 0 (R312). -/
def CoreRegs.reset : CoreRegs :=
  { d := Vector.replicate 16 0, a := Vector.replicate 8 0, m := Vector.replicate 8 0,
    b := Vector.replicate 8 0, l := Vector.replicate 8 0, ac := Vector.replicate 2 0,
    lpc := Vector.replicate 3 0, lps := Vector.replicate 3 0, lpe := Vector.replicate 3 0, st := 0 }

/-- A core before BOOT ends: not running, in the base context. -/
def Core.reset : Core :=
  { r := CoreRegs.reset, pc := 0, run := false, halted := false, dflt := false, base := false,
    waiting := false, agOld := [], ldSlot := [], inFlight := [], avMid := 0, avNew := 0,
    loopOld := [], slots := 0, annul := 0, after := .none, atLoopEdge := false, storeBuf := [],
    stalled := none, nest := [] }

/-- A post in the ready store: descriptor, argument, and the ordering key in force when it was posted (R363, R371). -/
structure Post where
  desc : Nat
  arg : Word
  key : Option Nat
  deriving DecidableEq, Repr

/-- What a delay-list entry waits for (R372). -/
inductive DelayDue where
  /-- system ticks still to elapse -/
  | tick (left : Nat)
  /-- a crossing of a due value of a timebase; dir 0 upward, 1 downward, 2 either -/
  | base (tb : Nat) (due : Int) (dir : Nat)
  deriving DecidableEq, Repr

/-- An entry of the delay list (R372-R375), kept in order of acceptance. -/
structure DelayEntry where
  entry : Nat
  gen : Nat
  desc : Nat
  arg : Word
  due : DelayDue
  /-- fallen due; waits for its post to enter the ready store, and its post was counted in PG_BPCNT -/
  fired : Bool
  refused : Bool
  deriving DecidableEq, Repr

/-- Pergola's hidden state (chapter 13). -/
structure Pergola where
  /-- the ready store, oldest arrival first -/
  ready : List Post
  delay : List DelayEntry
  /-- fired delay entries waiting for the ready store, in the order of R374 -/
  dueQ : List Nat
  /-- generation last given to each delay-list entry number -/
  gens : SMap Nat
  /-- sources with a pending post, and whether its refusal has been counted -/
  evPend : List (Nat × Bool)
  deriving DecidableEq, Repr

def Pergola.reset : Pergola := { ready := [], delay := [], dueQ := [], gens := [], evPend := [] }

/-- One Sundial timebase (R33-R44). Values are in 1/4,096 of the unit. -/
structure Timebase where
  armed : Bool
  /-- progress toward arming: real values seen of the kind R33 counts -/
  seen : Nat
  val : Int
  /-- last real value (R44) as of the last update -/
  real : Int
  /-- latest real value delivered: c_e or s(n) -/
  now : Int
  /-- time of the latest real value: t_e or CI(n) -/
  tReal : Nat
  /-- d of R38: +1, -1, or 0 before any edge -/
  dir : Int
  /-- P of R38, none while invalid (R39) -/
  per : Option Nat
  /-- difference of the last two samples (R43) -/
  delta : Int
  /-- time since which the samples have not moved -/
  tMoved : Nat
  still : Bool
  dirn : Bool
  xcap : Bool
  cfgErr : Bool
  /-- the next update arms the timebase and detects no crossing (R37) -/
  arming : Bool
  deriving DecidableEq, Repr

/-- The committed contents of an event entry (R48). -/
structure EvEntry where
  en : Bool
  dir : Nat
  rearm : Bool
  tb : Nat
  act : Nat
  rdist : Nat
  cmp : Nat
  cmpf : Nat
  arg : Word
  deriving DecidableEq, Repr

/-- A detected firing waiting for its dispatch slot (R53). -/
structure Firing where
  entry : Nat
  act : Nat
  arg : Word
  oneShot : Bool
  /-- the update in which it was detected -/
  at_ : Nat
  deriving DecidableEq, Repr

/-- Sundial's hidden state (chapter 02). -/
structure Sundial where
  tb : Vector Timebase 16
  /-- committed event entries -/
  ev : SMap EvEntry
  /-- entries with a W0 write waiting for the boundary -/
  w0Pend : List Nat
  /-- what the entries committed at the last boundary held before it: the update in whose 8 cy that boundary falls still uses it (R49) -/
  evBefore : List (Nat × EvEntry)
  /-- fired entries that may not fire again yet, with the direction they fired in (R52) -/
  spent : List (Nat × Bool)
  disp : List Firing
  /-- Pergola posts waiting in the hold queue (R54): entry and descriptor, oldest first -/
  holdQ : List (Nat × Nat)
  /-- servo-parameter firings waiting for the boundary, the last of each axis: axis and set -/
  psetPend : List (Nat × Nat)
  /-- internal state of EVO0-EVO15 -/
  evo : BitVec 16
  deriving DecidableEq, Repr

/-- The mains sense input and the mains lock (R56-R59). -/
structure Mains where
  level : Bool
  tZc : Option Nat
  /-- intervals between rising edges, newest first, at most four -/
  ivals : List Nat
  lost : Bool
  tBoot : Nat
  /-- servo period in force, in 2^-16 cy -/
  p : Nat
  /-- remainder of marker placement carried forward, in 2^-16 cy -/
  rem : Int
  j : Nat
  lockWait : Bool
  mlOn : Bool
  goodCycles : Nat
  deriving DecidableEq, Repr

def Timebase.reset : Timebase :=
  { armed := false, seen := 0, val := 0, real := 0, now := 0, tReal := 0, dir := 0, per := none,
    delta := 0, tMoved := 0, still := false, dirn := false, xcap := false, cfgErr := false,
    arming := false }

/-- The committed contents of an entry after reset: every field 0. -/
def EvEntry.reset : EvEntry :=
  { en := false, dir := 0, rearm := false, tb := 0, act := 0, rdist := 0, cmp := 0, cmpf := 0, arg := 0 }

def Sundial.reset : Sundial :=
  { tb := Vector.replicate 16 Timebase.reset, ev := [], w0Pend := [], evBefore := [], spent := [], disp := [],
    holdQ := [], psetPend := [], evo := 0 }

/-- The nominal period of mode A, 18,750 cy (R4). -/
def Mains.reset : Mains :=
  { level := false, tZc := none, ivals := [], lost := false, tBoot := 0, p := 18750 * 65536,
    rem := 0, j := 0, lockWait := false, mlOn := false, goodCycles := 0 }

/-- The states of a capture group (BV_Gg_CTRL.STATE). -/
inductive BvState where
  | idle | armed | triggered | done
  deriving DecidableEq, Repr

/-- The settings a capture group took at its ARM (R164). -/
structure BvLatch where
  /-- channels of the group, ascending: number, SRC word, AUX word -/
  chans : List (Nat × Word × Word)
  cfg : Word
  red : Word
  nsamp : Nat
  base : Nat
  len : Nat
  trg : Word
  tlo : Word
  thi : Word
  /-- the nine measurement setting words (R176 words 66-74) -/
  meas : List Word
  deriving DecidableEq, Repr

/-- One sampled step of a group: q, its CI in cy and as system time, one value per channel. -/
structure BvSample where
  q : Nat
  ci : Nat
  t : Nat
  vals : List Word
  deriving DecidableEq, Repr

/-- One capture group (R164-R170). -/
structure BvGroup where
  st : BvState
  lat : BvLatch
  /-- samples taken since ARM, oldest first -/
  samples : List BvSample
  /-- index of the trigger sample -/
  trig : Option Nat
  /-- an asynchronous trigger accepted before the first sample -/
  trigWaits : Bool
  /-- END_R of a record that has ended and is not yet complete -/
  ended : Option Nat
  tEvt : Nat
  /-- words stored so far in the region -/
  stored : Nat
  deriving DecidableEq, Repr

/-- Belvedere's hidden state (chapter 06). -/
structure Belvedere where
  g : Vector BvGroup 4
  /-- group and slot of an archive in progress, with its image -/
  arch : Option (Nat × Nat × List Word)
  deriving DecidableEq, Repr

def BvLatch.reset : BvLatch :=
  { chans := [], cfg := 0, red := 0, nsamp := 0, base := 0, len := 0, trg := 0, tlo := 0, thi := 0, meas := [] }

def BvGroup.reset : BvGroup :=
  { st := .idle, lat := BvLatch.reset, samples := [], trig := none, trigWaits := false, ended := none, tEvt := 0, stored := 0 }

def Belvedere.reset : Belvedere := { g := Vector.replicate 4 BvGroup.reset, arch := none }

/-- The hidden state of one feedback channel (chapter 03). -/
structure FbChan where
  /-- accepted input levels after the filter (R62) -/
  a : Bool
  b : Bool
  z : Bool
  /-- levels at the synchroniser, which the repeat outputs copy (R85) -/
  sa : Bool
  sb : Bool
  sz : Bool
  raw : Int
  rep : Int
  /-- time of the last counted edge -/
  tEdge : Option Nat
  /-- time of the last counted edge in the confirmed direction since it was confirmed (R64) -/
  tSame : Option Nat
  /-- the earlier of the last two counted edges in one direction -/
  tPair : Option Nat
  /-- PER, none while not valid -/
  per : Option Nat
  /-- qualifying tooth periods, newest first, at most three (R70) -/
  hist : List Nat
  /-- start of the period under test -/
  tTooth : Option Nat
  /-- the edge before was an extra tooth: the next period is not tested (R71) -/
  afterExtra : Bool
  /-- reported count at the previous reference edge (R76) -/
  refPrev : Option Int
  /-- a change of direction was confirmed since the previous reference (R77) -/
  turned : Bool
  /-- consecutive failed count checks -/
  mism : Nat
  /-- direction from the set-point velocity, sampled at CI (R67): true downward -/
  axDir : Bool
  ssiPrev : Option Nat
  ssiErr : Nat
  /-- mains mode: last rising edge and intervals, newest first (R83) -/
  tRise : Option Nat
  ivals : List Nat
  /-- reported count and its fraction of R38, latched at CI -/
  ciRep : Int
  ciFrac : Int
  /-- the fraction with the cap that following uses (R101) -/
  ciFol : Int
  /-- the earlier of the last two counted edges in one direction, latched at CI (R138) -/
  ciPair : Option Nat
  /-- a fault event since the last CI; and FAULT at CI, or such an event before it (R102, R230) -/
  fltEv : Bool
  ciFlt : Bool
  /-- PER_VALID and SEATED at CI (R230) -/
  ciPer : Bool
  ciSeat : Bool
  /-- the SSI frame was too long when the part left CONFIG (R80) -/
  cfgErr : Bool
  deriving DecidableEq, Repr

/-- The levels that one repeat output copies from its channel (R85). -/
structure FboPins where
  a : Bool
  b : Bool
  z : Bool
  deriving DecidableEq, Repr

def FbChan.reset : FbChan :=
  { a := false, b := false, z := false, sa := false, sb := false, sz := false, raw := 0, rep := 0, tEdge := none, tSame := none, tPair := none, per := none,
    hist := [], tTooth := none, afterExtra := false, refPrev := none, turned := false, mism := 0,
    axDir := false, ssiPrev := none, ssiErr := 0, tRise := none, ivals := [], ciRep := 0, ciFrac := 0, ciFol := 0, ciPair := none, fltEv := false, ciFlt := false, ciPer := false, ciSeat := false,
    cfgErr := false }

/-- The states of a profile (MP_STAT.STATE). -/
inductive ProfState where
  | idle | moving | speed | following | stopping | held | waiting
  deriving DecidableEq, Repr

/-- A segment of a profile: jerk in 2^-48 pu per period^3 and duration in 2^-20 period; a segment that brings the acceleration to zero ends with it exactly 0 (R95). -/
structure Seg where
  j : Int
  dur : Nat
  zeroA : Bool
  deriving DecidableEq, Repr

/-- What a profile's plan ends in. -/
inductive Goal where
  | none
  /-- reach P exactly, in pu (R97) -/
  | at_ (p : Int)
  /-- run on at the final speed (R98) -/
  | cruise
  /-- rest, then idle -/
  | rest
  /-- rest, then held (R104) -/
  | hold
  /-- rest, then plan a MOVE back to P (R98) -/
  | back (p : Int)
  /-- slowed to a cap, then plan again to P (R100) -/
  | replan (p : Int)
  /-- slowed to a cap, then run on toward the target of SPEED (R100) -/
  | respeed
  deriving DecidableEq, Repr

/-- One profile (R89-R106). Position in 2^-24 pu; velocity and acceleration in 2^-48 pu per period. -/
structure Profile where
  st : ProfState
  /-- ramp set in use: 0 none, 1 normal, 2 quick, 3 safety -/
  ramp : Nat
  /-- state at the start of the segment -/
  p0 : Int
  v0 : Int
  a0 : Int
  segs : List Seg
  /-- time run in the segment, 2^-20 period -/
  tau : Nat
  goal : Goal
  /-- values now issued -/
  p : Int
  v : Int
  a : Int
  /-- set-point now in force, pu, and that of the period before -/
  sp : Int
  spPrev : Int
  /-- effective VLIM the plan used, 2^-48 pu per period -/
  vPlan : Int
  /-- target of the running SPEED -/
  vTgt : Int
  /-- FOLLOW: input at engagement, with 12 fraction bits, and offset in force -/
  x0 : Int
  offs : Int
  /-- command waiting for a treatment to be withdrawn (R113) -/
  waitCmd : Nat
  /-- direction of the velocity at the start of a stop that only removes deceleration (R106), else 0 -/
  cutDir : Int
  /-- rate limit of following acting (R101) -/
  clamped : Bool
  /-- starts at rest at the actual position of the first CI to come (R93) -/
  fresh : Bool
  /-- the cap of Pumphouse and Gatehouse at the boundary before, 2^-48 pu per period: a lower one arrives (R100) -/
  cap : Option Int
  deriving DecidableEq, Repr

/-- A queued standstill store (R108): object (axis a, or 256 + mover), and whether the commutation angle has arrived. -/
structure StillStore where
  obj : Nat
  angle : Option Word
  deriving DecidableEq, Repr

/-- The group write sequence (R120-R122). -/
structure GroupWrite where
  /-- cycles since the cycle s in which STAGE took effect, while a sequence runs -/
  cycle : Option Nat
  /-- command field of the group field now sent: 0 none, 1 STAGE, 2 COMMIT, 3 ABORT -/
  sent : Nat
  /-- link addresses that reported STAGED E and APPLIED E -/
  staged : List Nat
  applied : List Nat
  /-- the head's own part of the attempt: blend tables and biquads with staged words when STAGE took effect -/
  tables : List Nat
  biquads : List Nat
  deriving DecidableEq, Repr

def GroupWrite.reset : GroupWrite := { cycle := none, sent := 0, staged := [], applied := [], tables := [], biquads := [] }

/-- The hidden state of the motion block (chapter 04). Objects are axes 0-255 and movers 256-287. -/
structure Motion where
  prof : SMap Profile
  /-- committed blend tables, word 64 * t + i -/
  blend : SMap Word
  blendPend : List Nat
  stores : List StillStore
  /-- SEQ and slot number next to be written, per object -/
  ring : SMap (Nat × Nat)
  gw : GroupWrite
  /-- weights of this period: mover, segment axis, weight -/
  weights : List (Nat × Nat × Nat)
  /-- objects in whose profile a stop took effect since the generators were last looked at (R157) -/
  stopped : List Nat
  /-- commanded standstill treatment per axis: 0 none, 1 free, 2 shorted; and cycles a mismatch has lasted -/
  treat : SMap Nat
  treatBad : SMap Nat
  deriving DecidableEq, Repr

def Profile.reset : Profile :=
  { st := .idle, ramp := 0, p0 := 0, v0 := 0, a0 := 0, segs := [], tau := 0, goal := .none, p := 0, v := 0,
    a := 0, sp := 0, spPrev := 0, vPlan := 0, vTgt := 0, x0 := 0, offs := 0, waitCmd := 0, cutDir := 0,
    clamped := false, fresh := true, cap := none }

def Motion.reset : Motion :=
  { prof := [], blend := [], blendPend := [], stores := [], ring := [],
    gw := GroupWrite.reset, weights := [], stopped := [], treat := [], treatBad := [] }

/-- The loop state of an axis or a mover (R137-R150). -/
structure LoopSt where
  /-- x(n), x(n-1), x(n-2) with 12 fraction bits -/
  x : Int
  x1 : Int
  x2 : Int
  vAct : Int
  vp : Int
  vCmd : Int
  /-- integrator, Q1.39 -/
  i : Int
  /-- x1, x2, y1, y2 of biquads 0-3 -/
  bq : List Int
  dHat : Int
  /-- anti-windup difference of the period before -/
  w : Int
  /-- F_out(n-1), F_out(n-2) -/
  fOut : Int
  fOut1 : Int
  fAct : Int
  /-- periods computed since first use -/
  age : Nat
  velValid : Bool
  /-- periods in which VEL_VALID was 1 since first use -/
  validFor : Nat
  /-- time of first use -/
  tFirst : Nat
  /-- last values of the readout and of the Belvedere sources -/
  eq : Int
  yBq : Int
  fSum : Int
  pw : Int
  pSys : Int
  deriving DecidableEq, Repr

/-- A test-signal generator (R155-R157). -/
structure Gen where
  running : Bool
  /-- a sample acts on the target in this period -/
  acts : Bool
  k : Nat
  lfsr : BitVec 15
  phi : Nat
  inc : Nat
  /-- ratio (F1/F0)^(1/LEN), 40 fraction bits -/
  ratio : Nat
  sample : Int
  deriving DecidableEq, Repr

/-- The words stage 8 formed for the drive of an axis (R146, R195). -/
structure OutRec where
  cmd : Int
  ff1 : Word
  ff2 : Word
  en : Bool
  deriving DecidableEq, Repr

/-- Signatures of a batch (R237), with q of the cycle whose inputs it used. -/
structure SigRec where
  batch : Nat
  seq : Nat
  /-- computed with the unit's own inputs (R236) -/
  own : Bool
  isig : Nat
  osig : List Nat
  deriving DecidableEq, Repr

/-- The set-point frames of a batch that wait on a channel: channel, batch, q of the cycle they belong to, the cycle from which they may leave, the group field, and each node's records (R195, R200). -/
structure SetpQueue where
  ch : Nat
  batch : Nat
  seq : Nat
  ready : Nat
  gcmd : Nat
  gepoch : Nat
  frames : List (Nat × List SetpRec)
  deriving DecidableEq, Repr

/-- The servo engine's hidden state (chapter 05). -/
structure Servo where
  loops : SMap LoopSt
  gens : Vector Gen 2
  /-- place of the batch now running, 1 to B -/
  batch : Option Nat
  /-- batches ended in this period -/
  done : Nat
  /-- axes computed with substitutes in this period -/
  subst : List Nat
  /-- committed biquad coefficients, word 256 * a + 8 * k + i -/
  bq : SMap Word
  bqPend : List Nat
  /-- sums of the period over the axes with a drive: P_sys, and its motoring part -/
  pSum : Int
  pMot : Int
  /-- shares formed in this period: mover, segment axis, force (R144) -/
  shares : List (Nat × Nat × Int)
  /-- outputs of axes -/
  outs : SMap OutRec
  /-- the signatures and set-points of a batch whose programs were completed at T0 because it was still running: its end is still to come -/
  late : Option (SigRec × List SetpQueue)
  /-- the readout words of an axis window, offsets 80h to 8Eh, as stage 8 last wrote them (R158) -/
  reads : SMap (List Word)
  deriving DecidableEq, Repr

def OutRec.reset : OutRec := { cmd := 0, ff1 := 0, ff2 := 0, en := false }

def LoopSt.reset : LoopSt :=
  { x := 0, x1 := 0, x2 := 0, vAct := 0, vp := 0, vCmd := 0, i := 0, bq := [0, 0, 0, 0, 0, 0, 0, 0, 0, 0, 0, 0, 0, 0, 0, 0],
    dHat := 0, w := 0, fOut := 0, fOut1 := 0, fAct := 0, age := 0, velValid := false, validFor := 0, tFirst := 0, eq := 0, yBq := 0,
    fSum := 0, pw := 0, pSys := 0 }

def Gen.reset : Gen :=
  { running := false, acts := false, k := 0, lfsr := 0x7FFF, phi := 0, inc := 0, ratio := 0, sample := 0 }

def Servo.reset : Servo :=
  { loops := [], gens := Vector.replicate 2 Gen.reset, batch := none, done := 0, subst := [], bq := [], bqPend := [], pSum := 0, pMot := 0,
    shares := [], outs := [], late := none, reads := [] }

/-- The link states of R213. -/
inductive LinkState where
  | off | listen | coldstart | lead | follow | clash
  deriving DecidableEq, Repr

/-- What one axis record of the last uplink brought (R196): position, force, status with the treatment applied, and whether a valid copy arrived in this cycle. -/
structure AxisUpl where
  pos : Int
  force : Int
  /-- ASTAT as received -/
  astat : Nat
  fresh : Bool
  deriving DecidableEq, Repr

/-- One link node as the head sees it (R206, R210, R219, R220). -/
structure NodeSt where
  joined : Bool
  /-- JOINED has cleared in this cycle: set-point frames stop with the next -/
  leaving : Bool
  /-- copy of this cycle already used -/
  got : Bool
  rx0 : Bool
  rx1 : Bool
  /-- consecutive cycles in which the uplink arrived on only one port -/
  onePort : Nat
  /-- consecutive empty slots -/
  empties : Nat
  /-- cycles left in which no clock correction is sent -/
  corrWait : Nat
  /-- TCORR for the next SETP -/
  tcorr : Int
  ofs : Int
  /-- group epoch and state last reported: 0 none, 1 STAGED, 2 APPLIED -/
  grp : Nat
  grpEpoch : Nat
  deriving DecidableEq, Repr

/-- A join answer: refusal code, 0 accepted, the node's measured delays, and the angle offered for each axis (R219). -/
structure JoinAnswer where
  code : Nat
  d0 : Word
  d1 : Word
  angles : List Word
  deriving DecidableEq, Repr

/-- What a frame of a head carries after its header: the payloads of R194, R195, R219, R221 and R230. -/
inductive FrameBody where
  | mark (perInt perFr time corr mfl : Nat)
  /-- CSTART carries UID in place of TIME -/
  | cstart (perInt perFr corr mfl : Nat)
  | setp (gcmd gepoch : Nat) (tcorr : Int) (recs : List SetpRec)
  | svd (grant gkind acknak msgid : Nat) (last : Bool) (frag : Nat) (data : List Nat)
  /-- SVD of link management with a join answer -/
  | svdJoin (grant gkind acknak : Nat) (answer : JoinAnswer)
  /-- a frame of another unit forwarded (R189): its TYPE and LEN, and what is added to its CORR, in 1/8 ns -/
  | forwarded (type len excess : Nat)
  | pState (role status cfgsig stored j : Nat)
  | pInc (fb : List FbIn) (sdm : List (Int × BitVec 4)) (km : Nat)
  | pIn (batch subst : Nat) (recs : List UplRec)
  | pSig (batch : Nat) (own : Bool) (isig : Nat) (osig : List Nat)
  | pBnd (entries : List BndEntry)
  | pAdopt (a : Adopt)
  /-- relayed service-channel or dictionary traffic -/
  | pSvc (m : LaneMsg)
  | pDres (pass : Bool)
  | pXreq (x : Nat)
  | pXack (x refusal : Nat)
  | pFail (cause : Nat)
  | pClash
  deriving DecidableEq, Repr

/-- A frame as it leaves a port: the port, 4 for the pair lane, the instant of its /S/ in 1/30 ns since reset, and the header of R192 or R229. TYPE and LEN follow from the body. -/
structure SentFrame where
  port : Nat
  at_ : Nat
  src : Nat
  dst : Nat
  act : Bool
  seq : Nat
  epoch : Nat
  body : FrameBody
  deriving DecidableEq, Repr

/-- The records of a set-point frame, of this unit or heard of the partner: node, SEQ, records (R238). -/
structure SetpKept where
  node : Nat
  seq : Nat
  recs : List SetpRec
  deriving DecidableEq, Repr

/-- What becomes of a message to a node once it is wholly sent: a request waits for its reply. -/
inductive SvcKind where
  | request | response
  deriving DecidableEq, Repr

/-- A message on its way to a node (R222): its channel, bytes not yet sent, number of the next fragment, and the fragment sent in this cycle. A broadcast goes to 127, every node. -/
structure SvcMsg where
  ch : Nat
  node : Nat
  msgid : Nat
  kind : SvcKind
  rest : List Nat
  frag : Nat
  last : List Nat
  deriving DecidableEq, Repr

/-- A message arriving from a node: number of the next fragment, and bytes so far (R222). -/
structure SvcIn where
  node : Nat
  msgid : Nat
  next : Nat
  bytes : List Nat
  deriving DecidableEq, Repr

/-- The service channel of the leading head (R221-R223): messages oldest first, arriving and complete ones, join rotation. -/
structure Service where
  out : List SvcMsg
  inb : List SvcIn
  done : List SvcIn
  /-- grants of this cycle: channel, address, kind 1 reply, 2 join -/
  grant : List (Nat × Nat × Nat)
  /-- acknowledgement owed to a node: true ACK, false NAK -/
  ack : List (Nat × Bool)
  /-- join answer owed: node and refusal code, 0 accepted -/
  answer : List (Nat × Nat)
  /-- address last granted a join on channels A and B -/
  turnA : Nat
  turnB : Nat
  deriving DecidableEq, Repr

/-- The hidden state of the link block (chapter 07). -/
structure Link where
  st : LinkState
  /-- cycles left in LISTEN, CSTART frames still to send -/
  left : Nat
  /-- q of the current cycle (R192), and whether a marker has been taken -/
  q : Nat
  running : Bool
  epoch : Nat
  /-- time of T0 and CI of the current cycle, cy -/
  t0 : Nat
  ci : Nat
  /-- system time at CI (R163) -/
  ciSys : Nat
  /-- a valid MARK was received in this cycle -/
  marked : Bool
  axes : SMap AxisUpl
  nodes : SMap NodeSt
  /-- SEQ of the last valid MARK of the unit that leads (R205) -/
  lastMark : Option Nat
  /-- frames sent in this cycle -/
  sent : List SentFrame
  /-- when each port has sent what it has taken, with the idle set that follows, in 1/30 ns since reset -/
  txEnd : Vector Nat 4
  toSend : List SetpQueue
  /-- own and partner's set-point records of this cycle and the one before -/
  setpOwn : List SetpKept
  setpHeard : List SetpKept
  svc : Service
  /-- ports up -/
  up : BitVec 4
  /-- restored commutation angles (R109), by axis -/
  angles : SMap Word
  deriving DecidableEq, Repr

/-- System time (R212): offset in ns to now * 5 / 3, error being removed over the second after the last edge, and PPS history. -/
structure TimeSt where
  offset : Int
  slew : Int
  stepped : Bool
  good : Nat
  tEdge : Option Nat
  deriving DecidableEq, Repr

def AxisUpl.reset : AxisUpl := { pos := 0, force := 0, astat := 0, fresh := false }

def NodeSt.reset : NodeSt :=
  { joined := false, leaving := false, got := false, rx0 := false, rx1 := false, onePort := 0, empties := 0, corrWait := 0,
    tcorr := 0, ofs := 0, grp := 0, grpEpoch := 0 }

def Service.reset : Service := { out := [], inb := [], done := [], grant := [], ack := [], answer := [], turnA := 0, turnB := 0 }

def Link.reset : Link :=
  { st := .off, left := 0, q := 0, running := false, epoch := 0, t0 := 0, ci := 0, ciSys := 0, marked := false,
    axes := [], nodes := [], lastMark := none, sent := [], txEnd := Vector.replicate 4 0, toSend := [], setpOwn := [], setpHeard := [], svc := Service.reset, up := 0, angles := [] }

def TimeSt.reset : TimeSt := { offset := 0, slew := 0, stepped := false, good := 0, tEdge := none }

/-- A commanded exchange in progress (R251). -/
structure Exch where
  /-- cycle c and target cycle x -/
  c : Nat
  x : Nat
  acked : Bool
  /-- overlap still running -/
  overlap : Bool
  deriving DecidableEq, Repr

/-- The hidden state of the pair block (chapter 08). -/
structure Pair where
  /-- holds the active role by the definition of R227 -/
  active : Bool
  /-- has held the active role since the reset, so that a request to the alias at this standby is for a role it no longer holds (R249) -/
  wasActive : Bool
  /-- silent after failure (ROLE = 100b) -/
  silent : Bool
  laneUp : Bool
  /-- heard in the current cycle on the lane, on a link port -/
  heardLane : Bool
  heardLink : Bool
  laneMiss : Nat
  lost : Bool
  /-- consecutive empty cycles of the active -/
  empty : Nat
  bridging : Bool
  /-- batches not aligned -/
  unaligned : List Nat
  /-- writes and actions waiting for the next BND (active), or received and waiting for the boundary (standby) -/
  bndOut : List BndEntry
  /-- the entries of the record closed in this cycle (R234) -/
  bndClosed : List BndEntry
  bndIn : List BndEntry
  /-- the active's INC: feedback inputs, SDM results with their flags, k_m -/
  inc : Option (List FbIn × List (Int × BitVec 4) × Nat)
  /-- the active's IN frames of the cycle: batch, SUBST, axis records -/
  ins : List (Nat × Nat × List UplRec)
  own : Bool
  /-- the batch last started computes with the unit's own inputs -/
  ownNow : Bool
  sigOwn : List SigRec
  sigPartner : List SigRec
  /-- lanes that differ as heard on the link before their SIG comparison (R238): SEQ, batch and axis -/
  osigDiff : List (Nat × Nat × Nat)
  /-- batches whose SIG comparison has been made, with their SEQ -/
  compared : List (Nat × Nat)
  partnerCfgSig : Option Nat
  /-- the partner's stored epoch, from STATE frames received in LISTEN or COLDSTART (R248) -/
  partnerEpoch : Option Nat
  partnerRole : Nat
  partnerState : Bool
  jRecv : Nat
  adopt : List Adopt
  /-- diagnosis: lanes that differ, own result, partner's result -/
  diag : Bool
  diagQ : Nat
  diagLanes : List Nat
  /-- lanes that differ and whose diagnosis has not begun -/
  diagNext : List Nat
  ownRes : Nat
  partRes : Nat
  failPend : Bool
  /-- FAIL was received from the active (R245) -/
  failHeard : Bool
  /-- the cause it carried -/
  failCause : Nat
  /-- what the active still sends to align the standby: 0 nothing, 1 registers, 2 motion, 3 batches (R242) -/
  adoptStep : Nat
  /-- q of the last fault confined to the unit (R239) -/
  lastUnit : Option Nat
  exch : Option Exch
  /-- q of the last computation fault recorded, if any -/
  lastComp : Option Nat
  deg : Bool
  cfgDiff : Bool
  /-- states last commanded by the active through BND: STO groups and brakes -/
  cmdSto : Nat
  cmdBrk : Nat
  bndLevel : Nat
  deriving DecidableEq, Repr

def Pair.reset : Pair :=
  { active := false, wasActive := false, silent := false, laneUp := false, heardLane := false, heardLink := false, laneMiss := 0,
    lost := false, empty := 0, bridging := false, unaligned := [], bndOut := [], bndClosed := [], bndIn := [], inc := none,
    ins := [], own := false, ownNow := false, sigOwn := [], sigPartner := [], osigDiff := [], compared := [], partnerCfgSig := none, partnerEpoch := none,
    partnerRole := 0, partnerState := false, jRecv := 0, adopt := [], diag := false, diagQ := 0, diagLanes := [], diagNext := [],
    ownRes := 0, partRes := 0, failPend := false, failHeard := false, failCause := 0, adoptStep := 0, lastUnit := none, exch := none, lastComp := none, deg := false, cfgDiff := false,
    cmdSto := 15, cmdBrk := 0, bndLevel := 0 }

/-- The conditions of a safe-off group (R257). -/
inductive GrpCond where
  | energised | ss1 | sto
  deriving DecidableEq, Repr

/-- A cause that holds a group (R264). -/
inductive Cause where
  | check (c : Nat)
  | demand (d : Nat)
  | fault (code : Nat)
  | command
  | shed
  deriving DecidableEq, Repr

/-- One safe-off group. -/
structure Group where
  cond : GrpCond
  causes : List Cause
  /-- brakes of the group set during SS1 -/
  brakesSet : Bool
  /-- safe stop 1 demanded: the profiles of the group's objects receive their stop at the next boundary -/
  stopNew : Bool
  /-- GH_CMD.ACK written for the group -/
  acked : Bool
  /-- who wrote an ACK that takes effect at the next boundary -/
  ackBy : Option Requester
  /-- causes seen since it was last energised that need an ACK -/
  needsAck : Bool
  /-- test pulse in progress: 0 none, 1 P switch open, 2 N switch open -/
  pulse : Nat
  deriving DecidableEq, Repr

/-- The hidden state of one check (R273-R275). -/
structure Check where
  armed : Bool
  /-- samples of the source, newest first, at most 1,025 -/
  hist : List Int
  xArm : Int
  xExt : Int
  refDir : Int
  /-- time in cy and speed at the start of a stop (FUNC 5h) -/
  tStop : Nat
  vStop : Int
  armPend : Bool
  deriving DecidableEq, Repr

/-- A core-task watchdog (R270): on, time of the last service, next value expected is 5A5A5h. -/
structure Watchdog where
  on : Bool
  tLast : Nat
  second : Bool
  /-- no service yet since it was enabled -/
  first : Bool
  deriving DecidableEq, Repr

/-- The password state (R280, R281). -/
structure Password where
  salt : Nat
  digest : Nat
  isDefault : Bool
  /-- SNN and port of the open authorisations -/
  auth : List (BitVec 18 × KPort)
  wrong : Nat
  locked : Bool
  /-- length of the next lockout in s -/
  nextLock : Nat
  /-- cycle at which the lockout now running ends -/
  lockEnd : Nat
  deriving DecidableEq, Repr

/-- A change-log entry being written to MRAM, with the RW-S write that waits for it (R282, R283). -/
structure LogPend where
  req : KReq
  kind : Nat
  /-- system time bits 63:20 at acceptance -/
  time : Nat
  old : Nat
  new : Nat
  wide : Bool
  /-- relayed by the partner, which waits for the confirmation of R282 -/
  relayed : Bool
  /-- written and verified in this unit -/
  own : Bool
  /-- the partner's outcome: 0 waited for, 1 logged or not needed, 2 refused -/
  partner : Nat
  deriving DecidableEq, Repr

/-- The hidden state of Gatehouse (chapter 09). -/
structure Gatehouse where
  grp : Vector Group 4
  /-- brake read-back levels, and the commanded state since which they may differ -/
  brkFb : BitVec 8
  brk : BitVec 8
  degPend : Bool
  /-- when DEGRADED was entered -/
  tDeg : Nat
  checks : SMap Check
  wd : Vector Watchdog 3
  pw : Password
  log : List LogPend
  logCrc : Nat
  /-- demand inputs with their demand present, and those held by fault 60h until their pins agree -/
  demand : BitVec 8
  disc : BitVec 8
  /-- brake outputs forced off since the last boundary (R288) -/
  brkForced : BitVec 8
  refreshLost : Bool
  /-- rescan signatures of blocks that differ from their registers, by block number -/
  sigs : SMap Nat
  deriving DecidableEq, Repr

def Group.reset : Group :=
  { cond := .sto, causes := [], brakesSet := true, stopNew := false, acked := false, ackBy := none, needsAck := true, pulse := 0 }

def Check.reset : Check :=
  { armed := false, hist := [], xArm := 0, xExt := 0, refDir := 0, tStop := 0, vStop := 0, armPend := false }

def Watchdog.reset : Watchdog := { on := false, tLast := 0, second := false, first := true }

def Password.reset : Password :=
  { salt := 0, digest := 0, isDefault := true, auth := [], wrong := 0, locked := false, nextLock := 60, lockEnd := 0 }

def Gatehouse.reset : Gatehouse :=
  { grp := Vector.replicate 4 Group.reset, brkFb := 0, brk := 0, degPend := false, tDeg := 0, checks := [],
    wd := Vector.replicate 3 Watchdog.reset, pw := Password.reset, log := [], logCrc := 0xFFFFFFFF, demand := 0, disc := 0, brkForced := 0,
    refreshLost := false, sigs := [] }

/-- One sigma-delta input (R289, R290). -/
structure Sdm where
  result : Int
  /-- delivered a result since BOOT -/
  valid : Bool
  flt : Bool
  sat : Nat
  clean : Nat
  /-- the fault was raised since the last CI -/
  fltEv : Bool
  /-- result and validity latched at CI, and the fault at CI or raised since the CI before it -/
  ci : Int
  ciFlt : Bool
  ciVal : Bool
  deriving DecidableEq, Repr

/-- The hidden state of Pumphouse (chapter 10). -/
structure Pump where
  sdm : Vector Sdm 8
  vbus : Nat
  vhold : Nat
  meas : Nat
  eff : Nat
  /-- the cycle in which L1 or above was last entered (R181) -/
  tShed : Option Nat
  /-- next measured level, applied at the boundary -/
  measNext : Nat
  /-- consecutive CIs below TH1 to TH4 -/
  below : Vector Nat 4
  /-- every condition of the level absent at the last CI -/
  absent : Bool
  retPend : Bool
  /-- mains lost at the last CI -/
  lostBefore : Bool
  km : Nat
  duty : Nat
  /-- CHOP is within the duty of the period -/
  dutyOn : Bool
  chop : Bool
  ovAct : Bool
  holdChg : Bool
  holdDis : Bool
  l4Sto : Bool
  l5 : Bool
  flushed : Bool
  /-- level overlays now selected by binding -/
  bound : List Nat
  aSum : Nat
  deriving DecidableEq, Repr

def Sdm.reset : Sdm := { result := 0, valid := false, flt := false, sat := 0, clean := 0, fltEv := false, ci := 0, ciFlt := false, ciVal := false }

def Pump.reset : Pump :=
  { sdm := Vector.replicate 8 Sdm.reset, vbus := 0, vhold := 0, meas := 0, eff := 0, tShed := none, measNext := 0,
    below := Vector.replicate 4 0, absent := true, retPend := false, lostBefore := false, km := 0x7FFFF, duty := 0, dutyOn := false, chop := false,
    ovAct := false, holdChg := false, holdDis := false, l4Sto := false, l5 := false, flushed := false,
    bound := [], aSum := 0 }

/-- The states of a CAN controller (CN_STAT.STATE, R418). -/
inductive CanState where
  | init | integrating | active | passive | busOff | recovering
  deriving DecidableEq, Repr

/-- An entry of the fall-back queue (R408): frame words, late cancel, ACK errors met. -/
structure TqEntry where
  frame : List Word
  late : Bool
  acks : Nat
  deriving DecidableEq, Repr

/-- The frame now on the bus: own candidate (an object number, or 128 for the queue head), or another node's, with the system time of its SOF. -/
structure OnBus where
  own : Option Nat
  sof : Nat
  deriving DecidableEq, Repr

/-- A TPDO's timers (R415): the inhibit time is running, and a transmission is held back by it. -/
structure TpdoSt where
  inhibit : Bool
  held : Bool
  deriving DecidableEq, Repr

/-- One CAN FD controller (chapter 15). PEND, TXRES, NEW and OVW of an object live in the registers. -/
structure Can where
  st : CanState
  tec : Nat
  recv : Nat
  /-- objects with a late cancel (R404), and ACK errors met by each pending request -/
  late : List Nat
  acks : SMap Nat
  /-- requests that have taken part in a frame, 128 for the queue head: not held at L1 (R413) -/
  tried : List Nat
  queue : List TqEntry
  /-- result FIFO, oldest first: TXRES, TAG -/
  results : List (Nat × Nat)
  /-- receive ring with window and shadow, oldest first -/
  ring : List (List Word)
  wval : Bool
  /-- consecutive ACK errors (R405) -/
  ackRun : Nat
  bus : Option OnBus
  /-- INIT = 1 taken, waiting for the end of the frame in progress (R407) -/
  initPend : Bool
  /-- NMT stopped (R416) -/
  stopped : Bool
  /-- heartbeats sent since the CANopen layer started -/
  beats : Nat
  tpdo : SMap TpdoSt
  /-- frames this controller has sent, newest first, kept until the next boundary -/
  sent : List (List Word)
  deriving DecidableEq, Repr

def TpdoSt.reset : TpdoSt := { inhibit := false, held := false }

def Can.reset : Can :=
  { st := .init, tec := 0, recv := 0, late := [], acks := [], tried := [], queue := [], results := [], ring := [], wval := false,
    ackRun := 0, bus := none, initPend := false, stopped := false, beats := 0, tpdo := [], sent := [] }

/-- A record of an overlay (R434): index, sub-index, value truncated to the entry's type. -/
structure OvRec where
  index : Nat
  sub : Nat
  value : Int
  deriving DecidableEq, Repr

/-- One overlay (R434): its records in order, the CRC last approved, whether the present contents are approved. -/
structure Overlay where
  recs : List OvRec
  approved : Bool
  lastCrc : Nat
  deriving DecidableEq, Repr

/-- A message handed to a port: the CANopen node-ID or link address it goes to, 0 for a response to an SDO or USDO request, and its bytes. -/
structure OutMsg where
  port : KPort
  node : Nat
  bytes : List Byte
  deriving DecidableEq, Repr

/-- A forwarded request waiting for its response (R432): the request as received, the message identifier it was sent under, and the port it left by. -/
structure Forward where
  req : KReq
  msgid : Nat
  out : KPort
  deriving DecidableEq, Repr

/-- A store, restore or overlay write being completed in this unit and in the partner (R437, R438). -/
structure StoreJob where
  req : KReq
  /-- base values of a store, by entry; none for a restore or an overlay write -/
  vals : Option (List (Nat × Int))
  /-- relayed by the partner -/
  relayed : Bool
  ownDone : Bool
  partnerDone : Bool
  /-- already answered with an abort -/
  answered : Bool
  deriving DecidableEq, Repr

/-- Kiosk's hidden state (chapter 16). -/
structure Kiosk where
  ov : Vector Overlay 16
  /-- selected set in force, and PHB -/
  sel : Nat
  phb : Nat
  /-- base values of the entries that a selected overlay holds, by entry (R436): an entry is 256 * index + sub-index -/
  base : List (Nat × Int)
  /-- values of the entries that Kiosk itself holds: 1017h, 1400h-1A3Fh, 2010h, the read pointer of 3050h -/
  vals : SMap Int
  /-- SNNs whose last request to this unit was the key (R422) -/
  keys : List (BitVec 18)
  /-- the 32 most recent requests served locally, newest first (R432) -/
  served : List KAnswer
  /-- requests for firmware, oldest first, at most 16 (R433), each with: the request before it from its SNN was the key -/
  fwq : List (KReq × Bool)
  fwd : List Forward
  nextMsg : Nat
  /-- routed response of 2011h:02h per source SNN: none while it has not arrived (R431) -/
  routed : List (BitVec 18 × Option (List Byte))
  jobs : List StoreJob
  /-- number of the configuration copy in force, none where no copy is, and its sequence number -/
  copy : Option Nat
  copySeq : Nat
  cfgSig : Nat
  hpBusy : Bool
  /-- the last answer given, and messages sent by a port since the last boundary -/
  answer : Option KAnswer
  outMsg : List OutMsg
  deriving DecidableEq, Repr

def Overlay.reset : Overlay := { recs := [], approved := false, lastCrc := 0 }

def Kiosk.reset : Kiosk :=
  { ov := Vector.replicate 16 Overlay.reset, sel := 0, phb := 0, base := [], vals := [], keys := [], served := [], fwq := [], fwd := [],
    nextMsg := 0, routed := [], jobs := [], copy := none, copySeq := 0, cfgSig := 0, hpBusy := false, answer := none, outMsg := [] }


/-- A sample taken by a counter's wrap (R392): core, stage of the event, instructions not annulled still to enter E1 before the recorded one. -/
structure Sample where
  core : Nat
  stage : Nat
  left : Nat
  deriving DecidableEq, Repr

/-- The performance counters (chapter 14). Counter 12 n + k is Pk of core n, 12 n + 8 + m its top-down counter m, 96 + k is Sk. -/
structure Counters where
  cnt : SMap Nat
  /-- staged HI words -/
  hi : SMap Word
  /-- core counters whose event had a nonzero amount in the word before (R388) -/
  prev : List Nat
  /-- snapshot: counters, and overflow words per core (0-7) and system (8) -/
  snap : SMap Nat
  snapOvf : SMap Word
  sample : List Sample
  deriving DecidableEq, Repr

def Counters.reset : Counters := { cnt := [], hi := [], prev := [], snap := [], snapOvf := [], sample := [] }

/-- What survives a reset in MRAM's persistent block, whose word layout the spec does not give (R467), and the return record (R480). -/
structure Persist where
  epoch : Nat
  xage : Nat
  logAckHi : Word
  logAckLo : Word
  l5cnt : Nat
  salt : Nat
  digest : Nat
  pwDefault : Bool
  /-- 1011h:01h marked the base image (R437) -/
  restoreMark : Bool
  hours : Nat
  hoursRun : Nat
  /-- resets of each code 1 to 5 -/
  resets : List Nat
  /-- fault-record entries of each KIND -/
  kinds : List Nat
  frSeq : Nat
  logNext : Nat
  /-- sequence number of the newest half of the return record -/
  retSeq : Nat
  deriving DecidableEq, Repr

/-- The instructions of the test access port (R478). -/
inductive TapIr where
  | bypass | idcode | sample | extest | clamp | highz
  deriving DecidableEq, Repr

/-- Start-up, reset, requester locks and the slow domain (chapters 17, 19, 20). -/
structure SysCtl where
  op : OpState
  /-- BOOT step now running, 0 outside BOOT -/
  step : Nat
  /-- the BWAIT wait of step 4 is running -/
  bwait : Bool
  /-- RST_N holds the reset (R494) -/
  rstHeld : Bool
  hostPgm : Bool
  bootHold : Bool
  /-- an accepted request to leave CONFIG waits for the boundary (R475) -/
  joinReq : Bool
  /-- requesters whose lock is unlocked (R451) -/
  unlocked : List Requester
  /-- shadows of R446 -/
  shadow : List (Requester × Nat × Word)
  /-- slow-domain writes waiting for their transfer, oldest first (R448) -/
  slow : List (Nat × Word × Requester)
  /-- requesters of the command registers whose staged command waits for its boundary -/
  cmdBy : List (Nat × Requester)
  testEn : Bool
  tap : TapIr
  /-- fault-record entries waiting to be written, oldest first, at most 32 (R479) -/
  frBuf : List (List Word)
  /-- an event of the reset that the BOOT to come records (R469) -/
  resetRec : Option Nat
  per : Persist
  /-- GPIO pin levels -/
  gpio : BitVec 32
  /-- the words that the last host-port frame or NV_MDATA read returned -/
  rdata : List Word
  /-- cycle of the last boundary -/
  tBoundary : Nat
  /-- the last slow-clock edge that transferred writes, and what the copies of the registers written go on showing until the next (R448) -/
  slowAt : Nat
  slowSeen : List (Nat × Word)
  /-- the cycle of the last entry into SAFE (R440) -/
  tSafe : Option Nat
  deriving DecidableEq, Repr

def Persist.reset : Persist :=
  { epoch := 0, xage := 0, logAckHi := 0xFFF, logAckLo := 0xFFFFF, l5cnt := 0, salt := 0, digest := 0, pwDefault := true,
    restoreMark := false, hours := 0, hoursRun := 0, resets := [0, 0, 0, 0, 0], kinds := [0, 0, 0, 0], frSeq := 0,
    logNext := 0, retSeq := 0 }

/-- The part just after power application, BOOT step 1 running. -/
def SysCtl.reset : SysCtl :=
  { op := .boot, step := 1, bwait := false, rstHeld := false, hostPgm := false, bootHold := false,
    joinReq := false, unlocked := [], shadow := [], slow := [], cmdBy := [], testEn := false, tap := .idcode, frBuf := [],
    resetRec := some 2, per := Persist.reset, gpio := 0, rdata := [], tBoundary := 0, slowAt := 0, slowSeen := [], tSafe := none }

/-- The memories. Keys: xy holds core * 131072 + bank address (X at 0, Y at 65536); pgm holds core * 131072 + program address. -/
structure Mems where
  xy : SMap Word
  shared : SMap Word
  /-- Belvedere's record memory, 512 Ki words (R166) -/
  bvRec : SMap Word
  pgm : SMap (BitVec 40)
  /-- MRAM, 512 Ki words (R467) -/
  mram : SMap Word
  deriving DecidableEq, Repr

/-- The whole part, and the queue of commands waiting. -/
structure State where
  /-- commands waiting, first in first out -/
  pending : List Instr
  /-- system clock cycles since the last reset -/
  now : Nat
  /-- free values used so far (the model's own field; DESIGN CHOICE, log entry 2) -/
  freeCtr : Nat
  sys : SysCtl
  /-- register words as a read shows them, for registers kept in the map -/
  regs : SMap Word
  /-- words still in force of registers whose B-marked write waits for its boundary (R13), by address -/
  held : List (Nat × Word)
  mem : Mems
  cores : Vector Core 8
  pg : Pergola
  sd : Sundial
  mains : Mains
  fb : Vector FbChan 16
  fbo : Vector FboPins 8
  mo : Motion
  sv : Servo
  bv : Belvedere
  lk : Link
  time : TimeSt
  pr : Pair
  gh : Gatehouse
  ph : Pump
  can : Vector Can 2
  ks : Kiosk
  pc : Counters
  deriving DecidableEq, Repr

/-- Why the part stops: it never does. Every error the spec names (a core fault, a fault code of Gatehouse, a dropped write, an abort code) is an effect on the state, so no command ends in a fault and the type is empty. -/
inductive Fault where
  deriving DecidableEq, Repr

/-- Why a command has no meaning here. -/
inductive Refusal where
  /-- The command is not modelled: raised by exec's arm. Safe. -/
  | notModelled (mnemonic : String)
  /-- A maker's private test instruction in TEST, whose effect the spec does not give (R478): raised by TAP_INSTRUCTION. Safe. -/
  | makersPrivate
  deriving DecidableEq, Repr

def Mems.reset : Mems := { xy := [], shared := [], bvRec := [], pgm := [], mram := [] }

def FboPins.reset : FboPins := { a := false, b := false, z := false }

/-- The part after power application, at the start of BOOT (DESIGN CHOICE, log entry 49): SC_STAT.STATE is 1h (R455) and NV_RSTSRC names a rail power-on reset (R468). -/
def State.reset : State :=
  { pending := [], now := 0, freeCtr := 0, sys := SysCtl.reset, regs := [], held := [], mem := Mems.reset,
    cores := Vector.replicate 8 Core.reset, pg := Pergola.reset, sd := Sundial.reset, mains := Mains.reset,
    fb := Vector.replicate 16 FbChan.reset, fbo := Vector.replicate 8 FboPins.reset, mo := Motion.reset, sv := Servo.reset,
    bv := Belvedere.reset, lk := Link.reset, time := TimeSt.reset, pr := Pair.reset, gh := Gatehouse.reset,
    ph := Pump.reset, can := Vector.replicate 2 Can.reset, ks := Kiosk.reset, pc := Counters.reset }

end Sys2Proof.Machine
end

