-- ==== Sys2Proof/Machine/Ops.lean ====
section
/-! DEFINITION. Named operations over the registers, the memories, time and the free values, shared by every block. -/

namespace Sys2Proof.Machine

/-! ### Registers -/

/-- The word a register shows: as written, or as forced (R442). -/
def regGet (s : State) (a : Nat) : Word := mapGet (resetWord a) s.regs (canonAddr a)

/-- Sets the word a register shows. -/
def regSet (a : Nat) (w : Word) (s : State) : State :=
  { s with regs := mapPut (resetWord a) s.regs (canonAddr a) w }

/-- The entry of an association list. -/
def lookupNat {β : Type} : List (Nat × β) → Nat → Option β
  | [], _ => none
  | (k, v) :: m, a => if a = k then some v else lookupNat m a

/-- The word in force: while a B-marked write waits, the word before it (R13). -/
def inForce (s : State) (a : Nat) : Word :=
  match lookupNat s.held (canonAddr a) with
  | some w => w
  | none => regGet s a

/-- Changes the word a register shows and, where one is kept, the word in force. -/
def hwMod (a : Nat) (f : Word → Word) (s : State) : State :=
  let s' := regSet a (f (regGet s a)) s
  { s' with held := s'.held.map fun e => if e.1 = canonAddr a then (e.1, f e.2) else e }

/-- A write waiting for its boundary: reads show the new word, the word before it stays in force (R13). -/
def stageReg (a : Nat) (w : Word) (s : State) : State :=
  let c := canonAddr a
  let old := inForce s a
  let s1 := regSet a w s
  if (lookupNat s.held c).isSome then s1 else { s1 with held := s1.held ++ [(c, old)] }

/-- The registers whose B-marked field is a command. -/
def isCommand (a : Nat) : Bool :=
  ((decide (0xF08000 ≤ a) && decide (a < 0xF0C000)) || (decide (0xF0F000 ≤ a) && decide (a < 0xF0F800))) && a % 64 == 1 ||
  a == 0xF0FA00 || a == 0xF100F7 || a == 0xF100FF || (decide (0xF20100 ≤ a) && decide (a < 0xF20140) && a % 16 == 9) || a == 0xF30001

/-- Keeps who staged a command, for the record of a drop at its boundary (R453). -/
def noteCommand (who : Requester) (a : Nat) (s : State) : State :=
  if isCommand a || a == 0xF34007 then { s with sys := { s.sys with cmdBy := s.sys.cmdBy.filter (fun e => e.1 != a) ++ [(a, who)] } } else s

/-- Who staged the command of a register; Kiosk where none is known. -/
def commandBy (s : State) (a : Nat) : Requester := ((s.sys.cmdBy.find? fun e => e.1 == a).map (·.2)).getD .kiosk

/-- A field of the word in force. -/
def fldOf (s : State) (a hi lo : Nat) : Nat := fld (inForce s a) hi lo

/-- A bit of the word in force. -/
def bitOf (s : State) (a n : Nat) : Bool := bit (inForce s a) n

/-- A field set by hardware. -/
def putFld (a hi lo v : Nat) (s : State) : State := hwMod a (fun w => setFld w hi lo v) s

/-- A bit set or cleared by hardware. -/
def putBit (a n : Nat) (b : Bool) (s : State) : State := hwMod a (fun w => setBit w n b) s

/-- A word set by hardware. -/
def putWord (a : Nat) (w : Word) (s : State) : State := hwMod a (fun _ => w) s

/-- Adds to a 20-bit event counter, which wraps without a flag. -/
def countBy (a n : Nat) (s : State) : State := hwMod a (fun w => w + word n) s

/-- Adds one to an event counter. -/
def count (a : Nat) (s : State) : State := countBy a 1 s

/-- The unsigned value in force of a HI and LO pair. -/
def pairN (s : State) (a : Nat) : Nat := (inForce s a).toNat * 2 ^ 20 + (inForce s (a + 1)).toNat

/-- The signed 40-bit value in force of a HI and LO pair. -/
def pairI (s : State) (a : Nat) : Int := sext 40 (pairN s a)

/-- A number set by hardware into a HI and LO pair. -/
def putPair (a n : Nat) (s : State) : State := putWord (a + 1) (word n) (putWord a (word (n / 2 ^ 20)) s)

/-- The value of a list of addresses, most significant first. -/
def putWords (a : Nat) : List Word → State → State
  | [], s => s
  | w :: ws, s => putWords (a + 1) ws (putWord a w s)

/-- The words of a 64-bit number: bits 63:60, 59:40, 39:20, 19:0 (R176, R418). -/
def words64 (n : Nat) : List Word := [word (n / 2 ^ 60 % 16), word (n / 2 ^ 40), word (n / 2 ^ 20), word n]

/-- Repeats an operation over the numbers below n, lowest first. -/
def upTo (n : Nat) (f : Nat → State → State) (s : State) : State := (List.range n).foldl (fun s i => f i s) s

/-- Applies an operation for every element of a list, first to last. -/
def forEach {α : Type} (l : List α) (f : α → State → State) (s : State) : State := l.foldl (fun s x => f x s) s

/-- Applies an operation under a condition. -/
def whenB (b : Bool) (f : State → State) (s : State) : State := if b then f s else s

/-! ### Time and free values -/

/-- Time advances to an instant; it never runs back. -/
def advance (t : Nat) (s : State) : State := { s with now := max s.now t }

/-- The part of the error of the last PPS edge removed by a cycle: all of it after one second (R212). -/
def slewDone (s : State) (t : Nat) : Int :=
  match s.time.tEdge with
  | none => 0
  | some u => s.time.slew * (min (t - u) 600000000 : Nat) / 600000000

/-- System time in ns at a cycle: 5/3 ns per cy from reset, with the offset and slew of R212. -/
def sysTimeAt (s : State) (t : Nat) : Nat := wrapN 64 ((t * 5 / 3 : Nat) + s.time.offset - slewDone s t)

/-- System time now. -/
def sysTime (s : State) : Nat := sysTimeAt s s.now

/-- A free value: nothing constrains it (DESIGN CHOICE, log entry 2). -/
def freeNat (s : State) : Nat × State := (Config.freeValue s.freeCtr, { s with freeCtr := s.freeCtr + 1 })

/-! ### Mode and operating state -/

/-- The number of an operating state in SC_STAT.STATE (R455). -/
def OpState.num : OpState → Nat
  | .powerUp => 0 | .boot => 1 | .config => 2 | .join => 3 | .runActive => 4 | .runStandby => 5
  | .degraded => 6 | .safe => 7 | .recovery => 8 | .test => 9

/-- The performance mode that is or will be fixed, from NV_MODE in force (R5, R474). -/
def modeOf (s : State) : Nat := fldOf s 0xF54002 19 18

/-- The number of axes of the mode (R4). -/
def axisCount (s : State) : Nat := if modeOf s = 1 then 256 else if modeOf s = 2 then 64 else 128

/-- Channel c carries axis a: channel A the lower half of the mode's axes, channel B the upper (R4, R15). -/
def carriesAxis (s : State) (c a : Nat) : Bool := decide (a < axisCount s) && (if 2 * a < axisCount s then c == 0 else c == 1)

/-- The nominal servo period of the mode in cy (R4). -/
def nominalPeriod (s : State) : Nat := if modeOf s = 1 then 37500 else if modeOf s = 2 then 9375 else 18750

/-- The part is in one of the states that run motion: RUN-ACTIVE, RUN-STANDBY or DEGRADED. -/
def running (s : State) : Bool := s.sys.op == .runActive || s.sys.op == .runStandby || s.sys.op == .degraded

/-- Kiosk, Pergola, the counters and the cores run: from the end of BOOT, in every state but TEST. -/
def afterBoot (s : State) : Bool := s.sys.op != .powerUp && s.sys.op != .boot && s.sys.op != .test

/-- The unit holds the active role (R227). -/
def isActive (s : State) : Bool := s.pr.active

/-- The part is a member of a head pair (R227). -/
def paired (s : State) : Bool := bitOf s 0xF28000 18

/-- The unit is a standby: RUN-STANDBY, or DEGRADED entered from it (R227). -/
def isStandby (s : State) : Bool := s.sys.op == .runStandby || (s.sys.op == .degraded && paired s && !s.pr.active)

/-- The unit is unit B. -/
def lkUnitB (s : State) : Bool := bitOf s 0xF28000 19

/-- The link address of this head, which is its rank (R213). -/
def ownAddr (s : State) : Nat := (lkUnitB s).toNat
def partnerAddr (s : State) : Nat := 1 - ownAddr s

/-- The effective shed level (R296). -/
def effLevel (s : State) : Nat := s.ph.eff

/-! ### Dropped writes -/

/-- The number of a requester in SC_DROP_SRC.REQ. -/
def reqNum : Requester → Nat
  | .core n => n.val | .host => 8 | .kiosk => 9 | .mirror => 10

/-- A dropped write: counted in SC_WRITE_DROP, with its address, requester and reason (R442, R455). -/
def dropWrite (who : Requester) (a why : Nat) (s : State) : State :=
  putWord 0xF50004 (word (reqNum who * 2 ^ 16 + why * 2 ^ 8))
    (putWord 0xF50003 (word a) (putWord 0xF50002 (word (a / 2 ^ 20 % 16)) (count 0xF50001 s)))

/-- Every write to a peripheral register arms the writer's lock (R451). -/
def armLock (who : Requester) (s : State) : State :=
  { s with sys := { s.sys with unlocked := s.sys.unlocked.filter fun r => r != who } }

/-- A write to a K register: taken if the writer's lock is unlocked, else dropped with reason 01h; the lock is armed again in either case (R14, R451). -/
def kWrite (who : Requester) (a : Nat) (f : State → State) (s : State) : State :=
  if s.sys.unlocked.contains who then f (armLock who s) else dropWrite who a 1 (armLock who s)

/-! ### Memories -/

/-- The word of a core's X or Y bank at its address 00000h-1FFFFh. -/
def xyGet (s : State) (c a : Nat) : Word := mapGet 0 s.mem.xy (c * 131072 + a)

def xySet (c a : Nat) (w : Word) (s : State) : State :=
  { s with mem := { s.mem with xy := mapPut 0 s.mem.xy (c * 131072 + a) w } }

def sharedGet (s : State) (a : Nat) : Word := mapGet 0 s.mem.shared a

def sharedSet (a : Nat) (w : Word) (s : State) : State :=
  { s with mem := { s.mem with shared := mapPut 0 s.mem.shared a w } }

def bvRecGet (s : State) (a : Nat) : Word := mapGet 0 s.mem.bvRec a

def bvRecSet (a : Nat) (w : Word) (s : State) : State :=
  { s with mem := { s.mem with bvRec := mapPut 0 s.mem.bvRec a w } }

/-- What an MRAM word that nothing has written reads as: 00000h (DESIGN CHOICE, log entry 7). -/
def mramGet (s : State) (a : Nat) : Word := mapGet 0 s.mem.mram a

/-- Writes one MRAM word; in TEST none is written (R477). -/
def mramSet (a : Nat) (w : Word) (s : State) : State :=
  if s.sys.op = .test then s else { s with mem := { s.mem with mram := mapPut 0 s.mem.mram a w } }

def mramPutAll (a : Nat) : List Word → State → State
  | [], s => s
  | w :: ws, s => mramPutAll (a + 1) ws (mramSet a w s)

def mramGetAll (s : State) (a n : Nat) : List Word := (List.range n).map fun i => mramGet s (a + i)

def pgmGet (s : State) (c a : Nat) : BitVec 40 := mapGet 0 s.mem.pgm (c * 131072 + a)

def pgmSet (c a : Nat) (w : BitVec 40) (s : State) : State :=
  { s with mem := { s.mem with pgm := mapPut 0 s.mem.pgm (c * 131072 + a) w } }

/-! ### Parts of the state -/

def setCore (c : Fin 8) (k : Core) (s : State) : State := { s with cores := s.cores.set c k }

def setGroup (g : Fin 4) (x : Group) (s : State) : State := { s with gh := { s.gh with grp := s.gh.grp.set g x } }

def setTb (t : Fin 16) (x : Timebase) (s : State) : State := { s with sd := { s.sd with tb := s.sd.tb.set t x } }

def setFb (n : Fin 16) (x : FbChan) (s : State) : State := { s with fb := s.fb.set n x }

def setCan (c : Fin 2) (x : Can) (s : State) : State := { s with can := s.can.set c x }

def profOf (s : State) (o : Nat) : Profile := mapGet Profile.reset s.mo.prof o

def setProf (o : Nat) (p : Profile) (s : State) : State :=
  { s with mo := { s.mo with prof := mapPut Profile.reset s.mo.prof o p } }

def loopOf (s : State) (o : Nat) : LoopSt := mapGet LoopSt.reset s.sv.loops o

def setLoop (o : Nat) (l : LoopSt) (s : State) : State :=
  { s with sv := { s.sv with loops := mapPut LoopSt.reset s.sv.loops o l } }

def nodeOf (s : State) (a : Nat) : NodeSt := mapGet NodeSt.reset s.lk.nodes a

def setNode (a : Nat) (n : NodeSt) (s : State) : State :=
  { s with lk := { s.lk with nodes := mapPut NodeSt.reset s.lk.nodes a n } }

def axisUpl (s : State) (a : Nat) : AxisUpl := mapGet AxisUpl.reset s.lk.axes a

def setAxisUpl (a : Nat) (u : AxisUpl) (s : State) : State :=
  { s with lk := { s.lk with axes := mapPut AxisUpl.reset s.lk.axes a u } }

/-- A time in cy as 1/30 ns. -/
def cy30 (n : Nat) : Int := 50 * n
/-- A time in 0.1 ns as 1/30 ns. -/
def ns30 (n : Nat) : Int := 3 * n

/-- A frame leaves a port. -/
def sendFrame (f : SentFrame) (s : State) : State := { s with lk := { s.lk with sent := s.lk.sent ++ [f] } }

/-- A frame for the partner on the pair lane, with the header of R229. -/
def pairFrame (s : State) (b : FrameBody) : SentFrame :=
  { port := 4, at_ := 50 * s.now, src := ownAddr s, dst := partnerAddr s, act := s.pr.active, seq := s.lk.q, epoch := s.lk.epoch, body := b }

/-- A frame leaves by the pair lane. -/
def sendLane (b : FrameBody) (s : State) : State := sendFrame (pairFrame s b) s

end Sys2Proof.Machine
end

