-- ==== Sys2Proof/Machine/Counters.lean ====
section
/-! DEFINITION. Performance counters (14 R384-R395) and the asynchronous triggers of Belvedere (06 R167-R169), which event sources feed. -/

namespace Sys2Proof.Machine

/-! ### Asynchronous Belvedere triggers -/

def setBv (g : Fin 4) (x : BvGroup) (s : State) : State := { s with bv := { s.bv with g := s.bv.g.set g x } }

def bvBase (g : Nat) : Nat := 0xF20100 + 16 * g

def bvSdiv (x : BvGroup) : Nat := fld x.lat.cfg 19 8 + 1
def bvPre (x : BvGroup) : Nat := fld x.lat.cfg 7 1
/-- M, 1 without reduction (R166). -/
def bvM (x : BvGroup) : Nat := fld x.lat.red 19 4 + 1
/-- P pre-trigger samples (R167). -/
def bvP (x : BvGroup) : Nat := x.lat.nsamp * bvPre x / 100
/-- The place of sample i on the sampling grid. -/
def bvGrid (x : BvGroup) (i : Nat) : Nat := (x.samples.getD i ⟨0, 0, 0, []⟩).q / bvSdiv x

/-- Where a record with trigger sample t ends, one past its last sample, once that sample is taken (R167). -/
def bvPast (x : BvGroup) (t : Nat) : Option Nat :=
  let e := t + (x.lat.nsamp - bvP x)
  if bvM x = 1 then (if e ≤ x.samples.length then some e else none)
  else ((List.range x.samples.length).find? fun i => decide (e ≤ i + 1) && (bvGrid x i + 1) % bvM x == 0).map (· + 1)

/-- A triggered record that is complete with the samples taken ends (R167, R170). -/
def bvClosed (x : BvGroup) : BvGroup :=
  if x.st = .triggered ∧ x.ended.isNone ∧ x.trig.any (fun t => (bvPast x t).isSome) then { x with ended := some 0 } else x

/-- The sample of this period is still to come and its CI lies at or before cycle u (R169). -/
def bvSampleDue (s : State) (u : Nat) (x : BvGroup) : Bool :=
  decide (s.sys.tBoundary < s.lk.ci) && decide (s.lk.ci ≤ u) && s.lk.q % bvSdiv x == 0

/-- A trigger at cycle u accepted by an armed group: the trigger sample is the latest whose CI lies at or before it, or the first to be taken (R169); a record that this completes ends. -/
def bvAccept (s : State) (u : Nat) (x : BvGroup) : BvGroup :=
  let waits := x.samples.isEmpty || bvSampleDue s u x
  let before := (x.samples.takeWhile fun z => decide (z.ci ≤ u)).length
  bvClosed { x with st := .triggered, tEvt := sysTimeAt s u, trig := if waits then none else some (before - 1), trigWaits := waits }

/-- Offers an asynchronous event to every armed group whose trigger kind and condition match (R168). -/
def bvAsync (kind : Nat) (cond : BvGroup → Bool) (s : State) : State :=
  upTo 4 (fun i s =>
    let g : Fin 4 := Fin.ofNat 4 i
    let x := s.bv.g[g]
    if x.st = .armed && x.ended.isNone && (fld x.lat.trg 19 16 == kind) && cond x then setBv g (bvAccept s s.now x) s else s) s

/-- An edge of a pin named by TSEL (TKIND 5h): TDIR 00b rising, 01b falling, 10b either. -/
def bvPin (tsel : Nat) (rising : Bool) (s : State) : State :=
  bvAsync 5 (fun x => fld x.lat.trg 7 0 == tsel &&
    (let d := fld x.lat.trg 15 14
     d == 2 || (d == 0 && rising) || (d == 1 && !rising))) s

/-! ### Counters -/

/-- The configuration register of counter k (R394). -/
def pcCfgAddr (k : Nat) : Nat :=
  if k < 96 then (if k % 12 < 8 then 0xF4C000 + 64 * (k / 12) + k % 12 else 0xF4C008 + 64 * (k / 12)) else 0xF4C200 + (k - 96)

/-- The overflow register and bit of counter k. -/
def pcOvfAddr (k : Nat) : Nat × Nat :=
  if k < 96 then (0xF4C009 + 64 * (k / 12), if k % 12 < 8 then 12 + k % 12 else k % 12) else (0xF4C240, k - 96)

/-- The address of the HI word of counter k. -/
def pcHiAddr (k : Nat) : Nat := if k < 96 then 0xF4C010 + 64 * (k / 12) + 2 * (k % 12) else 0xF4C220 + 2 * (k - 96)

/-- The counter whose HI or LO word lies at an address, and whether it is the LO word. -/
def pcOfAddr (a : Nat) : Option (Nat × Bool) :=
  if 0xF4C220 ≤ a ∧ a < 0xF4C240 then some (96 + (a - 0xF4C220) / 2, a % 2 == 1)
  else if 0xF4C000 ≤ a ∧ a < 0xF4C200 ∧ 16 ≤ (a - 0xF4C000) % 64 ∧ (a - 0xF4C000) % 64 < 40 then
    some (12 * ((a - 0xF4C000) / 64) + ((a - 0xF4C000) % 64 - 16) / 2, a % 2 == 1)
  else none

/-- The counters count: from the end of BOOT, not in TEST, not under FRZ, not at L1 or above (R384, R390, R391). -/
def pcRunning (s : State) : Bool := afterBoot s && !bitOf s 0xF4C300 19 && effLevel s == 0

def pcGet (s : State) (k : Nat) : Nat := mapGet 0 s.pc.cnt k

def pcSet (k v : Nat) (s : State) : State := { s with pc := { s.pc with cnt := mapPut 0 s.pc.cnt k v } }

/-- The pending post of a source that has none yet, or the coalescing of an event (R377, R378). -/
def evPend (n : Nat) (s : State) : State :=
  if evClass n = 0 ∨ !bitOf s (0xF40000 + n) 19 then s
  else if (lookupNat s.pg.evPend n).isSome then count 0xF40080 (putBit (0xF40000 + n) 17 true s)
  else { s with pg := { s.pg with evPend := s.pg.evPend ++ [(n, false)] } }

/-- An event of a source: the Belvedere trigger of TKIND 7h, and the post of classes 1 to 3. -/
def evPost (n : Nat) (s : State) : State :=
  evPend n (bvAsync 7 (fun x => fld x.lat.trg 6 0 == n) s)

/-- A wrap of counter k of a core captures a sample when the counter is the sampling one; a wrap while a sample waits for its instruction counts as lost, as one while SVAL is 1 (R392; DESIGN CHOICE, log entry 72). -/
def pcSample (k stage : Nat) (s : State) : State :=
  let n := k / 12
  let base := 0xF4C000 + 64 * n
  if k < 96 ∧ k % 12 < 8 ∧ bitOf s (base + 10) 19 ∧ fldOf s (base + 10) 18 16 = k % 12 then
    if bitOf s (base + 12) 19 || s.pc.sample.any (fun x => x.core == n) then count (base + 13) s
    else { s with pc := { s.pc with sample := s.pc.sample ++ [⟨n, stage, 3 + stage⟩] } }
  else s

/-- Adds an amount to a counter: a pass of FFFFFFFFFFh wraps, sets the overflow bit, and may raise EV97 and capture a sample (R389). -/
def pcAdd (k amount stage : Nat) (s : State) : State :=
  let v := pcGet s k + amount
  let s1 := pcSet k (v % 2 ^ 40) s
  if 2 ^ 40 ≤ v then
    let s2 := putBit (pcOvfAddr k).1 (pcOvfAddr k).2 true s1
    pcSample k stage (whenB (bitOf s2 (pcCfgAddr k) 17) (evPost 97) s2)
  else s1

/-- The amount of an event code in a list of events of one cycle: code, amount, stage. -/
def pcAmount : List (Nat × Nat × Nat) → Nat → Nat × Nat
  | [], _ => (0, 0)
  | (c, a, st) :: es, code => if c = code then (a, st) else pcAmount es code

/-- One programmable core counter over the events of one word (R387, R388). -/
def pcCoreCounter (n j : Nat) (evs : List (Nat × Nat × Nat)) (s : State) : State :=
  let k := 12 * n + j
  let code := fldOf s (pcCfgAddr k) 6 0
  let (amt, st) := if 0 < code ∧ code < 0x40 then pcAmount evs code else (0, 0)
  let was := s.pc.prev.contains k
  let amt' := if bitOf s (pcCfgAddr k) 18 then (if amt ≠ 0 ∧ !was then 1 else 0) else amt
  let s1 := { s with pc := { s.pc with prev := if amt = 0 then s.pc.prev.erase k else if was then s.pc.prev else k :: s.pc.prev } }
  if bitOf s1 (pcCfgAddr k) 19 && pcRunning s1 then pcAdd k amt' st s1 else s1

/-- Records the program address of a pending sample when its instruction is reached (R392). -/
def pcRecord (n pc prio : Nat) (base : Bool) (desc : Nat) (s : State) : State :=
  let due := s.pc.sample.filter (fun x => x.core == n && decide (x.left ≤ 1))
  let rest := (s.pc.sample.filter fun x => !(x.core == n && decide (x.left ≤ 1))).map fun x =>
    if x.core = n then { x with left := x.left - 1 } else x
  let s1 := { s with pc := { s.pc with sample := rest } }
  forEach due (fun x s =>
    evPost 97 (putWord (0xF4C00C + 64 * n) (word (2 ^ 19 + prio * 2 ^ 16 + base.toNat * 2 ^ 15 + x.stage * 2 ^ 13 + desc))
      (putWord (0xF4C00B + 64 * n) (word pc) s))) s1

/-- The events of one word of core n: programmable and top-down counters. -/
def pcCore (n : Nat) (evs : List (Nat × Nat × Nat)) (s : State) : State :=
  let s1 := upTo 8 (fun j => pcCoreCounter n j evs) s
  upTo 4 (fun m s =>
    if bitOf s (pcCfgAddr (12 * n + 8 + m)) 19 && pcRunning s then pcAdd (12 * n + 8 + m) (pcAmount evs (3 + m)).1 1 s else s) s1

/-- A system event of an amount (R387). Commands lie in different cycles, so an edge counter adds 1 for each (DESIGN CHOICE, log entry 25). -/
def pcSys (code amount : Nat) (s : State) : State :=
  if pcRunning s then
    upTo 16 (fun k s =>
      let cfg := pcCfgAddr (96 + k)
      if bitOf s cfg 19 && fldOf s cfg 6 0 == code then
        pcAdd (96 + k) (if bitOf s cfg 18 then min amount 1 else amount) 0 s
      else s) s
  else s

/-- An event of source EVn: counters of the class-0 sources, triggers and posts. -/
def raiseEvent (n : Nat) (s : State) : State := evPost n (whenB (n < 16) (pcSys (0x40 + n) 1) s)

/-- SNAP copies every counter and overflow register into its snapshot (R390). -/
def pcSnap (s : State) : State :=
  putBit 0xF4C300 16 true { s with pc := { s.pc with
    snap := s.pc.cnt
    snapOvf := (List.range 8).foldl (fun m n => mapPut 0 m n (regGet s (0xF4C009 + 64 * n)))
      (mapPut 0 [] 8 (regGet s 0xF4C240)) } }

/-- A write of a LO word loads the counter from the staged HI and LO and clears its overflow bit (R394). -/
def pcLoad (k : Nat) (lo : Word) (s : State) : State :=
  putBit (pcOvfAddr k).1 (pcOvfAddr k).2 false
    (pcSet k ((mapGet 0 s.pc.hi k).toNat * 2 ^ 20 + lo.toNat) s)

/-- COUNTER_WRAP: an event of the amount at counter k, which wraps where it passes FFFFFFFFFFh; the counters of a halted core stop (R384, R389). -/
def counterWrapEff (k : Fin 112) (amount : Fin 3) (s : State) : State :=
  if pcRunning s && bitOf s (pcCfgAddr k) 19 && (decide (96 ≤ k.val) || !s.cores[Fin.ofNat 8 (k.val / 12)].halted) then pcAdd k amount 1 s else s

def execCounterWrap (k : Fin 112) (amount : Fin 3) (s : State) : Host.Outcome State Fault Refusal :=
  .next (counterWrapEff k amount s)

end Sys2Proof.Machine
end

