-- ==== Sys2Proof/Machine/Pergola.lean ====
section
/-! DEFINITION. Pergola: descriptors, posts, presentation, ordering keys, the delay list and event-source posts (13 R363-R383). -/

namespace Sys2Proof.Machine

def descCfg (d : Nat) : Nat := 0xF3C000 + 4 * d

def descEn (s : State) (d : Nat) : Bool := bitOf s (descCfg d) 19
def descClass (s : State) (d : Nat) : Nat := fldOf s (descCfg d) 18 17
def descPrio (s : State) (d : Nat) : Nat := fldOf s (descCfg d) 16 14
def descKey (s : State) (d : Nat) : Option Nat :=
  if bitOf s (descCfg d) 13 then some (fldOf s (descCfg d) 12 7) else none
/-- The largest number of posts waiting; 00h is taken as 01h. -/
def descMaxp (s : State) (d : Nat) : Nat := max 1 (fldOf s (descCfg d + 1) 11 4)
def descMask (s : State) (d n : Nat) : Bool := bitOf s (descCfg d + 1) (12 + n)
def descEntry (s : State) (d : Nat) : Nat := fldOf s (descCfg d + 2) 16 0

/-- The class bounds the priority (R364). -/
def classPrioOk (cls prio : Nat) : Bool :=
  (cls == 1 && prio == 7) || (cls == 2 && 4 ≤ prio && prio ≤ 6) || (cls == 3 && prio ≤ 3)

/-- Posts of a descriptor waiting. -/
def descPend (s : State) (d : Nat) : Nat := (s.pg.ready.filter fun p => p.desc == d).length

/-- Whether the ready store refuses a post for lack of room (R365). -/
def readyRefuses (s : State) (d : Nat) : Bool :=
  decide (1024 ≤ s.pg.ready.length) ||
  (descClass s d != 1 && decide (960 ≤ (s.pg.ready.filter fun p => descClass s p.desc != 1).length)) ||
  decide (descMaxp s d ≤ descPend s d)

/-- A post that the ready store takes. -/
def pushPost (d : Nat) (arg : Word) (s : State) : State :=
  pcSys 0x55 1 { s with pg := { s.pg with ready := s.pg.ready ++ [⟨d, arg, descKey s d⟩] } }

/-- A post to a disabled descriptor is discarded (R365). -/
def discardPost (d : Nat) (s : State) : State := putBit (descCfg d + 3) 6 true (count 0xF3C804 s)

/-- A refusal of a post, counted once per post (R379). -/
def refusedPost (d : Nat) (s : State) : State := pcSys 0x57 1 (putBit (descCfg d + 3) 7 true (count 0xF3C803 s))

/-- Offers a post: true when it entered the store or was discarded, false while it is refused for lack of room. -/
def offerPost (d : Nat) (arg : Word) (s : State) : Bool × State :=
  if !descEn s d then (true, discardPost d s)
  else if readyRefuses s d then (false, s)
  else (true, pushPost d arg s)

/-! ### Presentation -/

/-- Keys held by tasks of any core's nesting (R371). -/
def keysHeld (s : State) : List Nat := s.cores.toList.flatMap fun c => c.nest.filterMap fun t => t.key

/-- The oldest waiting post of each key is the only presentable one. -/
def keyFree (s : State) (older : List Post) (p : Post) : Bool :=
  match p.key with
  | none => true
  | some k => !(keysHeld s).contains k && !older.any fun q => q.key == some k

def coreRunning (c : Core) : Bool := c.run && !c.halted

/-- Stops a core (R334): fetch stops; its store buffer goes on draining. -/
def haltCore (c : CoreId) (s : State) : State := setCore c { s.cores[c] with halted := true, waiting := false } s

def stPri (st : Word) : Nat := fld st 10 8

/-- Whether a post is presentable to core n (R368). -/
def presentable (s : State) (older : List Post) (p : Post) (n : Fin 8) : Bool :=
  let c := s.cores[n]
  descMask s p.desc n && coreRunning c && !bit c.r.st 0 &&
  (c.base || decide (stPri c.r.st < descPrio s p.desc)) && keyFree s older p

/-- The rank of a core for a presentation: WAIT first, then the lowest running priority. -/
def coreRank (c : Core) : Nat := if c.waiting then 0 else 1 + stPri c.r.st

/-- The best core of a list, ties to the lowest number (the list ascends). -/
def bestCore (s : State) : List (Fin 8) → Option (Fin 8)
  | [] => none
  | n :: ns =>
    match bestCore s ns with
    | none => some n
    | some m => if coreRank s.cores[m] < coreRank s.cores[n] then some m else some n

/-- One pass over the ready store at a level: presentations so far as core and post index. -/
def presentLevel (s : State) (lvl : Nat) : List Post → Nat → List Post → List (Fin 8 × Nat) → List (Fin 8 × Nat)
  | [], _, _, acc => acc
  | p :: ps, i, older, acc =>
    let acc' :=
      if descPrio s p.desc = lvl then
        let cands := (List.finRange 8).filter fun n => presentable s older p n && !acc.any fun x => x.1 == n
        match bestCore s cands with
        | some n => acc ++ [(n, i)]
        | none => acc
      else acc
    presentLevel s lvl ps (i + 1) (older ++ [p]) acc'

/-- The presentations of R369: each core with at most one post. -/
def presentations (s : State) : List (Fin 8 × Nat) :=
  [7, 6, 5, 4, 3, 2, 1, 0].foldl (fun acc lvl => presentLevel s lvl s.pg.ready 0 [] acc) []

/-- The post presented to a core: its index in the ready store. -/
def presentedTo (s : State) (n : Fin 8) : Option Nat :=
  ((presentations s).find? fun x => x.1 == n).map (·.2)

/-! ### The delay list -/

/-- The modulus of a timebase, where it is modular (R46). -/
def tbModulus (s : State) (t : Nat) : Option Int :=
  let a := 0xF00000 + 16 * t
  let kind := fldOf s a 18 16
  if kind = 5 then some (2 ^ 20) else if kind = 6 then some (2 ^ 40)
  else if bitOf s a 15 then some (pairN s (a + 2)) else none

/-- Live entries of the delay list. -/
def delayLive (s : State) : Nat := s.pg.delay.length

def lowestFree : Nat → Nat → List Nat → Nat
  | 0, i, _ => i
  | n + 1, i, used => if used.contains i then lowestFree n (i + 1) used else i

/-- What a delay post asks for: refused outright, or its due condition (R372, R373, R375). A tick count above 2^32 - 1, which R372 does not give, is taken as it stands (DESIGN CHOICE, log entry 72). -/
def delayDue (s : State) (dval : Nat) (dsel : Word) : Option DelayDue :=
  let srck := fld dsel 18 17
  let dir := fld dsel 16 15
  let tb := fld dsel 14 11
  if dir = 3 then none
  else if srck = 0 then (if dval = 0 then none else some (.tick dval))
  else if srck = 1 then
    if bit dsel 19 then
      let x := s.sd.tb[Fin.ofNat 16 tb]
      if !x.armed then none
      else
        let d := x.val / 4096 + sext 40 dval
        match tbModulus s tb with
        | some m => some (.base tb (if m = 0 then d else d % m) dir)
        | none => some (.base tb (wrapI 40 d) dir)
    else
      match tbModulus s tb with
      | some _ => some (.base tb dval dir)
      | none => some (.base tb (sext 40 dval) dir)
  else none

/-- Enters a delay-list entry; answers the handle word and the list (R375). -/
def delayEnter (d : Nat) (arg : Word) (due : DelayDue) (s : State) : Word × State :=
  let n := lowestFree 1024 0 (s.pg.delay.map (·.entry))
  let g := mapGet 0 s.pg.gens n
  (word (2 ^ 19 + g * 2 ^ 10 + n),
   { s with pg := { s.pg with
     delay := s.pg.delay ++ [⟨n, g, d, arg, due, false, false⟩]
     gens := mapPut 0 s.pg.gens n ((g + 1) % 512) } })

/-- The sublist an entry belongs to (R374). -/
def delaySublist (e : DelayEntry) : Nat :=
  match e.due with
  | .tick _ => 0
  | .base tb _ dir => 1 + tb * 3 + dir

/-- Offers the fired entries in order; a refused entry stays at the head of its sublist and later entries of that sublist wait (R379). -/
def offerFired : List Nat → List Nat → State → State
  | [], _, s => s
  | n :: ns, blocked, s =>
    match s.pg.delay.find? fun e => e.entry == n with
    | none => offerFired ns blocked s
    | some e =>
      if blocked.contains (delaySublist e) then offerFired ns blocked s
      else
        match offerPost e.desc e.arg s with
        | (true, s') =>
          offerFired ns blocked { s' with pg := { s'.pg with
            delay := s'.pg.delay.filter fun x => x.entry != n
            dueQ := s'.pg.dueQ.filter fun x => x != n } }
        | (false, s') =>
          let mark (x : DelayEntry) : DelayEntry := if x.entry = n then { x with refused := true } else x
          let s'' := { s' with pg := { s'.pg with delay := s'.pg.delay.map mark } }
          offerFired ns (delaySublist e :: blocked) (if e.refused then s'' else refusedPost e.desc s'')

/-- Marks entries fired, in the order given, and offers every fired entry. -/
def fireDelays (ns : List Nat) (s : State) : State :=
  let mark (x : DelayEntry) : DelayEntry := if ns.contains x.entry then { x with fired := true } else x
  let s1 := { s with pg := { s.pg with delay := s.pg.delay.map mark, dueQ := s.pg.dueQ ++ ns } }
  let s2 := pcSys 0x58 ns.length s1
  offerFired s2.pg.dueQ [] s2

/-! ### Posts by cores -/

/-- The descriptor of a core's stall cleared. -/
def unstall (n : Fin 8) (s : State) : State := setCore n { s.cores[n] with stalled := none } s

def stallWith (n : Fin 8) (p : StalledPost) (s : State) : State := setCore n { s.cores[n] with stalled := some p } s

/-- One attempt at a core's post: true when Pergola took it. A refused delay post clears VALID and with it the whole handle word (DESIGN CHOICE, log entry 72). -/
def tryPost (p : StalledPost) (s : State) : Bool × State :=
  match p with
  | .post d arg => offerPost d arg s
  | .delay blk d arg dval dsel =>
    match delayDue s dval dsel with
    | none => (true, putWord (0xF3C906 + 16 * blk.val) 0 s)
    | some due =>
      if 1024 ≤ delayLive s then (false, s)
      else
        let (h, s1) := delayEnter d arg due s
        (true, putWord (0xF3C906 + 16 * blk.val) h s1)

def stalledDesc : StalledPost → Nat
  | .post d _ => d
  | .delay _ d _ _ _ => d

/-- Offers the posts of stalled cores again, C0 first (R379). -/
def retryStalled (s : State) : State :=
  forEach (List.finRange 8) (fun n s =>
    match s.cores[n].stalled with
    | none => s
    | some p =>
      match tryPost p s with
      | (true, s') => unstall n s'
      | (false, _) => s) s

/-- A post written by a requester at address a: a refused post stalls the core that wrote it; other requesters' refused posts are dropped. -/
def corePost (who : Requester) (a : Nat) (p : StalledPost) (s : State) : State :=
  match who with
  | .host => dropWrite who a 6 s
  | .core n =>
    match tryPost p s with
    | (true, s') => s'
    | (false, s') => stallWith n p (refusedPost (stalledDesc p) (count (0xF3C90B + 16 * n.val) s'))
  | _ =>
    match tryPost p s with
    | (true, s') => s'
    | (false, s') => dropWrite who a 6 (refusedPost (stalledDesc p) s')

/-- A write of PG_Cn_POST (R369). -/
def writePost (who : Requester) (blk : Fin 8) (d : Nat) (s : State) : State :=
  corePost who (0xF3C901 + 16 * blk.val) (.post d (regGet s (0xF3C900 + 16 * blk.val))) s

/-- A write of PG_Cn_DPOST (R375). -/
def writeDpost (who : Requester) (blk : Fin 8) (d : Nat) (s : State) : State :=
  let b := 0xF3C900 + 16 * blk.val
  corePost who (b + 5) (.delay blk d (regGet s b) (pairN s (b + 2)) (regGet s (b + 4))) s

/-- A write of PG_Cn_DCANCEL: only a live entry whose number and generation match is removed (R375). -/
def writeDcancel (who : Requester) (blk : Fin 8) (h : Word) (s : State) : State :=
  let res := 0xF3C908 + 16 * blk.val
  match who with
  | .host => dropWrite who (res - 1) 6 s
  | _ =>
    if s.pg.delay.any (fun e => e.entry == fld h 9 0 && e.gen == fld h 18 10 && !e.fired) then
      retryStalled (putFld res 19 18 1 { s with pg := { s.pg with delay := s.pg.delay.filter fun e => e.entry != fld h 9 0 } })
    else putFld res 19 18 2 s

/-- The system tick advances every tick entry; those that elapse fire (R372). -/
def tickEff (s : State) : State :=
  if !afterBoot s then s
  else
    let due := (s.pg.delay.filter fun e => e.due == .tick 1 && !e.fired).map (·.entry)
    let dec (e : DelayEntry) : DelayEntry :=
      match e.due with
      | .tick n => { e with due := .tick (n - 1) }
      | _ => e
    retryStalled (fireDelays due { s with pg := { s.pg with delay := s.pg.delay.map dec } })

/-- A pending event source offers its post, with the source number as argument (R377, R378). -/
def evOffer (n : Nat) (s : State) : State :=
  match lookupNat s.pg.evPend n with
  | none => s
  | some counted =>
    let d := fldOf s (0xF40000 + n) 8 0
    match offerPost d (word n) s with
    | (true, s') => { s' with pg := { s'.pg with evPend := s'.pg.evPend.filter fun x => x.1 != n } }
    | (false, s') =>
      if counted then s'
      else
        let mark (x : Nat × Bool) : Nat × Bool := if x.1 = n then (n, true) else x
        refusedPost d { s' with pg := { s'.pg with evPend := s'.pg.evPend.map mark } }

/-- Disabling a descriptor discards its waiting posts (R366). -/
def descDisabled (d : Nat) (s : State) : State :=
  retryStalled (countBy 0xF3C804 (descPend s d) { s with pg := { s.pg with ready := s.pg.ready.filter fun p => p.desc != d } })

/-! ### Meanings -/

/-- Pergola answers a write of a post register: from the end of BOOT, not in TEST; the host port's write is dropped in every state that reaches registers (R381, R382). -/
def pgAnswers (who : Requester) (s : State) : Bool := afterBoot s || (who == .host && s.sys.op != .powerUp)

def execPost (who : Requester) (n : CoreId) (desc : BitVec 9) (s : State) : Host.Outcome State Fault Refusal :=
  .next (if pgAnswers who s then writePost who n desc.toNat (armLock who s) else s)

def execDpost (who : Requester) (n : CoreId) (desc : BitVec 9) (s : State) : Host.Outcome State Fault Refusal :=
  .next (if pgAnswers who s then writeDpost who n desc.toNat (armLock who s) else s)

def execDcancel (who : Requester) (n : CoreId) (handle : Word) (s : State) : Host.Outcome State Fault Refusal :=
  .next (if pgAnswers who s then writeDcancel who n handle (armLock who s) else s)

def execSystemTick (s : State) : Host.Outcome State Fault Refusal := .next (tickEff s)

def execEventSourcePost (n : Fin 128) (s : State) : Host.Outcome State Fault Refusal :=
  .next (if afterBoot s then evOffer n.val s else s)

end Sys2Proof.Machine
end

