-- ==== Sys2Proof/Machine/Records.lean ====
section
/-! DEFINITION. The fault record (19 R479): entries are buffered on chip and written to MRAM by FAULT_RECORD_WRITE. -/

namespace Sys2Proof.Machine

/-- One entry of the fault record (R479): buffered on chip, dropped and counted with 32 waiting. -/
def faultRecord (kind code low react : Nat) (s : State) : State :=
  if 32 ≤ s.sys.frBuf.length then count 0xF5400B s
  else
    let seq := regGet s 0xF5400A
    let t := sysTime s
    let ws := [word (kind * 2 ^ 18 + code % 256 * 2 ^ 10), seq, word (t / 2 ^ 44), word (t / 2 ^ 24), word (t / 2 ^ 4),
      word (s.sys.op.num * 2 ^ 16 + fldOf s 0xF30002 19 17 * 2 ^ 13 + effLevel s * 2 ^ 10 + modeOf s * 2 ^ 8 + low % 256), word s.lk.q]
    let w7 := word (react * 2 ^ 16 + crc16 (wordBits ws))
    let per := s.sys.per
    let kinds := per.kinds.set kind (per.kinds.getD kind 0 + 1)
    let per' := { per with kinds := kinds, frSeq := seq.toNat }
    count 0xF5400A { s with sys := { s.sys with frBuf := s.sys.frBuf ++ [ws ++ [w7]], per := per' } }

/-- The oldest buffered entry is written to the ring at 00800h (R479). -/
def flushRecord (s : State) : State :=
  match s.sys.frBuf with
  | [] => s
  | e :: es =>
    pcSys 0x5D e.length (mramPutAll (0x800 + 8 * ((e.getD 1 0).toNat % 256)) e { s with sys := { s.sys with frBuf := es } })

/-- Every buffered entry is written, in order (R303). -/
def flushRecords (s : State) : State := upTo 32 (fun _ s => flushRecord s) s

def execFaultRecordWrite (s : State) : Host.Outcome State Fault Refusal := .next (flushRecord s)

end Sys2Proof.Machine
end

