-- ==== Sys2Proof/Machine/Gatehouse.lean ====
section
/-! DEFINITION. Gatehouse: safe-off groups, brakes, faults and their reactions, demand inputs, test pulses, watchdogs, rescan and scrub (09 R256-R279). -/

namespace Sys2Proof.Machine

/-- The safe-off group of axis a (R256, R287). -/
def axisGroup (s : State) (a : Nat) : Fin 4 :=
  Fin.ofNat 4 (fldOf s (0xF34020 + a / 8) (2 * (a % 8) + 1) (2 * (a % 8)))

/-- An axis is configured when SV_CFG.OUT is not 00b (05 R128). -/
def axisConfigured (s : State) (a : Nat) : Bool := decide (a < axisCount s) && fldOf s (0xF10000 + 256 * a) 19 18 != 0

/-- The groups of configured axes fed from channel n. -/
def groupsFed (s : State) (n : Nat) : Nat :=
  (List.range (axisCount s)).foldl (fun m a =>
    if axisConfigured s a && fldOf s (0xF10000 + 256 * a) 16 12 == 16 + n then m ||| 2 ^ (axisGroup s a).val else m) 0

/-- The base address of an object's profile block. -/
def mpBase (o : Nat) : Nat := if o < 256 then 0xF08000 + 64 * o else 0xF0F000 + 64 * (o - 256)

/-- The safe-off group of an object: of a mover, that of its FIRST segment axis. -/
def objGroup (s : State) (o : Nat) : Fin 4 :=
  if o < 256 then axisGroup s o else axisGroup s (fldOf s (mpBase o + 36) 15 8)

/-- The group of brake output n. -/
def brkGroup (s : State) (n : Nat) : Fin 4 := Fin.ofNat 4 (fldOf s 0xF34008 (2 * n + 1) (2 * n))

/-- The unit drives its safe-off and brake outputs: active, or bridging (R21, R244, R251). -/
def drivesOutputs (s : State) : Bool := s.pr.active || s.pr.bridging

/-- Whether group g lets its brakes be released. -/
def grpReleases (s : State) (g : Fin 4) : Bool :=
  s.gh.grp[g].cond == .energised || (s.gh.grp[g].cond == .ss1 && !s.gh.grp[g].brakesSet)

/-- BRKn is energised (R258). -/
def brkOut (s : State) (n : Nat) : Bool :=
  bitOf s 0xF34009 n && bitOf s 0xF34007 n && grpReleases s (brkGroup s n) && drivesOutputs s && s.sys.op != .safe && !s.gh.refreshLost

/-- Both switches of SAFE_OFFg conduct, test pulses apart: in SS1 too, until the group enters STO (R257, R262, R279). -/
def safeOffOn (s : State) (g : Fin 4) : Bool :=
  s.gh.grp[g].cond != .sto && drivesOutputs s && s.sys.op != .safe && !s.gh.refreshLost

/-- The brake outputs follow their conditions; a change is a pin event of Belvedere (R168). -/
def updateBrakes (s : State) : State :=
  upTo 8 (fun n s =>
    let now := brkOut s n
    if s.gh.brk.getLsbD n == now then s
    else
      let b : BitVec 8 := if now then s.gh.brk ||| (1#8 <<< n) else s.gh.brk &&& ~~~(1#8 <<< n)
      bvPin (16 + n) now { s with gh := { s.gh with brk := b } }) s

/-- The release request of BRKn is forced off: a write that waits keeps its word until its boundary (R288, R453). -/
def forceBrake (n : Nat) (s : State) : State :=
  let s1 := { s with gh := { s.gh with brkForced := s.gh.brkForced ||| (1#8 <<< n) } }
  if (lookupNat s.held 0xF34007).isSome then
    { s1 with held := s1.held.map fun e => if e.1 = 0xF34007 then (e.1, setBit e.2 n false) else e }
  else putBit 0xF34007 n false s1

/-- Setting a group's brakes forces their release requests off (R258, R259, R262, R288). -/
def forceBrakes (g : Fin 4) (s : State) : State :=
  updateBrakes (upTo 8 (fun n s => whenB (brkGroup s n == g) (forceBrake n) s) s)

/-- A group changes its condition: EV7 (R376). -/
def setCond (g : Fin 4) (c : GrpCond) (s : State) : State :=
  let x := s.gh.grp[g]
  if x.cond = c then s
  else
    let x' := { x with cond := c, brakesSet := c == .sto, stopNew := c == .ss1, pulse := 0 }
    let s1 := updateBrakes (raiseEvent 7 (setGroup g x' s))
    if c = .sto then forceBrakes g s1 else s1

/-- A cause that may be released without an ACK: a demand input with MAN = 0 (R264). -/
def causeNeedsAck (s : State) (c : Cause) : Bool :=
  match c with
  | .demand d => bitOf s (0xF34010 + d) 16
  | _ => true

/-- The group with a cause recorded. -/
def withCause (s : State) (cause : Cause) (x : Group) : Group :=
  { x with causes := if x.causes.contains cause then x.causes else x.causes ++ [cause], acked := false,
           needsAck := x.needsAck || causeNeedsAck s cause }

/-- A demand of STO or SS1 of a group for a cause: an STO replaces an SS1, an SS1 of a group in STO is ignored (R262), but for a cause that lasts, which R264 still waits for. -/
def groupDemand (g : Fin 4) (sto : Bool) (cause : Cause) (s : State) : State :=
  let x := s.gh.grp[g]
  let s1 := setGroup g (withCause s cause x) s
  if sto then setCond g .sto s1
  else if x.cond = .energised then setCond g .ss1 s1
  else if x.cond = .sto ∧ cause = .command then s
  else s1

/-- Demands for every group of a mask. -/
def maskDemand (mask : Nat) (sto : Bool) (cause : Cause) (s : State) : State :=
  upTo 4 (fun g s => if mask / 2 ^ g % 2 = 1 then groupDemand (Fin.ofNat 4 g) sto cause s else s) s

/-- Entry into SAFE: every group in STO, every brake off, test pulses stop; from JOIN the unit stops transmitting (R261, R277). -/
def enterSafe (s : State) : State :=
  if s.sys.op = .safe then s
  else
    let lk := if s.sys.op = .join then { s.lk with st := LinkState.off } else s.lk
    let s1 := { s with lk := lk, sys := { s.sys with op := .safe, joinReq := false, step := 0, tSafe := some s.now }, gh := { s.gh with degPend := false } }
    let s2 := upTo 4 (fun g s => setCond (Fin.ofNat 4 g) .sto s) s1
    updateBrakes (raiseEvent 9 s2)

/-- Entry into SAFE of a unit that stops transmitting; RECOVERY is left by a reset only (R8). -/
def toSafe (s : State) : State := if s.sys.op = .recovery then s else enterSafe s

/-- The reactions of R259; groups as a mask. -/
inductive React where
  | none
  | ss1 (groups : Nat)
  | sto (groups : Nat)
  | d
  | safe
  | unitD
  | unitS
  deriving DecidableEq, Repr

/-- The FAIL path of R240: FAIL is sent, and at the next T0 the unit goes silent and enters SAFE. -/
def failPath (code : Nat) (s : State) : State :=
  { sendLane (.pFail code) s with pr := { s.pr with failPend := true } }

/-- The partner's STATE shows an aligned unit able to take over: an aligned standby, or an active beside this standby (R259). -/
def partnerAligned (s : State) : Bool :=
  paired s && !s.pr.lost && (s.pr.partnerRole == 3 || (s.sys.op == .runStandby && s.pr.partnerRole == 1))

/-- Kinds of reaction as taken: 0 recorded only, 1 SS1, 2 STO, 3 D, 4 S, 5 FAIL path (GH_FCODE). -/
def reactTaken (s : State) (r : React) : Nat :=
  let severe : Bool := r == .d || r == .safe || r == .unitD || r == .unitS
  match s.sys.op with
  | .boot | .config | .join => if severe then 4 else 0
  | .recovery | .safe | .powerUp | .test => 0
  | .runStandby => if r == .safe || r == .unitD || r == .unitS then 5 else 0
  | _ =>
    match r with
    | .none => 0
    | .ss1 _ => 1
    | .sto _ => 2
    | .d => 3
    | .safe => 4
    | .unitD => if s.sys.op == .runActive && partnerAligned s then 5 else 3
    | .unitS => if s.sys.op == .runActive && partnerAligned s then 5 else 4

def reactMask : React → Nat
  | .ss1 m => m
  | .sto m => m
  | _ => 0

/-- Takes a reaction. D puts the part into DEGRADED at the next boundary; in DEGRADED it has no further effect (R10). -/
def takeReact (code taken mask : Nat) (cause : Cause) (s : State) : State :=
  if taken = 1 then maskDemand mask false cause s
  else if taken = 2 then maskDemand mask true cause s
  else if taken = 3 then (if s.sys.op = .degraded then s else { s with gh := { s.gh with degPend := true } })
  else if taken = 4 then enterSafe s
  else if taken = 5 then failPath code s
  else s

/-- Gatehouse records: not in POWER-UP and not in TEST (R261). -/
def ghRecords (s : State) : Bool := s.sys.op != .powerUp && s.sys.op != .test

/-- What every recorded fault loads, counts, posts and enters (R266). -/
def ghRecord (code low taken : Nat) (s : State) : State :=
  faultRecord 0 code low taken
    (bvAsync 6 (fun _ => true)
      (raiseEvent 26 (raiseEvent 5
        (count 0xF34041 (putWord 0xF34040 (word (code * 2 ^ 12 + taken * 2 ^ 8 + low % 256)) s)))))

/-- In RUN-STANDBY a check violation, and in BOOT, CONFIG and JOIN a reaction by LREACT, is recorded only (R260, R261). -/
def reactOf (s : State) (code : Nat) (r : React) : React :=
  if (decide (0x80 ≤ code) && s.sys.op == .runStandby) || (code == 0x30 && (s.sys.op == .boot || s.sys.op == .config || s.sys.op == .join)) then .none
  else r

/-- A Gatehouse fault with its reaction (R259-R261, R266). -/
def ghFaultBy (code low : Nat) (r : React) (cause : Cause) (s : State) : State :=
  if ghRecords s then
    let taken := reactTaken s (reactOf s code r)
    let s := if r == .unitD || r == .unitS then { s with pr := { s.pr with lastUnit := some s.lk.q } } else s
    takeReact code taken (reactMask r) cause (ghRecord code low taken s)
  else s

def ghFault (code low : Nat) (r : React) (s : State) : State := ghFaultBy code low r (.fault code) s

/-- The reaction of a two-bit REACT or LREACT field for groups (R287). -/
def reactField (f groups : Nat) : React :=
  if f = 0 then .ss1 groups else if f = 1 then .sto groups else if f = 2 then .d else .safe

/-- An uncorrectable error in core, Pergola, CAN, Kiosk or Belvedere memory: 03h. -/
def ghFaultEcc (s : State) : State := ghFault 3 0 .d s

/-! ### Release of groups -/

def ckAddr (c : Nat) : Nat := 0xF34100 + 8 * c
def ckSrck (s : State) (c : Nat) : Nat := fldOf s (ckAddr c) 12 11
def ckSrc (s : State) (c : Nat) : Nat := fldOf s (ckAddr c + 1) 19 12
def ckDaxis (s : State) (c : Nat) : Nat := fldOf s (ckAddr c + 1) 11 4

/-- The object of a check: its axis or mover, or the axis DAXIS for a channel (R256, R273). -/
def ckObj (s : State) (c : Nat) : Nat := if ckSrck s c = 0 then ckSrc s c else if ckSrck s c = 1 then 256 + ckSrc s c % 32 else ckDaxis s c

def ckGroup (s : State) (c : Nat) : Fin 4 := objGroup s (ckObj s c)

/-- LMAX, 0h taken as 1h (R287). -/
def lmaxOf (s : State) : Nat := max 1 (fldOf s 0xF3400B 19 16)

/-- A fault of group g goes on: a channel that feeds an axis of it shows FAULT (31h), an axis of it still returns another treatment (32h), or a node of it that raised 30h still misses its uplink. The rule does not say when a fault of a group is pending: this is the model's reading (DESIGN CHOICE, log entry 72). -/
def faultPending (s : State) (g : Fin 4) : Bool :=
  ((List.range 16).any fun n => bitOf s (0xF04010 + 32 * n) 18 && (groupsFed s n).testBit g.val) ||
    (s.mo.treatBad.any fun e => e.2 == 2 && axisGroup s e.1 == g) ||
    (s.gh.grp[g].causes.contains (.fault 0x30) && s.lk.nodes.any fun e => decide (lmaxOf s ≤ e.2.empties) &&
      (List.range (fldOf s (0xF28100 + 16 * e.1) 17 14 + 1)).any fun i => axisGroup s (fldOf s (0xF28100 + 16 * e.1) 13 6 + i) == g)

/-- Every cause of group g has gone: no check of the group shows ACTIVE, no enabled demand input names it with its demand present, a demand held by fault 60h included, and no fault of the group is pending (R264, R272). -/
def groupClear (s : State) (g : Fin 4) : Bool :=
  !faultPending s g && !((List.range 64).any fun c => bitOf s (ckAddr c + 7) 18 && ckGroup s c == g) &&
    !((List.range 8).any fun d => bitOf s (0xF34010 + d) 19 && bitOf s (0xF34010 + d) (12 + g.val) && s.gh.demand.getLsbD d)

/-- An ACK of this period that a new cause came before is dropped and counted (R264, R288). -/
def ackDropped (g : Fin 4) (s : State) : State :=
  let x := s.gh.grp[g]
  match x.ackBy with
  | some who => (if x.acked then id else dropWrite who 0xF34006 6) (setGroup g { x with ackBy := none } s)
  | none => s

/-- In RUN-ACTIVE a group whose causes have all gone, acknowledged where needed, may be energised (R264). -/
def groupReady (s : State) (g : Fin 4) : Bool :=
  let x := s.gh.grp[g]
  x.cond != .energised && s.sys.op == .runActive && groupClear s g && (x.acked || !x.needsAck)

/-- At a boundary a group that is ready is energised (R264). -/
def releaseGroup (g : Fin 4) (s : State) : State :=
  if groupReady s g then setCond g .energised (setGroup g { s.gh.grp[g] with causes := [], acked := false, needsAck := false } s) else s

/-- ACK for a group: dropped and counted while a cause remains (R264). -/
def ackGroup (who : Requester) (g : Fin 4) (s : State) : State :=
  if groupClear s g then setGroup g { s.gh.grp[g] with acked := true, ackBy := some who } s else dropWrite who 0xF34006 6 s

/-- What a taken write of GH_CMD does: demands at once, acknowledgements for the next boundary (R264, R265). -/
def ghCommand (who : Requester) (v : Word) (s : State) : State :=
  let s1 := maskDemand (fld v 15 12) false .command (maskDemand (fld v 19 16) true .command s)
  upTo 4 (fun g s => if bit v (8 + g) then ackGroup who (Fin.ofNat 4 g) s else s) s1

/-! ### Demand inputs -/

/-- The two pins of demand input d. -/
def demandPins (s : State) (d : Nat) : Bool × Bool :=
  let p := fldOf s (0xF34010 + d) 11 8
  (s.sys.gpio.getLsbD (2 * p), s.sys.gpio.getLsbD (2 * p + 1))

/-- A demand as the pins show it, and whether the pins disagree with their pair state (R272). -/
def demandNow (s : State) (d : Nat) : Bool × Bool :=
  let (a, b) := demandPins s d
  if bitOf s (0xF34010 + d) 18 then (!(a && !b), a == b) else (!(a && b), a != b)

/-- Sets bit d of a mask of eight. -/
def setBit8 (m : BitVec 8) (d : Nat) (b : Bool) : BitVec 8 := if b then m ||| (1#8 <<< d) else m &&& ~~~(1#8 <<< d)

/-- One sample of demand input d: a demand puts its groups into STO or SS1 (R272). -/
def sampleDemand (d : Nat) (s : State) : State :=
  if !bitOf s (0xF34010 + d) 19 then { s with gh := { s.gh with demand := setBit8 s.gh.demand d false, disc := setBit8 s.gh.disc d false } }
  else
    let (dem, dis) := demandNow s d
    let held := s.gh.disc.getLsbD d && dis
    let s1 := { s with gh := { s.gh with demand := setBit8 s.gh.demand d (dem || held), disc := setBit8 s.gh.disc d held } }
    if dem || held then maskDemand (fldOf s (0xF34010 + d) 15 12) (!bitOf s (0xF34010 + d) 17) (.demand d) s1 else s1

def execDemandInputSample (s : State) : Host.Outcome State Fault Refusal := .next (upTo 8 sampleDemand s)

/-- Pins that disagree for longer than DISC raise fault 60h (R272). -/
def demandDiscrepancy (d : Fin 8) (s : State) : State :=
  if bitOf s (0xF34010 + d.val) 19 && (demandNow s d.val).2 then
    let s1 := putBit 0xF34003 16 true { s with gh := { s.gh with disc := setBit8 s.gh.disc d.val true, demand := setBit8 s.gh.demand d.val true } }
    ghFault 0x60 d.val (.sto (fldOf s (0xF34010 + d.val) 15 12)) s1
  else s

def execDemandDiscrepancy (d : Fin 8) (s : State) : Host.Outcome State Fault Refusal := .next (demandDiscrepancy d s)

/-! ### Stops, pulses, lines and brakes -/

def execDsto (who : Requester) (groups : BitVec 4) (s : State) : Host.Outcome State Fault Refusal :=
  .next (kWrite who 0xF34006 (maskDemand groups.toNat true .command) s)

def execDss1 (who : Requester) (groups : BitVec 4) (s : State) : Host.Outcome State Fault Refusal :=
  .next (kWrite who 0xF34006 (maskDemand groups.toNat false .command) s)

def execGatehouseAck (who : Requester) (groups : BitVec 4) (s : State) : Host.Outcome State Fault Refusal :=
  .next (kWrite who 0xF34006 (ghCommand who (word (groups.toNat * 2 ^ 8))) s)

/-- BDLY after the brakes are set the group enters STO (R262). -/
def bdlyExpiry (g : Fin 4) (s : State) : State :=
  if s.gh.grp[g].cond = .ss1 ∧ s.gh.grp[g].brakesSet then setCond g .sto s else s

def execBdlyExpiry (g : Fin 4) (s : State) : Host.Outcome State Fault Refusal := .next (bdlyExpiry g s)

/-- SS1T elapses in SS1: brakes set and STO at once, also where the brakes are set already and BDLY still runs (R262; DESIGN CHOICE, log entry 72). -/
def ss1tExpiry (g : Fin 4) (s : State) : State :=
  if s.gh.grp[g].cond = .ss1 then setCond g .sto s else s

def execSs1tExpiry (g : Fin 4) (s : State) : Host.Outcome State Fault Refusal := .next (ss1tExpiry g s)

/-- A group is test-pulsed: it is energised and the unit active, and no exchange is in its overlap (R21, R251, R268). -/
def testPulsed (s : State) (g : Fin 4) : Bool :=
  safeOffOn s g && s.gh.grp[g].cond == .energised && s.pr.active && !(s.pr.exch.any fun x => x.overlap)

/-- A test pulse opens one switch of a group (R268). -/
def testPulse (g : Fin 4) (low : Bool) (s : State) : State :=
  if testPulsed s g && s.gh.grp[g].pulse == 0 then setGroup g { s.gh.grp[g] with pulse := if low then 2 else 1 } s else s

def execTestPulse (g : Fin 4) (low : Bool) (s : State) : Host.Outcome State Fault Refusal := .next (testPulse g low s)

/-- The end of a pulse: the switch closes, and a line that failed its levels is fault 50h (R268). -/
def testPulseEnd (g : Fin 4) (pass : Bool) (s : State) : State :=
  if s.gh.grp[g].pulse = 0 then s
  else
    let s1 := setGroup g { s.gh.grp[g] with pulse := 0 } s
    if pass then s1 else ghFault 0x50 g.val .safe s1

def execTestPulseEnd (g : Fin 4) (pass : Bool) (s : State) : Host.Outcome State Fault Refusal := .next (testPulseEnd g pass s)

/-- A sensed line differs from its command outside a pulse: fault 51h (R266). -/
def execSafeOffLineMismatch (g : Fin 4) (s : State) : Host.Outcome State Fault Refusal :=
  .next (if s.gh.grp[g].pulse = 0 then ghFault 0x51 g.val .safe s else s)

/-- A read-back that differs from the commanded brake for BRK_T: fault 52h, evaluated where the outputs are driven (R266, R269). -/
def brakeMismatch (n : Fin 8) (s : State) : State :=
  if (drivesOutputs s || s.sys.op == .safe) && s.gh.brkFb.getLsbD n.val != s.gh.brk.getLsbD n.val then ghFault 0x52 n.val .safe s else s

def execBrakeFeedbackMismatch (n : Fin 8) (s : State) : Host.Outcome State Fault Refusal := .next (brakeMismatch n s)

/-- A change of a brake read-back (R168). -/
def brkFbChange (n : Fin 8) (level : Bool) (s : State) : State :=
  if s.gh.brkFb.getLsbD n.val == level then s
  else bvPin (24 + n.val) level { s with gh := { s.gh with brkFb := setBit8 s.gh.brkFb n.val level } }

def execBrkFbChange (n : Fin 8) (level : Bool) (s : State) : Host.Outcome State Fault Refusal := .next (brkFbChange n level s)

/-! ### Watchdogs -/

def setWd (c : Fin 3) (w : Watchdog) (s : State) : State := { s with gh := { s.gh with wd := s.gh.wd.set c w } }

/-- Watchdog windows are in units of 100 µs, 60,000 cy. -/
def wdUnits (n : Nat) : Nat := n * 60000

/-- A service of the watchdog of class c + 1: a value out of turn, an early or a late service raises the fault (R270). A service that was wrong still begins the next window and passes the turn on, as a missed window begins the next one: the rule does not say (DESIGN CHOICE, log entry 72). -/
def wdService (c : Fin 3) (v : Word) (s : State) : State :=
  let w := s.gh.wd[c]
  if !w.on then s
  else
    let cfg := regGet s (0xF34018 + c.val)
    let dt := s.now - w.tLast
    let turn := v == (if w.second then 0x5A5A5 else 0xA5A5A)
    let early := !w.first && decide (dt < wdUnits (fld cfg 9 0))
    let late := decide (wdUnits (fld cfg 19 10) < dt)
    let s1 := setWd c { w with tLast := s.now, second := !w.second, first := false } s
    if turn && !early && !late then s1 else ghFault (0x40 + c.val) (c.val + 1) .d s1

/-- A configuration of the watchdog of class c + 1 (R270). -/
def wdConfig (who : Requester) (c : Fin 3) (v : Word) (s : State) : State :=
  let w := s.gh.wd[c]
  if fld v 19 10 = 0 then (if w.on then s else regSet (0xF34018 + c.val) v s)
  else if fld v 19 10 ≤ fld v 9 0 then dropWrite who (0xF34018 + c.val) 6 s
  else
    let s1 := regSet (0xF34018 + c.val) v s
    if w.on then s1 else setWd c { on := true, tLast := s.now, second := false, first := true } s1

def execWatchdogService (who : Requester) (c : Fin 3) (v : Word) (t : Nat) (s : State) : Host.Outcome State Fault Refusal :=
  .next (wdService c v (armLock who (advance t s)))

def execWatchdogConfigWrite (who : Requester) (c : Fin 3) (v : Word) (t : Nat) (s : State) : Host.Outcome State Fault Refusal :=
  .next (wdConfig who c v (armLock who (advance t s)))

/-- No service within MAXW (R270). -/
def wdMissed (c : Fin 3) (s : State) : State :=
  let w := s.gh.wd[c]
  if w.on then ghFault (0x40 + c.val) (c.val + 1) .d (setWd c { w with tLast := s.now } s) else s

def execWatchdogWindowMissed (c : Fin 3) (s : State) : Host.Outcome State Fault Refusal := .next (wdMissed c s)

/-! ### Rescan and scrub -/

/-- The configuration bits of a register row: its RW fields (R267). -/
def rowMask (r : RegRow) : Nat :=
  (r.fields.filter fun f => f.acc == .rw).foldl (fun m f => m + (2 ^ (f.hi + 1) - 2 ^ f.lo)) 0

/-- Whether the rescan covers an address; of the servo windows, those of configured axes (R267). -/
def rescanCovers (a : Nat) : Bool :=
  if 0xF04000 ≤ a ∧ a < 0xF04200 then a % 32 < 3
  else if 0xF08000 ≤ a ∧ a < 0xF0C000 then
    (let o := a % 64; o == 0 || (8 ≤ o && o ≤ 25) || (34 ≤ o && o ≤ 36))
  else if 0xF0C000 ≤ a ∧ a < 0xF0F000 then true
  else if 0xF0F000 ≤ a ∧ a < 0xF0F800 then
    (let o := a % 64; o == 0 || (8 ≤ o && o ≤ 25) || (34 ≤ o && o ≤ 36))
  else if 0xF10000 ≤ a ∧ a < 0xF20000 then (let o := a % 256; o < 15 || (32 ≤ o && o < 128))
  else if 0xF28000 ≤ a ∧ a < 0xF29000 then
    (match rowOf a with
     | some r => r.fields.any (fun f => f.cfg || f.mark == .b)
     | none => false)
  else if 0xF34000 ≤ a ∧ a < 0xF34300 then
    (match rowOf a with
     | some r => r.sec || r.k
     | none => false)
  else if 0xF38000 ≤ a ∧ a < 0xF38020 then true
  else false

/-- The bits of the covered words of block b, with one word changed by a mask (R267). -/
def blockBits (s : State) (b upAddr : Nat) (upMask : Word) : List Bool :=
  (List.range 64).flatMap fun i =>
    let a := 0xF00000 + 64 * b + i
    if rescanCovers a && (decide (a < 0xF10000) || decide (0xF20000 ≤ a) || axisConfigured s ((a - 0xF10000) / 256)) then
      match rowOf a with
      | some r =>
        let w := if a = upAddr then inForce s a ^^^ upMask else inForce s a
        bitsOf 24 a ++ bitsOf 20 (w.toNat &&& rowMask r)
      | none => []
    else []

/-- The signature of block b: kept where it differs from the registers, else theirs. -/
def blockSig (s : State) (b : Nat) : Nat :=
  match lookupNat s.gh.sigs b with
  | some v => v
  | none => crc32 (blockBits s b 0 0)

/-- A write to a block takes effect: its signature is taken anew (R267). -/
def signBlock (a : Nat) (s : State) : State :=
  if rescanCovers a then { s with gh := { s.gh with sigs := s.gh.sigs.filter fun e => e.1 != (a - 0xF00000) / 64 } } else s

/-- The rescan of block b, which finds the word at an offset changed by a mask since it was last scanned (mask 0: none); a mismatch is fault 10h in a GH_ block and 12h elsewhere (R267). -/
def rescanBlock (b : Nat) (off : Nat) (mask : Word) (s : State) : State :=
  let a := 0xF00000 + 64 * b + off
  let sig := blockSig s b
  let found := crc32 (blockBits s b a mask)
  let s1 := if mask = 0 then s else hwMod a (fun w => w ^^^ mask) s
  if found = sig then s1
  else
    let s2 := { s1 with gh := { s1.gh with sigs := mapPut 0 s1.gh.sigs b sig } }
    let s3 := putFld 0xF34043 13 0 b (putBit 0xF34043 19 true s2)
    if 0xD00 ≤ b ∧ b ≤ 0xD0B then ghFault 0x10 0 .unitS s3 else ghFault 0x12 0 .unitD s3

/-- The rescan runs from the end of BOOT step 8 (R261). -/
def execRescan (b : Fin 16384) (off : Fin 64) (mask : Word) (s : State) : Host.Outcome State Fault Refusal :=
  .next (if afterBoot s || s.sys.op == .test then rescanBlock b.val off.val mask s else s)

/-- The diagnostic code of an uncorrectable error, by memory (R266). -/
def eccCode : EccMem → Nat
  | .gatehouse => 1
  | .engine => 2
  | .core => 3
  | .mram => 4

def eccReact : EccMem → React
  | .gatehouse => .unitS
  | .engine => .unitD
  | .core => .d
  | .mram => .d

/-- What the ECC of a memory word answers: a corrected error is counted, an uncorrectable one is a Gatehouse fault (R266, R316). -/
def eccAnswer (m : EccMem) (e : Ecc) (s : State) : State :=
  match e with
  | .good => s
  | .corrected => pcSys 0x5F 1 (raiseEvent 100 (count 0xF34042 s))
  | .uncorrectable => ghFault (eccCode m) 0 (eccReact m) s

/-- SCRUB: ECC checking runs from the end of BOOT step 1 (R261). -/
def execScrub (m : EccMem) (e : Ecc) (s : State) : Host.Outcome State Fault Refusal :=
  .next (if s.sys.op = .boot ∧ s.sys.step ≤ 1 then s else eccAnswer m e s)

/-- fSYS out of range (20h) or the reference out of range (21h) (R266). -/
def execClockFault (reference : Bool) (s : State) : Host.Outcome State Fault Refusal :=
  .next (ghFault (if reference then 0x21 else 0x20) 0 .unitS s)

/-- Loss of the refresh opens every switch and turns every brake output off (R279). -/
def refreshLoss (s : State) : State := updateBrakes { s with gh := { s.gh with refreshLost := true } }

def execRefreshLoss (s : State) : Host.Outcome State Fault Refusal := .next (refreshLoss s)

/-- The degraded time runs out and the part enters SAFE (R10, R276). -/
def execDegradedTimeExpiry (s : State) : Host.Outcome State Fault Refusal :=
  .next (if s.sys.op = .degraded then enterSafe (putFld 0xF34004 18 0 0 s) else s)

end Sys2Proof.Machine
end

