-- ==== Sys2Proof/Machine/Sundial.lean ====
section
/-! DEFINITION. Sundial: timebases, extrapolation and retraction, crossings, the event table, dispatch, and the mains timebase and lock (02 R33-R59). -/

namespace Sys2Proof.Machine

def tbAddr (t : Nat) : Nat := 0xF00000 + 16 * t
def tbKind (s : State) (t : Nat) : Nat := fldOf s (tbAddr t) 18 16
def tbSrc (s : State) (t : Nat) : Nat := fldOf s (tbAddr t) 7 0

/-- A mover is configured when MP_CFG.EN is 1 (04 R89). -/
def moverConfigured (s : State) (m : Nat) : Bool := decide (m < 32) && bitOf s (mpBase (256 + m)) 19

/-- The states before JOIN, in which no timebase is enabled (R55). -/
def beforeJoin (s : State) : Bool :=
  s.sys.op == .powerUp || s.sys.op == .boot || s.sys.op == .config || s.sys.op == .test

def tbEnabled (s : State) (t : Nat) : Bool := bitOf s (tbAddr t) 19 && !beforeJoin s

/-- CFG_ERR: KIND reserved, source not configured or out of range, modulus out of range (R33, R36, R46). -/
def tbCfgErr (s : State) (t : Nat) : Bool :=
  let k := tbKind s t
  let src := tbSrc s t
  let badSrc :=
    if k = 1 then decide (16 ≤ src) || fldOf s (0xF04000 + 32 * src) 19 17 == 0
    else if k = 2 ∨ k = 3 then !axisConfigured s src
    else if k = 4 then !moverConfigured s src
    else k == 7
  let m := pairN s (tbAddr t + 2)
  badSrc || (k != 5 && k != 6 && bitOf s (tbAddr t) 15 && (decide (m < 2) || decide (2 ^ 39 < m)))

/-- Sundial runs and its entries fire in these states (R55). -/
def sundialRuns (s : State) : Bool := running s || s.sys.op == .safe || s.sys.op == .recovery

/-! ### Disarming and real values -/

/-- A disarmed timebase keeps its value and forgets its edges (R36, R39). -/
def disarmTb (t : Fin 16) (s : State) : State :=
  let x := s.sd.tb[t]
  setTb t { x with armed := false, arming := false, seen := 0, per := none, dir := 0, xcap := false } s

def tbsWhere (s : State) (p : Nat → Bool) : List (Fin 16) := (List.finRange 16).filter fun t => p t.val

/-- Disarms every timebase on a feedback channel (R36). -/
def disarmChannel (ch : Nat) (s : State) : State :=
  forEach (tbsWhere s fun t => tbKind s t == 1 && tbSrc s t == ch) disarmTb s

/-- Disarms every mains timebase (R36). -/
def disarmMains (s : State) : State := forEach (tbsWhere s fun t => tbKind s t == 5) disarmTb s

/-- A counted edge of a feedback channel at time t: count, direction, and whether the channel is one whose timebases arm on references (R33, R38, R39). A period that 03 R63 does not hold exact is given as a free value. -/
def tbEdge (cnt : Int) (d : Int) (t : Nat) (free : Option Nat) (onRef : Bool) (x : Timebase) : Timebase :=
  let gap := t - x.tReal
  let same := x.dir == d && x.seen != 0
  let per := if same && decide (gap ≤ 2 ^ 24 - 1) && decide (0 < gap) then some (free.getD gap) else none
  let seen := if x.seen = 0 ∨ x.dir ≠ d then 1 else 2
  { x with now := cnt * 4096, tReal := t, dir := d, per := per, seen := seen, still := false,
           arming := x.arming || (!onRef && !x.armed && seen == 2) }

/-- Delivers a counted edge to the timebases of a channel. -/
def sdEdge (ch : Nat) (cnt d : Int) (t : Nat) (free : Option Nat) (onRef : Bool) (s : State) : State :=
  forEach (tbsWhere s fun k => tbKind s k == 1 && tbSrc s k == ch && tbEnabled s k && !tbCfgErr s k)
    (fun k s => setTb k (tbEdge cnt d t free onRef s.sd.tb[k]) s) s

/-- A reference of a channel, at the count it leaves, arms its timebases at the next update (R33). -/
def sdReference (ch : Nat) (cnt : Int) (s : State) : State :=
  forEach (tbsWhere s fun k => tbKind s k == 1 && tbSrc s k == ch && tbEnabled s k && !tbCfgErr s k)
    (fun k s => setTb k { s.sd.tb[k] with now := cnt * 4096, arming := s.sd.tb[k].arming || !s.sd.tb[k].armed } s) s

/-- An absorbed count withdraws the estimates on its channel until two edges in one direction follow (R39, R42). -/
def sdWithdraw (ch : Nat) (s : State) : State :=
  forEach (tbsWhere s fun k => tbKind s k == 1 && tbSrc s k == ch) (fun k s => setTb k { s.sd.tb[k] with per := none, seen := 0 } s) s

/-- A sample of an axis or mover position, in 1/4,096 pu, time-stamped at its CI; STILL while the step has been 0 for STILL_US (R43), counted from the CI of the last sample that moved (DESIGN CHOICE, log entry 72). -/
def tbSample (v : Int) (ci stillCy : Nat) (x : Timebase) : Timebase :=
  let delta := if x.seen = 0 then 0 else v - x.now
  let moved := if delta ≠ 0 ∨ x.seen = 0 then ci else x.tMoved
  { x with now := v, tReal := ci, delta := delta, tMoved := moved, seen := min 2 (x.seen + 1),
           still := decide (delta = 0) && decide (stillCy ≤ ci - moved), arming := x.arming || (!x.armed && decide (1 ≤ x.seen)) }

def sdSample (kind src : Nat) (v : Int) (ci : Nat) (s : State) : State :=
  forEach (tbsWhere s fun k => tbKind s k == kind && tbSrc s k == src && tbEnabled s k && !tbCfgErr s k)
    (fun k s => setTb k (tbSample v ci (max 10 (fldOf s (tbAddr k + 4) 15 0) * 600) s.sd.tb[k]) s) s

/-! ### Mains -/

/-- T_m as a sum and a count of intervals; 15,000,000 cy before the first is measured (R56). -/
def mainsMean (m : Mains) : Nat × Nat := if m.ivals.isEmpty then (15000000, 1) else (m.ivals.foldl (· + ·) 0, m.ivals.length)

/-- The mains timebase is armed once two rising edges have been seen since reset or loss. -/
def mainsArmed (m : Mains) : Bool := !m.lost && !m.ivals.isEmpty

/-- The mains phase at a time, in 2^-20 cycle (R56). -/
def mainsPhase (m : Mains) (t : Nat) : Nat :=
  match m.tZc, m.ivals with
  | some z, i :: _ => if i = 0 then 0 else min (2 ^ 20 * (t - z) / i) (2 ^ 20 - 1)
  | _, _ => 0

/-- A rising edge is a real value of every enabled mains timebase; the second since it was last disarmed arms it (R33, R36). -/
def tbMainsEdge (x : Timebase) : Timebase :=
  { x with seen := min 2 (x.seen + 1), arming := x.arming || (!x.armed && decide (1 ≤ x.seen)) }

/-- A rising edge on MAINS_SENSE (R56). -/
def mainsEdge (t : Nat) (s : State) : State :=
  let m := s.mains
  let ivals := match m.tZc with
    | some z => if m.lost then [] else ((t - z) :: m.ivals).take 4
    | none => []
  let s1 := { s with mains := { m with tZc := some t, ivals := ivals, lost := false } }
  let s2 := putBit 0xF00102 16 false s1
  bvPin 0x41 true (forEach (tbsWhere s2 fun k => tbKind s2 k == 5 && tbEnabled s2 k) (fun k s => setTb k (tbMainsEdge s.sd.tb[k]) s) s2)

/-- MAINS_SENSE_EDGE at time t: a rising edge is phase 0 of the mains; a falling one is only an edge of the pin, which a capture group may trigger on (R56, R168). -/
def execMainsSenseEdge (e : PinEdge) (s : State) : Host.Outcome State Fault Refusal :=
  let s1 := advance e.t s
  let s2 := { s1 with mains := { s1.mains with level := e.rising } }
  .next (if e.rising then mainsEdge s2.now s2 else bvPin 0x41 false s2)

/-- No rising edge within 1.5 T_m: MAINS_LOST, the interval history is emptied and the mains timebases are disarmed (R56). LOCKED clears (R58). -/
def mainsLost (s : State) : State :=
  if s.mains.lost then s
  else
    let was := bitOf s 0xF00102 19
    let s1 := putBit 0xF00102 19 false (putBit 0xF00102 16 true { s with mains := { s.mains with lost := true, ivals := [], goodCycles := 0 } })
    disarmMains (whenB was (raiseEvent 14) s1)

def execMainsLost (s : State) : Host.Outcome State Fault Refusal := .next (mainsLost s)

/-- A quotient rounded to nearest, ties away from zero; the divisor is positive. -/
def roundAway (a b : Int) : Int := if 0 ≤ a then (2 * a + b) / (2 * b) else -((2 * (-a) + b) / (2 * b))

/-- The phase error e at a marker as a numerator over 2^20 × N, in (-half, half] (R57). -/
def lockError (phi ref j n : Nat) : Int :=
  let full : Int := 2 ^ 20 * n
  let x := (((phi : Int) - ref) * n - (j : Int) * 2 ^ 20) % full
  if full < 2 * x then x - full else x

/-- One step of p toward a command given as num/den in 2^-16 cy, limited to 10 ppm of the nominal period (R57). -/
def lockStep (p pnom : Nat) (num den : Int) : Nat :=
  let d := num - (p : Int) * den
  let lim : Int := (pnom : Int) * 65536
  let step :=
    if lim * den < d * 100000 then roundAway lim 100000
    else if d * 100000 < -(lim * den) then -(roundAway lim 100000)
    else roundAway d den
  (p + step).toNat

/-- The mains lock at a servo-period boundary at time t, in the unit that sends the markers (R57, R58). PHERR keeps the last error while none is formed. ML_N = 0 acts as 1, and PHERR is rounded to nearest (DESIGN CHOICE, log entry 72). -/
def mainsLockAt (t : Nat) (s : State) : State :=
  let m := s.mains
  let pnom := nominalPeriod s
  let en := bitOf s 0xF00100 19
  let n := max 1 (fldOf s 0xF00100 10 0)
  let gain := fldOf s 0xF00100 18 16
  let ref := fldOf s 0xF00101 19 0
  let phi := mainsPhase m t
  let was := bitOf s 0xF00102 19
  let fin (m : Mains) (locked hold range : Bool) (pherr : Option Int) (s : State) : State :=
    let s1 := { s with mains := m }
    let s2 := putBit 0xF00102 19 locked (putBit 0xF00102 18 (m.p != s.mains.p) (putBit 0xF00102 17 range (putBit 0xF00102 15 hold
      (match pherr with
        | some e => putFld 0xF00102 11 0 (wrapN 12 (clampI (-2047) 2047 e)) s1
        | none => s1))))
    whenB (was != locked) (raiseEvent 14) s2
  if !en then
    fin { m with p := lockStep m.p pnom ((pnom : Int) * 65536) 1, mlOn := false, lockWait := false, goodCycles := 0 } false false false none s
  else if m.lost || !mainsArmed m then
    fin { m with mlOn := true, lockWait := m.lockWait || !m.mlOn, goodCycles := 0, j := (m.j + 1) % n } false true false none s
  else
    let start := !m.mlOn || m.lockWait
    let j := if start then
        let x := ((phi : Int) - ref) % 2 ^ 20
        let x' := if 2 ^ 19 < x then x - 2 ^ 20 else x
        wrapN 64 (roundAway ((n : Int) * x') (2 ^ 20) % (n : Int))
      else (m.j + 1) % n
    let (sum, cnt) := mainsMean m
    let e := lockError phi ref j n
    let full : Int := 2 ^ 20 * n
    -- RANGE: T_m / N outside 1 ± 0.015 of the nominal period
    let low := decide (sum * 1000 < pnom * 985 * cnt * n)
    let high := decide (pnom * 1015 * cnt * n < sum * 1000)
    let p' :=
      if low then lockStep m.p pnom ((pnom : Int) * 985 * 65536) 1000
      else if high then lockStep m.p pnom ((pnom : Int) * 1015 * 65536) 1000
      else lockStep m.p pnom ((sum : Int) * 65536 * (full * 2 ^ gain - e)) ((cnt : Int) * n * full * 2 ^ gain)
    let near := decide (|e| * 2 ^ 14 ≤ full)
    let far := decide (full < |e| * 2 ^ 12)
    let good := if far then 0 else if j = 0 then (if near then min 4 (m.goodCycles + 1) else 0) else m.goodCycles
    let locked := !(low || high) && !far && (was || decide (4 ≤ good))
    fin { m with p := p', j := j, mlOn := true, lockWait := false, goodCycles := if low || high then 0 else good } locked false (low || high)
      (some (roundDiv e n)) s

/-- The whole cycles of the next period and the remainder carried forward: each marker on the nearest cycle, the later at a tie (R57). -/
def nextPeriodCy (s : State) : Nat × Int :=
  let x : Int := s.mains.p + s.mains.rem
  let cy := (x + 32768) / 65536
  (cy.toNat, x - cy * 65536)

/-- SD_PERIOD shows the period in force. -/
def showPeriod (s : State) : State :=
  putWord 0xF00105 (word (s.mains.p % 65536 * 16)) (putWord 0xF00104 (word (s.mains.p / 65536 % 65536)) s)

/-! ### Updates and crossings -/

/-- The signed difference of two values, the shorter way round for a modulus (R45); exactly half counts as positive. -/
def tbDiff (m : Option Int) (x y : Int) : Int :=
  match m with
  | none => x - y
  | some k => if k ≤ 0 then x - y else let d := (x - y) % (k * 4096); if k * 4096 < 2 * d then d - k * 4096 else d

/-- A value brought into the range of its modulus. -/
def tbNorm (m : Option Int) (x : Int) : Int :=
  match m with
  | none => wrapI 52 x
  | some k => if k ≤ 0 then x else x % (k * 4096)

/-- The value a timebase takes at an update at time t, and whether extrapolation is held at its limit (R38, R43, R56). A sampled step's part is rounded down to the 12-bit fraction (DESIGN CHOICE, log entry 72). -/
def tbValue (s : State) (k : Nat) (t : Nat) (x : Timebase) : Int × Bool :=
  let kind := tbKind s k
  let xtra := bitOf s (tbAddr k) 14
  if kind = 1 then
    match x.per with
    | some p =>
      if xtra && !x.still && p != 0 then
        let f := min (4096 * (t - x.tReal) / p) 4095
        (x.now + x.dir * f, f == 4095)
      else (x.now, false)
    | none => (x.now, false)
  else if kind = 5 then ((mainsPhase s.mains t : Int) * 4096, false)
  else if kind = 6 then ((sysTimeAt s t % 2 ^ 40 : Nat) * 4096, false)
  else if xtra then
    let f := min (4096 * 65536 * (t - x.tReal) / max 1 s.mains.p) 4096
    (x.now + x.delta * f / 4096, f == 4096)
  else (x.now, false)

/-- Crossing of compare value c by a step from a to b: 0 none, 1 upward, 2 downward (R45). -/
def crossing (m : Option Int) (a b c : Int) : Nat :=
  match m with
  | none => if a < c ∧ c ≤ b then 1 else if b ≤ c ∧ c < a then 2 else 0
  | some k =>
    let f := k * 4096
    if f ≤ 0 then 0
    else
      let st := (b - a) % f
      if 2 * st < f then (if 0 < (c - a) % f ∧ (c - a) % f ≤ st then 1 else 0)
      else if f < 2 * st then (if 0 < (a - c) % f ∧ (a - c) % f ≤ f - st then 2 else 0)
      else 0

/-- The move of R44: the start left after the part that only removes estimated distance, and whether there was such a part. -/
def afterRetraction (m : Option Int) (real a b : Int) : Int × Bool :=
  let est := tbDiff m a real
  let mv := tbDiff m b a
  if (0 < est ∧ mv < 0) ∨ (est < 0 ∧ 0 < mv) then
    let back := min |mv| |est|
    (tbNorm m (if 0 < est then a - back else a + back), true)
  else (a, false)

/-- The compare value of an entry, in 1/4,096 units. -/
def entryCmp (s : State) (e : EvEntry) : Int :=
  let kind := tbKind s e.tb
  let frac : Int := if kind = 5 ∨ kind = 6 then 0 else e.cmpf
  match tbModulus s e.tb with
  | some _ => (e.cmp : Int) * 4096 + frac
  | none => sext 40 e.cmp * 4096 + frac

/-- The direction an entry's compare value is crossed in, if it fires: enabled, not spent, direction named. -/
def entryFires (s : State) (k : Nat) (a b : Int) (n : Nat) (e : EvEntry) : Option Nat :=
  if !e.en || e.tb != k || (s.sd.spent.any fun x => x.1 == n) then none
  else
    let m := tbModulus s k
    let inRange := match m with
      | some f => decide ((e.cmp : Int) < f)
      | none => true
    let d := crossing m a b (entryCmp s e)
    if inRange && ((d == 1 && e.dir != 1) || (d == 2 && e.dir != 0)) then some d else none

/-- Inserts by distance along the step, ties in the order met. -/
def insertBy {α : Type} (key : α → Int) (x : α) : List α → List α
  | [] => [x]
  | y :: ys => if key x < key y then x :: y :: ys else y :: insertBy key x ys

def sortBy {α : Type} (key : α → Int) (l : List α) : List α := l.foldl (fun acc x => insertBy key x acc) []

/-- How far along the step from a a compare value lies. -/
def alongStep (m : Option Int) (a c : Int) (down : Bool) : Int :=
  match m with
  | none => if down then a - c else c - a
  | some k => if k ≤ 0 then 0 else if down then (a - c) % (k * 4096) else (c - a) % (k * 4096)

/-- The entries of timebase k that fire in a step, in dispatch order (R53): entry and direction. -/
def firingsOf (s : State) (k : Nat) (a b : Int) : List (Nat × EvEntry × Nat) :=
  let hits := s.sd.ev.filterMap fun ne => (entryFires s k a b ne.1 ne.2).map fun d => (ne.1, ne.2, d)
  sortBy (fun h => alongStep (tbModulus s k) a (entryCmp s h.2.1) (h.2.2 == 2)) hits

/-- The delay-list entries that fall due on timebase k, in the order of R374. -/
def delaysOf (s : State) (k : Nat) (a b : Int) : List Nat :=
  let hits := s.pg.delay.filterMap fun e =>
    match e.due with
    | .base tb due dir =>
      let d := crossing (tbModulus s k) a b (due * 4096)
      if tb = k ∧ !e.fired ∧ ((d = 1 ∧ dir ≠ 1) ∨ (d = 2 ∧ dir ≠ 0)) then some (e.entry, due * 4096, d) else none
    | .tick _ => none
  (sortBy (fun h => alongStep (tbModulus s k) a h.2.1 (h.2.2 == 2)) hits).map (·.1)

/-- A spent entry may fire again once the last real value has been RDIST units on the far side (R52). -/
def rearms (s : State) (k : Nat) (real : Int) (x : Nat × Bool) : Bool :=
  let e := mapGet EvEntry.reset s.sd.ev x.1
  if e.tb != k || !e.rearm then false
  else
    let d := tbDiff (tbModulus s k) (entryCmp s e) real
    decide ((2 ^ e.rdist : Int) * 4096 ≤ (if x.2 then -d else d))

/-- The update of one timebase at time t (R35-R46): answers the delay entries that fall due. -/
def updateTb (t : Nat) (k : Fin 16) (s : State) : List Nat × State :=
  let x := s.sd.tb[k]
  if !tbEnabled s k || tbKind s k == 0 || tbCfgErr s k then ([], if x.armed || x.arming then disarmTb k s else s)
  else
    let kind := tbKind s k
    let m := tbModulus s k
    let (v, cap) := tbValue s k t x
    let b := tbNorm m v
    let live := kind == 5 || kind == 6
    let arm := x.arming || kind == 6
    if !x.armed then
      if arm then ([], setTb k { x with armed := true, arming := false, val := b, real := if live then b else tbNorm m x.now, xcap := cap } s)
      else ([], setTb k { x with xcap := false } s)
    else
      let (a, ret) := if live then (x.val, false) else afterRetraction m x.real x.val b
      let mv := tbDiff m b a
      let half := match m with
        | some f => decide (0 < f) && decide (2 * ((b - a) % (f * 4096)) = f * 4096)
        | none => false
      let real' := if live then b else tbNorm m x.now
      let x' := { x with val := b, real := real', xcap := cap, dirn := if mv = 0 then x.dirn else decide (mv < 0) }
      let s1 := whenB ret (putBit (tbAddr k + 5) 15 true) (whenB half (putBit (tbAddr k + 5) 14 true) (setTb k x' s))
      let hits := if half then [] else firingsOf s1 k a b
      let fire : List Firing := hits.map fun h => ⟨h.1, h.2.1.act, h.2.1.arg, !h.2.1.rearm, t⟩
      let spent' := s1.sd.spent.filter (fun x => !rearms s1 k real' x) ++ hits.map fun h => (h.1, h.2.2 == 2)
      let s2 := { s1 with sd := { s1.sd with disp := s1.sd.disp ++ fire, spent := spent' } }
      (if half then [] else delaysOf s1 k a b, s2)

/-- Held Pergola posts are offered again in queue order; a refused one stays (R54). -/
def offerHeld : List (Nat × Nat) → State → State
  | [], s => s
  | x :: xs, s =>
    match offerPost x.2 (word x.1) s with
    | (true, s') => offerHeld xs { s' with sd := { s'.sd with holdQ := s'.sd.holdQ.erase x } }
    | (false, s') => offerHeld xs s'

/-- The update in whose 8 cy the last boundary falls: the entries committed there are still seen as they were before it (R49). -/
def boundaryUpdate (s : State) : Bool := decide (s.now < s.sys.tBoundary + 8) && s.sys.tBoundary % 8 != 0

/-- Crossing detection runs on the contents before the last boundary; firings it finds then leave the new contents alone (R49, R50). -/
def withBefore (f : State → State) (s : State) : State :=
  let bef := if boundaryUpdate s then s.sd.evBefore else []
  let ev := s.sd.ev
  let n := s.sd.disp.length
  let old (e : Nat) : Bool := bef.any fun b => b.1 == e
  let s1 := f { s with sd := { s.sd with ev := bef.foldl (fun m b => mapPut EvEntry.reset m b.1 b.2) ev, evBefore := [] } }
  { s1 with sd := { s1.sd with ev := ev, spent := s1.sd.spent.filter (fun x => !old x.1),
                               disp := s1.sd.disp.take n ++ (s1.sd.disp.drop n).map fun g => { g with oneShot := g.oneShot && !old g.entry } } }

/-- SUNDIAL_UPDATE: time moves to the next multiple of 8 cy, held posts are offered, every timebase is brought up to date, and due delay entries post (R35, R54, R374). -/
def sundialUpdate (s : State) : State :=
  let s0 := { s with now := (s.now / 8 + 1) * 8 }
  if !sundialRuns s0 then s0
  else withBefore detect s0
where
  /-- One update: held posts, then the timebases in ascending order. -/
  detect (s0 : State) : State :=
    let s1 := offerHeld s0.sd.holdQ s0
    let (due, s2) := (List.finRange 16).foldl (fun (acc : List Nat × State) k =>
      let (d, s') := updateTb s1.now k acc.2
      (acc.1 ++ d, s')) ([], s1)
    let s3 := if due.isEmpty then s2 else fireDelays due s2
    whenB (!s3.sd.holdQ.isEmpty) (pcSys 0x5A 1) (retryStalled s3)

def execSundialUpdate (s : State) : Host.Outcome State Fault Refusal := .next (sundialUpdate s)

/-! ### Dispatch -/

def w0Addr (e : Nat) : Nat := 0xF01000 + e

/-- A Pergola post of a firing: refused, it waits in the hold queue of 64, or is lost (R54). -/
def sundialPost (e d : Nat) (s : State) : State :=
  match offerPost d (word e) s with
  | (true, s') => s'
  | (false, s') =>
    if s'.sd.holdQ.length < 64 then
      let s1 := refusedPost d (count 0xF00107 { s' with sd := { s'.sd with holdQ := s'.sd.holdQ ++ [(e, d)] } })
      whenB (s1.sd.holdQ.length == 64) (raiseEvent 101) s1
    else raiseEvent 101 (count 0xF00108 (putBit (w0Addr e) 0 true (refusedPost d s')))

/-- An event output changes: 00b toggle, 01b set, 10b clear (R51). -/
def driveEvo (o how : Nat) (s : State) : State :=
  let old := s.sd.evo.getLsbD o
  let new := if how = 0 then !old else how == 1
  let m : BitVec 16 := 1#16 <<< o
  let s1 := { s with sd := { s.sd with evo := if new then s.sd.evo ||| m else s.sd.evo &&& ~~~m } }
  if old == new then s1 else bvPin o new s1

/-- A servo-parameter firing loads SV_PSET.REQ as a software write would; of several of one axis in a period the last takes effect (R49, R51). -/
def firePset (a k : Nat) (s : State) : State :=
  let reg := 0xF10001 + 256 * a
  let s1 := stageReg reg (setFld (regGet s reg) 19 18 k) s
  { s1 with sd := { s1.sd with psetPend := s1.sd.psetPend.filter (fun x => x.1 != a) ++ [(a, k)] } }

/-- A Gatehouse arm: a check with ARMK 01b is armed at once, at the latest position of its source, or at its next sample where it has none yet (R51, R275). -/
def fireArm (c : Nat) (s : State) : State :=
  if bitOf s (0xF34100 + 8 * c) 19 && fldOf s (0xF34100 + 8 * c) 14 13 == 1 then
    let x := mapGet Check.reset s.gh.checks c
    { s with gh := { s.gh with checks := mapPut Check.reset s.gh.checks c { x with armed := true, armPend := x.hist.isEmpty, xArm := x.hist.headD 0 } } }
  else s

/-- The action of a firing (R51). Servo-parameter and overlay actions are discarded in SAFE and RECOVERY (R55) and have no effect in a standby (R233). -/
def fireAction (f : Firing) (s : State) : State :=
  let quiet := s.sys.op == .safe || s.sys.op == .recovery || isStandby s
  if f.act = 1 then driveEvo (fld f.arg 3 0) (fld f.arg 5 4) s
  else if f.act = 2 then sundialPost f.entry (fld f.arg 8 0) s
  else if f.act = 3 then
    upTo 4 (fun i s =>
      let g : Fin 4 := Fin.ofNat 4 i
      let x := s.bv.g[g]
      if x.st = .armed && x.ended.isNone && fld x.lat.trg 19 16 == 4 && x.lat.chans.any (fun c => bit f.arg c.1) then
        setBv g (bvAccept s f.at_ x) s
      else s) s
  else if f.act = 4 then
    (if quiet then s else firePset (fld f.arg 7 0) (fld f.arg 9 8) s)
  else if f.act = 5 then
    (if quiet then s else stageReg 0xF48008 (setBit (regGet s 0xF48008) (fld f.arg 3 0) (bit f.arg 4)) s)
  else if f.act = 6 then fireArm (fld f.arg 5 0) s
  else s

/-- A firing sets FIRED and, one-shot, clears the committed EN; a staged W0 keeps its own EN (R48, R50). -/
def fireMarks (f : Firing) (s : State) : State :=
  let s1 := putBit (w0Addr f.entry) 3 true s
  if f.oneShot then
    let e := mapGet EvEntry.reset s1.sd.ev f.entry
    let s2 := { s1 with sd := { s1.sd with
      ev := mapPut EvEntry.reset s1.sd.ev f.entry { e with en := false }
      spent := s1.sd.spent.filter fun x => x.1 != f.entry } }
    if s2.sd.w0Pend.contains f.entry then s2 else putBit (w0Addr f.entry) 19 false s2
  else s1

/-- SUNDIAL_DISPATCH: the next firing in its slot (R53). -/
def sundialDispatch (s : State) : State :=
  match s.sd.disp with
  | [] => s
  | f :: fs => pcSys 0x59 1 (fireAction f (fireMarks f { s with sd := { s.sd with disp := fs } }))

def execSundialDispatch (s : State) : Host.Outcome State Fault Refusal := .next (sundialDispatch s)

/-! ### Commit, standstill, configuration -/

/-- The entry that the staged words of entry e spell at the boundary (R48): words of W1 to W4 written after W0 and before the boundary are among them (DESIGN CHOICE, log entry 72). -/
def stagedEntry (s : State) (e : Nat) : EvEntry :=
  let w0 := regGet s (w0Addr e)
  { en := bit w0 19, dir := fld w0 18 17, rearm := bit w0 16, tb := fld w0 15 12, act := fld w0 11 8, rdist := fld w0 7 4,
    cmp := (regGet s (0xF01800 + e)).toNat * 2 ^ 20 + (regGet s (0xF02000 + e)).toNat,
    cmpf := fld (regGet s (0xF02800 + e)) 19 8, arg := regGet s (0xF03000 + e) }

/-- Whether an entry to be committed with EN = 1 is refused (R49): the argument layouts of R51, whose bits outside the listed fields count as reserved and must be 0 (DESIGN CHOICE, log entry 72). -/
def entryBad (s : State) (e : EvEntry) : Bool :=
  let badArg :=
    if e.act = 1 then fld e.arg 5 4 == 3 || fld e.arg 19 6 != 0
    else if e.act = 2 then fld e.arg 19 9 != 0
    else if e.act = 3 then fld e.arg 19 16 != 0
    else if e.act = 4 then decide (axisCount s ≤ fld e.arg 7 0) || fld e.arg 19 10 != 0
    else if e.act = 5 then fld e.arg 19 5 != 0
    else if e.act = 6 then fld e.arg 19 6 != 0
    else false
  let badCmp := match tbModulus s e.tb with
    | some m => decide (m ≤ (e.cmp : Int))
    | none => false
  decide (7 ≤ e.act) || e.dir == 3 || badArg || badCmp

/-- Commits one entry at a boundary; a refused one keeps EN = 0. Firings of the contents before that still wait for their slot leave the new EN alone (R49, R50). -/
def commitEntry (n : Nat) (s : State) : State :=
  let e := stagedEntry s n
  let bad := e.en && entryBad s e
  let old := mapGet EvEntry.reset s.sd.ev n
  let s1 := { s with sd := { s.sd with
    ev := mapPut EvEntry.reset s.sd.ev n { e with en := e.en && !bad }
    evBefore := s.sd.evBefore ++ [(n, { old with en := old.en && !(s.sd.spent.any fun x => x.1 == n) })]
    disp := s.sd.disp.map fun f => if f.entry = n then { f with oneShot := false } else f
    spent := s.sd.spent.filter fun x => x.1 != n } }
  if bad then raiseEvent 127 (putBit 0xF00106 19 true (regSet (w0Addr n) (setBit (regGet s1 (w0Addr n)) 19 false) s1)) else s1

/-- Commits every entry with a W0 write waiting. -/
def commitEntries (s : State) : State :=
  forEach s.sd.w0Pend commitEntry { s with sd := { s.sd with w0Pend := [], evBefore := [] } }

/-- The B-marked fields of W0 as written; FIRED and LOST clear where a 0 is written (R48). -/
def w0Merge (old v : Word) : Word :=
  setBit (setBit (setFld old 19 4 (fld v 19 4)) 3 (bit old 3 && bit v 3)) 0 (bit old 0 && bit v 0)

/-- A taken write of W0 (R48). -/
def writeW0 (e : Nat) (v : Word) (s : State) : State :=
  let s1 := regSet (w0Addr e) (w0Merge (regGet s (w0Addr e)) v) s
  if s1.sd.w0Pend.contains e then s1 else { s1 with sd := { s1.sd with w0Pend := s1.sd.w0Pend ++ [e] } }

/-- TIMEBASE_STANDSTILL: no counted edge within STILL_US (R41). -/
def tbStandstill (t : Fin 16) (s : State) : State :=
  let x := s.sd.tb[t]
  if tbKind s t == 1 && tbEnabled s t && !tbCfgErr s t then setTb t { x with still := true, per := none, seen := 0, xcap := false } s else s

def execTimebaseStandstill (t : Fin 16) (s : State) : Host.Outcome State Fault Refusal := .next (tbStandstill t s)

/-- A configuration that took effect: a change of TB_EN, KIND, SRC or MODULAR disarms (R36). -/
def tbConfigTaken (t : Fin 16) (old new : Word) (s : State) : State :=
  if fld old 19 15 != fld new 19 15 || fld old 7 0 != fld new 7 0 then disarmTb t s else s

/-- SD_TBn_STAT as read. -/
def tbStatWord (s : State) (t : Fin 16) : Word :=
  let x := s.sd.tb[t]
  let w := regGet s (tbAddr t + 5)
  setBit (setBit (setBit (setBit (setBit w 19 x.armed) 18 x.still) 17 x.dirn) 16 x.xcap) 13 (tbCfgErr s t)

/-- W0 as read: HELD and WAIT are live (R48, R54). -/
def w0Word (s : State) (e : Nat) : Word :=
  let w := regGet s (w0Addr e)
  let c := mapGet EvEntry.reset s.sd.ev e
  setBit (setBit w 2 (s.sd.holdQ.any fun x => x.1 == e)) 1 (c.en && !s.sd.tb[Fin.ofNat 16 c.tb].armed)

end Sys2Proof.Machine
end

