-- ==== Sys2Proof/Machine/Feedback.lean ====
section
/-! DEFINITION. Feedback and reference inputs: counting, direction hysteresis, references and count checks, SSI and mains channels (03 R60-R88). -/

namespace Sys2Proof.Machine

/-! ### Configuration of a channel -/

def fbAddr (n : Nat) : Nat := 0xF04000 + 32 * n
def fbStat (n : Nat) : Nat := fbAddr n + 16
def fbMode (s : State) (n : Nat) : Nat := fldOf s (fbAddr n) 19 17
def fbDirSrc (s : State) (n : Nat) : Nat := fldOf s (fbAddr n) 15 14
def fbRefType (s : State) (n : Nat) : Nat := fldOf s (fbAddr n + 1) 19 18
def fbGap (s : State) (n : Nat) : Nat := fldOf s (fbAddr n + 1) 17 16
def fbTeeth (s : State) (n : Nat) : Nat := fldOf s (fbAddr n + 2) 19 0

/-- A reference type that the mode does not support, a gap of no teeth, or too few counts per revolution (R68, R87). -/
def fbRefBad (s : State) (n : Nat) : Bool :=
  let r := fbRefType s n
  let m := fbMode s n
  let unsupported := if r = 0 then false else if r = 3 then m != 1 && m != 2 else m != 3
  unsupported || (r != 0 && decide (fbTeeth s n < 2)) || (r == 1 && fbGap s n == 0)

/-- The reference the channel uses: 0 none, 1 gap, 2 extra tooth, 3 Z index. With a refused configuration it has none (R68). -/
def fbRef (s : State) (n : Nat) : Nat := if fbRefBad s n then 0 else fbRefType s n

/-- A mode, direction source or SSI format that switches the channel off (R60, R67, R80, R87). -/
def fbModeBad (s : State) (n : Nat) : Bool :=
  let m := fbMode s n
  let len := fldOf s (fbAddr n + 3) 19 14
  m == 6 || m == 7 || (m == 3 && fbDirSrc s n == 3) || (m == 5 && (decide (len < 13) || decide (32 < len) || s.fb[Fin.ofNat 16 n].cfgErr))

def fbCfgErr (s : State) (n : Nat) : Bool := fbModeBad s n || fbRefBad s n

/-- An SSI frame and its monoflop time do not fit the servo period less 1 µs (R80): (LEN + 2) clock periods of 2 (DIV + 1) cy. -/
def ssiTooLong (s : State) (n : Nat) : Bool :=
  let len := fldOf s (fbAddr n + 3) 19 14
  let div := fldOf s (fbAddr n + 3) 11 0
  let tm := fldOf s (fbAddr n + 4) 19 14
  fbMode s n == 5 && decide (nominalPeriod s - 600 < (len + 2) * 2 * (div + 1) + tm * 600)

/-- The mode in which the channel now counts; 0 while it is off. The channels count in JOIN and every later state (R61). -/
def fbCounts (s : State) (n : Nat) : Nat := if beforeJoin s || fbModeBad s n then 0 else fbMode s n

def fbFaulty (s : State) (n : Nat) : Bool := bitOf s (fbStat n) 18
def fbSeated (s : State) (n : Nat) : Bool := bitOf s (fbStat n) 19
def fbDown (s : State) (n : Nat) : Bool := bitOf s (fbStat n) 9
def fbRefPos (s : State) (n : Nat) : Int := pairI s (fbAddr n + 6)

/-! ### Repeat outputs -/

/-- The repeat outputs are driven, else high-impedance (R86). -/
def fboDriven (s : State) : Bool :=
  s.pr.active && (s.sys.op == .runActive || s.sys.op == .degraded || s.sys.op == .safe)

/-- Outputs that repeat channel n follow its synchronised inputs, in every mode and before the filter (R85). -/
def fboCopy (n : Fin 16) (s : State) : State :=
  let x := s.fb[n]
  forEach (List.finRange 8) (fun m s =>
    if bitOf s (0xF04200 + m.val) 19 && fldOf s (0xF04200 + m.val) 18 15 == n.val then
      { s with fbo := s.fbo.set m { a := x.sa, b := x.sb, z := x.sz } }
    else s) s

/-- A channel in SSI mode names output m for its clock (R80, R85). -/
def ssiClockOf (s : State) (m : Nat) : Option Nat := (List.range 16).find? fun n => fbMode s n == 5 && fldOf s (fbAddr n + 4) 13 11 == m

/-- The SSI clock of channel n: high, but in the first half of each of the LEN + 1 periods that start with the falling edge at CI (R80). -/
def ssiClock (s : State) (n : Nat) : Bool :=
  let half := fldOf s (fbAddr n + 3) 11 0 + 1
  let k := (s.now - s.lk.ci) / half
  fbCounts s n != 5 || s.lk.ci == 0 || decide (2 * (fldOf s (fbAddr n + 3) 19 14 + 1) ≤ k) || k % 2 == 1

/-- The levels at repeat output m, none while it is high-impedance: the SSI clock with B and Z low, the copy, or all low (R80, R82, R85, R86). -/
def fboPin (s : State) (m : Fin 8) : Option FboPins :=
  if !fboDriven s then none
  else
    match ssiClockOf s m.val with
    | some n => some { a := ssiClock s n, b := false, z := false }
    | none => some (if bitOf s (0xF04200 + m.val) 19 then s.fbo[m] else FboPins.reset)

/-! ### Input conditioning (R62) -/

/-- The filter time in cy: 16 FILT us in mains mode, else 2 FILT cy (R62). -/
def fbFilter (s : State) (n : Nat) : Nat := fldOf s (fbAddr n) 13 8 * (if fbMode s n = 4 then 9600 else 2)

/-- A level that the synchronised input holds for a time is accepted (R62). -/
def fbAccepts (s : State) (n held : Nat) : Bool := decide (fbFilter s n ≤ held)

/-- The instant at which an edge first sampled at t is counted: 4 cy and the filter time later (R62, R83). -/
def fbSettled (s : State) (n t : Nat) : State := advance (t + 4 + fbFilter s n) s

/-- New levels at the synchroniser, with what repeats them. -/
def fbLevels (n : Fin 16) (a b z : Bool) (s : State) : State := fboCopy n (setFb n { s.fb[n] with sa := a, sb := b, sz := z } s)

/-- A rising edge of A with B as sampled, in a mode that counts such edges: whether its level is accepted, and the state with the levels. -/
def fbRise (n : Fin 16) (b : Bool) (t held : Nat) (s : State) : Bool × State :=
  let s1 := fbLevels n true b s.fb[n].sz s
  if fbAccepts s1 n.val held then (true, fbSettled (setFb n { s1.fb[n] with a := true, b := b } s1) n.val t) else (false, s1)

/-! ### Fault and warning events -/

/-- The check reads channel n: enabled with SRCK 10b and SRC n (R273). -/
def checkOnChannel (s : State) (n c : Nat) : Bool :=
  bitOf s (0xF34100 + 8 * c) 19 && fldOf s (0xF34100 + 8 * c) 12 11 == 2 && fldOf s (0xF34101 + 8 * c) 19 12 == n

/-- The group of a check on a channel: that of the axis DAXIS (R256). -/
def checkChanGroup (s : State) (c : Nat) : Nat := (axisGroup s (fldOf s (0xF34101 + 8 * c) 11 4)).val

/-- Fault 31h with its several reactions: REACT of each enabled check on the channel, and SS1 for the groups of axes fed from it (R266). GH_FCODE shows the strongest. -/
def ghFault31 (n : Nat) (s : State) : State :=
  if ghRecords s then
    let fed := groupsFed s n
    let rs := (if fed = 0 then [] else [React.ss1 fed]) ++
      ((List.range 64).filter (checkOnChannel s n)).map fun c => reactField (fldOf s (0xF34100 + 8 * c) 10 9) (2 ^ checkChanGroup s c)
    let top := rs.foldl (fun m r => max m (reactTaken s r)) 0
    forEach rs (fun r s => takeReact 0x31 (reactTaken s r) (reactMask r) (.fault 0x31) s) (ghRecord 0x31 n top s)
  else s

/-- The fault event of a channel (R79). -/
def fbFault (n : Fin 16) (s : State) : State :=
  ghFault31 n.val (raiseEvent (48 + n.val) (disarmChannel n.val (putBit (fbStat n.val) 18 true (setFb n { s.fb[n] with fltEv := true } s))))

/-- The warning event of a channel (R78). -/
def fbWarn (n : Fin 16) (s : State) : State :=
  raiseEvent (32 + n.val) (count (fbAddr n.val + 18) (putBit (fbStat n.val) 17 true s))

/-! ### Counting -/

/-- What a counted edge did under the direction hysteresis (R69). -/
inductive Counted where
  | moved | absorbed | turned | cancelled
  deriving DecidableEq, Repr

/-- Moves the counts by k in a direction, under the hysteresis (R69). -/
def fbHyst (dirn : Bool) (k : Nat) (down : Bool) (x : FbChan) : FbChan × Counted :=
  let raw := wrapI 40 (x.raw + (if down then -(k : Int) else k))
  if down = dirn then
    (if x.raw ≠ x.rep then ({ x with raw := x.rep }, .cancelled) else ({ x with raw := raw, rep := raw }, .moved))
  else if x.raw ≠ x.rep then ({ x with raw := raw, rep := raw }, .turned)
  else ({ x with raw := raw }, .absorbed)

/-- The raw or the reported count wraps in a move from x to y: a move is far shorter than half the range (R84). -/
def fbWraps (x y : FbChan) : Bool := decide (2 ^ 39 ≤ |y.raw - x.raw|) || decide (2 ^ 39 ≤ |y.rep - x.rep|)

/-- The interval since the last counted edge in the confirmed direction, where PER can hold it (R64). -/
def perOf (x : FbChan) (t : Nat) : Option Nat :=
  match x.tSame with
  | some u => if t - u ≤ 2 ^ 24 - 1 then some (t - u) else none
  | none => none

/-- The earlier of the last two counted edges in one direction, once the edge at hand is counted in the confirmed direction (R138). -/
def pairOf (x : FbChan) : Option Nat := if x.tSame.isSome then x.tSame else x.tPair

/-- An edge less than 60 cy after the counted edge before it (R63). -/
def fbFast (x : FbChan) (t : Nat) : Bool :=
  match x.tEdge with
  | some u => decide (t < u + 60)
  | none => false

/-- The period of such an edge, which R63 does not hold exact: a free value from 1 to 2^24 - 1 (DESIGN CHOICE, log entry 15). -/
def fbFree (n : Fin 16) (t : Nat) (s : State) : Option Nat × State :=
  if fbFast s.fb[n] t then
    let (v, s1) := freeNat s
    (some (1 + v % (2 ^ 24 - 1)), s1)
  else (none, s)

/-- A counted edge of k counts at time t in modes with hysteresis: counts, rate, PER, and delivery to Sundial (R63, R64, R69, R84). The period is as measured, or the free value given. -/
def fbCount (n : Fin 16) (k : Nat) (down : Bool) (t : Nat) (free : Option Nat) (s : State) : State :=
  let x := s.fb[n]
  let s1 := whenB (fbFast x t) (putBit (fbStat n.val) 14 true) s
  let per := (perOf x t).map fun p => free.getD p
  let dirn := fbDown s n.val
  let (y, what) := fbHyst dirn k down x
  let s2 := whenB (fbWraps x y) (putBit (fbStat n.val) 7 true) s1
  let z := { y with tEdge := some t }
  let d : Int := if down then -1 else 1
  let onRef := fbRefType s n.val != 0
  let deliver (s : State) : State := whenB (!fbFaulty s n.val) (sdEdge n.val z.rep d t free onRef) s
  match what with
  | .moved => deliver (setFb n { z with per := per, tSame := some t, tPair := pairOf x } s2)
  | .absorbed => sdWithdraw n.val (setFb n { z with hist := [], tTooth := none } s2)
  | .turned =>
    deliver (putBit (fbStat n.val) 9 down (setFb n { z with per := none, tSame := some t, tPair := x.tEdge, hist := [], tTooth := none, turned := true } s2))
  | .cancelled => setFb n { z with per := per, tSame := some t, tPair := pairOf x } s2

/-! ### References -/

/-- Seats the count at a reference: the only change a reference makes to it (R73). -/
def fbSeat (n : Fin 16) (v : Int) (s : State) : State :=
  let c := wrapI 40 v
  let x := s.fb[n]
  let s1 := setFb n { x with raw := c, rep := c, refPrev := some c, turned := false } (putBit (fbStat n.val) 19 true s)
  whenB (!fbFaulty s1 n.val) (sdReference n.val c) s1

/-- The count check at a reference detected after the seating one (R76-R78); adj corrects the change to the edges passed, nominal is their number. -/
def fbCheck (n : Fin 16) (down : Bool) (adj nominal : Int) (s : State) : State :=
  let x := s.fb[n]
  let e := match x.refPrev with
    | some p => (if down then p - x.rep else x.rep - p) + adj
    | none => nominal
  let s1 := putWord (fbAddr n.val + 20) (word (wrapN 20 e)) s
  let chk := bitOf s (fbAddr n.val + 1) 11
  if !chk || x.turned then putBit (fbStat n.val) 5 true s1
  else if |e - nominal| ≤ (fldOf s (fbAddr n.val + 1) 15 12 : Int) then setFb n { x with mism := 0 } s1
  else whenB (decide (1 ≤ x.mism)) (fbFault n) (fbWarn n (setFb n { x with mism := min 2 (x.mism + 1) } s1))

/-- A later reference: checked, or by position with its check skipped (R74, R76, R77). It arms the channel's timebases (R33). -/
def fbLater (n : Fin 16) (byPos down : Bool) (adj nominal : Int) (s : State) : State :=
  let s1 := if byPos then putBit (fbStat n.val) 5 true (putBit (fbStat n.val) 8 true s) else fbCheck n down adj nominal s
  let x := s1.fb[n]
  let s2 := setFb n { x with refPrev := some x.rep, turned := false } s1
  whenB (!fbFaulty s2 n.val) (sdReference n.val x.rep) s2

/-- A reference of the channel, after its count has moved: seats it at v, or is checked. -/
def fbReference (n : Fin 16) (byPos down : Bool) (v adj nominal : Int) (s : State) : State :=
  if fbSeated s n.val then fbLater n byPos down adj nominal s else fbSeat n v s

/-! ### Modes -/

/-- QUADRATURE_EDGE: the levels of A and B at the synchroniser after an edge first sampled at t, and for how long they are held. An input whose change the filter rejects keeps its accepted level (R62); both changed is illegal (R65). In another mode, or before JOIN, only the levels follow, and the repeat outputs. -/
def quadEdge (n : Fin 16) (a b : Bool) (t held : Nat) (s : State) : State :=
  let x := s.fb[n]
  let s1 := fbLevels n a b x.sz s
  let ok := fbAccepts s1 n.val held
  let a' := if ok && a != x.sa then a else x.a
  let b' := if ok && b != x.sb then b else x.b
  let s2 := setFb n { s1.fb[n] with a := a', b := b' } s1
  if fbCounts s n.val ≠ 1 ∨ (a' = x.a ∧ b' = x.b) then s2
  else
    let s3 := fbSettled s2 n.val t
    if a' ≠ x.a ∧ b' ≠ x.b then fbFault n (count (fbAddr n.val + 19) (putBit (fbStat n.val) 16 true s3))
    else
      let up := if a' ≠ x.a then a' != b' else a' == b'
      let (free, s4) := fbFree n t s3
      fbCount n 1 (up == bitOf s (fbAddr n.val) 16) t free s4

def execQuadratureEdge (n : Fin 16) (a b : Bool) (e : EdgeIn) (s : State) : Host.Outcome State Fault Refusal :=
  .next (quadEdge n a b e.t e.held (advance e.t s))

/-- PULSE_AND_DIRECTION_STEP: a rising edge of A with B as sampled, and whether B held through its window (R66). -/
def pulseStep (n : Fin 16) (b stable : Bool) (t held : Nat) (s : State) : State :=
  let (ok, s1) := fbRise n b t held s
  if !ok || fbCounts s n.val != 2 then s1
  else
    let s2 := if stable then s1 else count (fbAddr n.val + 19) (putBit (fbStat n.val) 15 true s1)
    let (free, s3) := fbFree n t s2
    fbCount n 1 (b != bitOf s (fbAddr n.val) 16) t free s3

def execPulseAndDirectionStep (n : Fin 16) (b stable : Bool) (e : EdgeIn) (s : State) : Host.Outcome State Fault Refusal :=
  .next (pulseStep n b stable e.t e.held (advance e.t s))

/-- The direction of a tooth before INV_DIR: true downward (R67). -/
def toothDir (s : State) (n : Fin 16) (b : Bool) : Bool :=
  let src := fbDirSrc s n.val
  let raw := if src = 0 then b else if src = 1 then s.fb[n].axDir else false
  raw != bitOf s (fbAddr n.val) 16

/-- Whether a reference is due at an edge by count (R72, R74). -/
def toothDue (s : State) (n : Fin 16) (down : Bool) : Bool :=
  let x := s.fb[n]
  let nn : Int := max 1 (fbTeeth s n.val)
  let at_ (v : Int) : Bool := (x.raw - v) % nn == 0
  let pos := fbRefPos s n.val
  if fbRef s n.val = 1 then (if down then at_ pos else at_ (pos - fbGap s n.val - 1))
  else (if down then at_ (pos + 1) else at_ pos)

/-- What the reference tests make of a tooth edge (R70-R74): 0 ordinary, 1 a reference detected, 2 a reference by position. -/
def toothTest (s : State) (n : Fin 16) (down : Bool) (t : Nat) (free : Option Nat) : Nat :=
  let x := s.fb[n]
  let inDir := down == fbDown s n.val && x.raw == x.rep
  let tau := match x.tTooth with
    | some u => free.getD (t - u)
    | none => 2 ^ 24
  let full := decide (x.hist.length = 3) && decide (tau ≤ 2 ^ 24 - 1)
  let sum := x.hist.foldl (· + ·) 0
  let kind := fbRef s n.val
  let cancels := down == fbDown s n.val && x.raw != x.rep
  if kind = 0 ∨ x.afterExtra then 0
  else if full && inDir then
    (if kind = 1 then (if 7 * sum ≤ 12 * tau then 1 else 0) else if kind = 2 then (if 5 * tau ≤ sum then 1 else 0) else 0)
  else if fbSeated s n.val && !full && !cancels && kind != 3 && toothDue s n down then 2
  else 0

/-- The history after an edge that is no reference: the period qualifies between two edges in the confirmed direction (R70). -/
def toothHist (s : State) (n : Fin 16) (down : Bool) (t : Nat) (free : Option Nat) (x : FbChan) : FbChan :=
  let inDir := down == fbDown s n.val && x.raw == x.rep
  match x.tTooth with
  | some u =>
    if !inDir || x.afterExtra then { x with tTooth := some t, afterExtra := false }
    else if 2 ^ 24 ≤ t - u then { x with tTooth := some t, hist := [], afterExtra := false }
    else { x with tTooth := some t, hist := (free.getD (t - u) :: x.hist).take 3, afterExtra := false }
  | none => { x with tTooth := some t, afterExtra := false }

/-- TOOTH_EDGE: a rising edge of A with B as sampled (R67, R70-R77). -/
def toothEdge (n : Fin 16) (b : Bool) (t held : Nat) (s : State) : State :=
  let (ok, sr) := fbRise n b t held s
  if !ok || fbCounts s n.val != 3 then sr
  else
    let (free, s0) := fbFree n t sr
    let down := toothDir s0 n b
    let what := toothTest s0 n down t free
    let kind := fbRef s0 n.val
    let pos := fbRefPos s0 n.val
    let g := fbGap s0 n.val
    let nn : Int := fbTeeth s0 n.val
    let brk (s : State) : State :=
      let x := s.fb[n]
      let long := match x.tTooth with
        | some u => decide (2 ^ 24 ≤ t - u)
        | none => false
      setFb n { x with tTooth := some t, hist := if long then [] else x.hist } s
    if what = 0 then
      let h := toothHist s0 n down t free s0.fb[n]
      let s1 := fbCount n 1 down t free (setFb n h s0)
      -- a count that breaks the history (R70) starts no qualifying period unless it lies in the confirmed direction
      if down == fbDown s1 n.val && s1.fb[n].raw == s1.fb[n].rep then setFb n { s1.fb[n] with tTooth := some t } s1 else s1
    else if kind = 1 then
      let s1 := brk (fbCount n (g + 1) down t free s0)
      fbReference n (what == 2) down (if down then pos - g - 1 else pos) (-(g : Int)) (nn - g) s1
    else
      let s1 := brk s0
      let s2 := setFb n { s1.fb[n] with afterExtra := true } s1
      fbReference n (what == 2) down (if down then pos + 1 else pos) 1 (nn + 1) s2

def execToothEdge (n : Fin 16) (b : Bool) (e : EdgeIn) (s : State) : Host.Outcome State Fault Refusal :=
  .next (toothEdge n b e.t e.held (advance e.t s))

/-- Z_INDEX: an edge of Z first sampled at t, and for how long its level is held. An accepted rising edge captures the count, and may be the reference (R68, R73, R76). -/
def zIndex (n : Fin 16) (z : Bool) (t held : Nat) (s : State) : State :=
  let m := fbCounts s n.val
  let s0 := fbLevels n s.fb[n].sa s.fb[n].sb z s
  let ok := fbAccepts s0 n.val held
  let rises := ok && z && !s.fb[n].z
  let s1 := if ok then setFb n { s0.fb[n] with z := z } s0 else s0
  if !rises || (m != 1 && m != 2) then s1
  else
    let s1 := fbSettled s1 n.val t
    let s2 := putPair (fbAddr n.val + 12) (wrapN 40 s1.fb[n].rep) s1
    if fbRef s n.val = 3 then
      fbReference n false (fbDown s n.val) (fbRefPos s n.val) 0 (fbTeeth s n.val) s2
    else s2

def execZIndex (n : Fin 16) (e : ZEdge) (s : State) : Host.Outcome State Fault Refusal := .next (zIndex n e.z e.t e.held (advance e.t s))

/-- The number an n-bit Gray code stands for. -/
def grayTo : Nat → Nat → Nat
  | 0, v => v
  | n + 1, v => grayTo n (v ^^^ (v / 2 ^ (2 ^ n)))

/-- An erroneous SSI frame; two in a row are the fault event, and so is each further one, as FACK leaves the run as it is (R81; DESIGN CHOICE, log entry 72). -/
def ssiError (n : Fin 16) (s : State) : State :=
  let x := s.fb[n]
  let s1 := count (fbAddr n.val + 19) (putBit (fbStat n.val) 13 true (setFb n { x with ssiErr := min 2 (x.ssiErr + 1) } s))
  whenB (decide (1 ≤ x.ssiErr)) (fbFault n) s1

/-- SSI_FRAME_END: data low at CI, start bit, data line high after the frame, clock disagreement, and the value read (R80-R82). Until a first value there is no change to count. -/
def ssiFrame (n : Fin 16) (lowAtCi start tailHigh clkBad : Bool) (v : BitVec 32) (s : State) : State :=
  if fbCounts s n.val ≠ 5 then s
  else
    let x := s.fb[n]
    let len := fldOf s (fbAddr n.val + 3) 19 14
    let raw := v.toNat % 2 ^ len
    let val := if bitOf s (fbAddr n.val + 3) 13 then grayTo 5 raw % 2 ^ len else raw
    let diff : Int := match x.ssiPrev with
      | some p => sext len ((val + 2 ^ len - p) % 2 ^ len)
      | none => 0
    let clk := clkBad && s.sys.op != .runStandby
    if lowAtCi || start || tailHigh || clk || decide ((fldOf s (fbAddr n.val + 21) 19 0 : Int) < |diff|) then ssiError n s
    else
      let c := x.raw + diff
      let down := decide (diff < 0)
      let pair := if x.tEdge.isSome && fbDown s n.val == down then x.tEdge else x.tPair
      let y := { x with raw := wrapI 40 c, rep := wrapI 40 c, ssiPrev := some val, ssiErr := 0 }
      let s1 := whenB (c != wrapI 40 c) (putBit (fbStat n.val) 7 true)
        (if diff = 0 then setFb n y s else putBit (fbStat n.val) 9 down (setFb n { y with tEdge := some s.lk.ci, tPair := pair } s))
      -- a frame value that changes the count is one counted edge; PER is never valid (R81)
      whenB (diff != 0 && !fbFaulty s1 n.val)
        (fun s => sdWithdrawPer n.val (sdEdge n.val (wrapI 40 c) (if diff < 0 then -1 else 1) s.lk.ci none (fbRefType s n.val != 0) s)) s1
where
  /-- The period of such a timebase stays invalid. -/
  sdWithdrawPer (ch : Nat) (s : State) : State :=
    forEach (tbsWhere s fun k => tbKind s k == 1 && tbSrc s k == ch) (fun k s => setTb k { s.sd.tb[k] with per := none } s) s

def execSsiFrameEnd (n : Fin 16) (lowAtCi start tailHigh clkBad : Bool) (v : BitVec 32) (s : State) : Host.Outcome State Fault Refusal :=
  .next (ssiFrame n lowAtCi start tailHigh clkBad v s)

/-- MAINS_ZERO_CROSSING: a rising edge counts one cycle and clears PHASE_LOST; the interval across a loss is not measured (R56, R83). FREQ_ERR keeps its value until an interval is measured again (DESIGN CHOICE, log entry 72). -/
def mainsCross (n : Fin 16) (t held : Nat) (s : State) : State :=
  let (ok, s0) := fbRise n s.fb[n].sb t held s
  if !ok || fbCounts s n.val != 4 then s0
  else
    let x := s0.fb[n]
    let was := bitOf s (fbStat n.val) 12
    let iv := match x.tRise with
      | some u => if was then none else some (t - u)
      | none => none
    let freq := match iv with
      | some i => decide (i < 8574000) || decide (15000000 < i)
      | none => bitOf s (fbStat n.val) 11
    let c := x.raw + 1
    let y := { x with tRise := some t, tEdge := some t, tSame := some t, tPair := pairOf x, per := perOf x t, raw := wrapI 40 c, rep := wrapI 40 c,
                      ivals := match iv with
                        | some i => (i :: x.ivals).take 4
                        | none => if was then [] else x.ivals }
    let s1 := setFb n y s0
    let s2 := putBit (fbStat n.val) 11 freq (putBit (fbStat n.val) 12 false (whenB (c != wrapI 40 c) (putBit (fbStat n.val) 7 true) s1))
    sdEdge n.val y.rep 1 t none (fbRefType s n.val != 0) s2

def execMainsZeroCrossing (n : Fin 16) (e : EdgeIn) (s : State) : Host.Outcome State Fault Refusal :=
  .next (mainsCross n e.t e.held (advance e.t s))

/-- PHASE_LOST: no rising edge within 1.5 times the mean interval (R83). -/
def phaseLost (n : Fin 16) (s : State) : State :=
  if fbCounts s n.val ≠ 4 then s else putBit (fbStat n.val) 12 true (setFb n { s.fb[n] with ivals := [] } s)

def execPhaseLost (n : Fin 16) (s : State) : Host.Outcome State Fault Refusal := .next (phaseLost n s)

/-! ### Commands and configuration -/

/-- Clearing SEATED disarms the timebases of the channel (R36). -/
def fbUnseat (n : Fin 16) (s : State) : State := disarmChannel n.val (putBit (fbStat n.val) 19 false s)

/-- FACK: FAULT, WARN and the mismatch count clear, and SEATED where the mode has a reference (R79). -/
def fbAck (n : Fin 16) (s : State) : State :=
  let s1 := putBit (fbStat n.val) 17 false (putBit (fbStat n.val) 18 false (setFb n { s.fb[n] with mism := 0 } s))
  if fbRef s n.val = 0 then s1 else fbUnseat n s1

/-- A taken write of FB_n_CTRL (R87). -/
def fbCtrl (n : Fin 16) (v : Word) (s : State) : State := whenB (bit v 18) (fbUnseat n) (whenB (bit v 19) (fbAck n) s)

def execFack (who : Requester) (n : Fin 16) (s : State) : Host.Outcome State Fault Refusal := .next (fbAck n (armLock who s))

def execUnseat (who : Requester) (n : Fin 16) (s : State) : Host.Outcome State Fault Refusal := .next (fbUnseat n (armLock who s))

/-- A configuration that took effect at a boundary (R70, R88): old and new words of FB_n_CFG, FB_n_REFCFG and FB_n_NTEETH. With a change of MODE the edges counted before it are no edges of the new mode: PER waits for two new ones (DESIGN CHOICE, log entry 72). -/
def fbConfigTaken (n : Fin 16) (cfg cfg' ref ref' teeth teeth' : Word) (s : State) : State :=
  let big := fld cfg 19 17 != fld cfg' 19 17 || fld cfg 15 14 != fld cfg' 15 14 || fld ref 19 16 != fld ref' 19 16 || teeth != teeth'
  let x0 := s.fb[n]
  let x := if fld cfg 19 17 = fld cfg' 19 17 then x0 else { x0 with tEdge := none, tSame := none, tPair := none, per := none }
  if big then fbUnseat n (setFb n { x with raw := x.rep, hist := [], tTooth := none, afterExtra := false } s)
  else if cfg ≠ cfg' ∨ ref ≠ ref' then setFb n { x with hist := [] } s
  else s

/-- The part leaves CONFIG: an SSI channel whose frame does not fit the period is refused and stays off (R80). -/
def leaveConfig (s : State) : State :=
  forEach (List.finRange 16) (fun n s => setFb n { s.fb[n] with cfgErr := ssiTooLong s n.val } s) s

/-- FB_n_STAT as read: ABSORB, CFG_ERR and PER_VALID are live (R87). -/
def fbStatWord (s : State) (n : Fin 16) : Word :=
  let x := s.fb[n]
  setBit (setBit (setBit (regGet s (fbStat n.val)) 10 (x.raw != x.rep)) 6 (fbCfgErr s n.val)) 4 (x.per.isSome)

/-- PER as read: FFFFFFh while not valid (R64). -/
def fbPer (s : State) (n : Fin 16) : Nat :=
  match s.fb[n].per with
  | some p => p
  | none => 0xFFFFFF

/-- The 12-bit fraction of R38 at a time, 0 while PER is not valid (R137). -/
def fbFrac (s : State) (n : Fin 16) (t : Nat) : Int :=
  let x := s.fb[n]
  match x.per, x.tSame with
  | some p, some u => if p = 0 then 0 else (if fbDown s n.val then -1 else 1) * (min (4096 * (t - u) / p) 4095 : Nat)
  | _, _ => 0

/-- The cycle input of channel n: reported count, fraction of R38, and fraction with the cap of following, at CI. A standby takes the active's (R235). -/
def cyFb (s : State) (n : Nat) : Int × Int × Int :=
  let x := s.fb[Fin.ofNat 16 n]
  let own := (x.ciRep, x.ciFrac, x.ciFol)
  match s.pr.inc with
  | some (fb, _, _) => if isStandby s && !s.pr.ownNow then ((fb[n]?).map fun x => (x.cnt, x.frac, x.fol)).getD own else own
  | none => own

/-- The fault of channel n as of CI: FAULT, or a fault event since the CI before; a standby takes the active's (R102, R235). -/
def cyFault (s : State) (n : Nat) : Bool :=
  let own := s.fb[Fin.ofNat 16 n].ciFlt
  match s.pr.inc with
  | some (fb, _, _) => if isStandby s && !s.pr.ownNow then ((fb[n]?).map (·.fault)).getD own else own
  | none => own

/-- The sigma-delta fault of input n as of CI, likewise. -/
def cySdmFault (s : State) (n : Nat) : Bool :=
  let own := s.ph.sdm[Fin.ofNat 8 n].ciFlt
  match s.pr.inc with
  | some (_, sdm, _) => if isStandby s && !s.pr.ownNow then ((sdm[n]?).map fun x => x.2.getLsbD 2).getD own else own
  | none => own

/-- The result of SDM input n at CI, of the active in a standby (R235). -/
def cySdm (s : State) (n : Nat) : Int :=
  let own := s.ph.sdm[Fin.ofNat 8 n].ci
  match s.pr.inc with
  | some (_, sdm, _) => if isStandby s && !s.pr.ownNow then ((sdm[n]?).map (·.1)).getD own else own
  | none => own

/-- The motoring scale of the cycle, of the active in a standby (R235). -/
def cyKm (s : State) : Nat :=
  match s.pr.inc with
  | some (_, _, km) => if isStandby s && !s.pr.ownNow then km else s.ph.km
  | none => s.ph.km

/-- The fraction that following uses: with the next edge a reference due by count, its cap is raised to G + 1 counts (R101). -/
def fbFracFollow (s : State) (n : Fin 16) (t : Nat) : Int :=
  let x := s.fb[n]
  let down := fbDown s n.val
  let due := fbSeated s n.val && fbMode s n.val == 3 && fbRef s n.val == 1 && toothDue s n down
  let cap := if due then (fbGap s n.val + 1) * 4096 - 1 else 4095
  match x.per, x.tSame with
  | some p, some u => if p = 0 then 0 else (if down then -1 else 1) * (min (4096 * (t - u) / p) cap : Nat)
  | _, _ => 0

end Sys2Proof.Machine
end

