-- ==== Sys2Proof/Machine/Profile.lean ====
section
/-! DEFINITION. The seven-segment curve and the plans built from it: CHANGE, MOVE, SPEED, stops, and the step by one period (04 R95-R106). Position is in 2^-24 pu, velocity, acceleration and jerk in 2^-48 per period, durations in 2^-20 period (R91). -/

namespace Sys2Proof.Machine

/-- A quotient rounded to nearest, ties away from zero (R91); the divisor is positive. -/
def roundTie (a b : Int) : Int := if 0 ≤ a then (2 * a + b) / (2 * b) else -((2 * (-a) + b) / (2 * b))

def sgn (x : Int) : Int := if 0 < x then 1 else if x < 0 then -1 else 0

/-- The largest number below 2^n, above r by sums of powers, that passes a test falling from true to false. -/
def searchMax : Nat → (Nat → Bool) → Nat → Nat
  | 0, _, r => r
  | n + 1, ok, r => searchMax n ok (if ok (r + 2 ^ n) then r + 2 ^ n else r)

/-- The square root of x/4, rounded to nearest: half of floor sqrt(4 (x/4)) plus a half. -/
def sqrtQuarter (x : Int) : Int :=
  let n := x.toNat
  let r := searchMax (Nat.log2 n / 2 + 1) (fun k => decide (k * k ≤ n)) 0
  ((r + 1) / 2 : Nat)

/-- The closed form of R95 at time t: position, velocity, acceleration; each product rounded on its own. -/
def closedAt (p v a j : Int) (t : Nat) : Int × Int × Int :=
  let u : Int := t
  (p + roundTie (v * u) (2 ^ 44) + roundTie (a * u * u) (2 ^ 65) + roundTie (j * u * u * u) (6 * 2 ^ 84),
   v + roundTie (a * u) (2 ^ 20) + roundTie (j * u * u) (2 ^ 41),
   a + roundTie (j * u) (2 ^ 20))

/-- A duration num/den periods in 2^-20 period: rounded up for a MOVE (R97), else to nearest. -/
def durOf (up : Bool) (num den : Int) : Nat :=
  if den ≤ 0 then 0 else if up then ((num * 2 ^ 20 + den - 1) / den).toNat else (roundTie (num * 2 ^ 20) den).toNat

/-- The three phases of CHANGE in direction d, where the velocity can take the acceleration out in time (R96). -/
def changePhases (v0 a0 v1 A J d : Int) (up : Bool) : List Seg :=
  let h := (v1 - v0) * d
  let am := a0 * d
  let room := 2 * J * h + am * am - 2 * A * A
  let ap := if 0 ≤ room then A else sqrtQuarter (2 * (2 * J * h + am * am))
  let t2 := if 0 ≤ room then durOf up room (2 * J * A) else 0
  [ { j := if am ≤ ap then d * J else -(d * J), dur := durOf up |ap - am| J, zeroA := false },
    { j := 0, dur := t2, zeroA := false },
    { j := -(d * J), dur := durOf up ap J, zeroA := true } ].filter fun g => g.dur != 0

/-- The velocity would pass v1 before the acceleration can be removed (R96, R106). -/
def passes (v0 a0 v1 J d : Int) : Bool := decide (0 < a0 * d) && decide (2 * J * ((v1 - v0) * d) < a0 * a0)

/-- The direction of a CHANGE. -/
def changeDir (v0 a0 v1 : Int) : Int := if v1 = v0 then sgn a0 else sgn (v1 - v0)

/-- Brings the acceleration to zero at jerk J. -/
def removeAcc (a0 J d : Int) (up : Bool) : Seg := { j := -(d * J), dur := durOf up |a0| J, zeroA := true }

/-- The velocity left when the acceleration has been removed at jerk J. -/
def velAfter (v0 a0 J : Int) : Int := v0 + roundTie (a0 * |a0|) (2 * J)

/-- CHANGE from v0 toward v1; where the velocity passes v1, the acceleration is first removed and the rest planned with limits A2 and J2 (R96, R100). -/
def changeWith (v0 a0 v1 A J A2 J2 : Int) (up : Bool) : List Seg :=
  let d := changeDir v0 a0 v1
  if d = 0 ∨ A ≤ 0 ∨ J ≤ 0 then []
  else if passes v0 a0 v1 J d then
    let vm := velAfter v0 a0 J
    let d2 := sgn (v1 - vm)
    removeAcc a0 J d up :: (if d2 = 0 ∨ A2 ≤ 0 ∨ J2 ≤ 0 then [] else changePhases vm 0 v1 A2 J2 d2 up)
  else changePhases v0 a0 v1 A J d up

def change (v0 a0 v1 A J : Int) (up : Bool) : List Seg := changeWith v0 a0 v1 A J A J up

/-- Position and velocity after a list of segments, and the acceleration. -/
def chain : List Seg → Int → Int → Int → Int × Int × Int
  | [], p, v, a => (p, v, a)
  | g :: gs, p, v, a =>
    let x := closedAt p v a g.j g.dur
    chain gs x.1 x.2.1 (if g.zeroA then 0 else x.2.2)

/-- The ramps and limits of a profile, per period. -/
structure Limits where
  v : Int
  a : Int
  j : Int
  /-- D and J of the ramp sets 1 normal, 2 quick, 3 safety -/
  d1 : Int
  j1 : Int
  d2 : Int
  j2 : Int
  d3 : Int
  j3 : Int
  deriving DecidableEq, Repr

def Limits.ramp (l : Limits) (k : Nat) : Int × Int :=
  if k = 1 then (l.d1, l.j1) else if k = 2 then (l.d2, l.j2) else (l.d3, l.j3)

/-- The profile now issuing a plan, from its present state. -/
def startPlan (x : Profile) (segs : List Seg) (g : Goal) : Profile :=
  { x with p0 := x.p, v0 := x.v, a0 := x.a, segs := segs, tau := 0, goal := g, cutDir := 0 }

/-- Steps 1 and 3 of R97 for a peak speed k in direction d: distance, velocity reached, and their segments. -/
def trial (l : Limits) (v a d : Int) (k : Nat) : Int × Int × List Seg × List Seg :=
  let g1 := change v a (d * k) l.a l.j true
  let x1 := chain g1 0 v a
  let g3 := if k = 0 then [] else change (d * k) 0 0 l.a l.j true
  let x3 := chain g3 0 x1.2.1 0
  (d * (x1.1 + x3.1), x1.2.1, g1, g3)

/-- The largest peak speed up to top for which steps 1 and 3 of R97 cover no more than a distance. The distance grows with the peak speed above the velocity r that is left when the acceleration has been removed, and below it up to the first speed that goes too far. Durations are rounded up (R97), so that a last unit may be lost where a longer ramp covers a rounding more (log entry 72). -/
def peakSpeed (l : Limits) (v a d dist : Int) (top : Nat) : Nat :=
  let fits (k : Nat) : Bool := decide ((trial l v a d k).1 ≤ dist)
  let r := min top (d * velAfter v a l.j).toNat
  let n := Nat.log2 top + 1
  if fits top then top
  else if fits r then r + searchMax n (fun k => decide (r + k ≤ top) && fits (r + k)) 0
  else searchMax n (fun k => decide (k ≤ r) && fits k) 0

/-- The plan of R97 to target P from the present state, at speed at most v. With no speed at all the profile comes to rest and waits. -/
def planMove (l : Limits) (P : Int) (x : Profile) : Profile :=
  if l.v ≤ 0 then { startPlan x (change x.v x.a 0 l.a l.j false) (.replan P) with st := .moving, ramp := 0, vPlan := 0 }
  else
    let dist := P * 2 ^ 24 - x.p
    let d := if dist = 0 then (if x.v = 0 then (if x.a < 0 then -1 else 1) else sgn x.v) else sgn dist
    let top := l.v.toNat
    let k := peakSpeed l x.v x.a d |dist| top
    let (far, v1, g1, g3) := trial l x.v x.a d k
    let cruise : List Seg :=
      if far < |dist| ∧ 0 < d * v1 then [{ j := 0, dur := (roundTie ((|dist| - far) * 2 ^ 44) (d * v1)).toNat, zeroA := false }] else []
    { startPlan x (g1 ++ cruise ++ g3) (.at_ P) with st := .moving, ramp := 0, vPlan := l.v }

/-- The ramp set a stop uses: the next more severe with D and J nonzero; false when none is left (R104). -/
def rampSet (l : Limits) (k : Nat) : Nat × Bool :=
  let ok (r : Nat) : Bool := decide (0 < (l.ramp r).1) && decide (0 < (l.ramp r).2)
  if k ≤ 1 ∧ ok 1 then (1, true) else if k ≤ 2 ∧ ok 2 then (2, true) else (3, ok 3)

/-- The last whole period at which a velocity that only loses its deceleration keeps its sign (R106). -/
def cutPeriod (v a j : Int) (dur : Nat) : Nat :=
  let m := sgn v
  searchMax (Nat.log2 (dur / 2 ^ 20 + 1) + 1)
    (fun k => decide (k * 2 ^ 20 ≤ dur) && decide (0 ≤ m * (closedAt 0 v a j (k * 2 ^ 20)).2.1)) 0

/-- Where the profile would come to rest with deceleration D and jerk J (R98, R126), in 2^-24 pu. -/
def restPoint (D J : Int) (x : Profile) : Int :=
  let d := if x.v = 0 then -(sgn x.a) else -(sgn x.v)
  if d = 0 ∨ D ≤ 0 ∨ J ≤ 0 then x.p
  else if passes x.v x.a 0 J d then
    let g := removeAcc x.a J d false
    (closedAt x.p x.v x.a g.j (cutPeriod x.v x.a g.j g.dur * 2 ^ 20)).1
  else (chain (changePhases x.v x.a 0 D J d false) x.p x.v x.a).1

/-- What a stop ends in: 0 idle, 1 held, or a MOVE back to P (R98, R104). -/
def finishStop (l : Limits) (x : Profile) : Profile :=
  let y := { x with v := 0, a := 0, p0 := x.p, v0 := 0, a0 := 0, segs := [], tau := 0, cutDir := 0 }
  match x.goal with
  | .hold => { y with st := .held, ramp := 0, goal := .none }
  | .back P => planMove l P y
  | _ => { y with st := .idle, ramp := 0, goal := .none }

/-- A stop with ramp set k, from the present state, ending in g; true when the velocity had to be cut off (R104-R106). -/
def planStop (l : Limits) (k : Nat) (g : Goal) (x : Profile) : Profile × Bool :=
  let (r, ok) := rampSet l k
  let st := match g with
    | .back _ => ProfState.moving
    | _ => ProfState.stopping
  if !ok then
    let y := finishStop l { x with goal := g }
    ({ y with ramp := if y.st = .moving then y.ramp else 3 }, true)
  else
    let d := if x.v = 0 then -(sgn x.a) else -(sgn x.v)
    let (D, J) := l.ramp r
    if d = 0 then (finishStop l { x with goal := g }, false)
    else if passes x.v x.a 0 J d then
      ({ startPlan x [removeAcc x.a J d false] g with st := st, ramp := r, cutDir := -d }, false)
    else ({ startPlan x (changePhases x.v x.a 0 D J d false) g with st := st, ramp := r }, false)

/-- MOVE to P: the plan of R97, or a stop along the normal set and a MOVE back where P lies behind the rest point; true when it overshoots (R98). -/
def moveTo (l : Limits) (P : Int) (x : Profile) : Profile × Bool × Bool :=
  let d := if x.v = 0 then sgn x.a else sgn x.v
  if d * (P * 2 ^ 24 - restPoint l.a l.j x) < 0 then
    let (y, cut) := planStop l 1 (.back P) x
    (y, true, cut)
  else (planMove l P x, false, false)

/-- A CHANGE to a speed, clamped to the effective VLIM, then running on (R98); an excess over a cap is brought down with D and J (R100). -/
def planSpeed (l : Limits) (vt D J : Int) (x : Profile) : Profile :=
  let v1 := clampI (-l.v) l.v vt
  { startPlan x (changeWith x.v x.a v1 l.a l.j D J false) .cruise with st := .speed, ramp := 0, vPlan := l.v, vTgt := vt }

/-- A cap arrives, or is lower than at the boundary before (R100). -/
def capFalls (cap : Option Int) (x : Profile) : Bool :=
  match cap, x.cap with
  | some c, some b => decide (c < b)
  | some _, none => true
  | none, _ => false

/-- A running MOVE or SPEED, with the target of the MOVE. -/
def runsTo (x : Profile) : Option (Option Int) :=
  match x.goal with
  | .at_ P => if x.st = .moving then some (some P) else none
  | .replan P => if x.st = .moving then some (some P) else none
  | _ => if x.st = .speed then some none else none

/-- A running MOVE or SPEED faster than a cap that arrives or is lowered: it must be brought down with the D and J of ramp set k. With a D or J of 0 in that set it is planned again with ALIM and JLIM instead (DESIGN CHOICE, log entry 72). -/
def capSlows (l : Limits) (cap : Option Int) (k : Nat) (x : Profile) : Bool :=
  let (D, J) := l.ramp k
  capFalls cap x && (runsTo x).isSome && cap.any (fun c => decide (c < |x.v|)) && decide (0 < D) && decide (0 < J)

/-- What a cap that arrives or is lowered does to a running MOVE or SPEED: slowed with the D and J of ramp set k when it is faster, and then planned again; else planned again at once if it was planned with a higher speed (R100). The answer is as that of moveTo. The profile's own VLIM and vmax are no caps. -/
def capProfile (l : Limits) (cap : Option Int) (k : Nat) (x : Profile) : Profile × Bool × Bool :=
  let (D, J) := l.ramp k
  let y := { x with cap := cap }
  match cap, runsTo x with
  | some c, some tgt =>
    if capSlows l cap k x then
      let g := match tgt with
        | some P => Goal.replan P
        | none => .respeed
      ({ startPlan y (change x.v x.a (sgn x.v * c) D J false) g with vPlan := c }, false, false)
    else if capFalls cap x && decide (c < x.vPlan) then
      (match tgt with
       | some P => moveTo l P y
       | none => (planSpeed l x.vTgt (if 0 < D ∧ 0 < J then D else l.a) (if 0 < D ∧ 0 < J then J else l.j) y, false, false))
    else (y, false, false)
  | _, _ => (y, false, false)

/-- Passes the segments that have ended: what is left, the state at the start of the present one, and the time run in it. -/
def runSegs : List Seg → Int → Int → Int → Nat → List Seg × (Int × Int × Int) × Nat
  | [], p, v, a, t => ([], (p, v, a), t)
  | g :: gs, p, v, a, t =>
    if g.dur ≤ t then
      let x := closedAt p v a g.j g.dur
      runSegs gs x.1 x.2.1 (if g.zeroA then 0 else x.2.2) (t - g.dur)
    else (g :: gs, (p, v, a), t)

/-- The profile on its curve at its present time; none when its plan has ended. -/
def onCurve (x : Profile) : Profile × Option Nat :=
  let (segs, (p, v, a), t) := runSegs x.segs x.p0 x.v0 x.a0 x.tau
  let y := { x with segs := segs, p0 := p, v0 := v, a0 := a, tau := t }
  match segs with
  | g :: _ =>
    let z := closedAt p v a g.j t
    ({ y with p := z.1, v := z.2.1, a := z.2.2 }, none)
  | [] => ({ y with p := p, v := v, a := a }, some t)

/-- A plan that follows another within a period, t after the other ended. -/
def runOn (t : Nat) (x : Profile) : Profile :=
  match onCurve { x with tau := t } with
  | (y, some u) => if y.goal = .cruise then { y with p := y.p0 + roundTie (y.v0 * u) (2 ^ 44), a := 0 } else y
  | (y, none) => y

/-- A plan that ended t before the present time (R97, R98, R100, R104). A plan that follows it starts at its end. The answer is as that of moveTo. -/
def endPlan (l : Limits) (t : Nat) (y : Profile) : Profile × Bool × Bool :=
  match y.goal with
  | .none => ({ y with p := y.p0 + roundTie (y.v0 * t) (2 ^ 44), a := 0 }, false, false)
  | .cruise => ({ y with p := y.p0 + roundTie (y.v0 * t) (2 ^ 44), a := 0 }, false, false)
  | .at_ P =>
    ({ y with p := P * 2 ^ 24, v := 0, a := 0, p0 := P * 2 ^ 24, v0 := 0, a0 := 0, segs := [], tau := 0, st := .idle, ramp := 0, goal := .none }, false, false)
  | .replan P =>
    let (z, ovr, cut) := moveTo l P y
    (runOn t z, ovr, cut)
  | .respeed => (runOn t (planSpeed l y.vTgt l.a l.j y), false, false)
  | .back P => (runOn t (finishStop l { y with goal := .back P }), false, false)
  | _ => (finishStop l y, false, false)

/-- One period of a profile that runs a plan; the answer is as that of moveTo, the last part true also where the velocity is cut off (R106). -/
def stepPlan (l : Limits) (x : Profile) : Profile × Bool × Bool :=
  let (y, ended) := onCurve { x with tau := x.tau + 2 ^ 20 }
  if x.cutDir ≠ 0 ∧ y.v * x.cutDir < 0 then (finishStop l { y with p := x.p }, false, true)
  else
    match ended with
    | some t => endPlan l t y
    | none => (y, false, false)

/-- The position set-point of a profile, rounded to nearest with ties toward plus infinity (R90). -/
def setPoint (x : Profile) : Int := roundShift x.p 24

/-- One period: a plan is stepped; an idle, held or waiting profile holds its set-point; following moves at CI (R94, R101). The answer is as that of moveTo. -/
def stepProfile (l : Limits) (x : Profile) : Profile × Bool × Bool :=
  if x.st = .moving ∨ x.st = .speed ∨ x.st = .stopping then
    let (y, ovr, cut) := stepPlan l x
    ({ y with spPrev := x.sp, sp := setPoint y }, ovr, cut)
  else if x.st = .following then (x, false, false)
  else ({ x with v := 0, a := 0, spPrev := x.sp }, false, false)

/-- One period of following toward a reference in pu, by at most r (2^-24 pu) (R101). -/
def followStep (ref r : Int) (x : Profile) : Profile :=
  let d := ref * 2 ^ 24 - x.p
  let m := clampI (-r) r d
  let p := x.p + m
  { x with p := p, v := m * 2 ^ 24, a := 0, p0 := p, v0 := m * 2 ^ 24, a0 := 0, segs := [], tau := 0,
           clamped := decide (d ≠ m), spPrev := x.sp, sp := roundShift p 24 }

end Sys2Proof.Machine
end

