-- ==== Sys2Proof/Machine/Motion.lean ====
section
/-! DEFINITION. Motion profiles: limits and caps, commands, landings, stops demanded by other blocks, standstill and its stores, treatments, and handover weights (04 R89-R126). -/

namespace Sys2Proof.Machine

/-! ### Profiles and their registers -/

/-- The nominal rate of the mode in Hz (R91). -/
def fNom (s : State) : Int := if modeOf s = 1 then 16000 else if modeOf s = 2 then 64000 else 32000

def mpStat (o : Nat) : Nat := mpBase o + 2

/-- An axis is a segment axis (R89). -/
def isSegAxis (s : State) (a : Nat) : Bool := bitOf s (mpBase a) 19 && bitOf s (mpBase a) 15

/-- The object has a profile: an enabled axis that is no segment axis, or an enabled mover (R89). -/
def hasProfile (s : State) (o : Nat) : Bool :=
  bitOf s (mpBase o) 19 && (decide (256 ≤ o) || (!bitOf s (mpBase o) 15 && decide (o < axisCount s)))

/-- The objects with a profile, axes first. -/
def profiles (s : State) : List Nat := (List.range 288).filter (hasProfile s)

/-- The parameter axis of an object: itself, or the FIRST segment axis of a mover (R148). -/
def paramAxis (s : State) (o : Nat) : Nat := if o < 256 then o else fldOf s (mpBase o + 36) 15 8

/-- The UINT32 value in force of a HI and LO pair. -/
def u32 (s : State) (a : Nat) : Nat := pairN s a % 2 ^ 32

/-- A speed in pu/s in 2^-48 pu per period (R91). -/
def perV (s : State) (n : Int) : Int := roundTie (n * 2 ^ 48) (fNom s)
def perA (s : State) (n : Int) : Int := roundTie (n * 2 ^ 48) (fNom s * fNom s)
def perJ (s : State) (n : Int) : Int := roundTie (n * 2 ^ 48) (fNom s * fNom s * fNom s)

/-- vmax of an object per period (R99, R135). -/
def vmaxOf (s : State) (o : Nat) : Int := perV s (u32 s (0xF10004 + 256 * paramAxis s o))

/-- A fraction of vmax, in units of 2^-19. -/
def vmaxPart (s : State) (o frac : Nat) : Int := roundTie (frac * vmaxOf s o) (2 ^ 19)

/-- The cap of shed level L2 on every profile that is not a mover (R296, R301). -/
def capL2 (s : State) (o : Nat) : Option Int := if 2 ≤ effLevel s ∧ o < 256 then some (vmaxPart s o (fldOf s 0xF3800B 19 0)) else none

/-- The cap of Gatehouse in DEGRADED (R276). -/
def capDeg (s : State) (o : Nat) : Option Int := if s.sys.op = .degraded then some (vmaxPart s o (fldOf s 0xF34001 19 0)) else none

def ownVlim (s : State) (o : Nat) : Int := perV s (u32 s (mpBase o + 8))

/-- The lower of the caps in force on an object (R99). -/
def capOf (s : State) (o : Nat) : Option Int :=
  match capL2 s o, capDeg s o with
  | some c, some d => some (min c d)
  | some c, none => some c
  | none, d => d

/-- The effective VLIM: the lowest of VLIM, vmax and the caps in force (R99). -/
def effVlim (s : State) (o : Nat) : Int :=
  let v := min (ownVlim s o) (vmaxOf s o)
  match capOf s o with
  | some c => min v c
  | none => v

/-- The ramp set that brings a profile down to a cap: quick under a Gatehouse cap, else normal (R100). -/
def capRamp (s : State) (o : Nat) : Nat := if (capDeg s o).isSome then 2 else 1

def limitsOf (s : State) (o : Nat) : Limits :=
  let b := mpBase o
  { v := effVlim s o, a := perA s (u32 s (b + 10)), j := perJ s (u32 s (b + 12)),
    d1 := perA s (u32 s (b + 14)), j1 := perJ s (u32 s (b + 16)),
    d2 := perA s (u32 s (b + 18)), j2 := perJ s (u32 s (b + 20)),
    d3 := perA s (u32 s (b + 22)), j3 := perJ s (u32 s (b + 24)) }

/-- The actual position of an object in pu, as the servo engine last formed it. -/
def actPos (s : State) (o : Nat) : Int := roundShift (loopOf s o).x 12

/-- The stopping sign of JERK_CUT (R106). -/
def markCut (o : Nat) (cut : Bool) (s : State) : State := whenB cut (putBit (mpStat o) 8 true) s

/-- A profile that was planned or stepped, with its signs OVERSHOOT and JERK_CUT (R98, R106). -/
def putMoved (o : Nat) (r : Profile × Bool × Bool) (s : State) : State :=
  markCut o r.2.2 (whenB r.2.1 (putBit (mpStat o) 5 true) (setProf o r.1 s))

/-- The profile's own step of the period. -/
def stepObj (o : Nat) (s : State) : State := putMoved o (stepProfile (limitsOf s o) (profOf s o)) s

/-! ### Handover weights -/

/-- The upper boundary zone of segment axis a: start and end, where it has one (R114). -/
def zoneOf (s : State) (a : Nat) : Option (Int × Int × Nat) :=
  let t := fldOf s (mpBase a + 36) 15 8
  if 192 ≤ t then none
  else
    let z := pairI s (mpBase a + 38)
    let n := fldOf s (mpBase a + 40) 19 0
    some (z, z + n, t)

/-- The weight of the upper segment in a zone (R115). -/
def weightUp (s : State) (x z : Int) (len t : Nat) : Nat :=
  let u : Nat := ((x - z) * 63 * 2 ^ 19 / len).toNat
  let k : Nat := u / 2 ^ 19
  let phi : Nat := u % 2 ^ 19
  let w (i : Nat) : Int := (mapGet 0 s.mo.blend (64 * t + i)).toNat
  (w k + roundTie ((w (k + 1) - w k) * phi) (2 ^ 19)).toNat

/-- The weights of the segments a, a + 1, ... under position x, n of them left (R115). -/
def weightsFrom (s : State) (x : Int) : Nat → Nat → List (Nat × Nat)
  | 0, a => [(a, 0x80000)]
  | n + 1, a =>
    match zoneOf s a with
    | none => [(a, 0x80000)]
    | some (z0, z1, t) =>
      if x < z0 then [(a, 0x80000)]
      else if z1 ≤ x then weightsFrom s x n (a + 1)
      else
        let up := weightUp s x z0 (z1 - z0).toNat t
        [(a, 0x80000 - up), (a + 1, up)].filter fun w => w.2 != 0

/-- The weights of mover m at a position. -/
def moverWeights (s : State) (m : Nat) (x : Int) : List (Nat × Nat) :=
  let f := fldOf s (mpBase (256 + m) + 36) 15 8
  let l := fldOf s (mpBase (256 + m) + 36) 7 0
  weightsFrom s x (l - f) f

/-- The movers with a profile. -/
def movers (s : State) : List Nat := (List.range 32).filter fun m => hasProfile s (256 + m)

/-- The movers with a nonzero weight on segment axis a, with their weights, of the period. -/
def carried (s : State) (a : Nat) : List (Nat × Nat) :=
  s.mo.weights.filterMap fun w => if w.2.1 = a ∧ w.2.2 ≠ 0 then some (w.1, w.2.2) else none

/-- The segment axes under mover m in the period, with their weights. -/
def under (s : State) (m : Nat) : List (Nat × Nat) :=
  s.mo.weights.filterMap fun w => if w.1 = m then some (w.2.1, w.2.2) else none

/-- The weights of the period are indexed by the set-points issued in it (R116); before its first set-point, by the mover's last actual position (R93). -/
def setWeights (s : State) : State :=
  let at_ (m : Nat) : Int := if (profOf s (256 + m)).fresh then actPos s (256 + m) else (profOf s (256 + m)).sp
  let ws := (movers s).flatMap fun m => (moverWeights s m (at_ m)).map fun w => (m, w.1, w.2)
  { s with mo := { s.mo with weights := ws } }

/-- The set-point of mover m lies inside its travel limits, which bound the coverage of its segments where MV_PMAX exceeds MV_PMIN (R119; DEDUCED, log entry 41). -/
def coveredAt (s : State) (m : Nat) (x : Int) : Bool :=
  let lo := pairI s (mpBase (256 + m) + 42)
  let hi := pairI s (mpBase (256 + m) + 44)
  if hi ≤ lo then true else decide (lo ≤ x) && decide (x ≤ hi)

/-! ### Stops -/

/-- A stop has taken effect in the profile of an object: a test signal aimed at it ends (R157). -/
def noteStopped (o : Nat) (s : State) : State :=
  if s.mo.stopped.contains o then s else { s with mo := { s.mo with stopped := s.mo.stopped ++ [o] } }

/-- A stop of an object along ramp set k that ends idle or held; forced stops and commands share it (R104). A stop never waits (R113). -/
def stopObj (o k : Nat) (hold : Bool) (s0 : State) : State :=
  let x := profOf s0 o
  let l := limitsOf s0 o
  if x.st = .held then s0
  else
    let s := noteStopped o s0
    let r := (rampSet l k).1
    if x.st = .stopping ∧ r ≤ x.ramp then
      (if hold ∧ x.goal = .rest then setProf o { x with goal := .hold } s else s)
    else
      let (y, cut) := planStop l k (if hold then .hold else .rest) { x with waitCmd := 0, clamped := false }
      markCut o cut (setProf o y s)

/-- The object a test-signal generator aims at (R155). -/
def objOfGen (s : State) (g : Nat) : Nat :=
  let c := inForce s (0xF100F0 + 8 * g)
  if bit c 19 then 256 + fld c 15 11 else fld c 18 11

/-- Safe stop 1 of a group: every profile of an object in it stops along its safety ramp set and ends held (R262). -/
def safetyStops (g : Fin 4) (s : State) : State :=
  forEach ((profiles s).filter fun o => objGroup s o == g) (fun o s => stopObj o 3 true s) s

/-- In STO the profiles of the group are held, and their set-points follow the actual positions (R263). -/
def heldAtActual (o : Nat) (s0 : State) : State :=
  let x := profOf s0 o
  let p := actPos s0 o
  let s := if x.st = .held then s0 else noteStopped o s0
  setProf o { x with st := .held, ramp := 0, goal := .none, segs := [], tau := 0, cutDir := 0, waitCmd := 0, clamped := false,
                     p := p * 2 ^ 24, v := 0, a := 0, p0 := p * 2 ^ 24, v0 := 0, a0 := 0, spPrev := x.sp, sp := p } s

/-! ### Standstill -/

/-- At standstill: for a segment axis, every mover with a nonzero weight on it is (R107). -/
def isStill (s : State) (o : Nat) : Bool :=
  if o < 256 ∧ isSegAxis s o then (carried s o).all fun w => bitOf s (mpStat (256 + w.1)) 14 else bitOf s (mpStat o) 14

/-- The actual velocity does not exceed STILL_V, in 1/16 pu per period (R107). -/
def slowEnough (s : State) (o : Nat) : Bool :=
  let l := loopOf s o
  decide (|l.x - l.x1| ≤ (fldOf s (mpBase o + 3) 19 8 : Int) * 256)

/-- The standstill conditions hold now: for a segment axis, it is at standstill with its movers (R107). -/
def stillNow (s : State) (o : Nat) : Bool :=
  if o < 256 ∧ isSegAxis s o then isStill s o
  else
    let x := profOf s o
    x.sp == x.spPrev && slowEnough s o

/-- Objects that can be at standstill: profiles and segment axes. -/
def stillObjects (s : State) : List Nat := (List.range 288).filter fun o => hasProfile s o || (decide (o < 256) && isSegAxis s o)

/-- Entry into standstill: STILL is set and, with STORE = 1, a store is queued (R107, R108). -/
def standstillIn (o : Nat) (s : State) : State :=
  if bitOf s (mpBase o) 19 && !bitOf s (mpStat o) 14 && stillNow s o then
    let s1 := putBit (mpStat o) 14 true s
    if bitOf s1 (mpBase o) 18 then { s1 with mo := { s1.mo with stores := s1.mo.stores ++ [⟨o, none⟩] } } else s1
  else s

/-- The ring of an object in MRAM (R108). -/
def ringBase (o : Nat) : Nat := if o < 256 then 0x40000 + 0x200 * o else 0x60000 + 0x200 * (o - 256)

/-- The first five words and the treatment word of a slot (R108). -/
def slotWords (seq : Nat) (pos : Int) (angle : Word) (treat : Nat) : List Word :=
  [word (seq / 2 ^ 20 % 2 ^ 12), word seq, word (wrapN 40 pos / 2 ^ 20), word (wrapN 40 pos), angle, word (treat * 2 ^ 18)]

/-- Leaving standstill: STILL clears, and word 6 of the newest slot becomes FFFFFh (R107, R108). -/
def standstillOut (o : Nat) (s : State) : State :=
  let s1 := putBit (mpStat o) 14 false s
  match lookupNat s.mo.ring o with
  | some (_, next) => mramSet (ringBase o + 8 * ((next + 63) % 64) + 6) 0xFFFFF s1
  | none => s1

/-- A segment axis enters and leaves standstill with its movers; it can be stored once the engine has formed its position (R107, R108). -/
def segmentCheck (a : Nat) (s : State) : State :=
  if isStill s a then (if (loopOf s a).age = 0 then s else standstillIn a s)
  else if bitOf s (mpStat a) 14 then standstillOut a s
  else s

def segmentChecks (s : State) : State := forEach ((List.range (axisCount s)).filter (isSegAxis s)) segmentCheck s

/-- Standstill of every profile that no longer meets its conditions ends; the segment axes follow in the same period (R107). -/
def standstillChecks (s : State) : State :=
  segmentChecks (forEach ((profiles s).filter fun o => bitOf s (mpStat o) 14 && !stillNow s o) standstillOut s)

/-- Writes the next slot of an object's ring (R108). -/
def writeSlot (o : Nat) (angle : Word) (s : State) : State :=
  let (seq, slot) := (lookupNat s.mo.ring o).getD (0, 0)
  let seq' := (seq + 1) % 2 ^ 32
  let ws := slotWords seq' (actPos s o) angle (if o < 256 then mapGet 0 s.mo.treat o else 0)
  let s1 := mramPutAll (ringBase o + 8 * slot) (ws ++ [0, word (crc16 (wordBits ws))]) s
  pcSys 0x5D 8 { s1 with mo := { s1.mo with ring := mapPut (0, 0) s1.mo.ring o (seq', (slot + 1) % 64) } }

/-- A queued store leaves the queue and is written; one that does not verify sets STORE_ERR (R108, R109). -/
def takeStore (x : StillStore) (angle : Word) (ok : Bool) (s : State) : State :=
  let s1 := { s with mo := { s.mo with stores := s.mo.stores.erase x } }
  if ok then writeSlot x.obj angle s1 else raiseEvent 102 (putBit (mpStat x.obj) 12 true s1)

/-- A queued store is written once its angle has arrived; a mover has none (R108, R109). -/
def standstillStore (o : Nat) (ok : Bool) (s : State) : State :=
  match s.mo.stores.find? fun x => x.obj == o && (decide (256 ≤ o) || x.angle.isSome) with
  | none => s
  | some x => takeStore x (if o < 256 then x.angle.getD 0 else 0) ok s

/-- A store still queued at L5 is written at once; an angle that has not arrived is a free value (R109; DESIGN CHOICE, log entry 58). -/
def flushStore (x : StillStore) (s : State) : State :=
  if x.obj < 256 ∧ x.angle = none then
    let (v, s1) := freeNat s
    takeStore x (word v) true s1
  else takeStore x (if x.obj < 256 then x.angle.getD 0 else 0) true s

def execStandstillStore (o : Fin 288) (ok : Bool) (s : State) : Host.Outcome State Fault Refusal :=
  .next (standstillStore o.val ok s)

/-- The newest valid slot of a ring at BOOT: its SEQ and number (R109, R508). -/
def newestSlot (s : State) (o : Nat) : Option (Nat × Nat) :=
  if !(s.mem.mram.any fun e => decide (ringBase o ≤ e.1) && decide (e.1 < ringBase o + 512)) then none
  else
    (List.range 64).foldl (fun best i =>
      let b := ringBase o + 8 * i
      let ws := mramGetAll s b 6
      let seq := fld (mramGet s b) 11 0 * 2 ^ 20 + (mramGet s (b + 1)).toNat
      if crc16 (wordBits ws) = fld (mramGet s (b + 7)) 15 0 then
        match best with
        | none => some (seq, i)
        | some (q, j) => if serialNewer 32 seq q then some (seq, i) else some (q, j)
      else best) none

/-- BOOT takes the newest slot of each object; unmoved since, it restores position and angle (R109). -/
def restoreStandstill (s : State) : State :=
  upTo 288 (fun o s =>
    match newestSlot s o with
    | none => s
    | some (seq, i) =>
      let b := ringBase o + 8 * i
      let s1 := { s with mo := { s.mo with ring := mapPut (0, 0) s.mo.ring o (seq, (i + 1) % 64) } }
      if mramGet s (b + 6) = 0 then
        let p := sext 40 ((mramGet s (b + 2)).toNat * 2 ^ 20 + (mramGet s (b + 3)).toNat)
        let s2 := putBit (mpStat o) 13 true (setLoop o { loopOf s1 o with x := p * 4096 } s1)
        { s2 with lk := { s2.lk with angles := if o < 256 then mapPut 0 s2.lk.angles o (mramGet s (b + 4)) else s2.lk.angles } }
      else s1) s

/-! ### Standstill treatment -/

/-- The first eight axes with BCRIT (R17, R124). -/
def bcritAxes (s : State) : List Nat := ((List.range (axisCount s)).filter fun a => bitOf s (mpBase a) 19 && bitOf s (mpBase a) 17).take 8

/-- A segment axis gets no treatment: some segment axis under one of its movers is not brake-critical (R111). -/
def treatBlocked (s : State) (a : Nat) : Bool :=
  (carried s a).any fun w => (under s w.1).any fun u => u.2 != 0 && !(bcritAxes s).contains u.1

/-- The segment axes a mover touches between two positions, with every overlap zone it reaches (R113). -/
def travelAxes (s : State) (o : Nat) (p q : Int) : List Nat :=
  if o < 256 then [o]
  else
    let f := fldOf s (mpBase o + 36) 15 8
    let l := fldOf s (mpBase o + 36) 7 0
    (List.range (l + 1 - f)).filterMap fun i =>
      let a := f + i
      let low : Bool := if a = f then true else match zoneOf s (a - 1) with
        | some (z0, _, _) => decide (z0 ≤ max p q)
        | none => false
      let high : Bool := match zoneOf s a with
        | some (_, z1, _) => decide (min p q < z1)
        | none => true
      if low && high then some a else none

/-- Where the plan that a profile runs takes it: the end of its segments, and the target it then makes for. -/
def planEnds (x : Profile) : List Int :=
  let e := roundShift (chain x.segs x.p0 x.v0 x.a0).1 24
  match x.goal with
  | .at_ P => [e, P]
  | .back P => [e, P]
  | .replan P => [e, P]
  | _ => [e]

/-- The axes that the running or waiting travel of a mover still crosses: they get no treatment (R113). A mover waiting for its withdrawal to be confirmed counts with the target given. -/
def crossedBy (s : State) (o : Nat) (target : State → Nat → Int) : List Nat :=
  let x := profOf s o
  if x.st = .waiting then travelAxes s o x.sp (target s o)
  else if 256 ≤ o ∧ (x.st = .moving ∨ x.st = .stopping) then
    let ends := planEnds x
    travelAxes s o (ends.foldl min x.sp) (ends.foldl max x.sp)
  else []

/-- The treatment an axis returns as applied, of the last uplink (R112, R196). -/
def treatApplied (s : State) (a : Nat) : Nat := (axisUpl s a).astat / 1024

/-- The uplink returned a treatment: two mismatches in a row, from the second cycle after a change, are a fault (R112, R266 32h). -/
def treatReturned (a ret : Nat) (s : State) : State :=
  if !(bcritAxes s).contains a then s
  else
    let cmd := mapGet 0 s.mo.treat a
    let n := mapGet 0 s.mo.treatBad a
    let put (v : Nat) (s : State) : State := { s with mo := { s.mo with treatBad := mapPut 0 s.mo.treatBad a v } }
    if 12 ≤ n then put 11 s
    else if n = 11 then put 0 s
    else if ret = cmd then put 0 s
    else if n = 2 then s
    else if n = 1 then ghFault 0x32 a (.sto (2 ^ (axisGroup s a).val)) (putBit (mpStat a) 10 true (put 2 s))
    else put 1 s

/-! ### Commands -/

/-- A refused command (R94). -/
def mpRefuse (o : Nat) (s : State) : State := putBit (mpStat o) 6 true s

/-- Motion commands may act: the part runs, is not in DEGRADED, and the profile has its position (R94, R276; DEDUCED, log entry 42). -/
def mayMove (s : State) (o : Nat) : Bool :=
  (s.sys.op == .runActive || s.sys.op == .runStandby) && hasProfile s o && !(profOf s o).fresh

/-- VLIM, ALIM and JLIM are nonzero; so is the effective VLIM (R94). -/
def limitsOk (s : State) (o : Nat) : Bool :=
  u32 s (mpBase o + 8) != 0 && u32 s (mpBase o + 10) != 0 && u32 s (mpBase o + 12) != 0 && decide (0 < effVlim s o)

/-- Applies a planning function to a profile, with its flags: OVERSHOOT and JERK_CUT. -/
def doMove (o : Nat) (P : Int) (s : State) : State :=
  let x := profOf s o
  putMoved o (moveTo (limitsOf s o) P { x with waitCmd := 0, clamped := false }) s

def doSpeed (o : Nat) (s : State) : State :=
  let l := limitsOf s o
  let vt := perV s (sext 32 (u32 s (mpBase o + 6)))
  setProf o (planSpeed l vt l.a l.j { profOf s o with waitCmd := 0, clamped := false }) s

/-- The reference input of a FOLLOW profile at the last CI, with 12 fraction bits (R101). -/
def followInput (s : State) (o : Nat) : Int :=
  let c := inForce s (mpBase o + 28)
  let k := fld c 17 14
  if fld c 19 18 = 1 then (cyFb s k).1 * 4096 + (cyFb s k).2.2 else cySdm s k * 4096

/-- FOLLOW takes effect: x0 is the input now; with REL the offset becomes the set-point in force (R101). -/
def doFollow (o : Nat) (s : State) : State :=
  let x := profOf s o
  let s1 := if bitOf s (mpBase o + 28) 13 then putPair (mpBase o + 32) (wrapN 40 x.sp) s else s
  setProf o { x with st := .following, ramp := 0, goal := .none, segs := [], tau := 0, cutDir := 0, waitCmd := 0, vPlan := 0,
                     x0 := followInput s o, offs := pairI s1 (mpBase o + 32) } s1

/-- The reference of a FOLLOW profile: the offset and the scaled motion of its input (R101). -/
def followRef (s : State) (o : Nat) : Int :=
  let x := profOf s o
  pairI s (mpBase o + 32) + roundTie (pairI s (mpBase o + 30) * (followInput s o - x.x0)) (2 ^ 32)

/-- The enabled landings of a mover's group, as positions (R126). -/
def landingsOf (s : State) (o : Nat) : List Int :=
  (List.range 64).filterMap fun k =>
    let a := 0xF0F800 + 4 * k
    if bitOf s a 19 && fldOf s a 18 15 == fldOf s (mpBase o + 36) 19 16 then some (pairI s (a + 2)) else none

/-- The element of a list that a key makes least, ties to the lower element. -/
def leastBy (key : Int → Int) : List Int → Option Int
  | [] => none
  | x :: xs =>
    match leastBy key xs with
    | none => some x
    | some y => if key x < key y ∨ (key x = key y ∧ x < y) then some x else some y

/-- The landing LANDING chooses (R126). -/
def landingFor (s : State) (o : Nat) : Option Int :=
  let x := profOf s o
  let ls := landingsOf s o
  let d := if x.v = 0 then sgn x.a else sgn x.v
  if d = 0 then leastBy (fun p => |p * 2 ^ 24 - x.p|) ls
  else
    let l := limitsOf s o
    let r := restPoint l.d1 l.j1 x
    match leastBy (fun p => d * p) (ls.filter fun p => decide (0 ≤ d * (p * 2 ^ 24 - r))) with
    | some p => some p
    | none => leastBy (fun p => |p * 2 ^ 24 - r|) ls

/-- A LANDING that finds no enabled landing acts as a STOP normal, or leaves a more severe stop running (R126). -/
def noLanding (o : Nat) (s : State) : State := putBit 0xF0FA10 17 true (stopObj o 1 false s)

/-- What a waiting or accepted motion command does: 1 MOVE, 2 SPEED, 3 FOLLOW, 6 LANDING (R94). -/
def doCommand (o code : Nat) (s : State) : State :=
  if code = 1 then doMove o (pairI s (mpBase o + 4)) s
  else if code = 2 then doSpeed o s
  else if code = 3 then doFollow o s
  else if code = 6 then
    match landingFor s o with
    | some P => doMove o P s
    | none => noLanding o s
  else s

/-- Where a command takes the object, for the treatments it crosses. -/
def commandTarget (s : State) (o code : Nat) : Int :=
  if code = 1 then pairI s (mpBase o + 4)
  else if code = 6 then (landingFor s o).getD (profOf s o).sp
  else (profOf s o).sp

/-- The axes whose treatment a command of an object must see withdrawn (R113). -/
def commandAxes (s : State) (o code : Nat) : List Nat := travelAxes s o (profOf s o).sp (commandTarget s o code)

/-- The treatment commanded of an axis: 0 none, 1 free, 2 shorted (R110, R111, R113). -/
def treatWanted (s : State) (a : Nat) : Nat :=
  let crossed := (profiles s).any fun o => (crossedBy s o fun s o => commandTarget s o (profOf s o).waitCmd).contains a
  if (bcritAxes s).contains a && isStill s a && !treatBlocked s a && !crossed then (if bitOf s (mpBase a) 16 then 2 else 1) else 0

/-- The treatments of the cycle, those of axes no longer brake-critical withdrawn; a change starts the two cycles in which the drive may still differ (R112). -/
def setTreatments (s : State) : State :=
  forEach ((bcritAxes s ++ s.mo.treat.map (·.1)).eraseDups) (fun a s =>
    let w := treatWanted s a
    if mapGet 0 s.mo.treat a = w then s
    else { s with mo := { s.mo with treat := mapPut 0 s.mo.treat a w, treatBad := mapPut 0 s.mo.treatBad a 12 } }) s

/-- A motion command: where a treatment is in force on an axis of its travel, it is withdrawn and the profile waits (R113). -/
def runCommand (o code : Nat) (s : State) : State :=
  let axes := (commandAxes s o code).filter fun a => mapGet 0 s.mo.treat a != 0
  if axes.isEmpty then doCommand o code s
  else
    let s1 := forEach axes (fun a s => { s with mo := { s.mo with treat := mapPut 0 s.mo.treat a 0, treatBad := mapPut 0 s.mo.treatBad a 12 } }) s
    setProf o { profOf s1 o with st := .waiting, waitCmd := code, v := 0, a := 0 } s1

/-- Every axis of a waiting command reports no treatment: its profile starts, with the set-point of this period (R113). -/
def confirmWait (o : Nat) (s : State) : State :=
  let x := profOf s o
  if x.st = .waiting ∧ (commandAxes s o x.waitCmd).all (fun a => mapGet 0 s.mo.treat a == 0 && treatApplied s a == 0) then
    stepObj o (doCommand o x.waitCmd (setProf o { x with st := .idle, waitCmd := 0 } s))
  else s

/-- No confirmation in time: the command is dropped (R113). -/
def withdrawalTimeout (o : Nat) (s : State) : State :=
  let x := profOf s o
  if x.st = .waiting then putBit (mpStat o) 10 true (mpRefuse o (setProf o { x with st := .idle, waitCmd := 0 } s)) else s

def execTreatmentWithdrawalTimeout (o : Fin 288) (s : State) : Host.Outcome State Fault Refusal := .next (withdrawalTimeout o.val s)

/-- MOVE at a boundary (R94, R97, R98). -/
def moveCmd (o : Nat) (s : State) : State :=
  let x := profOf s o
  let P := pairI s (mpBase o + 4)
  let outside := decide (256 ≤ o) && (decide (P < pairI s (mpBase o + 42)) || decide (pairI s (mpBase o + 44) < P))
  let inhibited := decide (256 ≤ o) && decide (2 ≤ effLevel s) && x.st == .idle
  if mayMove s o && (x.st == .idle || x.st == .moving || x.st == .speed || x.st == .following) && !outside && !inhibited && limitsOk s o then
    runCommand o 1 s
  else mpRefuse o s

def execMove (o : Fin 288) (s : State) : Host.Outcome State Fault Refusal := .next (moveCmd o.val s)

/-- SPEED at a boundary; refused for a mover (R94, R98). -/
def speedCmd (o : Nat) (s : State) : State :=
  let x := profOf s o
  if mayMove s o && decide (o < 256) && (x.st == .idle || x.st == .moving || x.st == .speed || x.st == .following) && limitsOk s o then
    runCommand o 2 s
  else mpRefuse o s

def execSpeed (o : Fin 288) (s : State) : Host.Outcome State Fault Refusal := .next (speedCmd o.val s)

/-- FOLLOW at a boundary (R94, R101). -/
def followCmd (o : Nat) (s : State) : State :=
  let x := profOf s o
  let k := fldOf s (mpBase o + 28) 19 18
  if mayMove s o && (x.st == .idle || x.st == .speed) && (k == 1 || k == 2) && u32 s (mpBase o + 34) != 0 then runCommand o 3 s
  else mpRefuse o s

def execFollow (o : Fin 288) (s : State) : Host.Outcome State Fault Refusal := .next (followCmd o.val s)

/-- STOP normal (1) or quick (2) at a boundary; refused while held (R94, R104). -/
def stopCmd (o k : Nat) (s : State) : State :=
  if hasProfile s o && (profOf s o).st != .held then stopObj o k false s else mpRefuse o s

def execStopNormal (o : Fin 288) (s : State) : Host.Outcome State Fault Refusal := .next (stopCmd o.val 1 s)
def execStopQuick (o : Fin 288) (s : State) : Host.Outcome State Fault Refusal := .next (stopCmd o.val 2 s)

/-- What an accepted LANDING does: without an enabled landing a stop, which never waits; during a quick or safety stop, or one that ends held, nothing (R113, R126). -/
def landObj (o : Nat) (s : State) : State :=
  let x := profOf s o
  if landingFor s o = none then noLanding o s
  else if x.st = .stopping ∧ (x.ramp ≠ 1 ∨ x.goal = .hold) then s else runCommand o 6 s

/-- LANDING at a boundary (R94, R126). -/
def landingCmd (o : Nat) (s : State) : State :=
  let x := profOf s o
  if mayMove s o && decide (256 ≤ o) && (x.st == .idle || x.st == .moving || x.st == .stopping) && limitsOk s o then landObj o s
  else mpRefuse o s

def execLanding (o : Fin 288) (s : State) : Host.Outcome State Fault Refusal := .next (landingCmd o.val s)

/-- ACK takes a held profile back to idle (R94, R104). -/
def ackCmd (o : Nat) (s : State) : State :=
  let x := profOf s o
  if hasProfile s o && x.st == .held then setProf o { x with st := .idle, ramp := 0, goal := .none } s else mpRefuse o s

def execAck (o : Fin 288) (s : State) : Host.Outcome State Fault Refusal := .next (ackCmd o.val s)

/-- The command field of MP_CMD, as it takes effect at a boundary (R94). -/
def mpCommand (o code : Nat) (s : State) : State :=
  if code = 1 then moveCmd o s
  else if code = 2 then speedCmd o s
  else if code = 3 then followCmd o s
  else if code = 4 then stopCmd o 1 s
  else if code = 5 then stopCmd o 2 s
  else if code = 6 then landingCmd o s
  else if code = 7 then ackCmd o s
  else mpRefuse o s

/-! ### Actions of other blocks at a boundary -/

/-- A mover is neither held nor idle within GH_DEG_LTOL of an enabled landing (R276, R301). -/
def needsLanding (s : State) (o : Nat) : Bool :=
  let x := profOf s o
  let near := (landingsOf s o).any fun p => decide (|p - x.sp| ≤ (fldOf s 0xF34002 19 0 : Int))
  x.st != .held && !(x.st == .idle && near)

/-- Gatehouse's or Pumphouse's LANDING: it needs limits to plan with, and never sets REFUSED (R94, R126). -/
def forcedLanding (o : Nat) (s : State) : State :=
  if needsLanding s o then
    (if landingFor s o = none then noLanding o s else if limitsOk s o then landObj o s else stopObj o 1 false s)
  else s

/-- Degraded operation and shed level L3 alike: LANDING to movers, STOP normal to other profiles (R276, R301). -/
def landAll (s : State) : State :=
  forEach (profiles s) (fun o s =>
    if 256 ≤ o then forcedLanding o s
    else if (profOf s o).st = .idle ∨ (profOf s o).st = .held then s
    else stopObj o 1 false s) s

/-- The source of a FOLLOW profile has failed, as the cycle inputs show it: a fault event since the CI before, or a fault that stands (R102, R232; DEDUCED, log entry 72). -/
def followFault (s : State) (o : Nat) : Bool :=
  let c := inForce s (mpBase o + 28)
  let k := fld c 17 14
  if fld c 19 18 = 1 then cyFault s k else cySdmFault s k

/-- A profile whose reference has failed stops along the quick ramp set and ends held (R102, R104). -/
def followFaults (s : State) : State :=
  forEach ((profiles s).filter fun o => (profOf s o).st == .following && followFault s o)
    (fun o s => stopObj o 2 true (putBit (mpStat o) 4 true s)) s

/-- A cap of R99 brings the object's speed down at this boundary (R100, R126). -/
def capForces (s : State) (o : Nat) : Bool := capSlows (limitsOf s o) (capOf s o) (capRamp s o) (profOf s o)

/-- Caps of R99 that arrived or were lowered (R100). FOLLOW is not capped (R301). -/
def applyCaps (s : State) : State :=
  forEach (profiles s) (fun o s => putMoved o (capProfile (limitsOf s o) (capOf s o) (capRamp s o) (profOf s o)) s) s

/-- One period of every profile (R90, R94); objects of groups in STO are held at their actual positions (R263). -/
def stepProfiles (s : State) : State :=
  setWeights (forEach (profiles s) (fun o s =>
    if s.gh.grp[objGroup s o].cond = .sto then heldAtActual o s else stepObj o s) s)

/-- Following profiles take their reference at CI (R101). -/
def followAll (s : State) : State :=
  setWeights (forEach ((profiles s).filter fun o => (profOf s o).st == .following) (fun o s =>
    let r := roundTie (perV s (u32 s (mpBase o + 34))) (2 ^ 24)
    setProf o (followStep (followRef s o) r (profOf s o)) s) s)

/-- Every profile starts at rest at the actual position of its first CI (R93). -/
def freshProfiles (s : State) : State := forEach (profiles s) (fun o s => setProf o { Profile.reset with fresh := true } s) s

/-- A fresh profile takes the actual position (R93). -/
def startAt (o : Nat) (p : Int) (s : State) : State :=
  let x := profOf s o
  if x.fresh then
    setProf o { Profile.reset with st := (if x.st = .held then .held else .idle), fresh := false, p := p * 2 ^ 24, p0 := p * 2 ^ 24, sp := p, spPrev := p } s
  else s

/-- The handover faults of the period (R119): two movers on a plain segment axis or without a valid partner, three on any, or a set-point outside the coverage. -/
def handoverBad (s : State) (m : Nat) : Bool :=
  !coveredAt s m (profOf s (256 + m)).sp ||
  (under s m).any fun u =>
    let n := (carried s u.1).length
    decide (3 ≤ n) || (n == 2 && !bitOf s (mpBase u.1) 14)

/-- HO_FLT and a quick stop that ends held (R119, R104). -/
def handoverFault (m : Nat) (s : State) : State := stopObj (256 + m) 2 true (putBit (mpStat (256 + m)) 0 true s)

/-! ### Configuration -/

/-- The segment axes f to l of a mover are all carried on one link channel (R15, R16). -/
def oneChannel (s : State) (f l : Nat) : Bool := [0, 1].any fun c => carriesAxis s c f && carriesAxis s c l

/-- The rules of R114 for mover m: its segment axes are consecutive, in its group and on one link channel, and their zones do not overlap. -/
def moverCfgOk (s : State) (m : Nat) : Bool :=
  let c := inForce s (mpBase (256 + m) + 36)
  let f := fld c 15 8
  let l := fld c 7 0
  decide (f ≤ l) && decide (l < axisCount s) && oneChannel s f l &&
  (List.range (l + 1 - f)).all fun i =>
    let a := f + i
    let seg := isSegAxis s a && fldOf s (mpBase a + 36) 19 16 == fld c 19 16
    let zone := if a = l then true else match zoneOf s a with
      | none => false
      | some (z0, z1, _) => decide (z0 + 64 ≤ z1) && (if a + 1 = l then true else match zoneOf s (a + 1) with
        | some (y0, _, _) => decide (z1 ≤ y0)
        | none => true)
    seg && zone

/-- A staged blend table may be committed (R125). -/
def tableOk (s : State) (t : Nat) : Bool :=
  let w (i : Nat) : Nat := (regGet s (0xF0C000 + 64 * t + i)).toNat
  w 0 == 0 && w 63 == 0x80000 && (List.range 64).all fun i => decide (w i ≤ 0x80000)

/-- The words of a blend table go back to those committed (R13, R125). -/
def restoreTable (t : Nat) (s : State) : State :=
  upTo 64 (fun i s => regSet (0xF0C000 + 64 * t + i) (mapGet 0 s.mo.blend (64 * t + i)) s) s

/-- Commits a blend table at a boundary, or refuses it (R125). -/
def commitTable (t : Nat) (s : State) : State :=
  if tableOk s t then
    { s with mo := { s.mo with blend := (List.range 64).foldl (fun b i => mapPut 0 b (64 * t + i) (regGet s (0xF0C000 + 64 * t + i))) s.mo.blend } }
  else putBit 0xF0FA10 18 true (restoreTable t s)

/-- A taken write of W[63] asks for the commit at the next boundary (R125). -/
def askTable (t : Nat) (s : State) : State :=
  if s.mo.blendPend.contains t then s else { s with mo := { s.mo with blendPend := s.mo.blendPend ++ [t] } }

def stNum : ProfState → Nat
  | .idle => 0 | .moving => 1 | .speed => 2 | .following => 3 | .stopping => 4 | .held => 5 | .waiting => 6

/-- MP_STAT as read: STATE, RAMP, STILL, TREAT_ON, TREAT_BLK, LIMITED and TWO_MOVERS are live (R107, R111, R112, R124). -/
def mpStatWord (s : State) (o : Nat) : Word :=
  let x := profOf s o
  let w := setFld (setFld (regGet s (mpStat o)) 19 17 (stNum x.st)) 16 15 x.ramp
  let lim := x.clamped || (hasProfile s o && (capOf s o).any fun c => decide (c < ownVlim s o))
  let seg := decide (o < 256) && isSegAxis s o
  let w1 := setBit (setBit w 14 (isStill s o)) 11 ((bcritAxes s).contains o && treatApplied s o == mapGet 0 s.mo.treat o)
  setBit (setBit (setBit w1 9 (seg && treatBlocked s o)) 7 lim) 1 (decide (o < 256) && decide (2 ≤ (carried s o).length))

end Sys2Proof.Machine
end

