-- ==== Sys2Proof/Machine/Standstill.lean ====
section
/-! DEFINITION. What standstill brings about in safe-off groups and at shed level L4 (04 R107, 09 R262, 10 R302). -/

namespace Sys2Proof.Machine

/-- Every object in group g is at standstill. -/
def groupStill (s : State) (g : Fin 4) : Bool := (stillObjects s).all fun o => objGroup s o != g || isStill s o

/-- The brakes of a group in SS1 are set once every object in it is at standstill; STO follows after BDLY (R262). -/
def ss1Brakes (s : State) : State :=
  forEach (List.finRange 4) (fun g s =>
    let x := s.gh.grp[g]
    if x.cond = .ss1 && !x.brakesSet && !x.stopNew && groupStill s g then forceBrakes g (setGroup g { x with brakesSet := true } s) else s) s

/-- At L4, with every object at standstill, Pumphouse demands STO of every group (R302); a standby's groups follow the active's record (R260). -/
def l4Sto (s : State) : State :=
  if effLevel s = 4 && !s.ph.l4Sto && (stillObjects s).all (isStill s) && (running s || s.sys.op == .safe) && !isStandby s then
    maskDemand 15 true .shed { s with ph := { s.ph with l4Sto := true } }
  else s

/-- What follows a change of standstill. -/
def afterStill (s : State) : State := l4Sto (ss1Brakes s)

/-- STANDSTILL_ENTRY: the conditions have held for STILL_T (R107). -/
def execStandstillEntry (o : Fin 288) (s : State) : Host.Outcome State Fault Refusal := .next (afterStill (segmentChecks (standstillIn o.val s)))

end Sys2Proof.Machine
end

