-- ==== Sys2Proof/Machine/Checks.lean ====
section
/-! DEFINITION. The checks of Gatehouse: sources, arming, violation tests and reactions (09 R273-R275). -/

namespace Sys2Proof.Machine

def ckFunc (s : State) (c : Nat) : Nat := fldOf s (ckAddr c) 18 15
def ckArmk (s : State) (c : Nat) : Nat := fldOf s (ckAddr c) 14 13

/-- A configuration that is refused: a reserved SRCK or DIRREF, AVG above 10, and in a check switched on a reserved FUNC or an ARMK the function does not allow (R274, R287). -/
def ckRefused (w : Word) : Bool :=
  let f := fld w 18 15
  let a := fld w 14 13
  let armOk := if f = 1 ∨ f = 2 then a == 0 || a == 1 else if f = 3 then a == 0 else if f = 4 ∨ f = 5 then a == 2 else a == 1 || a == 2
  fld w 12 11 == 3 || fld w 4 3 == 3 || decide (10 < fld w 8 5) || (bit w 19 && (f == 0 || decide (6 < f) || !armOk))

def ckOn (s : State) (c : Nat) : Bool := bitOf s (ckAddr c) 19 && !ckRefused (inForce s (ckAddr c))

/-- The number of periods of the speed window (R273). -/
def ckWin (s : State) (c : Nat) : Nat := 2 ^ fldOf s (ckAddr c) 8 5

def getCheck (s : State) (c : Nat) : Check := mapGet Check.reset s.gh.checks c

def setCheck (c : Nat) (x : Check) (s : State) : State := { s with gh := { s.gh with checks := mapPut Check.reset s.gh.checks c x } }

/-- The reference direction: upward, downward, or the sign of the set-point velocity of DAXIS (R274). -/
def ckRefDir (s : State) (c : Nat) : Int :=
  let d := fldOf s (ckAddr c) 4 3
  if d = 0 then 1 else if d = 1 then -1 else sgn (profOf s (ckDaxis s c)).v

/-- The change over the window, with the newest sample first; none until it is full. -/
def ckDelta (s : State) (c : Nat) (h : List Int) : Option Int :=
  match h, h[ckWin s c]? with
  | x :: _, some y => some (x - y)
  | _, _ => none

/-- The function's own arming condition (R274). -/
def ckOwnCond (s : State) (c : Nat) : Bool :=
  let o := ckObj s c
  let x := profOf s o
  let f := ckFunc s c
  if f = 4 then
    x.st == .idle && (landingsOf s o).any fun p => decide (|p - x.sp| ≤ (u32 s (ckAddr c + 4) : Int))
  else if f = 5 then x.st == .stopping || s.gh.grp[ckGroup s c].cond == .ss1
  else isStill s o

/-- Arming at a sample x, the newest of the history (R274, R275). The speed at which a stop began is free where the window of R273 was not yet full: the rule states none. -/
def ckArm (s : State) (c : Nat) (x : Int) (free : Nat) (k : Check) : Check :=
  let a := ckArmk s c
  if a = 0 then { k with armed := true, armPend := false }
  else if a = 1 then (if k.armPend then { k with armed := true, armPend := false, xArm := x } else k)
  else
    let now := ckOwnCond s c
    if now ∧ !k.armed then
      let v := match ckDelta s c (k.hist.drop 1) with
        | some d => d.natAbs
        | none => free
      { k with armed := true, armPend := false, xArm := x, tStop := s.lk.q, vStop := v }
    else { k with armed := now, armPend := false }

/-- The furthest position along the reference since it last changed or became zero (R274). -/
def ckExtent (s : State) (c : Nat) (x : Int) (k : Check) : Check :=
  let d := ckRefDir s c
  if d ≠ k.refDir ∨ d = 0 then { k with refDir := d, xExt := x }
  else { k with xExt := if 0 < d then max k.xExt x else min k.xExt x }

/-- The test cannot be made at this sample: the speed window is not full, or the reference is zero (R273, R274). -/
def ckHeld (s : State) (c : Nat) (k : Check) : Bool :=
  let f := ckFunc s c
  if f = 1 ∨ f = 2 ∨ f = 5 then (ckDelta s c k.hist).isNone else f == 3 && k.refDir == 0

/-- The violation test while armed, in exact integers (R273, R274). -/
def ckViolates (s : State) (c : Nat) (x : Int) (k : Check) : Bool :=
  let f := ckFunc s c
  let lim1 : Int := u32 s (ckAddr c + 2)
  let lim2 : Int := u32 s (ckAddr c + 4)
  let w : Int := ckWin s c
  let fn := fNom s
  let d := |(ckDelta s c k.hist).getD 0|
  if f = 1 ∨ f = 2 then decide (lim1 * w < d * fn)
  else if f = 3 then (if 0 < k.refDir then decide (lim1 < k.xExt - x) else decide (lim1 < x - k.xExt))
  else if f = 5 then
    let ms := 1000 * ((s.lk.q + 2 ^ 32 - k.tStop) % 2 ^ 32 : Nat)
    let late := max 0 (ms - (fldOf s (ckAddr c + 6) 19 0 : Int) * fn)
    let env := max (lim2 * w * 1000 * fn) ((k.vStop * fn + lim2 * w) * 1000 * fn - lim1 * w * late)
    decide (env < d * fn * 1000 * fn)
  else decide (lim1 < |x - k.xArm|)

/-- The reaction of a violation on the group of the check's object (R274). -/
def ckReact (s : State) (c : Nat) : React :=
  let g := 2 ^ (ckGroup s c).val
  if ckFunc s c = 2 ∨ ckFunc s c = 4 then .sto g else reactField (fldOf s (ckAddr c) 10 9) g

/-- The source has moved SPAN units from its position at arming: a check armed by a firing disarms after this sample (R275). -/
def ckSpent (s : State) (c : Nat) (x : Int) (k : Check) : Bool :=
  ckArmk s c == 1 && decide ((fldOf s (ckAddr c + 6) 19 0 : Int) ≤ |x - k.xArm|)

/-- One evaluation of check c at a sample (R275); a sample formed from substitutes enters the window and is not evaluated, and leaves ACTIVE as it was (R271; DESIGN CHOICE, log entry 72). The fault 80h + c and EV6 are raised at the onset of ACTIVE. -/
def ckSample (sub : Bool) (c : Nat) (x : Int) (s0 : State) : State :=
  if !ckOn s0 c then s0
  else
    let (free, s) := freeNat s0
    let k0 := getCheck s c
    let k1 := { k0 with hist := (x :: k0.hist).take (ckWin s c + 1) }
    let k2 := ckArm s c x free (ckExtent s c x k1)
    let held := sub || ckHeld s c k2
    let was := bitOf s (ckAddr c + 7) 18
    let act := if sub then was && k2.armed else k2.armed && !held && ckViolates s c x k2
    let k3 := if ckSpent s c x k2 then { k2 with armed := false } else k2
    let s1 := putBit (ckAddr c + 7) 16 held (putBit (ckAddr c + 7) 18 act (putBit (ckAddr c + 7) 19 k3.armed (setCheck c k3 s)))
    if act && !was then
      ghFaultBy (0x80 + c) c (ckReact s c) (.check c) (raiseEvent 6 (putBit (ckAddr c + 7) 17 true s1))
    else s1

/-- Every check on a source of a kind takes a sample (R273). -/
def ckFeed (sub : Bool) (kind src : Nat) (x : Int) (s : State) : State :=
  forEach ((List.range 64).filter fun c => bitOf s (ckAddr c) 19 && ckSrck s c == kind && ckSrc s c == src) (fun c s => ckSample sub c x s) s

/-- A check that is switched on, or whose source begins a first use, starts afresh (R273). -/
def ckRestart (c : Nat) (s : State) : State :=
  putFld (ckAddr c + 7) 19 18 0 (putBit (ckAddr c + 7) 16 false (setCheck c Check.reset s))

/-- First use of an object empties the windows of its checks (R150, R273). -/
def ckFirstUse (o : Nat) (s : State) : State :=
  forEach ((List.range 64).filter fun c => bitOf s (ckAddr c) 19 && ckSrck s c != 2 && ckObj s c == o)
    (fun c s => setCheck c { getCheck s c with hist := [] } s) s

end Sys2Proof.Machine
end

