-- ==== Sys2Proof/Machine/ServoMath.lean ====
section
/-! DEFINITION. The arithmetic of the servo engine: accumulator, rounding, gains and the stages of the axis program (05 R132-R145). Q1.19 words are integers in units of 2^-19; the accumulator and the integrator are in units of 2^-39. -/

namespace Sys2Proof.Machine

/-- Saturates to a 20-bit signed word. -/
def sat20 (v : Int) : Int := satI 20 v

/-- Addends of a stage into the 48-bit accumulator; a carry beyond bit 47 takes the extreme of the addend's sign and ends the sum (R134). -/
def accSum : Int → List Int → Int × Bool
  | acc, [] => (acc, false)
  | acc, x :: xs =>
    let v := acc + x
    if v < -(2 ^ 47) then (-(2 ^ 47), true) else if 2 ^ 47 ≤ v then (2 ^ 47 - 1, true) else accSum v xs

/-- A gain: mantissa and shift (R132). -/
structure Gain where
  m : Int
  sh : Int
  deriving DecidableEq, Repr

/-- The product of a gain with a Q1.19 operand as it enters the accumulator: bits below 2^-39 are discarded (R132). -/
def gmul (g : Gain) (x : Int) : Int :=
  let p := g.m * x * 2
  if 0 ≤ g.sh then p * 2 ^ g.sh.toNat else asr p (-g.sh).toNat

/-- A Q1.19 value in the accumulator. -/
def up20 (x : Int) : Int := x * 2 ^ 20

/-- Rounds an accumulator to Q1.19, ties toward plus infinity, before saturation (R133). -/
def round19 (acc : Int) : Int := roundShift acc 20

/-- A stage output: rounded and saturated, with whether it saturated and whether the guard bits ran out (R133, R134). -/
def rs (l : List Int) : Int × Bool × Bool :=
  let (acc, o) := accSum 0 l
  let r := round19 acc
  (sat20 r, decide (sat20 r ≠ r), o)

/-- VSC = 2^19 f_nom / VMAX as a 20-bit mantissa and a power of two (R135). -/
def vscOf (f vmax : Int) : Int × Int :=
  let big := 2 ^ 19 * f * 2 ^ 40 / vmax
  let e : Int := (Nat.log2 big.toNat : Int) - 40 - 19
  let m := if 0 ≤ e then roundTie (2 ^ 19 * f) (vmax * 2 ^ e.toNat) else roundTie (2 ^ 19 * f * 2 ^ (-e).toNat) vmax
  if 2 ^ 20 ≤ m then (2 ^ 19, e + 1) else (m, e)

/-- A distance with n fraction bits times VSC, rounded to nearest with ties toward plus infinity (R137, R139). -/
def velBits (f vmax : Int) (n : Nat) (dx : Int) : Int :=
  if vmax = 0 then (if dx = 0 then 0 else Config.byZeroScale dx)
  else
    let (m, e) := vscOf f vmax
    let sh := (n : Int) - e
    if 0 ≤ sh then roundShift (dx * m) sh.toNat else dx * m * 2 ^ (-sh).toNat

def velOf (f vmax dx : Int) : Int := velBits f vmax 12 dx

/-- The velocity feed-forward: v in 2^-48 pu per period as Q1.19 of vmax (R90). -/
def vffOf (f vmax v : Int) : Int :=
  if vmax = 0 then (if v = 0 then 0 else sat20 (Config.byZeroScale v)) else sat20 (roundTie (v * f * 2 ^ 19) (vmax * 2 ^ 48))

/-- The acceleration feed-forward: a in 2^-48 pu per period^2 as Q1.19 of the full scale AFS (R90, R135). -/
def affOf (f afs a : Int) : Int :=
  if afs = 0 then (if a = 0 then 0 else sat20 (Config.byZeroScale a)) else sat20 (roundTie (a * f * f * 2 ^ 19) (afs * 2 ^ 48))

/-- The parameters in force of an axis or mover program. -/
structure Params where
  kp : Gain
  kvf : Gain
  kaf : Gain
  foff : Int
  kvp : Gain
  kvi : Gain
  kaw : Gain
  km : Gain
  kob : Gain
  koc : Gain
  esh : Nat
  ash : Nat
  flimPos : Int
  flimNeg : Int
  obs : Bool
  /-- enabled biquads and their coefficients B0 B1 B2 A1 A2 -/
  bqEn : List Bool
  bq : List (List Int)
  deriving DecidableEq, Repr

/-- What one period of the program computed besides its state. -/
structure StageFlags where
  psat : Bool
  isat : Bool
  flim : Bool
  mcap : Bool
  prun : Bool
  vsat : Bool
  epos : Bool
  ovPos : Bool
  ovVel : Bool
  ovBq : List Bool
  ovObs : Bool
  ovLim : Bool
  deriving DecidableEq, Repr

def StageFlags.none : StageFlags :=
  { psat := false, isat := false, flim := false, mcap := false, prun := false, vsat := false, epos := false, ovPos := false,
    ovVel := false, ovBq := [false, false, false, false], ovObs := false, ovLim := false }

/-- The flags of two programs that run in one lane. -/
def StageFlags.or (g h : StageFlags) : StageFlags :=
  { psat := g.psat || h.psat, isat := g.isat || h.isat, flim := g.flim || h.flim, mcap := g.mcap || h.mcap, prun := g.prun || h.prun,
    vsat := g.vsat || h.vsat, epos := g.epos || h.epos, ovPos := g.ovPos || h.ovPos, ovVel := g.ovVel || h.ovVel,
    ovBq := g.ovBq.zipWith (· || ·) h.ovBq, ovObs := g.ovObs || h.ovObs, ovLim := g.ovLim || h.ovLim }

/-- The inputs of stages 2 to 5 for a period. -/
structure LoopIn where
  sp : Int
  vff : Int
  aff : Int
  injP : Int
  injV : Int
  injF : Int
  /-- the position loop runs in this period (R139) -/
  runP : Bool
  km : Int
  deriving DecidableEq, Repr

/-- Stage 1: position history and velocity estimate (R137, R138). -/
def stage1 (f vmax x fAct : Int) (valid first : Bool) (l : LoopSt) : LoopSt × Bool :=
  let x1 := if first then x else l.x
  let v := velOf f vmax (x - x1)
  let vv := if valid then sat20 v else 0
  ({ l with x := x, x1 := x1, x2 := if first then x else l.x1, vAct := vv, fAct := fAct, velValid := valid,
            validFor := if valid then l.validFor + 1 else l.validFor, age := l.age + 1 },
   valid && decide (sat20 v ≠ v))

/-- The position error before saturation: (sp - x) 2^(19 - ESH), rounded (R139). -/
def posErr (sp x : Int) (esh : Nat) : Int :=
  let n := sp * 4096 - x
  if esh ≤ 7 then n * 2 ^ (7 - esh) else roundShift n (esh - 7)

/-- Stage 2: the velocity command (R139). -/
def stage2 (p : Params) (i : LoopIn) (l : LoopSt) (g : StageFlags) : LoopSt × StageFlags :=
  let e := posErr i.sp l.x p.esh
  let eq := sat20 e
  let (vp, s1, o1) := rs [gmul p.kp (sat20 (eq + i.injP))]
  let l1 := if i.runP then { l with eq := eq, vp := vp } else l
  let (vc, s2, o2) := rs [up20 l1.vp, gmul p.kvf i.vff, up20 i.injV]
  ({ l1 with vCmd := vc },
   { g with prun := i.runP, epos := i.runP && decide (eq ≠ e), psat := g.psat || (i.runP && s1) || s2, ovPos := (i.runP && o1) || o2 })

/-- The PI of stage 3; ISAT shows the integrator at its limit (R140, R158). -/
def stage3 (p : Params) (l : LoopSt) (g : StageFlags) : (LoopSt × Int) × StageFlags :=
  let d := l.vCmd - l.vAct
  let ev := if l.velValid then sat20 d else 0
  let (acc, o1) := accSum 0 [l.i, gmul p.kvi ev, gmul p.kaw l.w]
  let i2 := satI 40 acc
  let i' := if l.velValid then i2 else l.i
  let (u, s2, o2) := rs [gmul p.kvp ev, i']
  (({ l with i := i' }, u),
   { g with psat := g.psat || (l.velValid && decide (ev ≠ d)) || s2, isat := decide (i' = 2 ^ 39 - 1 ∨ i' = -(2 ^ 39)), ovVel := (l.velValid && o1) || o2 })

/-- One biquad: its four states x1 x2 y1 y2 and input to its states and output, saturation and overflow (R141). -/
def biquad (c : List Int) (st : List Int) (x : Int) : List Int × Int × Bool × Bool :=
  let k (i : Nat) : Int := c.getD i 0
  let z (i : Nat) : Int := st.getD i 0
  let (y, sat, o) := rs [4 * (k 0 * x), 4 * (k 1 * z 0), 4 * (k 2 * z 1), -(4 * (k 3 * z 2)), -(4 * (k 4 * z 3))]
  ([x, z 0, y, z 2], y, sat, o)

/-- The biquads in series; a disabled filter has its state cleared (R141). -/
def biquads : List Bool → List (List Int) → List Int → Int → List Int × Int × Bool × List Bool
  | en :: ens, c :: cs, st, x =>
    if en then
      let (z, y, sat, o) := biquad c (st.take 4) x
      let (zs, y', sat', os) := biquads ens cs (st.drop 4) y
      (z ++ zs, y', sat || sat', o :: os)
    else
      let (zs, y', sat', os) := biquads ens cs (st.drop 4) x
      ([0, 0, 0, 0] ++ zs, y', sat', false :: os)
  | _, _, _, x => ([], x, false, [])

/-- The observer runs from the second period in which VEL_VALID is 1 (R150). -/
def obsHeld (l : LoopSt) : Bool := decide (l.validFor < 2)

/-- Stage 4: the disturbance estimate, from the velocity of the period before (R142). -/
def stage4 (p : Params) (v1 : Int) (l : LoopSt) (g : StageFlags) : LoopSt × StageFlags :=
  if !p.obs then (l, g)
  else if obsHeld l then ({ l with dHat := 0 }, g)
  else
    let a := sat20 ((l.vAct - v1) * 2 ^ p.ash)
    let (r, _, o1) := rs [up20 l.fOut1, -(gmul p.km a)]
    let (d, _, o2) := rs [up20 l.dHat, gmul p.kob r, -(gmul p.kob l.dHat)]
    ({ l with dHat := d }, { g with ovObs := o1 || o2 })

/-- Stage 5: the force sum and its limits (R143). -/
def stage5 (p : Params) (i : LoopIn) (y : Int) (l : LoopSt) (g : StageFlags) : LoopSt × StageFlags :=
  let koc := if p.obs && !obsHeld l then [-(gmul p.koc l.dHat)] else []
  let (f, _, o) := rs ([up20 y, gmul p.kaf i.aff, up20 p.foff] ++ koc ++ [up20 i.injF])
  let capU := roundTie (i.km * p.flimPos) (2 ^ 19)
  let capL := -(roundTie (i.km * p.flimNeg) (2 ^ 19))
  let mu := decide (0 < l.vAct) && decide (capU < p.flimPos)
  let ml := decide (l.vAct < 0) && decide (-p.flimNeg < capL)
  let upper := if mu then capU else p.flimPos
  let lower := if ml then capL else -p.flimNeg
  let out := clampI lower upper f
  ({ l with yBq := y, fSum := f, fOut := out, fOut1 := l.fOut, w := out - f },
   { g with flim := decide (out ≠ f), mcap := decide (out ≠ f) && ((mu && decide (upper < f)) || (ml && decide (f < lower))), ovLim := o })

/-- Stages 2 to 5 for force output and for movers (R139-R143). The loop comes from stage 1; v1 is the velocity of the period before. -/
def loopProgram (p : Params) (i : LoopIn) (v1 : Int) (l : LoopSt) (g : StageFlags) : LoopSt × StageFlags :=
  let (l2, g2) := stage2 p i l g
  let ((l3, u), g3) := stage3 p l2 g2
  let (st, y, sat, os) := biquads p.bqEn p.bq l3.bq u
  let (l4, g4) := stage4 p v1 { l3 with bq := st } { g3 with psat := g3.psat || sat, ovBq := os }
  stage5 p i y l4 g4

/-- Stage 7: power in Q1.19 and in 10 W, each rounded with ties toward plus infinity (R133, R145). -/
def stage7 (prated fAct vAct : Int) : Int × Int :=
  let p := (rs [fAct * vAct * 2]).1
  (p, sat20 (roundShift (p * prated) 19))

/-- A mover's share of the upper segment; the lower takes the rest (R116). -/
def shareUp (w fm : Int) : Int := roundTie (w * fm) (2 ^ 19)

/-- Loop state at first use: everything 0 but the position history (R150). -/
def firstUse (t : Nat) (l : LoopSt) : LoopSt := { LoopSt.reset with x := l.x, x1 := l.x1, x2 := l.x2, fAct := l.fAct, tFirst := t }

/-- The state of an axis whose group is de-energised by decision: loops cleared, position history kept (R147). -/
def clearLoops (l : LoopSt) : LoopSt :=
  { l with vp := 0, vCmd := 0, i := 0, bq := LoopSt.reset.bq, dHat := 0, w := 0, fOut := 0, fOut1 := 0, yBq := 0, fSum := 0, eq := 0 }

end Sys2Proof.Machine
end

