-- ==== Sys2Proof/Machine/Servo.lean ====
section
/-! DEFINITION. The servo engine: batches, inputs and substitutes, the axis and mover programs, outputs, check lane, parameter sets, first use and test signals (05 R127-R160). -/

namespace Sys2Proof.Machine

/-! ### Batches -/

def svBase (a : Nat) : Nat := 0xF10000 + 256 * a
def svOut (s : State) (a : Nat) : Nat := fldOf s (svBase a) 19 18
def svJpart (s : State) (a : Nat) : Bool := bitOf s (svBase a) 17
def svFbsel (s : State) (a : Nat) : Nat := fldOf s (svBase a) 16 12
def svAct (s : State) (a : Nat) : Nat := fldOf s (svBase a + 1) 17 16

/-- The axes taken into batches: OUT not 00b, or a junction-partner slot (R127). -/
def engineAxes (s : State) : List Nat := (List.range (axisCount s)).filter fun a => svOut s a != 0 || svJpart s a

def batchCount (s : State) : Nat := ((engineAxes s).length + 7) / 8

/-- The axes of batch b = 1, 2, ...; lane l holds the l-th (R127). -/
def batchAxes (s : State) (b : Nat) : List Nat := ((engineAxes s).drop (8 * (b - 1))).take 8

/-- The batch of an axis. -/
def batchOf (s : State) (a : Nat) : Nat := (engineAxes s).idxOf a / 8 + 1

/-- The engine computes in the run states, and for the set-points with EN = 0 in SAFE and RECOVERY (R8, R192, R195). -/
def engineRuns (s : State) : Bool := running s || s.sys.op == .safe || s.sys.op == .recovery

/-! ### Inputs -/

/-- The 9-byte record of an axis as the unit last received it (R196). -/
def uplRec (u : AxisUpl) : UplRec := { pos := BitVec.ofInt 40 u.pos, fact := BitVec.ofInt 20 u.force, astat := BitVec.ofNat 12 u.astat }

/-- The unit's own uplink record of axis a in this cycle. -/
def ownRecord (s : State) (a : Nat) : Option UplRec := if (axisUpl s a).fresh then some (uplRec (axisUpl s a)) else none

/-- The record of axis a that this cycle's computation takes: the active's IN in a standby, else the uplink (R130, R235). None: a substitute. -/
def axisRecord (s : State) (a : Nat) : Option UplRec :=
  if !isStandby s || s.pr.ownNow then ownRecord s a
  else
    match s.pr.ins.find? fun x => x.1 == batchOf s a with
    | none => ownRecord s a
    | some (b, mask, recs) =>
      let l := (batchAxes s b).idxOf a
      if mask / 2 ^ l % 2 = 1 then none else recs[l]?

/-- A drive is attached to axis a, whose uplink its computation takes (R27, R127). -/
def driven (s : State) (a : Nat) : Bool := svOut s a != 0

/-- Axis a takes its position from the link. -/
def linkFed (s : State) (a : Nat) : Bool := driven s a && svFbsel s a == 0

/-- The record that the computation of axis a uses: none where its batch started with substitutes (R130, R131). -/
def usedRecord (s : State) (a : Nat) : Option UplRec := if s.sv.subst.contains a then none else axisRecord s a

/-- The position x(n) of an axis not yet computed in this period, with 12 fraction bits (R130, R137). -/
def inputX (s : State) (a : Nat) : Int :=
  let l := loopOf s a
  let fs := svFbsel s a
  if 16 ≤ fs then
    let c := cyFb s (fs - 16)
    roundShift ((c.1 * 4096 + c.2.1) * pairI s (svBase a + 8)) 20
  else
    match usedRecord s a with
    | some r => r.pos.toInt * 4096
    | none => l.x + (l.x - l.x1)

/-- The drive-reported force F_act(n), or that of the period before (R130, R137). -/
def inputForce (s : State) (a : Nat) : Int :=
  match usedRecord s a with
  | some r => r.fact.toInt
  | none => (loopOf s a).fAct

/-- The position of an axis in this period, whether or not its batch has been computed. -/
def nowX (s : State) (b a : Nat) : Int := if batchOf s a ≤ b then (loopOf s a).x else inputX s a

/-- The position of an axis that batch b takes was formed from substitutes (R130, R271). -/
def substituted (s : State) (b a : Nat) : Bool := linkFed s a && (s.sv.subst.contains a || (decide (b < batchOf s a) && (axisRecord s a).isNone))

/-- The movers led by axis a: the lowest segment axis with a nonzero weight (R118). -/
def ledBy (s : State) (a : Nat) : List Nat := (movers s).filter fun m => ((under s m).head?.map (·.1)) == some a

/-- The axes whose uplink data a batch needs (R27, R118). -/
def needed (s : State) (b : Nat) : List Nat :=
  let own := batchAxes s b
  let led := own.flatMap fun a => (ledBy s a).flatMap fun m => (under s m).map (·.1)
  (own ++ led).filter (driven s)

/-! ### Parameters -/

def setWord (s : State) (a k : Nat) : Word := inForce s (svBase a + 32 + 16 * svAct s a + k)

/-- A gain of the set in force: mantissa k and its shift field. -/
def gainOf (s : State) (a k sh lo : Nat) : Gain := { m := sval (setWord s a k), sh := sext 5 (fld (setWord s a sh) (lo + 4) lo) }

/-- The parameters of an axis window (R151, R158). -/
def axisParams (s : State) (a : Nat) : Params :=
  { kp := gainOf s a 0 10 15, kvf := gainOf s a 1 10 10, kaf := gainOf s a 2 10 5, foff := sval (setWord s a 3),
    kvp := gainOf s a 4 10 0, kvi := gainOf s a 5 11 15, kaw := gainOf s a 6 11 10, km := gainOf s a 7 11 5,
    kob := gainOf s a 8 11 0, koc := gainOf s a 9 12 15,
    esh := fldOf s (svBase a + 10) 19 15, ash := fldOf s (svBase a + 10) 14 11,
    flimPos := fldOf s (svBase a + 11) 18 0, flimNeg := fldOf s (svBase a + 12) 18 0,
    obs := bitOf s (svBase a) 9,
    bqEn := (List.range 4).map fun k => bitOf s (svBase a) (5 + k),
    bq := (List.range 4).map fun k => (List.range 5).map fun i => sval (mapGet 0 s.sv.bq (256 * a + 8 * k + i)) }

/-- KAF, FOFF and KM of a mover scale with its mass over the nominal mass (R148). -/
def massScaled (mass mnom : Nat) (g : Int) : Int := if mnom = 0 then Config.byZeroScale g else roundTie (g * mass) mnom

def paramsOf (s : State) (o : Nat) : Params :=
  let a := paramAxis s o
  let p := axisParams s a
  if o < 256 then p
  else
    let mass := fldOf s (mpBase o + 41) 19 0
    let mnom := fldOf s (svBase a + 14) 19 0
    { p with kaf := { p.kaf with m := massScaled mass mnom p.kaf.m }, foff := massScaled mass mnom p.foff,
             km := { p.km with m := massScaled mass mnom p.km.m } }

/-! ### Test signals -/

def genAddr (g : Fin 2) : Nat := 0xF100F0 + 8 * g.val

/-- The sum of the samples of generators aimed at an object and a summing point (R155). -/
def injected (s : State) (o pt : Nat) : Int :=
  (List.finRange 2).foldl (fun acc g =>
    if s.sv.gens[g].acts && objOfGen s g.val == o && fldOf s (genAddr g) 10 9 == pt then acc + s.sv.gens[g].sample else acc) 0

def isInjected (s : State) (o : Nat) : Bool := (List.finRange 2).any fun g => s.sv.gens[g].acts && objOfGen s g.val == o

/-- The sine of i / 4,096 of a quarter cycle in units of 2^-39, rounded down: fourteen terms of its series at 64 fraction bits. -/
def sineExact (i : Nat) : Int :=
  let x : Int := 28976077832308491370 * i / 4096
  ((List.range 14).foldl (fun (acc : Int × Int) k => (acc.1 + acc.2, -(acc.2 * x / 2 ^ 64 * x / 2 ^ 64) / ((2 * k + 2) * (2 * k + 3) : Nat))) (0, x)).1 / 2 ^ 25

/-- Point i of the fixed table of R156: exact at both ends of the quarter, else within half a unit of Q1.19 of the sine; by how much the table's words differ from it the spec does not say (DESIGN CHOICE, log entry 68). -/
def sineTable (i : Nat) : Int :=
  if i % 4096 = 0 then (i / 4096 : Nat) * 2 ^ 39 else sineExact i + ((Config.sineError i % 2 ^ 20 : Nat) - 2 ^ 19 : Int)

/-- The sine of a 32-bit phase: the fixed quarter-wave table with linear interpolation (R156). -/
def sineOf (phi : Nat) : Int :=
  let q := phi / 2 ^ 30 % 4
  let r := phi % 2 ^ 30
  let u := if q % 2 = 0 then r else 2 ^ 30 - r
  let i := u / 2 ^ 18
  let v := sineTable i + roundTie ((sineTable (i + 1) - sineTable i) * (u % 2 ^ 18 : Nat)) (2 ^ 18)
  if q < 2 then v else -v

/-- Sample k of a generator (R156); the table is in units of 2^-39. -/
def genValue (s : State) (g : Fin 2) : Int :=
  let x := s.sv.gens[g]
  let amp := sval (inForce s (genAddr g + 1))
  let sig := fldOf s (genAddr g) 8 6
  if sig = 0 then (if x.lfsr.getLsbD 0 then amp else sat20 (-amp))
  else if sig = 2 then amp
  else sat20 (roundTie (amp * sineOf x.phi) (2 ^ 39))

/-- The increment of the period that follows sample k (R156). -/
def genInc (s : State) (g : Fin 2) (x : Gen) : Nat :=
  let f0 : Int := u32 s (genAddr g + 2)
  let f1 : Int := u32 s (genAddr g + 4)
  let len : Int := fldOf s (genAddr g + 6) 19 0
  if fldOf s (genAddr g) 8 6 = 1 then (roundTie ((x.inc : Int) * x.ratio) (2 ^ 40)).toNat
  else wrapN 32 (f0 + roundTie ((f1 - f0) * (x.k + 1)) (max 1 len))

/-- The 15-bit register advances (R156). -/
def lfsrNext (r : BitVec 15) : BitVec 15 :=
  let b := r.getLsbD 0 != r.getLsbD 1
  (r >>> 1) ||| (if b then 0x4000 else 0)

/-- A generator after the period of sample k. -/
def genStep (s : State) (g : Fin 2) (x : Gen) : Gen :=
  let div := fldOf s (genAddr g) 5 0
  { x with k := x.k + 1, phi := (x.phi + x.inc) % 2 ^ 32, inc := genInc s g x,
           lfsr := if (x.k + 1) % (div + 1) = 0 then lfsrNext x.lfsr else x.lfsr }

/-- The ratio (F1/F0)^(1/LEN) with 40 fraction bits: the largest r with r^LEN at most F1/F0 (R156). -/
def sweepRatio (f0 f1 len : Nat) : Nat :=
  if f0 = 0 then 0 else searchMax 72 (fun r => decide (r ^ len * f0 ≤ f1 * 2 ^ (40 * len))) 0

/-- The summing point exists for the target (R155). -/
def injOk (s : State) (g : Fin 2) : Bool :=
  let o := objOfGen s g.val
  let pt := fldOf s (genAddr g) 10 9
  if 256 ≤ o then hasProfile s o && pt != 0
  else
    let out := svOut s o
    !isSegAxis s o && (if pt = 1 then out != 0 else if pt = 2 then out == 1 || out == 2 else pt == 3 && out == 1)

def setGen (g : Fin 2) (x : Gen) (s : State) : State := { s with sv := { s.sv with gens := s.sv.gens.set g x } }

/-- The samples of a generator are 0 (R157). -/
def genQuiet (g : Fin 2) (s : State) : State := setGen g { s.sv.gens[g] with acts := false, sample := 0 } s

/-- An injection ends: END is set with its cause; the sample of the period stays until the next boundary (R157). -/
def injEnd (g : Fin 2) (r : Nat) (s : State) : State :=
  raiseEvent 85 (putBit (genAddr g + 7) 17 false (putBit (genAddr g + 7) 16 true (putFld (genAddr g + 7) 15 13 r
    (setGen g { s.sv.gens[g] with running := false } s))))

/-- A stop has taken effect in the profile of an object, or is running (R157). -/
def stopActs (s : State) (o : Nat) : Bool := s.mo.stopped.contains o || (profOf s o).st == .stopping

/-- Why a running injection ends now, other than by ABORT (R157). -/
def injCause (s : State) (g : Fin 2) : Option Nat :=
  let o := objOfGen s g.val
  if !injOk s g then some 5
  else if stopActs s o then some 2
  else if s.sys.op = .degraded ∨ s.sys.op = .safe then some 3
  else if 1 ≤ effLevel s then some 4
  else if fldOf s (genAddr g + 6) 19 0 ≤ s.sv.gens[g].k then some 0
  else none

/-- INJECTION_END: completed, or ended by a stop, a state or a shed level (R157). -/
def injectionEnd (g : Fin 2) (s : State) : State :=
  if s.sv.gens[g].running then
    match injCause s g with
    | some r => injEnd g r s
    | none => s
  else s

def execInjectionEnd (g : Fin 2) (s : State) : Host.Outcome State Fault Refusal := .next (injectionEnd g s)

/-- START at a boundary: refused with PT 00b, LEN 0 or a reserved signal; accepted in RUN-ACTIVE and RUN-STANDBY; dropped while a cause of R157 forbids it (R156, R157, R160). -/
def genStart (g : Fin 2) (s : State) : State :=
  let bad := fldOf s (genAddr g) 10 9 == 0 || fldOf s (genAddr g + 6) 19 0 == 0 || decide (4 ≤ fldOf s (genAddr g) 8 6)
  let o := objOfGen s g.val
  if bad || !(s.sys.op == .runActive || s.sys.op == .runStandby || s.sys.op == .degraded || s.sys.op == .safe) then s
  else if 1 ≤ effLevel s ∨ stopActs s o ∨ s.sys.op = .degraded ∨ s.sys.op = .safe then dropWrite (commandBy s (genAddr g + 7)) (genAddr g + 7) 6 s
  else
    let f0 := u32 s (genAddr g + 2)
    let f1 := u32 s (genAddr g + 4)
    let len := fldOf s (genAddr g + 6) 19 0
    let r := if fldOf s (genAddr g) 8 6 = 1 then sweepRatio f0 f1 len else 0
    let x : Gen := { running := true, k := 0, lfsr := 0x7FFF, phi := 0, inc := f0, ratio := r, sample := 0, acts := false }
    let s1 := putBit (genAddr g + 7) 17 true (setGen g x s)
    let s2 := setGen g { x with acts := true, sample := genValue s1 g } s1
    if injOk s g then s2 else injEnd g 5 s2

def execStart (g : Fin 2) (s : State) : Host.Outcome State Fault Refusal := .next (genStart g s)

/-- ABORT ends the injection (R157). -/
def genAbort (g : Fin 2) (s : State) : State := if s.sv.gens[g].running then injEnd g 1 s else s

/-- At a boundary: a running generator goes on to its next sample, or ends. -/
def genBoundary (g : Fin 2) (s : State) : State :=
  let x := s.sv.gens[g]
  if x.running then
    let s1 := injectionEnd g (setGen g (genStep s g x) s)
    if s1.sv.gens[g].running then setGen g { s1.sv.gens[g] with sample := genValue s1 g } s1 else genQuiet g s1
  else genQuiet g s

/-! ### Starting a batch -/

/-- The batch may start before its latest start: its uplinks are there, and in a standby the active's frames too (R27, R118, R235, R236). -/
def batchReady (s : State) (b : Nat) : Bool :=
  (needed s b).all (fun a => (ownRecord s a).isSome) &&
  (!isStandby s || s.pr.own || (s.pr.inc.isSome && s.pr.ins.any fun x => x.1 == b))

/-- The lanes of a batch that use substitutes, as a mask. -/
def substMask (s : State) (b : Nat) : Nat :=
  (batchAxes s b).zipIdx.foldl (fun m x => if driven s x.1 && (axisRecord s x.1).isNone then m + 2 ^ x.2 else m) 0

/-- The unit's own cycle inputs as an INC frame carries them: every feedback channel, every SDM result with its flags, and k_m (R230). -/
def ownFb (s : State) (n : Fin 16) : FbIn :=
  { cnt := s.fb[n].ciRep, frac := s.fb[n].ciFrac, fol := s.fb[n].ciFol, perValid := s.fb[n].ciPer, seated := s.fb[n].ciSeat, fault := s.fb[n].ciFlt }

/-- An SDM result at CI and its four flags: valid, fault, and two that the spec does not name, sent as 0 (DESIGN CHOICE, log entry 69). -/
def ownSdm (s : State) (k : Fin 8) : Int × BitVec 4 := (s.ph.sdm[k].ci, BitVec.ofNat 4 (s.ph.sdm[k].ciVal.toNat * 8 + s.ph.sdm[k].ciFlt.toNat * 4))

def ownInc (s : State) : List FbIn × List (Int × BitVec 4) × Nat := ((List.finRange 16).map (ownFb s), (List.finRange 8).map (ownSdm s), s.ph.km)

/-- The reference input a following object takes: true for an SDM input, and its number (R101). -/
def followSrc (s : State) (o : Nat) : Option (Bool × Nat) :=
  let c := inForce s (mpBase o + 28)
  if (profOf s o).st = .following then some (fld c 19 18 != 1, fld c 17 14) else none

/-- The cycle inputs of INC that a batch takes: the channels that feed its axes, and what its objects follow; true for an SDM input (R101, R137). -/
def batchSources (s : State) (b : Nat) : List (Bool × Nat) :=
  ((batchAxes s b).flatMap fun a => (if 16 ≤ svFbsel s a then [(false, svFbsel s a - 16)] else []) ++
    (a :: (ledBy s a).map fun m => 256 + m).filterMap (followSrc s)).eraseDups

/-- The lanes of a batch whose own uplink is not there, as a mask. -/
def ownMask (s : State) (b : Nat) : Nat :=
  (batchAxes s b).zipIdx.foldl (fun m x => if driven s x.1 && (ownRecord s x.1).isNone then m + 2 ^ x.2 else m) 0

/-- A standby's own inputs for a batch differ from the active's, word by word: axis records, SUBST mask, feedback, SDM results and k_m (R235). -/
def inputsDiffer (s : State) (b : Nat) : Bool :=
  let own := ownInc s
  (batchAxes s b).any (fun a => driven s a && axisRecord s a != ownRecord s a) || substMask s b != ownMask s b ||
  s.pr.inc.any fun i => (batchSources s b).any (fun c => if c.1 then i.2.1[c.2]? != own.2.1[c.2]? else i.1[c.2]? != own.1[c.2]?) || i.2.2 != own.2.2

/-- A standby's following profiles take their reference once in a cycle: with the active's INC, or with its own inputs where a batch starts without it (R101, R235, R236). The first state tells whether they have. -/
def followOnce (before s : State) : State := whenB (before.pr.inc.isNone && !before.pr.own) followAll s

/-- BATCH_START at time t, at its latest start or before (R129, R130, R235, R236). -/
def batchStart (late : Bool) (s0 : State) : State :=
  let b := s0.sv.done + 1
  if !engineRuns s0 || s0.sv.batch.isSome || s0.sv.late.isSome || decide (batchCount s0 < b) || !(late || batchReady s0 b) then s0
  else
    let lacks := s0.pr.inc.isNone || !(s0.pr.ins.any fun x => x.1 == b)
    let s := if isStandby s0 then followOnce s0 { s0 with pr := { s0.pr with ownNow := lacks } } else s0
    let mask := substMask s b
    let subs := (batchAxes s b).zipIdx.filterMap fun x => if mask / 2 ^ x.2 % 2 = 1 then some x.1 else none
    let s1 := { s with sv := { s.sv with batch := some b, subst := s.sv.subst ++ subs } }
    let s2 := forEach subs (fun a s => putBit (svBase a + 3) 8 true s) s1
    let s3 := whenB (late && mask != 0) (putBit 0xF100E0 11 true) s2
    if isStandby s then
      if lacks then count 0xF30009 { s3 with pr := { s3.pr with own := true } }
      else whenB (inputsDiffer s b) (count 0xF30008) s3
    else if paired s && isActive s then sendLane (.pIn b mask ((batchAxes s b).map fun a => uplRec (axisUpl s a))) s3
    else s3

def execBatchStart (late : Bool) (t : Nat) (s : State) : Host.Outcome State Fault Refusal :=
  .next (batchStart late (advance t s))

/-! ### The programs -/

/-- The position loop runs in this period: q is a multiple of D (R139). -/
def posRuns (s : State) (o : Nat) : Bool := s.lk.q % 2 ^ fldOf s (svBase (paramAxis s o)) 11 10 == 0

/-- The feed-forwards of an object (R90, R139). -/
def vffNow (s : State) (o : Nat) : Int :=
  let x := profOf s o
  let vm : Int := u32 s (svBase (paramAxis s o) + 4)
  if x.st = .following then sat20 (velBits (fNom s) vm 48 x.v) else vffOf (fNom s) vm x.v

def affNow (s : State) (o : Nat) : Int :=
  let x := profOf s o
  if x.st = .following then 0 else affOf (fNom s) (u32 s (svBase (paramAxis s o) + 6)) x.a

/-- The set-point of an object; an axis without a profile holds its actual position (R89; DEDUCED, log entry 44). -/
def spNow (s : State) (o : Nat) : Int := if hasProfile s o then (profOf s o).sp else actPos s o

def loopIn (s : State) (o : Nat) : LoopIn :=
  { sp := spNow s o, vff := vffNow s o, aff := affNow s o, injP := injected s o 1, injV := injected s o 2, injF := injected s o 3,
    runP := posRuns s o, km := cyKm s }

/-- Its safe-off group is de-energised by Gatehouse's decision (R147). -/
def deEnergised (s : State) (o : Nat) : Bool := s.gh.grp[objGroup s o].cond == .sto

/-- The velocity estimate of an axis is valid in this period (R138). -/
def velNow (s : State) (a : Nat) (l : LoopSt) : Bool :=
  if l.velValid then true
  else if l.age = 0 then false
  else
    let fs := svFbsel s a
    if fs < 16 then true
    else
      match s.fb[Fin.ofNat 16 (fs - 16)].ciPair with
      | some u => decide (l.tFirst ≤ u)
      | none => false

/-- Stage 1 of an axis (R137, R138), with its samples for Sundial and the checks. -/
def intake (a : Nat) (s : State) : State :=
  let l := loopOf s a
  let x := inputX s a
  let (l1, sat) := stage1 (fNom s) (u32 s (svBase a + 4)) x (inputForce s a) (velNow s a l) (l.age == 0) l
  let s1 := startAt a (roundShift x 12) (whenB sat (putBit (svBase a + 3) 10 true) (setLoop a l1 s))
  ckFeed (linkFed s a && s.sv.subst.contains a) 0 a (asr x 12) (sdSample 2 a x s.lk.ci s1)

/-- The sticky overflow bits of a program (R134, R158). -/
def stickies (a : Nat) (g : StageFlags) (s : State) : State :=
  let ors := [(19, g.ovPos), (18, g.ovVel), (13, g.ovObs), (12, g.ovLim), (11, g.epos)] ++ (g.ovBq.zipIdx.map fun x => (14 + x.2, x.1))
  forEach (ors.filter fun x => x.2) (fun x s => putBit (svBase a + 3) x.1 true s) s

/-- The actual position of a mover (R117), in pu, and whether the difference had to be saturated. -/
def moverX (s : State) (b m : Nat) : Int × Bool :=
  match under s m with
  | (lo, _) :: (up, w) :: _ =>
    let xl := asr (nowX s b lo) 12
    let d := asr (nowX s b up) 12 - xl
    (xl + roundTie (w * sat20 d) (2 ^ 19), decide (sat20 d ≠ d))
  | [(a, _)] => (asr (nowX s b a) 12, false)
  | [] => (actPos s (256 + m), false)

/-- A junction axis that leads two movers needs its partner slot, and must not stand in lane 7 (R149). -/
def partnerOk (s : State) (a : Nat) : Bool :=
  svJpart s (a + 1) && svOut s (a + 1) == 0 && (engineAxes s).idxOf a % 8 != 7

/-- The mover program in the lane of its lead axis: stages 1 to 5 and the shares, with its flags, which show in the lead axis's window (R116, R117, R133, R144, R148). -/
def moverProgram (b a m : Nat) (s : State) : State × StageFlags :=
  let o := 256 + m
  let (x, wide) := moverX s b m
  let l := loopOf s o
  let (l1, sat) := stage1 (fNom s) (u32 s (svBase (paramAxis s o) + 4)) (x * 4096) l.fOut (l.velValid || l.age != 0) (l.age == 0) l
  let s1 := startAt o x (setLoop o l1 s)
  let (l2, g) := if deEnergised s1 o then (clearLoops l1, StageFlags.none) else loopProgram (paramsOf s1 o) (loopIn s1 o) l.vAct l1 StageFlags.none
  let shares := match under s m with
    | (lo, _) :: (up, w) :: _ => [(m, lo, l2.fOut - shareUp w l2.fOut), (m, up, shareUp w l2.fOut)]
    | [(c, _)] => [(m, c, l2.fOut)]
    | [] => []
  let s2 := stickies a g (whenB sat (putBit (svBase a + 3) 10 true) (setLoop o l2 s1))
  let s3 := { s2 with sv := { s2.sv with shares := s2.sv.shares ++ shares } }
  let bad := wide || handoverBad s m || (decide (2 ≤ (ledBy s a).length) && !partnerOk s a)
  let s4 := if handoverBad s m || (decide (2 ≤ (ledBy s a).length) && !partnerOk s a) then handoverFault m s3
            else whenB bad (putBit (mpStat o) 0 true) s3
  (ckFeed ((under s m).any fun y => substituted s b y.1) 1 m x (sdSample 4 m (x * 4096) s.lk.ci s4), g)

/-- The SV_STAT word of an axis (R158). -/
def svStatWord (s : State) (a : Nat) (l : LoopSt) (g : StageFlags) (first checked : Bool) : Word :=
  let held := (axisParams s a).obs && obsHeld l
  word (2 ^ 19 + l.velValid.toNat * 2 ^ 18 + first.toNat * 2 ^ 17 + held.toNat * 2 ^ 16 + g.prun.toNat * 2 ^ 15 + g.psat.toNat * 2 ^ 14 +
    g.isat.toNat * 2 ^ 13 + g.flim.toNat * 2 ^ 12 + g.mcap.toNat * 2 ^ 11 + (deEnergised s a).toNat * 2 ^ 10 + (isInjected s a).toNat * 2 ^ 9 +
    checked.toNat * 2 ^ 8)

/-- Stages 2 to 5 of an axis by its output mode (R128, R146); a segment axis has none of its own. v1 is its velocity of the period before. -/
def axisLoops (s : State) (a : Nat) (v1 : Int) (l : LoopSt) : LoopSt × StageFlags :=
  let out := svOut s a
  if deEnergised s a then (clearLoops l, StageFlags.none)
  else if isSegAxis s a then (l, StageFlags.none)
  else if out = 1 then loopProgram (paramsOf s a) (loopIn s a) v1 l StageFlags.none
  else if out = 2 then stage2 (paramsOf s a) (loopIn s a) l StageFlags.none
  else (l, StageFlags.none)

/-- The force of a segment axis: the saturating sum of its shares (R119, R144). -/
def segForce (s : State) (a : Nat) : Int :=
  s.sv.shares.foldl (fun acc x => if x.2.1 = a then acc + x.2.2 else acc) 0

/-- The output words of an axis (R146, R195). -/
def outWords (s : State) (a : Nat) (l : LoopSt) : OutRec :=
  let out := svOut s a
  let off := deEnergised s a
  let en := !off && s.sys.op != .safe && s.sys.op != .recovery && !s.ph.l4Sto
  let p := paramsOf s a
  if out = 1 then { cmd := if off then 0 else l.fOut, ff1 := 0, ff2 := 0, en := en }
  else if out = 2 then
    let ff := (rs [gmul p.kaf (affNow s a), up20 p.foff]).1
    { cmd := if off then 0 else l.vCmd, ff1 := if off then 0 else word (wrapN 20 ff), ff2 := 0, en := en }
  else
    { cmd := wrapI 40 (spNow s a + roundTie (injected s a 1 * 2 ^ p.esh) (2 ^ 19)), ff1 := word (wrapN 20 (vffNow s a)),
      ff2 := word (wrapN 20 (affNow s a)), en := en }

/-- What stage 8 writes to the readouts of an axis window, offsets 80h to 8Eh (R158). -/
def readWords (s : State) (a : Nat) : List Word :=
  let l := loopOf s a
  let m := (ledBy s a).head?
  let prog : LoopSt := match m with
    | some m => loopOf s (256 + m)
    | none => if isSegAxis s a then LoopSt.reset else l
  let w (v : Int) : Word := word (wrapN 20 v)
  [word (wrapN 40 (asr l.x 12) / 2 ^ 20), word (wrapN 40 (asr l.x 12)), word (wrapN 12 l.x * 256), w prog.eq, w prog.vCmd, w l.vAct,
    word (wrapN 40 prog.i / 2 ^ 20), word (wrapN 40 prog.i), w prog.yBq, w prog.dHat, w (if m.isSome then prog.fSum else l.fSum), w l.fOut, w l.pw,
    w l.pSys, w l.fAct]

/-- A readout of an axis window (R158): offsets 80h to 8Eh. -/
def svReadout (s : State) (a off : Nat) : Word := (mapGet [] s.sv.reads a).getD (off - 0x80) 0

/-- The movers whose program runs in the lane of axis a: those it leads, but the second of two runs in the lane of its partner slot (R149). -/
def laneMovers (s : State) (a : Nat) : List Nat :=
  if svOut s a = 0 then (if svJpart s a && decide (0 < a) && isSegAxis s (a - 1) then (ledBy s (a - 1)).drop 1 else [])
  else if partnerOk s a then (ledBy s a).take 1 else ledBy s a

/-- Stages 2 to 8 of an axis in its lane; h: the flags of the movers it leads. -/
def axisProgram (a lane : Nat) (v1 : Int) (first : Bool) (h : StageFlags) (s : State) : State :=
  let checked := lane == s.lk.q % 8 && !s.pr.diag
  if svOut s a = 0 then
    whenB checked (putPair (svBase a + 0x92) s.lk.q) (putWord (svBase a + 2) (word (2 ^ 19 + checked.toNat * 2 ^ 8)) s)
  else
    let (l2, g) := axisLoops s a v1 (loopOf s a)
    let seg := isSegAxis s a && svOut s a == 1 && !deEnergised s a
    let f := segForce s a
    let l3 := if seg then { l2 with fOut := sat20 f, fOut1 := l2.fOut, fSum := sat20 f } else l2
    let s1 := whenB (seg && decide (sat20 f ≠ f)) (putBit (mpStat a) 2 true) s
    let (p, psys) := stage7 (fldOf s (svBase a + 13) 19 0) l3.fAct l3.vAct
    let l4 := { l3 with pw := p, pSys := psys }
    let s2 := stickies a g (putWord (svBase a + 2) (svStatWord s1 a l4 (g.or h) first checked) (setLoop a l4 s1))
    let s3 := whenB checked (putPair (svBase a + 0x92) s.lk.q) s2
    { s3 with sv := { s3.sv with pSum := s3.sv.pSum + psys, pMot := s3.sv.pMot + max psys 0, outs := mapPut OutRec.reset s3.sv.outs a (outWords s1 a l4), reads := mapPut [] s3.sv.reads a (readWords s3 a) } }

/-! ### Signatures -/

/-- A value cut into n words of 20 bits, most significant first. -/
def wordsOf : Nat → Int → List Word
  | 0, _ => []
  | n + 1, v => word (wrapN (20 * (n + 1)) v / 2 ^ (20 * n)) :: wordsOf n v

/-- The words of R153 for a lane: state and outputs (R237). -/
def laneWords (s : State) (a : Nat) : List Word :=
  let of (o : Nat) : List Word :=
    let l := loopOf s o
    wordsOf 3 l.x ++ wordsOf 1 l.vAct ++ wordsOf 1 l.vp ++ wordsOf 1 l.vCmd ++ wordsOf 2 l.i ++ l.bq.flatMap (wordsOf 1) ++ wordsOf 1 l.dHat ++
      wordsOf 2 l.w ++ wordsOf 1 l.fSum ++ wordsOf 1 l.fOut ++ wordsOf 1 l.pw ++ wordsOf 1 l.pSys
  of a ++ (laneMovers s a).flatMap (fun m => of (256 + m) ++ (s.sv.shares.filter fun x => x.1 == m).flatMap fun x => wordsOf 1 x.2.2)

/-- The words of a feedback input and of an SDM input as the cycle takes them: the active's in a standby (R230, R235). -/
def sourceWords (s : State) (c : Bool × Nat) : List Word :=
  let i := match s.pr.inc with
    | some i => if isStandby s && !s.pr.ownNow then i else ownInc s
    | none => ownInc s
  if c.1 then
    match i.2.1[c.2]? with
    | some x => wordsOf 1 x.1 ++ [word x.2.toNat]
    | none => []
  else
    match i.1[c.2]? with
    | some x => wordsOf 2 x.cnt ++ wordsOf 1 x.frac ++ [word (x.perValid.toNat * 4 + x.seated.toNat * 2 + x.fault.toNat)]
    | none => []

/-- The inputs a batch used, in the order of IN and INC: SUBST mask, axis records, feedback and SDM inputs, k_m (R237). -/
def inputWords (s : State) (b : Nat) : List Word :=
  let axes := (batchAxes s b).filter (driven s)
  [word ((batchAxes s b).zipIdx.foldl (fun m x => if s.sv.subst.contains x.1 then m + 2 ^ x.2 else m) 0)] ++
    (axes.flatMap fun a => match usedRecord s a with
      | some r => wordsOf 2 r.pos.toInt ++ wordsOf 1 r.fact.toInt ++ [word r.astat.toNat]
      | none => []) ++
    (batchSources s b).flatMap (sourceWords s) ++ wordsOf 2 (cyKm s)

/-- The signatures of a batch (R237). -/
def sigOf (s : State) (b : Nat) : SigRec :=
  { batch := b, seq := s.lk.q, own := s.pr.ownNow, isig := crc32 (wordBits (inputWords s b)), osig := (batchAxes s b).map fun a => crc16 (wordBits (laneWords s a)) }

/-! ### Ending a batch -/

/-- The check lane of a batch in the period with sequence number q: a disagreement is a computation fault of the axis (R153, R154). -/
def checkLane (b q : Nat) (bad : Bool) (s : State) : State :=
  match (batchAxes s b)[q % 8]? with
  | some a =>
    if bad && !s.pr.diag then
      ghFault 0x11 a .unitD (raiseEvent 4 (count 0xF100E1 (count (svBase a + 0x90) (putBit (svBase a + 3) 9 true s))))
    else s
  | none => s

/-- The mover programs of an axis's lane, with their flags taken together. -/
def moverPrograms (b a : Nat) (ms : List Nat) (s : State) : State × StageFlags :=
  ms.foldl (fun (x : State × StageFlags) m => let r := moverProgram b a m x.1; (r.1, x.2.or r.2)) (s, StageFlags.none)

/-- The programs of batch b (R128, R137-R149). -/
def batchPrograms (b : Nat) (s : State) : State :=
  let axes := batchAxes s b
  let olds := axes.map fun a => ((loopOf s a).vAct, (loopOf s a).age == 0)
  let s1 := forEach (axes.filter (driven s)) intake s
  let s2 := axes.foldl (fun (x : State × List StageFlags) a => let r := moverPrograms b a (ledBy s1 a) x.1; (r.1, x.2 ++ [r.2])) (s1, [])
  let s3 := forEach ((axes.zipIdx.zip olds).zip s2.2) (fun x s => axisProgram x.1.1.1 x.1.1.2 x.1.2.1 x.1.2.2 x.2 s) s2.1
  { s3 with sv := { s3.sv with batch := none, done := b } }

/-- What the end of a batch hands on: its signatures to the partner, its set-points to the link, the check lane's answer (R154, R200, R237). -/
def batchPublish (bad : Bool) (sig : SigRec) (qs : List SetpQueue) (s : State) : State :=
  let s1 := { s with lk := { s.lk with toSend := s.lk.toSend ++ qs.map fun x => { x with ready := s.now + 40 } } }
  let s2 := if paired s1 then
      sendFrame { pairFrame s1 (.pSig sig.batch sig.own sig.isig sig.osig) with seq := sig.seq } { s1 with pr := { s1.pr with sigOwn := s1.pr.sigOwn ++ [sig] } } else s1
  let s3 := checkLane sig.batch sig.seq bad s2
  afterStill (if sig.batch = batchCount s3 then raiseEvent 3 s3 else s3)

/-! ### First use and parameters at a boundary -/

/-- First use of an axis or mover (R150). -/
def firstUseOf (o : Nat) (s : State) : State := ckFirstUse o (setLoop o (firstUse s.now (loopOf s o)) s)

/-- First use of everything: entry into RUN-ACTIVE or RUN-STANDBY from JOIN (R150). -/
def firstUseAll (s : State) : State :=
  forEach (engineAxes s) firstUseOf (forEach (movers s) (fun m s => firstUseOf (256 + m) s) s)

/-- Re-energising a group starts a first use of its objects (R147, R150). -/
def firstUseGroup (g : Fin 4) (s : State) : State :=
  forEach ((engineAxes s).filter fun a => axisGroup s a == g) firstUseOf
    (forEach ((movers s).filter fun m => objGroup s (256 + m) == g) (fun m s => firstUseOf (256 + m) s) s)

/-- A set holds a shift of +9 to +15 (R132, R152). -/
def setBad (s : State) (a k : Nat) : Bool :=
  let w (i : Nat) : Word := inForce s (svBase a + 32 + 16 * k + i)
  let bad (f : Nat) : Bool := decide (9 ≤ f) && decide (f ≤ 15)
  [(w 10, 15), (w 10, 10), (w 10, 5), (w 10, 0), (w 11, 15), (w 11, 10), (w 11, 5), (w 11, 0), (w 12, 15)].any fun x => bad (fld x.1 (x.2 + 4) x.2)

/-- A parameter set is selected, or refused with PAR_ERR; REQ then names the set in force again (R13, R151, R152). -/
def selectSetTo (a req : Nat) (s : State) : State :=
  if req = svAct s a then s
  else if setBad s a req then putBit 0xF100E0 13 true (putFld (svBase a + 1) 19 18 (svAct s a) s)
  else putFld (svBase a + 1) 17 16 req s

/-- The requested parameter set takes effect. -/
def selectSet (a : Nat) (s : State) : State := selectSetTo a (fldOf s (svBase a + 1) 19 18) s

/-- Commits a biquad, or clears the state of one that is disabled (R141, R159). -/
def commitBiquad (n : Nat) (s : State) : State :=
  let a := n / 4
  let k := n % 4
  { s with sv := { s.sv with bq := (List.range 5).foldl (fun m i => mapPut 0 m (256 * a + 8 * k + i) (regGet s (svBase a + 0x60 + 8 * k + i))) s.sv.bq } }

/-- A taken write of A2 asks for the commit at the next boundary (R159). -/
def askBiquad (n : Nat) (s : State) : State :=
  if s.sv.bqPend.contains n then s else { s with sv := { s.sv with bqPend := s.sv.bqPend ++ [n] } }

/-- The period of the engine begins anew. -/
def enginePeriod (s : State) : State :=
  let s1 := { s with sv := { s.sv with batch := none, done := 0, subst := [], pSum := 0, pMot := 0, shares := [] } }
  forEach (engineAxes s1) (fun a s => whenB (bit (regGet s (svBase a + 2)) 19) (putWord (svBase a + 2) (setBit (regGet s (svBase a + 2)) 19 false)) s) s1

/-- When the part leaves CONFIG: batches per period, and the rules of junction partners (R127, R149). -/
def engineConfigured (s : State) : State :=
  let bad := (List.range (axisCount s)).any fun a => isSegAxis s a && bitOf s (mpBase a) 14 && !partnerOk s a
  whenB bad (putBit 0xF100E0 10 true) (putFld 0xF100E0 19 14 (batchCount s) s)

end Sys2Proof.Machine
end

