-- ==== Sys2Proof/Machine/Belvedere.lean ====
section
/-! DEFINITION. Belvedere: sources, sampling, capture groups, triggers, headers, measurements and the archive (06 R161-R181). -/

namespace Sys2Proof.Machine

def bvHdr (g : Nat) : Nat := 0xF20180 + 32 * g
def bvMeas (g : Nat) : Nat := 0xF20200 + 32 * g

/-! ### Sources (R161, R162) -/

/-- A slice of a 40-bit value (R162). -/
def bvSlice (shift : Nat) (v : Int) : Word := word (wrapN 40 v / 2 ^ shift)

/-- The value a readout pair of an axis window shows. -/
def readPair (s : State) (a off : Nat) : Int := sext 40 ((svReadout s a off).toNat * 2 ^ 20 + (svReadout s a (off + 1)).toNat)

/-- A servo-engine signal of an axis (R161). -/
def bvAxisSignal (s : State) (a sig shift : Nat) : Option Word :=
  if sig = 0 then some (bvSlice shift (asr (loopOf s a).x 12))
  else if sig = 1 then some (bvSlice shift (spNow s a))
  else if sig = 5 then some (word (wrapN 20 (satI 20 (roundShift (readPair s a 0x86) 20))))
  else if sig ≤ 4 then some (svReadout s a (0x81 + sig))
  else if sig ≤ 9 then some (svReadout s a (0x82 + sig))
  else if sig = 10 then some (svReadout s a 0x8E)
  else if sig = 11 then some (svReadout s a 0x8C)
  else if sig = 12 then some (svReadout s a 0x8D)
  else none

/-- A number saturated to 7FFFFh. -/
def satWord (n : Nat) : Word := word (min n 0x7FFFF)

/-- A Pumphouse quantity (R306); numbers without one read 00000h. -/
def phQuantity (s : State) (i : Nat) : Word :=
  if i = 0 then word (min s.ph.vbus 0xFFFFF)
  else if i = 1 then word (min s.ph.vhold 0xFFFFF)
  else if i = 2 then word (s.ph.eff + 8 * s.ph.meas)
  else if i = 3 then word s.ph.km
  else if i = 4 then satWord s.sv.pMot.toNat
  else if i = 5 then satWord (s.sv.pMot - s.sv.pSum).toNat
  else if i = 6 then satWord s.ph.aSum
  else if i = 7 then word s.ph.duty
  else if 8 ≤ i ∧ i ≤ 11 then regGet s (0xF3802C + i - 8)
  else 0

/-- The sample of a channel, or none where its source is not valid (R161, R162). -/
def bvSource (s : State) (src aux : Word) : Option Word :=
  let k := fld src 19 16
  let i := fld src 15 8
  let sig := fld src 7 4
  let shift := fld aux 19 15
  if k = 1 then (if axisConfigured s i && (decide (shift ≤ 20) || decide (2 ≤ sig)) then bvAxisSignal s i sig shift else none)
  else if k = 2 then
    if !moverConfigured s i then none
    else if sig = 0 then (if shift ≤ 20 then some (bvSlice shift (actPos s (256 + i))) else none)
    else if sig = 1 then some (word (wrapN 20 (loopOf s (256 + i)).fOut)) else none
  else if k = 3 then (if i < 8 ∧ bitOf s (0xF38018 + i) 19 then some (word (wrapN 20 s.ph.sdm[Fin.ofNat 8 i].ci)) else none)
  else if k = 4 then (if i < 16 ∧ fldOf s (0xF04000 + 32 * i) 19 17 ≠ 0 ∧ shift ≤ 20 then some (bvSlice shift s.fb[Fin.ofNat 16 i].ciRep) else none)
  else if k = 5 then some (phQuantity s i)
  else if k = 6 then (if i < 2 then some (word (wrapN 20 (if s.sv.gens[Fin.ofNat 2 i].acts then s.sv.gens[Fin.ofNat 2 i].sample else 0))) else none)
  else none

/-! ### Group settings -/

/-- The channels of group g in force (R164). -/
def bvChans (s : State) (g : Nat) : List (Nat × Word × Word) :=
  (List.range 16).filterMap fun n =>
    let src := inForce s (0xF20000 + 2 * n)
    let aux := inForce s (0xF20001 + 2 * n)
    if fld src 19 16 ≠ 0 ∧ fld aux 14 13 = g then some (n, src, aux) else none

/-- The settings a group takes at ARM (R164). -/
def bvLatchOf (s : State) (g : Nat) : BvLatch :=
  let b := bvBase g
  { chans := bvChans s g, cfg := inForce s b, red := inForce s (b + 1), nsamp := pairN s (b + 2) % 2 ^ 32, base := fldOf s (b + 4) 18 0,
    len := (inForce s (b + 5)).toNat, trg := inForce s (b + 6), tlo := inForce s (b + 7), thi := inForce s (b + 8),
    meas := [0, 1, 2, 3, 4, 5, 6, 8, 9].map fun i => inForce s (bvMeas g + i) }

/-- The words a record may need (R165). -/
def bvNeed (l : BvLatch) : Nat :=
  let m := fld l.red 19 4 + 1
  let c := l.chans.length
  if m = 1 then c * l.nsamp else 2 * c * ((l.nsamp + m - 1) / m + 2)

/-- A pin that TKIND 5h can name. -/
def bvPinOk (t : Nat) : Bool := decide (t < 0x40) || t == 0x40 || t == 0x41

/-- ARM is refused (R165, R168, R180). -/
def bvRefused (s : State) (g : Fin 4) (l : BvLatch) : Bool :=
  let k := fld l.trg 19 16
  let d := fld l.trg 15 14
  let others := (List.finRange 4).any fun h =>
    let y := s.bv.g[h]
    h != g && y.st != .idle && y.st != .done && decide (l.base < y.lat.base + y.lat.len) && decide (y.lat.base < l.base + l.len)
  decide (0x80000 < l.base + l.len) || others || l.chans.isEmpty || decide (l.len < bvNeed l) || decide (100 < fld l.cfg 7 1) || decide (8 ≤ k) || d == 3 ||
    (k == 1 && d == 2) || (decide (1 ≤ k) && decide (k ≤ 3) && !(l.chans.any fun c => c.1 == fld l.trg 13 10)) || (k == 5 && !bvPinOk (fld l.trg 7 0))

def bvStNum : BvState → Nat
  | .idle => 0 | .armed => 1 | .triggered => 2 | .done => 3

/-- ARM at a boundary: settings taken, the record before cleared (R164, R178, R180). -/
def bvArm (g : Fin 4) (s : State) : State :=
  let l := bvLatchOf s g
  if bvRefused s g l then putBit (bvBase g + 9) 7 true s
  else
    let s1 := setBv g { BvGroup.reset with st := .armed, lat := l } s
    let s2 := putWords (bvHdr g) (List.replicate 30 0) (putWords (bvMeas g + 16) (List.replicate 15 0) s1)
    (putBit (bvBase g + 9) 10 false (putBit (bvBase g + 9) 9 false (putFld (bvBase g + 9) 13 11 0 s2)))

/-- ARM may be written now (R178). -/
def bvMayArm (s : State) : Bool := (running s || s.sys.op == .safe) && effLevel s == 0

/-- A write of ARM waits for its boundary, or is dropped and counted (R178, R181). -/
def execArm (who : Requester) (g : Fin 4) (s : State) : Host.Outcome State Fault Refusal :=
  .next (if bvMayArm s then noteCommand who (bvBase g + 9) (stageReg (bvBase g + 9) (setBit (regGet s (bvBase g + 9)) 19 true) (armLock who s))
         else dropWrite who (bvBase g + 9) 6 (armLock who s))

/-! ### Storing (R165, R166) -/

/-- Words stored circularly in the region of a group. -/
def bvStore (g : Fin 4) : List Word → State → State
  | [], s => s
  | w :: ws, s =>
    let x := s.bv.g[g]
    bvStore g ws (setBv g { x with stored := x.stored + 1 } (bvRecSet (x.lat.base + x.stored % max 1 x.lat.len) w s))

/-- The minimum and maximum of a channel over samples, as words (R166). -/
def bvMinMax (c : Nat) (l : List BvSample) : List Word :=
  match l with
  | [] => []
  | y :: ys =>
    let v (z : BvSample) : Int := sval (z.vals.getD c 0)
    [word (wrapN 20 (ys.foldl (fun m z => min m (v z)) (v y))), word (wrapN 20 (ys.foldl (fun m z => max m (v z)) (v y)))]

/-- The samples of the interval that ends with the last one. -/
def bvInterval (x : BvGroup) : List BvSample :=
  let m := bvM x
  match x.samples.getLast? with
  | none => []
  | some z => (x.samples.reverse.takeWhile fun y => y.q / bvSdiv x / m == z.q / bvSdiv x / m).reverse

/-- What the last sample stores: its words, or at the end of an interval a minimum and a maximum per channel (R165, R166). -/
def bvStoreLast (g : Fin 4) (s : State) : State :=
  let x := s.bv.g[g]
  match x.samples.getLast? with
  | none => s
  | some z =>
    if bvM x = 1 then bvStore g z.vals s
    else if (z.q / bvSdiv x + 1) % bvM x = 0 then bvStore g ((List.range x.lat.chans.length).flatMap fun c => bvMinMax c (bvInterval x)) s
    else s

/-! ### Triggers on samples (R168) -/

/-- The value of the trigger channel in a sample. -/
def bvTch (x : BvGroup) (z : BvSample) : Int := sval (z.vals.getD (x.lat.chans.findIdx fun c => c.1 == fld x.lat.trg 13 10) 0)

/-- The condition of kinds 1h to 3h at the newest sample. -/
def bvHit (x : BvGroup) : Bool :=
  let k := fld x.lat.trg 19 16
  let d := fld x.lat.trg 15 14
  let lo := sval x.lat.tlo
  let hi := sval x.lat.thi
  match x.samples.reverse with
  | [] => false
  | z :: rest =>
    let v := bvTch x z
    if k = 1 then (if d = 0 then decide (lo ≤ v) else decide (v ≤ lo))
    else
      match rest with
      | [] => false
      | y :: _ =>
        let u := bvTch x y
        let inside (n : Int) : Bool := decide (lo ≤ n) && decide (n ≤ hi)
        let rise := decide (u < lo) && decide (lo ≤ v)
        let fall := decide (lo < u) && decide (v ≤ lo)
        if k = 2 then (d != 1 && rise) || (d != 0 && fall)
        else k == 3 && ((d != 1 && !inside u && inside v) || (d != 0 && inside u && !inside v))

/-! ### The extent of a record (R167) -/

/-- The first sample that the region still holds; with reduction, the first of the oldest whole interval it holds (R165, R170). -/
def bvHeld (x : BvGroup) : Nat :=
  let c := x.lat.chans.length
  if bvM x = 1 then x.samples.length - x.lat.len / max 1 c
  else
    let ends := (List.range x.samples.length).filter fun i => (bvGrid x i + 1) % bvM x == 0
    let lost := ends.length - x.lat.len / max 1 (2 * c)
    if lost = 0 then 0 else ends.getD (lost - 1) 0 + 1

/-- The first sample of the record; one that ends armed keeps what the region holds (R167, R170). -/
def bvFirst (x : BvGroup) : Nat :=
  match x.trig with
  | none => bvHeld x
  | some t =>
    let a := t - bvP x
    if bvM x = 1 then a
    else a - ((x.samples.take a).reverse.takeWhile fun y => y.q / bvSdiv x / bvM x == bvGrid x a / bvM x).length

/-- The samples of the record: of a complete one up to its end, of one ended early all from its first. -/
def bvRecord (x : BvGroup) : List BvSample :=
  let a := bvFirst x
  match x.trig with
  | some t => (x.samples.drop a).take ((bvPast x t).getD x.samples.length - a)
  | none => x.samples.drop a

/-! ### One sample (R163, R168, R169) -/

/-- The group samples in the period of q. -/
def bvDue (s : State) (x : BvGroup) : Bool := (x.st == .armed || x.st == .triggered) && x.ended.isNone && s.lk.q % bvSdiv x == 0

/-- The trigger sample, once known. -/
def bvMark (t : Nat) (x : BvGroup) : BvGroup :=
  if x.trigWaits then { x with trig := some (x.samples.length - 1), trigWaits := false }
  else if x.st = .armed ∧ bvHit x then { x with st := .triggered, trig := some (x.samples.length - 1), tEvt := t }
  else x

/-- A group takes the sample of the period just ended, stamped with its CI. -/
def bvSample (g : Fin 4) (s : State) : State :=
  let x := s.bv.g[g]
  if !bvDue s x then s
  else
    let vals := x.lat.chans.map fun c => bvSource s c.2.1 c.2.2
    let t := s.lk.ciSys
    let x1 := { x with samples := x.samples ++ [⟨s.lk.q, s.lk.ci, t, vals.map (·.getD 0)⟩] }
    let s1 := whenB (vals.any (·.isNone)) (putBit (bvBase g + 9) 8 true) (setBv g (bvMark t x1) s)
    let s2 := bvStoreLast g s1
    setBv g (bvClosed s2.bv.g[g]) s2

/-- Records that end at a boundary: shed level L1, or a state in which Belvedere does not run (R170). -/
def bvEndings (g : Fin 4) (s : State) : State :=
  let x := s.bv.g[g]
  if (x.st = .armed ∨ x.st = .triggered) ∧ x.ended.isNone then
    if 1 ≤ effLevel s then setBv g { x with ended := some 2 } s
    else if !(running s || s.sys.op == .safe) then setBv g { x with ended := some 3 } s
    else s
  else s

def bvSampleAll (s : State) : State := upTo 4 (fun g s => bvSample (Fin.ofNat 4 g) s) s
def bvEndAll (s : State) : State := upTo 4 (fun g s => bvEndings (Fin.ofNat 4 g) s) s

/-! ### FORCE and STOP (R167, R170) -/

/-- FORCE triggers an armed group now. -/
def bvForce (g : Fin 4) (s : State) : State :=
  let x := s.bv.g[g]
  if x.st = .armed ∧ x.ended.isNone then setBv g (bvAccept s s.now x) s else s

def execForce (who : Requester) (g : Fin 4) (s : State) : Host.Outcome State Fault Refusal := .next (bvForce g (armLock who s))

/-- STOP ends a running record. -/
def bvStop (g : Fin 4) (s : State) : State :=
  let x := s.bv.g[g]
  if (x.st = .armed ∨ x.st = .triggered) ∧ (x.ended.isNone ∨ x.ended = some 0) then setBv g { x with ended := some 1 } s else s

def execStop (who : Requester) (g : Fin 4) (s : State) : Host.Outcome State Fault Refusal := .next (bvStop g (armLock who s))

/-! ### Measurements (R173, R174) -/

/-- The samples of a channel over a record, signed; none where the group does not record it. -/
def bvSeries (x : BvGroup) (ch : Nat) (r : List BvSample) : List Int :=
  if x.lat.chans.any fun c => c.1 == ch then r.map fun z => sval (z.vals.getD (x.lat.chans.findIdx fun c => c.1 == ch) 0) else []

/-- A result held to n bits; one that does not fit has no stated value (DESIGN CHOICE, log entry 45). -/
def bvFit (lo hi : Int) (bits : Nat) (v : Int) : Nat := if lo ≤ v ∧ v ≤ hi then wrapN bits v else Config.beyondFormat v % 2 ^ bits

/-- A sum as the engine holds it, in 64 bits; one that does not fit has no stated value (R173; DESIGN CHOICE, log entry 45). -/
def bvSum (l : List Int) : Int :=
  let v := l.foldl (· + ·) 0
  if -(2 ^ 63) ≤ v ∧ v < 2 ^ 63 then v else wrapI 64 (Config.beyondFormat v)

/-- A quotient of sums; of no samples it has no stated value (DESIGN CHOICE, log entry 43). -/
def bvDiv (a : Int) (n : Nat) : Int := if n = 0 then Config.byZeroScale a else roundTie a n

/-- The square root of a / n, rounded to nearest. -/
def bvRoot (a n : Nat) : Nat :=
  if n = 0 then (Config.byZeroScale a).toNat
  else
    let r := isqrt (a / n)
    if (2 * r + 1) * (2 * r + 1) * n ≤ 4 * a then r + 1 else r

/-- The first sample of largest magnitude. -/
def bvPeak (l : List Int) : Int := l.foldl (fun m v => if |m| < |v| then v else m) 0

/-- The indices of the crossings of a level with its hysteresis (R173). -/
def bvCrossings (lo hi : Int) : List Int → Nat → Bool → List Nat
  | [], _, _ => []
  | v :: vs, i, low =>
    if low ∧ hi ≤ v then i :: bvCrossings lo hi vs (i + 1) (decide (v ≤ lo))
    else bvCrossings lo hi vs (i + 1) (low || decide (v ≤ lo))

/-- The first index of a run of n samples within a bound, from the start of a list. -/
def bvRun (n : Nat) (b : Int) (l : List Int) : Option Nat :=
  (List.range l.length).find? fun i => decide (i + n ≤ l.length) && ((l.drop i).take n).all fun v => decide (|v| ≤ b)

/-- The first index of the final run of samples that meet a test and last to the end. -/
def bvFinalRun (ok : Int → Bool) (l : List Int) : Option Nat :=
  let n := (l.reverse.takeWhile ok).length
  if n = 0 then none else some (l.length - n)

/-- The stop sample, as an index into the record (R174). -/
def bvStopIdx (x : BvGroup) (r : List BvSample) (ti : Nat) : Option Nat :=
  let c := x.lat.meas.getD 0 0
  let v := (bvSeries x (fld c 11 8) r).drop ti
  (bvRun (max 1 (fld c 7 0)) ((x.lat.meas.getD 3 0).toNat : Int) v).map (· + ti)

def bvTime (r : List BvSample) (i : Nat) : Nat := (r.getD i ⟨0, 0, 0, []⟩).t

/-- The fifteen result words at +10h, in order (R173, R180); ti is TIDX where the record was triggered. -/
def bvResults (x : BvGroup) (r : List BvSample) (ti : Option Nat) : List Word :=
  let c := x.lat.meas.getD 0 0
  let m := bvSeries x (fld c 19 16) r
  let n := m.length
  let mtgt := sval (x.lat.meas.getD 1 0)
  let sband : Int := ((x.lat.meas.getD 2 0).toNat : Int)
  let plev := sval (x.lat.meas.getD 4 0)
  let physt : Int := ((x.lat.meas.getD 5 0).toNat : Int)
  let mean := bvDiv (bvSum m) n
  let rms := bvRoot (bvSum (m.map fun v => v * v)).toNat n
  let amp := match m with
    | [] => bvDiv 0 0
    | y :: ys => roundTie (ys.foldl max y - ys.foldl min y) 2
  let cr := bvCrossings (plev - physt) (plev + physt) m 0 false
  let perV := decide (2 ≤ cr.length)
  let per : Int := if perV then roundTie ((bvTime r (cr.getLastD 0) : Int) - bvTime r (cr.headD 0)) (cr.length - 1 : Nat) else 0
  let after := match ti with
    | some t => m.drop t
    | none => []
  let s := mtgt - after.headD 0
  let ovsV := ti.isSome && !after.isEmpty && s != 0
  let ovs : Int := if ovsV then clampI 0 0x7FFFF (roundTie (max 0 (after.foldl (fun b v => max b ((v - mtgt) * sgn s)) 0) * 2 ^ 19) |s|) else 0
  let fr := bvFinalRun (fun v => decide (mtgt - sband ≤ v) && decide (v ≤ mtgt + sband)) after
  let setV := ti.isSome && fr.isSome
  let tset : Int := match ti, fr with
    | some t, some i => (bvTime r (t + i) : Int) - bvTime r t
    | _, _ => 0
  let ks := match ti with
    | some t => bvStopIdx x r t
    | none => none
  let p := bvSeries x (fld c 15 12) r
  let v := bvSeries x (fld c 11 8) r
  let sdist : Int := match ti, ks with
    | some t, some k => wrapI 20 (p.getD k 0 - p.getD t 0) * (x.lat.meas.getD 6 0).toNat
    | _, _ => 0
  let vs : Int := ((x.lat.meas.getD 7 0).toNat % 4096 * 2 ^ 20 + (x.lat.meas.getD 8 0).toNat : Nat)
  let mdec : Int := match ti, ks with
    | some t, some k =>
      let num := (v.getD t 0 - v.getD k 0) * sgn (v.getD t 0) * vs * 10 ^ 9
      let den : Int := (bvTime r k : Int) - bvTime r t
      if den ≤ 0 then Config.byZeroScale num else roundTie num (2 ^ 19 * den)
    | _, _ => 0
  let u32w (n : Nat) : List Word := [word (n / 2 ^ 20), word n]
  [word (wrapN 20 mean), word rms, word (wrapN 20 (bvPeak m)), word (wrapN 20 amp)] ++ u32w (bvFit 0 (2 ^ 32 - 1) 32 per) ++
    [word (wrapN 20 ovs), 0] ++ u32w (bvFit 0 (2 ^ 32 - 1) 32 tset) ++ u32w (bvFit (-(2 ^ 31)) (2 ^ 31 - 1) 32 sdist) ++
    u32w (bvFit (-(2 ^ 31)) (2 ^ 31 - 1) 32 mdec) ++
    [word (perV.toNat * 2 ^ 19 + ovsV.toNat * 2 ^ 18 + setV.toNat * 2 ^ 17 + ks.isSome.toNat * 2 ^ 16)]

/-! ### DONE (R170, R171) -/

/-- The first interval of the record is partial: its samples before the next multiple of M (R166). -/
def bvPartial (x : BvGroup) : Bool := bvM x != 1 && bvFirst x == 0 && bvGrid x 0 % bvM x != 0 && !x.samples.isEmpty

/-- The samples of the first interval of the record; 0 without reduction. -/
def bvFirstN (x : BvGroup) : Nat :=
  if bvM x = 1 then 0
  else ((bvRecord x).takeWhile fun z => z.q / bvSdiv x / bvM x == bvGrid x (bvFirst x) / bvM x).length

/-- Words stored for the samples before the record. -/
def bvSkipped (x : BvGroup) : Nat :=
  let c := x.lat.chans.length
  if bvM x = 1 then c * bvFirst x
  else 2 * c * ((x.samples.take (bvFirst x)).filter fun z => (z.q / bvSdiv x + 1) % bvM x == 0).length

/-- The words of the record: what is stored of it. -/
def bvWords (x : BvGroup) : Nat :=
  let c := x.lat.chans.length
  if bvM x = 1 then c * (bvRecord x).length
  else 2 * c * ((bvRecord x).filter fun z => (z.q / bvSdiv x + 1) % bvM x == 0).length

/-- RECORD_DONE: the header and the measurements are complete and DONE is set (R170, R171). -/
def recordDone (g : Fin 4) (s : State) : State :=
  let x := s.bv.g[g]
  match x.ended with
  | none => s
  | some r =>
    let rec_ := bvRecord x
    let ti := x.trig.map fun t => t - bvFirst x
    let ks := match ti with
      | some t => bvStopIdx x rec_ t
      | none => none
    let allF : List Word := [0xFFFFF, 0xFFFFF, 0xFFFFF, 0xFFFFF]
    let u32w (n : Nat) : List Word := [word (n / 2 ^ 20 % 4096), word n]
    let tw := match x.trig with
      | some t => words64 (bvTime x.samples t)
      | none => allF
    let hdr : List Word := [word (x.lat.base + bvSkipped x % max 1 x.lat.len), word (bvWords x)] ++
      (match ti with
        | some t => u32w t
        | none => [0xFFFFF, 0xFFFFF]) ++ u32w rec_.length ++ words64 (bvTime rec_ 0) ++ tw ++
      (if ti.isSome then words64 x.tEvt else words64 0) ++ (match ks with
        | some k => words64 (bvTime rec_ k)
        | none => words64 0) ++ words64 (bvTime rec_ (rec_.length - 1)) ++
      [word (x.lat.chans.foldl (fun m c => m + 2 ^ c.1) 0), word (bvFirstN x)] ++ u32w (rec_.headD ⟨0, 0, 0, []⟩).q
    let s1 := putWords (bvHdr g) hdr (putWords (bvMeas g + 16) (bvResults x rec_ ti) (setBv g { x with st := .done, ended := none } s))
    raiseEvent (80 + g.val) ((putBit (bvBase g + 9) 10 true (putBit (bvBase g + 9) 9 (bvPartial x) (putFld (bvBase g + 9) 13 11 r s1))))

def execRecordDone (g : Fin 4) (s : State) : Host.Outcome State Fault Refusal := .next (recordDone g s)

/-! ### Archive (R175-R177) -/

def slotBase (i : Nat) : Nat := 0x70000 + 0x400 * i

/-- A valid slot at BOOT (R177). -/
def slotValid (s : State) (i : Nat) : Bool :=
  let b := slotBase i
  let n := (mramGet s (b + 91)).toNat
  fld (mramGet s b) 19 12 == 1 && fld (mramGet s b) 11 6 == i && decide (n ≤ 928) &&
    crc32 (wordBits (mramGetAll s b 94 ++ mramGetAll s (b + 96) n)) == fld (mramGet s (b + 94)) 15 0 * 65536 + fld (mramGet s (b + 95)) 15 0

/-- BV_ARC_OCC shows the valid slots (R177). -/
def showSlots (s : State) : State :=
  upTo 4 (fun i s => putWord (0xF20281 + i) (word ((List.range 16).foldl (fun m b => if slotValid s (16 * i + b) then m + 2 ^ b else m) 0)) s) s

/-- The newest ASEQ among valid slots (R176, R508). -/
def newestAseq (s : State) : Option Nat :=
  (List.range 64).foldl (fun m i =>
    if slotValid s i then
      let q := (mramGet s (slotBase i + 1)).toNat % 4096 * 2 ^ 20 + (mramGet s (slotBase i + 2)).toNat
      if m.all fun n => serialNewer 32 q n then some q else m
    else m) none

/-- The stored words of a record, in record order from FPTR. -/
def bvData (s : State) (x : BvGroup) : List Word :=
  (List.range (bvWords x)).map fun i => bvRecGet s (x.lat.base + (bvSkipped x + i) % max 1 x.lat.len)

/-- The image of a slot (R176). -/
def slotImage (g : Fin 4) (slot : Nat) (s : State) : List Word :=
  let x := s.bv.g[g]
  let h := bvHdr g
  let aseq := match newestAseq s with
    | some n => (n + 1) % 2 ^ 32
    | none => 1
  let clref := (s.sys.per.logNext + 2 ^ 32 - 1) % 2 ^ 32
  let u32w (n : Nat) : List Word := [word (n / 2 ^ 20 % 4096), word n]
  let rg (a n : Nat) : List Word := (List.range n).map fun i => regGet s (a + i)
  let src := (List.range 16).map fun n => match x.lat.chans.find? fun c => c.1 == n with
    | some c => c.2.1
    | none => 0
  let aux := (List.range 16).map fun n => match x.lat.chans.find? fun c => c.1 == n with
    | some c => c.2.2
    | none => 0
  let w := [word (0x1000 + slot * 64)] ++ u32w aseq ++ rg (h + 6) 20 ++ rg (h + 0x1C) 2 ++ rg (h + 4) 2 ++ rg (h + 2) 2 ++ rg (h + 0x1A) 1 ++
    [x.lat.cfg, x.lat.red] ++ rg (h + 0x1B) 1 ++
    [word ((bit (regGet s (bvBase g + 9)) 9).toNat * 8 + fld (regGet s (bvBase g + 9)) 13 11)] ++ src ++ aux ++ x.lat.meas ++
    rg (bvMeas g + 16) 7 ++ rg (bvMeas g + 24) 7 ++ u32w clref ++ rg (h + 1) 1 ++ [0, 0]
  let data := bvData s x
  let c := crc32 (wordBits (w ++ data))
  w ++ [word (c / 65536), word (c % 65536)] ++ data

/-- ARES, the outcome of an archive. -/
def setAres (n : Nat) (s : State) : State := putFld 0xF20280 7 5 n s

/-- ARCH: an archive starts, or ARES says why not (R175); one written in the cycle in which L1 is entered is dropped and counted (R181). -/
def archive (who : Requester) (g : Fin 4) (slot : Nat) (ovw : Bool) (s : State) : State :=
  if s.ph.tShed = some s.now then dropWrite who 0xF20280 6 s
  else
  let s0 := putBit 0xF20280 10 ovw (putFld 0xF20280 16 11 slot (putFld 0xF20280 18 17 g.val s))
  let x := s0.bv.g[g]
  if s0.bv.arch.isSome then s0
  else if x.st ≠ .done then setAres 1 s0
  else if 928 < bvWords x then setAres 2 s0
  else if slotValid s0 slot && !ovw then setAres 3 s0
  else if 1 ≤ effLevel s0 then setAres 5 s0
  else putBit 0xF20280 9 true { s0 with bv := { s0.bv with arch := some (g.val, slot, slotImage g slot s0) } }

def execArch (who : Requester) (g : Fin 4) (slot : Fin 64) (ovw : Bool) (s : State) : Host.Outcome State Fault Refusal :=
  .next (kWrite who 0xF20280 (archive who g slot.val ovw) s)

/-- ARCHIVE_COMPLETE: the slot is written; one that does not verify gives ARES 100b (R175, R177). -/
def archiveComplete (ok : Bool) (s : State) : State :=
  match s.bv.arch with
  | none => s
  | some (_, slot, img) =>
    let s1 := pcSys 0x5D img.length (mramPutAll (slotBase slot) img { s with bv := { s.bv with arch := none } })
    raiseEvent 84 (putBit 0xF20280 8 true (putBit 0xF20280 9 false (setAres (if ok then 0 else 4) (showSlots s1))))

def execArchiveComplete (ok : Bool) (s : State) : Host.Outcome State Fault Refusal := .next (archiveComplete ok s)

/-- An archive interrupted at L5 leaves its slot failing its CRC (R175). -/
def abandonArchive (s : State) : State :=
  match s.bv.arch with
  | none => s
  | some (_, slot, img) =>
    let torn := img.take 94 ++ [img.getD 94 0 ^^^ 0xFFFF] ++ img.drop 95
    mramPutAll (slotBase slot) torn { s with bv := { s.bv with arch := none } }

end Sys2Proof.Machine
end

