-- ==== Sys2Proof/Machine/Can.lean ====
section
/-! DEFINITION. The CAN FD controllers: message objects, fall-back queue, receive ring, error states and listen-only (15 R396-R414, R418-R419). -/

namespace Sys2Proof.Machine

def cnBase (c : Fin 2) : Nat := 0xF44000 + 0x2000 * c.val
def cnObj (c : Fin 2) (o : Nat) : Nat := cnBase c + 0x800 + 40 * o

/-- A bit of CN_EVT is set; one enabled in CN_EVTEN that goes from 0 to 1 raises EV74 or EV75 (R414). -/
def cnEvt (c : Fin 2) (n : Nat) (s : State) : State :=
  let was := bitOf s (cnBase c + 3) n
  whenB (!was && bitOf s (cnBase c + 4) n) (raiseEvent (74 + c.val)) (putBit (cnBase c + 3) n true s)

/-- Listen-only is in force: on request, or because the unit is not active (R411). -/
def cnLomf (s : State) (c : Fin 2) : Bool := bitOf s (cnBase c) 18 || !isActive s

def CanState.num : CanState → Nat
  | .init => 0 | .integrating => 1 | .active => 2 | .passive => 3 | .busOff => 4 | .recovering => 5

def cnOnBus (x : Can) : Bool := x.st == .active || x.st == .passive

/-! ### Candidates (R401, R413) -/

/-- What arbitration compares of a frame layout: identifier and format, the lower the stronger. -/
def cnKey (w0 w1 w2 : Word) : Nat :=
  let fdf := (bit w0 18).toNat
  let rtr := (bit w0 15).toNat
  if bit w0 19 then fld w1 10 0 * 2 ^ 22 + 3 * 2 ^ 20 + fld w2 17 0 * 4 + rtr * 2 + fdf
  else fld w1 10 0 * 2 ^ 22 + rtr * 2 ^ 21 + fdf

/-- A candidate whose priority class is held at the present shed level, unless a frame of its own has started (R413). -/
def cnHeld (s : State) (c : Fin 2) (o : Nat) (w0 : Word) : Bool :=
  decide (1 ≤ effLevel s) && decide (fld w0 8 7 ≤ 1) && !s.can[c].tried.contains o

def cnPend (s : State) (c : Fin 2) (o : Nat) : Bool := bitOf s (cnObj c o + 3) 17

/-- The candidates in the order in which ties fall: objects by number, then the queue head as 128. -/
def cnCandidates (s : State) (c : Fin 2) : List (Nat × Nat) :=
  let objs := (List.range 128).filterMap fun o =>
    let w0 := regGet s (cnObj c o)
    if cnPend s c o && !cnHeld s c o w0 then some (o, cnKey w0 (regGet s (cnObj c o + 1)) (regGet s (cnObj c o + 2))) else none
  match s.can[c].queue with
  | [] => objs
  | e :: _ =>
    let w0 := e.frame.getD 0 0
    if cnHeld s c 128 w0 then objs else objs ++ [(128, cnKey w0 (e.frame.getD 1 0) (e.frame.getD 2 0))]

/-- The candidate that would win arbitration. -/
def cnBest : List (Nat × Nat) → Option (Nat × Nat)
  | [] => none
  | x :: xs =>
    match cnBest xs with
    | none => some x
    | some y => if y.2 < x.2 then some y else some x

/-- Any request is held by the shed level (CN_STAT.HELD_L1). -/
def cnHeldL1 (s : State) (c : Fin 2) : Bool :=
  ((List.range 128).any fun o => cnPend s c o && cnHeld s c o (regGet s (cnObj c o))) ||
  (match s.can[c].queue with
   | [] => false
   | e :: _ => cnHeld s c 128 (e.frame.getD 0 0))

/-! ### Ends of requests (R402, R404, R408) -/

/-- The frame words of a candidate. -/
def cnFrame (s : State) (c : Fin 2) (o : Nat) : List Word :=
  if o = 128 then ((s.can[c].queue.head?).map (·.frame)).getD [] else (List.range 40).map fun i => regGet s (cnObj c o + i)

/-- A result enters the result FIFO of 32 entries, or is lost with RESOVF (R408). -/
def cnResult (c : Fin 2) (code tag : Nat) (s : State) : State :=
  let x := s.can[c]
  cnEvt c 18 (if 32 ≤ x.results.length then cnEvt c 11 s else setCan c { x with results := x.results ++ [(code, tag)] } s)

/-- The request of an object ends with a code. -/
def cnObjEnd (c : Fin 2) (o code : Nat) (s : State) : State :=
  let x := s.can[c]
  let s1 := setCan c { x with late := x.late.filter (fun n => n != o), tried := x.tried.filter (fun n => n != o), acks := mapPut 0 x.acks o 0 } s
  let s2 := putFld (cnObj c o + 3) 16 14 code (putBit (cnObj c o + 3) 17 false s1)
  whenB (bitOf s2 (cnObj c o) 6) (cnEvt c 19) s2

/-- The queue head ends with a code. -/
def cnHeadEnd (c : Fin 2) (code : Nat) (s : State) : State :=
  match s.can[c].queue with
  | [] => s
  | e :: es => cnResult c code (fld (e.frame.getD 3 0) 7 0) (setCan c { s.can[c] with queue := es, tried := s.can[c].tried.filter fun n => n != 128 } s)

def cnEnd (c : Fin 2) (o code : Nat) (s : State) : State := if o = 128 then cnHeadEnd c code s else cnObjEnd c o code s

/-- A candidate has a late cancel. -/
def cnLate (s : State) (c : Fin 2) (o : Nat) : Bool :=
  if o = 128 then ((s.can[c].queue.head?).map (·.late)).getD false else s.can[c].late.contains o

/-- ACK errors met in a row by a candidate's own attempts. -/
def cnAcks (s : State) (c : Fin 2) (o : Nat) : Nat :=
  if o = 128 then ((s.can[c].queue.head?).map (·.acks)).getD 0 else mapGet 0 s.can[c].acks o

def cnSetAcks (c : Fin 2) (o n : Nat) (s : State) : State :=
  let x := s.can[c]
  if o = 128 then
    match x.queue with
    | [] => s
    | e :: es => setCan c { x with queue := { e with acks := n } :: es } s
  else setCan c { x with acks := mapPut 0 x.acks o n } s

/-! ### Requests (R400, R404, R408) -/

/-- TXRQ (R400). A request that is already pending keeps its request and drops the write. -/
def cnTxrq (who : Requester) (c : Fin 2) (o : Nat) (s : State) : State :=
  let w0 := regGet s (cnObj c o)
  if !bit w0 10 || !bit w0 9 || cnPend s c o then dropWrite who (cnObj c o + 3) 7 s
  else
    let cfg := regGet s (cnBase c + 1)
    if (bit w0 18 && !bit cfg 19) || (bit w0 18 && bit w0 15) || (bit w0 17 && !bit cfg 18) then cnObjEnd c o 6 s
    else
      let x := s.can[c]
      putFld (cnObj c o + 3) 17 14 8 (setCan c { x with acks := mapPut 0 x.acks o 0 } s)

/-- The candidate takes part in the frame on the bus. -/
def cnInFrame (s : State) (c : Fin 2) (o : Nat) : Bool :=
  match s.can[c].bus with
  | some b => b.own == some o
  | none => false

/-- CANCEL (R404): at once before the SOF, late from the SOF on. -/
def cnCancel (c : Fin 2) (o : Nat) (s : State) : State :=
  if !cnPend s c o then s
  else if cnInFrame s c o then
    let x := s.can[c]
    setCan c { x with late := if x.late.contains o then x.late else o :: x.late } s
  else cnObjEnd c o 2 s

/-- PUSH appends the staging window to the queue (R408). -/
def cnPush (c : Fin 2) (s : State) : State :=
  let x := s.can[c]
  if 32 ≤ x.queue.length then cnEvt c 12 (count (cnBase c + 0x15) s)
  else
    let f := (List.range 40).map fun i => regGet s (cnBase c + 0x180 + i)
    setCan c { x with queue := x.queue ++ [⟨f, false, 0⟩] } s

/-- FLUSH cancels every queue entry by the rule of CANCEL: an entry in the frame on the bus is cancelled late (R404). -/
def cnFlush (c : Fin 2) (s : State) : State :=
  if cnInFrame s c 128 then
    match s.can[c].queue with
    | [] => s
    | e :: es =>
      let s1 := setCan c { s.can[c] with queue := [{ e with late := true }] } s
      forEach es (fun e s => cnResult c 2 (fld (e.frame.getD 3 0) 7 0) s) s1
  else
    let es := s.can[c].queue
    forEach es (fun e s => cnResult c 2 (fld (e.frame.getD 3 0) 7 0) s) (setCan c { s.can[c] with queue := [], tried := s.can[c].tried.filter fun n => n != 128 } s)

def cnRpop (c : Fin 2) (s : State) : State := setCan c { s.can[c] with results := s.can[c].results.tail } s

/-- POP: the next frame is shown (R410). -/
def cnPop (c : Fin 2) (s : State) : State :=
  let r := s.can[c].ring.tail
  setCan c { s.can[c] with ring := r, wval := !r.isEmpty } s

/-! ### Mode (R398, R406, R407) -/

/-- A change among error-active, error-passive and bus-off (R406). -/
def cnErrState (c : Fin 2) (s : State) : State :=
  let x := s.can[c]
  if x.st != .active && x.st != .passive then s
  else if 256 ≤ x.tec then
    cnEvt c 15 (cnEvt c 16 (setCan c { x with st := if bitOf s (cnBase c + 1) 15 then .recovering else .busOff } s))
  else
    let want : CanState := if 128 ≤ x.tec ∨ 128 ≤ x.recv then .passive else .active
    if x.st = want then s else cnEvt c 16 (setCan c { x with st := want } s)

/-- The bit timing lies in its ranges and the rates in their columns (R398); the data phase is held to them where it is in use. -/
def cnTimingOk (s : State) (c : Fin 2) : Bool :=
  let b := cnBase c
  let n0 := regGet s (b + 6)
  let n1 := regGet s (b + 7)
  let d0 := regGet s (b + 8)
  let cfg := regGet s (b + 1)
  let brp := fld n0 19 12 + 1
  let t1 := fld n0 11 4 + 1
  let t2 := fld n1 19 13 + 1
  let nbt := brp * (1 + t1 + t2)
  let dbt := (fld d0 19 15 + 1) * (1 + (fld d0 14 10 + 1) + (fld d0 9 6 + 1))
  decide (2 ≤ t1) && decide (2 ≤ t2) && decide (fld n1 12 6 + 1 ≤ t2) && decide (40 ≤ nbt) &&
  (!(bit cfg 19 && bit cfg 18) || (decide (fld d0 5 2 + 1 ≤ fld d0 9 6 + 1) && decide (5 ≤ dbt) && decide (dbt ≤ nbt)))

/-- INIT = 1 takes the controller off the bus at the end of the frame in progress (R407). -/
def cnInitSet (c : Fin 2) (s : State) : State :=
  let x := s.can[c]
  let s1 := putBit (cnBase c) 19 true s
  if x.st = .init then s1
  else if cnOnBus x && x.bus.isSome then setCan c { x with initPend := true } s1
  else setCan c { x with st := .init, bus := none, initPend := false } s1

/-- INIT = 0 starts integration, or is refused with CFG_ERR (R398, R407). -/
def cnInitClear (c : Fin 2) (s : State) : State :=
  if !bitOf s (cnBase c) 19 then s
  else if !cnTimingOk s c then putBit (cnBase c + 2) 13 true s
  else
    let x := s.can[c]
    let x1 := { x with tec := 0, recv := 0 }
    putBit (cnBase c) 19 false (setCan c (if x.st = .init then { x1 with st := .integrating } else x1) s)

/-- The frame on the bus is over; an INIT that waited for its end takes effect. -/
def cnBusFree (c : Fin 2) (s : State) : State :=
  let x := s.can[c]
  if x.initPend then
    setCan c { x with bus := none, initPend := false, st := if bitOf s (cnBase c) 19 then .init else .integrating } s
  else setCan c { x with bus := none } s

/-! ### Frames (R401-R405, R409-R411) -/

/-- START_OF_FRAME: the chosen candidate takes part (R401). -/
def cnStart (c : Fin 2) (t : Nat) (s : State) : State :=
  let x := s.can[c]
  if !cnOnBus x then s
  else
    let own := if cnLomf s c || bitOf s (cnBase c) 19 then none else (cnBest (cnCandidates s c)).map (·.1)
    let tried := match own with
      | some o => if x.tried.contains o then x.tried else o :: x.tried
      | none => x.tried
    setCan c { x with bus := some ⟨own, t⟩, tried := tried } s

/-- A frame enters the ring, or is discarded with RXOVF (R409, R410). -/
def cnRing (c : Fin 2) (f : List Word) (s : State) : State :=
  let x := s.can[c]
  if 512 ≤ x.ring.length then cnEvt c 14 (count (cnBase c + 0x11) s)
  else
    let s1 := count (cnBase c + 0x10) (setCan c { x with ring := x.ring ++ [f], wval := true } s)
    whenB (!x.wval) (raiseEvent (72 + c.val)) s1

/-- The data words of a frame: byte 2k in [15:8] and byte 2k + 1 in [7:0] of word k; bytes that the frame does not have are 00h (DESIGN CHOICE, log entry 72). -/
def cnData (bytes : List Nat) : List Word :=
  (List.range 32).map fun k => word (bytes.getD (2 * k) 0 % 256 * 256 + bytes.getD (2 * k + 1) 0 % 256)

/-- The words +0h to +2h common to every layout of a received frame. -/
def rxHead (f : RxFrame) : Nat :=
  f.xtd.toNat * 2 ^ 19 + f.fdf.toNat * 2 ^ 18 + f.brs.toNat * 2 ^ 17 + f.esi.toNat * 2 ^ 16 + f.rtr.toNat * 2 ^ 15 + f.dlc.toNat * 2 ^ 11

/-- A received frame matches a receive object: enabled, same format and identifier (R403). -/
def cnMatches (s : State) (c : Fin 2) (f : RxFrame) (o : Nat) : Bool :=
  let w0 := regGet s (cnObj c o)
  bit w0 10 && !bit w0 9 && bit w0 19 == f.xtd && fld (regGet s (cnObj c o + 1)) 10 0 == f.base.toNat &&
  (!f.xtd || fld (regGet s (cnObj c o + 2)) 17 0 == f.ext.toNat)

/-- The copy into a receive object: NEW, and OVW over an unread frame (R403). -/
def cnCopy (c : Fin 2) (f : RxFrame) (sof : Nat) (o : Nat) (s : State) : State :=
  let a := cnObj c o
  let s1 := putFld a 19 11 (rxHead f / 2 ^ 11) s
  let s2 := whenB (bitOf s1 (a + 3) 13) (putBit (a + 3) 12 true) s1
  let s3 := putBit (a + 3) 13 true s2
  putWords (a + 8) (cnData (f.data.map (·.toNat))) (putWords (a + 4) (words64 sof) s3)

/-- REC after a valid frame (ISO 11898-1). -/
def cnRecDown (n : Nat) : Nat := if n = 0 then 0 else if n ≤ 127 then n - 1 else 127

/-- FRAME_RECEIVED: ring and mailboxes (R403, R409, R411); an FD frame with FDEN = 0 is a protocol exception or a form error (R396). -/
def cnReceive (c : Fin 2) (f : RxFrame) (t : Nat) (s : State) : State :=
  let x := s.can[c]
  let lom := cnLomf s c
  if !cnOnBus x then s
  else if f.noack && !lom then s
  else if f.fdf && !bitOf s (cnBase c + 1) 19 then
    if bitOf s (cnBase c + 1) 17 then cnEvt c 13 s
    else
      let s1 := count (cnBase c + 0x14) s
      if lom then s1 else cnErrState c (setCan c { x with recv := x.recv + 1 } s1)
  else
    let sof := sysTimeAt s t
    let hits := (List.range 128).filter fun o => cnMatches s c f o
    let s1 := forEach hits (fun o s => cnCopy c f sof o s) s
    let w0 := rxHead f + f.noack.toNat * 2 ^ 9 + (!hits.isEmpty).toNat * 2 ^ 8 + hits.headD 0
    let ws := [word w0, word f.base.toNat, word (if f.xtd then f.ext.toNat else 0), 0] ++ words64 sof ++ cnData (f.data.map (·.toNat))
    let s2 := cnRing c ws s1
    if lom then s2 else cnErrState c (setCan c { s2.can[c] with recv := cnRecDown x.recv } s2)

/-- The loop delay that a frame of this controller measured: an FD frame with bit-rate switching, with TDC_EN (R399). -/
def cnLoopDelay (c : Fin 2) (o : Nat) (tdcm : Option (Fin 128)) (s : State) : State :=
  let w0 := (cnFrame s c o).getD 0 0
  match tdcm with
  | some d => whenB (bitOf s (cnBase c + 9) 19 && bit w0 18 && bit w0 17) (putFld (cnBase c + 10) 6 0 d.val) s
  | none => s

/-- A frame of this controller is sent (R402, R405, R409). -/
def cnSent (c : Fin 2) (o sof : Nat) (s : State) : State :=
  let b := cnBase c
  let passive := s.can[c].st == .passive
  let ots := words64 (sysTimeAt s sof)
  let fr := cnFrame s c o
  let w0 := setBit (fr.getD 0 0) 16 (passive && bit (fr.getD 0 0) 18)
  let full := [w0] ++ (fr.drop 1).take 3 ++ ots ++ fr.drop 8
  let late := cnLate s c o
  let s1 := if o = 128 then s else putWords (cnObj c o + 4) ots (putWord (cnObj c o) w0 s)
  let s2 := cnEnd c o (if late then 3 else 1) s1
  let s3 := count (b + 0x12) (putBit (b + 2) 15 false s2)
  let x := s3.can[c]
  let s5 := setCan c { x with tec := x.tec - 1, ackRun := 0, sent := full :: x.sent } s3
  let own := [word (natSetFld w0.toNat 10 0 1024)] ++ [fr.getD 1 0, fr.getD 2 0, 0] ++ ots ++ fr.drop 8
  cnErrState c (whenB (bitOf s5 (b + 1) 16) (cnRing c own) s5)

/-- An attempt of this controller fails: a late cancel now takes effect (R404). -/
def cnFailed (c : Fin 2) (o : Nat) (s : State) : State := if cnLate s c o then cnEnd c o 5 s else s

/-- An attempt met no dominant ACK (R405). -/
def cnAckError (c : Fin 2) (o : Nat) (s : State) : State :=
  let b := cnBase c
  let x := s.can[c]
  let run := x.ackRun + 1
  let s1 := count (b + 0x14) (count (b + 0x13)
    (setCan c { x with ackRun := run, tec := if x.st = .passive then x.tec else x.tec + 8 } s))
  let s2 := if run = 16 ∧ !bitOf s1 (b + 2) 15 then cnEvt c 17 (putBit (b + 2) 15 true s1) else s1
  let acks := cnAcks s2 c o + 1
  let s3 := cnSetAcks c o acks s2
  let rlim := fldOf s3 (b + 1) 14 7
  cnErrState c (if cnLate s3 c o then cnEnd c o 5 s3 else if rlim ≠ 0 ∧ rlim ≤ acks then cnEnd c o 4 s3 else s3)

/-- Another error in an attempt of this controller (R405, R406). -/
def cnTxError (c : Fin 2) (o : Nat) (s : State) : State :=
  let x := s.can[c]
  let s1 := count (cnBase c + 0x14) (setCan c { x with ackRun := 0, tec := min 511 (x.tec + 8) } s)
  cnErrState c (cnFailed c o (cnSetAcks c o 0 s1))

/-- FRAME_END. Results of a transmitter apply to the candidate in the frame, results of a receiver to a controller with none in it. -/
def cnFrameEnd (c : Fin 2) (r : FrameResult) (tdcm : Option (Fin 128)) (s0 : State) : State :=
  match s0.can[c].bus with
  | none => s0
  | some bus =>
    let s := match bus.own with
      | some o => cnLoopDelay c o tdcm s0
      | none => s0
    let s1 :=
      match bus.own, r with
      | some o, .sent => cnSent c o bus.sof s
      | some o, .lost => cnFailed c o s
      | some o, .ackError => cnAckError c o s
      | some o, .txError => cnTxError c o s
      | some o, .rxError e => cnFailed c o (rx e s)
      | some _, .foreign => s
      | none, .rxError e => rx e s
      | none, _ => s
    cnBusFree c s1
where
  /-- An error met as a receiver: REC rises by 1 or 8, not in listen-only (R411). -/
  rx (eight : Bool) (s : State) : State :=
    let s1 := count (cnBase c + 0x14) s
    if cnLomf s c then s1
    else cnErrState c (setCan c { s1.can[c] with recv := min 255 (s1.can[c].recv + if eight then 8 else 1) } s1)

/-- The controllers have clocks and registers to act on: from the end of BOOT, not in TEST (R420). -/
def cnAlive (s : State) : Bool := afterBoot s

/-! ### Meanings -/

def execInitSet (who : Requester) (c : Fin 2) (s : State) : Host.Outcome State Fault Refusal :=
  .next (if cnAlive s then cnInitSet c (armLock who s) else s)

def execInitClear (who : Requester) (c : Fin 2) (s : State) : Host.Outcome State Fault Refusal :=
  .next (if cnAlive s then cnInitClear c (armLock who s) else s)

/-- INTEGRATION_COMPLETE: the controller becomes error-active (R398). -/
def execIntegrationComplete (c : Fin 2) (s : State) : Host.Outcome State Fault Refusal :=
  .next (if s.can[c].st = .integrating then setCan c { s.can[c] with st := .active } s else s)

def execTxrq (who : Requester) (c : Fin 2) (o : Fin 128) (s : State) : Host.Outcome State Fault Refusal :=
  .next (if cnAlive s then cnTxrq who c o.val (armLock who s) else s)

def execCancel (who : Requester) (c : Fin 2) (o : Fin 128) (s : State) : Host.Outcome State Fault Refusal :=
  .next (if cnAlive s then cnCancel c o.val (armLock who s) else s)

def execPush (who : Requester) (c : Fin 2) (s : State) : Host.Outcome State Fault Refusal :=
  .next (if cnAlive s then cnPush c (armLock who s) else s)

def execFlush (who : Requester) (c : Fin 2) (s : State) : Host.Outcome State Fault Refusal :=
  .next (if cnAlive s then cnFlush c (armLock who s) else s)

def execRpop (who : Requester) (c : Fin 2) (s : State) : Host.Outcome State Fault Refusal :=
  .next (if cnAlive s then cnRpop c (armLock who s) else s)

def execPop (who : Requester) (c : Fin 2) (s : State) : Host.Outcome State Fault Refusal :=
  .next (if cnAlive s then cnPop c (armLock who s) else s)

def execStartOfFrame (c : Fin 2) (t : Nat) (s : State) : Host.Outcome State Fault Refusal :=
  .next (cnStart c t (advance t s))

def execFrameEnd (c : Fin 2) (r : FrameResult) (tdcm : Option (Fin 128)) (t : Nat) (s : State) : Host.Outcome State Fault Refusal :=
  .next (cnFrameEnd c r tdcm (advance t s))

def execFrameReceived (c : Fin 2) (f : RxFrame) (sof : Nat) (s : State) : Host.Outcome State Fault Refusal :=
  .next (cnReceive c f sof s)

/-- BUS_OFF_RECOVERY (R406). -/
def execBusOffRecovery (c : Fin 2) (s : State) : Host.Outcome State Fault Refusal :=
  .next (if s.can[c].st = .recovering then cnEvt c 16 (setCan c { s.can[c] with st := .active, tec := 0, recv := 0 } s) else s)

/-! ### What the registers of a controller show (R418) -/

/-- The live words of the CN_ block: status, counters, window, queue result. -/
def cnShow (s : State) (c : Fin 2) (off : Nat) (w : Word) : Word :=
  let x := s.can[c]
  if off = 2 then
    word (natSetFld w.toNat 19 16 (x.st.num * 2 + (cnLomf s c).toNat) / 2 ^ 15 * 2 ^ 15 + (cnHeldL1 s c).toNat * 2 ^ 14 + (bit w 13).toNat * 2 ^ 13)
  else if off = 5 then word (x.tec % 512 * 2 ^ 11 + x.recv % 256 * 2 ^ 3)
  else if off = 0x20 then word (x.wval.toNat * 2 ^ 18 + x.ring.length)
  else if off = 0x22 then word (x.results.length * 2 ^ 8 + x.queue.length)
  else if off = 0x24 then
    match x.results with
    | [] => 0
    | (code, tag) :: _ => word (2 ^ 19 + code * 2 ^ 16 + tag)
  else if 0x100 ≤ off ∧ off < 0x128 then (if x.wval then (x.ring.headD []).getD (off - 0x100) 0 else 0)
  else w

end Sys2Proof.Machine
end

