-- ==== Sys2Proof/Machine/Degrade.lean ====
section
/-! DEFINITION. Entry into DEGRADED (09 R276). -/

namespace Sys2Proof.Machine

/-- DEG_T in ms: 0 is taken as 1 s, more than 300 as 300 s. -/
def degTime (s : State) : Nat :=
  let d := fldOf s 0xF34000 19 11
  1000 * (if d = 0 then 1 else min d 300)

/-- A running injection ends by the state (R157, R276). -/
def endInjections (s : State) : State := forEach (List.finRange 2) injectionEnd s

/-- Entry into DEGRADED at a boundary: caps, LANDING to movers, STOP normal to other profiles, no injection (R276). -/
def enterDegraded (s : State) : State :=
  if s.sys.op = .runActive ∨ s.sys.op = .runStandby then
    let s1 := { s with sys := { s.sys with op := .degraded }, gh := { s.gh with degPend := false, tDeg := s.now } }
    endInjections (landAll (raiseEvent 8 (putFld 0xF34004 18 0 (degTime s) s1)))
  else { s with gh := { s.gh with degPend := false } }

/-- GH_DEG_LEFT as read: the degraded time left, in ms (R276). -/
def degLeft (s : State) : Nat := if s.sys.op = .degraded then fldOf s 0xF34004 18 0 - (s.now - s.gh.tDeg) / 600000 else 0

end Sys2Proof.Machine
end

