-- ==== Sys2Proof/Machine/Schedule.lean ====
section
/-! DEFINITION. The wiring of the Henbel link and the schedule its controller derives when the part leaves CONFIG (07 R184-R203). Times are in 0.1 ns unless a name says otherwise. -/

namespace Sys2Proof.Machine

def lkNode (a : Nat) : Nat := 0xF28100 + 16 * a

/-- The role of port p: 0 unused, 1 node section, 2 closure (R187). -/
def portRole (s : State) (p : Nat) : Nat := fldOf s (0xF28010 + p) 19 18

/-- Channel c is wired as a ring: LKx1 is in use (R187). -/
def ringWired (s : State) (c : Nat) : Bool := portRole s (2 * c + 1) != 0

def nodeEn (s : State) (a : Nat) : Bool := decide (2 ≤ a) && decide (a ≤ 121) && bitOf s (lkNode a) 19
def nodeCh (s : State) (a : Nat) : Nat := (bitOf s (lkNode a) 18).toNat
def nodeNax (s : State) (a : Nat) : Nat := fldOf s (lkNode a) 17 14 + 1
def nodeFirst (s : State) (a : Nat) : Nat := fldOf s (lkNode a) 13 6
def nodeAxes (s : State) (a : Nat) : List Nat := (List.range (nodeNax s a)).map fun i => nodeFirst s a + i

/-- The configured nodes of channel c, in ascending link address (R186). -/
def chNodes (s : State) (c : Nat) : List Nat := (List.range 122).filter fun a => nodeEn s a && nodeCh s a == c

/-- The position p of a node on its channel (R186). -/
def nodePos (s : State) (a : Nat) : Nat := (chNodes s (nodeCh s a)).idxOf a + 1

/-- H_c of a channel. -/
def hopMax (s : State) (c : Nat) : Nat := fldOf s (0xF28002 + c) 11 0
def guard10 (s : State) : Nat := 10 * fldOf s 0xF28001 9 0

/-- The cables from head h to the node at position p of n, by its LKx0 and by its LKx1 where it has one (R187, R189). -/
def cables0 (b : Bool) (n p : Nat) : Nat := if b then n + 1 - p else p
def cables1 (pair b : Bool) (n p : Nat) : Nat := if pair then (if b then p + 1 else n + 2 - p) else n + 1 - p

/-- The shorter path from a node to head h (R199). -/
def cablesMin (s : State) (b : Bool) (c p : Nat) : Nat :=
  let n := (chNodes s c).length
  if ringWired s c then min (cables0 b n p) (cables1 (paired s) b n p) else cables0 b n p

/-- The heads of the link: one, or units A and B. -/
def headsOf (s : State) : List Bool := if paired s then [false, true] else [false]

/-! ### Frames on the wire (R184) -/

/-- The wire time of a frame of so many header and payload bytes, with pad, CRC and delimiters. -/
def wireTime (bytes : Nat) : Nat := (bytes + bytes % 2 + 4 + 4) * 32

def wireUpl (nax : Nat) : Nat := wireTime (8 + 8 + 9 * nax)
def wireSetp (nax : Nat) : Nat := wireTime (12 + 4 + 11 * nax)
/-- S_max of the mode (R204). -/
def sMax (s : State) : Nat := if modeOf s = 1 then 1024 else if modeOf s = 2 then 256 else 512
def wireSvd (s : State) : Nat := wireTime (12 + 8 + sMax s)
def wireSvu (s : State) : Nat := wireTime (8 + 8 + sMax s)
/-- F_MARK, 115.2 ns. -/
def wireMark : Nat := wireTime (12 + 16)

/-! ### The cycle (R197-R199) -/

/-- CI lies 1.000 µs after T0. -/
def ciOfs : Nat := 10000

/-- The slots of a channel from an opening time on: node and s(p) (R198). -/
def slotsFrom (s : State) (c : Nat) : List Nat → Nat → List (Nat × Nat)
  | [], _ => []
  | a :: as, t => (a, t) :: slotsFrom s c as (t + wireUpl (nodeNax s a) + guard10 s + hopMax s c)

def slotsOf (s : State) (c : Nat) : List (Nat × Nat) := slotsFrom s c (chNodes s c) (ciOfs + guard10 s)

/-- s(p) of a node. -/
def slotOf (s : State) (a : Nat) : Nat := (lookupNat (slotsOf s (nodeCh s a)) a).getD 0

/-- The end of the last slot of a channel. -/
def lastSlotEnd (s : State) (c : Nat) : Nat :=
  (slotsOf s c).foldl (fun m x => max m (x.2 + wireUpl (nodeNax s x.1) + guard10 s + hopMax s c)) (ciOfs + guard10 s)

/-- The instant at which a node's uplink has wholly reached every head over the shorter of its paths. -/
def uplReached (s : State) (a : Nat) : Nat :=
  let c := nodeCh s a
  (headsOf s).foldl (fun m b => max m (slotOf s a + wireUpl (nodeNax s a) + cablesMin s b c (nodePos s a) * hopMax s c)) 0

/-- UPEND (R199). -/
def upEnd (s : State) : Nat :=
  let last := max (lastSlotEnd s 0) (lastSlotEnd s 1)
  let reach := ((chNodes s 0) ++ (chNodes s 1)).foldl (fun m a => max m (uplReached s a)) 0
  max ((max last reach + 999) / 1000 * 1000) (10 * fldOf s 0xF28004 19 0)

/-- P_c. -/
def pathMax (s : State) (c : Nat) : Nat := ((chNodes s c).length + 1) * hopMax s c

/-- SVEND(c). -/
def svEnd (s : State) (c : Nat) : Nat :=
  let tsu := upEnd s + guard10 s + wireSvd s + pathMax s c + guard10 s
  tsu + wireSvu s + pathMax s c + guard10 s

/-- TG of the nominal cycle, in 1/30 ns. -/
def nominalTg (s : State) : Int := cy30 (nominalPeriod s) + ns30 ciOfs - ns30 (guard10 s)

/-- The batch after which a node's frame can leave: the last batch with one of its axes (R200). -/
def nodeBatch (s : State) (a : Nat) : Option Nat :=
  ((nodeAxes s a).filter fun x => (engineAxes s).contains x && carriesAxis s (nodeCh s a) x).foldl (fun m x => some (max (m.getD 0) (batchOf s x))) none

/-- The nodes of channel c whose frames belong to batch b, in ascending address. -/
def batchNodes (s : State) (c b : Nat) : List Nat := (chNodes s c).filter fun a => nodeBatch s a == some b

/-- The longest way of the frames of a batch on channel c to their nodes, for a head's port: wire time up to each frame and its cables (R202). -/
def framesReach (s : State) (c : Nat) (k : Nat → Nat) : List Nat → Nat → Nat
  | [], _ => 0
  | a :: as, t =>
    let e := t + wireSetp (nodeNax s a)
    max (e + k (nodePos s a) * hopMax s c) (framesReach s c k as (e + 64))

/-- The paths a batch's frames take from node-section ports: p from unit A or LKx0, N + 1 - p from unit B or LKx1 (R202). -/
def frameWays (s : State) (c : Nat) : List (Nat → Nat) :=
  let n := (chNodes s c).length
  if paired s || ringWired s c then [fun p => p, fun p => n + 1 - p] else [fun p => p]

/-- Tdl(b) less its 40 cy. -/
def batchReach (s : State) (b : Nat) : Nat :=
  [0, 1].foldl (fun m c => (frameWays s c).foldl (fun m k => max m (framesReach s c k (batchNodes s c b) 0)) m) 0

/-- SV_GEND for the nominal period, in cy (R202). -/
def svGend (s : State) : Int :=
  let n := batchCount s
  let cand (b : Nat) : Int := nominalTg s - cy30 40 - ns30 (batchReach s b) + cy30 ((n - b) * 1024)
  let g := (List.range n).foldl (fun m i => min m (cand (i + 1))) (nominalTg s - cy30 40) / 50
  if (nominalPeriod s : Int) < g + 40 then (cy30 1 * g - ns30 wireMark - ns30 64) / 50 else g

/-- The latest start of batch b of the nominal cycle, in cy (R129). -/
def latestStart (s : State) (b : Nat) : Int := svGend s - ((batchCount s + 1 - b) * 1024 : Nat)

/-- The schedule is refused: a batch must start before its uplinks are there, SVEND leaves less than 1.000 µs before TG, or the guard is out of range (R203). -/
def schedBad (s : State) : Bool :=
  let g := fldOf s 0xF28001 9 0
  let late := (List.range (batchCount s)).any fun i =>
    (chNodes s 0 ++ chNodes s 1).any fun a =>
      (nodeAxes s a).any (fun x => (batchAxes s (i + 1)).contains x) && decide (cy30 1 * latestStart s (i + 1) < ns30 (uplReached s a))
  let close := [0, 1].any fun c => decide (nominalTg s < ns30 (svEnd s c) + ns30 10000)
  late || close || decide (g < 32) || decide (512 < g)

/-- The derived schedule, shown in its registers, with SCHED_ERR where it is refused (R198, R199, R202, R203). Instants are shown in whole ns, rounded down. -/
def deriveSchedule (s : State) : State :=
  let s1 := forEach (slotsOf s 0 ++ slotsOf s 1) (fun x s => putWord (lkNode x.1 + 10) (word (x.2 / 10)) s) s
  let s2 := putWord 0xF28007 (word (svEnd s 1 / 10)) (putWord 0xF28006 (word (svEnd s 0 / 10)) (putWord 0xF28005 (word (upEnd s / 10)) s1))
  putBit 0xF28009 15 (schedBad s) (putFld 0xF100E2 16 0 (svGend s).toNat s2)

end Sys2Proof.Machine
end

