-- ==== Sys2Proof/Machine/Frames.lean ====
section
/-! DEFINITION. The frames that a head sends: types, payload lengths, bytes with header, pad and CRC, code groups on the wire, and the ports they leave by (07 R184, R190, R192-R196, R201; 08 R229, R230). -/

namespace Sys2Proof.Machine

/-! ### Types and lengths (R192, R230) -/

/-- TYPE of a link frame, or PTYPE of a pair-lane frame. -/
def FrameBody.type : FrameBody → Nat
  | .mark .. => 1
  | .cstart .. => 2
  | .setp .. => 3
  | .svd .. => 5
  | .svdJoin .. => 5
  | .forwarded t _ _ => t
  | .pState .. => 1
  | .pInc .. => 2
  | .pIn .. => 3
  | .pSig .. => 4
  | .pBnd .. => 5
  | .pAdopt .. => 6
  | .pSvc .. => 7
  | .pDres .. => 8
  | .pXreq .. => 9
  | .pXack .. => 0xA
  | .pFail .. => 0xB
  | .pClash => 0xC

/-- LEN of a link frame: its payload bytes (R194, R195, R221). A join answer, whose layout the spec does not give, is taken as the service header, a code, two delays and the angles (DESIGN CHOICE, log entry 69). -/
def FrameBody.len : FrameBody → Nat
  | .mark .. => 16
  | .cstart .. => 16
  | .setp _ _ _ recs => 4 + 11 * recs.length
  | .svd _ _ _ _ _ _ data => 8 + data.length
  | .svdJoin _ _ _ a => 8 + 9 + 3 * a.angles.length
  | .forwarded _ n _ => n
  | _ => 0

/-! ### Bytes (R184, R192-R195, R221, R229, R230) -/

/-- A number as n bytes, the most significant first. -/
def beBytes : Nat → Nat → List Byte
  | 0, _ => []
  | n + 1, v => BitVec.ofNat 8 (v / 256 ^ n) :: beBytes n v

/-- An integer as n bytes, two's complement. -/
def beInt (n : Nat) (v : Int) : List Byte := beBytes n (wrapN (8 * n) v)

/-- An axis record of SETP: CMD in 40 bits, FF1 and FF2 in 20 bits each, ACTL (R195). -/
def setpBytes (r : SetpRec) : List Byte := beInt 5 r.1 ++ beBytes 5 (r.2.1.toNat * 2 ^ 20 + r.2.2.1.toNat) ++ beBytes 1 r.2.2.2

/-- An axis record of R196: POS in 40 bits, then FACT in [31:12] and ASTAT in [11:0]. -/
def uplBytes (r : UplRec) : List Byte := beBytes 5 r.pos.toNat ++ beBytes 4 (r.fact.toNat * 2 ^ 12 + r.astat.toNat)

/-- The service header of SVD (R221). -/
def svdHeader (grant gkind acknak msgid : Nat) (last : Bool) (frag : Nat) : List Byte :=
  beBytes 1 grant ++ beBytes 1 gkind ++ beBytes 1 acknak ++ beBytes 1 msgid ++ beBytes 2 (last.toNat * 2 ^ 15 + frag % 2 ^ 15) ++ [0, 0]

/-- The payload of a frame, where the spec lays it out byte by byte; none for the others (log entry 69). -/
def FrameBody.bytes : FrameBody → Option (List Byte)
  | .mark pi pf t c m => some (beBytes 2 pi ++ beBytes 2 pf ++ beBytes 8 t ++ beBytes 2 c ++ beBytes 1 m ++ [0])
  | .cstart pi pf c m => some (beBytes 2 pi ++ beBytes 2 pf ++ beBytes 8 Config.uid.toNat ++ beBytes 2 c ++ beBytes 1 m ++ [0])
  | .setp gc ge tc recs => some (beBytes 4 (gc * 2 ^ 28 + ge * 2 ^ 12 + wrapN 12 tc) ++ recs.flatMap setpBytes)
  | .svd g k a m l f data => some (svdHeader g k a m l f ++ data.flatMap (beBytes 1))
  | .pIn b m recs => some (beBytes 1 b ++ beBytes 1 m ++ recs.flatMap uplBytes)
  | .pSig b own isig osig => some (beBytes 1 b ++ beBytes 1 own.toNat ++ beBytes 4 isig ++ osig.flatMap (beBytes 2))
  | .pXreq x => some (beBytes 4 x)
  | .pClash => some []
  | .svdJoin .. => none
  | .forwarded .. => none
  | .pState .. => none
  | .pInc .. => none
  | .pBnd .. => none
  | .pAdopt .. => none
  | .pSvc .. => none
  | .pDres .. => none
  | .pXack .. => none
  | .pFail .. => none

/-- The 12-byte header of a head's link frame (R192). -/
def headHeader (f : SentFrame) (len : Nat) : List Byte :=
  beBytes 1 (f.body.type * 16 + f.port / 2 * 8 + 1) ++ beBytes 1 (f.src % 128) ++ beBytes 1 (f.dst % 128) ++ beBytes 1 (f.act.toNat * 128) ++
    beBytes 4 f.seq ++ beBytes 2 f.epoch ++ beBytes 2 (len % 4096)

/-- The 10-byte header of a pair-lane frame (R229). -/
def laneHeader (f : SentFrame) (len : Nat) : List Byte :=
  beBytes 1 (f.body.type * 16 + 1) ++ beBytes 1 (f.act.toNat * 128 + f.src % 2) ++ beBytes 2 len ++ beBytes 4 f.seq ++ beBytes 2 f.epoch

/-- Header and payload with the pad byte that makes their number even (R184). -/
def padded (bs : List Byte) : List Byte := if bs.length % 2 = 1 then bs ++ [0] else bs

/-- The CRC of a frame, over each byte from bit 7 down (R193). -/
def frameCrc (bs : List Byte) : Nat := crc32 (bs.flatMap fun b => bitsOf 8 b.toNat)

/-- The L bytes of a frame: header, payload, pad, CRC. -/
def SentFrame.bytes (f : SentFrame) : Option (List Byte) :=
  f.body.bytes.map fun p =>
    let h := padded ((if f.port = 4 then laneHeader f p.length else headHeader f p.length) ++ p)
    h ++ beBytes 4 (frameCrc h)

/-- A code group on a lane: the delimiters, a data byte, and half of an idle ordered set (R182, R184). -/
inductive CodeGroup where
  | start | data (b : Byte) | terminate | carrierExtend | idle
  deriving DecidableEq, Repr

/-- A frame on the wire: /S/, the start byte, its bytes, /T/, /R/, and the idle ordered set that follows (R184). -/
def codeGroups (bs : List Byte) : List CodeGroup := .start :: .data 0xD5 :: bs.map .data ++ [.terminate, .carrierExtend, .idle, .idle]

/-! ### Sending on the link (R190, R194, R201) -/

/-- The time a frame holds its port, with the idle set that follows, in 1/30 ns. -/
def holdTime (header len : Nat) : Nat := 3 * wireTime (header + len) + 192

/-- The ports of channel c that a head sends its own frames on: node section and closure (R190). -/
def ownPorts (s : State) (c : Nat) : List Nat := [2 * c, 2 * c + 1].filter fun p => portRole s p == 1 || portRole s p == 2

/-- When port p is free, from an instant of 1/30 ns on. -/
def portFree (s : State) (p t : Nat) : Nat := max t (s.lk.txEnd.toList.getD p 0)

/-- A frame leaves port p at an instant and holds it (R184). -/
def sendAt (p t header : Nat) (f : SentFrame) (s : State) : State :=
  let s1 := sendFrame { f with port := p, at_ := t } s
  { s1 with lk := { s1.lk with txEnd := s1.lk.txEnd.setIfInBounds p (t + holdTime header f.body.len) } }

/-- A frame of this head for link address dst. -/
def headFrame (s : State) (dst seq : Nat) (b : FrameBody) : SentFrame :=
  { port := 0, at_ := 0, src := ownAddr s, dst := dst, act := s.pr.active, seq := seq, epoch := s.lk.epoch, body := b }

/-- A frame leaves every own port of channel c as soon as each is free; what it carries may rest on the instant of its /S/ (R190, R194). -/
def sendOwn (c dst seq : Nat) (body : Nat → FrameBody) (s : State) : State :=
  forEach (ownPorts s c) (fun p s => let t := portFree s p (50 * s.now); sendAt p t 12 (headFrame s dst seq (body t)) s) s

/-- CORR of a copy that leaves at an instant of 1/30 ns: its delay beyond T0 in 1/8 ns (R194). -/
def corrOf (s : State) (t : Nat) : Nat := min 65535 ((t - 50 * s.lk.t0) * 8 / 30)

end Sys2Proof.Machine
end

