-- ==== Sys2Proof/Machine/Link.lean ====
section
/-! DEFINITION. The Henbel link: cold start, received frames, uplinks and empty slots, service channel, set-point frames, ports and system time (07 R185-R226). -/

namespace Sys2Proof.Machine

/-! ### Link state and epoch -/

def setLink (st : LinkState) (s : State) : State := { s with lk := { s.lk with st := st } }

def lsNum : LinkState → Nat
  | .off => 0 | .listen => 1 | .coldstart => 2 | .lead => 3 | .follow => 4 | .clash => 5

/-- LK_STAT as read: LSTATE is live (R225). -/
def lkStatWord (s : State) : Word := setFld (regGet s 0xF28009) 19 17 (lsNum s.lk.st)

/-- The role epoch changes and is written to MRAM (R248). -/
def setEpoch (e : Nat) (s : State) : State :=
  let v := e % 65536
  putFld 0xF2800C 15 0 v (pcSys 0x5D 1 { s with lk := { s.lk with epoch := v }, sys := { s.sys with per := { s.sys.per with epoch := v } } })

/-- The role shown in PR_STAT (R254). -/
def roleNow (s : State) : Nat :=
  if s.pr.silent then 4
  else if !paired s then 0
  else
    let standby := if s.pr.unaligned.isEmpty then 3 else 2
    match s.sys.op with
    | .runActive => 1
    | .runStandby => standby
    | .degraded => if s.pr.active then 1 else standby
    | .safe | .recovery => if s.pr.active then 1 else if 2 ≤ fldOf s 0xF30002 19 17 ∧ fldOf s 0xF30002 19 17 ≤ 3 then standby else 0
    | _ => 0

/-- ROLE and ALIGN_LEFT follow the state; a role change is EV25. -/
def showRole (s : State) : State :=
  let r := roleNow s
  let s1 := putFld 0xF30002 5 0 s.pr.unaligned.length s
  if fldOf s1 0xF30002 19 17 = r then s1 else raiseEvent 25 (putFld 0xF30002 19 17 r s1)

/-- A unit in LEAD whose partner carries a newer epoch: it stops transmitting and enters SAFE (R247). -/
def superseded (s : State) : State :=
  showRole (toSafe (putBit 0xF30002 8 true (setLink .off { s with pr := { s.pr with active := false, silent := true } })))

/-- Compares the epoch of a frame of the partner heard on a link port: older, or at half the range, is discarded and counted, newer supersedes a unit in LEAD (R231, R247, R508). The frame may be used where the answer is true. -/
def partnerEpoch (e : Nat) (s : State) : State × Bool :=
  if serialOlder 16 e s.lk.epoch then (count 0xF3000B s, false)
  else if s.lk.st = .lead ∧ serialNewer 16 e s.lk.epoch then (superseded s, false)
  else ({ s with pr := { s.pr with heardLink := true } }, true)

/-! ### Reception checks -/

/-- The link takes part: in JOIN and after, unless it is silent (R213). -/
def linkOn (s : State) : Bool := s.lk.st != .off

/-- The receive checks run and count in every link state, wherever the registers can be reached (R185, R205). -/
def linkCounts (s : State) : Bool := s.sys.op != .powerUp && !s.sys.rstHeld

/-- A frame that a check of R205 discards: counted where the check names, and as a system event (R205, R387). -/
def discardFrame (ctr : Nat) (s : State) : State := pcSys 0x53 1 (count ctr s)

/-- A fragment answered NAK: LK_SVC_NAKCNT, and a system event (R223, R387). -/
def nakFragment (s : State) : State := pcSys 0x54 1 (count 0xF2800D s)

/-- Counts a frame that failed the code, CRC, format or address check at port p; src is its source where that is a configured node (R205). -/
def rxFail (p : Nat) (k : RxCheck) (src : Option Nat) (s : State) : State :=
  match k with
  | .ok => s
  | .code => discardFrame (0xF2801C + p) s
  | .crc => discardFrame (0xF28018 + p) s
  | .format | .address =>
    match src with
    | some a => discardFrame (lkNode a + 5) s
    | none => discardFrame (0xF28018 + p) s

/-- Whether a port is up (R185). -/
def portUp (s : State) (p : Nat) : Bool := s.lk.up.getLsbD p

/-- The check a frame on port p fails: on a port that is not up every frame is invalid (R185). -/
def rxCheck (s : State) (p : Nat) (k : RxCheck) : RxCheck := if portUp s p then k else .code

/-- A frame received on port p with so many header and payload bytes goes out of the channel's other port after 15 code groups, or when that port is free; the excess is added to CORR (R189, R194). -/
def relayFrame (p ftype src header len : Nat) (s : State) : State :=
  let q := if p % 2 = 0 then p + 1 else p - 1
  let due := 50 * s.now + 1440
  let t := portFree s q due
  sendAt q t header { port := q, at_ := t, src := src, dst := 127, act := false, seq := s.lk.q, epoch := 0, body := .forwarded ftype len ((t - due) * 8 / 30) } s

/-- A head forwards node frames both ways, and the partner's MARK, CSTART and SVD from the closure to the node section, where one port of the channel is a closure; never its own frames (R189). -/
def forwardFrame (p ftype src header len : Nat) (s : State) : State :=
  let q := if p % 2 = 0 then p + 1 else p - 1
  let node := ftype == 4 || ftype == 6
  let inward := portRole s p == 2 && portRole s q == 1
  let ok := linkOn s && ((inward && (node || src == partnerAddr s)) || (node && portRole s p == 1 && portRole s q == 2))
  whenB ok (relayFrame p ftype src header len) s

/-! ### Cold start (R213-R215) -/

/-- A profile, an engine and a check start from the first CI in a run state (R93, R150). -/
def startMotion (s : State) : State := firstUseAll (freshProfiles s)

/-- The newer of two stored epochs. -/
def newerEpoch (a b : Nat) : Nat := if serialNewer 16 b a then b else a

/-- The epoch of a cold start: the newest stored epoch of the pair plus 1; the partner's counts where a STATE frame of LISTEN or COLDSTART brought it (R248). -/
def coldEpoch (s : State) : Nat :=
  match s.pr.partnerEpoch with
  | some e => newerEpoch s.sys.per.epoch e + 1
  | none => s.sys.per.epoch + 1

/-- LEAD is entered from JOIN: the unit is active, with the next epoch (R214, R248, R476). -/
def leadFromJoin (s : State) : State :=
  let s1 := { s with lk := { s.lk with st := .lead, running := true }, pr := { s.pr with active := true, wasActive := true }, sys := { s.sys with op := .runActive } }
  showRole (startMotion (setEpoch (coldEpoch s) s1))

/-- LEAD is entered again by a head that left CLASH in a later state than JOIN: the next epoch, its operating state unchanged (R214, R215; DESIGN CHOICE, log entry 70). -/
def leadAgain (s : State) : State := showRole (setEpoch (coldEpoch s) { s with lk := { s.lk with st := .lead, running := true } })

/-- LISTEN ends with nothing heard (R214). -/
def listenEnd (s : State) : State :=
  if s.lk.st = .listen then { s with lk := { s.lk with st := .coldstart, left := 0 } } else s

def execListenEnd (s : State) : Host.Outcome State Fault Refusal := .next (listenEnd s)

/-- After CSTART 0 to 3 the head enters LEAD; MARK goes out from SEQ 4 (R214). -/
def coldstartEnd (s : State) : State :=
  if s.lk.st = .coldstart ∧ s.lk.left = 4 then (if s.sys.op = .join then leadFromJoin s else leadAgain s) else s

def execColdstartEnd (s : State) : Host.Outcome State Fault Refusal := .next (coldstartEnd s)

/-- JOIN_ERR: a single head that comes to follow stays in JOIN (R476). -/
def enterFollow (s : State) : State := whenB (!paired s) (putBit 0xF54001 14 true) (setLink .follow s)

/-- CLASH is entered: COLDSTART_CLASH is set, and the clash is signalled on the pair lane (R215). -/
def enterClash (s : State) : State := whenB (paired s) (sendLane .pClash) (putBit 0xF28009 16 true (setLink .clash s))

/-- A CSTART is forwarded, and acts in LISTEN and COLDSTART (R214). -/
def cstartReceived (p : Nat) (k : RxCheck) (src u : Nat) (s : State) : State :=
  if !linkCounts s then s
  else
    let s0 := forwardFrame p 2 src 12 16 s
    match rxCheck s p k with
    | .ok =>
      if s.lk.st = .listen ∨ s.lk.st = .coldstart then
        if src < ownAddr s then enterFollow s0
        else if src = ownAddr s ∧ u ≠ Config.uid then enterClash s0
        else s0
      else s0
    | k' => rxFail p k' none s0

def execCstartReceived (p : Fin 4) (k : RxCheck) (src : LinkAddr) (u : BitVec 64) (s : State) : Host.Outcome State Fault Refusal :=
  .next (cstartReceived p.val k src.val u.toNat s)

/-- A head that receives a clash signal enters CLASH too, in whichever state its link is but OFF (R215). -/
def clashSignal (s : State) : State := if linkOn s && s.lk.st != .clash then enterClash s else s

def execClash (s : State) : Host.Outcome State Fault Refusal := .next (clashSignal s)

/-- RETRY returns a head from CLASH to LISTEN (R215). -/
def retryLink (s : State) : State := if s.lk.st = .clash then putBit 0xF28009 16 false { s with lk := { s.lk with st := .listen, left := 4 } } else s

def execRetry (who : Requester) (s : State) : Host.Outcome State Fault Refusal := .next (retryLink (armLock who s))

/-- A time in 1/8 ns as whole cy. -/
def cyOf8 (n : Nat) : Nat := n * 3 / 40

/-- A MARK that passes every check: the cycle is followed (R59, R205, R209, R212). -/
def followMark (m : MarkIn) (s : State) : State :=
  let t0 := s.now - cyOf8 (m.corr.toNat + m.delay)
  let n := max 1 (fldOf s 0xF00100 10 0)
  showPeriod { s with
    lk := { s.lk with q := m.seq.toNat, running := true, marked := true, t0 := t0, lastMark := some m.seq.toNat }
    mains := { s.mains with p := m.perInt.toNat * 65536 + m.perFr.toNat, j := (s.mains.j + 1) % n }
    time := { offset := (m.time.toNat : Int) - (t0 * 5 / 3 : Nat), slew := 0, stepped := false, good := 0, tEdge := none } }

/-- The SEQ a MARK must carry: that of the previous valid MARK plus 1; any, where there was none (R205). -/
def markSeqOk (s : State) (seq : Nat) : Bool := s.lk.lastMark.all fun q => seq == (q + 1) % 2 ^ 32

/-- A second copy of the MARK followed in this cycle (R205). -/
def markCopy (s : State) (seq : Nat) : Bool := s.lk.marked && s.lk.lastMark == some seq

/-- MARK_RECEIVED: a head in LISTEN or COLDSTART goes to FOLLOW, and a head in FOLLOW follows the cycle (R205, R214, R231, R247). -/
def markReceived (p : Nat) (k : RxCheck) (m : MarkIn) (s : State) : State :=
  if !linkCounts s then s
  else
    let s0 := forwardFrame p 1 m.src 12 16 s
    let k1 := rxCheck s p k
    if k1 ≠ .ok then rxFail p k1 none s0
    else if !linkOn s then s0
    else if 2 ≤ m.src then rxFail p .address none s0
    else if s.lk.st = .listen ∨ s.lk.st = .coldstart then
      (if m.src = partnerAddr s then
         (if (partnerEpoch m.epoch.toNat s0).2 then followMark m (enterFollow (partnerEpoch m.epoch.toNat s0).1) else (partnerEpoch m.epoch.toNat s0).1)
       else followMark m (enterFollow s0))
    else if m.src = ownAddr s then s0
    else if s.lk.st = .follow ∧ markCopy s m.seq.toNat then s0
    else if s.lk.st = .follow ∧ !markSeqOk s m.seq.toNat then discardFrame (0xF28018 + p) s0
    else
      let (s1, ok) := partnerEpoch m.epoch.toNat s0
      if ok && s1.lk.st == .follow then followMark m s1 else s1

def execMarkReceived (p : Fin 4) (k : RxCheck) (m : MarkIn) (t : Nat) (s : State) : Host.Outcome State Fault Refusal :=
  .next (markReceived p.val k m (advance t s))

/-! ### Uplinks (R205, R206, R210, R220) -/

/-- The safe-off groups of a node's axes, as a mask. -/
def nodeGroups (s : State) (a : Nat) : Nat :=
  (List.range 4).foldl (fun m g => if (nodeAxes s a).any (fun x => axisGroup s x == Fin.ofNat 4 g) then m + 2 ^ g else m) 0

/-- A node joins or leaves: EV77; set-point frames to a node that leaves stop with the next cycle (R220). -/
def setJoined (a : Nat) (on : Bool) (s : State) : State :=
  if (nodeOf s a).joined == on then s
  else raiseEvent 77 (putBit (lkNode a + 1) 19 on (setNode a { nodeOf s a with joined := on, leaving := !on, empties := 0 } s))

/-- The measured delay of a node to this unit's port, where one has been measured (R218). -/
def nodeDelay (s : State) (p a : Nat) : Option Nat :=
  let w := regGet s (lkNode a + 8 + p % 2)
  if w = 0xFFFFF then none else some w.toNat

/-- The arrival of an uplink less its nominal arrival, in 1/8 ns (R205, R210). -/
def uplOffset (s : State) (p : Nat) (u : UplIn) : Option Int :=
  (nodeDelay s p u.node.val).map fun d => (u.arrival : Int) - (slotOf s u.node.val * 8 / 10 + d : Nat)

/-- The clock correction of the leading head (R210). -/
def clockCorrection (a : Nat) (o : Int) (s : State) : State :=
  let n := nodeOf s a
  let s1 := putWord (lkNode a + 7) (word (wrapN 20 o)) (setNode a { n with ofs := o } s)
  if s.lk.st = .lead ∧ n.corrWait = 0 ∧ (fldOf s 0xF28001 9 0 : Int) * 4 < |o| then
    count (lkNode a + 6) (setNode a { n with ofs := o, tcorr := clampI (-2048) 2047 (-(roundDiv o 8)), corrWait := 5 } s1)
  else s1

/-- What the record of axis a brings on channel c: position, force, status and treatment returned. An axis of the other channel, or beyond the mode's axes, is not carried (R15, R112, R196). -/
def takeRecord (c a : Nat) (r : UplRec) (s : State) : State :=
  if carriesAxis s c a then
    treatReturned a (r.astat.toNat / 1024) (setAxisUpl a { pos := r.pos.toInt, force := r.fact.toInt, astat := r.astat.toNat, fresh := true } s)
  else s

/-- A commutation angle of axis a for the stores that wait for it (R108, R196). -/
def takeAngle (a : Nat) (angle : Word) (s : State) : State :=
  { s with mo := { s.mo with stores := s.mo.stores.map fun x => if x.obj = a ∧ x.angle.isNone then { x with angle := some angle } else x } }

/-- What a member reports of the group in progress (R120, R196). -/
def takeGroup (a gstate grep : Nat) (s : State) : State :=
  let s1 := setNode a { nodeOf s a with grp := gstate, grpEpoch := grep } s
  if grep ≠ fldOf s 0xF0FA01 15 0 then s1
  else
    let gw := s1.mo.gw
    let ins (l : List Nat) : List Nat := if l.contains a then l else l ++ [a]
    if gstate = 1 then { s1 with mo := { s1.mo with gw := { gw with staged := ins gw.staged } } }
    else if gstate = 2 then { s1 with mo := { s1.mo with gw := { gw with applied := ins gw.applied } } }
    else s1

/-- The profiles that wait for their treatments to be withdrawn are looked at again (R113). -/
def confirmWaits (s : State) : State := forEach ((profiles s).filter fun o => (profOf s o).st == .waiting) confirmWait s

/-- The first valid copy of an uplink is used (R206). -/
def useUplink (p : Nat) (u : UplIn) (s : State) : State :=
  let a := u.node.val
  let s1 := setNode a { nodeOf s a with got := true, empties := 0, rx0 := p % 2 == 0, rx1 := p % 2 == 1 } s
  let s2 := putFld (lkNode a + 1) 18 17 (if p % 2 = 0 then 2 else 1) s1
  let s3 := if u.nst.toNat = 2 then setJoined a false s2 else if u.nst.toNat = 1 then setJoined a true s2 else s2
  let s4 := forEach (u.recs.zipIdx) (fun x s => takeRecord (p / 2) (nodeFirst s2 a + x.2) x.1 s) s3
  let s5 := takeAngle (nodeFirst s a + u.auxIdx.toNat) u.angle s4
  confirmWaits (pcSys 0x50 1 (takeGroup a (u.nstat.toNat / 256 % 16) u.grep.toNat s5))

/-- UPLINK_FRAME: the checks of R205 in order, then the first copy is used (R206). -/
def uplinkFrame (p : Nat) (k : RxCheck) (u : UplIn) (s : State) : State :=
  if !linkCounts s then s
  else
    let a := u.node.val
    let src := if nodeEn s a then some a else none
    let s0 := forwardFrame p 4 a 8 (8 + 9 * u.recs.length) s
    let k1 := rxCheck s p k
    if k1 ≠ .ok then rxFail p k1 src s0
    else if nodeCh s a ≠ p / 2 ∧ src.isSome ∨ src.isSome ∧ u.recs.length ≠ nodeNax s a then rxFail p .format src s0
    else if src.isNone then rxFail p .address none s0
    else if s.lk.st ≠ .lead ∧ s.lk.st ≠ .follow then s0
    else if u.seq.toNat ≠ s.lk.q then discardFrame (lkNode a + 5) s0
    else
      let o := uplOffset s p u
      let g : Int := fldOf s 0xF28001 9 0 * 8
      if o.any (fun x => decide (x < -g)) then discardFrame (lkNode a + 3) s0
      else if o.any (fun x => decide (g < x)) then discardFrame (lkNode a + 4) s0
      else if (nodeOf s a).got then
        putBit (lkNode a + 1) (if p % 2 = 0 then 18 else 17) true
          (setNode a (if p % 2 = 0 then { nodeOf s0 a with rx0 := true } else { nodeOf s0 a with rx1 := true }) s0)
      else
        let s1 := useUplink p u s0
        match o with
        | some x => clockCorrection a x s1
        | none => s1

def execUplinkFrame (p : Fin 4) (k : RxCheck) (u : UplIn) (s : State) : Host.Outcome State Fault Refusal := .next (uplinkFrame p.val k u s)

/-- EMPTY_SLOT: a slot in which no valid copy arrived; 16 in a row end membership, and LMAX in a row of a member are fault 30h (R206, R220, R266). -/
def emptySlot (a : Nat) (s : State) : State :=
  if (s.lk.st ≠ .lead ∧ s.lk.st ≠ .follow) ∨ !nodeEn s a ∨ (nodeOf s a).got then s
  else
    let n := nodeOf s a
    let s1 := pcSys 0x51 1 (raiseEvent 15 (count (lkNode a + 2) (setNode a { n with empties := n.empties + 1 } s)))
    let s2 := forEach (nodeAxes s a) (fun x s => setAxisUpl x { axisUpl s x with fresh := false } s) s1
    let lmax := lmaxOf s
    let s3 := if n.joined ∧ n.empties + 1 = lmax then ghFault 0x30 a (reactField (fldOf s 0xF3400B 15 14) (nodeGroups s a)) s2 else s2
    if n.joined ∧ n.empties + 1 = 16 then setJoined a false s3 else s3

def execEmptySlot (n : LinkAddr) (s : State) : Host.Outcome State Fault Refusal := .next (emptySlot n.val s)

/-! ### Service channel (R217-R223) -/

def setSvc (v : Service) (s : State) : State := { s with lk := { s.lk with svc := v } }

/-- The configured nodes of a channel that have not joined. -/
def unjoined (s : State) (c : Nat) : List Nat := (chNodes s c).filter fun a => !(nodeOf s a).joined

/-- The node with the oldest request wholly sent, whose reply is outstanding (R222). -/
def replyDue (s : State) (c : Nat) : Option Nat :=
  (s.lk.svc.out.find? fun m => m.kind == .request && nodeEn s m.node && m.ch == c && m.rest.isEmpty && m.frag != 0).map (·.node)

/-- The next node in rotation after an address. -/
def rotate (l : List Nat) (last : Nat) : Option Nat :=
  match l.find? fun a => decide (last < a) with
  | some a => some a
  | none => l.head?

/-- The grant of this cycle on channel c: address and kind, 1 reply, 2 join (R222). -/
def grantOf (s : State) (c : Nat) : Option (Nat × Nat) :=
  let due := replyDue s c
  let join := if s.lk.q % 2 = 1 ∨ due.isNone then rotate (unjoined s c) (if c = 0 then s.lk.svc.turnA else s.lk.svc.turnB) else none
  match join, due with
  | some a, _ => some (a, 2)
  | none, some a => some (a, 1)
  | none, none => none

/-- The angle offered to a drive: that restored at BOOT, or FFFFFh (R109, R219). -/
def offeredAngle (s : State) (a : Nat) : Word := if bitOf s (mpStat a) 13 then mapGet 0 s.lk.angles a else 0xFFFFF

/-- The next fragment of a message (R222). -/
def nextFragment (s : State) (m : SvcMsg) : SvcMsg :=
  { m with last := m.rest.take (sMax s), rest := m.rest.drop (sMax s), frag := m.frag + 1 }

/-- The partner's SVD comes by the closure of channel c and goes out of its node section (R189). -/
def forwardSvd (c : Nat) (s : State) : State := if s.lk.st = .follow ∧ paired s then forwardFrame (2 * c + 1) 5 (partnerAddr s) 12 (8 + sMax s) s else s

/-- SERVICE_DOWNLINK: the leading head sends SVD on channel c; a head in FOLLOW forwards its partner's (R189, R221-R223). -/
def serviceDownlink (c : Nat) (s : State) : State :=
  if s.lk.st ≠ .lead then forwardSvd c s
  else
    let v := s.lk.svc
    let g := grantOf s c
    let (ga, gk) := g.getD (0, 0)
    let turns := if gk = 2 then (if c = 0 then { v with turnA := ga } else { v with turnB := ga }) else v
    let v1 := { turns with grant := (turns.grant.filter fun x => x.1 != c) ++ (if g.isSome then [(c, ga, gk)] else []) }
    let ackOf (a : Nat) : Nat := match v.ack.find? fun x => x.1 == a with
      | some (_, true) => 1
      | some (_, false) => 2
      | none => 0
    let cleared (a : Nat) (v : Service) : Service := { v with ack := v.ack.filter fun x => x.1 != a }
    match v.answer.find? fun x => nodeCh s x.1 == c with
    | some (a, code) =>
      let s1 := setSvc (cleared a { v1 with answer := v1.answer.erase (a, code) }) s
      sendOwn c a s.lk.q (fun _ => .svdJoin ga gk (ackOf a)
        { code := code, d0 := regGet s (lkNode a + 8), d1 := regGet s (lkNode a + 9), angles := (nodeAxes s a).map (offeredAngle s) }) s1
    | none =>
      match v.out.find? fun m => (m.node == 127 || nodeEn s m.node) && m.ch == c && !m.rest.isEmpty with
      | some m =>
        let m1 := nextFragment s m
        let s1 := setSvc (cleared m.node { v1 with out := v1.out.map fun x => if x = m then m1 else x }) s
        sendOwn c m.node s.lk.q (fun _ => .svd ga gk (ackOf m.node) m.msgid m1.rest.isEmpty m.frag m1.last) s1
      | none => sendOwn c (if g.isSome then ga else 127) s.lk.q (fun _ => .svd ga gk (ackOf ga) 0 false 0 []) (setSvc (cleared ga v1) s)

def execServiceDownlink (c : Fin 2) (s : State) : Host.Outcome State Fault Refusal := .next (serviceDownlink c.val s)

/-- The delay a head measures at one of its ports, in 1/8 ns (R218); FFFFFFFFh for a turn time is no measurement. -/
def joinDelay (m : Option (Nat × Nat)) : Option Nat :=
  match m with
  | none => none
  | some (rt, tt) => if tt = 0xFFFFFFFF ∨ rt < tt then none else some ((rt - tt) / 2)

/-- The measured delay exceeds the bound of its path: k cables of H_c each (R219). -/
def delayBad (s : State) (c k : Nat) (d : Option Nat) : Bool := d.any fun x => decide (8 * k * hopMax s c < 10 * x)

/-- The delays of the channel's nodes at port LKx0 or LKx1 do not rise with their distance (R219). -/
def orderBad (s : State) (port a d : Nat) : Bool :=
  let c := nodeCh s a
  let n := (chNodes s c).length
  let ub := lkUnitB s && paired s
  let k (x : Nat) : Nat := if port = 0 then cables0 ub n (nodePos s x) else cables1 (paired s) ub n (nodePos s x)
  (chNodes s c).any fun b =>
    match nodeDelay s port b with
    | some e => b != a && (decide (k b < k a ∧ d ≤ e) || decide (k a < k b ∧ e ≤ d))
    | none => false

/-- JOIN_REQUEST: the delays are stored; the leading head accepts, or refuses with LATE_CFG 1, HOP_ERR 2 or ORDER_ERR 3 (R218, R219). -/
def joinRequest (a nax : Nat) (m0 m1 : Option (Nat × Nat)) (s : State) : State :=
  let c := nodeCh s a
  let n := (chNodes s c).length
  let b := lkUnitB s && paired s
  let d0 := joinDelay m0
  let d1 := joinDelay m1
  let w (d : Option Nat) : Word := match d with
    | some x => word (min x 0xFFFFE)
    | none => 0xFFFFF
  let code :=
    if nax ≠ nodeNax s a then 1
    else if delayBad s c (cables0 b n (nodePos s a)) d0 || delayBad s c (cables1 (paired s) b n (nodePos s a)) d1 then 2
    else if d0.any (orderBad s 0 a) || d1.any (orderBad s 1 a) then 3 else 0
  let s1 := putWord (lkNode a + 9) (w d1) (putWord (lkNode a + 8) (w d0) s)
  if s.lk.st = .lead then
    let s2 := if code = 1 then putBit 0xF28009 10 true s1 else if code = 2 then putBit 0xF28009 11 true s1
              else if code = 3 then putBit 0xF28009 12 true s1 else s1
    setSvc { s2.lk.svc with answer := (s2.lk.svc.answer.filter fun x => x.1 != a) ++ [(a, code)] } s2
  else s1

/-- The SVD fragment of this cycle that a node refuses is sent again in the next SVD to it (R223). -/
def repeatFragment (a : Nat) (s : State) : State :=
  setSvc { s.lk.svc with out := s.lk.svc.out.map fun m =>
    if m.node = a ∧ m.last ≠ [] then { m with rest := m.last ++ m.rest, last := [], frag := m.frag - 1 } else m } s

/-- A reply fragment: taken in turn, or answered NAK and counted where it cannot be accepted (R222, R223). -/
def replyFragment (a msgid : Nat) (last : Bool) (frag : Nat) (data : List Nat) (accept : Bool) (s : State) : State :=
  let v := s.lk.svc
  let ackd (b : Bool) (v : Service) : Service := { v with ack := (v.ack.filter fun x => x.1 != a) ++ [(a, b)] }
  let cur : SvcIn := (v.inb.find? fun x => x.node == a && x.msgid == msgid).getD ⟨a, msgid, 0, []⟩
  let others := v.inb.filter fun x => !(x.node == a && x.msgid == msgid)
  if !accept then nakFragment (setSvc (ackd false v) s)
  else if frag + 1 = cur.next then setSvc (ackd true v) s
  else if frag ≠ cur.next then nakFragment (setSvc (ackd false v) s)
  else
    let got : SvcIn := { cur with next := frag + 1, bytes := cur.bytes ++ data }
    if last then
      raiseEvent 76 (setSvc (ackd true { v with inb := others, done := v.done ++ [got], out := v.out.filter fun m => !(m.node == a && m.msgid == msgid) }) s)
    else setSvc (ackd true { v with inb := others ++ [got] }) s

/-- The payload bytes of an SVU (R221); a join request as its service header, NAX and two turn times (log entry 69). -/
def svuLen : SvuBody → Nat
  | .reply _ _ _ data => 8 + data.length
  | .join _ _ _ => 17

/-- Kiosk or Pergola can accept a fragment: no post of EV76 is pending, and the firmware queue has room (R379, R433; DEDUCED, log entry 69). -/
def svcRoom (s : State) : Bool := (lookupNat s.pg.evPend 76).isNone && decide (s.ks.fwq.length < 16)

/-- SERVICE_UPLINK: the granted node's SVU (R205, R218, R221-R223). -/
def serviceUplink (p : Nat) (k : RxCheck) (u : SvuIn) (accept : Bool) (s : State) : State :=
  if !linkCounts s then s
  else
    let a := u.node.val
    let src := if nodeEn s a then some a else none
    let s0 := forwardFrame p 6 a 8 (svuLen u.body) s
    let k1 := rxCheck s p k
    if k1 ≠ .ok then rxFail p k1 src s0
    else if src.isNone then rxFail p .address none s0
    else if nodeCh s a ≠ p / 2 then rxFail p .format src s0
    else if s.lk.st ≠ .lead ∧ s.lk.st ≠ .follow then s0
    else if u.seq.toNat ≠ s.lk.q then discardFrame (lkNode a + 5) s0
    else
      let granted := s.lk.svc.grant.contains (p / 2, a, (match u.body with
        | .reply _ _ _ _ => 1
        | .join _ _ _ => 2))
      let s1 := if u.refused && s.lk.st == .lead then repeatFragment a s0 else s0
      match u.body with
      | .join nax m0 m1 => if granted || s.lk.st == .follow then joinRequest a nax m0 m1 s1 else s1
      | .reply msgid last frag data => if granted then replyFragment a msgid.toNat last frag data (accept && svcRoom s1) s1 else s1

def execServiceUplink (p : Fin 4) (k : RxCheck) (u : SvuIn) (accept : Bool) (s : State) : Host.Outcome State Fault Refusal :=
  .next (serviceUplink p.val k u accept s)

/-! ### Set-point frames (R195, R200) -/

/-- The record of an axis in SETP on channel c: CMD, FF1, FF2 and ACTL; zeros for an axis that the channel does not carry (R15, R195). -/
def setpRec (s : State) (c a : Nat) : SetpRec :=
  let o := if carriesAxis s c a then mapGet OutRec.reset s.sv.outs a else OutRec.reset
  (o.cmd, o.ff1, o.ff2, o.en.toNat * 128 + (if carriesAxis s c a then mapGet 0 s.mo.treat a else 0) * 32)

/-- The set-point frames that a batch hands to each channel, with the group field of its cycle (R120, R195, R200). -/
def batchQueues (s : State) (b : Nat) : List SetpQueue :=
  [0, 1].map fun c =>
    { ch := c, batch := b, seq := s.lk.q, ready := 0, gcmd := s.mo.gw.sent, gepoch := fldOf s 0xF0FA01 15 0,
      frames := (batchNodes s c b).map fun a => (a, (nodeAxes s a).map (setpRec s c)) }

/-- BATCH_END: the programs of the batch complete, with the check lane's answer; of a batch that ran on past T0 they were complete at T0 (R128, R131, R154). -/
def batchEnd (bad : Bool) (s : State) : State :=
  match s.sv.late with
  | some (sig, qs) => batchPublish bad sig qs { s with sv := { s.sv with late := none } }
  | none =>
    match s.sv.batch with
    | none => s
    | some b => let s1 := batchPrograms b s; batchPublish bad (sigOf s1 b) (batchQueues s1 b) s1

/-- At T0 a batch that still runs computes with what its cycle gave it; its results leave at its end (R131, R202; DESIGN CHOICE, log entry 71). -/
def lateBatch (s : State) : State :=
  match s.sv.batch with
  | none => { s with sv := { s.sv with late := none } }
  | some b => let s1 := batchPrograms b s; { s1 with sv := { s1.sv with late := some (sigOf s1 b, batchQueues s1 b) } }

/-- A unit sends set-points: LEAD, or FOLLOW in RUN-STANDBY and the states entered from it (R192, R213). -/
def sendsSetp (s : State) : Bool := !s.pr.silent && (s.lk.st == .lead || (s.lk.st == .follow && engineRuns s))

/-- The lanes of aligned batches, their SIG comparison not yet made, in which two SETP frames of a node with one SEQ differ (R238). -/
def setpDiffs (s : State) (x y : SetpKept) : List (Nat × Nat × Nat) :=
  (((nodeAxes s x.node).zip (x.recs.zip y.recs)).filterMap fun r => if r.2.1 = r.2.2 then none else some (x.seq, batchOf s r.1, r.1)).filter fun d =>
    !s.pr.unaligned.contains d.2.1 && !s.pr.compared.contains (d.2.1, d.1) && !s.pr.osigDiff.contains d

/-- A frame and those of the other unit for the same node and SEQ are compared (R238). -/
def compareSetp (x : SetpKept) (others : List SetpKept) (s : State) : State :=
  let new := ((others.filter fun y => y.node == x.node && y.seq == x.seq).take 1).flatMap fun y => setpDiffs s x y
  { s with pr := { s.pr with osigDiff := s.pr.osigDiff ++ new } }

/-- The SETP frame of a node, with its clock correction where the unit is active (R195, R210). -/
def sendSetp (x : SetpQueue) (a : Nat) (recs : List SetpRec) (s : State) : State :=
  let n := nodeOf s a
  let act := s.pr.active
  let k : SetpKept := ⟨a, x.seq, recs⟩
  let s1 := setNode a (if act then { n with tcorr := 0 } else n) s
  let s2 := { s1 with lk := { s1.lk with setpOwn := s1.lk.setpOwn ++ [k] } }
  compareSetp k s2.lk.setpHeard (pcSys 0x52 1 (sendOwn x.ch a x.seq (fun _ => .setp x.gcmd x.gepoch (if act then n.tcorr else 0) recs) s2))

/-- Every axis of a node lies in an aligned batch (R242). -/
def nodeAligned (s : State) (a : Nat) : Bool :=
  ((nodeAxes s a).filter fun x => (engineAxes s).contains x).all fun x => !s.pr.unaligned.contains (batchOf s x)

/-- SET_POINT_FRAME: the frames of the oldest completed batch that waits on channel c, to joined nodes in ascending address (R200). -/
def setPointFrames (c : Nat) (s : State) : State :=
  match s.lk.toSend.find? fun x => x.ch == c with
  | none => s
  | some x =>
    let s1 := { s with lk := { s.lk with toSend := s.lk.toSend.erase x } }
    if sendsSetp s1 then
      forEach (x.frames.filter fun f => ((nodeOf s1 f.1).joined || (nodeOf s1 f.1).leaving) && (s1.pr.active || nodeAligned s1 f.1)) (fun f s => sendSetp x f.1 f.2 s) s1
    else s1

/-- The frames queued on channel c by now leave one after another (R201). -/
def drainQueue (c : Nat) (s : State) : State :=
  forEach (s.lk.toSend.filter fun x => x.ch == c && decide (x.ready ≤ s.now)) (fun _ s => setPointFrames c s) s

def execSetPointFrame (c : Fin 2) (s : State) : Host.Outcome State Fault Refusal := .next (setPointFrames c.val s)

/-- The SEQ that a SETP ending now on channel c must carry, that of the cycle in which its window opened, from SVEND of a cycle to TG after the next T0; none between the windows (R197, R205). -/
def setpWindow (s : State) (c : Nat) : Option Nat :=
  let off : Int := 50 * ((s.now : Int) - s.lk.t0)
  if off ≤ ns30 (ciOfs - guard10 s) then some ((s.lk.q + 2 ^ 32 - 1) % 2 ^ 32)
  else if ns30 (svEnd s c) ≤ off then some s.lk.q
  else none

/-- PARTNER_SETP_HEARD: a frame of the partner that passes every check is kept and compared with the unit's own; one out of its window or sequence is counted at its port, its source being no node (R205, R238; DEDUCED, log entry 69). -/
def partnerSetp (p : Nat) (k : RxCheck) (a seq e : Nat) (recs : List SetpRec) (s : State) : State :=
  if !linkCounts s then s
  else
    let k1 := rxCheck s p k
    if k1 ≠ .ok then rxFail p k1 none s
    else if !linkOn s || !paired s then s
    else if setpWindow s (p / 2) ≠ some seq then discardFrame (0xF28018 + p) s
    else
      let (s1, ok) := partnerEpoch e s
      if !ok then s1
      else
        let x : SetpKept := ⟨a, seq, recs⟩
        compareSetp x s1.lk.setpOwn { s1 with lk := { s1.lk with setpHeard := s1.lk.setpHeard ++ [x] } }

def execPartnerSetpHeard (p : Fin 4) (k : RxCheck) (n : LinkAddr) (seq : BitVec 32) (e : BitVec 16) (x : SetpIn) (s : State) :
    Host.Outcome State Fault Refusal := .next (partnerSetp p.val k n.val seq.toNat e.toNat x.recs (advance x.t s))

/-! ### Ports (R185, R229) -/

def setUp (p : Nat) (on : Bool) (s : State) : State :=
  let m : BitVec 4 := if on then s.lk.up ||| (1#4 <<< p) else s.lk.up &&& ~~~(1#4 <<< p)
  putBit (0xF28014 + p) 19 on { s with lk := { s.lk with up := m } }

/-- A port loses sync: a frame in progress is invalid and counted (R185). -/
def syncLost (p : Nat) (inFrame : Bool) (s : State) : State :=
  if p < 4 then whenB inFrame (discardFrame (0xF2801C + p)) (setUp p false s)
  else whenB inFrame (count 0xF30011) (putBit 0xF30002 16 false { s with pr := { s.pr with laneUp := false } })

def execLinkPortSyncLost (p : PortId) (inFrame : Bool) (s : State) : Host.Outcome State Fault Refusal := .next (syncLost p.val inFrame s)

/-- A port or the pair lane is up again (R185, R229). -/
def syncAcquired (p : Nat) (s : State) : State :=
  if p < 4 then setUp p true s else putBit 0xF30002 16 true { s with pr := { s.pr with laneUp := true } }

def execPortSyncAcquired (p : PortId) (s : State) : Host.Outcome State Fault Refusal := .next (syncAcquired p.val s)

/-! ### System time (R212) -/

/-- System time less the nearest whole second, in ns. -/
def ppsError (t : Nat) : Int :=
  let r : Int := (t % 1000000000 : Nat)
  if 500000000 < r then r - 1000000000 else r

/-- LOCKED of the time discipline changes: EV87. -/
def timeLocked (on : Bool) (s : State) : State :=
  if bitOf s 0xF28025 19 == on then s else raiseEvent 87 (putBit 0xF28025 19 on s)

/-- A TIME_PPS edge disciplines the time of the head that leads the link (R212). -/
def ppsDiscipline (s : State) : State :=
  let e := ppsError (sysTime s)
  let tm := s.time
  let s0 := putBit 0xF28025 18 false s
  if !tm.stepped then
    putBit 0xF28025 17 true { s0 with time := { offset := tm.offset - slewDone s s.now - e, slew := 0, stepped := true, good := 0, tEdge := some s.now } }
  else
    let good := if |e| ≤ 40 then min 4 (tm.good + 1) else 0
    let s1 := { s0 with time := { offset := tm.offset - slewDone s s.now, slew := clampI (-20000) 20000 e, stepped := true, good := good, tEdge := some s.now } }
    let s2 := putFld 0xF28025 11 0 (wrapN 12 (clampI (-2047) 2047 e)) s1
    if 100 < |e| then timeLocked false s2 else if good = 4 then timeLocked true s2 else s2

/-- A rising edge on TIME_PPS: the discipline, the event source and the pin event. -/
def ppsEdge (s : State) : State :=
  bvPin 0x40 true (raiseEvent 86 (if bitOf s 0xF28024 19 && s.lk.st == .lead then ppsDiscipline s else s))

/-- TIME_PPS_EDGE at time t; a falling edge is only an edge of the pin, which a capture group may trigger on (R168, R212). -/
def execTimePpsEdge (e : PinEdge) (s : State) : Host.Outcome State Fault Refusal :=
  .next (if e.rising then ppsEdge (advance e.t s) else bvPin 0x40 false (advance e.t s))

/-- No edge for 2 s (R212). -/
def ppsHoldover (s : State) : State :=
  if bitOf s 0xF28024 19 && s.lk.st == .lead then timeLocked false (putBit 0xF28025 18 true { s with time := { s.time with good := 0 } }) else s

def execPpsHoldover (s : State) : Host.Outcome State Fault Refusal := .next (ppsHoldover s)

/-! ### The end of a cycle -/

/-- At the end of a cycle: one-port deliveries for OPEN, correction waits, and copies forgotten (R191, R206, R210). -/
def nodesPeriod (s : State) : State :=
  forEach ((List.range 122).filter (nodeEn s)) (fun a s =>
    let n := nodeOf s a
    let one := n.got && n.rx0 != n.rx1
    setNode a { n with got := false, leaving := false, onePort := if one then min 2 (n.onePort + 1) else 0, corrWait := n.corrWait - 1 } s) s

/-- OPEN of channel c: a joined node of a ring has delivered on only one port in each of the last two cycles; a change is EV78 (R191). -/
def showOpen (c : Nat) (s : State) : State :=
  let o := ringWired s c && (chNodes s c).any fun a => (nodeOf s a).joined && decide (2 ≤ (nodeOf s a).onePort)
  if bitOf s 0xF28009 (14 - c) == o then s else raiseEvent 78 (putBit 0xF28009 (14 - c) o s)

/-- At the end of a cycle the fragments it sent are no longer refused, and a response or a broadcast that is wholly sent is done with (R222, R223). -/
def servicePeriod (v : Service) : Service :=
  { v with grant := [], out := (v.out.filter fun m => m.kind == .request || !(m.rest.isEmpty && m.frag != 0)).map fun m => { m with last := [] } }

/-- The link at a boundary: the cycle's uplinks are past, and set-points of the cycle before are no longer compared (R205, R206, R238). -/
def linkPeriod (s : State) : State :=
  let s1 := showOpen 1 (showOpen 0 (nodesPeriod s))
  let now (l : List SetpKept) : List SetpKept := l.filter fun x => x.seq == s1.lk.q
  { s1 with lk := { s1.lk with marked := false, axes := s1.lk.axes.map (fun x => (x.1, { x.2 with fresh := false })), svc := servicePeriod s1.lk.svc,
                               setpOwn := now s1.lk.setpOwn, setpHeard := now s1.lk.setpHeard } }

/-- The axes map keeps its canonical form when a record becomes the default. -/
def tidyAxes (s : State) : State := { s with lk := { s.lk with axes := s.lk.axes.filter fun x => x.2 != AxisUpl.reset } }

/-- The words of the length of a cycle in MARK (R194). -/
def cycleLen (s : State) : Nat × Nat := (s.mains.p / 65536 % 65536, s.mains.p % 65536)

/-- MFL: mains lock and time locked (R194). -/
def mflWord (s : State) : Nat := (bitOf s 0xF00102 19).toNat * 128 + (bitOf s 0xF28025 19).toNat * 64

/-- MARK, or CSTART in COLDSTART, on every own port, after the frames queued there by T0 (R190, R194, R197, R201). -/
def sendMarker (mark : Bool) (s : State) : State :=
  let (pi, pf) := cycleLen s
  let s1 := drainQueue 1 (drainQueue 0 s)
  forEach [0, 1] (fun c s => sendOwn c 127 s.lk.q (fun t => if mark then .mark pi pf (sysTime s) (corrOf s t) (mflWord s) else .cstart pi pf (corrOf s t) (mflWord s)) s) s1

/-- At T0 the leading head sends MARK and a head in COLDSTART sends CSTART; a head in FOLLOW counts the cycle (R197, R214). -/
def startCycle (s : State) : State :=
  if s.lk.st = .lead ∧ !s.pr.silent then
    let q := (s.lk.q + 1) % 2 ^ 32
    sendMarker true { s with lk := { s.lk with q := q, lastMark := some q } }
  else if s.lk.st = .coldstart ∧ s.lk.left < 4 then
    sendMarker false { s with lk := { s.lk with q := s.lk.left, left := s.lk.left + 1 } }
  else if s.lk.st = .follow ∧ s.lk.running then { s with lk := { s.lk with q := (s.lk.q + 1) % 2 ^ 32 } }
  else s

end Sys2Proof.Machine
end

