-- ==== Sys2Proof/Machine/GroupWrite.lean ====
section
/-! DEFINITION. Group writes: staging, the commit decision, repeats and the inconsistent group (04 R120-R123). -/

namespace Sys2Proof.Machine

/-- The members: the nodes marked in MP_GW_MEMB (R120). -/
def gwMembers (s : State) : List Nat := ((List.range 120).filter fun i => bitOf s (0xF0FA04 + i / 20) (i % 20)).map (· + 2)

def gwPhase (s : State) : Nat := fldOf s 0xF0FA01 19 18
def gwEpoch (s : State) : Nat := fldOf s 0xF0FA01 15 0
def setGw (g : GroupWrite) (s : State) : State := { s with mo := { s.mo with gw := g } }

/-- MISSING counts the members not yet APPLIED. -/
def showMissing (s : State) : State := putFld 0xF0FA02 6 0 ((gwMembers s).filter fun a => !s.mo.gw.applied.contains a).length s

/-- The blend tables with staged words that no write of W[63] has committed: a part of the head's own load (R120, R125; DEDUCED, log entry 26). -/
def stagedTables (s : State) : List Nat :=
  let words := (s.regs.filterMap fun e => if 0xF0C000 ≤ e.1 ∧ e.1 < 0xF0F000 then some (e.1 - 0xF0C000) else none) ++ s.mo.blend.map (·.1)
  ((words.filter fun i => regGet s (0xF0C000 + i) != mapGet 0 s.mo.blend i).map (· / 64)).eraseDups

/-- The biquads with staged coefficients that no write of A2 has committed, number 4 a + k: the other part (R120, R159; DEDUCED, log entry 26). -/
def stagedBiquads (s : State) : List Nat :=
  let words := (s.regs.filterMap fun e =>
      if 0xF10000 ≤ e.1 ∧ e.1 < 0xF20000 ∧ 0x60 ≤ e.1 % 256 ∧ e.1 % 256 < 0x80 then some ((e.1 - 0xF10000) / 256 * 256 + (e.1 % 256 - 0x60)) else none) ++ s.sv.bq.map (·.1)
  ((words.filter fun i => decide (i % 8 < 5) && regGet s (0xF10060 + i) != mapGet 0 s.sv.bq i).map fun i => i / 256 * 4 + i % 256 / 8).eraseDups

/-- The axes of the head's own part: those whose boundary names one of its tables, and those whose biquads it holds (R122). -/
def headAxes (s : State) : List Nat :=
  ((List.range (axisCount s)).filter fun a => isSegAxis s a && s.mo.gw.tables.contains (fldOf s (mpBase a + 36) 15 8)) ++ s.mo.gw.biquads.map (· / 4)

/-- The head's own part takes effect (R120). -/
def commitHead (s : State) : State := forEach s.mo.gw.biquads commitBiquad (forEach s.mo.gw.tables commitTable s)

/-- STAGE at a boundary of a cycle s: a new epoch; STAGE E goes out in this cycle (R120). It starts nothing while an attempt runs or the group is inconsistent (R122). -/
def gwStage (s : State) : State :=
  if gwPhase s = 0 ∧ running s then
    showMissing (putFld 0xF0FA01 15 0 (gwEpoch s + 1) (putFld 0xF0FA01 19 16 4 (setGw { cycle := some 0, sent := 1, staged := [], applied := [], tables := stagedTables s, biquads := stagedBiquads s } s)))
  else s

def execStage (s : State) : Host.Outcome State Fault Refusal := .next (gwStage s)

/-- The attempt ends with ABORT E (R120). -/
def gwAbandon (s : State) : State :=
  raiseEvent 79 (putBit 0xF0FA02 19 true (putFld 0xF0FA01 19 18 0 (setGw { s.mo.gw with cycle := none, sent := 3, tables := [], biquads := [] } s)))

/-- ABORT before commit, at a boundary (R120). -/
def gwAbort (s : State) : State := if gwPhase s = 1 then gwAbandon s else s

def execAbortBeforeCommit (s : State) : Host.Outcome State Fault Refusal := .next (gwAbort s)

/-- The axes of the group: those of its members, and of the head's part (R122). -/
def groupAxes (s : State) : List Nat := ((gwMembers s).flatMap fun a => nodeAxes s a) ++ headAxes s

/-- GRP_INC of every axis of every member and of the head's part (R122, R124). -/
def setGrpInc (on : Bool) (s : State) : State :=
  forEach (groupAxes s) (fun x s => whenB (decide (x < 256)) (putBit (mpStat x) 3 on) s) s

/-- CLEAR at a boundary: the axes of the group are no longer marked (R122). -/
def gwClear (s : State) : State :=
  if gwPhase s = 3 then setGw GroupWrite.reset (setGrpInc false (putFld 0xF0FA01 19 18 0 s)) else s

def execClear (s : State) : Host.Outcome State Fault Refusal := .next (gwClear s)

/-- The decision in cycle s + 2: COMMIT E if every member reported STAGED, else ABORT E (R120). -/
def gwDecide (s : State) : State :=
  if gwPhase s = 1 ∧ s.mo.gw.cycle = some 2 then
    if (gwMembers s).all fun a => s.mo.gw.staged.contains a then putFld 0xF0FA01 19 18 2 (setGw { s.mo.gw with sent := 2 } s)
    else gwAbandon s
  else s

def execGroupCommitDecision (s : State) : Host.Outcome State Fault Refusal := .next (gwDecide s)

/-- The objects that stop when a group is inconsistent: its axes, and the movers over those that are segment axes (R122). -/
def gwObjects (s : State) : List Nat :=
  ((groupAxes s).flatMap fun x => if isSegAxis s x then (carried s x).map (fun w => 256 + w.1) else [x]).eraseDups

/-- A member still not APPLIED in cycle s + 9: the group is inconsistent (R122). -/
def gwInconsistent (s : State) : State :=
  if gwPhase s = 2 ∧ s.mo.gw.cycle = some 9 ∧ (gwMembers s).any (fun a => !s.mo.gw.applied.contains a) then
    raiseEvent 28 (putFld 0xF0FA01 19 18 3 (setGrpInc true s))
  else s

def execGroupInconsistent (s : State) : Host.Outcome State Fault Refusal := .next (gwInconsistent s)

/-- A member reported STAGED E in the cycle just ended, or left its slot empty (R120). -/
def gwWanting (s : State) : Bool :=
  (gwMembers s).any fun a => !(nodeOf s a).got || ((nodeOf s a).grp == 1 && (nodeOf s a).grpEpoch == gwEpoch s)

/-- The group sequence at the boundary that begins a cycle: the head's part takes effect with cycle s + 3, repeats are counted as they are sent (R120-R122, R124). -/
def gwCycle (s : State) : State :=
  let gw := s.mo.gw
  match gw.cycle with
  | none => setGw { gw with sent := 0 } s
  | some c =>
    let s1 := showMissing (setGw { gw with cycle := some (c + 1), sent := 0 } s)
    if gwPhase s = 2 ∧ c + 1 = 3 then commitHead s1
    else if gwPhase s = 2 ∧ (gwMembers s).all (fun a => gw.applied.contains a) then
      raiseEvent 79 (putFld 0xF0FA01 19 18 0 (setGw { gw with cycle := none, sent := 0, tables := [], biquads := [] } s1))
    else if gwPhase s = 2 ∧ (c + 1 = 4 ∨ c + 1 = 6 ∨ c + 1 = 8) ∧ gwWanting s then
      putFld 0xF0FA01 17 16 (fldOf s 0xF0FA01 17 16 + 1) (setGw { gw with cycle := some (c + 1), sent := 2 } s1)
    else if gwPhase s = 3 ∧ c + 1 = 10 then
      forEach (gwObjects s) (fun o s => whenB (hasProfile s o) (stopObj o 2 true) s) (setGw { gw with cycle := none, sent := 0 } s1)
    else s1

/-- The command field of MP_GW_CTRL as it takes effect at a boundary (R120). -/
def gwCommand (code : Nat) (s : State) : State :=
  if code = 1 then gwStage s else if code = 2 then gwAbort s else if code = 3 then gwClear s else s

end Sys2Proof.Machine
end

