-- ==== Sys2Proof/Machine/Pump.lean ====
section
/-! DEFINITION. Pumphouse: sigma-delta inputs, bus and hold-up voltages, rails, shed levels, motoring scale, chopper and hold-up bank (10 R289-R308). -/

namespace Sys2Proof.Machine

def setSdm (k : Fin 8) (x : Sdm) (s : State) : State := { s with ph := { s.ph with sdm := s.ph.sdm.set k x } }

/-! ### Voltages (R292, R293) -/

/-- A result in per mille of nominal, saturated to 0 to 1,023 (R292); with a nominal of 0 the spec gives no value. -/
def perMille (r : Int) (fs nom : Nat) : Nat :=
  if nom = 0 then (clampI 0 1023 (Config.byZeroScale r)).toNat else (clampI 0 1023 (roundDiv (r * fs * 1000) (2 ^ 19 * nom))).toNat

def busSrc (s : State) : Fin 8 := Fin.ofNat 8 (fldOf s 0xF38002 18 16)
def holdSrc (s : State) : Fin 8 := Fin.ofNat 8 (fldOf s 0xF38011 18 16)
def busVpm (s : State) (r : Int) : Nat := perMille r (fldOf s 0xF38003 19 0) (fldOf s 0xF38004 19 0)
def holdVpm (s : State) (r : Int) : Nat := perMille r (fldOf s 0xF38012 19 0) (fldOf s 0xF38013 19 0)

/-- The input is disabled, in fault, or has delivered no result since BOOT (R291, R293). -/
def sdmOut (s : State) (k : Fin 8) : Bool := !bitOf s (0xF38018 + k.val) 19 || s.ph.sdm[k].flt || !s.ph.sdm[k].valid
def busFlt (s : State) : Bool := !bitOf s 0xF38002 19 || sdmOut s (busSrc s)
def holdFlt (s : State) : Bool := !bitOf s 0xF38011 19 || sdmOut s (holdSrc s)

/-- Single-phase loss over the channels named in PH_PHCH (R294). -/
def phaseLoss (s : State) : Bool := (List.range 16).any fun c => bitOf s 0xF38001 c && bitOf s (fbStat c) 12

/-- The unit drives CHOP, HOLD_CHG and HOLD_DIS (R227, R305). -/
def drivesHold (s : State) : Bool := s.pr.active

/-- PH_LEVEL, PH_VBUS and PH_VHOLD as read (R307). -/
def phLevelWord (s : State) : Word :=
  word (s.ph.eff * 2 ^ 17 + s.ph.meas * 2 ^ 14 + s.mains.lost.toNat * 2 ^ 13 + (phaseLoss s).toNat * 2 ^ 12 + (busFlt s).toNat * 2 ^ 11 +
    (holdFlt s).toNat * 2 ^ 10 + s.ph.holdChg.toNat * 2 ^ 9 + s.ph.holdDis.toNat * 2 ^ 8 + s.ph.ovAct.toNat * 2 ^ 7)

/-! ### Level L5 (R303) -/

/-- The writes that wait for a boundary or for the slow domain never take effect (R308). -/
def dropFlight (s : State) : State :=
  let waits := s.held.filter fun e => (rowOf e.1).any fun r => r.fields.any fun f => f.mark == .b
  let s1 := forEach waits (fun e s => regSet e.1 e.2 s) s
  { s1 with held := s.held.filter fun e => !waits.contains e, sys := { s1.sys with slow := [] },
            sd := { s1.sd with w0Pend := [], psetPend := [] }, mo := { s1.mo with blendPend := [] }, sv := { s1.sv with bqPend := [] } }

/-- Entry into L5: counted, recorded as KIND 11b, SAFE at once, writes in flight and an archive abandoned, HOLD_DIS left on (R303, R308, R479). -/
def enterL5 (s : State) : State :=
  if s.ph.l5 || s.sys.op == .powerUp || s.sys.op == .test then s
  else
    let drove := drivesHold s || s.ph.holdDis
    let s1 := abandonArchive (dropFlight (enterSafe s))
    let s2 := { s1 with ph := { s1.ph with l5 := true, flushed := false, tShed := if s1.ph.eff = 0 then some s1.now else s1.ph.tShed, eff := 5, meas := 5, measNext := 5, holdDis := drove },
                        sys := { s1.sys with per := { s1.sys.per with l5cnt := (s1.sys.per.l5cnt + 1) % 2 ^ 20 } } }
    faultRecord 3 0 0 0 (raiseEvent 27 (raiseEvent 11 (raiseEvent 10 (count 0xF38034 s2))))

/-! ### Sigma-delta results (R289, R290) -/

/-- CHOP is high within its duty or under the override, and only where the unit drives it (R304, R305). -/
def setChop (ov duty : Bool) (s : State) : State :=
  { s with ph := { s.ph with ovAct := ov, dutyOn := duty, chop := drivesHold s && (ov || duty) } }

/-- The overvoltage override of the chopper follows every bus result; there is none while the bus input is in fault (R293, R304). -/
def overvoltage (k : Fin 8) (s : State) : State :=
  if busSrc s != k then s
  else
    let v := busVpm s s.ph.sdm[k].result
    let c := inForce s 0xF38010
    setChop (!busFlt s && (decide (1000 + fld c 9 0 ≤ v) || (s.ph.ovAct && decide (1000 + fld c 19 10 ≤ v)))) s.ph.dutyOn s

/-- A hold-up result below FLOOR enters L5 at once (R296, R297). -/
def holdFloor (k : Fin 8) (s : State) : State :=
  if holdFlt s || holdSrc s != k then s
  else if holdVpm s s.ph.sdm[k].result < fldOf s 0xF38014 9 0 then enterL5 s else s

/-- The voltages that PH_VBUS and PH_VHOLD show. -/
def showVolts (s : State) : State :=
  let b := busVpm s s.ph.sdm[busSrc s].result
  let h := holdVpm s s.ph.sdm[holdSrc s].result
  putFld 0xF38024 19 10 h (putFld 0xF38023 19 10 b s)

/-- SDM_RESULT: a result of input k, its fault conditions and what hangs on its voltages (R289-R293). -/
def sdmResult (k : Fin 8) (r : Word) (stuck : Bool) (s : State) : State :=
  if !bitOf s (0xF38018 + k.val) 19 || s.sys.op == .powerUp || s.sys.op == .boot then s
  else
    let x := s.ph.sdm[k]
    let v := sval r
    let sat := if decide (0x7FFF0 ≤ |v|) then min 4 (x.sat + 1) else 0
    let bad := stuck || decide (4 ≤ sat)
    let clean := if bad then 0 else min 16 (x.clean + 1)
    let flt := bad || (x.flt && decide (clean < 16))
    let s1 := setSdm k { x with result := v, valid := true, sat := sat, clean := clean, flt := flt, fltEv := x.fltEv || bad } s
    let s2 := if bad && !x.flt then raiseEvent (64 + k.val) (putBit 0xF38021 (12 + k.val) true s1) else s1
    holdFloor k (overvoltage k (showVolts s2))

def execSdmResult (k : Fin 8) (r : Word) (stuck : Bool) (s : State) : Host.Outcome State Fault Refusal := .next (sdmResult k r stuck s)

/-! ### Rails (R295, R266) -/

/-- A rail outside its Gatehouse window: fault 22h, or L5 where the hold-up input cannot tell and MEAS is L3 or above (R293). -/
def railFault (r : Nat) (s : State) : State :=
  if holdFlt s && decide (3 ≤ s.ph.meas) && ghRecords s then enterL5 (ghRecord 0x22 r 4 s) else ghFault 0x22 r .unitS s

def execRailFault (r : Fin 4) (s : State) : Host.Outcome State Fault Refusal := .next (railFault r.val s)

/-- One rail reading: shown in mV; outside 3 % of nominal it sets RAIL_WARN and posts (R295). -/
def railReading (r nominal : Nat) (v : Word) (s : State) : State :=
  let s1 := putWord (0xF3802C + r) v s
  if 3 * nominal < 100 * ((v.toNat : Int) - nominal).natAbs then raiseEvent 96 (putBit 0xF38021 (8 + r) true s1) else s1

def railMeasurement (vcore vser vaux vio : Word) (s : State) : State :=
  railReading 3 3300 vio (railReading 2 1800 vaux (railReading 1 900 vser (railReading 0 800 vcore s)))

def execRailMeasurement (vcore vser vaux vio : Word) (s : State) : Host.Outcome State Fault Refusal := .next (railMeasurement vcore vser vaux vio s)

/-! ### Levels at CI (R297) -/

def thOf (s : State) (k : Nat) : Nat := fldOf s (0xF38004 + k) 19 10
def hystOf (s : State) (k : Nat) : Nat := fldOf s (0xF38004 + k) 9 0
def nfOf (s : State) : Nat := max 1 (fldOf s 0xF38000 19 16)

/-- FLEV counts in every unit but a standby, which takes its level from BND (R297, R307). -/
def flevNow (s : State) : Nat := if isStandby s then 0 else fldOf s 0xF38022 19 18

/-- The entry condition of level k = 1 to 4 holds at this CI (R293, R296, R297). With BUS_FLT neither a voltage nor FLEV enters L2; MEAS still falls through it (DESIGN CHOICE, log entry 72). -/
def levelHolds (s : State) (below : Vector Nat 4) (k : Fin 4) : Bool :=
  let volt := !busFlt s && decide (nfOf s ≤ below[k])
  let mains := decide (k.val = 2) && s.mains.lost
  let phase := decide (k.val = 0) && phaseLoss s
  let forced := decide (k.val + 1 ≤ flevNow s) && !(k.val == 1 && busFlt s)
  volt || mains || phase || forced

/-- Every condition of level k is absent (R297). -/
def levelAbsent (s : State) (k vpm : Nat) : Bool :=
  (busFlt s || (List.range 4).all fun i => decide (i + 1 < k) || decide (thOf s (i + 1) + hystOf s (i + 1) ≤ vpm)) &&
  !(k == 3 && s.mains.lost) && !(k == 1 && phaseLoss s) && !decide (k ≤ flevNow s)

/-- Pumphouse at CI: results latched, the bus voltage, and the next measured level (R289, R292, R297). MAINS_BACK is set where the mains returns in L4 (R302). -/
def phCommonInstant (s : State) : State :=
  let s0 := { s with ph := { s.ph with sdm := s.ph.sdm.map fun x => { x with ci := x.result, ciVal := x.valid, ciFlt := x.flt || x.fltEv, fltEv := false } } }
  let vpm := busVpm s0 s0.ph.sdm[busSrc s0].ci
  let below := s0.ph.below.mapIdx fun i n => if !busFlt s0 && decide (vpm < thOf s0 (i + 1)) then min 15 (n + 1) else 0
  let top := (List.finRange 4).foldl (fun m k => if levelHolds s0 below k then k.val + 1 else m) 0
  let m := s0.ph.meas
  let falls := decide (1 ≤ m) && decide (m ≤ 3) && levelAbsent s0 m vpm
  let back := m == 4 && s0.ph.lostBefore && !s0.mains.lost
  whenB back (putBit 0xF38021 6 true)
    { s0 with ph := { s0.ph with vbus := vpm, vhold := holdVpm s0 s0.ph.sdm[holdSrc s0].ci, below := below, absent := falls,
                                 retPend := s0.ph.retPend && falls, measNext := if m < top ∧ m < 5 then top else m, lostBefore := s0.mains.lost } }

/-- RET_T has passed with every condition of the level absent: MEAS falls by one at the next boundary (R297). -/
def retExpiry (s : State) : State := if s.ph.absent then { s with ph := { s.ph with retPend := true } } else s

def execRetTExpiry (s : State) : Host.Outcome State Fault Refusal := .next (retExpiry s)

/-! ### Levels at a boundary (R297-R302) -/

/-- MEAS after the boundary. -/
def nextMeas (s : State) : Nat :=
  if s.ph.meas < s.ph.measNext then s.ph.measNext
  else if s.ph.retPend && decide (1 ≤ s.ph.meas) && decide (s.ph.meas ≤ 3) then s.ph.meas - 1 else s.ph.meas

/-- EFF for a measured level (R298). -/
def nextEff (s : State) (m : Nat) : Nat := if isStandby s then (if 4 ≤ m then max m s.pr.bndLevel else s.pr.bndLevel) else m

/-- The actions of a level are taken in these states (R299). -/
def levelActs (s : State) : Bool := running s || s.sys.op == .safe

/-- The overlays bound to the levels in force, as a mask of slots (R296, R301). -/
def boundSlots (s : State) : Nat :=
  let w := inForce s 0xF38015
  [(1, 19, 15), (2, 14, 10), (3, 9, 5)].foldl (fun m x =>
    if x.1 ≤ effLevel s ∧ bit w x.2.1 then m ||| 2 ^ fld w (x.2.2 + 3) x.2.2 else m) 0

/-- MEAS and EFF change; a change posts, and each level that EFF enters or passes on its way up is counted (R298; DESIGN CHOICE, log entry 72). -/
def levelBoundary (s : State) : State :=
  if s.ph.l5 then s
  else
    let m := nextMeas s
    let old := s.ph.eff
    let e := nextEff s m
    let s1 := { s with ph := { s.ph with meas := m, eff := e, tShed := if old = 0 ∧ 1 ≤ e then some s.now else s.ph.tShed, retPend := false, absent := s.ph.absent && m == s.ph.meas, measNext := m } }
    let s2 := upTo 5 (fun k s => whenB (decide (old < k + 1) && decide (k + 1 ≤ e)) (count (0xF38030 + k)) s) s1
    if e = old then s2 else raiseEvent 27 (raiseEvent 10 s2)

/-! ### Motoring scale, chopper and bank (R300, R304, R305) -/

/-- The sag factor g as a fraction (R300); a zero span has no stated value. -/
def sagFactor (s : State) : Int × Int :=
  let w := inForce s 0xF38009
  let span : Int := (fld w 19 10 : Int) - fld w 9 0
  if busFlt s then (1, 1)
  else if span ≤ 0 then (clampI 0 1 (Config.byZeroScale s.ph.vbus), 1)
  else (clampI 0 span ((s.ph.vbus : Int) - fld w 9 0), span)

/-- src of R300 as a fraction of 2^19. -/
def supplySrc (s : State) : Int :=
  if 3 ≤ effLevel s then fldOf s 0xF3800C 19 0 * 2 ^ 19
  else if effLevel s = 2 then fldOf s 0xF3800A 19 0 * fldOf s 0xF3800B 19 0
  else fldOf s 0xF3800A 19 0 * 2 ^ 19

/-- M and R of the period just ended (R300). -/
def motSum (s : State) : Int := s.sv.pMot
def regSum (s : State) : Int := s.sv.pMot - s.sv.pSum

/-- k_m and A for the following period (R300). -/
def motoringScale (s : State) : State :=
  let (gn, gd) := sagFactor s
  let A := roundDiv (supplySrc s * gn) (gd * 2 ^ 19) + regSum s
  let M := motSum s
  let km : Nat := if M = 0 ∨ M ≤ A then 0x7FFFF else (A * 2 ^ 19 / M).toNat
  putWord 0xF38025 (word km) (putPair 0xF38028 (wrapN 32 (regSum s)) (putPair 0xF38026 (wrapN 32 M)
    { s with ph := { s.ph with km := km, aSum := A.toNat } }))

/-- The chopper duty of the following period in 1/256 (R304). -/
def chopperDuty (s : State) : Nat :=
  let p : Int := fldOf s 0xF3800E 19 0
  let excess : Int := if busFlt s then 0 else max 0 ((s.ph.vbus : Int) - 1000 - fldOf s 0xF38010 19 10)
  let x := regSum s - motSum s - fldOf s 0xF3800D 19 0 + fldOf s 0xF3800F 19 0 * excess
  if p = 0 then 0 else (roundDiv (256 * clampI 0 p x) p).toNat

/-- PH_CHOP_DUTY holds eight bits; a full duty shows FFh (DESIGN CHOICE, log entry 72). -/
def setDuty (s : State) : State :=
  let d := chopperDuty s
  putFld 0xF3802A 7 0 (min d 255) { s with ph := { s.ph with duty := d } }

/-- HOLD_CHG and HOLD_DIS (R302, R305). -/
def holdBank (s : State) : State :=
  let v := s.ph.vhold
  let full := fldOf s 0xF38014 19 10
  let on := effLevel s ≤ 2 && (decide (v < full) || (s.ph.holdChg && decide (v < full + 10)))
  { s with ph := { s.ph with holdChg := on && drivesHold s, holdDis := decide (4 ≤ effLevel s) && drivesHold s } }

/-- CHOP goes high at CI for its duty, where it is driven (R304). -/
def chopStart (s : State) : State := setChop (s.ph.ovAct && !busFlt s) (decide (0 < s.ph.duty)) s

/-- CHOPPER_DUTY_END: CHOP goes low unless the override acts or the duty is full (R304). -/
def chopEnd (s : State) : State := setChop s.ph.ovAct (decide (256 ≤ s.ph.duty)) s

def execChopperDutyEnd (s : State) : Host.Outcome State Fault Refusal := .next (chopEnd s)

/-! ### Settings at a boundary (R296, R300, R304) -/

/-- The bounds of threshold k and its step below the one before; lists the four words as they would take effect. -/
def thBad (w1 w2 w3 w4 : Word) (k : Nat) : Bool :=
  let w (i : Nat) : Word := if i = 1 then w1 else if i = 2 then w2 else if i = 3 then w3 else w4
  let t := fld (w k) 19 10
  let h := fld (w k) 9 0
  let (lo, hi) := if k = 1 then (880, 960) else if k = 2 then (800, 900) else if k = 3 then (650, 800) else (500, 700)
  decide (t < lo) || decide (hi < t) || decide (h < 5) || decide (50 < h) ||
  (decide (1 < k) && decide (fld (w (k - 1)) 19 10 < t + 20)) || (decide (k < 4) && decide (t < fld (w (k + 1)) 19 10 + 20))

/-- A staged Pumphouse word is refused at its boundary: CFG_ERR (R296, R300, R307). -/
def phRefused (s : State) (a : Nat) (w : Word) : Bool :=
  if 0xF38005 ≤ a ∧ a ≤ 0xF38008 then thBad (regGet s 0xF38005) (regGet s 0xF38006) (regGet s 0xF38007) (regGet s 0xF38008) (a - 0xF38004)
  else if a = 0xF38009 then decide (fld w 19 10 < fld w 9 0 + 50)
  else if a = 0xF38010 then decide (fld w 9 0 ≤ fld w 19 10)
  else if a = 0xF38014 then decide (fld w 9 0 < 400) || decide (900 < fld w 9 0)
  else if a = 0xF38016 then decide (fld w 7 0 < 14) || decide (149 < fld w 7 0)
  else false

end Sys2Proof.Machine
end

