-- ==== Sys2Proof/Machine/Pair.lean ====
section
/-! DEFINITION. The redundant head pair: pair-lane frames, inputs, signatures, self-diagnosis, alignment, takeover and exchange (08 R227-R255). -/

namespace Sys2Proof.Machine

def setPr (p : Pair) (s : State) : State := { s with pr := p }

/-- The registers the two units keep identical (R232, R258): the MP_ block, the SV_ windows with the generators, KS_OVL_REQ and GH_BRK_REQ. -/
def replicated (a : Nat) : Bool := (decide (0xF08000 ≤ a) && decide (a < 0xF20000)) || a == 0xF48008 || a == 0xF34007

/-- The unit sends on the pair lane: in a pair, from JOIN on, and not silent (R230, R240). -/
def onLane (s : State) : Bool := paired s && !s.pr.silent && s.lk.st != .off

/-- Sends a pair-lane frame. -/
def laneSend (b : FrameBody) (s : State) : State := whenB (onLane s) (sendLane b) s

/-- All batches. -/
def allBatches (s : State) : List Nat := (List.range (batchCount s)).map (· + 1)

/-- Alignment is lost in every batch (R241, R243); the active starts to align anew. -/
def unalignAll (s : State) : State :=
  showRole (setPr { s.pr with unaligned := allBatches s, adoptStep := if s.pr.active then 1 else s.pr.adoptStep } s)

/-- One batch is unaligned, to be realigned (R237, R240). -/
def unalign (b : Nat) (s : State) : State :=
  if s.pr.unaligned.contains b then s
  else showRole (setPr { s.pr with unaligned := s.pr.unaligned ++ [b], adoptStep := if s.pr.active && s.pr.adoptStep == 0 then 3 else s.pr.adoptStep } s)

/-! ### Receiving on the lane (R229, R231) -/

/-- The checks of every pair-lane frame: validity, in whichever link state, then the epoch, where one older or at half the range is stale; the frame may be used where the answer is true (R229, R231, R247, R508). -/
def laneFrame (k : RxCheck) (e : Nat) (s : State) : State × Bool :=
  if !paired s || !linkCounts s then (s, false)
  else
    let k1 := if s.pr.laneUp then k else .code
    match k1 with
    | .code => (count 0xF30011 s, false)
    | .crc | .format | .address => (count 0xF30010 s, false)
    | .ok =>
      if !linkOn s then (s, false)
      else if serialOlder 16 e s.lk.epoch then (count 0xF3000B s, false)
      else if s.lk.st = .lead ∧ serialNewer 16 e s.lk.epoch then (superseded s, false)
      else
        let s1 := setPr { s.pr with heardLane := true, lost := false } s
        (putBit 0xF30002 13 false s1, true)

/-- What a frame does that passes the checks of the lane. -/
def onFrame (k : RxCheck) (e : Nat) (f : State → State) (s : State) : State :=
  let r := laneFrame k e s
  if r.2 then f r.1 else r.1

/-- A follower takes the newer epoch of the unit that holds the role (R248). -/
def followEpoch (e : Nat) (s : State) : State := if !s.pr.active && serialNewer 16 e s.lk.epoch then setEpoch e s else s

/-! ### Role resolution (R241) -/

/-- Entry into RUN-STANDBY: profiles, first use, and no batch aligned (R93, R150, R241, R476). -/
def enterStandby (e : Nat) (s : State) : State :=
  let s1 := { s with sys := { s.sys with op := .runStandby }, pr := { s.pr with active := false, empty := 0 } }
  let s2 := startMotion (setEpoch e s1)
  unalignAll s2

/-- The partner begins to align anew: its role becomes 010b from another than 011b, or its PAIR_LOST is 1 (R241, R243). -/
def partnerAnew (was : Nat) (u : StateIn) : Bool := u.role.toNat == 2 && ((was != 2 && was != 3) || u.status.getLsbD 5)

/-- STATE_RECEIVED (R230, R241, R247); the stored epoch counts from a frame of LISTEN or COLDSTART (R248). -/
def takeState (e : Nat) (u : StateIn) (s : State) : State :=
  let was := s.pr.partnerRole
  let diff := u.cfgsig.toNat != s.ks.cfgSig
  let cold := s.lk.st == .listen || s.lk.st == .coldstart
  let s1 := setPr { s.pr with partnerCfgSig := some u.cfgsig.toNat, partnerEpoch := if cold then some u.stored.toNat else s.pr.partnerEpoch, partnerRole := u.role.toNat,
                              partnerState := true, jRecv := u.j.toNat, cfgDiff := diff } s
  let s2 := putBit 0xF30002 10 diff (if u.act && !s1.pr.active then { s1 with mains := { s1.mains with j := u.j.toNat } } else s1)
  let s3 := if s2.sys.op = .join then s2 else followEpoch e s2
  if s3.sys.op = .join ∧ s3.lk.st = .follow ∧ u.role.toNat = 1 ∧ !diff ∧ u.unitB ≠ lkUnitB s3 ∧ !bitOf s3 0xF28009 16 then enterStandby e s3
  else if s3.pr.active && partnerAnew was u then unalignAll s3
  else s3

def execStateReceived (k : RxCheck) (e : BitVec 16) (u : StateIn) (s : State) : Host.Outcome State Fault Refusal :=
  .next (onFrame k e.toNat (takeState e.toNat u) s)

/-! ### Inputs (R235) -/

/-- INC_RECEIVED: the standby takes the active's cycle inputs, and its following profiles their reference from them (R101, R235). -/
def takeInc (fb : List FbIn) (sdm : List (Int × BitVec 4)) (km : Nat) (s : State) : State :=
  if isStandby s then followOnce s (setPr { s.pr with inc := some (fb, sdm, km) } s) else s

def execIncReceived (k : RxCheck) (e : BitVec 16) (fb : List FbIn) (sdm : List (Int × BitVec 4)) (km : Nat) (s : State) :
    Host.Outcome State Fault Refusal := .next (onFrame k e.toNat (takeInc fb sdm km) s)

/-- IN_RECEIVED: the first IN of a batch in the cycle (R235). -/
def takeIn (b mask : Nat) (recs : List UplRec) (s : State) : State :=
  if isStandby s && !(s.pr.ins.any fun x => x.1 == b) then
    setPr { s.pr with ins := s.pr.ins ++ [(b, mask, recs)] } s
  else s

def execInReceived (k : RxCheck) (e : BitVec 16) (b : Nat) (mask : BitVec 8) (recs : List UplRec) (s : State) :
    Host.Outcome State Fault Refusal := .next (onFrame k e.toNat (takeIn b mask.toNat recs) s)

/-! ### Signatures (R237-R239) -/

/-- A computation fault of the cycle with sequence number q: counted, its cycle kept, and self-diagnosis of the lanes asked for (R237, R239). -/
def computationFault (q : Nat) (axes : List Nat) (s : State) : State :=
  let s1 := putPair 0xF30004 q (count 0xF3000A s)
  raiseEvent 12 (setPr { s1.pr with diagQ := q, lastComp := some q, diagNext := s1.pr.diagNext ++ axes.filter fun a => !s1.pr.diagNext.contains a } s1)

/-- Compares the two SIGs of a batch and cycle, aligned in both units, once both are there; a lane that differed on the link counts as one whose OSIG differs (R237, R238). -/
def compareSig (b q : Nat) (s : State) : State :=
  if !paired s || s.pr.unaligned.contains b || s.pr.compared.contains (b, q) then s
  else
    match s.pr.sigOwn.find? (fun x => x.batch == b && x.seq == q), s.pr.sigPartner.find? (fun x => x.batch == b && x.seq == q) with
    | some o, some p =>
      let lanes := ((batchAxes s b).zip (o.osig.zip p.osig)).filterMap fun x => if x.2.1 = x.2.2 then none else some x.1
      let diffs := lanes ++ s.pr.osigDiff.filterMap fun x => if x.1 = q ∧ x.2.1 = b ∧ !lanes.contains x.2.2 then some x.2.2 else none
      let s1 := setPr { s.pr with compared := s.pr.compared ++ [(b, q)] } s
      if diffs.isEmpty then s1 else if o.isig = p.isig then computationFault q diffs s1 else unalign b s1
    | _, _ => s

/-- SIG_RECEIVED. -/
def takeSig (x : SigRec) (s : State) : State := compareSig x.batch x.seq (setPr { s.pr with sigPartner := s.pr.sigPartner ++ [x] } s)

def execSigReceived (k : RxCheck) (e : BitVec 16) (b : SigKey) (isig : BitVec 32) (osig : List (BitVec 16)) (s : State) :
    Host.Outcome State Fault Refusal := .next (onFrame k e.toNat (takeSig ⟨b.batch, b.seq.toNat, b.own, isig.toNat, osig.map (·.toNat)⟩) s)

/-- BATCH_END at time t: the programs, then the comparison with a SIG already received (R128, R237). -/
def execBatchEnd (bad : Bool) (t : Nat) (s : State) : Host.Outcome State Fault Refusal :=
  let s0 := advance t s
  .next (match s0.sv.late, s0.sv.batch with
    | some x, _ => compareSig x.1.batch x.1.seq (batchEnd bad s0)
    | none, some b => compareSig b s0.lk.q (batchEnd bad s0)
    | none, none => s0)

/-- The lanes a diagnosis recomputes: 8 in mode C, 16 in mode A, 32 in mode B (R239). -/
def diagMax (s : State) : Nat := if modeOf s = 1 then 32 else if modeOf s = 2 then 8 else 16

/-- Self-diagnosis starts at the CI after the fault: the check lane turns to the lanes that differed, in ascending axis number (R239). -/
def startDiag (s : State) : State :=
  if s.pr.diagNext.isEmpty || s.pr.diag || s.lk.q == s.pr.diagQ then s
  else
    let lanes := (List.range 256).filter s.pr.diagNext.contains
    let s1 := putWord 0xF30003 (word (lanes.headD 255 * 256 + min lanes.length 255)) s
    putBit 0xF30002 12 true (setPr { s1.pr with diag := true, diagLanes := lanes, diagNext := [], ownRes := 0, partRes := 0 } s1)

/-- The lanes that the running diagnosis recomputes: of those that differed, the first of the mode (R239). -/
def diagRecomputed (s : State) : List Nat := s.pr.diagLanes.take (diagMax s)

/-- The forced rescan of the windows of the lanes and of their parameter axes finds a mismatch (R239, R267). -/
def diagRescanBad (s : State) : Bool :=
  (diagRecomputed s ++ (diagRecomputed s).flatMap fun a => (ledBy s a).map fun m => paramAxis s (256 + m)).any fun a =>
    (List.range 4).any fun i => mapHas s.gh.sigs ((svBase a - 0xF00000) / 64 + i)

/-- The unit's own result; bad: a recomputation disagreed (R239). -/
def diagResult (bad : Bool) (s : State) : State :=
  let fault := match s.pr.lastUnit with
    | some q => q == s.lk.q || (q + 1) % 2 ^ 32 == s.lk.q
    | none => false
  let fail := bad || diagRescanBad s || fault
  let s1 := setPr { s.pr with ownRes := if fail then 2 else 1 } s
  laneSend (.pDres (!fail)) (putFld 0xF30003 19 18 (if fail then 2 else 1) s1)

/-- DRES_RECEIVED. -/
def takeDres (pass : Bool) (s : State) : State :=
  if s.pr.diag then putFld 0xF30003 17 16 (if pass then 1 else 2) (setPr { s.pr with partRes := if pass then 1 else 2 } s) else s

def execDresReceived (k : RxCheck) (e : BitVec 16) (pass : Bool) (s : State) : Host.Outcome State Fault Refusal :=
  .next (onFrame k e.toNat (takeDres pass) s)

/-! ### Roles (R227, R244-R251) -/

/-- A role change closes every authorisation of the unit (R281). -/
def closeAuth (s : State) : State := putBit 0xF34045 19 false { s with gh := { s.gh with pw := { s.gh.pw with auth := [] } } }

/-- Service-channel transfers in progress are abandoned at a role change (R249). -/
def dropService (s : State) : State := { s with lk := { s.lk with svc := { Service.reset with turnA := s.lk.svc.turnA, turnB := s.lk.svc.turnB } } }

/-- The unit takes the active role: the next epoch, LEAD, its own outputs, the mains lock that goes on from p and j; the hours since it last held the role start anew (R227, R244, R251, R253). -/
def becomeActive (s : State) : State :=
  let op := if s.sys.op = .degraded then OpState.degraded else .runActive
  let s1 := { s with sys := { s.sys with op := op, per := { s.sys.per with xage := 0 } }, lk := { s.lk with st := .lead },
                     pr := { s.pr with active := true, wasActive := true, bridging := false, empty := 0, failHeard := false, unaligned := [], adoptStep := 0 },
                     mains := { s.mains with mlOn := true } }
  let s2 := putWord 0xF30006 0 (putBit 0xF30002 9 false (setEpoch (s.lk.epoch + 1) s1))
  updateBrakes (closeAuth (dropService (showRole s2)))

/-- The standby takes over at this T0; one not aligned in every batch enters SAFE (R244). -/
def takeOver (s : State) : State :=
  if s.pr.unaligned.isEmpty then raiseEvent 13 (count 0xF3000E (becomeActive s)) else enterSafe s

/-- The empty cycles in a row at the T0 that comes, the cycle now ending among them (R244). -/
def emptyNow (s : State) : Nat := if s.pr.heardLane || s.pr.heardLink then 0 else s.pr.empty + 1

/-- TAKEOVER at T0: after two empty cycles, or FAIL (R244, R245). -/
def takeoverEff (s : State) : State := if isStandby s && (decide (2 ≤ emptyNow s) || s.pr.failHeard) then takeOver s else s

def execTakeover (s : State) : Host.Outcome State Fault Refusal := .next (takeoverEff s)

/-- The unit goes silent on the link and the pair lane and enters SAFE (R240, R246). -/
def goSilent (s : State) : State :=
  showRole (closeAuth (toSafe { s with pr := { s.pr with silent := true, active := false, bridging := false, failPend := false }, lk := { s.lk with st := .off } }))

/-- DIAGNOSIS_OUTCOME at T0(n + 2) (R240). -/
def diagnosisOutcome (s : State) : State :=
  if !s.pr.diag then s
  else
    let own := s.pr.ownRes
    let part := s.pr.partRes
    let lanes := s.pr.diagLanes
    let s0 := whenB (part == 0) (putFld 0xF30003 17 16 3) (putBit 0xF30002 12 false (setPr { s.pr with diag := false, diagLanes := [] } s))
    if own = 2 then goSilent (laneSend (.pFail 0x11) s0)
    else if part = 2 then (if isStandby s0 then takeOver s0 else s0)
    else if part = 1 then
      let s1 := enterDegraded (putBit 0xF30002 11 true (setPr { s0.pr with deg := true } s0))
      forEach (lanes.map (batchOf s1)) unalign s1
    else enterDegraded s0

def execDiagnosisOutcome (s : State) : Host.Outcome State Fault Refusal := .next (diagnosisOutcome s)

/-- FAIL_RECEIVED: a standby takes over from the next T0 (R245). -/
def takeFail (s : State) : State := if isStandby s then setPr { s.pr with failHeard := true } s else s

def execFailReceived (k : RxCheck) (e : BitVec 16) (cause : BitVec 8) (s : State) : Host.Outcome State Fault Refusal :=
  .next (onFrame k e.toNat (fun s => takeFail (setPr { s.pr with partnerRole := 4, failCause := cause.toNat } s)) s)

/-- The lane is down, or two cycles passed without a valid frame while the partner was heard on a link port (R231). -/
def laneGone (s : State) : Bool := !s.pr.laneUp || decide (2 ≤ s.pr.laneMiss)

/-- PAIR_LOST: EV30; the active will align anew, and a standby that has heard the active on the link since is unaligned (R231, R243). -/
def pairLost (s : State) : State :=
  if !paired s || s.pr.lost || !laneGone s then s
  else
    let s1 := raiseEvent 30 (putBit 0xF30002 13 true (setPr { s.pr with lost := true } s))
    if s1.pr.active || (isStandby s1 && (s1.pr.heardLink || decide (2 ≤ s1.pr.laneMiss))) then unalignAll s1 else s1

def execPairLost (s : State) : Host.Outcome State Fault Refusal := .next (pairLost s)

/-- BRIDGING at T0: after one empty cycle the standby drives its outputs as last commanded (R244). -/
def bridge (s : State) : State :=
  if s.sys.op = .runStandby ∧ emptyNow s = 1 then updateBrakes (setPr { s.pr with bridging := true } s) else s

def execBridging (s : State) : Host.Outcome State Fault Refusal := .next (bridge s)

/-! ### The boundary record (R234) -/

/-- The outputs as the active commands them for the boundary: groups in STO, groups in SS1, brake outputs. A group that the boundary will energise is in neither. -/
def outputEntry (s : State) : BndEntry :=
  let mask (c : GrpCond) : Nat := (List.finRange 4).foldl (fun m g => if s.gh.grp[g].cond = c ∧ !groupReady s g then m + 2 ^ g.val else m) 0
  .outputs (mask .sto) (mask .ss1) s.gh.brk.toNat

/-- The B-marked fields of a register with a write waiting. -/
def stagedPart (s : State) (a : Nat) : Word :=
  match rowOf a with
  | some r => r.fields.foldl (fun w f => if f.mark = .b then setFld w f.hi f.lo (fld (regGet s a) f.hi f.lo) else w) 0
  | none => 0

/-- A parameter set that a Sundial firing has asked for is the last word on its register (R51). -/
def psetAsked (s : State) (a : Nat) : Bool := s.sd.psetPend.any fun x => a == svBase x.1 + 1

/-- The entries that wait for the record: I-marked writes in order, B-marked writes by register, parameter sets, and the actions of this boundary. -/
def bndWaiting (s : State) : List BndEntry :=
  [outputEntry s, .level (min 3 (nextMeas s))] ++ (if s.gh.degPend then [.degraded] else []) ++ s.pr.bndOut ++
    (s.held.filter fun e => replicated e.1 && !psetAsked s e.1).map (fun e => .write e.1 (stagedPart s e.1)) ++ s.sd.psetPend.map fun x => .paramSet x.1 x.2

/-- The state words of a profile, in the order of the fields of Profile. -/
def profWords (x : Profile) : List Int :=
  let g : Int × Int := match x.goal with
    | .none => (0, 0)
    | .at_ p => (1, p)
    | .cruise => (2, 0)
    | .rest => (3, 0)
    | .hold => (4, 0)
    | .back p => (5, p)
    | .replan p => (6, p)
    | .respeed => (7, 0)
  [(stNum x.st : Int), (x.ramp : Int), x.p0, x.v0, x.a0, (x.tau : Int), g.1, g.2, x.p, x.v, x.a, x.sp, x.spPrev, x.vPlan, x.vTgt, x.x0, x.offs, (x.waitCmd : Int), x.cutDir,
    (x.clamped.toNat : Int), (x.fresh.toNat : Int), (x.cap.isSome.toNat : Int), x.cap.getD 0] ++ x.segs.flatMap fun g => [g.j, (g.dur : Int), (g.zeroA.toNat : Int)]

def segsOf : List Int → List Seg
  | j :: d :: z :: r => ⟨j, d.toNat, decide (z ≠ 0)⟩ :: segsOf r
  | _ => []

def stOf (n : Int) : ProfState :=
  if n = 1 then .moving else if n = 2 then .speed else if n = 3 then .following else if n = 4 then .stopping else if n = 5 then .held
  else if n = 6 then .waiting else .idle

def goalOf (k p : Int) : Goal :=
  if k = 1 then .at_ p else if k = 2 then .cruise else if k = 3 then .rest else if k = 4 then .hold else if k = 5 then .back p
  else if k = 6 then .replan p else if k = 7 then .respeed else .none

/-- The profile its state words stand for. -/
def profFrom (l : List Int) : Profile :=
  let w (i : Nat) : Int := l.getD i 0
  { st := stOf (w 0), ramp := (w 1).toNat, p0 := w 2, v0 := w 3, a0 := w 4, tau := (w 5).toNat, goal := goalOf (w 6) (w 7), p := w 8, v := w 9,
    a := w 10, sp := w 11, spPrev := w 12, vPlan := w 13, vTgt := w 14, x0 := w 15, offs := w 16, waitCmd := (w 17).toNat, cutDir := w 18,
    clamped := decide (w 19 ≠ 0), fresh := decide (w 20 ≠ 0), cap := if w 21 = 0 then none else some (w 22), segs := segsOf (l.drop 23) }

/-- The state words of a loop, in the order of the fields of LoopSt. -/
def loopWords (l : LoopSt) : List Int :=
  [l.x, l.x1, l.x2, l.vAct, l.vp, l.vCmd, l.i, l.dHat, l.w, l.fOut, l.fOut1, l.fAct, (l.age : Int), (l.velValid.toNat : Int), (l.validFor : Int), (l.tFirst : Int), l.eq, l.yBq,
    l.fSum, l.pw, l.pSys] ++ l.bq

def loopFrom (k : List Int) : LoopSt :=
  let w (i : Nat) : Int := k.getD i 0
  { x := w 0, x1 := w 1, x2 := w 2, vAct := w 3, vp := w 4, vCmd := w 5, i := w 6, dHat := w 7, w := w 8, fOut := w 9, fOut1 := w 10, fAct := w 11,
    age := (w 12).toNat, velValid := decide (w 13 ≠ 0), validFor := (w 14).toNat, tFirst := (w 15).toNat, eq := w 16, yBq := w 17, fSum := w 18,
    pw := w 19, pSys := w 20, bq := k.drop 21 }

/-- The state words of the group sequence. -/
def gwWords (g : GroupWrite) : List Int :=
  let c : Int := match g.cycle with
    | some n => n + 1
    | none => 0
  [c, (g.sent : Int), (g.staged.length : Int), (g.applied.length : Int), (g.tables.length : Int)] ++ (g.staged ++ g.applied ++ g.tables ++ g.biquads).map fun (n : Nat) => (n : Int)

def gwFrom (l : List Int) : GroupWrite :=
  let n (i : Nat) : Nat := (l.getD i 0).toNat
  let r := (l.drop 5).map (·.toNat)
  { cycle := if l.getD 0 0 = 0 then none else some (n 0 - 1), sent := n 1, staged := r.take (n 2), applied := (r.drop (n 2)).take (n 3),
    tables := (r.drop (n 2 + n 3)).take (n 4), biquads := r.drop (n 2 + n 3 + n 4) }

/-- The state words of a test-signal generator, in the order of the fields of Gen. -/
def genWords (x : Gen) : List Int :=
  [(x.running.toNat : Int), (x.acts.toNat : Int), (x.k : Int), (x.lfsr.toNat : Int), (x.phi : Int), (x.inc : Int), (x.ratio : Int), x.sample]

def genFrom (l : List Int) : Gen :=
  let w (i : Nat) : Int := l.getD i 0
  { running := decide (w 0 ≠ 0), acts := decide (w 1 ≠ 0), k := (w 2).toNat, lfsr := BitVec.ofNat 15 (w 3).toNat, phi := (w 4).toNat,
    inc := (w 5).toNat, ratio := (w 6).toNat, sample := w 7 }

/-- The objects whose loops a batch computes. -/
def batchObjects (s : State) (b : Nat) : List Nat := batchAxes s b ++ (batchAxes s b).flatMap fun a => (ledBy s a).map fun m => 256 + m

/-- Batches aligned per cycle: 2 in mode A, 4 in mode B, 1 in mode C (R242). -/
def adoptRate (s : State) : Nat := if modeOf s = 1 then 4 else if modeOf s = 2 then 1 else 2

/-- A register that hardware writes, as an integer. -/
def shownInt (s : State) (a : Nat) : Int := ((regGet s a).toNat : Int)

/-- What step 2 carries beside the profiles: the generators, then the group sequence, each with the status registers beside it. -/
def motionRest (s : State) : List Int :=
  shownInt s (genAddr 0 + 7) :: genWords s.sv.gens[0] ++ shownInt s (genAddr 1 + 7) :: genWords s.sv.gens[1] ++
    shownInt s 0xF0FA01 :: shownInt s 0xF0FA02 :: gwWords s.mo.gw

/-- A status register takes an adopted word. -/
def adoptWord (a : Nat) (v : Int) (s : State) : State := putWord a (word v.toNat) s

/-- The register image of step 1: the replicated registers in force, then the committed blend tables from 1000000h and biquads from 2000000h (R242; DESIGN CHOICE, log entry 69). -/
def adoptImage (s : State) : List (Nat × Word) :=
  ((s.regs.filter fun e => replicated e.1).map fun e => (e.1, inForce s e.1)) ++ s.mo.blend.map (fun e => (0x1000000 + e.1, e.2)) ++ s.sv.bq.map fun e => (0x2000000 + e.1, e.2)

/-- At the end of a cycle the active sends the next step of the alignment, with the state as it then stands (R242). -/
def adoptSend (s : State) : State :=
  if !s.pr.active || s.pr.partnerRole != 2 || s.pr.lost then s
  else if s.pr.adoptStep = 1 then laneSend (.pAdopt (.regs (adoptImage s))) (setPr { s.pr with adoptStep := 2 } s)
  else if s.pr.adoptStep = 2 then
    laneSend (.pAdopt (.motion ((profiles s).map fun o => (o, shownInt s (mpStat o) :: profWords (profOf s o))) (motionRest s))) (setPr { s.pr with adoptStep := 3 } s)
  else if s.pr.adoptStep = 3 then
    let bs := ((allBatches s).filter s.pr.unaligned.contains).take (adoptRate s)
    let s1 := forEach bs (fun b s => laneSend (.pAdopt (.batch b ((batchObjects s b).map fun o => (o, loopWords (loopOf s o))))) s) s
    let left := s.pr.unaligned.filter fun b => !bs.contains b
    showRole (setPr { s1.pr with unaligned := left, adoptStep := if left.isEmpty then 0 else 3 } s1)
  else s

/-- BND_CUT_OFF: the active closes and sends the record of the cycle, at most 170 entries; a unit in self-diagnosis sends its result (R234, R239). -/
def bndCutOff (bad : Bool) (s : State) : State :=
  if !paired s then s
  else
    let s1 := if s.pr.active then
        let w := bndWaiting s
        let out := (w.drop 170).filter fun e => s.pr.bndOut.contains e
        laneSend (.pBnd (w.take 170)) (setPr { s.pr with bndClosed := w.take 170, bndOut := out } s)
      else s
    if s1.pr.diag then diagResult bad s1 else s1

def execBndCutOff (bad : Bool) (s : State) : Host.Outcome State Fault Refusal := .next (bndCutOff bad s)

/-- BND_RECEIVED: kept for the boundary that ends the cycle (R234). -/
def takeBnd (entries : List BndEntry) (s : State) : State := if isStandby s then setPr { s.pr with bndIn := s.pr.bndIn ++ entries } s else s

def execBndReceived (k : RxCheck) (e : BitVec 16) (entries : List BndEntry) (s : State) : Host.Outcome State Fault Refusal :=
  .next (onFrame k e.toNat (takeBnd entries) s)

/-- ADOPT_RECEIVED: kept for the boundary that ends the cycle (R242). -/
def takeAdopt (a : Adopt) (s : State) : State := if isStandby s then setPr { s.pr with adopt := s.pr.adopt ++ [a] } s else s

def execAdoptReceived (k : RxCheck) (e : BitVec 16) (a : Adopt) (s : State) : Host.Outcome State Fault Refusal :=
  .next (onFrame k e.toNat (takeAdopt a) s)

/-- One ADOPT at the boundary (R242). -/
def loadAdopt (a : Adopt) (s : State) : State :=
  match a with
  | .regs img =>
    let part (lo : Nat) : SMap Word := (img.filter fun e => decide (lo ≤ e.1) && decide (e.1 < lo + 0x1000000)).foldl (fun m e => mapPut 0 m (e.1 - lo) e.2) []
    let s1 := { s with regs := s.regs.filter fun e => !replicated e.1, held := s.held.filter fun e => !replicated e.1,
                       mo := { s.mo with blend := part 0x1000000, blendPend := [] }, sv := { s.sv with bq := part 0x2000000, bqPend := [] } }
    forEach (img.filter fun e => replicated e.1) (fun e s => regSet e.1 e.2 s) s1
  | .motion prof ws =>
    let w (i : Nat) : Int := ws.getD i 0
    let s1 := forEach prof (fun e s => adoptWord (mpStat e.1) (e.2.headD 0) (setProf e.1 (profFrom e.2.tail) s)) s
    let s2 := adoptWord (genAddr 1 + 7) (w 9) (adoptWord (genAddr 0 + 7) (w 0) (setGen 1 (genFrom (ws.drop 10)) (setGen 0 (genFrom (ws.drop 1)) s1)))
    adoptWord 0xF0FA02 (w 19) (adoptWord 0xF0FA01 (w 18) (setGw (gwFrom (ws.drop 20)) s2))
  | .batch b loops =>
    let s1 := forEach loops (fun e s => setLoop e.1 (loopFrom e.2) s) s
    showRole (setPr { s1.pr with unaligned := s1.pr.unaligned.erase b } s1)

/-- Group g as the active commands it (R260). -/
def followGroup (sto ss1 : Nat) (g : Fin 4) (s : State) : State :=
  setCond g (if sto / 2 ^ g.val % 2 = 1 then .sto else if ss1 / 2 ^ g.val % 2 = 1 then .ss1 else .energised) s

/-- What an entry of the record other than a register write does in the standby at the boundary (R234, R260, R276, R298). -/
def bndAction (e : BndEntry) (s : State) : State :=
  match e with
  | .write _ _ => s
  | .paramSet a k => stageReg (svBase a + 1) (setFld (regGet s (svBase a + 1)) 19 18 k) s
  | .overlay i on => hwMod 0xF48008 (fun w => setBit w i on) s
  | .overlaySet r => putWord 0xF48008 (word r) s
  | .outputs sto ss1 brk =>
    upTo 4 (fun g s => followGroup sto ss1 (Fin.ofNat 4 g) s) (setPr { s.pr with cmdSto := sto, cmdBrk := brk } s)
  | .level l => setPr { s.pr with bndLevel := l } s
  | .degraded => { s with gh := { s.gh with degPend := true } }

/-! ### The cycle of the pair -/

/-- At the boundary that ends a cycle: who was heard, empty cycles, and the frames of the cycle forgotten; signatures are kept for the batches that end past it (R231, R243, R244). -/
def pairPeriod (s : State) : State :=
  if !paired s then s
  else
    let p := s.pr
    let empty := if isStandby s then emptyNow s else 0
    let ended (x : Nat) : Bool := x == s.lk.q
    let over_ := p.exch.any fun x => x.overlap
    let s1 := putBit 0xF30002 14 p.heardLane (putBit 0xF30002 15 p.heardLink s)
    let s2 := setPr { s1.pr with laneMiss := if p.heardLane || !p.heardLink then 0 else p.laneMiss + 1, empty := empty, bridging := p.bridging && (over_ || empty != 0),
                                 heardLane := false, heardLink := false, inc := none, ins := [], own := false, ownNow := false,
                                 sigOwn := p.sigOwn.filter fun x => ended x.seq, sigPartner := p.sigPartner.filter fun x => ended x.seq,
                                 osigDiff := p.osigDiff.filter fun x => ended x.1, compared := p.compared.filter fun x => ended x.2, bndIn := [], adopt := [], bndClosed := [] } s1
    let s3 := if p.lost && p.heardLink && isStandby s2 then unalignAll s2 else s2
    updateBrakes s3

/-- Each unit sends its STATE frame at T0 + 200 ns (R230). -/
def sendState (s : State) : State :=
  laneSend (.pState (fldOf s 0xF30002 19 17) (fldOf s 0xF30002 19 8) s.ks.cfgSig s.sys.per.epoch (if s.pr.active then s.mains.j else 0)) s

/-- The active sends its cycle inputs and k_m at CI + 40 cy (R230). -/
def sendInc (s : State) : State :=
  if s.pr.active then
    let i := ownInc s
    laneSend (.pInc i.1 i.2.1 i.2.2) s
  else s

/-! ### Commanded exchange (R250, R251) -/

/-- The conditions that refuse an exchange (R251). -/
def exchangeRefused (s : State) : Bool :=
  let recent := match s.pr.lastComp with
    | some q => decide ((s.lk.q + 2 ^ 32 - q) % 2 ^ 32 ≤ 64)
    | none => false
  !s.pr.unaligned.isEmpty || s.sys.op == .degraded || s.pr.deg || s.pr.diag || s.pr.lost || gwPhase s != 0 || recent

/-- An exchange is refused: XREFUSED. -/
def refuseExchange (s : State) : State := putBit 0xF30002 7 true (setPr { s.pr with exch := none } s)

/-- XCHG takes effect in cycle c: XREQ with x = c + 16, or a refusal (R251). -/
def xchgRequest (s : State) : State :=
  if !s.pr.active || s.sys.op != .runActive || !paired s || s.pr.partnerRole != 3 || exchangeRefused s || s.pr.exch.isSome then refuseExchange s
  else
    let x := (s.lk.q + 16) % 2 ^ 32
    laneSend (.pXreq x) (setPr { s.pr with exch := some ⟨s.lk.q, x, false, false⟩ } s)

/-- XREQ_RECEIVED: the standby answers XACK (R251). -/
def takeXreq (x : Nat) (s : State) : State :=
  if !isStandby s then s
  else if s.sys.op != .runStandby || exchangeRefused s then laneSend (.pXack x 1) s
  else laneSend (.pXack x 0) (setPr { s.pr with exch := some ⟨s.lk.q, x, true, false⟩ } s)

def execXreqReceived (k : RxCheck) (e : BitVec 16) (x : BitVec 32) (s : State) : Host.Outcome State Fault Refusal :=
  .next (onFrame k e.toNat (takeXreq x.toNat) s)

/-- XACK_RECEIVED: the exchange proceeds to cycle x, or is refused (R251). -/
def takeXack (x refusal : Nat) (s : State) : State :=
  match s.pr.exch with
  | some y =>
    if s.pr.active && y.x == x && !y.overlap then
      (if refusal = 0 then setPr { s.pr with exch := some { y with acked := true } } s else refuseExchange s)
    else s
  | none => s

def execXackReceived (k : RxCheck) (e : BitVec 16) (x : BitVec 32) (refusal : BitVec 8) (s : State) : Host.Outcome State Fault Refusal :=
  .next (onFrame k e.toNat (takeXack x.toNat refusal.toNat) s)

/-- XACK_TIMEOUT: no XACK by the end of cycle c + 2 (R251). -/
def xackTimeout (s : State) : State :=
  match s.pr.exch with
  | some y => if s.pr.active && !y.acked && decide (2 ≤ (s.lk.q + 2 ^ 32 - y.c) % 2 ^ 32) then refuseExchange s else s
  | none => s

def execXackTimeout (s : State) : Host.Outcome State Fault Refusal := .next (xackTimeout s)

/-- The last write to an address in the record closed in this cycle. -/
def closedWrite (s : State) (a : Nat) : Option Word :=
  s.pr.bndClosed.foldl (fun w e => match e with
    | .write x v => if x = a then some v else w
    | .paramSet x k => if svBase x + 1 = a then some (word (k * 2 ^ 18)) else w
    | _ => w) none

/-- The unit closed the record of this cycle, as the active or as the unit that gives the role up: what was not in it waits (R234). -/
def gatedNow (s : State) : Bool := paired s && s.pr.bndIn.isEmpty && (s.pr.active || !s.pr.bndClosed.isEmpty)

/-- A word with the B-marked fields of another. -/
def withB (a : Nat) (v w : Word) : Word :=
  match rowOf a with
  | none => w
  | some r => r.fields.foldl (fun w f => if f.mark = .b then setFld w f.hi f.lo (fld v f.hi f.lo) else w) w

/-- What waits in a unit that gives the role up, and no record has carried, is dropped: the record closed last is all that both units apply (R234, R251; DESIGN CHOICE, log entry 72). -/
def dropUnclosed (s : State) : State :=
  let mine := s.held.filter fun e => replicated e.1
  let s1 := forEach mine (fun e s => match closedWrite s e.1 with
    | some v => regSet e.1 (withB e.1 v e.2) s
    | none => regSet e.1 e.2 { s with held := s.held.filter fun x => x.1 != e.1 }) s
  let kept (a : Nat) : Bool := (closedWrite s a).isSome
  { s1 with sd := { s1.sd with psetPend := s1.sd.psetPend.filter fun x => s.pr.bndClosed.contains (.paramSet x.1 x.2) },
            mo := { s1.mo with blendPend := s1.mo.blendPend.filter fun t => kept (0xF0C000 + 64 * t + 63) },
            sv := { s1.sv with bqPend := s1.sv.bqPend.filter fun n => kept (svBase (n / 4) + 0x64 + 8 * (n % 4)) },
            gh := { s1.gh with degPend := s1.gh.degPend && s.pr.bndClosed.contains .degraded },
            pr := { s1.pr with bndOut := [] } }

/-- The old active at T0(x): RUN-STANDBY, epoch E + 1, outputs still driven but no longer test-pulsed (R251). -/
def becomeStandby (s0 : State) : State :=
  let s := forEach (List.finRange 4) (fun g s => setGroup g { s.gh.grp[g] with pulse := 0 } s) (dropUnclosed s0)
  let s1 := { s with sys := { s.sys with op := .runStandby }, lk := { s.lk with st := .follow, marked := false },
                     pr := { s.pr with active := false, bridging := true, empty := 0, unaligned := [], adoptStep := 0 } }
  closeAuth (dropService (showRole (setEpoch (s.lk.epoch + 1) s1)))

/-- EXCHANGE at T0(x) (R251). -/
def exchangeEff (s : State) : State :=
  match s.pr.exch with
  | some y =>
    if y.acked && !y.overlap && (s.lk.q + 1) % 2 ^ 32 == y.x && (s.sys.op == .runActive || s.sys.op == .runStandby) then
      let s1 := count 0xF3000D (if s.pr.active then becomeStandby s else becomeActive s)
      setPr { s1.pr with exch := some { y with overlap := true } } s1
    else s
  | none => s

def execExchange (s : State) : Host.Outcome State Fault Refusal := .next (exchangeEff s)

/-- EXCHANGE_OVERLAP_END at T0(x + 2): the old active holds its outputs passive (R251). -/
def overlapEnd (s : State) : State :=
  match s.pr.exch with
  | some y =>
    if y.overlap && (s.lk.q + 1) % 2 ^ 32 == (y.x + 2) % 2 ^ 32 then updateBrakes (setPr { s.pr with exch := none, bridging := false } s) else s
  | none => s

def execExchangeOverlapEnd (s : State) : Host.Outcome State Fault Refusal := .next (overlapEnd s)

end Sys2Proof.Machine
end

