-- ==== Sys2Proof/Machine/Nv.lean ====
section
/-! DEFINITION. The MRAM controller and resets: reset sources, the boot record, boot hold, the requests to leave CONFIG, RECOVERY, the return record and the test access port (19 R467-R483; 10 R303). -/

namespace Sys2Proof.Machine

/-! ### Resets (R468, R469, R494) -/

/-- What a reset leaves of the test access port: EXTEST, CLAMP and HIGHZ stand in TEST only (R478). -/
def tapAfter : TapIr → TapIr
  | .extest => .bypass
  | .clamp => .bypass
  | .highz => .bypass
  | t => t

/-- Everything on chip at its reset value; MRAM, NV_RSTSRC and what lies outside the part, the levels at its inputs among it, are kept (R468). -/
def cleared (s0 : State) : State :=
  let s := abandonArchive s0
  let r := State.reset
  { r with
    pending := s.pending, freeCtr := s.freeCtr, mem := { r.mem with mram := s.mem.mram }
    sys := { r.sys with per := s.sys.per, gpio := s.sys.gpio, tap := tapAfter s.sys.tap, testEn := s.sys.testEn, resetRec := s.sys.resetRec }
    gh := { r.gh with brkFb := s.gh.brkFb }
    fb := s.fb.map fun x => { FbChan.reset with a := x.a, b := x.b, z := x.z, sa := x.sa, sb := x.sb, sz := x.sz }
    regs := mapPut (resetWord 0xF54004) [] 0xF54004 (regGet s 0xF54004) }

/-- A reset of a code of R468 into POWER-UP or BOOT. -/
def resetPart (code : Nat) (op : OpState) (step : Nat) (held : Bool) (s : State) : State :=
  let r := cleared s
  let per := r.sys.per
  let per1 := { per with resets := per.resets.set (code - 1) (per.resets.getD (code - 1) 0 + 1) }
  let src := word (code * 2 ^ 16 + fld (regGet s 0xF54004) 19 16 * 2 ^ 12)
  putWord 0xF54004 src { r with sys := { r.sys with op := op, step := step, rstHeld := held, resetRec := some code, per := per1 } }

def execPorstNLow (s : State) : Host.Outcome State Fault Refusal := .next (resetPart 1 .powerUp 0 false s)

def execRailPowerOnReset (s : State) : Host.Outcome State Fault Refusal := .next (resetPart 2 .powerUp 0 false s)

/-- RST_N is ignored in POWER-UP and during the flush of L5 (R469, R494). -/
def execRstNReset (s : State) : Host.Outcome State Fault Refusal :=
  .next (if s.sys.op = .powerUp ∨ s.ph.l5 then s else resetPart 4 .boot 0 true s)

/-- RST_N_RELEASE: BOOT step 1 begins (R494). -/
def execRstNRelease (s : State) : Host.Outcome State Fault Refusal :=
  .next (if s.sys.rstHeld then { s with sys := { s.sys with rstHeld := false, step := 1 } } else s)

/-- POWER_UP_END: BOOT begins (R470). -/
def execPowerUpEnd (testEn : Bool) (s : State) : Host.Outcome State Fault Refusal :=
  .next (if s.sys.op = .powerUp ∧ !s.ph.l5 then { s with sys := { s.sys with op := .boot, step := 1, testEn := testEn } } else s)

/-- INTERNAL_RESET_RELEASE (R303). -/
def execInternalResetRelease (s : State) : Host.Outcome State Fault Refusal :=
  .next (if s.ph.l5 && s.ph.flushed then resetPart 3 .powerUp 0 false s else s)

/-! ### The boot record (R471, R474) -/

/-- The CRC of a structure in two words, laid out as in R176. -/
def crcWords (ws : List Word) : List Word :=
  let c := crc32 (wordBits ws)
  [word (c / 65536), word (c % 65536)]

/-- A usable copy of the boot record: its SEQ and word 3. -/
def bootCopy (s : State) (k : Nat) : Option (Nat × Word) :=
  let ws := mramGetAll s (128 * k) 126
  if crcWords ws = mramGetAll s (128 * k + 126) 2 ∧ fld (ws.getD 3 0) 19 18 ≠ 3 then
    some (fld (ws.getD 1 0) 11 0 * 2 ^ 20 + (ws.getD 2 0).toNat, ws.getD 3 0)
  else none

/-- The newest usable copy and its number (R508). -/
def bootRecord (s : State) : Option (Nat × Nat × Word) :=
  match bootCopy s 0, bootCopy s 1 with
  | none, none => none
  | some x, none => some (0, x)
  | none, some y => some (1, y)
  | some x, some y => if serialNewer 32 y.1 x.1 then some (1, y) else some (0, x)

/-- BSTORE writes the older copy with SEQ + 1 from NV_MODE and NV_BOOT as last written (R471). -/
def storeBoot (s : State) : State :=
  let (k, seq) := match bootRecord s with
    | none => (0, 1)
    | some (k, q, _) => (1 - k, (q + 1) % 2 ^ 32)
  let w3 := word (fld (regGet s 0xF54002) 19 18 * 2 ^ 18 + fld (regGet s 0xF54003) 17 1 * 2)
  let ws := [word 0x1000, word (seq / 2 ^ 20), word seq, w3] ++ List.replicate 122 0
  pcSys 0x5D 128 (mramPutAll (128 * k) (ws ++ crcWords ws) s)

/-- BOOT step 2: NV_MODE and NV_BOOT from the boot record, or BREC_DEF. -/
def loadBoot (s : State) : State :=
  match bootRecord s with
  | none => putBit 0xF54001 15 true s
  | some (_, _, w) => putWord 0xF54003 (word (fld w 17 1 * 2)) (putWord 0xF54002 (word (fld w 19 18 * 2 ^ 18)) s)

/-! ### Commands of NV_CTRL -/

/-- The pins of an enabled demand input are claimed by XSENSE or by another input (R272). -/
def dinConflict (s : State) : Bool :=
  (List.range 8).any fun d =>
    let p := fldOf s (0xF34010 + d) 11 8
    bitOf s (0xF34010 + d) 19 && ((bitOf s 0xF3400A 13 && decide (p < 4)) ||
      (List.range 8).any fun e => e != d && bitOf s (0xF34010 + e) 19 && fldOf s (0xF34010 + e) 11 8 == p)

/-- The registers as the boundary will leave them that takes the part to JOIN: every waiting word in force, but a reserved mode (R474, R475). -/
def asWritten (s : State) : State :=
  { s with held := s.held.filter fun e => e.1 == 0xF54002 && fld (regGet s 0xF54002) 19 18 == 3 }

/-- A request to leave CONFIG: refused with CREF, or accepted for the next boundary, which fixes the mode and the schedule (R202, R203, R272, R475). -/
def runRequest (s : State) : State :=
  if s.sys.op ≠ .config ∨ s.sys.joinReq then s
  else
    let w := asWritten s
    let s1 := putBit 0xF28009 15 (schedBad w) s
    if schedBad w then putFld 0xF54001 11 4 1 s1
    else if dinConflict w then putFld 0xF54001 11 4 2 s1
    else putFld 0xF54001 11 4 0 { s1 with sys := { s1.sys with joinReq := true } }

/-- RUN = 1: CONFIG only (R482). -/
def nvRun (who : Requester) (s : State) : State := if s.sys.op = .config then runRequest s else dropWrite who 0xF54000 6 s

/-- BSTORE = 1: CONFIG only. -/
def nvBstore (who : Requester) (s : State) : State := if s.sys.op = .config then storeBoot s else dropWrite who 0xF54000 6 s

/-- SWRST = 1: in CONFIG, JOIN, SAFE, RECOVERY, or at L4 once STO is set; ignored during the flush of L5 (R469, R482). -/
def nvSwrst (who : Requester) (s : State) : State :=
  if s.ph.l5 then s
  else if s.sys.op = .config ∨ s.sys.op = .join ∨ s.sys.op = .safe ∨ s.sys.op = .recovery ∨ (effLevel s = 4 ∧ s.ph.l4Sto) then
    resetPart 5 .boot 1 false s
  else dropWrite who 0xF54000 6 s

/-- RECOV = 1: in SAFE with an authorisation standing (R477). -/
def nvRecov (who : Requester) (s : State) : State :=
  if s.sys.op = .safe ∧ bitOf s 0xF34045 19 ∧ !s.ph.l5 then { s with sys := { s.sys with op := .recovery } } else dropWrite who 0xF54000 6 s

/-- Boot hold begins: BHOLD and BHELD show 1, and the wait of step 4 ends. -/
def enterBootHold (s : State) : State :=
  putBit 0xF54001 19 true (putBit 0xF54000 17 true { s with sys := { s.sys with bootHold := true, bwait := false } })

/-- BHOLD = 1 during step 4 (R473). -/
def holdBoot (s : State) : State :=
  if s.sys.op = .boot ∧ s.sys.step = 4 ∧ !s.sys.bootHold then enterBootHold s else dropWrite .host 0xF54000 6 s

/-- BHOLD = 0: BOOT goes on at step 6, or repeats step 5 (R473). -/
def releaseBoot (s : State) : State :=
  if s.sys.bootHold then
    putBit 0xF54001 17 s.sys.hostPgm (putBit 0xF54001 19 false (putBit 0xF54000 17 false
      { s with sys := { s.sys with bootHold := false, step := if s.sys.hostPgm then 6 else 5 } }))
  else s

/-- A paired write of NV_PDATA in boot hold: one instruction, NV_PADDR + 1 (R473). -/
def pdataWrite (who : Requester) (hi lo : Word) (s : State) : State :=
  if s.sys.bootHold && who == .host then
    let a := regGet s 0xF54007
    let s1 := pgmSet (fld a 19 17) (fld a 16 0) (BitVec.ofNat 40 (hi.toNat * 2 ^ 20 + lo.toNat)) s
    putWord 0xF54007 (a + 1) { s1 with sys := { s1.sys with hostPgm := true } }
  else dropWrite who 0xF54009 6 s

/-- A write of NV_MDATA in boot hold, in the ranges that may be written (R473); NV_MADDR + 1 after the access. -/
def mdataWrite (who : Requester) (v : Word) (s : State) : State :=
  let a := fld (regGet s 0xF54005) 18 0
  if s.sys.bootHold && who == .host then
    let s1 := putFld 0xF54005 18 0 (a + 1) s
    if a < 0x100 ∨ (0x25000 ≤ a ∧ a < 0x40000) then pcSys 0x5D 1 (mramSet a v s1) else dropWrite who 0xF54006 6 s1
  else dropWrite who 0xF54006 6 s

/-- The word an MRAM read returns: salt and digest read 00000h but in TEST; the persistent block and the rescan signatures have no layout in the spec: free values (DESIGN CHOICE, log entry 46). -/
def mdataWord (s : State) : Word × State :=
  let a := fld (regGet s 0xF54005) 18 0
  if (0x100 ≤ a ∧ a < 0x200) ∨ (0x400 ≤ a ∧ a < 0x800) then
    let (n, s1) := freeNat s
    (word n, s1)
  else (mramGet s a, s)

/-- A read of NV_MDATA (R477, R482). -/
def mdataRead (s : State) : Word × State :=
  let (w, s1) := mdataWord s
  (w, pcSys 0x5E 1 (putFld 0xF54005 18 0 (fld (regGet s 0xF54005) 18 0 + 1) s1))

/-- The NV_ registers can be reached: from BOOT onward, no reset being held. -/
def nvReach (s : State) : Bool := s.sys.op != .powerUp && !s.sys.rstHeld

def execBootHold (s : State) : Host.Outcome State Fault Refusal := .next (if nvReach s then holdBoot (armLock .host s) else s)

def execBootHoldRelease (s : State) : Host.Outcome State Fault Refusal := .next (if nvReach s then releaseBoot (armLock .host s) else s)

def execNvPdataWrite (hi lo : Word) (s : State) : Host.Outcome State Fault Refusal :=
  .next (if nvReach s then pdataWrite .host hi lo (armLock .host s) else s)

def execNvMdataWrite (v : Word) (s : State) : Host.Outcome State Fault Refusal :=
  .next (if nvReach s then mdataWrite .host v (armLock .host s) else s)

/-- NV_MDATA_READ; a core's read returns its word through LD. -/
def execNvMdataRead (who : Requester) (s : State) : Host.Outcome State Fault Refusal :=
  .next (if nvReach s then
    let r := mdataRead s
    { r.2 with sys := { r.2.sys with rdata := if who = .host then [r.1] else r.2.sys.rdata } } else s)

def execRun (who : Requester) (s : State) : Host.Outcome State Fault Refusal := .next (if nvReach s then nvRun who (armLock who s) else s)

/-- AUTORUN_EXPIRY (R475). -/
def execAutorunExpiry (s : State) : Host.Outcome State Fault Refusal :=
  .next (if s.sys.op = .config ∧ bitOf s 0xF54003 17 ∧ !bitOf s 0xF54000 18 then runRequest s else s)

def execBstore (who : Requester) (s : State) : Host.Outcome State Fault Refusal :=
  .next (if nvReach s then nvBstore who (armLock who s) else s)

def execSwrst (who : Requester) (s : State) : Host.Outcome State Fault Refusal :=
  .next (if nvReach s then nvSwrst who (armLock who s) else s)

def execRecov (who : Requester) (s : State) : Host.Outcome State Fault Refusal :=
  .next (if nvReach s then nvRecov who (armLock who s) else s)

/-! ### The return record (R480) -/

/-- The return record's words; the spec gives its content, not its layout. -/
def returnWords (s : State) : List Word :=
  let p := s.sys.per
  let u32 (n : Nat) : List Word := [word (n / 2 ^ 20 % 4096), word n]
  let ws := u32 (p.retSeq + 1) ++ words64 Config.uid.toNat ++ u32 p.hours ++ u32 p.hoursRun ++ p.resets.flatMap u32 ++ p.kinds.flatMap u32 ++
    [word p.frSeq] ++ u32 p.logNext
  ws ++ crcWords ws

/-- Rewrites the older half of the return record. -/
def writeReturn (s : State) : State :=
  let ws := returnWords s
  let s1 := mramPutAll (0x200 + 0x100 * ((s.sys.per.retSeq + 1) % 2)) ws s
  pcSys 0x5D ws.length { s1 with sys := { s1.sys with per := { s1.sys.per with retSeq := (s1.sys.per.retSeq + 1) % 2 ^ 32 } } }

/-- OPERATING_HOUR (R253, R480): PR_XAGE advances in RUN-STANDBY, and XAGE_EXP is set at its limit. -/
def hourPassed (s : State) : State :=
  if s.sys.op = .powerUp ∨ s.sys.op = .test ∨ s.sys.rstHeld then s
  else
    let p := s.sys.per
    let x := if s.sys.op = .runStandby then min 0xFFFFF (p.xage + 1) else p.xage
    let run := if s.sys.op = .runActive then (p.hoursRun + 1) % 2 ^ 32 else p.hoursRun
    let s1 := putWord 0xF30006 (word x) { s with sys := { s.sys with per := { p with hours := (p.hours + 1) % 2 ^ 32, hoursRun := run, xage := x } } }
    let hit := decide (24 * max 1 (fldOf s1 0xF30000 19 8) ≤ x) && s.sys.op == .runStandby
    writeReturn (if hit && !bitOf s1 0xF30002 9 then raiseEvent 99 (putBit 0xF30002 9 true s1) else s1)

def execOperatingHour (s : State) : Host.Outcome State Fault Refusal := .next (hourPassed s)

/-! ### Test access port (R478) -/

/-- A loaded instruction: EXTEST, CLAMP and HIGHZ only in TEST, else BYPASS. -/
def tapTaken (s : State) : TapOp → TapIr
  | .bypass => .bypass
  | .idcode => .idcode
  | .sample => .sample
  | .extest => if s.sys.op = .test then .extest else .bypass
  | .clamp => if s.sys.op = .test then .clamp else .bypass
  | .highz => if s.sys.op = .test then .highz else .bypass
  | .makers => .bypass

/-- TAP_INSTRUCTION: no instruction changes the operating state; what a maker's private instruction does in TEST the spec does not say. -/
def execTapInstruction (i : TapOp) (s : State) : Host.Outcome State Fault Refusal :=
  if i = .makers ∧ s.sys.op = .test then .refused .makersPrivate
  else .next { s with sys := { s.sys with tap := tapTaken s i } }

/-- TAP_RESET resets the boundary-scan logic only (R468). -/
def execTapReset (s : State) : Host.Outcome State Fault Refusal := .next { s with sys := { s.sys with tap := .idcode } }

end Sys2Proof.Machine
end

