-- ==== Sys2Proof/Machine/RegPipe.lean ====
section
/-! DEFINITION. Reads and writes of peripheral registers: locks, dropped writes, field merge, staging, the slow domain, shadows, and what a write does in its block (17 R441-R457; 01 R13, R14; 08 R233, R234). -/

namespace Sys2Proof.Machine

/-! ### Merging a written word (R442) -/

def putField (f : Fld) (v w : Word) : Word := setFld w f.hi f.lo (fld v f.hi f.lo)

/-- A CONFIG-only field is taken in CONFIG only. -/
def fieldOpen (cfg : Bool) (f : Fld) : Bool := !f.cfg || cfg

/-- The I-marked part of a write: RW fields load, W1C and W0C bits clear. -/
def mergeI (cfg : Bool) (fs : List Fld) (v w : Word) : Word :=
  fs.foldl (fun w f =>
    if f.acc = .rw ∧ f.mark = .i then (if fieldOpen cfg f then putField f v w else w)
    else if f.acc = .w1c then setFld w f.hi f.lo (fld w f.hi f.lo &&& (2 ^ (f.hi + 1 - f.lo) - 1 - fld v f.hi f.lo))
    else if f.acc = .w0c then setFld w f.hi f.lo (fld w f.hi f.lo &&& fld v f.hi f.lo)
    else w) w

/-- The B-marked part of a write: RW fields load; a command field that is not 0 is set. -/
def mergeB (cfg : Bool) (fs : List Fld) (v w : Word) : Word :=
  fs.foldl (fun w f =>
    if f.mark = .b ∧ f.acc = .rw then (if fieldOpen cfg f then putField f v w else w)
    else if f.mark = .b ∧ f.acc = .sc ∧ fld v f.hi f.lo ≠ 0 then putField f v w
    else w) w

/-- A CONFIG-only field would change outside CONFIG. -/
def configLate (cfg : Bool) (fs : List Fld) (v w : Word) : Bool := !cfg && fs.any fun f => f.cfg && fld v f.hi f.lo != fld w f.hi f.lo

/-- The record of such a write: LATE_CFG of the link and of the servo engine, else SC_WRITE_DROP with reason 02h (R159, R225, R442). -/
def lateRecord (who : Requester) (a : Nat) (s : State) : State :=
  if 0xF28000 ≤ a ∧ a < 0xF30000 then putBit 0xF28009 10 true s
  else if 0xF10000 ≤ a ∧ a < 0xF20000 then putBit 0xF100E0 12 true s
  else dropWrite who a 2 s

/-- A write by the rules that hold for every register. -/
def genericWrite (who : Requester) (a : Nat) (v : Word) (r : RegRow) (s : State) : State :=
  let cfg := s.sys.op == .config
  let s0 := whenB (configLate cfg r.fields v (regGet s a)) (lateRecord who a) s
  let s1 := hwMod a (mergeI cfg r.fields v) s0
  let new := mergeB cfg r.fields v (regGet s1 a)
  if new = regGet s1 a then s1 else noteCommand who a (stageReg a new s1)

/-- The fields of a mark, of a word: what the pair record carries of a register. -/
def onlyMark (m : Mark) (fs : List Fld) (v : Word) : Word := fs.foldl (fun w f => if f.mark = m then putField f v w else w) 0

/-- An I-marked write to a replicated register travels in BND (R234). -/
def mirrorOut (who : Requester) (a : Nat) (v : Word) (r : RegRow) (s : State) : State :=
  let w := onlyMark .i r.fields v
  let has := r.fields.any fun f => f.mark == .i && (f.acc == .rw || ((f.acc == .w1c || f.acc == .sc) && fld v f.hi f.lo != 0))
  if replicated a && paired s && s.pr.active && who != .mirror && has then setPr { s.pr with bndOut := s.pr.bndOut ++ [.write a w] } s else s

/-! ### What a write does in its block -/

/-- CN_CTRL: LOM is forced while the unit is not active (R411); INIT (R398, R407). -/
def writeCnCtrl (who : Requester) (c : Fin 2) (v : Word) (s : State) : State :=
  let s1 := if !isActive s && !bit v 18 then dropWrite who (cnBase c) 3 s else putBit (cnBase c) 18 (bit v 18) s
  if bit v 19 then (if bitOf s1 (cnBase c) 19 then s1 else cnInitSet c s1) else cnInitClear c s1

/-- The words of a message object (R400, R404). -/
def writeObject (who : Requester) (c : Fin 2) (a : Nat) (v : Word) (r : RegRow) (s : State) : State :=
  let o := (a - cnBase c - 0x800) / 40
  let i := (a - cnBase c - 0x800) % 40
  if i = 3 then
    let s1 := genericWrite who a v r s
    whenB (bit v 18) (cnCancel c o) (whenB (bit v 19) (cnTxrq who c o) s1)
  else if cnPend s c o then dropWrite who a 7 s
  else genericWrite who a v r s

/-- The registers of a CAN controller (R398, R407, R408, R410). -/
def writeCn (who : Requester) (c : Fin 2) (a : Nat) (v : Word) (r : RegRow) (s : State) : State :=
  let off := a - cnBase c
  if off = 0 then writeCnCtrl who c v s
  else if off = 1 ∨ (6 ≤ off ∧ off ≤ 9) ∨ off = 12 then
    if bitOf s (cnBase c) 19 then genericWrite who a v r s else dropWrite who a 7 s
  else if off = 0x20 then whenB (bit v 19) (cnPop c) s
  else if off = 0x22 then whenB (bit v 17) (cnRpop c) (whenB (bit v 18) (cnFlush c) (whenB (bit v 19) (cnPush c) s))
  else if 0x800 ≤ off then writeObject who c a v r s
  else genericWrite who a v r s

/-- The pins that Gatehouse claims as inputs (R456). -/
def claimedPins (s : State) : List Nat :=
  (if bitOf s 0xF3400A 13 then List.range 8 else []) ++
    (List.range 8).flatMap fun d => if bitOf s (0xF34010 + d) 19 then [2 * fldOf s (0xF34010 + d) 11 8, 2 * fldOf s (0xF34010 + d) 11 8 + 1] else []

/-- IO_DIR: a claimed pin stays an input (R456). -/
def writeDir (who : Requester) (i : Nat) (v : Word) (s : State) : State :=
  let bad := (List.range 16).filter fun b => bit v b && (claimedPins s).contains (16 * i + b)
  let w := bad.foldl (fun w b => setBit w b false) v
  let s1 := putFld (0xF5C000 + i) 15 0 (fld w 15 0) s
  if bad.isEmpty then s1 else dropWrite who (0xF5C000 + i) 3 s1

/-- NV_CTRL (R482, R483): SWRST and RECOV written together take SWRST only. -/
def writeNvCtrl (who : Requester) (v : Word) (s : State) : State :=
  let s1 := putBit 0xF54000 18 (bit v 18) s
  let s2 := if bit v 17 = bitOf s1 0xF54000 17 then s1
    else if who ≠ .host then dropWrite who 0xF54000 6 s1
    else if bit v 17 then holdBoot s1 else releaseBoot s1
  let s3 := whenB (bit v 16) (nvBstore who) (whenB (bit v 19) (nvRun who) s2)
  if bit v 15 then nvSwrst who s3 else whenB (bit v 14) (nvRecov who) s3

/-- NV_MODE is fixed once a request to leave CONFIG is accepted (R483). -/
def writeNv (who : Requester) (a : Nat) (v : Word) (r : RegRow) (s : State) : State :=
  if a = 0xF54000 then writeNvCtrl who v s
  else if a = 0xF54002 ∧ s.sys.joinReq then dropWrite who a 6 s
  else if a = 0xF54006 then mdataWrite who v s
  else if a = 0xF54008 then regSet a v s
  else if a = 0xF54009 then pdataWrite who (regGet s 0xF54008) v s
  else genericWrite who a v r s

/-- PG_ core blocks (R369, R375). -/
def writePg (who : Requester) (a : Nat) (v : Word) (r : RegRow) (s : State) : State :=
  let n : Fin 8 := Fin.ofNat 8 ((a - 0xF3C900) / 16)
  if a < 0xF3C900 then genericWrite who a v r s
  else if a % 16 = 1 then writePost who n (fld v 8 0) s
  else if a % 16 = 5 then writeDpost who n (fld v 8 0) s
  else if a % 16 = 7 then writeDcancel who n v s
  else genericWrite who a v r s

/-- BV_Gg_CTRL (R169, R178, R181). -/
def writeBvCtrl (who : Requester) (g : Fin 4) (v : Word) (r : RegRow) (s : State) : State :=
  let a := bvBase g + 9
  let v1 := if bit v 19 && !bvMayArm s then setBit v 19 false else v
  let s1 := genericWrite who a v1 r (if bit v 19 && !bvMayArm s then dropWrite who a 6 s else s)
  whenB (bit v 17) (bvStop g) (whenB (bit v 18) (bvForce g) s1)

/-- The counters: a HI word is staged, a LO word loads the counter; SNAP; an EN or SEN set in the cycle in which L1 takes effect is dropped (R390, R394, R395). -/
def writePc (who : Requester) (a : Nat) (v : Word) (r : RegRow) (s : State) : State :=
  match pcOfAddr a with
  | some (k, true) => pcLoad k v s
  | some (k, false) => { s with pc := { s.pc with hi := mapPut 0 s.pc.hi k v } }
  | none =>
    if a = 0xF4C300 then genericWrite who a v r (whenB (bit v 18) pcSnap s)
    else if bit v 19 && !bitOf s a 19 && s.ph.tShed == some s.now then genericWrite who a (setBit v 19 false) r (dropWrite who a 6 s)
    else genericWrite who a v r s

/-- PH_CTRL.FLEV is accepted in RUN-ACTIVE only (R298, R308). -/
def writePhCtrl (who : Requester) (v : Word) (r : RegRow) (s : State) : State :=
  if s.sys.op = .runActive then genericWrite who 0xF38022 v r s else dropWrite who 0xF38022 6 s

/-- A GPIO pin drives its output: from BOOT onward, set as an output and not claimed (R456). -/
def gpioDriven (s : State) (pin : Nat) : Bool := nvReach s && bitOf s (0xF5C000 + pin / 16) (pin % 16) && !(claimedPins s).contains pin

/-- The level of a GPIO pin: as driven by the part, or as put on it from outside. -/
def gpioLevel (s : State) (pin : Nat) : Bool := if gpioDriven s pin then bitOf s (0xF5C002 + pin / 16) (pin % 16) else s.sys.gpio.getLsbD pin

/-- The event source of a pin (R376). -/
def gpioEvent (pin : Nat) : Nat := if pin < 8 then 88 + pin else 95 + pin

/-- A pin has changed to a level: a selected edge raises its source, and a Belvedere trigger sees it (R168, R456). -/
def gpioSeen (pin : Nat) (level : Bool) (s : State) : State :=
  let sel := fldOf s (0xF5C008 + pin / 8) (2 * (pin % 8) + 1) (2 * (pin % 8))
  let hit := (if level then sel % 2 == 1 else sel / 2 == 1) && afterBoot s
  whenB hit (raiseEvent (gpioEvent pin)) (bvPin (0x20 + pin) level s)

/-- What follows where the levels of pins have changed since a state: an output's own pin is read and watched as any other. -/
def gpioMoved (old s : State) : State :=
  upTo 32 (fun pin s => if gpioLevel old pin = gpioLevel s pin then s else gpioSeen pin (gpioLevel s pin) s) s

/-- What a write that its register takes does: the rules of its block, or the rules of every register; a change of KS_OVL_REQ in the cycle of entry into SAFE is dropped (R440). go sends the host mailbox (R431). -/
def blockWrite (go : State → State) (who : Requester) (a : Nat) (v : Word) (r : RegRow) (s : State) : State :=
  if 0xF01000 ≤ a ∧ a < 0xF01800 then writeW0 (a - 0xF01000) v s
  else if 0xF04000 ≤ a ∧ a < 0xF04200 ∧ a % 32 = 17 then fbCtrl (Fin.ofNat 16 ((a - 0xF04000) / 32)) v s
  else if 0xF0C000 ≤ a ∧ a < 0xF0F000 ∧ a % 64 = 63 then askTable ((a - 0xF0C000) / 64) (genericWrite who a v r s)
  else if 0xF10000 ≤ a ∧ a < 0xF20000 ∧ 0x60 ≤ a % 256 ∧ a % 256 < 0x80 ∧ a % 8 = 4 then
    askBiquad ((a - 0xF10000) / 256 * 4 + (a % 256 - 0x60) / 8) (genericWrite who a v r s)
  else if 0xF10000 ≤ a ∧ a < 0xF20000 ∧ a % 256 = 1 then
    genericWrite who a v r { s with sd := { s.sd with psetPend := s.sd.psetPend.filter fun x => x.1 != (a - 0xF10000) / 256 } }
  else if canonAddr a = 0xF100F7 ∨ canonAddr a = 0xF100FF then
    whenB (bit v 18) (genAbort (if canonAddr a = 0xF100F7 then 0 else 1)) (genericWrite who a v r s)
  else if 0xF20100 ≤ a ∧ a < 0xF20140 ∧ a % 16 = 9 then writeBvCtrl who (Fin.ofNat 4 ((a - 0xF20100) / 16)) v r s
  else if a = 0xF20280 then
    let s1 := genericWrite who a v r s
    whenB (bit v 19) (archive who (Fin.ofNat 4 (fld v 18 17)) (fld v 16 11) (bit v 10)) s1
  else if a = 0xF28008 then whenB (bit v 19) retryLink s
  else if a = 0xF30001 then (if who = .kiosk then genericWrite who a v r s else dropWrite who a 5 s)
  else if a = 0xF34006 then ghCommand who v s
  else if 0xF34018 ≤ a ∧ a < 0xF3401B then wdConfig who (Fin.ofNat 3 (a - 0xF34018)) v s
  else if 0xF3401C ≤ a ∧ a < 0xF3401F then wdService (Fin.ofNat 3 (a - 0xF3401C)) v s
  else if a = 0xF38022 then writePhCtrl who v r s
  else if 0xF3C000 ≤ a ∧ a < 0xF40000 then writePg who a v r s
  else if 0xF44000 ≤ a ∧ a < 0xF46000 then writeCn who 0 a v r s
  else if 0xF46000 ≤ a ∧ a < 0xF48000 then writeCn who 1 a v r s
  else if a = 0xF48018 then
    if bit v 19 && !afterBoot s then dropWrite who a 6 s else whenB (bit v 19 && !s.ks.hpBusy) go (genericWrite who a v r s)
  else if a = 0xF48008 ∧ s.sys.tSafe = some s.now then dropWrite who a 6 s
  else if 0xF4C000 ≤ a ∧ a < 0xF50000 then writePc who a v r s
  else if 0xF50200 ≤ a ∧ a < 0xF50280 ∧ a % 16 = 0 then whenB (bit v 19) (haltCore (Fin.ofNat 8 ((a - 0xF50200) / 16))) s
  else if 0xF54000 ≤ a ∧ a < 0xF58000 then writeNv who a v r s
  else if a = 0xF5C000 ∨ a = 0xF5C001 then gpioMoved s (writeDir who (a - 0xF5C000) v s)
  else if a = 0xF5C002 ∨ a = 0xF5C003 then gpioMoved s (genericWrite who a v r s)
  else genericWrite who a v r s

/-- A write of its own unit to a replicated register in a standby (R233). -/
def standbyDrops (who : Requester) (a : Nat) (s : State) : Bool :=
  replicated a && isStandby s && (match who with
    | .core _ => true
    | .host => true
    | _ => false)

/-- ABORT of a generator is a write of its command bit: a standby drops it, and the active's travels in BND (R157, R233, R234). -/
def execAbort (who : Requester) (g : Fin 2) (s : State) : Host.Outcome State Fault Refusal :=
  let a := genAddr g + 7
  let s1 := armLock who s
  .next (if standbyDrops who a s1 then dropWrite who a 4 s1
    else genAbort g (match rowOf a with
      | some r => mirrorOut who a 0x40000 r s1
      | none => s1))

/-- A write performed at its register. -/
def performWrite (go : State → State) (who : Requester) (a : Nat) (v : Word) (s : State) : State :=
  match rowOf a with
  | none => s
  | some r =>
    if standbyDrops who a s then dropWrite who a 4 s
    else
      let s1 := blockWrite go who a v r (mirrorOut who a v r s)
      if r.fields.any fun f => f.acc == .rw && f.mark == .i then signBlock a s1 else s1

/-! ### Locks and the slow domain (R448, R451) -/

/-- The registers can be reached: from BOOT onward, no reset being held. -/
def regReach (s : State) : Bool := nvReach s

/-- A write whose requester's lock is unlocked or not: K and (S) registers, then the register itself, or its transfer into the slow domain. -/
def lockedWrite (go : State → State) (open_ : Bool) (who : Requester) (a : Nat) (v : Word) (s : State) : State :=
  match rowOf a with
  | none => s
  | some r =>
    if r.k && !open_ && who != .mirror then dropWrite who a 1 s
    else if r.sec && who != .kiosk then dropWrite who a 5 s
    else if isSlow a then { s with sys := { s.sys with slow := s.sys.slow ++ [(a, v, who)] } }
    else performWrite go who a v s

/-- SC_UNLOCK (R451). -/
def scUnlock (who : Requester) (v : Word) (s : State) : State :=
  let s1 := armLock who s
  if v = 0x5A0F3 then { s1 with sys := { s1.sys with unlocked := who :: s1.sys.unlocked } } else s1

/-- A write of one word by a requester; every write arms its lock again. -/
def regWriteWith (go : State → State) (who : Requester) (a : Nat) (v : Word) (s : State) : State :=
  if !regReach s then s
  else if a = 0xF50000 then scUnlock who v s
  else lockedWrite go (s.sys.unlocked.contains who) who a v (armLock who s)

/-- A marked pair: "paired, atomic". -/
def pairMarked (a : Nat) : Bool :=
  match rowOf a with
  | some r => r.pair && a % 2 == 0
  | none => false

/-- A paired write (R443): one write where the pair is marked, two where it is not. -/
def regWritePairWith (go : State → State) (who : Requester) (a : Nat) (hi lo : Word) (s : State) : State :=
  if !regReach s then s
  else if pairMarked a then
    let o := s.sys.unlocked.contains who
    lockedWrite go o who (a + 1) lo (lockedWrite go o who a hi (armLock who s))
  else regWriteWith go who (a + 1) lo (regWriteWith go who a hi s)

/-! ### What a read shows -/

def pairPart (a : Nat) (v : Int) : Word := if a % 2 = 0 then word (wrapN 40 v / 2 ^ 20) else word (wrapN 40 v)

/-- Belvedere: STATE of a group is live (06 R180). -/
def showBv (s : State) (a : Nat) (w : Word) : Word :=
  if 0xF20100 ≤ a ∧ a < 0xF20140 ∧ a % 16 = 9 then setFld w 16 14 (bvStNum s.bv.g[Fin.ofNat 4 ((a - 0xF20100) / 16)].st) else w

/-- Sundial (02). A read of VAL_FR after a paired read of VAL gives the live fraction (R34; DESIGN CHOICE, log entry 72). -/
def showSd (s : State) (a : Nat) (w : Word) : Word :=
  let t : Fin 16 := Fin.ofNat 16 ((a - 0xF00000) / 16)
  let off := a % 16
  if a < 0xF00100 then
    if off = 5 then tbStatWord s t
    else if off = 6 ∨ off = 7 then pairPart off (asr s.sd.tb[t].val 12)
    else if off = 8 then word (wrapN 12 s.sd.tb[t].val * 256)
    else w
  else if a = 0xF00106 then setBit w 18 (decide (64 ≤ s.sd.holdQ.length))
  else if a = 0xF00109 then word s.sd.holdQ.length
  else if 0xF01000 ≤ a ∧ a < 0xF01800 then w0Word s (a - 0xF01000)
  else w

/-- Feedback (03). -/
def showFb (s : State) (a : Nat) (w : Word) : Word :=
  let n : Fin 16 := Fin.ofNat 16 ((a - 0xF04000) / 32)
  let off := a % 32
  if a < 0xF04200 then
    if off = 8 ∨ off = 9 then pairPart off s.fb[n].rep
    else if off = 10 ∨ off = 11 then pairPart off s.fb[n].raw
    else if off = 14 then word (fbPer s n / 2 ^ 20)
    else if off = 15 then word (fbPer s n)
    else if off = 16 then fbStatWord s n
    else w
  else w

/-- Motion profiles (04). -/
def showMp (s : State) (a : Nat) (w : Word) : Word :=
  if (0xF08000 ≤ a ∧ a < 0xF0C000) ∨ (0xF0F000 ≤ a ∧ a < 0xF0F800) then
    let o := if a < 0xF0C000 then (a - 0xF08000) / 64 else 256 + (a - 0xF0F000) / 64
    let off := a % 64
    if off = 2 then mpStatWord s o
    else if off = 26 ∨ off = 27 then pairPart off (profOf s o).sp
    else if 256 ≤ o ∧ (off = 38 ∨ off = 39) then pairPart off (actPos s o)
    else if 256 ≤ o ∧ off = 40 then word (wrapN 20 (loopOf s o).fOut)
    else w
  else w

/-- Pergola and the event controller (13). -/
def showPg (s : State) (a : Nat) (w : Word) : Word :=
  if a < 0xF3C800 then
    if a % 4 = 3 then
      let d := (a - 0xF3C000) / 4
      let run := s.cores.toList.any fun c => c.nest.any fun t => t.desc == d
      setBit (setFld w 19 12 (min 255 (descPend s d))) 11 run
    else w
  else if a = 0xF3C800 then word ((decide (1024 ≤ s.pg.ready.length)).toNat * 2 ^ 19 + (decide (1024 ≤ delayLive s)).toNat * 2 ^ 18)
  else if a = 0xF3C801 then word (1024 - s.pg.ready.length)
  else if a = 0xF3C802 then word (1024 - delayLive s)
  else if 0xF3C808 ≤ a ∧ a < 0xF3C80C then
    word ((List.range 16).foldl (fun m b => if (keysHeld s).contains (16 * (a - 0xF3C808) + b) then m + 2 ^ b else m) 0)
  else if 0xF3C900 ≤ a ∧ a < 0xF3C980 then
    let c := s.cores[Fin.ofNat 8 ((a - 0xF3C900) / 16)]
    if a % 16 = 9 then ((c.nest.head?).map (·.arg)).getD 0
    else if a % 16 = 10 then word (c.base.toNat * 2 ^ 19 + ((c.nest.head?).map (·.desc)).getD 0)
    else w
  else w

/-- EV_s_CFG: PENDING and CLASS (R378, R382). -/
def showEv (s : State) (a : Nat) (w : Word) : Word :=
  if a < 0xF40080 then setFld (setBit w 18 (lookupNat s.pg.evPend (a - 0xF40000)).isSome) 16 15 (evClass (a - 0xF40000)) else w

/-- SC_Cn_STAT (R335). -/
def coreStat (c : Core) : Word :=
  word (c.run.toNat * 2 ^ 19 + c.halted.toNat * 2 ^ 18 + c.base.toNat * 2 ^ 17 + c.waiting.toNat * 2 ^ 16 + (bit c.r.st 0).toNat * 2 ^ 15 +
    c.dflt.toNat * 2 ^ 14 + stPri c.r.st * 2 ^ 11 + fld c.r.st 4 3 * 2 ^ 9)

/-- System control (17). -/
def showSc (s : State) (who : Requester) (a : Nat) (w : Word) : Word :=
  if a = 0xF50000 then word ((!s.sys.unlocked.contains who).toNat * 2 ^ 19)
  else if a = 0xF50005 then word (fld (regGet s 0xF54002) 19 18 * 2 ^ 18 + s.sys.op.num * 2 ^ 14)
  else if 0xF50200 ≤ a ∧ a < 0xF50280 ∧ a % 16 = 1 then coreStat s.cores[Fin.ofNat 8 ((a - 0xF50200) / 16)]
  else w

/-- GH_STAT, GH_GRP, GH_DEG_LEFT and the lockout left in GH_PW_STAT (R287). -/
def showGh (s : State) (a : Nat) (w : Word) : Word :=
  if a = 0xF34003 then setBit (setBit w 19 (s.sys.op == .degraded)) 18 (s.sys.op == .safe)
  else if a = 0xF34004 then word (degLeft s)
  else if a = 0xF34045 then setFld w 11 0 (if s.gh.pw.locked then (s.gh.pw.lockEnd - s.now + 599999999) / 600000000 else 0)
  else if a = 0xF34005 then
    let mask (c : GrpCond) : Nat := (List.finRange 4).foldl (fun m g => if s.gh.grp[g].cond = c then m + 2 ^ g.val else m) 0
    let brk := (List.range 8).foldl (fun m n => if grpReleases s (brkGroup s n) && s.sys.op != .safe then m else m + 2 ^ n) 0
    word (mask .sto * 2 ^ 16 + mask .ss1 * 2 ^ 12 + brk)
  else w

/-- Kiosk (16). -/
def showKs (s : State) (a : Nat) (w : Word) : Word :=
  if a = 0xF48007 then setBit (setBit w 19 (decide (16 ≤ s.ks.fwq.length))) 17 (s.gh.log.any fun x => !x.own)
  else if a = 0xF48009 then word s.ks.sel
  else if a = 0xF4800A then word s.ks.phb
  else if a = 0xF48018 then setBit w 19 s.ks.hpBusy
  else w

/-- The counters and their snapshot (14). -/
def showPc (s : State) (a : Nat) (w : Word) : Word :=
  match pcOfAddr a with
  | some (k, lo) => if lo then word (pcGet s k) else word (pcGet s k / 2 ^ 20)
  | none =>
    if a = 0xF4C300 then setBit w 17 (decide (1 ≤ effLevel s))
    else if 0xF4C400 ≤ a then
      match pcOfAddr (a - 0x400) with
      | some (k, lo) => if lo then word (mapGet 0 s.pc.snap k) else word (mapGet 0 s.pc.snap k / 2 ^ 20)
      | none => if a = 0xF4C640 then mapGet 0 s.pc.snapOvf 8 else if a % 64 = 9 then mapGet 0 s.pc.snapOvf ((a - 0xF4C400) / 64) else w
    else w

/-- Link: LK_STAT, LK_SEQ, LK_EPOCH, LK_TIME (07). -/
def showLk (s : State) (a : Nat) (w : Word) : Word :=
  if a = 0xF28009 then lkStatWord s
  else if a = 0xF2800A then word (s.lk.q % 2 ^ 32 / 2 ^ 20)
  else if a = 0xF2800B then word s.lk.q
  else if a = 0xF2800C then word (s.lk.epoch % 2 ^ 16)
  else if 0xF28020 ≤ a ∧ a < 0xF28024 then (words64 (sysTime s)).getD (a - 0xF28020) 0
  else w

/-- NV_STAT.BUSY: an MRAM write is in progress. -/
def nvBusy (s : State) : Bool := !s.sys.frBuf.isEmpty || !s.gh.log.isEmpty || !s.ks.jobs.isEmpty || s.bv.arch.isSome || !s.mo.stores.isEmpty

/-- W and self-clearing bits marked I read as 0 (R442). -/
def readMask (r : RegRow) (w : Word) : Word :=
  r.fields.foldl (fun w f => if f.acc = .wo ∨ (f.acc = .sc ∧ f.mark = .i) then setFld w f.hi f.lo 0 else w) w

/-- What a register shows at this cy, before the shadow. -/
def liveWord (s : State) (who : Requester) (a : Nat) : Word :=
  match rowOf a with
  | none => 0
  | some r =>
    let w := readMask r (regGet s a)
    if a < 0xF04000 then showSd s a w
    else if a < 0xF08000 then showFb s a w
    else if a < 0xF10000 then showMp s a w
    else if a < 0xF20000 then (if 0x80 ≤ a % 256 ∧ a % 256 < 0x8F then svReadout s ((a - 0xF10000) / 256) (a % 256) else w)
    else if a < 0xF28000 then showBv s a w
    else if a < 0xF30000 then showLk s a w
    else if a < 0xF34000 then w
    else if a < 0xF38000 then showGh s a w
    else if a < 0xF3C000 then (if a = 0xF38020 then phLevelWord s else w)
    else if a < 0xF40000 then showPg s a w
    else if a < 0xF44000 then showEv s a w
    else if a < 0xF46000 then cnShow s 0 (a - 0xF44000) w
    else if a < 0xF48000 then cnShow s 1 (a - 0xF46000) w
    else if a < 0xF4C000 then showKs s a w
    else if a < 0xF50000 then showPc s a w
    else if a < 0xF54000 then showSc s who a w
    else if a = 0xF54001 then setBit w 13 (nvBusy s)
    else if a = 0xF5C004 ∨ a = 0xF5C005 then word (((List.range 16).filter fun b => gpioLevel s (16 * (a - 0xF5C004) + b)).map (2 ^ ·)).sum
    else w

/-! ### The slow domain (R448) -/

/-- The writes to slow registers are transferred, oldest first, at a slow-clock edge; until the next edge the copies show what they showed before (R448). -/
def slowTransferWith (go : State → State) (s : State) : State :=
  forEach s.sys.slow (fun x s => performWrite go x.2.2 x.1 x.2.1 s)
    { s with sys := { s.sys with slow := [], slowSeen := s.sys.slow.map fun x => (x.1, liveWord s x.2.2 x.1), slowAt := s.now } }

/-- What a read returns: of a slow-domain register its copy, which shows a written value from the edge after its transfer, 96 cy later; what hardware changes there it shows at once (R448; DESIGN CHOICE, log entry 72). -/
def seenWord (s : State) (who : Requester) (a : Nat) : Word :=
  if isSlow a && decide (s.now < s.sys.slowAt + 96) then (lookupNat s.sys.slowSeen a).getD (liveWord s who a) else liveWord s who a

/-! ### Shadows (R446) -/

/-- The upper words of the multi-word value whose low word lies at an address. -/
def upperWords (a : Nat) : List Nat :=
  if a = 0xF28023 then [0xF28020, 0xF28021, 0xF28022]
  else if 0xF20180 ≤ a ∧ a < 0xF20200 ∧ 9 ≤ a % 32 ∧ a % 32 ≤ 25 ∧ (a % 32 - 9) % 4 = 0 then [a - 3, a - 2, a - 1]
  else if 0xF44000 ≤ a ∧ a < 0xF48000 then
    let off := (a - 0xF44000) % 0x2000
    if off = 0x107 ∨ off = 0x187 ∨ (0x800 ≤ off ∧ (off - 0x800) % 40 = 7) then [a - 3, a - 2, a - 1] else []
  else if pairMarked (a - 1) then [a - 1]
  else []

def shadowsNow (s : State) : Bool := s.sys.op == .boot || s.sys.op == .test || s.sys.op == .recovery

/-- The shadow of a requester for an address. -/
def shadowOf (s : State) (who : Requester) (a : Nat) : Option Word :=
  (s.sys.shadow.find? fun e => e.1 == who && e.2.1 == a).map (·.2.2)

/-- A read of one word (R442, R446). -/
def regRead (who : Requester) (a : Nat) (s : State) : Word × State :=
  if !regReach s then (0, s)
  else if a = 0xF54006 then mdataRead s
  else if !shadowsNow s then (seenWord s who a, s)
  else
    match shadowOf s who a with
    | some w => (w, s)
    | none =>
      let ups := upperWords a
      if ups.isEmpty then (seenWord s who a, s)
      else
        let sh := (s.sys.shadow.filter fun e => e.1 != who) ++ ups.map fun u => (who, u, seenWord s who u)
        (seenWord s who a, { s with sys := { s.sys with shadow := sh } })

/-- A paired read (R443): at once where the pair is marked, without the shadow. -/
def regReadPair (who : Requester) (a : Nat) (s : State) : (Word × Word) × State :=
  if regReach s && pairMarked a then ((seenWord s who a, seenWord s who (a + 1)), s)
  else
    let (hi, s1) := regRead who a s
    let (lo, s2) := regRead who (a + 1) s1
    ((hi, lo), s2)

end Sys2Proof.Machine
end

