-- ==== Sys2Proof/Machine/Sha256.lean ====
section
/-! DEFINITION. SHA-256 of FIPS 180-4, by which the password is digested (09 R280). -/

namespace Sys2Proof.Machine

abbrev W32 := BitVec 32

/-- The 64 round constants. -/
def shaK : List W32 :=
  [0x428A2F98, 0x71374491, 0xB5C0FBCF, 0xE9B5DBA5, 0x3956C25B, 0x59F111F1, 0x923F82A4, 0xAB1C5ED5,
   0xD807AA98, 0x12835B01, 0x243185BE, 0x550C7DC3, 0x72BE5D74, 0x80DEB1FE, 0x9BDC06A7, 0xC19BF174] ++
  [0xE49B69C1, 0xEFBE4786, 0x0FC19DC6, 0x240CA1CC, 0x2DE92C6F, 0x4A7484AA, 0x5CB0A9DC, 0x76F988DA,
   0x983E5152, 0xA831C66D, 0xB00327C8, 0xBF597FC7, 0xC6E00BF3, 0xD5A79147, 0x06CA6351, 0x14292967] ++
  [0x27B70A85, 0x2E1B2138, 0x4D2C6DFC, 0x53380D13, 0x650A7354, 0x766A0ABB, 0x81C2C92E, 0x92722C85,
   0xA2BFE8A1, 0xA81A664B, 0xC24B8B70, 0xC76C51A3, 0xD192E819, 0xD6990624, 0xF40E3585, 0x106AA070] ++
  [0x19A4C116, 0x1E376C08, 0x2748774C, 0x34B0BCB5, 0x391C0CB3, 0x4ED8AA4A, 0x5B9CCA4F, 0x682E6FF3,
   0x748F82EE, 0x78A5636F, 0x84C87814, 0x8CC70208, 0x90BEFFFA, 0xA4506CEB, 0xBEF9A3F7, 0xC67178F2]

/-- The initial hash value. -/
def shaH0 : List W32 := [0x6A09E667, 0xBB67AE85, 0x3C6EF372, 0xA54FF53A, 0x510E527F, 0x9B05688C, 0x1F83D9AB, 0x5BE0CD19]

def ror32 (x : W32) (n : Nat) : W32 := x.rotateRight n

/-- The padded message of a byte string. -/
def shaPad (bytes : List (BitVec 8)) : List (BitVec 8) :=
  let n := bytes.length
  bytes ++ [0x80] ++ List.replicate ((119 - n % 64) % 64) 0 ++ (List.range 8).map fun i => BitVec.ofNat 8 (8 * n / 2 ^ (8 * (7 - i)))

/-- Big-endian 32-bit words of a byte string. -/
def shaWords : List (BitVec 8) → List W32
  | a :: b :: c :: d :: r => BitVec.ofNat 32 (a.toNat * 2 ^ 24 + b.toNat * 2 ^ 16 + c.toNat * 2 ^ 8 + d.toNat) :: shaWords r
  | _ => []

/-- The message schedule: n further words after those given. -/
def shaSchedule : Nat → List W32 → List W32
  | 0, w => w
  | n + 1, w =>
    let g (k : Nat) : W32 := w.getD (w.length - k) 0
    let s0 := ror32 (g 15) 7 ^^^ ror32 (g 15) 18 ^^^ (g 15 >>> 3)
    let s1 := ror32 (g 2) 17 ^^^ ror32 (g 2) 19 ^^^ (g 2 >>> 10)
    shaSchedule n (w ++ [g 16 + s0 + g 7 + s1])

/-- One round over the eight working variables. -/
def shaRound (v : List W32) (kw : W32) : List W32 :=
  match v with
  | [a, b, c, d, e, f, g, h] =>
    let t1 := h + (ror32 e 6 ^^^ ror32 e 11 ^^^ ror32 e 25) + ((e &&& f) ^^^ (~~~e &&& g)) + kw
    let t2 := (ror32 a 2 ^^^ ror32 a 13 ^^^ ror32 a 22) + ((a &&& b) ^^^ (a &&& c) ^^^ (b &&& c))
    [t1 + t2, a, b, c, d + t1, e, f, g]
  | _ => v

/-- One block of 16 words. -/
def shaBlock (h w : List W32) : List W32 :=
  let v := ((shaSchedule 48 w).zip shaK).foldl (fun v x => shaRound v (x.1 + x.2)) h
  (h.zip v).map fun x => x.1 + x.2

/-- Blocks of 16 words each, n of them. -/
def shaBlocks : Nat → List W32 → List W32 → List W32
  | 0, _, h => h
  | n + 1, w, h => shaBlocks n (w.drop 16) (shaBlock h (w.take 16))

/-- SHA-256 of a byte string, as a number. -/
def sha256 (bytes : List (BitVec 8)) : Nat :=
  let w := shaWords (shaPad bytes)
  (shaBlocks (w.length / 16) w shaH0).foldl (fun n x => n * 2 ^ 32 + x.toNat) 0

end Sys2Proof.Machine
end

