-- ==== Sys2Proof/Machine/Dict.lean ====
section
/-! DEFINITION. The object dictionary: types, rights, attributes and sources of every entry, and the value each reads as (16 R420-R428, R509). -/

namespace Sys2Proof.Machine

/-! ### Types (R421) -/

inductive KType where
  | bool | int (n : Nat) | uns (n : Nat) | int20 | uint20 | int40 | str | domain
  deriving DecidableEq, Repr

/-- The bytes of a type; none where the length is the entry's. -/
def KType.size : KType → Option Nat
  | .bool => some 1
  | .int n => some n
  | .uns n => some n
  | .int20 => some 3
  | .uint20 => some 3
  | .int40 => some 5
  | .str => none
  | .domain => none

def KType.signed : KType → Bool
  | .int _ => true
  | .int20 => true
  | .int40 => true
  | _ => false

/-- The bits of a type's values. -/
def KType.width : KType → Nat
  | .bool => 1
  | .int20 => 20
  | .uint20 => 20
  | t => 8 * (t.size).getD 0

/-- A number as n bytes, least significant first. -/
def leBytes (n : Nat) (v : Int) : List Byte := (List.range n).map fun i => BitVec.ofInt 8 (v / 2 ^ (8 * i))

/-- The number of a byte string, least significant first. -/
def leNat : List Byte → Nat
  | [] => 0
  | b :: r => b.toNat + 256 * leNat r

/-- A value truncated to a type, then sign- or zero-extended by it. -/
def KType.trunc (t : KType) (v : Int) : Int := if t.signed then sext t.width (wrapN t.width v) else (wrapN t.width v : Nat)

/-- A value in the form of its type. -/
def KType.bytes (t : KType) (v : Int) : List Byte := leBytes (t.size.getD 0) (t.trunc v)

/-- The value of a byte string of a type's length; none where it breaks the type's rule (R421). -/
def KType.value (t : KType) (b : List Byte) : Option Int :=
  let n := leNat b
  let v : Int := if t.signed then sext (8 * b.length) n else (n : Nat)
  if t.size.isNone ∨ t.trunc v = v then some v else none

/-! ### Entries -/

/-- The access rights of R422. -/
inductive KRight where
  | const | ro | wo | rw | rwK | rwS
  deriving DecidableEq, Repr

/-- What an entry stands for: a register word, a marked pair, a field, a value that Kiosk holds, a value formed at the read, a constant, an entry that firmware defines. -/
inductive KBack where
  | reg (a : Nat)
  | pair (a : Nat)
  | field (a hi lo : Nat)
  | stored
  | calc
  | fixed (v : Int)
  | firmware
  deriving DecidableEq, Repr

structure KEntry where
  ty : KType
  right : KRight
  /-- attributes P, O and M -/
  p : Bool
  o : Bool
  m : Bool
  back : KBack
  deriving DecidableEq, Repr

def kent (ty : KType) (right : KRight) (back : KBack) : KEntry := ⟨ty, right, false, false, false, back⟩
def KEntry.setP (e : KEntry) : KEntry := { e with p := true }
def KEntry.setO (e : KEntry) : KEntry := { e with o := true }
def KEntry.setM (e : KEntry) : KEntry := { e with m := true }

/-- An entry as one number. -/
def ekey (i sub : Nat) : Nat := 256 * i + sub

/-! ### Entries from registers (R423, R425, R509) -/

/-- The low word of a marked pair. -/
def pairLow (a : Nat) : Bool :=
  match rowOf a with
  | some r => r.pair && a % 2 == 1
  | none => false

/-- The registers of n addresses, in address order, a marked pair as one. -/
def regsAt (a n : Nat) : List Nat := ((List.range n).map (a + ·)).filter fun x => (rowOf x).isSome && !pairLow x

def rowRight (r : RegRow) : KRight :=
  if r.fields.all fun f => f.acc == .ro then .ro
  else if r.sec then .rwS
  else if r.k then .rwK
  else if r.fields.all fun f => f.acc == .sc || f.acc == .wo then .wo
  else .rw

/-- Configuration registers whose fields do not carry mark B: staged words of event entries, blend tables and biquads, and CAN options and timing. -/
def stagedConfig (a : Nat) : Bool :=
  (decide (0xF01000 ≤ a) && decide (a < 0xF03800)) || (decide (0xF0C000 ≤ a) && decide (a < 0xF0F000)) ||
  (decide (0xF10000 ≤ a) && decide (a < 0xF20000) && decide (0x60 ≤ a % 256) && decide (a % 256 < 0x80)) ||
  (decide (0xF44000 ≤ a) && decide (a < 0xF48000) && [1, 4, 6, 7, 8, 9, 12].contains ((a - 0xF44000) % 0x2000))

/-- A register of the device area belongs to the base image: a writable one with a field that is marked B, or taken in CONFIG only, or written only under R282, and the staged configuration words; not a request of the moment (GH_BRK_REQ, PH_CTRL, injection settings). -/
def inBaseImage (a : Nat) (r : RegRow) : Bool :=
  (r.sec || stagedConfig a || r.fields.any fun f => f.acc == .rw && (f.mark == .b || f.cfg)) &&
  a != 0xF34007 && a != 0xF38022 && !(decide (0xF100F0 ≤ canonAddr a) && decide (canonAddr a < 0xF10100))

/-- The entry of a register. -/
def regEntry (a : Nat) : KEntry :=
  match rowOf a with
  | none => kent .uint20 .ro (.fixed 0)
  | some r =>
    let hiBits := r.fields.foldl (fun n f => max n (f.hi + 1)) 0
    let e := if r.pair then kent (if hiBits ≤ 12 then .uns 4 else .int40) (rowRight r) (.pair a) else kent .uint20 (rowRight r) (.reg a)
    { e with p := inBaseImage a r }

def ofRegs (l : List Nat) (sub : Nat) : Option KEntry := if sub = 0 then none else (l[sub - 1]?).map regEntry

/-- Entries of the motion registers, by offset in a profile's block (R426, R509). -/
def mpEntry (b off : Nat) : Option KEntry :=
  let pr (t : KType) (r : KRight) : KEntry := kent t r (.pair (b + off))
  let w (r : KRight) : KEntry := kent .uint20 r (.reg (b + off))
  match off with
  | 0 => some (w .rwS).setP
  | 1 => some (w .wo).setM
  | 2 => some (w .ro).setM
  | 3 => some (w .rw).setP
  | 4 => some (pr .int40 .rw).setM
  | 6 => some (pr (.int 4) .rw).setM
  | 8 | 10 | 12 | 14 | 16 | 18 | 20 => some (pr (.uns 4) .rw).setP.setO
  | 22 | 24 => some (pr (.uns 4) .rwS).setP.setO
  | 26 => some (pr .int40 .ro).setM
  | 28 => some (w .rw).setP
  | 30 | 32 => some (pr .int40 .rw).setP.setO
  | 34 => some (pr (.uns 4) .rw).setP.setO
  | _ => none

/-- The entry of a mover register (R509). -/
def moverEntry (a : Nat) : KEntry :=
  let off := (a - 0xF0F000) % 64
  match mpEntry (a - off) off with
  | some e => e
  | none =>
    match off with
    | 36 => (kent .uint20 .rwS (.reg a)).setP
    | 38 => kent .int40 .ro (.pair a)
    | 40 => kent .int20 .ro (.reg a)
    | 41 => (kent .uint20 .rw (.reg a)).setP
    | _ => (kent .int40 .rw (.pair a)).setP

def moverRegs (l : List Nat) (sub : Nat) : Option KEntry := if sub = 0 then none else (l[sub - 1]?).map moverEntry

/-- The per-axis entry e of axis a (R426). -/
def axisEntry (e a : Nat) : Option KEntry :=
  let mp := mpBase a
  let sv := svBase a
  let w (r : KRight) (x : Nat) : KEntry := kent .uint20 r (.reg x)
  match e with
  | 0x00 => some (w .rw sv).setP
  | 0x01 => mpEntry mp 0
  | 0x02 => some (kent (.uns 4) .rw (.pair (sv + 4))).setP
  | 0x03 => some (kent (.uns 4) .rw (.pair (sv + 6))).setP
  | 0x04 => some (w .rw (sv + 10)).setP
  | 0x05 => some (kent .int40 .rw (.pair (sv + 8))).setP
  | 0x06 => some (w .rw (sv + 11)).setP.setO
  | 0x07 => some (w .rw (sv + 12)).setP.setO
  | 0x08 => some (w .rw (sv + 13)).setP
  | 0x09 => some (w .rw (sv + 14)).setP
  | 0x0A => some (w .rw (sv + 1)).setO.setM
  | 0x0B => mpEntry mp 4
  | 0x0C => mpEntry mp 6
  | 0x0D => mpEntry mp 8
  | 0x0E => mpEntry mp 10
  | 0x0F => mpEntry mp 12
  | 0x10 => mpEntry mp 14
  | 0x11 => mpEntry mp 16
  | 0x12 => mpEntry mp 18
  | 0x13 => mpEntry mp 20
  | 0x14 => mpEntry mp 22
  | 0x15 => mpEntry mp 24
  | 0x16 => mpEntry mp 1
  | 0x17 => mpEntry mp 2
  | 0x18 => mpEntry mp 3
  | 0x19 => mpEntry mp 28
  | 0x1A => mpEntry mp 30
  | 0x1B => mpEntry mp 32
  | 0x1C => mpEntry mp 34
  | 0x1D => some (w .rwS (mp + 36)).setP
  | 0x1E => some (kent .int40 .rwS (.pair (mp + 38))).setP
  | 0x1F => some (w .rwS (mp + 40)).setP
  | 0x20 => mpEntry mp 26
  | 0x21 => some (kent .int40 .ro (.pair (sv + 0x80))).setM
  | 0x22 => some (w .ro (sv + 2)).setM
  | 0x23 => some (w .rw (sv + 3))
  | 0x24 => some (w .rw (sv + 0x90))
  | 0x25 => some (kent (.uns 1) .rwS (.field (0xF34020 + a / 8) (2 * (a % 8) + 1) (2 * (a % 8)))).setP
  | 0x26 => some (kent .int40 .ro .calc)
  | 0x27 => some (kent (.uns 1) .ro .calc)
  | _ => none

/-- The per-axis array e whose first axis is given; sub-index 00h reads the number of axes (R426). -/
def axisArray (s : State) (e first sub : Nat) : Option KEntry :=
  if sub = 0 then some (kent (.uns 2) .ro .calc)
  else if sub ≤ 128 ∧ first + sub - 1 < axisCount s then axisEntry e (first + sub - 1)
  else none

/-! ### The communication area (R424) -/

def uintP (n : Nat) : KEntry := (kent (.uns n) .rw .stored).setP

def commIndex (i : Nat) : Option (Nat → Option KEntry) :=
  let one (sub : Nat) (e : KEntry) : Option (Nat → Option KEntry) := some fun x => if x = sub then some e else none
  if i = 0x1000 then one 0 (kent (.uns 4) .const (.fixed 0))
  else if i = 0x1001 then one 0 (kent (.uns 1) .ro .calc)
  else if i = 0x1008 then one 0 (kent .str .const .calc)
  else if i = 0x1009 then one 0 (kent .str .const .calc)
  else if i = 0x100A then one 0 (kent .str .ro .calc)
  else if i = 0x1010 ∨ i = 0x1011 then one 1 (kent (.uns 4) .rw .calc)
  else if i = 0x1017 then one 0 (uintP 2)
  else if i = 0x1018 then some fun x => if x = 1 then some (kent (.uns 4) .const (.fixed 0xB7A)) else if x = 2 then some (kent (.uns 4) .const (.fixed 0x12800))
    else if x = 3 ∨ x = 4 then some (kent (.uns 4) .const .calc) else none
  else if i = 0x1200 ∨ i = 0x1201 then some fun x => if x = 1 ∨ x = 2 then some (kent (.uns 4) .ro .calc) else none
  else if 0x1400 ≤ i ∧ i < 0x1440 then some fun x => if x = 1 then some (uintP 4) else if x = 2 then some (uintP 1) else none
  else if 0x1800 ≤ i ∧ i < 0x1840 then some fun x => if x = 1 then some (uintP 4) else if x = 2 then some (uintP 1)
    else if x = 3 ∨ x = 5 then some (uintP 2) else none
  else if (0x1600 ≤ i ∧ i < 0x1640) ∨ (0x1A00 ≤ i ∧ i < 0x1A40) then some fun x => if x = 0 then some (uintP 1) else if x ≤ 8 then some (uintP 4) else none
  else none

/-! ### The device area (R425) -/

/-- The registers of a capture group, with its channels and measurement settings. -/
def bvGroupRegs (s : State) (g : Nat) : List Nat :=
  ((List.range 16).filter fun n => fld (regGet s (0xF20001 + 2 * n)) 14 13 == g).flatMap (fun n => [0xF20000 + 2 * n, 0xF20001 + 2 * n]) ++
  regsAt (0xF20100 + 16 * g) 16 ++ regsAt (0xF20180 + 32 * g) 32 ++ regsAt (0xF20200 + 32 * g) 32

def deviceIndex (s : State) (i : Nat) : Option (Nat → Option KEntry) :=
  let block (a n : Nat) : Option (Nat → Option KEntry) := some (ofRegs (regsAt a n))
  let pick (l : List (Nat × KEntry)) : Option (Nat → Option KEntry) := some fun sub => lookupNat l sub
  if i = 0x2000 then pick [(1, regEntry 0xF48000), (2, regEntry 0xF48001), (3, regEntry 0xF48002), (4, kent (.uns 1) .ro .calc), (5, kent (.uns 1) .ro .calc),
    (6, regEntry 0xF2800C)]
  else if i = 0x2001 then pick [(0, kent .uint20 .wo .calc)]
  else if i = 0x2002 then pick [(1, kent (.uns 4) .wo .calc), (2, kent (.uns 1) .wo .calc), (3, kent (.uns 4) .rwS (.fixed 0)), (4, regEntry 0xF34045)]
  else if i = 0x2003 then pick [(0, kent .uint20 .rwS (.fixed 0))]
  else if i = 0x2010 then some fun sub => if 1 ≤ sub ∧ sub ≤ 0x80 then some (uintP 1) else none
  else if i = 0x2011 then pick [(1, kent .domain .wo .calc), (2, kent .domain .ro .calc)]
  else if 0x2100 ≤ i ∧ i < 0x2110 then block (0xF04000 + 32 * (i - 0x2100)) 32
  else if 0x2110 ≤ i ∧ i < 0x2118 then block (0xF04200 + (i - 0x2110)) 1
  else if 0x2120 ≤ i ∧ i < 0x2130 then block (0xF00000 + 16 * (i - 0x2120)) 16
  else if i = 0x2130 then block 0xF00100 16
  else if 0x2140 ≤ i ∧ i < 0x21C0 then some fun sub =>
    if 1 ≤ sub ∧ sub ≤ 80 then some (regEntry (0xF01000 + 0x800 * ((sub - 1) % 5) + 16 * (i - 0x2140) + (sub - 1) / 5)) else none
  else if 0x2200 ≤ i ∧ i < 0x2228 then some (axisArray s (i - 0x2200) 0)
  else if 0x2300 ≤ i ∧ i < 0x2328 ∧ modeOf s = 1 then some (axisArray s (i - 0x2300) 128)
  else if 0x2400 ≤ i ∧ i < 0x2420 then some (moverRegs (regsAt (0xF0F000 + 64 * (i - 0x2400)) 64))
  else if 0x2440 ≤ i ∧ i < 0x2480 then block (0xF0F800 + 4 * (i - 0x2440)) 4
  else if i = 0x2480 then block 0xF0FA00 16
  else if 0x2500 ≤ i ∧ i < 0x25C0 then block (0xF0C000 + 64 * (i - 0x2500)) 64
  else if 0x2600 ≤ i ∧ i < 0x2700 then
    some (ofRegs (regsAt (svBase (i - 0x2600) + 0x20) 0x60 ++ regsAt (svBase (i - 0x2600) + 0xF0) 16))
  else if i = 0x2700 then block 0xF100E0 3
  else if 0x2800 ≤ i ∧ i < 0x2A00 then block (0xF3C000 + 4 * (i - 0x2800)) 4
  else if 0x2A00 ≤ i ∧ i < 0x2A80 then block (0xF40000 + (i - 0x2A00)) 1
  else if i = 0x2B00 then block 0xF28000 0x100
  else if 0x2B02 ≤ i ∧ i ≤ 0x2B79 then block (0xF28100 + 16 * (i - 0x2B00)) 16
  else if i = 0x2B80 then block 0xF30000 0x40
  else if 0x2C00 ≤ i ∧ i < 0x3000 then block (0xF48400 + 4 * (i - 0x2C00)) 4
  else if 0x3000 ≤ i ∧ i < 0x3040 then block (0xF34100 + 8 * (i - 0x3000)) 8
  else if i = 0x3040 then block 0xF34000 0x4D
  else if i = 0x3050 then pick [(1, regEntry 0xF34048), (2, kent (.uns 4) .rwS (.pair 0xF3404A)), (3, kent .uint20 .ro (.reg 0xF3404C)), (4, kent (.uns 4) .rw .stored),
    (5, kent .domain .ro .calc)]
  else if 0x3060 ≤ i ∧ i < 0x30A0 then pick [(1, kent .bool .ro .calc), (2, kent .domain .ro .calc)]
  else if i = 0x3100 then block 0xF38000 0x40
  else if i = 0x3200 ∨ i = 0x3201 then block (0xF44000 + 0x2000 * (i - 0x3200)) 0x20
  else if 0x3300 ≤ i ∧ i < 0x3304 then some (ofRegs (bvGroupRegs s (i - 0x3300)))
  else if 0x3400 ≤ i ∧ i < 0x3410 then pick [(1, kent .domain .rw .calc), (2, kent (.uns 4) .rwS .calc), (3, kent (.uns 4) .ro .calc), (4, kent .uint20 .ro .calc)]
  else if i = 0x3410 then pick [(1, kent (.uns 2) .rw (.field 0xF48008 15 0)), (2, kent (.uns 2) .ro .calc), (3, kent (.uns 2) .ro .calc)]
  else none

/-! ### Lookup -/

/-- A mirror entry of R427 that stands for a per-axis entry. -/
def mirrorOf (s : State) (i sub : Nat) : Nat × Nat :=
  if 0x6000 ≤ i ∧ i < 0xA000 ∧ sub = 0 ∧ (i - 0x6000) % 64 < 4 ∧ (i - 0x6000) / 64 < axisCount s then
    let a := (i - 0x6000) / 64
    let e := [0x22, 0x16, 0x0B, 0x21].getD ((i - 0x6000) % 64) 0
    if a < 128 then (0x2200 + e, a + 1) else (0x2300 + e, a - 127)
  else (i, sub)

/-- The mirrors that stand for readouts (R427). -/
def mirrorIndex (s : State) (i : Nat) : Option (Nat → Option KEntry) :=
  let a := (i - 0x6000) / 64
  let k := (i - 0x6000) % 64
  if i < 0xA000 ∧ a < axisCount s ∧ 4 ≤ k ∧ k < 8 then
    some fun sub => if sub = 0 then some (kent .int20 .ro (.reg (svBase a + [0x85, 0x8E, 0x8B, 0x83].getD (k - 4) 0x83))).setM else none
  else if i < 0xA000 ∧ a < axisCount s ∧ k < 4 then some fun _ => none
  else none

/-- The type of a code of R421. -/
def typeOfCode (n : Nat) : KType :=
  match n with
  | 0x01 => .bool
  | 0x02 => .int 1
  | 0x03 => .int 2
  | 0x04 => .int 4
  | 0x15 => .int 8
  | 0x05 => .uns 1
  | 0x06 => .uns 2
  | 0x07 => .uns 4
  | 0x1B => .uns 8
  | 0x40 => .int20
  | 0x42 => .int40
  | 0x09 => .str
  | 0x0A => .str
  | 0x0F => .domain
  | _ => .uint20

def rightOfCode (n : Nat) : KRight :=
  match n with
  | 0 => .const
  | 1 => .ro
  | 2 => .wo
  | 3 => .rw
  | 4 => .rwK
  | _ => .rwS

/-- An entry of the firmware's table (R428): type code of R421, right, attributes and register; type code 0 where the table names none. Only a register-backed entry may appear in an overlay. -/
def firmwareEntryAt (i sub : Nat) : Option KEntry :=
  let t := Config.firmwareType i sub
  let a := Config.firmwareReg i sub
  let n := Config.firmwareAttr i sub
  if t = 0 then none
  else some { ty := typeOfCode t, right := rightOfCode (Config.firmwareRight i sub), p := n.testBit 0, o := n.testBit 1 && decide (a ≠ 0), m := n.testBit 2,
              back := if a = 0 then .firmware else .reg a }

/-- What a request names: an entry, no index, or no sub-index. -/
inductive Lookup where
  | found (e : KEntry)
  | noIndex
  | noSub
  deriving DecidableEq, Repr

def kIndex (s : State) (i : Nat) : Option (Nat → Option KEntry) :=
  if i < 0x2000 then commIndex i
  else if i < 0x5000 then deviceIndex s i
  else if i < 0x6000 then (if (List.range 256).any fun x => (firmwareEntryAt i x).isSome then some (firmwareEntryAt i) else none)
  else mirrorIndex s i

def kLookup (s : State) (i sub : Nat) : Lookup :=
  match kIndex s i with
  | none => .noIndex
  | some f =>
    match f sub with
    | some e => .found e
    | none => .noSub

/-- The entries served by firmware on C0 (R433). -/
def byFirmware (i sub : Nat) : Bool :=
  (decide (0x1400 ≤ i) && decide (i < 0x1A40)) || i == 0x1010 || i == 0x1011 || i == 0x2011 || (decide (0x3400 ≤ i) && decide (i < 0x3410) && sub == 1) ||
  (decide (0x5000 ≤ i) && decide (i < 0x6000))

/-! ### Overlay contents (R434) -/

/-- The entry type of a record: what its value is truncated to. -/
def recType (s : State) (i sub : Nat) : KType :=
  match kLookup s i sub with
  | .found e => e.ty
  | _ => .int40

/-- The eight bytes of a record. -/
def recBytes (r : OvRec) : List Byte := leBytes 2 r.index ++ leBytes 1 r.sub ++ leBytes 5 r.value

/-- The records of a DOMAIN. -/
def recsOf (s : State) : List Byte → List OvRec
  | a :: b :: c :: d :: e :: f :: g :: h :: r =>
    let i := leNat [a, b]
    ⟨i, c.toNat, (recType s i c.toNat).trunc (sext 40 (leNat [d, e, f, g, h]))⟩ :: recsOf s r
  | _ => []

def crcBytes (b : List Byte) : Nat := crc32 (b.flatMap fun x => bitsOf 8 x.toNat)

/-- The contents CRC of an overlay. -/
def ovCrc (o : Overlay) : Nat := if o.recs.isEmpty then 0 else crcBytes (o.recs.flatMap recBytes)

/-- A record names an RW-S entry. -/
def needsApproval (s : State) (o : Overlay) : Bool :=
  o.recs.any fun r => match kLookup s r.index r.sub with
    | .found e => e.right == .rwS
    | _ => false

/-- Overlay i is selected: in the set in force. -/
def ovSelected (s : State) (i : Nat) : Bool := s.ks.sel / 2 ^ i % 2 == 1

/-- The highest-numbered overlay of a set that holds an entry, with its value (R436). -/
def ovHolds (s : State) (set i sub : Nat) : Option Int :=
  (List.range 16).foldl (fun best k =>
    if set / 2 ^ k % 2 = 1 then
      match (s.ks.ov[Fin.ofNat 16 k]).recs.find? fun r => r.index == i && r.sub == sub with
      | some r => some r.value
      | none => best
    else best) none

/-! ### Values -/

/-- The position of the newest valid slot of an object's ring (R109, R426). -/
def storedPosition (s : State) (o : Nat) : Int :=
  if !bitOf s (mpStat o) 13 then -(2 ^ 39)
  else
    match newestSlot s o with
    | some (_, k) => sext 40 ((mramGet s (ringBase o + 8 * k + 2)).toNat * 2 ^ 20 + (mramGet s (ringBase o + 8 * k + 3)).toNat)
    | none => -(2 ^ 39)

/-- The link address that carries an axis; 00h where none does. -/
def nodeOfAxis (s : State) (a : Nat) : Nat := (((List.range 120).map (· + 2)).find? fun n => nodeEn s n && (nodeAxes s n).contains a).getD 0

/-- The error register 1001h (R424). -/
def errorRegister (s : State) : Nat :=
  let can := (List.finRange 2).any fun c => s.can[c].st == .passive || s.can[c].st == .busOff || s.can[c].st == .recovering
  (s.sys.op == .degraded || s.sys.op == .safe).toNat + (decide (1 ≤ effLevel s) || decide (fldOf s 0xF38021 19 12 ≠ 0)).toNat * 4 + (s.pr.lost || can).toNat * 16 +
  ((List.finRange 4).any fun g => s.gh.grp[g].cond != .energised).toNat * 128

/-- The value of an entry formed at the read. -/
def calcValue (s : State) (i sub : Nat) : Int :=
  if i = 0x1001 then errorRegister s
  else if i = 0x1010 ∨ i = 0x1011 then 1
  else if i = 0x1018 then (if sub = 3 then Config.siliconRevision.toNat else (Config.uid.toNat % 2 ^ 32 : Nat))
  else if i = 0x1200 ∨ i = 0x1201 then ((if sub = 1 then 0x600 else 0x580) + fldOf s (0xF44000 + 0x2000 * (i - 0x1200) + 12) 17 11 : Nat)
  else if i = 0x2000 then (if sub = 4 then modeOf s else s.sys.op.num : Nat)
  else if (0x2200 ≤ i ∧ i < 0x2228) ∨ (0x2300 ≤ i ∧ i < 0x2328) then
    let a := sub - 1 + (if i < 0x2300 then 0 else 128)
    if sub = 0 then axisCount s else if i % 256 = 0x26 then storedPosition s a else nodeOfAxis s a
  else if 0x3060 ≤ i ∧ i < 0x30A0 then (slotValid s (i - 0x3060)).toNat
  else if 0x3400 ≤ i ∧ i < 0x3410 then
    let k : Fin 16 := Fin.ofNat 16 (i - 0x3400)
    let o := s.ks.ov[k]
    if sub = 2 then o.lastCrc else if sub = 3 then ovCrc o
    else o.approved.toNat * 2 ^ 19 + (ovSelected s k.val).toNat * 2 ^ 18 + (needsApproval s o).toNat * 2 ^ 17 + o.recs.length
  else if i = 0x3410 then (if sub = 2 then s.ks.sel else s.ks.phb : Nat)
  else 0

/-- Words as DOMAIN bytes: each as 3 bytes, in the form of R421. -/
def wordBytes (ws : List Word) : List Byte := ws.flatMap fun w => leBytes 3 w.toNat

def asciiBytes (l : List Nat) : List Byte := l.map fun n => BitVec.ofNat 8 n

/-- The bytes of a string or DOMAIN entry. -/
def calcBytes (s : State) (i : Nat) : List Byte :=
  if i = 0x1008 then asciiBytes [0x53, 0x56, 0x31, 0x32, 0x38, 0x2D, 0x41, 0x45]
  else if i = 0x1009 then asciiBytes [Config.hardwareVersion.toNat / 256, Config.hardwareVersion.toNat % 256]
  else if i = 0x100A then
    ((mramGetAll s 0x25005 16).flatMap fun w => asciiBytes [fld w 15 8, fld w 7 0]).takeWhile (· ≠ 0)
  else if i = 0x3050 then wordBytes (mramGetAll s (0x64000 + 12 * ((mapGet 0 s.ks.vals (ekey 0x3050 4)).toNat % 4096)) 12)
  else if 0x3060 ≤ i ∧ i < 0x30A0 then
    let b := slotBase (i - 0x3060)
    wordBytes (mramGetAll s b (96 + min 928 (mramGet s (b + 91)).toNat))
  else if 0x3400 ≤ i ∧ i < 0x3410 then (s.ks.ov[Fin.ofNat 16 (i - 0x3400)]).recs.flatMap recBytes
  else []

/-- The value of an entry's source, as its type extends it (R423). -/
def entryValue (s : State) (e : KEntry) (i sub : Nat) : Int :=
  match e.back with
  | .reg a => e.ty.trunc (liveWord s .kiosk a).toNat
  | .pair a => e.ty.trunc ((liveWord s .kiosk a).toNat * 2 ^ 20 + (liveWord s .kiosk (a + 1)).toNat)
  | .field a hi lo => fld (liveWord s .kiosk a) hi lo
  | .stored => mapGet 0 s.ks.vals (ekey i sub)
  | .calc => calcValue s i sub
  | .fixed v => v
  | .firmware => e.ty.trunc (Config.firmwareValue i sub s.freeCtr)

/-- The value of an entry while its registers are at reset. -/
def entryDefault (e : KEntry) (i sub : Nat) : Int :=
  match e.back with
  | .reg a => e.ty.trunc (resetWord a).toNat
  | .pair a => e.ty.trunc ((resetWord a).toNat * 2 ^ 20 + (resetWord (a + 1)).toNat)
  | .field a hi lo => fld (resetWord a) hi lo
  | .firmware => e.ty.trunc (Config.firmwareDefault i sub)
  | _ => 0

/-- The value of an entry as last written, without what hardware shows in its place. -/
def entryHeld (s : State) (e : KEntry) (i sub : Nat) : Int :=
  match e.back with
  | .reg a => e.ty.trunc (regGet s a).toNat
  | .pair a => e.ty.trunc ((regGet s a).toNat * 2 ^ 20 + (regGet s (a + 1)).toNat)
  | .field a hi lo => fld (regGet s a) hi lo
  | .stored => mapGet 0 s.ks.vals (ekey i sub)
  | .firmware => e.ty.trunc (Config.firmwareValue i sub s.freeCtr)
  | _ => 0

/-! ### Writing a source -/

/-- A word written by Kiosk, which unlocks its own lock for a K register (R423). -/
def kioskWrite (a : Nat) (w : Word) (s : State) : State :=
  regWriteWith (fun s => s) .kiosk a w { s with sys := { s.sys with unlocked := .kiosk :: s.sys.unlocked } }

/-- A pair written by Kiosk, at once (R423). -/
def kioskWritePair (a : Nat) (v : Int) (s : State) : State :=
  regWritePairWith (fun s => s) .kiosk a (word (wrapN 40 v / 2 ^ 20)) (word (wrapN 40 v)) { s with sys := { s.sys with unlocked := .kiosk :: s.sys.unlocked } }

/-- A value written to an entry's source (R423). PR_CTRL.XCHG is written through 2003h only (R250). -/
def writeEntry (e : KEntry) (i sub : Nat) (v : Int) (s : State) : State :=
  match e.back with
  | .reg a => if a = 0xF30001 then dropWrite .kiosk a 5 s else kioskWrite a (wordI v) s
  | .pair a => kioskWritePair a v s
  | .field a hi lo => kioskWrite a (setFld (regGet s a) hi lo v.toNat) s
  | .stored => { s with ks := { s.ks with vals := mapPut 0 s.ks.vals (ekey i sub) v } }
  | _ => s

/-- A CONFIG-only field of an entry would change outside CONFIG (R422). -/
def entryLate (s : State) (e : KEntry) (v : Int) : Bool :=
  let late (a : Nat) (w : Word) : Bool := match rowOf a with
    | some r => configLate (s.sys.op == .config) r.fields w (regGet s a)
    | none => false
  match e.back with
  | .reg a => late a (wordI v)
  | .pair a => late a (word (wrapN 40 v / 2 ^ 20)) || late (a + 1) (word (wrapN 40 v))
  | .field a hi lo => late a (setFld (regGet s a) hi lo v.toNat)
  | _ => false

/-- The register of an entry. -/
def entryReg (e : KEntry) : Option Nat :=
  match e.back with
  | .reg a => some a
  | .pair a => some a
  | .field a _ _ => some a
  | _ => none

/-- An entry of the replicated set (R232). -/
def entryReplicated (e : KEntry) : Bool := (entryReg e).any replicated

/-- A value set directly into an entry's registers, shown and in force: at BOOT from the base image, or by a change of the selected set, whatever the mark (R436, R471). Only writable fields take it. -/
def setDirect (e : KEntry) (i sub : Nat) (v : Int) (s : State) : State :=
  let put (a : Nat) (w : Word) (s : State) : State :=
    match rowOf a with
    | none => s
    | some r =>
      let new := r.fields.foldl (fun x f => if f.acc = .rw then putField f w x else x) (regGet s a)
      regSet a new { s with held := s.held.filter fun h => h.1 != canonAddr a }
  match e.back with
  | .reg a => put a (wordI v) s
  | .pair a => put (a + 1) (word (wrapN 40 v)) (put a (word (wrapN 40 v / 2 ^ 20)) s)
  | .field a hi lo => put a (setFld (regGet s a) hi lo v.toNat) s
  | .stored => { s with ks := { s.ks with vals := mapPut 0 s.ks.vals (ekey i sub) v } }
  | _ => s

end Sys2Proof.Machine
end

