-- ==== Sys2Proof/Machine/KStore.lean ====
section
/-! DEFINITION. What Kiosk and Gatehouse keep in MRAM for the dictionary: the base image and its copies, the configuration signature, the change log and its acknowledgement, the password (09 R280-R284; 16 R436-R438). -/

namespace Sys2Proof.Machine

def setKs (k : Kiosk) (s : State) : State := { s with ks := k }

/-! ### The base image (R436, R437) -/

/-- Every index an entry may lie at. -/
def allIndices : List Nat := List.range 0x6000

/-- The base value of an entry: as it runs, or as kept while a selected overlay holds it (R436). -/
def baseValue (s : State) (e : KEntry) (i sub : Nat) : Int := (lookupNat s.ks.base (ekey i sub)).getD (entryHeld s e i sub)

/-- The base values kept: those of entries with attribute P that differ from their defaults (R437). -/
def baseImage (s : State) : List (Nat × Int) :=
  allIndices.flatMap fun i =>
    match kIndex s i with
    | none => []
    | some f => (List.range 256).filterMap fun sub =>
      match f sub with
      | some e =>
        if e.p then
          let v := baseValue s e i sub
          if v != entryDefault e i sub then some (ekey i sub, v) else none
        else none
      | none => none

/-- An index and sub-index with a value, in four words. -/
def recWords (i sub : Nat) (v : Int) : List Word := [word i, word sub, word (wrapN 40 v / 2 ^ 20), word (wrapN 40 v)]

def u32Words (n : Nat) : List Word := [word (n / 65536 % 65536), word (n % 65536)]

/-- An overlay as stored: record count, status, contents CRC, approved CRC, records. -/
def ovWords (s : State) (o : Overlay) : List Word :=
  [word o.recs.length, word (o.approved.toNat * 2 ^ 19 + (needsApproval s o).toNat * 2 ^ 17)] ++ u32Words (ovCrc o) ++ u32Words o.lastCrc ++
    o.recs.flatMap fun r => recWords r.index r.sub r.value

/-- A configuration copy (R437); how the header's 10 words hold its four numbers the spec does not say. -/
def copyWords (s : State) (seq : Nat) (vals : List (Nat × Int)) (ovs : List Overlay) : List Word :=
  let r := (ovs.map fun o => o.recs.length).sum
  let head := [word 0x1000, word (seq / 2 ^ 20 % 4096), word seq, word vals.length, word r] ++ List.replicate 5 (0 : Word)
  let body := head ++ (vals.flatMap fun x => recWords (x.1 / 256) (x.1 % 256) x.2) ++ ovs.flatMap (ovWords s)
  body ++ u32Words (crc32 (wordBits body))

/-- Where copy k lies. -/
def copyBase (k : Nat) : Nat := 0x1000 + 0x12000 * k

/-- The number of words of copy k (R437, R471). -/
def copyLen (s : State) (k : Nat) : Nat := 108 + 4 * ((mramGet s (copyBase k + 3)).toNat + (mramGet s (copyBase k + 4)).toNat)

/-- The sequence number of copy k where its CRC checks. -/
def copySeqOf (s : State) (k : Nat) : Option Nat :=
  let b := copyBase k
  let n := copyLen s k
  if mramGet s b = 0x1000 ∧ n ≤ 49260 ∧ u32Words (crc32 (wordBits (mramGetAll s b (n - 2)))) = mramGetAll s (b + n - 2) 2 then
    some ((mramGet s (b + 1)).toNat % 4096 * 2 ^ 20 + (mramGet s (b + 2)).toNat)
  else none

/-- The newest copy whose CRC checks, with its sequence number (R437, R508). -/
def newestCopy (s : State) : Option (Nat × Nat) :=
  match copySeqOf s 0, copySeqOf s 1 with
  | none, none => none
  | some x, none => some (0, x)
  | none, some y => some (1, y)
  | some x, some y => if serialNewer 32 y x then some (1, y) else some (0, x)

/-- A record read from MRAM. -/
def recAt (s : State) (a : Nat) : Nat × Nat × Int :=
  ((mramGet s a).toNat, (mramGet s (a + 1)).toNat, sext 40 ((mramGet s (a + 2)).toNat * 2 ^ 20 + (mramGet s (a + 3)).toNat))

/-- The base values of copy k. -/
def copyVals (s : State) (k : Nat) : List (Nat × Int) :=
  (List.range (mramGet s (copyBase k + 3)).toNat).map fun j =>
    let r := recAt s (copyBase k + 10 + 4 * j)
    (ekey r.1 r.2.1, r.2.2)

def u32At (s : State) (a : Nat) : Nat := fld (mramGet s a) 15 0 * 65536 + fld (mramGet s (a + 1)) 15 0

/-- n overlays from an address on. -/
def ovsAt (s : State) : Nat → Nat → List Overlay
  | 0, _ => []
  | n + 1, a =>
    let c := (mramGet s a).toNat % 512
    let recs := (List.range c).map fun j => let r := recAt s (a + 6 + 4 * j); (⟨r.1, r.2.1, r.2.2⟩ : OvRec)
    ⟨recs, bit (mramGet s (a + 1)) 19, u32At s (a + 4)⟩ :: ovsAt s n (a + 6 + 4 * c)

/-- CFGSIG: over the copy in force and the 16 contents CRCs (R438). -/
def cfgSigOf (s : State) : Nat :=
  let ws := match s.ks.copy with
    | some k => mramGetAll s (copyBase k) (copyLen s k)
    | none => []
  crc32 (wordBits ws ++ s.ks.ov.toList.flatMap fun o => bitsOf 32 (ovCrc o))

def showCfgSig (s : State) : State := setKs { s.ks with cfgSig := cfgSigOf s } s

/-- A copy with these values and overlays becomes the copy in force (R437). -/
def writeCopy (vals : List (Nat × Int)) (ovs : List Overlay) (s : State) : State :=
  let k := match s.ks.copy with
    | some c => 1 - c
    | none => 0
  let seq := (s.ks.copySeq + 1) % 2 ^ 32
  let ws := copyWords s seq vals ovs
  let s1 := pcSys 0x5D ws.length (mramPutAll (copyBase k) ws s)
  showCfgSig (setKs { s1.ks with copy := some k, copySeq := seq } s1)

/-- The values of the copy in force. -/
def valsInForce (s : State) : List (Nat × Int) :=
  match s.ks.copy with
  | some k => copyVals s k
  | none => []

/-- The overlays of the copy in force. -/
def ovsInForce (s : State) : List Overlay :=
  match s.ks.copy with
  | some k => ovsAt s 16 (copyBase k + 10 + 4 * (mramGet s (copyBase k + 3)).toNat)
  | none => List.replicate 16 Overlay.reset

/-- The base value of one entry is stored: the rest of the copy is kept, its overlays too (R437). -/
def storeValue (key : Nat) (v : Int) (dflt : Int) (s : State) : State :=
  let rest := (valsInForce s).filter fun x => x.1 != key
  writeCopy (if v = dflt then rest else rest ++ [(key, v)]) (ovsInForce s) s

/-- The values in force may grow by an entry (R437). -/
def imageRoom (s : State) (key : Nat) : Bool := decide (((valsInForce s).filter fun x => x.1 != key).length < 8192)

/-- A mark on the base image keeps a value from being loaded: RW and RW-K entries with attribute P, but not the route table (R437). -/
def restoredAway (s : State) (e : KEntry) (i : Nat) : Bool :=
  s.sys.per.restoreMark && (e.right == .rw || e.right == .rwK) && !(decide (0x2C00 ≤ i) && decide (i < 0x3000))

/-- BOOT step 6: the newest copy is loaded into the registers (R437, R471). -/
def loadCopy (s : State) : State :=
  match newestCopy s with
  | none => showCfgSig (putBit 0xF54001 16 true s)
  | some (k, seq) =>
    let ovs := ovsAt s 16 (copyBase k + 10 + 4 * (mramGet s (copyBase k + 3)).toNat)
    let s1 := setKs { s.ks with copy := some k, copySeq := seq, ov := Vector.ofFn fun i => ovs.getD i.val Overlay.reset } s
    let s2 := forEach (copyVals s k) (fun x s =>
      match kLookup s (x.1 / 256) (x.1 % 256) with
      | .found e => if e.p && !restoredAway s e (x.1 / 256) then setDirect e (x.1 / 256) (x.1 % 256) x.2 s else s
      | _ => s) s1
    pcSys 0x5E (copyLen s k) (showCfgSig s2)

/-! ### The change log (R283, R284) -/

def logNext (s : State) : Nat := s.sys.per.logNext
def logAck (s : State) : Nat := (s.sys.per.logAckHi.toNat * 2 ^ 20 + s.sys.per.logAckLo.toNat) % 2 ^ 32

/-- UNACK (R284). -/
def logUnack (s : State) : Nat := (logNext s + 2 * 2 ^ 32 - logAck s - 1) % 2 ^ 32

/-- The log has room, counting the entries being written. -/
def logRoom (s : State) : Bool := decide (logUnack s + (s.gh.log.filter fun x => !x.own).length < 4096)

/-- GH_LOG_NEXT, GH_LOG_ACK and GH_LOG_STAT; EV29 at FULL and EV98 at NEAR (R284, R287). -/
def showLog (s : State) : State :=
  let u := logUnack s
  let full := decide (4096 ≤ u)
  let near := decide (3584 ≤ u)
  let s1 := putPair 0xF3404A (logAck s) (putPair 0xF34048 (logNext s) s)
  let s2 := whenB (near && !bitOf s 0xF3404C 18) (raiseEvent 98) (whenB (full && !bitOf s 0xF3404C 19) (raiseEvent 29) s1)
  putFld 0xF3404C 12 0 u (putBit 0xF3404C 18 near (putBit 0xF3404C 19 full s2))

/-- Words 0 to 9 of an entry. -/
def logHead (seq : Nat) (x : LogPend) : List Word :=
  [word (x.req.sub.toNat * 2 ^ 12 + seq / 2 ^ 20 % 4096), word seq, word (x.time / 2 ^ 24), word (x.time / 2 ^ 4),
   word (x.time % 16 * 2 ^ 16 + x.req.index.toNat), word (x.kind * 2 ^ 18 + x.req.from_.src.toNat), word (x.old / 2 ^ 20), word x.old,
   word (x.new / 2 ^ 20), word x.new]

/-- The CRC of an entry, started from that of the entry before it. -/
def logCrcOf (prev : Nat) (ws : List Word) (wide : Bool) : Nat := crcBits 32 0x04C11DB7 prev (wordBits ws ++ [wide]) ^^^ 0xFFFFFFFF

/-- The words of an entry. -/
def logWords (seq prev : Nat) (x : LogPend) : List Word :=
  let h := logHead seq x
  let c := logCrcOf prev h x.wide
  h ++ [word (x.wide.toNat * 2 ^ 19 + c / 65536), word (c % 65536)]

/-- An entry is written and verified: NEXT advances (R282, R283). -/
def logWrite (x : LogPend) (s : State) : State :=
  let n := logNext s
  let ws := logWords n s.gh.logCrc x
  let c := fld (ws.getD 10 0) 15 0 * 65536 + fld (ws.getD 11 0) 15 0
  let s1 := pcSys 0x5D 12 (mramPutAll (0x64000 + 12 * (n % 4096)) ws s)
  showLog { s1 with sys := { s1.sys with per := { s1.sys.per with logNext := (n + 1) % 2 ^ 32 } }, gh := { s1.gh with logCrc := c } }

/-- The log entry in place k of the ring where its CRC checks: its SEQ and CRC. -/
def logEntryAt (s : State) (k : Nat) : Option (Nat × Nat) :=
  let ws := mramGetAll s (0x64000 + 12 * k) 12
  let seq := fld (ws.getD 0 0) 11 0 * 2 ^ 20 + (ws.getD 1 0).toNat
  let c := fld (ws.getD 10 0) 15 0 * 65536 + fld (ws.getD 11 0) 15 0
  let b := 0x64000 + 12 * ((k + 4095) % 4096)
  let prev := if seq = 0 then 0xFFFFFFFF else fld (mramGet s (b + 10)) 15 0 * 65536 + fld (mramGet s (b + 11)) 15 0
  if seq % 4096 = k ∧ logCrcOf prev (ws.take 10) (bit (ws.getD 10 0) 19) = c then some (seq, c) else none

/-- BOOT step 7: NEXT from the newest entry whose CRC checks (R283, R508). -/
def restoreLog (s : State) : State :=
  let newest := (List.range 4096).foldl (fun best k =>
    match logEntryAt s k, best with
    | none, _ => best
    | some x, none => some x
    | some x, some y => if serialNewer 32 x.1 y.1 then some x else some y) none
  match newest with
  | none => showLog { s with sys := { s.sys with per := { s.sys.per with logNext := 0 } }, gh := { s.gh with logCrc := 0xFFFFFFFF } }
  | some (q, c) => showLog { s with sys := { s.sys with per := { s.sys.per with logNext := (q + 1) % 2 ^ 32 } }, gh := { s.gh with logCrc := c } }

/-- A new ACK that may be taken: newer than ACK and older than NEXT (R284). -/
def ackOk (s : State) (v : Nat) : Bool := serialNewer 32 v (logAck s) && serialNewer 32 (logNext s) v

/-- ACK frees entries (R284). -/
def setAck (v : Nat) (s : State) : State :=
  showLog { s with sys := { s.sys with per := { s.sys.per with logAckHi := word (v / 2 ^ 20), logAckLo := word v } } }

/-! ### The password (R280, R281) -/

/-- SHA-256 over the 64-bit salt and the 32 password bits, most significant first (R280). -/
def pwDigest (salt v : Nat) : Nat :=
  sha256 ((List.range 8).map (fun i => BitVec.ofNat 8 (salt / 2 ^ (8 * (7 - i)))) ++ (List.range 4).map fun i => BitVec.ofNat 8 (v / 2 ^ (8 * (3 - i))))

/-- The password is right; the delivery value is 00000000h. -/
def pwMatches (s : State) (v : Nat) : Bool := if s.gh.pw.isDefault then v == 0 else pwDigest s.gh.pw.salt v == s.gh.pw.digest

def setPw (p : Password) (s : State) : State := { s with gh := { s.gh with pw := p } }

/-- GH_PW_STAT. -/
def showPw (s : State) : State :=
  putBit 0xF34045 17 s.gh.pw.isDefault (putBit 0xF34045 18 s.gh.pw.locked (putBit 0xF34045 19 (!s.gh.pw.auth.isEmpty) s))

/-- A new password: a new salt is drawn, and only the digest is kept (R280). -/
def newPassword (v : Nat) (s : State) : State :=
  let (n, s1) := freeNat s
  let salt := n % 2 ^ 64
  let d := pwDigest salt v
  let s2 := setPw { s1.gh.pw with salt := salt, digest := d, isDefault := v == 0 } s1
  showPw { s2 with sys := { s2.sys with per := { s2.sys.per with salt := salt, digest := d, pwDefault := v == 0 } } }

/-- An attempt at the password: it opens an authorisation, or counts toward lockout (R281). -/
def tryPassword (f : KFrom) (v : Nat) (s : State) : State × Bool :=
  let p := s.gh.pw
  if p.locked then (s, false)
  else if pwMatches s v then
    (showPw (setPw { p with auth := if p.auth.contains (f.src, f.port) then p.auth else p.auth ++ [(f.src, f.port)], wrong := 0, nextLock := 60 } s), true)
  else
    let s1 := count 0xF34046 s
    if 3 ≤ p.wrong + 1 then
      (showPw (setPw { p with wrong := 0, locked := true, lockEnd := s.now + p.nextLock * 600000000, nextLock := min 3840 (2 * p.nextLock) } s1), false)
    else (setPw { p with wrong := p.wrong + 1 } s1, false)

/-- An authorisation closes. -/
def closeFor (src : BitVec 18) (port : KPort) (s : State) : State :=
  showPw (setPw { s.gh.pw with auth := s.gh.pw.auth.filter fun x => x != (src, port) } s)

end Sys2Proof.Machine
end

