-- ==== Sys2Proof/Machine/Accept.lean ====
section
/-! DEFINITION. What waits for a servo-period boundary: B-marked writes taken or refused block by block, commits, staged commands, and the selected set of overlays (01 R13; 08 R234; 09 R285; 13 R364, R377; 16 R435, R436; 17 R449). -/

namespace Sys2Proof.Machine

/-! ### Which writes are due (R13, R234) -/

/-- A write that takes effect only with the record that carries it (R234). -/
def bndGated (s : State) (a : Nat) : Bool := replicated a && gatedNow s

/-- The word that takes effect at this boundary in place of the one in force. -/
def dueWord (s : State) (a : Nat) (old : Word) : Option Word :=
  if bndGated s a then (closedWrite s a).map fun v => withB a v old else some (regGet s a)

/-- A write that is due: its register, the word in force, and the word that replaces it. -/
structure Due where
  a : Nat
  old : Word
  new : Word
  deriving DecidableEq, Repr

def dueWrites (s : State) : List Due := s.held.filterMap fun e => (dueWord s e.1 e.2).map fun w => ⟨e.1, e.2, w⟩

/-- The word in force becomes w; a write made after the record was closed goes on waiting. -/
def settleDue (d : Due) (w : Word) (s : State) : State :=
  if regGet s d.a = d.new then regSet d.a w { s with held := s.held.filter fun e => e.1 != d.a }
  else { s with held := s.held.map fun e => if e.1 = d.a then (e.1, w) else e }

/-- A block refuses a write and keeps the word in force (R13). -/
def refuseDue (d : Due) (s : State) : State := settleDue d d.old s

/-! ### Refusals (R13) -/

/-- A field that its block refuses keeps its value; the rest of the word is taken. -/
def keepField (hi lo : Nat) (bad : Bool) (d : Due) : Due := if bad then { d with new := setFld d.new hi lo (fld d.old hi lo) } else d

/-- FBSEL, ESH and ASH: refused fields (R135, R159). -/
def servoFields (d : Due) : Due × Bool :=
  let off := d.a % 256
  if d.a < 0xF10000 ∨ 0xF20000 ≤ d.a then (d, false)
  else if off = 0 then
    let bad := decide (1 ≤ fld d.new 16 12) && decide (fld d.new 16 12 < 16)
    (keepField 16 12 bad d, bad)
  else if off = 10 then
    let e := decide (24 < fld d.new 19 15)
    let h := decide (12 < fld d.new 14 11)
    (keepField 14 11 h (keepField 19 15 e d), e || h)
  else (d, false)

/-- A shift of +9 to +15 in a word of the set in force (R132, R152). -/
def shiftRefused (s : State) (d : Due) : Bool :=
  let off := d.a % 256
  let bad (lo : Nat) : Bool := decide (9 ≤ fld d.new (lo + 4) lo) && decide (fld d.new (lo + 4) lo ≤ 15)
  decide (0xF10000 ≤ d.a) && decide (d.a < 0xF20000) && decide (0x20 ≤ off) && decide (off < 0x60) && (off - 0x20) / 16 == svAct s ((d.a - 0xF10000) / 256) &&
    ((((off % 16 == 10) || (off % 16 == 11)) && [15, 10, 5, 0].any bad) || (off % 16 == 12 && bad 15))

/-- A route entry that would take effect with a reserved PORT (R429). -/
def routeRefused (s : State) (a : Nat) : Bool :=
  let b := a - a % 4
  decide (0xF48400 ≤ a) && decide (a < 0xF49400) && bit (regGet s b) 19 && (fld (regGet s (b + 3)) 19 17 == 0 || fld (regGet s (b + 3)) 19 17 == 4)

/-- A descriptor that would take effect with EN = 1 and a class that its priority does not fit (R364). -/
def descRefused (d : Due) : Bool :=
  decide (0xF3C000 ≤ d.a) && decide (d.a < 0xF3C800) && d.a % 4 == 0 && bit d.new 19 && !classPrioOk (fld d.new 18 17) (fld d.new 16 14)

/-- The thresholds are tried together: one that is out of bounds or out of order goes back, until the rest fit (R296). -/
def refuseThresholds (s : State) : State :=
  upTo 4 (fun _ s => upTo 4 (fun k s =>
    let a := 0xF38005 + k
    match lookupNat s.held a with
    | some old => if phRefused s a (regGet s a) then putBit 0xF38021 7 true (refuseDue ⟨a, old, regGet s a⟩ s) else s
    | none => s) s) s

/-- GH_BRK_REQ: a release of an output that was forced off in this period is dropped and counted (R288, R453). -/
def brakeDue (d : Due) (s : State) : Due × Bool :=
  let ns := (List.range 8).filter fun n => d.a == 0xF34007 && s.gh.brkForced.getLsbD n && bit d.new n && !bit d.old n
  (ns.foldl (fun d n => { d with new := setBit d.new n false }) d, !ns.isEmpty)

/-- A request for a parameter set: SV_PSET of a window. -/
def isPset (a : Nat) : Bool := decide (0xF10000 ≤ a) && decide (a < 0xF20000) && a % 256 == 1

/-- A BCRIT that would be the ninth: eight other axes keep theirs (R124). -/
def ninthCritical (s : State) (d : Due) : Bool :=
  decide (0xF08000 ≤ d.a) && decide (d.a < 0xF0C000) && d.a % 64 == 0 && bit d.new 17 && !bit d.old 17 &&
    decide (8 ≤ ((List.range 256).filter fun a => let b := mpBase a; b != d.a && bitOf s b 17 && bit (regGet s b) 17).length)

/-- One write at its boundary: refused with its block's error bit, or taken with what follows from it. -/
def acceptOne (d0 : Due) (s0 : State) : State :=
  let (d1, par) := servoFields d0
  let nine := ninthCritical s0 d1
  let (d, forced) := brakeDue (keepField 17 17 nine d1) s0
  let a := d.a
  let s := whenB forced (dropWrite (commandBy s0 a) a 3) (whenB nine (putBit 0xF0FA10 19 true) (whenB par (putBit 0xF100E0 13 true) s0))
  let take := settleDue { d with new := d0.new } d.new s
  let back := refuseDue d0 s
  if a = 0xF54002 ∧ fld d.new 19 18 = 3 then back
  else if 0xF38000 ≤ a ∧ a < 0xF3C000 ∧ phRefused s a d.new then putBit 0xF38021 7 true back
  else if shiftRefused s d then putBit 0xF100E0 13 true back
  else if descRefused d then putBit (a + 3) 5 true back
  else if routeRefused s a then putBit 0xF48007 18 true back
  else if 0xF34100 ≤ a ∧ a < 0xF34300 ∧ a % 8 = 0 ∧ ckRefused d.new then back
  else if a < 0xF00100 ∧ a % 16 = 0 then tbConfigTaken (Fin.ofNat 16 ((a - 0xF00000) / 16)) d.old d.new take
  else if 0xF10000 ≤ a ∧ a < 0xF20000 ∧ a % 256 = 0 ∧ fld d.old 16 12 ≠ fld d.new 16 12 then firstUseOf ((a - 0xF10000) / 256) take
  else if isPset a then selectSet ((a - 0xF10000) / 256) take
  else if 0xF34100 ≤ a ∧ a < 0xF34300 ∧ a % 8 < 2 then ckRestart ((a - 0xF34100) / 8) take
  else if 0xF3C000 ≤ a ∧ a < 0xF3C800 ∧ a % 4 = 0 ∧ bit d.old 19 ∧ !bit d.new 19 then descDisabled ((a - 0xF3C000) / 4) take
  else if a = 0xF54002 then showPeriod { take with mains := { take.mains with p := nominalPeriod take * 65536, rem := 0 } }
  else take

/-! ### What several registers decide together -/

/-- The words of a channel before and after: what a change of them clears (R70, R88). -/
def feedbackTaken (ds : List Due) (s : State) : State :=
  forEach (List.finRange 16) (fun n s =>
    let b := fbAddr n.val
    let old (i : Nat) : Word := match ds.find? fun d => d.a == b + i with
      | some d => d.old
      | none => inForce s (b + i)
    fbConfigTaken n (old 0) (inForce s b) (old 1) (inForce s (b + 1)) (old 2) (inForce s (b + 2)) s) s

/-- The writes that the rules of mover m's coverage bear on: its own configuration and its segment axes' (R114). -/
def coverageDue (s : State) (m : Nat) (d : Due) : Bool :=
  let b := mpBase (256 + m)
  let f := fldOf s (b + 36) 15 8
  let l := fldOf s (b + 36) 7 0
  let ax := (d.a - 0xF08000) / 64
  let off := d.a % 64
  d.a == b || d.a == b + 36 ||
    (decide (0xF08000 ≤ d.a) && decide (d.a < 0xF0C000) && decide (f ≤ ax) && decide (ax ≤ l) && (off == 0 || (decide (36 ≤ off) && decide (off ≤ 40))))

/-- A mover configuration that breaks the rules of R114 is refused: the writes of this boundary that it rests on go back. -/
def moversTaken (ds : List Due) (s : State) : State :=
  upTo 32 (fun m s =>
    let mine := ds.filter (coverageDue s m)
    let first := whenB (mine.any fun d => d.a == mpBase (256 + m) + 36) (firstUseOf (256 + m))
    if mine.isEmpty then s
    else if !bitOf s (mpBase (256 + m)) 19 || moverCfgOk s m then first s
    else
      putBit 0xF0FA10 19 true (forEach mine (fun d s =>
        if (lookupNat s.held d.a).isSome then { s with held := s.held.map fun e => if e.1 = d.a then (e.1, d.old) else e } else regSet d.a d.old s) s)) s

/-- A source whose descriptor has another class is off, and the descriptor shows CFG_ERR (R377). -/
def sourceCheck (n : Nat) (s : State) : State :=
  let a := 0xF40000 + n
  let d := fldOf s a 8 0
  if evClass n != 0 && bitOf s a 19 && descClass s d != evClass n then putBit (descCfg d + 3) 5 true (putBit a 19 false s) else s

/-- The sources whose configuration, or whose descriptor's, took effect (R377). -/
def sourcesTaken (ds : List Due) (s : State) : State :=
  upTo 128 (fun n s =>
    let d := fldOf s (0xF40000 + n) 8 0
    if ds.any fun x => x.a == 0xF40000 + n || x.a == descCfg d then sourceCheck n s else s) s

/-! ### Commits and parameter sets -/

/-- The elements of a list whose write is due: all, or in a paired active those in the closed record. -/
def dueOf (s : State) (addr : Nat → Nat) (l : List Nat) : List Nat := l.filter fun n => !bndGated s (addr n) || (closedWrite s (addr n)).isSome

def tableAddr (t : Nat) : Nat := 0xF0C000 + 64 * t + 63
def biquadAddr (n : Nat) : Nat := svBase (n / 4) + 0x64 + 8 * (n % 4)

/-- Blend tables and biquads are committed (R125, R159). -/
def commitStaged (s : State) : State :=
  let ts := dueOf s tableAddr s.mo.blendPend
  let bs := dueOf s biquadAddr s.sv.bqPend
  let s1 := forEach ts commitTable { s with mo := { s.mo with blendPend := s.mo.blendPend.filter fun t => !ts.contains t } }
  forEach bs commitBiquad { s1 with sv := { s1.sv with bqPend := s1.sv.bqPend.filter fun n => !bs.contains n } }

/-- The firings whose parameter set has been taken or refused at this boundary wait no longer (R51, R151). -/
def psetFired (s : State) : State :=
  { s with sd := { s.sd with psetPend := s.sd.psetPend.filter fun x => (lookupNat s.held (svBase x.1 + 1)).isSome } }

/-- Every B-marked write that is due takes effect or is refused, a parameter set after the words of the sets (R152); commands wait for their own step. -/
def acceptWrites (s0 : State) : State :=
  let s := refuseThresholds s0
  let all := (dueWrites s).filter fun d => !isCommand d.a
  let ds := (all.filter fun d => !isPset d.a) ++ all.filter fun d => isPset d.a
  let s2 := forEach ds acceptOne s
  let s1 := forEach ds (fun d s => signBlock d.a s) { s2 with gh := { s2.gh with brkForced := 0 } }
  sourcesTaken ds (moversTaken ds (feedbackTaken ds (forEach (List.finRange 16) fboCopy (psetFired (commitEntries (commitStaged s1))))))

/-! ### The selected set (R285, R435, R436) -/

/-- Overlay i may be applied: it needs no approval, or its approval stands (R285). -/
def ovAllowed (s : State) (i : Nat) : Bool := let o := s.ks.ov[Fin.ofNat 16 i]; o.approved || !needsApproval s o

/-- The numbers of a mask of 16. -/
def maskList (m : Nat) : List Nat := (List.range 16).filter fun i => m / 2 ^ i % 2 == 1
def listMask (l : List Nat) : Nat := l.foldl (fun m i => m ||| 2 ^ i) 0

/-- An entry takes the value that the new set gives it: from the highest-numbered overlay that holds it, else its base value (R436). -/
def changeEntry (old new : Nat) (x : Nat × Nat) (s : State) : State :=
  let (i, sub) := x
  match kLookup s i sub with
  | .found e =>
    let was := ovHolds s old i sub
    let now := ovHolds s new i sub
    if was = now then s
    else
      let k := ekey i sub
      let base := (lookupNat s.ks.base k).getD (entryHeld s e i sub)
      let keep := (s.ks.base.filter fun b => b.1 != k) ++ (if now.isSome then [(k, base)] else [])
      let s1 := setDirect e i sub (now.getD base) (setKs { s.ks with base := keep } s)
      match entryReg e with
      | some a => signBlock a <| if isPset a then selectSet ((a - 0xF10000) / 256) s1 else s1
      | none => s1
  | _ => s

/-- The set in force becomes REQ or PHB, without the overlays that lack an approval; every entry concerned changes at this boundary. -/
def selectOverlays (s : State) : State :=
  let req := fldOf s 0xF48008 15 0
  let phb := boundSlots s
  let refused := (maskList (req ||| phb)).filter fun i => !ovAllowed s i
  let newly := refused.filter fun i => !(ovSelected s i) && (req / 2 ^ i % 2 == 1 || s.ks.phb / 2 ^ i % 2 == 0)
  let s1 := whenB (!newly.isEmpty) (putBit 0xF34003 17 true) s
  let s2 := if (maskList req).any refused.contains then putFld 0xF48008 15 0 (listMask ((maskList req).filter fun i => !refused.contains i)) s1 else s1
  let new := listMask ((maskList (req ||| phb)).filter fun i => !refused.contains i)
  let old := s.ks.sel
  let s3 := setKs { s2.ks with sel := new, phb := phb } s2
  if new = old then s3
  else
    let es := ((maskList (old ||| new)).flatMap fun i => (s.ks.ov[Fin.ofNat 16 i]).recs.map fun r => (r.index, r.sub)).eraseDups
    forEach es (changeEntry old new) s3

/-! ### Staged commands -/

/-- A Gatehouse stop, or a cap of R99, forces a ramp on the object at this boundary (R126); old is the state before the boundary. -/
def rampForced (old s : State) (o : Nat) : Bool :=
  let x := profOf s o
  let degraded := old.sys.op != .degraded && s.sys.op == .degraded &&
    (if 256 ≤ o then needsLanding old o else (profOf old o).st != .idle && (profOf old o).st != .held)
  hasProfile s o && (degraded || (s.gh.grp[objGroup s o].stopNew && x.st != .held) || capForces s o)

/-- A staged command takes effect: its bits clear, then the command runs. Of several in one period the last counts (R94). -/
def runStaged (old : State) (d : Due) (s0 : State) : State :=
  let s := settleDue d d.old s0
  let a := d.a
  if a = 0xF0FA00 then gwCommand (fld d.new 19 16) s
  else if a = 0xF100F7 then (if bit d.new 19 then genStart 0 s else s)
  else if a = 0xF100FF then (if bit d.new 19 then genStart 1 s else s)
  else if 0xF20100 ≤ a ∧ a < 0xF20140 then
    (if bit d.new 19 then (if bvMayArm s then bvArm (Fin.ofNat 4 ((a - 0xF20100) / 16)) s else dropWrite (commandBy s a) a 6 s) else s)
  else if a = 0xF30001 then s
  else
    let o := if a < 0xF0C000 then (a - 0xF08000) / 64 else 256 + (a - 0xF0F000) / 64
    if rampForced old s o then dropWrite (commandBy s a) a 3 s else mpCommand o (fld d.new 19 16) s

/-- The staged commands of the period, but the exchange, which takes effect in the cycle that begins. -/
def runCommands (old s : State) : State :=
  let s1 := forEach ((dueWrites s).filter fun d => isCommand d.a && d.a != 0xF30001) (runStaged old) s
  { s1 with sys := { s1.sys with cmdBy := s1.sys.cmdBy.filter fun e => (lookupNat s1.held e.1).isSome } }

/-- XCHG takes effect in the cycle that begins; a unit that is not active drops it (R250, R251). -/
def runExchange (s : State) : State :=
  match (dueWrites s).find? fun d => d.a == 0xF30001 with
  | some d => let s1 := settleDue d d.old s; if bit d.new 19 && !isStandby s1 then xchgRequest s1 else s1
  | none => s

/-! ### Entry into CONFIG as a boundary (R510) -/

/-- Registers loaded at BOOT step 6 that carry B-marked fields, with the words they replace: their reset values. NV_MODE is in force from step 2. -/
def bootLoaded (s : State) : List (Nat × Word) :=
  s.regs.filterMap fun e =>
    match rowOf e.1 with
    | some r =>
      let old := r.fields.foldl (fun w f => if f.mark = .b ∧ f.acc = .rw then putField f (resetWord e.1) w else w) e.2
      if old = e.2 || e.1 == 0xF54002 then none else some (e.1, old)
    | none => none

/-- Values loaded by BOOT step 6, and B-marked values and commands written in BOOT, take effect at entry into CONFIG (R510). -/
def configBoundary (s : State) : State :=
  let has (lo n : Nat) : Bool := s.regs.any fun e => decide (lo ≤ e.1) && decide (e.1 < lo + n)
  let loaded := bootLoaded s
  runCommands s <| acceptWrites { s with
    held := loaded ++ s.held.filter fun e => !(loaded.any fun x => x.1 == e.1)
    sd := { s.sd with w0Pend := (List.range 2048).filter fun e => has (0xF01000 + e) 1 }
    mo := { s.mo with blendPend := (List.range 192).filter fun t => has (0xF0C000 + 64 * t) 64 }
    sv := { s.sv with bqPend := (List.range 1024).filter fun n => has (svBase (n / 4) + 0x60 + 8 * (n % 4)) 5 } }

end Sys2Proof.Machine
end

