-- ==== Sys2Proof/Machine/Boot.lean ====
section
/-! DEFINITION. The steps of BOOT, the firmware image, and the end of the flush at shed level L5 (19 R471-R474; 10 R303). -/

namespace Sys2Proof.Machine

/-- Step 3: each damaged item of the persistent block takes its delivery value: 0 role epoch, 1 PR_XAGE, 2 GH_LOG_ACK, 3 PH_L5CNT, 4 password (R471). -/
def checkPersist (damaged : BitVec 5) (s : State) : State :=
  let p := s.sys.per
  let d (i : Nat) : Bool := damaged.getLsbD i
  let p1 := { p with
    epoch := if d 0 then 0 else p.epoch
    xage := if d 1 then 0 else p.xage
    logAckHi := if d 2 then 0xFFF else p.logAckHi
    logAckLo := if d 2 then 0xFFFFF else p.logAckLo
    l5cnt := if d 3 then 0 else p.l5cnt
    salt := if d 4 then 0 else p.salt
    digest := if d 4 then 0 else p.digest
    pwDefault := p.pwDefault || d 4 }
  whenB (damaged != 0) (putBit 0xF54001 12 true) { s with sys := { s.sys with per := p1 } }

/-- The items of the persistent block where the part uses and shows them. -/
def showPersist (s : State) : State :=
  let p := s.sys.per
  let s1 := { s with lk := { s.lk with epoch := p.epoch }, gh := { s.gh with pw := { s.gh.pw with salt := p.salt, digest := p.digest, isDefault := p.pwDefault } } }
  showPw (showLog (putWord 0xF38034 (word p.l5cnt) (putWord 0xF30006 (word p.xage) (putWord 0xF2800C (word p.epoch) s1))))

/-- The length of the firmware image in words (R472). -/
def imageLen (s : State) : Nat := fld (mramGet s 0x25001) 11 0 * 2 ^ 20 + (mramGet s 0x25002).toNat

/-- The image passes its check: format, length and CRC (R472). -/
def imageOk (s : State) : Bool :=
  let n := imageLen s
  fld (mramGet s 0x25000) 19 12 == 1 && decide (256 ≤ n) && decide (n ≤ 110592) &&
    (crcWords (mramGetAll s 0x25000 3 ++ [0, 0] ++ mramGetAll s 0x25005 (n - 5)) == mramGetAll s 0x25003 2)

/-- LEN_n, the number of instructions of core n, at most the 128 Ki of its program memory. -/
def segLen (s : State) (n : Nat) : Nat := min 131072 (mramGet s (0x25018 + n)).toNat

/-- Where the segment of core n starts in MRAM. -/
def segBase (s : State) (n : Nat) : Nat := 0x25100 + 2 * ((List.range n).map (segLen s)).sum

/-- Loads the segment of every core from program address 0: bits 39:20, then bits 19:0 (R472). -/
def loadImage (s : State) : State :=
  pcSys 0x5E (imageLen s) (upTo 8 (fun n s =>
    upTo (segLen s n) (fun i s =>
      let b := segBase s n + 2 * i
      pgmSet n i (BitVec.ofNat 40 ((mramGet s b).toNat * 2 ^ 20 + (mramGet s (b + 1)).toNat)) s) s) s)

/-- SEQ of the fault-record entry in place k of the ring where its CRC checks (R479). -/
def recordAt (s : State) (k : Nat) : Option Nat :=
  let ws := mramGetAll s (0x800 + 8 * k) 8
  let q := (ws.getD 1 0).toNat
  if q % 256 = k ∧ fld (ws.getD 7 0) 15 0 = crc16 (wordBits (ws.take 7)) then some q else none

/-- NV_FR_NEXT: the SEQ after the newest entry of the fault record, 0 with none (R471, R482, R508). -/
def restoreRecord (s : State) : State :=
  let newest := (List.range 256).foldl (fun best k =>
    match recordAt s k, best with
    | none, _ => best
    | some x, none => some x
    | some x, some y => if serialNewer 20 x y then some x else some y) none
  match newest with
  | none => putWord 0xF5400A 0 s
  | some q => putWord 0xF5400A (word (q + 1)) { s with sys := { s.sys with per := { s.sys.per with frSeq := q } } }

/-- The reset that led to this BOOT makes its fault-record entry (R469). -/
def recordReset (s : State) : State :=
  match s.sys.resetRec with
  | none => s
  | some c => faultRecord 2 c 0 0 { s with sys := { s.sys with resetRec := none } }

/-- Step 7: the standstill rings, GH_LOG_NEXT, the inspection slots and NV_FR_NEXT; the return record is rewritten (R471, R480). -/
def restoreRings (s : State) : State := writeReturn (recordReset (restoreRecord (showSlots (restoreLog (restoreStandstill s)))))

/-- Core n has a program: LEN_n of the image, or, with a program loaded by the host port, any instruction other than 0 in its program memory. -/
def hasProgram (s : State) (n : Nat) : Bool :=
  if s.sys.hostPgm then s.mem.pgm.any fun e => e.1 / 131072 == n else decide (0 < segLen s n)

/-- CORE_START: each core with a program starts in its base context at 00000h, and any other core is halted (R472). -/
def startCores (s : State) : State :=
  forEach (List.finRange 8) (fun n s =>
    setCore n (if hasProgram s n.val then { Core.reset with run := true, base := true } else { Core.reset with halted := true }) s) s

/-- The end of BOOT: TEST where TEST_EN was high, else CONFIG; the grid of R510 and what Sundial counts periods by start here. -/
def endBoot (s : State) : State :=
  let s1 := { s with sys := { s.sys with step := 0, tBoundary := s.now }, mains := { s.mains with p := nominalPeriod s * 65536 } }
  if s.sys.testEn then { s1 with sys := { s1.sys with op := .test } }
  else startCores (showPeriod (configBoundary { s1 with sys := { s1.sys with op := .config } }))

/-- A step of BOOT runs: no reset and no boot hold is on, and step 4 is not in its wait. -/
def bootRuns (s : State) : Bool := s.sys.op == .boot && !s.sys.rstHeld && !s.sys.bootHold && !s.sys.bwait

def toStep (n : Nat) (s : State) : State := { s with sys := { s.sys with step := n } }

/-- Step 3 ends: step 4 waits BWAIT ms, or is over at once (R471, R473). -/
def beginWait (s : State) : State :=
  if fldOf s 0xF54003 8 1 = 0 then toStep 5 s else { s with sys := { s.sys with step := 4, bwait := true } }

/-- BOOT_STEP_COMPLETE (R471). -/
def bootStep (damaged : BitVec 5) (s : State) : State :=
  if !bootRuns s then s
  else if s.sys.step = 1 then toStep 2 { s with mains := { s.mains with tBoot := s.now } }
  else if s.sys.step = 2 then toStep 3 (loadBoot s)
  else if s.sys.step = 3 then beginWait (showPersist (checkPersist damaged s))
  else if s.sys.step = 5 then (if imageOk s then toStep 6 (loadImage s) else enterBootHold (putBit 0xF54001 18 true s))
  else if s.sys.step = 6 then toStep 7 (loadCopy s)
  else if s.sys.step = 7 then toStep 8 (restoreRings s)
  else if s.sys.step = 8 then endBoot { s with gh := { s.gh with sigs := [] } }
  else s

def execBootStepComplete (damaged : BitVec 5) (s : State) : Host.Outcome State Fault Refusal := .next (bootStep damaged s)

/-- BWAIT_EXPIRY: step 4 ends (R471). -/
def bwaitOver (s : State) : State :=
  if s.sys.op = .boot ∧ s.sys.step = 4 ∧ s.sys.bwait then { s with sys := { s.sys with step := 5, bwait := false } } else s

def execBwaitExpiry (s : State) : Host.Outcome State Fault Refusal := .next (bwaitOver s)

/-- What the flush of L5 writes: queued standstill stores, the fault record, the change-log entry being written, and the return record (R303, R109, R480). -/
def flushAll (s : State) : State :=
  let s1 := forEach s.mo.stores flushStore s
  let s2 := flushRecords s1
  let s3 := match s2.gh.log.find? fun x => !x.own with
    | none => s2
    | some x => logWrite x s2
  writeReturn s3

/-- FLUSH_COMPLETE: HOLD_CHG is held off too, HOLD_DIS stays on, and reset is held until its release (R303). -/
def flushComplete (s : State) : State :=
  if s.ph.l5 && !s.ph.flushed then
    let r := cleared (flushAll s)
    { r with sys := { r.sys with op := .powerUp, step := 0, resetRec := none }, ph := { r.ph with l5 := true, flushed := true, holdDis := s.ph.holdDis, holdChg := false } }
  else s

def execFlushComplete (s : State) : Host.Outcome State Fault Refusal := .next (flushComplete s)

end Sys2Proof.Machine
end

