-- ==== Sys2Proof/Machine/Kiosk.lean ====
section
/-! DEFINITION. Kiosk: dictionary requests served, forwarded and answered, RW-S writes and their log entries, stores, and the traffic relayed on the pair lane (09 R280-R285; 16 R420-R438). -/

namespace Sys2Proof.Machine

/-- Kiosk serves entries in every state from CONFIG onward (R420). -/
def kServes (s : State) : Bool := afterBoot s

/-! ### Messages (R430) -/

/-- The DMSG of a request. -/
def reqBytes (q : KReq) : List Byte :=
  leBytes 1 (if q.write then 2 else 1) ++ [q.from_.hop] ++ leBytes 3 q.from_.dst.toNat ++ leBytes 3 q.from_.src.toNat ++ leBytes 2 q.from_.reqid.toNat ++
    leBytes 2 q.index.toNat ++ [q.sub, 0] ++ leBytes 4 q.data.length ++ q.data

/-- The DMSG that answers a request. -/
def respBytes (q : KReq) (r : KResp) : List Byte :=
  let head (op : Int) : List Byte := leBytes 1 op ++ [0] ++ leBytes 3 q.from_.src.toNat ++ leBytes 3 q.from_.dst.toNat ++ leBytes 2 q.from_.reqid.toNat ++
    leBytes 2 q.index.toNat ++ [q.sub, 0]
  match r with
  | .data b => head (if q.write then 4 else 3) ++ leBytes 4 b.length ++ b
  | .abort c => head 5 ++ leBytes 4 c.toNat

/-- A DMSG read from bytes: its OP and, for a request, the request. -/
def parseMsg (port : KPort) (b : List Byte) : Nat × KReq :=
  let n (i k : Nat) : Nat := leNat ((b.drop i).take k)
  (n 0 1, { from_ := ⟨port, BitVec.ofNat 18 (n 5 3), BitVec.ofNat 18 (n 2 3), BitVec.ofNat 16 (n 8 2), BitVec.ofNat 8 (n 1 1)⟩, write := n 0 1 == 2,
            index := BitVec.ofNat 16 (n 10 2), sub := BitVec.ofNat 8 (n 12 1), data := (b.drop 18).take (n 14 4) })

/-- A response read from a DMSG. -/
def parseResp (b : List Byte) : KResp :=
  if leNat (b.take 1) = 5 then .abort (BitVec.ofNat 32 (leNat ((b.drop 14).take 4))) else .data ((b.drop 18).take (leNat ((b.drop 14).take 4)))

/-- Bytes packed two to a word, for the mailbox (R439). -/
def packWords : List Byte → List Word
  | a :: b :: r => word (a.toNat * 256 + b.toNat) :: packWords r
  | [a] => [word (a.toNat * 256)]
  | [] => []

/-! ### Answers -/

/-- A message for a link node, on the channel of its node block, or for every node of both channels: queued by the unit that leads the link (R32, R222, R429). -/
def toNodeMsg (n : LinkAddr) (msgid : Nat) (kind : SvcKind) (b : List Byte) (s : State) : State :=
  let chs := if n.val = 127 then [0, 1] else [nodeCh s n.val]
  setSvc { s.lk.svc with out := s.lk.svc.out ++ chs.map fun c => ⟨c, n.val, msgid, kind, b.map (·.toNat), 0, []⟩ } s

/-- A message identifier 01h-FFh (R221). -/
def newMsgId (s : State) : Nat × State :=
  let m := s.ks.nextMsg % 255 + 1
  (m, setKs { s.ks with nextMsg := m } s)

/-- KS_HP_RSP and RVAL (R431). -/
def mailbox (b : List Byte) (s : State) : State := putBit 0xF48018 18 true (putWords 0xF49C10 (packWords b) s)

def keepOut (p : KPort) (node : Nat) (b : List Byte) (s : State) : State := setKs { s.ks with outMsg := s.ks.outMsg ++ [⟨p, node, b⟩] } s

/-- A message by CAN: a controller that is listen-only transmits none (R25, R411). -/
def canOut (c : Fin 2) (node : Nat) (b : List Byte) (s : State) : State := if cnLomf s c then s else keepOut (.can c) node b s

/-- The kind of a port: the four ways of R429, each CAN controller for itself. -/
def portKind : KPort → Nat
  | .can c => c.val
  | .link _ => 2
  | .pair => 3
  | .hp => 4
  | .entry via => via

/-- A response leaves by the port its request came by; a broadcast request has none (R429). -/
def deliver (q : KReq) (r : KResp) (s : State) : State :=
  let s0 := setKs { s.ks with answer := some ⟨q, r⟩ } s
  if q.from_.dst.toNat = 262143 then s
  else
    match q.from_.port with
    | .hp => mailbox (respBytes q r) s0
    | .can c => canOut c 0 (respBytes q r) s0
    | .link n =>
      let (m, s1) := newMsgId s0
      if s1.lk.st = .lead then toNodeMsg n m .response (respBytes q r) s1 else s1
    | .pair => laneSend (.pSvc (.response q.from_.src q.from_.reqid r)) s0
    | .entry _ => setKs { s0.ks with routed := (q.from_.src, some (respBytes q r)) :: s0.ks.routed.filter fun x => x.1 != q.from_.src } s0

/-- A request ends with an abort of this unit. -/
def kAbort (q : KReq) (code : BitVec 32) (s : State) : State :=
  if q.from_.dst.toNat = 262143 then s else deliver q (.abort code) (count 0xF48011 s)

/-- A local request is answered: counted and recorded (R432). Requests by SDO carry no identifier and are not recorded. -/
def kFinish (q : KReq) (r : KResp) (s : State) : State :=
  let s1 := count 0xF48010 s
  let s2 := match r with
    | .abort _ => if q.from_.dst.toNat = 262143 then s1 else count 0xF48011 s1
    | .data _ => s1
  let isCan := match q.from_.port with
    | .can _ => true
    | _ => false
  deliver q r (if isCan then s2 else setKs { s2.ks with served := (⟨q, r⟩ :: s2.ks.served).take 32 } s2)

/-! ### RW-S writes (R282) -/

/-- A unit of a pair in a run state. -/
def pairRuns (s : State) : Bool := paired s && running s

/-- The requester holds an open authorisation (R281). -/
def authorised (s : State) (f : KFrom) : Bool := s.gh.pw.auth.contains (f.src, f.port)

/-- The unit's state and pair refuse RW-S writes: the delivery password outside CONFIG, or a pair in a run state that is lost or not aligned (R280, R282). -/
def secureClosed (s : State) : Bool := (s.gh.pw.isDefault && s.sys.op != .config) || (pairRuns s && !partnerAligned s)

/-- The 40 bits of OLD or NEW. -/
def log40 (v : Int) : Nat := wrapN 40 v

/-- The entry of the log for a write: KIND, OLD and NEW (R283). -/
def logOf (s : State) (e : KEntry) (q : KReq) (v : Int) : LogPend :=
  let i := q.index.toNat
  let sub := q.sub.toNat
  let kind := if i = 0x2002 then 2 else if i = 0x3050 then 3 else if 0x3400 ≤ i ∧ i < 0x3410 then 1 else 0
  let wide := e.ty.size.all fun n => decide (5 < n)
  let old := if kind = 2 then 0 else if wide then 0 else log40 (entryValue s e i sub)
  let new := if kind = 2 then 0 else if wide then crcBytes q.data else log40 v
  { req := q, kind := kind, time := sysTime s / 2 ^ 20, old := old, new := new, wide := wide, relayed := false, own := false, partner := if pairRuns s then 0 else 1 }

/-- An approval takes: the present contents are approved (R434). -/
def approve (i : Nat) (s : State) : State :=
  let k : Fin 16 := Fin.ofNat 16 i
  let o := s.ks.ov[k]
  setKs { s.ks with ov := s.ks.ov.set k { o with approved := true, lastCrc := ovCrc o } } s

/-- The value of an RW-S write takes effect, after its log entry (R250, R282, R437). In a standby a replicated register follows the active's boundary record (R234). -/
def secureApply (x : LogPend) (s : State) : State :=
  let i := x.req.index.toNat
  let sub := x.req.sub.toNat
  match kLookup s i sub with
  | .found e =>
    match e.ty.value x.req.data with
    | none => s
    | some v =>
      if i = 0x2002 then newPassword v.toNat s
      else if i = 0x2003 then kioskWrite 0xF30001 (word (2 ^ 19)) s
      else if i = 0x3050 then s
      else if 0x3400 ≤ i ∧ i < 0x3410 then approve (i - 0x3400) s
      else
        let s1 := if entryReplicated e && isStandby s then s else writeEntry e i sub v s
        if e.p then storeValue (ekey i sub) v (entryDefault e i sub) s1 else s1
  | _ => s

/-- A log entry that is written, and logged by the partner, ends: the value takes effect and the write is answered. -/
def logSettle (x : LogPend) (s : State) : State :=
  let gone := { s with gh := { s.gh with log := s.gh.log.erase x } }
  if !x.own then s
  else if x.relayed then laneSend (.pSvc (.logDone x.req.from_.src x.req.from_.reqid true)) (secureApply x gone)
  else if x.partner = 1 then kFinish x.req (.data []) (secureApply x gone)
  else if x.partner = 2 then kFinish x.req (.abort 0x08000022) gone
  else s

/-- LOG_ENTRY_VERIFIED: the oldest entry not yet written is in MRAM, or failed to verify (R282, R287). -/
def logVerified (ok : Bool) (s : State) : State :=
  match s.gh.log.find? fun x => !x.own with
  | none => s
  | some x =>
    if ok then
      let y := { x with own := true }
      let s1 := logWrite x s
      logSettle y { s1 with gh := { s1.gh with log := s1.gh.log.map fun z => if z = x then y else z } }
    else
      let s1 := putBit 0xF3404C 17 true { s with gh := { s.gh with log := s.gh.log.erase x } }
      if x.relayed then laneSend (.pSvc (.logDone x.req.from_.src x.req.from_.reqid false)) s1 else kFinish x.req (.abort 0x06060000) s1

/-- What a log entry's acceptance does at once: an acknowledgement frees entries (R284); the others wait. -/
def logAccept (x : LogPend) (s : State) : State :=
  let s1 := if x.kind = 3 ∧ ackOk s x.new then setAck x.new s else s
  let s2 := { s1 with gh := { s1.gh with log := s1.gh.log ++ [x] } }
  if x.relayed || x.partner = 1 then s2 else laneSend (.pSvc (.logWrite x.req)) s2

/-- An RW-S write whose form is right: accepted for the log, or refused (R282). -/
def secureWrite (q : KReq) (e : KEntry) (v : Int) (s : State) : Option KResp × State :=
  let i := q.index.toNat
  if secureClosed s then (some (.abort 0x08000022), s)
  else if i = 0x2003 ∧ v ≠ 0x5A0F3 then (some (.abort 0x06090030), s)
  else if i = 0x3050 ∧ !ackOk s v.toNat then (some (.abort 0x06090030), s)
  else if 0x3400 ≤ i ∧ i < 0x3410 ∧ v ≠ ovCrc s.ks.ov[Fin.ofNat 16 (i - 0x3400)] then (some (.abort 0x06090030), s)
  else if i ≠ 0x3050 ∧ !logRoom s then (some (.abort 0x08000042), s)
  else if e.p && !imageRoom s (ekey i q.sub.toNat) then (some (.abort 0x08000020), s)
  else (none, logAccept (logOf s e q v) s)

/-- An RW-S write relayed by the partner: logged and applied here too (R282). -/
def partnerLogs (q : KReq) (s : State) : State :=
  match kLookup s q.index.toNat q.sub.toNat with
  | .found e =>
    match e.ty.value q.data with
    | some v =>
      if q.index ≠ 0x3050 ∧ !logRoom s then laneSend (.pSvc (.logDone q.from_.src q.from_.reqid false)) s
      else logAccept { logOf s e q v with relayed := true, partner := 1 } s
    | none => laneSend (.pSvc (.logDone q.from_.src q.from_.reqid false)) s
  | _ => laneSend (.pSvc (.logDone q.from_.src q.from_.reqid false)) s

/-- The partner has logged a write of this unit, or has not. -/
def partnerLogged (src : BitVec 18) (reqid : BitVec 16) (ok : Bool) (s : State) : State :=
  match s.gh.log.find? fun x => !x.relayed && x.partner == 0 && x.req.from_.src == src && x.req.from_.reqid == reqid with
  | none => s
  | some x =>
    let y := { x with partner := if ok then 1 else 2 }
    logSettle y { s with gh := { s.gh with log := s.gh.log.map fun z => if z = x then y else z } }

/-! ### Stores (R437, R438) -/

/-- A job that is complete in both units is answered. -/
def jobSettle (j : StoreJob) (s : State) : State :=
  let gone := setKs { s.ks with jobs := s.ks.jobs.erase j } s
  if !j.ownDone then s
  else if j.relayed then laneSend (.pSvc (.completed j.req.from_.src j.req.from_.reqid true)) gone
  else if !j.partnerDone then s
  else if j.answered then gone
  else kFinish j.req (.data []) gone

/-- A job begins: in a head pair it is relayed to the partner (R438). -/
def jobStart (q : KReq) (relayed ownDone : Bool) (vals : Option (List (Nat × Int))) (s : State) : State :=
  let wait := paired s && !relayed
  let j : StoreJob := { req := q, vals := vals, relayed := relayed, ownDone := ownDone, partnerDone := !wait, answered := false }
  jobSettle j (whenB wait (laneSend (.pSvc (.complete q))) (setKs { s.ks with jobs := s.ks.jobs ++ [j] } s))

/-- 1010h:01h: the base values and overlays are written into the copy not in force (R437). -/
def storeAll (q : KReq) (relayed : Bool) (s : State) : Option KResp × State :=
  let vals := baseImage s
  if 8192 < vals.length then (some (.abort 0x08000020), s) else (none, jobStart q relayed false (some vals) s)

/-- 1011h:01h: the base image is marked (R437). -/
def restoreAll (q : KReq) (relayed : Bool) (s : State) : State :=
  jobStart q relayed true none { s with sys := { s.sys with per := { s.sys.per with restoreMark := true } } }

/-- The records of an overlay write are permitted (R434). -/
def recsBad (s : State) (raw : List Byte) (l : List OvRec) : Bool :=
  let unwritable (a : Nat) (w : Word) : Bool := match rowOf a with
    | some r => decide (r.fields.foldl (fun x f => if f.acc = .rw then setFld x f.hi f.lo 0 else x) w ≠ 0)
    | none => true
  (l.any fun r => match kLookup s r.index r.sub with
    | .found e => !e.o || (match e.back with
      | .reg a => (decide (0xF38000 ≤ a) && decide (a < 0xF3C000)) || unwritable a (wordI r.value)
      | _ => false)
    | _ => true) ||
  ((l.map fun r => (r.index, r.sub)).eraseDups.length != l.length) || raw.length % 8 != 0

/-- 3400h + i:01h: the whole overlay is replaced, and its approval withdrawn (R285, R434). -/
def overlayReplace (q : KReq) (relayed : Bool) (s : State) : Option KResp × State :=
  let i := q.index.toNat - 0x3400
  let k : Fin 16 := Fin.ofNat 16 i
  let l := recsOf s q.data
  if q.data.length % 8 ≠ 0 ∨ 2048 < q.data.length then (some (.abort 0x06070010), s)
  else if ovSelected s i then (some (.abort 0x08000022), s)
  else if recsBad s q.data l then (some (.abort 0x08000045), s)
  else
    let s1 := showCfgSig (setKs { s.ks with ov := s.ks.ov.set k { s.ks.ov[k] with recs := l, approved := false } } s)
    (none, jobStart q relayed true none s1)

/-- CONFIGURATION_STORE_COMPLETE: the copy written is verified and becomes the copy in force, or it is not (R437). -/
def storeComplete (ok : Bool) (s : State) : State :=
  match s.ks.jobs.find? fun j => !j.ownDone with
  | none => s
  | some j =>
    let gone := setKs { s.ks with jobs := s.ks.jobs.erase j } s
    if ok then
      let s1 := writeCopy (j.vals.getD []) s.ks.ov.toList { s with sys := { s.sys with per := { s.sys.per with restoreMark := false } } }
      let y := { j with ownDone := true }
      jobSettle y (setKs { s1.ks with jobs := s1.ks.jobs.map fun z => if z = j then y else z } s1)
    else if j.relayed then laneSend (.pSvc (.completed j.req.from_.src j.req.from_.reqid false)) gone
    else if j.answered then gone
    else kFinish j.req (.abort 0x06060000) gone

/-- PARTNER_COMPLETION_TIMEOUT: the request is answered with 06060000h and CFG_DIFF is set (R438). -/
def partnerTimeout (s : State) : State :=
  match s.ks.jobs.find? fun j => !j.relayed && !j.partnerDone with
  | none => s
  | some j =>
    let y := { j with partnerDone := true, answered := true }
    let s1 := putBit 0xF30002 10 true (setPr { s.pr with cfgDiff := true } s)
    let s2 := setKs { s1.ks with jobs := if j.ownDone then s1.ks.jobs.erase j else s1.ks.jobs.map fun z => if z = j then y else z } s1
    if j.answered then s2 else kFinish j.req (.abort 0x06060000) s2

/-- The partner has completed a job of this unit, or has not. -/
def partnerCompleted (src : BitVec 18) (reqid : BitVec 16) (ok : Bool) (s : State) : State :=
  match s.ks.jobs.find? fun j => !j.relayed && !j.partnerDone && j.req.from_.src == src && j.req.from_.reqid == reqid with
  | none => s
  | some j =>
    if ok then
      let y := { j with partnerDone := true }
      jobSettle y (setKs { s.ks with jobs := s.ks.jobs.map fun z => if z = j then y else z } s)
    else partnerTimeout s

/-- A store, restore or overlay write relayed by the partner (R438). -/
def partnerJob (q : KReq) (s : State) : State :=
  let refuse (r : Option KResp × State) : State :=
    if r.1.isSome then laneSend (.pSvc (.completed q.from_.src q.from_.reqid false)) r.2 else r.2
  if q.index = 0x1010 then refuse (storeAll q true s)
  else if q.index = 0x1011 then restoreAll q true s
  else if 0x3400 ≤ q.index.toNat ∧ q.index.toNat < 0x3410 then refuse (overlayReplace q true s)
  else s

/-! ### Forwarding (R429-R432) -/

/-- The first enabled route entry whose range holds an SNN: its PORT, LO and BASE. -/
def routeOf (s : State) (snn : Nat) : Option (Nat × Nat × Nat) :=
  ((List.range 1024).find? fun r =>
    let b := 0xF48400 + 4 * r
    bitOf s b 19 && decide (fldOf s (b + 1) 17 0 ≤ snn) && decide (snn ≤ fldOf s (b + 2) 17 0)).map fun r =>
      let b := 0xF48400 + 4 * r
      (fldOf s (b + 3) 19 17, fldOf s (b + 1) 17 0, fldOf s (b + 3) 7 0)

/-- The port of a PORT code, with the address that SNN - LO + BASE names: on the link it is taken modulo 128, as a node-ID is (DESIGN CHOICE, log entry 67). -/
def portOf (p addr : Nat) : Option KPort :=
  match p with
  | 1 => some (.can 0)
  | 2 => some (.can 1)
  | 3 => some (.link (Fin.ofNat 128 addr))
  | 5 => some .pair
  | 6 => some .hp
  | _ => none

/-- A request put out by a port, one more forwarding counted in it; on CAN it goes to a node-ID. -/
def putOut (out : KPort) (node m : Nat) (kind : SvcKind) (q : KReq) (s : State) : State :=
  let q1 := { q with from_ := { q.from_ with hop := q.from_.hop + 1 } }
  match out with
  | .can c => canOut c node (reqBytes q1) s
  | .link n => if s.lk.st = .lead then toNodeMsg n m kind (reqBytes q1) s else laneSend (.pSvc (.toNode n q1)) s
  | .pair => laneSend (.pSvc (.request q1)) s
  | .hp => mailbox (reqBytes q1) s
  | .entry _ => s

/-- A request leaves by a port and waits for its response (R429, R432). -/
def sendOn (out : KPort) (node : Nat) (q : KReq) (s : State) : State :=
  let (m, s1) := newMsgId s
  putOut out node m .request q (count 0xF48012 (setKs { s1.ks with fwd := s1.ks.fwd ++ [⟨q, m, out⟩] } s1))

/-- A request for another SNN: forwarded, or refused with 08000044h (R429). -/
def kForward (q : KReq) (s : State) : State :=
  match routeOf s q.from_.dst.toNat with
  | none => kAbort q 0x08000044 s
  | some (p, lo, base) =>
    let addr := q.from_.dst.toNat - lo + base
    match portOf p addr with
    | none => kAbort q 0x08000044 s
    | some out => sendOn out (addr % 128) q s

/-- FORWARD_TIMEOUT: no response within KS_TOUT (R432). -/
def forwardTimeout (m : Nat) (s : State) : State :=
  match s.ks.fwd.find? fun x => x.msgid == m with
  | none => s
  | some x => kAbort x.req 0x05040000 (count 0xF48013 (setKs { s.ks with fwd := s.ks.fwd.erase x } s))

/-- FORWARDED_RESPONSE: returned on the port by which its request arrived (R429, R432). -/
def forwardDone (m : Nat) (r : KResp) (s : State) : State :=
  match s.ks.fwd.find? fun x => x.msgid == m with
  | none => s
  | some x => deliver x.req r (setKs { s.ks with fwd := s.ks.fwd.erase x } s)

/-- A response that names its request by source SNN and identifier. -/
def responseFor (src : BitVec 18) (reqid : BitVec 16) (out : KPort → Bool) (r : KResp) (s : State) : State :=
  match s.ks.fwd.find? fun x => x.req.from_.src == src && x.req.from_.reqid == reqid && out x.out with
  | none => s
  | some x => forwardDone x.msgid r s

/-! ### Serving an entry -/

/-- An attempt at the password entry (R281). -/
def passwordEntry (q : KReq) (v : Nat) (s : State) : Option KResp × State :=
  let r := tryPassword q.from_ v s
  (some (if r.2 then .data [] else .abort 0x08000041), r.1)

/-- A routed request is taken from 2011h:01h; the response to the one before, not yet read or not yet arrived, is discarded (R431). -/
def routedTake (q : KReq) (s : State) : KReq × State :=
  let m := parseMsg (.entry (portKind q.from_.port)) q.data
  ({ m.2 with from_ := { m.2.from_ with src := q.from_.src } },
   setKs { s.ks with
     routed := (q.from_.src, none) :: s.ks.routed.filter fun x => x.1 != q.from_.src
     fwd := s.ks.fwd.filter fun x => !(x.req.from_.src == q.from_.src && (match x.req.from_.port with
       | .entry _ => true
       | _ => false)) } s)

/-- A PDO mapping word may be written: its entry has attribute M, and the mapping is not too long (R424). -/
def mappingCode (s : State) (i sub : Nat) (v : Nat) : Option (BitVec 32) :=
  let n := i % 64
  let port := (mapGet 0 s.ks.vals (ekey 0x2010 (1 + n + if 0x1A00 ≤ i then 64 else 0))).toNat
  let fd := bitOf s (0xF44000 + 0x2000 * (port % 2) + 12) 18
  let w (k : Nat) : Nat := if k = sub then v else (mapGet 0 s.ks.vals (ekey i k)).toNat
  let cnt := (w 0)
  let bits := ((List.range (min 8 (if sub = 0 then cnt else max cnt sub))).map fun k => w (k + 1) % 256).sum
  let m := mirrorOf s (v / 2 ^ 16) (v / 256 % 256)
  let mappable := match kLookup s m.1 m.2 with
    | .found e => e.m
    | _ => false
  if sub ≠ 0 ∧ v ≠ 0 ∧ !mappable then some 0x06040041
  else if (if fd then 512 else 64) < bits then some 0x06040042
  else if sub = 0 ∧ 8 < v then some 0x06090031
  else none

/-- Further rules on the value of an entry. -/
def valueCode (s : State) (e : KEntry) (i sub : Nat) (v : Int) : Option (BitVec 32) :=
  if (0x1600 ≤ i ∧ i < 0x1640) ∨ (0x1A00 ≤ i ∧ i < 0x1A40) then mappingCode s i sub v.toNat
  else if ((0x1400 ≤ i ∧ i < 0x1440) ∨ (0x1800 ≤ i ∧ i < 0x1840)) ∧ sub = 2 ∧ v ≠ 0xFE ∧ v ≠ 0xFF then some 0x06090030
  else if i = 0x2010 ∧ 1 < v then some 0x06090031
  else
    match e.back with
    | .field _ hi lo => if 2 ^ (hi + 1 - lo) ≤ v then some 0x06090031 else none
    | _ => none

/-- A destination is the enabled active alias (R31). -/
def isAlias (s : State) (d : Nat) : Bool := bitOf s 0xF48001 19 && fldOf s 0xF48001 17 0 == d

/-- A write addressed to the active alias, at a unit that is now standby (R249). -/
def roleChanged (s : State) (q : KReq) : Bool := q.write && isStandby s && isAlias s q.from_.dst.toNat

/-- The role refuses a write of a replicated entry at a standby (R249). -/
def roleCode (s : State) (e : KEntry) : Option (BitVec 32) := if isStandby s && entryReplicated e then some 0x08000022 else none

/-- A write of an entry served by hardware, or by firmware in its turn: none where the answer comes later (R421-R423, R436). had: the previous request from the SNN was the key. -/
def serveWrite (had : Bool) (q : KReq) (e : KEntry) (i sub : Nat) (s : State) : Option KResp × State :=
  let no (c : BitVec 32) (s : State) : Option KResp × State := (some (.abort c), s)
  if e.right = .const ∨ e.right = .ro then no 0x06010002 s
  else if e.right = .rwK ∧ !had then no 0x08000040 s
  else if e.right = .rwS ∧ !authorised s q.from_ then no 0x08000041 s
  else
    match roleCode s e with
    | some c => no c s
    | none =>
      if (ovHolds s s.ks.sel i sub).isSome then no 0x08000021 s
      else if i = 0x2011 then (some (.data []), s)
      else if 0x3400 ≤ i ∧ i < 0x3410 ∧ sub = 1 then overlayReplace q false s
      else if e.ty.size.any (fun n => n != q.data.length) || decide (4096 < q.data.length) then no 0x06070010 s
      else
        match e.ty.value q.data with
        | none => no 0x06090030 s
        | some v =>
          match valueCode s e i sub v with
          | some c => no c s
          | none =>
            if entryLate s e v then no 0x08000022 s
            else if e.right = .rwS then secureWrite q e v s
            else if i = 0x1010 then (if v = 0x65766173 then storeAll q false s else no 0x06090030 s)
            else if i = 0x1011 then (if v = 0x64616F6C then (none, restoreAll q false s) else no 0x06090030 s)
            else if i = 0x2001 then (some (.data []), if v = 0x5A0F3 then setKs { s.ks with keys := q.from_.src :: s.ks.keys } s else s)
            else if i = 0x2002 ∧ sub = 1 then passwordEntry q v.toNat s
            else if i = 0x2002 then (some (.data []), closeFor q.from_.src q.from_.port s)
            else if i = 0x3410 ∧ s.sys.op = .safe then no 0x08000022 s
            else (some (.data []), writeEntry e i sub v s)

/-- A read of 2011h:02h (R431). -/
def routedRead (src : BitVec 18) (s : State) : KResp × State :=
  match s.ks.routed.find? fun x => x.1 == src with
  | some (_, some b) => (.data b, setKs { s.ks with routed := s.ks.routed.filter fun x => x.1 != src } s)
  | _ => (.abort 0x08000024, s)

/-- A read of an entry (R422, R423). A value that firmware supplies is a free value. -/
def serveRead (q : KReq) (e : KEntry) (i sub : Nat) (s : State) : KResp × State :=
  if e.right = .wo then (.abort 0x06010001, s)
  else if i = 0x2011 then routedRead q.from_.src s
  else if e.back = .firmware then
    let (n, s1) := freeNat s
    let (len, s2) := freeNat s1
    match e.ty.size with
    | some _ => (.data (e.ty.bytes n), s1)
    | none => (.data (leBytes (len % 4097) n), s2)
  else
    match e.ty.size with
    | none => (.data (calcBytes s i), s)
    | some _ => (.data (e.ty.bytes (entryValue s e i sub)), s)

/-- A request named to an existing entry is served. -/
def serveEntry (had : Bool) (q : KReq) (e : KEntry) (i sub : Nat) (s : State) : Option KResp × State :=
  if q.write then serveWrite had q e i sub s
  else
    let r := serveRead q e i sub s
    (some r.1, r.2)

/-- C0 runs the firmware that serves the rest (R433). -/
def firmwareRuns (s : State) : Bool := coreRunning s.cores[(0 : Fin 8)]

/-- A request for firmware: EV16; served while C0 runs, else queued, and refused with the queue full (R433). That C0 serves it at once while it runs, and what waited at the next servo-period boundary, is the model's (DESIGN CHOICE, log entry 72). -/
def serveFirmware (had : Bool) (q : KReq) (e : KEntry) (i sub : Nat) (s : State) : Option KResp × State :=
  let s1 := raiseEvent 16 s
  if firmwareRuns s1 && s1.ks.fwq.isEmpty then serveEntry had q e i sub s1
  else if s.ks.fwq.length < 16 then (none, setKs { s1.ks with fwq := s1.ks.fwq ++ [(q, had)] } s1)
  else
    match q.from_.port with
    | .hp => (none, setKs { s.ks with hpBusy := true } s)
    | .link _ => (none, nakFragment s)
    | _ => (some (.abort 0x08000020), s)

/-- The record of a request that repeats a source SNN and REQID (R432); requests by SDO carry no identifier. -/
def recorded (s : State) (q : KReq) : Option KAnswer :=
  match q.from_.port with
  | .can _ => none
  | _ => s.ks.served.find? fun x => x.req.from_.src == q.from_.src && x.req.from_.reqid == q.from_.reqid

/-- A key written before is used up by the next request of its SNN (R422). -/
def useKey (q : KReq) (s : State) : State := setKs { s.ks with keys := s.ks.keys.filter fun x => x != q.from_.src } s

/-- A request served locally that is not in the record (R420, R422). A key written before is used up. -/
def serveNew (q : KReq) (s : State) : Option KResp × State :=
  let had := s.ks.keys.contains q.from_.src
  let s1 := useKey q s
  let m := mirrorOf s1 q.index.toNat q.sub.toNat
  if roleChanged s1 q then (some (.abort 0x08000043), count 0xF3000C s1)
  else match kLookup s1 m.1 m.2 with
  | .noIndex => (some (.abort 0x06020000), s1)
  | .noSub => (some (.abort 0x06090011), s1)
  | .found e =>
    let q1 := { q with index := BitVec.ofNat 16 m.1, sub := BitVec.ofNat 8 m.2 }
    if byFirmware m.1 m.2 then serveFirmware had q1 e m.1 m.2 s1 else serveEntry had q1 e m.1 m.2 s1

/-- A local request: a repeated one is answered from the record (R432). A repeated write of the key uses no key up (DESIGN CHOICE, log entry 72). -/
def kLocal (q : KReq) (s : State) : State :=
  match recorded s q with
  | some x => deliver q x.resp (count 0xF48014 (if q.index = 0x2001 then s else useKey q s))
  | none =>
    match serveNew q s with
    | (some r, s1) => kFinish q r s1
    | (none, s1) => s1

/-- The unit serves requests for an SNN: its own, or the enabled alias while it holds the active role or is a single unit (R31, R429). A standby that held the role before takes the alias too, to answer reads and refuse writes (R249). While KS_CFG holds 0, SNN 0 counts as its own (DESIGN CHOICE, log entry 67). -/
def ownSnn (s : State) (d : Nat) : Bool :=
  d == fldOf s 0xF48000 17 0 || (isAlias s d && (!paired s || isActive s || (isStandby s && s.pr.wasActive)))

/-- A port for a message to everything behind it (R32): on the link every node. -/
def wholePort : KPort → KPort
  | .link _ => .link 127
  | p => p

/-- Every port that the route table names, each once, a broadcast's own port left out (R32). -/
def broadcastPorts (s : State) (p : KPort) : List KPort :=
  ((((List.range 1024).filter fun r => bitOf s (0xF48400 + 4 * r) 19).filterMap fun r =>
    portOf (fldOf s (0xF48400 + 4 * r + 3) 19 17) 0).map wholePort).eraseDups.filter fun x => portKind x != portKind p

/-- A broadcast: a write, served and forwarded without a response; a read is discarded (R32, R429). On CAN it goes to node-ID 0, for all devices (DESIGN CHOICE, log entry 67). -/
def kBroadcast (q : KReq) (s : State) : State :=
  if !q.write then count 0xF48015 s
  else
    let s1 := kLocal q s
    forEach (broadcastPorts s q.from_.port) (fun p s =>
      let r := newMsgId s
      putOut p 0 r.1 .response q (count 0xF48012 r.2)) s1

/-- A dictionary request (R420, R429). One that has been forwarded 8 times is refused wherever it comes to (R430). -/
def kRequest (q : KReq) (s : State) : State :=
  if !kServes s then s
  else if 8 ≤ q.from_.hop.toNat then kAbort q 0x08000044 s
  else if q.from_.dst.toNat = 262143 then kBroadcast q s
  else if ownSnn s q.from_.dst.toNat then kLocal q s
  else kForward q s

/-- A DMSG written to 2011h:01h is sent toward its SNN (R431). -/
def routeNow (q : KReq) (s : State) : State :=
  let m := routedTake q s
  if 18 ≤ q.data.length ∧ ((parseMsg .hp q.data).1 = 1 ∨ (parseMsg .hp q.data).1 = 2) then kRequest m.1 m.2 else m.2

/-- A message complete from a link node is taken by Kiosk. -/
def takeDone (p : KPort) (s : State) : State :=
  match p with
  | .link n => setSvc { s.lk.svc with done := s.lk.svc.done.eraseP fun x => x.node == n.val } s
  | _ => s

/-- A write of 2011h:01h. -/
def isRouted (q : KReq) : Bool := q.write && q.index == 0x2011 && q.sub == 1

/-- A local request writes 2011h:01h and is served now, not from the record. -/
def routesNow (s : State) (q : KReq) : Bool := isRouted q && firmwareRuns s && s.ks.fwq.isEmpty && (recorded s q).isNone && !roleChanged s q

/-- A local request that may write 2011h:01h: the message goes on its way once the write is accepted. -/
def kServe (q : KReq) (s : State) : State := if routesNow s q then routeNow q (kLocal q s) else kLocal q s

/-- A request that may write 2011h:01h. -/
def kTop (q : KReq) (s0 : State) : State :=
  let s := takeDone q.from_.port s0
  if kServes s && decide (q.from_.hop.toNat < 8) && ownSnn s q.from_.dst.toNat && routesNow s q then routeNow q (kRequest q s) else kRequest q s

/-! ### The host mailbox (R431) -/

/-- The bytes of KS_HP_REQ. -/
def mailboxBytes (s : State) : List Byte :=
  (List.range 0x810).flatMap fun k =>
    let w := regGet s (0xF49400 + k)
    [BitVec.ofNat 8 (fld w 15 8), BitVec.ofNat 8 (fld w 7 0)]

/-- GO: the DMSG in the request half is sent; its source SNN is KS_SRC_HP. A response in it answers a request that was forwarded to the host. -/
def kioskGo (s : State) : State :=
  let b := mailboxBytes s
  let m := parseMsg .hp b
  let q := { m.2 with from_ := { m.2.from_ with src := BitVec.ofNat 18 (fldOf s 0xF48006 17 0) } }
  if m.1 = 1 ∨ m.1 = 2 then kTop q s
  else if m.1 = 3 ∨ m.1 = 4 ∨ m.1 = 5 then responseFor m.2.from_.dst m.2.from_.reqid (fun p => p == .hp) (parseResp b) s
  else s

/-! ### The firmware queue (R433) -/

/-- A request that waited for firmware is served: had, its SNN's request before it was the key. -/
def serveQueued (q : KReq) (had : Bool) (s : State) : State :=
  match kLookup s q.index.toNat q.sub.toNat with
  | .found e =>
    match serveEntry had q e q.index.toNat q.sub.toNat s with
    | (some r, s1) => (if isRouted q then routeNow q else id) (kFinish q r s1)
    | (none, s1) => s1
  | _ => s

/-- C0 takes what waits in the queue, and then the host's request that kept GO set (R433). -/
def drainFirmware (s : State) : State :=
  if !firmwareRuns s then s
  else
    let s1 := forEach s.ks.fwq (fun x s => serveQueued x.1 x.2 s) (setKs { s.ks with fwq := [] } s)
    if s1.ks.hpBusy && decide (s1.ks.fwq.length < 16) then kioskGo (setKs { s1.ks with hpBusy := false } s1) else s1

/-! ### The pair lane (R221, R282, R430, R438) -/

/-- What relayed traffic brings. -/
def laneTraffic (m : LaneMsg) (s : State) : State :=
  if !kServes s then s
  else
    match m with
    | .request q => kTop { q with from_ := { q.from_ with port := .pair } } s
    | .response src reqid r => responseFor src reqid (fun p => match p with
        | .pair => true
        | .link _ => true
        | _ => false) r s
    | .toNode n q => if s.lk.st = .lead then sendOn (.link n) 0 { q with from_ := { q.from_ with port := .pair, hop := q.from_.hop - 1 } } s else s
    | .logWrite q => partnerLogs q s
    | .logDone src reqid ok => partnerLogged src reqid ok s
    | .complete q => partnerJob q s
    | .completed src reqid ok => partnerCompleted src reqid ok s

end Sys2Proof.Machine
end

