-- ==== Sys2Proof/Machine/Boundary.lean ====
section
/-! DEFINITION. The servo-period boundary and the common instant: everything that comes about at T0 and at CI, in its order (19 R475, R510; 07 R197; 95). -/

namespace Sys2Proof.Machine

/-! ### The servo-period boundary (R510) -/

/-- Boundaries fall in every state but POWER-UP and BOOT, and not while a reset is held (R510). -/
def hasBoundaries (s : State) : Bool := s.sys.op != .powerUp && s.sys.op != .boot && !s.sys.rstHeld

/-- The unit applies the record that it received in the cycle: a standby, and one that has just taken the role over (R234, R251). -/
def applyRecord (s : State) : State :=
  forEach s.pr.bndIn (fun e s => match e with
    | .write a v => performWrite (fun s => s) .mirror a v s
    | _ => bndAction e s) s

/-- The outputs in the record closed in this cycle: masks of groups in STO and in SS1. -/
def closedOutputs (s : State) : Option (Nat × Nat) :=
  s.pr.bndClosed.findSome? fun e => match e with
    | .outputs sto ss1 _ => some (sto, ss1)
    | _ => none

/-- What Gatehouse decided of group g may take effect: in the unit that closed the record, where the record shows it (R232, R234). -/
def groupShown (want : Nat × Nat → Bool) (s : State) : Bool := !gatedNow s || (closedOutputs s).any want

/-- Entry into DEGRADED that Gatehouse decided takes effect; in the unit that closed a record with the record that carries it (R234, R276). -/
def degradeNow (s : State) : State :=
  if s.gh.degPend && (!gatedNow s || s.pr.bndClosed.contains .degraded) then enterDegraded s else s

/-- The level falls after the record of the cycle was closed: it falls with the next record, in both units (R234, R297, R298). -/
def levelLate (s : State) : Bool :=
  gatedNow s && decide (nextMeas s < 4) && !s.pr.bndClosed.contains (.level (min 3 (nextMeas s)))

/-- What a level brings that was not yet in force: LANDING and STOP normal at L3, the halt of C1 to C7 at L4 (R301, R302, R334). -/
def levelTaken (old : Nat) (s : State) : State :=
  let e := effLevel s
  let s1 := whenB (decide (old < 3) && decide (3 ≤ e) && levelActs s) landAll s
  whenB (decide (old < 4) && decide (4 ≤ e)) (fun s => forEach [1, 2, 3, 4, 5, 6, 7] haltCore s) s1

/-- Profiles of groups whose SS1 was decided receive their stop (R262). -/
def safeStops (s : State) : State :=
  forEach (List.finRange 4) (fun g s =>
    let x := s.gh.grp[g]
    if x.stopNew && groupShown (fun o => o.2.testBit g.val) s then safetyStops g (setGroup g { x with stopNew := false } s) else s) s

/-- Groups that are ready are energised; an ACK that a new cause came before is dropped (R264). -/
def releaseGroups (s : State) : State :=
  upTo 4 (fun g s =>
    let s1 := ackDropped (Fin.ofNat 4 g) s
    whenB (groupShown (fun o => !o.1.testBit g && !o.2.testBit g) s1) (releaseGroup (Fin.ofNat 4 g)) s1) s

/-- Groups whose causes have gone are energised, which starts a first use of their objects (R147, R264). A standby's follow the active's record. -/
def energiseGroups (before s : State) : State :=
  forEach (List.finRange 4) (fun g s => if before.gh.grp[g].cond = .sto ∧ s.gh.grp[g].cond = .energised then firstUseGroup g s else s) s

/-- The profiles issue the set-points of the period that begins (R90). -/
def motionPeriod (s : State) : State :=
  if engineRuns s then afterStill (setTreatments (standstillChecks (stepProfiles (applyCaps s)))) else s

/-- The length of the period that begins: the mains lock in the unit that leads the link, else the period in force (R57). -/
def nextPeriod (s : State) : State :=
  if s.lk.st = .lead then
    let s1 := mainsLockAt s.now s
    showPeriod { s1 with mains := { s1.mains with rem := (nextPeriodCy s1).2 } }
  else s

/-- JOIN_ENTRY at the boundary after an accepted request: mode and schedule are fixed and the link listens (R202, R475). -/
def joinEntry (s0 : State) : State :=
  if s0.sys.joinReq && s0.sys.op == .config then
    let s := leaveConfig (deriveSchedule s0)
    engineConfigured (showRole { s with sys := { s.sys with op := .join, joinReq := false }, lk := { s.lk with st := .listen, left := 4 } })
  else s0

/-- What was kept for one period only is forgotten. -/
def forgetSent (s : State) : State :=
  { s with lk := { s.lk with sent := [] }, can := s.can.map (fun c => { c with sent := [] }), ks := { s.ks with outMsg := [] } }

/-- The period that ended: a batch still running, Belvedere's sample, what the active sends or the standby loads to align it, the group sequence, the record of the cycle, and the level (R120, R163, R202, R234, R242, R298). -/
def boundaryPast (s : State) : State :=
  let s1 := adoptSend (bvSampleAll (lateBatch (forgetSent s)))
  let s2 := applyRecord (gwCycle (forEach s1.pr.adopt loadAdopt s1))
  let s3 := if s2.pr.failPend then goSilent s2 else s2
  if levelLate s3 then s3 else levelBoundary s3

/-- What waited for the boundary takes effect. -/
def boundaryTaken (old : State) (s : State) : State :=
  let s1 := degradeNow (selectOverlays (acceptWrites s))
  let s2 := energiseGroups old (releaseGroups s1)
  let s3 := forEach (List.finRange 2) genBoundary s2
  let s4 := whenB (engineRuns s3) followFaults { s3 with mo := { s3.mo with stopped := [] } }
  safeStops (levelTaken old.ph.eff (runCommands old s4))

/-- The period that begins: energy, motion, the engine and Belvedere. -/
def boundaryNext (s : State) : State := bvEndAll (enginePeriod (motionPeriod (holdBank (setDuty (motoringScale s)))))

/-- The link and the pair pass to the cycle that begins, and send what T0 sends. -/
def cycleBegins (s : State) : State :=
  let s1 := nextPeriod (tidyAxes (linkPeriod (pairPeriod s)))
  runExchange (sendState (startCycle { s1 with lk := { s1.lk with t0 := s1.now } }))

/-- SERVO_PERIOD_BOUNDARY at time t. -/
def boundary (s : State) : State :=
  if !hasBoundaries s then s
  else
    let s1 := cycleBegins (boundaryNext (boundaryTaken s (boundaryPast s)))
    let s2 := joinEntry (updateBrakes s1)
    raiseEvent 0 (drainFirmware { s2 with sys := { s2.sys with tBoundary := s2.now } })

def execServoPeriodBoundary (t : Nat) (s : State) : Host.Outcome State Fault Refusal := .next (boundary (advance t s))

/-! ### The common instant (R197) -/

/-- A feedback channel at CI: its count with the fractions of Sundial and of following, its flags, the edges its velocity rests on, and the direction that a set-point gives it (R67, R101, R137, R138, R230). An axis without a profile has no set-point velocity, and leaves the direction as it was (DESIGN CHOICE, log entry 72). -/
def latchFb (n : Fin 16) (s : State) : State :=
  let x := s.fb[n]
  let v := (profOf s (fldOf s (fbAddr n.val) 7 0)).v
  let dir := if fbDirSrc s n.val = 1 ∧ v ≠ 0 then decide (v < 0) else x.axDir
  let y := { x with ciRep := x.rep, ciFrac := fbFrac s n s.now, ciFol := fbFracFollow s n s.now, ciPair := x.tPair }
  let flt := bitOf s (fbStat n.val) 18 || x.fltEv
  ckFeed false 2 n.val x.rep (setFb n { y with axDir := dir, ciFlt := flt, fltEv := false, ciPer := x.per.isSome, ciSeat := fbSeated s n.val } s)

/-- Axis set-points reach the timebases that follow them (R33, R43). -/
def sampleSetPoints (s : State) : State :=
  forEach (((List.finRange 16).filter fun t => tbKind s t.val == 3).map fun t => tbSrc s t.val).eraseDups
    (fun a s => sdSample 3 a (spNow s a * 4096) s.lk.ci s) s

/-- At CI the head latches its inputs, following profiles take their reference, Pumphouse evaluates its level, CHOP begins its duty, a diagnosis starts, and the active sends INC. -/
def commonInstant (s0 : State) : State :=
  if !hasBoundaries s0 then s0
  else
    let s := forEach (List.finRange 16) latchFb { s0 with lk := { s0.lk with ci := s0.now, ciSys := sysTime s0 } }
    let s1 := whenB (engineRuns s && !isStandby s) followAll s
    let s2 := chopStart (phCommonInstant (sampleSetPoints s1))
    raiseEvent 1 (sendInc (startDiag s2))

def execCommonInstant (t : Nat) (s : State) : Host.Outcome State Fault Refusal := .next (commonInstant (advance t s))

end Sys2Proof.Machine
end

