-- ==== Sys2Proof/Machine/Flags.lean ====
section
/-! DEFINITION. Results and flags of the A-slot operations: the ALU, the shifts, the accumulator group, normalise and exponent (12 R343-R349, R352). -/

namespace Sys2Proof.Machine

/-- What an ALU operation answers: a result, and each flag it writes. -/
structure AluOut where
  res : Option Word := none
  n : Option Bool := none
  z : Option Bool := none
  v : Option Bool := none
  c : Option Bool := none
  deriving DecidableEq, Repr

def isNeg (w : Word) : Bool := bit w 19
def isZero (w : Word) : Bool := w == 0

/-- N and Z from a result that is kept or only compared. -/
def aluNZ (keep : Bool) (w : Word) (v c : Option Bool) : AluOut :=
  { res := if keep then some w else none, n := some (isNeg w), z := some (isZero w), v := v, c := c }

/-- Dd + Ds + cin: overflow and carry out of bit 19 (R343, R344). -/
def aluAdd (keep : Bool) (a b : Word) (cin : Bool) : AluOut :=
  let w := a + b + word cin.toNat
  aluNZ keep w (some (w.toInt != a.toInt + b.toInt + (cin.toNat : Int))) (some (2 ^ 20 ≤ a.toNat + b.toNat + cin.toNat))

/-- Dd + (not Ds) + cin: C = 1 means no borrow (R344). -/
def aluSub (keep : Bool) (a b : Word) (cin : Bool) : AluOut :=
  let w := a + ~~~b + word cin.toNat
  aluNZ keep w (some (w.toInt != a.toInt - b.toInt - (1 - (cin.toNat : Int))))
    (some (2 ^ 20 ≤ a.toNat + (~~~b).toNat + cin.toNat))

/-- The bitwise operations: V = 0, C unchanged. -/
def aluLogic (keep : Bool) (w : Word) : AluOut := aluNZ keep w (some false) none

/-- A saturated sum or difference: V = 1 if saturated (ADDS, SUBS). -/
def aluSat (x : Int) : AluOut := aluNZ true (wordI (satI 20 x)) (some (satI 20 x != x)) none

def aluMin (a b : Word) : AluOut := aluNZ true (if a.toInt ≤ b.toInt then a else b) none none
def aluMax (a b : Word) : AluOut := aluNZ true (if a.toInt ≤ b.toInt then b else a) none none

/-- 0 - Dd: 80000h stays and sets V. -/
def aluNeg (a : Word) : AluOut :=
  aluNZ true (0 - a) (some (a == 0x80000)) (some (a == 0))

def aluAbs (a : Word) : AluOut := aluNZ true (if isNeg a then 0 - a else a) (some (a == 0x80000)) none

/-- Arithmetic shift left by n (R343, R345): V when the value does not survive, C the last bit out. -/
def aluAsl (a : Word) (n : Nat) : AluOut :=
  let w := word (a.toNat * 2 ^ n)
  aluNZ true w (some (w.toInt != a.toInt * 2 ^ n))
    (if n = 0 then none else if 20 ≤ n then some false else some (bit a (20 - n)))

/-- Arithmetic shift right by n, truncating; 20 or more leaves copies of the sign. -/
def aluAsr (a : Word) (n : Nat) : AluOut :=
  aluNZ true (wordI (asr a.toInt n)) (some false)
    (if n = 0 then none else if 20 ≤ n then some (isNeg a) else some (bit a (n - 1)))

/-- Logical shift right by n. -/
def aluLsr (a : Word) (n : Nat) : AluOut :=
  aluNZ true (word (a.toNat / 2 ^ n)) (some false)
    (if n = 0 then none else if 20 ≤ n then some false else some (bit a (n - 1)))

/-- Z from bit b; nothing else. -/
def aluBtst (a : Word) (b : Nat) : AluOut := { z := some (!bit a b) }

/-- The number of bits after the sign bit of an n-bit number that equal it (R348), found from the top; at most k looked at. -/
def redundantAux (v : Nat) (sign : Bool) : Nat → Nat
  | 0 => 0
  | k + 1 => if (v / 2 ^ k % 2 == 1) == sign then 1 + redundantAux v sign k else 0

def redundant (n v : Nat) : Nat := redundantAux v (v / 2 ^ (n - 1) % 2 == 1) (n - 1)

/-- A 48-bit accumulator from an integer, saturated (R347). -/
def accSat (x : Int) : Acc := BitVec.ofInt 48 (satI 48 x)

/-- AVk: the accumulator lies outside -1.0 to +1.0 - 2^-39 (R313). -/
def accAv (a : Acc) : Bool := decide (a.toInt < -(2 ^ 39)) || decide (2 ^ 39 ≤ a.toInt)

/-- The product placed in the accumulator (R346). -/
def macProduct (mode : MacMode) (a b : Word) : Int :=
  match mode with
  | .frac => a.toInt * b.toInt * 2
  | .int => a.toInt * b.toInt
  | .uint => (a.toNat : Int) * b.toNat

/-- Arithmetic shift of an accumulator by a signed count: left saturates, right truncates. -/
def accShift (a : Acc) (n : Int) : Acc :=
  if 0 ≤ n then accSat (a.toInt * 2 ^ n.toNat) else accSat (asr a.toInt (-n).toNat)

/-- c - 8 over the 48 bits of an accumulator (R348). -/
def accExp (a : Acc) : Int := (redundant 48 a.toNat : Int) - 8

/-- RNDA: the rounded value with bits 19:0 cleared, saturated. -/
def accRound (a : Acc) : Acc := accSat ((a.toInt + 2 ^ 19) / 2 ^ 20 * 2 ^ 20)

/-- MOVF: shift, round or truncate, saturate or wrap, take bits 39:20 (R352). -/
def accMovf (a : Acc) (sh : BitVec 5) (rnd sat : Bool) : Word :=
  let x := if 0 ≤ sh.toInt then a.toInt * 2 ^ sh.toInt.toNat else asr a.toInt (-sh.toInt).toNat
  let y := (if rnd then x else x + 2 ^ 19) / 2 ^ 20
  wordI (if sat then clampI (-(2 ^ 19)) (2 ^ 19 - 1) y else y)

/-- Whether a branch condition holds on a status word (R358). -/
def condHolds (c : Cond) (st : Word) : Bool :=
  let n := bit st 19
  let z := bit st 18
  let v := bit st 17
  let cy := bit st 16
  match c with
  | .t => true | .eq => z | .ne => !z | .mi => n | .pl => !n | .vs => v | .vc => !v | .cs => cy | .cc => !cy
  | .ge => n == v | .lt => n != v | .gt => !z && n == v | .le => z || n != v
  | .av0 => bit st 15 | .av1 => bit st 14

/-- Writes one flag where the operation writes it. -/
def putFlag (b : Nat) (f : Option Bool) (st : Word) : Word :=
  match f with
  | none => st
  | some x => setBit st b x

/-- The status word after an operation: N, Z, V, C as written, and SV whenever V becomes 1 (R344). -/
def stFlags (o : AluOut) (st : Word) : Word :=
  let st1 := putFlag 16 o.c (putFlag 17 o.v (putFlag 18 o.z (putFlag 19 o.n st)))
  if o.v == some true then setBit st1 13 true else st1

end Sys2Proof.Machine
end

