-- ==== Sys2Proof/Machine/Operands.lean ====
section
/-! DEFINITION. Operand forms of the control cores: register codes, conversions between widths, and Trellis addressing (12 R339, R340, R350-R357; 11 R310, R313). -/

namespace Sys2Proof.Machine

def setD (d : DReg) (w : Word) (r : CoreRegs) : CoreRegs := { r with d := r.d.set d w }
def setA (k : Unit8) (w : Addr) (r : CoreRegs) : CoreRegs := { r with a := r.a.set k w }
def setAc (k : AcId) (w : Acc) (r : CoreRegs) : CoreRegs := { r with ac := r.ac.set k w }
def setSt (w : Word) (r : CoreRegs) : CoreRegs := { r with st := w }

/-- The number of active repeat levels. -/
def stDepth (st : Word) : Nat := fld st 4 3

/-- A move into ST writes the RW fields; a 0 written to SV or CIRC_OUT clears it (R313). -/
def stMove (old w : Word) : Word :=
  let keep := setFld (setFld (setFld (setFld old 19 16 (fld w 19 16)) 11 11 (fld w 11 11)) 7 5 (fld w 7 5)) 2 1 (fld w 2 1)
  setBit (setBit keep 13 (bit old 13 && bit w 13)) 12 (bit old 12 && bit w 12)

/-- The 20-bit part ACkG, ACkH or ACkL as a read returns it (R339, R340). -/
def accPart (a : Acc) (part : Nat) : Word :=
  if part = 0 then wordI (sext 8 (a.toNat / 2 ^ 40)) else if part = 1 then word (a.toNat / 2 ^ 20) else word a.toNat

/-- A write to ACkG, ACkH or ACkL (R340). -/
def accPutPart (a : Acc) (part v : Nat) : Acc :=
  if part = 0 then BitVec.ofNat 48 (v % 256 * 2 ^ 40 + a.toNat % 2 ^ 40)
  else if part = 1 then BitVec.ofInt 48 (sext 20 v * 2 ^ 20)
  else BitVec.ofNat 48 (a.toNat / 2 ^ 20 * 2 ^ 20 + v % 2 ^ 20)

/-- The value of a register code, and whether it is 24 bits wide (R339). -/
def readCode (r : CoreRegs) (code : Nat) : Nat × Bool :=
  if code < 16 then (r.d[Fin.ofNat 16 code].toNat, false)
  else if code < 24 then (r.a[Fin.ofNat 8 (code - 16)].toNat, true)
  else if code < 32 then (r.m[Fin.ofNat 8 (code - 24)].toNat, true)
  else if code < 40 then (r.b[Fin.ofNat 8 (code - 32)].toNat, true)
  else if code < 48 then (r.l[Fin.ofNat 8 (code - 40)].toNat, true)
  else if code < 54 then ((accPart r.ac[Fin.ofNat 2 ((code - 48) / 3)] ((code - 48) % 3)).toNat, false)
  else if code < 57 then (r.lpc[Fin.ofNat 3 (code - 54)].toNat, false)
  else if code < 60 then (r.lps[Fin.ofNat 3 (code - 57)].toNat, false)
  else if code < 63 then (r.lpe[Fin.ofNat 3 (code - 60)].toNat, false)
  else (r.st.toNat, false)

/-- A write to a register code of a value from a 20-bit or a 24-bit source (R340). -/
def writeCode (code v : Nat) (wide : Bool) (r : CoreRegs) : CoreRegs :=
  let v20 := v % 2 ^ 20
  let v24 : Addr := BitVec.ofNat 24 (if wide then v else v20)
  if code < 16 then setD (Fin.ofNat 16 code) (word v) r
  else if code < 24 then setA (Fin.ofNat 8 (code - 16)) v24 r
  else if code < 32 then
    { r with m := r.m.set (Fin.ofNat 8 (code - 24)) (if wide then v24 else BitVec.ofInt 24 (sext 20 v)) }
  else if code < 40 then { r with b := r.b.set (Fin.ofNat 8 (code - 32)) v24 }
  else if code < 48 then { r with l := r.l.set (Fin.ofNat 8 (code - 40)) v24 }
  else if code < 54 then
    let k : Fin 2 := Fin.ofNat 2 ((code - 48) / 3)
    setAc k (accPutPart r.ac[k] ((code - 48) % 3) v20) r
  else if code < 57 then { r with lpc := r.lpc.set (Fin.ofNat 3 (code - 54)) (word v) }
  else if code < 60 then { r with lps := r.lps.set (Fin.ofNat 3 (code - 57)) (BitVec.ofNat 17 v) }
  else if code < 63 then { r with lpe := r.lpe.set (Fin.ofNat 3 (code - 60)) (BitVec.ofNat 17 v) }
  else setSt (stMove r.st (word v)) r

/-- A load written to its register. -/
def landLoad (r : CoreRegs) (l : Load) : CoreRegs := writeCode l.code l.value l.wide r

/-! ### Trellis addressing -/

/-- An address register as address generation sees it: the value before a move of the instruction before (R318). -/
def agView (old : List (Nat × Addr)) (code : Nat) (now : Addr) : Addr :=
  match old with
  | [] => now
  | (c, v) :: es => if c = code then v else agView es code now

/-- The four registers of unit k as address generation sees them. -/
structure AgUnit where
  a : Addr
  m : Addr
  b : Addr
  l : Addr
  deriving DecidableEq, Repr

def agUnit (r : CoreRegs) (old : List (Nat × Addr)) (k : Unit8) : AgUnit :=
  { a := agView old (16 + k.val) r.a[k], m := agView old (24 + k.val) r.m[k],
    b := agView old (32 + k.val) r.b[k], l := agView old (40 + k.val) r.l[k] }

/-- Linear or circular post-modify by s: the new address, and whether the pointer was left outside its window (R355). -/
def agStep (u : AgUnit) (s : Int) : Addr × Bool :=
  if u.l = 0 then (BitVec.ofInt 24 (u.a.toNat + s), false)
  else
    let b : Int := u.b.toNat
    let l : Int := u.l.toNat
    let n : Int := u.a.toNat + s
    let n' := if b + l ≤ n then n - l else if n < b then n + l else n
    (BitVec.ofInt 24 n', decide (n' < b) || decide (b + l ≤ n'))

/-- The post-modify of a modify code (R354, R357). -/
def agModify (u : AgUnit) (mod : Modify) : Addr × Bool :=
  match mod with
  | .keep => (u.a, false)
  | .plus => agStep u u.m.toInt
  | .minus => agStep u (-u.m.toInt)
  | .rev => (BitVec.ofNat 24 (revBits 24 ((revBits 24 u.a.toNat + revBits 24 u.m.toNat) % 2 ^ 24)), false)

/-- What refuses a data access: the fault code of R310, none where the access is allowed. -/
def addrFault (a : Addr) (write paired : Bool) : Option Nat :=
  let n := a.toNat
  if paired && n % 2 == 1 then some 1
  else if n < 0x20000 then none
  else if n < 0x100000 then some 2
  else if n < 0x200000 then none
  else if n < 0x280000 then (if write then some 3 else none)
  else if n < 0xF00000 then some 2
  else none

/-- The register codes a paired access may name: an even D register, AC0H or AC1H (R353). -/
def pairCode (r : RCode) : Bool := (r.val < 16 && r.val % 2 == 0) || r.val == 49 || r.val == 52

/-- The second register of a paired access: Dn+1, or ACkL. -/
def pairSecond (r : RCode) : Nat := r.val + 1

end Sys2Proof.Machine
end

