-- ==== Sys2Proof/Machine/RegAccess.lean ====
section
/-! DEFINITION. The register accesses of cores and host port, host-port frames, GPIO edges, and the commands that write one register (17 R441-R456). -/

namespace Sys2Proof.Machine

/-- A write of one word (R441-R451). -/
def regWrite (who : Requester) (a : Nat) (v : Word) (s : State) : State := regWriteWith kioskGo who a v s

/-- A paired write (R443). -/
def regWritePair (who : Requester) (a : Nat) (hi lo : Word) (s : State) : State := regWritePairWith kioskGo who a hi lo s

/-- REGISTER_WRITE: a field without a command of its own, or any register at all. -/
def execRegisterWrite (who : Requester) (a : Addr) (v : Word) (s : State) : Host.Outcome State Fault Refusal :=
  .next (if 0xF00000 ≤ a.toNat then regWrite who a.toNat v s else s)

def execScUnlock (who : Requester) (v : Word) (s : State) : Host.Outcome State Fault Refusal := .next (regWrite who 0xF50000 v s)

def execSlowDomainTransfer (s : State) : Host.Outcome State Fault Refusal := .next (slowTransferWith kioskGo s)

/-- W0_WRITE (R48). -/
def execW0Write (who : Requester) (e : Fin 2048) (v : Word) (s : State) : Host.Outcome State Fault Refusal :=
  .next (regWrite who (0xF01000 + e.val) v s)

/-- SNAP: PC_FREEZE.SNAP is written 1, its other fields as they stand (R390). -/
def execSnap (who : Requester) (s : State) : Host.Outcome State Fault Refusal :=
  .next (regWrite who 0xF4C300 (setBit (regGet s 0xF4C300) 18 true) s)

/-- COUNTER_LOAD: the LO word of counter k (R394). -/
def execCounterLoad (who : Requester) (k : Fin 112) (lo : Word) (s : State) : Host.Outcome State Fault Refusal :=
  .next (regWrite who (pcHiAddr k.val + 1) lo s)

/-- BIQUAD_COMMIT: A2 of biquad n of the axes' windows (R159). -/
def execBiquadCommit (who : Requester) (n : Fin 1024) (v : Word) (s : State) : Host.Outcome State Fault Refusal :=
  .next (regWrite who (svBase (n.val / 4) + 0x60 + 8 * (n.val % 4) + 4) v s)

/-- BLEND_TABLE_COMMIT: W[63] of a table (R125). -/
def execBlendTableCommit (who : Requester) (n : Fin 192) (v : Word) (s : State) : Host.Outcome State Fault Refusal :=
  .next (regWrite who (0xF0C000 + 64 * n.val + 63) v s)

/-! ### The host port (R444, R454) -/

/-- The host port's address space. -/
inductive HpPlace where
  | periph
  | shared
  | window
  | outside
  deriving DecidableEq, Repr

def hpPlace (a : Nat) : HpPlace :=
  if 0xF00000 ≤ a ∧ a < 0x1000000 then .periph
  else if 0x100000 ≤ a ∧ a < 0x200000 then .shared
  else if 0x200000 ≤ a ∧ a < 0x280000 then .window
  else .outside

def addrErr (s : State) : State := putBit 0xF58000 18 true s

/-- A word read; HP_STAT shows the open frame. -/
def hpRead (a : Nat) (s : State) : Word × State :=
  match hpPlace a with
  | .periph =>
    let r := regRead .host a s
    (if a = 0xF58000 then setBit r.1 17 true else r.1, r.2)
  | .shared => (sharedGet s (a - 0x100000), pcSys 0x5B 1 s)
  | .window => (bvRecGet s (a - 0x200000), s)
  | .outside => (0, addrErr s)

def hpReadPair (a : Nat) (s : State) : List Word × State :=
  if hpPlace a = .periph then
    let r := regReadPair .host a s
    ([r.1.1, r.1.2], r.2)
  else
    let x := hpRead a s
    let y := hpRead (a + 1) x.2
    ([x.1, y.1], y.2)

def hpWrite (a : Nat) (v : Word) (s : State) : State :=
  match hpPlace a with
  | .periph => regWrite .host a v s
  | .shared => pcSys 0x5B 1 (sharedSet (a - 0x100000) v s)
  | .window => addrErr s
  | .outside => addrErr s

def hpWritePair (a : Nat) (hi lo : Word) (s : State) : State :=
  if hpPlace a = .periph then regWritePair .host a hi lo s else hpWrite (a + 1) lo (hpWrite a hi s)

/-- n words read from an address on. -/
def hpReads (pair : Bool) : Nat → Nat → State → List Word × State
  | 0, _, s => ([], s)
  | n + 1, a, s =>
    let r := if pair then hpReadPair a s else let x := hpRead a s; ([x.1], x.2)
    let t := hpReads pair n ((a + if pair then 2 else 1) % 2 ^ 24) r.2
    (r.1 ++ t.1, t.2)

/-- The words of a frame's data bytes: three to a word, bits 23:20 ignored. -/
def hpWords : List Byte → List Word
  | a :: b :: c :: r => word (a.toNat * 65536 + b.toNat * 256 + c.toNat) :: hpWords r
  | _ => []

/-- Words, or pairs of words, written from an address on. -/
def hpWrites (pair : Bool) : List Word → Nat → State → State
  | [], _, s => s
  | [w], a, s => if pair then s else hpWrite a w s
  | w :: x :: r, a, s =>
    if pair then hpWrites pair r ((a + 2) % 2 ^ 24) (hpWritePair a w x s)
    else hpWrites pair r ((a + 2) % 2 ^ 24) (hpWrite ((a + 1) % 2 ^ 24) x (hpWrite a w s))

/-- The accesses of a frame with its header: true in the answer where the frame is malformed. -/
def hpAccess (cmd a : Nat) (data : List Byte) (s : State) : Bool × State :=
  let pair := cmd / 32 % 2 == 1
  let unit := if pair then 6 else 3
  if (cmd / 64 ≠ 1 ∧ cmd / 64 ≠ 2) ∨ cmd % 32 ≠ 0 then (true, s)
  else if pair ∧ a % 2 = 1 then (true, addrErr s)
  else if cmd / 64 = 1 then
    let n := data.length / unit
    let r := hpReads pair (n + 1) a s
    (decide (data.length % unit ≠ 0), { r.2 with sys := { r.2.sys with rdata := r.1.take (if pair then 2 * n else n) } })
  else (decide (data.length % unit ≠ 0), hpWrites pair (hpWords data) a s)

/-- A frame reaches outside the host port's places, or writes the Belvedere window, or is a paired one at an odd address. -/
def hpOutside (cmd a : Nat) (data : List Byte) : Bool :=
  let pair := cmd / 32 % 2 == 1
  let unit := if pair then 6 else 3
  if (cmd / 64 ≠ 1 ∧ cmd / 64 ≠ 2) ∨ cmd % 32 ≠ 0 then false
  else if pair ∧ a % 2 = 1 then true
  else
    let n := data.length / unit + if cmd / 64 = 1 then 1 else 0
    (List.range (n * if pair then 2 else 1)).any fun i =>
      let p := hpPlace ((a + i) % 2 ^ 24)
      p == .outside || (p == .window && cmd / 64 == 2)

/-- HOST_PORT_FRAME: the bytes of one frame; of a read, those clocked out stand for their number. -/
def hostFrame (f : List Byte) (s : State) : State :=
  if !regReach s then s
  else
    match f with
    | c :: a2 :: a1 :: a0 :: data =>
      let a := a2.toNat * 65536 + a1.toNat * 256 + a0.toNat
      let r := hpAccess c.toNat a data s
      let s1 := if r.1 then putBit 0xF58000 19 true r.2 else count 0xF58001 r.2
      whenB (r.1 || hpOutside c.toNat a data) (count 0xF58002) s1
    | _ => count 0xF58002 (putBit 0xF58000 19 true s)

def execHostPortFrame (frame : List Byte) (s : State) : Host.Outcome State Fault Refusal := .next (hostFrame frame s)

/-! ### GPIO (R456) -/

/-- GPIO_EDGE: the level put on a pin from outside; on a pin that the part drives it has no effect while it is driven. -/
def gpioEdge (pin : Nat) (level : Bool) (s : State) : State :=
  if s.sys.gpio.getLsbD pin = level then s
  else
    let g := if level then s.sys.gpio ||| (1#32 <<< pin) else s.sys.gpio &&& ~~~(1#32 <<< pin)
    let s1 := { s with sys := { s.sys with gpio := g } }
    if gpioDriven s pin then s1 else gpioSeen pin level s1

def execGpioEdge (pin : Fin 32) (level : Bool) (s : State) : Host.Outcome State Fault Refusal := .next (gpioEdge pin.val level s)

end Sys2Proof.Machine
end

