-- ==== Sys2Proof/Machine/CoreRun.lean ====
section
/-! DEFINITION. How a control core executes one program word: data accesses, hazards, delay slots, repeats, faults, task entry and return (11 R309-R336, 12 R341, R350-R362). A command of this family is a program word that the core meets at its program counter (DESIGN CHOICE, log entry 10). -/

namespace Sys2Proof.Machine

def scBase (n : Nat) : Nat := 0xF50200 + 16 * n

/-! ### Data accesses -/

/-- Writes one store-buffer entry to shared memory or to peripheral registers (R316, R443). -/
def storeOut (c : CoreId) (e : BufStore) (s : State) : State :=
  if e.addr < 0x200000 then
    match e.second with
    | none => pcSys 0x5B 1 (sharedSet (e.addr - 0x100000) e.value s)
    | some lo => pcSys 0x5B 2 (sharedSet (e.addr + 1 - 0x100000) lo (sharedSet (e.addr - 0x100000) e.value s))
  else
    match e.second with
    | none => regWrite (.core c) e.addr e.value s
    | some lo => regWritePair (.core c) e.addr e.value lo s

/-- Drains the oldest entry of a core's store buffer. -/
def drainOne (c : CoreId) (s : State) : State :=
  match s.cores[c].storeBuf with
  | [] => s
  | e :: es => storeOut c e (setCore c { s.cores[c] with storeBuf := es } s)

/-- Drains the whole store buffer, at most 4 entries. -/
def drainAll (c : CoreId) (s : State) : State := drainOne c (drainOne c (drainOne c (drainOne c s)))

/-- Whether an address is a post register, at which a store waits for the buffer ahead of it (R379). -/
def isPostReg (a : Nat) : Bool := 0xF3C900 ≤ a && a < 0xF3C980 && (a % 16 == 1 || a % 16 == 5)

/-- A store to shared memory or to a peripheral: into the buffer, whose oldest entry frees a place when it is full. -/
def bufferStore (c : CoreId) (e : BufStore) (s : State) : State :=
  if isPostReg e.addr then storeOut c e (drainAll c s)
  else
    let s1 := if 4 ≤ s.cores[c].storeBuf.length then drainOne c s else s
    setCore c { s1.cores[c] with storeBuf := s1.cores[c].storeBuf ++ [e] } s1

/-- A store of one word. -/
def storeWord (c : CoreId) (a : Addr) (v : Word) (s : State) : State :=
  if a.toNat < 0x20000 then xySet c.val a.toNat v s else bufferStore c ⟨a.toNat, v, none⟩ s

/-- A paired store: the word at the even address is the high word (R353). -/
def storePair (c : CoreId) (a : Addr) (hi lo : Word) (s : State) : State :=
  if a.toNat < 0x20000 then xySet c.val (a.toNat + 1) lo (xySet c.val a.toNat hi s) else bufferStore c ⟨a.toNat, hi, some lo⟩ s

/-- A load of one word: the value, and whether the source is remote. A remote load waits until the store buffer is empty (R316). -/
def loadWord (c : CoreId) (a : Addr) (s : State) : (Word × Bool) × State :=
  let n := a.toNat
  if n < 0x20000 then ((xyGet s c.val n, false), s)
  else
    let s1 := drainAll c s
    if n < 0x200000 then ((sharedGet s1 (n - 0x100000), true), pcSys 0x5B 1 s1)
    else if n < 0x280000 then ((bvRecGet s1 (n - 0x200000), true), s1)
    else
      let (w, s2) := regRead (.core c) n s1
      ((w, true), s2)

/-- A paired load. -/
def loadPair (c : CoreId) (a : Addr) (s : State) : ((Word × Word) × Bool) × State :=
  if a.toNat < 0xF00000 then
    let ((hi, rem), s1) := loadWord c a s
    let ((lo, _), s2) := loadWord c (a + 1) s1
    (((hi, lo), rem), s2)
  else
    let (p, s1) := regReadPair (.core c) a.toNat (drainAll c s)
    ((p, true), s1)

/-! ### Faults, halt and entry -/

/-- The twelve words of an event frame (R326). -/
def frameWords (r : CoreRegs) (ret : BitVec 17) (fault : Bool) (desc : Nat) : List Word :=
  let lvl (k : Fin 3) : List Word := [r.lpc[k], word r.lps[k].toNat, word r.lpe[k].toNat]
  word (stPri r.st * 2 ^ 17 + fault.toNat * 2 ^ 16 + desc) :: (lvl 0 ++ lvl 1 ++ lvl 2 ++ [word ret.toNat, r.st])

/-- Writes a frame at a Y-bank offset. -/
def putFrame (c : CoreId) (off : Nat) : List Word → State → State
  | [], s => s
  | w :: ws, s => putFrame c (off + 1) ws (if off < 0x10000 then xySet c.val (0x10000 + off) w s else s)

/-- The status at the first instruction of a task or of a fault entry (R325): N, Z, V, C and IE unchanged. -/
def stEntry (st : Word) (prio : Nat) (fault : Bool) : Word :=
  setBit (setFld (setFld (setFld (setFld st 10 8 prio) 7 5 0) 4 3 0) 2 1 0) 0 fault

/-- The pipeline of a core emptied: loads of older instructions have landed, and nothing older is left to see. -/
def settle (k : Core) : Core :=
  let r1 := k.inFlight.foldl landLoad k.r
  let r2 := k.ldSlot.foldl landLoad r1
  let av : BitVec 2 := BitVec.ofNat 2 ((accAv r2.ac[0]).toNat * 2 + (accAv r2.ac[1]).toNat)
  { k with r := setSt (setBit (setBit r2.st 15 (accAv r2.ac[0])) 14 (accAv r2.ac[1])) r2, inFlight := [], ldSlot := [],
           agOld := [], loopOld := [], avMid := av, avNew := av }

/-- Saves a frame below ESP and enters at an address. -/
def enterAt (c : CoreId) (off : Nat) (entry : Nat) (prio : Nat) (fault : Bool) (t : Nest) (s : State) : State :=
  let k := settle s.cores[c]
  let s1 := putFrame c off (frameWords k.r k.pc fault t.desc) s
  let k' := { k with r := setSt (stEntry k.r.st prio fault) k.r, pc := BitVec.ofNat 17 entry, base := false, waiting := false,
                     slots := 0, annul := 0, after := .none, atLoopEdge := false, nest := t :: k.nest }
  count (scBase c + 11) (putWord (scBase c + 2) (word off) (setCore c k' s1))

/-- SC_Cn_FADDR of a fault: its data address; a fault without one loads a value that the spec does not give, a free value (R330). -/
def faultAddr (code addr : Nat) (s : State) : Nat × State :=
  if code = 1 ∨ code = 2 ∨ code = 3 ∨ code = 9 then (addr, s) else freeNat s

/-- What every core fault records (R330). -/
def coreFaultRecord (c : CoreId) (code : Nat) (addr0 : Nat) (s0 : State) : State :=
  let b := scBase c
  let (addr, s) := faultAddr code addr0 s0
  faultRecord 1 code c.val 0
    (raiseEvent (17 + c.val)
      (count (b + 10)
        (putWord (b + 8) (word s.cores[c].pc.toNat)
          (putWord (b + 7) (word addr) (putWord (b + 6) (word (addr / 2 ^ 20 % 16))
            (putWord (b + 5) (word (code * 2 ^ 12 + (if code = 9 ∨ code = 6 then 0 else 2 ^ 11))) s))))))

/-- A core fault (R330, R331, R328): the fault entry, a halt by a second fault, or fault 06h with its frame below ESL. -/
def coreFault (c : CoreId) (code addr : Nat) (s : State) : State :=
  let s1 := coreFaultRecord c code addr s
  let k := s1.cores[c]
  let fvec := fldOf s1 (scBase c + 4) 16 0
  let esp := fldOf s1 (scBase c + 2) 16 0
  let esl := fldOf s1 (scBase c + 3) 15 0
  let t : Nest := ⟨0x1FF, 0, none⟩
  if bit k.r.st 0 then
    let s2 := haltCore c s1
    setCore c { s2.cores[c] with dflt := true } s2
  else if esp < esl + 12 then
    let s2 := if code = 6 then s1 else coreFaultRecord c 6 addr s1
    enterAt c (esl - 12) fvec (stPri k.r.st) true t s2
  else enterAt c (esp - 12) fvec (stPri k.r.st) true t s1

/-! ### The operations of a word -/

/-- What an A-slot operation writes. -/
structure SlotOut where
  d : List (DReg × Word) := []
  ac : Option (AcId × Acc) := none
  alu : AluOut := {}

/-- An A-slot operation: the registers it writes, which of them by number, whether it sets flags, whether it holds an operation, a breach of its own (NORM), and what it computes from the old registers. -/
structure ASlot where
  dW : List DReg := []
  acW : Option AcId := none
  flags : Bool := false
  nop : Bool := false
  breach : Bool := false
  f : CoreRegs → SlotOut := fun _ => {}

def SlotOut.apply (o : SlotOut) (r : CoreRegs) : CoreRegs :=
  let r1 := o.d.foldl (fun r e => setD e.1 e.2 r) r
  let r2 := match o.ac with
    | none => r1
    | some (k, a) => setAc k a r1
  setSt (stFlags o.alu r2.st) r2

/-- The register codes an M-slot operation writes, post-modifies apart. -/
def mWrites : MSlot → List Nat
  | .ldxy dx dy _ _ _ _ _ => [dx.val, dy.val]
  | .ld r _ _ w _ => if w then [r.val, pairSecond r] else [r.val]
  | .mov rd _ => [rd.val]
  | .movf dd _ _ => [dd.val]
  | .movi rd _ => [rd.val]
  | _ => []

/-- The pairing breaches and reserved forms of a dual word (R341, R353). -/
def wordBad (a : ASlot) (m : MSlot) : Bool :=
  let ws := mWrites m
  a.breach || ws.any (fun x => a.dW.any fun d => d.val == x) || (a.flags && ws.contains 63) ||
  (match a.acW with
   | none => false
   | some k => ws.any fun x => decide (48 + 3 * k.val ≤ x) && decide (x < 51 + 3 * k.val)) ||
  (match m with
   | .ldxy dx dy _ _ _ _ _ => dx == dy
   | .ld r k mod w _ => (mod != .keep && r.val == 16 + k.val) || (w && !pairCode r)
   | .st r _ _ w => w && !pairCode r
   | _ => false)

/-- The accesses an M-slot operation makes: address, write, paired. -/
def mAccesses (r : CoreRegs) (old : List (Nat × Addr)) : MSlot → List (Addr × Bool × Bool)
  | .ldxy _ _ a b _ _ _ =>
    [((agUnit r old (Fin.ofNat 8 a.val)).a, false, false), ((agUnit r old (Fin.ofNat 8 (4 + b.val))).a, false, false)]
  | .stxy _ _ a b _ _ =>
    [((agUnit r old (Fin.ofNat 8 a.val)).a, true, false), ((agUnit r old (Fin.ofNat 8 (4 + b.val))).a, true, false)]
  | .ld _ k _ w _ => [((agUnit r old k).a, false, w)]
  | .st _ k _ w => [((agUnit r old k).a, true, w)]
  | _ => []

/-- The first access refused by R310: code and address. -/
def firstFault : List (Addr × Bool × Bool) → Option (Nat × Nat)
  | [] => none
  | (a, w, p) :: es =>
    match addrFault a w p with
    | some code => some (code, a.toNat)
    | none => firstFault es

/-- The post-modifies of an M-slot operation. -/
def mModifies : MSlot → List (Unit8 × Modify)
  | .ldxy _ _ a b ma mb _ => [(Fin.ofNat 8 a.val, ma), (Fin.ofNat 8 (4 + b.val), mb)]
  | .stxy _ _ a b ma mb => [(Fin.ofNat 8 a.val, ma), (Fin.ofNat 8 (4 + b.val), mb)]
  | .ld _ k mod _ _ => [(k, mod)]
  | .st _ k mod _ => [(k, mod)]
  | .moda k mod => [(k, mod)]
  | _ => []

/-- Applies the post-modifies to the register file: new pointers, and CIRC_OUT where one was left outside. -/
def applyModifies (view : CoreRegs) (old : List (Nat × Addr)) (l : List (Unit8 × Modify)) (r : CoreRegs) : CoreRegs :=
  l.foldl (fun r e =>
    let (n, out) := agModify (agUnit view old e.1) e.2
    let r1 := if e.2 = .keep then r else setA e.1 n r
    if out then setSt (setBit r1.st 12 true) r1 else r1) r

/-- The moves of an M-slot operation from the old registers: code, value, whether 24 bits wide. -/
def mMoves (r : CoreRegs) : MSlot → List (Nat × Nat × Bool)
  | .mov rd rs => let (v, w) := readCode r rs.val; [(rd.val, v, w)]
  | .movf dd k sh => [(dd.val, (accMovf r.ac[k] sh (bit r.st 1) (bit r.st 2)).toNat, false)]
  | .movi rd imm => [(rd.val, wrapN 24 imm.toInt, true)]
  | _ => []

/-- The ECC answer of an M-slot operation's reads. -/
def mEcc : MSlot → Ecc
  | .ldxy _ _ _ _ _ _ e => e
  | .ld _ _ _ _ e => e
  | _ => .good

/-- Makes the loads and stores of an M-slot operation from the old registers: the loads to be written at the end of the load-delay slot. -/
def mAccess (c : CoreId) (r : CoreRegs) (old : List (Nat × Addr)) (m : MSlot) (s : State) : List Load × State :=
  match m with
  | .ldxy dx dy a b _ _ _ =>
    let ((x, rx), s1) := loadWord c (agUnit r old (Fin.ofNat 8 a.val)).a s
    let ((y, ry), s2) := loadWord c (agUnit r old (Fin.ofNat 8 (4 + b.val))).a s1
    ([⟨dx.val, x.toNat, false, rx⟩, ⟨dy.val, y.toNat, false, ry⟩], s2)
  | .stxy dx dy a b _ _ =>
    ([], storeWord c (agUnit r old (Fin.ofNat 8 (4 + b.val))).a r.d[dy]
      (storeWord c (agUnit r old (Fin.ofNat 8 a.val)).a r.d[dx] s))
  | .ld t k _ w _ =>
    let a := (agUnit r old k).a
    if w then
      let (((hi, lo), rem), s1) := loadPair c a s
      ([⟨t.val, hi.toNat, false, rem⟩, ⟨pairSecond t, lo.toNat, false, rem⟩], s1)
    else
      let ((v, rem), s1) := loadWord c a s
      ([⟨t.val, v.toNat, false, rem⟩], s1)
  | .st t k _ w =>
    let a := (agUnit r old k).a
    if w then ([], storePair c a (word (readCode r t.val).1) (word (readCode r (pairSecond t)).1) s)
    else ([], storeWord c a (word (readCode r t.val).1) s)
  | _ => ([], s)

/-! ### Hazards -/

/-- Writes the loads in flight into their registers (DEDUCED, log entry 12: an instruction that touches the target would wait for them, so their landing before the next instruction shows no other value). -/
def landFlights (k : Core) : Core := { k with r := k.inFlight.foldl landLoad k.r, inFlight := [] }

/-- A repeat register as the repeat logic sees it: the value before a move of one of the three instructions before (R318). -/
def loopView (old : List LoopOld) (code now : Nat) : Nat :=
  match old with
  | [] => now
  | e :: es => if e.code = code then e.old else loopView es code now

/-- The old values of address registers moved by a word. -/
def agOldOf (r : CoreRegs) (ms : List (Nat × Nat × Bool)) : List (Nat × Addr) :=
  ms.filterMap fun e => if 16 ≤ e.1 ∧ e.1 < 48 then some (e.1, BitVec.ofNat 24 (readCode r e.1).1) else none

def loopOldOf (r : CoreRegs) (ms : List (Nat × Nat × Bool)) : List LoopOld :=
  ms.filterMap fun e => if 54 ≤ e.1 ∧ e.1 < 63 then some ⟨e.1, (readCode r e.1).1, 3⟩ else none

/-- After a word: the AV bits move one stage on, the loads of the word before land, this word's loads take the delay slot, and older hazards fade. -/
def retireWord (old : CoreRegs) (ms : List (Nat × Nat × Bool)) (lds : List Load) (k : Core) : Core :=
  let r1 := k.ldSlot.foldl (fun r l => if l.remote then r else landLoad r l) k.r
  let r2 := setSt (setBit (setBit r1.st 15 (k.avMid.toNat / 2 == 1)) 14 (k.avMid.toNat % 2 == 1)) r1
  let lo := (k.loopOld.map fun e => { e with left := e.left - 1 }).filter fun e => e.left != 0
  { k with r := r2, avMid := k.avNew, avNew := BitVec.ofNat 2 ((accAv r2.ac[0]).toNat * 2 + (accAv r2.ac[1]).toNat),
           inFlight := k.inFlight ++ k.ldSlot.filter (fun l => l.remote), ldSlot := lds,
           agOld := agOldOf old ms, loopOld := lo ++ loopOldOf old ms }

/-! ### Program flow -/

/-- A word ends the innermost level's iteration or exits it when its address is the level's LPE (R320): the next address if the level loops, and whether a loop edge was passed. -/
def repeatEnd (p : BitVec 17) (view : List LoopOld) (k : Core) : Core × Option (BitVec 17) × Bool :=
  let depth := stDepth k.r.st
  if depth = 0 then (k, none, false)
  else
    let l : Fin 3 := Fin.ofNat 3 (depth - 1)
    if loopView view (60 + l.val) k.r.lpe[l].toNat != p.toNat then (k, none, false)
    else
      let cnt := loopView view (54 + l.val) k.r.lpc[l].toNat
      let r1 := { k.r with lpc := k.r.lpc.set l (k.r.lpc[l] - 1) }
      if cnt = 1 then ({ k with r := setSt (setFld r1.st 4 3 (depth - 1)) r1 }, none, true)
      else if 1 < cnt then ({ k with r := r1 }, some (BitVec.ofNat 17 (loopView view (57 + l.val) k.r.lps[l].toNat)), true)
      else ({ k with r := r1 }, none, false)

/-- Restores the frame on top of the event stack (R327). -/
def restoreFrame (c : CoreId) (s : State) : State :=
  let esp := fldOf s (scBase c + 2) 16 0
  let w (i : Nat) : Word := xyGet s c.val (0x10000 + (esp + i) % 0x10000)
  let k := settle s.cores[c]
  let r := { k.r with
    lpc := Vector.ofFn fun i : Fin 3 => w (1 + 3 * i.val)
    lps := Vector.ofFn fun i : Fin 3 => BitVec.ofNat 17 (w (2 + 3 * i.val)).toNat
    lpe := Vector.ofFn fun i : Fin 3 => BitVec.ofNat 17 (w (3 + 3 * i.val)).toNat
    st := w 11 }
  putWord (scBase c + 2) (word (esp + 12))
    (setCore c { k with r := r, pc := BitVec.ofNat 17 (w 10).toNat, base := k.nest.isEmpty, slots := 0, annul := 0,
                        after := .none, atLoopEdge := false } s)

/-- The end of the two delay slots. -/
def slotsEnd (c : CoreId) (s : State) : State :=
  let k := s.cores[c]
  match k.after with
  | .none => s
  | .jump t => setCore c { k with pc := t, after := .none } s
  | .restore => restoreFrame c s
  | .chain entry prio =>
    let k1 := settle k
    setCore c { k1 with r := setSt (stEntry k1.r.st prio false) k1.r, pc := BitVec.ofNat 17 entry, after := .none, atLoopEdge := false } s

/-- Moves the core past a word at address p: repeat end, delay slots, next address. -/
def advanceCore (c : CoreId) (p : BitVec 17) (view : List LoopOld) (s : State) : State :=
  let (k1, loop, edge) := repeatEnd p view s.cores[c]
  let k2 := { k1 with pc := loop.getD (p + 1), atLoopEdge := edge }
  if k2.slots = 0 then setCore c k2 s
  else
    let k3 := { k2 with slots := k2.slots - 1, annul := k2.annul - 1 }
    let s1 := setCore c k3 s
    if k3.slots = 0 then slotsEnd c s1 else s1

/-- Whether the core takes words: running, not halted, not in WAIT, not stalled in a post. -/
def takesWords (k : Core) : Bool := k.run && !k.halted && !k.waiting && k.stalled.isNone

/-- An annulled or cancelled word: no effect, both slots wasted (R319, R385). -/
def wasteWord (c : CoreId) (evs : List (Nat × Nat × Nat)) (s : State) : State :=
  let k := landFlights s.cores[c]
  let p := k.pc
  let s1 := setCore c (retireWord k.r [] [] k) s
  pcCore c.val ((1, 1, 0) :: (4, 2, 1) :: evs) (advanceCore c p k.loopOld s1)

/-- Records the sample and counts the events of a word that takes effect, the iteration or exit of a repeat that it ends among them (R387). -/
def countWord (c : CoreId) (k : Core) (ops : Nat) (evs : List (Nat × Nat × Nat)) (s : State) : State :=
  let (_, loop, edge) := repeatEnd k.pc k.loopOld s.cores[c]
  pcCore c.val ((1, 1, 0) :: (2, 1, 1) :: (3, ops, 1) :: (4, 2 - ops, 1) :: (0x0A, loop.isSome.toNat, 1) :: (0x0B, (edge && loop.isNone).toNat, 1) :: evs)
    (pcRecord c.val k.pc.toNat (stPri k.r.st) k.base ((k.nest.head?.map (·.desc)).getD 0) s)

/-- A corrected error in a data word: counted, and EV100 (R316). -/
def eccCorrected (s : State) : State := pcSys 0x5F 1 (raiseEvent 100 (count 0xF34042 s))

/-- The guard of every word: the core takes words; in an annulled delay slot the word has no effect. -/
def guardWord (c : CoreId) (f : State → State) (s : State) : State :=
  let k := s.cores[c]
  if !takesWords k then s
  else if 0 < k.annul then wasteWord c [] s
  else f (setCore c (landFlights k) s)

/-- What a word's registers become: A-slot and M-slot results from the old values, then post-modifies. -/
def wordRegs (a : ASlot) (m : MSlot) (old : CoreRegs) (ag : List (Nat × Addr)) : CoreRegs :=
  applyModifies old ag (mModifies m) ((mMoves old m).foldl (fun r e => writeCode e.1 e.2.1 e.2.2 r) ((a.f old).apply old))

/-- Events of a dual word's accesses and flags (R387). -/
def wordEvents (a : ASlot) (m : MSlot) (old new : CoreRegs) (ag : List (Nat × Addr)) (k : Core) : List (Nat × Nat × Nat) :=
  let acc := mAccesses old ag m
  let loads (lo hi : Nat) := (acc.filter fun e => !e.2.1 && decide (lo ≤ e.1.toNat) && decide (e.1.toNat < hi)).length
  [(0x0C, loads 0 0x20000, 1), (0x0D, loads 0x100000 0x200000, 2), (0x0E, loads 0x200000 0x280000, 2),
   (0x0F, loads 0xF00000 0x1000000, 2),
   (0x10, (acc.filter fun e => e.2.1 && decide (0x100000 ≤ e.1.toNat)).length, 1),
   (0x1C, (!bit old.st 12 && bit new.st 12).toNat, 1), (0x1D, ((a.f old).alu.v == some true).toNat, 1),
   (0x1F, ((!bit k.r.st 15 && k.avMid.toNat / 2 == 1) || (!bit k.r.st 14 && k.avMid.toNat % 2 == 1)).toNat, 3)]

/-- Executes a dual or A-immediate word whose encoding is sound: accesses, results, hazards, next address. -/
def doWord (c : CoreId) (a : ASlot) (m : MSlot) (s : State) : State :=
  let k := s.cores[c]
  let (lds, s1) := mAccess c k.r k.agOld m s
  let r' := wordRegs a m k.r k.agOld
  let lds' := if mEcc m = .uncorrectable then [] else lds
  let s2 := setCore c (retireWord k.r (mMoves k.r m) lds' { s1.cores[c] with r := r' }) s1
  let s3 := countWord c k ((if a.nop then 0 else 1) + (if m = .nop then 0 else 1)) ((0x1B, (mEcc m == .corrected).toNat, 2) :: wordEvents a m k.r r' k.agOld k) s2
  let s4 := whenB (mEcc m == .corrected) eccCorrected s3
  if mEcc m = .uncorrectable then
    ghFaultEcc (coreFault c 9 (((mAccesses k.r k.agOld m).head?.map fun e => e.1.toNat).getD 0) s4)
  else advanceCore c k.pc k.loopOld s4

/-- Executes a dual or A-immediate word: a breach or reserved form is fault 04h, a refused address fault 01h to 03h, before any effect (R338, R310). -/
def runWord (c : CoreId) (a : ASlot) (m : MSlot) : State → State :=
  guardWord c fun s =>
    let k := s.cores[c]
    if wordBad a m then coreFault c 4 0 s
    else
      match firstFault (mAccesses k.r k.agOld m) with
      | some (code, addr) => coreFault c code addr s
      | none => doWord c a m s

/-! ### Branches, repeats, system words -/

/-- A word in the last two addresses of an active level's body (R321). -/
def atBodyEnd (k : Core) : Bool :=
  (List.finRange 3).any fun l =>
    decide (l.val < stDepth k.r.st) && (k.r.lpe[l] == k.pc || k.r.lpe[l] == k.pc + 1)

/-- Runs a branch-type word: cancelled in a delay slot of a taken branch, fault 04h in a delay slot of RTE or at the end of a body (R319, R321, R359). RTE in a delay slot of a taken branch, of which the rules say nothing, is cancelled as a branch is (DESIGN CHOICE, log entry 72). -/
def branchWord (c : CoreId) (f : State → State) : State → State :=
  guardWord c fun s =>
    let k := s.cores[c]
    match k.after with
    | .jump _ => if 0 < k.slots then wasteWord c [(9, 1, 1)] s else if atBodyEnd k then coreFault c 4 0 s else f s
    | .restore => coreFault c 4 0 s
    | .chain _ _ => coreFault c 4 0 s
    | .none => if atBodyEnd k then coreFault c 4 0 s else f s

/-- Retires a single-operation word and moves on. -/
def plainStep (c : CoreId) (ops : Nat) (evs : List (Nat × Nat × Nat)) (f : Core → Core) (s : State) : State :=
  let k := s.cores[c]
  let s1 := setCore c (retireWord k.r [] [] (f k)) s
  advanceCore c k.pc k.loopOld (countWord c k ops evs s1)

/-- B, CALL or JR: the two delay slots, annulled where the branch is annulling and not taken (R319, R359). -/
def takeBranch (c : CoreId) (cond : Cond) (anl : Bool) (target : BitVec 17) (link : Option DReg) (s : State) : State :=
  let k := s.cores[c]
  let taken := condHolds cond k.r.st
  let open1 (k1 : Core) : Core :=
    let r1 := match link with
      | some d => if taken then setD d (word (k.pc + 3).toNat) k1.r else k1.r
      | none => k1.r
    { k1 with r := r1 }
  let s1 := plainStep c 1 (if taken then [(7, 1, 1)] else if anl then [(8, 1, 1)] else []) open1 s
  let k2 := s1.cores[c]
  if taken then setCore c { k2 with slots := 2, annul := 0, after := .jump target } s1
  else if anl then setCore c { k2 with slots := 2, annul := 2, after := .none } s1
  else s1

/-- A load in the delay slot lands before a word that reads its target in D. -/
def landSlot (c : CoreId) (s : State) : State :=
  let k := s.cores[c]
  setCore c { k with r := k.ldSlot.foldl landLoad k.r, ldSlot := [] } s

/-- Whether the loads of the word before write register Dr. -/
def slotLoads (k : Core) (r : DReg) : Bool := k.ldSlot.any fun l => l.code == r.val

/-- RPT (R320, R321, R360). -/
def openRepeat (c : CoreId) (count : Word) (last : BitVec 17) (s : State) : State :=
  let k := s.cores[c]
  let start := k.pc + 1
  if last.toNat < start.toNat ∨ last.toNat = start.toNat + 1 then coreFault c 4 0 s
  else if count = 0 then
    let s1 := plainStep c 1 [] id s
    let s2 := pcCore c.val [(1, 1, 0), (4, 2, 1)] (pcCore c.val [(1, 1, 0), (4, 2, 1), (0x0B, 1, 1)] s1)
    setCore c { s2.cores[c] with pc := last + 1 } s2
  else
    let depth := stDepth k.r.st
    if depth = 3 then coreFault c 5 0 s
    else
      let l : Fin 3 := Fin.ofNat 3 depth
      plainStep c 1 [] (fun k1 =>
        { k1 with
          r := setSt (setFld k1.r.st 4 3 (depth + 1)) { k1.r with lpc := k1.r.lpc.set l count, lps := k1.r.lps.set l start, lpe := k1.r.lpe.set l last }
          loopOld := k1.loopOld.filter fun e => e.code != 54 + l.val && e.code != 57 + l.val && e.code != 60 + l.val }) s

/-- LBRK pops the innermost level (R359). -/
def breakLoop (c : CoreId) (s : State) : State :=
  plainStep c 1 [] (fun k =>
    if stDepth k.r.st = 0 then k else { k with r := setSt (setFld k.r.st 4 3 (stDepth k.r.st - 1)) k.r }) s

/-- WAIT (R361). -/
def waitWord (c : CoreId) (s : State) : State :=
  let ie := bit s.cores[c].r.st 11
  plainStep c 1 [] (fun k => if ie then { k with waiting := true } else k) s

/-- The task a core ends with RTE chains to, if Pergola holds one above the priority of the frame on top (R327). -/
def chainPost (c : CoreId) (framePri : Nat) (s : State) : Option (Nat × Post) :=
  let k := s.cores[c]
  let s1 := setCore c { k with r := setSt (setFld k.r.st 10 8 framePri) k.r, base := false } s
  match presentedTo s1 c with
  | none => none
  | some i => (s1.pg.ready[i]?).map fun p => (i, p)

/-- A post leaves the ready store for a core: CORE of its descriptor, counters (R366, R370). -/
def acceptPost (c : CoreId) (i : Nat) (p : Post) (s : State) : State :=
  putFld (descCfg p.desc + 3) 10 8 c.val
    (pcSys 0x56 1 { s with pg := { s.pg with ready := s.pg.ready.eraseIdx i } })

/-- RTE in E1: Pergola is told the run has ended, and the return or the chained entry follows the two delay slots (R327). -/
def returnTask (c : CoreId) (s : State) : State :=
  let k := s.cores[c]
  let esp := fldOf s (scBase c + 2) 16 0
  if k.base ∨ esp = 0x10000 then coreFault c 7 0 s
  else if bit k.r.st 0 then coreFault c 7 0 s
  else
    let framePri := fld (xyGet s c.val (0x10000 + esp % 0x10000)) 19 17
    let s1 := plainStep c 1 [(0x18, 1, 1)] (fun k => { k with nest := k.nest.tail }) s
    match chainPost c framePri s1 with
    | none => retryStalled (setCore c { s1.cores[c] with slots := 2, annul := 0, after := .restore } s1)
    | some (i, p) =>
      let s2 := acceptPost c i p s1
      let k2 := s2.cores[c]
      let s3 := setCore c { k2 with slots := 2, annul := 0, after := .chain (descEntry s2 p.desc) (descPrio s2 p.desc),
                                    nest := ⟨p.desc, p.arg, p.key⟩ :: k2.nest } s2
      retryStalled (pcCore c.val [(0x17, 1, 1)] (count (scBase c + 11) s3))

/-! ### Task acceptance -/

/-- The hold-off conditions of R324 at the next instruction; a post-modify of Ak is no write to A in their sense, since R318 gives it no exposed hazard (DEDUCED, log entry 72). -/
def mayAccept (k : Core) : Bool :=
  let depth := stDepth k.r.st
  let l : Fin 3 := Fin.ofNat 3 (depth - 1)
  coreRunning k && bit k.r.st 11 && k.slots == 0 && k.ldSlot.isEmpty && k.agOld.isEmpty && k.inFlight.isEmpty && k.stalled.isNone &&
  (depth == 0 || (k.r.lps[l] != k.r.lpe[l] && k.atLoopEdge && (List.range depth).all fun i => bit k.r.st (5 + i)))

/-- TASK_ACCEPTANCE with hold-off h (R324, R325, R328, R329). -/
def acceptTask (c : CoreId) (h : Nat) (s : State) : State :=
  let k := landFlights s.cores[c]
  match presentedTo s c with
  | none => s
  | some i =>
    match s.pg.ready[i]? with
    | none => s
    | some p =>
      if !mayAccept k then s
      else
        let s0 := setCore c k s
        let hold := if k.waiting then 1 else h
        let s1 := hwMod (scBase c + 9) (fun w => if w.toNat < min hold 0xFFFFF then word (min hold 0xFFFFF) else w) (acceptPost c i p s0)
        let esp := fldOf s1 (scBase c + 2) 16 0
        if esp < fldOf s1 (scBase c + 3) 15 0 + 12 then retryStalled (coreFault c 6 0 (setCore c { s1.cores[c] with waiting := false } s1))
        else
          retryStalled (pcCore c.val [(0x17, 1, 1)]
            (enterAt c (esp - 12) (descEntry s1 p.desc) (descPrio s1 p.desc) false ⟨p.desc, p.arg, p.key⟩ s1))

end Sys2Proof.Machine
end

