-- ==== Sys2Proof/Machine/CoreAlu.lean ====
section
/-! DEFINITION. Meanings of the A-slot operations: ALU, shifts, bits, multiply-accumulate and accumulator group, normalise, and the immediate words (12 R342-R349). -/

namespace Sys2Proof.Machine

/-- An ALU operation on Dd and Ds that writes its result to Dd. -/
def aluSlot (d r : DReg) (f : Word → Word → Bool → AluOut) : ASlot :=
  { dW := [d], flags := true, f := fun x =>
      let o := f x.d[d] x.d[r] (bit x.st 16)
      { d := (o.res.map fun w => (d, w)).toList, alu := o } }

/-- An ALU operation that only sets flags. -/
def cmpSlot (d r : DReg) (f : Word → Word → AluOut) : ASlot :=
  { flags := true, f := fun x => { alu := f x.d[d] x.d[r] } }

/-- An ALU operation on Dd alone. -/
def oneSlot (d : DReg) (f : Word → AluOut) : ASlot :=
  { dW := [d], flags := true, f := fun x =>
      let o := f x.d[d]
      { d := (o.res.map fun w => (d, w)).toList, alu := o } }

/-- A bit operation on Dd that sets no flag. -/
def bitSlot (d : DReg) (f : Word → Word) : ASlot := { dW := [d], f := fun x => { d := [(d, f x.d[d])] } }

/-- An accumulator operation that writes ACk. -/
def accSlot (k : AcId) (f : CoreRegs → Acc) : ASlot := { acW := some k, f := fun x => { ac := some (k, f x) } }

/-- NOP in the A-slot. -/
def nopSlot : ASlot := { nop := true }

/-- NOP: a dual word whose A-slot does nothing (R342). -/
def execNop (c : CoreId) (m : MSlot) (s : State) : Host.Outcome State Fault Refusal := .next (runWord c nopSlot m s)

/-- ADD Dd, Ds (R343). -/
def execAdd (c : CoreId) (d r : DReg) (m : MSlot) (s : State) : Host.Outcome State Fault Refusal :=
  .next (runWord c (aluSlot d r fun a b _ => aluAdd true a b false) m s)

/-- ADC Dd, Ds (R343). -/
def execAdc (c : CoreId) (d r : DReg) (m : MSlot) (s : State) : Host.Outcome State Fault Refusal :=
  .next (runWord c (aluSlot d r fun a b cy => aluAdd true a b cy) m s)

/-- SUB Dd, Ds (R343). -/
def execSub (c : CoreId) (d r : DReg) (m : MSlot) (s : State) : Host.Outcome State Fault Refusal :=
  .next (runWord c (aluSlot d r fun a b _ => aluSub true a b true) m s)

/-- SBC Dd, Ds (R343). -/
def execSbc (c : CoreId) (d r : DReg) (m : MSlot) (s : State) : Host.Outcome State Fault Refusal :=
  .next (runWord c (aluSlot d r fun a b cy => aluSub true a b cy) m s)

/-- CMP Dd, Ds (R343). -/
def execCmp (c : CoreId) (d r : DReg) (m : MSlot) (s : State) : Host.Outcome State Fault Refusal :=
  .next (runWord c (cmpSlot d r fun a b => aluSub false a b true) m s)

/-- AND Dd, Ds (R343). -/
def execAnd (c : CoreId) (d r : DReg) (m : MSlot) (s : State) : Host.Outcome State Fault Refusal :=
  .next (runWord c (aluSlot d r fun a b _ => aluLogic true (a &&& b)) m s)

/-- OR Dd, Ds (R343). -/
def execOr (c : CoreId) (d r : DReg) (m : MSlot) (s : State) : Host.Outcome State Fault Refusal :=
  .next (runWord c (aluSlot d r fun a b _ => aluLogic true (a ||| b)) m s)

/-- XOR Dd, Ds (R343). -/
def execXor (c : CoreId) (d r : DReg) (m : MSlot) (s : State) : Host.Outcome State Fault Refusal :=
  .next (runWord c (aluSlot d r fun a b _ => aluLogic true (a ^^^ b)) m s)

/-- ADDS Dd, Ds (R343). -/
def execAdds (c : CoreId) (d r : DReg) (m : MSlot) (s : State) : Host.Outcome State Fault Refusal :=
  .next (runWord c (aluSlot d r fun a b _ => aluSat (a.toInt + b.toInt)) m s)

/-- SUBS Dd, Ds (R343). -/
def execSubs (c : CoreId) (d r : DReg) (m : MSlot) (s : State) : Host.Outcome State Fault Refusal :=
  .next (runWord c (aluSlot d r fun a b _ => aluSat (a.toInt - b.toInt)) m s)

/-- MIN Dd, Ds (R343). -/
def execMin (c : CoreId) (d r : DReg) (m : MSlot) (s : State) : Host.Outcome State Fault Refusal :=
  .next (runWord c (aluSlot d r fun a b _ => aluMin a b) m s)

/-- MAX Dd, Ds (R343). -/
def execMax (c : CoreId) (d r : DReg) (m : MSlot) (s : State) : Host.Outcome State Fault Refusal :=
  .next (runWord c (aluSlot d r fun a b _ => aluMax a b) m s)

/-- TST Dd, Ds (R343). -/
def execTst (c : CoreId) (d r : DReg) (m : MSlot) (s : State) : Host.Outcome State Fault Refusal :=
  .next (runWord c (cmpSlot d r fun a b => aluLogic false (a &&& b)) m s)

/-- NEG Dd (R343). -/
def execNeg (c : CoreId) (d : DReg) (m : MSlot) (s : State) : Host.Outcome State Fault Refusal :=
  .next (runWord c (oneSlot d aluNeg) m s)

/-- ABS Dd (R343). -/
def execAbs (c : CoreId) (d : DReg) (m : MSlot) (s : State) : Host.Outcome State Fault Refusal :=
  .next (runWord c (oneSlot d aluAbs) m s)

/-- NOT Dd (R343). -/
def execNot (c : CoreId) (d : DReg) (m : MSlot) (s : State) : Host.Outcome State Fault Refusal :=
  .next (runWord c (oneSlot d (fun a => aluLogic true (~~~a))) m s)

/-- ASL Dd, #n (R343, R345). -/
def execAsl (c : CoreId) (d : DReg) (n : Fin 20) (m : MSlot) (s : State) : Host.Outcome State Fault Refusal :=
  .next (runWord c (oneSlot d fun a => aluAsl a n.val) m s)

/-- ASR Dd, #n (R343, R345). -/
def execAsr (c : CoreId) (d : DReg) (n : Fin 20) (m : MSlot) (s : State) : Host.Outcome State Fault Refusal :=
  .next (runWord c (oneSlot d fun a => aluAsr a n.val) m s)

/-- LSR Dd, #n (R343, R345). -/
def execLsr (c : CoreId) (d : DReg) (n : Fin 20) (m : MSlot) (s : State) : Host.Outcome State Fault Refusal :=
  .next (runWord c (oneSlot d fun a => aluLsr a n.val) m s)

/-- ASLV Dd, Ds: the count is Ds[4:0] (R345). -/
def execAslv (c : CoreId) (d r : DReg) (m : MSlot) (s : State) : Host.Outcome State Fault Refusal :=
  .next (runWord c (aluSlot d r fun a b _ => aluAsl a (fld b 4 0)) m s)

/-- ASRV Dd, Ds: the count is Ds[4:0] (R345). -/
def execAsrv (c : CoreId) (d r : DReg) (m : MSlot) (s : State) : Host.Outcome State Fault Refusal :=
  .next (runWord c (aluSlot d r fun a b _ => aluAsr a (fld b 4 0)) m s)

/-- LSRV Dd, Ds: the count is Ds[4:0] (R345). -/
def execLsrv (c : CoreId) (d r : DReg) (m : MSlot) (s : State) : Host.Outcome State Fault Refusal :=
  .next (runWord c (aluSlot d r fun a b _ => aluLsr a (fld b 4 0)) m s)

/-- BSET Dd, #b (R343). -/
def execBset (c : CoreId) (d : DReg) (b : Fin 20) (m : MSlot) (s : State) : Host.Outcome State Fault Refusal :=
  .next (runWord c (bitSlot d fun a => setBit a b.val true) m s)

/-- BCLR Dd, #b (R343). -/
def execBclr (c : CoreId) (d : DReg) (b : Fin 20) (m : MSlot) (s : State) : Host.Outcome State Fault Refusal :=
  .next (runWord c (bitSlot d fun a => setBit a b.val false) m s)

/-- BTST Dd, #b (R343). -/
def execBtst (c : CoreId) (d : DReg) (b : Fin 20) (m : MSlot) (s : State) : Host.Outcome State Fault Refusal :=
  .next (runWord c ({ flags := true, f := fun x => { alu := aluBtst x.d[d] b.val } }) m s)

/-- NORM: Dd normalised, Ds the shift count, N and Z of the original Dd (R348); one register named twice is a breach (R341). -/
def normSlot (d r : DReg) : ASlot :=
  { dW := [d, r], flags := true, breach := d == r, f := fun x =>
      let v := x.d[d]
      let n := redundant 20 v.toNat
      { d := [(d, word (v.toNat * 2 ^ n)), (r, word n)], alu := { n := some (isNeg v), z := some (isZero v) } } }

/-- EXP: the redundant-sign count of Ds, N and Z of Ds (R348). -/
def expSlot (d r : DReg) : ASlot :=
  { dW := [d], flags := true, f := fun x =>
      let v := x.d[r]
      { d := [(d, word (redundant 20 v.toNat))], alu := { n := some (isNeg v), z := some (isZero v) } } }

/-- NORM Dd, Ds (R348). -/
def execNorm (c : CoreId) (d r : DReg) (m : MSlot) (s : State) : Host.Outcome State Fault Refusal :=
  .next (runWord c (normSlot d r) m s)

/-- EXP Dd, Ds (R348). -/
def execExp (c : CoreId) (d r : DReg) (m : MSlot) (s : State) : Host.Outcome State Fault Refusal :=
  .next (runWord c (expSlot d r) m s)

/-- MPY ACk, Dd, Ds (R346, R347). -/
def execMpy (c : CoreId) (k : AcId) (d r : DReg) (mode : MacMode) (m : MSlot) (s : State) : Host.Outcome State Fault Refusal :=
  .next (runWord c (accSlot k fun x => accSat (macProduct mode x.d[d] x.d[r])) m s)

/-- MAC ACk, Dd, Ds (R346, R347). -/
def execMac (c : CoreId) (k : AcId) (d r : DReg) (mode : MacMode) (m : MSlot) (s : State) : Host.Outcome State Fault Refusal :=
  .next (runWord c (accSlot k fun x => accSat (x.ac[k].toInt + macProduct mode x.d[d] x.d[r])) m s)

/-- MSU ACk, Dd, Ds (R346, R347). -/
def execMsu (c : CoreId) (k : AcId) (d r : DReg) (mode : MacMode) (m : MSlot) (s : State) : Host.Outcome State Fault Refusal :=
  .next (runWord c (accSlot k fun x => accSat (x.ac[k].toInt - macProduct mode x.d[d] x.d[r])) m s)

/-- LDA ACk, Dd (R346, R347). -/
def execLda (c : CoreId) (k : AcId) (d : DReg) (m : MSlot) (s : State) : Host.Outcome State Fault Refusal :=
  .next (runWord c (accSlot k fun x => accSat (x.d[d].toInt * 2 ^ 20)) m s)

/-- ADDA ACk, Dd (R346, R347). -/
def execAdda (c : CoreId) (k : AcId) (d : DReg) (m : MSlot) (s : State) : Host.Outcome State Fault Refusal :=
  .next (runWord c (accSlot k fun x => accSat (x.ac[k].toInt + x.d[d].toInt * 2 ^ 20)) m s)

/-- SUBA ACk, Dd (R346, R347). -/
def execSuba (c : CoreId) (k : AcId) (d : DReg) (m : MSlot) (s : State) : Host.Outcome State Fault Refusal :=
  .next (runWord c (accSlot k fun x => accSat (x.ac[k].toInt - x.d[d].toInt * 2 ^ 20)) m s)

/-- CLRA ACk (R346, R347). -/
def execClra (c : CoreId) (k : AcId) (m : MSlot) (s : State) : Host.Outcome State Fault Refusal :=
  .next (runWord c (accSlot k fun _ => 0) m s)

/-- NEGA ACk (R346, R347). -/
def execNega (c : CoreId) (k : AcId) (m : MSlot) (s : State) : Host.Outcome State Fault Refusal :=
  .next (runWord c (accSlot k fun x => accSat (-x.ac[k].toInt)) m s)

/-- ABSA ACk (R346, R347). -/
def execAbsa (c : CoreId) (k : AcId) (m : MSlot) (s : State) : Host.Outcome State Fault Refusal :=
  .next (runWord c (accSlot k fun x => accSat (Int.natAbs x.ac[k].toInt)) m s)

/-- SUMA ACk (R346, R347). -/
def execSuma (c : CoreId) (k : AcId) (m : MSlot) (s : State) : Host.Outcome State Fault Refusal :=
  .next (runWord c (accSlot k fun x => accSat (x.ac[0].toInt + x.ac[1].toInt)) m s)

/-- RNDA ACk (R346, R347). -/
def execRnda (c : CoreId) (k : AcId) (m : MSlot) (s : State) : Host.Outcome State Fault Refusal :=
  .next (runWord c (accSlot k fun x => accRound x.ac[k]) m s)

/-- SHAV ACk, Ds: the signed count is Ds[5:0] (R346). -/
def execShav (c : CoreId) (k : AcId) (r : DReg) (m : MSlot) (s : State) : Host.Outcome State Fault Refusal :=
  .next (runWord c (accSlot k fun x => accShift x.ac[k] (sfld x.d[r] 5 0)) m s)

/-- NORMA: ACk shifted by c - 8, Dd that count (R348). -/
def normaSlot (k : AcId) (d : DReg) : ASlot :=
  { dW := [d], acW := some k, f := fun x =>
      let n := accExp x.ac[k]
      { d := [(d, wordI n)], ac := some (k, accShift x.ac[k] n) } }

/-- NORMA ACk, Dd (R348). -/
def execNorma (c : CoreId) (k : AcId) (d : DReg) (m : MSlot) (s : State) : Host.Outcome State Fault Refusal :=
  .next (runWord c (normaSlot k d) m s)

/-- EXPA Dd, ACk (R348). -/
def execExpa (c : CoreId) (d : DReg) (k : AcId) (m : MSlot) (s : State) : Host.Outcome State Fault Refusal :=
  .next (runWord c { dW := [d], f := fun x => { d := [(d, wordI (accExp x.ac[k]))] } } m s)

/-- An immediate operation: R343's with IMM20 as the second operand (R349). -/
def immSlot (d : DReg) (f : Word → AluOut) : ASlot :=
  { dW := [d], flags := true, f := fun x =>
      let o := f x.d[d]
      { d := (o.res.map fun w => (d, w)).toList, alu := o } }

/-- ADDI Dd, #imm (R349). -/
def execAddi (c : CoreId) (d : DReg) (imm : Word) (s : State) : Host.Outcome State Fault Refusal :=
  .next (runWord c (immSlot d fun a => aluAdd true a imm false) .nop s)

/-- SUBI Dd, #imm (R349). -/
def execSubi (c : CoreId) (d : DReg) (imm : Word) (s : State) : Host.Outcome State Fault Refusal :=
  .next (runWord c (immSlot d fun a => aluSub true a imm true) .nop s)

/-- CMPI Dd, #imm (R349). -/
def execCmpi (c : CoreId) (d : DReg) (imm : Word) (s : State) : Host.Outcome State Fault Refusal :=
  .next (runWord c (immSlot d fun a => aluSub false a imm true) .nop s)

/-- ANDI Dd, #imm (R349). -/
def execAndi (c : CoreId) (d : DReg) (imm : Word) (s : State) : Host.Outcome State Fault Refusal :=
  .next (runWord c (immSlot d fun a => aluLogic true (a &&& imm)) .nop s)

/-- ORI Dd, #imm (R349). -/
def execOri (c : CoreId) (d : DReg) (imm : Word) (s : State) : Host.Outcome State Fault Refusal :=
  .next (runWord c (immSlot d fun a => aluLogic true (a ||| imm)) .nop s)

/-- XORI Dd, #imm (R349). -/
def execXori (c : CoreId) (d : DReg) (imm : Word) (s : State) : Host.Outcome State Fault Refusal :=
  .next (runWord c (immSlot d fun a => aluLogic true (a ^^^ imm)) .nop s)

/-- TSTI Dd, #imm (R349). -/
def execTsti (c : CoreId) (d : DReg) (imm : Word) (s : State) : Host.Outcome State Fault Refusal :=
  .next (runWord c (immSlot d fun a => aluLogic false (a &&& imm)) .nop s)

/-- LDI Dd, #imm: no flags changed (R349). -/
def execLdi (c : CoreId) (d : DReg) (imm : Word) (s : State) : Host.Outcome State Fault Refusal :=
  .next (runWord c (bitSlot d fun _ => imm) .nop s)

end Sys2Proof.Machine
end

