-- ==== Sys2Proof/Machine/CoreMove.lean ====
section
/-! DEFINITION. Meanings of the M-slot operations, as dual words whose A-slot is NOP, and of the long moves (12 R350-R354). -/

namespace Sys2Proof.Machine

/-- LDXY Dx, Dy, (Aa)mod, (Ab)mod (R350). -/
def execLdxy (c : CoreId) (dx dy : DReg) (a b : Fin 4) (ma mb : Modify) (ecc : Ecc) (s : State) : Host.Outcome State Fault Refusal :=
  .next (runWord c nopSlot (.ldxy dx dy a b ma mb ecc) s)

/-- STXY Dx, Dy, (Aa)mod, (Ab)mod (R350). -/
def execStxy (c : CoreId) (dx dy : DReg) (a b : Fin 4) (ma mb : Modify) (s : State) : Host.Outcome State Fault Refusal :=
  .next (runWord c nopSlot (.stxy dx dy a b ma mb) s)

/-- LD R, (Ak)mod, one word or a pair (R350, R353). -/
def execLd (c : CoreId) (r : RCode) (k : Unit8) (mod : Modify) (w : Bool) (ecc : Ecc) (s : State) : Host.Outcome State Fault Refusal :=
  .next (runWord c nopSlot (.ld r k mod w ecc) s)

/-- ST R, (Ak)mod, one word or a pair (R350, R353). -/
def execSt (c : CoreId) (r : RCode) (k : Unit8) (mod : Modify) (w : Bool) (s : State) : Host.Outcome State Fault Refusal :=
  .next (runWord c nopSlot (.st r k mod w) s)

/-- MOV Rd, Rs (R340, R350). -/
def execMov (c : CoreId) (rd rs : RCode) (s : State) : Host.Outcome State Fault Refusal :=
  .next (runWord c nopSlot (.mov rd rs) s)

/-- MOVF Dd, ACk, #sh (R352). -/
def execMovf (c : CoreId) (dd : DReg) (k : AcId) (sh : BitVec 5) (s : State) : Host.Outcome State Fault Refusal :=
  .next (runWord c nopSlot (.movf dd k sh) s)

/-- MOVI Rd, #imm (R350). -/
def execMovi (c : CoreId) (rd : RCode) (imm : BitVec 11) (s : State) : Host.Outcome State Fault Refusal :=
  .next (runWord c nopSlot (.movi rd imm) s)

/-- MODA (Ak)mod (R354). -/
def execModa (c : CoreId) (k : Unit8) (mod : Modify) (s : State) : Host.Outcome State Fault Refusal :=
  .next (runWord c nopSlot (.moda k mod) s)

/-- A load from a 24-bit address (R350): the register is written at the end of the load-delay slot. -/
def loadLong (c : CoreId) (r : RCode) (addr : Addr) (ecc : Ecc) : State → State :=
  guardWord c fun s =>
    match addrFault addr false false with
    | some code => coreFault c code addr.toNat s
    | none =>
      let k := s.cores[c]
      let ((v, rem), s1) := loadWord c addr s
      let lds : List Load := if ecc = .uncorrectable then [] else [⟨r.val, v.toNat, false, rem⟩]
      let s2 := setCore c (retireWord k.r [] lds s1.cores[c]) s1
      let s3 := countWord c k 1 [(if addr.toNat < 0x20000 then 0x0C else if addr.toNat < 0x200000 then 0x0D
        else if addr.toNat < 0x280000 then 0x0E else 0x0F, 1, if addr.toNat < 0x20000 then 1 else 2), (0x1B, (ecc == .corrected).toNat, 2)] s2
      let s4 := whenB (ecc == .corrected) eccCorrected s3
      if ecc = .uncorrectable then ghFaultEcc (coreFault c 9 addr.toNat s4) else advanceCore c k.pc k.loopOld s4

/-- A store to a 24-bit address (R350). -/
def storeLong (c : CoreId) (r : RCode) (addr : Addr) : State → State :=
  guardWord c fun s =>
    match addrFault addr true false with
    | some code => coreFault c code addr.toNat s
    | none =>
      let k := s.cores[c]
      let s1 := storeWord c addr (word (readCode k.r r.val).1) s
      let s2 := setCore c (retireWord k.r [] [] s1.cores[c]) s1
      advanceCore c k.pc k.loopOld (countWord c k 1 [(0x10, (decide (0x100000 ≤ addr.toNat)).toNat, 1)] s2)

/-- LD R, @addr (R350). -/
def execLdLong (c : CoreId) (r : RCode) (addr : Addr) (ecc : Ecc) (s : State) : Host.Outcome State Fault Refusal :=
  .next (loadLong c r addr ecc s)

/-- ST R, @addr (R350). -/
def execStLong (c : CoreId) (r : RCode) (addr : Addr) (s : State) : Host.Outcome State Fault Refusal :=
  .next (storeLong c r addr s)

/-- MOVI24 R, #imm, under the 24-bit column of R340 (R350). -/
def moveLong (c : CoreId) (r : RCode) (imm : BitVec 24) : State → State :=
  guardWord c fun s =>
    let k := s.cores[c]
    let ms := [(r.val, imm.toNat, true)]
    let s1 := setCore c (retireWord k.r ms [] { k with r := writeCode r.val imm.toNat true k.r }) s
    advanceCore c k.pc k.loopOld (countWord c k 1 [] s1)

/-- MOVI24 R, #imm (R350). -/
def execMovi24 (c : CoreId) (r : RCode) (imm : BitVec 24) (s : State) : Host.Outcome State Fault Refusal :=
  .next (moveLong c r imm s)

end Sys2Proof.Machine
end

