-- ==== Sys2Proof/Machine/CoreFlow.lean ====
section
/-! DEFINITION. Meanings of the branches, repeats and system words, of task acceptance, halt and the traffic of the store buffer and of loads (11 R316-R334; 12 R358-R361). -/

namespace Sys2Proof.Machine

/-- B cond, target (R359). -/
def execB (c : CoreId) (cond : Cond) (anl : Bool) (target : BitVec 17) (s : State) : Host.Outcome State Fault Refusal :=
  .next (branchWord c (takeBranch c cond anl target none) s)

/-- CALL cond, Dr, target (R359). -/
def execCall (c : CoreId) (cond : Cond) (anl : Bool) (r : DReg) (target : BitVec 17) (s : State) : Host.Outcome State Fault Refusal :=
  .next (branchWord c (takeBranch c cond anl target (some r)) s)

/-- JR cond, Dr: Dr is read in D, after any load into it (R359). -/
def jumpReg (c : CoreId) (cond : Cond) (anl : Bool) (r : DReg) (s : State) : State :=
  let s1 := whenB (slotLoads s.cores[c] r) (landSlot c) s
  takeBranch c cond anl (BitVec.ofNat 17 s1.cores[c].r.d[r].toNat) none s1

/-- JR cond, Dr (R359). -/
def execJr (c : CoreId) (cond : Cond) (anl : Bool) (r : DReg) (s : State) : Host.Outcome State Fault Refusal :=
  .next (branchWord c (jumpReg c cond anl r) s)

/-- LBRK (R359). -/
def execLbrk (c : CoreId) (s : State) : Host.Outcome State Fault Refusal := .next (branchWord c (breakLoop c) s)

/-- RPT: a count in Dc is read in D, after any load into it (R360). -/
def repeatWord (c : CoreId) (cnt : RptCount) (last : BitVec 17) : State → State :=
  guardWord c fun s =>
    if atBodyEnd s.cores[c] then coreFault c 4 0 s
    else
      match cnt with
      | .imm n => openRepeat c (word n.toNat) last s
      | .reg d =>
        let s1 := whenB (slotLoads s.cores[c] d) (landSlot c) s
        openRepeat c s1.cores[c].r.d[d] last s1

/-- RPT count, end (R320, R321, R360). -/
def execRpt (c : CoreId) (count : RptCount) (last : BitVec 17) (s : State) : Host.Outcome State Fault Refusal :=
  .next (repeatWord c count last s)

/-- The system NOP wastes both slots (R361, R386). -/
def execSystemNop (c : CoreId) (s : State) : Host.Outcome State Fault Refusal :=
  .next (guardWord c (plainStep c 0 [] id) s)

/-- WAIT (R361). -/
def execWait (c : CoreId) (s : State) : Host.Outcome State Fault Refusal := .next (guardWord c (waitWord c) s)

/-- RTE (R327). -/
def execRte (c : CoreId) (s : State) : Host.Outcome State Fault Refusal := .next (branchWord c (returnTask c) s)

/-- A word that raises fault 04h at D, or 08h with the Gatehouse diagnostic 03h (R330, R338). -/
def badWord (c : CoreId) (why : BadWord) : State → State :=
  guardWord c fun s => if why = .ecc then ghFaultEcc (coreFault c 8 0 s) else coreFault c 4 0 s

/-- ILLEGAL_INSTRUCTION (R338). -/
def execIllegalInstruction (c : CoreId) (why : BadWord) (s : State) : Host.Outcome State Fault Refusal :=
  .next (badWord c why s)

/-- TASK_ACCEPTANCE (R324, R325). -/
def execTaskAcceptance (c : CoreId) (h : Nat) (s : State) : Host.Outcome State Fault Refusal :=
  .next (acceptTask c h s)

/-- A write of HALT to SC_Cn_CTRL, a K register (R334, R451). -/
def execHalt (who : Requester) (c : CoreId) (s : State) : Host.Outcome State Fault Refusal :=
  .next (kWrite who (scBase c) (haltCore c) s)

/-- STORE_BUFFER_DRAIN (R316). -/
def execStoreBufferDrain (c : CoreId) (s : State) : Host.Outcome State Fault Refusal := .next (drainOne c s)

/-- LOAD_DATA_RETURN: the loads in flight are written to their registers (R316). -/
def execLoadDataReturn (c : CoreId) (s : State) : Host.Outcome State Fault Refusal :=
  .next (setCore c (landFlights s.cores[c]) s)

end Sys2Proof.Machine
end

