-- ==== Sys2Proof/Machine/KioskCmd.lean ====
section
/-! DEFINITION. The commands of the object dictionary, of the password and change log, and of the CANopen services (09 R280-R285; 15 R415-R417; 16 R420-R438). -/

namespace Sys2Proof.Machine

/-- A write request. -/
def wreq (f : KFrom) (i sub : Nat) (data : List Byte) : KReq := ⟨f, true, BitVec.ofNat 16 i, BitVec.ofNat 8 sub, data⟩

/-- A read request. -/
def rreq (f : KFrom) (i sub : Nat) : KReq := ⟨f, false, BitVec.ofNat 16 i, BitVec.ofNat 8 sub, []⟩

/-! ### Requests -/

def execDictionaryRead (f : KFrom) (index : BitVec 16) (sub : BitVec 8) (s : State) : Host.Outcome State Fault Refusal :=
  .next (kTop (rreq f index.toNat sub.toNat) s)

def execDictionaryWrite (f : KFrom) (index : BitVec 16) (sub : BitVec 8) (data : List Byte) (s : State) : Host.Outcome State Fault Refusal :=
  .next (kTop (wreq f index.toNat sub.toNat data) s)

def execKey (f : KFrom) (data : List Byte) (s : State) : Host.Outcome State Fault Refusal := .next (kTop (wreq f 0x2001 0 data) s)
def execPassword (f : KFrom) (data : List Byte) (s : State) : Host.Outcome State Fault Refusal := .next (kTop (wreq f 0x2002 1 data) s)
def execClose (f : KFrom) (data : List Byte) (s : State) : Host.Outcome State Fault Refusal := .next (kTop (wreq f 0x2002 2 data) s)
def execNewPassword (f : KFrom) (data : List Byte) (s : State) : Host.Outcome State Fault Refusal := .next (kTop (wreq f 0x2002 3 data) s)
def execRoleExchange (f : KFrom) (data : List Byte) (s : State) : Host.Outcome State Fault Refusal := .next (kTop (wreq f 0x2003 0 data) s)
def execLogAck (f : KFrom) (data : List Byte) (s : State) : Host.Outcome State Fault Refusal := .next (kTop (wreq f 0x3050 2 data) s)
def execStoreParameters (f : KFrom) (data : List Byte) (s : State) : Host.Outcome State Fault Refusal := .next (kTop (wreq f 0x1010 1 data) s)
def execRestoreDefaults (f : KFrom) (data : List Byte) (s : State) : Host.Outcome State Fault Refusal := .next (kTop (wreq f 0x1011 1 data) s)
def execRoutedRequest (f : KFrom) (data : List Byte) (s : State) : Host.Outcome State Fault Refusal := .next (kTop (wreq f 0x2011 1 data) s)
def execRoutedResponse (f : KFrom) (s : State) : Host.Outcome State Fault Refusal := .next (kTop (rreq f 0x2011 2) s)
def execOverlayWrite (f : KFrom) (i : Fin 16) (data : List Byte) (s : State) : Host.Outcome State Fault Refusal :=
  .next (kTop (wreq f (0x3400 + i.val) 1 data) s)
def execApproval (f : KFrom) (i : Fin 16) (data : List Byte) (s : State) : Host.Outcome State Fault Refusal :=
  .next (kTop (wreq f (0x3400 + i.val) 2 data) s)
def execOverlaySelection (f : KFrom) (data : List Byte) (s : State) : Host.Outcome State Fault Refusal := .next (kTop (wreq f 0x3410 1 data) s)

/-- GO: a write of KS_HP_CTRL.GO (R420, R431). -/
def execGo (who : Requester) (s : State) : Host.Outcome State Fault Refusal :=
  .next (if !regReach s then s
    else
      let s1 := armLock who s
      if !afterBoot s1 then dropWrite who 0xF48018 6 s1 else whenB (!s1.ks.hpBusy) kioskGo s1)

def execSvcReceived (k : RxCheck) (e : BitVec 16) (m : LaneMsg) (s : State) : Host.Outcome State Fault Refusal :=
  .next (onFrame k e.toNat (laneTraffic m) s)

def execForwardTimeout (msgid : BitVec 8) (s : State) : Host.Outcome State Fault Refusal := .next (forwardTimeout msgid.toNat s)

/-- FORWARDED_RESPONSE; one from a link node is taken from the service channel. -/
def execForwardedResponse (msgid : BitVec 8) (r : KResp) (s : State) : Host.Outcome State Fault Refusal :=
  .next (forwardDone msgid.toNat r (match s.ks.fwd.find? fun x => x.msgid == msgid.toNat with
    | some x => takeDone x.out s
    | none => s))

/-! ### Password, log and stores -/

def execAuthorisationIdleTimeout (src : BitVec 18) (port : KPort) (s : State) : Host.Outcome State Fault Refusal := .next (closeFor src port s)

/-- LOCKOUT_END (R281). -/
def execLockoutEnd (s : State) : Host.Outcome State Fault Refusal := .next (showPw (setPw { s.gh.pw with locked := false, lockEnd := 0 } s))

def execLogEntryVerified (ok : Bool) (s : State) : Host.Outcome State Fault Refusal := .next (logVerified ok s)
def execConfigurationStoreComplete (ok : Bool) (s : State) : Host.Outcome State Fault Refusal := .next (storeComplete ok s)
def execPartnerCompletionTimeout (s : State) : Host.Outcome State Fault Refusal := .next (partnerTimeout s)

/-! ### CANopen services (R415-R417) -/

def copAddr (c : Fin 2) : Nat := cnBase c + 12

/-- The slave services run on a port: enabled, with a node-ID, on the bus and able to transmit. -/
def coUp (s : State) (c : Fin 2) : Bool :=
  afterBoot s && bitOf s (copAddr c) 19 && decide (fldOf s (copAddr c) 17 11 ≠ 0) && cnOnBus s.can[c] && !cnLomf s c

/-- SDO_REQUEST to NODEID: served as a request of the active alias (R417, R431). -/
def sdoRequest (c : Fin 2) (q : KReq) (s : State) : State := if coUp s c then kServe q s else s

/-- The source and destination of an SDO request (R431). -/
def sdoFrom (s : State) (c : Fin 2) (reqid : BitVec 16) : KFrom :=
  { port := .can c, src := BitVec.ofNat 18 (fldOf s (0xF48004 + c.val) 17 0),
    dst := BitVec.ofNat 18 (if bitOf s 0xF48001 19 then fldOf s 0xF48001 17 0 else fldOf s 0xF48000 17 0), reqid := reqid, hop := 0 }

def execSdoRequest (c : Fin 2) (write : Bool) (index : BitVec 16) (sub : BitVec 8) (data : List Byte) (reqid : BitVec 16) (s : State) :
    Host.Outcome State Fault Refusal := .next (sdoRequest c ⟨sdoFrom s c reqid, write, index, sub, data⟩ s)

/-- The CANopen layer of a port starts anew; nothing else does (R416). -/
def copReset (c : Fin 2) (s : State) : State := setCan c { s.can[c] with stopped := false, beats := 0, tpdo := [] } s

def execNmtResetNode (c : Fin 2) (s : State) : Host.Outcome State Fault Refusal := .next (if bitOf s (copAddr c) 19 then copReset c s else s)

def execNmtResetCommunication (c : Fin 2) (s : State) : Host.Outcome State Fault Refusal :=
  .next (if bitOf s (copAddr c) 19 then copReset c s else s)

/-- NMT_STOPPED halts that port's PDOs and heartbeat (R416). -/
def execNmtStopped (c : Fin 2) (s : State) : Host.Outcome State Fault Refusal :=
  .next (if bitOf s (copAddr c) 19 then setCan c { s.can[c] with stopped := true } s else s)

/-- DLC of a length. -/
def dlcOf (n : Nat) : Nat :=
  if n ≤ 8 then n else if n ≤ 12 then 9 else if n ≤ 16 then 10 else if n ≤ 20 then 11 else if n ≤ 24 then 12 else if n ≤ 32 then 13 else if n ≤ 48 then 14 else 15

/-- A frame of the CANopen layer, sent by the port: identifier as in a COB-ID, bit 29 for 29 bits. -/
def coSend (c : Fin 2) (cob : Nat) (data : List Byte) (s : State) : State :=
  let xtd := cob / 2 ^ 29 % 2 == 1
  let fdf := decide (8 < data.length)
  let w0 := word (xtd.toNat * 2 ^ 19 + fdf.toNat * 2 ^ 18 + dlcOf data.length * 2 ^ 11)
  let base := if xtd then cob / 2 ^ 18 % 2048 else cob % 2048
  let f := [w0, word base, word (if xtd then cob % 2 ^ 18 else 0), 0] ++ words64 (sysTime s) ++ cnData (data.map (·.toNat))
  count (cnBase c + 0x12) (setCan c { s.can[c] with sent := f :: s.can[c].sent } s)

/-- HEARTBEAT: 700h + NODEID with the state operational (R415-R417). -/
def heartbeat (c : Fin 2) (s : State) : State :=
  if coUp s c && !s.can[c].stopped && mapGet 0 s.ks.vals (ekey 0x1017 0) != 0 then
    let s1 := coSend c (0x700 + fldOf s (copAddr c) 17 11) [5] s
    setCan c { s1.can[c] with beats := s1.can[c].beats + 1 } s1
  else s

def execHeartbeat (c : Fin 2) (s : State) : Host.Outcome State Fault Refusal := .next (heartbeat c s)

/-- A value of a PDO's parameters. -/
def pdoVal (s : State) (i sub : Nat) : Nat := (mapGet 0 s.ks.vals (ekey i sub)).toNat

/-- The port of a PDO (2010h). -/
def pdoPort (s : State) (sub : Nat) : Fin 2 := Fin.ofNat 2 (pdoVal s 0x2010 sub)

/-- The entries mapped into a PDO: index, sub-index, bytes (R424). -/
def mapped (s : State) (i : Nat) : List (Nat × Nat × Nat) :=
  (List.range (min 8 (pdoVal s i 0))).map fun k =>
    let w := pdoVal s i (k + 1)
    let m := mirrorOf s (w / 2 ^ 16) (w / 2 ^ 8 % 256)
    (m.1, m.2, w % 256 / 8)

/-- The bytes of a TPDO. -/
def tpdoBytes (s : State) (n : Nat) : List Byte :=
  (mapped s (0x1A00 + n)).flatMap fun x => match kLookup s x.1 x.2.1 with
    | .found e => leBytes x.2.2 (entryValue s e x.1 x.2.1)
    | _ => leBytes x.2.2 0

def tpdoSt (s : State) (n : Nat) : TpdoSt := mapGet TpdoSt.reset s.can[pdoPort s (65 + n)].tpdo n

def setTpdo (n : Nat) (x : TpdoSt) (s : State) : State :=
  let c := pdoPort s (65 + n)
  setCan c { s.can[c] with tpdo := mapPut TpdoSt.reset s.can[c].tpdo n x } s

/-- A TPDO is transmitted, or held back while its inhibit time runs (R415). -/
def tpdoSend (n : Nat) (s : State) : State :=
  let c := pdoPort s (65 + n)
  let cob := pdoVal s (0x1800 + n) 1
  if !coUp s c || s.can[c].stopped || cob / 2 ^ 31 % 2 == 1 || pdoVal s (0x1A00 + n) 0 == 0 then s
  else if (tpdoSt s n).inhibit then setTpdo n { tpdoSt s n with held := true } s
  else
    let s1 := coSend c cob (tpdoBytes s n) s
    setTpdo n { inhibit := decide (pdoVal s (0x1800 + n) 3 ≠ 0), held := false } s1

def execTpdoEventTimer (n : Fin 64) (s : State) : Host.Outcome State Fault Refusal := .next (tpdoSend n.val s)

/-- TPDO_INHIBIT_EXPIRY: one held back is transmitted now. -/
def inhibitExpiry (n : Nat) (s : State) : State :=
  let x := tpdoSt s n
  let s1 := setTpdo n { inhibit := false, held := false } s
  if x.held then tpdoSend n s1 else s1

def execTpdoInhibitExpiry (n : Fin 64) (s : State) : Host.Outcome State Fault Refusal := .next (inhibitExpiry n.val s)

/-- The mapped entries are written in order, each as a dictionary write without an answer. -/
def rpdoWrites (f : KFrom) : List (Nat × Nat × Nat) → List Byte → State → State
  | [], _, s => s
  | x :: r, b, s =>
    let s1 := match kLookup s x.1 x.2.1 with
      | .found e => (serveWrite false (wreq f x.1 x.2.1 (b.take x.2.2)) e x.1 x.2.1 s).2
      | _ => s
    rpdoWrites f r (b.drop x.2.2) s1

/-- RPDO: a frame long enough for its mapping writes its entries (R415). -/
def rpdoEff (n : Nat) (data : List Byte) (s : State) : State :=
  let c := pdoPort s (1 + n)
  let l := mapped s (0x1600 + n)
  if !coUp s c || s.can[c].stopped || pdoVal s (0x1400 + n) 1 / 2 ^ 31 % 2 == 1 || data.length < (l.map (·.2.2)).sum then s
  else rpdoWrites (sdoFrom s c 0) l data s

def execRpdo (n : Fin 64) (data : List Byte) (s : State) : Host.Outcome State Fault Refusal := .next (rpdoEff n.val data s)

end Sys2Proof.Machine
end

