-- ==== Sys2Proof/Machine/Dispatch.lean ====
section
/-! DEFINITION. One arm per command: each calls the command's meaning. -/

namespace Sys2Proof.Machine

/-- The effect of a command on everything but the queue. -/
def exec (i : Instr) (s : State) : Host.Outcome State Fault Refusal :=
  match i with
  | .sundialUpdate => Sys2Proof.Machine.execSundialUpdate s
  | .sundialDispatch => Sys2Proof.Machine.execSundialDispatch s
  | .w0Write who e v => Sys2Proof.Machine.execW0Write who e v s
  | .timebaseStandstill t => Sys2Proof.Machine.execTimebaseStandstill t s
  | .mainsSenseEdge e => Sys2Proof.Machine.execMainsSenseEdge e s
  | .mainsLost => Sys2Proof.Machine.execMainsLost s
  | .quadratureEdge n a b e => Sys2Proof.Machine.execQuadratureEdge n a b e s
  | .pulseAndDirectionStep n b stable e => Sys2Proof.Machine.execPulseAndDirectionStep n b stable e s
  | .toothEdge n b e => Sys2Proof.Machine.execToothEdge n b e s
  | .zIndex n e => Sys2Proof.Machine.execZIndex n e s
  | .ssiFrameEnd n lowAtCi start tailHigh clkBad v => Sys2Proof.Machine.execSsiFrameEnd n lowAtCi start tailHigh clkBad v s
  | .mainsZeroCrossing n e => Sys2Proof.Machine.execMainsZeroCrossing n e s
  | .phaseLost n => Sys2Proof.Machine.execPhaseLost n s
  | .fack who n => Sys2Proof.Machine.execFack who n s
  | .unseat who n => Sys2Proof.Machine.execUnseat who n s
  | .move o => Sys2Proof.Machine.execMove o s
  | .speed o => Sys2Proof.Machine.execSpeed o s
  | .follow o => Sys2Proof.Machine.execFollow o s
  | .stopNormal o => Sys2Proof.Machine.execStopNormal o s
  | .stopQuick o => Sys2Proof.Machine.execStopQuick o s
  | .landing o => Sys2Proof.Machine.execLanding o s
  | .ack o => Sys2Proof.Machine.execAck o s
  | .standstillEntry o => Sys2Proof.Machine.execStandstillEntry o s
  | .standstillStore o ok => Sys2Proof.Machine.execStandstillStore o ok s
  | .treatmentWithdrawalTimeout o => Sys2Proof.Machine.execTreatmentWithdrawalTimeout o s
  | .batchStart late t => Sys2Proof.Machine.execBatchStart late t s
  | .batchEnd bad t => Sys2Proof.Machine.execBatchEnd bad t s
  | .start g => Sys2Proof.Machine.execStart g s
  | .abort who g => Sys2Proof.Machine.execAbort who g s
  | .injectionEnd g => Sys2Proof.Machine.execInjectionEnd g s
  | .markReceived p k m t => Sys2Proof.Machine.execMarkReceived p k m t s
  | .cstartReceived p k src u => Sys2Proof.Machine.execCstartReceived p k src u s
  | .listenEnd => Sys2Proof.Machine.execListenEnd s
  | .coldstartEnd => Sys2Proof.Machine.execColdstartEnd s
  | .clash => Sys2Proof.Machine.execClash s
  | .retry who => Sys2Proof.Machine.execRetry who s
  | .uplinkFrame p k u => Sys2Proof.Machine.execUplinkFrame p k u s
  | .emptySlot n => Sys2Proof.Machine.execEmptySlot n s
  | .serviceDownlink c => Sys2Proof.Machine.execServiceDownlink c s
  | .serviceUplink p k u accept => Sys2Proof.Machine.execServiceUplink p k u accept s
  | .setPointFrame c => Sys2Proof.Machine.execSetPointFrame c s
  | .partnerSetpHeard p k n seq e x => Sys2Proof.Machine.execPartnerSetpHeard p k n seq e x s
  | .linkPortSyncLost p inFrame => Sys2Proof.Machine.execLinkPortSyncLost p inFrame s
  | .portSyncAcquired p => Sys2Proof.Machine.execPortSyncAcquired p s
  | .timePpsEdge e => Sys2Proof.Machine.execTimePpsEdge e s
  | .ppsHoldover => Sys2Proof.Machine.execPpsHoldover s
  | .stage => Sys2Proof.Machine.execStage s
  | .abortBeforeCommit => Sys2Proof.Machine.execAbortBeforeCommit s
  | .clear => Sys2Proof.Machine.execClear s
  | .groupCommitDecision => Sys2Proof.Machine.execGroupCommitDecision s
  | .groupInconsistent => Sys2Proof.Machine.execGroupInconsistent s
  | .stateReceived k e u => Sys2Proof.Machine.execStateReceived k e u s
  | .incReceived k e fb sdm km => Sys2Proof.Machine.execIncReceived k e fb sdm km s
  | .inReceived k e b mask recs => Sys2Proof.Machine.execInReceived k e b mask recs s
  | .sigReceived k e b isig osig => Sys2Proof.Machine.execSigReceived k e b isig osig s
  | .diagnosisOutcome => Sys2Proof.Machine.execDiagnosisOutcome s
  | .dresReceived k e pass => Sys2Proof.Machine.execDresReceived k e pass s
  | .bndCutOff bad => Sys2Proof.Machine.execBndCutOff bad s
  | .bndReceived k e entries => Sys2Proof.Machine.execBndReceived k e entries s
  | .adoptReceived k e a => Sys2Proof.Machine.execAdoptReceived k e a s
  | .failReceived k e cause => Sys2Proof.Machine.execFailReceived k e cause s
  | .pairLost => Sys2Proof.Machine.execPairLost s
  | .bridging => Sys2Proof.Machine.execBridging s
  | .takeover => Sys2Proof.Machine.execTakeover s
  | .xreqReceived k e x => Sys2Proof.Machine.execXreqReceived k e x s
  | .xackReceived k e x refusal => Sys2Proof.Machine.execXackReceived k e x refusal s
  | .xackTimeout => Sys2Proof.Machine.execXackTimeout s
  | .exchange => Sys2Proof.Machine.execExchange s
  | .exchangeOverlapEnd => Sys2Proof.Machine.execExchangeOverlapEnd s
  | .arm who g => Sys2Proof.Machine.execArm who g s
  | .force who g => Sys2Proof.Machine.execForce who g s
  | .stop who g => Sys2Proof.Machine.execStop who g s
  | .recordDone g => Sys2Proof.Machine.execRecordDone g s
  | .arch who g slot ovw => Sys2Proof.Machine.execArch who g slot ovw s
  | .archiveComplete ok => Sys2Proof.Machine.execArchiveComplete ok s
  | .dsto who groups => Sys2Proof.Machine.execDsto who groups s
  | .dss1 who groups => Sys2Proof.Machine.execDss1 who groups s
  | .gatehouseAck who groups => Sys2Proof.Machine.execGatehouseAck who groups s
  | .bdlyExpiry g => Sys2Proof.Machine.execBdlyExpiry g s
  | .ss1tExpiry g => Sys2Proof.Machine.execSs1tExpiry g s
  | .demandInputSample => Sys2Proof.Machine.execDemandInputSample s
  | .demandDiscrepancy d => Sys2Proof.Machine.execDemandDiscrepancy d s
  | .testPulse g low => Sys2Proof.Machine.execTestPulse g low s
  | .testPulseEnd g pass => Sys2Proof.Machine.execTestPulseEnd g pass s
  | .safeOffLineMismatch g => Sys2Proof.Machine.execSafeOffLineMismatch g s
  | .brakeFeedbackMismatch n => Sys2Proof.Machine.execBrakeFeedbackMismatch n s
  | .brkFbChange n level => Sys2Proof.Machine.execBrkFbChange n level s
  | .watchdogService who c v t => Sys2Proof.Machine.execWatchdogService who c v t s
  | .watchdogConfigWrite who c v t => Sys2Proof.Machine.execWatchdogConfigWrite who c v t s
  | .watchdogWindowMissed c => Sys2Proof.Machine.execWatchdogWindowMissed c s
  | .rescan b off mask => Sys2Proof.Machine.execRescan b off mask s
  | .scrub m e => Sys2Proof.Machine.execScrub m e s
  | .clockFault reference => Sys2Proof.Machine.execClockFault reference s
  | .refreshLoss => Sys2Proof.Machine.execRefreshLoss s
  | .degradedTimeExpiry => Sys2Proof.Machine.execDegradedTimeExpiry s
  | .faultRecordWrite => Sys2Proof.Machine.execFaultRecordWrite s
  | .sdmResult k r stuck => Sys2Proof.Machine.execSdmResult k r stuck s
  | .railFault r => Sys2Proof.Machine.execRailFault r s
  | .railMeasurement vcore vser vaux vio => Sys2Proof.Machine.execRailMeasurement vcore vser vaux vio s
  | .retTExpiry => Sys2Proof.Machine.execRetTExpiry s
  | .chopperDutyEnd => Sys2Proof.Machine.execChopperDutyEnd s
  | .initSet who c => Sys2Proof.Machine.execInitSet who c s
  | .initClear who c => Sys2Proof.Machine.execInitClear who c s
  | .integrationComplete c => Sys2Proof.Machine.execIntegrationComplete c s
  | .txrq who c o => Sys2Proof.Machine.execTxrq who c o s
  | .cancel who c o => Sys2Proof.Machine.execCancel who c o s
  | .push who c => Sys2Proof.Machine.execPush who c s
  | .flush who c => Sys2Proof.Machine.execFlush who c s
  | .rpop who c => Sys2Proof.Machine.execRpop who c s
  | .pop who c => Sys2Proof.Machine.execPop who c s
  | .startOfFrame c t => Sys2Proof.Machine.execStartOfFrame c t s
  | .frameEnd c r tdcm t => Sys2Proof.Machine.execFrameEnd c r tdcm t s
  | .frameReceived c f sof => Sys2Proof.Machine.execFrameReceived c f sof s
  | .busOffRecovery c => Sys2Proof.Machine.execBusOffRecovery c s
  | .porstNLow => Sys2Proof.Machine.execPorstNLow s
  | .railPowerOnReset => Sys2Proof.Machine.execRailPowerOnReset s
  | .rstNReset => Sys2Proof.Machine.execRstNReset s
  | .rstNRelease => Sys2Proof.Machine.execRstNRelease s
  | .powerUpEnd testEn => Sys2Proof.Machine.execPowerUpEnd testEn s
  | .bootStepComplete damaged => Sys2Proof.Machine.execBootStepComplete damaged s
  | .bwaitExpiry => Sys2Proof.Machine.execBwaitExpiry s
  | .bootHold => Sys2Proof.Machine.execBootHold s
  | .bootHoldRelease => Sys2Proof.Machine.execBootHoldRelease s
  | .nvPdataWrite hi lo => Sys2Proof.Machine.execNvPdataWrite hi lo s
  | .nvMdataWrite v => Sys2Proof.Machine.execNvMdataWrite v s
  | .nvMdataRead who => Sys2Proof.Machine.execNvMdataRead who s
  | .run who => Sys2Proof.Machine.execRun who s
  | .autorunExpiry => Sys2Proof.Machine.execAutorunExpiry s
  | .bstore who => Sys2Proof.Machine.execBstore who s
  | .swrst who => Sys2Proof.Machine.execSwrst who s
  | .recov who => Sys2Proof.Machine.execRecov who s
  | .flushComplete => Sys2Proof.Machine.execFlushComplete s
  | .internalResetRelease => Sys2Proof.Machine.execInternalResetRelease s
  | .operatingHour => Sys2Proof.Machine.execOperatingHour s
  | .tapInstruction op => Sys2Proof.Machine.execTapInstruction op s
  | .tapReset => Sys2Proof.Machine.execTapReset s
  | .svcReceived k e m => Sys2Proof.Machine.execSvcReceived k e m s
  | .roleExchange f data => Sys2Proof.Machine.execRoleExchange f data s
  | .password f data => Sys2Proof.Machine.execPassword f data s
  | .close f data => Sys2Proof.Machine.execClose f data s
  | .newPassword f data => Sys2Proof.Machine.execNewPassword f data s
  | .authorisationIdleTimeout src port => Sys2Proof.Machine.execAuthorisationIdleTimeout src port s
  | .lockoutEnd => Sys2Proof.Machine.execLockoutEnd s
  | .logAck f data => Sys2Proof.Machine.execLogAck f data s
  | .logEntryVerified ok => Sys2Proof.Machine.execLogEntryVerified ok s
  | .sdoRequest c write index sub data reqid => Sys2Proof.Machine.execSdoRequest c write index sub data reqid s
  | .nmtResetNode c => Sys2Proof.Machine.execNmtResetNode c s
  | .nmtResetCommunication c => Sys2Proof.Machine.execNmtResetCommunication c s
  | .nmtStopped c => Sys2Proof.Machine.execNmtStopped c s
  | .heartbeat c => Sys2Proof.Machine.execHeartbeat c s
  | .rpdo n data => Sys2Proof.Machine.execRpdo n data s
  | .tpdoEventTimer n => Sys2Proof.Machine.execTpdoEventTimer n s
  | .tpdoInhibitExpiry n => Sys2Proof.Machine.execTpdoInhibitExpiry n s
  | .dictionaryRead f index sub => Sys2Proof.Machine.execDictionaryRead f index sub s
  | .dictionaryWrite f index sub data => Sys2Proof.Machine.execDictionaryWrite f index sub data s
  | .key f data => Sys2Proof.Machine.execKey f data s
  | .storeParameters f data => Sys2Proof.Machine.execStoreParameters f data s
  | .restoreDefaults f data => Sys2Proof.Machine.execRestoreDefaults f data s
  | .routedRequest f data => Sys2Proof.Machine.execRoutedRequest f data s
  | .routedResponse f => Sys2Proof.Machine.execRoutedResponse f s
  | .overlayWrite f k data => Sys2Proof.Machine.execOverlayWrite f k data s
  | .approval f k data => Sys2Proof.Machine.execApproval f k data s
  | .overlaySelection f data => Sys2Proof.Machine.execOverlaySelection f data s
  | .forwardTimeout msgid => Sys2Proof.Machine.execForwardTimeout msgid s
  | .forwardedResponse msgid r => Sys2Proof.Machine.execForwardedResponse msgid r s
  | .configurationStoreComplete ok => Sys2Proof.Machine.execConfigurationStoreComplete ok s
  | .partnerCompletionTimeout => Sys2Proof.Machine.execPartnerCompletionTimeout s
  | .go who => Sys2Proof.Machine.execGo who s
  | .registerWrite who a v => Sys2Proof.Machine.execRegisterWrite who a v s
  | .scUnlock who v => Sys2Proof.Machine.execScUnlock who v s
  | .slowDomainTransfer => Sys2Proof.Machine.execSlowDomainTransfer s
  | .hostPortFrame frame => Sys2Proof.Machine.execHostPortFrame frame s
  | .gpioEdge pin level => Sys2Proof.Machine.execGpioEdge pin level s
  | .biquadCommit who n v => Sys2Proof.Machine.execBiquadCommit who n v s
  | .blendTableCommit who n v => Sys2Proof.Machine.execBlendTableCommit who n v s
  | .servoPeriodBoundary t => Sys2Proof.Machine.execServoPeriodBoundary t s
  | .commonInstant t => Sys2Proof.Machine.execCommonInstant t s
  | .taskAcceptance c h => Sys2Proof.Machine.execTaskAcceptance c h s
  | .halt who c => Sys2Proof.Machine.execHalt who c s
  | .storeBufferDrain c => Sys2Proof.Machine.execStoreBufferDrain c s
  | .loadDataReturn c => Sys2Proof.Machine.execLoadDataReturn c s
  | .nop c m => Sys2Proof.Machine.execNop c m s
  | .add c d r m => Sys2Proof.Machine.execAdd c d r m s
  | .adc c d r m => Sys2Proof.Machine.execAdc c d r m s
  | .sub c d r m => Sys2Proof.Machine.execSub c d r m s
  | .sbc c d r m => Sys2Proof.Machine.execSbc c d r m s
  | .cmp c d r m => Sys2Proof.Machine.execCmp c d r m s
  | .and c d r m => Sys2Proof.Machine.execAnd c d r m s
  | .or c d r m => Sys2Proof.Machine.execOr c d r m s
  | .xor c d r m => Sys2Proof.Machine.execXor c d r m s
  | .adds c d r m => Sys2Proof.Machine.execAdds c d r m s
  | .subs c d r m => Sys2Proof.Machine.execSubs c d r m s
  | .min c d r m => Sys2Proof.Machine.execMin c d r m s
  | .max c d r m => Sys2Proof.Machine.execMax c d r m s
  | .tst c d r m => Sys2Proof.Machine.execTst c d r m s
  | .neg c d m => Sys2Proof.Machine.execNeg c d m s
  | .abs c d m => Sys2Proof.Machine.execAbs c d m s
  | .not c d m => Sys2Proof.Machine.execNot c d m s
  | .asl c d n m => Sys2Proof.Machine.execAsl c d n m s
  | .asr c d n m => Sys2Proof.Machine.execAsr c d n m s
  | .lsr c d n m => Sys2Proof.Machine.execLsr c d n m s
  | .aslv c d r m => Sys2Proof.Machine.execAslv c d r m s
  | .asrv c d r m => Sys2Proof.Machine.execAsrv c d r m s
  | .lsrv c d r m => Sys2Proof.Machine.execLsrv c d r m s
  | .bset c d b m => Sys2Proof.Machine.execBset c d b m s
  | .bclr c d b m => Sys2Proof.Machine.execBclr c d b m s
  | .btst c d b m => Sys2Proof.Machine.execBtst c d b m s
  | .norm c d r m => Sys2Proof.Machine.execNorm c d r m s
  | .exp c d r m => Sys2Proof.Machine.execExp c d r m s
  | .mpy c k d r mode m => Sys2Proof.Machine.execMpy c k d r mode m s
  | .mac c k d r mode m => Sys2Proof.Machine.execMac c k d r mode m s
  | .msu c k d r mode m => Sys2Proof.Machine.execMsu c k d r mode m s
  | .lda c k d m => Sys2Proof.Machine.execLda c k d m s
  | .adda c k d m => Sys2Proof.Machine.execAdda c k d m s
  | .suba c k d m => Sys2Proof.Machine.execSuba c k d m s
  | .clra c k m => Sys2Proof.Machine.execClra c k m s
  | .nega c k m => Sys2Proof.Machine.execNega c k m s
  | .absa c k m => Sys2Proof.Machine.execAbsa c k m s
  | .shav c k r m => Sys2Proof.Machine.execShav c k r m s
  | .suma c k m => Sys2Proof.Machine.execSuma c k m s
  | .norma c k d m => Sys2Proof.Machine.execNorma c k d m s
  | .expa c d k m => Sys2Proof.Machine.execExpa c d k m s
  | .rnda c k m => Sys2Proof.Machine.execRnda c k m s
  | .addi c d imm => Sys2Proof.Machine.execAddi c d imm s
  | .subi c d imm => Sys2Proof.Machine.execSubi c d imm s
  | .cmpi c d imm => Sys2Proof.Machine.execCmpi c d imm s
  | .andi c d imm => Sys2Proof.Machine.execAndi c d imm s
  | .ori c d imm => Sys2Proof.Machine.execOri c d imm s
  | .xori c d imm => Sys2Proof.Machine.execXori c d imm s
  | .tsti c d imm => Sys2Proof.Machine.execTsti c d imm s
  | .ldi c d imm => Sys2Proof.Machine.execLdi c d imm s
  | .ldxy c dx dy a b ma mb ecc => Sys2Proof.Machine.execLdxy c dx dy a b ma mb ecc s
  | .stxy c dx dy a b ma mb => Sys2Proof.Machine.execStxy c dx dy a b ma mb s
  | .ld c r k mod w ecc => Sys2Proof.Machine.execLd c r k mod w ecc s
  | .st c r k mod w => Sys2Proof.Machine.execSt c r k mod w s
  | .mov c rd rs => Sys2Proof.Machine.execMov c rd rs s
  | .movf c dd k sh => Sys2Proof.Machine.execMovf c dd k sh s
  | .movi c rd imm => Sys2Proof.Machine.execMovi c rd imm s
  | .moda c k mod => Sys2Proof.Machine.execModa c k mod s
  | .ldLong c r addr ecc => Sys2Proof.Machine.execLdLong c r addr ecc s
  | .stLong c r addr => Sys2Proof.Machine.execStLong c r addr s
  | .movi24 c r imm => Sys2Proof.Machine.execMovi24 c r imm s
  | .b c cond anl target => Sys2Proof.Machine.execB c cond anl target s
  | .call c cond anl r target => Sys2Proof.Machine.execCall c cond anl r target s
  | .jr c cond anl r => Sys2Proof.Machine.execJr c cond anl r s
  | .lbrk c => Sys2Proof.Machine.execLbrk c s
  | .rpt c count last => Sys2Proof.Machine.execRpt c count last s
  | .systemNop c => Sys2Proof.Machine.execSystemNop c s
  | .wait c => Sys2Proof.Machine.execWait c s
  | .rte c => Sys2Proof.Machine.execRte c s
  | .illegalInstruction c why => Sys2Proof.Machine.execIllegalInstruction c why s
  | .post who n desc => Sys2Proof.Machine.execPost who n desc s
  | .dpost who n desc => Sys2Proof.Machine.execDpost who n desc s
  | .dcancel who n handle => Sys2Proof.Machine.execDcancel who n handle s
  | .systemTick => Sys2Proof.Machine.execSystemTick s
  | .eventSourcePost n => Sys2Proof.Machine.execEventSourcePost n s
  | .snap who => Sys2Proof.Machine.execSnap who s
  | .counterLoad who k lo => Sys2Proof.Machine.execCounterLoad who k lo s
  | .counterWrap k amount => Sys2Proof.Machine.execCounterWrap k amount s

end Sys2Proof.Machine
end

