-- ==== Sys2Proof/Machine/Pins.lean ====
section
/-! DEFINITION. The level at each output pin: none is high-impedance, true is high (20 R486-R490; 01 R20, R21; 02 R55; 03 R86; 08 R227; 10 R291, R305; 15 R411; 16 R431; 17 R456; 19 R478). -/

namespace Sys2Proof.Machine

/-- What the scan chain leaves of an output: HIGHZ turns it off. The levels of EXTEST and CLAMP are those of the boundary register, which is not modelled (R478). -/
def scanned (s : State) (x : Option Bool) : Option Bool := if s.sys.tap = .highz then none else x

/-- SAFE_OFFg_P, the high-side switch; low in POWER-UP and while a reset is held, and while no role drives it (R257, R488, R489). A test pulse opens one switch (R268). -/
def safeOffP (s : State) (g : Fin 4) : Option Bool := scanned s (some (safeOffOn s g && s.gh.grp[g].pulse != 1))

/-- SAFE_OFFg_N, the low-side switch. -/
def safeOffN (s : State) (g : Fin 4) : Option Bool := scanned s (some (safeOffOn s g && s.gh.grp[g].pulse != 2))

/-- BRKn (R258, R489). -/
def brkPin (s : State) (n : Fin 8) : Option Bool := scanned s (some (s.gh.brk.getLsbD n.val))

/-- The EVO outputs are driven: by the active unit of a pair; by a single unit from BOOT onward (R55, R227, R489). That a unit of a pair drives none before it has a role is the model's (DESIGN CHOICE, log entry 72). -/
def evoDriven (s : State) : Bool := nvReach s && (if paired s then roleNow s == 1 else !s.pr.silent)

def evoPin (s : State) (o : Fin 16) : Option Bool := scanned s (if evoDriven s then some (s.sd.evo.getLsbD o.val) else none)

/-- FBOm_A, FBOm_B and FBOm_Z (R80, R82, R85, R86). -/
def fboPins (s : State) (m : Fin 8) : Option FboPins := if s.sys.tap = .highz then none else fboPin s m

/-- CHOP, driven while the unit is active (R227, R304, R305). -/
def chopPin (s : State) : Option Bool := scanned s (if fboDriven s then some s.ph.chop else none)

/-- HOLD_DIS: a unit that drove it when it entered L5 keeps it on through the reset held (R303, R305, R489). -/
def holdDisPin (s : State) : Option Bool :=
  scanned s (if s.ph.l5 then (if s.ph.holdDis then some true else none) else if fboDriven s then some s.ph.holdDis else none)

/-- HOLD_CHG: off where HOLD_DIS is kept on in L5. -/
def holdChgPin (s : State) : Option Bool :=
  scanned s (if s.ph.l5 then (if s.ph.holdDis then some false else none) else if fboDriven s then some s.ph.holdChg else none)

/-- SDM_CLK runs: from CONFIG in a single unit and in unit A of a pair, until a role decides (R227, R291). In TEST it does not (DESIGN CHOICE, log entry 72). -/
def sdmClkDriven (s : State) : Bool :=
  afterBoot s && !s.sys.rstHeld && s.sys.tap != .highz &&
    (if paired s then roleNow s == 1 || (roleNow s == 0 && !lkUnitB s) else true)

/-- CANn_TX is driven in every state from BOOT onward, recessive whenever the controller is not transmitting (R411, R489). -/
def canTxDriven (s : State) : Bool := nvReach s && s.sys.tap != .highz

/-- A GPIO pin (R456, R489). -/
def gpioPin (s : State) (pin : Fin 32) : Option Bool := scanned s (if gpioDriven s pin.val then some (gpioLevel s pin.val) else none)

/-- HP_IRQ_N, an open drain: low while RVAL and IRQE are 1 (R431, R489). -/
def hpIrqPin (s : State) : Option Bool :=
  scanned s (if nvReach s && bitOf s 0xF48018 18 && bitOf s 0xF48018 17 then some false else none)

end Sys2Proof.Machine
end

