-- ==== Sys2Proof/Safety.lean ====
section
/-! DEFINITION. The terms claims use: the parts of the state a command leaves alone, the registers it leaves alone, and the canonical form of the memories. -/

namespace Sys2Proof.Machine

/-- The parts of the state that a frame names. -/
inductive Part where
  | pending | now | freeCtr | sys | regs | held | mem | cores | pg | sd | mains | fb | fbo | mo | sv | bv | lk | time | pr | gh | ph
  | can | ks | pc
  deriving DecidableEq, Repr

/-- Part p of two states is the same. -/
def Part.same (s t : State) : Part → Prop
  | .pending => t.pending = s.pending
  | .now => t.now = s.now
  | .freeCtr => t.freeCtr = s.freeCtr
  | .sys => t.sys = s.sys
  | .regs => t.regs = s.regs
  | .held => t.held = s.held
  | .mem => t.mem = s.mem
  | .cores => t.cores = s.cores
  | .pg => t.pg = s.pg
  | .sd => t.sd = s.sd
  | .mains => t.mains = s.mains
  | .fb => t.fb = s.fb
  | .fbo => t.fbo = s.fbo
  | .mo => t.mo = s.mo
  | .sv => t.sv = s.sv
  | .bv => t.bv = s.bv
  | .lk => t.lk = s.lk
  | .time => t.time = s.time
  | .pr => t.pr = s.pr
  | .gh => t.gh = s.gh
  | .ph => t.ph = s.ph
  | .can => t.can = s.can
  | .ks => t.ks = s.ks
  | .pc => t.pc = s.pc

/-- Every part but those listed is the same. -/
def sameBut (l : List Part) (s t : State) : Prop := ∀ p : Part, p ∉ l → p.same s t

/-- A register shows the same word, and the same word is in force. -/
def sameReg (s t : State) (a : Nat) : Prop := regGet t a = regGet s a ∧ inForce t a = inForce s a

/-- Every register but those listed is the same. -/
def regsBut (as : List Nat) (s t : State) : Prop := ∀ a, canonAddr a ∉ as → sameReg s t a

/-- The registers of the event controller and of the performance counters, which any event may change (R387, R377). -/
def eventReg (a : Nat) : Bool := (decide (0xF40000 ≤ a) && decide (a < 0xF44000)) || (decide (0xF4C000 ≤ a) && decide (a < 0xF50000))

/-- Every register but those listed and those that events change is the same. -/
def regsButEvents (as : List Nat) (s t : State) : Prop := ∀ a, canonAddr a ∉ as → eventReg (canonAddr a) = false → sameReg s t a

/-- What raising events may change: the pending event-source posts, armed capture groups that a trigger reaches, the counters, and the registers of both. -/
structure onlyEvents (s t : State) : Prop where
  parts : sameBut [.regs, .held, .pg, .bv, .pc] s t
  regs : regsButEvents [] s t
  pg : t.pg = { s.pg with evPend := t.pg.evPend }
  arch : t.bv.arch = s.bv.arch
  group : ∀ g : Fin 4, s.bv.g[g].st ≠ .armed → t.bv.g[g] = s.bv.g[g]

/-- The canonical form of the register file and of every memory: addresses strictly rising, no entry at what an unlisted address reads as. -/
def State.canonical (s : State) : Bool :=
  mapWf resetWord s.regs && mapWf (fun _ => 0) s.mem.xy && mapWf (fun _ => 0) s.mem.shared && mapWf (fun _ => 0) s.mem.bvRec &&
    mapWf (fun _ => 0) s.mem.pgm && mapWf (fun _ => 0) s.mem.mram

/-! ### Words of a core -/

/-- A core that takes its next word: no load outstanding, outside an annulled slot, and not in the slots of a return. -/
def coreReady (k : Core) : Prop :=
  takesWords k = true ∧ k.annul = 0 ∧ k.ldSlot = [] ∧ k.inFlight = [] ∧ (k.after = .none ∨ ∃ t, k.after = .jump t)

/-- An M-slot operation fit to stand beside an A-slot operation that writes the D registers ds, the accumulators acs and, where fl, the flags (R341, R353), with its data accesses in the core's own X and Y banks. -/
structure slotFits (ds : List DReg) (acs : List AcId) (fl : Bool) (m : MSlot) (k : Core) : Prop where
  d : ∀ d ∈ ds, d.val ∉ mWrites m
  ac : ∀ a ∈ acs, ∀ x ∈ mWrites m, x < 48 + 3 * a.val ∨ 51 + 3 * a.val ≤ x
  st : fl = true → 63 ∉ mWrites m
  own : wordBad nopSlot m = false
  ecc : mEcc m ≠ .uncorrectable
  access : ∀ e ∈ mAccesses k.r k.agOld m, addrFault e.1 e.2.1 e.2.2 = none ∧ e.1.toNat < 0x20000

/-- An M-slot operation that stores. -/
def slotStores : MSlot → Bool
  | .st .. => true
  | .stxy .. => true
  | _ => false

/-- What a word of core c that writes the D registers ds and the accumulators acs leaves alone: the other parts of the state, the other cores, memory but for a store, and every register that neither slot writes or modifies; outside repeats and delay slots the program counter moves on by one. -/
structure wordFrame (s u : State) (c : CoreId) (ds : List DReg) (acs : List AcId) (m : MSlot) : Prop where
  parts : sameBut [.regs, .held, .mem, .cores, .pg, .bv, .pc] s u
  regs : regsButEvents [0xF34042] s u
  mem : slotStores m = false → u.mem = s.mem
  others : ∀ k : CoreId, k ≠ c → u.cores[k] = s.cores[k]
  buffer : u.cores[c].storeBuf = s.cores[c].storeBuf
  d : ∀ e : DReg, e ∉ ds → e.val ∉ mWrites m → u.cores[c].r.d[e] = s.cores[c].r.d[e]
  ac : ∀ k : AcId, k ∉ acs → (∀ x ∈ mWrites m, x < 48 + 3 * k.val ∨ 51 + 3 * k.val ≤ x) → u.cores[c].r.ac[k] = s.cores[c].r.ac[k]
  a : ∀ k : Unit8, (∀ e ∈ mModifies m, e.1 ≠ k ∨ e.2 = .keep) → 16 + k.val ∉ mWrites m → u.cores[c].r.a[k] = s.cores[c].r.a[k]
  mbl : ∀ k : Unit8, (24 + k.val ∉ mWrites m → u.cores[c].r.m[k] = s.cores[c].r.m[k]) ∧
    (32 + k.val ∉ mWrites m → u.cores[c].r.b[k] = s.cores[c].r.b[k]) ∧ (40 + k.val ∉ mWrites m → u.cores[c].r.l[k] = s.cores[c].r.l[k])
  next : s.cores[c].slots = 0 → stDepth s.cores[c].r.st = 0 → u.cores[c].pc = s.cores[c].pc + 1

/-- The flags N, Z, V, C and the sticky SV of a status word. -/
def flagsAre (st : Word) (n z v c sv : Bool) : Prop :=
  bit st 19 = n ∧ bit st 18 = z ∧ bit st 17 = v ∧ bit st 16 = c ∧ bit st 13 = sv

/-- The flags of two status words are the same. -/
def flagsSame (st st' : Word) : Prop := flagsAre st' (bit st 19) (bit st 18) (bit st 17) (bit st 16) (bit st 13)

/-! ### Dictionary requests -/

/-- A request that this unit serves and answers anew: Kiosk serves, the request has been forwarded less than 8 times, is addressed to the unit and is no broadcast, and the record holds none of its source and identifier (R420, R429, R430, R432). -/
def freshHere (s : State) (f : KFrom) : Prop :=
  afterBoot s = true ∧ f.hop.toNat < 8 ∧ f.dst.toNat ≠ 262143 ∧ ownSnn s f.dst.toNat = true ∧
    ((∃ c, f.port = .can c) ∨ ∀ x ∈ s.ks.served, x.req.from_.src = f.src → x.req.from_.reqid ≠ f.reqid)

/-- The request is not one for the alias at a standby, whose writes are refused (R249). -/
def ownRole (s : State) (f : KFrom) : Prop :=
  isStandby s = false ∨ bitOf s 0xF48001 19 = false ∨ fldOf s 0xF48001 17 0 ≠ f.dst.toNat

/-- The last answer given is r, to the request named by the operands. -/
def answered (u : State) (f : KFrom) (write : Bool) (i sub : Nat) (data : List Byte) (r : KResp) : Prop :=
  u.ks.answer = some ⟨⟨f, write, BitVec.ofNat 16 i, BitVec.ofNat 8 sub, data⟩, r⟩

/-- The state in which firmware serves a request: the message is taken, a key written before is used up, and EV16 is raised (R422, R433). -/
def servedBy (f : KFrom) (s : State) : State :=
  let t := takeDone f.port s
  raiseEvent 16 (setKs { t.ks with keys := t.ks.keys.filter fun x => x != f.src } t)

/-- What a request answered to its requester leaves alone: every part but Kiosk, the frames sent, the events and the parts listed, and every register but Kiosk's, those of events and those listed. -/
def kioskFrame (ps : List Part) (as : List Nat) (s u : State) : Prop :=
  sameBut ([.ks, .lk, .regs, .held, .pg, .bv, .pc] ++ ps) s u ∧
    ∀ a, (canonAddr a < 0xF48000 ∨ 0xF4C000 ≤ canonAddr a) → canonAddr a ∉ as → eventReg (canonAddr a) = false → sameReg s u a

end Sys2Proof.Machine
end

