-- ==== Sys2Proof/WellFormed.lean ====
section
/-! DEFINITION. Which commands are well formed: the bounds of the operands that are lists or plain numbers, by the rule that lays out the frame, the record or the word they come from. -/

namespace Sys2Proof

/-- A MARK names a link address as its sender (R192). -/
def MarkIn.wf (m : MarkIn) : Bool := m.src < 128

/-- An uplink carries one record for each axis of the node, at most 16 (R196). -/
def UplIn.wf (u : UplIn) : Bool := u.recs.length ≤ 16

/-- The content of a service uplink: bytes, a fragment number of one byte, a node of 1 to 16 axes (R218, R222). -/
def SvuBody.wf : SvuBody → Bool
  | .reply _ _ frag data => decide (frag < 256) && data.all (fun b => decide (b < 256))
  | .join nax _ _ => decide (1 ≤ nax) && decide (nax ≤ 16)

/-- A signed number of n bits. -/
def fitsInt (n : Nat) (v : Int) : Bool := decide (-(2 ^ (n - 1) : Int) ≤ v) && decide (v < 2 ^ (n - 1))

/-- An axis record of a SETP: CMD of 40 bits, ACTL of 8 (R195). -/
def setpRecWf (r : SetpRec) : Bool := fitsInt 40 r.1 && decide (r.2.2.2 < 256)

/-- An entry of a boundary record (R234): a peripheral address, an axis and one of its four sets, an overlay, a level. -/
def BndEntry.wf : BndEntry → Bool
  | .write a _ => decide (0xF00000 ≤ a) && decide (a < 0x1000000)
  | .paramSet axis set => decide (axis < 256) && decide (set < 4)
  | .overlay slot _ => decide (slot < 16)
  | .outputs sto ss1 brk => decide (sto < 16) && decide (ss1 < 16) && decide (brk < 256)
  | .level eff => decide (eff ≤ 5)
  | .degraded => true
  | .overlaySet req => decide (req < 65536)

/-- ADOPT content: peripheral registers, profiles of objects below 288, batches below 32 (R242). -/
def Adopt.wf : Adopt → Bool
  | .regs img => img.all fun e => decide (0xF00000 ≤ e.1) && decide (e.1 < 0x1000000)
  | .motion prof _ => prof.all fun e => decide (e.1 < 288)
  | .batch n loops => decide (n < 32) && loops.all fun e => decide (e.1 < 288)

/-- A feedback channel of an INC frame (R230): a count of 40 bits, fractions of 12 bits. -/
def FbIn.wf (f : FbIn) : Bool :=
  fitsInt 40 f.cnt && decide (0 ≤ f.frac) && decide (f.frac < 4096) && decide (0 ≤ f.fol) && decide (f.fol < 4096)

/-- The bytes of a data length code: 0 to 8, then 12, 16, 20, 24, 32, 48 and 64 in the FD format (R409). -/
def dlcBytes (fdf : Bool) (dlc : Nat) : Nat :=
  if dlc ≤ 8 then dlc
  else if !fdf then 8
  else ([12, 16, 20, 24, 32, 48, 64].getD (dlc - 9) 64)

/-- A valid CAN frame: as many bytes as its length code says, none in a remote frame; only the extended format has 29 bits; only the FD format has BRS and ESI, and no remote frame. -/
def RxFrame.wf (f : RxFrame) : Bool :=
  (f.data.length == if f.rtr then 0 else dlcBytes f.fdf f.dlc.toNat) && (f.xtd || f.ext == 0) &&
  (f.fdf || (!f.brs && !f.esi)) && !(f.fdf && f.rtr)

/-- The well-formed commands. A constructor not listed has no operand outside its type. -/
def Instr.wf : Instr → Bool
  | .markReceived _ _ m _ => m.wf
  | .uplinkFrame _ _ u => u.wf
  | .serviceUplink _ _ u _ => u.body.wf
  | .partnerSetpHeard _ _ _ _ _ x => decide (x.recs.length ≤ 16) && x.recs.all setpRecWf
  | .incReceived _ _ fb sdm km =>
    fb.length == 16 && fb.all FbIn.wf && sdm.length == 8 && sdm.all (fun e => fitsInt 20 e.1) && decide (km < 2 ^ 20)
  | .inReceived _ _ n _ recs => decide (n < 32) && recs.length == 8
  | .sigReceived _ _ sk _ osig => decide (sk.batch < 32) && osig.length == 8
  | .bndReceived _ _ entries => decide (entries.length ≤ 170) && entries.all BndEntry.wf
  | .adoptReceived _ _ a => a.wf
  | .frameReceived _ f _ => f.wf
  | .rpdo _ data => decide (data.length ≤ 64)
  | .registerWrite _ a _ => decide (0xF00000 ≤ a.toNat)
  | _ => true

end Sys2Proof
end

