-- ==== Sys2Proof/Certificates/Slice0/Obligations.lean ====
section
/-! DEFINITION. The statements: what the commands of each block do, what they leave alone, and the invariants of a step. Times are in cy, register addresses are those of the chapters' register maps. -/

open Sys2Proof Sys2Proof.Machine

/-- The mains timebase and standstill (02 R41, R56): a rising edge becomes t_zc, its interval joins a history of at most four unless it follows a loss, and MAINS_LOST clears; a falling edge is none of the mains; a loss empties the history and disarms every mains timebase; standstill of an enabled timebase on a channel, armed or not, sets STILL and ends extrapolation. -/
def Obligations.MainsEdgeLossAndStandstill : Prop :=
  (∀ (s : State) (t : Nat), s.now ≤ t →
    ∃ u, exec (.mainsSenseEdge ⟨true, t⟩) s = .next u ∧ u.now = t ∧ u.mains.tZc = some t ∧ u.mains.lost = false ∧
      u.mains.ivals = (match s.mains.tZc with
        | some z => if s.mains.lost then [] else ((t - z) :: s.mains.ivals).take 4
        | none => []) ∧
      bit (regGet u 0xF00102) 16 = false ∧ u.mains.p = s.mains.p ∧ u.mains.rem = s.mains.rem ∧ u.mains.j = s.mains.j ∧
      (∀ k : Fin 16, tbKind s k ≠ 5 → u.sd.tb[k] = s.sd.tb[k]) ∧
      sameBut [.now, .regs, .held, .mains, .sd, .bv] s u ∧ regsBut [0xF00102] s u) ∧
  (∀ (s : State) (t : Nat), ∃ u, exec (.mainsSenseEdge ⟨false, t⟩) s = .next u ∧ u.now = max s.now t ∧ u.mains = { s.mains with level := false } ∧
      sameBut [.now, .mains, .bv] s u) ∧
  (∀ s : State, s.mains.lost = false →
    ∃ u, exec .mainsLost s = .next u ∧ u.mains.lost = true ∧ u.mains.ivals = [] ∧ bit (regGet u 0xF00102) 16 = true ∧
      bit (regGet u 0xF00102) 19 = false ∧ (∀ k : Fin 16, tbKind s k = 5 → u.sd.tb[k].armed = false) ∧
      (∀ k : Fin 16, tbKind s k ≠ 5 → u.sd.tb[k] = s.sd.tb[k]) ∧
      sameBut [.regs, .held, .mains, .sd, .pg, .bv, .pc] s u ∧ regsButEvents [0xF00102] s u) ∧
  (∀ (s : State) (k : Fin 16), tbKind s k = 1 → tbEnabled s k = true → tbCfgErr s k = false →
    ∃ u, exec (.timebaseStandstill k) s = .next u ∧ u.sd.tb[k].still = true ∧ u.sd.tb[k].per = none ∧
      u.sd.tb[k].now = s.sd.tb[k].now ∧ (∀ j : Fin 16, j ≠ k → u.sd.tb[j] = s.sd.tb[j]) ∧ sameBut [.sd] s u)

/-- An update falls on the next multiple of 8 cy (02 R35). Where Sundial does not run, or runs with no held post, an armed mains or time base takes the value its source has at that instant (R36, R56): the mains phase, or the low 40 bits of system time. A dispatch takes the first detected firing (02 R50, R51, R53): FIRED is set, a one-shot entry's committed EN clears, and so does the shown EN unless a W0 write waits; action 0h changes nothing more, action 1h drives its event output. -/
def Obligations.SundialUpdatesAndDispatches : Prop :=
  (∀ s : State, s.sd.holdQ = [] →
    ∃ u, exec .sundialUpdate s = .next u ∧ u.now = (s.now / 8 + 1) * 8 ∧
      (sundialRuns s = false → sameBut [.now] s u) ∧
      (∀ k : Fin 16, sundialRuns s = true → tbEnabled s k = true → tbCfgErr s k = false → s.sd.tb[k].armed = true →
        (tbKind s k = 5 → u.sd.tb[k].val = (mainsPhase s.mains u.now : Int) * 4096 % (2 ^ 20 * 4096)) ∧
        (tbKind s k = 6 → u.sd.tb[k].val = ((sysTimeAt s u.now % 2 ^ 40 : Nat) : Int) * 4096 % (2 ^ 40 * 4096))) ∧
      sameBut [.now, .regs, .held, .cores, .sd, .pg, .bv, .pc] s u) ∧
  (∀ (s : State) (f : Firing) (fs : List Firing), s.sd.disp = f :: fs → f.entry < 2048 → f.act ≤ 1 →
    ∃ u, exec .sundialDispatch s = .next u ∧ u.sd.disp = fs ∧ bit (regGet u (0xF01000 + f.entry)) 3 = true ∧
      (f.oneShot = true → (mapGet EvEntry.reset u.sd.ev f.entry).en = false ∧
        (s.sd.w0Pend.contains f.entry = false → bit (regGet u (0xF01000 + f.entry)) 19 = false)) ∧
      (f.oneShot = false → u.sd.ev = s.sd.ev) ∧
      (∀ n, n ≠ f.entry → mapGet EvEntry.reset u.sd.ev n = mapGet EvEntry.reset s.sd.ev n) ∧
      (f.act = 0 → u.sd.evo = s.sd.evo) ∧
      (f.act = 1 → u.sd.evo.getLsbD (fld f.arg 3 0) =
        (if fld f.arg 5 4 = 0 then !s.sd.evo.getLsbD (fld f.arg 3 0) else fld f.arg 5 4 == 1)) ∧
      sameBut [.regs, .held, .sd, .pg, .bv, .pc] s u ∧ regsButEvents [0xF01000 + f.entry] s u)

/-- Counting edges (03 R62, R65, R66, R67, R69) of a channel without a fault: an edge whose new level is held for the filter time is counted, 4 cy and the filter time after its first sample, and one whose level is held shorter counts nothing. An edge in the confirmed direction with nothing absorbed moves the raw and the reported count by one; one against it moves the raw count alone. In quadrature the direction is that of the level pair; in the other two modes that of B, or of DIRSRC. An edge less than 60 cy after the one before it sets RATE; after any other in the confirmed direction PER is the time since the last such edge, and an edge against the direction leaves PER (03 R63, R64). A Z edge whose level holds for the filter time copies the reported count into ZCAP (03 R62, R68, R73, R87); with REFTYPE 11b an unseated channel is seated at REFPOS, else its counts stay. -/
def Obligations.FeedbackChannelsCountAndSeat : Prop :=
  (∀ (s : State) (n : Fin 16) (t held : Nat) (a b : Bool) (cmd : Instr) (down : Bool),
    s.fb[n].raw = s.fb[n].rep → fbFaulty s n = false → s.fb[n].sa = s.fb[n].a → s.fb[n].sb = s.fb[n].b →
    ((fbCounts s n = 1 ∧ (a != s.fb[n].a) = (b == s.fb[n].b) ∧ cmd = .quadratureEdge n a b ⟨t, held⟩ ∧
        down = ((if a != s.fb[n].a then a != b else a == b) == bitOf s (fbAddr n) 16)) ∨
      (fbCounts s n = 2 ∧ cmd = .pulseAndDirectionStep n b true ⟨t, held⟩ ∧ down = (b != bitOf s (fbAddr n) 16)) ∨
      (fbCounts s n = 3 ∧ fbRef s n = 0 ∧ cmd = .toothEdge n b ⟨t, held⟩ ∧ down = toothDir s n b)) →
    (held < fbFilter s n → ∃ u, exec cmd s = .next u ∧ u.now = max s.now t ∧ u.fb[n].raw = s.fb[n].raw ∧ u.fb[n].rep = s.fb[n].rep ∧
      u.fb[n].per = s.fb[n].per ∧ (∀ m : Fin 16, m ≠ n → u.fb[m] = s.fb[m]) ∧ sameBut [.now, .fb, .fbo] s u) ∧
    (fbFilter s n ≤ held → ∃ u, exec cmd s = .next u ∧ u.now = max s.now (t + 4 + fbFilter s n) ∧
      u.fb[n].raw = wrapI 40 (s.fb[n].raw + (if down then -1 else 1)) ∧
      u.fb[n].rep = (if down = fbDown s n then u.fb[n].raw else s.fb[n].rep) ∧
      fbDown u n = fbDown s n ∧ fbSeated u n = fbSeated s n ∧ fbFaulty u n = false ∧
      (∀ m : Fin 16, m ≠ n → u.fb[m] = s.fb[m]) ∧
      bit (regGet u (fbStat n)) 14 = (bit (regGet s (fbStat n)) 14 || fbFast s.fb[n] t) ∧
      (fbFast s.fb[n] t = false → down = fbDown s n → u.fb[n].per = perOf s.fb[n] t) ∧ (down ≠ fbDown s n → u.fb[n].per = s.fb[n].per) ∧
      sameBut [.now, .freeCtr, .regs, .held, .sd, .fb, .fbo] s u ∧ regsBut [fbStat n] s u)) ∧
  (∀ (s : State) (n : Fin 16) (t held : Nat), fbCounts s n = 1 ∨ fbCounts s n = 2 → fbSeated s n = false → fbFaulty s n = false →
    s.fb[n].z = false → fbFilter s n ≤ held →
    ∃ u, exec (.zIndex n ⟨true, t, held⟩) s = .next u ∧ pairN u (fbAddr n + 12) = wrapN 40 s.fb[n].rep ∧
      (fbRef s n = 3 → u.fb[n].raw = fbRefPos s n ∧ u.fb[n].rep = fbRefPos s n ∧ fbSeated u n = true) ∧
      (fbRef s n ≠ 3 → u.fb[n].raw = s.fb[n].raw ∧ u.fb[n].rep = s.fb[n].rep ∧ fbSeated u n = false) ∧
      (∀ m : Fin 16, m ≠ n → u.fb[m] = s.fb[m]) ∧
      sameBut [.now, .regs, .held, .sd, .fb, .fbo] s u ∧ regsBut [fbStat n, fbAddr n + 12, fbAddr n + 13] s u)

/-- SSI and mains channels (03 R81, R83): a sound frame moves the count by the LEN-bit difference; a first erroneous frame leaves it, sets FRAME_ERR and counts in FB_n_ERRCNT; a mains edge counts one cycle and clears PHASE_LOST; a lost phase sets it and empties the history. FACK clears FAULT, WARN and the consecutive-mismatch count, and SEATED in modes with a reference; UNSEAT clears SEATED and disarms the channel's timebases (03 R79, R87; 02 R36). -/
def Obligations.SsiMainsChannelsAndFaultAcks : Prop :=
  ((∀ (s : State) (n : Fin 16) (v : BitVec 32) (p : Nat), fbCounts s n = 5 → s.fb[n].ssiPrev = some p →
    bitOf s (fbAddr n + 3) 13 = false →
    |sext (fldOf s (fbAddr n + 3) 19 14) ((v.toNat % 2 ^ fldOf s (fbAddr n + 3) 19 14 + 2 ^ fldOf s (fbAddr n + 3) 19 14 - p) %
      2 ^ fldOf s (fbAddr n + 3) 19 14)| ≤ (fldOf s (fbAddr n + 21) 19 0 : Int) →
    ∃ u, exec (.ssiFrameEnd n false false false false v) s = .next u ∧ u.fb[n].rep = u.fb[n].raw ∧ u.fb[n].ssiErr = 0 ∧
      u.fb[n].raw = wrapI 40 (s.fb[n].raw + sext (fldOf s (fbAddr n + 3) 19 14)
        ((v.toNat % 2 ^ fldOf s (fbAddr n + 3) 19 14 + 2 ^ fldOf s (fbAddr n + 3) 19 14 - p) % 2 ^ fldOf s (fbAddr n + 3) 19 14)) ∧
      (∀ m : Fin 16, m ≠ n → u.fb[m] = s.fb[m]) ∧ sameBut [.regs, .held, .sd, .fb] s u ∧ regsBut [fbStat n] s u) ∧
  (∀ (s : State) (n : Fin 16) (l b h c : Bool) (v : BitVec 32), fbCounts s n = 5 → s.fb[n].ssiErr = 0 → (l || b || h) = true →
    ∃ u, exec (.ssiFrameEnd n l b h c v) s = .next u ∧ u.fb[n].raw = s.fb[n].raw ∧ u.fb[n].rep = s.fb[n].rep ∧ u.fb[n].ssiErr = 1 ∧
      bit (regGet u (fbStat n)) 13 = true ∧ regGet u (fbAddr n + 19) = regGet s (fbAddr n + 19) + 1 ∧
      (∀ m : Fin 16, m ≠ n → u.fb[m] = s.fb[m]) ∧ sameBut [.regs, .held, .fb] s u ∧ regsBut [fbStat n, fbAddr n + 19] s u) ∧
  (∀ (s : State) (n : Fin 16) (t held : Nat), fbCounts s n = 4 → fbFilter s n ≤ held →
    (∃ u, exec (.mainsZeroCrossing n ⟨t, held⟩) s = .next u ∧ u.fb[n].raw = wrapI 40 (s.fb[n].raw + 1) ∧ u.fb[n].rep = u.fb[n].raw ∧
      u.fb[n].tRise = some t ∧ bit (regGet u (fbStat n)) 12 = false ∧ (∀ m : Fin 16, m ≠ n → u.fb[m] = s.fb[m]) ∧
      sameBut [.now, .freeCtr, .regs, .held, .sd, .fb, .fbo] s u ∧ regsBut [fbStat n] s u) ∧
    (∃ u, exec (.phaseLost n) s = .next u ∧ u.fb[n].ivals = [] ∧ u.fb[n].raw = s.fb[n].raw ∧ bit (regGet u (fbStat n)) 12 = true ∧
      (∀ m : Fin 16, m ≠ n → u.fb[m] = s.fb[m]) ∧ sameBut [.regs, .held, .fb] s u ∧ regsBut [fbStat n] s u))) ∧
  (∀ (s : State) (who : Requester) (n : Fin 16),
    (∃ u, exec (.fack who n) s = .next u ∧ fbFaulty u n = false ∧ bit (regGet u (fbStat n)) 17 = false ∧ u.fb[n].mism = 0 ∧
      u.fb[n].raw = s.fb[n].raw ∧ fbSeated u n = (fbSeated s n && fbRef s n == 0) ∧ (∀ m : Fin 16, m ≠ n → u.fb[m] = s.fb[m]) ∧
      sameBut [.sys, .regs, .held, .sd, .fb] s u ∧ regsBut [fbStat n] s u) ∧
    (∃ u, exec (.unseat who n) s = .next u ∧ fbSeated u n = false ∧
      (∀ k : Fin 16, tbKind s k = 1 → tbSrc s k = n → u.sd.tb[k].armed = false) ∧
      (∀ k : Fin 16, tbKind s k ≠ 1 ∨ tbSrc s k ≠ n → u.sd.tb[k] = s.sd.tb[k]) ∧
      sameBut [.sys, .regs, .held, .sd] s u ∧ regsBut [fbStat n] s u))

/-- DSTO and DSS1 by a requester whose lock is unlocked (09 R262, R265; 17 R451): every group of the mask goes to STO, or from energised to SS1, at once and for a cause of its own; the other groups keep their condition; the brakes of a group newly in STO have no release; the lock is armed again. GH_CMD is a K register (09 R287; 17 R451): by a requester whose lock is armed DSTO, DSS1 and ACK are dropped and counted, with reason 01h, and no group changes. An ACK with the lock unlocked is kept for the next boundary for every group of the mask whose causes have all gone, and dropped and counted for one with a cause present (09 R264). -/
def Obligations.CommandedSafeStopsAndAcknowledgement : Prop :=
  (∀ (s : State) (who : Requester) (m : BitVec 4), who ∈ s.sys.unlocked →
    (∃ u, exec (.dsto who m) s = .next u ∧ who ∉ u.sys.unlocked ∧
      (∀ g : Fin 4, m.getLsbD g = true → u.gh.grp[g].cond = .sto ∧ Cause.command ∈ u.gh.grp[g].causes ∧ safeOffOn u g = false ∧
        ∀ n, n < 8 → brkGroup s n = g → brkOut u n = false) ∧
      (∀ g : Fin 4, m.getLsbD g = false → u.gh.grp[g] = s.gh.grp[g]) ∧
      sameBut [.sys, .regs, .held, .pg, .bv, .gh, .pc] s u ∧ regsButEvents [0xF34007] s u) ∧
    (∃ u, exec (.dss1 who m) s = .next u ∧ who ∉ u.sys.unlocked ∧
      (∀ g : Fin 4, m.getLsbD g = true → s.gh.grp[g].cond = .energised →
        u.gh.grp[g].cond = .ss1 ∧ u.gh.grp[g].brakesSet = false ∧ u.gh.grp[g].stopNew = true ∧ Cause.command ∈ u.gh.grp[g].causes) ∧
      (∀ g : Fin 4, s.gh.grp[g].cond ≠ .energised ∨ m.getLsbD g = false → u.gh.grp[g].cond = s.gh.grp[g].cond) ∧
      sameBut [.sys, .regs, .held, .pg, .bv, .gh, .pc] s u ∧ regsButEvents [] s u)) ∧
  (∀ (s : State) (who : Requester) (m : BitVec 4) (cmd : Instr), who ∉ s.sys.unlocked →
    cmd = .dsto who m ∨ cmd = .dss1 who m ∨ cmd = .gatehouseAck who m →
    ∃ u, exec cmd s = .next u ∧ regGet u 0xF50001 = regGet s 0xF50001 + 1 ∧ regGet u 0xF50003 = word 0xF34006 ∧
      regGet u 0xF50002 = word 0xF ∧ fld (regGet u 0xF50004) 19 16 = reqNum who ∧ fld (regGet u 0xF50004) 15 8 = 1 ∧
      sameBut [.sys, .regs, .held] s u ∧ regsBut [0xF50001, 0xF50002, 0xF50003, 0xF50004] s u) ∧
  (∀ (s : State) (who : Requester) (m : BitVec 4), who ∈ s.sys.unlocked →
    ∃ u, exec (.gatehouseAck who m) s = .next u ∧
      (∀ g : Fin 4, u.gh.grp[g].cond = s.gh.grp[g].cond ∧ u.gh.grp[g].causes = s.gh.grp[g].causes ∧
        u.gh.grp[g].acked = ((m.getLsbD g && groupClear s g) || s.gh.grp[g].acked)) ∧
      ((∀ g : Fin 4, m.getLsbD g = true → groupClear s g = true) → regGet u 0xF50001 = regGet s 0xF50001) ∧
      ((∃ g : Fin 4, m.getLsbD g = true ∧ groupClear s g = false) →
        regGet u 0xF50003 = word 0xF34006 ∧ fld (regGet u 0xF50004) 15 8 = 6) ∧
      sameBut [.sys, .regs, .held, .gh] s u ∧ regsBut [0xF50001, 0xF50002, 0xF50003, 0xF50004] s u)

/-- The ends of a safe stop 1 (09 R262): BDLY after the brakes are set, or SS1T before, the group enters STO; another group keeps its condition. A sample of the demand inputs (09 R272): an enabled input whose pins show a demand takes every group of its GMASK out of energised, into STO where SS1 = 0; with no enabled input showing or holding a demand every group stays as it is. -/
def Obligations.SafeStopsEndAndDemandInputsAct : Prop :=
  (∀ (s : State) (g : Fin 4) (cmd : Instr), s.gh.grp[g].cond = .ss1 →
    (cmd = .bdlyExpiry g ∧ s.gh.grp[g].brakesSet = true) ∨ cmd = .ss1tExpiry g →
    ∃ u, exec cmd s = .next u ∧ u.gh.grp[g].cond = .sto ∧ u.gh.grp[g].causes = s.gh.grp[g].causes ∧
      (∀ n, n < 8 → brkGroup s n = g → brkOut u n = false) ∧ (∀ h : Fin 4, h ≠ g → u.gh.grp[h] = s.gh.grp[h]) ∧
      sameBut [.regs, .held, .pg, .bv, .gh, .pc] s u ∧ regsButEvents [0xF34007] s u) ∧
  (∀ s : State,
    ∃ u, exec .demandInputSample s = .next u ∧
      (∀ d : Fin 8, bitOf s (0xF34010 + d.val) 19 = true → (demandNow s d).1 = true →
        u.gh.demand.getLsbD d = true ∧
        ∀ g : Fin 4, fldOf s (0xF34010 + d.val) 15 12 / 2 ^ g.val % 2 = 1 → u.gh.grp[g].cond ≠ .energised ∧
          (bitOf s (0xF34010 + d.val) 17 = false → u.gh.grp[g].cond = .sto) ∧ Cause.demand d ∈ u.gh.grp[g].causes) ∧
      ((∀ d : Fin 8, bitOf s (0xF34010 + d.val) 19 = true → (demandNow s d).1 = false ∧ s.gh.disc.getLsbD d = false) →
        u.gh.grp = s.gh.grp ∧ u.gh.demand = 0) ∧
      sameBut [.regs, .held, .pg, .bv, .gh, .pc] s u ∧ regsButEvents [0xF34007] s u)

/-- Test pulses and the brake read-back (09 R268, R269): a pulse opens one switch of an energised group of the active unit outside the overlap of an exchange, ends closed when it passes, and is begun on no other group and in no other unit; a read-back is taken as it changes. -/
def Obligations.TestPulsesAndReadBack : Prop :=
  (∀ (s : State) (g : Fin 4) (low : Bool),
    ∃ u, exec (.testPulse g low) s = .next u ∧
      (s.gh.grp[g].cond = .energised → safeOffOn s g = true → s.pr.active = true → (∀ x ∈ s.pr.exch, x.overlap = false) →
        s.gh.grp[g].pulse = 0 → u.gh.grp[g].pulse = if low then 2 else 1) ∧
      (s.gh.grp[g].cond ≠ .energised ∨ safeOffOn s g = false ∨ s.pr.active = false ∨ (∃ x ∈ s.pr.exch, x.overlap = true) → u = s) ∧
      u.gh.grp[g].cond = s.gh.grp[g].cond ∧
      (∀ h : Fin 4, h ≠ g → u.gh.grp[h] = s.gh.grp[h]) ∧ sameBut [.gh] s u) ∧
  (∀ (s : State) (g : Fin 4),
    ∃ u, exec (.testPulseEnd g true) s = .next u ∧ u.gh.grp[g].pulse = 0 ∧ u.gh.grp[g].cond = s.gh.grp[g].cond ∧
      (∀ h : Fin 4, h ≠ g → u.gh.grp[h] = s.gh.grp[h]) ∧ sameBut [.gh] s u) ∧
  (∀ (s : State) (n : Fin 8) (level : Bool),
    ∃ u, exec (.brkFbChange n level) s = .next u ∧ u.gh.brkFb.getLsbD n = level ∧
      (∀ m : Fin 8, m ≠ n → u.gh.brkFb.getLsbD m = s.gh.brkFb.getLsbD m) ∧ u.gh.grp = s.gh.grp ∧ u.gh.brk = s.gh.brk ∧
      sameBut [.gh, .bv] s u)

/-- A fault of grade S in the active unit with no partner able to take over (09 R259, R266, R278): the part enters SAFE, every group is in STO and every brake off, GH_FCODE holds the code, reaction 4h and the low byte, and GH_FCNT counts. A fault of grade D in RUN-ACTIVE (09 R259, R266, R270): the part enters DEGRADED at the next boundary; until then it runs on, with the fault recorded. A watchdog window missed, a value out of turn and an uncorrectable error in core or MRAM memory are of this grade. -/
def Obligations.FaultsOfGradesSAndDReact : Prop :=
  (∀ (s : State) (cmd : Instr) (code low : Nat), s.sys.op = .runActive → partnerAligned s = false →
    ((∃ g : Fin 4, cmd = .safeOffLineMismatch g ∧ s.gh.grp[g].pulse = 0 ∧ code = 0x51 ∧ low = g.val) ∨
      (∃ g : Fin 4, cmd = .testPulseEnd g false ∧ s.gh.grp[g].pulse ≠ 0 ∧ code = 0x50 ∧ low = g.val) ∨
      (∃ n : Fin 8, cmd = .brakeFeedbackMismatch n ∧ drivesOutputs s = true ∧ s.gh.brkFb.getLsbD n ≠ s.gh.brk.getLsbD n ∧
        code = 0x52 ∧ low = n.val) ∨
      (cmd = .clockFault true ∧ code = 0x21 ∧ low = 0) ∨ (cmd = .clockFault false ∧ code = 0x20 ∧ low = 0) ∨
      (cmd = .scrub .gatehouse .uncorrectable ∧ code = 1 ∧ low = 0)) →
    ∃ u, exec cmd s = .next u ∧ u.sys.op = .safe ∧ (∀ g : Fin 4, u.gh.grp[g].cond = .sto ∧ safeOffOn u g = false) ∧
      (∀ n, n < 8 → brkOut u n = false) ∧
      regGet u 0xF34040 = word (code * 2 ^ 12 + 4 * 2 ^ 8 + low) ∧ regGet u 0xF34041 = regGet s 0xF34041 + 1 ∧
      sameBut [.sys, .regs, .held, .pg, .bv, .gh, .pc, .pr] s u ∧
      regsButEvents [0xF34040, 0xF34041, 0xF34007, 0xF5400A, 0xF5400B] s u) ∧
  (∀ (s : State) (cmd : Instr) (code low : Nat), s.sys.op = .runActive →
    ((∃ c : Fin 3, cmd = .watchdogWindowMissed c ∧ s.gh.wd[c].on = true ∧ code = 0x40 + c.val ∧ low = c.val + 1) ∨
      (∃ (c : Fin 3) (who : Requester) (v : Word) (t : Nat), cmd = .watchdogService who c v t ∧ s.gh.wd[c].on = true ∧
        v ≠ (if s.gh.wd[c].second then 0x5A5A5 else 0xA5A5A) ∧ code = 0x40 + c.val ∧ low = c.val + 1) ∨
      (cmd = .scrub .core .uncorrectable ∧ code = 3 ∧ low = 0) ∨ (cmd = .scrub .mram .uncorrectable ∧ code = 4 ∧ low = 0)) →
    ∃ u, exec cmd s = .next u ∧ u.sys.op = .runActive ∧ u.gh.degPend = true ∧ u.gh.grp = s.gh.grp ∧
      regGet u 0xF34040 = word (code * 2 ^ 12 + 3 * 2 ^ 8 + low) ∧ regGet u 0xF34041 = regGet s 0xF34041 + 1 ∧
      sameBut [.now, .sys, .regs, .held, .pg, .bv, .gh, .pc] s u ∧ regsButEvents [0xF34040, 0xF34041, 0xF5400A, 0xF5400B] s u)

/-- Watchdogs in order (09 R270): a nonzero MAXW above MINW switches one on; a service in turn and inside the window expects the other value next and raises nothing; MAXW = 000h does not switch it off; MINW not below MAXW is dropped with reason 06h. Pins of a demand input that disagree for longer than DISC (09 R272): fault 60h in RUN-ACTIVE, the groups of GMASK in STO, the demand present; loss of the refresh opens every switch and turns every brake output off (R279); the end of the degraded time enters SAFE (R276). -/
def Obligations.WatchdogsDiscrepancyAndRefresh : Prop :=
  (∀ (s : State) (who : Requester) (c : Fin 3) (v : Word) (t : Nat), s.now ≤ t →
    (s.gh.wd[c].on = true → v = (if s.gh.wd[c].second then 0x5A5A5 else 0xA5A5A) →
      t - s.gh.wd[c].tLast ≤ 60000 * fld (regGet s (0xF34018 + c.val)) 19 10 →
      (s.gh.wd[c].first = true ∨ 60000 * fld (regGet s (0xF34018 + c.val)) 9 0 ≤ t - s.gh.wd[c].tLast) →
      ∃ u, exec (.watchdogService who c v t) s = .next u ∧ u.gh.wd[c].on = true ∧ u.gh.wd[c].tLast = t ∧
        u.gh.wd[c].second = !s.gh.wd[c].second ∧ u.gh.wd[c].first = false ∧ sameBut [.now, .sys, .gh] s u) ∧
    ∃ u, exec (.watchdogConfigWrite who c v t) s = .next u ∧
      (fld v 9 0 < fld v 19 10 → regGet u (0xF34018 + c.val) = v ∧ u.gh.wd[c].on = true ∧
        (s.gh.wd[c].on = false → u.gh.wd[c].tLast = t ∧ u.gh.wd[c].second = false)) ∧
      (fld v 19 10 = 0 → u.gh.wd = s.gh.wd) ∧
      (0 < fld v 19 10 → fld v 19 10 ≤ fld v 9 0 → u.gh.wd = s.gh.wd ∧ regGet u (0xF34018 + c.val) = regGet s (0xF34018 + c.val) ∧
        regGet u 0xF50001 = regGet s 0xF50001 + 1 ∧ fld (regGet u 0xF50004) 15 8 = 6) ∧
      sameBut [.now, .sys, .regs, .held, .gh] s u ∧ regsBut [0xF34018 + c.val, 0xF50001, 0xF50002, 0xF50003, 0xF50004] s u) ∧
  ((∀ (s : State) (d : Fin 8), s.sys.op = .runActive → bitOf s (0xF34010 + d.val) 19 = true → (demandNow s d).2 = true →
    ∃ u, exec (.demandDiscrepancy d) s = .next u ∧ u.gh.demand.getLsbD d = true ∧ bit (regGet u 0xF34003) 16 = true ∧
      (∀ g : Fin 4, fldOf s (0xF34010 + d.val) 15 12 / 2 ^ g.val % 2 = 1 → u.gh.grp[g].cond = .sto) ∧
      (∀ g : Fin 4, fldOf s (0xF34010 + d.val) 15 12 / 2 ^ g.val % 2 = 0 → u.gh.grp[g] = s.gh.grp[g]) ∧
      regGet u 0xF34040 = word (0x60 * 2 ^ 12 + 2 * 2 ^ 8 + d.val) ∧
      sameBut [.sys, .regs, .held, .pg, .bv, .gh, .pc] s u ∧
      regsButEvents [0xF34003, 0xF34007, 0xF34040, 0xF34041, 0xF5400A, 0xF5400B] s u) ∧
  (∀ s : State, ∃ u, exec .refreshLoss s = .next u ∧ u.gh.refreshLost = true ∧ (∀ g : Fin 4, safeOffOn u g = false) ∧
    (∀ n, n < 8 → brkOut u n = false ∧ u.gh.brk.getLsbD n = false) ∧ u.gh.grp = s.gh.grp ∧ sameBut [.gh, .bv] s u) ∧
  (∀ s : State, s.sys.op = .degraded → ∃ u, exec .degradedTimeExpiry s = .next u ∧ u.sys.op = .safe ∧
    (∀ g : Fin 4, u.gh.grp[g].cond = .sto) ∧ (∀ n, n < 8 → brkOut u n = false) ∧ fld (regGet u 0xF34004) 18 0 = 0 ∧
    sameBut [.sys, .regs, .held, .pg, .bv, .gh, .pc] s u ∧ regsButEvents [0xF34004, 0xF34007] s u))

/-- The rescan and the fault record (09 R266, R267; 19 R479): a block whose words agree with its signature passes without effect; a change of a configuration bit in a block outside GH_ sets RS_STAT and is fault 12h, of grade D in an active unit without an aligned partner; a corrected error counts in GH_ECC_CE; a buffered record goes to the MRAM ring at 00800h. -/
def Obligations.RescanCorrectedErrorsAndFaultRecord : Prop :=
  (∀ (s : State) (b : Fin 16384) (off : Fin 64), afterBoot s = true → lookupNat s.gh.sigs b = none →
    exec (.rescan b off 0) s = .next s) ∧
  (∀ (s : State) (b : Fin 16384) (off : Fin 64) (mask : Word), s.sys.op = .runActive → partnerAligned s = false →
    (b.val < 0xD00 ∨ 0xD0B < b.val) → mask ≠ 0 →
    crc32 (blockBits s b (0xF00000 + 64 * b.val + off.val) mask) ≠ blockSig s b →
    0xF00000 + 64 * b.val + off.val < 0xF34000 →
    ∃ u, exec (.rescan b off mask) s = .next u ∧ u.sys.op = .runActive ∧ u.gh.degPend = true ∧
      inForce u (0xF00000 + 64 * b.val + off.val) = inForce s (0xF00000 + 64 * b.val + off.val) ^^^ mask ∧
      bit (regGet u 0xF34043) 19 = true ∧ fld (regGet u 0xF34043) 13 0 = b.val ∧
      regGet u 0xF34040 = word (0x12 * 2 ^ 12 + 3 * 2 ^ 8) ∧
      sameBut [.sys, .regs, .held, .pg, .bv, .gh, .pc, .pr] s u) ∧
  (∀ (s : State) (m : EccMem), s.sys.op ≠ .boot → ∃ u, exec (.scrub m .corrected) s = .next u ∧
    regGet u 0xF34042 = regGet s 0xF34042 + 1 ∧ sameBut [.regs, .held, .pg, .bv, .pc] s u ∧ regsButEvents [0xF34042] s u) ∧
  (∀ (s : State) (e : List Word) (es : List (List Word)), s.sys.frBuf = e :: es → e.length = 8 → s.sys.op ≠ .test →
    ∃ u, exec .faultRecordWrite s = .next u ∧ u.sys.frBuf = es ∧
      (∀ i, i < 8 → mramGet u (0x800 + 8 * ((e.getD 1 0).toNat % 256) + i) = e.getD i 0) ∧
      (∀ a, (a < 0x800 + 8 * ((e.getD 1 0).toNat % 256) ∨ 0x800 + 8 * ((e.getD 1 0).toNat % 256) + 8 ≤ a) → mramGet u a = mramGet s a) ∧
      u.sys.op = s.sys.op ∧ u.mem.shared = s.mem.shared ∧ u.mem.xy = s.mem.xy ∧
      sameBut [.sys, .regs, .held, .mem, .pg, .bv, .pc] s u ∧ regsButEvents [] s u)

/-- Sigma-delta results (10 R289-R293, R296, R303): a result of an enabled input is taken and makes the input valid; a stuck bitstream puts it in fault and sets its PH_STAT flag; a sound result of the hold-up input below FLOOR enters L5 at once, with the part in SAFE, every group in STO and PH_L5CNT counted. Rails and timers of Pumphouse (10 R295, R297, R304, R307): the four readings are shown in mV and one more than 3 % from its nominal sets its RAIL_WARN flag; RET_T with every condition of the level absent lets MEAS fall; at the end of its duty CHOP stays high only under the override or a full duty, and only where the unit drives it. A rail outside its window while the hold-up input can tell, or the level is below L3, is fault 22h with the rail as low byte (10 R293; 09 R266): in an active unit with no aligned partner the part enters SAFE. -/
def Obligations.PumphouseResultsRailsAndTimers : Prop :=
  ((∀ (s : State) (k : Fin 8) (r : Word) (stuck : Bool), s.sys.op ≠ .powerUp → s.sys.op ≠ .boot →
    bitOf s (0xF38018 + k.val) 19 = true → (bitOf s 0xF38011 19 = false ∨ holdSrc s ≠ k) →
    ∃ u, exec (.sdmResult k r stuck) s = .next u ∧ u.ph.sdm[k].result = r.toInt ∧ u.ph.sdm[k].valid = true ∧
      (stuck = true → u.ph.sdm[k].flt = true ∧ (s.ph.sdm[k].flt = false → bit (regGet u 0xF38021) (12 + k.val) = true)) ∧
      (stuck = false → s.ph.sdm[k].flt = false → |r.toInt| < 0x7FFF0 → u.ph.sdm[k].flt = false) ∧
      (∀ j : Fin 8, j ≠ k → u.ph.sdm[j] = s.ph.sdm[j]) ∧ u.ph.eff = s.ph.eff ∧ u.ph.l5 = s.ph.l5 ∧
      sameBut [.regs, .held, .ph, .pg, .bv, .pc] s u ∧ regsButEvents [0xF38021, 0xF38023, 0xF38024] s u) ∧
  (∀ (s : State) (k : Fin 8) (r : Word), s.sys.op = .runActive → s.ph.l5 = false → bitOf s (0xF38018 + k.val) 19 = true →
    bitOf s 0xF38011 19 = true → holdSrc s = k → s.ph.sdm[k].flt = false → |r.toInt| < 0x7FFF0 →
    holdVpm s r.toInt < fldOf s 0xF38014 9 0 →
    ∃ u, exec (.sdmResult k r false) s = .next u ∧ u.ph.l5 = true ∧ u.ph.eff = 5 ∧ u.sys.op = .safe ∧
      (∀ g : Fin 4, u.gh.grp[g].cond = .sto) ∧ regGet u 0xF38034 = regGet s 0xF38034 + 1 ∧
      sameBut [.sys, .regs, .held, .mem, .sd, .pg, .bv, .gh, .ph, .pc, .mo, .sv] s u)) ∧
  ((∀ (s : State) (a b c d : Word), ∃ u, exec (.railMeasurement a b c d) s = .next u ∧
    regGet u 0xF3802C = a ∧ regGet u 0xF3802D = b ∧ regGet u 0xF3802E = c ∧ regGet u 0xF3802F = d ∧
    (2400 < 100 * ((a.toNat : Int) - 800).natAbs → bit (regGet u 0xF38021) 8 = true) ∧
    (2700 < 100 * ((b.toNat : Int) - 900).natAbs → bit (regGet u 0xF38021) 9 = true) ∧
    (5400 < 100 * ((c.toNat : Int) - 1800).natAbs → bit (regGet u 0xF38021) 10 = true) ∧
    (9900 < 100 * ((d.toNat : Int) - 3300).natAbs → bit (regGet u 0xF38021) 11 = true) ∧
    sameBut [.regs, .held, .pg, .bv, .pc] s u ∧ regsButEvents [0xF38021, 0xF3802C, 0xF3802D, 0xF3802E, 0xF3802F] s u) ∧
  (∀ s : State, s.ph.absent = true → ∃ u, exec .retTExpiry s = .next u ∧ u.ph.retPend = true ∧ u.ph.meas = s.ph.meas ∧
    u.ph.eff = s.ph.eff ∧ sameBut [.ph] s u ∧ (1 ≤ s.ph.meas → s.ph.meas ≤ 3 → s.ph.measNext = s.ph.meas → nextMeas u = s.ph.meas - 1)) ∧
  (∀ s : State, ∃ u, exec .chopperDutyEnd s = .next u ∧
    (u.ph.chop = true ↔ s.pr.active = true ∧ (s.ph.ovAct = true ∨ 256 ≤ s.ph.duty)) ∧ u.ph.duty = s.ph.duty ∧ u.ph.ovAct = s.ph.ovAct ∧
    sameBut [.ph] s u)) ∧
  (∀ (s : State) (r : Fin 4), s.sys.op = .runActive → partnerAligned s = false → (holdFlt s = false ∨ s.ph.meas < 3) →
    ∃ u, exec (.railFault r) s = .next u ∧ u.sys.op = .safe ∧ (∀ g : Fin 4, u.gh.grp[g].cond = .sto) ∧
      regGet u 0xF34040 = word (0x22 * 2 ^ 12 + 4 * 2 ^ 8 + r.val) ∧ u.ph = s.ph ∧
      sameBut [.sys, .regs, .held, .pg, .bv, .gh, .pc, .pr] s u)

/-- ARM, FORCE and STOP of a capture group (06 R164, R167, R170, R178, R180): ARM waits for the boundary where Belvedere runs and no level is in force, and is dropped and counted elsewhere; FORCE triggers an armed group at once, its sample the latest, or the first to come; STOP ends a running record with END_R 1. A record that has ended for reason r is completed (06 R170, R171): the group is done, DONE is set, END_R is r and NWORDS is the number of words stored of the record. -/
def Obligations.CaptureGroupsRecord : Prop :=
  (∀ (s : State) (who : Requester) (g : Fin 4),
    (∃ u, exec (.arm who g) s = .next u ∧
      (bvMayArm s = true → bit (regGet u (0xF20109 + 16 * g.val)) 19 = true ∧ inForce u (0xF20109 + 16 * g.val) = inForce s (0xF20109 + 16 * g.val) ∧
        regsBut [0xF20109 + 16 * g.val] s u) ∧
      (bvMayArm s = false → regGet u 0xF50001 = regGet s 0xF50001 + 1 ∧ regGet u 0xF50003 = word (0xF20109 + 16 * g.val) ∧
        fld (regGet u 0xF50004) 15 8 = 6 ∧ regsBut [0xF50001, 0xF50002, 0xF50003, 0xF50004] s u) ∧
      sameBut [.sys, .regs, .held] s u) ∧
    (s.bv.g[g].st = .armed → s.bv.g[g].ended = none →
      ∃ u, exec (.force who g) s = .next u ∧ u.bv.g[g].st = .triggered ∧ u.bv.g[g].tEvt = sysTime s ∧
        (s.bv.g[g].samples = [] → u.bv.g[g].trigWaits = true) ∧ u.bv.g[g].samples = s.bv.g[g].samples ∧
        fld (liveWord u who (0xF20109 + 16 * g.val)) 16 14 = 2 ∧ (∀ h : Fin 4, h ≠ g → u.bv.g[h] = s.bv.g[h]) ∧
        sameBut [.sys, .bv] s u) ∧
    ((s.bv.g[g].st = .armed ∨ s.bv.g[g].st = .triggered) → s.bv.g[g].ended = none →
      ∃ u, exec (.stop who g) s = .next u ∧ u.bv.g[g].ended = some 1 ∧ u.bv.g[g].st = s.bv.g[g].st ∧
        u.bv.g[g].samples = s.bv.g[g].samples ∧ (∀ h : Fin 4, h ≠ g → u.bv.g[h] = s.bv.g[h]) ∧ sameBut [.sys, .bv] s u)) ∧
  (∀ (s : State) (g : Fin 4) (r : Nat), s.bv.g[g].ended = some r → r < 8 →
    ∃ u, exec (.recordDone g) s = .next u ∧ u.bv.g[g].st = .done ∧ u.bv.g[g].ended = none ∧ u.bv.g[g].samples = s.bv.g[g].samples ∧
      bit (regGet u (0xF20109 + 16 * g.val)) 10 = true ∧ fld (regGet u (0xF20109 + 16 * g.val)) 13 11 = r ∧
      (∀ who : Requester, fld (liveWord u who (0xF20109 + 16 * g.val)) 16 14 = 3) ∧ regGet u (0xF20181 + 32 * g.val) = word (bvWords s.bv.g[g]) ∧
      sameBut [.regs, .held, .pg, .bv, .pc] s u)

/-- The archive (06 R175-R177, R181): in the cycle in which L1 is entered an ARCH is dropped and counted; else, with the lock unlocked, a group that is not done, a record over 928 words and an occupied slot without overwrite are refused with ARES 1, 2 and 3; otherwise, at level L0 with no archive running, the slot's image is formed and ARC_BUSY set; when it has been written, MRAM holds the image in the slot and nothing else changed there, and ARES is 0. -/
def Obligations.ArchiveOfARecord : Prop :=
  (∀ (s : State) (who : Requester) (g : Fin 4) (slot : Fin 64) (ovw : Bool), who ∈ s.sys.unlocked → s.bv.arch = none → s.ph.tShed ≠ some s.now →
    ∃ u, exec (.arch who g slot ovw) s = .next u ∧ who ∉ u.sys.unlocked ∧
      (s.bv.g[g].st ≠ .done → fld (regGet u 0xF20280) 7 5 = 1 ∧ u.bv = s.bv) ∧
      (s.bv.g[g].st = .done → 928 < bvWords s.bv.g[g] → fld (regGet u 0xF20280) 7 5 = 2 ∧ u.bv = s.bv) ∧
      (s.bv.g[g].st = .done → bvWords s.bv.g[g] ≤ 928 → slotValid s slot = true → ovw = false →
        fld (regGet u 0xF20280) 7 5 = 3 ∧ u.bv = s.bv) ∧
      (s.bv.g[g].st = .done → bvWords s.bv.g[g] ≤ 928 → (slotValid s slot = false ∨ ovw = true) → effLevel s = 0 →
        bit (regGet u 0xF20280) 9 = true ∧ u.bv.g = s.bv.g ∧ u.bv.arch = some (g.val, slot.val, slotImage g slot s)) ∧
      sameBut [.sys, .regs, .held, .bv] s u ∧ regsBut [0xF20280] s u) ∧
  (∀ (s : State) (who : Requester) (g : Fin 4) (slot : Fin 64) (ovw : Bool), who ∈ s.sys.unlocked → s.ph.tShed = some s.now →
    ∃ u, exec (.arch who g slot ovw) s = .next u ∧ who ∉ u.sys.unlocked ∧ regGet u 0xF50001 = regGet s 0xF50001 + 1 ∧
      regGet u 0xF50003 = word 0xF20280 ∧ fld (regGet u 0xF50004) 15 8 = 6 ∧
      sameBut [.sys, .regs, .held] s u ∧ regsBut [0xF50001, 0xF50002, 0xF50003, 0xF50004] s u) ∧
  (∀ (s : State) (g slot : Nat) (img : List Word), s.bv.arch = some (g, slot, img) → s.sys.op ≠ .test →
    ∃ u, exec (.archiveComplete true) s = .next u ∧ u.bv.arch = none ∧
      (∀ i, i < img.length → mramGet u (0x70000 + 0x400 * slot + i) = img.getD i 0) ∧
      (∀ a, (a < 0x70000 + 0x400 * slot ∨ 0x70000 + 0x400 * slot + img.length ≤ a) → mramGet u a = mramGet s a) ∧
      bit (regGet u 0xF20280) 9 = false ∧ bit (regGet u 0xF20280) 8 = true ∧ fld (regGet u 0xF20280) 7 5 = 0 ∧
      sameBut [.regs, .held, .mem, .pg, .bv, .pc] s u ∧
      regsButEvents [0xF20280, 0xF20281, 0xF20282, 0xF20283, 0xF20284] s u)

/-- A post by a core (13 R365, R369, R379, R381). With the descriptor enabled and room, the post joins the ready store with the argument of the block and the descriptor's key, and the core goes on. To a disabled descriptor it is discarded and counted; with no room it is refused and counted, and the core that wrote it stalls on it. The host port may not post: its write is dropped with reason 06h (13 R382). The delay list, by a core (13 R372, R373, R375). DPOST with a nonzero tick delay and a legal direction, or for an absolute value of a timebase without a modulus, takes the lowest free entry where one is free, and answers its handle: entry number and generation. With a delay of 0, or DIR 11b, the handle is 00000h and nothing is entered; with the list full the core stalls on the post. DCANCEL removes the live entry its handle names, DCRES 01b, and finds none otherwise, DCRES 10b. -/
def Obligations.PostsAndDelayList : Prop :=
  ((∀ (s : State) (c : Fin 8) (n : CoreId) (d : BitVec 9), afterBoot s = true → descEn s d.toNat = true → readyRefuses s d.toNat = false →
    ∃ u, exec (.post (.core c) n d) s = .next u ∧
      u.pg.ready = s.pg.ready ++ [⟨d.toNat, regGet s (0xF3C900 + 16 * n.val), descKey s d.toNat⟩] ∧ u.pg.delay = s.pg.delay ∧
      u.cores = s.cores ∧ sameBut [.sys, .regs, .held, .pg, .bv, .pc] s u ∧ regsButEvents [] s u) ∧
  (∀ (s : State) (c : Fin 8) (n : CoreId) (d : BitVec 9), afterBoot s = true → descEn s d.toNat = false →
    ∃ u, exec (.post (.core c) n d) s = .next u ∧ u.pg = s.pg ∧ u.cores = s.cores ∧ regGet u 0xF3C804 = regGet s 0xF3C804 + 1 ∧
      bit (regGet u (descCfg d.toNat + 3)) 6 = true ∧ sameBut [.sys, .regs, .held, .pg, .bv, .pc] s u) ∧
  (∀ (s : State) (c : Fin 8) (n : CoreId) (d : BitVec 9), afterBoot s = true → descEn s d.toNat = true → readyRefuses s d.toNat = true →
    ∃ u, exec (.post (.core c) n d) s = .next u ∧
      u.pg.ready = s.pg.ready ∧ u.cores[c].stalled = some (.post d.toNat (regGet s (0xF3C900 + 16 * n.val))) ∧
      (∀ k : Fin 8, k ≠ c → u.cores[k] = s.cores[k]) ∧ regGet u 0xF3C803 = regGet s 0xF3C803 + 1 ∧
      regGet u (0xF3C90B + 16 * c.val) = regGet s (0xF3C90B + 16 * c.val) + 1 ∧ bit (regGet u (descCfg d.toNat + 3)) 7 = true ∧
      sameBut [.sys, .regs, .held, .cores, .pg, .bv, .pc] s u) ∧
  (∀ (s : State) (n : CoreId) (d : BitVec 9) (h : Word) (cmd : Instr), s.sys.op ≠ .powerUp →
    cmd = .post .host n d ∨ cmd = .dpost .host n d ∨ cmd = .dcancel .host n h →
    ∃ u, exec cmd s = .next u ∧ regGet u 0xF50001 = regGet s 0xF50001 + 1 ∧ fld (regGet u 0xF50004) 15 8 = 6 ∧
      sameBut [.sys, .regs, .held] s u ∧ regsBut [0xF50001, 0xF50002, 0xF50003, 0xF50004] s u)) ∧
  ((∀ (s : State) (c : Fin 8) (n : CoreId) (d : BitVec 9) (due : DelayDue), afterBoot s = true → s.pg.delay.length < 1024 →
    fld (regGet s (0xF3C904 + 16 * n.val)) 16 15 ≠ 3 →
    (fld (regGet s (0xF3C904 + 16 * n.val)) 18 17 = 0 ∧ pairN s (0xF3C902 + 16 * n.val) ≠ 0 ∧ due = .tick (pairN s (0xF3C902 + 16 * n.val)) ∨
      (fld (regGet s (0xF3C904 + 16 * n.val)) 19 17 = 1 ∧ tbModulus s (fld (regGet s (0xF3C904 + 16 * n.val)) 14 11) = none ∧
        due = .base (fld (regGet s (0xF3C904 + 16 * n.val)) 14 11) (sext 40 (pairN s (0xF3C902 + 16 * n.val)))
          (fld (regGet s (0xF3C904 + 16 * n.val)) 16 15))) →
    ∃ u, exec (.dpost (.core c) n d) s = .next u ∧
      (∃ e : DelayEntry, u.pg.delay = s.pg.delay ++ [e] ∧ e.entry < 1024 ∧
        (∀ x ∈ s.pg.delay, x.entry ≠ e.entry) ∧ (∀ i, i < e.entry → ∃ x ∈ s.pg.delay, x.entry = i) ∧
        e.gen = mapGet 0 s.pg.gens e.entry ∧ mapGet 0 u.pg.gens e.entry = (e.gen + 1) % 512 ∧
        e.desc = d.toNat ∧ e.arg = regGet s (0xF3C900 + 16 * n.val) ∧ e.due = due ∧ e.fired = false ∧
        regGet u (0xF3C906 + 16 * n.val) = word (2 ^ 19 + e.gen * 2 ^ 10 + e.entry)) ∧ u.pg.ready = s.pg.ready ∧
      sameBut [.sys, .regs, .held, .pg] s u ∧ regsBut [0xF3C906 + 16 * n.val] s u) ∧
  (∀ (s : State) (c : Fin 8) (n : CoreId) (d : BitVec 9), afterBoot s = true →
    (fld (regGet s (0xF3C904 + 16 * n.val)) 16 15 = 3 ∨
      (fld (regGet s (0xF3C904 + 16 * n.val)) 18 17 = 0 ∧ pairN s (0xF3C902 + 16 * n.val) = 0)) →
    ∃ u, exec (.dpost (.core c) n d) s = .next u ∧ u.pg = s.pg ∧ regGet u (0xF3C906 + 16 * n.val) = 0 ∧
      sameBut [.sys, .regs, .held] s u ∧ regsBut [0xF3C906 + 16 * n.val] s u) ∧
  (∀ (s : State) (c : Fin 8) (n : CoreId) (d : BitVec 9), afterBoot s = true → 1024 ≤ s.pg.delay.length →
    fld (regGet s (0xF3C904 + 16 * n.val)) 16 15 ≠ 3 → fld (regGet s (0xF3C904 + 16 * n.val)) 18 17 = 0 →
    pairN s (0xF3C902 + 16 * n.val) ≠ 0 →
    ∃ u, exec (.dpost (.core c) n d) s = .next u ∧ u.pg.delay = s.pg.delay ∧ u.pg.ready = s.pg.ready ∧
      u.cores[c].stalled = some (.delay n d.toNat (regGet s (0xF3C900 + 16 * n.val)) (pairN s (0xF3C902 + 16 * n.val)) (regGet s (0xF3C904 + 16 * n.val))) ∧
      (∀ k : Fin 8, k ≠ c → u.cores[k] = s.cores[k]) ∧ sameBut [.sys, .regs, .held, .cores, .pg, .bv, .pc] s u) ∧
  (∀ (s : State) (c : Fin 8) (n : CoreId) (h : Word), afterBoot s = true → (∀ k : Fin 8, s.cores[k].stalled = none) →
    (∃ e ∈ s.pg.delay, e.entry = fld h 9 0 ∧ e.gen = fld h 18 10 ∧ e.fired = false) →
    ∃ u, exec (.dcancel (.core c) n h) s = .next u ∧
      u.pg = { s.pg with delay := s.pg.delay.filter fun e => e.entry != fld h 9 0 } ∧ fld (regGet u (0xF3C908 + 16 * n.val)) 19 18 = 1 ∧
      sameBut [.sys, .regs, .held, .pg] s u ∧ regsBut [0xF3C908 + 16 * n.val] s u) ∧
  (∀ (s : State) (c : Fin 8) (n : CoreId) (h : Word), afterBoot s = true →
    (∀ e ∈ s.pg.delay, e.entry = fld h 9 0 → e.gen = fld h 18 10 → e.fired = true) →
    ∃ u, exec (.dcancel (.core c) n h) s = .next u ∧ fld (regGet u (0xF3C908 + 16 * n.val)) 19 18 = 2 ∧
      sameBut [.sys, .regs, .held] s u ∧ regsBut [0xF3C908 + 16 * n.val] s u))

/-- The system tick and the posts of event sources (13 R372, R377, R378): a tick brings every tick entry one nearer, and an entry that elapses posts to its descriptor and leaves the list; a pending event source posts its number to its descriptor and is pending no more. -/
def Obligations.TicksAndEventSourcesPost : Prop :=
  (∀ s : State, afterBoot s = true → (∀ c : Fin 8, s.cores[c].stalled = none) → s.pg.dueQ = [] →
    (∀ e ∈ s.pg.delay, e.due ≠ .tick 1 ∧ e.fired = false) →
    ∃ u, exec .systemTick s = .next u ∧ u.pg.ready = s.pg.ready ∧ u.pg.delay.length = s.pg.delay.length ∧
      (∀ (i : Nat) (e : DelayEntry), s.pg.delay[i]? = some e → ∃ x, u.pg.delay[i]? = some x ∧ x.entry = e.entry ∧ x.desc = e.desc ∧
        x.arg = e.arg ∧ (∀ k, e.due = .tick k → x.due = .tick (k - 1)) ∧ (∀ b v w, e.due = .base b v w → x.due = e.due)) ∧
      sameBut [.regs, .held, .pg, .bv, .pc] s u ∧ regsButEvents [] s u) ∧
  (∀ (s : State) (e : DelayEntry), afterBoot s = true → (∀ c : Fin 8, s.cores[c].stalled = none) → s.pg.dueQ = [] → s.pg.delay = [e] →
    e.due = .tick 1 → e.fired = false → descEn s e.desc = true → readyRefuses s e.desc = false →
    ∃ u, exec .systemTick s = .next u ∧ u.pg.ready = s.pg.ready ++ [⟨e.desc, e.arg, descKey s e.desc⟩] ∧ u.pg.delay = [] ∧ u.pg.dueQ = [] ∧
      sameBut [.regs, .held, .pg, .bv, .pc] s u ∧ regsButEvents [] s u) ∧
  (∀ (s : State) (n : Fin 128), afterBoot s = true → (lookupNat s.pg.evPend n).isSome = true →
    descEn s (fldOf s (0xF40000 + n.val) 8 0) = true → readyRefuses s (fldOf s (0xF40000 + n.val) 8 0) = false →
    ∃ u, exec (.eventSourcePost n) s = .next u ∧
      u.pg.ready = s.pg.ready ++ [⟨fldOf s (0xF40000 + n.val) 8 0, word n.val, descKey s (fldOf s (0xF40000 + n.val) 8 0)⟩] ∧
      lookupNat u.pg.evPend n = none ∧ u.pg.delay = s.pg.delay ∧
      sameBut [.regs, .held, .pg, .bv, .pc] s u ∧ regsButEvents [] s u)

/-- The performance counters (14 R389, R390, R394): SNAP copies every counter and overflow register and sets SVALID; a write of a LO word loads its counter from the staged HI word and clears its overflow bit; an event adds to a running enabled counter, which wraps past FFFFFFFFFFh and then sets its overflow bit. -/
def Obligations.CountersSnapLoadAndWrap : Prop :=
  (∀ (s : State) (who : Requester), regReach s = true →
    ∃ u, exec (.snap who) s = .next u ∧ u.pc.snap = s.pc.cnt ∧ u.pc.cnt = s.pc.cnt ∧
      (∀ n : Fin 8, mapGet 0 u.pc.snapOvf n = regGet s (0xF4C009 + 64 * n.val)) ∧ mapGet 0 u.pc.snapOvf 8 = regGet s 0xF4C240 ∧
      bit (regGet u 0xF4C300) 16 = true ∧ bit (regGet u 0xF4C300) 19 = bit (regGet s 0xF4C300) 19 ∧
      sameBut [.sys, .regs, .held, .pc] s u ∧ regsBut [0xF4C300] s u) ∧
  (∀ (s : State) (who : Requester) (k : Fin 112) (lo : Word), regReach s = true →
    ∃ u, exec (.counterLoad who k lo) s = .next u ∧ pcGet u k = (mapGet 0 s.pc.hi k).toNat * 2 ^ 20 + lo.toNat ∧
      (∀ j, j ≠ k.val → pcGet u j = pcGet s j) ∧ bit (regGet u (pcOvfAddr k).1) (pcOvfAddr k).2 = false ∧
      sameBut [.sys, .regs, .held, .pc] s u ∧ regsBut [(pcOvfAddr k).1] s u) ∧
  (∀ (s : State) (k : Fin 112) (amount : Fin 3), pcRunning s = true → bitOf s (pcCfgAddr k) 19 = true → pcGet s k < 2 ^ 40 →
    ∃ u, exec (.counterWrap k amount) s = .next u ∧ pcGet u k = (pcGet s k + amount.val) % 2 ^ 40 ∧
      (∀ j, j ≠ k.val → pcGet u j = pcGet s j) ∧
      (2 ^ 40 ≤ pcGet s k + amount.val → bit (regGet u (pcOvfAddr k).1) (pcOvfAddr k).2 = true) ∧
      (pcGet s k + amount.val < 2 ^ 40 → sameBut [.pc] s u) ∧
      sameBut [.regs, .held, .pg, .bv, .pc] s u ∧ regsButEvents [] s u)

/-- Transmission requests and cancels of a message object (15 R400, R404): a well-formed request becomes pending, one that the enabled formats refuse ends with TXRES 110b, one of a receive object or of an object that is pending is dropped with reason 07h; a cancel before the SOF ends a pending request with 010b, one in the frame is kept as a late cancel. The fall-back queue, its results and the receive ring (15 R408, R410): PUSH appends the staging window, or counts when 32 entries wait; FLUSH ends every entry with 010b; RPOP and POP show the next result and the next frame. -/
def Obligations.CanRequestsAndQueues : Prop :=
  ((∀ (s : State) (who : Requester) (c : Fin 2) (o : Fin 128), afterBoot s = true →
    ∃ u, exec (.txrq who c o) s = .next u ∧
      ((bit (regGet s (cnObj c o)) 10 = false ∨ bit (regGet s (cnObj c o)) 9 = false ∨ cnPend s c o = true) →
        u.can = s.can ∧ regGet u (cnObj c o + 3) = regGet s (cnObj c o + 3) ∧ regGet u 0xF50001 = regGet s 0xF50001 + 1 ∧
        fld (regGet u 0xF50004) 15 8 = 7) ∧
      (bit (regGet s (cnObj c o)) 10 = true → bit (regGet s (cnObj c o)) 9 = true → cnPend s c o = false →
        bit (regGet s (cnObj c o)) 18 = true → bit (regGet s (cnBase c + 1)) 19 = false →
        fld (regGet u (cnObj c o + 3)) 17 14 = 6) ∧
      (bit (regGet s (cnObj c o)) 10 = true → bit (regGet s (cnObj c o)) 9 = true → cnPend s c o = false →
        bit (regGet s (cnObj c o)) 18 = false → bit (regGet s (cnObj c o)) 17 = false →
        fld (regGet u (cnObj c o + 3)) 17 14 = 8 ∧ regsBut [cnObj c o + 3] s u) ∧
      (∀ d : Fin 2, d ≠ c → u.can[d] = s.can[d]) ∧
      sameBut [.sys, .regs, .held, .can, .pg, .bv, .pc] s u) ∧
  (∀ (s : State) (who : Requester) (c : Fin 2) (o : Fin 128), afterBoot s = true → cnPend s c o = true →
    ∃ u, exec (.cancel who c o) s = .next u ∧
      (cnInFrame s c o = false → fld (regGet u (cnObj c o + 3)) 17 14 = 2) ∧
      (cnInFrame s c o = true → o.val ∈ u.can[c].late ∧ u.regs = s.regs ∧ u.can[c].bus = s.can[c].bus) ∧
      (∀ d : Fin 2, d ≠ c → u.can[d] = s.can[d]) ∧
      sameBut [.sys, .regs, .held, .can, .pg, .bv, .pc] s u ∧ regsButEvents [cnObj c o + 3, cnBase c + 3] s u)) ∧
  (∀ (s : State) (who : Requester) (c : Fin 2), afterBoot s = true →
    (∃ u, exec (.push who c) s = .next u ∧
      (s.can[c].queue.length < 32 → u.can[c].queue = s.can[c].queue ++ [⟨(List.range 40).map fun i => regGet s (cnBase c + 0x180 + i), false, 0⟩] ∧
        u.regs = s.regs) ∧
      (32 ≤ s.can[c].queue.length → u.can = s.can ∧ regGet u (cnBase c + 0x15) = regGet s (cnBase c + 0x15) + 1 ∧
        bit (regGet u (cnBase c + 3)) 12 = true) ∧
      (∀ d : Fin 2, d ≠ c → u.can[d] = s.can[d]) ∧
      sameBut [.sys, .regs, .held, .can, .pg, .bv, .pc] s u ∧ regsButEvents [cnBase c + 3, cnBase c + 0x15] s u) ∧
    (cnInFrame s c 128 = false → s.can[c].results.length + s.can[c].queue.length ≤ 32 →
      ∃ u, exec (.flush who c) s = .next u ∧ u.can[c].queue = [] ∧
        u.can[c].results = s.can[c].results ++ s.can[c].queue.map (fun e => (2, fld (e.frame.getD 3 0) 7 0)) ∧
        (∀ d : Fin 2, d ≠ c → u.can[d] = s.can[d]) ∧
        sameBut [.sys, .regs, .held, .can, .pg, .bv, .pc] s u ∧ regsButEvents [cnBase c + 3] s u) ∧
    (∃ u, exec (.rpop who c) s = .next u ∧ u.can[c].results = s.can[c].results.tail ∧ u.can[c].queue = s.can[c].queue ∧
      u.can[c].ring = s.can[c].ring ∧ (∀ d : Fin 2, d ≠ c → u.can[d] = s.can[d]) ∧ sameBut [.sys, .can] s u) ∧
    (∃ u, exec (.pop who c) s = .next u ∧ u.can[c].ring = s.can[c].ring.tail ∧ u.can[c].wval = !s.can[c].ring.tail.isEmpty ∧
      u.can[c].results = s.can[c].results ∧ (∀ d : Fin 2, d ≠ c → u.can[d] = s.can[d]) ∧ sameBut [.sys, .can] s u))

/-- INIT, integration and bus-off recovery (15 R398, R406, R407): INIT = 1 takes a controller off a free bus at once and off a busy one at the end of the frame; INIT = 0 starts integration with the error counters at 0, or sets CFG_ERR where the bit timing is out of range; an integrated or recovered controller is error-active. Frames (15 R401, R402, R403, R409, R411): at a start of frame the strongest candidate takes part, and none in listen-only or under INIT; a frame sent ends its request with 001b and lowers the transmit error count; an error met as a receiver raises the receive error count, not in listen-only; a frame received enters the ring with its time stamp and marks every matching object NEW, and OVW over an unread frame. -/
def Obligations.CanModesAndFrames : Prop :=
  (∀ (s : State) (who : Requester) (c : Fin 2),
    (afterBoot s = true → s.can[c].st ≠ .init →
      ∃ u, exec (.initSet who c) s = .next u ∧ bit (regGet u (cnBase c)) 19 = true ∧
        (s.can[c].bus = none → u.can[c].st = .init) ∧
        (cnOnBus s.can[c] = true → s.can[c].bus.isSome = true → u.can[c].st = s.can[c].st ∧ u.can[c].initPend = true ∧
          u.can[c].bus = s.can[c].bus) ∧
        (∀ d : Fin 2, d ≠ c → u.can[d] = s.can[d]) ∧ sameBut [.sys, .regs, .held, .can] s u ∧ regsBut [cnBase c] s u) ∧
    (afterBoot s = true → bitOf s (cnBase c) 19 = true → s.can[c].st = .init →
      ∃ u, exec (.initClear who c) s = .next u ∧
        (cnTimingOk s c = true → bit (regGet u (cnBase c)) 19 = false ∧ u.can[c].st = .integrating ∧ u.can[c].tec = 0 ∧ u.can[c].recv = 0) ∧
        (cnTimingOk s c = false → u.can = s.can ∧ bit (regGet u (cnBase c + 2)) 13 = true ∧ regGet u (cnBase c) = regGet s (cnBase c)) ∧
        (∀ d : Fin 2, d ≠ c → u.can[d] = s.can[d]) ∧
        sameBut [.sys, .regs, .held, .can] s u ∧ regsBut [cnBase c, cnBase c + 2] s u) ∧
    (s.can[c].st = .integrating →
      ∃ u, exec (.integrationComplete c) s = .next u ∧ u.can[c] = { s.can[c] with st := .active } ∧
        (∀ d : Fin 2, d ≠ c → u.can[d] = s.can[d]) ∧ sameBut [.can] s u) ∧
    (s.can[c].st = .recovering →
      ∃ u, exec (.busOffRecovery c) s = .next u ∧ u.can[c] = { s.can[c] with st := .active, tec := 0, recv := 0 } ∧
        bit (regGet u (cnBase c + 3)) 16 = true ∧ (∀ d : Fin 2, d ≠ c → u.can[d] = s.can[d]) ∧
        sameBut [.regs, .held, .can, .pg, .bv, .pc] s u ∧ regsButEvents [cnBase c + 3] s u)) ∧
  ((∀ (s : State) (c : Fin 2) (t : Nat), cnOnBus s.can[c] = true →
    ∃ u b, exec (.startOfFrame c t) s = .next u ∧ u.can[c].bus = some b ∧ b.sof = t ∧
      (cnLomf s c = true ∨ bitOf s (cnBase c) 19 = true → b.own = none) ∧
      (cnLomf s c = false → bitOf s (cnBase c) 19 = false → (cnCandidates s c ≠ [] → b.own.isSome = true) ∧
        ∀ o, b.own = some o → ∃ k, (o, k) ∈ cnCandidates s c ∧ ∀ x ∈ cnCandidates s c, k ≤ x.2) ∧
      (∀ d : Fin 2, d ≠ c → u.can[d] = s.can[d]) ∧ sameBut [.now, .can] s u) ∧
  (∀ (s : State) (c : Fin 2) (b : OnBus) (o : Fin 128) (td : Option (Fin 128)) (t : Nat), s.can[c].bus = some b → b.own = some o.val →
    s.can[c].initPend = false → s.can[c].late.contains o.val = false → bitOf s (cnBase c + 1) 16 = false →
    s.can[c].st = .active → s.can[c].tec < 128 → s.can[c].recv < 128 →
    ∃ u, exec (.frameEnd c .sent td t) s = .next u ∧ fld (regGet u (cnObj c o + 3)) 17 14 = 1 ∧ u.can[c].tec = s.can[c].tec - 1 ∧
      u.can[c].st = .active ∧ u.can[c].bus = none ∧ u.can[c].ackRun = 0 ∧ u.can[c].queue = s.can[c].queue ∧
      regGet u (cnBase c + 0x12) = regGet s (cnBase c + 0x12) + 1 ∧
      (∀ d : Fin 2, d ≠ c → u.can[d] = s.can[d]) ∧ sameBut [.now, .regs, .held, .can, .pg, .bv, .pc] s u) ∧
  (∀ (s : State) (c : Fin 2) (b : OnBus) (eight : Bool) (td : Option (Fin 128)) (t : Nat), s.can[c].bus = some b → b.own = none →
    ∃ u, exec (.frameEnd c (.rxError eight) td t) s = .next u ∧ u.can[c].bus = none ∧ u.can[c].tec = s.can[c].tec ∧
      u.can[c].recv = (if cnLomf s c then s.can[c].recv else min 255 (s.can[c].recv + if eight then 8 else 1)) ∧
      regGet u (cnBase c + 0x14) = regGet s (cnBase c + 0x14) + 1 ∧
      (∀ d : Fin 2, d ≠ c → u.can[d] = s.can[d]) ∧ sameBut [.now, .regs, .held, .can, .pg, .bv, .pc] s u) ∧
  (∀ (s : State) (c : Fin 2) (f : RxFrame) (t : Nat), cnOnBus s.can[c] = true → f.noack = false → f.fdf = false → s.can[c].ring.length < 512 →
    ∃ u w, exec (.frameReceived c f t) s = .next u ∧ u.can[c].ring = s.can[c].ring ++ [w] ∧ w.getD 1 0 = word f.base.toNat ∧
      (w.drop 4).take 4 = words64 (sysTimeAt s t) ∧ u.can[c].wval = true ∧
      (∀ o : Fin 128, cnMatches s c f o = true → bit (regGet u (cnObj c o + 3)) 13 = true ∧
        (bitOf s (cnObj c o + 3) 13 = true → bit (regGet u (cnObj c o + 3)) 12 = true)) ∧
      u.can[c].recv = (if cnLomf s c then s.can[c].recv else cnRecDown s.can[c].recv) ∧ u.can[c].tec = s.can[c].tec ∧
      regGet u (cnBase c + 0x10) = regGet s (cnBase c + 0x10) + 1 ∧
      (∀ d : Fin 2, d ≠ c → u.can[d] = s.can[d]) ∧ sameBut [.regs, .held, .can, .pg, .bv, .pc] s u))

/-- Sums, differences, comparisons, limits and signs (12 R341, R343, R344, R349): Dd takes the 20-bit result and N and Z are its sign and zero; V tells that the exact result does not fit, C the carry out of bit 19 or the absence of a borrow; saturating operations set V where they saturate; MIN and MAX leave V and C; a V that becomes 1 sets SV. The immediate forms take IMM20 for Ds. -/
def Obligations.CoreArithmetic : Prop :=
  ∀ (s : State) (c : CoreId) (d r : DReg) (m : MSlot) (imm : Word) (cmd : Instr) (keep cy ov v : Bool) (res : Word),
    coreReady s.cores[c] → slotFits (if keep then [d] else []) [] true m s.cores[c] →
    (let x := s.cores[c].r.d[d]
     let y := s.cores[c].r.d[r]
     let st := s.cores[c].r.st
     let c0 : Nat := (bit st 16).toNat
     (cmd = .add c d r m ∧ keep = true ∧ res = x + y ∧ ov = decide (res.toInt ≠ x.toInt + y.toInt) ∧ v = ov ∧ cy = decide (2 ^ 20 ≤ x.toNat + y.toNat)) ∨
     (cmd = .adc c d r m ∧ keep = true ∧ res = x + y + word c0 ∧ ov = decide (res.toInt ≠ x.toInt + y.toInt + c0) ∧ v = ov ∧
       cy = decide (2 ^ 20 ≤ x.toNat + y.toNat + c0)) ∨
     ((cmd = .sub c d r m ∧ keep = true ∨ cmd = .cmp c d r m ∧ keep = false) ∧ res = x - y ∧ ov = decide (res.toInt ≠ x.toInt - y.toInt) ∧ v = ov ∧
       cy = decide (y.toNat ≤ x.toNat)) ∨
     (cmd = .sbc c d r m ∧ keep = true ∧ res = x - y - word (1 - c0) ∧ ov = decide (res.toInt ≠ x.toInt - y.toInt - (1 - c0 : Nat)) ∧ v = ov ∧
       cy = decide (y.toNat + (1 - c0) ≤ x.toNat)) ∨
     (cmd = .adds c d r m ∧ keep = true ∧ res.toInt = max (-(2 ^ 19)) (min (2 ^ 19 - 1) (x.toInt + y.toInt)) ∧
       ov = decide (res.toInt ≠ x.toInt + y.toInt) ∧ v = ov ∧ cy = bit st 16) ∨
     (cmd = .subs c d r m ∧ keep = true ∧ res.toInt = max (-(2 ^ 19)) (min (2 ^ 19 - 1) (x.toInt - y.toInt)) ∧
       ov = decide (res.toInt ≠ x.toInt - y.toInt) ∧ v = ov ∧ cy = bit st 16) ∨
     (cmd = .min c d r m ∧ keep = true ∧ res.toInt = min x.toInt y.toInt ∧ ov = false ∧ v = bit st 17 ∧ cy = bit st 16) ∨
     (cmd = .max c d r m ∧ keep = true ∧ res.toInt = max x.toInt y.toInt ∧ ov = false ∧ v = bit st 17 ∧ cy = bit st 16) ∨
     (cmd = .neg c d m ∧ keep = true ∧ res = 0 - x ∧ ov = (x == 0x80000) ∧ v = ov ∧ cy = (x == 0)) ∨
     (cmd = .abs c d m ∧ keep = true ∧ res = (if x.toInt < 0 then 0 - x else x) ∧ ov = (x == 0x80000) ∧ v = ov ∧ cy = bit st 16) ∨
     (cmd = .addi c d imm ∧ m = .nop ∧ keep = true ∧ res = x + imm ∧ ov = decide (res.toInt ≠ x.toInt + imm.toInt) ∧ v = ov ∧
       cy = decide (2 ^ 20 ≤ x.toNat + imm.toNat)) ∨
     ((cmd = .subi c d imm ∧ keep = true ∨ cmd = .cmpi c d imm ∧ keep = false) ∧ m = .nop ∧ res = x - imm ∧
       ov = decide (res.toInt ≠ x.toInt - imm.toInt) ∧ v = ov ∧ cy = decide (imm.toNat ≤ x.toNat))) →
    ∃ u, exec cmd s = .next u ∧ (keep = true → u.cores[c].r.d[d] = res) ∧
      flagsAre u.cores[c].r.st (bit res 19) (res == 0) v cy (ov || bit s.cores[c].r.st 13) ∧ wordFrame s u c (if keep then [d] else []) [] m

/-- Logic and bits (12 R343, R349): the bitwise operations write N and Z of their result, clear V and leave C; BSET, BCLR and LDI set no flag, BTST sets Z alone and leaves Dd; the A-slot NOP does nothing. Shifts (12 R343, R345): by a count n of 0 to 19, or by Ds[4:0], 0 to 31; C is the last bit out and unchanged for n = 0, V of a left shift tells that the value did not survive. -/
def Obligations.CoreLogicBitsAndShifts : Prop :=
  (∀ (s : State) (c : CoreId) (d r : DReg) (m : MSlot) (b : Fin 20) (imm : Word), coreReady s.cores[c] →
    (∀ (cmd : Instr) (keep : Bool) (res : Word), slotFits (if keep then [d] else []) [] true m s.cores[c] →
      (let x := s.cores[c].r.d[d]
       let y := s.cores[c].r.d[r]
       (cmd = .and c d r m ∧ keep = true ∧ res = x &&& y) ∨ (cmd = .or c d r m ∧ keep = true ∧ res = x ||| y) ∨
       (cmd = .xor c d r m ∧ keep = true ∧ res = x ^^^ y) ∨ (cmd = .tst c d r m ∧ keep = false ∧ res = x &&& y) ∨
       (cmd = .not c d m ∧ keep = true ∧ res = ~~~x) ∨ (cmd = .andi c d imm ∧ m = .nop ∧ keep = true ∧ res = x &&& imm) ∨
       (cmd = .ori c d imm ∧ m = .nop ∧ keep = true ∧ res = x ||| imm) ∨ (cmd = .xori c d imm ∧ m = .nop ∧ keep = true ∧ res = x ^^^ imm) ∨
       (cmd = .tsti c d imm ∧ m = .nop ∧ keep = false ∧ res = x &&& imm)) →
      ∃ u, exec cmd s = .next u ∧ (keep = true → u.cores[c].r.d[d] = res) ∧
        flagsAre u.cores[c].r.st (bit res 19) (res == 0) false (bit s.cores[c].r.st 16) (bit s.cores[c].r.st 13) ∧
        wordFrame s u c (if keep then [d] else []) [] m) ∧
    (∀ (cmd : Instr) (res : Word), slotFits [d] [] false m s.cores[c] →
      (let x := s.cores[c].r.d[d]
       (cmd = .bset c d b m ∧ res = x ||| word (2 ^ b.val)) ∨ (cmd = .bclr c d b m ∧ res = x &&& ~~~(word (2 ^ b.val))) ∨
       (cmd = .ldi c d imm ∧ m = .nop ∧ res = imm)) →
      ∃ u, exec cmd s = .next u ∧ u.cores[c].r.d[d] = res ∧ (63 ∉ mWrites m → flagsSame s.cores[c].r.st u.cores[c].r.st) ∧ wordFrame s u c [d] [] m) ∧
    (slotFits [] [] true m s.cores[c] →
      ∃ u, exec (.btst c d b m) s = .next u ∧
        flagsAre u.cores[c].r.st (bit s.cores[c].r.st 19) (!bit s.cores[c].r.d[d] b) (bit s.cores[c].r.st 17) (bit s.cores[c].r.st 16)
          (bit s.cores[c].r.st 13) ∧ wordFrame s u c [] [] m) ∧
    (slotFits [] [] false m s.cores[c] →
      ∃ u, exec (.nop c m) s = .next u ∧ (63 ∉ mWrites m → flagsSame s.cores[c].r.st u.cores[c].r.st) ∧ wordFrame s u c [] [] m)) ∧
  (∀ (s : State) (c : CoreId) (d r : DReg) (m : MSlot) (i : Fin 20) (cmd : Instr) (n : Nat) (res : Word) (v cy : Bool),
    coreReady s.cores[c] → slotFits [d] [] true m s.cores[c] →
    (let x := s.cores[c].r.d[d]
     let w := fld s.cores[c].r.d[r] 4 0
     ((cmd = .asl c d i m ∧ n = i.val ∨ cmd = .aslv c d r m ∧ n = w) ∧ res = word (x.toNat * 2 ^ n) ∧
       v = decide (res.toInt ≠ x.toInt * 2 ^ n) ∧
       cy = (if n = 0 then bit s.cores[c].r.st 16 else if 20 ≤ n then false else bit x (20 - n))) ∨
     ((cmd = .asr c d i m ∧ n = i.val ∨ cmd = .asrv c d r m ∧ n = w) ∧ res.toInt = x.toInt / 2 ^ n ∧ v = false ∧
       cy = (if n = 0 then bit s.cores[c].r.st 16 else if 20 ≤ n then bit x 19 else bit x (n - 1))) ∨
     ((cmd = .lsr c d i m ∧ n = i.val ∨ cmd = .lsrv c d r m ∧ n = w) ∧ res.toNat = x.toNat / 2 ^ n ∧ v = false ∧
       cy = (if n = 0 then bit s.cores[c].r.st 16 else if 20 ≤ n then false else bit x (n - 1)))) →
    ∃ u, exec cmd s = .next u ∧ u.cores[c].r.d[d] = res ∧
      flagsAre u.cores[c].r.st (bit res 19) (res == 0) v cy (v || bit s.cores[c].r.st 13) ∧ wordFrame s u c [d] [] m)

/-- The accumulator operations (12 R346, R347): ACk takes the result, saturated where it does not fit in 48 bits; a right shift truncates, RNDA rounds at bit 19; no flag changes. Normalise and exponent (12 R348): with c the number of bits after the sign bit that equal it, NORM shifts Dd left by c and puts c into Ds, EXP puts c of Ds into Dd, both with N and Z of the original; EXPA puts c - 8 of an accumulator into Dd, and NORMA also shifts the accumulator by that count. -/
def Obligations.CoreAccumulatorsAndExponents : Prop :=
  (∀ (s : State) (c : CoreId) (k : AcId) (d r : DReg) (mode : MacMode) (m : MSlot) (cmd : Instr) (x : Int),
    coreReady s.cores[c] → slotFits [] [k] false m s.cores[c] →
    (let a : Int := s.cores[c].r.ac[k].toInt
     let y : Int := s.cores[c].r.d[d].toInt
     let z : Int := s.cores[c].r.d[r].toInt
     let n : Int := sfld s.cores[c].r.d[r] 5 0
     let p : Int := match mode with
       | .frac => 2 * (y * z)
       | .int => y * z
       | .uint => (s.cores[c].r.d[d].toNat : Int) * s.cores[c].r.d[r].toNat
     (cmd = .mpy c k d r mode m ∧ x = p) ∨ (cmd = .mac c k d r mode m ∧ x = a + p) ∨ (cmd = .msu c k d r mode m ∧ x = a - p) ∨
     (cmd = .lda c k d m ∧ x = y * 2 ^ 20) ∨ (cmd = .adda c k d m ∧ x = a + y * 2 ^ 20) ∨ (cmd = .suba c k d m ∧ x = a - y * 2 ^ 20) ∨
     (cmd = .clra c k m ∧ x = 0) ∨ (cmd = .nega c k m ∧ x = -a) ∨ (cmd = .absa c k m ∧ x = |a|) ∨
     (cmd = .suma c k m ∧ x = s.cores[c].r.ac[(0 : AcId)].toInt + s.cores[c].r.ac[(1 : AcId)].toInt) ∨
     (cmd = .rnda c k m ∧ x = (a + 2 ^ 19) / 2 ^ 20 * 2 ^ 20) ∨
     (cmd = .shav c k r m ∧ x = if 0 ≤ n then a * 2 ^ n.toNat else a / 2 ^ (-n).toNat)) →
    ∃ u, exec cmd s = .next u ∧ u.cores[c].r.ac[k].toInt = max (-(2 ^ 47)) (min (2 ^ 47 - 1) x) ∧
      (63 ∉ mWrites m → flagsSame s.cores[c].r.st u.cores[c].r.st) ∧ wordFrame s u c [] [k] m) ∧
  (∀ (s : State) (c : CoreId) (k : AcId) (d r : DReg) (m : MSlot) (n : Nat), coreReady s.cores[c] →
    (∀ x : Word, n ≤ 19 → (∀ i, 19 - n ≤ i → i < 19 → bit x i = bit x 19) → (n < 19 → bit x (18 - n) ≠ bit x 19) →
      (x = s.cores[c].r.d[d] → d ≠ r → slotFits [d, r] [] true m s.cores[c] →
        ∃ u, exec (.norm c d r m) s = .next u ∧ u.cores[c].r.d[d] = word (x.toNat * 2 ^ n) ∧ u.cores[c].r.d[r] = word n ∧
          flagsAre u.cores[c].r.st (bit x 19) (x == 0) (bit s.cores[c].r.st 17) (bit s.cores[c].r.st 16) (bit s.cores[c].r.st 13) ∧
          wordFrame s u c [d, r] [] m) ∧
      (x = s.cores[c].r.d[r] → slotFits [d] [] true m s.cores[c] →
        ∃ u, exec (.exp c d r m) s = .next u ∧ u.cores[c].r.d[d] = word n ∧
          flagsAre u.cores[c].r.st (bit x 19) (x == 0) (bit s.cores[c].r.st 17) (bit s.cores[c].r.st 16) (bit s.cores[c].r.st 13) ∧
          wordFrame s u c [d] [] m)) ∧
    (∀ a : Acc, a = s.cores[c].r.ac[k] → n ≤ 47 → (∀ i, 47 - n ≤ i → i < 47 → a.getLsbD i = a.getLsbD 47) →
      (n < 47 → a.getLsbD (46 - n) ≠ a.getLsbD 47) →
      (slotFits [d] [] false m s.cores[c] →
        ∃ u, exec (.expa c d k m) s = .next u ∧ u.cores[c].r.d[d].toInt = (n : Int) - 8 ∧
          (63 ∉ mWrites m → flagsSame s.cores[c].r.st u.cores[c].r.st) ∧ wordFrame s u c [d] [] m) ∧
      (slotFits [d] [k] false m s.cores[c] →
        ∃ u, exec (.norma c k d m) s = .next u ∧ u.cores[c].r.d[d].toInt = (n : Int) - 8 ∧
          u.cores[c].r.ac[k].toInt = (if 8 ≤ n then a.toInt * 2 ^ (n - 8) else a.toInt / 2 ^ (8 - n)) ∧
          (63 ∉ mWrites m → flagsSame s.cores[c].r.st u.cores[c].r.st) ∧ wordFrame s u c [d] [k] m)))

/-- Moves and accesses of a word without an A-slot operation (12 R340, R350-R357; 11 R310, R316): a load from the core's own banks is ready at the end of the load-delay slot, a store writes its words and nothing else, the pointers take their post-modified values, a move converts between widths. -/
def Obligations.CoreMovesAndBankAccesses : Prop :=
  ∀ (s : State) (c : CoreId), coreReady s.cores[c] →
    (∀ (dx dy : DReg) (a b : Fin 4) (ma mb : Modify), dx ≠ dy → slotFits [] [] false (.ldxy dx dy a b ma mb .good) s.cores[c] →
      ∃ u, exec (.ldxy c dx dy a b ma mb .good) s = .next u ∧
        u.cores[c].ldSlot = [⟨dx.val, (xyGet s c.val (agUnit s.cores[c].r s.cores[c].agOld (Fin.ofNat 8 a.val)).a.toNat).toNat, false, false⟩,
          ⟨dy.val, (xyGet s c.val (agUnit s.cores[c].r s.cores[c].agOld (Fin.ofNat 8 (4 + b.val))).a.toNat).toNat, false, false⟩] ∧
        (ma ≠ .keep → u.cores[c].r.a[(Fin.ofNat 8 a.val : Unit8)] = (agModify (agUnit s.cores[c].r s.cores[c].agOld (Fin.ofNat 8 a.val)) ma).1) ∧
        (mb ≠ .keep → u.cores[c].r.a[(Fin.ofNat 8 (4 + b.val) : Unit8)] = (agModify (agUnit s.cores[c].r s.cores[c].agOld (Fin.ofNat 8 (4 + b.val))) mb).1) ∧
        wordFrame s u c [] [] (.ldxy dx dy a b ma mb .good)) ∧
    (∀ (dx dy : DReg) (a b : Fin 4) (ma mb : Modify), slotFits [] [] false (.stxy dx dy a b ma mb) s.cores[c] →
      ∃ u, exec (.stxy c dx dy a b ma mb) s = .next u ∧
        xyGet u c.val (agUnit s.cores[c].r s.cores[c].agOld (Fin.ofNat 8 (4 + b.val))).a.toNat = s.cores[c].r.d[dy] ∧
        ((agUnit s.cores[c].r s.cores[c].agOld (Fin.ofNat 8 a.val)).a ≠ (agUnit s.cores[c].r s.cores[c].agOld (Fin.ofNat 8 (4 + b.val))).a →
          xyGet u c.val (agUnit s.cores[c].r s.cores[c].agOld (Fin.ofNat 8 a.val)).a.toNat = s.cores[c].r.d[dx]) ∧
        (∀ n, n ≠ c.val * 131072 + (agUnit s.cores[c].r s.cores[c].agOld (Fin.ofNat 8 a.val)).a.toNat →
          n ≠ c.val * 131072 + (agUnit s.cores[c].r s.cores[c].agOld (Fin.ofNat 8 (4 + b.val))).a.toNat → mapGet 0 u.mem.xy n = mapGet 0 s.mem.xy n) ∧
        u.mem = { s.mem with xy := u.mem.xy } ∧ wordFrame s u c [] [] (.stxy dx dy a b ma mb)) ∧
    (∀ (r : RCode) (k : Unit8) (mod : Modify) (w : Bool), slotFits [] [] false (.ld r k mod w .good) s.cores[c] →
      ∃ u, exec (.ld c r k mod w .good) s = .next u ∧
        (w = false → u.cores[c].ldSlot = [⟨r.val, (xyGet s c.val (agUnit s.cores[c].r s.cores[c].agOld k).a.toNat).toNat, false, false⟩]) ∧
        (w = true → u.cores[c].ldSlot = [⟨r.val, (xyGet s c.val (agUnit s.cores[c].r s.cores[c].agOld k).a.toNat).toNat, false, false⟩,
          ⟨r.val + 1, (xyGet s c.val ((agUnit s.cores[c].r s.cores[c].agOld k).a.toNat + 1)).toNat, false, false⟩]) ∧
        (mod ≠ .keep → u.cores[c].r.a[k] = (agModify (agUnit s.cores[c].r s.cores[c].agOld k) mod).1) ∧
        wordFrame s u c [] [] (.ld r k mod w .good)) ∧
    (∀ (r : RCode) (k : Unit8) (mod : Modify) (w : Bool), slotFits [] [] false (.st r k mod w) s.cores[c] →
      ∃ u, exec (.st c r k mod w) s = .next u ∧
        xyGet u c.val (agUnit s.cores[c].r s.cores[c].agOld k).a.toNat = word (readCode s.cores[c].r r.val).1 ∧
        (w = true → xyGet u c.val ((agUnit s.cores[c].r s.cores[c].agOld k).a.toNat + 1) = word (readCode s.cores[c].r (r.val + 1)).1) ∧
        (∀ n, n ≠ c.val * 131072 + (agUnit s.cores[c].r s.cores[c].agOld k).a.toNat →
          (w = true → n ≠ c.val * 131072 + (agUnit s.cores[c].r s.cores[c].agOld k).a.toNat + 1) → mapGet 0 u.mem.xy n = mapGet 0 s.mem.xy n) ∧
        (mod ≠ .keep → u.cores[c].r.a[k] = (agModify (agUnit s.cores[c].r s.cores[c].agOld k) mod).1) ∧
        u.mem = { s.mem with xy := u.mem.xy } ∧ wordFrame s u c [] [] (.st r k mod w)) ∧
    (∀ (k : Unit8) (mod : Modify), ∃ u, exec (.moda c k mod) s = .next u ∧
      (mod ≠ .keep → u.cores[c].r.a[k] = (agModify (agUnit s.cores[c].r s.cores[c].agOld k) mod).1) ∧ wordFrame s u c [] [] (.moda k mod)) ∧
    (∀ (dd : DReg) (k : AcId) (sh : BitVec 5), ∃ u, exec (.movf c dd k sh) s = .next u ∧
      u.cores[c].r.d[dd] = accMovf s.cores[c].r.ac[k] sh (bit s.cores[c].r.st 1) (bit s.cores[c].r.st 2) ∧
      flagsSame s.cores[c].r.st u.cores[c].r.st ∧ wordFrame s u c [] [] (.movf dd k sh)) ∧
    (∀ (rd rs : RCode) (i : BitVec 11) (j : BitVec 24) (cmd : Instr) (v : Nat) (wide : Bool), rd.val ≠ 63 →
      ((cmd = .mov c rd rs ∧ (v, wide) = readCode s.cores[c].r rs.val) ∨
        (cmd = .movi c rd i ∧ (v : Int) = i.toInt % 2 ^ 24 ∧ wide = true) ∨ (cmd = .movi24 c rd j ∧ v = j.toNat ∧ wide = true)) →
      ∃ u, exec cmd s = .next u ∧ u.mem = s.mem ∧ flagsSame s.cores[c].r.st u.cores[c].r.st ∧
        (let x := writeCode rd.val v wide s.cores[c].r
         u.cores[c].r.d = x.d ∧ u.cores[c].r.a = x.a ∧ u.cores[c].r.m = x.m ∧ u.cores[c].r.b = x.b ∧ u.cores[c].r.l = x.l ∧
           u.cores[c].r.ac = x.ac) ∧
        (∀ k : CoreId, k ≠ c → u.cores[k] = s.cores[k]) ∧ sameBut [.regs, .held, .cores, .pg, .bv, .pc] s u ∧ regsButEvents [] s u)

/-- Widths (12 R339, R340): what a move, a load or an immediate writes into each kind of register. -/
def Obligations.ValuesPassBetweenWidths : Prop :=
  ∀ (r : CoreRegs) (v : Nat) (wide : Bool) (k : Fin 8) (a : AcId) (d : DReg) (l : Fin 3), v < 2 ^ 24 → (wide = false → v < 2 ^ 20) →
    (writeCode d.val v wide r).d[d] = word v ∧
    (writeCode (16 + k.val) v wide r).a[k] = BitVec.ofNat 24 v ∧
    (writeCode (24 + k.val) v wide r).m[k] = (if wide then BitVec.ofNat 24 v else (BitVec.ofNat 20 v).signExtend 24) ∧
    (writeCode (32 + k.val) v wide r).b[k] = BitVec.ofNat 24 v ∧ (writeCode (40 + k.val) v wide r).l[k] = BitVec.ofNat 24 v ∧
    (writeCode (49 + 3 * a.val) v wide r).ac[a] = ((BitVec.ofNat 20 v).signExtend 28) ++ (0 : BitVec 20) ∧
    (writeCode (50 + 3 * a.val) v wide r).ac[a] = (r.ac[a].extractLsb' 20 28) ++ (BitVec.ofNat 20 v) ∧
    (writeCode (48 + 3 * a.val) v wide r).ac[a] = (BitVec.ofNat 8 v) ++ (r.ac[a].extractLsb' 0 40) ∧
    (writeCode (54 + l.val) v wide r).lpc[l] = word v ∧ (writeCode (57 + l.val) v wide r).lps[l] = BitVec.ofNat 17 v ∧
    (writeCode (60 + l.val) v wide r).lpe[l] = BitVec.ofNat 17 v ∧
    (∀ n : Fin 20, bit (writeCode 63 v wide r).st n =
      (if n = 19 ∨ n = 18 ∨ n = 17 ∨ n = 16 ∨ n = 11 ∨ n = 7 ∨ n = 6 ∨ n = 5 ∨ n = 2 ∨ n = 1 then v.testBit n
       else if n = 13 ∨ n = 12 then bit r.st n && v.testBit n else bit r.st n))

/-- Long moves to and from memory (12 R350; 11 R310, R316): a load is ready at the end of the load-delay slot, from a bank or, with the store buffer empty, from shared memory; a store to a bank completes at once, one to shared memory enters the store buffer. Halt and memory traffic of a core (11 R316, R334): HALT with the lock unlocked stops one core; a drain writes the oldest store of the buffer to shared memory; a load's data are written to its register. -/
def Obligations.CoreLongMovesAndMemoryTraffic : Prop :=
  (∀ (s : State) (c : CoreId) (r : RCode) (a : Addr), coreReady s.cores[c] →
    (a.toNat < 0x20000 → ∃ u, exec (.ldLong c r a .good) s = .next u ∧
      u.cores[c].ldSlot = [⟨r.val, (xyGet s c.val a.toNat).toNat, false, false⟩] ∧ wordFrame s u c [] [] .nop) ∧
    (0x100000 ≤ a.toNat → a.toNat < 0x200000 → s.cores[c].storeBuf = [] → ∃ u, exec (.ldLong c r a .good) s = .next u ∧
      u.cores[c].ldSlot = [⟨r.val, (sharedGet s (a.toNat - 0x100000)).toNat, false, true⟩] ∧ wordFrame s u c [] [] .nop) ∧
    (a.toNat < 0x20000 → ∃ u, exec (.stLong c r a) s = .next u ∧ xyGet u c.val a.toNat = word (readCode s.cores[c].r r.val).1 ∧
      (∀ n, n ≠ c.val * 131072 + a.toNat → mapGet 0 u.mem.xy n = mapGet 0 s.mem.xy n) ∧ u.mem = { s.mem with xy := u.mem.xy } ∧
      u.cores[c].storeBuf = s.cores[c].storeBuf ∧ u.cores[c].r.d = s.cores[c].r.d ∧ u.cores[c].r.a = s.cores[c].r.a ∧
      (∀ k : CoreId, k ≠ c → u.cores[k] = s.cores[k]) ∧ sameBut [.regs, .held, .mem, .cores, .pg, .bv, .pc] s u ∧ regsButEvents [] s u) ∧
    (0x100000 ≤ a.toNat → a.toNat < 0x200000 → s.cores[c].storeBuf.length < 4 → ∃ u, exec (.stLong c r a) s = .next u ∧
      u.cores[c].storeBuf = s.cores[c].storeBuf ++ [⟨a.toNat, word (readCode s.cores[c].r r.val).1, none⟩] ∧
      u.cores[c].r.d = s.cores[c].r.d ∧ u.cores[c].r.a = s.cores[c].r.a ∧ (∀ k : CoreId, k ≠ c → u.cores[k] = s.cores[k]) ∧
      sameBut [.regs, .held, .cores, .pg, .bv, .pc] s u ∧ regsButEvents [] s u) ∧
    ((0x20000 ≤ a.toNat ∧ a.toNat < 0x100000 ∨ 0x280000 ≤ a.toNat ∧ a.toNat < 0xF00000) → bit s.cores[c].r.st 0 = true →
      ∃ u, exec (.stLong c r a) s = .next u ∧ u.cores[c].halted = true ∧ u.cores[c].dflt = true ∧ u.mem = s.mem ∧
        u.cores[c].storeBuf = s.cores[c].storeBuf)) ∧
  (∀ (s : State) (c : CoreId),
    (∀ who : Requester, who ∈ s.sys.unlocked → ∃ u, exec (.halt who c) s = .next u ∧ u.cores[c] = { s.cores[c] with halted := true, waiting := false } ∧
      who ∉ u.sys.unlocked ∧ (∀ k : CoreId, k ≠ c → u.cores[k] = s.cores[k]) ∧ sameBut [.sys, .cores] s u) ∧
    (∀ (e : BufStore) (es : List BufStore), s.cores[c].storeBuf = e :: es → 0x100000 ≤ e.addr → e.addr < 0x1FFFFF →
      ∃ u, exec (.storeBufferDrain c) s = .next u ∧ u.cores[c] = { s.cores[c] with storeBuf := es } ∧
        sharedGet u (e.addr - 0x100000) = e.value ∧ (∀ lo, e.second = some lo → sharedGet u (e.addr + 1 - 0x100000) = lo) ∧
        (∀ n, n ≠ e.addr - 0x100000 → (e.second.isSome = true → n ≠ e.addr + 1 - 0x100000) → sharedGet u n = sharedGet s n) ∧
        (∀ k : CoreId, k ≠ c → u.cores[k] = s.cores[k]) ∧ u.mem = { s.mem with shared := u.mem.shared } ∧
        sameBut [.regs, .held, .mem, .cores, .pg, .bv, .pc] s u ∧ regsButEvents [] s u) ∧
    (∃ u, exec (.loadDataReturn c) s = .next u ∧ u.cores[c].inFlight = [] ∧ u.cores[c].r = s.cores[c].inFlight.foldl landLoad s.cores[c].r ∧
      u.cores[c].ldSlot = s.cores[c].ldSlot ∧ u.cores[c].pc = s.cores[c].pc ∧ (∀ k : CoreId, k ≠ c → u.cores[k] = s.cores[k]) ∧
      sameBut [.cores] s u))

/-- Branches (11 R319; 12 R358, R359) outside delay slots and body ends: a taken one opens two delay slots before its target, an annulling one not taken annuls them, another one goes on; CALL writes its return address where it is taken; the target follows the second slot, and a word in an annulled slot has no effect. -/
def Obligations.CoreBranchesAndDelaySlots : Prop :=
  (∀ (s : State) (c : CoreId) (cond : Cond) (anl : Bool) (r : DReg) (t : BitVec 17) (cmd : Instr) (link : List DReg) (tgt : BitVec 17),
    coreReady s.cores[c] → s.cores[c].slots = 0 → s.cores[c].after = .none → atBodyEnd s.cores[c] = false →
    (cmd = .b c cond anl t ∧ link = [] ∧ tgt = t ∨ cmd = .call c cond anl r t ∧ link = [r] ∧ tgt = t ∨
      cmd = .jr c cond anl r ∧ link = [] ∧ tgt = BitVec.ofNat 17 s.cores[c].r.d[r].toNat) →
    ∃ u, exec cmd s = .next u ∧
      (condHolds cond s.cores[c].r.st = true → u.cores[c].slots = 2 ∧ u.cores[c].annul = 0 ∧ u.cores[c].after = .jump tgt ∧
        (link = [r] → u.cores[c].r.d[r] = word (s.cores[c].pc + 3).toNat)) ∧
      (condHolds cond s.cores[c].r.st = false → anl = true → u.cores[c].slots = 2 ∧ u.cores[c].annul = 2 ∧ u.cores[c].after = .none) ∧
      (condHolds cond s.cores[c].r.st = false → anl = false → u.cores[c].slots = 0 ∧ u.cores[c].after = .none) ∧
      (condHolds cond s.cores[c].r.st = false → u.cores[c].r.d[r] = s.cores[c].r.d[r]) ∧
      flagsSame s.cores[c].r.st u.cores[c].r.st ∧ wordFrame s u c link [] .nop) ∧
  (∀ (s : State) (c : CoreId) (t : BitVec 17), coreReady s.cores[c] → s.cores[c].slots = 1 → s.cores[c].after = .jump t →
    ∃ u, exec (.systemNop c) s = .next u ∧ u.cores[c].pc = t ∧ u.cores[c].slots = 0 ∧ u.cores[c].after = .none ∧
      flagsSame s.cores[c].r.st u.cores[c].r.st ∧ wordFrame s u c [] [] .nop) ∧
  (∀ (s : State) (c : CoreId) (d r : DReg) (m : MSlot), takesWords s.cores[c] = true → s.cores[c].annul = s.cores[c].slots →
    0 < s.cores[c].annul → s.cores[c].after = .none → s.cores[c].ldSlot = [] → s.cores[c].inFlight = [] →
    ∃ u, exec (.add c d r m) s = .next u ∧ u.cores[c].r.d = s.cores[c].r.d ∧ flagsSame s.cores[c].r.st u.cores[c].r.st ∧
      u.cores[c].annul = s.cores[c].annul - 1 ∧ wordFrame s u c [] [] .nop)

/-- Repeats (11 R320, R321; 12 R359, R360): RPT opens the next level with its count, start and end, or with a count of 0 skips the body; LBRK pops the innermost level, and has no effect with none. -/
def Obligations.CoreRepeatsOpenAndPop : Prop :=
  ∀ (s : State) (c : CoreId), coreReady s.cores[c] → s.cores[c].slots = 0 → s.cores[c].after = .none → atBodyEnd s.cores[c] = false →
    s.cores[c].loopOld = [] →
    (∀ (d : DReg) (cnt : RptCount) (n : Word) (last : BitVec 17), ((∃ i, cnt = .imm i ∧ n = word i.toNat) ∨ cnt = .reg d ∧ n = s.cores[c].r.d[d]) →
      s.cores[c].pc.toNat < last.toNat → last.toNat ≠ s.cores[c].pc.toNat + 2 →
      (n ≠ 0 → ∀ l : Fin 3, stDepth s.cores[c].r.st = l.val → ∃ u, exec (.rpt c cnt last) s = .next u ∧
        stDepth u.cores[c].r.st = l.val + 1 ∧ u.cores[c].r.lpc[l] = n ∧ u.cores[c].r.lps[l] = s.cores[c].pc + 1 ∧ u.cores[c].r.lpe[l] = last ∧
        (∀ k : Fin 3, k ≠ l → u.cores[c].r.lpc[k] = s.cores[c].r.lpc[k] ∧ u.cores[c].r.lpe[k] = s.cores[c].r.lpe[k]) ∧
        u.cores[c].pc = s.cores[c].pc + 1 ∧ flagsSame s.cores[c].r.st u.cores[c].r.st ∧ wordFrame s u c [] [] .nop) ∧
      (n = 0 → ∃ u, exec (.rpt c cnt last) s = .next u ∧ u.cores[c].pc = last + 1 ∧ stDepth u.cores[c].r.st = stDepth s.cores[c].r.st ∧
        u.cores[c].r.d = s.cores[c].r.d ∧ (∀ k : CoreId, k ≠ c → u.cores[k] = s.cores[k]) ∧
        sameBut [.regs, .held, .cores, .pg, .bv, .pc] s u ∧ regsButEvents [] s u)) ∧
    (∃ u, exec (.lbrk c) s = .next u ∧ stDepth u.cores[c].r.st = stDepth s.cores[c].r.st - 1 ∧ u.cores[c].r.lpc = s.cores[c].r.lpc ∧
      u.cores[c].pc = s.cores[c].pc + 1 ∧ flagsSame s.cores[c].r.st u.cores[c].r.st ∧ wordFrame s u c [] [] .nop)

/-- System words (11 R326, R327; 12 R361): NOP does nothing; WAIT pauses the core where IE = 1; RTE outside the base context, with a frame and no task to chain, ends the run and opens two delay slots, after which the frame on top of the event stack is restored and ESP rises by 12. -/
def Obligations.CoreSystemWordsAndReturn : Prop :=
  (∀ (s : State) (c : CoreId), coreReady s.cores[c] →
    (∃ u, exec (.systemNop c) s = .next u ∧ flagsSame s.cores[c].r.st u.cores[c].r.st ∧ u.cores[c].waiting = false ∧ wordFrame s u c [] [] .nop) ∧
    (∃ u, exec (.wait c) s = .next u ∧ u.cores[c].waiting = bit s.cores[c].r.st 11 ∧ flagsSame s.cores[c].r.st u.cores[c].r.st ∧
      wordFrame s u c [] [] .nop) ∧
    (s.cores[c].slots = 0 → s.cores[c].after = .none → atBodyEnd s.cores[c] = false → s.cores[c].base = false →
      fldOf s (scBase c + 2) 16 0 ≠ 0x10000 → bit s.cores[c].r.st 0 = false → s.pg.ready = [] → (∀ k : CoreId, s.cores[k].stalled = none) →
      ∃ u, exec (.rte c) s = .next u ∧ u.cores[c].slots = 2 ∧ u.cores[c].annul = 0 ∧ u.cores[c].after = .restore ∧
        u.cores[c].nest = s.cores[c].nest.tail ∧ wordFrame s u c [] [] .nop)) ∧
  (∀ (s : State) (c : CoreId), takesWords s.cores[c] = true → s.cores[c].annul = 0 → s.cores[c].slots = 1 → s.cores[c].after = .restore →
    s.cores[c].ldSlot = [] → s.cores[c].inFlight = [] →
    (let w (i : Nat) : Word := xyGet s c.val (0x10000 + (fldOf s (scBase c + 2) 16 0 + i) % 0x10000)
     ∃ u, exec (.systemNop c) s = .next u ∧ u.cores[c].r.st = w 11 ∧ u.cores[c].pc = BitVec.ofNat 17 (w 10).toNat ∧
      (∀ l : Fin 3, u.cores[c].r.lpc[l] = w (1 + 3 * l.val) ∧ u.cores[c].r.lps[l] = BitVec.ofNat 17 (w (2 + 3 * l.val)).toNat ∧
        u.cores[c].r.lpe[l] = BitVec.ofNat 17 (w (3 + 3 * l.val)).toNat) ∧
      u.cores[c].slots = 0 ∧ u.cores[c].base = s.cores[c].nest.isEmpty ∧ u.cores[c].r.d = s.cores[c].r.d ∧
      regGet u (scBase c + 2) = word (fldOf s (scBase c + 2) 16 0 + 12) ∧ (∀ k : CoreId, k ≠ c → u.cores[k] = s.cores[k]) ∧
      sameBut [.regs, .held, .cores, .pg, .bv, .pc] s u ∧ regsButEvents [scBase c + 2] s u))

/-- Task acceptance (11 R324-R326): where the hold-off conditions hold and the event stack has room, a core takes the post presented to it: the post leaves the ready store, the return address is saved twelve words below ESP, and the core goes on at the descriptor's entry with its priority, no repeat level and the task on its nesting. Faults of a core (11 R328, R330, R331): a reserved word or a pairing breach raises fault 04h, recorded in FCODE and FPC, and enters at FVEC with FLT = 1; with FLT = 1 already it halts the core with HALTED and DFLT set. -/
def Obligations.TasksAndCoreFaultsAreEntered : Prop :=
  (∀ (s : State) (c : CoreId) (h i : Nat) (p : Post), presentedTo s c = some i → s.pg.ready[i]? = some p → p.desc < 512 → mayAccept s.cores[c] = true →
    (∀ k : CoreId, s.cores[k].stalled = none) → fldOf s (scBase c + 3) 15 0 + 12 ≤ fldOf s (scBase c + 2) 16 0 →
    fldOf s (scBase c + 2) 16 0 ≤ 0x10000 →
    ∃ u, exec (.taskAcceptance c h) s = .next u ∧ u.cores[c].pc = BitVec.ofNat 17 (descEntry s p.desc) ∧
      stPri u.cores[c].r.st = descPrio s p.desc ∧ stDepth u.cores[c].r.st = 0 ∧ bit u.cores[c].r.st 0 = false ∧
      u.cores[c].base = false ∧ u.cores[c].waiting = false ∧ u.cores[c].nest = ⟨p.desc, p.arg, p.key⟩ :: s.cores[c].nest ∧
      u.cores[c].r.d = s.cores[c].r.d ∧ u.cores[c].r.ac = s.cores[c].r.ac ∧
      flagsSame s.cores[c].r.st u.cores[c].r.st ∧ u.pg.ready = s.pg.ready.eraseIdx i ∧ u.pg.delay = s.pg.delay ∧
      regGet u (scBase c + 2) = word (fldOf s (scBase c + 2) 16 0 - 12) ∧
      xyGet u c.val (0x10000 + fldOf s (scBase c + 2) 16 0 - 12 + 10) = word s.cores[c].pc.toNat ∧
      (∀ k : CoreId, k ≠ c → u.cores[k] = s.cores[k]) ∧ u.mem = { s.mem with xy := u.mem.xy } ∧
      (∀ n, (n < c.val * 131072 + 0x10000 + fldOf s (scBase c + 2) 16 0 - 12 ∨ c.val * 131072 + 0x10000 + fldOf s (scBase c + 2) 16 0 ≤ n) →
        mapGet 0 u.mem.xy n = mapGet 0 s.mem.xy n) ∧
      sameBut [.regs, .held, .mem, .cores, .pg, .bv, .pc] s u ∧
      regsButEvents [scBase c + 2, scBase c + 9, scBase c + 11, descCfg p.desc + 3] s u) ∧
  (∀ (s : State) (c : CoreId) (why : BadWord), why ≠ .ecc → takesWords s.cores[c] = true → s.cores[c].annul = 0 → s.cores[c].inFlight = [] →
    (bit s.cores[c].r.st 0 = false → fldOf s (scBase c + 3) 15 0 + 12 ≤ fldOf s (scBase c + 2) 16 0 →
      ∃ u, exec (.illegalInstruction c why) s = .next u ∧ u.cores[c].pc = BitVec.ofNat 17 (fldOf s (scBase c + 4) 16 0) ∧
        bit u.cores[c].r.st 0 = true ∧ u.cores[c].base = false ∧ u.cores[c].halted = false ∧
        u.cores[c].nest = ⟨0x1FF, 0, none⟩ :: s.cores[c].nest ∧ fld (regGet u (scBase c + 5)) 19 12 = 4 ∧
        regGet u (scBase c + 8) = word s.cores[c].pc.toNat ∧ regGet u (scBase c + 10) = regGet s (scBase c + 10) + 1 ∧
        regGet u (scBase c + 2) = word (fldOf s (scBase c + 2) 16 0 - 12) ∧ (∀ k : CoreId, k ≠ c → u.cores[k] = s.cores[k])) ∧
    (bit s.cores[c].r.st 0 = true →
      ∃ u, exec (.illegalInstruction c why) s = .next u ∧ u.cores[c].halted = true ∧ u.cores[c].dflt = true ∧ u.cores[c].r = s.cores[c].r ∧
        u.cores[c].pc = s.cores[c].pc ∧ fld (regGet u (scBase c + 5)) 19 12 = 4 ∧ u.mem = s.mem ∧ (∀ k : CoreId, k ≠ c → u.cores[k] = s.cores[k])))

/-- MOVE, SPEED and FOLLOW at a boundary (04 R94, R98, R101): an accepted MOVE of a profile at rest starts a plan to its target, an accepted SPEED runs toward its speed, an accepted FOLLOW takes its input as x0 and, with REL, the set-point as offset; a command that the profile may not take sets REFUSED and changes nothing else. -/
def Obligations.MoveSpeedAndFollow : Prop :=
  ∀ (s : State) (o : Fin 288),
    (mayMove s o = true → (profOf s o).st = .idle → (profOf s o).v = 0 → (profOf s o).a = 0 → limitsOk s o = true →
      (256 ≤ o.val → effLevel s < 2 ∧ pairI s (mpBase o + 42) ≤ pairI s (mpBase o + 4) ∧ pairI s (mpBase o + 4) ≤ pairI s (mpBase o + 44)) →
      (∀ a ∈ commandAxes s o 1, mapGet 0 s.mo.treat a = 0) →
      ∃ u, exec (.move o) s = .next u ∧ (profOf u o).st = .moving ∧ (profOf u o).goal = .at_ (pairI s (mpBase o + 4)) ∧
        (profOf u o).p0 = (profOf s o).p ∧ (profOf u o).sp = (profOf s o).sp ∧ (∀ q, q ≠ o.val → profOf u q = profOf s q) ∧
        u.mo = { s.mo with prof := u.mo.prof } ∧ sameBut [.mo] s u) ∧
    (mayMove s o = true → o.val < 256 → (profOf s o).st ∈ [ProfState.idle, .moving, .speed, .following] → limitsOk s o = true →
      mapGet 0 s.mo.treat o = 0 →
      ∃ u, exec (.speed o) s = .next u ∧ (profOf u o).st = .speed ∧ (profOf u o).goal = .cruise ∧
        (profOf u o).vTgt = perV s (sext 32 (u32 s (mpBase o + 6))) ∧ (profOf u o).p0 = (profOf s o).p ∧
        (∀ q, q ≠ o.val → profOf u q = profOf s q) ∧ u.mo = { s.mo with prof := u.mo.prof } ∧ sameBut [.mo] s u) ∧
    (mayMove s o = true → (profOf s o).st ∈ [ProfState.idle, .speed] → fldOf s (mpBase o + 28) 19 18 ∈ [1, 2] → u32 s (mpBase o + 34) ≠ 0 →
      (∀ a ∈ commandAxes s o 3, mapGet 0 s.mo.treat a = 0) →
      ∃ u, exec (.follow o) s = .next u ∧ (profOf u o).st = .following ∧ (profOf u o).x0 = followInput s o ∧
        (bitOf s (mpBase o + 28) 13 = true → pairN u (mpBase o + 32) = wrapN 40 (profOf s o).sp) ∧
        (bitOf s (mpBase o + 28) 13 = false → sameBut [.mo] s u) ∧ (∀ q, q ≠ o.val → profOf u q = profOf s q) ∧
        sameBut [.mo, .regs, .held] s u ∧ regsBut [mpBase o + 32, mpBase o + 33] s u) ∧
    (∀ cmd, (cmd = .move o ∨ cmd = .speed o ∨ cmd = .follow o) →
      (mayMove s o = false ∨ (profOf s o).st ∈ [ProfState.stopping, .held, .waiting]) →
      ∃ u, exec cmd s = .next u ∧ bit (regGet u (mpStat o)) 6 = true ∧ sameBut [.regs, .held] s u ∧ regsBut [mpStat o] s u)

/-- STOP, LANDING and ACK at a boundary (04 R94, R104, R126): a STOP of a moving profile plans to rest along the least severe set from the one asked on that can be planned, one at rest ends idle; a LANDING of a mover at rest moves it to the nearest enabled landing of its group, or sets NO_LANDING; ACK takes held to idle; a STOP while held and an ACK while not held are refused. -/
def Obligations.StopLandingAndAck : Prop :=
  ∀ (s : State) (o : Fin 288),
    (∀ (cmd : Instr) (k : Nat), (cmd = .stopNormal o ∧ k = 1 ∨ cmd = .stopQuick o ∧ k = 2) → hasProfile s o = true →
      (profOf s o).st ∉ [ProfState.stopping, .held] → (rampSet (limitsOf s o) k).2 = true →
      ∃ u, exec cmd s = .next u ∧ ((profOf s o).v ≠ 0 → (profOf u o).st = .stopping ∧ (profOf u o).ramp = (rampSet (limitsOf s o) k).1 ∧
          (profOf u o).goal = .rest) ∧
        ((profOf s o).v = 0 → (profOf s o).a = 0 → (profOf u o).st = .idle ∧ (profOf u o).sp = (profOf s o).sp) ∧
        (∀ q, q ≠ o.val → profOf u q = profOf s q) ∧ stopActs u o = true ∧
        u.mo = { s.mo with prof := u.mo.prof, stopped := u.mo.stopped } ∧ sameBut [.mo] s u) ∧
    (mayMove s o = true → 256 ≤ o.val → (profOf s o).st = .idle → (profOf s o).v = 0 → (profOf s o).a = 0 → limitsOk s o = true →
      (∀ a ∈ commandAxes s o 6, mapGet 0 s.mo.treat a = 0) →
      ∃ u, exec (.landing o) s = .next u ∧
        (landingsOf s o ≠ [] → ∃ P ∈ landingsOf s o, (∀ q ∈ landingsOf s o, |P * 2 ^ 24 - (profOf s o).p| ≤ |q * 2 ^ 24 - (profOf s o).p|) ∧
          (profOf u o).st = .moving ∧ (profOf u o).goal = .at_ P ∧ u.regs = s.regs) ∧
        (landingsOf s o = [] → bit (regGet u 0xF0FA10) 17 = true ∧ (profOf u o).sp = (profOf s o).sp) ∧
        (∀ q, q ≠ o.val → profOf u q = profOf s q) ∧ sameBut [.mo, .regs, .held] s u) ∧
    (hasProfile s o = true → (profOf s o).st = .held →
      (∃ u, exec (.ack o) s = .next u ∧ (profOf u o).st = .idle ∧ (profOf u o).ramp = 0 ∧ (profOf u o).sp = (profOf s o).sp ∧
        (∀ q, q ≠ o.val → profOf u q = profOf s q) ∧ u.mo = { s.mo with prof := u.mo.prof } ∧ sameBut [.mo] s u) ∧
      ∀ cmd, (cmd = .stopNormal o ∨ cmd = .stopQuick o) → ∃ u, exec cmd s = .next u ∧ bit (regGet u (mpStat o)) 6 = true ∧
        sameBut [.regs, .held] s u ∧ regsBut [mpStat o] s u) ∧
    ((profOf s o).st ≠ .held → ∃ u, exec (.ack o) s = .next u ∧ bit (regGet u (mpStat o)) 6 = true ∧
      sameBut [.regs, .held] s u ∧ regsBut [mpStat o] s u)

/-- Standstill (04 R107, R108, R109, R113): an object whose conditions hold enters standstill with STILL set and, with STORE, its store queued, and with the last of its movers a segment axis enters it too; a queued store whose angle has arrived is written to the next slot of the object's ring with its SEQ, position and angle, and one that does not verify sets STORE_ERR; a command whose treatment is not withdrawn in time is dropped with REFUSED and TREAT_FLT. -/
def Obligations.StandstillStoresAndTreatments : Prop :=
  ∀ (s : State) (o : Fin 288),
    (bitOf s (mpBase o) 19 = true → bitOf s (mpStat o) 14 = false → stillNow s o = true → effLevel s ≠ 4 →
      (∀ g : Fin 4, s.gh.grp[g].cond ≠ .ss1) →
      ∃ u, exec (.standstillEntry o) s = .next u ∧ bit (regGet u (mpStat o)) 14 = true ∧
        (∀ a, a < axisCount s → isSegAxis s a = true → (loopOf s a).age ≠ 0 → bitOf s (mpBase a) 19 = true →
          (∀ w ∈ carried s a, bitOf s (mpStat (256 + w.1)) 14 = true ∨ 256 + w.1 = o.val) → bit (regGet u (mpStat a)) 14 = true) ∧
        ((∀ a, a < axisCount s → isSegAxis s a = false) →
          u.mo = { s.mo with stores := if bitOf s (mpBase o) 18 then s.mo.stores ++ [⟨o.val, none⟩] else s.mo.stores } ∧
          sameBut [.regs, .held, .mo] s u ∧ regsBut [mpStat o] s u) ∧
        u.mo = { s.mo with stores := u.mo.stores } ∧ sameBut [.regs, .held, .mo, .mem] s u) ∧
    (∀ (a : Word) (q sl : Nat), s.sys.op ≠ .test → s.mo.stores = [⟨o.val, some a⟩] → o.val < 256 → lookupNat s.mo.ring o = some (q, sl) → sl < 64 →
      q + 1 < 2 ^ 32 →
      (∃ u, exec (.standstillStore o true) s = .next u ∧ u.mo.stores = [] ∧ lookupNat u.mo.ring o = some (q + 1, (sl + 1) % 64) ∧
        mramGet u (ringBase o + 8 * sl) = word ((q + 1) / 2 ^ 20) ∧ mramGet u (ringBase o + 8 * sl + 1) = word (q + 1) ∧
        (mramGet u (ringBase o + 8 * sl + 2)).toNat * 2 ^ 20 + (mramGet u (ringBase o + 8 * sl + 3)).toNat = wrapN 40 (actPos s o) ∧
        mramGet u (ringBase o + 8 * sl + 4) = a ∧ mramGet u (ringBase o + 8 * sl + 6) = 0 ∧
        (∀ n, (n < ringBase o + 8 * sl ∨ ringBase o + 8 * sl + 8 ≤ n) → mramGet u n = mramGet s n) ∧
        sameBut [.regs, .held, .mo, .mem, .pg, .bv, .pc] s u ∧ regsButEvents [] s u) ∧
      (∃ u, exec (.standstillStore o false) s = .next u ∧ u.mo.stores = [] ∧ u.mem = s.mem ∧ bit (regGet u (mpStat o)) 12 = true ∧
        sameBut [.regs, .held, .mo, .pg, .bv, .pc] s u ∧ regsButEvents [mpStat o] s u)) ∧
    ((profOf s o).st = .waiting → ∃ u, exec (.treatmentWithdrawalTimeout o) s = .next u ∧ (profOf u o).st = .idle ∧ (profOf u o).waitCmd = 0 ∧
      bit (regGet u (mpStat o)) 6 = true ∧ bit (regGet u (mpStat o)) 10 = true ∧ (∀ q, q ≠ o.val → profOf u q = profOf s q) ∧
      sameBut [.mo, .regs, .held] s u ∧ regsBut [mpStat o] s u)

/-- Group writes (04 R120, R122): STAGE from idle opens a new epoch and is sent; ABORT before the commit ends the attempt with ABORTED; in cycle s + 2 COMMIT is sent if every member has reported STAGED, else ABORT; a member still not APPLIED in cycle s + 9 makes the group inconsistent, which CLEAR ends. -/
def Obligations.GroupWritesStageCommitAndAbort : Prop :=
  ∀ s : State,
    (gwPhase s = 0 → running s = true → ∃ u, exec .stage s = .next u ∧ gwPhase u = 1 ∧ gwEpoch u = (gwEpoch s + 1) % 2 ^ 16 ∧
      u.mo.gw = { cycle := some 0, sent := 1, staged := [], applied := [], tables := stagedTables s, biquads := stagedBiquads s } ∧ fldOf u 0xF0FA02 6 0 = (gwMembers s).length % 128 ∧
      u.mo.prof = s.mo.prof ∧ sameBut [.mo, .regs, .held] s u ∧ regsBut [0xF0FA01, 0xF0FA02] s u) ∧
    (gwPhase s = 1 → ∃ u, exec .abortBeforeCommit s = .next u ∧ gwPhase u = 0 ∧ u.mo.gw.cycle = none ∧ u.mo.gw.sent = 3 ∧
      bit (regGet u 0xF0FA02) 19 = true ∧ u.mo.prof = s.mo.prof ∧ sameBut [.mo, .regs, .held, .pg, .bv, .pc] s u ∧
      regsButEvents [0xF0FA01, 0xF0FA02] s u) ∧
    (gwPhase s = 1 → s.mo.gw.cycle = some 2 → ∃ u, exec .groupCommitDecision s = .next u ∧
      ((∀ a ∈ gwMembers s, a ∈ s.mo.gw.staged) → gwPhase u = 2 ∧ u.mo.gw = { s.mo.gw with sent := 2 }) ∧
      ((∃ a ∈ gwMembers s, a ∉ s.mo.gw.staged) → gwPhase u = 0 ∧ u.mo.gw.sent = 3 ∧ bit (regGet u 0xF0FA02) 19 = true) ∧
      sameBut [.mo, .regs, .held, .pg, .bv, .pc] s u ∧ regsButEvents [0xF0FA01, 0xF0FA02] s u) ∧
    (gwPhase s = 2 → s.mo.gw.cycle = some 9 → (∃ a ∈ gwMembers s, a ∉ s.mo.gw.applied) →
      ∃ u, exec .groupInconsistent s = .next u ∧ gwPhase u = 3 ∧
        (∀ a ∈ gwMembers s, ∀ x ∈ nodeAxes s a, x < 256 → bit (regGet u (mpStat x)) 3 = true) ∧
        sameBut [.regs, .held, .pg, .bv, .pc] s u) ∧
    (gwPhase s = 3 → ∃ u, exec .clear s = .next u ∧ gwPhase u = 0 ∧ u.mo.gw.cycle = none ∧
      (∀ a ∈ gwMembers s, ∀ x ∈ nodeAxes s a, x < 256 → bit (regGet u (mpStat x)) 3 = false) ∧ sameBut [.mo, .regs, .held] s u)

/-- Batches of the servo engine (05 R127, R129, R130, R147) in a unit of no pair: the next batch starts when its inputs are there or at its latest start, with LATE set and substitutes for what is missing; while one runs none starts; its end hands its set-points to both channels 40 cy later, one that ran on past T0 those it had then; an axis of a group in STO is given EN = 0. Test signals (05 R155-R157): START with a sound configuration runs a generator from sample 0 with its F0, one with PT 00b, LEN 0 or a reserved signal starts nothing; ABORT ends a running one with cause 1, its last sample acting until the next boundary, and is dropped in a standby with reason 04h; a generator ends by itself at LEN samples with cause 0, or where the summing point no longer exists with cause 5. -/
def Obligations.ServoBatchesAndTestSignals : Prop :=
  ((∀ (s : State) (late : Bool) (t : Nat), engineRuns s = true → paired s = false → isStandby s = false →
    (s.sv.batch = none → s.sv.late = none → s.sv.done + 1 ≤ batchCount s → (late = true ∨ batchReady s (s.sv.done + 1) = true) →
      ∃ u, exec (.batchStart late t) s = .next u ∧ u.sv.batch = some (s.sv.done + 1) ∧
        u.sv = { s.sv with batch := u.sv.batch, subst := u.sv.subst } ∧
        (substMask s (s.sv.done + 1) = 0 → u.sv.subst = s.sv.subst ∧ sameBut [.now, .sv] s u) ∧
        (substMask s (s.sv.done + 1) ≠ 0 → late = true → bit (regGet u 0xF100E0) 11 = true ∧
          ∀ a ∈ u.sv.subst, a ∉ s.sv.subst → bit (regGet u (svBase a + 3)) 8 = true) ∧
        sameBut [.now, .sv, .regs, .held] s u) ∧
    (s.sv.batch.isSome = true ∨ s.sv.late.isSome = true → ∃ u, exec (.batchStart late t) s = .next u ∧ sameBut [.now] s u)) ∧
  (∀ (s : State) (sig : SigRec) (qs : List SetpQueue) (t : Nat), s.sv.late = some (sig, qs) →
    ∃ u, exec (.batchEnd false t) s = .next u ∧ u.sv = { s.sv with late := none } ∧ u.mem = s.mem ∧
      u.lk.toSend = s.lk.toSend ++ qs.map fun x => { x with ready := max s.now t + 40 }) ∧
  (∀ (s : State) (b t : Nat), s.sv.late = none → s.sv.batch = some b →
    ∃ u, exec (.batchEnd false t) s = .next u ∧ u.sv.batch = none ∧ u.sv.done = b ∧ u.sv.subst = s.sv.subst ∧ u.mem = s.mem ∧
      (∃ x y : SetpQueue, u.lk.toSend = s.lk.toSend ++ [x, y] ∧ x.ch = 0 ∧ y.ch = 1 ∧
        ∀ q ∈ [x, y], q.batch = b ∧ q.seq = s.lk.q ∧ q.ready = max s.now t + 40 ∧ q.frames.map (·.1) = batchNodes s q.ch b) ∧
      ∀ a ∈ batchAxes s b, svOut s a ≠ 0 → s.gh.grp[axisGroup s a].cond = .sto → (mapGet OutRec.reset u.sv.outs a).en = false)) ∧
  (∀ (s : State) (g : Fin 2),
    ((s.sys.op = .runActive ∨ s.sys.op = .runStandby) → effLevel s = 0 → stopActs s (objOfGen s g) = false → injOk s g = true →
      fldOf s (genAddr g) 10 9 ≠ 0 → fldOf s (genAddr g + 6) 19 0 ≠ 0 → fldOf s (genAddr g) 8 6 < 4 →
      ∃ u, exec (.start g) s = .next u ∧ u.sv.gens[g].running = true ∧ u.sv.gens[g].k = 0 ∧ u.sv.gens[g].phi = 0 ∧ u.sv.gens[g].lfsr = 0x7FFF ∧
        u.sv.gens[g].inc = u32 s (genAddr g + 2) ∧ bit (regGet u (genAddr g + 7)) 17 = true ∧
        (∀ h : Fin 2, h ≠ g → u.sv.gens[h] = s.sv.gens[h]) ∧ u.sv = { s.sv with gens := u.sv.gens } ∧
        sameBut [.sv, .regs, .held] s u ∧ regsBut [genAddr g + 7] s u) ∧
    ((fldOf s (genAddr g) 10 9 = 0 ∨ fldOf s (genAddr g + 6) 19 0 = 0 ∨ 4 ≤ fldOf s (genAddr g) 8 6) → exec (.start g) s = .next s) ∧
    (∀ (cmd : Instr) (r : Nat), s.sv.gens[g].running = true →
      ((∃ who, cmd = .abort who g ∧ standbyDrops who (genAddr g + 7) s = false ∧ r = 1) ∨
        (cmd = .injectionEnd g ∧ injOk s g = false ∧ r = 5) ∨
        (cmd = .injectionEnd g ∧ injOk s g = true ∧ stopActs s (objOfGen s g) = false ∧ s.sys.op = .runActive ∧ effLevel s = 0 ∧
          fldOf s (genAddr g + 6) 19 0 ≤ s.sv.gens[g].k ∧ r = 0)) →
      ∃ u, exec cmd s = .next u ∧ u.sv.gens[g].running = false ∧ u.sv.gens[g].sample = s.sv.gens[g].sample ∧ bit (regGet u (genAddr g + 7)) 17 = false ∧
        bit (regGet u (genAddr g + 7)) 16 = true ∧ fld (regGet u (genAddr g + 7)) 15 13 = r ∧
        (∀ h : Fin 2, h ≠ g → u.sv.gens[h] = s.sv.gens[h]) ∧ u.sv = { s.sv with gens := u.sv.gens } ∧
        ((∀ who, cmd ≠ .abort who g) → sameBut [.sv, .regs, .held, .pg, .bv, .pc] s u) ∧
        sameBut [.sys, .sv, .regs, .held, .pg, .bv, .pc, .pr] s u ∧ regsButEvents [genAddr g + 7] s u) ∧
    (∀ who : Requester, standbyDrops who (genAddr g + 7) s = true →
      ∃ u, exec (.abort who g) s = .next u ∧ regGet u 0xF50001 = regGet s 0xF50001 + 1 ∧ fld (regGet u 0xF50004) 15 8 = 4 ∧
        sameBut [.sys, .regs, .held] s u ∧ regsBut [0xF50001, 0xF50002, 0xF50003, 0xF50004] s u))

/-- Cold start (07 R205, R209, R213-R215): LISTEN with nothing heard becomes COLDSTART, four CSTARTs later LEAD with the next role epoch; a CSTART of a lower rank or a MARK of the partner leads to FOLLOW, and the MARK gives the cycle its number, T0 and length; a CSTART of its own rank with another UID, or the partner's signal, leads to CLASH, which is signalled to the partner and only RETRY leaves. -/
def Obligations.ColdStartFindsTheLeader : Prop :=
  (∀ s : State, s.lk.st = .listen → ∃ u, exec .listenEnd s = .next u ∧ u.lk = { s.lk with st := .coldstart, left := 0 } ∧ sameBut [.lk] s u) ∧
  (∀ s : State, s.lk.st = .coldstart → s.lk.left = 4 → s.sys.op = .join →
    ∃ u, exec .coldstartEnd s = .next u ∧ u.lk.st = .lead ∧ u.lk.running = true ∧ u.sys.op = .runActive ∧ u.pr.active = true ∧
      (s.pr.partnerEpoch = none → u.lk.epoch = (s.sys.per.epoch + 1) % 65536) ∧
      (∀ e, s.pr.partnerEpoch = some e → u.lk.epoch = (newerEpoch s.sys.per.epoch e + 1) % 65536) ∧ u.sys.per.epoch = u.lk.epoch ∧
      (paired s = true → s.pr.silent = false → fldOf u 0xF30002 19 17 = 1) ∧ u.mem = s.mem ∧ u.cores = s.cores) ∧
  (∀ (s : State) (p : Fin 4) (src : LinkAddr) (uid : BitVec 64), linkCounts s = true → portUp s p = true → (s.lk.st = .listen ∨ s.lk.st = .coldstart) →
    ∃ u, exec (.cstartReceived p .ok src uid) s = .next u ∧
      (src.val < ownAddr s → u.lk.st = .follow ∧ (paired s = false → bit (regGet u 0xF54001) 14 = true)) ∧
      (src.val = ownAddr s → uid.toNat ≠ Config.uid → u.lk.st = .clash ∧ bit (regGet u 0xF28009) 16 = true) ∧
      (ownAddr s < src.val → u.lk.st = s.lk.st) ∧ u.lk.q = s.lk.q ∧
      sameBut [.lk, .regs, .held] s u ∧ regsBut [0xF54001, 0xF28009] s u) ∧
  (∀ s : State, s.lk.st ≠ .off → s.lk.st ≠ .clash → ∃ u, exec .clash s = .next u ∧ u.lk = { s.lk with st := .clash, sent := u.lk.sent } ∧
    u.lk.sent = s.lk.sent ++ (if paired s then [pairFrame s .pClash] else []) ∧ bit (regGet u 0xF28009) 16 = true ∧
    sameBut [.lk, .regs, .held] s u ∧ regsBut [0xF28009] s u) ∧
  (∀ (s : State) (who : Requester), s.lk.st = .clash → ∃ u, exec (.retry who) s = .next u ∧ u.lk = { s.lk with st := .listen, left := 4 } ∧
    bit (regGet u 0xF28009) 16 = false ∧ sameBut [.sys, .lk, .regs, .held] s u ∧ regsBut [0xF28009] s u) ∧
  (∀ (s : State) (p : Fin 4) (m : MarkIn) (t : Nat), linkCounts s = true → portUp s p = true → m.src = partnerAddr s →
    serialOlder 16 m.epoch.toNat s.lk.epoch = false →
    (s.lk.st = .listen ∨ s.lk.st = .coldstart ∨
      s.lk.st = .follow ∧ s.lk.marked = false ∧ ∀ q, s.lk.lastMark = some q → m.seq.toNat = (q + 1) % 2 ^ 32) →
    ∃ u, exec (.markReceived p .ok m t) s = .next u ∧ u.lk.st = .follow ∧ u.lk.q = m.seq.toNat ∧ u.lk.lastMark = some m.seq.toNat ∧ u.lk.marked = true ∧ u.lk.running = true ∧
      u.lk.t0 = max s.now t - (m.corr.toNat + m.delay) * 3 / 40 ∧ u.mains.p = m.perInt.toNat * 65536 + m.perFr.toNat ∧
      regGet u 0xF00104 = word m.perInt.toNat ∧ regGet u 0xF00105 = word (m.perFr.toNat * 16) ∧
      sameBut [.now, .lk, .regs, .held, .mains, .time, .pr] s u ∧ regsBut [0xF54001, 0xF00104, 0xF00105] s u)

/-- Uplinks (07 R205, R206, R217, R220): the first valid copy of a node's uplink brings the records of its axes that the channel carries, and its joining; one with another SEQ counts as a sequence error; an empty slot counts, its axes have no fresh record, and the sixteenth in a row ends membership. -/
def Obligations.UplinksAndEmptySlots : Prop :=
  (∀ (s : State) (p : Fin 4) (f : UplIn), (s.lk.st = .lead ∨ s.lk.st = .follow) → linkCounts s = true → portUp s p = true → nodeEn s f.node = true →
    nodeCh s f.node = p.val / 2 → f.recs.length = nodeNax s f.node →
    (f.seq.toNat = s.lk.q → (∀ x, uplOffset s p f = some x → |x| ≤ 8 * (fldOf s 0xF28001 9 0 : Int)) → (nodeOf s f.node).got = false →
      ∃ u, exec (.uplinkFrame p .ok f) s = .next u ∧ (nodeOf u f.node).got = true ∧ (nodeOf u f.node).empties = 0 ∧
        (f.nst.toNat = 1 → (nodeOf u f.node).joined = true) ∧ (f.nst.toNat = 2 → (nodeOf u f.node).joined = false) ∧
        (∀ (i : Nat) (r : UplRec), f.recs[i]? = some r → carriesAxis s (p.val / 2) (nodeFirst s f.node + i) = true →
          axisUpl u (nodeFirst s f.node + i) = { pos := r.pos.toInt, force := r.fact.toInt, astat := r.astat.toNat, fresh := true }) ∧
        (∀ x, (x < nodeFirst s f.node ∨ nodeFirst s f.node + nodeNax s f.node ≤ x ∨ carriesAxis s (p.val / 2) x = false) →
          axisUpl u x = axisUpl s x) ∧
        (∀ n, n ≠ f.node.val → nodeOf u n = nodeOf s n) ∧ u.mem = s.mem ∧ u.cores = s.cores) ∧
    (f.seq.toNat ≠ s.lk.q → ∃ u, exec (.uplinkFrame p .ok f) s = .next u ∧ regGet u (lkNode f.node + 5) = regGet s (lkNode f.node + 5) + 1 ∧
      u.lk.axes = s.lk.axes ∧ u.lk.nodes = s.lk.nodes ∧ sameBut [.lk, .regs, .held, .pg, .bv, .pc] s u ∧ regsButEvents [lkNode f.node + 5] s u)) ∧
  (∀ (s : State) (n : LinkAddr), (s.lk.st = .lead ∨ s.lk.st = .follow) → nodeEn s n = true → (nodeOf s n).got = false →
    ∃ u, exec (.emptySlot n) s = .next u ∧ regGet u (lkNode n + 2) = regGet s (lkNode n + 2) + 1 ∧
      (∀ x ∈ nodeAxes s n, (axisUpl u x).fresh = false) ∧
      ((nodeOf s n).joined = true → (nodeOf s n).empties = 15 → (nodeOf u n).joined = false) ∧
      ((nodeOf s n).empties < 15 → (nodeOf u n).joined = (nodeOf s n).joined ∧ (nodeOf u n).empties = (nodeOf s n).empties + 1) ∧
      u.mem = s.mem ∧ u.cores = s.cores)

/-- Service and set-point frames (07 R192, R195, R200, R218, R222, R223; 08 R238): with nothing to say, the SVD of a leading head names its grant, and its answer to that node's last fragment, on every port of its own, and a follower passes on its partner's; a granted reply fragment in turn is kept and acknowledged, one not accepted is answered NAK and counted; a join request is answered and its delays stored; the set-points of the oldest completed batch go to its joined nodes; a set-point of the partner in its window is kept and recorded as a difference where it is another than the unit's own, and one out of its window or sequence is counted at its port. -/
def Obligations.ServiceAndSetPointFrames : Prop :=
  (∀ (s : State) (c : Fin 2), s.lk.st = .lead → s.lk.svc.answer = [] → s.lk.svc.out = [] →
    ∃ u new, exec (.serviceDownlink c) s = .next u ∧ u.lk.sent = s.lk.sent ++ new ∧ new.map (·.port) = ownPorts s c ∧
      (∀ f ∈ new, f.body = .svd ((grantOf s c).getD (0, 0)).1 ((grantOf s c).getD (0, 0)).2
          (match s.lk.svc.ack.find? fun x => x.1 == ((grantOf s c).getD (0, 0)).1 with
            | some (_, true) => 1
            | some (_, false) => 2
            | none => 0) 0 false 0 [] ∧
        f.dst = (((grantOf s c).map (·.1)).getD 127) ∧ f.src = ownAddr s ∧ f.act = s.pr.active ∧ f.seq = s.lk.q ∧ f.epoch = s.lk.epoch) ∧
      (∀ a k, grantOf s c = some (a, k) → (c.val, a, k) ∈ u.lk.svc.grant) ∧ sameBut [.lk] s u) ∧
  (∀ (s : State) (c : Fin 2), s.lk.st = .follow → paired s = true → portRole s (2 * c.val) = 1 → portRole s (2 * c.val + 1) = 2 →
    ∃ u f, exec (.serviceDownlink c) s = .next u ∧ u.lk.sent = s.lk.sent ++ [f] ∧ f.port = 2 * c.val ∧ f.src = partnerAddr s ∧
      (∃ x, f.body = .forwarded 5 (8 + sMax s) x) ∧ u.lk = { s.lk with sent := u.lk.sent, txEnd := u.lk.txEnd } ∧ sameBut [.lk] s u) ∧
  (∀ (s : State) (p : Fin 4) (f : SvuIn) (accept : Bool), s.lk.st = .lead → linkCounts s = true → portUp s p = true → nodeEn s f.node = true →
    nodeCh s f.node = p.val / 2 → f.seq.toNat = s.lk.q → f.refused = false →
    (∀ id fr d, f.body = .reply id false fr d → (p.val / 2, f.node.val, 1) ∈ s.lk.svc.grant → s.lk.svc.inb = [] →
      ∃ u, exec (.serviceUplink p .ok f accept) s = .next u ∧
        (accept = true → svcRoom s = true → fr = 0 → u.lk.svc.inb = [⟨f.node.val, id.toNat, 1, d⟩] ∧ (f.node.val, true) ∈ u.lk.svc.ack) ∧
        (accept = false ∨ svcRoom s = false → u.lk.svc.inb = [] ∧ (f.node.val, false) ∈ u.lk.svc.ack ∧ regGet u 0xF2800D = regGet s 0xF2800D + 1) ∧
        sameBut [.lk, .regs, .held, .pg, .bv, .pc] s u ∧ regsButEvents [0xF2800D] s u) ∧
    (∀ nax, f.body = .join nax none none → (p.val / 2, f.node.val, 2) ∈ s.lk.svc.grant →
      ∃ u, exec (.serviceUplink p .ok f accept) s = .next u ∧
        (nax = nodeNax s f.node → (f.node.val, 0) ∈ u.lk.svc.answer) ∧
        (nax ≠ nodeNax s f.node → (f.node.val, 1) ∈ u.lk.svc.answer ∧ bit (regGet u 0xF28009) 10 = true) ∧
        regGet u (lkNode f.node + 8) = 0xFFFFF ∧ regGet u (lkNode f.node + 9) = 0xFFFFF ∧ sameBut [.lk, .regs, .held] s u ∧
        regsBut [lkNode f.node + 8, lkNode f.node + 9, 0xF28009] s u)) ∧
  (∀ (s : State) (c : Fin 2) (x : SetpQueue), s.lk.toSend.find? (fun y => y.ch == c.val) = some x → s.lk.st = .lead → s.pr.silent = false →
    s.pr.active = true → (x.frames.map (·.1)).Nodup →
    ∃ u new, exec (.setPointFrame c) s = .next u ∧ u.lk.toSend = s.lk.toSend.erase x ∧ u.lk.sent = s.lk.sent ++ new ∧
      (new.map fun f => (f.dst, f.port, f.body)) = (x.frames.filter fun f => (nodeOf s f.1).joined || (nodeOf s f.1).leaving).flatMap (fun f =>
        (ownPorts s c).map fun p => (f.1, p, FrameBody.setp x.gcmd x.gepoch (nodeOf s f.1).tcorr f.2)) ∧
      (∀ f ∈ new, f.seq = x.seq ∧ f.src = ownAddr s ∧ f.act = true ∧ f.epoch = s.lk.epoch) ∧
      u.pr = { s.pr with osigDiff := u.pr.osigDiff } ∧ sameBut [.lk, .pr, .regs, .held, .pg, .bv, .pc] s u ∧ regsButEvents [] s u) ∧
  (∀ (s : State) (p : Fin 4) (n : LinkAddr) (seq : BitVec 32) (e : BitVec 16) (recs : List SetpRec) (t : Nat), s.lk.st ≠ .off → paired s = true →
    linkCounts s = true → portUp s p = true → e.toNat = s.lk.epoch →
    (setpWindow (advance t s) (p.val / 2) = some seq.toNat →
      ∃ u, exec (.partnerSetpHeard p .ok n seq e ⟨recs, t⟩) s = .next u ∧ u.pr.heardLink = true ∧
        u.lk = { s.lk with setpHeard := s.lk.setpHeard ++ [⟨n, seq.toNat, recs⟩] } ∧
        ((∀ y ∈ s.lk.setpOwn, y.node = n.val → y.seq ≠ seq.toNat) → u.pr.osigDiff = s.pr.osigDiff) ∧
        (∀ own : SetpKept, s.lk.setpOwn.find? (fun y => y.node == n.val && y.seq == seq.toNat) = some own →
          (recs = own.recs → u.pr.osigDiff = s.pr.osigDiff) ∧
          ∀ (i x : Nat) (r q : SetpRec), (nodeAxes s n)[i]? = some x → own.recs[i]? = some r → recs[i]? = some q → r ≠ q →
            batchOf s x ∉ s.pr.unaligned → (batchOf s x, seq.toNat) ∉ s.pr.compared → (seq.toNat, batchOf s x, x) ∈ u.pr.osigDiff) ∧
        u.pr = { s.pr with heardLink := true, osigDiff := u.pr.osigDiff } ∧ sameBut [.now, .pr, .lk] s u) ∧
    (setpWindow (advance t s) (p.val / 2) ≠ some seq.toNat →
      ∃ u, exec (.partnerSetpHeard p .ok n seq e ⟨recs, t⟩) s = .next u ∧ regGet u (0xF28018 + p.val) = regGet s (0xF28018 + p.val) + 1 ∧
        u.pr = s.pr ∧ u.lk = s.lk ∧ sameBut [.now, .regs, .held, .pg, .bv, .pc] s u ∧ regsButEvents [0xF28018 + p.val] s u))

/-- Ports and system time (07 R185, R212; 08 R229): a port loses and gains sync, and a frame broken by it counts; with PPS_EN in the leading head the first rising edge steps system time to the nearest second, a later one slews, and four within 40 ns set LOCKED; no edge for 2 s sets HOLDOVER and clears LOCKED. -/
def Obligations.PortsAndSystemTime : Prop :=
  (∀ (s : State) (p : PortId) (b : Bool),
    ∃ u, exec (.linkPortSyncLost p b) s = .next u ∧
      (∀ q : Fin 4, q.val = p.val → portUp u q = false ∧ bit (regGet u (0xF28014 + p.val)) 19 = false ∧
        (b = true → regGet u (0xF2801C + p.val) = regGet s (0xF2801C + p.val) + 1) ∧ (b = false → regsBut [0xF28014 + p.val] s u) ∧
        regsButEvents [0xF28014 + p.val, 0xF2801C + p.val] s u) ∧
      (p.val = 4 → u.pr.laneUp = false ∧ bit (regGet u 0xF30002) 16 = false ∧
        (b = true → regGet u 0xF30011 = regGet s 0xF30011 + 1) ∧ regsBut [0xF30002, 0xF30011] s u) ∧
      (∀ q : Fin 4, q.val ≠ p.val → portUp u q = portUp s q) ∧ sameBut [.lk, .pr, .regs, .held, .pg, .bv, .pc] s u) ∧
  (∀ (s : State) (p : PortId),
    ∃ u, exec (.portSyncAcquired p) s = .next u ∧
      (∀ q : Fin 4, q.val = p.val → portUp u q = true ∧ bit (regGet u (0xF28014 + p.val)) 19 = true ∧ regsBut [0xF28014 + p.val] s u) ∧
      (p.val = 4 → u.pr.laneUp = true ∧ bit (regGet u 0xF30002) 16 = true ∧ regsBut [0xF30002] s u) ∧
      (∀ q : Fin 4, q.val ≠ p.val → portUp u q = portUp s q) ∧ sameBut [.lk, .pr, .regs, .held] s u) ∧
  (∀ (s : State) (t : Nat), bitOf s 0xF28024 19 = true → s.lk.st = .lead → s.now ≤ t →
    ∃ u, exec (.timePpsEdge ⟨true, t⟩) s = .next u ∧ u.now = t ∧ u.time.tEdge = some t ∧ bit (regGet u 0xF28025) 18 = false ∧
      (s.time.stepped = false → u.time.stepped = true ∧ u.time.slew = 0 ∧
        u.time.offset = s.time.offset - slewDone s t - ppsError (sysTimeAt s t)) ∧
      (s.time.stepped = true → u.time.slew = max (-20000) (min 20000 (ppsError (sysTimeAt s t))) ∧
        (|ppsError (sysTimeAt s t)| ≤ 40 → 3 ≤ s.time.good → bitOf u 0xF28025 19 = true) ∧
        (100 < |ppsError (sysTimeAt s t)| → bitOf u 0xF28025 19 = false)) ∧
      sameBut [.now, .time, .regs, .held, .pg, .bv, .pc] s u ∧ regsButEvents [0xF28025] s u) ∧
  (∀ (s : State) (t : Nat), ∃ u, exec (.timePpsEdge ⟨false, t⟩) s = .next u ∧ u.now = max s.now t ∧ sameBut [.now, .bv] s u) ∧
  (∀ s : State, bitOf s 0xF28024 19 = true → s.lk.st = .lead →
    ∃ u, exec .ppsHoldover s = .next u ∧ bit (regGet u 0xF28025) 18 = true ∧ bitOf u 0xF28025 19 = false ∧ u.time.good = 0 ∧
      sameBut [.time, .regs, .held, .pg, .bv, .pc] s u ∧ regsButEvents [0xF28025] s u)

/-- Frames of the pair lane (08 R229-R231, R234, R235, R237-R239, R241, R242, R245): a frame that fails its checks, or carries an older epoch, only counts; one that passes marks the partner heard and clears lost. A STATE brings the partner's role, epoch and configuration signature, tells a difference of configuration, and makes a follower in JOIN a standby with no batch aligned; a standby keeps the INC, IN, BND and ADOPT of the active; a SIG with the same outputs is compared without effect, one with other outputs and the same inputs is a computation fault, and with other inputs unaligns the batch; DRES and FAIL are taken down. -/
def Obligations.PairLaneFramesAreTaken : Prop :=
  ∀ (s : State) (e : BitVec 16), linkCounts s = true → paired s = true →
    (∀ cmd : RxCheck → Instr, ((∃ x, cmd = fun k => .stateReceived k e x) ∨ (∃ x y z, cmd = fun k => .incReceived k e x y z) ∨
        (∃ x y z, cmd = fun k => .inReceived k e x y z) ∨ (∃ x y z, cmd = fun k => .sigReceived k e x y z) ∨ (∃ x, cmd = fun k => .dresReceived k e x) ∨
        (∃ x, cmd = fun k => .bndReceived k e x) ∨ (∃ x, cmd = fun k => .adoptReceived k e x) ∨ (∃ x, cmd = fun k => .failReceived k e x) ∨
        (∃ x, cmd = fun k => .xreqReceived k e x) ∨ ∃ x y, cmd = fun k => .xackReceived k e x y) →
      (∀ k, (s.pr.laneUp = false ∨ k = RxCheck.code) →
        ∃ u, exec (cmd k) s = .next u ∧ regGet u 0xF30011 = regGet s 0xF30011 + 1 ∧ sameBut [.regs, .held] s u ∧ regsBut [0xF30011] s u) ∧
      (s.pr.laneUp = true → ∀ k ∈ [RxCheck.crc, .format, .address], ∃ u, exec (cmd k) s = .next u ∧ regGet u 0xF30010 = regGet s 0xF30010 + 1 ∧
        sameBut [.regs, .held] s u ∧ regsBut [0xF30010] s u) ∧
      (s.lk.st ≠ .off → s.pr.laneUp = true → serialOlder 16 e.toNat s.lk.epoch = true → ∃ u, exec (cmd .ok) s = .next u ∧ regGet u 0xF3000B = regGet s 0xF3000B + 1 ∧
        sameBut [.regs, .held] s u ∧ regsBut [0xF3000B] s u)) ∧
    (s.lk.st ≠ .off → s.pr.laneUp = true → e.toNat = s.lk.epoch →
      (∀ x : StateIn, ∃ u, exec (.stateReceived .ok e x) s = .next u ∧ u.pr.partnerRole = x.role.toNat ∧
        u.pr.partnerEpoch = (if s.lk.st = .listen ∨ s.lk.st = .coldstart then some x.stored.toNat else s.pr.partnerEpoch) ∧
        u.pr.partnerCfgSig = some x.cfgsig.toNat ∧ u.pr.jRecv = x.j.toNat ∧ u.pr.heardLane = true ∧ bit (regGet u 0xF30002) 13 = false ∧
        bit (regGet u 0xF30002) 10 = decide (x.cfgsig.toNat ≠ s.ks.cfgSig) ∧
        (s.sys.op = .join → s.lk.st = .follow → x.role = 1 → x.cfgsig.toNat = s.ks.cfgSig → x.unitB ≠ lkUnitB s → bitOf s 0xF28009 16 = false →
          u.sys.op = .runStandby ∧ u.pr.active = false ∧ u.pr.unaligned = allBatches u) ∧
        (s.sys.op ≠ .join → s.pr.active = true → x.role = 2 → (s.pr.partnerRole ≠ 2 ∧ s.pr.partnerRole ≠ 3 ∨ x.status.getLsbD 5 = true) →
          u.pr.unaligned = allBatches u ∧ u.pr.adoptStep = 1) ∧
        (s.sys.op ≠ .join → (x.act = true → s.pr.active = false → u.mains.j = x.j.toNat) ∧
          sameBut [.pr, .regs, .held, .mains, .pg, .bv, .pc] s u ∧ regsButEvents [0xF30002] s u)) ∧
      (isStandby s = true →
        (∀ fb sdm km, ∃ u, exec (.incReceived .ok e fb sdm km) s = .next u ∧
          u.pr = { s.pr with heardLane := true, lost := false, inc := some (fb, sdm, km) } ∧ u.mem = s.mem ∧ u.cores = s.cores ∧ u.lk = s.lk) ∧
        (∀ (b : Nat) (m : BitVec 8) (recs : List UplRec), (∀ y ∈ s.pr.ins, y.1 ≠ b) → ∃ u, exec (.inReceived .ok e b m recs) s = .next u ∧
          u.pr = { s.pr with heardLane := true, lost := false, ins := s.pr.ins ++ [(b, m.toNat, recs)] } ∧
          sameBut [.pr, .regs, .held] s u ∧ regsBut [0xF30002] s u) ∧
        (∀ l, ∃ u, exec (.bndReceived .ok e l) s = .next u ∧ u.pr = { s.pr with heardLane := true, lost := false, bndIn := s.pr.bndIn ++ l } ∧
          sameBut [.pr, .regs, .held] s u ∧ regsBut [0xF30002] s u) ∧
        (∀ a, ∃ u, exec (.adoptReceived .ok e a) s = .next u ∧ u.pr = { s.pr with heardLane := true, lost := false, adopt := s.pr.adopt ++ [a] } ∧
          sameBut [.pr, .regs, .held] s u ∧ regsBut [0xF30002] s u)) ∧
      (∀ (b : Nat) (seq : BitVec 32) (own : Bool) (isig : BitVec 32) (osig : List (BitVec 16)) (o : SigRec), b ∉ s.pr.unaligned →
        (b, seq.toNat) ∉ s.pr.compared → s.pr.sigOwn.find? (fun x => x.batch == b && x.seq == seq.toNat) = some o →
        (∀ x ∈ s.pr.sigPartner, x.batch = b → x.seq ≠ seq.toNat) →
        ∃ u, exec (.sigReceived .ok e ⟨seq, b, own⟩ isig osig) s = .next u ∧ (b, seq.toNat) ∈ u.pr.compared ∧
          (o.osig = osig.map (·.toNat) → (∀ x ∈ s.pr.osigDiff, x.1 = seq.toNat → x.2.1 ≠ b) → regGet u 0xF3000A = regGet s 0xF3000A ∧
            u.pr.diagNext = s.pr.diagNext ∧ u.pr.unaligned = s.pr.unaligned) ∧
          (∀ a, (∃ v w, (a, v, w) ∈ (batchAxes s b).zip (o.osig.zip (osig.map (·.toNat))) ∧ v ≠ w) ∨ (seq.toNat, b, a) ∈ s.pr.osigDiff →
            (o.isig = isig.toNat → regGet u 0xF3000A = regGet s 0xF3000A + 1 ∧ a ∈ u.pr.diagNext ∧ u.pr.diagQ = seq.toNat ∧
              u.pr.lastComp = some seq.toNat ∧ u.pr.unaligned = s.pr.unaligned) ∧
            (o.isig ≠ isig.toNat → regGet u 0xF3000A = regGet s 0xF3000A ∧ u.pr.diagNext = s.pr.diagNext ∧ b ∈ u.pr.unaligned)) ∧
          sameBut [.pr, .regs, .held, .pg, .bv, .pc] s u ∧ regsButEvents [0xF30002, 0xF30004, 0xF30005, 0xF3000A] s u) ∧
      (∀ pass : Bool, s.pr.diag = true → ∃ u, exec (.dresReceived .ok e pass) s = .next u ∧ u.pr.partRes = (if pass then 1 else 2) ∧
        fld (regGet u 0xF30003) 17 16 = (if pass then 1 else 2) ∧ sameBut [.pr, .regs, .held] s u ∧ regsBut [0xF30002, 0xF30003] s u) ∧
      (∀ c : BitVec 8, ∃ u, exec (.failReceived .ok e c) s = .next u ∧ u.pr.partnerRole = 4 ∧ u.pr.failCause = c.toNat ∧
        u.pr.failHeard = (s.pr.failHeard || isStandby s) ∧ sameBut [.pr, .regs, .held] s u ∧ regsBut [0xF30002] s u))

/-- Takeover and diagnosis (08 R231, R234, R239, R240, R242-R245): at the cut-off the active sends its record, and a unit in self-diagnosis its result; a lost pair is shown, and unaligns the active, and a standby that heard it on the link; one empty cycle makes the standby bridge, two or a FAIL make it active with the next epoch if it is aligned in every batch, else it enters SAFE; a diagnosis ends with the failing unit silent in SAFE, a standby in its place, or DEGRADED. -/
def Obligations.TakeoverAndDiagnosis : Prop :=
  ∀ s : State,
    (onLane s = true → s.pr.active = true → s.pr.diag = false →
      ∃ u, exec (.bndCutOff false) s = .next u ∧ u.lk.sent = s.lk.sent ++ [pairFrame s (.pBnd ((bndWaiting s).take 170))] ∧
        u.pr = { s.pr with bndClosed := (bndWaiting s).take 170, bndOut := u.pr.bndOut } ∧ ((bndWaiting s).length ≤ 170 → u.pr.bndOut = []) ∧
        sameBut [.pr, .lk] s u) ∧
    (onLane s = true → s.pr.active = false → s.pr.diag = true → ∃ u, exec (.bndCutOff true) s = .next u ∧ u.pr.ownRes = 2 ∧
      fld (regGet u 0xF30003) 19 18 = 2 ∧ u.lk.sent = s.lk.sent ++ [pairFrame s (.pDres false)] ∧ sameBut [.pr, .lk, .regs, .held] s u ∧ regsBut [0xF30003] s u) ∧
    (paired s = true → s.pr.lost = false → laneGone s = true → ∃ u, exec .pairLost s = .next u ∧ u.pr.lost = true ∧
      bit (regGet u 0xF30002) 13 = true ∧ (s.pr.active = true → u.pr.unaligned = allBatches s) ∧
      (isStandby s = true → s.pr.heardLink = true → u.pr.unaligned = allBatches s) ∧
      (s.pr.active = false → s.pr.heardLink = false → s.pr.laneMiss < 2 → u.pr.unaligned = s.pr.unaligned) ∧
      sameBut [.pr, .regs, .held, .pg, .bv, .pc] s u ∧ regsButEvents [0xF30002] s u) ∧
    (s.sys.op = .runStandby →
      (emptyNow s = 1 → ∃ u, exec .bridging s = .next u ∧ u.pr = { s.pr with bridging := true } ∧
        (∀ n, n < 8 → u.gh.brk.getLsbD n = brkOut u n) ∧ sameBut [.pr, .gh, .bv, .regs, .held] s u ∧ regsButEvents [] s u) ∧
      (2 ≤ emptyNow s ∨ s.pr.failHeard = true →
        (s.pr.unaligned = [] → ∃ u, exec .takeover s = .next u ∧ u.sys.op = .runActive ∧ u.pr.active = true ∧ u.lk.st = .lead ∧
          u.lk.epoch = (s.lk.epoch + 1) % 65536 ∧ u.sys.per.epoch = u.lk.epoch ∧ u.sys.per.xage = 0 ∧ u.gh.pw.auth = [] ∧
          regGet u 0xF3000E = regGet s 0xF3000E + 1 ∧ (∀ n, n < 8 → u.gh.brk.getLsbD n = brkOut u n) ∧ u.mem = s.mem ∧ u.cores = s.cores ∧ u.mo = s.mo ∧
          u.mains = { s.mains with mlOn := true }) ∧
        (s.pr.unaligned ≠ [] → ∃ u, exec .takeover s = .next u ∧ u.sys.op = .safe ∧ u.pr = s.pr ∧ u.lk = s.lk ∧
          (∀ g : Fin 4, u.gh.grp[g].cond = .sto) ∧ u.mem = s.mem ∧ u.cores = s.cores))) ∧
    (s.pr.diag = true →
      (s.pr.ownRes = 2 → s.sys.op ≠ .recovery → onLane s = true → ∃ u, exec .diagnosisOutcome s = .next u ∧ u.sys.op = .safe ∧ u.pr.silent = true ∧ u.pr.active = false ∧ u.pr.diag = false ∧
        u.lk = { s.lk with st := .off, sent := s.lk.sent ++ [pairFrame s (.pFail 0x11)] } ∧ u.mem = s.mem ∧ u.cores = s.cores) ∧
      (s.pr.ownRes ≠ 2 → s.pr.partRes = 2 → isStandby s = false → ∃ u, exec .diagnosisOutcome s = .next u ∧
        u.pr = { s.pr with diag := false, diagLanes := [] } ∧ sameBut [.pr, .regs, .held] s u ∧ regsBut [0xF30002] s u) ∧
      (s.pr.ownRes ≠ 2 → s.pr.partRes = 2 → s.sys.op = .runStandby → s.pr.unaligned = [] → ∃ u, exec .diagnosisOutcome s = .next u ∧
        u.sys.op = .runActive ∧ u.pr.active = true ∧ u.pr.diag = false ∧ u.lk.st = .lead ∧ u.lk.epoch = (s.lk.epoch + 1) % 65536) ∧
      (s.pr.ownRes ≠ 2 → s.pr.partRes ≠ 2 → (s.sys.op = .runActive ∨ s.sys.op = .runStandby) → ∃ u, exec .diagnosisOutcome s = .next u ∧
        u.sys.op = .degraded ∧ u.pr.diag = false ∧ (s.pr.partRes = 1 → u.pr.deg = true ∧ bit (regGet u 0xF30002) 11 = true ∧
          ∀ a ∈ s.pr.diagLanes, batchOf s a ∈ u.pr.unaligned) ∧ (s.pr.partRes = 0 → fld (regGet u 0xF30003) 17 16 = 3)))

/-- The commanded exchange (08 R248, R251): a standby that meets the conditions answers an XREQ with XACK and keeps cycle x, any other answers with a refusal; the active with an XACK proceeds or is refused, and is refused without one by the end of cycle c + 2; at T0(x) the old active becomes standby with its outputs still driven and the standby active, both with the next epoch; at T0(x + 2) the overlap is over. -/
def Obligations.ExchangeIsAgreedAndCarriedOut : Prop :=
  ∀ s : State,
    (∀ (e : BitVec 16) (x : BitVec 32), onLane s = true → linkCounts s = true → s.pr.laneUp = true → e.toNat = s.lk.epoch → s.sys.op = .runStandby →
      ∃ u, exec (.xreqReceived .ok e x) s = .next u ∧
        (s.pr.unaligned = [] → s.pr.deg = false → s.pr.diag = false → gwPhase s = 0 → s.pr.lastComp = none →
          u.lk.sent = s.lk.sent ++ [pairFrame s (.pXack x.toNat 0)] ∧ u.pr.exch = some ⟨s.lk.q, x.toNat, true, false⟩) ∧
        (s.pr.unaligned ≠ [] ∨ s.pr.deg = true ∨ s.pr.diag = true ∨ gwPhase s ≠ 0 →
          u.lk.sent = s.lk.sent ++ [pairFrame s (.pXack x.toNat 1)] ∧ u.pr.exch = s.pr.exch) ∧
        sameBut [.pr, .lk, .regs, .held] s u ∧ regsBut [0xF30002] s u) ∧
    (∀ (e : BitVec 16) (y : Exch) (x : BitVec 32) (r : BitVec 8), s.lk.st ≠ .off → paired s = true → linkCounts s = true → s.pr.laneUp = true → e.toNat = s.lk.epoch →
      s.pr.active = true → s.pr.exch = some y → y.x = x.toNat → y.overlap = false →
      ∃ u, exec (.xackReceived .ok e x r) s = .next u ∧ (r = 0 → u.pr.exch = some { y with acked := true }) ∧
        (r ≠ 0 → u.pr.exch = none ∧ bit (regGet u 0xF30002) 7 = true) ∧ sameBut [.pr, .regs, .held] s u ∧ regsBut [0xF30002] s u) ∧
    (∀ y : Exch, s.pr.exch = some y →
      (s.pr.active = true → y.acked = false → 2 ≤ (s.lk.q + 2 ^ 32 - y.c) % 2 ^ 32 → ∃ u, exec .xackTimeout s = .next u ∧
        u.pr = { s.pr with exch := none } ∧ bit (regGet u 0xF30002) 7 = true ∧ sameBut [.pr, .regs, .held] s u ∧ regsBut [0xF30002] s u) ∧
      (y.acked = true → y.overlap = false → (s.lk.q + 1) % 2 ^ 32 = y.x →
        (s.sys.op = .runActive → s.pr.active = true → ∃ u, exec .exchange s = .next u ∧ u.sys.op = .runStandby ∧ u.pr.active = false ∧
          u.pr.bridging = true ∧ u.lk.st = .follow ∧ u.lk.epoch = (s.lk.epoch + 1) % 65536 ∧ u.pr.exch = some { y with overlap := true } ∧
          regGet u 0xF3000D = regGet s 0xF3000D + 1 ∧ u.gh.brk = s.gh.brk ∧ (∀ g : Fin 4, u.gh.grp[g].pulse = 0) ∧
          u.mem = s.mem ∧ u.cores = s.cores ∧ u.mo = { s.mo with blendPend := u.mo.blendPend }) ∧
        (s.sys.op = .runStandby → s.pr.active = false → ∃ u, exec .exchange s = .next u ∧ u.sys.op = .runActive ∧ u.pr.active = true ∧
          u.lk.st = .lead ∧ u.lk.epoch = (s.lk.epoch + 1) % 65536 ∧ u.pr.exch = some { y with overlap := true } ∧
          regGet u 0xF3000D = regGet s 0xF3000D + 1 ∧ (∀ n, n < 8 → u.gh.brk.getLsbD n = brkOut u n) ∧ u.mem = s.mem ∧ u.cores = s.cores ∧ u.mo = s.mo)) ∧
      (y.overlap = true → (s.lk.q + 1) % 2 ^ 32 = (y.x + 2) % 2 ^ 32 → ∃ u, exec .exchangeOverlapEnd s = .next u ∧
        u.pr = { s.pr with exch := none, bridging := false } ∧ (∀ n, n < 8 → u.gh.brk.getLsbD n = brkOut u n) ∧
        sameBut [.pr, .gh, .bv, .regs, .held] s u ∧ regsButEvents [] s u))

/-- Resets (10 R303; 19 R468, R469, R494): each reset puts everything on chip at its reset value, names itself in NV_RSTSRC with the source before it and counts in its own total; the queue of commands, the levels at the inputs, the persistent block and, with no archive under way, MRAM are kept. PORST_N, a failed rail and the end of the flush lead to POWER-UP, SWRST to BOOT, RST_N to BOOT held until its release; RST_N is ignored in POWER-UP and during the flush, SWRST in RUN is dropped. POWER_UP_END begins BOOT. Every on-chip memory is cleared to zero (19 R468). -/
def Obligations.ResetsClearThePart : Prop :=
  ∀ (s : State) (cmd : Instr) (code : Nat) (op : OpState) (step : Nat) (held : Bool),
    (cmd = .porstNLow ∧ code = 1 ∧ op = .powerUp ∧ step = 0 ∧ held = false ∨
      cmd = .railPowerOnReset ∧ code = 2 ∧ op = .powerUp ∧ step = 0 ∧ held = false ∨
      cmd = .internalResetRelease ∧ s.ph.l5 = true ∧ s.ph.flushed = true ∧ code = 3 ∧ op = .powerUp ∧ step = 0 ∧ held = false ∨
      cmd = .rstNReset ∧ s.sys.op ≠ .powerUp ∧ s.ph.l5 = false ∧ code = 4 ∧ op = .boot ∧ step = 0 ∧ held = true ∨
      (∃ who, cmd = .swrst who) ∧ s.ph.l5 = false ∧ s.sys.rstHeld = false ∧ s.sys.op ∈ [OpState.config, .join, .safe, .recovery] ∧ code = 5 ∧
        op = .boot ∧ step = 1 ∧ held = false) →
    (∃ u, exec cmd s = .next u ∧ u.sys.op = op ∧ u.sys.step = step ∧ u.sys.rstHeld = held ∧ u.sys.resetRec = some code ∧
      regGet u 0xF54004 = word (code * 2 ^ 16 + fld (regGet s 0xF54004) 19 16 * 2 ^ 12) ∧ u.pending = s.pending ∧ u.freeCtr = s.freeCtr ∧
      u.mem = { State.reset.mem with mram := u.mem.mram } ∧ (s.bv.arch = none → u.mem.mram = s.mem.mram) ∧
      u.sys.per = { s.sys.per with resets := u.sys.per.resets } ∧
      (s.sys.per.resets.length = 5 → u.sys.per.resets.getD (code - 1) 0 = s.sys.per.resets.getD (code - 1) 0 + 1 ∧
        ∀ i, i ≠ code - 1 → u.sys.per.resets[i]? = s.sys.per.resets[i]?) ∧
      regsBut [0xF54004] State.reset u ∧ u.gh = { State.reset.gh with brkFb := s.gh.brkFb } ∧ u.sys.tap = tapAfter s.sys.tap ∧
      (∀ n : Fin 16, u.fb[n] = { FbChan.reset with a := s.fb[n].a, b := s.fb[n].b, z := s.fb[n].z, sa := s.fb[n].sa, sb := s.fb[n].sb, sz := s.fb[n].sz }) ∧
      sameBut [.pending, .freeCtr, .sys, .regs, .held, .mem, .gh, .fb] State.reset u) ∧
    (s.sys.op = .powerUp ∨ s.ph.l5 = true → exec .rstNReset s = .next s) ∧
    (s.sys.rstHeld = true → ∃ u, exec .rstNRelease s = .next u ∧ u.sys = { s.sys with rstHeld := false, step := 1 } ∧ sameBut [.sys] s u) ∧
    (∀ t : Bool, s.sys.op = .powerUp → s.ph.l5 = false → ∃ u, exec (.powerUpEnd t) s = .next u ∧
      u.sys = { s.sys with op := .boot, step := 1, testEn := t } ∧ sameBut [.sys] s u) ∧
    (∀ who, s.ph.l5 = false → s.sys.rstHeld = false → s.sys.op = .runActive → effLevel s ≠ 4 → ∃ u, exec (.swrst who) s = .next u ∧
      regGet u 0xF50001 = regGet s 0xF50001 + 1 ∧ fld (regGet u 0xF50004) 15 8 = 6 ∧ sameBut [.sys, .regs, .held] s u ∧
      regsBut [0xF50001, 0xF50002, 0xF50003, 0xF50004] s u) ∧
    (s.ph.l5 = true → s.ph.flushed = false → ∃ u, exec .flushComplete s = .next u ∧ u.sys.op = .powerUp ∧ u.ph.l5 = true ∧ u.ph.flushed = true ∧
      u.ph.holdDis = s.ph.holdDis ∧ u.pending = s.pending ∧ u.sys.per.retSeq ≠ s.sys.per.retSeq ∧ regsBut [0xF54004] State.reset u ∧
      u.cores = State.reset.cores)

/-- The steps of BOOT (19 R471-R474): step 1 ends; step 2 loads NV_MODE and NV_BOOT from the boot record or sets BREC_DEF; step 3 puts each damaged item of the persistent block at its delivery value; step 4 waits where BWAIT asks for it; step 5 loads every core's segment of an image that checks, and else enters boot hold; step 8 ends in TEST, or in CONFIG with each core that has a program started in its base context and any other halted. Boot hold takes the program and MRAM by the host port. -/
def Obligations.BootStepsAndBootHold : Prop :=
  ∀ s : State, s.sys.op = .boot → s.sys.rstHeld = false →
    (s.sys.bootHold = false →
      (s.sys.bwait = false → ∀ d : BitVec 5,
        (s.sys.step = 1 → ∃ u, exec (.bootStepComplete d) s = .next u ∧ u.sys = { s.sys with step := 2 } ∧ sameBut [.sys, .mains] s u) ∧
        (s.sys.step = 2 → ∃ u, exec (.bootStepComplete d) s = .next u ∧ u.sys = { s.sys with step := 3 } ∧
          (∀ k q w, bootRecord s = some (k, q, w) → fld (regGet u 0xF54002) 19 18 = fld w 19 18 ∧ fld (regGet u 0xF54003) 17 1 = fld w 17 1) ∧
          (bootRecord s = none → bit (regGet u 0xF54001) 15 = true) ∧ sameBut [.sys, .regs, .held] s u ∧ regsBut [0xF54001, 0xF54002, 0xF54003] s u) ∧
        (s.sys.step = 3 → ∃ u, exec (.bootStepComplete d) s = .next u ∧ u.sys.step = (if fldOf s 0xF54003 8 1 = 0 then 5 else 4) ∧
          u.sys.bwait = decide (fldOf s 0xF54003 8 1 ≠ 0) ∧ u.lk.epoch = (if d.getLsbD 0 then 0 else s.sys.per.epoch) ∧
          regGet u 0xF30006 = word (if d.getLsbD 1 then 0 else s.sys.per.xage) ∧ regGet u 0xF38034 = word (if d.getLsbD 3 then 0 else s.sys.per.l5cnt) ∧
          u.gh.pw.digest = (if d.getLsbD 4 then 0 else s.sys.per.digest) ∧ (d ≠ 0 → bit (regGet u 0xF54001) 12 = true) ∧ u.mem = s.mem) ∧
        (s.sys.step = 5 →
          (imageOk s = true → ∃ u, exec (.bootStepComplete d) s = .next u ∧ u.sys = { s.sys with step := 6 } ∧
            (∀ n i, n < 8 → i < segLen s n → (pgmGet u n i).toNat =
              (mramGet s (segBase s n + 2 * i)).toNat * 2 ^ 20 + (mramGet s (segBase s n + 2 * i + 1)).toNat) ∧
            (∀ n i, n < 8 → segLen s n ≤ i → i < 131072 → pgmGet u n i = pgmGet s n i) ∧ u.mem = { s.mem with pgm := u.mem.pgm }) ∧
          (imageOk s = false → ∃ u, exec (.bootStepComplete d) s = .next u ∧ u.sys = { s.sys with bootHold := true } ∧
            bit (regGet u 0xF54001) 18 = true ∧ bit (regGet u 0xF54001) 19 = true ∧ sameBut [.sys, .regs, .held] s u ∧
            regsBut [0xF54000, 0xF54001] s u)) ∧
        (s.sys.step = 6 → ∃ u, exec (.bootStepComplete d) s = .next u ∧ u.sys.step = 7 ∧ (newestCopy s = none → bit (regGet u 0xF54001) 16 = true)) ∧
        (s.sys.step = 7 → ∃ u, exec (.bootStepComplete d) s = .next u ∧ u.sys.step = 8 ∧ u.cores = s.cores) ∧
        (s.sys.step = 8 → ∃ u, exec (.bootStepComplete d) s = .next u ∧ u.sys.step = 0 ∧
          (s.sys.testEn = true → u.sys.op = .test) ∧
          (s.sys.testEn = false → u.sys.op = .config ∧ ∀ n : CoreId, u.cores[n] =
            if hasProgram s n.val then { Core.reset with run := true, base := true } else { Core.reset with halted := true }))) ∧
      (s.sys.step = 4 → s.sys.bwait = true → ∃ u, exec .bwaitExpiry s = .next u ∧ u.sys = { s.sys with step := 5, bwait := false } ∧ sameBut [.sys] s u) ∧
      (s.sys.step = 4 → ∃ u, exec .bootHold s = .next u ∧ u.sys.bootHold = true ∧ u.sys.bwait = false ∧ bit (regGet u 0xF54001) 19 = true ∧
        bit (regGet u 0xF54000) 17 = true ∧ sameBut [.sys, .regs, .held] s u ∧ regsBut [0xF54000, 0xF54001] s u) ∧
      ∀ hi lo, ∃ u, exec (.nvPdataWrite hi lo) s = .next u ∧ regGet u 0xF50001 = regGet s 0xF50001 + 1 ∧ fld (regGet u 0xF50004) 15 8 = 6 ∧
        sameBut [.sys, .regs, .held] s u ∧ regsBut [0xF50001, 0xF50002, 0xF50003, 0xF50004] s u) ∧
    (s.sys.bootHold = true →
      (∃ u, exec .bootHoldRelease s = .next u ∧ u.sys.bootHold = false ∧ u.sys.step = (if s.sys.hostPgm then 6 else 5) ∧
        bit (regGet u 0xF54001) 17 = s.sys.hostPgm ∧ sameBut [.sys, .regs, .held] s u ∧ regsBut [0xF54000, 0xF54001] s u) ∧
      (∀ hi lo : Word, ∃ u, exec (.nvPdataWrite hi lo) s = .next u ∧
        (pgmGet u (fld (regGet s 0xF54007) 19 17) (fld (regGet s 0xF54007) 16 0)).toNat = hi.toNat * 2 ^ 20 + lo.toNat ∧
        (∀ n i, n < 8 → i < 131072 → (n, i) ≠ (fld (regGet s 0xF54007) 19 17, fld (regGet s 0xF54007) 16 0) → pgmGet u n i = pgmGet s n i) ∧
        regGet u 0xF54007 = regGet s 0xF54007 + 1 ∧ u.sys.hostPgm = true ∧ u.mem = { s.mem with pgm := u.mem.pgm } ∧
        sameBut [.sys, .regs, .held, .mem] s u ∧ regsBut [0xF54007] s u) ∧
      (∀ v : Word, (fld (regGet s 0xF54005) 18 0 < 0x100 ∨ 0x25000 ≤ fld (regGet s 0xF54005) 18 0 ∧ fld (regGet s 0xF54005) 18 0 < 0x40000) →
        ∃ u, exec (.nvMdataWrite v) s = .next u ∧ mramGet u (fld (regGet s 0xF54005) 18 0) = v ∧
        (∀ a, a ≠ fld (regGet s 0xF54005) 18 0 → mramGet u a = mramGet s a) ∧
        fld (regGet u 0xF54005) 18 0 = (fld (regGet s 0xF54005) 18 0 + 1) % 2 ^ 19 ∧ u.mem = { s.mem with mram := u.mem.mram }))

/-- Requests and commands of NV_CTRL, and the clock of the part (08 R253; 19 R471, R475, R477, R478, R480, R482): RUN and AUTORUN are accepted for the next boundary unless the schedule or the demand inputs, as the words written so far will leave them at that boundary, are in error, which CREF then names; BSTORE writes the older copy of the boot record, which reads back as NV_MODE and NV_BOOT; RECOV with an authorisation leads from SAFE to RECOVERY; NV_MDATA reads the word at NV_MADDR, which advances; an operating hour counts; a TAP instruction is taken, those of the boundary register only in TEST, and what a maker's private one does in TEST the spec does not say. -/
def Obligations.RequestsStoresAndTestPort : Prop :=
  ∀ s : State,
    (s.sys.op = .config → s.sys.joinReq = false → s.sys.rstHeld = false → ∀ (cmd : Instr) (r : State),
      ((∃ who, cmd = .run who ∧ r = armLock who s) ∨ cmd = .autorunExpiry ∧ bitOf s 0xF54003 17 = true ∧ bitOf s 0xF54000 18 = false ∧ r = s) →
      ∃ u, exec cmd s = .next u ∧
        bit (regGet u 0xF28009) 15 = schedBad (asWritten r) ∧
        (schedBad (asWritten r) = true → u.sys.joinReq = false ∧ fld (regGet u 0xF54001) 11 4 = 1) ∧
        (schedBad (asWritten r) = false → dinConflict (asWritten r) = true → u.sys.joinReq = false ∧ fld (regGet u 0xF54001) 11 4 = 2) ∧
        (schedBad (asWritten r) = false → dinConflict (asWritten r) = false → u.sys.joinReq = true ∧ fld (regGet u 0xF54001) 11 4 = 0) ∧
        u.sys.op = .config ∧ sameBut [.sys, .regs, .held] s u) ∧
    (∀ who, s.sys.op = .config → s.sys.rstHeld = false → ∃ u, exec (.bstore who) s = .next u ∧
      (fld (regGet s 0xF54002) 19 18 ≠ 3 →
        (bootRecord s = none → ∃ w, bootCopy u 0 = some (1, w) ∧ fld w 19 18 = fld (regGet s 0xF54002) 19 18 ∧ fld w 17 1 = fld (regGet s 0xF54003) 17 1) ∧
        (∀ k q w, bootRecord s = some (k, q, w) → ∃ w', bootCopy u (1 - k) = some ((q + 1) % 2 ^ 32, w') ∧
          fld w' 19 18 = fld (regGet s 0xF54002) 19 18 ∧ fld w' 17 1 = fld (regGet s 0xF54003) 17 1 ∧ bootCopy u k = bootCopy s k)) ∧
      (∀ a, 0x100 ≤ a → mramGet u a = mramGet s a) ∧ u.mem = { s.mem with mram := u.mem.mram } ∧ sameBut [.sys, .mem, .pg, .bv, .pc, .regs, .held] s u ∧
      regsButEvents [] s u) ∧
    (∀ who, s.sys.op = .safe → s.sys.rstHeld = false → s.ph.l5 = false →
      (bitOf s 0xF34045 19 = true → ∃ u, exec (.recov who) s = .next u ∧ u.sys.op = .recovery ∧ sameBut [.sys] s u) ∧
      (bitOf s 0xF34045 19 = false → ∃ u, exec (.recov who) s = .next u ∧ u.sys.op = .safe ∧ regGet u 0xF50001 = regGet s 0xF50001 + 1 ∧
        fld (regGet u 0xF50004) 15 8 = 6 ∧ sameBut [.sys, .regs, .held] s u ∧ regsBut [0xF50001, 0xF50002, 0xF50003, 0xF50004] s u)) ∧
    (s.sys.op ≠ .powerUp → s.sys.rstHeld = false →
      (let a := fld (regGet s 0xF54005) 18 0
       ((a < 0x100 ∨ 0x200 ≤ a) ∧ (a < 0x400 ∨ 0x800 ≤ a) → ∃ u, exec (.nvMdataRead .host) s = .next u ∧ u.sys.rdata = [mramGet s a] ∧
        fld (regGet u 0xF54005) 18 0 = (a + 1) % 2 ^ 19 ∧ u.mem = s.mem ∧ u.cores = s.cores))) ∧
    (s.sys.op ≠ .powerUp → s.sys.op ≠ .test → s.sys.rstHeld = false →
      ∃ u, exec .operatingHour s = .next u ∧ u.sys.per.hours = (s.sys.per.hours + 1) % 2 ^ 32 ∧ u.sys.op = s.sys.op ∧
        u.sys.per.hoursRun = (if s.sys.op = .runActive then (s.sys.per.hoursRun + 1) % 2 ^ 32 else s.sys.per.hoursRun) ∧
        u.sys.per.xage = (if s.sys.op = .runStandby then min 0xFFFFF (s.sys.per.xage + 1) else s.sys.per.xage) ∧
        regGet u 0xF30006 = word u.sys.per.xage ∧
        (s.sys.per.resets.length = 5 → s.sys.per.kinds.length = 4 → ∀ a, a < 0x200 ∨ 0x400 ≤ a → mramGet u a = mramGet s a) ∧ u.cores = s.cores ∧ u.lk = s.lk) ∧
    (∀ i : TapOp, i ≠ .makers ∨ s.sys.op ≠ .test → ∃ u, exec (.tapInstruction i) s = .next u ∧
      u.sys = { s.sys with tap := u.sys.tap } ∧ (i ∈ [TapOp.extest, .clamp, .highz, .makers] → s.sys.op ≠ .test → u.sys.tap = .bypass) ∧
      (i = .idcode → u.sys.tap = .idcode) ∧ (i = .sample → u.sys.tap = .sample) ∧ (i = .extest → s.sys.op = .test → u.sys.tap = .extest) ∧
      sameBut [.sys] s u) ∧
    (s.sys.op = .test → exec (.tapInstruction .makers) s = .refused .makersPrivate) ∧
    (∃ u, exec .tapReset s = .next u ∧ u.sys = { s.sys with tap := .idcode } ∧ sameBut [.sys] s u)

/-- Register writes (01 R13, R14; 17 R441-R443, R446-R448, R451): a write to a K register by a requester whose lock is armed, to an (S) register by another than Kiosk, or by its own unit to a replicated register of a standby, is dropped and counted with its address, requester and reason; the key 5A0F3h unlocks the writer, any other write arms its lock; a write its register takes loads its RW fields, at once where they are marked I, with the word before in force until the boundary where they are marked B, and no read-only field; a write to the slow domain waits for its transfer, after which the copy that is read shows the word before for 96 cy. -/
def Obligations.RegisterWritesAndLocks : Prop :=
  ∀ (s : State) (who : Requester) (a : Addr) (v : Word), s.sys.op ≠ .powerUp → s.sys.rstHeld = false → 0xF00000 ≤ a.toNat →
    (∃ u, exec (.scUnlock who v) s = .next u ∧ (who ∈ u.sys.unlocked ↔ v = 0x5A0F3) ∧
      (∀ w, w ≠ who → (w ∈ u.sys.unlocked ↔ w ∈ s.sys.unlocked)) ∧ u.sys = { s.sys with unlocked := u.sys.unlocked } ∧ sameBut [.sys] s u) ∧
    (a.toNat ≠ 0xF50000 → ∃ u, exec (.registerWrite who a v) s = .next u ∧ who ∉ u.sys.unlocked ∧
      (∀ w, w ≠ who → (w ∈ u.sys.unlocked ↔ w ∈ s.sys.unlocked)) ∧
      (rowOf a.toNat = none → sameBut [.sys] s u) ∧
      ∀ r, rowOf a.toNat = some r →
        (∀ why, (r.k = true ∧ who ∉ s.sys.unlocked ∧ who ≠ .mirror ∧ why = 1) ∨
            ((r.k = true → who ∈ s.sys.unlocked ∨ who = .mirror) ∧ r.sec = true ∧ who ≠ .kiosk ∧ why = 5) ∨
            (r.k = false ∧ r.sec = false ∧ isSlow a.toNat = false ∧ standbyDrops who a.toNat s = true ∧ why = 4) →
          regGet u 0xF50001 = regGet s 0xF50001 + 1 ∧ regGet u 0xF50002 = word (a.toNat / 2 ^ 20 % 16) ∧ regGet u 0xF50003 = word a.toNat ∧
          fld (regGet u 0xF50004) 19 16 = reqNum who ∧ fld (regGet u 0xF50004) 15 8 = why ∧
          sameBut [.sys, .regs, .held] s u ∧ regsBut [0xF50001, 0xF50002, 0xF50003, 0xF50004] s u) ∧
        (r.k = false → (r.sec = true → who = .kiosk) → isSlow a.toNat = true →
          u.sys.slow = s.sys.slow ++ [(a.toNat, v, who)] ∧ sameBut [.sys] s u) ∧
        (r.k = false → r.sec = false → standbyDrops who a.toNat s = false → (s.sys.op = .config ∨ ∀ f ∈ r.fields, f.cfg = false) →
          (0xF08000 ≤ a.toNat ∧ a.toNat < 0xF0C000 ∨ 0xF40000 ≤ a.toNat ∧ a.toNat < 0xF40080 ∨ 0xF5C008 ≤ a.toNat ∧ a.toNat < 0xF5C00C) →
          (∀ f ∈ r.fields, f.acc = .rw → fld (regGet u a.toNat) f.hi f.lo = fld v f.hi f.lo ∧
            (f.mark = .i → fldOf u a.toNat f.hi f.lo = fld v f.hi f.lo) ∧ (f.mark = .b → fldOf u a.toNat f.hi f.lo = fldOf s a.toNat f.hi f.lo)) ∧
          (∀ f ∈ r.fields, f.acc = .ro → fld (regGet u a.toNat) f.hi f.lo = fld (regGet s a.toNat) f.hi f.lo) ∧
          (paired s = false → u.pr = s.pr) ∧ sameBut [.sys, .regs, .held, .pr] s u ∧ regsBut [a.toNat] s u)) ∧
    (∀ b w, s.sys.slow = [(b, w, who)] →
      (0xF38030 ≤ b → b < 0xF38035 → ∃ u, exec .slowDomainTransfer s = .next u ∧ u.sys.slow = [] ∧ regGet u b = w ∧ (∀ x, seenWord u x b = liveWord s who b) ∧
        sameBut [.sys, .regs, .held] s u ∧ regsBut [b] s u) ∧
      (b = 0xF38022 → s.sys.op = .runActive → ∃ u, exec .slowDomainTransfer s = .next u ∧ u.sys.slow = [] ∧
        fld (regGet u b) 19 18 = fld w 19 18 ∧ fldOf u b 19 18 = fldOf s b 19 18 ∧ sameBut [.sys, .regs, .held] s u ∧ regsBut [b] s u) ∧
      (b = 0xF38022 → s.sys.op = .safe → ∃ u, exec .slowDomainTransfer s = .next u ∧ u.sys.slow = [] ∧
        regGet u 0xF50001 = regGet s 0xF50001 + 1 ∧ fld (regGet u 0xF50004) 15 8 = 6 ∧ sameBut [.sys, .regs, .held] s u ∧
        regsBut [0xF50001, 0xF50002, 0xF50003, 0xF50004] s u))

/-- Host port, pins and staged words (02 R48; 04 R125; 05 R159; 17 R444, R454, R456): a write frame writes shared memory, or a register as a write of the host; a read frame returns its words; each counts as a frame; a malformed frame sets FRAME_ERR, one outside the places ADDR_ERR, and both count as errors. A pin takes its level and, unless the part drives it, a selected edge raises its source. A write of W0 asks for the commit of its entry, one of A2 of its biquad, one of W[63] of its table. -/
def Obligations.HostPortPinsAndStagedWords : Prop :=
  ∀ s : State, s.sys.op ≠ .powerUp → s.sys.rstHeld = false →
    (∀ a2 a1 a0 b2 b1 b0 : Byte,
      (let a := a2.toNat * 65536 + a1.toNat * 256 + a0.toNat
       let v := word (b2.toNat * 65536 + b1.toNat * 256 + b0.toNat)
       (0x100000 ≤ a → a < 0x200000 → ∃ u, exec (.hostPortFrame [0x80, a2, a1, a0, b2, b1, b0]) s = .next u ∧ sharedGet u (a - 0x100000) = v ∧
          (∀ b, b ≠ a - 0x100000 → sharedGet u b = sharedGet s b) ∧ u.mem = { s.mem with shared := u.mem.shared } ∧
          regGet u 0xF58001 = regGet s 0xF58001 + 1 ∧ sameBut [.mem, .regs, .held] s u ∧ regsBut [0xF58001] s u) ∧
       (0xF00000 ≤ a → ∃ u t, exec (.hostPortFrame [0x80, a2, a1, a0, b2, b1, b0]) s = .next u ∧
          exec (.registerWrite .host (BitVec.ofNat 24 a) v) s = .next t ∧ regGet u 0xF58001 = regGet t 0xF58001 + 1 ∧
          sameBut [.regs, .held] t u ∧ regsBut [0xF58001] t u) ∧
       (a < 0x100000 ∨ 0x200000 ≤ a ∧ a < 0xF00000 → ∃ u, exec (.hostPortFrame [0x80, a2, a1, a0, b2, b1, b0]) s = .next u ∧
          bit (regGet u 0xF58000) 18 = true ∧ regGet u 0xF58002 = regGet s 0xF58002 + 1 ∧ sameBut [.regs, .held] s u ∧
          regsBut [0xF58000, 0xF58001, 0xF58002] s u) ∧
       (∀ data : List Byte, 0x100000 ≤ a → data.length % 3 = 0 → a + data.length / 3 < 0x200000 →
          ∃ u, exec (.hostPortFrame (0x40 :: a2 :: a1 :: a0 :: data)) s = .next u ∧
          u.sys.rdata = (List.range (data.length / 3)).map (fun i => sharedGet s (a - 0x100000 + i)) ∧ u.mem = s.mem ∧
          regGet u 0xF58001 = regGet s 0xF58001 + 1 ∧ sameBut [.sys, .regs, .held] s u ∧ regsBut [0xF58001] s u) ∧
       (∀ (c : Byte) (data : List Byte), c.toNat / 64 = 0 ∨ c.toNat / 64 = 3 ∨ c.toNat % 32 ≠ 0 →
          ∃ u, exec (.hostPortFrame (c :: a2 :: a1 :: a0 :: data)) s = .next u ∧ bit (regGet u 0xF58000) 19 = true ∧
          regGet u 0xF58002 = regGet s 0xF58002 + 1 ∧ sameBut [.regs, .held] s u ∧ regsBut [0xF58000, 0xF58002] s u))) ∧
    (∀ (p : Fin 32) (level : Bool), s.sys.gpio.getLsbD p.val ≠ level → ∃ u, exec (.gpioEdge p level) s = .next u ∧
      u.sys.gpio.getLsbD p.val = level ∧ (∀ q, q ≠ p.val → u.sys.gpio.getLsbD q = s.sys.gpio.getLsbD q) ∧ (gpioDriven s p.val = true → sameBut [.sys] s u) ∧
      (let sel := fldOf s (0xF5C008 + p.val / 8) (2 * (p.val % 8) + 1) (2 * (p.val % 8))
       ((sel % 2 = 1 ∧ level = true ∨ 2 ≤ sel ∧ level = false) → gpioDriven s p.val = false → afterBoot s = true → bitOf s (0xF40000 + gpioEvent p.val) 19 = true →
          (lookupNat u.pg.evPend (gpioEvent p.val)).isSome = true) ∧
       (sel = 0 → u.pg = s.pg ∧ u.regs = s.regs)) ∧
      sameBut [.sys, .regs, .held, .pg, .bv, .pc] s u ∧ regsButEvents [] s u) ∧
    (∀ (who : Requester) (e : Fin 2048) (v : Word), ∃ u, exec (.w0Write who e v) s = .next u ∧ e.val ∈ u.sd.w0Pend ∧
      fld (regGet u (w0Addr e.val)) 19 4 = fld v 19 4 ∧ (bit v 3 = false → bit (regGet u (w0Addr e.val)) 3 = false) ∧
      (bit v 0 = false → bit (regGet u (w0Addr e.val)) 0 = false) ∧ u.sd.ev = s.sd.ev ∧ u.sd = { s.sd with w0Pend := u.sd.w0Pend } ∧
      sameBut [.sys, .sd, .regs] s u ∧ regsBut [w0Addr e.val] s u) ∧
    (isStandby s = false → ∀ who : Requester,
      (∀ (n : Fin 1024) (v : Word), ∃ u, exec (.biquadCommit who n v) s = .next u ∧ n.val ∈ u.sv.bqPend ∧
        regGet u (svBase (n.val / 4) + 0x60 + 8 * (n.val % 4) + 4) = v ∧ u.sv = { s.sv with bqPend := u.sv.bqPend } ∧
        sameBut [.sys, .sv, .pr, .regs, .held] s u ∧ regsBut [svBase (n.val / 4) + 0x60 + 8 * (n.val % 4) + 4] s u) ∧
      ∀ (n : Fin 192) (v : Word), ∃ u, exec (.blendTableCommit who n v) s = .next u ∧ n.val ∈ u.mo.blendPend ∧
        regGet u (0xF0C000 + 64 * n.val + 63) = v ∧ u.mo = { s.mo with blendPend := u.mo.blendPend } ∧
        sameBut [.sys, .mo, .pr, .regs, .held] s u ∧ regsBut [0xF0C000 + 64 * n.val + 63] s u)

/-- Dictionary requests (15 R417; 16 R420-R423, R429-R432): a request for no entry, a read of a write-only entry, a write of a read-only entry and one without the key or the authorisation its right asks for are answered with their abort codes, and so is a write to the active alias at a unit that is now standby, which PR_ROLECHG_CNT counts; a read is answered with the entry's value in its type; a write puts its value into what the entry stands for; a key is kept for the next request of its source. -/
def Obligations.DictionaryRequestsAreAnswered : Prop :=
  ∀ (s : State) (f : KFrom), freshHere s f →
    (∀ (i : BitVec 16) (sub : BitVec 8), i.toNat < 0x6000 →
      (∃ u, exec (.dictionaryRead f i sub) s = .next u ∧
        (kLookup s i.toNat sub.toNat = .noIndex → answered u f false i.toNat sub.toNat [] (.abort 0x06020000)) ∧
        (kLookup s i.toNat sub.toNat = .noSub → answered u f false i.toNat sub.toNat [] (.abort 0x06090011)) ∧
        (∀ e, kLookup s i.toNat sub.toNat = .found e → byFirmware i.toNat sub.toNat = false → e.back ≠ .firmware → e.ty.size ≠ none →
          (e.right = .wo → answered u f false i.toNat sub.toNat [] (.abort 0x06010001)) ∧
          (e.right ≠ .wo → answered u f false i.toNat sub.toNat [] (.data (e.ty.bytes (entryValue s e i.toNat sub.toNat)))) ∧
          kioskFrame [] [] s u)) ∧
      (∀ data : List Byte, ¬ ownRole s f → ∃ u, exec (.dictionaryWrite f i sub data) s = .next u ∧
        answered u f true i.toNat sub.toNat data (.abort 0x08000043) ∧ regGet u 0xF3000C = regGet s 0xF3000C + 1 ∧ kioskFrame [] [0xF3000C] s u) ∧
      ∀ data : List Byte, ownRole s f → ∃ u, exec (.dictionaryWrite f i sub data) s = .next u ∧
        (kLookup s i.toNat sub.toNat = .noIndex → answered u f true i.toNat sub.toNat data (.abort 0x06020000)) ∧
        (kLookup s i.toNat sub.toNat = .noSub → answered u f true i.toNat sub.toNat data (.abort 0x06090011)) ∧
        (∀ e, kLookup s i.toNat sub.toNat = .found e → byFirmware i.toNat sub.toNat = false →
          (e.right = .const ∨ e.right = .ro → answered u f true i.toNat sub.toNat data (.abort 0x06010002) ∧ kioskFrame [] [] s u) ∧
          (e.right = .rwK → f.src ∉ s.ks.keys → answered u f true i.toNat sub.toNat data (.abort 0x08000040) ∧ kioskFrame [] [] s u) ∧
          (e.right = .rwS → authorised s f = false → answered u f true i.toNat sub.toNat data (.abort 0x08000041) ∧ kioskFrame [] [] s u))) ∧
    (ownRole s f → (∀ b1 b0 : Byte, ovHolds s s.ks.sel 0x1017 0 = none →
        ∃ u, exec (.dictionaryWrite f 0x1017 0 [b0, b1]) s = .next u ∧ mapGet 0 u.ks.vals (ekey 0x1017 0) = b1.toNat * 256 + b0.toNat ∧
          (∀ k, k ≠ ekey 0x1017 0 → mapGet 0 u.ks.vals k = mapGet 0 s.ks.vals k) ∧ answered u f true 0x1017 0 [b0, b1] (.data []) ∧ kioskFrame [] [] s u) ∧
      (∀ data : List Byte, data.length = 3 → leNat data < 0x100000 → ovHolds s s.ks.sel 0x2001 0 = none →
        ∃ u, exec (.key f data) s = .next u ∧ answered u f true 0x2001 0 data (.data []) ∧ (f.src ∈ u.ks.keys ↔ leNat data = 0x5A0F3) ∧
          (∀ x, x ≠ f.src → (x ∈ u.ks.keys ↔ x ∈ s.ks.keys)) ∧ kioskFrame [] [] s u)) ∧
    (∀ (a : Fin 128) (b2 b1 b0 : Byte), isStandby s = false → s.sys.rstHeld = false → a.val < axisCount s → b2.toNat < 16 →
      ovHolds s s.ks.sel 0x2218 (a.val + 1) = none →
      ∃ u, exec (.dictionaryWrite f 0x2218 (BitVec.ofNat 8 (a.val + 1)) [b0, b1, b2]) s = .next u ∧
        answered u f true 0x2218 (a.val + 1) [b0, b1, b2] (.data []) ∧
        regGet u (mpBase a.val + 3) = word (b2.toNat * 65536 + b1.toNat * 256 + b0.toNat) ∧ inForce u (mpBase a.val + 3) = inForce s (mpBase a.val + 3) ∧
        kioskFrame [.sys] [mpBase a.val + 3] s u)

/-- Requests by other ways (15 R417; 16 R429-R433): an SDO request, the host's mailbox with GO and a request relayed on the pair lane are served as the dictionary request they carry; 2011h:01h sends a request on and 2011h:02h returns its response; a forwarded request ends with its response, or with 05040000h when its time is over. -/
def Obligations.RequestsTravelAndReturn : Prop :=
  (∀ (s : State) (c : Fin 2) (i : BitVec 16) (sub : BitVec 8) (data : List Byte) (id : BitVec 16), coUp s c = true →
    ownSnn s (sdoFrom s c id).dst.toNat = true → (sdoFrom s c id).dst.toNat ≠ 262143 →
    (∃ u, exec (.sdoRequest c false i sub [] id) s = .next u ∧ exec (.dictionaryRead (sdoFrom s c id) i sub) s = .next u) ∧
    (∃ u, exec (.sdoRequest c true i sub data id) s = .next u ∧ exec (.dictionaryWrite (sdoFrom s c id) i sub data) s = .next u)) ∧
  (∀ (s : State) (who : Requester) (q : KReq), s.sys.op ≠ .powerUp → s.sys.rstHeld = false →
    (afterBoot s = false → ∃ u, exec (.go who) s = .next u ∧ regGet u 0xF50001 = regGet s 0xF50001 + 1 ∧ fld (regGet u 0xF50004) 15 8 = 6 ∧
      sameBut [.sys, .regs, .held] s u ∧ regsBut [0xF50001, 0xF50002, 0xF50003, 0xF50004] s u) ∧
    (afterBoot s = true → s.ks.hpBusy = false →
      (let f : KFrom := { q.from_ with src := BitVec.ofNat 18 (fldOf s 0xF48006 17 0) }
       (parseMsg .hp (mailboxBytes s) = (1, q) → q.data = [] → ∃ u, exec (.go who) s = .next u ∧
          exec (.dictionaryRead f q.index q.sub) (armLock who s) = .next u) ∧
       (parseMsg .hp (mailboxBytes s) = (2, q) → ∃ u, exec (.go who) s = .next u ∧
          exec (.dictionaryWrite f q.index q.sub q.data) (armLock who s) = .next u)))) ∧
  (∀ (s : State) (e : BitVec 16) (q : KReq), s.lk.st ≠ .off → paired s = true → s.pr.laneUp = true → e.toNat = s.lk.epoch → afterBoot s = true →
    (let r := putBit 0xF30002 13 false { s with pr := { s.pr with heardLane := true, lost := false } }
     (q.write = false → q.data = [] → ∃ u, exec (.svcReceived .ok e (.request q)) s = .next u ∧
        exec (.dictionaryRead { q.from_ with port := .pair } q.index q.sub) r = .next u) ∧
     (q.write = true → ∃ u, exec (.svcReceived .ok e (.request q)) s = .next u ∧
        exec (.dictionaryWrite { q.from_ with port := .pair } q.index q.sub q.data) r = .next u))) ∧
  (∀ (s : State) (f : KFrom), freshHere s f → coreRunning s.cores[(0 : Fin 8)] = true → s.ks.fwq = [] →
    (∀ data : List Byte, ownRole s f → ovHolds s s.ks.sel 0x2011 1 = none →
      (data.length < 18 → ∃ u, exec (.routedRequest f data) s = .next u ∧ answered u f true 0x2011 1 data (.data []) ∧
        u.ks.routed.find? (fun x => x.1 == f.src) = some (f.src, none)) ∧
      (∀ q, 18 ≤ data.length → parseMsg (.entry (portKind f.port)) data = (1, q) → q.from_.dst.toNat ≠ 262143 → ownSnn s q.from_.dst.toNat = false →
        routeOf s q.from_.dst.toNat = none → ∃ u, exec (.routedRequest f data) s = .next u ∧
          u.ks.routed.find? (fun x => x.1 == f.src) = some (f.src, some (respBytes { q with from_ := { q.from_ with src := f.src } } (.abort 0x08000044))))) ∧
    (∃ u, exec (.routedResponse f) s = .next u ∧
      (∀ b, s.ks.routed.find? (fun x => x.1 == f.src) = some (f.src, some b) → answered u f false 0x2011 2 [] (.data b) ∧
        (u.ks.routed.find? (fun x => x.1 == f.src) = none ∨ ∃ k, f.port = .entry k)) ∧
      (s.ks.routed.find? (fun x => x.1 == f.src) = none ∨ s.ks.routed.find? (fun x => x.1 == f.src) = some (f.src, none) →
        answered u f false 0x2011 2 [] (.abort 0x08000024)))) ∧
  (∀ (s : State) (m : BitVec 8) (x : Forward), s.ks.fwd.find? (fun y => y.msgid == m.toNat) = some x → x.req.from_.dst.toNat ≠ 262143 →
    (∃ u, exec (.forwardTimeout m) s = .next u ∧ u.ks.answer = some ⟨x.req, .abort 0x05040000⟩ ∧ u.ks.fwd = s.ks.fwd.erase x ∧
      regGet u 0xF48013 = regGet s 0xF48013 + 1 ∧ regGet u 0xF48011 = regGet s 0xF48011 + 1 ∧ kioskFrame [] [] s u) ∧
    ∀ r : KResp, ∃ u, exec (.forwardedResponse m r) s = .next u ∧ u.ks.answer = some ⟨x.req, r⟩ ∧ u.ks.fwd = s.ks.fwd.erase x ∧
      sameBut [.ks, .lk, .regs, .held] s u)

/-- Passwords and authorisations (09 R280, R281): the right password opens an authorisation of its source and port and ends the count of wrong ones; a wrong one counts, and the third in a row locks the entry for a time that doubles, during which every attempt is refused; CLOSE, and the idle time, close the authorisation; the lockout ends. -/
def Obligations.PasswordsOpenAndLock : Prop :=
  ∀ s : State,
    (∀ (f : KFrom) (data : List Byte), freshHere s f → ownRole s f → ovHolds s s.ks.sel 0x2002 1 = none → data.length = 4 →
      (let v := leNat data
       (s.gh.pw.locked = false → pwMatches s v = true → ∃ u, exec (.password f data) s = .next u ∧ answered u f true 0x2002 1 data (.data []) ∧
          authorised u f = true ∧ u.gh.pw = { s.gh.pw with auth := u.gh.pw.auth, wrong := 0, nextLock := 60 } ∧ bit (regGet u 0xF34045) 19 = true ∧
          kioskFrame [.gh] [0xF34045] s u) ∧
       (s.gh.pw.locked = false → pwMatches s v = false → ∃ u, exec (.password f data) s = .next u ∧
          answered u f true 0x2002 1 data (.abort 0x08000041) ∧ regGet u 0xF34046 = regGet s 0xF34046 + 1 ∧ u.gh.pw.auth = s.gh.pw.auth ∧
          (s.gh.pw.wrong < 2 → u.gh.pw = { s.gh.pw with wrong := s.gh.pw.wrong + 1 }) ∧
          (2 ≤ s.gh.pw.wrong → u.gh.pw.locked = true ∧ u.gh.pw.lockEnd = s.now + s.gh.pw.nextLock * 600000000 ∧
            u.gh.pw.nextLock = min 3840 (2 * s.gh.pw.nextLock) ∧ bit (regGet u 0xF34045) 18 = true) ∧ kioskFrame [.gh] [0xF34045, 0xF34046] s u) ∧
       (s.gh.pw.locked = true → ∃ u, exec (.password f data) s = .next u ∧ answered u f true 0x2002 1 data (.abort 0x08000041) ∧
          kioskFrame [] [] s u))) ∧
    (∀ (f : KFrom) (b : Byte), freshHere s f → ownRole s f → ovHolds s s.ks.sel 0x2002 2 = none →
      ∃ u, exec (.close f [b]) s = .next u ∧ answered u f true 0x2002 2 [b] (.data []) ∧ authorised u f = false ∧
        (∀ x, x ≠ (f.src, f.port) → (x ∈ u.gh.pw.auth ↔ x ∈ s.gh.pw.auth)) ∧ kioskFrame [.gh] [0xF34045] s u) ∧
    (∀ (src : BitVec 18) (port : KPort), ∃ u, exec (.authorisationIdleTimeout src port) s = .next u ∧ (src, port) ∉ u.gh.pw.auth ∧
      (∀ x, x ≠ (src, port) → (x ∈ u.gh.pw.auth ↔ x ∈ s.gh.pw.auth)) ∧ bit (regGet u 0xF34045) 19 = !u.gh.pw.auth.isEmpty ∧
      sameBut [.gh, .regs, .held] s u ∧ regsBut [0xF34045] s u) ∧
    (∃ u, exec .lockoutEnd s = .next u ∧ u.gh.pw = { s.gh.pw with locked := false, lockEnd := 0 } ∧ bit (regGet u 0xF34045) 18 = false ∧
      sameBut [.gh, .regs, .held] s u ∧ regsBut [0xF34045] s u)

/-- RW-S writes and the change log (09 R280, R282-R284; 16 R434): a write of a new password, of an exchange, of an approval or of an acknowledgement is refused without an authorisation, in a closed state and, but for an acknowledgement, with the log full; accepted, it waits for its log entry and is answered when the entry is in MRAM and verified, which is also when it takes effect; an acknowledgement frees entries at once; a failed entry is answered with 06060000h and changes nothing. The salt of a new password is a free value (log entry 2). -/
def Obligations.SecureWritesWaitForTheirLogEntry : Prop :=
  ∀ s : State,
    (∀ (cmd : Instr) (f : KFrom) (i sub kind : Nat) (data : List Byte), freshHere s f → ownRole s f → ovHolds s s.ks.sel i sub = none →
      (cmd = .newPassword f data ∧ i = 0x2002 ∧ sub = 3 ∧ kind = 2 ∧ data.length = 4 ∨
        cmd = .roleExchange f data ∧ i = 0x2003 ∧ sub = 0 ∧ kind = 0 ∧ data.length = 3 ∧ leNat data = 0x5A0F3 ∨
        (∃ k : Fin 16, cmd = .approval f k data ∧ i = 0x3400 + k.val ∧ sub = 2 ∧ kind = 1 ∧ data.length = 4 ∧ leNat data = ovCrc s.ks.ov[k]) ∨
        cmd = .logAck f data ∧ i = 0x3050 ∧ sub = 2 ∧ kind = 3 ∧ data.length = 4 ∧ ackOk s (leNat data) = true) →
      (authorised s f = false → ∃ u, exec cmd s = .next u ∧ answered u f true i sub data (.abort 0x08000041) ∧ kioskFrame [] [] s u) ∧
      (authorised s f = true → secureClosed s = true → ∃ u, exec cmd s = .next u ∧ answered u f true i sub data (.abort 0x08000022) ∧ kioskFrame [] [] s u) ∧
      (authorised s f = true → secureClosed s = false → logRoom s = false → kind ≠ 3 →
        ∃ u, exec cmd s = .next u ∧ answered u f true i sub data (.abort 0x08000042) ∧ kioskFrame [] [] s u) ∧
      (authorised s f = true → secureClosed s = false → (logRoom s = true ∨ kind = 3) →
        ∃ (u : State) (x : LogPend), exec cmd s = .next u ∧ u.gh.log = s.gh.log ++ [x] ∧
          x.req = ⟨f, true, BitVec.ofNat 16 i, BitVec.ofNat 8 sub, data⟩ ∧ x.kind = kind ∧ x.own = false ∧ x.relayed = false ∧
          (pairRuns s = false → x.partner = 1) ∧ u.ks.answer = s.ks.answer ∧ u.gh.pw = s.gh.pw ∧ u.ks.ov = s.ks.ov ∧
          (kind = 3 → logAck u = leNat data) ∧ (kind ≠ 3 → u.sys = s.sys) ∧ u.mem = s.mem ∧ u.cores = s.cores)) ∧
    (∀ (x : LogPend) (l : List LogPend), s.gh.log = x :: l → x ∉ l → x.own = false → x.relayed = false → x.partner = 1 →
      x.req.from_.dst.toNat ≠ 262143 →
      (s.sys.op ≠ .test → s.sys.rstHeld = false → s.sys.op ≠ .powerUp → ∀ (i sub : Nat), x.req.index = BitVec.ofNat 16 i → x.req.sub = BitVec.ofNat 8 sub →
        (i = 0x2002 ∧ sub = 3 ∧ x.req.data.length = 4 ∨ i = 0x2003 ∧ sub = 0 ∧ x.req.data.length = 3 ∧ leNat x.req.data = 0x5A0F3 ∨
          (∃ k : Fin 16, i = 0x3400 + k.val ∧ sub = 2 ∧ x.req.data.length = 4)) →
        ∃ u, exec (.logEntryVerified true) s = .next u ∧ u.gh.log = l ∧ u.sys.per.logNext = (logNext s + 1) % 2 ^ 32 ∧
          mramGetAll u (0x64000 + 12 * (logNext s % 4096)) 12 = logWords (logNext s) s.gh.logCrc x ∧ u.ks.answer = some ⟨x.req, .data []⟩ ∧
          (i = 0x2002 → u.gh.pw.isDefault = decide (leNat x.req.data = 0) ∧ u.gh.pw.digest = pwDigest u.gh.pw.salt (leNat x.req.data) ∧
            u.sys.per.digest = u.gh.pw.digest ∧ u.freeCtr = s.freeCtr + 1) ∧
          (i = 0x2003 → bit (regGet u 0xF30001) 19 = true) ∧
          (∀ k : Fin 16, i = 0x3400 + k.val → u.ks.ov[k].approved = true ∧ u.ks.ov[k].recs = s.ks.ov[k].recs ∧ u.ks.ov[k].lastCrc = ovCrc s.ks.ov[k])) ∧
      (∃ u, exec (.logEntryVerified false) s = .next u ∧ u.gh.log = l ∧ u.ks.answer = some ⟨x.req, .abort 0x06060000⟩ ∧
        bit (regGet u 0xF3404C) 17 = true ∧ u.gh.pw = s.gh.pw ∧ u.ks.ov = s.ks.ov ∧ u.mem = s.mem ∧ u.sys = s.sys))

/-- Stores and overlays (16 R433-R438): with C0 running and nothing waiting for it, a store of the parameters begins unless the image is too long, a restore marks the base image, an overlay write replaces the records and withdraws the approval unless the overlay is selected, too long or its records are not permitted; a completed store makes the other copy the one in force, a failed one is answered with 06060000h, as is one the partner does not complete, which sets CFG_DIFF; a selection is requested for the next boundary, and refused in SAFE. -/
def Obligations.StoresRestoresAndOverlays : Prop :=
  ∀ s : State,
    (∀ f : KFrom, freshHere s f → ownRole s f → coreRunning s.cores[(0 : Fin 8)] = true → s.ks.fwq = [] →
      (∀ data : List Byte, data.length = 4 → leNat data = 0x65766173 → ovHolds s s.ks.sel 0x1010 1 = none →
        ∃ u, exec (.storeParameters f data) s = .next u ∧
          ((baseImage (servedBy f s)).length ≤ 8192 → u.ks.answer = s.ks.answer ∧ ∃ j : StoreJob, u.ks.jobs = s.ks.jobs ++ [j] ∧
            j.req = ⟨f, true, 0x1010, 1, data⟩ ∧ j.vals = some (baseImage (servedBy f s)) ∧ j.ownDone = false ∧ j.partnerDone = !paired s) ∧
          (8192 < (baseImage (servedBy f s)).length → answered u f true 0x1010 1 data (.abort 0x08000020) ∧ u.ks.jobs = s.ks.jobs) ∧
          kioskFrame [] [] s u) ∧
      (∀ data : List Byte, data.length = 4 → ovHolds s s.ks.sel 0x1011 1 = none → ∃ u, exec (.restoreDefaults f data) s = .next u ∧
        (leNat data = 0x64616F6C → u.sys = { s.sys with per := { s.sys.per with restoreMark := true } } ∧
          (paired s = false → answered u f true 0x1011 1 data (.data [])) ∧
          (paired s = true → u.ks.answer = s.ks.answer ∧ ∃ j : StoreJob, u.ks.jobs = s.ks.jobs ++ [j] ∧ j.ownDone = true ∧ j.partnerDone = false)) ∧
        (leNat data ≠ 0x64616F6C → answered u f true 0x1011 1 data (.abort 0x06090030) ∧ u.sys = s.sys) ∧ kioskFrame [.sys] [] s u) ∧
      (∀ (k : Fin 16) (data : List Byte), ovHolds s s.ks.sel (0x3400 + k.val) 1 = none → ∃ u, exec (.overlayWrite f k data) s = .next u ∧
        (data.length % 8 ≠ 0 ∨ 2048 < data.length → answered u f true (0x3400 + k.val) 1 data (.abort 0x06070010) ∧ u.ks.ov = s.ks.ov) ∧
        (data.length % 8 = 0 → data.length ≤ 2048 → ovSelected s k.val = true → answered u f true (0x3400 + k.val) 1 data (.abort 0x08000022) ∧ u.ks.ov = s.ks.ov) ∧
        (data.length % 8 = 0 → data.length ≤ 2048 → ovSelected s k.val = false →
          (let r := servedBy f s
           (recsBad r data (recsOf r data) = true → answered u f true (0x3400 + k.val) 1 data (.abort 0x08000045) ∧ u.ks.ov = s.ks.ov) ∧
           (recsBad r data (recsOf r data) = false → u.ks.ov[k].recs = recsOf r data ∧ u.ks.ov[k].approved = false ∧
            (∀ m : Fin 16, m ≠ k → u.ks.ov[m] = s.ks.ov[m]) ∧
            (paired s = false → answered u f true (0x3400 + k.val) 1 data (.data []))))) ∧ kioskFrame [] [] s u)) ∧
    (∀ (f : KFrom) (b1 b0 : Byte), freshHere s f → isStandby s = false → s.sys.rstHeld = false → ovHolds s s.ks.sel 0x3410 1 = none →
      ∃ u, exec (.overlaySelection f [b0, b1]) s = .next u ∧
        (s.sys.op ≠ .safe → answered u f true 0x3410 1 [b0, b1] (.data []) ∧ fld (regGet u 0xF48008) 15 0 = b1.toNat * 256 + b0.toNat ∧
          fldOf u 0xF48008 15 0 = fldOf s 0xF48008 15 0 ∧ u.ks.sel = s.ks.sel) ∧
        (s.sys.op = .safe → answered u f true 0x3410 1 [b0, b1] (.abort 0x08000022) ∧ fld (regGet u 0xF48008) 15 0 = fld (regGet s 0xF48008) 15 0) ∧
        kioskFrame [.sys] [] s u) ∧
    (∀ j : StoreJob, s.ks.jobs = [j] → j.relayed = false → j.answered = false → j.req.from_.dst.toNat ≠ 262143 →
      (j.ownDone = false → j.partnerDone = true →
        (∃ u, exec (.configurationStoreComplete true) s = .next u ∧ u.ks.jobs = [] ∧ u.ks.answer = some ⟨j.req, .data []⟩ ∧
          u.ks.copySeq = (s.ks.copySeq + 1) % 2 ^ 32 ∧ (s.ks.copy = none → u.ks.copy = some 0) ∧ (∀ c, s.ks.copy = some c → u.ks.copy = some (1 - c)) ∧
          u.sys.per.restoreMark = false ∧ (∀ a, a < 0x1000 → mramGet u a = mramGet s a) ∧ u.mem = { s.mem with mram := u.mem.mram }) ∧
        (∃ u, exec (.configurationStoreComplete false) s = .next u ∧ u.ks.jobs = [] ∧ u.ks.answer = some ⟨j.req, .abort 0x06060000⟩ ∧
          u.ks.copy = s.ks.copy ∧ u.ks.copySeq = s.ks.copySeq ∧ u.mem = s.mem ∧ u.sys = s.sys)) ∧
      (j.partnerDone = false → ∃ u, exec .partnerCompletionTimeout s = .next u ∧ u.ks.answer = some ⟨j.req, .abort 0x06060000⟩ ∧
        bit (regGet u 0xF30002) 10 = true ∧ u.pr = { s.pr with cfgDiff := true } ∧
        u.ks.jobs = (if j.ownDone then [] else [{ j with partnerDone := true, answered := true }]) ∧ u.mem = s.mem ∧ u.sys = s.sys))

/-- CANopen services (15 R415, R417): a heartbeat is one frame 700h + NODEID with one byte; a TPDO is sent, or held back while its inhibit time runs and sent when it is over; an RPDO writes its mapped entry. That the heartbeat's byte is 05h is presumed from the family (log entry 48). -/
def Obligations.CanopenServicesRun : Prop :=
  (∀ (s : State) (c : Fin 2), coUp s c = true → s.can[c].stopped = false → mapGet 0 s.ks.vals (ekey 0x1017 0) ≠ 0 →
    ∃ (u : State) (f : List Word), exec (.heartbeat c) s = .next u ∧ u.can[c].sent = f :: s.can[c].sent ∧
      f.take 2 = [word 0x800, word (0x700 + fldOf s (copAddr c) 17 11)] ∧ u.can[c].beats = s.can[c].beats + 1 ∧
      regGet u (cnBase c + 0x12) = regGet s (cnBase c + 0x12) + 1 ∧ sameBut [.can, .regs, .held] s u ∧ regsBut [cnBase c + 0x12] s u) ∧
  (∀ (s : State) (n : Fin 64), (let c := pdoPort s (65 + n.val)
    coUp s c = true → s.can[c].stopped = false → pdoVal s (0x1800 + n.val) 1 / 2 ^ 31 % 2 = 0 → pdoVal s (0x1A00 + n.val) 0 ≠ 0 →
      ((tpdoSt s n.val).inhibit = false → ∃ u, exec (.tpdoEventTimer n) s = .next u ∧ (∃ f, u.can[c].sent = f :: s.can[c].sent) ∧
        tpdoSt u n.val = { inhibit := decide (pdoVal s (0x1800 + n.val) 3 ≠ 0), held := false } ∧
        regGet u (cnBase c + 0x12) = regGet s (cnBase c + 0x12) + 1 ∧ sameBut [.can, .regs, .held] s u ∧ regsBut [cnBase c + 0x12] s u) ∧
      ((tpdoSt s n.val).inhibit = true → ∃ u, exec (.tpdoEventTimer n) s = .next u ∧ u.can[c].sent = s.can[c].sent ∧
        tpdoSt u n.val = { inhibit := true, held := true } ∧ sameBut [.can] s u) ∧
      (∃ u, exec (.tpdoInhibitExpiry n) s = .next u ∧ ((tpdoSt s n.val).held = false → tpdoSt u n.val = { inhibit := false, held := false } ∧
          u.can[c].sent = s.can[c].sent ∧ sameBut [.can] s u) ∧
        ((tpdoSt s n.val).held = true → ∃ f, u.can[c].sent = f :: s.can[c].sent)))) ∧
  (∀ (s : State) (n : Fin 64) (a : Fin 128) (b4 b3 b2 b1 b0 : Byte), (let c := pdoPort s (1 + n.val)
    coUp s c = true → s.can[c].stopped = false → pdoVal s (0x1400 + n.val) 1 / 2 ^ 31 % 2 = 0 → isStandby s = false → s.sys.rstHeld = false →
      mapped s (0x1600 + n.val) = [(0x220B, a.val + 1, 5)] → a.val < axisCount s → ovHolds s s.ks.sel 0x220B (a.val + 1) = none →
      ∃ u, exec (.rpdo n [b0, b1, b2, b3, b4]) s = .next u ∧
        (regGet u (mpBase a.val + 4)).toNat * 2 ^ 20 + (regGet u (mpBase a.val + 5)).toNat = leNat [b0, b1, b2, b3, b4] ∧
        pairN u (mpBase a.val + 4) = pairN s (mpBase a.val + 4) ∧ sameBut [.sys, .regs, .held] s u ∧ regsBut [mpBase a.val + 4, mpBase a.val + 5] s u))

/-- The servo-period boundary and the common instant (07 R197; 08 R230; 19 R475, R510): in POWER-UP and BOOT and while a reset is held neither does anything; else the boundary and T0 of the cycle that begins are its time, an accepted request to leave CONFIG that still stands leads to JOIN with the link listening, then firmware that runs serves what waited for it; and at CI every feedback channel latches its count, the edges its velocity rests on and whether its period is valid, and the active of a pair sends INC with these inputs, the SDM results and k_m; no other frame is sent then but a FAIL where a check trips. What a request that still stands is the statement takes from the state that the boundary's other effects lead to. -/
def Obligations.BoundaryAndCommonInstant : Prop :=
  ∀ (s : State) (t : Nat),
    (hasBoundaries s = false → (∃ u, exec (.servoPeriodBoundary t) s = .next u ∧ u.now = max s.now t ∧ sameBut [.now] s u) ∧
      ∃ u, exec (.commonInstant t) s = .next u ∧ u.now = max s.now t ∧ sameBut [.now] s u) ∧
    (hasBoundaries s = true →
      (∃ u w, exec (.servoPeriodBoundary t) s = .next u ∧ u = raiseEvent 0 (drainFirmware w) ∧
        (firmwareRuns w = false ∨ w.ks.fwq = [] ∧ w.ks.hpBusy = false → u = raiseEvent 0 w) ∧
        w.now = max s.now t ∧ w.sys.tBoundary = max s.now t ∧ w.lk.t0 = max s.now t ∧ w.pending = s.pending ∧
        (let m := cycleBegins (boundaryNext (boundaryTaken (advance t s) (boundaryPast (advance t s))))
         (m.sys.op = .config → m.sys.joinReq = true → w.sys.op = .join ∧ w.sys.joinReq = false ∧ w.lk.st = .listen) ∧
         (m.sys.op ≠ .config ∨ m.sys.joinReq = false → w.sys.op = m.sys.op ∧ w.lk.st = m.lk.st))) ∧
      (∃ u, exec (.commonInstant t) s = .next u ∧ u.now = max s.now t ∧ u.lk.ci = max s.now t ∧ u.lk.ciSys = sysTime { s with now := max s.now t } ∧
        u.pending = s.pending ∧
        (∀ n : Fin 16, u.fb[n].ciRep = s.fb[n].rep ∧ u.fb[n].rep = s.fb[n].rep ∧ u.fb[n].ciPair = s.fb[n].tPair ∧ u.fb[n].ciPer = s.fb[n].per.isSome) ∧
        (∃ l, (∀ x ∈ l, ∃ c, x = pairFrame u (.pFail c)) ∧
          (onLane s = true → s.pr.active = true → s.sys.op ≠ .join →
            u.lk.sent = s.lk.sent ++ l ++ [pairFrame u (.pInc (ownInc u).1 (ownInc u).2.1 (ownInc u).2.2)]) ∧
          (onLane s = false ∨ s.pr.active = false → u.lk.sent = s.lk.sent ++ l))))

/-- A superseded unit (08 R247): in LEAD, a MARK, a SETP or any pair-lane frame of the partner that carries a newer epoch makes the unit stop transmitting on the link and on the lane, set SUPERSEDED and enter SAFE; RECOVERY, where it stands, is left by a reset only. -/
def Obligations.SupersededUnitStopsAndEntersSafe : Prop :=
  ∀ (s : State) (e : BitVec 16) (cmd : Instr), s.lk.st = .lead → linkCounts s = true → serialNewer 16 e.toNat s.lk.epoch = true →
    ((∃ (p : Fin 4) (m : MarkIn) (t : Nat), portUp s p = true ∧ m.src = partnerAddr s ∧ m.epoch = e ∧ cmd = .markReceived p .ok m t) ∨
      (paired s = true ∧ ∃ (p : Fin 4) (n : LinkAddr) (q : BitVec 32) (recs : List SetpRec) (t : Nat), portUp s p = true ∧
        setpWindow (advance t s) (p.val / 2) = some q.toNat ∧ cmd = .partnerSetpHeard p .ok n q e ⟨recs, t⟩) ∨
      (paired s = true ∧ s.pr.laneUp = true ∧ ((∃ x, cmd = .stateReceived .ok e x) ∨ (∃ x y z, cmd = .incReceived .ok e x y z) ∨
        (∃ x y z, cmd = .inReceived .ok e x y z) ∨ (∃ x y z, cmd = .sigReceived .ok e x y z) ∨ (∃ x, cmd = .dresReceived .ok e x) ∨
        (∃ x, cmd = .bndReceived .ok e x) ∨ (∃ x, cmd = .adoptReceived .ok e x) ∨ (∃ x, cmd = .failReceived .ok e x) ∨
        (∃ x, cmd = .xreqReceived .ok e x) ∨ (∃ x y, cmd = .xackReceived .ok e x y) ∨ ∃ x, cmd = .svcReceived .ok e x))) →
    ∃ u, exec cmd s = .next u ∧ u.lk.st = .off ∧ u.pr.silent = true ∧ onLane u = false ∧ linkOn u = false ∧ u.pr.active = false ∧
      bit (regGet u 0xF30002) 8 = true ∧ (s.sys.op ≠ .recovery → u.sys.op = .safe) ∧ (s.sys.op = .recovery → u.sys.op = .recovery) ∧ u.pending = s.pending ∧ u.mem = s.mem ∧ u.cores = s.cores

/-- Link ports (07 R185): a port is up from the sync acquired to the sync lost; a frame with a code error, and any frame at a port that is not up, is invalid, takes no effect and counts in LK_PORTp_CODECNT, as does a frame that a loss of sync breaks off, in every state of the link. -/
def Obligations.InvalidFramesCountAndPortsFollowSync : Prop :=
  ∀ (s : State) (p : Fin 4) (q : PortId), q.val = p.val →
    (∃ u, exec (.portSyncAcquired q) s = .next u ∧ portUp u p = true ∧ ∀ r : Fin 4, r ≠ p → portUp u r = portUp s r) ∧
    (∀ b : Bool, ∃ u, exec (.linkPortSyncLost q b) s = .next u ∧ portUp u p = false ∧ (∀ r : Fin 4, r ≠ p → portUp u r = portUp s r) ∧
      regGet u (0xF2801C + p.val) = (if b then regGet s (0xF2801C + p.val) + 1 else regGet s (0xF2801C + p.val))) ∧
    (linkCounts s = true → ∀ (k : RxCheck) (cmd : Instr), k = .code ∨ portUp s p = false →
      ((∃ m t, cmd = .markReceived p k m t) ∨ (∃ x y, cmd = .cstartReceived p k x y) ∨ (∃ x, cmd = .uplinkFrame p k x) ∨
        (∃ x y, cmd = .serviceUplink p k x y) ∨ (∃ n q e x, cmd = .partnerSetpHeard p k n q e x)) →
      ∃ u, exec cmd s = .next u ∧ regGet u (0xF2801C + p.val) = regGet s (0xF2801C + p.val) + 1 ∧ u.lk = { s.lk with sent := u.lk.sent, txEnd := u.lk.txEnd } ∧
        sameBut [.now, .lk, .regs, .held, .pc] s u ∧ regsButEvents [0xF2801C + p.val] s u)

/-- NMT services (15 R416): reset-node and reset-communication change nothing but the CANopen layer of their port, so not the part, its motion or its role; NMT stopped halts the PDOs and the heartbeat of its port and changes nothing else. -/
def Obligations.NmtServicesActOnTheirPortOnly : Prop :=
  ∀ (s : State) (c : Fin 2), bitOf s (copAddr c) 19 = true →
    (∀ cmd, (cmd = .nmtResetNode c ∨ cmd = .nmtResetCommunication c) → ∃ u, exec cmd s = .next u ∧
      u.can[c] = { s.can[c] with stopped := false, beats := 0, tpdo := [] } ∧ (∀ d : Fin 2, d ≠ c → u.can[d] = s.can[d]) ∧ sameBut [.can] s u) ∧
    (∃ u, exec (.nmtStopped c) s = .next u ∧ u.can[c] = { s.can[c] with stopped := true } ∧ (∀ d : Fin 2, d ≠ c → u.can[d] = s.can[d]) ∧ sameBut [.can] s u ∧
      exec (.heartbeat c) u = .next u ∧
      (∀ n : Fin 64, pdoPort s (65 + n.val) = c → exec (.tpdoEventTimer n) u = .next u) ∧
      (∀ (n : Fin 64) (data : List Byte), pdoPort s (1 + n.val) = c → exec (.rpdo n data) u = .next u))

/-- The output pins (02 R55; 08 R227; 10 R291, R303; 17 R456; 19 R478; 20 R488, R489): HIGHZ turns every output off; else the safety outputs of a unit that drives none, in SAFE, or of a group in STO are low, those of an energised group conduct but for the switch that a test pulse opens, and a brake shows its condition; a standby leaves the event, repeat, chopper and hold outputs and SDM_CLK high-impedance, and the active unit drives them; a GPIO pin is driven with its output word, or read at its input; and after a reset into POWER-UP, or with RST_N low, the safety outputs are low and every other output is high-impedance, but for HOLD_DIS on and HOLD_CHG off where the flush of L5 ends in a unit that drove them. -/
def Obligations.PinsFollowStateAndRole : Prop :=
  ∀ s : State,
    (s.sys.tap = .highz →
      (∀ g, safeOffP s g = none ∧ safeOffN s g = none) ∧ (∀ n, brkPin s n = none) ∧ (∀ o, evoPin s o = none) ∧ (∀ m, fboPins s m = none) ∧
      chopPin s = none ∧ holdDisPin s = none ∧ holdChgPin s = none ∧ sdmClkDriven s = false ∧ canTxDriven s = false ∧
      (∀ p, gpioPin s p = none) ∧ hpIrqPin s = none) ∧
    (s.sys.tap ≠ .highz →
      (∀ g : Fin 4,
        (drivesOutputs s = false ∨ s.sys.op = .safe ∨ s.gh.grp[g].cond = .sto ∨ s.gh.refreshLost = true → safeOffP s g = some false ∧ safeOffN s g = some false) ∧
        (drivesOutputs s = true → s.sys.op ≠ .safe → s.gh.grp[g].cond ≠ .sto → s.gh.refreshLost = false →
          safeOffP s g = some (s.gh.grp[g].pulse != 1) ∧ safeOffN s g = some (s.gh.grp[g].pulse != 2))) ∧
      (∀ n : Fin 8, brkPin s n = some (s.gh.brk.getLsbD n.val)) ∧
      (isStandby s = true → paired s = true → s.ph.l5 = false → (∀ o, evoPin s o = none) ∧ (∀ m, fboPins s m = none) ∧ chopPin s = none ∧
        holdDisPin s = none ∧ holdChgPin s = none ∧ sdmClkDriven s = false) ∧
      (s.sys.op = .runActive → s.pr.active = true → s.pr.silent = false → s.sys.rstHeld = false → s.ph.l5 = false →
        (∀ o : Fin 16, evoPin s o = some (s.sd.evo.getLsbD o.val)) ∧ (∀ m, fboPins s m ≠ none) ∧ chopPin s = some s.ph.chop ∧
        holdDisPin s = some s.ph.holdDis ∧ holdChgPin s = some s.ph.holdChg ∧ sdmClkDriven s = true) ∧
      (∀ p : Fin 32, (gpioDriven s p.val = true → gpioPin s p = some (bitOf s (0xF5C002 + p.val / 16) (p.val % 16))) ∧
        (gpioDriven s p.val = false → gpioPin s p = none ∧ gpioLevel s p.val = s.sys.gpio.getLsbD p.val)) ∧
      (nvReach s = true → canTxDriven s = true ∧ (hpIrqPin s = some false ↔ bitOf s 0xF48018 18 = true ∧ bitOf s 0xF48018 17 = true))) ∧
    (∀ cmd : Instr, (cmd = .porstNLow ∨ cmd = .railPowerOnReset ∨ cmd = .rstNReset ∧ s.sys.op ≠ .powerUp ∧ s.ph.l5 = false ∨
        cmd = .flushComplete ∧ s.ph.l5 = true ∧ s.ph.flushed = false) →
      ∃ u, exec cmd s = .next u ∧ (u.sys.tap ≠ .highz) ∧ (∀ g, safeOffP u g = some false ∧ safeOffN u g = some false) ∧ (∀ n, brkPin u n = some false) ∧
        (∀ o, evoPin u o = none) ∧ (∀ m, fboPins u m = none) ∧ chopPin u = none ∧ sdmClkDriven u = false ∧ canTxDriven u = false ∧
        (∀ p, gpioPin u p = none) ∧ hpIrqPin u = none ∧
        (holdDisPin u = if cmd = .flushComplete ∧ s.ph.holdDis = true then some true else none) ∧
        (holdChgPin u = if cmd = .flushComplete ∧ s.ph.holdDis = true then some false else none))

/-- The queue: a step takes the command at the front and is its effect on the state with the rest of the queue; with nothing waiting the part idles (the model's choice, log entry 1); no word spells a command, since the table gives no bits. -/
def Obligations.StepTakesTheFrontCommand : Prop :=
  (∀ (c : Instr) (l : List Instr) (s : State), step { s with pending := c :: l } = exec c { s with pending := l }) ∧
  (∀ s : State, s.pending = [] → step s = .next s) ∧
  ∀ (s : State) (n w : Nat), decodeTableWord n w = none ∧ s.withFetchWord n w = s

/-- The part after power application (17 R442; 19 R468, R471, R494): BOOT step 1 by a rail power-on reset, every register at the reset value of its row and none with a write waiting, no command waiting, the cores halted and every memory empty in its canonical form. On-chip memory is cleared to zero (19 R468). That the part is met after power application, that MRAM never written reads 00000h, and a reset value that the row of a register does not give are the model's choices (log entries 7 and 49). -/
def Obligations.ResetLeavesTheResetValues : Prop :=
  State.reset.canonical = true ∧ State.reset.pending = [] ∧ State.reset.held = [] ∧ State.reset.sys.op = .boot ∧ State.reset.sys.step = 1 ∧
    fld (regGet State.reset 0xF54004) 19 16 = 2 ∧
    (∀ a, canonAddr a ≠ 0xF54004 → regGet State.reset a = resetWord a) ∧
    (∀ a r f, rowOf a = some r → canonAddr a ≠ 0xF54004 → f ∈ r.fields → fld (regGet State.reset a) f.hi f.lo = f.reset) ∧
    (∀ c : CoreId, coreRunning State.reset.cores[c] = false) ∧ (∀ a, mramGet State.reset a = 0) ∧
    (∀ g : Fin 4, State.reset.gh.grp[g].cond = .sto) ∧ State.reset.pr.active = false ∧ State.reset.lk.st = .off

/-- Every command completes, and none but a step touches the queue: each answers a next state that keeps the commands waiting, but for a maker's private TAP instruction in TEST, of which the spec says no effect. -/
def Obligations.EveryCommandCompletesAndKeepsTheQueue : Prop :=
  ∀ (c : Instr) (s : State), ¬(c = .tapInstruction .makers ∧ s.sys.op = .test) → ∃ u, exec c s = .next u ∧ u.pending = s.pending

/-- The canonical form is kept: whatever the command, a step from a state whose register file and memories list strictly rising addresses, none at what an unlisted address reads as, leads to such a state. -/
def Obligations.EveryStepKeepsTheCanonicalForm : Prop :=
  ∀ s t : State, s.canonical = true → step s = .next t → t.canonical = true
end

