-- ==== Sys2Proof/Laws/Bits.lean ====
section
/-! SUPPORT. Bit fields: a field read after it is replaced, and fields apart from it. -/

namespace Sys2Proof.Machine

theorem natSetFld_lt {w hi lo v n : Nat} (hw : w < 2 ^ n) (hl : lo ≤ hi) (hh : hi < n) : natSetFld w hi lo v < 2 ^ n := by
  have h1 : v % 2 ^ (hi + 1 - lo) * 2 ^ lo + w % 2 ^ lo < 2 ^ (hi + 1) := by
    have e : (2 : Nat) ^ (hi + 1) = 2 ^ (hi + 1 - lo) * 2 ^ lo := by rw [← pow_add]; congr 1; omega
    have hv : v % 2 ^ (hi + 1 - lo) + 1 ≤ 2 ^ (hi + 1 - lo) := Nat.mod_lt _ (by positivity)
    have hm : w % 2 ^ lo < 2 ^ lo := Nat.mod_lt _ (by positivity)
    calc _ < v % 2 ^ (hi + 1 - lo) * 2 ^ lo + 2 ^ lo := Nat.add_lt_add_left hm _
      _ = (v % 2 ^ (hi + 1 - lo) + 1) * 2 ^ lo := by ring
      _ ≤ _ := by rw [e]; exact Nat.mul_le_mul_right _ hv
  have h2 : w / 2 ^ (hi + 1) < 2 ^ (n - (hi + 1)) := by
    apply Nat.div_lt_of_lt_mul; rw [← pow_add]; convert hw using 2; omega
  have e : (2 : Nat) ^ n = 2 ^ (n - (hi + 1)) * 2 ^ (hi + 1) := by rw [← pow_add]; congr 1; omega
  have h3 : w / 2 ^ (hi + 1) + 1 ≤ 2 ^ (n - (hi + 1)) := h2
  unfold natSetFld
  calc _ = w / 2 ^ (hi + 1) * 2 ^ (hi + 1) + (v % 2 ^ (hi + 1 - lo) * 2 ^ lo + w % 2 ^ lo) := by ring
    _ < w / 2 ^ (hi + 1) * 2 ^ (hi + 1) + 2 ^ (hi + 1) := Nat.add_lt_add_left h1 _
    _ = (w / 2 ^ (hi + 1) + 1) * 2 ^ (hi + 1) := by ring
    _ ≤ _ := by rw [e]; exact Nat.mul_le_mul_right _ h3

theorem toNat_setFld (w : Word) {hi lo : Nat} (v : Nat) (hl : lo ≤ hi) (hh : hi < 20) :
    (setFld w hi lo v).toNat = natSetFld w.toNat hi lo v := by
  unfold setFld word
  rw [BitVec.toNat_ofNat, Nat.mod_eq_of_lt (natSetFld_lt w.isLt hl hh)]

/-- The bits of a number with a field replaced. -/
theorem testBit_natSetFld (w : Nat) {hi lo : Nat} (v : Nat) (hl : lo ≤ hi) (i : Nat) :
    (natSetFld w hi lo v).testBit i = if lo ≤ i ∧ i ≤ hi then v.testBit (i - lo) else w.testBit i := by
  have e : natSetFld w hi lo v = 2 ^ lo * (2 ^ (hi + 1 - lo) * (w / 2 ^ (hi + 1)) + v % 2 ^ (hi + 1 - lo)) + w % 2 ^ lo := by
    have : (2 : Nat) ^ (hi + 1) = 2 ^ lo * 2 ^ (hi + 1 - lo) := by rw [← pow_add]; congr 1; omega
    unfold natSetFld
    rw [Nat.mul_comm (w / 2 ^ (hi + 1))]
    conv_lhs => rw [show (2 : Nat) ^ (hi + 1) * (w / 2 ^ (hi + 1)) = 2 ^ lo * 2 ^ (hi + 1 - lo) * (w / 2 ^ (hi + 1)) by rw [← this]]
    ring
  rw [e, Nat.testBit_two_pow_mul_add _ (Nat.mod_lt _ (by positivity))]
  by_cases h1 : i < lo
  · simp [h1, Nat.testBit_mod_two_pow, show ¬(lo ≤ i ∧ i ≤ hi) by omega]
  · rw [if_neg h1, Nat.testBit_two_pow_mul_add _ (Nat.mod_lt _ (by positivity))]
    by_cases h2 : i ≤ hi
    · rw [if_pos (by omega), if_pos ⟨by omega, h2⟩, Nat.testBit_mod_two_pow, decide_eq_true (by omega)]; simp
    · rw [if_neg (by omega), if_neg (by omega), Nat.testBit_div_two_pow]; congr 1; omega

theorem fld_eq_iff (w w' : Word) (hi lo hi' lo' : Nat) (hl : hi + 1 - lo = hi' + 1 - lo')
    (h : ∀ i < hi + 1 - lo, w.toNat.testBit (lo + i) = w'.toNat.testBit (lo' + i)) : fld w hi lo = fld w' hi' lo' := by
  unfold fld
  apply Nat.eq_of_testBit_eq
  intro i
  rw [← hl]
  simp only [Nat.testBit_mod_two_pow, Nat.testBit_div_two_pow]
  by_cases hi' : i < hi + 1 - lo
  · simp [hi', h i hi', Nat.add_comm i]
  · simp [hi']

/-- A field reads back what was put into it. -/
theorem fld_setFld_same (w : Word) {hi lo : Nat} (v : Nat) (hl : lo ≤ hi) (hh : hi < 20) :
    fld (setFld w hi lo v) hi lo = v % 2 ^ (hi + 1 - lo) := by
  unfold fld
  rw [toNat_setFld w v hl hh]
  apply Nat.eq_of_testBit_eq
  intro i
  simp only [Nat.testBit_mod_two_pow, Nat.testBit_div_two_pow, testBit_natSetFld _ _ hl]
  by_cases h : i < hi + 1 - lo
  · simp [h, show lo ≤ i + lo ∧ i + lo ≤ hi by omega]
  · simp [h]

/-- A field apart from the one replaced keeps its value. -/
theorem fld_setFld_other (w : Word) {hi lo hi' lo' : Nat} (v : Nat) (hl : lo ≤ hi) (hh : hi < 20) (hd : hi' < lo ∨ hi < lo') :
    fld (setFld w hi lo v) hi' lo' = fld w hi' lo' := by
  apply fld_eq_iff _ _ _ _ _ _ rfl
  intro i hi1
  rw [toNat_setFld w v hl hh, testBit_natSetFld _ _ hl, if_neg (by omega)]

theorem bit_eq_testBit (w : Word) (n : Nat) : bit w n = w.toNat.testBit n := by
  simp [bit, Nat.testBit, Nat.shiftRight_eq_div_pow]

/-- A bit reads back what was put into it. -/
theorem bit_setBit_same (w : Word) {n : Nat} (b : Bool) (h : n < 20) : bit (setBit w n b) n = b := by
  rw [bit_eq_testBit, setBit, toNat_setFld _ _ le_rfl h, testBit_natSetFld _ _ le_rfl]
  cases b <;> simp

theorem bit_setFld_other (w : Word) {hi lo n : Nat} (v : Nat) (hl : lo ≤ hi) (hh : hi < 20) (hd : n < lo ∨ hi < n) :
    bit (setFld w hi lo v) n = bit w n := by
  rw [bit_eq_testBit, bit_eq_testBit, toNat_setFld _ _ hl hh, testBit_natSetFld _ _ hl, if_neg (by omega)]

theorem bit_setBit_other (w : Word) {n m : Nat} (b : Bool) (h : n < 20) (hd : m ≠ n) : bit (setBit w n b) m = bit w m :=
  bit_setFld_other w _ le_rfl h (by omega)

theorem fld_setBit_other (w : Word) {n hi lo : Nat} (b : Bool) (h : n < 20) (hd : hi < n ∨ n < lo) :
    fld (setBit w n b) hi lo = fld w hi lo :=
  fld_setFld_other w _ le_rfl h hd

theorem toNat_word (n : Nat) : (word n).toNat = n % 2 ^ 20 := BitVec.toNat_ofNat ..

end Sys2Proof.Machine
end

