-- ==== Sys2Proof/Laws/State.lean ====
section
/-! SUPPORT. What each update of the state leaves alone: one lemma per field per update. -/

namespace Sys2Proof.Machine

variable (s : State)

@[simp] theorem regSet_pending (a : Nat) (w : Word) : (regSet a w s).pending = s.pending := (rfl)
@[simp] theorem regSet_now (a : Nat) (w : Word) : (regSet a w s).now = s.now := (rfl)
@[simp] theorem regSet_freeCtr (a : Nat) (w : Word) : (regSet a w s).freeCtr = s.freeCtr := (rfl)
@[simp] theorem regSet_sys (a : Nat) (w : Word) : (regSet a w s).sys = s.sys := (rfl)
@[simp] theorem regSet_held (a : Nat) (w : Word) : (regSet a w s).held = s.held := (rfl)
@[simp] theorem regSet_mem (a : Nat) (w : Word) : (regSet a w s).mem = s.mem := (rfl)
@[simp] theorem regSet_cores (a : Nat) (w : Word) : (regSet a w s).cores = s.cores := (rfl)
@[simp] theorem regSet_pg (a : Nat) (w : Word) : (regSet a w s).pg = s.pg := (rfl)
@[simp] theorem regSet_sd (a : Nat) (w : Word) : (regSet a w s).sd = s.sd := (rfl)
@[simp] theorem regSet_mains (a : Nat) (w : Word) : (regSet a w s).mains = s.mains := (rfl)
@[simp] theorem regSet_fb (a : Nat) (w : Word) : (regSet a w s).fb = s.fb := (rfl)
@[simp] theorem regSet_fbo (a : Nat) (w : Word) : (regSet a w s).fbo = s.fbo := (rfl)
@[simp] theorem regSet_mo (a : Nat) (w : Word) : (regSet a w s).mo = s.mo := (rfl)
@[simp] theorem regSet_sv (a : Nat) (w : Word) : (regSet a w s).sv = s.sv := (rfl)
@[simp] theorem regSet_bv (a : Nat) (w : Word) : (regSet a w s).bv = s.bv := (rfl)
@[simp] theorem regSet_lk (a : Nat) (w : Word) : (regSet a w s).lk = s.lk := (rfl)
@[simp] theorem regSet_time (a : Nat) (w : Word) : (regSet a w s).time = s.time := (rfl)
@[simp] theorem regSet_pr (a : Nat) (w : Word) : (regSet a w s).pr = s.pr := (rfl)
@[simp] theorem regSet_gh (a : Nat) (w : Word) : (regSet a w s).gh = s.gh := (rfl)
@[simp] theorem regSet_ph (a : Nat) (w : Word) : (regSet a w s).ph = s.ph := (rfl)
@[simp] theorem regSet_can (a : Nat) (w : Word) : (regSet a w s).can = s.can := (rfl)
@[simp] theorem regSet_ks (a : Nat) (w : Word) : (regSet a w s).ks = s.ks := (rfl)
@[simp] theorem regSet_pc (a : Nat) (w : Word) : (regSet a w s).pc = s.pc := (rfl)

@[simp] theorem hwMod_pending (a : Nat) (f : Word → Word) : (hwMod a f s).pending = s.pending := (rfl)
@[simp] theorem hwMod_now (a : Nat) (f : Word → Word) : (hwMod a f s).now = s.now := (rfl)
@[simp] theorem hwMod_freeCtr (a : Nat) (f : Word → Word) : (hwMod a f s).freeCtr = s.freeCtr := (rfl)
@[simp] theorem hwMod_sys (a : Nat) (f : Word → Word) : (hwMod a f s).sys = s.sys := (rfl)
@[simp] theorem hwMod_mem (a : Nat) (f : Word → Word) : (hwMod a f s).mem = s.mem := (rfl)
@[simp] theorem hwMod_cores (a : Nat) (f : Word → Word) : (hwMod a f s).cores = s.cores := (rfl)
@[simp] theorem hwMod_pg (a : Nat) (f : Word → Word) : (hwMod a f s).pg = s.pg := (rfl)
@[simp] theorem hwMod_sd (a : Nat) (f : Word → Word) : (hwMod a f s).sd = s.sd := (rfl)
@[simp] theorem hwMod_mains (a : Nat) (f : Word → Word) : (hwMod a f s).mains = s.mains := (rfl)
@[simp] theorem hwMod_fb (a : Nat) (f : Word → Word) : (hwMod a f s).fb = s.fb := (rfl)
@[simp] theorem hwMod_fbo (a : Nat) (f : Word → Word) : (hwMod a f s).fbo = s.fbo := (rfl)
@[simp] theorem hwMod_mo (a : Nat) (f : Word → Word) : (hwMod a f s).mo = s.mo := (rfl)
@[simp] theorem hwMod_sv (a : Nat) (f : Word → Word) : (hwMod a f s).sv = s.sv := (rfl)
@[simp] theorem hwMod_bv (a : Nat) (f : Word → Word) : (hwMod a f s).bv = s.bv := (rfl)
@[simp] theorem hwMod_lk (a : Nat) (f : Word → Word) : (hwMod a f s).lk = s.lk := (rfl)
@[simp] theorem hwMod_time (a : Nat) (f : Word → Word) : (hwMod a f s).time = s.time := (rfl)
@[simp] theorem hwMod_pr (a : Nat) (f : Word → Word) : (hwMod a f s).pr = s.pr := (rfl)
@[simp] theorem hwMod_gh (a : Nat) (f : Word → Word) : (hwMod a f s).gh = s.gh := (rfl)
@[simp] theorem hwMod_ph (a : Nat) (f : Word → Word) : (hwMod a f s).ph = s.ph := (rfl)
@[simp] theorem hwMod_can (a : Nat) (f : Word → Word) : (hwMod a f s).can = s.can := (rfl)
@[simp] theorem hwMod_ks (a : Nat) (f : Word → Word) : (hwMod a f s).ks = s.ks := (rfl)
@[simp] theorem hwMod_pc (a : Nat) (f : Word → Word) : (hwMod a f s).pc = s.pc := (rfl)

@[simp] theorem putFld_pending (a hi lo v : Nat) : (putFld a hi lo v s).pending = s.pending := (rfl)
@[simp] theorem putFld_now (a hi lo v : Nat) : (putFld a hi lo v s).now = s.now := (rfl)
@[simp] theorem putFld_freeCtr (a hi lo v : Nat) : (putFld a hi lo v s).freeCtr = s.freeCtr := (rfl)
@[simp] theorem putFld_sys (a hi lo v : Nat) : (putFld a hi lo v s).sys = s.sys := (rfl)
@[simp] theorem putFld_mem (a hi lo v : Nat) : (putFld a hi lo v s).mem = s.mem := (rfl)
@[simp] theorem putFld_cores (a hi lo v : Nat) : (putFld a hi lo v s).cores = s.cores := (rfl)
@[simp] theorem putFld_pg (a hi lo v : Nat) : (putFld a hi lo v s).pg = s.pg := (rfl)
@[simp] theorem putFld_sd (a hi lo v : Nat) : (putFld a hi lo v s).sd = s.sd := (rfl)
@[simp] theorem putFld_mains (a hi lo v : Nat) : (putFld a hi lo v s).mains = s.mains := (rfl)
@[simp] theorem putFld_fb (a hi lo v : Nat) : (putFld a hi lo v s).fb = s.fb := (rfl)
@[simp] theorem putFld_fbo (a hi lo v : Nat) : (putFld a hi lo v s).fbo = s.fbo := (rfl)
@[simp] theorem putFld_mo (a hi lo v : Nat) : (putFld a hi lo v s).mo = s.mo := (rfl)
@[simp] theorem putFld_sv (a hi lo v : Nat) : (putFld a hi lo v s).sv = s.sv := (rfl)
@[simp] theorem putFld_bv (a hi lo v : Nat) : (putFld a hi lo v s).bv = s.bv := (rfl)
@[simp] theorem putFld_lk (a hi lo v : Nat) : (putFld a hi lo v s).lk = s.lk := (rfl)
@[simp] theorem putFld_time (a hi lo v : Nat) : (putFld a hi lo v s).time = s.time := (rfl)
@[simp] theorem putFld_pr (a hi lo v : Nat) : (putFld a hi lo v s).pr = s.pr := (rfl)
@[simp] theorem putFld_gh (a hi lo v : Nat) : (putFld a hi lo v s).gh = s.gh := (rfl)
@[simp] theorem putFld_ph (a hi lo v : Nat) : (putFld a hi lo v s).ph = s.ph := (rfl)
@[simp] theorem putFld_can (a hi lo v : Nat) : (putFld a hi lo v s).can = s.can := (rfl)
@[simp] theorem putFld_ks (a hi lo v : Nat) : (putFld a hi lo v s).ks = s.ks := (rfl)
@[simp] theorem putFld_pc (a hi lo v : Nat) : (putFld a hi lo v s).pc = s.pc := (rfl)

@[simp] theorem putBit_pending (a n : Nat) (b : Bool) : (putBit a n b s).pending = s.pending := (rfl)
@[simp] theorem putBit_now (a n : Nat) (b : Bool) : (putBit a n b s).now = s.now := (rfl)
@[simp] theorem putBit_freeCtr (a n : Nat) (b : Bool) : (putBit a n b s).freeCtr = s.freeCtr := (rfl)
@[simp] theorem putBit_sys (a n : Nat) (b : Bool) : (putBit a n b s).sys = s.sys := (rfl)
@[simp] theorem putBit_mem (a n : Nat) (b : Bool) : (putBit a n b s).mem = s.mem := (rfl)
@[simp] theorem putBit_cores (a n : Nat) (b : Bool) : (putBit a n b s).cores = s.cores := (rfl)
@[simp] theorem putBit_pg (a n : Nat) (b : Bool) : (putBit a n b s).pg = s.pg := (rfl)
@[simp] theorem putBit_sd (a n : Nat) (b : Bool) : (putBit a n b s).sd = s.sd := (rfl)
@[simp] theorem putBit_mains (a n : Nat) (b : Bool) : (putBit a n b s).mains = s.mains := (rfl)
@[simp] theorem putBit_fb (a n : Nat) (b : Bool) : (putBit a n b s).fb = s.fb := (rfl)
@[simp] theorem putBit_fbo (a n : Nat) (b : Bool) : (putBit a n b s).fbo = s.fbo := (rfl)
@[simp] theorem putBit_mo (a n : Nat) (b : Bool) : (putBit a n b s).mo = s.mo := (rfl)
@[simp] theorem putBit_sv (a n : Nat) (b : Bool) : (putBit a n b s).sv = s.sv := (rfl)
@[simp] theorem putBit_bv (a n : Nat) (b : Bool) : (putBit a n b s).bv = s.bv := (rfl)
@[simp] theorem putBit_lk (a n : Nat) (b : Bool) : (putBit a n b s).lk = s.lk := (rfl)
@[simp] theorem putBit_time (a n : Nat) (b : Bool) : (putBit a n b s).time = s.time := (rfl)
@[simp] theorem putBit_pr (a n : Nat) (b : Bool) : (putBit a n b s).pr = s.pr := (rfl)
@[simp] theorem putBit_gh (a n : Nat) (b : Bool) : (putBit a n b s).gh = s.gh := (rfl)
@[simp] theorem putBit_ph (a n : Nat) (b : Bool) : (putBit a n b s).ph = s.ph := (rfl)
@[simp] theorem putBit_can (a n : Nat) (b : Bool) : (putBit a n b s).can = s.can := (rfl)
@[simp] theorem putBit_ks (a n : Nat) (b : Bool) : (putBit a n b s).ks = s.ks := (rfl)
@[simp] theorem putBit_pc (a n : Nat) (b : Bool) : (putBit a n b s).pc = s.pc := (rfl)

@[simp] theorem putWord_pending (a : Nat) (w : Word) : (putWord a w s).pending = s.pending := (rfl)
@[simp] theorem putWord_now (a : Nat) (w : Word) : (putWord a w s).now = s.now := (rfl)
@[simp] theorem putWord_freeCtr (a : Nat) (w : Word) : (putWord a w s).freeCtr = s.freeCtr := (rfl)
@[simp] theorem putWord_sys (a : Nat) (w : Word) : (putWord a w s).sys = s.sys := (rfl)
@[simp] theorem putWord_mem (a : Nat) (w : Word) : (putWord a w s).mem = s.mem := (rfl)
@[simp] theorem putWord_cores (a : Nat) (w : Word) : (putWord a w s).cores = s.cores := (rfl)
@[simp] theorem putWord_pg (a : Nat) (w : Word) : (putWord a w s).pg = s.pg := (rfl)
@[simp] theorem putWord_sd (a : Nat) (w : Word) : (putWord a w s).sd = s.sd := (rfl)
@[simp] theorem putWord_mains (a : Nat) (w : Word) : (putWord a w s).mains = s.mains := (rfl)
@[simp] theorem putWord_fb (a : Nat) (w : Word) : (putWord a w s).fb = s.fb := (rfl)
@[simp] theorem putWord_fbo (a : Nat) (w : Word) : (putWord a w s).fbo = s.fbo := (rfl)
@[simp] theorem putWord_mo (a : Nat) (w : Word) : (putWord a w s).mo = s.mo := (rfl)
@[simp] theorem putWord_sv (a : Nat) (w : Word) : (putWord a w s).sv = s.sv := (rfl)
@[simp] theorem putWord_bv (a : Nat) (w : Word) : (putWord a w s).bv = s.bv := (rfl)
@[simp] theorem putWord_lk (a : Nat) (w : Word) : (putWord a w s).lk = s.lk := (rfl)
@[simp] theorem putWord_time (a : Nat) (w : Word) : (putWord a w s).time = s.time := (rfl)
@[simp] theorem putWord_pr (a : Nat) (w : Word) : (putWord a w s).pr = s.pr := (rfl)
@[simp] theorem putWord_gh (a : Nat) (w : Word) : (putWord a w s).gh = s.gh := (rfl)
@[simp] theorem putWord_ph (a : Nat) (w : Word) : (putWord a w s).ph = s.ph := (rfl)
@[simp] theorem putWord_can (a : Nat) (w : Word) : (putWord a w s).can = s.can := (rfl)
@[simp] theorem putWord_ks (a : Nat) (w : Word) : (putWord a w s).ks = s.ks := (rfl)
@[simp] theorem putWord_pc (a : Nat) (w : Word) : (putWord a w s).pc = s.pc := (rfl)

@[simp] theorem countBy_pending (a n : Nat) : (countBy a n s).pending = s.pending := (rfl)
@[simp] theorem countBy_now (a n : Nat) : (countBy a n s).now = s.now := (rfl)
@[simp] theorem countBy_freeCtr (a n : Nat) : (countBy a n s).freeCtr = s.freeCtr := (rfl)
@[simp] theorem countBy_sys (a n : Nat) : (countBy a n s).sys = s.sys := (rfl)
@[simp] theorem countBy_mem (a n : Nat) : (countBy a n s).mem = s.mem := (rfl)
@[simp] theorem countBy_cores (a n : Nat) : (countBy a n s).cores = s.cores := (rfl)
@[simp] theorem countBy_pg (a n : Nat) : (countBy a n s).pg = s.pg := (rfl)
@[simp] theorem countBy_sd (a n : Nat) : (countBy a n s).sd = s.sd := (rfl)
@[simp] theorem countBy_mains (a n : Nat) : (countBy a n s).mains = s.mains := (rfl)
@[simp] theorem countBy_fb (a n : Nat) : (countBy a n s).fb = s.fb := (rfl)
@[simp] theorem countBy_fbo (a n : Nat) : (countBy a n s).fbo = s.fbo := (rfl)
@[simp] theorem countBy_mo (a n : Nat) : (countBy a n s).mo = s.mo := (rfl)
@[simp] theorem countBy_sv (a n : Nat) : (countBy a n s).sv = s.sv := (rfl)
@[simp] theorem countBy_bv (a n : Nat) : (countBy a n s).bv = s.bv := (rfl)
@[simp] theorem countBy_lk (a n : Nat) : (countBy a n s).lk = s.lk := (rfl)
@[simp] theorem countBy_time (a n : Nat) : (countBy a n s).time = s.time := (rfl)
@[simp] theorem countBy_pr (a n : Nat) : (countBy a n s).pr = s.pr := (rfl)
@[simp] theorem countBy_gh (a n : Nat) : (countBy a n s).gh = s.gh := (rfl)
@[simp] theorem countBy_ph (a n : Nat) : (countBy a n s).ph = s.ph := (rfl)
@[simp] theorem countBy_can (a n : Nat) : (countBy a n s).can = s.can := (rfl)
@[simp] theorem countBy_ks (a n : Nat) : (countBy a n s).ks = s.ks := (rfl)
@[simp] theorem countBy_pc (a n : Nat) : (countBy a n s).pc = s.pc := (rfl)

@[simp] theorem count_pending (a : Nat) : (count a s).pending = s.pending := (rfl)
@[simp] theorem count_now (a : Nat) : (count a s).now = s.now := (rfl)
@[simp] theorem count_freeCtr (a : Nat) : (count a s).freeCtr = s.freeCtr := (rfl)
@[simp] theorem count_sys (a : Nat) : (count a s).sys = s.sys := (rfl)
@[simp] theorem count_mem (a : Nat) : (count a s).mem = s.mem := (rfl)
@[simp] theorem count_cores (a : Nat) : (count a s).cores = s.cores := (rfl)
@[simp] theorem count_pg (a : Nat) : (count a s).pg = s.pg := (rfl)
@[simp] theorem count_sd (a : Nat) : (count a s).sd = s.sd := (rfl)
@[simp] theorem count_mains (a : Nat) : (count a s).mains = s.mains := (rfl)
@[simp] theorem count_fb (a : Nat) : (count a s).fb = s.fb := (rfl)
@[simp] theorem count_fbo (a : Nat) : (count a s).fbo = s.fbo := (rfl)
@[simp] theorem count_mo (a : Nat) : (count a s).mo = s.mo := (rfl)
@[simp] theorem count_sv (a : Nat) : (count a s).sv = s.sv := (rfl)
@[simp] theorem count_bv (a : Nat) : (count a s).bv = s.bv := (rfl)
@[simp] theorem count_lk (a : Nat) : (count a s).lk = s.lk := (rfl)
@[simp] theorem count_time (a : Nat) : (count a s).time = s.time := (rfl)
@[simp] theorem count_pr (a : Nat) : (count a s).pr = s.pr := (rfl)
@[simp] theorem count_gh (a : Nat) : (count a s).gh = s.gh := (rfl)
@[simp] theorem count_ph (a : Nat) : (count a s).ph = s.ph := (rfl)
@[simp] theorem count_can (a : Nat) : (count a s).can = s.can := (rfl)
@[simp] theorem count_ks (a : Nat) : (count a s).ks = s.ks := (rfl)
@[simp] theorem count_pc (a : Nat) : (count a s).pc = s.pc := (rfl)

@[simp] theorem putPair_pending (a n : Nat) : (putPair a n s).pending = s.pending := by simp only [putPair, putWord_pending]
@[simp] theorem putPair_now (a n : Nat) : (putPair a n s).now = s.now := by simp only [putPair, putWord_now]
@[simp] theorem putPair_freeCtr (a n : Nat) : (putPair a n s).freeCtr = s.freeCtr := by simp only [putPair, putWord_freeCtr]
@[simp] theorem putPair_sys (a n : Nat) : (putPair a n s).sys = s.sys := by simp only [putPair, putWord_sys]
@[simp] theorem putPair_mem (a n : Nat) : (putPair a n s).mem = s.mem := by simp only [putPair, putWord_mem]
@[simp] theorem putPair_cores (a n : Nat) : (putPair a n s).cores = s.cores := by simp only [putPair, putWord_cores]
@[simp] theorem putPair_pg (a n : Nat) : (putPair a n s).pg = s.pg := by simp only [putPair, putWord_pg]
@[simp] theorem putPair_sd (a n : Nat) : (putPair a n s).sd = s.sd := by simp only [putPair, putWord_sd]
@[simp] theorem putPair_mains (a n : Nat) : (putPair a n s).mains = s.mains := by simp only [putPair, putWord_mains]
@[simp] theorem putPair_fb (a n : Nat) : (putPair a n s).fb = s.fb := by simp only [putPair, putWord_fb]
@[simp] theorem putPair_fbo (a n : Nat) : (putPair a n s).fbo = s.fbo := by simp only [putPair, putWord_fbo]
@[simp] theorem putPair_mo (a n : Nat) : (putPair a n s).mo = s.mo := by simp only [putPair, putWord_mo]
@[simp] theorem putPair_sv (a n : Nat) : (putPair a n s).sv = s.sv := by simp only [putPair, putWord_sv]
@[simp] theorem putPair_bv (a n : Nat) : (putPair a n s).bv = s.bv := by simp only [putPair, putWord_bv]
@[simp] theorem putPair_lk (a n : Nat) : (putPair a n s).lk = s.lk := by simp only [putPair, putWord_lk]
@[simp] theorem putPair_time (a n : Nat) : (putPair a n s).time = s.time := by simp only [putPair, putWord_time]
@[simp] theorem putPair_pr (a n : Nat) : (putPair a n s).pr = s.pr := by simp only [putPair, putWord_pr]
@[simp] theorem putPair_gh (a n : Nat) : (putPair a n s).gh = s.gh := by simp only [putPair, putWord_gh]
@[simp] theorem putPair_ph (a n : Nat) : (putPair a n s).ph = s.ph := by simp only [putPair, putWord_ph]
@[simp] theorem putPair_can (a n : Nat) : (putPair a n s).can = s.can := by simp only [putPair, putWord_can]
@[simp] theorem putPair_ks (a n : Nat) : (putPair a n s).ks = s.ks := by simp only [putPair, putWord_ks]
@[simp] theorem putPair_pc (a n : Nat) : (putPair a n s).pc = s.pc := by simp only [putPair, putWord_pc]

theorem stageReg_eq (a : Nat) (w : Word) : stageReg a w s =
    if (lookupNat s.held (canonAddr a)).isSome then regSet a w s
    else { regSet a w s with held := (regSet a w s).held ++ [(canonAddr a, inForce s a)] } := rfl

@[simp] theorem stageReg_pending (a : Nat) (w : Word) : (stageReg a w s).pending = s.pending := by rw [stageReg_eq]; split <;> simp only [regSet_pending]
@[simp] theorem stageReg_now (a : Nat) (w : Word) : (stageReg a w s).now = s.now := by rw [stageReg_eq]; split <;> simp only [regSet_now]
@[simp] theorem stageReg_freeCtr (a : Nat) (w : Word) : (stageReg a w s).freeCtr = s.freeCtr := by rw [stageReg_eq]; split <;> simp only [regSet_freeCtr]
@[simp] theorem stageReg_sys (a : Nat) (w : Word) : (stageReg a w s).sys = s.sys := by rw [stageReg_eq]; split <;> simp only [regSet_sys]
@[simp] theorem stageReg_mem (a : Nat) (w : Word) : (stageReg a w s).mem = s.mem := by rw [stageReg_eq]; split <;> simp only [regSet_mem]
@[simp] theorem stageReg_cores (a : Nat) (w : Word) : (stageReg a w s).cores = s.cores := by rw [stageReg_eq]; split <;> simp only [regSet_cores]
@[simp] theorem stageReg_pg (a : Nat) (w : Word) : (stageReg a w s).pg = s.pg := by rw [stageReg_eq]; split <;> simp only [regSet_pg]
@[simp] theorem stageReg_sd (a : Nat) (w : Word) : (stageReg a w s).sd = s.sd := by rw [stageReg_eq]; split <;> simp only [regSet_sd]
@[simp] theorem stageReg_mains (a : Nat) (w : Word) : (stageReg a w s).mains = s.mains := by rw [stageReg_eq]; split <;> simp only [regSet_mains]
@[simp] theorem stageReg_fb (a : Nat) (w : Word) : (stageReg a w s).fb = s.fb := by rw [stageReg_eq]; split <;> simp only [regSet_fb]
@[simp] theorem stageReg_fbo (a : Nat) (w : Word) : (stageReg a w s).fbo = s.fbo := by rw [stageReg_eq]; split <;> simp only [regSet_fbo]
@[simp] theorem stageReg_mo (a : Nat) (w : Word) : (stageReg a w s).mo = s.mo := by rw [stageReg_eq]; split <;> simp only [regSet_mo]
@[simp] theorem stageReg_sv (a : Nat) (w : Word) : (stageReg a w s).sv = s.sv := by rw [stageReg_eq]; split <;> simp only [regSet_sv]
@[simp] theorem stageReg_bv (a : Nat) (w : Word) : (stageReg a w s).bv = s.bv := by rw [stageReg_eq]; split <;> simp only [regSet_bv]
@[simp] theorem stageReg_lk (a : Nat) (w : Word) : (stageReg a w s).lk = s.lk := by rw [stageReg_eq]; split <;> simp only [regSet_lk]
@[simp] theorem stageReg_time (a : Nat) (w : Word) : (stageReg a w s).time = s.time := by rw [stageReg_eq]; split <;> simp only [regSet_time]
@[simp] theorem stageReg_pr (a : Nat) (w : Word) : (stageReg a w s).pr = s.pr := by rw [stageReg_eq]; split <;> simp only [regSet_pr]
@[simp] theorem stageReg_gh (a : Nat) (w : Word) : (stageReg a w s).gh = s.gh := by rw [stageReg_eq]; split <;> simp only [regSet_gh]
@[simp] theorem stageReg_ph (a : Nat) (w : Word) : (stageReg a w s).ph = s.ph := by rw [stageReg_eq]; split <;> simp only [regSet_ph]
@[simp] theorem stageReg_can (a : Nat) (w : Word) : (stageReg a w s).can = s.can := by rw [stageReg_eq]; split <;> simp only [regSet_can]
@[simp] theorem stageReg_ks (a : Nat) (w : Word) : (stageReg a w s).ks = s.ks := by rw [stageReg_eq]; split <;> simp only [regSet_ks]
@[simp] theorem stageReg_pc (a : Nat) (w : Word) : (stageReg a w s).pc = s.pc := by rw [stageReg_eq]; split <;> simp only [regSet_pc]

@[simp] theorem dropWrite_pending (who : Requester) (a why : Nat) : (dropWrite who a why s).pending = s.pending := by simp only [dropWrite, putWord_pending, count_pending]
@[simp] theorem dropWrite_now (who : Requester) (a why : Nat) : (dropWrite who a why s).now = s.now := by simp only [dropWrite, putWord_now, count_now]
@[simp] theorem dropWrite_freeCtr (who : Requester) (a why : Nat) : (dropWrite who a why s).freeCtr = s.freeCtr := by simp only [dropWrite, putWord_freeCtr, count_freeCtr]
@[simp] theorem dropWrite_sys (who : Requester) (a why : Nat) : (dropWrite who a why s).sys = s.sys := by simp only [dropWrite, putWord_sys, count_sys]
@[simp] theorem dropWrite_mem (who : Requester) (a why : Nat) : (dropWrite who a why s).mem = s.mem := by simp only [dropWrite, putWord_mem, count_mem]
@[simp] theorem dropWrite_cores (who : Requester) (a why : Nat) : (dropWrite who a why s).cores = s.cores := by simp only [dropWrite, putWord_cores, count_cores]
@[simp] theorem dropWrite_pg (who : Requester) (a why : Nat) : (dropWrite who a why s).pg = s.pg := by simp only [dropWrite, putWord_pg, count_pg]
@[simp] theorem dropWrite_sd (who : Requester) (a why : Nat) : (dropWrite who a why s).sd = s.sd := by simp only [dropWrite, putWord_sd, count_sd]
@[simp] theorem dropWrite_mains (who : Requester) (a why : Nat) : (dropWrite who a why s).mains = s.mains := by simp only [dropWrite, putWord_mains, count_mains]
@[simp] theorem dropWrite_fb (who : Requester) (a why : Nat) : (dropWrite who a why s).fb = s.fb := by simp only [dropWrite, putWord_fb, count_fb]
@[simp] theorem dropWrite_fbo (who : Requester) (a why : Nat) : (dropWrite who a why s).fbo = s.fbo := by simp only [dropWrite, putWord_fbo, count_fbo]
@[simp] theorem dropWrite_mo (who : Requester) (a why : Nat) : (dropWrite who a why s).mo = s.mo := by simp only [dropWrite, putWord_mo, count_mo]
@[simp] theorem dropWrite_sv (who : Requester) (a why : Nat) : (dropWrite who a why s).sv = s.sv := by simp only [dropWrite, putWord_sv, count_sv]
@[simp] theorem dropWrite_bv (who : Requester) (a why : Nat) : (dropWrite who a why s).bv = s.bv := by simp only [dropWrite, putWord_bv, count_bv]
@[simp] theorem dropWrite_lk (who : Requester) (a why : Nat) : (dropWrite who a why s).lk = s.lk := by simp only [dropWrite, putWord_lk, count_lk]
@[simp] theorem dropWrite_time (who : Requester) (a why : Nat) : (dropWrite who a why s).time = s.time := by simp only [dropWrite, putWord_time, count_time]
@[simp] theorem dropWrite_pr (who : Requester) (a why : Nat) : (dropWrite who a why s).pr = s.pr := by simp only [dropWrite, putWord_pr, count_pr]
@[simp] theorem dropWrite_gh (who : Requester) (a why : Nat) : (dropWrite who a why s).gh = s.gh := by simp only [dropWrite, putWord_gh, count_gh]
@[simp] theorem dropWrite_ph (who : Requester) (a why : Nat) : (dropWrite who a why s).ph = s.ph := by simp only [dropWrite, putWord_ph, count_ph]
@[simp] theorem dropWrite_can (who : Requester) (a why : Nat) : (dropWrite who a why s).can = s.can := by simp only [dropWrite, putWord_can, count_can]
@[simp] theorem dropWrite_ks (who : Requester) (a why : Nat) : (dropWrite who a why s).ks = s.ks := by simp only [dropWrite, putWord_ks, count_ks]
@[simp] theorem dropWrite_pc (who : Requester) (a why : Nat) : (dropWrite who a why s).pc = s.pc := by simp only [dropWrite, putWord_pc, count_pc]

@[simp] theorem armLock_pending (who : Requester) : (armLock who s).pending = s.pending := (rfl)
@[simp] theorem armLock_now (who : Requester) : (armLock who s).now = s.now := (rfl)
@[simp] theorem armLock_freeCtr (who : Requester) : (armLock who s).freeCtr = s.freeCtr := (rfl)
@[simp] theorem armLock_regs (who : Requester) : (armLock who s).regs = s.regs := (rfl)
@[simp] theorem armLock_held (who : Requester) : (armLock who s).held = s.held := (rfl)
@[simp] theorem armLock_mem (who : Requester) : (armLock who s).mem = s.mem := (rfl)
@[simp] theorem armLock_cores (who : Requester) : (armLock who s).cores = s.cores := (rfl)
@[simp] theorem armLock_pg (who : Requester) : (armLock who s).pg = s.pg := (rfl)
@[simp] theorem armLock_sd (who : Requester) : (armLock who s).sd = s.sd := (rfl)
@[simp] theorem armLock_mains (who : Requester) : (armLock who s).mains = s.mains := (rfl)
@[simp] theorem armLock_fb (who : Requester) : (armLock who s).fb = s.fb := (rfl)
@[simp] theorem armLock_fbo (who : Requester) : (armLock who s).fbo = s.fbo := (rfl)
@[simp] theorem armLock_mo (who : Requester) : (armLock who s).mo = s.mo := (rfl)
@[simp] theorem armLock_sv (who : Requester) : (armLock who s).sv = s.sv := (rfl)
@[simp] theorem armLock_bv (who : Requester) : (armLock who s).bv = s.bv := (rfl)
@[simp] theorem armLock_lk (who : Requester) : (armLock who s).lk = s.lk := (rfl)
@[simp] theorem armLock_time (who : Requester) : (armLock who s).time = s.time := (rfl)
@[simp] theorem armLock_pr (who : Requester) : (armLock who s).pr = s.pr := (rfl)
@[simp] theorem armLock_gh (who : Requester) : (armLock who s).gh = s.gh := (rfl)
@[simp] theorem armLock_ph (who : Requester) : (armLock who s).ph = s.ph := (rfl)
@[simp] theorem armLock_can (who : Requester) : (armLock who s).can = s.can := (rfl)
@[simp] theorem armLock_ks (who : Requester) : (armLock who s).ks = s.ks := (rfl)
@[simp] theorem armLock_pc (who : Requester) : (armLock who s).pc = s.pc := (rfl)

@[simp] theorem advance_pending (t : Nat) : (advance t s).pending = s.pending := (rfl)
@[simp] theorem advance_freeCtr (t : Nat) : (advance t s).freeCtr = s.freeCtr := (rfl)
@[simp] theorem advance_sys (t : Nat) : (advance t s).sys = s.sys := (rfl)
@[simp] theorem advance_regs (t : Nat) : (advance t s).regs = s.regs := (rfl)
@[simp] theorem advance_held (t : Nat) : (advance t s).held = s.held := (rfl)
@[simp] theorem advance_mem (t : Nat) : (advance t s).mem = s.mem := (rfl)
@[simp] theorem advance_cores (t : Nat) : (advance t s).cores = s.cores := (rfl)
@[simp] theorem advance_pg (t : Nat) : (advance t s).pg = s.pg := (rfl)
@[simp] theorem advance_sd (t : Nat) : (advance t s).sd = s.sd := (rfl)
@[simp] theorem advance_mains (t : Nat) : (advance t s).mains = s.mains := (rfl)
@[simp] theorem advance_fb (t : Nat) : (advance t s).fb = s.fb := (rfl)
@[simp] theorem advance_fbo (t : Nat) : (advance t s).fbo = s.fbo := (rfl)
@[simp] theorem advance_mo (t : Nat) : (advance t s).mo = s.mo := (rfl)
@[simp] theorem advance_sv (t : Nat) : (advance t s).sv = s.sv := (rfl)
@[simp] theorem advance_bv (t : Nat) : (advance t s).bv = s.bv := (rfl)
@[simp] theorem advance_lk (t : Nat) : (advance t s).lk = s.lk := (rfl)
@[simp] theorem advance_time (t : Nat) : (advance t s).time = s.time := (rfl)
@[simp] theorem advance_pr (t : Nat) : (advance t s).pr = s.pr := (rfl)
@[simp] theorem advance_gh (t : Nat) : (advance t s).gh = s.gh := (rfl)
@[simp] theorem advance_ph (t : Nat) : (advance t s).ph = s.ph := (rfl)
@[simp] theorem advance_can (t : Nat) : (advance t s).can = s.can := (rfl)
@[simp] theorem advance_ks (t : Nat) : (advance t s).ks = s.ks := (rfl)
@[simp] theorem advance_pc (t : Nat) : (advance t s).pc = s.pc := (rfl)

@[simp] theorem xySet_pending (c a : Nat) (w : Word) : (xySet c a w s).pending = s.pending := (rfl)
@[simp] theorem xySet_now (c a : Nat) (w : Word) : (xySet c a w s).now = s.now := (rfl)
@[simp] theorem xySet_freeCtr (c a : Nat) (w : Word) : (xySet c a w s).freeCtr = s.freeCtr := (rfl)
@[simp] theorem xySet_sys (c a : Nat) (w : Word) : (xySet c a w s).sys = s.sys := (rfl)
@[simp] theorem xySet_regs (c a : Nat) (w : Word) : (xySet c a w s).regs = s.regs := (rfl)
@[simp] theorem xySet_held (c a : Nat) (w : Word) : (xySet c a w s).held = s.held := (rfl)
@[simp] theorem xySet_cores (c a : Nat) (w : Word) : (xySet c a w s).cores = s.cores := (rfl)
@[simp] theorem xySet_pg (c a : Nat) (w : Word) : (xySet c a w s).pg = s.pg := (rfl)
@[simp] theorem xySet_sd (c a : Nat) (w : Word) : (xySet c a w s).sd = s.sd := (rfl)
@[simp] theorem xySet_mains (c a : Nat) (w : Word) : (xySet c a w s).mains = s.mains := (rfl)
@[simp] theorem xySet_fb (c a : Nat) (w : Word) : (xySet c a w s).fb = s.fb := (rfl)
@[simp] theorem xySet_fbo (c a : Nat) (w : Word) : (xySet c a w s).fbo = s.fbo := (rfl)
@[simp] theorem xySet_mo (c a : Nat) (w : Word) : (xySet c a w s).mo = s.mo := (rfl)
@[simp] theorem xySet_sv (c a : Nat) (w : Word) : (xySet c a w s).sv = s.sv := (rfl)
@[simp] theorem xySet_bv (c a : Nat) (w : Word) : (xySet c a w s).bv = s.bv := (rfl)
@[simp] theorem xySet_lk (c a : Nat) (w : Word) : (xySet c a w s).lk = s.lk := (rfl)
@[simp] theorem xySet_time (c a : Nat) (w : Word) : (xySet c a w s).time = s.time := (rfl)
@[simp] theorem xySet_pr (c a : Nat) (w : Word) : (xySet c a w s).pr = s.pr := (rfl)
@[simp] theorem xySet_gh (c a : Nat) (w : Word) : (xySet c a w s).gh = s.gh := (rfl)
@[simp] theorem xySet_ph (c a : Nat) (w : Word) : (xySet c a w s).ph = s.ph := (rfl)
@[simp] theorem xySet_can (c a : Nat) (w : Word) : (xySet c a w s).can = s.can := (rfl)
@[simp] theorem xySet_ks (c a : Nat) (w : Word) : (xySet c a w s).ks = s.ks := (rfl)
@[simp] theorem xySet_pc (c a : Nat) (w : Word) : (xySet c a w s).pc = s.pc := (rfl)

@[simp] theorem sharedSet_pending (a : Nat) (w : Word) : (sharedSet a w s).pending = s.pending := (rfl)
@[simp] theorem sharedSet_now (a : Nat) (w : Word) : (sharedSet a w s).now = s.now := (rfl)
@[simp] theorem sharedSet_freeCtr (a : Nat) (w : Word) : (sharedSet a w s).freeCtr = s.freeCtr := (rfl)
@[simp] theorem sharedSet_sys (a : Nat) (w : Word) : (sharedSet a w s).sys = s.sys := (rfl)
@[simp] theorem sharedSet_regs (a : Nat) (w : Word) : (sharedSet a w s).regs = s.regs := (rfl)
@[simp] theorem sharedSet_held (a : Nat) (w : Word) : (sharedSet a w s).held = s.held := (rfl)
@[simp] theorem sharedSet_cores (a : Nat) (w : Word) : (sharedSet a w s).cores = s.cores := (rfl)
@[simp] theorem sharedSet_pg (a : Nat) (w : Word) : (sharedSet a w s).pg = s.pg := (rfl)
@[simp] theorem sharedSet_sd (a : Nat) (w : Word) : (sharedSet a w s).sd = s.sd := (rfl)
@[simp] theorem sharedSet_mains (a : Nat) (w : Word) : (sharedSet a w s).mains = s.mains := (rfl)
@[simp] theorem sharedSet_fb (a : Nat) (w : Word) : (sharedSet a w s).fb = s.fb := (rfl)
@[simp] theorem sharedSet_fbo (a : Nat) (w : Word) : (sharedSet a w s).fbo = s.fbo := (rfl)
@[simp] theorem sharedSet_mo (a : Nat) (w : Word) : (sharedSet a w s).mo = s.mo := (rfl)
@[simp] theorem sharedSet_sv (a : Nat) (w : Word) : (sharedSet a w s).sv = s.sv := (rfl)
@[simp] theorem sharedSet_bv (a : Nat) (w : Word) : (sharedSet a w s).bv = s.bv := (rfl)
@[simp] theorem sharedSet_lk (a : Nat) (w : Word) : (sharedSet a w s).lk = s.lk := (rfl)
@[simp] theorem sharedSet_time (a : Nat) (w : Word) : (sharedSet a w s).time = s.time := (rfl)
@[simp] theorem sharedSet_pr (a : Nat) (w : Word) : (sharedSet a w s).pr = s.pr := (rfl)
@[simp] theorem sharedSet_gh (a : Nat) (w : Word) : (sharedSet a w s).gh = s.gh := (rfl)
@[simp] theorem sharedSet_ph (a : Nat) (w : Word) : (sharedSet a w s).ph = s.ph := (rfl)
@[simp] theorem sharedSet_can (a : Nat) (w : Word) : (sharedSet a w s).can = s.can := (rfl)
@[simp] theorem sharedSet_ks (a : Nat) (w : Word) : (sharedSet a w s).ks = s.ks := (rfl)
@[simp] theorem sharedSet_pc (a : Nat) (w : Word) : (sharedSet a w s).pc = s.pc := (rfl)

@[simp] theorem bvRecSet_pending (a : Nat) (w : Word) : (bvRecSet a w s).pending = s.pending := (rfl)
@[simp] theorem bvRecSet_now (a : Nat) (w : Word) : (bvRecSet a w s).now = s.now := (rfl)
@[simp] theorem bvRecSet_freeCtr (a : Nat) (w : Word) : (bvRecSet a w s).freeCtr = s.freeCtr := (rfl)
@[simp] theorem bvRecSet_sys (a : Nat) (w : Word) : (bvRecSet a w s).sys = s.sys := (rfl)
@[simp] theorem bvRecSet_regs (a : Nat) (w : Word) : (bvRecSet a w s).regs = s.regs := (rfl)
@[simp] theorem bvRecSet_held (a : Nat) (w : Word) : (bvRecSet a w s).held = s.held := (rfl)
@[simp] theorem bvRecSet_cores (a : Nat) (w : Word) : (bvRecSet a w s).cores = s.cores := (rfl)
@[simp] theorem bvRecSet_pg (a : Nat) (w : Word) : (bvRecSet a w s).pg = s.pg := (rfl)
@[simp] theorem bvRecSet_sd (a : Nat) (w : Word) : (bvRecSet a w s).sd = s.sd := (rfl)
@[simp] theorem bvRecSet_mains (a : Nat) (w : Word) : (bvRecSet a w s).mains = s.mains := (rfl)
@[simp] theorem bvRecSet_fb (a : Nat) (w : Word) : (bvRecSet a w s).fb = s.fb := (rfl)
@[simp] theorem bvRecSet_fbo (a : Nat) (w : Word) : (bvRecSet a w s).fbo = s.fbo := (rfl)
@[simp] theorem bvRecSet_mo (a : Nat) (w : Word) : (bvRecSet a w s).mo = s.mo := (rfl)
@[simp] theorem bvRecSet_sv (a : Nat) (w : Word) : (bvRecSet a w s).sv = s.sv := (rfl)
@[simp] theorem bvRecSet_bv (a : Nat) (w : Word) : (bvRecSet a w s).bv = s.bv := (rfl)
@[simp] theorem bvRecSet_lk (a : Nat) (w : Word) : (bvRecSet a w s).lk = s.lk := (rfl)
@[simp] theorem bvRecSet_time (a : Nat) (w : Word) : (bvRecSet a w s).time = s.time := (rfl)
@[simp] theorem bvRecSet_pr (a : Nat) (w : Word) : (bvRecSet a w s).pr = s.pr := (rfl)
@[simp] theorem bvRecSet_gh (a : Nat) (w : Word) : (bvRecSet a w s).gh = s.gh := (rfl)
@[simp] theorem bvRecSet_ph (a : Nat) (w : Word) : (bvRecSet a w s).ph = s.ph := (rfl)
@[simp] theorem bvRecSet_can (a : Nat) (w : Word) : (bvRecSet a w s).can = s.can := (rfl)
@[simp] theorem bvRecSet_ks (a : Nat) (w : Word) : (bvRecSet a w s).ks = s.ks := (rfl)
@[simp] theorem bvRecSet_pc (a : Nat) (w : Word) : (bvRecSet a w s).pc = s.pc := (rfl)

@[simp] theorem pgmSet_pending (c a : Nat) (w : BitVec 40) : (pgmSet c a w s).pending = s.pending := (rfl)
@[simp] theorem pgmSet_now (c a : Nat) (w : BitVec 40) : (pgmSet c a w s).now = s.now := (rfl)
@[simp] theorem pgmSet_freeCtr (c a : Nat) (w : BitVec 40) : (pgmSet c a w s).freeCtr = s.freeCtr := (rfl)
@[simp] theorem pgmSet_sys (c a : Nat) (w : BitVec 40) : (pgmSet c a w s).sys = s.sys := (rfl)
@[simp] theorem pgmSet_regs (c a : Nat) (w : BitVec 40) : (pgmSet c a w s).regs = s.regs := (rfl)
@[simp] theorem pgmSet_held (c a : Nat) (w : BitVec 40) : (pgmSet c a w s).held = s.held := (rfl)
@[simp] theorem pgmSet_cores (c a : Nat) (w : BitVec 40) : (pgmSet c a w s).cores = s.cores := (rfl)
@[simp] theorem pgmSet_pg (c a : Nat) (w : BitVec 40) : (pgmSet c a w s).pg = s.pg := (rfl)
@[simp] theorem pgmSet_sd (c a : Nat) (w : BitVec 40) : (pgmSet c a w s).sd = s.sd := (rfl)
@[simp] theorem pgmSet_mains (c a : Nat) (w : BitVec 40) : (pgmSet c a w s).mains = s.mains := (rfl)
@[simp] theorem pgmSet_fb (c a : Nat) (w : BitVec 40) : (pgmSet c a w s).fb = s.fb := (rfl)
@[simp] theorem pgmSet_fbo (c a : Nat) (w : BitVec 40) : (pgmSet c a w s).fbo = s.fbo := (rfl)
@[simp] theorem pgmSet_mo (c a : Nat) (w : BitVec 40) : (pgmSet c a w s).mo = s.mo := (rfl)
@[simp] theorem pgmSet_sv (c a : Nat) (w : BitVec 40) : (pgmSet c a w s).sv = s.sv := (rfl)
@[simp] theorem pgmSet_bv (c a : Nat) (w : BitVec 40) : (pgmSet c a w s).bv = s.bv := (rfl)
@[simp] theorem pgmSet_lk (c a : Nat) (w : BitVec 40) : (pgmSet c a w s).lk = s.lk := (rfl)
@[simp] theorem pgmSet_time (c a : Nat) (w : BitVec 40) : (pgmSet c a w s).time = s.time := (rfl)
@[simp] theorem pgmSet_pr (c a : Nat) (w : BitVec 40) : (pgmSet c a w s).pr = s.pr := (rfl)
@[simp] theorem pgmSet_gh (c a : Nat) (w : BitVec 40) : (pgmSet c a w s).gh = s.gh := (rfl)
@[simp] theorem pgmSet_ph (c a : Nat) (w : BitVec 40) : (pgmSet c a w s).ph = s.ph := (rfl)
@[simp] theorem pgmSet_can (c a : Nat) (w : BitVec 40) : (pgmSet c a w s).can = s.can := (rfl)
@[simp] theorem pgmSet_ks (c a : Nat) (w : BitVec 40) : (pgmSet c a w s).ks = s.ks := (rfl)
@[simp] theorem pgmSet_pc (c a : Nat) (w : BitVec 40) : (pgmSet c a w s).pc = s.pc := (rfl)

@[simp] theorem mramSet_pending (a : Nat) (w : Word) : (mramSet a w s).pending = s.pending := by unfold mramSet; split <;> rfl
@[simp] theorem mramSet_now (a : Nat) (w : Word) : (mramSet a w s).now = s.now := by unfold mramSet; split <;> rfl
@[simp] theorem mramSet_freeCtr (a : Nat) (w : Word) : (mramSet a w s).freeCtr = s.freeCtr := by unfold mramSet; split <;> rfl
@[simp] theorem mramSet_sys (a : Nat) (w : Word) : (mramSet a w s).sys = s.sys := by unfold mramSet; split <;> rfl
@[simp] theorem mramSet_regs (a : Nat) (w : Word) : (mramSet a w s).regs = s.regs := by unfold mramSet; split <;> rfl
@[simp] theorem mramSet_held (a : Nat) (w : Word) : (mramSet a w s).held = s.held := by unfold mramSet; split <;> rfl
@[simp] theorem mramSet_cores (a : Nat) (w : Word) : (mramSet a w s).cores = s.cores := by unfold mramSet; split <;> rfl
@[simp] theorem mramSet_pg (a : Nat) (w : Word) : (mramSet a w s).pg = s.pg := by unfold mramSet; split <;> rfl
@[simp] theorem mramSet_sd (a : Nat) (w : Word) : (mramSet a w s).sd = s.sd := by unfold mramSet; split <;> rfl
@[simp] theorem mramSet_mains (a : Nat) (w : Word) : (mramSet a w s).mains = s.mains := by unfold mramSet; split <;> rfl
@[simp] theorem mramSet_fb (a : Nat) (w : Word) : (mramSet a w s).fb = s.fb := by unfold mramSet; split <;> rfl
@[simp] theorem mramSet_fbo (a : Nat) (w : Word) : (mramSet a w s).fbo = s.fbo := by unfold mramSet; split <;> rfl
@[simp] theorem mramSet_mo (a : Nat) (w : Word) : (mramSet a w s).mo = s.mo := by unfold mramSet; split <;> rfl
@[simp] theorem mramSet_sv (a : Nat) (w : Word) : (mramSet a w s).sv = s.sv := by unfold mramSet; split <;> rfl
@[simp] theorem mramSet_bv (a : Nat) (w : Word) : (mramSet a w s).bv = s.bv := by unfold mramSet; split <;> rfl
@[simp] theorem mramSet_lk (a : Nat) (w : Word) : (mramSet a w s).lk = s.lk := by unfold mramSet; split <;> rfl
@[simp] theorem mramSet_time (a : Nat) (w : Word) : (mramSet a w s).time = s.time := by unfold mramSet; split <;> rfl
@[simp] theorem mramSet_pr (a : Nat) (w : Word) : (mramSet a w s).pr = s.pr := by unfold mramSet; split <;> rfl
@[simp] theorem mramSet_gh (a : Nat) (w : Word) : (mramSet a w s).gh = s.gh := by unfold mramSet; split <;> rfl
@[simp] theorem mramSet_ph (a : Nat) (w : Word) : (mramSet a w s).ph = s.ph := by unfold mramSet; split <;> rfl
@[simp] theorem mramSet_can (a : Nat) (w : Word) : (mramSet a w s).can = s.can := by unfold mramSet; split <;> rfl
@[simp] theorem mramSet_ks (a : Nat) (w : Word) : (mramSet a w s).ks = s.ks := by unfold mramSet; split <;> rfl
@[simp] theorem mramSet_pc (a : Nat) (w : Word) : (mramSet a w s).pc = s.pc := by unfold mramSet; split <;> rfl

@[simp] theorem setCore_pending (c : Fin 8) (k : Core) : (setCore c k s).pending = s.pending := (rfl)
@[simp] theorem setCore_now (c : Fin 8) (k : Core) : (setCore c k s).now = s.now := (rfl)
@[simp] theorem setCore_freeCtr (c : Fin 8) (k : Core) : (setCore c k s).freeCtr = s.freeCtr := (rfl)
@[simp] theorem setCore_sys (c : Fin 8) (k : Core) : (setCore c k s).sys = s.sys := (rfl)
@[simp] theorem setCore_regs (c : Fin 8) (k : Core) : (setCore c k s).regs = s.regs := (rfl)
@[simp] theorem setCore_held (c : Fin 8) (k : Core) : (setCore c k s).held = s.held := (rfl)
@[simp] theorem setCore_mem (c : Fin 8) (k : Core) : (setCore c k s).mem = s.mem := (rfl)
@[simp] theorem setCore_pg (c : Fin 8) (k : Core) : (setCore c k s).pg = s.pg := (rfl)
@[simp] theorem setCore_sd (c : Fin 8) (k : Core) : (setCore c k s).sd = s.sd := (rfl)
@[simp] theorem setCore_mains (c : Fin 8) (k : Core) : (setCore c k s).mains = s.mains := (rfl)
@[simp] theorem setCore_fb (c : Fin 8) (k : Core) : (setCore c k s).fb = s.fb := (rfl)
@[simp] theorem setCore_fbo (c : Fin 8) (k : Core) : (setCore c k s).fbo = s.fbo := (rfl)
@[simp] theorem setCore_mo (c : Fin 8) (k : Core) : (setCore c k s).mo = s.mo := (rfl)
@[simp] theorem setCore_sv (c : Fin 8) (k : Core) : (setCore c k s).sv = s.sv := (rfl)
@[simp] theorem setCore_bv (c : Fin 8) (k : Core) : (setCore c k s).bv = s.bv := (rfl)
@[simp] theorem setCore_lk (c : Fin 8) (k : Core) : (setCore c k s).lk = s.lk := (rfl)
@[simp] theorem setCore_time (c : Fin 8) (k : Core) : (setCore c k s).time = s.time := (rfl)
@[simp] theorem setCore_pr (c : Fin 8) (k : Core) : (setCore c k s).pr = s.pr := (rfl)
@[simp] theorem setCore_gh (c : Fin 8) (k : Core) : (setCore c k s).gh = s.gh := (rfl)
@[simp] theorem setCore_ph (c : Fin 8) (k : Core) : (setCore c k s).ph = s.ph := (rfl)
@[simp] theorem setCore_can (c : Fin 8) (k : Core) : (setCore c k s).can = s.can := (rfl)
@[simp] theorem setCore_ks (c : Fin 8) (k : Core) : (setCore c k s).ks = s.ks := (rfl)
@[simp] theorem setCore_pc (c : Fin 8) (k : Core) : (setCore c k s).pc = s.pc := (rfl)

@[simp] theorem setGroup_pending (g : Fin 4) (x : Group) : (setGroup g x s).pending = s.pending := (rfl)
@[simp] theorem setGroup_now (g : Fin 4) (x : Group) : (setGroup g x s).now = s.now := (rfl)
@[simp] theorem setGroup_freeCtr (g : Fin 4) (x : Group) : (setGroup g x s).freeCtr = s.freeCtr := (rfl)
@[simp] theorem setGroup_sys (g : Fin 4) (x : Group) : (setGroup g x s).sys = s.sys := (rfl)
@[simp] theorem setGroup_regs (g : Fin 4) (x : Group) : (setGroup g x s).regs = s.regs := (rfl)
@[simp] theorem setGroup_held (g : Fin 4) (x : Group) : (setGroup g x s).held = s.held := (rfl)
@[simp] theorem setGroup_mem (g : Fin 4) (x : Group) : (setGroup g x s).mem = s.mem := (rfl)
@[simp] theorem setGroup_cores (g : Fin 4) (x : Group) : (setGroup g x s).cores = s.cores := (rfl)
@[simp] theorem setGroup_pg (g : Fin 4) (x : Group) : (setGroup g x s).pg = s.pg := (rfl)
@[simp] theorem setGroup_sd (g : Fin 4) (x : Group) : (setGroup g x s).sd = s.sd := (rfl)
@[simp] theorem setGroup_mains (g : Fin 4) (x : Group) : (setGroup g x s).mains = s.mains := (rfl)
@[simp] theorem setGroup_fb (g : Fin 4) (x : Group) : (setGroup g x s).fb = s.fb := (rfl)
@[simp] theorem setGroup_fbo (g : Fin 4) (x : Group) : (setGroup g x s).fbo = s.fbo := (rfl)
@[simp] theorem setGroup_mo (g : Fin 4) (x : Group) : (setGroup g x s).mo = s.mo := (rfl)
@[simp] theorem setGroup_sv (g : Fin 4) (x : Group) : (setGroup g x s).sv = s.sv := (rfl)
@[simp] theorem setGroup_bv (g : Fin 4) (x : Group) : (setGroup g x s).bv = s.bv := (rfl)
@[simp] theorem setGroup_lk (g : Fin 4) (x : Group) : (setGroup g x s).lk = s.lk := (rfl)
@[simp] theorem setGroup_time (g : Fin 4) (x : Group) : (setGroup g x s).time = s.time := (rfl)
@[simp] theorem setGroup_pr (g : Fin 4) (x : Group) : (setGroup g x s).pr = s.pr := (rfl)
@[simp] theorem setGroup_ph (g : Fin 4) (x : Group) : (setGroup g x s).ph = s.ph := (rfl)
@[simp] theorem setGroup_can (g : Fin 4) (x : Group) : (setGroup g x s).can = s.can := (rfl)
@[simp] theorem setGroup_ks (g : Fin 4) (x : Group) : (setGroup g x s).ks = s.ks := (rfl)
@[simp] theorem setGroup_pc (g : Fin 4) (x : Group) : (setGroup g x s).pc = s.pc := (rfl)

@[simp] theorem setTb_pending (i : Fin 16) (x : Timebase) : (setTb i x s).pending = s.pending := (rfl)
@[simp] theorem setTb_now (i : Fin 16) (x : Timebase) : (setTb i x s).now = s.now := (rfl)
@[simp] theorem setTb_freeCtr (i : Fin 16) (x : Timebase) : (setTb i x s).freeCtr = s.freeCtr := (rfl)
@[simp] theorem setTb_sys (i : Fin 16) (x : Timebase) : (setTb i x s).sys = s.sys := (rfl)
@[simp] theorem setTb_regs (i : Fin 16) (x : Timebase) : (setTb i x s).regs = s.regs := (rfl)
@[simp] theorem setTb_held (i : Fin 16) (x : Timebase) : (setTb i x s).held = s.held := (rfl)
@[simp] theorem setTb_mem (i : Fin 16) (x : Timebase) : (setTb i x s).mem = s.mem := (rfl)
@[simp] theorem setTb_cores (i : Fin 16) (x : Timebase) : (setTb i x s).cores = s.cores := (rfl)
@[simp] theorem setTb_pg (i : Fin 16) (x : Timebase) : (setTb i x s).pg = s.pg := (rfl)
@[simp] theorem setTb_mains (i : Fin 16) (x : Timebase) : (setTb i x s).mains = s.mains := (rfl)
@[simp] theorem setTb_fb (i : Fin 16) (x : Timebase) : (setTb i x s).fb = s.fb := (rfl)
@[simp] theorem setTb_fbo (i : Fin 16) (x : Timebase) : (setTb i x s).fbo = s.fbo := (rfl)
@[simp] theorem setTb_mo (i : Fin 16) (x : Timebase) : (setTb i x s).mo = s.mo := (rfl)
@[simp] theorem setTb_sv (i : Fin 16) (x : Timebase) : (setTb i x s).sv = s.sv := (rfl)
@[simp] theorem setTb_bv (i : Fin 16) (x : Timebase) : (setTb i x s).bv = s.bv := (rfl)
@[simp] theorem setTb_lk (i : Fin 16) (x : Timebase) : (setTb i x s).lk = s.lk := (rfl)
@[simp] theorem setTb_time (i : Fin 16) (x : Timebase) : (setTb i x s).time = s.time := (rfl)
@[simp] theorem setTb_pr (i : Fin 16) (x : Timebase) : (setTb i x s).pr = s.pr := (rfl)
@[simp] theorem setTb_gh (i : Fin 16) (x : Timebase) : (setTb i x s).gh = s.gh := (rfl)
@[simp] theorem setTb_ph (i : Fin 16) (x : Timebase) : (setTb i x s).ph = s.ph := (rfl)
@[simp] theorem setTb_can (i : Fin 16) (x : Timebase) : (setTb i x s).can = s.can := (rfl)
@[simp] theorem setTb_ks (i : Fin 16) (x : Timebase) : (setTb i x s).ks = s.ks := (rfl)
@[simp] theorem setTb_pc (i : Fin 16) (x : Timebase) : (setTb i x s).pc = s.pc := (rfl)

@[simp] theorem setFb_pending (n : Fin 16) (x : FbChan) : (setFb n x s).pending = s.pending := (rfl)
@[simp] theorem setFb_now (n : Fin 16) (x : FbChan) : (setFb n x s).now = s.now := (rfl)
@[simp] theorem setFb_freeCtr (n : Fin 16) (x : FbChan) : (setFb n x s).freeCtr = s.freeCtr := (rfl)
@[simp] theorem setFb_sys (n : Fin 16) (x : FbChan) : (setFb n x s).sys = s.sys := (rfl)
@[simp] theorem setFb_regs (n : Fin 16) (x : FbChan) : (setFb n x s).regs = s.regs := (rfl)
@[simp] theorem setFb_held (n : Fin 16) (x : FbChan) : (setFb n x s).held = s.held := (rfl)
@[simp] theorem setFb_mem (n : Fin 16) (x : FbChan) : (setFb n x s).mem = s.mem := (rfl)
@[simp] theorem setFb_cores (n : Fin 16) (x : FbChan) : (setFb n x s).cores = s.cores := (rfl)
@[simp] theorem setFb_pg (n : Fin 16) (x : FbChan) : (setFb n x s).pg = s.pg := (rfl)
@[simp] theorem setFb_sd (n : Fin 16) (x : FbChan) : (setFb n x s).sd = s.sd := (rfl)
@[simp] theorem setFb_mains (n : Fin 16) (x : FbChan) : (setFb n x s).mains = s.mains := (rfl)
@[simp] theorem setFb_fbo (n : Fin 16) (x : FbChan) : (setFb n x s).fbo = s.fbo := (rfl)
@[simp] theorem setFb_mo (n : Fin 16) (x : FbChan) : (setFb n x s).mo = s.mo := (rfl)
@[simp] theorem setFb_sv (n : Fin 16) (x : FbChan) : (setFb n x s).sv = s.sv := (rfl)
@[simp] theorem setFb_bv (n : Fin 16) (x : FbChan) : (setFb n x s).bv = s.bv := (rfl)
@[simp] theorem setFb_lk (n : Fin 16) (x : FbChan) : (setFb n x s).lk = s.lk := (rfl)
@[simp] theorem setFb_time (n : Fin 16) (x : FbChan) : (setFb n x s).time = s.time := (rfl)
@[simp] theorem setFb_pr (n : Fin 16) (x : FbChan) : (setFb n x s).pr = s.pr := (rfl)
@[simp] theorem setFb_gh (n : Fin 16) (x : FbChan) : (setFb n x s).gh = s.gh := (rfl)
@[simp] theorem setFb_ph (n : Fin 16) (x : FbChan) : (setFb n x s).ph = s.ph := (rfl)
@[simp] theorem setFb_can (n : Fin 16) (x : FbChan) : (setFb n x s).can = s.can := (rfl)
@[simp] theorem setFb_ks (n : Fin 16) (x : FbChan) : (setFb n x s).ks = s.ks := (rfl)
@[simp] theorem setFb_pc (n : Fin 16) (x : FbChan) : (setFb n x s).pc = s.pc := (rfl)

@[simp] theorem setCan_pending (c : Fin 2) (x : Can) : (setCan c x s).pending = s.pending := (rfl)
@[simp] theorem setCan_now (c : Fin 2) (x : Can) : (setCan c x s).now = s.now := (rfl)
@[simp] theorem setCan_freeCtr (c : Fin 2) (x : Can) : (setCan c x s).freeCtr = s.freeCtr := (rfl)
@[simp] theorem setCan_sys (c : Fin 2) (x : Can) : (setCan c x s).sys = s.sys := (rfl)
@[simp] theorem setCan_regs (c : Fin 2) (x : Can) : (setCan c x s).regs = s.regs := (rfl)
@[simp] theorem setCan_held (c : Fin 2) (x : Can) : (setCan c x s).held = s.held := (rfl)
@[simp] theorem setCan_mem (c : Fin 2) (x : Can) : (setCan c x s).mem = s.mem := (rfl)
@[simp] theorem setCan_cores (c : Fin 2) (x : Can) : (setCan c x s).cores = s.cores := (rfl)
@[simp] theorem setCan_pg (c : Fin 2) (x : Can) : (setCan c x s).pg = s.pg := (rfl)
@[simp] theorem setCan_sd (c : Fin 2) (x : Can) : (setCan c x s).sd = s.sd := (rfl)
@[simp] theorem setCan_mains (c : Fin 2) (x : Can) : (setCan c x s).mains = s.mains := (rfl)
@[simp] theorem setCan_fb (c : Fin 2) (x : Can) : (setCan c x s).fb = s.fb := (rfl)
@[simp] theorem setCan_fbo (c : Fin 2) (x : Can) : (setCan c x s).fbo = s.fbo := (rfl)
@[simp] theorem setCan_mo (c : Fin 2) (x : Can) : (setCan c x s).mo = s.mo := (rfl)
@[simp] theorem setCan_sv (c : Fin 2) (x : Can) : (setCan c x s).sv = s.sv := (rfl)
@[simp] theorem setCan_bv (c : Fin 2) (x : Can) : (setCan c x s).bv = s.bv := (rfl)
@[simp] theorem setCan_lk (c : Fin 2) (x : Can) : (setCan c x s).lk = s.lk := (rfl)
@[simp] theorem setCan_time (c : Fin 2) (x : Can) : (setCan c x s).time = s.time := (rfl)
@[simp] theorem setCan_pr (c : Fin 2) (x : Can) : (setCan c x s).pr = s.pr := (rfl)
@[simp] theorem setCan_gh (c : Fin 2) (x : Can) : (setCan c x s).gh = s.gh := (rfl)
@[simp] theorem setCan_ph (c : Fin 2) (x : Can) : (setCan c x s).ph = s.ph := (rfl)
@[simp] theorem setCan_ks (c : Fin 2) (x : Can) : (setCan c x s).ks = s.ks := (rfl)
@[simp] theorem setCan_pc (c : Fin 2) (x : Can) : (setCan c x s).pc = s.pc := (rfl)

@[simp] theorem setProf_pending (o : Nat) (p : Profile) : (setProf o p s).pending = s.pending := (rfl)
@[simp] theorem setProf_now (o : Nat) (p : Profile) : (setProf o p s).now = s.now := (rfl)
@[simp] theorem setProf_freeCtr (o : Nat) (p : Profile) : (setProf o p s).freeCtr = s.freeCtr := (rfl)
@[simp] theorem setProf_sys (o : Nat) (p : Profile) : (setProf o p s).sys = s.sys := (rfl)
@[simp] theorem setProf_regs (o : Nat) (p : Profile) : (setProf o p s).regs = s.regs := (rfl)
@[simp] theorem setProf_held (o : Nat) (p : Profile) : (setProf o p s).held = s.held := (rfl)
@[simp] theorem setProf_mem (o : Nat) (p : Profile) : (setProf o p s).mem = s.mem := (rfl)
@[simp] theorem setProf_cores (o : Nat) (p : Profile) : (setProf o p s).cores = s.cores := (rfl)
@[simp] theorem setProf_pg (o : Nat) (p : Profile) : (setProf o p s).pg = s.pg := (rfl)
@[simp] theorem setProf_sd (o : Nat) (p : Profile) : (setProf o p s).sd = s.sd := (rfl)
@[simp] theorem setProf_mains (o : Nat) (p : Profile) : (setProf o p s).mains = s.mains := (rfl)
@[simp] theorem setProf_fb (o : Nat) (p : Profile) : (setProf o p s).fb = s.fb := (rfl)
@[simp] theorem setProf_fbo (o : Nat) (p : Profile) : (setProf o p s).fbo = s.fbo := (rfl)
@[simp] theorem setProf_sv (o : Nat) (p : Profile) : (setProf o p s).sv = s.sv := (rfl)
@[simp] theorem setProf_bv (o : Nat) (p : Profile) : (setProf o p s).bv = s.bv := (rfl)
@[simp] theorem setProf_lk (o : Nat) (p : Profile) : (setProf o p s).lk = s.lk := (rfl)
@[simp] theorem setProf_time (o : Nat) (p : Profile) : (setProf o p s).time = s.time := (rfl)
@[simp] theorem setProf_pr (o : Nat) (p : Profile) : (setProf o p s).pr = s.pr := (rfl)
@[simp] theorem setProf_gh (o : Nat) (p : Profile) : (setProf o p s).gh = s.gh := (rfl)
@[simp] theorem setProf_ph (o : Nat) (p : Profile) : (setProf o p s).ph = s.ph := (rfl)
@[simp] theorem setProf_can (o : Nat) (p : Profile) : (setProf o p s).can = s.can := (rfl)
@[simp] theorem setProf_ks (o : Nat) (p : Profile) : (setProf o p s).ks = s.ks := (rfl)
@[simp] theorem setProf_pc (o : Nat) (p : Profile) : (setProf o p s).pc = s.pc := (rfl)

@[simp] theorem setLoop_pending (o : Nat) (l : LoopSt) : (setLoop o l s).pending = s.pending := (rfl)
@[simp] theorem setLoop_now (o : Nat) (l : LoopSt) : (setLoop o l s).now = s.now := (rfl)
@[simp] theorem setLoop_freeCtr (o : Nat) (l : LoopSt) : (setLoop o l s).freeCtr = s.freeCtr := (rfl)
@[simp] theorem setLoop_sys (o : Nat) (l : LoopSt) : (setLoop o l s).sys = s.sys := (rfl)
@[simp] theorem setLoop_regs (o : Nat) (l : LoopSt) : (setLoop o l s).regs = s.regs := (rfl)
@[simp] theorem setLoop_held (o : Nat) (l : LoopSt) : (setLoop o l s).held = s.held := (rfl)
@[simp] theorem setLoop_mem (o : Nat) (l : LoopSt) : (setLoop o l s).mem = s.mem := (rfl)
@[simp] theorem setLoop_cores (o : Nat) (l : LoopSt) : (setLoop o l s).cores = s.cores := (rfl)
@[simp] theorem setLoop_pg (o : Nat) (l : LoopSt) : (setLoop o l s).pg = s.pg := (rfl)
@[simp] theorem setLoop_sd (o : Nat) (l : LoopSt) : (setLoop o l s).sd = s.sd := (rfl)
@[simp] theorem setLoop_mains (o : Nat) (l : LoopSt) : (setLoop o l s).mains = s.mains := (rfl)
@[simp] theorem setLoop_fb (o : Nat) (l : LoopSt) : (setLoop o l s).fb = s.fb := (rfl)
@[simp] theorem setLoop_fbo (o : Nat) (l : LoopSt) : (setLoop o l s).fbo = s.fbo := (rfl)
@[simp] theorem setLoop_mo (o : Nat) (l : LoopSt) : (setLoop o l s).mo = s.mo := (rfl)
@[simp] theorem setLoop_bv (o : Nat) (l : LoopSt) : (setLoop o l s).bv = s.bv := (rfl)
@[simp] theorem setLoop_lk (o : Nat) (l : LoopSt) : (setLoop o l s).lk = s.lk := (rfl)
@[simp] theorem setLoop_time (o : Nat) (l : LoopSt) : (setLoop o l s).time = s.time := (rfl)
@[simp] theorem setLoop_pr (o : Nat) (l : LoopSt) : (setLoop o l s).pr = s.pr := (rfl)
@[simp] theorem setLoop_gh (o : Nat) (l : LoopSt) : (setLoop o l s).gh = s.gh := (rfl)
@[simp] theorem setLoop_ph (o : Nat) (l : LoopSt) : (setLoop o l s).ph = s.ph := (rfl)
@[simp] theorem setLoop_can (o : Nat) (l : LoopSt) : (setLoop o l s).can = s.can := (rfl)
@[simp] theorem setLoop_ks (o : Nat) (l : LoopSt) : (setLoop o l s).ks = s.ks := (rfl)
@[simp] theorem setLoop_pc (o : Nat) (l : LoopSt) : (setLoop o l s).pc = s.pc := (rfl)

@[simp] theorem setNode_pending (a : Nat) (n : NodeSt) : (setNode a n s).pending = s.pending := (rfl)
@[simp] theorem setNode_now (a : Nat) (n : NodeSt) : (setNode a n s).now = s.now := (rfl)
@[simp] theorem setNode_freeCtr (a : Nat) (n : NodeSt) : (setNode a n s).freeCtr = s.freeCtr := (rfl)
@[simp] theorem setNode_sys (a : Nat) (n : NodeSt) : (setNode a n s).sys = s.sys := (rfl)
@[simp] theorem setNode_regs (a : Nat) (n : NodeSt) : (setNode a n s).regs = s.regs := (rfl)
@[simp] theorem setNode_held (a : Nat) (n : NodeSt) : (setNode a n s).held = s.held := (rfl)
@[simp] theorem setNode_mem (a : Nat) (n : NodeSt) : (setNode a n s).mem = s.mem := (rfl)
@[simp] theorem setNode_cores (a : Nat) (n : NodeSt) : (setNode a n s).cores = s.cores := (rfl)
@[simp] theorem setNode_pg (a : Nat) (n : NodeSt) : (setNode a n s).pg = s.pg := (rfl)
@[simp] theorem setNode_sd (a : Nat) (n : NodeSt) : (setNode a n s).sd = s.sd := (rfl)
@[simp] theorem setNode_mains (a : Nat) (n : NodeSt) : (setNode a n s).mains = s.mains := (rfl)
@[simp] theorem setNode_fb (a : Nat) (n : NodeSt) : (setNode a n s).fb = s.fb := (rfl)
@[simp] theorem setNode_fbo (a : Nat) (n : NodeSt) : (setNode a n s).fbo = s.fbo := (rfl)
@[simp] theorem setNode_mo (a : Nat) (n : NodeSt) : (setNode a n s).mo = s.mo := (rfl)
@[simp] theorem setNode_sv (a : Nat) (n : NodeSt) : (setNode a n s).sv = s.sv := (rfl)
@[simp] theorem setNode_bv (a : Nat) (n : NodeSt) : (setNode a n s).bv = s.bv := (rfl)
@[simp] theorem setNode_time (a : Nat) (n : NodeSt) : (setNode a n s).time = s.time := (rfl)
@[simp] theorem setNode_pr (a : Nat) (n : NodeSt) : (setNode a n s).pr = s.pr := (rfl)
@[simp] theorem setNode_gh (a : Nat) (n : NodeSt) : (setNode a n s).gh = s.gh := (rfl)
@[simp] theorem setNode_ph (a : Nat) (n : NodeSt) : (setNode a n s).ph = s.ph := (rfl)
@[simp] theorem setNode_can (a : Nat) (n : NodeSt) : (setNode a n s).can = s.can := (rfl)
@[simp] theorem setNode_ks (a : Nat) (n : NodeSt) : (setNode a n s).ks = s.ks := (rfl)
@[simp] theorem setNode_pc (a : Nat) (n : NodeSt) : (setNode a n s).pc = s.pc := (rfl)

@[simp] theorem setAxisUpl_pending (a : Nat) (u : AxisUpl) : (setAxisUpl a u s).pending = s.pending := (rfl)
@[simp] theorem setAxisUpl_now (a : Nat) (u : AxisUpl) : (setAxisUpl a u s).now = s.now := (rfl)
@[simp] theorem setAxisUpl_freeCtr (a : Nat) (u : AxisUpl) : (setAxisUpl a u s).freeCtr = s.freeCtr := (rfl)
@[simp] theorem setAxisUpl_sys (a : Nat) (u : AxisUpl) : (setAxisUpl a u s).sys = s.sys := (rfl)
@[simp] theorem setAxisUpl_regs (a : Nat) (u : AxisUpl) : (setAxisUpl a u s).regs = s.regs := (rfl)
@[simp] theorem setAxisUpl_held (a : Nat) (u : AxisUpl) : (setAxisUpl a u s).held = s.held := (rfl)
@[simp] theorem setAxisUpl_mem (a : Nat) (u : AxisUpl) : (setAxisUpl a u s).mem = s.mem := (rfl)
@[simp] theorem setAxisUpl_cores (a : Nat) (u : AxisUpl) : (setAxisUpl a u s).cores = s.cores := (rfl)
@[simp] theorem setAxisUpl_pg (a : Nat) (u : AxisUpl) : (setAxisUpl a u s).pg = s.pg := (rfl)
@[simp] theorem setAxisUpl_sd (a : Nat) (u : AxisUpl) : (setAxisUpl a u s).sd = s.sd := (rfl)
@[simp] theorem setAxisUpl_mains (a : Nat) (u : AxisUpl) : (setAxisUpl a u s).mains = s.mains := (rfl)
@[simp] theorem setAxisUpl_fb (a : Nat) (u : AxisUpl) : (setAxisUpl a u s).fb = s.fb := (rfl)
@[simp] theorem setAxisUpl_fbo (a : Nat) (u : AxisUpl) : (setAxisUpl a u s).fbo = s.fbo := (rfl)
@[simp] theorem setAxisUpl_mo (a : Nat) (u : AxisUpl) : (setAxisUpl a u s).mo = s.mo := (rfl)
@[simp] theorem setAxisUpl_sv (a : Nat) (u : AxisUpl) : (setAxisUpl a u s).sv = s.sv := (rfl)
@[simp] theorem setAxisUpl_bv (a : Nat) (u : AxisUpl) : (setAxisUpl a u s).bv = s.bv := (rfl)
@[simp] theorem setAxisUpl_time (a : Nat) (u : AxisUpl) : (setAxisUpl a u s).time = s.time := (rfl)
@[simp] theorem setAxisUpl_pr (a : Nat) (u : AxisUpl) : (setAxisUpl a u s).pr = s.pr := (rfl)
@[simp] theorem setAxisUpl_gh (a : Nat) (u : AxisUpl) : (setAxisUpl a u s).gh = s.gh := (rfl)
@[simp] theorem setAxisUpl_ph (a : Nat) (u : AxisUpl) : (setAxisUpl a u s).ph = s.ph := (rfl)
@[simp] theorem setAxisUpl_can (a : Nat) (u : AxisUpl) : (setAxisUpl a u s).can = s.can := (rfl)
@[simp] theorem setAxisUpl_ks (a : Nat) (u : AxisUpl) : (setAxisUpl a u s).ks = s.ks := (rfl)
@[simp] theorem setAxisUpl_pc (a : Nat) (u : AxisUpl) : (setAxisUpl a u s).pc = s.pc := (rfl)

@[simp] theorem sendFrame_pending (f : SentFrame) : (sendFrame f s).pending = s.pending := (rfl)
@[simp] theorem sendFrame_now (f : SentFrame) : (sendFrame f s).now = s.now := (rfl)
@[simp] theorem sendFrame_freeCtr (f : SentFrame) : (sendFrame f s).freeCtr = s.freeCtr := (rfl)
@[simp] theorem sendFrame_sys (f : SentFrame) : (sendFrame f s).sys = s.sys := (rfl)
@[simp] theorem sendFrame_regs (f : SentFrame) : (sendFrame f s).regs = s.regs := (rfl)
@[simp] theorem sendFrame_held (f : SentFrame) : (sendFrame f s).held = s.held := (rfl)
@[simp] theorem sendFrame_mem (f : SentFrame) : (sendFrame f s).mem = s.mem := (rfl)
@[simp] theorem sendFrame_cores (f : SentFrame) : (sendFrame f s).cores = s.cores := (rfl)
@[simp] theorem sendFrame_pg (f : SentFrame) : (sendFrame f s).pg = s.pg := (rfl)
@[simp] theorem sendFrame_sd (f : SentFrame) : (sendFrame f s).sd = s.sd := (rfl)
@[simp] theorem sendFrame_mains (f : SentFrame) : (sendFrame f s).mains = s.mains := (rfl)
@[simp] theorem sendFrame_fb (f : SentFrame) : (sendFrame f s).fb = s.fb := (rfl)
@[simp] theorem sendFrame_fbo (f : SentFrame) : (sendFrame f s).fbo = s.fbo := (rfl)
@[simp] theorem sendFrame_mo (f : SentFrame) : (sendFrame f s).mo = s.mo := (rfl)
@[simp] theorem sendFrame_sv (f : SentFrame) : (sendFrame f s).sv = s.sv := (rfl)
@[simp] theorem sendFrame_bv (f : SentFrame) : (sendFrame f s).bv = s.bv := (rfl)
@[simp] theorem sendFrame_time (f : SentFrame) : (sendFrame f s).time = s.time := (rfl)
@[simp] theorem sendFrame_pr (f : SentFrame) : (sendFrame f s).pr = s.pr := (rfl)
@[simp] theorem sendFrame_gh (f : SentFrame) : (sendFrame f s).gh = s.gh := (rfl)
@[simp] theorem sendFrame_ph (f : SentFrame) : (sendFrame f s).ph = s.ph := (rfl)
@[simp] theorem sendFrame_can (f : SentFrame) : (sendFrame f s).can = s.can := (rfl)
@[simp] theorem sendFrame_ks (f : SentFrame) : (sendFrame f s).ks = s.ks := (rfl)
@[simp] theorem sendFrame_pc (f : SentFrame) : (sendFrame f s).pc = s.pc := (rfl)

@[simp] theorem setBv_pending (g : Fin 4) (x : BvGroup) : (setBv g x s).pending = s.pending := (rfl)
@[simp] theorem setBv_now (g : Fin 4) (x : BvGroup) : (setBv g x s).now = s.now := (rfl)
@[simp] theorem setBv_freeCtr (g : Fin 4) (x : BvGroup) : (setBv g x s).freeCtr = s.freeCtr := (rfl)
@[simp] theorem setBv_sys (g : Fin 4) (x : BvGroup) : (setBv g x s).sys = s.sys := (rfl)
@[simp] theorem setBv_regs (g : Fin 4) (x : BvGroup) : (setBv g x s).regs = s.regs := (rfl)
@[simp] theorem setBv_held (g : Fin 4) (x : BvGroup) : (setBv g x s).held = s.held := (rfl)
@[simp] theorem setBv_mem (g : Fin 4) (x : BvGroup) : (setBv g x s).mem = s.mem := (rfl)
@[simp] theorem setBv_cores (g : Fin 4) (x : BvGroup) : (setBv g x s).cores = s.cores := (rfl)
@[simp] theorem setBv_pg (g : Fin 4) (x : BvGroup) : (setBv g x s).pg = s.pg := (rfl)
@[simp] theorem setBv_sd (g : Fin 4) (x : BvGroup) : (setBv g x s).sd = s.sd := (rfl)
@[simp] theorem setBv_mains (g : Fin 4) (x : BvGroup) : (setBv g x s).mains = s.mains := (rfl)
@[simp] theorem setBv_fb (g : Fin 4) (x : BvGroup) : (setBv g x s).fb = s.fb := (rfl)
@[simp] theorem setBv_fbo (g : Fin 4) (x : BvGroup) : (setBv g x s).fbo = s.fbo := (rfl)
@[simp] theorem setBv_mo (g : Fin 4) (x : BvGroup) : (setBv g x s).mo = s.mo := (rfl)
@[simp] theorem setBv_sv (g : Fin 4) (x : BvGroup) : (setBv g x s).sv = s.sv := (rfl)
@[simp] theorem setBv_lk (g : Fin 4) (x : BvGroup) : (setBv g x s).lk = s.lk := (rfl)
@[simp] theorem setBv_time (g : Fin 4) (x : BvGroup) : (setBv g x s).time = s.time := (rfl)
@[simp] theorem setBv_pr (g : Fin 4) (x : BvGroup) : (setBv g x s).pr = s.pr := (rfl)
@[simp] theorem setBv_gh (g : Fin 4) (x : BvGroup) : (setBv g x s).gh = s.gh := (rfl)
@[simp] theorem setBv_ph (g : Fin 4) (x : BvGroup) : (setBv g x s).ph = s.ph := (rfl)
@[simp] theorem setBv_can (g : Fin 4) (x : BvGroup) : (setBv g x s).can = s.can := (rfl)
@[simp] theorem setBv_ks (g : Fin 4) (x : BvGroup) : (setBv g x s).ks = s.ks := (rfl)
@[simp] theorem setBv_pc (g : Fin 4) (x : BvGroup) : (setBv g x s).pc = s.pc := (rfl)

@[simp] theorem pcSet_pending (k v : Nat) : (pcSet k v s).pending = s.pending := (rfl)
@[simp] theorem pcSet_now (k v : Nat) : (pcSet k v s).now = s.now := (rfl)
@[simp] theorem pcSet_freeCtr (k v : Nat) : (pcSet k v s).freeCtr = s.freeCtr := (rfl)
@[simp] theorem pcSet_sys (k v : Nat) : (pcSet k v s).sys = s.sys := (rfl)
@[simp] theorem pcSet_regs (k v : Nat) : (pcSet k v s).regs = s.regs := (rfl)
@[simp] theorem pcSet_held (k v : Nat) : (pcSet k v s).held = s.held := (rfl)
@[simp] theorem pcSet_mem (k v : Nat) : (pcSet k v s).mem = s.mem := (rfl)
@[simp] theorem pcSet_cores (k v : Nat) : (pcSet k v s).cores = s.cores := (rfl)
@[simp] theorem pcSet_pg (k v : Nat) : (pcSet k v s).pg = s.pg := (rfl)
@[simp] theorem pcSet_sd (k v : Nat) : (pcSet k v s).sd = s.sd := (rfl)
@[simp] theorem pcSet_mains (k v : Nat) : (pcSet k v s).mains = s.mains := (rfl)
@[simp] theorem pcSet_fb (k v : Nat) : (pcSet k v s).fb = s.fb := (rfl)
@[simp] theorem pcSet_fbo (k v : Nat) : (pcSet k v s).fbo = s.fbo := (rfl)
@[simp] theorem pcSet_mo (k v : Nat) : (pcSet k v s).mo = s.mo := (rfl)
@[simp] theorem pcSet_sv (k v : Nat) : (pcSet k v s).sv = s.sv := (rfl)
@[simp] theorem pcSet_bv (k v : Nat) : (pcSet k v s).bv = s.bv := (rfl)
@[simp] theorem pcSet_lk (k v : Nat) : (pcSet k v s).lk = s.lk := (rfl)
@[simp] theorem pcSet_time (k v : Nat) : (pcSet k v s).time = s.time := (rfl)
@[simp] theorem pcSet_pr (k v : Nat) : (pcSet k v s).pr = s.pr := (rfl)
@[simp] theorem pcSet_gh (k v : Nat) : (pcSet k v s).gh = s.gh := (rfl)
@[simp] theorem pcSet_ph (k v : Nat) : (pcSet k v s).ph = s.ph := (rfl)
@[simp] theorem pcSet_can (k v : Nat) : (pcSet k v s).can = s.can := (rfl)
@[simp] theorem pcSet_ks (k v : Nat) : (pcSet k v s).ks = s.ks := (rfl)

end Sys2Proof.Machine
end

