-- ==== Sys2Proof/Laws/Store.lean ====
section
/-! SUPPORT. Sparse maps: a read after a write, and that every operation keeps the canonical form. -/

namespace Sys2Proof.Machine

variable {β : Type}

theorem mapGet_mapErase_same (d : β) (m : SMap β) (a : Nat) : mapGet d (mapErase m a) a = d := by
  induction m with
  | nil => rfl
  | cons e m ih =>
    obtain ⟨k, v⟩ := e
    by_cases h : a = k <;> simp [mapErase, mapGet, h] <;> simpa [h] using ih

theorem mapGet_mapErase_other (d : β) (m : SMap β) {a b : Nat} (h : b ≠ a) : mapGet d (mapErase m a) b = mapGet d m b := by
  induction m with
  | nil => rfl
  | cons e m ih =>
    obtain ⟨k, v⟩ := e
    by_cases ha : a = k
    · subst ha; simp [mapErase, mapGet, h, ih]
    · simp [mapErase, mapGet, ha, ih]

theorem mapGet_mapInsert_same (d : β) (m : SMap β) (a : Nat) (v : β) : mapGet d (mapInsert m a v) a = v := by
  induction m with
  | nil => simp [mapInsert, mapGet]
  | cons e m ih =>
    obtain ⟨k, w⟩ := e
    by_cases h1 : a < k
    · simp [mapInsert, mapGet, h1]
    · by_cases h2 : a = k <;> simp [mapInsert, mapGet, h1, h2, ih]

theorem mapGet_mapInsert_other (d : β) (m : SMap β) {a b : Nat} (v : β) (h : b ≠ a) :
    mapGet d (mapInsert m a v) b = mapGet d m b := by
  induction m with
  | nil => simp [mapInsert, mapGet, h]
  | cons e m ih =>
    obtain ⟨k, w⟩ := e
    by_cases h1 : a < k
    · simp [mapInsert, mapGet, h1, h]
    · by_cases h2 : a = k
      · subst h2; simp [mapInsert, mapGet, h]
      · simp [mapInsert, mapGet, h1, h2, ih]

/-- A read after a write to the same key gives the value written. -/
@[simp] theorem mapGet_mapPut_same [DecidableEq β] (d : β) (m : SMap β) (a : Nat) (v : β) :
    mapGet d (mapPut d m a v) a = v := by
  by_cases h : v = d
  · subst h; simp [mapPut, mapGet_mapErase_same]
  · simp [mapPut, h, mapGet_mapInsert_same]

/-- A write leaves every other key alone, whatever its unlisted value. -/
theorem mapGet_mapPut_other [DecidableEq β] (d d' : β) (m : SMap β) {a b : Nat} (v : β) (h : b ≠ a) :
    mapGet d' (mapPut d m a v) b = mapGet d' m b := by
  by_cases hv : v = d
  · simp [mapPut, hv, mapGet_mapErase_other d' m h]
  · simp [mapPut, hv, mapGet_mapInsert_other d' m v h]

theorem mem_mapErase {m : SMap β} {a : Nat} {e : Nat × β} (h : e ∈ mapErase m a) : e ∈ m := by
  induction m with
  | nil => simp [mapErase] at h
  | cons x m ih =>
    obtain ⟨k, v⟩ := x
    by_cases ha : a = k
    · simp [mapErase, ha] at h
      exact .tail _ (ih (by simpa [ha] using h))
    · simp [mapErase, ha] at h
      rcases h with h | h
      · simp [h]
      · exact .tail _ (ih h)

theorem mem_mapInsert {m : SMap β} {a : Nat} {v : β} {e : Nat × β} (h : e ∈ mapInsert m a v) : e = (a, v) ∨ e ∈ m := by
  induction m with
  | nil => simp [mapInsert] at h; exact .inl h
  | cons x m ih =>
    obtain ⟨k, w⟩ := x
    by_cases h1 : a < k
    · simpa [mapInsert, h1] using h
    · by_cases h2 : a = k
      · simp [mapInsert, h2] at h
        rcases h with h | h
        · exact .inl (by simp [h, h2])
        · exact .inr (.tail _ h)
      · simp [mapInsert, h1, h2] at h
        rcases h with h | h
        · exact .inr (by simp [h])
        · rcases ih h with h | h
          · exact .inl h
          · exact .inr (.tail _ h)

/-- What the canonical form says of a nonempty map. -/
theorem mapWf_cons [DecidableEq β] (dflt : Nat → β) (k : Nat) (v : β) (m : SMap β) :
    mapWf dflt ((k, v) :: m) = true ↔ v ≠ dflt k ∧ (∀ e ∈ m, k < e.1) ∧ mapWf dflt m = true := by
  simp [mapWf, and_assoc]

theorem mapErase_keeps_wf [DecidableEq β] {dflt : Nat → β} {m : SMap β} (a : Nat) (h : mapWf dflt m = true) :
    mapWf dflt (mapErase m a) = true := by
  induction m with
  | nil => rfl
  | cons x m ih =>
    obtain ⟨k, v⟩ := x
    obtain ⟨hv, hk, hm⟩ := (mapWf_cons ..).1 h
    by_cases ha : a = k
    · simpa [mapErase, ha] using ih hm
    · simp only [mapErase, ha, if_false]
      exact (mapWf_cons ..).2 ⟨hv, fun e he => hk e (mem_mapErase he), ih hm⟩

theorem mapInsert_keeps_wf [DecidableEq β] {dflt : Nat → β} {m : SMap β} {a : Nat} {v : β} (hv : v ≠ dflt a)
    (h : mapWf dflt m = true) : mapWf dflt (mapInsert m a v) = true := by
  induction m with
  | nil => simp [mapInsert, mapWf, hv]
  | cons x m ih =>
    obtain ⟨k, w⟩ := x
    obtain ⟨hw, hk, hm⟩ := (mapWf_cons ..).1 h
    by_cases h1 : a < k
    · simp only [mapInsert, h1, if_true]
      refine (mapWf_cons ..).2 ⟨hv, ?_, h⟩
      intro e he
      rcases List.mem_cons.1 he with rfl | he
      · exact h1
      · exact h1.trans (hk e he)
    · by_cases h2 : a = k
      · subst h2
        simp only [mapInsert, lt_irrefl, if_false, if_true]
        exact (mapWf_cons ..).2 ⟨hv, hk, hm⟩
      · simp only [mapInsert, h1, h2, if_false]
        refine (mapWf_cons ..).2 ⟨hw, ?_, ih hm⟩
        intro e he
        rcases mem_mapInsert he with rfl | he
        · exact lt_of_le_of_ne (not_lt.1 h1) (Ne.symm h2)
        · exact hk e he

/-- A write keeps the canonical form, where d is what key a reads as unlisted. -/
theorem mapPut_keeps_wf [DecidableEq β] {dflt : Nat → β} {m : SMap β} {a : Nat} (d v : β) (hd : d = dflt a)
    (h : mapWf dflt m = true) : mapWf dflt (mapPut d m a v) = true := by
  subst hd
  by_cases hv : v = dflt a
  · simpa [mapPut, hv] using mapErase_keeps_wf a h
  · simpa [mapPut, hv] using mapInsert_keeps_wf hv h

/-- Dropping entries keeps the canonical form. -/
theorem filter_keeps_wf [DecidableEq β] {dflt : Nat → β} {m : SMap β} (p : Nat × β → Bool) (h : mapWf dflt m = true) :
    mapWf dflt (m.filter p) = true := by
  induction m with
  | nil => rfl
  | cons x m ih =>
    obtain ⟨k, v⟩ := x
    obtain ⟨hv, hk, hm⟩ := (mapWf_cons ..).1 h
    by_cases hp : p (k, v)
    · simp only [List.filter_cons, hp, if_true]
      exact (mapWf_cons ..).2 ⟨hv, fun e he => hk e (List.mem_filter.1 he).1, ih hm⟩
    · simpa [List.filter_cons, hp] using ih hm

end Sys2Proof.Machine
end

