-- ==== Sys2Proof/Laws/Ops.lean ====
section
/-! SUPPORT. What the shared operations over registers and memories do: the word read after each, and that each keeps the canonical form. -/

namespace Sys2Proof.Machine

theorem canonAddr_idem (a : Nat) : canonAddr (canonAddr a) = canonAddr a := by
  unfold canonAddr
  split
  · rw [if_pos ⟨by omega, by omega, by omega⟩]; omega
  · rfl

theorem blockRows_canonAddr (a : Nat) : blockRows (canonAddr a) = blockRows a := by
  unfold canonAddr
  split
  · rename_i h
    have h1 := h.1; have h2 := h.2.1
    have b1 : 0xF10000 ≤ 0xF10000 + a % 256 := by omega
    have b2 : 0xF10000 + a % 256 < 0xF20000 := by omega
    unfold blockRows
    simp only [show ¬ (0xF10000 + a % 256 < 0xF00000) by omega, show ¬ (0xF10000 + a % 256 < 0xF04000) by omega,
      show ¬ (0xF10000 + a % 256 < 0xF08000) by omega, show ¬ (0xF10000 + a % 256 < 0xF10000) by omega, b2,
      show ¬ (a < 0xF00000) by omega, show ¬ (a < 0xF04000) by omega, show ¬ (a < 0xF08000) by omega,
      show ¬ (a < 0xF10000) by omega, h2, if_true, if_false]
  · rfl

/-- Every alias of a register has its reset word. -/
theorem resetWord_canonAddr (a : Nat) : resetWord (canonAddr a) = resetWord a := by
  unfold resetWord rowOf
  rw [blockRows_canonAddr, canonAddr_idem]

theorem resetWord_congr {a b : Nat} (h : canonAddr a = canonAddr b) : resetWord a = resetWord b := by
  rw [← resetWord_canonAddr a, h, resetWord_canonAddr]

variable (s : State)

theorem regGet_congr {a b : Nat} (h : canonAddr a = canonAddr b) : regGet s a = regGet s b := by
  unfold regGet; rw [h, resetWord_congr h]

/-- A register reads as the word set. -/
@[simp] theorem regGet_regSet_same (a : Nat) (w : Word) : regGet (regSet a w s) a = w := by
  simp [regGet, regSet]

/-- Every other register keeps its word. -/
theorem regGet_regSet_other {a b : Nat} (w : Word) (h : canonAddr b ≠ canonAddr a) : regGet (regSet a w s) b = regGet s b := by
  simp [regGet, regSet, mapGet_mapPut_other _ _ _ _ h]

theorem regGet_regSet (a b : Nat) (w : Word) :
    regGet (regSet a w s) b = if canonAddr b = canonAddr a then w else regGet s b := by
  split
  · rename_i h; rw [regGet_congr _ h]; simp
  · rename_i h; exact regGet_regSet_other s w h

/-- A register read depends on the register file alone. -/
theorem regGet_of_regs {s t : State} (h : t.regs = s.regs) (a : Nat) : regGet t a = regGet s a := by
  unfold regGet; rw [h]

theorem inForce_of {s t : State} (h : t.regs = s.regs) (h' : t.held = s.held) (a : Nat) : inForce t a = inForce s a := by
  unfold inForce; rw [h', regGet_of_regs h]

theorem regGet_hwMod (a b : Nat) (f : Word → Word) :
    regGet (hwMod a f s) b = if canonAddr b = canonAddr a then f (regGet s a) else regGet s b := by
  rw [← regGet_regSet]; rfl

theorem lookupNat_map (l : List (Nat × Word)) (k : Nat) (f : Word → Word) (a : Nat) :
    lookupNat (l.map fun e => if e.1 = k then (e.1, f e.2) else e) a = if a = k then (lookupNat l a).map f else lookupNat l a := by
  induction l with
  | nil => simp [lookupNat]
  | cons e l ih =>
    obtain ⟨j, w⟩ := e
    by_cases h : j = k
    · subst h
      by_cases ha : a = j <;> simp [lookupNat, ha, ih]
    · by_cases ha : a = j
      · subst ha; simp [lookupNat, h]
      · simp [lookupNat, h, ha, ih]

/-- The word in force after a change by hardware. -/
theorem inForce_hwMod (a b : Nat) (f : Word → Word) :
    inForce (hwMod a f s) b = if canonAddr b = canonAddr a then f (inForce s a) else inForce s b := by
  have hh : (hwMod a f s).held = s.held.map fun e => if e.1 = canonAddr a then (e.1, f e.2) else e := rfl
  unfold inForce
  rw [hh, lookupNat_map, regGet_hwMod]
  by_cases h : canonAddr b = canonAddr a
  · rw [if_pos h, if_pos h, if_pos h, h]
    cases lookupNat s.held (canonAddr a) <;> rfl
  · rw [if_neg h, if_neg h, if_neg h]

@[simp] theorem regGet_putWord_same (a : Nat) (w : Word) : regGet (putWord a w s) a = w := by
  simp [putWord, regGet_hwMod]

theorem regGet_putWord_other {a b : Nat} (w : Word) (h : canonAddr b ≠ canonAddr a) : regGet (putWord a w s) b = regGet s b := by
  simp [putWord, regGet_hwMod, h]

/-- A counter counts by one, modulo 2^20. -/
@[simp] theorem regGet_count_same (a : Nat) : regGet (count a s) a = regGet s a + 1 := by
  simp [count, countBy, regGet_hwMod, word]

theorem regGet_count_other {a b : Nat} (h : canonAddr b ≠ canonAddr a) : regGet (count a s) b = regGet s b := by
  simp [count, countBy, regGet_hwMod, h]

theorem regGet_putBit (a b n : Nat) (v : Bool) :
    regGet (putBit a n v s) b = if canonAddr b = canonAddr a then setBit (regGet s a) n v else regGet s b := regGet_hwMod ..

theorem regGet_putFld (a b hi lo v : Nat) :
    regGet (putFld a hi lo v s) b = if canonAddr b = canonAddr a then setFld (regGet s a) hi lo v else regGet s b := regGet_hwMod ..

theorem inForce_putWord_same (a : Nat) (w : Word) : inForce (putWord a w s) a = w := by
  simp [putWord, inForce_hwMod]

theorem inForce_putWord_other {a b : Nat} (w : Word) (h : canonAddr b ≠ canonAddr a) : inForce (putWord a w s) b = inForce s b := by
  simp [putWord, inForce_hwMod, h]

theorem inForce_putBit (a b n : Nat) (v : Bool) :
    inForce (putBit a n v s) b = if canonAddr b = canonAddr a then setBit (inForce s a) n v else inForce s b := inForce_hwMod ..

theorem inForce_putFld (a b hi lo v : Nat) :
    inForce (putFld a hi lo v s) b = if canonAddr b = canonAddr a then setFld (inForce s a) hi lo v else inForce s b := inForce_hwMod ..

/-! ### The canonical form -/

/-- The canonical form speaks of the register file and the memories alone. -/
theorem canonical_of {s t : State} (hr : t.regs = s.regs) (hm : t.mem = s.mem) (h : s.canonical = true) : t.canonical = true := by
  unfold State.canonical at *; rw [hr, hm]; exact h

theorem canonical_regSet (a : Nat) (w : Word) {s : State} (h : s.canonical = true) : (regSet a w s).canonical = true := by
  simp only [State.canonical, Bool.and_eq_true] at h ⊢
  exact ⟨⟨⟨⟨⟨mapPut_keeps_wf _ _ (resetWord_canonAddr a).symm h.1.1.1.1.1, h.1.1.1.1.2⟩, h.1.1.1.2⟩, h.1.1.2⟩, h.1.2⟩, h.2⟩

theorem canonical_hwMod (a : Nat) (f : Word → Word) {s : State} (h : s.canonical = true) : (hwMod a f s).canonical = true :=
  canonical_of (s := regSet a (f (regGet s a)) s) rfl rfl (canonical_regSet _ _ h)

theorem canonical_stageReg (a : Nat) (w : Word) {s : State} (h : s.canonical = true) : (stageReg a w s).canonical = true := by
  rw [stageReg_eq]
  split
  · exact canonical_regSet _ _ h
  · exact canonical_of (s := regSet a w s) rfl rfl (canonical_regSet _ _ h)

theorem canonical_xySet (c a : Nat) (w : Word) {s : State} (h : s.canonical = true) : (xySet c a w s).canonical = true := by
  simp only [State.canonical, Bool.and_eq_true] at h ⊢
  exact ⟨⟨⟨⟨⟨h.1.1.1.1.1, mapPut_keeps_wf _ _ rfl h.1.1.1.1.2⟩, h.1.1.1.2⟩, h.1.1.2⟩, h.1.2⟩, h.2⟩

theorem canonical_sharedSet (a : Nat) (w : Word) {s : State} (h : s.canonical = true) : (sharedSet a w s).canonical = true := by
  simp only [State.canonical, Bool.and_eq_true] at h ⊢
  exact ⟨⟨⟨⟨⟨h.1.1.1.1.1, h.1.1.1.1.2⟩, mapPut_keeps_wf _ _ rfl h.1.1.1.2⟩, h.1.1.2⟩, h.1.2⟩, h.2⟩

theorem canonical_bvRecSet (a : Nat) (w : Word) {s : State} (h : s.canonical = true) : (bvRecSet a w s).canonical = true := by
  simp only [State.canonical, Bool.and_eq_true] at h ⊢
  exact ⟨⟨⟨⟨⟨h.1.1.1.1.1, h.1.1.1.1.2⟩, h.1.1.1.2⟩, mapPut_keeps_wf _ _ rfl h.1.1.2⟩, h.1.2⟩, h.2⟩

theorem canonical_pgmSet (c a : Nat) (w : BitVec 40) {s : State} (h : s.canonical = true) : (pgmSet c a w s).canonical = true := by
  simp only [State.canonical, Bool.and_eq_true] at h ⊢
  exact ⟨⟨⟨⟨⟨h.1.1.1.1.1, h.1.1.1.1.2⟩, h.1.1.1.2⟩, h.1.1.2⟩, mapPut_keeps_wf _ _ rfl h.1.2⟩, h.2⟩

theorem canonical_mramSet (a : Nat) (w : Word) {s : State} (h : s.canonical = true) : (mramSet a w s).canonical = true := by
  unfold mramSet
  split
  · exact h
  · simp only [State.canonical, Bool.and_eq_true] at h ⊢
    exact ⟨⟨⟨⟨⟨h.1.1.1.1.1, h.1.1.1.1.2⟩, h.1.1.1.2⟩, h.1.1.2⟩, h.1.2⟩, mapPut_keeps_wf _ _ rfl h.2⟩

/-- A memory word reads as the word written, and every other word as before. -/
theorem sharedGet_sharedSet (a b : Nat) (w : Word) : sharedGet (sharedSet a w s) b = if b = a then w else sharedGet s b := by
  by_cases h : b = a
  · subst h; simp [sharedGet, sharedSet]
  · simp [sharedGet, sharedSet, h, mapGet_mapPut_other _ _ _ _ h]

theorem mramGet_mramSet (a b : Nat) (w : Word) (ho : s.sys.op ≠ .test) :
    mramGet (mramSet a w s) b = if b = a then w else mramGet s b := by
  by_cases h : b = a
  · subst h; simp [mramGet, mramSet, ho]
  · simp [mramGet, mramSet, ho, h, mapGet_mapPut_other _ _ _ _ h]

/-- A bank word, of one core. -/
theorem xyGet_xySet (c a c' a' : Nat) (w : Word) :
    xyGet (xySet c a w s) c' a' = if c' * 131072 + a' = c * 131072 + a then w else xyGet s c' a' := by
  by_cases h : c' * 131072 + a' = c * 131072 + a
  · simp [xyGet, xySet, h]
  · simp [xyGet, xySet, h, mapGet_mapPut_other _ _ _ _ h]

end Sys2Proof.Machine
end

