-- ==== Sys2Proof/Laws/Frame.lean ====
section
/-! SUPPORT. Frames compose: reflexivity, transitivity and loops, and the frames of the shared register operations. -/

namespace Sys2Proof.Machine

theorem Part.same_refl (s : State) (p : Part) : p.same s s := by cases p <;> rfl

theorem Part.same_trans {s t u : State} {p : Part} (h : p.same s t) (k : p.same t u) : p.same s u := by
  cases p <;> exact Eq.trans k h

theorem sameBut_refl (l : List Part) (s : State) : sameBut l s s := fun p _ => p.same_refl s

theorem sameBut_trans {l : List Part} {s t u : State} (h : sameBut l s t) (k : sameBut l t u) : sameBut l s u :=
  fun p hp => Part.same_trans (h p hp) (k p hp)

theorem sameBut_mono {l l' : List Part} {s t : State} (hl : ∀ p ∈ l, p ∈ l') (h : sameBut l s t) : sameBut l' s t :=
  fun p hp => h p fun q => hp (hl p q)

/-- A loop keeps what each of its rounds keeps. -/
theorem forEach_induct {α : Type} (P : State → Prop) (l : List α) (f : α → State → State) (hf : ∀ x ∈ l, ∀ s, P s → P (f x s))
    {s : State} (h : P s) : P (forEach l f s) := by
  unfold forEach
  induction l generalizing s with
  | nil => exact h
  | cons x l ih => exact ih (fun y hy => hf y (.tail _ hy)) (hf x (.head _) s h)

theorem upTo_induct (P : State → Prop) (n : Nat) (f : Nat → State → State) (hf : ∀ i < n, ∀ s, P s → P (f i s))
    {s : State} (h : P s) : P (upTo n f s) :=
  forEach_induct P (List.range n) f (fun i hi => hf i (List.mem_range.1 hi)) h

theorem whenB_induct (P : State → Prop) (b : Bool) (f : State → State) (hf : ∀ s, P s → P (f s)) {s : State} (h : P s) :
    P (whenB b f s) := by
  cases b
  · exact h
  · exact hf s h

theorem sameReg_refl (s : State) (a : Nat) : sameReg s s a := ⟨rfl, rfl⟩

theorem sameReg_trans {s t u : State} {a : Nat} (h : sameReg s t a) (k : sameReg t u a) : sameReg s u a :=
  ⟨k.1.trans h.1, k.2.trans h.2⟩

theorem sameReg_of {s t : State} (h : t.regs = s.regs) (h' : t.held = s.held) (a : Nat) : sameReg s t a :=
  ⟨regGet_of_regs h a, inForce_of h h' a⟩

theorem regsBut_refl (as : List Nat) (s : State) : regsBut as s s := fun a _ => sameReg_refl s a

theorem regsBut_trans {as : List Nat} {s t u : State} (h : regsBut as s t) (k : regsBut as t u) : regsBut as s u :=
  fun a ha => sameReg_trans (h a ha) (k a ha)

theorem regsBut_of {s t : State} (h : t.regs = s.regs) (h' : t.held = s.held) (as : List Nat) : regsBut as s t :=
  fun a _ => sameReg_of h h' a

theorem regsButEvents_of {as : List Nat} {s t : State} (h : regsBut as s t) : regsButEvents as s t := fun a ha _ => h a ha

theorem regsButEvents_trans {as : List Nat} {s t u : State} (h : regsButEvents as s t) (k : regsButEvents as t u) :
    regsButEvents as s u := fun a ha he => sameReg_trans (h a ha he) (k a ha he)

theorem regsButEvents_mono {as bs : List Nat} {s t : State} (hl : ∀ a ∈ as, a ∈ bs) (h : regsButEvents as s t) :
    regsButEvents bs s t := fun a ha he => h a (fun q => ha (hl _ q)) he

/-- A change by hardware touches one register. -/
theorem sameReg_hwMod (s : State) {a b : Nat} (f : Word → Word) (h : canonAddr b ≠ canonAddr a) : sameReg s (hwMod a f s) b :=
  ⟨by rw [regGet_hwMod, if_neg h], by rw [inForce_hwMod, if_neg h]⟩

theorem regsBut_hwMod (s : State) (a : Nat) (f : Word → Word) : regsBut [canonAddr a] s (hwMod a f s) :=
  fun b hb => sameReg_hwMod s f (by simpa using hb)

theorem sameBut_hwMod (s : State) (a : Nat) (f : Word → Word) : sameBut [.regs, .held] s (hwMod a f s) := by
  intro p hp; cases p <;> first | rfl | exact absurd (by simp) hp

/-! ### What events change -/

theorem onlyEvents_refl (s : State) : onlyEvents s s :=
  ⟨sameBut_refl _ s, fun a _ _ => sameReg_refl s a, rfl, rfl, fun _ _ => rfl⟩

theorem onlyEvents_trans {s t u : State} (h : onlyEvents s t) (k : onlyEvents t u) : onlyEvents s u where
  parts := sameBut_trans h.parts k.parts
  regs := regsButEvents_trans h.regs k.regs
  pg := by rw [k.pg, h.pg]
  arch := k.arch.trans h.arch
  group g hg := (k.group g (by rw [h.group g hg]; exact hg)).trans (h.group g hg)

variable {o s : State}

/-- A change of a register of the event controller or of the counters. -/
theorem onlyEvents_hwMod {a : Nat} (f : Word → Word) (ha : eventReg (canonAddr a) = true) (h : onlyEvents o s) :
    onlyEvents o (hwMod a f s) :=
  onlyEvents_trans h
    ⟨sameBut_mono (by simp) (sameBut_hwMod s a f), fun b _ he => sameReg_hwMod s f (fun e => by rw [e, ha] at he; cases he),
      rfl, rfl, fun _ _ => rfl⟩

theorem onlyEvents_putBit {a : Nat} (n : Nat) (b : Bool) (ha : eventReg (canonAddr a) = true) (h : onlyEvents o s) :
    onlyEvents o (putBit a n b s) := onlyEvents_hwMod _ ha h

theorem onlyEvents_putWord {a : Nat} (w : Word) (ha : eventReg (canonAddr a) = true) (h : onlyEvents o s) :
    onlyEvents o (putWord a w s) := onlyEvents_hwMod _ ha h

theorem onlyEvents_count {a : Nat} (ha : eventReg (canonAddr a) = true) (h : onlyEvents o s) : onlyEvents o (count a s) := by
  unfold count countBy; exact onlyEvents_hwMod _ ha h

theorem sameBut_pc (x : Counters) : sameBut [.pc] s { s with pc := x } := by
  intro p hp; cases p <;> first | rfl | exact absurd (by simp) hp

theorem onlyEvents_pc (x : Counters) (h : onlyEvents o s) : onlyEvents o { s with pc := x } :=
  onlyEvents_trans h ⟨sameBut_mono (by simp) (sameBut_pc x), fun a _ _ => sameReg_of rfl rfl a, rfl, rfl, fun _ _ => rfl⟩

theorem onlyEvents_ite (c : Prop) [Decidable c] {t u : State} (h : onlyEvents o t) (k : onlyEvents o u) :
    onlyEvents o (if c then t else u) := by split <;> assumption

theorem onlyEvents_forEach {α : Type} (l : List α) {f : α → State → State} (hf : ∀ x ∈ l, ∀ s, onlyEvents o s → onlyEvents o (f x s))
    (h : onlyEvents o s) : onlyEvents o (forEach l f s) := forEach_induct _ l f hf h

theorem onlyEvents_upTo (n : Nat) {f : Nat → State → State} (hf : ∀ i < n, ∀ s, onlyEvents o s → onlyEvents o (f i s))
    (h : onlyEvents o s) : onlyEvents o (upTo n f s) := upTo_induct _ n f hf h

theorem onlyEvents_whenB (b : Bool) {f : State → State} (hf : ∀ s, onlyEvents o s → onlyEvents o (f s)) (h : onlyEvents o s) :
    onlyEvents o (whenB b f s) := whenB_induct _ b f hf h

end Sys2Proof.Machine
end

