-- ==== Sys2Proof/Laws/Events.lean ====
section
/-! SUPPORT. What raising an event may change: one lemma for each shared operation of the event sources, the counters and the asynchronous triggers. -/

namespace Sys2Proof.Machine

theorem canonAddr_above {a : Nat} (h : 0xF20000 ≤ a) : canonAddr a = a := by
  unfold canonAddr; rw [if_neg]; omega

theorem canonAddr_below {a : Nat} (h : a < 0xF10000) : canonAddr a = a := by
  unfold canonAddr; rw [if_neg]; omega

theorem eventReg_ev {a : Nat} (h : 0xF40000 ≤ a) (k : a < 0xF44000) : eventReg (canonAddr a) = true := by
  rw [canonAddr_above (by omega)]; simp [eventReg, h, k]

theorem eventReg_pc {a : Nat} (h : 0xF4C000 ≤ a) (k : a < 0xF50000) : eventReg (canonAddr a) = true := by
  rw [canonAddr_above (by omega)]; simp [eventReg, h, k]

variable {o s : State}

/-- A trigger reaches an armed group. -/
theorem onlyEvents_setBv {g : Fin 4} (x : BvGroup) (ha : s.bv.g[g].st = .armed) (h : onlyEvents o s) : onlyEvents o (setBv g x s) := by
  refine onlyEvents_trans h ⟨?_, fun a _ _ => sameReg_of rfl rfl a, rfl, rfl, fun j hj => ?_⟩
  · intro p hp; cases p <;> first | rfl | exact absurd (by simp) hp
  · have : (g : Nat) ≠ j := fun e => hj (by rw [← Fin.ext e]; exact ha)
    simp [setBv, this]

theorem bvAsync_onlyEvents (kind : Nat) (cond : BvGroup → Bool) (h : onlyEvents o s) : onlyEvents o (bvAsync kind cond s) := by
  refine onlyEvents_upTo 4 (fun _ _ s h => ?_) h
  extract_lets g x
  split
  · rename_i hc
    simp only [Bool.and_eq_true, decide_eq_true_eq] at hc
    exact onlyEvents_setBv _ hc.1.1.1 h
  · exact h

theorem bvPin_onlyEvents (tsel : Nat) (rising : Bool) (h : onlyEvents o s) : onlyEvents o (bvPin tsel rising s) :=
  bvAsync_onlyEvents _ _ h

theorem evPend_onlyEvents {n : Nat} (hn : n < 128) (h : onlyEvents o s) : onlyEvents o (evPend n s) := by
  unfold evPend
  refine onlyEvents_ite _ h (onlyEvents_ite _ ?_ ?_)
  · exact onlyEvents_count (eventReg_ev (by omega) (by omega)) (onlyEvents_putBit _ _ (eventReg_ev (by omega) (by omega)) h)
  · refine onlyEvents_trans h ⟨?_, fun a _ _ => sameReg_of rfl rfl a, rfl, rfl, fun _ _ => rfl⟩
    intro p hp; cases p <;> first | rfl | exact absurd (by simp) hp

theorem evPost_onlyEvents {n : Nat} (hn : n < 128) (h : onlyEvents o s) : onlyEvents o (evPost n s) :=
  evPend_onlyEvents hn (bvAsync_onlyEvents _ _ h)

theorem onlyEvents_pcSet (k v : Nat) (h : onlyEvents o s) : onlyEvents o (pcSet k v s) := onlyEvents_pc _ h

theorem pcSample_onlyEvents (k stage : Nat) (h : onlyEvents o s) : onlyEvents o (pcSample k stage s) := by
  unfold pcSample
  extract_lets n base
  split
  · rename_i hc
    have hk := hc.1
    refine onlyEvents_ite _ (onlyEvents_count (eventReg_pc (by omega) (by omega)) h) (onlyEvents_pc _ h)
  · exact h

theorem pcOvfAddr_range {k : Nat} (hk : k < 112) : 0xF4C000 ≤ (pcOvfAddr k).1 ∧ (pcOvfAddr k).1 < 0xF50000 := by
  unfold pcOvfAddr; split <;> simp only [] <;> omega

theorem pcAdd_onlyEvents {k : Nat} (hk : k < 112) (amount stage : Nat) (h : onlyEvents o s) : onlyEvents o (pcAdd k amount stage s) := by
  unfold pcAdd
  extract_lets v s1 s2
  have h1 : onlyEvents o s1 := onlyEvents_pcSet _ _ h
  refine onlyEvents_ite _ (pcSample_onlyEvents _ _ (onlyEvents_whenB _ (fun _ => evPost_onlyEvents (by omega)) ?_)) h1
  exact onlyEvents_putBit _ _ (eventReg_pc (pcOvfAddr_range hk).1 (pcOvfAddr_range hk).2) h1

theorem pcCoreCounter_onlyEvents {n j : Nat} (hn : n < 8) (hj : j < 12) (evs : List (Nat × Nat × Nat)) (h : onlyEvents o s) :
    onlyEvents o (pcCoreCounter n j evs s) := by
  unfold pcCoreCounter
  extract_lets k code was
  split
  extract_lets amt' s1
  have h1 : onlyEvents o s1 := onlyEvents_pc _ h
  exact onlyEvents_ite _ (pcAdd_onlyEvents (by omega) _ _ h1) h1

theorem pcCore_onlyEvents {n : Nat} (hn : n < 8) (evs : List (Nat × Nat × Nat)) (h : onlyEvents o s) : onlyEvents o (pcCore n evs s) :=
  onlyEvents_upTo 4 (fun _ _ _ h => onlyEvents_ite _ (pcAdd_onlyEvents (by omega) _ _ h) h)
    (onlyEvents_upTo 8 (fun _ _ _ => pcCoreCounter_onlyEvents hn (by omega) evs) h)

theorem pcSys_onlyEvents (code amount : Nat) (h : onlyEvents o s) : onlyEvents o (pcSys code amount s) :=
  onlyEvents_ite _ (onlyEvents_upTo 16 (fun _ _ _ h => onlyEvents_ite _ (pcAdd_onlyEvents (by omega) _ _ h) h) h) h

/-- An event of a source changes nothing but pending posts, triggered capture groups, counters and their registers. -/
theorem raiseEvent_onlyEvents {n : Nat} (hn : n < 128) (h : onlyEvents o s) : onlyEvents o (raiseEvent n s) :=
  evPost_onlyEvents hn (onlyEvents_whenB _ (fun _ => pcSys_onlyEvents _ _) h)

theorem pcRecord_onlyEvents {n : Nat} (hn : n < 8) (pc prio : Nat) (base : Bool) (desc : Nat) (h : onlyEvents o s) :
    onlyEvents o (pcRecord n pc prio base desc s) := by
  unfold pcRecord
  extract_lets due rest src s1
  have h1 : onlyEvents o s1 := onlyEvents_pc _ h
  refine onlyEvents_forEach _ (fun x _ s h => evPost_onlyEvents (by omega) ?_) h1
  exact onlyEvents_putWord _ (eventReg_pc (by omega) (by omega)) (onlyEvents_putWord _ (eventReg_pc (by omega) (by omega)) h)

end Sys2Proof.Machine
end

