-- ==== Sys2Proof/Laws/Sundial.lean ====
section
/-! SUPPORT. What the shared operations over timebases and feedback channels do. -/

namespace Sys2Proof.Machine

variable {s : State}

theorem vget_set {α : Type} {n : Nat} (v : Vector α n) (i j : Fin n) (x : α) : (v.set i x)[j] = if j = i then x else v[j] := by
  by_cases h : j = i
  · subst h; simp
  · have : (i : Nat) ≠ j := fun e => h (Fin.ext e.symm)
    simp [h, this]

/-- One timebase replaced. -/
theorem tb_setTb (s : State) (i j : Fin 16) (x : Timebase) : (setTb i x s).sd.tb[j] = if j = i then x else s.sd.tb[j] := vget_set ..

theorem fb_setFb (s : State) (i j : Fin 16) (x : FbChan) : (setFb i x s).fb[j] = if j = i then x else s.fb[j] := vget_set ..

/-- Timebases changed one after another: each that is listed by its change, the others not at all. -/
theorem forEach_setTb (l : List (Fin 16)) (hl : l.Nodup) (f : Timebase → Timebase) (s : State) :
    sameBut [.sd] s (forEach l (fun k s => setTb k (f s.sd.tb[k]) s) s) ∧
    (∀ j : Fin 16, (forEach l (fun k s => setTb k (f s.sd.tb[k]) s) s).sd.tb[j] = if j ∈ l then f s.sd.tb[j] else s.sd.tb[j]) ∧
    (forEach l (fun k s => setTb k (f s.sd.tb[k]) s) s).sd = { s.sd with tb := (forEach l (fun k s => setTb k (f s.sd.tb[k]) s) s).sd.tb } := by
  unfold forEach
  induction l generalizing s with
  | nil => exact ⟨sameBut_refl _ s, by simp, rfl⟩
  | cons k l ih =>
    obtain ⟨hk, hl⟩ := List.nodup_cons.1 hl
    obtain ⟨h1, h2, h3⟩ := ih hl (setTb k (f s.sd.tb[k]) s)
    refine ⟨?_, ?_, ?_⟩
    · refine sameBut_trans ?_ h1
      intro p hp; cases p <;> first | rfl | exact absurd (by simp) hp
    · intro j
      rw [List.foldl_cons, h2 j, tb_setTb]
      by_cases hj : j = k
      · subst hj; simp [hk]
      · simp [hj]
    · rw [List.foldl_cons, h3]; rfl

theorem tbsWhere_nodup (s : State) (p : Nat → Bool) : (tbsWhere s p).Nodup := (List.nodup_finRange 16).filter _

theorem mem_tbsWhere (s : State) (p : Nat → Bool) (k : Fin 16) : k ∈ tbsWhere s p ↔ p k = true := by simp [tbsWhere]

/-- What disarming makes of a timebase (R36). -/
theorem disarmTb_eq : disarmTb = fun k s =>
    setTb k ((fun x : Timebase => { x with armed := false, arming := false, seen := 0, per := none, dir := 0, xcap := false }) s.sd.tb[k]) s := rfl

end Sys2Proof.Machine
end

