-- ==== Sys2Proof/Tests/Slice0.lean ====
section
/-! SUPPORT. Tests: figures of the spec's worked examples, an ill-formed term for each check of WellFormed, and for every statement states and operands that meet its hypotheses. Nothing here is a claim. -/

namespace Sys2Proof.Tests
open Sys2Proof Sys2Proof.Machine

/-! ### States that the tests and the witnesses share -/

/-- RUN-ACTIVE in the unit that leads the link. -/
def runState : State :=
  { State.reset with
    sys := { State.reset.sys with op := .runActive, step := 0 }, pr := { State.reset.pr with active := true },
    lk := { State.reset.lk with st := .lead } }

/-- A state with these words shown. -/
def on (l : List (Nat × Word)) (s : State) : State := l.foldl (fun s e => regSet e.1 e.2 s) s

/-- Every requester's lock unlocked. -/
def openLocks (s : State) : State := { s with sys := { s.sys with unlocked := [.host, .kiosk, .core 0] } }

/-- A safe-off group in a condition, its brakes set in STO. -/
def groupIn (x : GrpCond) : Group := { Group.reset with cond := x, brakesSet := x == .sto }

/-- The safe-off groups in these conditions. -/
def groups (a b c d : GrpCond) (s : State) : State :=
  { s with gh := { s.gh with grp := #v[groupIn a, groupIn b, groupIn c, groupIn d] } }

def mainsTb : State :=
  setTb 4 { Timebase.reset with armed := true } { on [(0xF00040, 0xD0000), (0xF00050, 0x90000)] runState with mains := { Mains.reset with tZc := some 3, ivals := [4, 5, 6, 7] } }
def edgeTb : State := setTb 4 { Timebase.reset with armed := true, per := some 9, now := 7 } (on [(0xF00040, 0x90000), (0xF04000, 0x20000)] runState)
def firstFiring : Firing := ⟨2047, 1, 0x00021, true, 0⟩
def firing : State := { runState with sd := { Sundial.reset with disp := [firstFiring, ⟨1, 0, 0, false, 0⟩] } }
def quad : State := on [(0xF04000, 0x30000), (0xF041E0, 0x20000), (0xF041F0, 0x00200)] runState
def pulse : State := on [(0xF04000, 0x40000), (0xF04001, 0xC0000), (0xF04002, 0x00008), (0xF04007, 0x00123)] runState
def tooth : State := on [(0xF04000, 0x60000)] runState
def ssi : State := setFb 0 { FbChan.reset with ssiPrev := some 0xFFFF } (on [(0xF04000, 0xA0000), (0xF04003, 0x40000), (0xF04015, 0xFFFFF)] runState)
def mainsChan : State := on [(0xF04000, 0x80000)] runState
def brakesSet : State := { runState with gh := { runState.gh with grp := runState.gh.grp.set 0 { runState.gh.grp[0] with cond := .ss1, brakesSet := true } } }
def stopping : State := groups .ss1 .energised .sto .energised runState
def watched : State := { runState with gh := { runState.gh with wd := #v[⟨true, 0, false, true⟩, ⟨true, 0, true, false⟩, ⟨false, 0, false, true⟩] } }
def record8 : List Word := [1, 0x000FF, 3, 4, 5, 6, 7, 8]
def holdUp : State := on [(0xF38011, 0x90000), (0xF38012, 0x7D000), (0xF38013, 0x50000), (0xF38014, 0x003FF), (0xF38019, 0x80000)] runState
/-- A capture group armed, one triggered, one whose record has ended, one done. -/
def capture : State :=
  { runState with bv := { Belvedere.reset with
      g := #v[{ BvGroup.reset with st := .armed }, { BvGroup.reset with st := .triggered, trig := some 0 },
        { BvGroup.reset with st := .triggered, ended := some 2 }, { BvGroup.reset with st := .done }] } }
/-- Descriptor 511 of class 3, enabled, of MAXP 1; descriptor 0 disabled. -/
def posts : State := on [(0xF3C7FC, 0xE0000), (0xF3C7FD, 0x00010), (0xF3C900, 0x12345), (0xF3C903, 0x00001)] runState
def lastTick : DelayEntry := ⟨1023, 511, 511, 7, .tick 1, false, false⟩
def delayed (k : Nat) : State :=
  { posts with pg := { posts.pg with delay := [{ lastTick with due := .tick k }] } }
def delayFull (s : State) : State := { s with pg := { s.pg with delay := List.replicate 1024 lastTick } }
def canObj : State :=
  setCan 1 { Can.reset with st := .active, queue := [⟨[0, 0, 0, 9], false, 0⟩], bus := some ⟨some 5, 0⟩ }
    (on [(0xF44800, 0x00600), (0xF46800 + 40 * 5, 0x00600), (0xF46803 + 40 * 5, 0x20000), (0xF44800 + 40 * 127, 0x40600), (0xF44803 + 40 * 126, 0x20000)] runState)
def discrepant : State := on [(0xF34017, 0x82000)] { stopping with sys := { stopping.sys with gpio := 1 } }
def degradedState : State := { stopping with sys := { stopping.sys with op := .degraded } }
def buffered : State := { runState with sys := { runState.sys with frBuf := [record8, []] } }
def levelThree : State := { runState with ph := { runState.ph with meas := 3, measNext := 3 } }
def overriding : State := { runState with ph := { runState.ph with ovAct := true } }
def archiving : State := { capture with bv := { capture.bv with arch := some (3, 63, [1, 0, 3]) } }
def shedding : State := { capture with ph := { capture.ph with tShed := some 0 } }
def eventPosts : State := on [(0xF4007F, 0x801FF)] { posts with pg := { posts.pg with evPend := [(127, true)] } }
def counting : State := pcSet 111 (2 ^ 40 - 2) (on [(0xF4C20F, 0x80000), (0xF4C300, 0)] runState)
/-- Core 7 runs with these registers. -/
def withCore (r : CoreRegs) : State := setCore 7 { Core.reset with r := r, run := true, base := true, pc := 0x100 } runState
def regs0 : CoreRegs := { CoreRegs.reset with d := (CoreRegs.reset.d.set 0 0x7FFFF).set 15 0x00001, ac := #v[0x7FFFFFFFFFFF, 0x000000100000] }
def coreState : State := withCore regs0
def canActive : State :=
  setCan 1 { Can.reset with st := .active, bus := some ⟨some 127, 9⟩, tec := 5 } (on [(0xF46000, 0), (0xF46001, 0), (0xF46800 + 40 * 127, 0x00600), (0xF46803 + 40 * 127, 0x20000)] runState)
def canReceiving : State :=
  setCan 1 { Can.reset with st := .active, bus := some ⟨none, 9⟩, recv := 250 } (on [(0xF46000, 0), (0xF46800 + 40 * 127, 0x00400), (0xF46801 + 40 * 127, 0x00123), (0xF46803 + 40 * 127, 0x02000)] runState)
def canSends : State :=
  setCan 1 { Can.reset with st := .active, queue := [⟨[0, 0, 0, 9], false, 0⟩] } (on [(0xF46000, 0), (0xF46803, 0x20000), (0xF46803 + 40 * 127, 0x20000)] runState)
def canIdle : State := setCan 0 { Can.reset with st := .integrating } (setCan 1 { Can.reset with st := .recovering, tec := 200 } runState)
def frame8 : RxFrame := { xtd := false, base := 0x123, ext := 0, fdf := false, brs := false, esi := false, rtr := false, dlc := 8, data := [1, 2, 3, 4, 5, 6, 7, 8], noack := false }
/-- Limits of an object: VLIM, ALIM, JLIM and its three ramp sets. -/
def limits (o : Nat) : List (Nat × Word) :=
  [(mpBase o, 0xC0000), (mpBase o + 9, 0x0FFFF), (mpBase o + 11, 0x0FFFF), (mpBase o + 12, 0x00001), (mpBase o + 15, 0x01000), (mpBase o + 17, 0x01000),
    (mpBase o + 19, 0x01000), (mpBase o + 21, 0x01000), (mpBase o + 23, 0x01000), (mpBase o + 25, 0x01000), (mpBase o + 5, 0x00200)]
/-- Axis 127 and mover 31, which covers axis 0, may move; landing 63 belongs to the mover's group. -/
def motion (p : Profile) : State :=
  setProf 287 p (setProf 127 p (on (limits 127 ++ limits 287 ++ [(0xF10004, 0x00001), (0xF17F04, 0x00001), (0xF08000, 0x88000),
    (mpBase 287 + 45, 0x10000), (mpBase 287 + 36, 0xF0000), (0xF0F8FC, 0xF8000), (0xF0F8FF, 0x00100), (mpBase 127 + 7, 0x00100)]) runState))
def restProf : Profile := { Profile.reset with fresh := false, p := 5 * 2 ^ 24, sp := 5, spPrev := 5 }
def follower : State := on [(mpBase 127 + 28, 0xA2000), (mpBase 127 + 35, 0x00001)] (motion restProf)
def storing : State := { motion restProf with mo := { (motion restProf).mo with stores := [⟨127, some 0x12345⟩], ring := [(127, (2 ^ 32 - 2, 63))] } }
def groupState (phase : Word) (cyc : Option Nat) : State :=
  { on [(0xF0FA01, phase), (0xF0FA04, 0x00001)] runState with mo := { Motion.reset with gw := { cycle := cyc, sent := 1, staged := [2], applied := [], tables := [], biquads := [] } } }
def branching (k : Core) : State := setCore 7 { k with r := regs0, run := true, base := true, pc := 0x100 } runState
def buffer : State := setCore 7 { Core.reset with storeBuf := [⟨0x1FFFFE, 1, some 2⟩], inFlight := [⟨0, 5, false, true⟩] } (openLocks runState)
/-- Core 7 with ESP at the top of its Y bank. -/
def tasked (k : Core) : State :=
  setCore 7 { k with run := true, pc := 0x100 } { on [(0xF50272, 0x10000), (0xF50274, 0x01FFF), (0xF3C7FC, 0xF0000), (0xF3C7FD, 0x80010), (0xF3C7FE, 0x12345)] runState with
    pg := { Pergola.reset with ready := [⟨511, 7, none⟩] } }
def nested : State := withCore { regs0 with st := 0x00200 }
def faulted : State := withCore { regs0 with st := 1 }
def returning : State := setCore 7 { Core.reset with run := true } (on [(0xF50272, 0x0FFF4)] runState)
def restoring : State := setCore 7 { Core.reset with run := true, slots := 1, after := .restore } (on [(0xF50272, 0x0FFF4)] runState)
def jumping : State := branching { Core.reset with slots := 1, after := .jump 0x1FFFF }
def annulled : State := branching { Core.reset with slots := 2, annul := 2 }
def resting : State := motion restProf
def heldProf : State := motion { restProf with st := .held }
def waitingProf : State := motion { restProf with st := .waiting }
def movingProf : State := motion { restProf with st := .moving, v := 2 ^ 40 }
def tasking : State := tasked { Core.reset with base := true, r := { regs0 with st := 0x00800 } }
def faulting : State := tasked Core.reset
def doubleFault : State := tasked { Core.reset with r := { regs0 with st := 1 } }
def badTiming : State := on [(0xF44007, 0x0FFFF)] runState
def groupLate : State := { groupState 0x80001 (some 9) with mo := { Motion.reset with gw := { cycle := some 9, sent := 0, staged := [2], applied := [], tables := [], biquads := [] } } }
/-- The engine computes axes 0 and 127. -/
def servo : State := on [(0xF10000, 0x40000), (0xF17F00, 0x40000)] runState
def servoRuns : State := { servo with sv := { Servo.reset with batch := some 1 } }
/-- Generator 1 aims at summing point 1 of axis 127. -/
def generator : State := on [(0xF100F8, 0x3FA00), (0xF100FB, 0x00FFF), (0xF100FE, 0x00010)] servo
def injecting (k : Nat) (s : State) : State := { s with sv := { s.sv with gens := s.sv.gens.set 1 { Gen.reset with running := true, k := k, sample := 7 } } }
/-- Ports up; node 121 on channel B with axes 126 and 127, joined. -/
def linked (st : LinkState) : State :=
  { on [(0xF28890, 0xC5F80)] runState with lk := { runState.lk with st := st, up := 0xF, left := 4, q := 9, nodes := [(121, { NodeSt.reset with joined := true, empties := 15 })] } }
def joining : State := { linked .coldstart with sys := { runState.sys with op := .join } }
def markIn (src : Nat) : MarkIn := { src := src, seq := 0xFFFFFFFF, epoch := 0, perInt := 18750, perFr := 3, time := 0, corr := 80, locked := false, tLocked := false, delay := 0 }
def upl (seq : BitVec 32) : UplIn := { node := 121, seq := seq, nst := 1, nstat := 0, grep := 0, auxIdx := 0, angle := 0, arrival := 0, recs := [⟨5, 6, 0x200⟩, ⟨0x8000000000, 0x80000, 0xC00⟩] }
def granted (k : Nat) : State := { linked .lead with lk := { (linked .lead).lk with svc := { Service.reset with grant := [(1, 121, k)] } } }
/-- Set-points of node 121 that wait on channel B. -/
def setpQueue : SetpQueue := { ch := 1, batch := 1, seq := 9, ready := 0, gcmd := 0, gepoch := 0, frames := [(121, [(1, 2, 3, 4), (5, 6, 7, 8)])] }
def sends : State := { on [(0xF17E00, 0x40000), (0xF17F00, 0x40000), (0xF28012, 0x40000), (0xF28013, 0x80000)] (linked .lead) with lk := { (linked .lead).lk with toSend := [setpQueue] } }
/-- LKx0 is a node section, LKx1 a closure, on both channels. -/
def relaying (s : State) : State := on [(0xF28000, 0x40000), (0xF28010, 0x40000), (0xF28011, 0x80000), (0xF28012, 0x40000), (0xF28013, 0x80000)] s
def lateSig : SigRec := ⟨1, 8, true, 5, [6, 0, 0, 0, 0, 0, 0, 0]⟩
def lateBatchState : State := { servo with sv := { Servo.reset with late := some (lateSig, [setpQueue]) } }
def following : State := { linked .follow with lk := { (linked .follow).lk with lastMark := some 0xFFFFFFFE } }
/-- A pair, its lane up, with own set-points sent. -/
def pairState : State :=
  { on [(0xF28000, 0x40000)] (linked .lead) with
    lk := { (linked .lead).lk with setpOwn := [⟨121, 9, [(1, 2, 3, 4), (5, 6, 7, 8)]⟩] }, pr := { runState.pr with laneUp := true, unaligned := [] } }
def ppsState (st : TimeSt) : State := { on [(0xF28024, 0x80000)] (linked .lead) with time := st }
def standbySig : SigRec := ⟨1, 9, true, 5, [6, 0, 0, 0, 0, 0, 0, 0]⟩
/-- A standby of the pair, aligned, with signatures of batch 1. -/
def standby : State :=
  { on [(0xF28000, 0x40000), (0xF10000, 0x40000), (0xF30002, 0x08000)] (linked .follow) with
    sys := { runState.sys with op := .runStandby }, pr := { Pair.reset with laneUp := true, sigOwn := [standbySig], diag := true, partnerRole := 1 } }
def joinFollow : State := { standby with sys := { standby.sys with op := .join }, pr := { Pair.reset with laneUp := true } }
def stateIn (role : BitVec 3) : StateIn := { role := role, act := true, unitB := true, status := 0, cfgsig := 0, stored := 3, j := 7 }
/-- The active of a pair whose lane is up. -/
def active : State := { pairState with pr := { pairState.pr with bndOut := [.level 2], partnerRole := 3, exch := some ⟨7, 10, true, false⟩ } }
def withPr (p : Pair → Pair) (s : State) : State := { s with pr := p s.pr }
def powerUp : State := { State.reset with sys := { State.reset.sys with op := .powerUp, step := 0 } }
def configState : State := { State.reset with sys := { State.reset.sys with op := .config, step := 0 } }
def levelFive (flushed : Bool) : State := { runState with ph := { runState.ph with l5 := true, flushed := flushed }, sys := { runState.sys with op := .safe } }
def rstHeldState : State := { State.reset with sys := { State.reset.sys with rstHeld := true, step := 0 } }
def bootAt (n : Nat) : State := { State.reset with sys := { State.reset.sys with step := n } }
def bootWait : State := { State.reset with sys := { State.reset.sys with step := 4, bwait := true } }
def bootHeld : State := { on [(0xF54007, 0xFFFFF), (0xF54005, 0x3FFFF)] State.reset with sys := { State.reset.sys with step := 5, bootHold := true } }
/-- MRAM with a usable boot record in copy 0 and an image of 256 words. -/
def withImage (s : State) : State :=
  { s with mem := { s.mem with mram := [(0, 0x01000), (2, 0x00007), (3, 0x40002), (126, 0x0E356), (127, 0x0BFE1), (0x25000, 0x01000), (0x25002, 0x00100), (0x25003, 0x063EA), (0x25004, 0x09EF9)] } }
def adopting : State := withPr (fun p => { p with partnerRole := 2, adoptStep := 1 }) active
def laneDown : State := withPr (fun p => { p with laneUp := false }) standby
def emptyOne : State := withPr (fun p => { p with empty := 0, diag := false }) standby
def emptyTwo : State := withPr (fun p => { p with empty := 2, diag := false }) standby
def unalignedTwo : State := withPr (fun p => { p with failHeard := true, unaligned := [1] }) standby
def ownFails : State := withPr (fun p => { p with ownRes := 2 }) standby
def partnerFails : State := withPr (fun p => { p with diag := true, ownRes := 1, partRes := 2 }) active
def activeFails : State := withPr (fun p => { p with ownRes := 1, partRes := 2 }) standby
def bothPass : State := withPr (fun p => { p with ownRes := 1, partRes := 1, diagLanes := [0] }) standby
def noAnswer : State := withPr (fun p => { p with ownRes := 1, partRes := 0 }) standby
def aligned : State := withPr (fun p => { p with diag := false }) standby
def asked (y : Exch) : State := withPr (fun p => { p with exch := some y }) active
def exchanging : State := withPr (fun p => { p with exch := some ⟨7, 10, true, false⟩ }) standby
/-- A unit with SNN 5, C0 running. -/
def kiosk : State := setCore 0 { Core.reset with run := true } (on [(0xF48000, 0x00005), (0xF48006, 0x00006)] runState)
def from7 : KFrom := ⟨.hp, 7, 5, 9, 0⟩
def pwState (p : Password) : State := { kiosk with gh := { kiosk.gh with pw := p }, sys := { kiosk.sys with op := .config } }
def opened : State := pwState { Password.reset with auth := [(7, .hp)] }
def closed : State := { opened with sys := { opened.sys with op := .runActive } }
def logFull : State := { opened with sys := { opened.sys with per := { opened.sys.per with logNext := 4096 } } }
def ackReady : State := { opened with sys := { opened.sys with per := { opened.sys.per with logNext := 2, logAckHi := 0, logAckLo := 0 } } }
def pendingLog : LogPend :=
  { req := ⟨from7, true, 0x3400, 2, [0, 0, 0, 0]⟩, kind := 1, time := 0, old := 0, new := 0, wide := false, relayed := false, own := false, partner := 1 }
def logging : State := { opened with gh := { opened.gh with log := [pendingLog] } }
def storeJob (own partner : Bool) : StoreJob :=
  { req := ⟨from7, true, 0x1010, 1, [0x73, 0x61, 0x76, 0x65]⟩, vals := some [(3, 4)], relayed := false, ownDone := own, partnerDone := partner, answered := false }
def jobState (j : StoreJob) : State := { kiosk with ks := { kiosk.ks with jobs := [j] } }
/-- CAN port 1 up with node-ID 127, heartbeat on. -/
def canopen : State :=
  { setCan 1 { Can.reset with st := .active, tpdo := [(63, ⟨false, true⟩)] } (on [(0xF4600C, 0xBF800), (0xF46000, 0)] kiosk) with
    ks := { kiosk.ks with vals := [(ekey 0x1017 0, 100), (ekey 0x1600 0, 1), (ekey 0x1600 1, 0x220B8028), (ekey 0x1A3F 0, 1), (ekey 0x1A3F 1, 0x10010040), (ekey 0x2010 1, 1), (ekey 0x2010 128, 1)] } }
def inhibited : State := setCan 1 { canopen.can[1] with tpdo := [(63, ⟨true, false⟩)] } canopen
def mapping : State := { canopen with ks := { canopen.ks with vals := [(ekey 0x1600 0, 1), (ekey 0x1600 1, 0x220B0128), (ekey 0x2010 1, 1)] } }
def forwarding : State := { kiosk with ks := { kiosk.ks with fwd := [⟨⟨from7, false, 0x1000, 0, []⟩, 255, .hp⟩] } }
def routing : State := { kiosk with ks := { kiosk.ks with routed := [(7, some [1, 2])] } }
def firmwareDown : State := on [(0xF48000, 0x00005)] runState
def slowPend (b : Nat) (s : State) : State := { s with sys := { s.sys with slow := [(b, 0xC0000, .host)] } }
def safeState : State := { runState with sys := { runState.sys with op := .safe } }
def pairedRun : State := withPr (fun p => { p with laneUp := true }) (on [(0xF28000, 0x40000), (0xF48000, 0x00005)] (linked .follow))
def autorun : State := on [(0xF54003, 0x20000)] configState
def recoverable : State := on [(0xF34045, 0x80000)] safeState
def testState : State := { runState with sys := { runState.sys with op := .test } }
def pinState : State := on [(0xF5C00B, 0xFFFFF), (0xF4007E, 0x80000)] runState
def mailboxRead : State := on [(0xF49400, 0x00100), (0xF49401, 0x00500)] kiosk
def mailboxWrite : State := on [(0xF49400, 0x00200), (0xF49401, 0x00500)] kiosk
def jobDone : State := jobState (storeJob true false)
def wrongTwice : State := { kiosk with gh := { kiosk.gh with pw := { Password.reset with wrong := 2 } } }
def lockedPw : State := { kiosk with gh := { kiosk.gh with pw := { Password.reset with locked := true, lockEnd := 9 } } }
def pendingPw : LogPend := { pendingLog with req := ⟨from7, true, 0x2002, 3, [1, 0, 0, 0]⟩, kind := 2 }
def loggingPw : State := { opened with gh := { opened.gh with log := [pendingPw] } }
def selected : State := { kiosk with ks := { kiosk.ks with sel := 0x8000 } }
def kioskSafe : State := { kiosk with sys := { kiosk.sys with op := .safe } }
def canopenFree : State := setCan 1 { canopen.can[1] with tpdo := [] } canopen
def joinRequested : State := { configState with sys := { configState.sys with joinReq := true } }
def formerActive : State :=
  withPr (fun p => { p with active := false, wasActive := true })
    { on [(0xF48000, 0x00006), (0xF48001, 0x80005), (0xF28000, 0x40000)] kiosk with sys := { kiosk.sys with op := .runStandby } }
def inRecovery : State := { active with sys := { active.sys with op := .recovery } }
def highz (s : State) : State := { s with sys := { s.sys with tap := .highz } }
def holdingUp : State := { levelFive false with ph := { (levelFive false).ph with holdDis := true } }
def portDown : State := { active with lk := { active.lk with up := 7 } }
def queued : State := { joining with pending := [.clash] }

/-- The state a command answers. -/
def after (c : Instr) (s : State) : State :=
  match exec c s with
  | .next u => u
  | _ => s

theorem accesses_own {l : List (Addr × Bool × Bool)}
    (h : l.all (fun e => decide (addrFault e.1 e.2.1 e.2.2 = none ∧ e.1.toNat < 0x20000)) = true) :
    ∀ e ∈ l, addrFault e.1 e.2.1 e.2.2 = none ∧ e.1.toNat < 0x20000 := fun e he => of_decide_eq_true (List.all_eq_true.1 h e he)


/-! ### Figures of the spec's worked examples -/

def wordOn (i : Instr) (r : CoreRegs) : CoreRegs := (after i (withCore r)).cores[7].r

/-- NORM of 03A40h (12, examples of R348): 74800h with count 5. -/
theorem test_norm_positive : (wordOn (.norm 7 3 7 .nop) { CoreRegs.reset with d := CoreRegs.reset.d.set 3 0x03A40 }).d[3] = 0x74800 ∧
    (wordOn (.norm 7 3 7 .nop) { CoreRegs.reset with d := CoreRegs.reset.d.set 3 0x03A40 }).d[7] = 5 := by decide +kernel

/-- NORM of FF2A0h: 95000h with count 7. -/
theorem test_norm_negative : (wordOn (.norm 7 3 7 .nop) { CoreRegs.reset with d := CoreRegs.reset.d.set 3 0xFF2A0 }).d[3] = 0x95000 := by decide +kernel

/-- EXPA of +3.0: -2. -/
theorem test_expa : (wordOn (.expa 7 2 0 .nop) { CoreRegs.reset with ac := #v[0x018000000000, 0] }).d[2] = 0xFFFFE := by decide +kernel

/-- NORMA of +3.0: +0.75. -/
theorem test_norma : (wordOn (.norma 7 0 2 .nop) { CoreRegs.reset with ac := #v[0x018000000000, 0] }).ac[0] = 0x006000000000 := by decide +kernel

/-- The window of length 5 at 001000h, step 2 (R355): 001004h is followed by 001001h. -/
theorem test_circular : agModify ⟨0x1004, 2, 0x1000, 5⟩ .plus = (0x1001, false) := by decide

/-- A pointer more than one window beyond (R356). -/
theorem test_circular_out : agModify ⟨0x11F0, 1, 0x1000, 0x80⟩ .plus = (0x1171, true) := by decide

/-- Reversed carry (R357): 000040h, 000044h, 000042h, ..., and from 000047h back to 000040h. -/
theorem test_reversed : agModify ⟨0x44, 4, 0, 0⟩ .rev = (0x42, false) ∧ agModify ⟨0x47, 4, 0, 0⟩ .rev = (0x40, false) := by decide

/-- Upward entries at 1,534, 1,535 and 0 are crossed from 1,533 + 4,095/4,096 to 0, modulo 1,536; one at 1,533 is not (R46). -/
theorem test_crossing_gap :
    [1534, 1535, 0, 1533].map (fun c => crossing (some 1536) (1533 * 4096 + 4095) 0 (c * 4096)) = [1, 1, 1, 0] := by decide

/-- E03 on FB2 at the gap: three counts, E = 1,534, no warning (R74, R76). -/
def beforeGap : State :=
  setFb 2 { FbChan.reset with raw := 3069, rep := 3069, tEdge := some 3600000, tSame := some 3600000, hist := [1200000, 1200000, 1200000], tTooth := some 3600000, refPrev := some 1536 }
    (on [(0xF04040, 0x6482E), (0xF04041, 0x60800), (0xF04042, 1536), (0xF04050, 0x80000)] runState)

theorem test_tooth_gap : (after (.toothEdge 2 false ⟨7200000, 60⟩) beforeGap).fb[2].rep = 3072 ∧
    regGet (after (.toothEdge 2 false ⟨7200000, 60⟩) beforeGap) 0xF04054 = 1534 ∧ bitOf (after (.toothEdge 2 false ⟨7200000, 60⟩) beforeGap) 0xF04050 17 = false := by
  decide +kernel

/-- VSC of 5,000,000 pu/s is 858,993 x 2^-8, and 93.75 pu per period is 4CCCDh (R135). -/
theorem test_velocity_scale : vscOf 32000 5000000 = (858993, -8) ∧ velOf 32000 5000000 384000 = 0x4CCCD ∧
    vffOf 32000 5000000 (9375 * 2 ^ 48 / 100) = 0x4CCCD := by decide +kernel

/-- Mover N1 at 24,700,000 in the zone above segment 17: weight 30000h, force 17877h on axis 18 (R115, R117). -/
def blendState : State :=
  { runState with mo := { runState.mo with blend := (List.range 64).map fun k => (64 * 17 + k, BitVec.ofNat 20 (if k = 63 then 0x7FFFF else (k * 2 ^ 20 + 63) / 126)) } }

theorem test_blend : weightUp blendState 24700000 24550000 400000 17 = 0x30000 ∧ shareUp 0x30000 257000 = 0x17877 := by decide +kernel

/-- Energy balance at L2: k_m = 47C57h, no chopper duty (R300, R304). -/
def levelTwo : State :=
  { on [(0xF38002, 0x80000), (0xF38018, 0x80000), (0xF3800A, 40000), (0xF3800B, 0x40000), (0xF3800D, 800), (0xF38009, 0xE12BC), (0xF3800E, 30000), (0xF3800F, 500)] runState with
    ph := { runState.ph with eff := 2, vbus := 840, sdm := runState.ph.sdm.set 0 { runState.ph.sdm[0] with valid := true } },
    sv := { runState.sv with pMot := 56000, pSum := 38600 } }

theorem test_motoring_scale : (motoringScale levelTwo).ph.km = 0x47C57 ∧ chopperDuty levelTwo = 0 := by decide +kernel

/-- The Hollin Cross link in mode A (07): 37 nodes, axes 0-55 and 64-119. -/
def hollinNode (a : Nat) (b : Bool) (nax first : Nat) : Nat × Word :=
  (0xF28100 + 16 * a, word (2 ^ 19 + b.toNat * 2 ^ 18 + (nax - 1) * 2 ^ 14 + first * 2 ^ 6))

def hollin : State :=
  on ([(0xF28000, 0x40000), (0xF28002, 580), (0xF28003, 582), (0xF28004, 8200), (0xF28010, 0x40000), (0xF28011, 0x40000), (0xF28012, 0x40000), (0xF28013, 0x40000)] ++
    (List.range 11).map (fun i => hollinNode (2 + i) false 4 (4 * i)) ++ (List.range 12).map (fun i => hollinNode (13 + i) false 1 (44 + i)) ++
    (List.range 14).map (fun i => hollinNode (25 + i) true 4 (64 + 4 * i))) State.reset

/-- The slot of node 24 opens at 7.7928 µs; SVEND(A) = 14.7152 µs, SVEND(B) = 13.6772 µs. -/
theorem test_schedule : slotOf hollin 24 = 77928 ∧ svEnd hollin 0 = 147152 ∧ svEnd hollin 1 = 136772 := by decide +kernel

/-- The mains-failure readings in per mille of 650 V (R292). -/
theorem test_per_mille : [603, 597, 595, 551, 548, 420, 418].map (fun v => perMille ((v * 2 ^ 19 + 400) / 800) 800 650) = [928, 918, 915, 848, 843, 646, 643] := by
  decide +kernel

/-! ### Ill-formed terms, each refused by the check it breaks -/

def okMark : MarkIn := markIn 127
def okFrame : RxFrame := frame8

theorem test_wf_mark : (Instr.markReceived 0 .ok okMark 0).wf = true ∧ (Instr.markReceived 0 .ok { okMark with src := 128 } 0).wf = false := by decide
theorem test_wf_uplink : (Instr.uplinkFrame 0 .ok (upl 9)).wf = true ∧
    (Instr.uplinkFrame 0 .ok { upl 9 with recs := List.replicate 17 ⟨0, 0, 0⟩ }).wf = false := by decide
theorem test_wf_reply : SvuBody.wf (.reply 0 true 256 []) = false ∧ SvuBody.wf (.reply 0 true 0 [256]) = false ∧ SvuBody.wf (.reply 0 true 255 [255]) = true := by decide
theorem test_wf_join : SvuBody.wf (.join 0 none none) = false ∧ SvuBody.wf (.join 17 none none) = false ∧ SvuBody.wf (.join 16 none none) = true := by decide
theorem test_wf_service : (Instr.serviceUplink 0 .ok { node := 121, seq := 0, refused := false, body := .join 17 none none } true).wf = false := by decide
theorem test_wf_setp : (Instr.partnerSetpHeard 0 .ok 121 0 0 ⟨List.replicate 17 (0, 0, 0, 0), 0⟩).wf = false ∧ setpRecWf (2 ^ 39, 0, 0, 0) = false ∧
    setpRecWf (-2 ^ 39 - 1, 0, 0, 0) = false ∧ setpRecWf (-2 ^ 39, 0, 0, 256) = false ∧ setpRecWf (-2 ^ 39, 0, 0, 255) = true := by decide
def fbAt (cnt frac fol : Int) : FbIn := ⟨cnt, frac, fol, true, false, true⟩
theorem test_wf_fb : [fbAt (2 ^ 39) 0 0, fbAt (-2 ^ 39 - 1) 0 0, fbAt 0 4096 0, fbAt 0 (-1) 0, fbAt 0 0 4096, fbAt 0 0 (-1)].all (fun f => !f.wf) = true ∧
    (fbAt (-2 ^ 39) 4095 4095).wf = true := by decide
def okInc (fb : List FbIn) (sdm : List (Int × BitVec 4)) (km : Nat) : Bool := (Instr.incReceived .ok 0 fb sdm km).wf
def fb16 : List FbIn := List.replicate 16 (fbAt 0 0 0)
def sdm8 : List (Int × BitVec 4) := List.replicate 8 (-2 ^ 19, 15)
theorem test_wf_inc : okInc fb16 sdm8 1048575 = true ∧ okInc (fb16.drop 1) sdm8 0 = false ∧ okInc (fb16.set 15 (fbAt 0 4096 0)) sdm8 0 = false ∧
    okInc fb16 (sdm8.drop 1) 0 = false ∧ okInc fb16 (sdm8.set 7 (2 ^ 19, 0)) 0 = false ∧ okInc fb16 sdm8 1048576 = false := by decide
theorem test_wf_in : (Instr.inReceived .ok 0 32 0 (List.replicate 8 ⟨0, 0, 0⟩)).wf = false ∧ (Instr.inReceived .ok 0 31 0 []).wf = false := by decide
theorem test_wf_sig : (Instr.sigReceived .ok 0 ⟨0, 32, true⟩ 0 (List.replicate 8 0)).wf = false ∧ (Instr.sigReceived .ok 0 ⟨0, 31, true⟩ 0 []).wf = false := by decide
theorem test_wf_bnd : (Instr.bndReceived .ok 0 (List.replicate 171 .degraded)).wf = false ∧ (Instr.bndReceived .ok 0 [.level 6]).wf = false := by decide +kernel
theorem test_wf_bnd_entries : [BndEntry.write 0xEFFFFF 0, .write 0x1000000 0, .paramSet 256 0, .paramSet 0 4, .overlay 16 true, .outputs 16 0 0, .outputs 0 16 0,
    .outputs 0 0 256, .level 6, .overlaySet 65536].all (fun e => !e.wf) = true ∧
    [BndEntry.write 0xFFFFFF 0, .paramSet 255 3, .overlay 15 true, .outputs 15 15 255, .level 5, .degraded, .overlaySet 65535].all BndEntry.wf = true := by decide
theorem test_wf_adopt : (Instr.adoptReceived .ok 0 (.regs [(0xEFFFFF, 0)])).wf = false ∧ (Instr.adoptReceived .ok 0 (.regs [(0x1000000, 0)])).wf = false ∧
    (Instr.adoptReceived .ok 0 (.motion [(288, [])] [])).wf = false ∧ (Instr.adoptReceived .ok 0 (.batch 32 [])).wf = false ∧
    (Instr.adoptReceived .ok 0 (.batch 31 [(288, [])])).wf = false := by decide
theorem test_wf_frame : okFrame.wf = true ∧ (Instr.frameReceived 0 { okFrame with dlc := 7 } 0).wf = false ∧ RxFrame.wf { okFrame with ext := 1 } = false ∧
    RxFrame.wf { okFrame with brs := true } = false ∧ RxFrame.wf { okFrame with esi := true } = false ∧ RxFrame.wf { okFrame with rtr := true } = false ∧
    RxFrame.wf { okFrame with rtr := true, fdf := true, data := [] } = false ∧ RxFrame.wf { okFrame with fdf := true, dlc := 9 } = false := by decide
theorem test_wf_rpdo : (Instr.rpdo 0 (List.replicate 65 0)).wf = false ∧ (Instr.rpdo 0 (List.replicate 64 0)).wf = true := by decide
theorem test_wf_register : (Instr.registerWrite .host 0xEFFFFF 0).wf = false ∧ (Instr.registerWrite .host 0xF00000 0).wf = true := by decide

/-! ### The queue, and words that spell no command -/

/-- An empty queue idles (log entry 1). -/
theorem test_idle : runState.pending = [] ∧ step runState = .next runState := ⟨rfl, rfl⟩
/-- No row of the table has bits: no word spells a command. -/
theorem test_no_word : decodeTableWord 20 0xFFFFF = none ∧ runState.withFetchWord 20 0xFFFFF = runState := ⟨rfl, rfl⟩
/-- The one refusal: a maker's private instruction in TEST (R478). -/
theorem test_makers_private : exec (.tapInstruction .makers) testState = .refused .makersPrivate := rfl


/-! ### Witnesses: every hypothesis of a statement, met at the states and operands its docstring lists -/

/-- Obligations.MainsEdgeLossAndStandstill, at `mainsTb 5`; `mainsTb`; `edgeTb 4`. -/
theorem witness_MainsEdgeLossAndStandstill :
    mainsTb.now ≤ 5 ∧
    mainsTb.mains.lost = false ∧
    tbKind edgeTb 4 = 1 ∧
    tbEnabled edgeTb 4 = true ∧
    tbCfgErr edgeTb 4 = false := by
  and_intros <;> decide

/-- Obligations.SundialUpdatesAndDispatches, at `mainsTb`; `firing firstFiring [⟨1, 0, 0, false, 0⟩]`. -/
theorem witness_SundialUpdatesAndDispatches :
    mainsTb.sd.holdQ = [] ∧
    firing.sd.disp = [firstFiring, { entry := 1, act := 0, arg := 0, oneShot := false, at_ := 0 }] ∧
    firstFiring.entry < 2048 ∧
    firstFiring.act ≤ 1 := by
  and_intros <;> decide

/-- Obligations.FeedbackChannelsCountAndSeat, at `quad 0 5 100 true false (.quadratureEdge 0 true false ⟨5, 100⟩) true`; `quad 15 5 100 false true (.quadratureEdge 15 false true ⟨5, 100⟩) true`; `pulse 0 5 100 false true (.pulseAndDirectionStep 0 true true ⟨5, 100⟩) true`; `tooth 0 5 100 false true (.toothEdge 0 true ⟨5, 100⟩) true`; `(on [(0xF04000, 0x30200)] quad) 0 5 3 true false (.quadratureEdge 0 true false ⟨5, 3⟩) true`; `pulse 0 5 100`. -/
theorem witness_FeedbackChannelsCountAndSeat :
    quad.fb[0].raw = quad.fb[0].rep ∧
    fbFaulty quad 0 = false ∧
    quad.fb[0].sa = quad.fb[0].a ∧
    quad.fb[0].sb = quad.fb[0].b ∧
    fbCounts quad 0 = 1 ∧
    (true != quad.fb[0].a) = (false == quad.fb[0].b) ∧
    (true = ((if (true != quad.fb[0].a) = true then true != false else true == false) == bitOf quad (fbAddr 0) 16)) ∧
    fbFilter quad 0 ≤ 100 ∧
    quad.fb[15].raw = quad.fb[15].rep ∧
    fbFaulty quad 15 = false ∧
    quad.fb[15].sa = quad.fb[15].a ∧
    quad.fb[15].sb = quad.fb[15].b ∧
    fbCounts quad 15 = 1 ∧
    (false != quad.fb[15].a) = (true == quad.fb[15].b) ∧
    (true = ((if (false != quad.fb[15].a) = true then false != true else false == true) == bitOf quad (fbAddr 15) 16)) ∧
    fbFilter quad 15 ≤ 100 ∧
    pulse.fb[0].raw = pulse.fb[0].rep ∧
    fbFaulty pulse 0 = false ∧
    pulse.fb[0].sa = pulse.fb[0].a ∧
    pulse.fb[0].sb = pulse.fb[0].b ∧
    fbCounts pulse 0 = 2 ∧
    true = (true != bitOf pulse (fbAddr 0) 16) ∧
    fbFilter pulse 0 ≤ 100 ∧
    tooth.fb[0].raw = tooth.fb[0].rep ∧
    fbFaulty tooth 0 = false ∧
    tooth.fb[0].sa = tooth.fb[0].a ∧
    tooth.fb[0].sb = tooth.fb[0].b ∧
    fbCounts tooth 0 = 3 ∧
    fbRef tooth 0 = 0 ∧
    true = toothDir tooth 0 true ∧
    fbFilter tooth 0 ≤ 100 ∧
    (on [(15745024, 197120)] quad).fb[0].raw = (on [(15745024, 197120)] quad).fb[0].rep ∧
    fbFaulty (on [(15745024, 197120)] quad) 0 = false ∧
    (on [(15745024, 197120)] quad).fb[0].sa = (on [(15745024, 197120)] quad).fb[0].a ∧
    (on [(15745024, 197120)] quad).fb[0].sb = (on [(15745024, 197120)] quad).fb[0].b ∧
    fbCounts (on [(15745024, 197120)] quad) 0 = 1 ∧
    (true != (on [(15745024, 197120)] quad).fb[0].a) = (false == (on [(15745024, 197120)] quad).fb[0].b) ∧
    (true = ((if (true != (on [(15745024, 197120)] quad).fb[0].a) = true then true != false else true == false) == bitOf (on [(15745024, 197120)] quad) (fbAddr 0) 16)) ∧
    3 < fbFilter (on [(15745024, 197120)] quad) 0 ∧
    fbSeated pulse 0 = false ∧
    pulse.fb[0].z = false := by
  and_intros <;> decide

/-- Obligations.SsiMainsChannelsAndFaultAcks, at `ssi 0 0x10003 0xFFFF`; `ssi 0 false true false true 9`; `mainsChan 0 9 9600`. -/
theorem witness_SsiMainsChannelsAndFaultAcks :
    fbCounts ssi 0 = 5 ∧
    ssi.fb[0].ssiPrev = some 65535 ∧
    bitOf ssi (fbAddr 0 + 3) 13 = false ∧
    (|sext (fldOf ssi (fbAddr 0 + 3) 19 14) ((65539 % 2 ^ fldOf ssi (fbAddr 0 + 3) 19 14 + 2 ^ fldOf ssi (fbAddr 0 + 3) 19 14 - 65535) % 2 ^ fldOf ssi (fbAddr 0 + 3) 19 14)| ≤ ↑(fldOf ssi (fbAddr 0 + 21) 19 0)) ∧
    ssi.fb[0].ssiErr = 0 ∧
    ((false || true || false) = true) ∧
    fbCounts mainsChan 0 = 4 ∧
    fbFilter mainsChan 0 ≤ 9600 := by
  and_intros <;> decide

/-- Obligations.CommandedSafeStopsAndAcknowledgement, at `(openLocks stopping) .host 0xE`; `stopping .host 0xE (.dsto .host 0xE)`; `stopping .host 0xE (.dss1 .host 0xE)`; `stopping .host 0xE (.gatehouseAck .host 0xE)`. -/
theorem witness_CommandedSafeStopsAndAcknowledgement :
    Requester.host ∈ (openLocks stopping).sys.unlocked ∧
    Requester.host ∉ stopping.sys.unlocked := by
  and_intros <;> decide

/-- Obligations.SafeStopsEndAndDemandInputsAct, at `stopping 0 (.ss1tExpiry 0)`; `brakesSet 0 (.bdlyExpiry 0)`. -/
theorem witness_SafeStopsEndAndDemandInputsAct :
    stopping.gh.grp[0].cond = GrpCond.ss1 ∧
    brakesSet.gh.grp[0].cond = GrpCond.ss1 ∧
    brakesSet.gh.grp[0].brakesSet = true := by
  and_intros <;> decide

/-- Obligations.TestPulsesAndReadBack, at `h.1 stopping 1 true`; `h.1 stopping 0 true`. -/
theorem witness_TestPulsesAndReadBack :
    stopping.gh.grp[(1 : Fin 4)].cond = .energised ∧
    safeOffOn stopping 1 = true ∧
    stopping.pr.active = true ∧
    ((∀ x ∈ stopping.pr.exch, x.overlap = false)) ∧
    stopping.gh.grp[(1 : Fin 4)].pulse = 0 ∧
    stopping.gh.grp[(0 : Fin 4)].cond ≠ .energised := by
  and_intros <;> decide

/-- Obligations.FaultsOfGradesSAndDReact, at `stopping (.safeOffLineMismatch 1) 0x51 1`; `(after (.testPulse 3 false) stopping) (.testPulseEnd 3 false) 0x50 3`; `(after (.brkFbChange 7 true) stopping) (.brakeFeedbackMismatch 7) 0x52 7`; `stopping (.clockFault true) 0x21 0`; `stopping (.clockFault false) 0x20 0`; `stopping (.scrub .gatehouse .uncorrectable) 1 0`; `watched (.watchdogWindowMissed 0) 0x40 1`; `watched (.watchdogService .host 1 0xA5A5A 5) 0x41 2`; `watched (.scrub .core .uncorrectable) 3 0`; `watched (.scrub .mram .uncorrectable) 4 0`. -/
theorem witness_FaultsOfGradesSAndDReact :
    stopping.sys.op = OpState.runActive ∧
    partnerAligned stopping = false ∧
    (∃ g, Instr.safeOffLineMismatch 1 = Instr.safeOffLineMismatch g ∧ stopping.gh.grp[g].pulse = 0 ∧ 1 = ↑g) ∧
    (after (Instr.testPulse 3 false) stopping).sys.op = OpState.runActive ∧
    partnerAligned (after (Instr.testPulse 3 false) stopping) = false ∧
    (∃ g, Instr.testPulseEnd 3 false = Instr.testPulseEnd g false ∧ (after (Instr.testPulse 3 false) stopping).gh.grp[g].pulse ≠ 0 ∧ 3 = ↑g) ∧
    (after (Instr.brkFbChange 7 true) stopping).sys.op = OpState.runActive ∧
    partnerAligned (after (Instr.brkFbChange 7 true) stopping) = false ∧
    (∃ n, Instr.brakeFeedbackMismatch 7 = Instr.brakeFeedbackMismatch n ∧ drivesOutputs (after (Instr.brkFbChange 7 true) stopping) = true ∧ (after (Instr.brkFbChange 7 true) stopping).gh.brkFb.getLsbD ↑n ≠ (after (Instr.brkFbChange 7 true) stopping).gh.brk.getLsbD ↑n ∧ 7 = ↑n) ∧
    watched.sys.op = OpState.runActive ∧
    watched.gh.wd[0].on = true ∧
    watched.gh.wd[1].on = true ∧
    (678490 ≠ if watched.gh.wd[1].second = true then 370085 else 678490) := by
  and_intros <;> decide +kernel

/-- Obligations.WatchdogsDiscrepancyAndRefresh, at `(on [(0xF34018, 0x00400)] watched) .host 0 0xA5A5A 60000`; `watched .host 2 0x00801 7`; `watched .host 0 0x00402 7`; `watched .host 1 0x00002 7`; `discrepant 7`; `degradedState`. -/
theorem witness_WatchdogsDiscrepancyAndRefresh :
    (on [(15941656, 1024)] watched).now ≤ 60000 ∧
    (on [(15941656, 1024)] watched).gh.wd[0].on = true ∧
    (678490 = if (on [(15941656, 1024)] watched).gh.wd[0].second = true then 370085 else 678490) ∧
    60000 - (on [(15941656, 1024)] watched).gh.wd[0].tLast ≤ 60000 * fld (regGet (on [(15941656, 1024)] watched) (15941656 + 0)) 19 10 ∧
    (on [(15941656, 1024)] watched).gh.wd[0].first = true ∧
    watched.now ≤ 7 ∧
    discrepant.sys.op = OpState.runActive ∧
    bitOf discrepant (15941648 + 7) 19 = true ∧
    (demandNow discrepant 7).2 = true ∧
    degradedState.sys.op = OpState.degraded := by
  and_intros <;> decide

/-- Obligations.RescanCorrectedErrorsAndFaultRecord, at `stopping 16383 63`; `stopping 256 0 0x80000`; `stopping .gatehouse`; `buffered record8 [[]]`. -/
theorem witness_RescanCorrectedErrorsAndFaultRecord :
    afterBoot stopping = true ∧
    lookupNat stopping.gh.sigs 16383 = none ∧
    stopping.sys.op = OpState.runActive ∧
    partnerAligned stopping = false ∧
    crc32 (blockBits stopping 256 (15728640 + 64 * 256 + 0) 524288) ≠ blockSig stopping 256 ∧
    stopping.sys.op ≠ OpState.boot ∧
    buffered.sys.frBuf = [record8, []] ∧
    record8.length = 8 ∧
    buffered.sys.op ≠ OpState.test := by
  and_intros <;> decide +kernel

/-- Obligations.PumphouseResultsRailsAndTimers, at `(on [(0xF3801F, 0x80000)] runState) 7 0x80000 true`; `holdUp 1 0x00100`; `levelThree`; `stopping 3`. -/
theorem witness_PumphouseResultsRailsAndTimers :
    (on [(15958047, 524288)] runState).sys.op ≠ OpState.powerUp ∧
    (on [(15958047, 524288)] runState).sys.op ≠ OpState.boot ∧
    bitOf (on [(15958047, 524288)] runState) (15958040 + 7) 19 = true ∧
    bitOf (on [(15958047, 524288)] runState) 15958033 19 = false ∧
    holdUp.sys.op = OpState.runActive ∧
    holdUp.ph.l5 = false ∧
    bitOf holdUp (15958040 + 1) 19 = true ∧
    bitOf holdUp 15958033 19 = true ∧
    holdSrc holdUp = 1 ∧
    holdUp.ph.sdm[1].flt = false ∧
    (|BitVec.toInt (256 : Word)| < 524272) ∧
    holdVpm holdUp (BitVec.toInt (256 : Word)) < fldOf holdUp 15958036 9 0 ∧
    levelThree.ph.absent = true ∧
    stopping.sys.op = OpState.runActive ∧
    partnerAligned stopping = false ∧
    stopping.ph.meas < 3 := by
  and_intros <;> decide

/-- Obligations.CaptureGroupsRecord, at `( capture .kiosk 0)`; `( capture .kiosk 1)`; `capture 2 2`. -/
theorem witness_CaptureGroupsRecord :
    capture.bv.g[0].st = BvState.armed ∧
    capture.bv.g[0].ended = none ∧
    capture.bv.g[1].st = BvState.triggered ∧
    capture.bv.g[1].ended = none ∧
    capture.bv.g[2].ended = some 2 := by
  and_intros <;> decide

/-- Obligations.ArchiveOfARecord, at `(openLocks capture) .host 3 63 false`; `(openLocks capture) .host 0 63 false`; `(openLocks shedding) .host 3 63 false`; `archiving 3 63 [1, 0, 3]`. -/
theorem witness_ArchiveOfARecord :
    Requester.host ∈ (openLocks capture).sys.unlocked ∧
    (openLocks capture).bv.arch = none ∧
    (openLocks capture).ph.tShed ≠ some (openLocks capture).now ∧
    Requester.host ∈ (openLocks shedding).sys.unlocked ∧
    (openLocks shedding).ph.tShed = some (openLocks shedding).now ∧
    archiving.bv.arch = some (3, 63, [1, 0, 3]) ∧
    archiving.sys.op ≠ OpState.test := by
  and_intros <;> decide

/-- Obligations.PostsAndDelayList, at `posts 3 0 511`; `posts 3 0 0`; `(after (.post (.core 0) 0 511) posts) 3 0 511`; `posts 0 511 0 (.post .host 0 511)`; `posts 0 511 0 (.dpost .host 0 511)`; `posts 0 511 0 (.dcancel .host 0 0)`; `posts 3 0 511 (.tick 1)`; `(on [(0xF3C904, 0x20000)] posts) 3 0 511 (.base 0 1 0)`; `posts 3 7 511`; `(on [(0xF3C904, 0x18000)] posts) 3 0 511`; `(delayFull posts) 3 0 511`; `(delayed 1) 3 7 0x7FFFF`; `(delayed 1) 3 7 0x7FFFE`. -/
theorem witness_PostsAndDelayList :
    afterBoot posts = true ∧
    descEn posts (511) = true ∧
    readyRefuses posts (511) = false ∧
    descEn posts (0) = false ∧
    afterBoot (after (Instr.post (Requester.core 0) 0 511) posts) = true ∧
    descEn (after (Instr.post (Requester.core 0) 0 511) posts) (511) = true ∧
    readyRefuses (after (Instr.post (Requester.core 0) 0 511) posts) (511) = true ∧
    posts.sys.op ≠ OpState.powerUp ∧
    posts.pg.delay.length < 1024 ∧
    fld (regGet posts (15976708 + 16 * 0)) 16 15 ≠ 3 ∧
    fld (regGet posts (15976708 + 16 * 0)) 18 17 = 0 ∧
    pairN posts (15976706 + 16 * 0) ≠ 0 ∧
    DelayDue.tick 1 = DelayDue.tick (pairN posts (15976706 + 16 * 0)) ∧
    afterBoot (on [(15976708, 131072)] posts) = true ∧
    (on [(15976708, 131072)] posts).pg.delay.length < 1024 ∧
    fld (regGet (on [(15976708, 131072)] posts) (15976708 + 16 * 0)) 16 15 ≠ 3 ∧
    fld (regGet (on [(15976708, 131072)] posts) (15976708 + 16 * 0)) 19 17 = 1 ∧
    tbModulus (on [(15976708, 131072)] posts) (fld (regGet (on [(15976708, 131072)] posts) (15976708 + 16 * 0)) 14 11) = none ∧
    DelayDue.base 0 1 0 = DelayDue.base (fld (regGet (on [(15976708, 131072)] posts) (15976708 + 16 * 0)) 14 11) (sext 40 (pairN (on [(15976708, 131072)] posts) (15976706 + 16 * 0))) (fld (regGet (on [(15976708, 131072)] posts) (15976708 + 16 * 0)) 16 15) ∧
    fld (regGet posts (15976708 + 16 * 7)) 18 17 = 0 ∧
    pairN posts (15976706 + 16 * 7) = 0 ∧
    afterBoot (on [(15976708, 98304)] posts) = true ∧
    fld (regGet (on [(15976708, 98304)] posts) (15976708 + 16 * 0)) 16 15 = 3 ∧
    afterBoot (delayFull posts) = true ∧
    1024 ≤ (delayFull posts).pg.delay.length ∧
    fld (regGet (delayFull posts) (15976708 + 16 * 0)) 16 15 ≠ 3 ∧
    fld (regGet (delayFull posts) (15976708 + 16 * 0)) 18 17 = 0 ∧
    pairN (delayFull posts) (15976706 + 16 * 0) ≠ 0 ∧
    afterBoot (delayed 1) = true ∧
    (∀ (k : Fin 8), (delayed 1).cores[k].stalled = none) ∧
    (∃ e ∈ (delayed 1).pg.delay, e.entry = fld 524287 9 0 ∧ e.gen = fld 524287 18 10 ∧ e.fired = false) ∧
    (∀ e ∈ (delayed 1).pg.delay, e.entry = fld 524286 9 0 → e.gen = fld 524286 18 10 → e.fired = true) := by
  and_intros <;> decide +kernel

/-- Obligations.TicksAndEventSourcesPost, at `(delayed 2)`; `(delayed 1) lastTick`; `eventPosts 127`. -/
theorem witness_TicksAndEventSourcesPost :
    afterBoot (delayed 2) = true ∧
    (∀ (c : Fin 8), (delayed 2).cores[c].stalled = none) ∧
    (delayed 2).pg.dueQ = [] ∧
    (∀ e ∈ (delayed 2).pg.delay, e.due ≠ DelayDue.tick 1 ∧ e.fired = false) ∧
    afterBoot (delayed 1) = true ∧
    (∀ (c : Fin 8), (delayed 1).cores[c].stalled = none) ∧
    (delayed 1).pg.dueQ = [] ∧
    (delayed 1).pg.delay = [lastTick] ∧
    lastTick.due = DelayDue.tick 1 ∧
    lastTick.fired = false ∧
    descEn (delayed 1) lastTick.desc = true ∧
    readyRefuses (delayed 1) lastTick.desc = false ∧
    afterBoot eventPosts = true ∧
    (lookupNat eventPosts.pg.evPend 127).isSome = true ∧
    descEn eventPosts (fldOf eventPosts (15990784 + 127) 8 0) = true ∧
    readyRefuses eventPosts (fldOf eventPosts (15990784 + 127) 8 0) = false := by
  and_intros <;> decide

/-- Obligations.CountersSnapLoadAndWrap, at `runState .host`; `runState .host 111 0xFFFFF`; `counting 111 2`. -/
theorem witness_CountersSnapLoadAndWrap :
    regReach runState = true ∧
    pcRunning counting = true ∧
    bitOf counting (pcCfgAddr 111) 19 = true ∧
    pcGet counting 111 < 2 ^ 40 := by
  and_intros <;> decide

/-- Obligations.CanRequestsAndQueues, at `canObj .host 0 0`; `canObj .host 0 127`; `canObj .host 0 126`; `canObj .host 1 5`; `canObj .host 1`. -/
theorem witness_CanRequestsAndQueues :
    afterBoot canObj = true ∧
    cnPend canObj 1 5 = true ∧
    cnPend canObj 0 126 = true ∧
    cnInFrame canObj 1 128 = false ∧
    canObj.can[1].results.length + canObj.can[1].queue.length ≤ 32 := by
  and_intros <;> decide

/-- Obligations.CanModesAndFrames, at `( canActive .host 1)`; `( canIdle .host 1)`; `( runState .host 1)`; `( badTiming .host 0)`; `( canIdle .host 0)`; `canSends 1 9`; `canActive 1 ⟨some 127, 9⟩ 127 none 77`; `canReceiving 1 ⟨none, 9⟩ true (some 3) 77`; `canReceiving 1 frame8 77`. -/
theorem witness_CanModesAndFrames :
    afterBoot canActive = true ∧
    canActive.can[1].st ≠ CanState.init ∧
    afterBoot canIdle = true ∧
    canIdle.can[1].st ≠ CanState.init ∧
    afterBoot runState = true ∧
    bitOf runState (cnBase 1) 19 = true ∧
    runState.can[1].st = CanState.init ∧
    afterBoot badTiming = true ∧
    bitOf badTiming (cnBase 0) 19 = true ∧
    badTiming.can[0].st = CanState.init ∧
    canIdle.can[0].st = CanState.integrating ∧
    canIdle.can[1].st = CanState.recovering ∧
    cnOnBus canSends.can[1] = true ∧
    canActive.can[1].bus = some { own := some 127, sof := 9 } ∧
    ({ own := some 127, sof := 9 } : OnBus).own = some 127 ∧
    canActive.can[1].initPend = false ∧
    canActive.can[1].late.contains 127 = false ∧
    bitOf canActive (cnBase 1 + 1) 16 = false ∧
    canActive.can[1].st = CanState.active ∧
    canActive.can[1].tec < 128 ∧
    canActive.can[1].recv < 128 ∧
    canReceiving.can[1].bus = some { own := none, sof := 9 } ∧
    ({ own := none, sof := 9 } : OnBus).own = none ∧
    cnOnBus canReceiving.can[1] = true ∧
    frame8.noack = false ∧
    frame8.fdf = false ∧
    canReceiving.can[1].ring.length < 512 := by
  and_intros <;> decide

/-- Obligations.CoreArithmetic, at `coreState 7 0 15 .nop 0 (.add 7 0 15 .nop) true false true true 0x80000`. -/
theorem witness_CoreArithmetic :
    coreReady coreState.cores[7] ∧
    (slotFits (if true = true then [0] else []) [] true MSlot.nop coreState.cores[7]) ∧
    524288 = coreState.cores[7].r.d[0] + coreState.cores[7].r.d[15] ∧
    (true = decide (BitVec.toInt (524288 : Word) ≠ BitVec.toInt coreState.cores[7].r.d[0] + BitVec.toInt coreState.cores[7].r.d[15])) ∧
    (false = decide (2 ^ 20 ≤ BitVec.toNat coreState.cores[7].r.d[0] + BitVec.toNat coreState.cores[7].r.d[15])) := by
  and_intros <;> first | decide | exact ⟨by decide, by decide, by decide, by decide, by decide, accesses_own (by decide)⟩

/-- Obligations.CoreLogicBitsAndShifts, at `( coreState 7 0 15 .nop 19 0x80000 ) (.xori 7 0 0x80000) true 0xFFFFF`; `( coreState 7 0 15 .nop 19 0x80000 ) (.bset 7 0 19 .nop) 0xFFFFF`; `coreState 7 0 15 .nop 19 0x80000`; `coreState 7 0 15 .nop 19 (.asl 7 0 19 .nop) 19 0x80000 true true`. -/
theorem witness_CoreLogicBitsAndShifts :
    coreReady coreState.cores[7] ∧
    (slotFits (if true = true then [0] else []) [] true MSlot.nop coreState.cores[7]) ∧
    1048575 = coreState.cores[7].r.d[0] ^^^ 524288 ∧
    (slotFits [0] [] false MSlot.nop coreState.cores[7]) ∧
    (1048575 = coreState.cores[7].r.d[0] ||| word (2 ^ 19)) ∧
    (slotFits [] [] true MSlot.nop coreState.cores[7]) ∧
    (slotFits [] [] false MSlot.nop coreState.cores[7]) ∧
    (slotFits [0] [] true MSlot.nop coreState.cores[7]) ∧
    524288 = word (BitVec.toNat coreState.cores[7].r.d[0] * 2 ^ 19) ∧
    (true = decide (BitVec.toInt (524288 : Word) ≠ BitVec.toInt coreState.cores[7].r.d[0] * 2 ^ 19)) ∧
    (true = if 19 = 0 then bit coreState.cores[7].r.st 16 else if 20 ≤ 19 then false else bit coreState.cores[7].r.d[0] (20 - 19)) := by
  and_intros <;> first | decide | exact ⟨by decide, by decide, by decide, by decide, by decide, accesses_own (by decide)⟩

/-- Obligations.CoreAccumulatorsAndExponents, at `coreState 7 0 0 0 .frac .nop (.mac 7 0 0 0 .frac .nop) (0x7FFFFFFFFFFF + 2 * (0x7FFFF * 0x7FFFF))`; `(( coreState 7 1 15 0 .nop 18 ) 1 )`; `(( coreState 7 1 15 15 .nop 18 ) 1 )`; `(( coreState 7 1 15 0 .nop 26 ) 0x100000 )`. -/
theorem witness_CoreAccumulatorsAndExponents :
    coreReady coreState.cores[7] ∧
    (slotFits [] [0] false MSlot.nop coreState.cores[7]) ∧
    (140737488355327 + 2 * (524287 * 524287) = BitVec.toInt coreState.cores[7].r.ac[0] + match MacMode.frac with | MacMode.frac => 2 * (BitVec.toInt coreState.cores[7].r.d[0] * BitVec.toInt coreState.cores[7].r.d[0]) | MacMode.int => BitVec.toInt coreState.cores[7].r.d[0] * BitVec.toInt coreState.cores[7].r.d[0] | MacMode.uint => ↑(BitVec.toNat coreState.cores[7].r.d[0]) * ↑(BitVec.toNat coreState.cores[7].r.d[0])) ∧
    (∀ (i : ℕ), 19 - 18 ≤ i → i < 19 → bit 1 i = bit 1 19) ∧
    (18 < 19 → bit 1 (18 - 18) ≠ bit 1 19) ∧
    1 = coreState.cores[7].r.d[15] ∧
    (slotFits [15, 0] [] true MSlot.nop coreState.cores[7]) ∧
    (slotFits [15] [] true MSlot.nop coreState.cores[7]) ∧
    1048576 = coreState.cores[7].r.ac[1] ∧
    (∀ (i : ℕ), 47 - 26 ≤ i → i < 47 → BitVec.getLsbD (1048576 : BitVec 48) i = BitVec.getLsbD (1048576 : BitVec 48) 47) ∧
    (26 < 47 → BitVec.getLsbD (1048576 : BitVec 48) (46 - 26) ≠ BitVec.getLsbD (1048576 : BitVec 48) 47) ∧
    (slotFits [15] [] false MSlot.nop coreState.cores[7]) ∧
    (slotFits [15] [1] false MSlot.nop coreState.cores[7]) := by
  and_intros <;> first | decide | exact ⟨by decide, by decide, by decide, by decide, by decide, accesses_own (by decide)⟩

/-- Obligations.CoreMovesAndBankAccesses, at `( coreState 7 ) 0 15 3 0 .plus .keep`; `( coreState 7 ) 0 15 3 0 .plus .minus`; `( coreState 7 ) 48 7 .plus false`; `( coreState 7 ) 14 7 .plus true`; `( coreState 7 ) 14 7 .minus true`; `( coreState 7 ) 7 .minus`; `( coreState 7 ) 3 0 5`; `( coreState 7 ) 48 15 0 0 (.mov 7 48 15) 1 false`. -/
theorem witness_CoreMovesAndBankAccesses :
    coreReady coreState.cores[7] ∧
    (slotFits [] [] false (MSlot.ldxy 0 15 3 0 Modify.plus Modify.keep Ecc.good) coreState.cores[7]) ∧
    (slotFits [] [] false (MSlot.stxy 0 15 3 0 Modify.plus Modify.minus) coreState.cores[7]) ∧
    (slotFits [] [] false (MSlot.ld 48 7 Modify.plus false Ecc.good) coreState.cores[7]) ∧
    (slotFits [] [] false (MSlot.ld 14 7 Modify.plus true Ecc.good) coreState.cores[7]) ∧
    (slotFits [] [] false (MSlot.st 14 7 Modify.minus true) coreState.cores[7]) ∧
    (1, false) = readCode coreState.cores[7].r 15 := by
  and_intros <;> first | decide | exact ⟨by decide, by decide, by decide, by decide, by decide, accesses_own (by decide)⟩

/-- Obligations.ValuesPassBetweenWidths, at `regs0 0xFFFFFF true 7 1 15 2`. -/
theorem witness_ValuesPassBetweenWidths : true = false → 16777215 < 2 ^ 20 := by decide

/-- Obligations.CoreLongMovesAndMemoryTraffic, at `coreState 7 0 0x1FFFF`; `coreState 7 0 0x1FFFFF`; `coreState 7 0 0x00000`; `coreState 7 0 0x100000`; `faulted 7 0 0x20000`; `faulted 7 0 0xEFFFFF`; `( buffer 7) .host`; `( buffer 7) ⟨0x1FFFFE, 1, some 2⟩ []`. -/
theorem witness_CoreLongMovesAndMemoryTraffic :
    coreReady coreState.cores[7] ∧
    coreState.cores[7].storeBuf = [] ∧
    coreState.cores[7].storeBuf.length < 4 ∧
    coreReady faulted.cores[7] ∧
    bit faulted.cores[7].r.st 0 = true ∧
    Requester.host ∈ buffer.sys.unlocked ∧
    buffer.cores[7].storeBuf = [({ addr := 2097150, value := 1, second := some 2 } : BufStore)] ∧
    1048576 ≤ ({ addr := 2097150, value := 1, second := some 2 } : BufStore).addr ∧
    ({ addr := 2097150, value := 1, second := some 2 } : BufStore).addr < 2097151 := by
  and_intros <;> decide

/-- Obligations.CoreBranchesAndDelaySlots, at `coreState 7 .t true 0 0x1FFFF (.call 7 .t true 0 0x1FFFF) [0] 0x1FFFF`; `coreState 7 .eq true 0 0x1FFFF (.b 7 .eq true 0x1FFFF) [] 0x1FFFF`; `coreState 7 .pl false 0 0 (.jr 7 .pl false 0) [] 0x1FFFF`; `jumping 7 0x1FFFF`; `annulled 7 0 15 .nop`. -/
theorem witness_CoreBranchesAndDelaySlots :
    coreReady coreState.cores[7] ∧
    coreState.cores[7].slots = 0 ∧
    coreState.cores[7].after = AfterSlots.none ∧
    atBodyEnd coreState.cores[7] = false ∧
    131071 = BitVec.ofNat 17 (BitVec.toNat coreState.cores[7].r.d[0]) ∧
    coreReady jumping.cores[7] ∧
    jumping.cores[7].slots = 1 ∧
    jumping.cores[7].after = AfterSlots.jump 131071 ∧
    takesWords annulled.cores[7] = true ∧
    annulled.cores[7].annul = annulled.cores[7].slots ∧
    0 < annulled.cores[7].annul ∧
    annulled.cores[7].after = AfterSlots.none ∧
    annulled.cores[7].ldSlot = [] ∧
    annulled.cores[7].inFlight = [] := by
  and_intros <;> decide

/-- Obligations.CoreRepeatsOpenAndPop, at `(( coreState 7 ) 0 (.imm 0xFFFF) 0xFFFF 0x101 ) 0`; `(( nested 7 ) 1 (.reg 1) 0 0x1FFFF )`; `coreState 7`. -/
theorem witness_CoreRepeatsOpenAndPop :
    coreReady coreState.cores[7] ∧
    coreState.cores[7].slots = 0 ∧
    coreState.cores[7].after = AfterSlots.none ∧
    atBodyEnd coreState.cores[7] = false ∧
    coreState.cores[7].loopOld = [] ∧
    65535 = word (65535) ∧
    coreState.cores[7].pc.toNat < 257 ∧
    257 ≠ coreState.cores[7].pc.toNat + 2 ∧
    stDepth coreState.cores[7].r.st = 0 ∧
    coreReady nested.cores[7] ∧
    nested.cores[7].slots = 0 ∧
    nested.cores[7].after = AfterSlots.none ∧
    atBodyEnd nested.cores[7] = false ∧
    nested.cores[7].loopOld = [] ∧
    0 = nested.cores[7].r.d[1] ∧
    nested.cores[7].pc.toNat < 131071 ∧
    131071 ≠ nested.cores[7].pc.toNat + 2 := by
  and_intros <;> decide

/-- Obligations.CoreSystemWordsAndReturn, at `coreState 7`; `returning 7`; `restoring 7`. -/
theorem witness_CoreSystemWordsAndReturn :
    coreReady coreState.cores[7] ∧
    coreReady returning.cores[7] ∧
    returning.cores[7].slots = 0 ∧
    returning.cores[7].after = AfterSlots.none ∧
    atBodyEnd returning.cores[7] = false ∧
    returning.cores[7].base = false ∧
    fldOf returning (scBase 7 + 2) 16 0 ≠ 65536 ∧
    bit returning.cores[7].r.st 0 = false ∧
    returning.pg.ready = [] ∧
    (∀ (k : CoreId), returning.cores[k].stalled = none) ∧
    takesWords restoring.cores[7] = true ∧
    restoring.cores[7].annul = 0 ∧
    restoring.cores[7].slots = 1 ∧
    restoring.cores[7].after = AfterSlots.restore ∧
    restoring.cores[7].ldSlot = [] ∧
    restoring.cores[7].inFlight = [] := by
  and_intros <;> decide

/-- Obligations.TasksAndCoreFaultsAreEntered, at `tasking 7 5 0 ⟨511, 7, none⟩`; `faulting 7 .breach`; `doubleFault 7 .reserved`. -/
theorem witness_TasksAndCoreFaultsAreEntered :
    presentedTo tasking 7 = some 0 ∧
    tasking.pg.ready[0]? = some { desc := 511, arg := 7, key := none } ∧
    ({ desc := 511, arg := 7, key := none } : Post).desc < 512 ∧
    mayAccept tasking.cores[7] = true ∧
    (∀ (k : CoreId), tasking.cores[k].stalled = none) ∧
    fldOf tasking (scBase 7 + 3) 15 0 + 12 ≤ fldOf tasking (scBase 7 + 2) 16 0 ∧
    fldOf tasking (scBase 7 + 2) 16 0 ≤ 65536 ∧
    BadWord.breach ≠ BadWord.ecc ∧
    takesWords faulting.cores[7] = true ∧
    faulting.cores[7].annul = 0 ∧
    faulting.cores[7].inFlight = [] ∧
    bit faulting.cores[7].r.st 0 = false ∧
    fldOf faulting (scBase 7 + 3) 15 0 + 12 ≤ fldOf faulting (scBase 7 + 2) 16 0 ∧
    BadWord.reserved ≠ BadWord.ecc ∧
    takesWords doubleFault.cores[7] = true ∧
    doubleFault.cores[7].annul = 0 ∧
    doubleFault.cores[7].inFlight = [] ∧
    bit doubleFault.cores[7].r.st 0 = true := by
  and_intros <;> decide

/-- Obligations.MoveSpeedAndFollow, at `( resting 127)`; `( resting 287)`; `( follower 127)`; `( heldProf 287) (.follow 287)`. -/
theorem witness_MoveSpeedAndFollow :
    mayMove resting 127 = true ∧
    (profOf resting 127).st = ProfState.idle ∧
    (profOf resting 127).v = 0 ∧
    (profOf resting 127).a = 0 ∧
    limitsOk resting 127 = true ∧
    (256 ≤ 127 → effLevel resting < 2 ∧ pairI resting (mpBase 127 + 42) ≤ pairI resting (mpBase 127 + 4) ∧ pairI resting (mpBase 127 + 4) ≤ pairI resting (mpBase 127 + 44)) ∧
    (∀ a ∈ commandAxes resting 127 1, mapGet 0 resting.mo.treat a = 0) ∧
    mayMove resting 287 = true ∧
    (profOf resting 287).st = ProfState.idle ∧
    (profOf resting 287).v = 0 ∧
    (profOf resting 287).a = 0 ∧
    limitsOk resting 287 = true ∧
    (256 ≤ 287 → effLevel resting < 2 ∧ pairI resting (mpBase 287 + 42) ≤ pairI resting (mpBase 287 + 4) ∧ pairI resting (mpBase 287 + 4) ≤ pairI resting (mpBase 287 + 44)) ∧
    (∀ a ∈ commandAxes resting 287 1, mapGet 0 resting.mo.treat a = 0) ∧
    (profOf resting 127).st ∈ [ProfState.idle, ProfState.moving, ProfState.speed, ProfState.following] ∧
    mapGet 0 resting.mo.treat 127 = 0 ∧
    mayMove follower 127 = true ∧
    (profOf follower 127).st ∈ [ProfState.idle, ProfState.speed] ∧
    fldOf follower (mpBase 127 + 28) 19 18 ∈ [1, 2] ∧
    u32 follower (mpBase 127 + 34) ≠ 0 ∧
    (∀ a ∈ commandAxes follower 127 3, mapGet 0 follower.mo.treat a = 0) ∧
    Instr.follow 287 = Instr.follow 287 ∧
    (profOf heldProf 287).st ∈ [ProfState.stopping, ProfState.held, ProfState.waiting] := by
  and_intros <;> decide

/-- Obligations.StopLandingAndAck, at `( movingProf 287) (.stopQuick 287) 2`; `( resting 127) (.stopNormal 127) 1`; `( resting 287)`; `(( heldProf 287) )`; `(( heldProf 127) ) (.stopQuick 127)`; `( resting 127)`. -/
theorem witness_StopLandingAndAck :
    Instr.stopQuick 287 = Instr.stopQuick 287 ∧
    hasProfile movingProf 287 = true ∧
    (profOf movingProf 287).st ∉ [ProfState.stopping, ProfState.held] ∧
    (rampSet (limitsOf movingProf 287) 2).2 = true ∧
    Instr.stopNormal 127 = Instr.stopNormal 127 ∧
    hasProfile resting 127 = true ∧
    (profOf resting 127).st ∉ [ProfState.stopping, ProfState.held] ∧
    (rampSet (limitsOf resting 127) 1).2 = true ∧
    mayMove resting 287 = true ∧
    (profOf resting 287).st = ProfState.idle ∧
    (profOf resting 287).v = 0 ∧
    (profOf resting 287).a = 0 ∧
    limitsOk resting 287 = true ∧
    (∀ a ∈ commandAxes resting 287 6, mapGet 0 resting.mo.treat a = 0) ∧
    hasProfile heldProf 287 = true ∧
    (profOf heldProf 287).st = ProfState.held ∧
    hasProfile heldProf 127 = true ∧
    (profOf heldProf 127).st = ProfState.held ∧
    Instr.stopQuick 127 = Instr.stopQuick 127 ∧
    (profOf resting 127).st ≠ ProfState.held := by
  and_intros <;> decide

/-- Obligations.StandstillStoresAndTreatments, at `( resting 287)`; `(( storing 127) 0x12345 (2 ^ 32 - 2) 63 )`; `( waitingProf 287)`. -/
theorem witness_StandstillStoresAndTreatments :
    bitOf resting (mpBase 287) 19 = true ∧
    bitOf resting (mpStat 287) 14 = false ∧
    stillNow resting 287 = true ∧
    effLevel resting ≠ 4 ∧
    (∀ (g : Fin 4), resting.gh.grp[g].cond ≠ GrpCond.ss1) ∧
    storing.sys.op ≠ OpState.test ∧
    storing.mo.stores = [{ obj := 127, angle := some 74565 }] ∧
    lookupNat storing.mo.ring 127 = some (2 ^ 32 - 2, 63) ∧
    (profOf waitingProf 287).st = ProfState.waiting := by
  and_intros <;> decide

/-- Obligations.GroupWritesStageCommitAndAbort, at `( (groupState 0x0FFFF none))`; `( (groupState 0x40001 (some 1)))`; `( (groupState 0x40001 (some 2)))`; `( groupLate)`; `( (groupState 0xC0001 none))`. -/
theorem witness_GroupWritesStageCommitAndAbort :
    gwPhase (groupState 65535 none) = 0 ∧
    running (groupState 65535 none) = true ∧
    gwPhase (groupState 262145 (some 1)) = 1 ∧
    gwPhase (groupState 262145 (some 2)) = 1 ∧
    (groupState 262145 (some 2)).mo.gw.cycle = some 2 ∧
    gwPhase groupLate = 2 ∧
    groupLate.mo.gw.cycle = some 9 ∧
    2 ∈ gwMembers groupLate ∧
    2 ∉ groupLate.mo.gw.applied ∧
    gwPhase (groupState 786433 none) = 3 := by
  and_intros <;> decide

/-- Obligations.ServoBatchesAndTestSignals, at `servo true 7`; `servoRuns false 7`; `lateBatchState false 7`; `lateBatchState lateSig [setpQueue] 7`; `servoRuns 1 7`; `( generator 1)`; `( servo 0)`; `( (injecting 3 generator) 1) (.abort .host 1) 1`; `( (injecting 16 generator) 1) (.injectionEnd 1) 0`; `( (injecting 3 servo) 1) (.injectionEnd 1) 5`; `( (injecting 3 standby) 1) .host`. -/
theorem witness_ServoBatchesAndTestSignals :
    engineRuns servo = true ∧
    paired servo = false ∧
    isStandby servo = false ∧
    servo.sv.batch = none ∧
    servo.sv.late = none ∧
    servo.sv.done + 1 ≤ batchCount servo ∧
    engineRuns servoRuns = true ∧
    paired servoRuns = false ∧
    isStandby servoRuns = false ∧
    servoRuns.sv.batch.isSome = true ∧
    engineRuns lateBatchState = true ∧
    paired lateBatchState = false ∧
    isStandby lateBatchState = false ∧
    lateBatchState.sv.late.isSome = true ∧
    lateBatchState.sv.late = some (lateSig, [setpQueue]) ∧
    servoRuns.sv.late = none ∧
    servoRuns.sv.batch = some 1 ∧
    generator.sys.op = OpState.runActive ∧
    effLevel generator = 0 ∧
    stopActs generator (objOfGen generator 1) = false ∧
    injOk generator 1 = true ∧
    fldOf generator (genAddr 1) 10 9 ≠ 0 ∧
    fldOf generator (genAddr 1 + 6) 19 0 ≠ 0 ∧
    fldOf generator (genAddr 1) 8 6 < 4 ∧
    fldOf servo (genAddr 0) 10 9 = 0 ∧
    (injecting 3 generator).sv.gens[1].running = true ∧
    standbyDrops Requester.host (genAddr 1 + 7) (injecting 3 generator) = false ∧
    (injecting 16 generator).sv.gens[1].running = true ∧
    injOk (injecting 16 generator) 1 = true ∧
    stopActs (injecting 16 generator) (objOfGen (injecting 16 generator) 1) = false ∧
    (injecting 16 generator).sys.op = OpState.runActive ∧
    effLevel (injecting 16 generator) = 0 ∧
    fldOf (injecting 16 generator) (genAddr 1 + 6) 19 0 ≤ (injecting 16 generator).sv.gens[1].k ∧
    (injecting 3 servo).sv.gens[1].running = true ∧
    injOk (injecting 3 servo) 1 = false ∧
    standbyDrops Requester.host (genAddr 1 + 7) (injecting 3 standby) = true := by
  and_intros <;> decide

/-- Obligations.ColdStartFindsTheLeader, at `(linked .listen)`; `joining`; `joining 3 0 7`; `(on [(0xF28000, 0x80000)] joining) 3 0 7`; `(on [(0xF28000, 0xC0000)] joining) 0 1 7`; `(linked .clash) .host`; `joining 3 (markIn 1) 77`; `following 3 (markIn 1) 77`. -/
theorem witness_ColdStartFindsTheLeader :
    (linked LinkState.listen).lk.st = LinkState.listen ∧
    joining.lk.st = LinkState.coldstart ∧
    joining.lk.left = 4 ∧
    joining.sys.op = OpState.join ∧
    linkCounts joining = true ∧
    portUp joining 3 = true ∧
    linkCounts (on [(15892480, 524288)] joining) = true ∧
    portUp (on [(15892480, 524288)] joining) 3 = true ∧
    (on [(15892480, 524288)] joining).lk.st = LinkState.coldstart ∧
    linkCounts (on [(15892480, 786432)] joining) = true ∧
    portUp (on [(15892480, 786432)] joining) 0 = true ∧
    (on [(15892480, 786432)] joining).lk.st = LinkState.coldstart ∧
    joining.lk.st ≠ LinkState.off ∧
    joining.lk.st ≠ LinkState.clash ∧
    (linked LinkState.clash).lk.st = LinkState.clash ∧
    (markIn 1).src = partnerAddr joining ∧
    serialOlder 16 (markIn 1).epoch.toNat joining.lk.epoch = false ∧
    linkCounts following = true ∧
    portUp following 3 = true ∧
    (markIn 1).src = partnerAddr following ∧
    serialOlder 16 (markIn 1).epoch.toNat following.lk.epoch = false ∧
    following.lk.st = LinkState.follow ∧
    following.lk.marked = false ∧
    (∀ (q : ℕ), following.lk.lastMark = some q → (markIn 1).seq.toNat = (q + 1) % 2 ^ 32) := by
  and_intros <;> decide

/-- Obligations.UplinksAndEmptySlots, at `(linked .lead) 3 (upl 9)`; `(linked .lead) 3 (upl 8)`; `(linked .lead) 121`. -/
theorem witness_UplinksAndEmptySlots :
    (linked LinkState.lead).lk.st = LinkState.lead ∧
    linkCounts (linked LinkState.lead) = true ∧
    portUp (linked LinkState.lead) 3 = true ∧
    (nodeEn (linked LinkState.lead) ↑(upl 9).node = true) ∧
    (nodeCh (linked LinkState.lead) ↑(upl 9).node = 3 / 2) ∧
    ((upl 9).recs.length = nodeNax (linked LinkState.lead) ↑(upl 9).node) ∧
    (upl 9).seq.toNat = (linked LinkState.lead).lk.q ∧
    (∀ (x : ℤ), uplOffset (linked LinkState.lead) 3 (upl 9) = some x → |x| ≤ 8 * ↑(fldOf (linked LinkState.lead) 15892481 9 0)) ∧
    ((nodeOf (linked LinkState.lead) ↑(upl 9).node).got = false) ∧
    (nodeEn (linked LinkState.lead) ↑(upl 8).node = true) ∧
    (nodeCh (linked LinkState.lead) ↑(upl 8).node = 3 / 2) ∧
    ((upl 8).recs.length = nodeNax (linked LinkState.lead) ↑(upl 8).node) ∧
    (upl 8).seq.toNat ≠ (linked LinkState.lead).lk.q ∧
    nodeEn (linked LinkState.lead) 121 = true ∧
    (nodeOf (linked LinkState.lead) 121).got = false := by
  and_intros <;> decide

/-- Obligations.ServiceAndSetPointFrames, at `(linked .lead) 1`; `sends 1`; `(relaying (linked .follow)) 1`; `( (granted 1) 2 ⟨121, 9, false, .reply 5 false 0 [1, 2]⟩ true ) 5 0 [1, 2]`; `( (granted 1) 2 ⟨121, 9, false, .reply 5 false 0 [1, 2]⟩ false ) 5 0 [1, 2]`; `( (granted 2) 2 ⟨121, 9, false, .join 2 none none⟩ true ) 2`; `( (granted 2) 2 ⟨121, 9, false, .join 1 none none⟩ true ) 1`; `sends 1 setpQueue`; `pairState 3 121 9 0 [(1, 2, 3, 4), (5, 6, 7, 9)] 40000`; `pairState 3 121 9 0 [(1, 2, 3, 4), (5, 6, 7, 9)] 0`. -/
theorem witness_ServiceAndSetPointFrames :
    (linked LinkState.lead).lk.st = LinkState.lead ∧
    (linked LinkState.lead).lk.svc.answer = [] ∧
    (linked LinkState.lead).lk.svc.out = [] ∧
    sends.lk.st = LinkState.lead ∧
    sends.lk.svc.answer = [] ∧
    sends.lk.svc.out = [] ∧
    (relaying (linked LinkState.follow)).lk.st = LinkState.follow ∧
    paired (relaying (linked LinkState.follow)) = true ∧
    portRole (relaying (linked LinkState.follow)) (2 * 1) = 1 ∧
    portRole (relaying (linked LinkState.follow)) (2 * 1 + 1) = 2 ∧
    (granted 1).lk.st = LinkState.lead ∧
    linkCounts (granted 1) = true ∧
    portUp (granted 1) 2 = true ∧
    (nodeEn (granted 1) ↑({ node := 121, seq := 9, refused := false, body := SvuBody.reply 5 false 0 [1, 2] } : SvuIn).node = true) ∧
    (nodeCh (granted 1) ↑({ node := 121, seq := 9, refused := false, body := SvuBody.reply 5 false 0 [1, 2] } : SvuIn).node = 2 / 2) ∧
    ({ node := 121, seq := 9, refused := false, body := SvuBody.reply 5 false 0 [1, 2] } : SvuIn).seq.toNat = (granted 1).lk.q ∧
    ({ node := 121, seq := 9, refused := false, body := SvuBody.reply 5 false 0 [1, 2] } : SvuIn).refused = false ∧
    ({ node := 121, seq := 9, refused := false, body := SvuBody.reply 5 false 0 [1, 2] } : SvuIn).body = SvuBody.reply 5 false 0 [1, 2] ∧
    ((2 / 2, ↑({ node := 121, seq := 9, refused := false, body := SvuBody.reply 5 false 0 [1, 2] } : SvuIn).node, 1) ∈ (granted 1).lk.svc.grant) ∧
    (granted 1).lk.svc.inb = [] ∧
    (granted 2).lk.st = LinkState.lead ∧
    linkCounts (granted 2) = true ∧
    portUp (granted 2) 2 = true ∧
    (nodeEn (granted 2) ↑({ node := 121, seq := 9, refused := false, body := SvuBody.join 2 none none } : SvuIn).node = true) ∧
    (nodeCh (granted 2) ↑({ node := 121, seq := 9, refused := false, body := SvuBody.join 2 none none } : SvuIn).node = 2 / 2) ∧
    ({ node := 121, seq := 9, refused := false, body := SvuBody.join 2 none none } : SvuIn).seq.toNat = (granted 2).lk.q ∧
    ({ node := 121, seq := 9, refused := false, body := SvuBody.join 2 none none } : SvuIn).refused = false ∧
    ({ node := 121, seq := 9, refused := false, body := SvuBody.join 2 none none } : SvuIn).body = SvuBody.join 2 none none ∧
    ((2 / 2, ↑({ node := 121, seq := 9, refused := false, body := SvuBody.join 2 none none } : SvuIn).node, 2) ∈ (granted 2).lk.svc.grant) ∧
    (nodeEn (granted 2) ↑({ node := 121, seq := 9, refused := false, body := SvuBody.join 1 none none } : SvuIn).node = true) ∧
    (nodeCh (granted 2) ↑({ node := 121, seq := 9, refused := false, body := SvuBody.join 1 none none } : SvuIn).node = 2 / 2) ∧
    ({ node := 121, seq := 9, refused := false, body := SvuBody.join 1 none none } : SvuIn).seq.toNat = (granted 2).lk.q ∧
    ({ node := 121, seq := 9, refused := false, body := SvuBody.join 1 none none } : SvuIn).refused = false ∧
    ({ node := 121, seq := 9, refused := false, body := SvuBody.join 1 none none } : SvuIn).body = SvuBody.join 1 none none ∧
    ((2 / 2, ↑({ node := 121, seq := 9, refused := false, body := SvuBody.join 1 none none } : SvuIn).node, 2) ∈ (granted 2).lk.svc.grant) ∧
    (List.find? (fun y => y.ch == 1) sends.lk.toSend = some setpQueue) ∧
    sends.pr.silent = false ∧
    sends.pr.active = true ∧
    ((List.map (fun x => x.1) setpQueue.frames).Nodup) ∧
    pairState.lk.st ≠ LinkState.off ∧
    paired pairState = true ∧
    linkCounts pairState = true ∧
    portUp pairState 3 = true ∧
    0 = pairState.lk.epoch ∧
    setpWindow (advance 40000 pairState) (3 / 2) = some (9) ∧
    setpWindow (advance 0 pairState) (3 / 2) ≠ some (9) := by
  and_intros <;> decide

/-- Obligations.PortsAndSystemTime, at `(ppsState TimeSt.reset) 600000013`; `(ppsState { TimeSt.reset with stepped := true, good := 3, tEdge := some 5 }) 600000013`; `(on [(0xF28025, 0x80000)] (ppsState TimeSt.reset))`. -/
theorem witness_PortsAndSystemTime :
    bitOf (ppsState TimeSt.reset) 15892516 19 = true ∧
    (ppsState TimeSt.reset).lk.st = LinkState.lead ∧
    (ppsState TimeSt.reset).now ≤ 600000013 ∧
    bitOf (ppsState { offset := TimeSt.reset.offset, slew := TimeSt.reset.slew, stepped := true, good := 3, tEdge := some 5 }) 15892516 19 = true ∧
    (ppsState { offset := TimeSt.reset.offset, slew := TimeSt.reset.slew, stepped := true, good := 3, tEdge := some 5 }).lk.st = LinkState.lead ∧
    (ppsState { offset := TimeSt.reset.offset, slew := TimeSt.reset.slew, stepped := true, good := 3, tEdge := some 5 }).now ≤ 600000013 ∧
    bitOf (on [(15892517, 524288)] (ppsState TimeSt.reset)) 15892516 19 = true ∧
    (on [(15892517, 524288)] (ppsState TimeSt.reset)).lk.st = LinkState.lead := by
  and_intros <;> decide

/-- Obligations.PairLaneFramesAreTaken, at `(( laneDown 0x0001 ) (fun k => .failReceived k 1 5) ) .ok`; `(( standby 0xFFFF ) (fun k => .failReceived k 0xFFFF 5) ) .crc`; `(( standby 0xFFFF ) (fun k => .failReceived k 0xFFFF 5) )`; `(( joinFollow 0 ) ) (stateIn 1)`; `(( active 0 ) ) (stateIn 2)`; `((( standby 0 ) ) ) [⟨1, 2, 3, true, false, true⟩] [(4, 9)] 5`; `((( standby 0 ) ) ) 31 0xFF [⟨5, 6, 7⟩]`; `((( standby 0 ) ) ) [.level 2]`; `((( standby 0 ) ) ) (.regs [])`; `(( standby 0 ) ) 1 9 true 5 [6, 0, 0, 0, 0, 0, 0, 0] standbySig`; `(( standby 0 ) ) 1 9 true 5 [7, 0, 0, 0, 0, 0, 0, 0] standbySig`; `(( standby 0 ) ) 1 9 true 6 [7, 0, 0, 0, 0, 0, 0, 0] standbySig`; `(( standby 0 ) ) false`; `(( standby 0 ) ) 0x11`. -/
theorem witness_PairLaneFramesAreTaken :
    linkCounts laneDown = true ∧
    paired laneDown = true ∧
    laneDown.pr.laneUp = false ∧
    linkCounts standby = true ∧
    paired standby = true ∧
    standby.pr.laneUp = true ∧
    RxCheck.crc ∈ [RxCheck.crc, RxCheck.format, RxCheck.address] ∧
    standby.lk.st ≠ LinkState.off ∧
    serialOlder 16 (65535) standby.lk.epoch = true ∧
    linkCounts joinFollow = true ∧
    paired joinFollow = true ∧
    joinFollow.lk.st ≠ LinkState.off ∧
    joinFollow.pr.laneUp = true ∧
    0 = joinFollow.lk.epoch ∧
    linkCounts active = true ∧
    paired active = true ∧
    active.lk.st ≠ LinkState.off ∧
    active.pr.laneUp = true ∧
    0 = active.lk.epoch ∧
    0 = standby.lk.epoch ∧
    isStandby standby = true ∧
    (∀ y ∈ standby.pr.ins, y.1 ≠ 31) ∧
    1 ∉ standby.pr.unaligned ∧
    (1, 9) ∉ standby.pr.compared ∧
    (List.find? (fun x => x.batch == 1 && x.seq == 9) standby.pr.sigOwn = some standbySig) ∧
    (∀ x ∈ standby.pr.sigPartner, x.batch = 1 → x.seq ≠ 9) ∧
    standby.pr.diag = true := by
  and_intros <;> decide

/-- Obligations.TakeoverAndDiagnosis, at `( active)`; `( adopting)`; `( standby)`; `( laneDown)`; `(( emptyOne) )`; `((( emptyTwo) ) )`; `((( unalignedTwo) ) )`; `(( ownFails) )`; `(( partnerFails) )`; `(( activeFails) )`; `(( bothPass) )`; `(( noAnswer) )`. -/
theorem witness_TakeoverAndDiagnosis :
    onLane active = true ∧
    active.pr.active = true ∧
    active.pr.diag = false ∧
    onLane adopting = true ∧
    adopting.pr.active = true ∧
    adopting.pr.diag = false ∧
    onLane standby = true ∧
    standby.pr.active = false ∧
    standby.pr.diag = true ∧
    paired laneDown = true ∧
    laneDown.pr.lost = false ∧
    laneGone laneDown = true ∧
    emptyOne.sys.op = OpState.runStandby ∧
    emptyNow emptyOne = 1 ∧
    emptyTwo.sys.op = OpState.runStandby ∧
    2 ≤ emptyNow emptyTwo ∧
    emptyTwo.pr.unaligned = [] ∧
    unalignedTwo.sys.op = OpState.runStandby ∧
    unalignedTwo.pr.failHeard = true ∧
    unalignedTwo.pr.unaligned ≠ [] ∧
    ownFails.pr.diag = true ∧
    ownFails.pr.ownRes = 2 ∧
    ownFails.sys.op ≠ OpState.recovery ∧
    onLane ownFails = true ∧
    partnerFails.pr.diag = true ∧
    partnerFails.pr.ownRes ≠ 2 ∧
    partnerFails.pr.partRes = 2 ∧
    isStandby partnerFails = false ∧
    activeFails.pr.diag = true ∧
    activeFails.pr.ownRes ≠ 2 ∧
    activeFails.pr.partRes = 2 ∧
    activeFails.sys.op = OpState.runStandby ∧
    activeFails.pr.unaligned = [] ∧
    bothPass.pr.diag = true ∧
    bothPass.pr.ownRes ≠ 2 ∧
    bothPass.pr.partRes ≠ 2 ∧
    bothPass.sys.op = OpState.runStandby ∧
    noAnswer.pr.diag = true ∧
    noAnswer.pr.ownRes ≠ 2 ∧
    noAnswer.pr.partRes ≠ 2 ∧
    noAnswer.sys.op = OpState.runStandby := by
  and_intros <;> decide

/-- Obligations.ExchangeIsAgreedAndCarriedOut, at `( aligned) 0 10`; `( standby) 0 10`; `( active) 0 ⟨7, 10, true, false⟩ 10 0`; `( active) 0 ⟨7, 10, true, false⟩ 10 1`; `(( (asked ⟨7, 10, false, false⟩)) ⟨7, 10, false, false⟩ )`; `((( active) ⟨7, 10, true, false⟩ ) )`; `((( exchanging) ⟨7, 10, true, false⟩ ) )`; `(( (asked ⟨4, 8, true, true⟩)) ⟨4, 8, true, true⟩ )`. -/
theorem witness_ExchangeIsAgreedAndCarriedOut :
    onLane aligned = true ∧
    linkCounts aligned = true ∧
    aligned.pr.laneUp = true ∧
    0 = aligned.lk.epoch ∧
    aligned.sys.op = OpState.runStandby ∧
    onLane standby = true ∧
    linkCounts standby = true ∧
    standby.pr.laneUp = true ∧
    0 = standby.lk.epoch ∧
    standby.sys.op = OpState.runStandby ∧
    active.lk.st ≠ LinkState.off ∧
    paired active = true ∧
    linkCounts active = true ∧
    active.pr.laneUp = true ∧
    0 = active.lk.epoch ∧
    active.pr.active = true ∧
    active.pr.exch = some ({ c := 7, x := 10, acked := true, overlap := false } : Exch) ∧
    ({ c := 7, x := 10, acked := true, overlap := false } : Exch).x = 10 ∧
    ({ c := 7, x := 10, acked := true, overlap := false } : Exch).overlap = false ∧
    (asked { c := 7, x := 10, acked := false, overlap := false }).pr.exch = some ({ c := 7, x := 10, acked := false, overlap := false } : Exch) ∧
    (asked { c := 7, x := 10, acked := false, overlap := false }).pr.active = true ∧
    ({ c := 7, x := 10, acked := false, overlap := false } : Exch).acked = false ∧
    2 ≤ ((asked { c := 7, x := 10, acked := false, overlap := false }).lk.q + 2 ^ 32 - ({ c := 7, x := 10, acked := false, overlap := false } : Exch).c) % 2 ^ 32 ∧
    ({ c := 7, x := 10, acked := true, overlap := false } : Exch).acked = true ∧
    (active.lk.q + 1) % 2 ^ 32 = ({ c := 7, x := 10, acked := true, overlap := false } : Exch).x ∧
    active.sys.op = OpState.runActive ∧
    exchanging.pr.exch = some ({ c := 7, x := 10, acked := true, overlap := false } : Exch) ∧
    (exchanging.lk.q + 1) % 2 ^ 32 = ({ c := 7, x := 10, acked := true, overlap := false } : Exch).x ∧
    exchanging.sys.op = OpState.runStandby ∧
    exchanging.pr.active = false ∧
    (asked { c := 4, x := 8, acked := true, overlap := true }).pr.exch = some ({ c := 4, x := 8, acked := true, overlap := true } : Exch) ∧
    ({ c := 4, x := 8, acked := true, overlap := true } : Exch).overlap = true ∧
    ((asked { c := 4, x := 8, acked := true, overlap := true }).lk.q + 1) % 2 ^ 32 = (({ c := 4, x := 8, acked := true, overlap := true } : Exch).x + 2) % 2 ^ 32 := by
  and_intros <;> decide

/-- Obligations.ResetsClearThePart, at `(levelFive true) .internalResetRelease 3 .powerUp 0 false`; `archiving .rstNReset 4 .boot 0 true`; `configState (.swrst .host) 5 .boot 1 false`; `powerUp .porstNLow 1 .powerUp 0 false`; `rstHeldState .porstNLow 1 .powerUp 0 false`; `( powerUp .porstNLow 1 .powerUp 0 false ) true`; `( runState .porstNLow 1 .powerUp 0 false ) .host`; `(levelFive false) .porstNLow 1 .powerUp 0 false`. -/
theorem witness_ResetsClearThePart :
    (levelFive true).ph.l5 = true ∧
    (levelFive true).ph.flushed = true ∧
    archiving.sys.op ≠ OpState.powerUp ∧
    archiving.ph.l5 = false ∧
    configState.ph.l5 = false ∧
    configState.sys.rstHeld = false ∧
    configState.sys.op ∈ [OpState.config, OpState.join, OpState.safe, OpState.recovery] ∧
    powerUp.sys.op = OpState.powerUp ∧
    rstHeldState.sys.rstHeld = true ∧
    powerUp.ph.l5 = false ∧
    runState.ph.l5 = false ∧
    runState.sys.rstHeld = false ∧
    runState.sys.op = OpState.runActive ∧
    effLevel runState ≠ 4 ∧
    (levelFive false).ph.l5 = true ∧
    (levelFive false).ph.flushed = false := by
  and_intros <;> decide

set_option maxRecDepth 1000000 in
/-- Obligations.BootStepsAndBootHold, at `((( (bootAt 1) ) ) 0)`; `((( (bootAt 2) ) ) 0)`; `((( (withImage (bootAt 2)) ) ) 0)`; `((( (bootAt 3) ) ) 31)`; `(((( (bootAt 5) ) ) 0) )`; `(((( (withImage (bootAt 5)) ) ) 0) )`; `((( (bootAt 6) ) ) 0)`; `((( (bootAt 7) ) ) 0)`; `((( (bootAt 8) ) ) 0)`; `(( bootWait ) )`; `(( bootWait ) ) 5 6`; `(( bootHeld ) )`; `(( bootHeld ) ) 5 6`; `(( bootHeld ) ) 5`. -/
theorem witness_BootStepsAndBootHold :
    (bootAt 1).sys.op = OpState.boot ∧
    (bootAt 1).sys.rstHeld = false ∧
    (bootAt 1).sys.bootHold = false ∧
    (bootAt 1).sys.bwait = false ∧
    (bootAt 1).sys.step = 1 ∧
    (bootAt 2).sys.op = OpState.boot ∧
    (bootAt 2).sys.rstHeld = false ∧
    (bootAt 2).sys.bootHold = false ∧
    (bootAt 2).sys.bwait = false ∧
    (bootAt 2).sys.step = 2 ∧
    (withImage (bootAt 2)).sys.op = OpState.boot ∧
    (withImage (bootAt 2)).sys.rstHeld = false ∧
    (withImage (bootAt 2)).sys.bootHold = false ∧
    (withImage (bootAt 2)).sys.bwait = false ∧
    (withImage (bootAt 2)).sys.step = 2 ∧
    (bootAt 3).sys.op = OpState.boot ∧
    (bootAt 3).sys.rstHeld = false ∧
    (bootAt 3).sys.bootHold = false ∧
    (bootAt 3).sys.bwait = false ∧
    (bootAt 3).sys.step = 3 ∧
    (bootAt 5).sys.op = OpState.boot ∧
    (bootAt 5).sys.rstHeld = false ∧
    (bootAt 5).sys.bootHold = false ∧
    (bootAt 5).sys.bwait = false ∧
    (bootAt 5).sys.step = 5 ∧
    imageOk (bootAt 5) = false ∧
    (withImage (bootAt 5)).sys.op = OpState.boot ∧
    (withImage (bootAt 5)).sys.rstHeld = false ∧
    (withImage (bootAt 5)).sys.bootHold = false ∧
    (withImage (bootAt 5)).sys.bwait = false ∧
    (withImage (bootAt 5)).sys.step = 5 ∧
    imageOk (withImage (bootAt 5)) = true ∧
    (bootAt 6).sys.op = OpState.boot ∧
    (bootAt 6).sys.rstHeld = false ∧
    (bootAt 6).sys.bootHold = false ∧
    (bootAt 6).sys.bwait = false ∧
    (bootAt 6).sys.step = 6 ∧
    (bootAt 7).sys.op = OpState.boot ∧
    (bootAt 7).sys.rstHeld = false ∧
    (bootAt 7).sys.bootHold = false ∧
    (bootAt 7).sys.bwait = false ∧
    (bootAt 7).sys.step = 7 ∧
    (bootAt 8).sys.op = OpState.boot ∧
    (bootAt 8).sys.rstHeld = false ∧
    (bootAt 8).sys.bootHold = false ∧
    (bootAt 8).sys.bwait = false ∧
    (bootAt 8).sys.step = 8 ∧
    bootWait.sys.op = OpState.boot ∧
    bootWait.sys.rstHeld = false ∧
    bootWait.sys.bootHold = false ∧
    bootWait.sys.step = 4 ∧
    bootWait.sys.bwait = true ∧
    bootHeld.sys.op = OpState.boot ∧
    bootHeld.sys.rstHeld = false ∧
    bootHeld.sys.bootHold = true ∧
    151552 ≤ fld (regGet bootHeld 16072709) 18 0 ∧
    fld (regGet bootHeld 16072709) 18 0 < 262144 := by
  and_intros <;> decide +kernel

/-- Obligations.RequestsStoresAndTestPort, at `( configState) (.run .host) configState`; `( autorun) .autorunExpiry autorun`; `( configState) .host`; `( (withImage configState)) .host`; `(( recoverable) .host )`; `(( safeState) .host )`; `( (on [(0xF54005, 0x7FFFF)] runState))`; `( standby)`; `( testState) .extest`; `( runState) .makers`; `( testState)`. -/
theorem witness_RequestsStoresAndTestPort :
    configState.sys.op = OpState.config ∧
    configState.sys.joinReq = false ∧
    configState.sys.rstHeld = false ∧
    configState = armLock Requester.host configState ∧
    autorun.sys.op = OpState.config ∧
    autorun.sys.joinReq = false ∧
    autorun.sys.rstHeld = false ∧
    bitOf autorun 16072707 17 = true ∧
    bitOf autorun 16072704 18 = false ∧
    (withImage configState).sys.op = OpState.config ∧
    (withImage configState).sys.rstHeld = false ∧
    recoverable.sys.op = OpState.safe ∧
    recoverable.sys.rstHeld = false ∧
    recoverable.ph.l5 = false ∧
    bitOf recoverable 15941701 19 = true ∧
    safeState.sys.op = OpState.safe ∧
    safeState.sys.rstHeld = false ∧
    safeState.ph.l5 = false ∧
    bitOf safeState 15941701 19 = false ∧
    (on [(16072709, 524287)] runState).sys.op ≠ OpState.powerUp ∧
    (on [(16072709, 524287)] runState).sys.rstHeld = false ∧
    512 ≤ fld (regGet (on [(16072709, 524287)] runState) 16072709) 18 0 ∧
    2048 ≤ fld (regGet (on [(16072709, 524287)] runState) 16072709) 18 0 ∧
    standby.sys.op ≠ OpState.powerUp ∧
    standby.sys.op ≠ OpState.test ∧
    standby.sys.rstHeld = false ∧
    TapOp.extest ≠ TapOp.makers ∧
    runState.sys.op ≠ OpState.test ∧
    testState.sys.op = OpState.test := by
  and_intros <;> decide

/-- Obligations.RegisterWritesAndLocks, at `runState .host 0xF50000 0x5A0F3`; `(openLocks runState) .host 0xFFFFFF 5`; `runState .host 0xF34006 5`; `(openLocks runState) .host 0xF08003 0x12345`; `configState .host 0xF08000 0xFFFFF`; `configState .host 0xF4007F 0xFFFFF`; `standby .host 0xF08003 0x12345`; `(openLocks runState) .host 0xF54003 0x12345`; `(( (slowPend 0xF38034 runState) .host 0xF00000 0 ) 0xF38034 0xC0000 )`; `(( (slowPend 0xF38022 runState) .host 0xF00000 0 ) 0xF38022 0xC0000 )`; `(( (slowPend 0xF38022 safeState) .host 0xF00000 0 ) 0xF38022 0xC0000 )`. -/
theorem witness_RegisterWritesAndLocks :
    runState.sys.op ≠ OpState.powerUp ∧
    runState.sys.rstHeld = false ∧
    (openLocks runState).sys.op ≠ OpState.powerUp ∧
    (openLocks runState).sys.rstHeld = false ∧
    configState.sys.op ≠ OpState.powerUp ∧
    configState.sys.rstHeld = false ∧
    standby.sys.op ≠ OpState.powerUp ∧
    standby.sys.rstHeld = false ∧
    (slowPend 15958068 runState).sys.op ≠ OpState.powerUp ∧
    (slowPend 15958068 runState).sys.rstHeld = false ∧
    (slowPend 15958068 runState).sys.slow = [(15958068, 786432, Requester.host)] ∧
    (slowPend 15958050 runState).sys.op ≠ OpState.powerUp ∧
    (slowPend 15958050 runState).sys.rstHeld = false ∧
    (slowPend 15958050 runState).sys.slow = [(15958050, 786432, Requester.host)] ∧
    (slowPend 15958050 runState).sys.op = OpState.runActive ∧
    (slowPend 15958050 safeState).sys.op ≠ OpState.powerUp ∧
    (slowPend 15958050 safeState).sys.rstHeld = false ∧
    (slowPend 15958050 safeState).sys.slow = [(15958050, 786432, Requester.host)] ∧
    (slowPend 15958050 safeState).sys.op = OpState.safe := by
  and_intros <;> decide

/-- Obligations.HostPortPinsAndStagedWords, at `(( runState ) 0x1F 0xFF 0xFF 0xFF 0x12 0x34)`; `(( runState ) 0xF0 0x80 0x03 0x01 0x12 0x34)`; `(( runState ) 0xEF 0xFF 0xFF 0x01 0x12 0x34)`; `(( runState ) 0x10 0x00 0x00 0x01 0x12 0x34) [0, 0, 0, 0, 0, 0]`; `(( runState ) 0x10 0x00 0x00 0x01 0x12 0x34) 0xC0 [1]`; `( pinState ) 31 true`; `( (on [(0xF5C001, 0x08000)] pinState) ) 31 true`; `( runState ) .host 2047 0xFFFF6`; `(( runState ) .host) 1023 0x12345`; `(( runState ) .host) 191 0x12345`. -/
theorem witness_HostPortPinsAndStagedWords :
    runState.sys.op ≠ OpState.powerUp ∧
    runState.sys.rstHeld = false ∧
    [0, 0, 0, 0, 0, 0].length % 3 = 0 ∧
    16 * 65536 + 0 * 256 + 0 + [0, 0, 0, 0, 0, 0].length / 3 < 2097152 ∧
    pinState.sys.op ≠ OpState.powerUp ∧
    pinState.sys.rstHeld = false ∧
    pinState.sys.gpio.getLsbD 31 ≠ true ∧
    (on [(16105473, 32768)] pinState).sys.op ≠ OpState.powerUp ∧
    (on [(16105473, 32768)] pinState).sys.rstHeld = false ∧
    (on [(16105473, 32768)] pinState).sys.gpio.getLsbD 31 ≠ true ∧
    isStandby runState = false := by
  and_intros <;> decide

/-- Obligations.DictionaryRequestsAreAnswered, at `(( kiosk from7 ) 0x1017 0 )`; `(( kiosk from7 ) 0x5FFF 0 )`; `(( kiosk from7 ) 0x1017 1 )`; `(( kiosk from7 ) 0x2218 0 )`; `(( kiosk from7 ) 0x2002 1 )`; `(( kiosk from7 ) 0x1000 0 ) [1]`; `(( kiosk from7 ) 0x1017 5 ) [1]`; `(( kiosk from7 ) 0x2003 0 ) [1, 2, 3]`; `(( kiosk from7 ) 0x3050 2 ) [1, 2, 3, 4]`; `(( formerActive from7 ) 0x1017 0 ) [1, 2]`; `(( kiosk from7 ) ) 1 2`; `(( kiosk from7 ) ) [0xF3, 0xA0, 0x05]`; `( kiosk from7 ) 127 0xF 0xFF 0xFF`. -/
theorem witness_DictionaryRequestsAreAnswered :
    freshHere kiosk from7 ∧
    ownRole kiosk from7 ∧
    freshHere formerActive from7 ∧
    ¬ownRole formerActive from7 ∧
    ovHolds kiosk kiosk.ks.sel 4119 0 = none ∧
    [243, 160, 5].length = 3 ∧
    leNat [243, 160, 5] < 1048576 ∧
    ovHolds kiosk kiosk.ks.sel 8193 0 = none ∧
    isStandby kiosk = false ∧
    kiosk.sys.rstHeld = false ∧
    127 < axisCount kiosk ∧
    ovHolds kiosk kiosk.ks.sel 8728 (127 + 1) = none := by
  and_intros <;> first | decide | exact .inr (by decide) | (unfold ownRole; decide)

/-- Obligations.RequestsTravelAndReturn, at `canopen 1 0x1000 0 [1] 5`; `canopen 1 0x1017 0 [1, 2] 5`; `canopen 1 0x2011 1 [1, 2] 5`; `State.reset .host ⟨from7, false, 0, 0, []⟩`; `(( mailboxRead .host (parseMsg .hp (mailboxBytes mailboxRead)) ) )`; `(( mailboxWrite .host (parseMsg .hp (mailboxBytes mailboxWrite)) ) )`; `pairedRun 0 ⟨from7, false, 0x1000, 0, []⟩`; `pairedRun 0 ⟨from7, true, 0x1017, 0, [1, 2]⟩`; `(( kiosk from7 ) [1, 2] )`; `(( kiosk from7 ) (1 :: 0 :: 9 :: List.replicate 15 0) ) (parseMsg (.entry (portKind from7.port)) (1 :: 0 :: 9 :: List.replicate 15 0))`; `routing from7`; `kiosk from7`; `forwarding 255 ⟨⟨from7, false, 0x1000, 0, []⟩, 255, .hp⟩`; `( forwarding 255 ⟨⟨from7, false, 0x1000, 0, []⟩, 255, .hp⟩ ) (.data [1])`. -/
theorem witness_RequestsTravelAndReturn :
    coUp canopen 1 = true ∧
    ownSnn canopen (sdoFrom canopen 1 5).dst.toNat = true ∧
    (sdoFrom canopen 1 5).dst.toNat ≠ 262143 ∧
    State.reset.sys.op ≠ OpState.powerUp ∧
    State.reset.sys.rstHeld = false ∧
    afterBoot State.reset = false ∧
    mailboxRead.sys.op ≠ OpState.powerUp ∧
    mailboxRead.sys.rstHeld = false ∧
    afterBoot mailboxRead = true ∧
    mailboxRead.ks.hpBusy = false ∧
    parseMsg KPort.hp (mailboxBytes mailboxRead) = (1, (parseMsg KPort.hp (mailboxBytes mailboxRead)).2) ∧
    (parseMsg KPort.hp (mailboxBytes mailboxRead)).2.data = [] ∧
    mailboxWrite.sys.op ≠ OpState.powerUp ∧
    mailboxWrite.sys.rstHeld = false ∧
    afterBoot mailboxWrite = true ∧
    mailboxWrite.ks.hpBusy = false ∧
    parseMsg KPort.hp (mailboxBytes mailboxWrite) = (2, (parseMsg KPort.hp (mailboxBytes mailboxWrite)).2) ∧
    pairedRun.lk.st ≠ LinkState.off ∧
    paired pairedRun = true ∧
    pairedRun.pr.laneUp = true ∧
    0 = pairedRun.lk.epoch ∧
    afterBoot pairedRun = true ∧
    ({ from_ := from7, write := false, index := 4096, sub := 0, data := [] } : KReq).write = false ∧
    ({ from_ := from7, write := false, index := 4096, sub := 0, data := [] } : KReq).data = [] ∧
    ({ from_ := from7, write := true, index := 4119, sub := 0, data := [1, 2] } : KReq).write = true ∧
    freshHere kiosk from7 ∧
    coreRunning kiosk.cores[0] = true ∧
    kiosk.ks.fwq = [] ∧
    ownRole kiosk from7 ∧
    ovHolds kiosk kiosk.ks.sel 8209 1 = none ∧
    [1, 2].length < 18 ∧
    18 ≤ (1 :: 0 :: 9 :: List.replicate 15 0).length ∧
    parseMsg (KPort.entry (portKind from7.port)) (1 :: 0 :: 9 :: List.replicate 15 0) = (1, (parseMsg (KPort.entry (portKind from7.port)) (1 :: 0 :: 9 :: List.replicate 15 0)).2) ∧
    (parseMsg (KPort.entry (portKind from7.port)) (1 :: 0 :: 9 :: List.replicate 15 0)).2.from_.dst.toNat ≠ 262143 ∧
    ownSnn kiosk (parseMsg (KPort.entry (portKind from7.port)) (1 :: 0 :: 9 :: List.replicate 15 0)).2.from_.dst.toNat = false ∧
    routeOf kiosk (parseMsg (KPort.entry (portKind from7.port)) (1 :: 0 :: 9 :: List.replicate 15 0)).2.from_.dst.toNat = none ∧
    freshHere routing from7 ∧
    coreRunning routing.cores[0] = true ∧
    routing.ks.fwq = [] ∧
    (List.find? (fun y => y.msgid == 255) forwarding.ks.fwd = some { req := { from_ := from7, write := false, index := 4096, sub := 0, data := [] }, msgid := 255, out := KPort.hp }) ∧
    ({ req := { from_ := from7, write := false, index := 4096, sub := 0, data := [] }, msgid := 255, out := KPort.hp } : Forward).req.from_.dst.toNat ≠ 262143 := by
  and_intros <;> first | decide +kernel | exact .inr (by decide)

/-- Obligations.PasswordsOpenAndLock, at `(( kiosk) from7 [0, 0, 0, 0] )`; `(( kiosk) from7 [0, 0, 0, 1] )`; `(( wrongTwice) from7 [0, 0, 0, 1] )`; `(( lockedPw) from7 [0, 0, 0, 0] )`; `( opened) from7 0`. -/
theorem witness_PasswordsOpenAndLock :
    freshHere kiosk from7 ∧
    ownRole kiosk from7 ∧
    ovHolds kiosk kiosk.ks.sel 8194 1 = none ∧
    [0, 0, 0, 0].length = 4 ∧
    kiosk.gh.pw.locked = false ∧
    pwMatches kiosk (leNat [0, 0, 0, 0]) = true ∧
    [0, 0, 0, 1].length = 4 ∧
    pwMatches kiosk (leNat [0, 0, 0, 1]) = false ∧
    freshHere wrongTwice from7 ∧
    ownRole wrongTwice from7 ∧
    ovHolds wrongTwice wrongTwice.ks.sel 8194 1 = none ∧
    wrongTwice.gh.pw.locked = false ∧
    pwMatches wrongTwice (leNat [0, 0, 0, 1]) = false ∧
    freshHere lockedPw from7 ∧
    ownRole lockedPw from7 ∧
    ovHolds lockedPw lockedPw.ks.sel 8194 1 = none ∧
    lockedPw.gh.pw.locked = true ∧
    freshHere opened from7 ∧
    ownRole opened from7 ∧
    ovHolds opened opened.ks.sel 8194 2 = none := by
  and_intros <;> first | decide | exact .inr (by decide)

/-- Obligations.SecureWritesWaitForTheirLogEntry, at `(( kiosk) (.newPassword from7 [1, 2, 3, 4]) from7 0x2002 3 2 [1, 2, 3, 4] )`; `(( closed) (.roleExchange from7 [0xF3, 0xA0, 5]) from7 0x2003 0 0 [0xF3, 0xA0, 5] )`; `(( logFull) (.approval from7 15 [0, 0, 0, 0]) from7 0x340F 2 1 [0, 0, 0, 0] )`; `(( opened) (.newPassword from7 [1, 2, 3, 4]) from7 0x2002 3 2 [1, 2, 3, 4] )`; `(( opened) (.roleExchange from7 [0xF3, 0xA0, 5]) from7 0x2003 0 0 [0xF3, 0xA0, 5] )`; `(( opened) (.approval from7 15 [0, 0, 0, 0]) from7 0x340F 2 1 [0, 0, 0, 0] )`; `(( ackReady) (.logAck from7 [1, 0, 0, 0]) from7 0x3050 2 3 [1, 0, 0, 0] )`; `(( logging) pendingLog [] ) 0x3400 2`; `(( loggingPw) pendingPw [] ) 0x2002 3`; `(( logging) pendingLog [] )`. -/
theorem witness_SecureWritesWaitForTheirLogEntry :
    freshHere kiosk from7 ∧
    ownRole kiosk from7 ∧
    ovHolds kiosk kiosk.ks.sel 8194 3 = none ∧
    [1, 2, 3, 4].length = 4 ∧
    authorised kiosk from7 = false ∧
    freshHere closed from7 ∧
    ownRole closed from7 ∧
    ovHolds closed closed.ks.sel 8195 0 = none ∧
    [243, 160, 5].length = 3 ∧
    leNat [243, 160, 5] = 368883 ∧
    authorised closed from7 = true ∧
    secureClosed closed = true ∧
    freshHere logFull from7 ∧
    ownRole logFull from7 ∧
    ovHolds logFull logFull.ks.sel 13327 2 = none ∧
    [0, 0, 0, 0].length = 4 ∧
    leNat [0, 0, 0, 0] = ovCrc logFull.ks.ov[15] ∧
    authorised logFull from7 = true ∧
    secureClosed logFull = false ∧
    logRoom logFull = false ∧
    freshHere opened from7 ∧
    ownRole opened from7 ∧
    ovHolds opened opened.ks.sel 8194 3 = none ∧
    authorised opened from7 = true ∧
    secureClosed opened = false ∧
    logRoom opened = true ∧
    ovHolds opened opened.ks.sel 8195 0 = none ∧
    ovHolds opened opened.ks.sel 13327 2 = none ∧
    leNat [0, 0, 0, 0] = ovCrc opened.ks.ov[15] ∧
    freshHere ackReady from7 ∧
    ownRole ackReady from7 ∧
    ovHolds ackReady ackReady.ks.sel 12368 2 = none ∧
    [1, 0, 0, 0].length = 4 ∧
    ackOk ackReady (leNat [1, 0, 0, 0]) = true ∧
    authorised ackReady from7 = true ∧
    secureClosed ackReady = false ∧
    logRoom ackReady = true ∧
    logging.gh.log = [pendingLog] ∧
    pendingLog ∉ [] ∧
    pendingLog.own = false ∧
    pendingLog.relayed = false ∧
    pendingLog.partner = 1 ∧
    pendingLog.req.from_.dst.toNat ≠ 262143 ∧
    logging.sys.op ≠ OpState.test ∧
    logging.sys.rstHeld = false ∧
    logging.sys.op ≠ OpState.powerUp ∧
    pendingLog.req.index = 13312#16 ∧
    pendingLog.req.sub = 2#8 ∧
    pendingLog.req.data.length = 4 ∧
    loggingPw.gh.log = [pendingPw] ∧
    pendingPw ∉ [] ∧
    pendingPw.own = false ∧
    pendingPw.relayed = false ∧
    pendingPw.partner = 1 ∧
    pendingPw.req.from_.dst.toNat ≠ 262143 ∧
    loggingPw.sys.op ≠ OpState.test ∧
    loggingPw.sys.rstHeld = false ∧
    loggingPw.sys.op ≠ OpState.powerUp ∧
    pendingPw.req.index = 8194#16 ∧
    pendingPw.req.sub = 3#8 ∧
    pendingPw.req.data.length = 4 := by
  and_intros <;> first | decide | exact .inr (by decide)

/-- Obligations.StoresRestoresAndOverlays, at `(( kiosk) from7 ) [0x6C, 0x6F, 0x61, 0x64]`; `(( kiosk) from7 ) [0x6D, 0x6F, 0x61, 0x64]`; `(( kiosk) from7 ) 15 [0, 0, 0, 0, 0, 0, 0, 0]`; `(( kiosk) from7 ) 15 [0x17, 0x10, 0, 100, 0, 0, 0, 0]`; `(( kiosk) from7 ) 15 [0x18, 0x22, 1, 100, 0, 0, 0, 0]`; `(( selected) from7 ) 15 [0x18, 0x22, 1, 100, 0, 0, 0, 0]`; `( kiosk) from7 0x80 0x01`; `( kioskSafe) from7 0x80 0x01`; `(( (jobState (storeJob false true))) (storeJob false true) )`; `(( (jobState (storeJob true false))) (storeJob true false) )`; `(( kiosk) from7 ) [0x73, 0x61, 0x76, 0x65]`. -/
theorem witness_StoresRestoresAndOverlays :
    freshHere kiosk from7 ∧
    ownRole kiosk from7 ∧
    coreRunning kiosk.cores[0] = true ∧
    kiosk.ks.fwq = [] ∧
    [108, 111, 97, 100].length = 4 ∧
    ovHolds kiosk kiosk.ks.sel 4113 1 = none ∧
    [109, 111, 97, 100].length = 4 ∧
    ovHolds kiosk kiosk.ks.sel (13312 + 15) 1 = none ∧
    freshHere selected from7 ∧
    ownRole selected from7 ∧
    coreRunning selected.cores[0] = true ∧
    selected.ks.fwq = [] ∧
    ovHolds selected selected.ks.sel (13312 + 15) 1 = none ∧
    isStandby kiosk = false ∧
    kiosk.sys.rstHeld = false ∧
    ovHolds kiosk kiosk.ks.sel 13328 1 = none ∧
    freshHere kioskSafe from7 ∧
    isStandby kioskSafe = false ∧
    kioskSafe.sys.rstHeld = false ∧
    ovHolds kioskSafe kioskSafe.ks.sel 13328 1 = none ∧
    (jobState (storeJob false true)).ks.jobs = [storeJob false true] ∧
    (storeJob false true).relayed = false ∧
    (storeJob false true).answered = false ∧
    (storeJob false true).req.from_.dst.toNat ≠ 262143 ∧
    (storeJob false true).ownDone = false ∧
    (storeJob false true).partnerDone = true ∧
    (jobState (storeJob true false)).ks.jobs = [storeJob true false] ∧
    (storeJob true false).relayed = false ∧
    (storeJob true false).answered = false ∧
    (storeJob true false).req.from_.dst.toNat ≠ 262143 ∧
    (storeJob true false).partnerDone = false ∧
    [115, 97, 118, 101].length = 4 ∧
    leNat [115, 97, 118, 101] = 1702257011 := by
  and_intros <;> first | decide | exact .inr (by decide)

/-- Obligations.CanopenServicesRun, at `canopen 1`; `(( canopenFree 63) )`; `(( inhibited 63) )`; `(( canopen 63) )`; `mapping 0 0 0xFF 1 2 3 4`. -/
theorem witness_CanopenServicesRun :
    coUp canopen 1 = true ∧
    canopen.can[1].stopped = false ∧
    mapGet 0 canopen.ks.vals (ekey 4119 0) ≠ 0 ∧
    coUp canopenFree (pdoPort canopenFree (65 + 63)) = true ∧
    canopenFree.can[pdoPort canopenFree (65 + 63)].stopped = false ∧
    pdoVal canopenFree (6144 + 63) 1 / 2 ^ 31 % 2 = 0 ∧
    pdoVal canopenFree (6656 + 63) 0 ≠ 0 ∧
    (tpdoSt canopenFree 63).inhibit = false ∧
    coUp inhibited (pdoPort inhibited (65 + 63)) = true ∧
    inhibited.can[pdoPort inhibited (65 + 63)].stopped = false ∧
    pdoVal inhibited (6144 + 63) 1 / 2 ^ 31 % 2 = 0 ∧
    pdoVal inhibited (6656 + 63) 0 ≠ 0 ∧
    (tpdoSt inhibited 63).inhibit = true ∧
    coUp canopen (pdoPort canopen (65 + 63)) = true ∧
    canopen.can[pdoPort canopen (65 + 63)].stopped = false ∧
    pdoVal canopen (6144 + 63) 1 / 2 ^ 31 % 2 = 0 ∧
    pdoVal canopen (6656 + 63) 0 ≠ 0 ∧
    coUp mapping (pdoPort mapping (1 + 0)) = true ∧
    mapping.can[pdoPort mapping (1 + 0)].stopped = false ∧
    pdoVal mapping (5120 + 0) 1 / 2 ^ 31 % 2 = 0 ∧
    isStandby mapping = false ∧
    mapping.sys.rstHeld = false ∧
    mapped mapping (5632 + 0) = [(8715, 0 + 1, 5)] ∧
    0 < axisCount mapping ∧
    ovHolds mapping mapping.ks.sel 8715 (0 + 1) = none := by
  and_intros <;> decide

/-- Obligations.BoundaryAndCommonInstant, at `( State.reset 9)`; `(( joinRequested 9) )`; `(( runState 9) )`; `(( active 9) )`. -/
theorem witness_BoundaryAndCommonInstant :
    hasBoundaries State.reset = false ∧
    hasBoundaries joinRequested = true ∧
    hasBoundaries runState = true ∧
    hasBoundaries active = true := by
  and_intros <;> decide

/-- Obligations.SupersededUnitStopsAndEntersSafe, at `active 0x7FFF (.markReceived 3 .ok { markIn 1 with epoch := 0x7FFF } 5)`; `active 1 (.partnerSetpHeard 3 .ok 121 8 1 ⟨[], 0⟩)`; `inRecovery 1 (.failReceived .ok 1 5)`; `active 1 (.failReceived .ok 1 5)`. -/
theorem witness_SupersededUnitStopsAndEntersSafe :
    active.lk.st = LinkState.lead ∧
    linkCounts active = true ∧
    serialNewer 16 (32767) active.lk.epoch = true ∧
    portUp active 3 = true ∧
    ({ markIn 1 with epoch := 32767 } : MarkIn).src = partnerAddr active ∧
    ({ markIn 1 with epoch := 32767 } : MarkIn).epoch = 32767 ∧
    serialNewer 16 (1) active.lk.epoch = true ∧
    paired active = true ∧
    setpWindow (advance 0 active) (3 / 2) = some (8) ∧
    inRecovery.lk.st = LinkState.lead ∧
    linkCounts inRecovery = true ∧
    serialNewer 16 (1) inRecovery.lk.epoch = true ∧
    paired inRecovery = true ∧
    inRecovery.pr.laneUp = true ∧
    active.pr.laneUp = true := by
  and_intros <;> decide

/-- Obligations.InvalidFramesCountAndPortsFollowSync, at `( active 3 3 ) .code (.uplinkFrame 3 .code (upl 9))`; `( portDown 3 3 ) .ok (.uplinkFrame 3 .ok (upl 9))`. -/
theorem witness_InvalidFramesCountAndPortsFollowSync :
    linkCounts active = true ∧
    linkCounts portDown = true ∧
    portUp portDown 3 = false := by
  and_intros <;> decide

/-- Obligations.NmtServicesActOnTheirPortOnly, at `( canopen 1 ) (.nmtResetNode 1)`; `canopen 1`. -/
theorem witness_NmtServicesActOnTheirPortOnly : bitOf canopen (copAddr 1) 19 = true := by decide

/-- Obligations.PinsFollowStateAndRole, at `( (highz runState))`; `((( runState) ) 0)`; `((( stopping) ) 1)`; `((( (after (.testPulse 3 false) stopping)) ) 3)`; `(( stopping) ) 7`; `(( standby) )`; `(( active) )`; `(( runState) )`; `((( (on [(0xF5C001, 0x08000), (0xF5C003, 0x08000)] runState)) ) 31)`; `((( pinState) ) 31)`; `(( (on [(0xF48018, 0x60000)] runState)) )`; `( stopping) .rstNReset`; `( (levelFive false)) .flushComplete`; `( holdingUp) .flushComplete`. -/
theorem witness_PinsFollowStateAndRole :
    (highz runState).sys.tap = TapIr.highz ∧
    runState.sys.tap ≠ TapIr.highz ∧
    runState.gh.grp[0].cond = GrpCond.sto ∧
    stopping.sys.tap ≠ TapIr.highz ∧
    drivesOutputs stopping = true ∧
    stopping.sys.op ≠ OpState.safe ∧
    stopping.gh.grp[1].cond ≠ GrpCond.sto ∧
    stopping.gh.refreshLost = false ∧
    (after (Instr.testPulse 3 false) stopping).sys.tap ≠ TapIr.highz ∧
    drivesOutputs (after (Instr.testPulse 3 false) stopping) = true ∧
    (after (Instr.testPulse 3 false) stopping).sys.op ≠ OpState.safe ∧
    (after (Instr.testPulse 3 false) stopping).gh.grp[3].cond ≠ GrpCond.sto ∧
    (after (Instr.testPulse 3 false) stopping).gh.refreshLost = false ∧
    standby.sys.tap ≠ TapIr.highz ∧
    isStandby standby = true ∧
    paired standby = true ∧
    standby.ph.l5 = false ∧
    active.sys.tap ≠ TapIr.highz ∧
    active.sys.op = OpState.runActive ∧
    active.pr.active = true ∧
    active.pr.silent = false ∧
    active.sys.rstHeld = false ∧
    active.ph.l5 = false ∧
    runState.sys.op = OpState.runActive ∧
    runState.pr.active = true ∧
    runState.pr.silent = false ∧
    runState.sys.rstHeld = false ∧
    runState.ph.l5 = false ∧
    (on [(16105473, 32768), (16105475, 32768)] runState).sys.tap ≠ TapIr.highz ∧
    gpioDriven (on [(16105473, 32768), (16105475, 32768)] runState) 31 = true ∧
    pinState.sys.tap ≠ TapIr.highz ∧
    gpioDriven pinState 31 = false ∧
    (on [(16023576, 393216)] runState).sys.tap ≠ TapIr.highz ∧
    nvReach (on [(16023576, 393216)] runState) = true ∧
    stopping.sys.op ≠ OpState.powerUp ∧
    stopping.ph.l5 = false ∧
    (levelFive false).ph.l5 = true ∧
    (levelFive false).ph.flushed = false ∧
    holdingUp.ph.l5 = true ∧
    holdingUp.ph.flushed = false := by
  and_intros <;> decide +kernel

/-- Obligations.StepTakesTheFrontCommand, at `State.reset`. -/
theorem witness_StepTakesTheFrontCommand : State.reset.pending = [] := by decide

/-- Obligations.EveryCommandCompletesAndKeepsTheQueue, at `(.tapInstruction .makers) runState`. -/
theorem witness_EveryCommandCompletesAndKeepsTheQueue : ¬(Instr.tapInstruction TapOp.makers = Instr.tapInstruction TapOp.makers ∧ runState.sys.op = OpState.test) := by decide

/-- Obligations.EveryStepKeepsTheCanonicalForm, at `queued (after .clash { queued with pending := [] })`. -/
theorem witness_EveryStepKeepsTheCanonicalForm :
    queued.canonical = true ∧
    (∃ u, step queued = .next u) := by
  and_intros <;> first | decide | exact ⟨_, rfl⟩

end Sys2Proof.Tests
end

