-- ==== Sys2Proof/Proofs/InvalidFrames.lean ====
section
/-! PROOFS. Invalid frames and the ports (07 R185). An invalid frame is also the system event 53h (R387), and a performance counter that it wraps raises EV97 (14 R389), which posts to Pergola (13 R377). -/

namespace Sys2Proof.Machine

/-- RUN-ACTIVE in the unit that leads the link: system counter 0 counts discarded frames (event 53h) with OVI set and stands at FFFFFFFFFFh, and EV97 posts to descriptor 511, enabled and of its class. -/
def discardCounterFull : State :=
  { State.reset with
    sys := { State.reset.sys with op := .runActive, step := 0 }, pr := { State.reset.pr with active := true },
    lk := { State.reset.lk with st := .lead },
    regs := [(0xF3C7FC, 0xE0000), (0xF40061, 0x801FF), (0xF4C200, 0xA0053)],
    pc := { State.reset.pc with cnt := [(96, 0xFFFFFFFFFF)] } }

/-- An empty set-point frame of the partner with a code error, heard at port 0. -/
def brokenSetp : Instr := .partnerSetpHeard 0 .code 121 0 0 ⟨[], 0⟩

/-- The counterexample lies within the canonical states and the well-formed commands. -/
theorem discardCounterFull_brokenSetp_wf : discardCounterFull.canonical = true ∧ brokenSetp.wf = true := by decide

theorem discardCounterFull_linkCounts : linkCounts discardCounterFull = true := by decide

theorem discardCounterFull_evPend : discardCounterFull.pg.evPend = [] := rfl

/-- A set-point frame with a code error is discarded and counted at its port, whether the port is up or not (R185). -/
theorem partnerSetp_code (p a seq e : Nat) (recs : List SetpRec) {s : State} (h : linkCounts s = true) :
    partnerSetp p .code a seq e recs s = discardFrame (0xF2801C + p) s := by
  have invalid : rxCheck s p .code = .code := by simp [rxCheck]
  simp [partnerSetp, h, invalid, rxFail]

theorem exec_brokenSetp {s : State} (h : linkCounts s = true) :
    exec brokenSetp s = .next (discardFrame 0xF2801C (advance 0 s)) :=
  congrArg Host.Outcome.next (partnerSetp_code 0 121 0 0 [] (s := advance 0 s) h)

/-- The frame wraps the counter, and the wrap leaves a post of EV97 pending (R377, R389). -/
theorem discardFrame_posts_overflow : (discardFrame 0xF2801C (advance 0 discardCounterFull)).pg.evPend = [(97, false)] := by
  decide +kernel

/-- Refutes O54: where an invalid frame wraps a performance counter whose overflow interrupt is on, the post of EV97 is left pending in Pergola, a part that the statement says stays the same. -/
theorem not_invalidFramesCountAndPortsFollowSync : ¬ Obligations.InvalidFramesCountAndPortsFollowSync := by
  unfold Obligations.InvalidFramesCountAndPortsFollowSync
  intro holds
  obtain ⟨-, -, invalid⟩ := holds discardCounterFull 0 0 rfl
  obtain ⟨u, step, -, -, frame, -⟩ := invalid discardCounterFull_linkCounts .code brokenSetp (.inl rfl)
    (.inr (.inr (.inr (.inr ⟨121, 0, 0, ⟨[], 0⟩, rfl⟩))))
  have pgSame : u.pg = discardCounterFull.pg := frame .pg (by decide)
  have reached : discardFrame 0xF2801C (advance 0 discardCounterFull) = u :=
    Host.Outcome.next.inj ((exec_brokenSetp discardCounterFull_linkCounts).symm.trans step)
  have posted : u.pg.evPend = [(97, false)] := reached ▸ discardFrame_posts_overflow
  rw [pgSame, discardCounterFull_evPend] at posted
  cases posted

end Sys2Proof.Machine
end

