-- ==== Sys2Proof/Proofs/SupersededUnit.lean ====
section
/-! PROOFS. A superseded unit (08 R247). What the entry into SAFE may change (09 R261), then what being superseded changes, then that every frame of the partner with a newer epoch supersedes a unit in LEAD. -/

namespace Sys2Proof.Machine

/-! ### What the entry into SAFE changes besides the operating state -/

/-- What setting the groups and the brakes may change: Gatehouse's own state, the brake release requests GH_BRK_REQ (F34007h), and what events change. -/
structure onlyGatehouse (s t : State) : Prop where
  parts : sameBut [.regs, .held, .pg, .bv, .pc, .gh] s t
  regs : regsButEvents [0xF34007] s t

variable {o s : State}

theorem onlyGatehouse_refl (s : State) : onlyGatehouse s s := ⟨sameBut_refl _ s, fun a _ _ => sameReg_refl s a⟩

theorem onlyGatehouse_trans {t : State} (h : onlyGatehouse o s) (k : onlyGatehouse s t) : onlyGatehouse o t :=
  ⟨sameBut_trans h.parts k.parts, regsButEvents_trans h.regs k.regs⟩

theorem onlyGatehouse_events {t : State} (h : onlyGatehouse o s) (k : onlyEvents s t) : onlyGatehouse o t :=
  onlyGatehouse_trans h ⟨sameBut_mono (by simp) k.parts, regsButEvents_mono (by simp) k.regs⟩

theorem sameBut_gh_held (x : Gatehouse) (l : List (Nat × Word)) (s : State) :
    sameBut [.regs, .held, .pg, .bv, .pc, .gh] s { s with gh := x, held := l } := by
  intro p hp; cases p <;> first | rfl | exact absurd (by simp) hp

theorem onlyGatehouse_gh (x : Gatehouse) (h : onlyGatehouse o s) : onlyGatehouse o { s with gh := x } :=
  onlyGatehouse_trans h ⟨sameBut_gh_held x s.held s, fun a _ _ => sameReg_of rfl rfl a⟩

theorem onlyGatehouse_setGroup (g : Fin 4) (x : Group) (h : onlyGatehouse o s) : onlyGatehouse o (setGroup g x s) :=
  onlyGatehouse_gh _ h

/-- A release request set by hardware (R288). -/
theorem onlyGatehouse_putBit_brakes (n : Nat) (b : Bool) (h : onlyGatehouse o s) : onlyGatehouse o (putBit 0xF34007 n b s) :=
  onlyGatehouse_trans h ⟨sameBut_mono (by simp) (sameBut_hwMod s _ _), regsButEvents_of (regsBut_hwMod s 0xF34007 _)⟩

/-- The release requests in force are set while a write of them waits (R288, R453). -/
theorem onlyGatehouse_heldBrakes (f : Word → Word) (h : onlyGatehouse o s) :
    onlyGatehouse o { s with held := s.held.map fun e => if e.1 = 0xF34007 then (e.1, f e.2) else e } := by
  refine onlyGatehouse_trans h ⟨sameBut_gh_held s.gh _ s, fun a ha _ => ⟨rfl, ?_⟩⟩
  have other : canonAddr a ≠ 0xF34007 := by simpa using ha
  simp only [inForce, lookupNat_map, if_neg other]
  rfl

theorem forceBrake_onlyGatehouse (n : Nat) (h : onlyGatehouse o s) : onlyGatehouse o (forceBrake n s) := by
  unfold forceBrake
  extract_lets _ s1
  have h1 : onlyGatehouse o s1 := onlyGatehouse_gh _ h
  split
  · exact onlyGatehouse_heldBrakes (fun w => setBit w n false) h1
  · exact onlyGatehouse_putBit_brakes n false h1

theorem updateBrakes_onlyGatehouse (h : onlyGatehouse o s) : onlyGatehouse o (updateBrakes s) := by
  refine upTo_induct _ 8 _ (fun n _ s h => ?_) h
  extract_lets now b
  split
  · exact h
  · exact onlyGatehouse_events (onlyGatehouse_gh _ h) (bvPin_onlyEvents _ _ (onlyEvents_refl _))

theorem forceBrakes_onlyGatehouse (g : Fin 4) (h : onlyGatehouse o s) : onlyGatehouse o (forceBrakes g s) :=
  updateBrakes_onlyGatehouse (upTo_induct _ 8 _ (fun n _ _ => whenB_induct _ _ _ fun _ => forceBrake_onlyGatehouse n) h)

/-- A change of a group's condition with its event and its brakes (R258, R259). -/
theorem setCond_onlyGatehouse (g : Fin 4) (c : GrpCond) (h : onlyGatehouse o s) : onlyGatehouse o (setCond g c s) := by
  unfold setCond
  extract_lets x x' s1
  have raised : onlyGatehouse o (raiseEvent 7 (setGroup g x' s)) :=
    onlyGatehouse_events (onlyGatehouse_setGroup g x' h) (raiseEvent_onlyEvents (by omega) (onlyEvents_refl _))
  have h1 : onlyGatehouse o s1 := updateBrakes_onlyGatehouse raised
  split
  · exact h
  · split
    · exact forceBrakes_onlyGatehouse g h1
    · exact h1

/-- The state of a unit that begins to enter SAFE, its groups still to be set: from JOIN it stops transmitting (R261, R277). -/
def safeBegins (s : State) : State :=
  { s with
    lk := if s.sys.op = .join then { s.lk with st := .off } else s.lk
    sys := { s.sys with op := .safe, joinReq := false, step := 0, tSafe := some s.now }
    gh := { s.gh with degPend := false } }

/-- The rest of the entry sets the groups and the brakes. -/
theorem enterSafe_onlyGatehouse (hop : s.sys.op ≠ .safe) : onlyGatehouse (safeBegins s) (enterSafe s) := by
  have groups : onlyGatehouse (safeBegins s) (upTo 4 (fun g s => setCond (Fin.ofNat 4 g) .sto s) (safeBegins s)) :=
    upTo_induct _ 4 _ (fun _ _ _ => setCond_onlyGatehouse _ _) (onlyGatehouse_refl _)
  rw [enterSafe, if_neg hop]
  exact updateBrakes_onlyGatehouse (onlyGatehouse_events groups (raiseEvent_onlyEvents (by omega) (onlyEvents_refl _)))

/-! ### A unit that has been superseded -/

/-- The bit SUPERSEDED of PR_STAT. -/
def supersededBit (s : State) : Bool := bit (regGet s 0xF30002) 8

/-- The operating state of a unit that stops transmitting: RECOVERY is left by a reset only (00 R8), and every other state for SAFE (R247). -/
def stoppedOp (op : OpState) : OpState := if op = .recovery then .recovery else .safe

/-- Unit u is silent on the link and the lane and shows that it is superseded; it came from s, whose memories, cores and waiting commands it keeps, in the operating state op. -/
structure silencedFrom (op : OpState) (s u : State) : Prop where
  link : u.lk.st = .off
  silent : u.pr.silent = true
  inactive : u.pr.active = false
  shown : supersededBit u = true
  state : u.sys.op = op
  pending : u.pending = s.pending
  mem : u.mem = s.mem
  cores : u.cores = s.cores

/-- A frame that leaves the operating state, the link, the pair and SUPERSEDED alone keeps a unit silenced. -/
theorem silencedFrom_step {op : OpState} {t u : State} (h : silencedFrom op s t)
    (parts : sameBut [.regs, .held, .pg, .bv, .pc, .gh] t u) (shown : supersededBit u = supersededBit t) : silencedFrom op s u where
  link := (congrArg Link.st (parts .lk (by decide))).trans h.link
  silent := (congrArg Pair.silent (parts .pr (by decide))).trans h.silent
  inactive := (congrArg Pair.active (parts .pr (by decide))).trans h.inactive
  shown := shown.trans h.shown
  state := (congrArg SysCtl.op (parts .sys (by decide))).trans h.state
  pending := (parts .pending (by decide)).trans h.pending
  mem := (parts .mem (by decide)).trans h.mem
  cores := (parts .cores (by decide)).trans h.cores

theorem silencedFrom_onlyGatehouse {op : OpState} {t u : State} (h : silencedFrom op s t) (k : onlyGatehouse t u) : silencedFrom op s u :=
  silencedFrom_step h k.parts (congrArg (bit · 8) (k.regs 0xF30002 (by decide) (by decide)).1)

theorem silencedFrom_onlyEvents {op : OpState} {t u : State} (h : silencedFrom op s t) (k : onlyEvents t u) : silencedFrom op s u :=
  silencedFrom_onlyGatehouse h (onlyGatehouse_events (onlyGatehouse_refl t) k)

/-- A field of PR_STAT apart from SUPERSEDED. -/
theorem silencedFrom_putFld {op : OpState} {t : State} {hi lo : Nat} (v : Nat) (hl : lo ≤ hi) (hh : hi < 20) (apart : 8 < lo ∨ hi < 8)
    (h : silencedFrom op s t) : silencedFrom op s (putFld 0xF30002 hi lo v t) := by
  refine silencedFrom_step h (sameBut_mono (by simp) (sameBut_hwMod t _ _)) ?_
  rw [supersededBit, regGet_putFld, if_pos rfl, bit_setFld_other _ v hl hh apart, supersededBit]

/-- The role shown follows, with its event (R254). -/
theorem silencedFrom_showRole {op : OpState} {t : State} (h : silencedFrom op s t) : silencedFrom op s (showRole t) := by
  unfold showRole
  extract_lets r s1
  have h1 : silencedFrom op s s1 := silencedFrom_putFld _ (by decide) (by decide) (by decide) h
  split
  · exact h1
  · exact silencedFrom_onlyEvents (silencedFrom_putFld r (by decide) (by decide) (by decide) h1)
      (raiseEvent_onlyEvents (by omega) (onlyEvents_refl _))

/-- The beginning of the entry into SAFE. -/
theorem silencedFrom_safeBegins {op : OpState} {t : State} (h : silencedFrom op s t) : silencedFrom .safe s (safeBegins t) where
  link := by
    unfold safeBegins
    split
    · rfl
    · exact h.link
  silent := h.silent
  inactive := h.inactive
  shown := h.shown
  state := rfl
  pending := h.pending
  mem := h.mem
  cores := h.cores

/-- A silenced unit enters SAFE from every state but RECOVERY (00 R8, 08 R247). -/
theorem silencedFrom_toSafe {op : OpState} {t : State} (h : silencedFrom op s t) : silencedFrom (stoppedOp op) s (toSafe t) := by
  obtain rfl : t.sys.op = op := h.state
  by_cases recovery : t.sys.op = .recovery
  · simpa [toSafe, recovery, stoppedOp] using h
  rw [toSafe, if_neg recovery, stoppedOp, if_neg recovery]
  by_cases safe : t.sys.op = .safe
  · rw [enterSafe, if_pos safe]
    exact safe ▸ h
  · exact silencedFrom_onlyGatehouse (silencedFrom_safeBegins h) (enterSafe_onlyGatehouse safe)

/-- A superseded unit is silenced, and in SAFE unless it is in RECOVERY (R247). -/
theorem superseded_silencedFrom (s : State) : silencedFrom (stoppedOp s.sys.op) s (superseded s) := by
  have marked : silencedFrom s.sys.op s
      (putBit 0xF30002 8 true (setLink .off { s with pr := { s.pr with active := false, silent := true } })) :=
    ⟨rfl, rfl, rfl, by rw [supersededBit, regGet_putBit, if_pos rfl, bit_setBit_same _ _ (by decide)], rfl, rfl, rfl, rfl⟩
  exact silencedFrom_showRole (silencedFrom_toSafe marked)

/-! ### The frames that supersede -/

theorem serialOlder_of_newer {k a b : Nat} (h : serialNewer k a b = true) : serialOlder k a b = false := by simp [serialOlder, h]

/-- A newer epoch heard in LEAD on a link port (R231, R247). -/
theorem partnerEpoch_newer {e : Nat} (lead : s.lk.st = .lead) (newer : serialNewer 16 e s.lk.epoch = true) :
    partnerEpoch e s = (superseded s, false) := by
  simp [partnerEpoch, serialOlder_of_newer newer, lead, newer]

/-- Forwarding changes the frames sent and how long the ports are busy, nothing else. -/
theorem forwardFrame_eq (p ftype src header len : Nat) (s : State) :
    ∃ sent txEnd, forwardFrame p ftype src header len s = { s with lk := { s.lk with sent := sent, txEnd := txEnd } } := by
  unfold forwardFrame
  extract_lets q node inward ok
  cases ok
  · exact ⟨s.lk.sent, s.lk.txEnd, rfl⟩
  · exact ⟨_, _, rfl⟩

theorem partnerAddr_ne_ownAddr (s : State) : partnerAddr s ≠ ownAddr s := by
  cases hb : lkUnitB s <;> simp [partnerAddr, ownAddr, hb]

theorem partnerAddr_lt_two (s : State) : partnerAddr s < 2 := by
  unfold partnerAddr; omega

/-- The partner's MARK with a newer epoch is forwarded and supersedes a unit in LEAD. -/
theorem markReceived_newer {p : Nat} {m : MarkIn} (lead : s.lk.st = .lead) (counts : linkCounts s = true) (up : portUp s p = true)
    (partner : m.src = partnerAddr s) (newer : serialNewer 16 m.epoch.toNat s.lk.epoch = true) :
    markReceived p .ok m s = superseded (forwardFrame p 1 m.src 12 16 s) := by
  obtain ⟨sent, txEnd, forwarded⟩ := forwardFrame_eq p 1 m.src 12 16 s
  have notOwn : m.src ≠ ownAddr s := partner ▸ partnerAddr_ne_ownAddr s
  have isHead : ¬ 2 ≤ m.src := partner ▸ Nat.not_le.2 (partnerAddr_lt_two s)
  have acts : partnerEpoch m.epoch.toNat (forwardFrame p 1 m.src 12 16 s) = (superseded (forwardFrame p 1 m.src 12 16 s), false) :=
    partnerEpoch_newer (by rw [forwarded]; exact lead) (by rw [forwarded]; exact newer)
  simp [markReceived, counts, rxCheck, up, linkOn, lead, acts, notOwn, isHead]

/-- The partner's SETP in its window with a newer epoch supersedes a unit in LEAD. -/
theorem partnerSetp_newer {p a seq e : Nat} (recs : List SetpRec) (lead : s.lk.st = .lead) (counts : linkCounts s = true)
    (up : portUp s p = true) (pair : paired s = true) (window : setpWindow s (p / 2) = some seq)
    (newer : serialNewer 16 e s.lk.epoch = true) : partnerSetp p .ok a seq e recs s = superseded s := by
  simp [partnerSetp, counts, rxCheck, up, linkOn, lead, pair, window, partnerEpoch_newer lead newer]

/-- A pair-lane frame with a newer epoch supersedes a unit in LEAD, and its content is not used. -/
theorem onFrame_newer {e : Nat} (f : State → State) (lead : s.lk.st = .lead) (counts : linkCounts s = true) (up : s.pr.laneUp = true)
    (pair : paired s = true) (newer : serialNewer 16 e s.lk.epoch = true) : onFrame .ok e f s = superseded s := by
  have acts : laneFrame .ok e s = (superseded s, false) := by
    simp [laneFrame, pair, counts, up, linkOn, lead, serialOlder_of_newer newer, newer]
  simp [onFrame, acts]

/-- A valid frame of the pair lane that carries epoch e. -/
def carriesOnLane (e : BitVec 16) (cmd : Instr) : Prop :=
  (∃ x, cmd = .stateReceived .ok e x) ∨ (∃ x y z, cmd = .incReceived .ok e x y z) ∨
    (∃ x y z, cmd = .inReceived .ok e x y z) ∨ (∃ x y z, cmd = .sigReceived .ok e x y z) ∨ (∃ x, cmd = .dresReceived .ok e x) ∨
    (∃ x, cmd = .bndReceived .ok e x) ∨ (∃ x, cmd = .adoptReceived .ok e x) ∨ (∃ x, cmd = .failReceived .ok e x) ∨
    (∃ x, cmd = .xreqReceived .ok e x) ∨ (∃ x y, cmd = .xackReceived .ok e x y) ∨ ∃ x, cmd = .svcReceived .ok e x

/-- Every frame of the pair lane passes the checks of the lane before its content is used (R231). -/
theorem exec_carriesOnLane {e : BitVec 16} {cmd : Instr} (h : carriesOnLane e cmd) (s : State) :
    ∃ f, exec cmd s = .next (onFrame .ok e.toNat f s) := by
  rcases h with ⟨_, rfl⟩ | ⟨_, _, _, rfl⟩ | ⟨_, _, _, rfl⟩ | ⟨_, _, _, rfl⟩ | ⟨_, rfl⟩ | ⟨_, rfl⟩ | ⟨_, rfl⟩ | ⟨_, rfl⟩ | ⟨_, rfl⟩ |
    ⟨_, _, rfl⟩ | ⟨_, rfl⟩ <;> exact ⟨_, rfl⟩

/-- A state from which supersession starts: s but for the time and the frames forwarded. -/
theorem superseded_silencedFrom_of {t : State} (h : sameBut [.now, .lk] s t) : silencedFrom (stoppedOp s.sys.op) s (superseded t) := by
  have k := superseded_silencedFrom t
  rw [congrArg SysCtl.op (h .sys (by decide))] at k
  exact { k with
    pending := k.pending.trans (h .pending (by decide))
    mem := k.mem.trans (h .mem (by decide))
    cores := k.cores.trans (h .cores (by decide)) }

theorem sameBut_now_lk (n : Nat) (l : Link) (s : State) : sameBut [.now, .lk] s { s with now := n, lk := l } := by
  intro p hp; cases p <;> first | rfl | exact absurd (by simp) hp

theorem sameBut_advance (t : Nat) (s : State) : sameBut [.now, .lk] s (advance t s) := sameBut_now_lk _ s.lk s

theorem sameBut_forwardFrame (p ftype src header len : Nat) (s : State) :
    sameBut [.now, .lk] s (forwardFrame p ftype src header len s) := by
  obtain ⟨sent, txEnd, forwarded⟩ := forwardFrame_eq p ftype src header len s
  rw [forwarded]
  exact sameBut_now_lk s.now _ s

/-- Settles O53: each frame of the partner with a newer epoch is answered by `superseded`, which silences the unit and takes it to SAFE. -/
theorem supersededUnitStopsAndEntersSafe : Obligations.SupersededUnitStopsAndEntersSafe := by
  unfold Obligations.SupersededUnitStopsAndEntersSafe
  intro s e cmd lead counts newer frame
  have supersedes : ∃ t, exec cmd s = .next (superseded t) ∧ sameBut [.now, .lk] s t := by
    rcases frame with ⟨p, m, t, up, partner, rfl, rfl⟩ | ⟨pair, p, n, q, recs, t, up, window, rfl⟩ | ⟨pair, up, lane⟩
    · exact ⟨_, congrArg Host.Outcome.next (markReceived_newer (s := advance t s) lead counts up partner newer),
        sameBut_trans (sameBut_advance t s) (sameBut_forwardFrame _ _ _ _ _ _)⟩
    · exact ⟨_, congrArg Host.Outcome.next (partnerSetp_newer recs (s := advance t s) lead counts up pair window newer),
        sameBut_advance t s⟩
    · obtain ⟨f, received⟩ := exec_carriesOnLane lane s
      exact ⟨s, received.trans (congrArg Host.Outcome.next (onFrame_newer f lead counts up pair newer)), sameBut_refl _ s⟩
  obtain ⟨t, received, same⟩ := supersedes
  have done : silencedFrom (stoppedOp s.sys.op) s (superseded t) := superseded_silencedFrom_of same
  refine ⟨superseded t, received, done.link, done.silent, by simp [onLane, done.silent], by simp [linkOn, done.link], done.inactive,
    done.shown, fun other => done.state.trans (if_neg other), fun recovery => done.state.trans (if_pos recovery), done.pending, done.mem,
    done.cores⟩

end Sys2Proof.Machine
end

