-- ==== Sys2Proof/Proofs/NmtServices.lean ====
section
/-! PROOFS. The NMT services of a CANopen port (15 R416). What an update of one port leaves alone, what the services do on an enabled port, then that a stopped port takes no heartbeat and no PDO. -/

namespace Sys2Proof.Machine

/-! ### An update of one port -/

theorem setCan_can_same (c : Fin 2) (x : Can) (s : State) : (setCan c x s).can[c] = x := by simp [setCan]

theorem setCan_can_other {c d : Fin 2} (h : d ≠ c) (x : Can) (s : State) : (setCan c x s).can[d] = s.can[d] := by
  have apart : c.val ≠ d.val := fun e => h (Fin.ext e.symm)
  simp [setCan, apart]

theorem sameBut_setCan (c : Fin 2) (x : Can) (s : State) : sameBut [.can] s (setCan c x s) := by
  intro p hp
  cases p
  case can => exact absurd (by simp) hp
  all_goals rfl

/-! ### The services on an enabled port -/

/-- Reset-node and reset-communication have one effect (R416). -/
theorem exec_nmtReset {c : Fin 2} {cmd : Instr} (reset : cmd = .nmtResetNode c ∨ cmd = .nmtResetCommunication c) {s : State}
    (enabled : bitOf s (copAddr c) 19 = true) : exec cmd s = .next (copReset c s) := by
  rcases reset with rfl | rfl <;> exact congrArg Host.Outcome.next (if_pos enabled)

/-- The port with its CANopen layer stopped. -/
def nmtHalted (c : Fin 2) (s : State) : State := setCan c { s.can[c] with stopped := true } s

theorem exec_nmtStopped {c : Fin 2} {s : State} (enabled : bitOf s (copAddr c) 19 = true) :
    exec (.nmtStopped c) s = .next (nmtHalted c s) := congrArg Host.Outcome.next (if_pos enabled)

theorem nmtHalted_stopped (c : Fin 2) (s : State) : (nmtHalted c s).can[c].stopped = true :=
  congrArg Can.stopped (setCan_can_same _ _ _)

/-- The assignment of the PDOs to the ports is the dictionary's, not the CANopen layer's. -/
theorem pdoPort_nmtHalted (c : Fin 2) (s : State) (sub : Nat) : pdoPort (nmtHalted c s) sub = pdoPort s sub := rfl

/-! ### A stopped port -/

section
variable {c : Fin 2} {s : State} (stopped : s.can[c].stopped = true)
include stopped

theorem heartbeat_stopped : heartbeat c s = s := by simp [heartbeat, stopped, -Fin.getElem_fin]

theorem tpdoSend_stopped {n : Nat} (port : pdoPort s (65 + n) = c) : tpdoSend n s = s := by
  subst port
  simp [tpdoSend, stopped, -Fin.getElem_fin]

theorem rpdoEff_stopped {n : Nat} (port : pdoPort s (1 + n) = c) (data : List Byte) : rpdoEff n data s = s := by
  subst port
  simp [rpdoEff, stopped, -Fin.getElem_fin]

end

/-- Settles O55: each service is one update of its port, and a stopped port takes no heartbeat and no PDO. -/
theorem nmtServicesActOnTheirPortOnly : Obligations.NmtServicesActOnTheirPortOnly := by
  unfold Obligations.NmtServicesActOnTheirPortOnly
  intro s c enabled
  have others (x : Can) (d : Fin 2) (other : d ≠ c) : (setCan c x s).can[d] = s.can[d] := setCan_can_other other x s
  have halted : (nmtHalted c s).can[c].stopped = true := nmtHalted_stopped c s
  have port {sub : Nat} (h : pdoPort s sub = c) : pdoPort (nmtHalted c s) sub = c := (pdoPort_nmtHalted c s sub).trans h
  constructor
  · intro cmd reset
    exact ⟨copReset c s, exec_nmtReset reset enabled, setCan_can_same c _ s, others _, sameBut_setCan c _ s⟩
  · refine ⟨nmtHalted c s, exec_nmtStopped enabled, setCan_can_same c _ s, others _, sameBut_setCan c _ s, ?_, ?_, ?_⟩
    · exact congrArg Host.Outcome.next (heartbeat_stopped halted)
    · exact fun n h => congrArg Host.Outcome.next (tpdoSend_stopped halted (port h))
    · exact fun n data h => congrArg Host.Outcome.next (rpdoEff_stopped halted (port h) data)

end Sys2Proof.Machine
end

