-- ==== Sys2Proof/Proofs/Keeps.lean ====
section
/-! PROOFS. What every operation keeps: the parts of the state it leaves alone, and the canonical form of registers and memories. -/

namespace Sys2Proof.Machine

/-- t came from s by changes in the parts L alone, which keep the canonical form of registers and memories. -/
structure keeps (L : List Part) (s t : State) : Prop where
  parts : sameBut L s t
  form : s.canonical = true → t.canonical = true

theorem keeps_refl (L : List Part) (s : State) : keeps L s s := ⟨sameBut_refl L s, id⟩

theorem keeps_trans {L : List Part} {s t u : State} (h : keeps L s t) (k : keeps L t u) : keeps L s u :=
  ⟨sameBut_trans h.parts k.parts, k.form ∘ h.form⟩

/-- What changes parts of A alone changes parts of L alone, where A lies within B and B within L. -/
theorem within {A B L : List Part} (h : ∀ p ∈ B, p ∈ L) (sub : A.all (B.contains ·) = true) : ∀ p ∈ A, p ∈ L :=
  fun p hp => h p (List.contains_iff_mem.mp (List.all_eq_true.mp sub p hp))

variable {L : List Part} {o s : State}

theorem keeps_of_snd {α : Type} {p : α × State} {a : α} {t : State} (e : p = (a, t)) (h : keeps L o p.2) : keeps L o t := by
  rwa [e] at h

theorem keeps_of_fst {α : Type} {p : State × α} {a : α} {t : State} (e : p = (t, a)) (h : keeps L o p.1) : keeps L o t := by
  rwa [e] at h

/-! ### Loops and conditions -/

theorem keeps_ite (c : Prop) [Decidable c] {t u : State} (h : keeps L o t) (k : keeps L o u) : keeps L o (if c then t else u) := by
  split <;> assumption

theorem keeps_ite_snd {α : Type} (c : Prop) [Decidable c] {p q : α × State} (h : keeps L o p.2) (k : keeps L o q.2) :
    keeps L o (if c then p else q).2 := by split <;> assumption

theorem keeps_ite_fst {α : Type} (c : Prop) [Decidable c] {p q : State × α} (h : keeps L o p.1) (k : keeps L o q.1) :
    keeps L o (if c then p else q).1 := by split <;> assumption

theorem keeps_forEach {α : Type} (l : List α) {f : α → State → State} (hf : ∀ x s, keeps L o s → keeps L o (f x s))
    (h : keeps L o s) : keeps L o (forEach l f s) := forEach_induct _ l f (fun x _ s => hf x s) h

theorem keeps_upTo (n : Nat) {f : Nat → State → State} (hf : ∀ i s, keeps L o s → keeps L o (f i s)) (h : keeps L o s) :
    keeps L o (upTo n f s) := upTo_induct _ n f (fun i _ s => hf i s) h

theorem keeps_whenB (b : Bool) {f : State → State} (hf : ∀ s, keeps L o s → keeps L o (f s)) (h : keeps L o s) :
    keeps L o (whenB b f s) := whenB_induct _ b f hf h

/-! ### Updates of the state -/

/-- An update that touches neither the register file nor a memory. -/
theorem keeps_same {t : State} (h : keeps L o s) (hr : t.regs = s.regs) (hm : t.mem = s.mem) (hp : ∀ p, p ∉ L → p.same s t) : keeps L o t :=
  keeps_trans h ⟨hp, canonical_of hr hm⟩

theorem keeps_now (x : Nat) (hL : ∀ p ∈ ([.now] : List Part), p ∈ L) (h : keeps L o s) : keeps L o { s with now := x } :=
  keeps_same h rfl rfl fun p hp => by cases p with | now => exact absurd (hL _ (by decide)) hp | _ => rfl

theorem keeps_freeCtr (x : Nat) (hL : ∀ p ∈ ([.freeCtr] : List Part), p ∈ L) (h : keeps L o s) : keeps L o { s with freeCtr := x } :=
  keeps_same h rfl rfl fun p hp => by cases p with | freeCtr => exact absurd (hL _ (by decide)) hp | _ => rfl

theorem keeps_sys (x : SysCtl) (hL : ∀ p ∈ ([.sys] : List Part), p ∈ L) (h : keeps L o s) : keeps L o { s with sys := x } :=
  keeps_same h rfl rfl fun p hp => by cases p with | sys => exact absurd (hL _ (by decide)) hp | _ => rfl

theorem keeps_held (x : List (Nat × Word)) (hL : ∀ p ∈ ([.held] : List Part), p ∈ L) (h : keeps L o s) : keeps L o { s with held := x } :=
  keeps_same h rfl rfl fun p hp => by cases p with | held => exact absurd (hL _ (by decide)) hp | _ => rfl

theorem keeps_cores (x : Vector Core 8) (hL : ∀ p ∈ ([.cores] : List Part), p ∈ L) (h : keeps L o s) : keeps L o { s with cores := x } :=
  keeps_same h rfl rfl fun p hp => by cases p with | cores => exact absurd (hL _ (by decide)) hp | _ => rfl

theorem keeps_pg (x : Pergola) (hL : ∀ p ∈ ([.pg] : List Part), p ∈ L) (h : keeps L o s) : keeps L o { s with pg := x } :=
  keeps_same h rfl rfl fun p hp => by cases p with | pg => exact absurd (hL _ (by decide)) hp | _ => rfl

theorem keeps_sd (x : Sundial) (hL : ∀ p ∈ ([.sd] : List Part), p ∈ L) (h : keeps L o s) : keeps L o { s with sd := x } :=
  keeps_same h rfl rfl fun p hp => by cases p with | sd => exact absurd (hL _ (by decide)) hp | _ => rfl

theorem keeps_mains (x : Mains) (hL : ∀ p ∈ ([.mains] : List Part), p ∈ L) (h : keeps L o s) : keeps L o { s with mains := x } :=
  keeps_same h rfl rfl fun p hp => by cases p with | mains => exact absurd (hL _ (by decide)) hp | _ => rfl

theorem keeps_fb (x : Vector FbChan 16) (hL : ∀ p ∈ ([.fb] : List Part), p ∈ L) (h : keeps L o s) : keeps L o { s with fb := x } :=
  keeps_same h rfl rfl fun p hp => by cases p with | fb => exact absurd (hL _ (by decide)) hp | _ => rfl

theorem keeps_fbo (x : Vector FboPins 8) (hL : ∀ p ∈ ([.fbo] : List Part), p ∈ L) (h : keeps L o s) : keeps L o { s with fbo := x } :=
  keeps_same h rfl rfl fun p hp => by cases p with | fbo => exact absurd (hL _ (by decide)) hp | _ => rfl

theorem keeps_mo (x : Motion) (hL : ∀ p ∈ ([.mo] : List Part), p ∈ L) (h : keeps L o s) : keeps L o { s with mo := x } :=
  keeps_same h rfl rfl fun p hp => by cases p with | mo => exact absurd (hL _ (by decide)) hp | _ => rfl

theorem keeps_sv (x : Servo) (hL : ∀ p ∈ ([.sv] : List Part), p ∈ L) (h : keeps L o s) : keeps L o { s with sv := x } :=
  keeps_same h rfl rfl fun p hp => by cases p with | sv => exact absurd (hL _ (by decide)) hp | _ => rfl

theorem keeps_bv (x : Belvedere) (hL : ∀ p ∈ ([.bv] : List Part), p ∈ L) (h : keeps L o s) : keeps L o { s with bv := x } :=
  keeps_same h rfl rfl fun p hp => by cases p with | bv => exact absurd (hL _ (by decide)) hp | _ => rfl

theorem keeps_lk (x : Link) (hL : ∀ p ∈ ([.lk] : List Part), p ∈ L) (h : keeps L o s) : keeps L o { s with lk := x } :=
  keeps_same h rfl rfl fun p hp => by cases p with | lk => exact absurd (hL _ (by decide)) hp | _ => rfl

theorem keeps_time (x : TimeSt) (hL : ∀ p ∈ ([.time] : List Part), p ∈ L) (h : keeps L o s) : keeps L o { s with time := x } :=
  keeps_same h rfl rfl fun p hp => by cases p with | time => exact absurd (hL _ (by decide)) hp | _ => rfl

theorem keeps_pr (x : Pair) (hL : ∀ p ∈ ([.pr] : List Part), p ∈ L) (h : keeps L o s) : keeps L o { s with pr := x } :=
  keeps_same h rfl rfl fun p hp => by cases p with | pr => exact absurd (hL _ (by decide)) hp | _ => rfl

theorem keeps_gh (x : Gatehouse) (hL : ∀ p ∈ ([.gh] : List Part), p ∈ L) (h : keeps L o s) : keeps L o { s with gh := x } :=
  keeps_same h rfl rfl fun p hp => by cases p with | gh => exact absurd (hL _ (by decide)) hp | _ => rfl

theorem keeps_ph (x : Pump) (hL : ∀ p ∈ ([.ph] : List Part), p ∈ L) (h : keeps L o s) : keeps L o { s with ph := x } :=
  keeps_same h rfl rfl fun p hp => by cases p with | ph => exact absurd (hL _ (by decide)) hp | _ => rfl

theorem keeps_can (x : Vector Can 2) (hL : ∀ p ∈ ([.can] : List Part), p ∈ L) (h : keeps L o s) : keeps L o { s with can := x } :=
  keeps_same h rfl rfl fun p hp => by cases p with | can => exact absurd (hL _ (by decide)) hp | _ => rfl

theorem keeps_ks (x : Kiosk) (hL : ∀ p ∈ ([.ks] : List Part), p ∈ L) (h : keeps L o s) : keeps L o { s with ks := x } :=
  keeps_same h rfl rfl fun p hp => by cases p with | ks => exact absurd (hL _ (by decide)) hp | _ => rfl

theorem keeps_pc (x : Counters) (hL : ∀ p ∈ ([.pc] : List Part), p ∈ L) (h : keeps L o s) : keeps L o { s with pc := x } :=
  keeps_same h rfl rfl fun p hp => by cases p with | pc => exact absurd (hL _ (by decide)) hp | _ => rfl

end Sys2Proof.Machine
end

