-- ==== Sys2Proof/Proofs/KeepsState.lean ====
section
/-! PROOFS. What the operations on the state, its counters and posts, and Gatehouse keep. -/

namespace Sys2Proof.Machine

variable {L : List Part} {o s : State}

theorem regSet_keeps (a : Nat) (w : Word) (hL : ∀ p ∈ ([.regs] : List Part), p ∈ L) (h : keeps L o s) : keeps L o (regSet a w s) := by
  refine keeps_trans h ⟨fun p hp => ?_, canonical_regSet _ _⟩
  cases p
  case regs => exact absurd (hL _ (by simp)) hp
  all_goals rfl

theorem hwMod_keeps (a : Nat) (f : Word → Word) (hL : ∀ p ∈ ([.regs, .held] : List Part), p ∈ L) (h : keeps L o s) : keeps L o (hwMod a f s) :=
  keeps_trans h ⟨sameBut_mono hL (sameBut_hwMod s a f), canonical_hwMod _ _⟩

theorem stageReg_keeps (a : Nat) (w : Word) (hL : ∀ p ∈ ([.regs, .held] : List Part), p ∈ L) (h : keeps L o s) : keeps L o (stageReg a w s) := by
  unfold stageReg
  exact keeps_ite _ (regSet_keeps _ _ (within hL rfl) h) (keeps_held _ (within hL rfl) (regSet_keeps _ _ (within hL rfl) h))

theorem noteCommand_keeps (who : Requester) (a : Nat)
    (hL : ∀ p ∈ ([.sys] : List Part), p ∈ L) (h : keeps L o s) : keeps L o (noteCommand who a s) :=
  keeps_ite _ (keeps_sys _ (within hL rfl) h) h

theorem putFld_keeps (a hi lo v : Nat) (hL : ∀ p ∈ ([.regs, .held] : List Part), p ∈ L) (h : keeps L o s) : keeps L o (putFld a hi lo v s) :=
  hwMod_keeps _ _ (within hL rfl) h

theorem putBit_keeps (a n : Nat) (b : Bool) (hL : ∀ p ∈ ([.regs, .held] : List Part), p ∈ L) (h : keeps L o s) : keeps L o (putBit a n b s) :=
  hwMod_keeps _ _ (within hL rfl) h

theorem putWord_keeps (a : Nat) (w : Word) (hL : ∀ p ∈ ([.regs, .held] : List Part), p ∈ L) (h : keeps L o s) : keeps L o (putWord a w s) :=
  hwMod_keeps _ _ (within hL rfl) h

theorem countBy_keeps (a n : Nat) (hL : ∀ p ∈ ([.regs, .held] : List Part), p ∈ L) (h : keeps L o s) : keeps L o (countBy a n s) :=
  hwMod_keeps _ _ (within hL rfl) h

theorem count_keeps (a : Nat) (hL : ∀ p ∈ ([.regs, .held] : List Part), p ∈ L) (h : keeps L o s) : keeps L o (count a s) :=
  countBy_keeps _ _ (within hL rfl) h

theorem putPair_keeps (a n : Nat) (hL : ∀ p ∈ ([.regs, .held] : List Part), p ∈ L) (h : keeps L o s) : keeps L o (putPair a n s) :=
  putWord_keeps _ _ (within hL rfl) (putWord_keeps _ _ (within hL rfl) h)

theorem putWords_keeps (a : Nat) (x1 : List Word)
    (hL : ∀ p ∈ ([.regs, .held] : List Part), p ∈ L) (h : keeps L o s) : keeps L o (putWords a x1 s) := by
  induction x1 generalizing a s with
  | nil => exact h
  | cons w ws ih => exact ih _ (putWord_keeps _ _ (within hL rfl) h)

theorem advance_keeps (t : Nat) (hL : ∀ p ∈ ([.now] : List Part), p ∈ L) (h : keeps L o s) : keeps L o (advance t s) :=
  keeps_now _ (within hL rfl) h

theorem freeNat_keeps (hL : ∀ p ∈ ([.freeCtr] : List Part), p ∈ L) (h : keeps L o s) : keeps L o (freeNat s).2 := by
  unfold freeNat
  exact keeps_freeCtr _ (within hL rfl) h

theorem dropWrite_keeps (who : Requester) (a why : Nat)
    (hL : ∀ p ∈ ([.regs, .held] : List Part), p ∈ L) (h : keeps L o s) : keeps L o (dropWrite who a why s) :=
  putWord_keeps _ _ (within hL rfl) (putWord_keeps _ _ (within hL rfl) (putWord_keeps _ _ (within hL rfl) (count_keeps _ (within hL rfl) h)))

theorem armLock_keeps (who : Requester) (hL : ∀ p ∈ ([.sys] : List Part), p ∈ L) (h : keeps L o s) : keeps L o (armLock who s) :=
  keeps_sys _ (within hL rfl) h

theorem kWrite_keeps (who : Requester) (a : Nat) (f : State → State) (hf : ∀ s, keeps L o s → keeps L o (f s))
    (hL : ∀ p ∈ ([.sys, .regs, .held] : List Part), p ∈ L) (h : keeps L o s) : keeps L o (kWrite who a f s) :=
  keeps_ite _ (hf _ (armLock_keeps _ (within hL rfl) h)) (dropWrite_keeps _ _ _ (within hL rfl) (armLock_keeps _ (within hL rfl) h))

theorem sameBut_mem (m : Mems) (s : State) : sameBut [.mem] s { s with mem := m } := by
  intro p hp
  cases p
  case mem => exact absurd (by simp) hp
  all_goals rfl

theorem xySet_keeps (c a : Nat) (w : Word) (hL : ∀ p ∈ ([.mem] : List Part), p ∈ L) (h : keeps L o s) : keeps L o (xySet c a w s) :=
  keeps_trans h ⟨sameBut_mono hL (sameBut_mem _ s), canonical_xySet _ _ _⟩

theorem sharedSet_keeps (a : Nat) (w : Word) (hL : ∀ p ∈ ([.mem] : List Part), p ∈ L) (h : keeps L o s) : keeps L o (sharedSet a w s) :=
  keeps_trans h ⟨sameBut_mono hL (sameBut_mem _ s), canonical_sharedSet _ _⟩

theorem bvRecSet_keeps (a : Nat) (w : Word) (hL : ∀ p ∈ ([.mem] : List Part), p ∈ L) (h : keeps L o s) : keeps L o (bvRecSet a w s) :=
  keeps_trans h ⟨sameBut_mono hL (sameBut_mem _ s), canonical_bvRecSet _ _⟩

theorem mramSet_keeps (a : Nat) (w : Word) (hL : ∀ p ∈ ([.mem] : List Part), p ∈ L) (h : keeps L o s) : keeps L o (mramSet a w s) := by
  refine keeps_trans h ⟨sameBut_mono hL ?_, canonical_mramSet _ _⟩
  unfold mramSet
  split
  · exact sameBut_refl _ s
  · exact sameBut_mem _ s

theorem mramPutAll_keeps (a : Nat) (x1 : List Word)
    (hL : ∀ p ∈ ([.mem] : List Part), p ∈ L) (h : keeps L o s) : keeps L o (mramPutAll a x1 s) := by
  induction x1 generalizing a s with
  | nil => exact h
  | cons w ws ih => exact ih _ (mramSet_keeps _ _ (within hL rfl) h)

theorem pgmSet_keeps (c a : Nat) (w : BitVec 40) (hL : ∀ p ∈ ([.mem] : List Part), p ∈ L) (h : keeps L o s) : keeps L o (pgmSet c a w s) :=
  keeps_trans h ⟨sameBut_mono hL (sameBut_mem _ s), canonical_pgmSet _ _ _⟩

theorem setCore_keeps (c : Fin 8) (k : Core) (hL : ∀ p ∈ ([.cores] : List Part), p ∈ L) (h : keeps L o s) : keeps L o (setCore c k s) :=
  keeps_cores _ (within hL rfl) h

theorem setGroup_keeps (g : Fin 4) (x : Group) (hL : ∀ p ∈ ([.gh] : List Part), p ∈ L) (h : keeps L o s) : keeps L o (setGroup g x s) :=
  keeps_gh _ (within hL rfl) h

theorem setTb_keeps (t : Fin 16) (x : Timebase) (hL : ∀ p ∈ ([.sd] : List Part), p ∈ L) (h : keeps L o s) : keeps L o (setTb t x s) :=
  keeps_sd _ (within hL rfl) h

theorem setFb_keeps (n : Fin 16) (x : FbChan) (hL : ∀ p ∈ ([.fb] : List Part), p ∈ L) (h : keeps L o s) : keeps L o (setFb n x s) :=
  keeps_fb _ (within hL rfl) h

theorem setCan_keeps (c : Fin 2) (x : Can) (hL : ∀ p ∈ ([.can] : List Part), p ∈ L) (h : keeps L o s) : keeps L o (setCan c x s) :=
  keeps_can _ (within hL rfl) h

theorem setProf_keeps (o' : Nat) (p : Profile) (hL : ∀ p ∈ ([.mo] : List Part), p ∈ L) (h : keeps L o s) : keeps L o (setProf o' p s) :=
  keeps_mo _ (within hL rfl) h

theorem setLoop_keeps (o' : Nat) (l : LoopSt) (hL : ∀ p ∈ ([.sv] : List Part), p ∈ L) (h : keeps L o s) : keeps L o (setLoop o' l s) :=
  keeps_sv _ (within hL rfl) h

theorem setNode_keeps (a : Nat) (n : NodeSt) (hL : ∀ p ∈ ([.lk] : List Part), p ∈ L) (h : keeps L o s) : keeps L o (setNode a n s) :=
  keeps_lk _ (within hL rfl) h

theorem setAxisUpl_keeps (a : Nat) (u : AxisUpl) (hL : ∀ p ∈ ([.lk] : List Part), p ∈ L) (h : keeps L o s) : keeps L o (setAxisUpl a u s) :=
  keeps_lk _ (within hL rfl) h

theorem sendFrame_keeps (f : SentFrame) (hL : ∀ p ∈ ([.lk] : List Part), p ∈ L) (h : keeps L o s) : keeps L o (sendFrame f s) :=
  keeps_lk _ (within hL rfl) h

theorem sendLane_keeps (b : FrameBody) (hL : ∀ p ∈ ([.lk] : List Part), p ∈ L) (h : keeps L o s) : keeps L o (sendLane b s) :=
  sendFrame_keeps _ (within hL rfl) h

theorem setBv_keeps (g : Fin 4) (x : BvGroup) (hL : ∀ p ∈ ([.bv] : List Part), p ∈ L) (h : keeps L o s) : keeps L o (setBv g x s) :=
  keeps_bv _ (within hL rfl) h

theorem bvAsync_keeps (kind : Nat) (cond : BvGroup → Bool)
    (hL : ∀ p ∈ ([.bv] : List Part), p ∈ L) (h : keeps L o s) : keeps L o (bvAsync kind cond s) :=
  keeps_upTo _ (fun _ _ h => keeps_ite _ (setBv_keeps _ _ (within hL rfl) h) h) h

theorem bvPin_keeps (tsel : Nat) (rising : Bool) (hL : ∀ p ∈ ([.bv] : List Part), p ∈ L) (h : keeps L o s) : keeps L o (bvPin tsel rising s) :=
  bvAsync_keeps _ _ (within hL rfl) h

theorem pcSet_keeps (k v : Nat) (hL : ∀ p ∈ ([.pc] : List Part), p ∈ L) (h : keeps L o s) : keeps L o (pcSet k v s) :=
  keeps_pc _ (within hL rfl) h

theorem evPend_keeps (n : Nat) (hL : ∀ p ∈ ([.regs, .held, .pg] : List Part), p ∈ L) (h : keeps L o s) : keeps L o (evPend n s) :=
  keeps_ite _ h (keeps_ite _ (count_keeps _ (within hL rfl) (putBit_keeps _ _ _ (within hL rfl) h)) (keeps_pg _ (within hL rfl) h))

theorem evPost_keeps (n : Nat) (hL : ∀ p ∈ ([.regs, .held, .pg, .bv] : List Part), p ∈ L) (h : keeps L o s) : keeps L o (evPost n s) :=
  evPend_keeps _ (within hL rfl) (bvAsync_keeps _ _ (within hL rfl) h)

theorem pcSample_keeps (k stage : Nat)
    (hL : ∀ p ∈ ([.regs, .held, .pc] : List Part), p ∈ L) (h : keeps L o s) : keeps L o (pcSample k stage s) :=
  keeps_ite _ (keeps_ite _ (count_keeps _ (within hL rfl) h) (keeps_pc _ (within hL rfl) h)) h

theorem pcAdd_keeps (k amount stage : Nat)
    (hL : ∀ p ∈ ([.regs, .held, .pg, .bv, .pc] : List Part), p ∈ L) (h : keeps L o s) : keeps L o (pcAdd k amount stage s) :=
  keeps_ite _ (pcSample_keeps _ _ (within hL rfl) (keeps_whenB _ (fun _ h => evPost_keeps _ (within hL rfl) h) (putBit_keeps _ _ _ (within hL rfl) (pcSet_keeps _ _ (within hL rfl) h)))) (pcSet_keeps _ _ (within hL rfl) h)

theorem pcCoreCounter_keeps (n j : Nat) (evs : List (Nat × Nat × Nat))
    (hL : ∀ p ∈ ([.regs, .held, .pg, .bv, .pc] : List Part), p ∈ L) (h : keeps L o s) : keeps L o (pcCoreCounter n j evs s) :=
  keeps_ite _ (pcAdd_keeps _ _ _ (within hL rfl) (keeps_pc _ (within hL rfl) h)) (keeps_pc _ (within hL rfl) h)

theorem pcRecord_keeps (n pc prio : Nat) (base : Bool) (desc : Nat)
    (hL : ∀ p ∈ ([.regs, .held, .pg, .bv, .pc] : List Part), p ∈ L) (h : keeps L o s) : keeps L o (pcRecord n pc prio base desc s) :=
  keeps_forEach _ (fun _ _ h => evPost_keeps _ (within hL rfl) (putWord_keeps _ _ (within hL rfl) (putWord_keeps _ _ (within hL rfl) h))) (keeps_pc _ (within hL rfl) h)

theorem pcCore_keeps (n : Nat) (evs : List (Nat × Nat × Nat))
    (hL : ∀ p ∈ ([.regs, .held, .pg, .bv, .pc] : List Part), p ∈ L) (h : keeps L o s) : keeps L o (pcCore n evs s) :=
  keeps_upTo _ (fun _ _ h => keeps_ite _ (pcAdd_keeps _ _ _ (within hL rfl) h) h) (keeps_upTo _ (fun _ _ h => pcCoreCounter_keeps _ _ _ (within hL rfl) h) h)

theorem pcSys_keeps (code amount : Nat)
    (hL : ∀ p ∈ ([.regs, .held, .pg, .bv, .pc] : List Part), p ∈ L) (h : keeps L o s) : keeps L o (pcSys code amount s) :=
  keeps_ite _ (keeps_upTo _ (fun _ _ h => keeps_ite _ (pcAdd_keeps _ _ _ (within hL rfl) h) h) h) h

theorem raiseEvent_keeps (n : Nat)
    (hL : ∀ p ∈ ([.regs, .held, .pg, .bv, .pc] : List Part), p ∈ L) (h : keeps L o s) : keeps L o (raiseEvent n s) :=
  evPost_keeps _ (within hL rfl) (keeps_whenB _ (fun _ h => pcSys_keeps _ _ (within hL rfl) h) h)

theorem pcSnap_keeps (hL : ∀ p ∈ ([.regs, .held, .pc] : List Part), p ∈ L) (h : keeps L o s) : keeps L o (pcSnap s) :=
  putBit_keeps _ _ _ (within hL rfl) (keeps_pc _ (within hL rfl) h)

theorem pcLoad_keeps (k : Nat) (lo : Word)
    (hL : ∀ p ∈ ([.regs, .held, .pc] : List Part), p ∈ L) (h : keeps L o s) : keeps L o (pcLoad k lo s) :=
  putBit_keeps _ _ _ (within hL rfl) (pcSet_keeps _ _ (within hL rfl) h)

theorem counterWrapEff_keeps (k : Fin 112) (amount : Fin 3)
    (hL : ∀ p ∈ ([.regs, .held, .pg, .bv, .pc] : List Part), p ∈ L) (h : keeps L o s) : keeps L o (counterWrapEff k amount s) :=
  keeps_ite _ (pcAdd_keeps _ _ _ (within hL rfl) h) h

theorem pushPost_keeps (d : Nat) (arg : Word)
    (hL : ∀ p ∈ ([.regs, .held, .pg, .bv, .pc] : List Part), p ∈ L) (h : keeps L o s) : keeps L o (pushPost d arg s) :=
  pcSys_keeps _ _ (within hL rfl) (keeps_pg _ (within hL rfl) h)

theorem discardPost_keeps (d : Nat) (hL : ∀ p ∈ ([.regs, .held] : List Part), p ∈ L) (h : keeps L o s) : keeps L o (discardPost d s) :=
  putBit_keeps _ _ _ (within hL rfl) (count_keeps _ (within hL rfl) h)

theorem refusedPost_keeps (d : Nat)
    (hL : ∀ p ∈ ([.regs, .held, .pg, .bv, .pc] : List Part), p ∈ L) (h : keeps L o s) : keeps L o (refusedPost d s) :=
  pcSys_keeps _ _ (within hL rfl) (putBit_keeps _ _ _ (within hL rfl) (count_keeps _ (within hL rfl) h))

theorem offerPost_keeps (d : Nat) (arg : Word)
    (hL : ∀ p ∈ ([.regs, .held, .pg, .bv, .pc] : List Part), p ∈ L) (h : keeps L o s) : keeps L o (offerPost d arg s).2 := by
  unfold offerPost
  refine keeps_ite_snd _ (discardPost_keeps _ (within hL rfl) h) ?_
  refine keeps_ite_snd _ h ?_
  exact pushPost_keeps _ _ (within hL rfl) h

theorem haltCore_keeps (c : CoreId) (hL : ∀ p ∈ ([.cores] : List Part), p ∈ L) (h : keeps L o s) : keeps L o (haltCore c s) :=
  setCore_keeps _ _ (within hL rfl) h

theorem delayEnter_keeps (d : Nat) (arg : Word) (due : DelayDue)
    (hL : ∀ p ∈ ([.pg] : List Part), p ∈ L) (h : keeps L o s) : keeps L o (delayEnter d arg due s).2 := by
  unfold delayEnter
  extract_lets _ _ _
  exact keeps_pg _ (within hL rfl) h

theorem offerFired_keeps (x1 : List Nat) (x2 : List Nat)
    (hL : ∀ p ∈ ([.regs, .held, .pg, .bv, .pc] : List Part), p ∈ L) (h : keeps L o s) : keeps L o (offerFired x1 x2 s) := by
  induction x1 generalizing x2 s with
  | nil => exact h
  | cons n ns ih =>
    unfold offerFired
    split
    · exact ih _ h
    · refine keeps_ite _ (ih _ h) ?_
      split
      · rename_i s1 e
        exact ih _ (keeps_pg _ (within hL rfl) (keeps_of_snd e (offerPost_keeps _ _ (within hL rfl) h)))
      · rename_i s1 e
        have hs1 : keeps L o s1 := keeps_of_snd e (offerPost_keeps _ _ (within hL rfl) h)
        exact ih _ (keeps_ite _ (keeps_pg _ (within hL rfl) hs1) (refusedPost_keeps _ (within hL rfl) (keeps_pg _ (within hL rfl) hs1)))

theorem fireDelays_keeps (ns : List Nat)
    (hL : ∀ p ∈ ([.regs, .held, .pg, .bv, .pc] : List Part), p ∈ L) (h : keeps L o s) : keeps L o (fireDelays ns s) :=
  offerFired_keeps _ _ (within hL rfl) (pcSys_keeps _ _ (within hL rfl) (keeps_pg _ (within hL rfl) h))

theorem unstall_keeps (n : Fin 8) (hL : ∀ p ∈ ([.cores] : List Part), p ∈ L) (h : keeps L o s) : keeps L o (unstall n s) :=
  setCore_keeps _ _ (within hL rfl) h

theorem stallWith_keeps (n : Fin 8) (p : StalledPost)
    (hL : ∀ p ∈ ([.cores] : List Part), p ∈ L) (h : keeps L o s) : keeps L o (stallWith n p s) :=
  setCore_keeps _ _ (within hL rfl) h

theorem tryPost_keeps (p : StalledPost)
    (hL : ∀ p ∈ ([.regs, .held, .pg, .bv, .pc] : List Part), p ∈ L) (h : keeps L o s) : keeps L o (tryPost p s).2 := by
  unfold tryPost
  split
  · exact offerPost_keeps _ _ (within hL rfl) h
  · split
    · exact putWord_keeps _ _ (within hL rfl) h
    · refine keeps_ite_snd _ h ?_
      split
      rename_i s1 e
      have hs1 : keeps L o s1 := keeps_of_snd e (delayEnter_keeps _ _ _ (within hL rfl) h)
      exact putWord_keeps _ _ (within hL rfl) hs1

theorem retryStalled_keeps
    (hL : ∀ p ∈ ([.regs, .held, .cores, .pg, .bv, .pc] : List Part), p ∈ L) (h : keeps L o s) : keeps L o (retryStalled s) := by
  unfold retryStalled
  refine keeps_forEach _ (fun _ _ h => ?_) h
  split
  · exact h
  · split
    · rename_i s1 e
      have hs1 : keeps L o s1 := keeps_of_snd e (tryPost_keeps _ (within hL rfl) h)
      exact unstall_keeps _ (within hL rfl) hs1
    · rename_i s1 e
      have hs1 : keeps L o s1 := keeps_of_snd e (tryPost_keeps _ (within hL rfl) h)
      exact h

theorem corePost_keeps (who : Requester) (a : Nat) (p : StalledPost)
    (hL : ∀ p ∈ ([.regs, .held, .cores, .pg, .bv, .pc] : List Part), p ∈ L) (h : keeps L o s) : keeps L o (corePost who a p s) := by
  unfold corePost
  split
  · exact dropWrite_keeps _ _ _ (within hL rfl) h
  · split
    · rename_i s1 e
      have hs1 : keeps L o s1 := keeps_of_snd e (tryPost_keeps _ (within hL rfl) h)
      exact hs1
    · rename_i s1 e
      have hs1 : keeps L o s1 := keeps_of_snd e (tryPost_keeps _ (within hL rfl) h)
      exact stallWith_keeps _ _ (within hL rfl) (refusedPost_keeps _ (within hL rfl) (count_keeps _ (within hL rfl) hs1))
  · split
    · rename_i s1 e
      have hs1 : keeps L o s1 := keeps_of_snd e (tryPost_keeps _ (within hL rfl) h)
      exact hs1
    · rename_i s1 e
      have hs1 : keeps L o s1 := keeps_of_snd e (tryPost_keeps _ (within hL rfl) h)
      exact dropWrite_keeps _ _ _ (within hL rfl) (refusedPost_keeps _ (within hL rfl) hs1)

theorem writePost_keeps (who : Requester) (blk : Fin 8) (d : Nat)
    (hL : ∀ p ∈ ([.regs, .held, .cores, .pg, .bv, .pc] : List Part), p ∈ L) (h : keeps L o s) : keeps L o (writePost who blk d s) :=
  corePost_keeps _ _ _ (within hL rfl) h

theorem writeDpost_keeps (who : Requester) (blk : Fin 8) (d : Nat)
    (hL : ∀ p ∈ ([.regs, .held, .cores, .pg, .bv, .pc] : List Part), p ∈ L) (h : keeps L o s) : keeps L o (writeDpost who blk d s) :=
  corePost_keeps _ _ _ (within hL rfl) h

theorem writeDcancel_keeps (who : Requester) (blk : Fin 8) (h' : Word)
    (hL : ∀ p ∈ ([.regs, .held, .cores, .pg, .bv, .pc] : List Part), p ∈ L) (h : keeps L o s) : keeps L o (writeDcancel who blk h' s) := by
  unfold writeDcancel
  extract_lets _ _
  split
  · exact dropWrite_keeps _ _ _ (within hL rfl) h
  · exact keeps_ite _ (retryStalled_keeps (within hL rfl) (putFld_keeps _ _ _ _ (within hL rfl) (keeps_pg _ (within hL rfl) h))) (putFld_keeps _ _ _ _ (within hL rfl) h)

theorem tickEff_keeps (hL : ∀ p ∈ ([.regs, .held, .cores, .pg, .bv, .pc] : List Part), p ∈ L) (h : keeps L o s) : keeps L o (tickEff s) :=
  keeps_ite _ h (retryStalled_keeps (within hL rfl) (fireDelays_keeps _ (within hL rfl) (keeps_pg _ (within hL rfl) h)))

theorem evOffer_keeps (n : Nat) (hL : ∀ p ∈ ([.regs, .held, .pg, .bv, .pc] : List Part), p ∈ L) (h : keeps L o s) : keeps L o (evOffer n s) := by
  unfold evOffer
  extract_lets _ _
  split
  · exact h
  · split
    · rename_i s1 e
      have hs1 : keeps L o s1 := keeps_of_snd e (offerPost_keeps _ _ (within hL rfl) h)
      exact keeps_pg _ (within hL rfl) hs1
    · rename_i s1 e
      have hs1 : keeps L o s1 := keeps_of_snd e (offerPost_keeps _ _ (within hL rfl) h)
      exact keeps_ite _ hs1 (refusedPost_keeps _ (within hL rfl) (keeps_pg _ (within hL rfl) hs1))

theorem descDisabled_keeps (d : Nat)
    (hL : ∀ p ∈ ([.regs, .held, .cores, .pg, .bv, .pc] : List Part), p ∈ L) (h : keeps L o s) : keeps L o (descDisabled d s) :=
  retryStalled_keeps (within hL rfl) (countBy_keeps _ _ (within hL rfl) (keeps_pg _ (within hL rfl) h))

theorem faultRecord_keeps (kind code low react : Nat)
    (hL : ∀ p ∈ ([.sys, .regs, .held] : List Part), p ∈ L) (h : keeps L o s) : keeps L o (faultRecord kind code low react s) :=
  keeps_ite _ (count_keeps _ (within hL rfl) h) (count_keeps _ (within hL rfl) (keeps_sys _ (within hL rfl) h))

theorem flushRecord_keeps
    (hL : ∀ p ∈ ([.sys, .regs, .held, .mem, .pg, .bv, .pc] : List Part), p ∈ L) (h : keeps L o s) : keeps L o (flushRecord s) := by
  unfold flushRecord
  extract_lets _
  split
  · exact h
  · exact pcSys_keeps _ _ (within hL rfl) (mramPutAll_keeps _ _ (within hL rfl) (keeps_sys _ (within hL rfl) h))

theorem flushRecords_keeps
    (hL : ∀ p ∈ ([.sys, .regs, .held, .mem, .pg, .bv, .pc] : List Part), p ∈ L) (h : keeps L o s) : keeps L o (flushRecords s) :=
  keeps_upTo _ (fun _ _ h => flushRecord_keeps (within hL rfl) h) h

theorem updateBrakes_keeps (hL : ∀ p ∈ ([.bv, .gh] : List Part), p ∈ L) (h : keeps L o s) : keeps L o (updateBrakes s) :=
  keeps_upTo _ (fun _ _ h => keeps_ite _ h (bvPin_keeps _ _ (within hL rfl) (keeps_gh _ (within hL rfl) h))) h

theorem forceBrake_keeps (n : Nat) (hL : ∀ p ∈ ([.regs, .held, .gh] : List Part), p ∈ L) (h : keeps L o s) : keeps L o (forceBrake n s) :=
  keeps_ite _ (keeps_held _ (within hL rfl) (keeps_gh _ (within hL rfl) h)) (putBit_keeps _ _ _ (within hL rfl) (keeps_gh _ (within hL rfl) h))

theorem forceBrakes_keeps (g : Fin 4)
    (hL : ∀ p ∈ ([.regs, .held, .bv, .gh] : List Part), p ∈ L) (h : keeps L o s) : keeps L o (forceBrakes g s) :=
  updateBrakes_keeps (within hL rfl) (keeps_upTo _ (fun _ _ h => keeps_whenB _ (fun _ h => forceBrake_keeps _ (within hL rfl) h) h) h)

theorem setCond_keeps (g : Fin 4) (c : GrpCond)
    (hL : ∀ p ∈ ([.regs, .held, .pg, .bv, .gh, .pc] : List Part), p ∈ L) (h : keeps L o s) : keeps L o (setCond g c s) := by
  unfold setCond
  extract_lets _ _ s1
  have hs1 : keeps L o s1 := updateBrakes_keeps (within hL rfl) (raiseEvent_keeps _ (within hL rfl) (setGroup_keeps _ _ (within hL rfl) h))
  exact keeps_ite _ h (keeps_ite _ (forceBrakes_keeps _ (within hL rfl) hs1) hs1)

theorem groupDemand_keeps (g : Fin 4) (sto : Bool) (cause : Cause)
    (hL : ∀ p ∈ ([.regs, .held, .pg, .bv, .gh, .pc] : List Part), p ∈ L) (h : keeps L o s) : keeps L o (groupDemand g sto cause s) :=
  keeps_ite _ (setCond_keeps _ _ (within hL rfl) (setGroup_keeps _ _ (within hL rfl) h)) (keeps_ite _ (setCond_keeps _ _ (within hL rfl) (setGroup_keeps _ _ (within hL rfl) h)) (keeps_ite _ h (setGroup_keeps _ _ (within hL rfl) h)))

theorem maskDemand_keeps (mask : Nat) (sto : Bool) (cause : Cause)
    (hL : ∀ p ∈ ([.regs, .held, .pg, .bv, .gh, .pc] : List Part), p ∈ L) (h : keeps L o s) : keeps L o (maskDemand mask sto cause s) :=
  keeps_upTo _ (fun _ _ h => keeps_ite _ (groupDemand_keeps _ _ _ (within hL rfl) h) h) h

theorem enterSafe_keeps
    (hL : ∀ p ∈ ([.sys, .regs, .held, .pg, .bv, .lk, .gh, .pc] : List Part), p ∈ L) (h : keeps L o s) : keeps L o (enterSafe s) := by
  unfold enterSafe
  extract_lets _ _ _ _ s1 s2
  have hs1 : keeps L o s1 := keeps_same h rfl rfl fun p hp => by cases p with | sys | lk | gh => exact absurd (hL _ (by decide)) hp | _ => rfl
  have hs2 : keeps L o s2 := keeps_upTo _ (fun _ _ h => setCond_keeps _ _ (within hL rfl) h) hs1
  exact keeps_ite _ h (updateBrakes_keeps (within hL rfl) (raiseEvent_keeps _ (within hL rfl) hs2))

theorem toSafe_keeps
    (hL : ∀ p ∈ ([.sys, .regs, .held, .pg, .bv, .lk, .gh, .pc] : List Part), p ∈ L) (h : keeps L o s) : keeps L o (toSafe s) :=
  keeps_ite _ h (enterSafe_keeps (within hL rfl) h)

theorem failPath_keeps (code : Nat) (hL : ∀ p ∈ ([.lk, .pr] : List Part), p ∈ L) (h : keeps L o s) : keeps L o (failPath code s) :=
  keeps_pr _ (within hL rfl) (sendLane_keeps _ (within hL rfl) h)

theorem takeReact_keeps (code taken mask : Nat) (cause : Cause)
    (hL : ∀ p ∈ ([.sys, .regs, .held, .pg, .bv, .lk, .pr, .gh, .pc] : List Part), p ∈ L)
    (h : keeps L o s) : keeps L o (takeReact code taken mask cause s) := by
  unfold takeReact
  extract_lets _
  refine keeps_ite _ (maskDemand_keeps _ _ _ (within hL rfl) h) ?_
  exact keeps_ite _ (maskDemand_keeps _ _ _ (within hL rfl) h) (keeps_ite _ (keeps_ite _ h (keeps_gh _ (within hL rfl) h)) (keeps_ite _ (enterSafe_keeps (within hL rfl) h) (keeps_ite _ (failPath_keeps _ (within hL rfl) h) h)))

theorem ghRecord_keeps (code low taken : Nat)
    (hL : ∀ p ∈ ([.sys, .regs, .held, .pg, .bv, .pc] : List Part), p ∈ L) (h : keeps L o s) : keeps L o (ghRecord code low taken s) :=
  faultRecord_keeps _ _ _ _ (within hL rfl) (bvAsync_keeps _ _ (within hL rfl) (raiseEvent_keeps _ (within hL rfl) (raiseEvent_keeps _ (within hL rfl) (count_keeps _ (within hL rfl) (putWord_keeps _ _ (within hL rfl) h)))))

theorem ghFaultBy_keeps (code low : Nat) (r : React) (cause : Cause)
    (hL : ∀ p ∈ ([.sys, .regs, .held, .pg, .bv, .lk, .pr, .gh, .pc] : List Part), p ∈ L)
    (h : keeps L o s) : keeps L o (ghFaultBy code low r cause s) :=
  keeps_ite _ (takeReact_keeps _ _ _ _ (within hL rfl) (ghRecord_keeps _ _ _ (within hL rfl) (keeps_ite _ (keeps_pr _ (within hL rfl) h) h))) h

theorem ghFault_keeps (code low : Nat) (r : React)
    (hL : ∀ p ∈ ([.sys, .regs, .held, .pg, .bv, .lk, .pr, .gh, .pc] : List Part), p ∈ L) (h : keeps L o s) : keeps L o (ghFault code low r s) :=
  ghFaultBy_keeps _ _ _ _ (within hL rfl) h

theorem ghFaultEcc_keeps
    (hL : ∀ p ∈ ([.sys, .regs, .held, .pg, .bv, .lk, .pr, .gh, .pc] : List Part), p ∈ L) (h : keeps L o s) : keeps L o (ghFaultEcc s) :=
  ghFault_keeps _ _ _ (within hL rfl) h

theorem ackDropped_keeps (g : Fin 4) (hL : ∀ p ∈ ([.regs, .held, .gh] : List Part), p ∈ L) (h : keeps L o s) : keeps L o (ackDropped g s) := by
  unfold ackDropped
  extract_lets x
  split
  · have hs1 : keeps L o (setGroup g { x with ackBy := none } s) := setGroup_keeps _ _ (within hL rfl) h
    split
    · exact hs1
    · exact dropWrite_keeps _ _ _ (within hL rfl) hs1
  · exact h

theorem releaseGroup_keeps (g : Fin 4)
    (hL : ∀ p ∈ ([.regs, .held, .pg, .bv, .gh, .pc] : List Part), p ∈ L) (h : keeps L o s) : keeps L o (releaseGroup g s) :=
  keeps_ite _ (setCond_keeps _ _ (within hL rfl) (setGroup_keeps _ _ (within hL rfl) h)) h

theorem ackGroup_keeps (who : Requester) (g : Fin 4)
    (hL : ∀ p ∈ ([.regs, .held, .gh] : List Part), p ∈ L) (h : keeps L o s) : keeps L o (ackGroup who g s) :=
  keeps_ite _ (setGroup_keeps _ _ (within hL rfl) h) (dropWrite_keeps _ _ _ (within hL rfl) h)

theorem ghCommand_keeps (who : Requester) (v : Word)
    (hL : ∀ p ∈ ([.regs, .held, .pg, .bv, .gh, .pc] : List Part), p ∈ L) (h : keeps L o s) : keeps L o (ghCommand who v s) :=
  keeps_upTo _ (fun _ _ h => keeps_ite _ (ackGroup_keeps _ _ (within hL rfl) h) h) (maskDemand_keeps _ _ _ (within hL rfl) (maskDemand_keeps _ _ _ (within hL rfl) h))

theorem sampleDemand_keeps (d : Nat)
    (hL : ∀ p ∈ ([.regs, .held, .pg, .bv, .gh, .pc] : List Part), p ∈ L) (h : keeps L o s) : keeps L o (sampleDemand d s) :=
  keeps_ite _ (keeps_gh _ (within hL rfl) h) (keeps_ite _ (maskDemand_keeps _ _ _ (within hL rfl) (keeps_gh _ (within hL rfl) h)) (keeps_gh _ (within hL rfl) h))

theorem demandDiscrepancy_keeps (d : Fin 8)
    (hL : ∀ p ∈ ([.sys, .regs, .held, .pg, .bv, .lk, .pr, .gh, .pc] : List Part), p ∈ L) (h : keeps L o s) : keeps L o (demandDiscrepancy d s) :=
  keeps_ite _ (ghFault_keeps _ _ _ (within hL rfl) (putBit_keeps _ _ _ (within hL rfl) (keeps_gh _ (within hL rfl) h))) h

theorem bdlyExpiry_keeps (g : Fin 4)
    (hL : ∀ p ∈ ([.regs, .held, .pg, .bv, .gh, .pc] : List Part), p ∈ L) (h : keeps L o s) : keeps L o (bdlyExpiry g s) :=
  keeps_ite _ (setCond_keeps _ _ (within hL rfl) h) h

theorem ss1tExpiry_keeps (g : Fin 4)
    (hL : ∀ p ∈ ([.regs, .held, .pg, .bv, .gh, .pc] : List Part), p ∈ L) (h : keeps L o s) : keeps L o (ss1tExpiry g s) :=
  keeps_ite _ (setCond_keeps _ _ (within hL rfl) h) h

theorem testPulse_keeps (g : Fin 4) (low : Bool) (hL : ∀ p ∈ ([.gh] : List Part), p ∈ L) (h : keeps L o s) : keeps L o (testPulse g low s) :=
  keeps_ite _ (setGroup_keeps _ _ (within hL rfl) h) h

theorem testPulseEnd_keeps (g : Fin 4) (pass : Bool)
    (hL : ∀ p ∈ ([.sys, .regs, .held, .pg, .bv, .lk, .pr, .gh, .pc] : List Part), p ∈ L) (h : keeps L o s) : keeps L o (testPulseEnd g pass s) :=
  keeps_ite _ h (keeps_ite _ (setGroup_keeps _ _ (within hL rfl) h) (ghFault_keeps _ _ _ (within hL rfl) (setGroup_keeps _ _ (within hL rfl) h)))

theorem brakeMismatch_keeps (n : Fin 8)
    (hL : ∀ p ∈ ([.sys, .regs, .held, .pg, .bv, .lk, .pr, .gh, .pc] : List Part), p ∈ L) (h : keeps L o s) : keeps L o (brakeMismatch n s) :=
  keeps_ite _ (ghFault_keeps _ _ _ (within hL rfl) h) h

theorem brkFbChange_keeps (n : Fin 8) (level : Bool)
    (hL : ∀ p ∈ ([.bv, .gh] : List Part), p ∈ L) (h : keeps L o s) : keeps L o (brkFbChange n level s) :=
  keeps_ite _ h (bvPin_keeps _ _ (within hL rfl) (keeps_gh _ (within hL rfl) h))

theorem setWd_keeps (c : Fin 3) (w : Watchdog) (hL : ∀ p ∈ ([.gh] : List Part), p ∈ L) (h : keeps L o s) : keeps L o (setWd c w s) :=
  keeps_gh _ (within hL rfl) h

theorem wdService_keeps (c : Fin 3) (v : Word)
    (hL : ∀ p ∈ ([.sys, .regs, .held, .pg, .bv, .lk, .pr, .gh, .pc] : List Part), p ∈ L) (h : keeps L o s) : keeps L o (wdService c v s) :=
  keeps_ite _ h (keeps_ite _ (setWd_keeps _ _ (within hL rfl) h) (ghFault_keeps _ _ _ (within hL rfl) (setWd_keeps _ _ (within hL rfl) h)))

theorem wdConfig_keeps (who : Requester) (c : Fin 3) (v : Word)
    (hL : ∀ p ∈ ([.regs, .held, .gh] : List Part), p ∈ L) (h : keeps L o s) : keeps L o (wdConfig who c v s) :=
  keeps_ite _ (keeps_ite _ h (regSet_keeps _ _ (within hL rfl) h)) (keeps_ite _ (dropWrite_keeps _ _ _ (within hL rfl) h) (keeps_ite _ (regSet_keeps _ _ (within hL rfl) h) (setWd_keeps _ _ (within hL rfl) (regSet_keeps _ _ (within hL rfl) h))))

theorem wdMissed_keeps (c : Fin 3)
    (hL : ∀ p ∈ ([.sys, .regs, .held, .pg, .bv, .lk, .pr, .gh, .pc] : List Part), p ∈ L) (h : keeps L o s) : keeps L o (wdMissed c s) :=
  keeps_ite _ (ghFault_keeps _ _ _ (within hL rfl) (setWd_keeps _ _ (within hL rfl) h)) h

theorem signBlock_keeps (a : Nat) (hL : ∀ p ∈ ([.gh] : List Part), p ∈ L) (h : keeps L o s) : keeps L o (signBlock a s) :=
  keeps_ite _ (keeps_gh _ (within hL rfl) h) h

theorem rescanBlock_keeps (b : Nat) (off : Nat) (mask : Word)
    (hL : ∀ p ∈ ([.sys, .regs, .held, .pg, .bv, .lk, .pr, .gh, .pc] : List Part), p ∈ L)
    (h : keeps L o s) : keeps L o (rescanBlock b off mask s) := by
  unfold rescanBlock
  extract_lets _ _ _ s1 _ s2 s3
  have hs1 : keeps L o s1 := keeps_ite _ h (hwMod_keeps _ _ (within hL rfl) h)
  have hs2 : keeps L o s2 := keeps_gh _ (within hL rfl) hs1
  have hs3 : keeps L o s3 := putFld_keeps _ _ _ _ (within hL rfl) (putBit_keeps _ _ _ (within hL rfl) hs2)
  exact keeps_ite _ hs1 (keeps_ite _ (ghFault_keeps _ _ _ (within hL rfl) hs3) (ghFault_keeps _ _ _ (within hL rfl) hs3))

theorem eccAnswer_keeps (m : EccMem) (e : Ecc)
    (hL : ∀ p ∈ ([.sys, .regs, .held, .pg, .bv, .lk, .pr, .gh, .pc] : List Part), p ∈ L) (h : keeps L o s) : keeps L o (eccAnswer m e s) := by
  unfold eccAnswer
  split
  · exact h
  · exact pcSys_keeps _ _ (within hL rfl) (raiseEvent_keeps _ (within hL rfl) (count_keeps _ (within hL rfl) h))
  · exact ghFault_keeps _ _ _ (within hL rfl) h

theorem refreshLoss_keeps (hL : ∀ p ∈ ([.bv, .gh] : List Part), p ∈ L) (h : keeps L o s) : keeps L o (refreshLoss s) :=
  updateBrakes_keeps (within hL rfl) (keeps_gh _ (within hL rfl) h)

end Sys2Proof.Machine
end

