-- ==== Sys2Proof/Proofs/KeepsMotion.lean ====
section
/-! PROOFS. What Sundial, the feedback channels, the motion objects and the servo engine keep. -/

namespace Sys2Proof.Machine

variable {L : List Part} {o s : State}

theorem disarmTb_keeps (t : Fin 16) (hL : ∀ p ∈ ([.sd] : List Part), p ∈ L) (h : keeps L o s) : keeps L o (disarmTb t s) :=
  setTb_keeps _ _ (within hL rfl) h

theorem disarmChannel_keeps (ch : Nat) (hL : ∀ p ∈ ([.sd] : List Part), p ∈ L) (h : keeps L o s) : keeps L o (disarmChannel ch s) :=
  keeps_forEach _ (fun _ _ h => disarmTb_keeps _ (within hL rfl) h) h

theorem disarmMains_keeps (hL : ∀ p ∈ ([.sd] : List Part), p ∈ L) (h : keeps L o s) : keeps L o (disarmMains s) :=
  keeps_forEach _ (fun _ _ h => disarmTb_keeps _ (within hL rfl) h) h

theorem sdEdge_keeps (ch : Nat) (cnt d : Int) (t : Nat) (free : Option Nat) (onRef : Bool)
    (hL : ∀ p ∈ ([.sd] : List Part), p ∈ L) (h : keeps L o s) : keeps L o (sdEdge ch cnt d t free onRef s) :=
  keeps_forEach _ (fun _ _ h => setTb_keeps _ _ (within hL rfl) h) h

theorem sdReference_keeps (ch : Nat) (cnt : Int)
    (hL : ∀ p ∈ ([.sd] : List Part), p ∈ L) (h : keeps L o s) : keeps L o (sdReference ch cnt s) :=
  keeps_forEach _ (fun _ _ h => setTb_keeps _ _ (within hL rfl) h) h

theorem sdWithdraw_keeps (ch : Nat) (hL : ∀ p ∈ ([.sd] : List Part), p ∈ L) (h : keeps L o s) : keeps L o (sdWithdraw ch s) :=
  keeps_forEach _ (fun _ _ h => setTb_keeps _ _ (within hL rfl) h) h

theorem sdSample_keeps (kind src : Nat) (v : Int) (ci : Nat)
    (hL : ∀ p ∈ ([.sd] : List Part), p ∈ L) (h : keeps L o s) : keeps L o (sdSample kind src v ci s) :=
  keeps_forEach _ (fun _ _ h => setTb_keeps _ _ (within hL rfl) h) h

theorem mainsEdge_keeps (t : Nat)
    (hL : ∀ p ∈ ([.regs, .held, .sd, .mains, .bv] : List Part), p ∈ L) (h : keeps L o s) : keeps L o (mainsEdge t s) :=
  bvPin_keeps _ _ (within hL rfl) (keeps_forEach _ (fun _ _ h => setTb_keeps _ _ (within hL rfl) h) (putBit_keeps _ _ _ (within hL rfl) (keeps_mains _ (within hL rfl) h)))

theorem mainsLost_keeps
    (hL : ∀ p ∈ ([.regs, .held, .pg, .sd, .mains, .bv, .pc] : List Part), p ∈ L) (h : keeps L o s) : keeps L o (mainsLost s) :=
  keeps_ite _ h (disarmMains_keeps (within hL rfl) (keeps_whenB _ (fun _ h => raiseEvent_keeps _ (within hL rfl) h) (putBit_keeps _ _ _ (within hL rfl) (putBit_keeps _ _ _ (within hL rfl) (keeps_mains _ (within hL rfl) h)))))

theorem mainsLockAt_keeps (t : Nat)
    (hL : ∀ p ∈ ([.regs, .held, .pg, .mains, .bv, .pc] : List Part), p ∈ L) (h : keeps L o s) : keeps L o (mainsLockAt t s) := by
  unfold mainsLockAt
  extract_lets m pnom en n gain ref phi was fin
  have done (m locked hold range pherr t) (ht : keeps L o t) : keeps L o (fin m locked hold range pherr t) := by
    refine keeps_whenB _ (fun _ h => raiseEvent_keeps _ (within hL rfl) h) (putBit_keeps _ _ _ (within hL rfl) (putBit_keeps _ _ _ (within hL rfl)
      (putBit_keeps _ _ _ (within hL rfl) (putBit_keeps _ _ _ (within hL rfl) ?_))))
    split
    · exact putFld_keeps _ _ _ _ (within hL rfl) (keeps_mains _ (within hL rfl) ht)
    · exact keeps_mains _ (within hL rfl) ht
  clear_value fin
  refine keeps_ite _ (done _ _ _ _ _ _ h) (keeps_ite _ (done _ _ _ _ _ _ h) ?_)
  split
  exact done _ _ _ _ _ _ h

theorem showPeriod_keeps (hL : ∀ p ∈ ([.regs, .held] : List Part), p ∈ L) (h : keeps L o s) : keeps L o (showPeriod s) :=
  putWord_keeps _ _ (within hL rfl) (putWord_keeps _ _ (within hL rfl) h)

theorem updateTb_keeps (t : Nat) (k : Fin 16)
    (hL : ∀ p ∈ ([.regs, .held, .sd] : List Part), p ∈ L) (h : keeps L o s) : keeps L o (updateTb t k s).2 := by
  unfold updateTb
  extract_lets _ _ _ _ _
  refine keeps_ite_snd _ (keeps_ite _ (disarmTb_keeps _ (within hL rfl) h) h) ?_
  split
  extract_lets _ _
  split
  · refine keeps_ite_snd _ (setTb_keeps _ _ (within hL rfl) h) ?_
    exact setTb_keeps _ _ (within hL rfl) h
  · split
    extract_lets _ _ _ s1 _ _ _ _ s2
    have hs1 : keeps L o s1 := keeps_whenB _ (fun _ h => putBit_keeps _ _ _ (within hL rfl) h) (keeps_whenB _ (fun _ h => putBit_keeps _ _ _ (within hL rfl) h) (setTb_keeps _ _ (within hL rfl) h))
    have hs2 : keeps L o s2 := keeps_sd _ (within hL rfl) hs1
    exact hs2

theorem offerHeld_keeps (x1 : List (Nat × Nat))
    (hL : ∀ p ∈ ([.regs, .held, .pg, .sd, .bv, .pc] : List Part), p ∈ L) (h : keeps L o s) : keeps L o (offerHeld x1 s) := by
  induction x1 generalizing s with
  | nil => exact h
  | cons x xs ih =>
    unfold offerHeld
    split
    · rename_i s1 e
      exact ih (keeps_sd _ (within hL rfl) (keeps_of_snd e (offerPost_keeps _ _ (within hL rfl) h)))
    · rename_i s1 e
      exact ih (keeps_of_snd e (offerPost_keeps _ _ (within hL rfl) h))

theorem withBefore_keeps (f : State → State) (hf : ∀ s, keeps L o s → keeps L o (f s))
    (hL : ∀ p ∈ ([.sd] : List Part), p ∈ L) (h : keeps L o s) : keeps L o (withBefore f s) :=
  keeps_sd _ (within hL rfl) (hf _ (keeps_sd _ (within hL rfl) h))

theorem sundialUpdate.detect_keeps (hL : ∀ p ∈ ([.regs, .held, .cores, .pg, .sd, .bv, .pc] : List Part), p ∈ L) (h : keeps L o s) :
    keeps L o (sundialUpdate.detect s) := by
  unfold sundialUpdate.detect
  extract_lets s1
  have hs1 : keeps L o s1 := offerHeld_keeps _ (within hL rfl) h
  have hs2 (l : List (Fin 16)) (due : List Nat) (t : State) (ht : keeps L o t) : keeps L o (l.foldl (fun (acc : List Nat × State) k =>
      let (d, s') := updateTb s1.now k acc.2
      (acc.1 ++ d, s')) (due, t)).2 := by
    induction l generalizing due t with
    | nil => exact ht
    | cons k l ih => exact ih _ _ (updateTb_keeps _ _ (within hL rfl) ht)
  split
  rename_i due s2 e
  have h2 : keeps L o s2 := keeps_of_snd e (hs2 _ _ _ hs1)
  exact keeps_whenB _ (fun _ h => pcSys_keeps _ _ (within hL rfl) h)
    (retryStalled_keeps (within hL rfl) (keeps_ite _ h2 (fireDelays_keeps _ (within hL rfl) h2)))

theorem sundialUpdate_keeps (hL : ∀ p ∈ ([.now, .regs, .held, .cores, .pg, .sd, .bv, .pc] : List Part), p ∈ L) (h : keeps L o s) :
    keeps L o (sundialUpdate s) :=
  keeps_ite _ (keeps_now _ (within hL rfl) h)
    (withBefore_keeps _ (fun _ h => sundialUpdate.detect_keeps (within hL rfl) h) (within hL rfl) (keeps_now _ (within hL rfl) h))

theorem sundialPost_keeps (e d : Nat)
    (hL : ∀ p ∈ ([.regs, .held, .pg, .sd, .bv, .pc] : List Part), p ∈ L) (h : keeps L o s) : keeps L o (sundialPost e d s) := by
  unfold sundialPost
  split
  · rename_i s1 e
    have hs1 : keeps L o s1 := keeps_of_snd e (offerPost_keeps _ _ (within hL rfl) h)
    exact hs1
  · rename_i s1 e
    have hs1 : keeps L o s1 := keeps_of_snd e (offerPost_keeps _ _ (within hL rfl) h)
    extract_lets _ s2
    have hs2 : keeps L o s2 := refusedPost_keeps _ (within hL rfl) (count_keeps _ (within hL rfl) (keeps_sd _ (within hL rfl) hs1))
    exact keeps_ite _ (keeps_whenB _ (fun _ h => raiseEvent_keeps _ (within hL rfl) h) hs2) (raiseEvent_keeps _ (within hL rfl) (count_keeps _ (within hL rfl) (putBit_keeps _ _ _ (within hL rfl) (refusedPost_keeps _ (within hL rfl) hs1))))

theorem driveEvo_keeps (o' how : Nat) (hL : ∀ p ∈ ([.sd, .bv] : List Part), p ∈ L) (h : keeps L o s) : keeps L o (driveEvo o' how s) :=
  keeps_ite _ (keeps_sd _ (within hL rfl) h) (bvPin_keeps _ _ (within hL rfl) (keeps_sd _ (within hL rfl) h))

theorem firePset_keeps (a k : Nat) (hL : ∀ p ∈ ([.regs, .held, .sd] : List Part), p ∈ L) (h : keeps L o s) : keeps L o (firePset a k s) :=
  keeps_sd _ (within hL rfl) (stageReg_keeps _ _ (within hL rfl) h)

theorem fireArm_keeps (c : Nat) (hL : ∀ p ∈ ([.gh] : List Part), p ∈ L) (h : keeps L o s) : keeps L o (fireArm c s) :=
  keeps_ite _ (keeps_gh _ (within hL rfl) h) h

theorem fireAction_keeps (f : Firing)
    (hL : ∀ p ∈ ([.regs, .held, .pg, .sd, .bv, .gh, .pc] : List Part), p ∈ L) (h : keeps L o s) : keeps L o (fireAction f s) := by
  unfold fireAction
  extract_lets _
  refine keeps_ite _ (driveEvo_keeps _ _ (within hL rfl) h) ?_
  refine keeps_ite _ (sundialPost_keeps _ _ (within hL rfl) h) ?_
  refine keeps_ite _ (keeps_upTo _ (fun _ _ h => keeps_ite _ (setBv_keeps _ _ (within hL rfl) h) h) h) ?_
  exact keeps_ite _ (keeps_ite _ h (firePset_keeps _ _ (within hL rfl) h)) (keeps_ite _ (keeps_ite _ h (stageReg_keeps _ _ (within hL rfl) h)) (keeps_ite _ (fireArm_keeps _ (within hL rfl) h) h))

theorem fireMarks_keeps (f : Firing) (hL : ∀ p ∈ ([.regs, .held, .sd] : List Part), p ∈ L) (h : keeps L o s) : keeps L o (fireMarks f s) :=
  keeps_ite _ (keeps_ite _ (keeps_sd _ (within hL rfl) (putBit_keeps _ _ _ (within hL rfl) h)) (putBit_keeps _ _ _ (within hL rfl) (keeps_sd _ (within hL rfl) (putBit_keeps _ _ _ (within hL rfl) h)))) (putBit_keeps _ _ _ (within hL rfl) h)

theorem sundialDispatch_keeps
    (hL : ∀ p ∈ ([.regs, .held, .pg, .sd, .bv, .gh, .pc] : List Part), p ∈ L) (h : keeps L o s) : keeps L o (sundialDispatch s) := by
  unfold sundialDispatch
  extract_lets _
  split
  · exact h
  · exact pcSys_keeps _ _ (within hL rfl) (fireAction_keeps _ (within hL rfl) (fireMarks_keeps _ (within hL rfl) (keeps_sd _ (within hL rfl) h)))

theorem commitEntry_keeps (n : Nat)
    (hL : ∀ p ∈ ([.regs, .held, .pg, .sd, .bv, .pc] : List Part), p ∈ L) (h : keeps L o s) : keeps L o (commitEntry n s) :=
  keeps_ite _ (raiseEvent_keeps _ (within hL rfl) (putBit_keeps _ _ _ (within hL rfl) (regSet_keeps _ _ (within hL rfl) (keeps_sd _ (within hL rfl) h)))) (keeps_sd _ (within hL rfl) h)

theorem commitEntries_keeps
    (hL : ∀ p ∈ ([.regs, .held, .pg, .sd, .bv, .pc] : List Part), p ∈ L) (h : keeps L o s) : keeps L o (commitEntries s) :=
  keeps_forEach _ (fun _ _ h => commitEntry_keeps _ (within hL rfl) h) (keeps_sd _ (within hL rfl) h)

theorem writeW0_keeps (e : Nat) (v : Word) (hL : ∀ p ∈ ([.regs, .sd] : List Part), p ∈ L) (h : keeps L o s) : keeps L o (writeW0 e v s) :=
  keeps_ite _ (regSet_keeps _ _ (within hL rfl) h) (keeps_sd _ (within hL rfl) (regSet_keeps _ _ (within hL rfl) h))

theorem tbStandstill_keeps (t : Fin 16) (hL : ∀ p ∈ ([.sd] : List Part), p ∈ L) (h : keeps L o s) : keeps L o (tbStandstill t s) :=
  keeps_ite _ (setTb_keeps _ _ (within hL rfl) h) h

theorem tbConfigTaken_keeps (t : Fin 16) (old new : Word)
    (hL : ∀ p ∈ ([.sd] : List Part), p ∈ L) (h : keeps L o s) : keeps L o (tbConfigTaken t old new s) :=
  keeps_ite _ (disarmTb_keeps _ (within hL rfl) h) h

theorem fboCopy_keeps (n : Fin 16) (hL : ∀ p ∈ ([.fbo] : List Part), p ∈ L) (h : keeps L o s) : keeps L o (fboCopy n s) :=
  keeps_forEach _ (fun _ _ h => keeps_ite _ (keeps_fbo _ (within hL rfl) h) h) h

theorem fbSettled_keeps (n t : Nat) (hL : ∀ p ∈ ([.now] : List Part), p ∈ L) (h : keeps L o s) : keeps L o (fbSettled s n t) :=
  advance_keeps _ (within hL rfl) h

theorem fbLevels_keeps (n : Fin 16) (a b z : Bool)
    (hL : ∀ p ∈ ([.fb, .fbo] : List Part), p ∈ L) (h : keeps L o s) : keeps L o (fbLevels n a b z s) :=
  fboCopy_keeps _ (within hL rfl) (setFb_keeps _ _ (within hL rfl) h)

theorem fbRise_keeps (n : Fin 16) (b : Bool) (t held : Nat)
    (hL : ∀ p ∈ ([.now, .fb, .fbo] : List Part), p ∈ L) (h : keeps L o s) : keeps L o (fbRise n b t held s).2 := by
  unfold fbRise
  extract_lets s1 _
  have hs1 : keeps L o s1 := fbLevels_keeps _ _ _ _ (within hL rfl) h
  refine keeps_ite_snd _ (fbSettled_keeps _ _ (within hL rfl) (setFb_keeps _ _ (within hL rfl) hs1)) ?_
  exact hs1

theorem ghFault31_keeps (n : Nat)
    (hL : ∀ p ∈ ([.sys, .regs, .held, .pg, .bv, .lk, .pr, .gh, .pc] : List Part), p ∈ L) (h : keeps L o s) : keeps L o (ghFault31 n s) :=
  keeps_ite _ (keeps_forEach _ (fun _ _ h => takeReact_keeps _ _ _ _ (within hL rfl) h) (ghRecord_keeps _ _ _ (within hL rfl) h)) h

theorem fbFault_keeps (n : Fin 16)
    (hL : ∀ p ∈ ([.sys, .regs, .held, .pg, .sd, .fb, .bv, .lk, .pr, .gh, .pc] : List Part), p ∈ L) (h : keeps L o s) : keeps L o (fbFault n s) :=
  ghFault31_keeps _ (within hL rfl) (raiseEvent_keeps _ (within hL rfl) (disarmChannel_keeps _ (within hL rfl) (putBit_keeps _ _ _ (within hL rfl) (setFb_keeps _ _ (within hL rfl) h))))

theorem fbWarn_keeps (n : Fin 16) (hL : ∀ p ∈ ([.regs, .held, .pg, .bv, .pc] : List Part), p ∈ L) (h : keeps L o s) : keeps L o (fbWarn n s) :=
  raiseEvent_keeps _ (within hL rfl) (count_keeps _ (within hL rfl) (putBit_keeps _ _ _ (within hL rfl) h))

theorem fbFree_keeps (n : Fin 16) (t : Nat) (hL : ∀ p ∈ ([.freeCtr] : List Part), p ∈ L) (h : keeps L o s) : keeps L o (fbFree n t s).2 := by
  unfold fbFree
  split
  · split
    rename_i s1 e
    have hs1 : keeps L o s1 := keeps_of_snd e (freeNat_keeps (within hL rfl) h)
    exact hs1
  · exact h

theorem fbCount_keeps (n : Fin 16) (k : Nat) (down : Bool) (t : Nat) (free : Option Nat)
    (hL : ∀ p ∈ ([.regs, .held, .sd, .fb] : List Part), p ∈ L) (h : keeps L o s) : keeps L o (fbCount n k down t free s) := by
  unfold fbCount
  extract_lets _ s1 _ _ _ _
  have hs1 : keeps L o s1 := keeps_whenB _ (fun _ h => putBit_keeps _ _ _ (within hL rfl) h) h
  split
  extract_lets s2 _ _
  have hs2 : keeps L o s2 := keeps_whenB _ (fun _ h => putBit_keeps _ _ _ (within hL rfl) h) hs1
  split
  · exact keeps_whenB _ (fun _ h => sdEdge_keeps _ _ _ _ _ _ (within hL rfl) h) (setFb_keeps _ _ (within hL rfl) hs2)
  · exact sdWithdraw_keeps _ (within hL rfl) (setFb_keeps _ _ (within hL rfl) hs2)
  · exact keeps_whenB _ (fun _ h => sdEdge_keeps _ _ _ _ _ _ (within hL rfl) h) (putBit_keeps _ _ _ (within hL rfl) (setFb_keeps _ _ (within hL rfl) hs2))
  · exact setFb_keeps _ _ (within hL rfl) hs2

theorem fbSeat_keeps (n : Fin 16) (v : Int)
    (hL : ∀ p ∈ ([.regs, .held, .sd, .fb] : List Part), p ∈ L) (h : keeps L o s) : keeps L o (fbSeat n v s) :=
  keeps_whenB _ (fun _ h => sdReference_keeps _ _ (within hL rfl) h) (setFb_keeps _ _ (within hL rfl) (putBit_keeps _ _ _ (within hL rfl) h))

theorem fbCheck_keeps (n : Fin 16) (down : Bool) (adj nominal : Int)
    (hL : ∀ p ∈ ([.sys, .regs, .held, .pg, .sd, .fb, .bv, .lk, .pr, .gh, .pc] : List Part), p ∈ L)
    (h : keeps L o s) : keeps L o (fbCheck n down adj nominal s) := by
  unfold fbCheck
  extract_lets _ _ s1 _
  have hs1 : keeps L o s1 := putWord_keeps _ _ (within hL rfl) h
  exact keeps_ite _ (putBit_keeps _ _ _ (within hL rfl) hs1) (keeps_ite _ (setFb_keeps _ _ (within hL rfl) hs1) (keeps_whenB _ (fun _ h => fbFault_keeps _ (within hL rfl) h) (fbWarn_keeps _ (within hL rfl) (setFb_keeps _ _ (within hL rfl) hs1))))

theorem fbLater_keeps (n : Fin 16) (byPos down : Bool) (adj nominal : Int)
    (hL : ∀ p ∈ ([.sys, .regs, .held, .pg, .sd, .fb, .bv, .lk, .pr, .gh, .pc] : List Part), p ∈ L)
    (h : keeps L o s) : keeps L o (fbLater n byPos down adj nominal s) :=
  keeps_whenB _ (fun _ h => sdReference_keeps _ _ (within hL rfl) h) (setFb_keeps _ _ (within hL rfl) (keeps_ite _ (putBit_keeps _ _ _ (within hL rfl) (putBit_keeps _ _ _ (within hL rfl) h)) (fbCheck_keeps _ _ _ _ (within hL rfl) h)))

theorem fbReference_keeps (n : Fin 16) (byPos down : Bool) (v adj nominal : Int)
    (hL : ∀ p ∈ ([.sys, .regs, .held, .pg, .sd, .fb, .bv, .lk, .pr, .gh, .pc] : List Part), p ∈ L)
    (h : keeps L o s) : keeps L o (fbReference n byPos down v adj nominal s) :=
  keeps_ite _ (fbLater_keeps _ _ _ _ _ (within hL rfl) h) (fbSeat_keeps _ _ (within hL rfl) h)

theorem quadEdge_keeps (n : Fin 16) (a b : Bool) (t held : Nat)
    (hL : ∀ p ∈ ([.now, .freeCtr, .sys, .regs, .held, .pg, .sd, .fb, .fbo, .bv, .lk, .pr, .gh, .pc] : List Part), p ∈ L)
    (h : keeps L o s) : keeps L o (quadEdge n a b t held s) := by
  unfold quadEdge
  extract_lets _ s1 _ _ _ _ s2 s3 _
  have hs1 : keeps L o s1 := fbLevels_keeps _ _ _ _ (within hL rfl) h
  have hs2 : keeps L o s2 := setFb_keeps _ _ (within hL rfl) hs1
  have hs3 : keeps L o s3 := fbSettled_keeps _ _ (within hL rfl) hs2
  exact keeps_ite _ hs2 (keeps_ite _ (fbFault_keeps _ (within hL rfl) (count_keeps _ (within hL rfl) (putBit_keeps _ _ _ (within hL rfl) hs3))) (fbCount_keeps _ _ _ _ _ (within hL rfl) (fbFree_keeps _ _ (within hL rfl) hs3)))

theorem pulseStep_keeps (n : Fin 16) (b stable : Bool) (t held : Nat)
    (hL : ∀ p ∈ ([.now, .freeCtr, .regs, .held, .sd, .fb, .fbo] : List Part), p ∈ L)
    (h : keeps L o s) : keeps L o (pulseStep n b stable t held s) := by
  unfold pulseStep
  split
  rename_i s1 e
  have hs1 : keeps L o s1 := keeps_of_snd e (fbRise_keeps _ _ _ _ (within hL rfl) h)
  exact keeps_ite _ hs1 (fbCount_keeps _ _ _ _ _ (within hL rfl) (fbFree_keeps _ _ (within hL rfl) (keeps_ite _ hs1 (count_keeps _ (within hL rfl) (putBit_keeps _ _ _ (within hL rfl) hs1)))))

theorem toothEdge_keeps (n : Fin 16) (b : Bool) (t held : Nat)
    (hL : ∀ p ∈ ([.now, .freeCtr, .sys, .regs, .held, .pg, .sd, .fb, .fbo, .bv, .lk, .pr, .gh, .pc] : List Part), p ∈ L)
    (h : keeps L o s) : keeps L o (toothEdge n b t held s) := by
  unfold toothEdge
  extract_lets _
  split
  rename_i s1 e
  have hs1 : keeps L o s1 := keeps_of_snd e (fbRise_keeps _ _ _ _ (within hL rfl) h)
  refine keeps_ite _ hs1 ?_
  split
  rename_i s2 e
  have hs2 : keeps L o s2 := keeps_of_snd e (fbFree_keeps _ _ (within hL rfl) hs1)
  extract_lets _ _ _ _ _ _ _ s3 _ s4 s5 _ s6
  have hs3 : keeps L o s3 := fbCount_keeps _ _ _ _ _ (within hL rfl) (setFb_keeps _ _ (within hL rfl) hs2)
  have hs4 : keeps L o s4 := setFb_keeps _ _ (within hL rfl) (fbCount_keeps _ _ _ _ _ (within hL rfl) hs2)
  have hs5 : keeps L o s5 := setFb_keeps _ _ (within hL rfl) hs2
  have hs6 : keeps L o s6 := setFb_keeps _ _ (within hL rfl) hs5
  exact keeps_ite _ (keeps_ite _ (setFb_keeps _ _ (within hL rfl) hs3) hs3) (keeps_ite _ (fbReference_keeps _ _ _ _ _ _ (within hL rfl) hs4) (fbReference_keeps _ _ _ _ _ _ (within hL rfl) hs6))

theorem zIndex_keeps (n : Fin 16) (z : Bool) (t held : Nat)
    (hL : ∀ p ∈ ([.now, .sys, .regs, .held, .pg, .sd, .fb, .fbo, .bv, .lk, .pr, .gh, .pc] : List Part), p ∈ L)
    (h : keeps L o s) : keeps L o (zIndex n z t held s) := by
  unfold zIndex
  extract_lets _ s1 _ _ _ s2 s3 s4
  have hs1 : keeps L o s1 := fbLevels_keeps _ _ _ _ (within hL rfl) h
  have hs2 : keeps L o s2 := keeps_ite _ (setFb_keeps _ _ (within hL rfl) hs1) hs1
  have hs3 : keeps L o s3 := fbSettled_keeps _ _ (within hL rfl) hs2
  have hs4 : keeps L o s4 := putPair_keeps _ _ (within hL rfl) hs3
  exact keeps_ite _ hs2 (keeps_ite _ (fbReference_keeps _ _ _ _ _ _ (within hL rfl) hs4) hs4)

theorem ssiError_keeps (n : Fin 16)
    (hL : ∀ p ∈ ([.sys, .regs, .held, .pg, .sd, .fb, .bv, .lk, .pr, .gh, .pc] : List Part), p ∈ L) (h : keeps L o s) : keeps L o (ssiError n s) :=
  keeps_whenB _ (fun _ h => fbFault_keeps _ (within hL rfl) h) (count_keeps _ (within hL rfl) (putBit_keeps _ _ _ (within hL rfl) (setFb_keeps _ _ (within hL rfl) h)))

theorem ssiFrame.sdWithdrawPer_keeps (ch : Nat) (hL : ∀ p ∈ ([.sd] : List Part), p ∈ L) (h : keeps L o s) :
    keeps L o (ssiFrame.sdWithdrawPer ch s) := keeps_forEach _ (fun _ _ h => setTb_keeps _ _ (within hL rfl) h) h

theorem ssiFrame_keeps (n : Fin 16) (lowAtCi start tailHigh clkBad : Bool) (v : BitVec 32)
    (hL : ∀ p ∈ ([.sys, .regs, .held, .pg, .sd, .fb, .bv, .lk, .pr, .gh, .pc] : List Part), p ∈ L)
    (h : keeps L o s) : keeps L o (ssiFrame n lowAtCi start tailHigh clkBad v s) := by
  unfold ssiFrame
  extract_lets _ _ _ _ _ _ _ _ _ _ s1
  have hs1 : keeps L o s1 := keeps_whenB _ (fun _ h => putBit_keeps _ _ _ (within hL rfl) h) (keeps_ite _ (setFb_keeps _ _ (within hL rfl) h) (putBit_keeps _ _ _ (within hL rfl) (setFb_keeps _ _ (within hL rfl) h)))
  exact keeps_ite _ h (keeps_ite _ (ssiError_keeps _ (within hL rfl) h) (keeps_whenB _ (fun _ h => ssiFrame.sdWithdrawPer_keeps _ (within hL rfl) (sdEdge_keeps _ _ _ _ _ _ (within hL rfl) h)) hs1))

theorem mainsCross_keeps (n : Fin 16) (t held : Nat)
    (hL : ∀ p ∈ ([.now, .regs, .held, .sd, .fb, .fbo] : List Part), p ∈ L) (h : keeps L o s) : keeps L o (mainsCross n t held s) := by
  unfold mainsCross
  extract_lets _
  split
  rename_i s1 e
  have hs1 : keeps L o s1 := keeps_of_snd e (fbRise_keeps _ _ _ _ (within hL rfl) h)
  exact keeps_ite _ hs1 (sdEdge_keeps _ _ _ _ _ _ (within hL rfl) (putBit_keeps _ _ _ (within hL rfl) (putBit_keeps _ _ _ (within hL rfl) (keeps_whenB _ (fun _ h => putBit_keeps _ _ _ (within hL rfl) h) (setFb_keeps _ _ (within hL rfl) hs1)))))

theorem phaseLost_keeps (n : Fin 16) (hL : ∀ p ∈ ([.regs, .held, .fb] : List Part), p ∈ L) (h : keeps L o s) : keeps L o (phaseLost n s) :=
  keeps_ite _ h (putBit_keeps _ _ _ (within hL rfl) (setFb_keeps _ _ (within hL rfl) h))

theorem fbUnseat_keeps (n : Fin 16) (hL : ∀ p ∈ ([.regs, .held, .sd] : List Part), p ∈ L) (h : keeps L o s) : keeps L o (fbUnseat n s) :=
  disarmChannel_keeps _ (within hL rfl) (putBit_keeps _ _ _ (within hL rfl) h)

theorem fbAck_keeps (n : Fin 16) (hL : ∀ p ∈ ([.regs, .held, .sd, .fb] : List Part), p ∈ L) (h : keeps L o s) : keeps L o (fbAck n s) := by
  unfold fbAck
  extract_lets _ s1
  have hs1 : keeps L o s1 := putBit_keeps _ _ _ (within hL rfl) (putBit_keeps _ _ _ (within hL rfl) (setFb_keeps _ _ (within hL rfl) h))
  exact keeps_ite _ hs1 (fbUnseat_keeps _ (within hL rfl) hs1)

theorem fbCtrl_keeps (n : Fin 16) (v : Word)
    (hL : ∀ p ∈ ([.regs, .held, .sd, .fb] : List Part), p ∈ L) (h : keeps L o s) : keeps L o (fbCtrl n v s) :=
  keeps_whenB _ (fun _ h => fbUnseat_keeps _ (within hL rfl) h) (keeps_whenB _ (fun _ h => fbAck_keeps _ (within hL rfl) h) h)

theorem fbConfigTaken_keeps (n : Fin 16) (cfg cfg' ref ref' teeth teeth' : Word)
    (hL : ∀ p ∈ ([.regs, .held, .sd, .fb] : List Part), p ∈ L) (h : keeps L o s) : keeps L o (fbConfigTaken n cfg cfg' ref ref' teeth teeth' s) :=
  keeps_ite _ (fbUnseat_keeps _ (within hL rfl) (setFb_keeps _ _ (within hL rfl) h)) (keeps_ite _ (setFb_keeps _ _ (within hL rfl) h) h)

theorem leaveConfig_keeps (hL : ∀ p ∈ ([.fb] : List Part), p ∈ L) (h : keeps L o s) : keeps L o (leaveConfig s) :=
  keeps_forEach _ (fun _ _ h => setFb_keeps _ _ (within hL rfl) h) h

theorem markCut_keeps (o' : Nat) (cut : Bool)
    (hL : ∀ p ∈ ([.regs, .held] : List Part), p ∈ L) (h : keeps L o s) : keeps L o (markCut o' cut s) :=
  keeps_whenB _ (fun _ h => putBit_keeps _ _ _ (within hL rfl) h) h

theorem putMoved_keeps (o' : Nat) (r : Profile × Bool × Bool)
    (hL : ∀ p ∈ ([.regs, .held, .mo] : List Part), p ∈ L) (h : keeps L o s) : keeps L o (putMoved o' r s) :=
  markCut_keeps _ _ (within hL rfl) (keeps_whenB _ (fun _ h => putBit_keeps _ _ _ (within hL rfl) h) (setProf_keeps _ _ (within hL rfl) h))

theorem stepObj_keeps (o' : Nat) (hL : ∀ p ∈ ([.regs, .held, .mo] : List Part), p ∈ L) (h : keeps L o s) : keeps L o (stepObj o' s) :=
  putMoved_keeps _ _ (within hL rfl) h

theorem setWeights_keeps (hL : ∀ p ∈ ([.mo] : List Part), p ∈ L) (h : keeps L o s) : keeps L o (setWeights s) :=
  keeps_mo _ (within hL rfl) h

theorem noteStopped_keeps (o' : Nat) (hL : ∀ p ∈ ([.mo] : List Part), p ∈ L) (h : keeps L o s) : keeps L o (noteStopped o' s) :=
  keeps_ite _ h (keeps_mo _ (within hL rfl) h)

theorem stopObj_keeps (o' k : Nat) (hold : Bool)
    (hL : ∀ p ∈ ([.regs, .held, .mo] : List Part), p ∈ L) (h : keeps L o s) : keeps L o (stopObj o' k hold s) := by
  unfold stopObj
  extract_lets _ _ s1 _
  have hs1 : keeps L o s1 := noteStopped_keeps _ (within hL rfl) h
  exact keeps_ite _ h (keeps_ite _ (keeps_ite _ (setProf_keeps _ _ (within hL rfl) hs1) hs1) (markCut_keeps _ _ (within hL rfl) (setProf_keeps _ _ (within hL rfl) hs1)))

theorem safetyStops_keeps (g : Fin 4) (hL : ∀ p ∈ ([.regs, .held, .mo] : List Part), p ∈ L) (h : keeps L o s) : keeps L o (safetyStops g s) :=
  keeps_forEach _ (fun _ _ h => stopObj_keeps _ _ _ (within hL rfl) h) h

theorem heldAtActual_keeps (o' : Nat) (hL : ∀ p ∈ ([.mo] : List Part), p ∈ L) (h : keeps L o s) : keeps L o (heldAtActual o' s) :=
  setProf_keeps _ _ (within hL rfl) (keeps_ite _ h (noteStopped_keeps _ (within hL rfl) h))

theorem standstillIn_keeps (o' : Nat)
    (hL : ∀ p ∈ ([.regs, .held, .mo] : List Part), p ∈ L) (h : keeps L o s) : keeps L o (standstillIn o' s) :=
  keeps_ite _ (keeps_ite _ (keeps_mo _ (within hL rfl) (putBit_keeps _ _ _ (within hL rfl) h)) (putBit_keeps _ _ _ (within hL rfl) h)) h

theorem standstillOut_keeps (o' : Nat)
    (hL : ∀ p ∈ ([.regs, .held, .mem] : List Part), p ∈ L) (h : keeps L o s) : keeps L o (standstillOut o' s) := by
  unfold standstillOut
  extract_lets s1
  have hs1 : keeps L o s1 := putBit_keeps _ _ _ (within hL rfl) h
  split
  · exact mramSet_keeps _ _ (within hL rfl) hs1
  · exact hs1

theorem segmentCheck_keeps (a : Nat)
    (hL : ∀ p ∈ ([.regs, .held, .mem, .mo] : List Part), p ∈ L) (h : keeps L o s) : keeps L o (segmentCheck a s) :=
  keeps_ite _ (keeps_ite _ h (standstillIn_keeps _ (within hL rfl) h)) (keeps_ite _ (standstillOut_keeps _ (within hL rfl) h) h)

theorem segmentChecks_keeps (hL : ∀ p ∈ ([.regs, .held, .mem, .mo] : List Part), p ∈ L) (h : keeps L o s) : keeps L o (segmentChecks s) :=
  keeps_forEach _ (fun _ _ h => segmentCheck_keeps _ (within hL rfl) h) h

theorem standstillChecks_keeps
    (hL : ∀ p ∈ ([.regs, .held, .mem, .mo] : List Part), p ∈ L) (h : keeps L o s) : keeps L o (standstillChecks s) :=
  segmentChecks_keeps (within hL rfl) (keeps_forEach _ (fun _ _ h => standstillOut_keeps _ (within hL rfl) h) h)

theorem writeSlot_keeps (o' : Nat) (angle : Word)
    (hL : ∀ p ∈ ([.regs, .held, .mem, .pg, .mo, .bv, .pc] : List Part), p ∈ L) (h : keeps L o s) : keeps L o (writeSlot o' angle s) :=
  pcSys_keeps _ _ (within hL rfl) (keeps_mo _ (within hL rfl) (mramPutAll_keeps _ _ (within hL rfl) h))

theorem takeStore_keeps (x : StillStore) (angle : Word) (ok : Bool)
    (hL : ∀ p ∈ ([.regs, .held, .mem, .pg, .mo, .bv, .pc] : List Part), p ∈ L) (h : keeps L o s) : keeps L o (takeStore x angle ok s) :=
  keeps_ite _ (writeSlot_keeps _ _ (within hL rfl) (keeps_mo _ (within hL rfl) h)) (raiseEvent_keeps _ (within hL rfl) (putBit_keeps _ _ _ (within hL rfl) (keeps_mo _ (within hL rfl) h)))

theorem standstillStore_keeps (o' : Nat) (ok : Bool)
    (hL : ∀ p ∈ ([.regs, .held, .mem, .pg, .mo, .bv, .pc] : List Part), p ∈ L) (h : keeps L o s) : keeps L o (standstillStore o' ok s) := by
  unfold standstillStore
  split
  · exact h
  · exact takeStore_keeps _ _ _ (within hL rfl) h

theorem flushStore_keeps (x : StillStore)
    (hL : ∀ p ∈ ([.freeCtr, .regs, .held, .mem, .pg, .mo, .bv, .pc] : List Part), p ∈ L) (h : keeps L o s) : keeps L o (flushStore x s) :=
  keeps_ite _ (takeStore_keeps _ _ _ (within hL rfl) (freeNat_keeps (within hL rfl) h)) (takeStore_keeps _ _ _ (within hL rfl) h)

theorem restoreStandstill_keeps
    (hL : ∀ p ∈ ([.regs, .held, .mo, .sv, .lk] : List Part), p ∈ L) (h : keeps L o s) : keeps L o (restoreStandstill s) := by
  unfold restoreStandstill
  refine keeps_upTo _ (fun _ _ h => ?_) h
  extract_lets _
  split
  · exact h
  · exact keeps_ite _ (keeps_lk _ (within hL rfl) (putBit_keeps _ _ _ (within hL rfl) (setLoop_keeps _ _ (within hL rfl) (keeps_mo _ (within hL rfl) h)))) (keeps_mo _ (within hL rfl) h)

theorem treatReturned_keeps (a ret : Nat)
    (hL : ∀ p ∈ ([.sys, .regs, .held, .pg, .mo, .bv, .lk, .pr, .gh, .pc] : List Part), p ∈ L)
    (h : keeps L o s) : keeps L o (treatReturned a ret s) := by
  unfold treatReturned
  extract_lets _ _ _
  refine keeps_ite _ h ?_
  refine keeps_ite _ (keeps_mo _ (within hL rfl) h) ?_
  exact keeps_ite _ (keeps_mo _ (within hL rfl) h) (keeps_ite _ (keeps_mo _ (within hL rfl) h) (keeps_ite _ h (keeps_ite _ (ghFault_keeps _ _ _ (within hL rfl) (putBit_keeps _ _ _ (within hL rfl) (keeps_mo _ (within hL rfl) h))) (keeps_mo _ (within hL rfl) h))))

theorem mpRefuse_keeps (o' : Nat) (hL : ∀ p ∈ ([.regs, .held] : List Part), p ∈ L) (h : keeps L o s) : keeps L o (mpRefuse o' s) :=
  putBit_keeps _ _ _ (within hL rfl) h

theorem doMove_keeps (o' : Nat) (P : Int)
    (hL : ∀ p ∈ ([.regs, .held, .mo] : List Part), p ∈ L) (h : keeps L o s) : keeps L o (doMove o' P s) :=
  putMoved_keeps _ _ (within hL rfl) h

theorem doSpeed_keeps (o' : Nat) (hL : ∀ p ∈ ([.mo] : List Part), p ∈ L) (h : keeps L o s) : keeps L o (doSpeed o' s) :=
  setProf_keeps _ _ (within hL rfl) h

theorem doFollow_keeps (o' : Nat) (hL : ∀ p ∈ ([.regs, .held, .mo] : List Part), p ∈ L) (h : keeps L o s) : keeps L o (doFollow o' s) :=
  setProf_keeps _ _ (within hL rfl) (keeps_ite _ (putPair_keeps _ _ (within hL rfl) h) h)

theorem noLanding_keeps (o' : Nat) (hL : ∀ p ∈ ([.regs, .held, .mo] : List Part), p ∈ L) (h : keeps L o s) : keeps L o (noLanding o' s) :=
  putBit_keeps _ _ _ (within hL rfl) (stopObj_keeps _ _ _ (within hL rfl) h)

theorem doCommand_keeps (o' code : Nat)
    (hL : ∀ p ∈ ([.regs, .held, .mo] : List Part), p ∈ L) (h : keeps L o s) : keeps L o (doCommand o' code s) := by
  unfold doCommand
  refine keeps_ite _ (doMove_keeps _ _ (within hL rfl) h) ?_
  refine keeps_ite _ (doSpeed_keeps _ (within hL rfl) h) ?_
  refine keeps_ite _ (doFollow_keeps _ (within hL rfl) h) ?_
  split
  · split
    · exact doMove_keeps _ _ (within hL rfl) h
    · exact noLanding_keeps _ (within hL rfl) h
  · exact h

theorem setTreatments_keeps (hL : ∀ p ∈ ([.mo] : List Part), p ∈ L) (h : keeps L o s) : keeps L o (setTreatments s) :=
  keeps_forEach _ (fun _ _ h => keeps_ite _ h (keeps_mo _ (within hL rfl) h)) h

theorem runCommand_keeps (o' code : Nat)
    (hL : ∀ p ∈ ([.regs, .held, .mo] : List Part), p ∈ L) (h : keeps L o s) : keeps L o (runCommand o' code s) :=
  keeps_ite _ (doCommand_keeps _ _ (within hL rfl) h) (setProf_keeps _ _ (within hL rfl) (keeps_forEach _ (fun _ _ h => keeps_mo _ (within hL rfl) h) h))

theorem confirmWait_keeps (o' : Nat) (hL : ∀ p ∈ ([.regs, .held, .mo] : List Part), p ∈ L) (h : keeps L o s) : keeps L o (confirmWait o' s) :=
  keeps_ite _ (stepObj_keeps _ (within hL rfl) (doCommand_keeps _ _ (within hL rfl) (setProf_keeps _ _ (within hL rfl) h))) h

theorem withdrawalTimeout_keeps (o' : Nat)
    (hL : ∀ p ∈ ([.regs, .held, .mo] : List Part), p ∈ L) (h : keeps L o s) : keeps L o (withdrawalTimeout o' s) :=
  keeps_ite _ (putBit_keeps _ _ _ (within hL rfl) (mpRefuse_keeps _ (within hL rfl) (setProf_keeps _ _ (within hL rfl) h))) h

theorem moveCmd_keeps (o' : Nat) (hL : ∀ p ∈ ([.regs, .held, .mo] : List Part), p ∈ L) (h : keeps L o s) : keeps L o (moveCmd o' s) :=
  keeps_ite _ (runCommand_keeps _ _ (within hL rfl) h) (mpRefuse_keeps _ (within hL rfl) h)

theorem speedCmd_keeps (o' : Nat) (hL : ∀ p ∈ ([.regs, .held, .mo] : List Part), p ∈ L) (h : keeps L o s) : keeps L o (speedCmd o' s) :=
  keeps_ite _ (runCommand_keeps _ _ (within hL rfl) h) (mpRefuse_keeps _ (within hL rfl) h)

theorem followCmd_keeps (o' : Nat) (hL : ∀ p ∈ ([.regs, .held, .mo] : List Part), p ∈ L) (h : keeps L o s) : keeps L o (followCmd o' s) :=
  keeps_ite _ (runCommand_keeps _ _ (within hL rfl) h) (mpRefuse_keeps _ (within hL rfl) h)

theorem stopCmd_keeps (o' k : Nat) (hL : ∀ p ∈ ([.regs, .held, .mo] : List Part), p ∈ L) (h : keeps L o s) : keeps L o (stopCmd o' k s) :=
  keeps_ite _ (stopObj_keeps _ _ _ (within hL rfl) h) (mpRefuse_keeps _ (within hL rfl) h)

theorem landObj_keeps (o' : Nat) (hL : ∀ p ∈ ([.regs, .held, .mo] : List Part), p ∈ L) (h : keeps L o s) : keeps L o (landObj o' s) :=
  keeps_ite _ (noLanding_keeps _ (within hL rfl) h) (keeps_ite _ h (runCommand_keeps _ _ (within hL rfl) h))

theorem landingCmd_keeps (o' : Nat) (hL : ∀ p ∈ ([.regs, .held, .mo] : List Part), p ∈ L) (h : keeps L o s) : keeps L o (landingCmd o' s) :=
  keeps_ite _ (landObj_keeps _ (within hL rfl) h) (mpRefuse_keeps _ (within hL rfl) h)

theorem ackCmd_keeps (o' : Nat) (hL : ∀ p ∈ ([.regs, .held, .mo] : List Part), p ∈ L) (h : keeps L o s) : keeps L o (ackCmd o' s) :=
  keeps_ite _ (setProf_keeps _ _ (within hL rfl) h) (mpRefuse_keeps _ (within hL rfl) h)

theorem mpCommand_keeps (o' code : Nat)
    (hL : ∀ p ∈ ([.regs, .held, .mo] : List Part), p ∈ L) (h : keeps L o s) : keeps L o (mpCommand o' code s) := by
  unfold mpCommand
  refine keeps_ite _ (moveCmd_keeps _ (within hL rfl) h) ?_
  refine keeps_ite _ (speedCmd_keeps _ (within hL rfl) h) ?_
  refine keeps_ite _ (followCmd_keeps _ (within hL rfl) h) ?_
  exact keeps_ite _ (stopCmd_keeps _ _ (within hL rfl) h) (keeps_ite _ (stopCmd_keeps _ _ (within hL rfl) h) (keeps_ite _ (landingCmd_keeps _ (within hL rfl) h) (keeps_ite _ (ackCmd_keeps _ (within hL rfl) h) (mpRefuse_keeps _ (within hL rfl) h))))

theorem forcedLanding_keeps (o' : Nat)
    (hL : ∀ p ∈ ([.regs, .held, .mo] : List Part), p ∈ L) (h : keeps L o s) : keeps L o (forcedLanding o' s) :=
  keeps_ite _ (keeps_ite _ (noLanding_keeps _ (within hL rfl) h) (keeps_ite _ (landObj_keeps _ (within hL rfl) h) (stopObj_keeps _ _ _ (within hL rfl) h))) h

theorem landAll_keeps (hL : ∀ p ∈ ([.regs, .held, .mo] : List Part), p ∈ L) (h : keeps L o s) : keeps L o (landAll s) :=
  keeps_forEach _ (fun _ _ h => keeps_ite _ (forcedLanding_keeps _ (within hL rfl) h) (keeps_ite _ h (stopObj_keeps _ _ _ (within hL rfl) h))) h

theorem followFaults_keeps (hL : ∀ p ∈ ([.regs, .held, .mo] : List Part), p ∈ L) (h : keeps L o s) : keeps L o (followFaults s) :=
  keeps_forEach _ (fun _ _ h => stopObj_keeps _ _ _ (within hL rfl) (putBit_keeps _ _ _ (within hL rfl) h)) h

theorem applyCaps_keeps (hL : ∀ p ∈ ([.regs, .held, .mo] : List Part), p ∈ L) (h : keeps L o s) : keeps L o (applyCaps s) :=
  keeps_forEach _ (fun _ _ h => putMoved_keeps _ _ (within hL rfl) h) h

theorem stepProfiles_keeps (hL : ∀ p ∈ ([.regs, .held, .mo] : List Part), p ∈ L) (h : keeps L o s) : keeps L o (stepProfiles s) :=
  setWeights_keeps (within hL rfl) (keeps_forEach _ (fun _ _ h => keeps_ite _ (heldAtActual_keeps _ (within hL rfl) h) (stepObj_keeps _ (within hL rfl) h)) h)

theorem followAll_keeps (hL : ∀ p ∈ ([.mo] : List Part), p ∈ L) (h : keeps L o s) : keeps L o (followAll s) :=
  setWeights_keeps (within hL rfl) (keeps_forEach _ (fun _ _ h => setProf_keeps _ _ (within hL rfl) h) h)

theorem freshProfiles_keeps (hL : ∀ p ∈ ([.mo] : List Part), p ∈ L) (h : keeps L o s) : keeps L o (freshProfiles s) :=
  keeps_forEach _ (fun _ _ h => setProf_keeps _ _ (within hL rfl) h) h

theorem startAt_keeps (o' : Nat) (p : Int) (hL : ∀ p ∈ ([.mo] : List Part), p ∈ L) (h : keeps L o s) : keeps L o (startAt o' p s) :=
  keeps_ite _ (setProf_keeps _ _ (within hL rfl) h) h

theorem handoverFault_keeps (m : Nat)
    (hL : ∀ p ∈ ([.regs, .held, .mo] : List Part), p ∈ L) (h : keeps L o s) : keeps L o (handoverFault m s) :=
  stopObj_keeps _ _ _ (within hL rfl) (putBit_keeps _ _ _ (within hL rfl) h)

theorem restoreTable_keeps (t : Nat) (hL : ∀ p ∈ ([.regs] : List Part), p ∈ L) (h : keeps L o s) : keeps L o (restoreTable t s) :=
  keeps_upTo _ (fun _ _ h => regSet_keeps _ _ (within hL rfl) h) h

theorem commitTable_keeps (t : Nat) (hL : ∀ p ∈ ([.regs, .held, .mo] : List Part), p ∈ L) (h : keeps L o s) : keeps L o (commitTable t s) :=
  keeps_ite _ (keeps_mo _ (within hL rfl) h) (putBit_keeps _ _ _ (within hL rfl) (restoreTable_keeps _ (within hL rfl) h))

theorem askTable_keeps (t : Nat) (hL : ∀ p ∈ ([.mo] : List Part), p ∈ L) (h : keeps L o s) : keeps L o (askTable t s) :=
  keeps_ite _ h (keeps_mo _ (within hL rfl) h)

theorem ss1Brakes_keeps (hL : ∀ p ∈ ([.regs, .held, .bv, .gh] : List Part), p ∈ L) (h : keeps L o s) : keeps L o (ss1Brakes s) :=
  keeps_forEach _ (fun _ _ h => keeps_ite _ (forceBrakes_keeps _ (within hL rfl) (setGroup_keeps _ _ (within hL rfl) h)) h) h

theorem l4Sto_keeps (hL : ∀ p ∈ ([.regs, .held, .pg, .bv, .gh, .ph, .pc] : List Part), p ∈ L) (h : keeps L o s) : keeps L o (l4Sto s) :=
  keeps_ite _ (maskDemand_keeps _ _ _ (within hL rfl) (keeps_ph _ (within hL rfl) h)) h

theorem afterStill_keeps
    (hL : ∀ p ∈ ([.regs, .held, .pg, .bv, .gh, .ph, .pc] : List Part), p ∈ L) (h : keeps L o s) : keeps L o (afterStill s) :=
  l4Sto_keeps (within hL rfl) (ss1Brakes_keeps (within hL rfl) h)

theorem setCheck_keeps (c : Nat) (x : Check) (hL : ∀ p ∈ ([.gh] : List Part), p ∈ L) (h : keeps L o s) : keeps L o (setCheck c x s) :=
  keeps_gh _ (within hL rfl) h

theorem ckSample_keeps (sub : Bool) (c : Nat) (x : Int)
    (hL : ∀ p ∈ ([.freeCtr, .sys, .regs, .held, .pg, .bv, .lk, .pr, .gh, .pc] : List Part), p ∈ L)
    (h : keeps L o s) : keeps L o (ckSample sub c x s) := by
  unfold ckSample
  refine keeps_ite _ h ?_
  split
  rename_i s1 e
  have hs1 : keeps L o s1 := keeps_of_snd e (freeNat_keeps (within hL rfl) h)
  extract_lets _ _ _ _ _ _ _ s2
  have hs2 : keeps L o s2 := putBit_keeps _ _ _ (within hL rfl) (putBit_keeps _ _ _ (within hL rfl) (putBit_keeps _ _ _ (within hL rfl) (setCheck_keeps _ _ (within hL rfl) hs1)))
  exact keeps_ite _ (ghFaultBy_keeps _ _ _ _ (within hL rfl) (raiseEvent_keeps _ (within hL rfl) (putBit_keeps _ _ _ (within hL rfl) hs2))) hs2

theorem ckFeed_keeps (sub : Bool) (kind src : Nat) (x : Int)
    (hL : ∀ p ∈ ([.freeCtr, .sys, .regs, .held, .pg, .bv, .lk, .pr, .gh, .pc] : List Part), p ∈ L)
    (h : keeps L o s) : keeps L o (ckFeed sub kind src x s) :=
  keeps_forEach _ (fun _ _ h => ckSample_keeps _ _ _ (within hL rfl) h) h

theorem ckRestart_keeps (c : Nat) (hL : ∀ p ∈ ([.regs, .held, .gh] : List Part), p ∈ L) (h : keeps L o s) : keeps L o (ckRestart c s) :=
  putFld_keeps _ _ _ _ (within hL rfl) (putBit_keeps _ _ _ (within hL rfl) (setCheck_keeps _ _ (within hL rfl) h))

theorem ckFirstUse_keeps (o' : Nat) (hL : ∀ p ∈ ([.gh] : List Part), p ∈ L) (h : keeps L o s) : keeps L o (ckFirstUse o' s) :=
  keeps_forEach _ (fun _ _ h => setCheck_keeps _ _ (within hL rfl) h) h

theorem setGen_keeps (g : Fin 2) (x : Gen) (hL : ∀ p ∈ ([.sv] : List Part), p ∈ L) (h : keeps L o s) : keeps L o (setGen g x s) :=
  keeps_sv _ (within hL rfl) h

theorem genQuiet_keeps (g : Fin 2) (hL : ∀ p ∈ ([.sv] : List Part), p ∈ L) (h : keeps L o s) : keeps L o (genQuiet g s) :=
  setGen_keeps _ _ (within hL rfl) h

theorem injEnd_keeps (g : Fin 2) (r : Nat)
    (hL : ∀ p ∈ ([.regs, .held, .pg, .sv, .bv, .pc] : List Part), p ∈ L) (h : keeps L o s) : keeps L o (injEnd g r s) :=
  raiseEvent_keeps _ (within hL rfl) (putBit_keeps _ _ _ (within hL rfl) (putBit_keeps _ _ _ (within hL rfl) (putFld_keeps _ _ _ _ (within hL rfl) (setGen_keeps _ _ (within hL rfl) h))))

theorem injectionEnd_keeps (g : Fin 2)
    (hL : ∀ p ∈ ([.regs, .held, .pg, .sv, .bv, .pc] : List Part), p ∈ L) (h : keeps L o s) : keeps L o (injectionEnd g s) := by
  unfold injectionEnd
  split
  · split
    · exact injEnd_keeps _ _ (within hL rfl) h
    · exact h
  · exact h

theorem genStart_keeps (g : Fin 2)
    (hL : ∀ p ∈ ([.regs, .held, .pg, .sv, .bv, .pc] : List Part), p ∈ L) (h : keeps L o s) : keeps L o (genStart g s) := by
  unfold genStart
  extract_lets _ _ _ _ _ _ _ s1 s2
  have hs1 : keeps L o s1 := putBit_keeps _ _ _ (within hL rfl) (setGen_keeps _ _ (within hL rfl) h)
  have hs2 : keeps L o s2 := setGen_keeps _ _ (within hL rfl) hs1
  exact keeps_ite _ h (keeps_ite _ (dropWrite_keeps _ _ _ (within hL rfl) h) (keeps_ite _ hs2 (injEnd_keeps _ _ (within hL rfl) hs2)))

theorem genAbort_keeps (g : Fin 2)
    (hL : ∀ p ∈ ([.regs, .held, .pg, .sv, .bv, .pc] : List Part), p ∈ L) (h : keeps L o s) : keeps L o (genAbort g s) :=
  keeps_ite _ (injEnd_keeps _ _ (within hL rfl) h) h

theorem genBoundary_keeps (g : Fin 2)
    (hL : ∀ p ∈ ([.regs, .held, .pg, .sv, .bv, .pc] : List Part), p ∈ L) (h : keeps L o s) : keeps L o (genBoundary g s) := by
  unfold genBoundary
  extract_lets _ s1 _
  have hs1 : keeps L o s1 := injectionEnd_keeps _ (within hL rfl) (setGen_keeps _ _ (within hL rfl) h)
  exact keeps_ite _ (keeps_ite _ (setGen_keeps _ _ (within hL rfl) hs1) (genQuiet_keeps _ (within hL rfl) hs1)) (genQuiet_keeps _ (within hL rfl) h)

theorem followOnce_keeps (before : State) (hL : ∀ p ∈ ([.mo] : List Part), p ∈ L) (h : keeps L o s) : keeps L o (followOnce before s) :=
  keeps_whenB _ (fun _ h => followAll_keeps (within hL rfl) h) h

theorem batchStart_keeps (late : Bool)
    (hL : ∀ p ∈ ([.regs, .held, .mo, .sv, .lk, .pr] : List Part), p ∈ L) (h : keeps L o s) : keeps L o (batchStart late s) := by
  unfold batchStart
  extract_lets _ _ _ s1 _ _ _ s2 s3 s4 _
  have hs1 : keeps L o s1 := keeps_ite _ (followOnce_keeps _ (within hL rfl) (keeps_pr _ (within hL rfl) h)) h
  have hs2 : keeps L o s2 := keeps_sv _ (within hL rfl) hs1
  have hs3 : keeps L o s3 := keeps_forEach _ (fun _ _ h => putBit_keeps _ _ _ (within hL rfl) h) hs2
  have hs4 : keeps L o s4 := keeps_whenB _ (fun _ h => putBit_keeps _ _ _ (within hL rfl) h) hs3
  exact keeps_ite _ h (keeps_ite _ (keeps_ite _ (count_keeps _ (within hL rfl) (keeps_pr _ (within hL rfl) hs4)) (keeps_whenB _ (fun _ h => count_keeps _ (within hL rfl) h) hs4)) (keeps_ite _ (sendLane_keeps _ (within hL rfl) hs4) hs4))

theorem intake_keeps (a : Nat)
    (hL : ∀ p ∈ ([.freeCtr, .sys, .regs, .held, .pg, .sd, .mo, .sv, .bv, .lk, .pr, .gh, .pc] : List Part), p ∈ L)
    (h : keeps L o s) : keeps L o (intake a s) :=
  ckFeed_keeps _ _ _ _ (within hL rfl) (sdSample_keeps _ _ _ _ (within hL rfl) (startAt_keeps _ _ (within hL rfl) (keeps_whenB _ (fun _ h => putBit_keeps _ _ _ (within hL rfl) h) (setLoop_keeps _ _ (within hL rfl) h))))

theorem stickies_keeps (a : Nat) (g : StageFlags)
    (hL : ∀ p ∈ ([.regs, .held] : List Part), p ∈ L) (h : keeps L o s) : keeps L o (stickies a g s) :=
  keeps_forEach _ (fun _ _ h => putBit_keeps _ _ _ (within hL rfl) h) h

theorem moverProgram_keeps (b a m : Nat)
    (hL : ∀ p ∈ ([.freeCtr, .sys, .regs, .held, .pg, .sd, .mo, .sv, .bv, .lk, .pr, .gh, .pc] : List Part), p ∈ L)
    (h : keeps L o s) : keeps L o (moverProgram b a m s).1 := by
  unfold moverProgram
  extract_lets _ _
  split
  extract_lets _
  split
  extract_lets s1
  have hs1 : keeps L o s1 := startAt_keeps _ _ (within hL rfl) (setLoop_keeps _ _ (within hL rfl) h)
  split
  extract_lets _ s2 _ s3 s4
  have hs2 : keeps L o s2 := stickies_keeps _ _ (within hL rfl) (keeps_whenB _ (fun _ h => putBit_keeps _ _ _ (within hL rfl) h) (setLoop_keeps _ _ (within hL rfl) hs1))
  have hs3 : keeps L o s3 := keeps_sv _ (within hL rfl) hs2
  have hs4 : keeps L o s4 := keeps_ite _ (handoverFault_keeps _ (within hL rfl) hs3) (keeps_whenB _ (fun _ h => putBit_keeps _ _ _ (within hL rfl) h) hs3)
  exact ckFeed_keeps _ _ _ _ (within hL rfl) (sdSample_keeps _ _ _ _ (within hL rfl) hs4)

theorem axisProgram_keeps (a lane : Nat) (v1 : Int) (first : Bool) (h' : StageFlags)
    (hL : ∀ p ∈ ([.regs, .held, .sv] : List Part), p ∈ L) (h : keeps L o s) : keeps L o (axisProgram a lane v1 first h' s) := by
  unfold axisProgram
  extract_lets _ _ _ s1
  have hs1 : keeps L o s1 := keeps_whenB _ (fun _ h => putBit_keeps _ _ _ (within hL rfl) h) h
  refine keeps_ite _ (keeps_whenB _ (fun _ h => putPair_keeps _ _ (within hL rfl) h) (putWord_keeps _ _ (within hL rfl) h)) ?_
  exact keeps_sv _ (within hL rfl) (keeps_whenB _ (fun _ h => putPair_keeps _ _ (within hL rfl) h) (stickies_keeps _ _ (within hL rfl) (putWord_keeps _ _ (within hL rfl) (setLoop_keeps _ _ (within hL rfl) hs1))))

theorem checkLane_keeps (b q : Nat) (bad : Bool)
    (hL : ∀ p ∈ ([.sys, .regs, .held, .pg, .bv, .lk, .pr, .gh, .pc] : List Part), p ∈ L) (h : keeps L o s) : keeps L o (checkLane b q bad s) := by
  unfold checkLane
  split
  · exact keeps_ite _ (ghFault_keeps _ _ _ (within hL rfl) (raiseEvent_keeps _ (within hL rfl) (count_keeps _ (within hL rfl) (count_keeps _ (within hL rfl) (putBit_keeps _ _ _ (within hL rfl) h))))) h
  · exact h

theorem moverPrograms_keeps (b a : Nat) (ms : List Nat)
    (hL : ∀ p ∈ ([.freeCtr, .sys, .regs, .held, .pg, .sd, .mo, .sv, .bv, .lk, .pr, .gh, .pc] : List Part), p ∈ L)
    (h : keeps L o s) : keeps L o (moverPrograms b a ms s).1 := by
  suffices go : ∀ (t : State) (f : StageFlags), keeps L o t → keeps L o (ms.foldl (fun (x : State × StageFlags) m =>
      let r := moverProgram b a m x.1; (r.1, x.2.or r.2)) (t, f)).1 from go s _ h
  induction ms with
  | nil => exact fun _ _ ht => ht
  | cons m ms ih => exact fun _ _ ht => ih _ _ (moverProgram_keeps _ _ _ (within hL rfl) ht)

theorem batchPrograms_keeps (b : Nat)
    (hL : ∀ p ∈ ([.freeCtr, .sys, .regs, .held, .pg, .sd, .mo, .sv, .bv, .lk, .pr, .gh, .pc] : List Part), p ∈ L)
    (h : keeps L o s) : keeps L o (batchPrograms b s) := by
  unfold batchPrograms
  extract_lets axes olds s1
  have hs1 : keeps L o s1 := keeps_forEach _ (fun _ _ h => intake_keeps _ (within hL rfl) h) h
  have movers (l : List Nat) : ∀ (t : State) (fs : List StageFlags), keeps L o t → keeps L o (l.foldl (fun (x : State × List StageFlags) a =>
      let r := moverPrograms b a (ledBy s1 a) x.1; (r.1, x.2 ++ [r.2])) (t, fs)).1 := by
    induction l with
    | nil => exact fun _ _ ht => ht
    | cons a l ih => exact fun _ _ ht => ih _ _ (moverPrograms_keeps _ _ _ (within hL rfl) ht)
  exact keeps_sv _ (within hL rfl) (keeps_forEach _ (fun _ _ h => axisProgram_keeps _ _ _ _ _ (within hL rfl) h) (movers _ _ _ hs1))

theorem batchPublish_keeps (bad : Bool) (sig : SigRec) (qs : List SetpQueue)
    (hL : ∀ p ∈ ([.sys, .regs, .held, .pg, .bv, .lk, .pr, .gh, .ph, .pc] : List Part), p ∈ L)
    (h : keeps L o s) : keeps L o (batchPublish bad sig qs s) := by
  unfold batchPublish
  extract_lets _ s1 _ _ s2 s3
  have hs1 : keeps L o s1 := keeps_lk _ (within hL rfl) h
  have hs2 : keeps L o s2 := keeps_ite _ (sendFrame_keeps _ (within hL rfl) (keeps_pr _ (within hL rfl) hs1)) hs1
  have hs3 : keeps L o s3 := checkLane_keeps _ _ _ (within hL rfl) hs2
  exact afterStill_keeps (within hL rfl) (keeps_ite _ (raiseEvent_keeps _ (within hL rfl) hs3) hs3)

theorem firstUseOf_keeps (o' : Nat) (hL : ∀ p ∈ ([.sv, .gh] : List Part), p ∈ L) (h : keeps L o s) : keeps L o (firstUseOf o' s) :=
  ckFirstUse_keeps _ (within hL rfl) (setLoop_keeps _ _ (within hL rfl) h)

theorem firstUseAll_keeps (hL : ∀ p ∈ ([.sv, .gh] : List Part), p ∈ L) (h : keeps L o s) : keeps L o (firstUseAll s) :=
  keeps_forEach _ (fun _ _ h => firstUseOf_keeps _ (within hL rfl) h) (keeps_forEach _ (fun _ _ h => firstUseOf_keeps _ (within hL rfl) h) h)

theorem firstUseGroup_keeps (g : Fin 4) (hL : ∀ p ∈ ([.sv, .gh] : List Part), p ∈ L) (h : keeps L o s) : keeps L o (firstUseGroup g s) :=
  keeps_forEach _ (fun _ _ h => firstUseOf_keeps _ (within hL rfl) h) (keeps_forEach _ (fun _ _ h => firstUseOf_keeps _ (within hL rfl) h) h)

theorem selectSetTo_keeps (a req : Nat) (hL : ∀ p ∈ ([.regs, .held] : List Part), p ∈ L) (h : keeps L o s) : keeps L o (selectSetTo a req s) :=
  keeps_ite _ h (keeps_ite _ (putBit_keeps _ _ _ (within hL rfl) (putFld_keeps _ _ _ _ (within hL rfl) h)) (putFld_keeps _ _ _ _ (within hL rfl) h))

theorem selectSet_keeps (a : Nat) (hL : ∀ p ∈ ([.regs, .held] : List Part), p ∈ L) (h : keeps L o s) : keeps L o (selectSet a s) :=
  selectSetTo_keeps _ _ (within hL rfl) h

theorem commitBiquad_keeps (n : Nat) (hL : ∀ p ∈ ([.sv] : List Part), p ∈ L) (h : keeps L o s) : keeps L o (commitBiquad n s) :=
  keeps_sv _ (within hL rfl) h

theorem askBiquad_keeps (n : Nat) (hL : ∀ p ∈ ([.sv] : List Part), p ∈ L) (h : keeps L o s) : keeps L o (askBiquad n s) :=
  keeps_ite _ h (keeps_sv _ (within hL rfl) h)

theorem enginePeriod_keeps (hL : ∀ p ∈ ([.regs, .held, .sv] : List Part), p ∈ L) (h : keeps L o s) : keeps L o (enginePeriod s) :=
  keeps_forEach _ (fun _ _ h => keeps_whenB _ (fun _ h => putWord_keeps _ _ (within hL rfl) h) h) (keeps_sv _ (within hL rfl) h)

theorem engineConfigured_keeps (hL : ∀ p ∈ ([.regs, .held] : List Part), p ∈ L) (h : keeps L o s) : keeps L o (engineConfigured s) :=
  keeps_whenB _ (fun _ h => putBit_keeps _ _ _ (within hL rfl) h) (putFld_keeps _ _ _ _ (within hL rfl) h)

end Sys2Proof.Machine
end

