-- ==== Sys2Proof/Proofs/KeepsCapture.lean ====
section
/-! PROOFS. What Belvedere, the CAN controllers and the frames sent keep. -/

namespace Sys2Proof.Machine

variable {L : List Part} {o s : State}

theorem bvArm_keeps (g : Fin 4) (hL : ∀ p ∈ ([.regs, .held, .bv] : List Part), p ∈ L) (h : keeps L o s) : keeps L o (bvArm g s) := by
  unfold bvArm
  extract_lets _ _ s1 s2
  have hs1 : keeps L o s1 := setBv_keeps _ _ (within hL rfl) h
  have hs2 : keeps L o s2 := putWords_keeps _ _ (within hL rfl) (putWords_keeps _ _ (within hL rfl) hs1)
  exact keeps_ite _ (putBit_keeps _ _ _ (within hL rfl) h) (putBit_keeps _ _ _ (within hL rfl) (putBit_keeps _ _ _ (within hL rfl) (putFld_keeps _ _ _ _ (within hL rfl) hs2)))

theorem bvStore_keeps (g : Fin 4) (x1 : List Word)
    (hL : ∀ p ∈ ([.mem, .bv] : List Part), p ∈ L) (h : keeps L o s) : keeps L o (bvStore g x1 s) := by
  induction x1 generalizing s with
  | nil => exact h
  | cons w ws ih => exact ih (setBv_keeps _ _ (within hL rfl) (bvRecSet_keeps _ _ (within hL rfl) h))

theorem bvStoreLast_keeps (g : Fin 4) (hL : ∀ p ∈ ([.mem, .bv] : List Part), p ∈ L) (h : keeps L o s) : keeps L o (bvStoreLast g s) := by
  unfold bvStoreLast
  extract_lets _
  split
  · exact h
  · exact keeps_ite _ (bvStore_keeps _ _ (within hL rfl) h) (keeps_ite _ (bvStore_keeps _ _ (within hL rfl) h) h)

theorem bvSample_keeps (g : Fin 4) (hL : ∀ p ∈ ([.regs, .held, .mem, .bv] : List Part), p ∈ L) (h : keeps L o s) : keeps L o (bvSample g s) :=
  keeps_ite _ h (setBv_keeps _ _ (within hL rfl) (bvStoreLast_keeps _ (within hL rfl) (keeps_whenB _ (fun _ h => putBit_keeps _ _ _ (within hL rfl) h) (setBv_keeps _ _ (within hL rfl) h))))

theorem bvEndings_keeps (g : Fin 4) (hL : ∀ p ∈ ([.bv] : List Part), p ∈ L) (h : keeps L o s) : keeps L o (bvEndings g s) :=
  keeps_ite _ (keeps_ite _ (setBv_keeps _ _ (within hL rfl) h) (keeps_ite _ (setBv_keeps _ _ (within hL rfl) h) h)) h

theorem bvSampleAll_keeps (hL : ∀ p ∈ ([.regs, .held, .mem, .bv] : List Part), p ∈ L) (h : keeps L o s) : keeps L o (bvSampleAll s) :=
  keeps_upTo _ (fun _ _ h => bvSample_keeps _ (within hL rfl) h) h

theorem bvEndAll_keeps (hL : ∀ p ∈ ([.bv] : List Part), p ∈ L) (h : keeps L o s) : keeps L o (bvEndAll s) :=
  keeps_upTo _ (fun _ _ h => bvEndings_keeps _ (within hL rfl) h) h

theorem bvForce_keeps (g : Fin 4) (hL : ∀ p ∈ ([.bv] : List Part), p ∈ L) (h : keeps L o s) : keeps L o (bvForce g s) :=
  keeps_ite _ (setBv_keeps _ _ (within hL rfl) h) h

theorem bvStop_keeps (g : Fin 4) (hL : ∀ p ∈ ([.bv] : List Part), p ∈ L) (h : keeps L o s) : keeps L o (bvStop g s) :=
  keeps_ite _ (setBv_keeps _ _ (within hL rfl) h) h

theorem recordDone_keeps (g : Fin 4)
    (hL : ∀ p ∈ ([.regs, .held, .pg, .bv, .pc] : List Part), p ∈ L) (h : keeps L o s) : keeps L o (recordDone g s) := by
  unfold recordDone
  extract_lets _ _ _ _ _ _ _ _ s1
  have hs1 : keeps L o s1 := putWords_keeps _ _ (within hL rfl) (putWords_keeps _ _ (within hL rfl) (setBv_keeps _ _ (within hL rfl) h))
  split
  · exact h
  · exact raiseEvent_keeps _ (within hL rfl) (putBit_keeps _ _ _ (within hL rfl) (putBit_keeps _ _ _ (within hL rfl) (putFld_keeps _ _ _ _ (within hL rfl) hs1)))

theorem showSlots_keeps (hL : ∀ p ∈ ([.regs, .held] : List Part), p ∈ L) (h : keeps L o s) : keeps L o (showSlots s) :=
  keeps_upTo _ (fun _ _ h => putWord_keeps _ _ (within hL rfl) h) h

theorem setAres_keeps (n : Nat) (hL : ∀ p ∈ ([.regs, .held] : List Part), p ∈ L) (h : keeps L o s) : keeps L o (setAres n s) :=
  putFld_keeps _ _ _ _ (within hL rfl) h

theorem archive_keeps (who : Requester) (g : Fin 4) (slot : Nat) (ovw : Bool)
    (hL : ∀ p ∈ ([.regs, .held, .bv] : List Part), p ∈ L) (h : keeps L o s) : keeps L o (archive who g slot ovw s) := by
  unfold archive
  extract_lets s1 _ _
  have hs1 : keeps L o s1 := putBit_keeps _ _ _ (within hL rfl) (putFld_keeps _ _ _ _ (within hL rfl) (putFld_keeps _ _ _ _ (within hL rfl) h))
  refine keeps_ite _ (dropWrite_keeps _ _ _ (within hL rfl) h) ?_
  refine keeps_ite _ hs1 ?_
  refine keeps_ite _ (setAres_keeps _ (within hL rfl) hs1) ?_
  exact keeps_ite _ (setAres_keeps _ (within hL rfl) hs1) (keeps_ite _ (setAres_keeps _ (within hL rfl) hs1) (keeps_ite _ (setAres_keeps _ (within hL rfl) hs1) (putBit_keeps _ _ _ (within hL rfl) (keeps_bv _ (within hL rfl) hs1))))

theorem archiveComplete_keeps (ok : Bool)
    (hL : ∀ p ∈ ([.regs, .held, .mem, .pg, .bv, .pc] : List Part), p ∈ L) (h : keeps L o s) : keeps L o (archiveComplete ok s) := by
  unfold archiveComplete
  extract_lets _
  split
  · exact h
  · extract_lets s1
    have hs1 : keeps L o s1 := pcSys_keeps _ _ (within hL rfl) (mramPutAll_keeps _ _ (within hL rfl) (keeps_bv _ (within hL rfl) h))
    exact raiseEvent_keeps _ (within hL rfl) (putBit_keeps _ _ _ (within hL rfl) (putBit_keeps _ _ _ (within hL rfl) (setAres_keeps _ (within hL rfl) (showSlots_keeps (within hL rfl) hs1))))

theorem abandonArchive_keeps (hL : ∀ p ∈ ([.mem, .bv] : List Part), p ∈ L) (h : keeps L o s) : keeps L o (abandonArchive s) := by
  unfold abandonArchive
  extract_lets _
  split
  · exact h
  · exact mramPutAll_keeps _ _ (within hL rfl) (keeps_bv _ (within hL rfl) h)

theorem cnEvt_keeps (c : Fin 2) (n : Nat)
    (hL : ∀ p ∈ ([.regs, .held, .pg, .bv, .pc] : List Part), p ∈ L) (h : keeps L o s) : keeps L o (cnEvt c n s) :=
  keeps_whenB _ (fun _ h => raiseEvent_keeps _ (within hL rfl) h) (putBit_keeps _ _ _ (within hL rfl) h)

theorem cnResult_keeps (c : Fin 2) (code tag : Nat)
    (hL : ∀ p ∈ ([.regs, .held, .pg, .bv, .can, .pc] : List Part), p ∈ L) (h : keeps L o s) : keeps L o (cnResult c code tag s) :=
  cnEvt_keeps _ _ (within hL rfl) (keeps_ite _ (cnEvt_keeps _ _ (within hL rfl) h) (setCan_keeps _ _ (within hL rfl) h))

theorem cnObjEnd_keeps (c : Fin 2) (o' code : Nat)
    (hL : ∀ p ∈ ([.regs, .held, .pg, .bv, .can, .pc] : List Part), p ∈ L) (h : keeps L o s) : keeps L o (cnObjEnd c o' code s) :=
  keeps_whenB _ (fun _ h => cnEvt_keeps _ _ (within hL rfl) h) (putFld_keeps _ _ _ _ (within hL rfl) (putBit_keeps _ _ _ (within hL rfl) (setCan_keeps _ _ (within hL rfl) h)))

theorem cnHeadEnd_keeps (c : Fin 2) (code : Nat)
    (hL : ∀ p ∈ ([.regs, .held, .pg, .bv, .can, .pc] : List Part), p ∈ L) (h : keeps L o s) : keeps L o (cnHeadEnd c code s) := by
  unfold cnHeadEnd
  extract_lets _
  split
  · exact h
  · exact cnResult_keeps _ _ _ (within hL rfl) (setCan_keeps _ _ (within hL rfl) h)

theorem cnEnd_keeps (c : Fin 2) (o' code : Nat)
    (hL : ∀ p ∈ ([.regs, .held, .pg, .bv, .can, .pc] : List Part), p ∈ L) (h : keeps L o s) : keeps L o (cnEnd c o' code s) :=
  keeps_ite _ (cnHeadEnd_keeps _ _ (within hL rfl) h) (cnObjEnd_keeps _ _ _ (within hL rfl) h)

theorem cnSetAcks_keeps (c : Fin 2) (o' n : Nat) (hL : ∀ p ∈ ([.can] : List Part), p ∈ L) (h : keeps L o s) : keeps L o (cnSetAcks c o' n s) := by
  unfold cnSetAcks
  extract_lets _
  split
  · split
    · exact h
    · exact setCan_keeps _ _ (within hL rfl) h
  · exact setCan_keeps _ _ (within hL rfl) h

theorem cnTxrq_keeps (who : Requester) (c : Fin 2) (o' : Nat)
    (hL : ∀ p ∈ ([.regs, .held, .pg, .bv, .can, .pc] : List Part), p ∈ L) (h : keeps L o s) : keeps L o (cnTxrq who c o' s) :=
  keeps_ite _ (dropWrite_keeps _ _ _ (within hL rfl) h) (keeps_ite _ (cnObjEnd_keeps _ _ _ (within hL rfl) h) (putFld_keeps _ _ _ _ (within hL rfl) (setCan_keeps _ _ (within hL rfl) h)))

theorem cnCancel_keeps (c : Fin 2) (o' : Nat)
    (hL : ∀ p ∈ ([.regs, .held, .pg, .bv, .can, .pc] : List Part), p ∈ L) (h : keeps L o s) : keeps L o (cnCancel c o' s) :=
  keeps_ite _ h (keeps_ite _ (setCan_keeps _ _ (within hL rfl) h) (cnObjEnd_keeps _ _ _ (within hL rfl) h))

theorem cnPush_keeps (c : Fin 2)
    (hL : ∀ p ∈ ([.regs, .held, .pg, .bv, .can, .pc] : List Part), p ∈ L) (h : keeps L o s) : keeps L o (cnPush c s) :=
  keeps_ite _ (cnEvt_keeps _ _ (within hL rfl) (count_keeps _ (within hL rfl) h)) (setCan_keeps _ _ (within hL rfl) h)

theorem cnFlush_keeps (c : Fin 2)
    (hL : ∀ p ∈ ([.regs, .held, .pg, .bv, .can, .pc] : List Part), p ∈ L) (h : keeps L o s) : keeps L o (cnFlush c s) := by
  unfold cnFlush
  extract_lets _ _
  split
  · split
    · exact h
    · exact keeps_forEach _ (fun _ _ h => cnResult_keeps _ _ _ (within hL rfl) h) (setCan_keeps _ _ (within hL rfl) h)
  · exact keeps_forEach _ (fun _ _ h => cnResult_keeps _ _ _ (within hL rfl) h) (setCan_keeps _ _ (within hL rfl) h)

theorem cnRpop_keeps (c : Fin 2) (hL : ∀ p ∈ ([.can] : List Part), p ∈ L) (h : keeps L o s) : keeps L o (cnRpop c s) :=
  setCan_keeps _ _ (within hL rfl) h

theorem cnPop_keeps (c : Fin 2) (hL : ∀ p ∈ ([.can] : List Part), p ∈ L) (h : keeps L o s) : keeps L o (cnPop c s) :=
  setCan_keeps _ _ (within hL rfl) h

theorem cnErrState_keeps (c : Fin 2)
    (hL : ∀ p ∈ ([.regs, .held, .pg, .bv, .can, .pc] : List Part), p ∈ L) (h : keeps L o s) : keeps L o (cnErrState c s) :=
  keeps_ite _ h (keeps_ite _ (cnEvt_keeps _ _ (within hL rfl) (cnEvt_keeps _ _ (within hL rfl) (setCan_keeps _ _ (within hL rfl) h))) (keeps_ite _ h (cnEvt_keeps _ _ (within hL rfl) (setCan_keeps _ _ (within hL rfl) h))))

theorem cnInitSet_keeps (c : Fin 2) (hL : ∀ p ∈ ([.regs, .held, .can] : List Part), p ∈ L) (h : keeps L o s) : keeps L o (cnInitSet c s) :=
  keeps_ite _ (putBit_keeps _ _ _ (within hL rfl) h) (keeps_ite _ (setCan_keeps _ _ (within hL rfl) (putBit_keeps _ _ _ (within hL rfl) h)) (setCan_keeps _ _ (within hL rfl) (putBit_keeps _ _ _ (within hL rfl) h)))

theorem cnInitClear_keeps (c : Fin 2) (hL : ∀ p ∈ ([.regs, .held, .can] : List Part), p ∈ L) (h : keeps L o s) : keeps L o (cnInitClear c s) :=
  keeps_ite _ h (keeps_ite _ (putBit_keeps _ _ _ (within hL rfl) h) (putBit_keeps _ _ _ (within hL rfl) (setCan_keeps _ _ (within hL rfl) h)))

theorem cnBusFree_keeps (c : Fin 2) (hL : ∀ p ∈ ([.can] : List Part), p ∈ L) (h : keeps L o s) : keeps L o (cnBusFree c s) :=
  keeps_ite _ (setCan_keeps _ _ (within hL rfl) h) (setCan_keeps _ _ (within hL rfl) h)

theorem cnStart_keeps (c : Fin 2) (t : Nat) (hL : ∀ p ∈ ([.can] : List Part), p ∈ L) (h : keeps L o s) : keeps L o (cnStart c t s) :=
  keeps_ite _ h (setCan_keeps _ _ (within hL rfl) h)

theorem cnRing_keeps (c : Fin 2) (f : List Word)
    (hL : ∀ p ∈ ([.regs, .held, .pg, .bv, .can, .pc] : List Part), p ∈ L) (h : keeps L o s) : keeps L o (cnRing c f s) :=
  keeps_ite _ (cnEvt_keeps _ _ (within hL rfl) (count_keeps _ (within hL rfl) h)) (keeps_whenB _ (fun _ h => raiseEvent_keeps _ (within hL rfl) h) (count_keeps _ (within hL rfl) (setCan_keeps _ _ (within hL rfl) h)))

theorem cnCopy_keeps (c : Fin 2) (f : RxFrame) (sof : Nat) (o' : Nat)
    (hL : ∀ p ∈ ([.regs, .held] : List Part), p ∈ L) (h : keeps L o s) : keeps L o (cnCopy c f sof o' s) :=
  putWords_keeps _ _ (within hL rfl) (putWords_keeps _ _ (within hL rfl) (putBit_keeps _ _ _ (within hL rfl) (keeps_whenB _ (fun _ h => putBit_keeps _ _ _ (within hL rfl) h) (putFld_keeps _ _ _ _ (within hL rfl) h))))

theorem cnReceive_keeps (c : Fin 2) (f : RxFrame) (t : Nat)
    (hL : ∀ p ∈ ([.regs, .held, .pg, .bv, .can, .pc] : List Part), p ∈ L) (h : keeps L o s) : keeps L o (cnReceive c f t s) := by
  unfold cnReceive
  extract_lets _ _ s1 _ _ s2 _ _ s3 _
  have hs1 : keeps L o s1 := count_keeps _ (within hL rfl) h
  have hs2 : keeps L o s2 := keeps_forEach _ (fun _ _ h => cnCopy_keeps _ _ _ _ (within hL rfl) h) h
  have hs3 : keeps L o s3 := cnRing_keeps _ _ (within hL rfl) hs2
  refine keeps_ite _ h ?_
  refine keeps_ite _ h ?_
  exact keeps_ite _ (keeps_ite _ (cnEvt_keeps _ _ (within hL rfl) h) (keeps_ite _ hs1 (cnErrState_keeps _ (within hL rfl) (setCan_keeps _ _ (within hL rfl) hs1)))) (keeps_ite _ hs3 (cnErrState_keeps _ (within hL rfl) (setCan_keeps _ _ (within hL rfl) hs3)))

theorem cnLoopDelay_keeps (c : Fin 2) (o' : Nat) (tdcm : Option (Fin 128))
    (hL : ∀ p ∈ ([.regs, .held] : List Part), p ∈ L) (h : keeps L o s) : keeps L o (cnLoopDelay c o' tdcm s) := by
  unfold cnLoopDelay
  extract_lets _
  split
  · exact keeps_whenB _ (fun _ h => putFld_keeps _ _ _ _ (within hL rfl) h) h
  · exact h

theorem cnSent_keeps (c : Fin 2) (o' sof : Nat)
    (hL : ∀ p ∈ ([.regs, .held, .pg, .bv, .can, .pc] : List Part), p ∈ L) (h : keeps L o s) : keeps L o (cnSent c o' sof s) := by
  unfold cnSent
  extract_lets _ _ _ _ _ _ _ s1 s2 s3 _ s4 _
  have hs1 : keeps L o s1 := keeps_ite _ h (putWords_keeps _ _ (within hL rfl) (putWord_keeps _ _ (within hL rfl) h))
  have hs2 : keeps L o s2 := cnEnd_keeps _ _ _ (within hL rfl) hs1
  have hs3 : keeps L o s3 := count_keeps _ (within hL rfl) (putBit_keeps _ _ _ (within hL rfl) hs2)
  have hs4 : keeps L o s4 := setCan_keeps _ _ (within hL rfl) hs3
  exact cnErrState_keeps _ (within hL rfl) (keeps_whenB _ (fun _ h => cnRing_keeps _ _ (within hL rfl) h) hs4)

theorem cnFailed_keeps (c : Fin 2) (o' : Nat)
    (hL : ∀ p ∈ ([.regs, .held, .pg, .bv, .can, .pc] : List Part), p ∈ L) (h : keeps L o s) : keeps L o (cnFailed c o' s) :=
  keeps_ite _ (cnEnd_keeps _ _ _ (within hL rfl) h) h

theorem cnAckError_keeps (c : Fin 2) (o' : Nat)
    (hL : ∀ p ∈ ([.regs, .held, .pg, .bv, .can, .pc] : List Part), p ∈ L) (h : keeps L o s) : keeps L o (cnAckError c o' s) := by
  unfold cnAckError
  extract_lets _ _ _ s1 s2 _ s3 _
  have hs1 : keeps L o s1 := count_keeps _ (within hL rfl) (count_keeps _ (within hL rfl) (setCan_keeps _ _ (within hL rfl) h))
  have hs2 : keeps L o s2 := keeps_ite _ (cnEvt_keeps _ _ (within hL rfl) (putBit_keeps _ _ _ (within hL rfl) hs1)) hs1
  have hs3 : keeps L o s3 := cnSetAcks_keeps _ _ _ (within hL rfl) hs2
  exact cnErrState_keeps _ (within hL rfl) (keeps_ite _ (cnEnd_keeps _ _ _ (within hL rfl) hs3) (keeps_ite _ (cnEnd_keeps _ _ _ (within hL rfl) hs3) hs3))

theorem cnTxError_keeps (c : Fin 2) (o' : Nat)
    (hL : ∀ p ∈ ([.regs, .held, .pg, .bv, .can, .pc] : List Part), p ∈ L) (h : keeps L o s) : keeps L o (cnTxError c o' s) :=
  cnErrState_keeps _ (within hL rfl) (cnFailed_keeps _ _ (within hL rfl) (cnSetAcks_keeps _ _ _ (within hL rfl) (count_keeps _ (within hL rfl) (setCan_keeps _ _ (within hL rfl) h))))

theorem cnFrameEnd.rx_keeps (c : Fin 2) (eight : Bool) (hL : ∀ p ∈ ([.regs, .held, .pg, .bv, .can, .pc] : List Part), p ∈ L)
    (h : keeps L o s) : keeps L o (cnFrameEnd.rx c eight s) :=
  keeps_ite _ (count_keeps _ (within hL rfl) h) (cnErrState_keeps _ (within hL rfl) (setCan_keeps _ _ (within hL rfl) (count_keeps _ (within hL rfl) h)))

theorem cnFrameEnd_keeps (c : Fin 2) (r : FrameResult) (tdcm : Option (Fin 128))
    (hL : ∀ p ∈ ([.regs, .held, .pg, .bv, .can, .pc] : List Part), p ∈ L) (h : keeps L o s) : keeps L o (cnFrameEnd c r tdcm s) := by
  unfold cnFrameEnd
  split
  · exact h
  · extract_lets s1 s2
    have hs1 : keeps L o s1 := by
      unfold s1
      split
      · exact cnLoopDelay_keeps _ _ _ (within hL rfl) h
      · exact h
    have hs2 : keeps L o s2 := by
      unfold s2
      split
      · exact cnSent_keeps _ _ _ (within hL rfl) hs1
      · exact cnFailed_keeps _ _ (within hL rfl) hs1
      · exact cnAckError_keeps _ _ (within hL rfl) hs1
      · exact cnTxError_keeps _ _ (within hL rfl) hs1
      · exact cnFailed_keeps _ _ (within hL rfl) (cnFrameEnd.rx_keeps _ _ (within hL rfl) hs1)
      · exact hs1
      · exact cnFrameEnd.rx_keeps _ _ (within hL rfl) hs1
      · exact hs1
    exact cnBusFree_keeps _ (within hL rfl) hs2

theorem endInjections_keeps
    (hL : ∀ p ∈ ([.regs, .held, .pg, .sv, .bv, .pc] : List Part), p ∈ L) (h : keeps L o s) : keeps L o (endInjections s) :=
  keeps_forEach _ (fun _ _ h => injectionEnd_keeps _ (within hL rfl) h) h

theorem enterDegraded_keeps
    (hL : ∀ p ∈ ([.sys, .regs, .held, .pg, .mo, .sv, .bv, .gh, .pc] : List Part), p ∈ L) (h : keeps L o s) : keeps L o (enterDegraded s) := by
  unfold enterDegraded
  extract_lets _ _ s1
  have hs1 : keeps L o s1 := keeps_same h rfl rfl fun p hp => by cases p with | sys | gh => exact absurd (hL _ (by decide)) hp | _ => rfl
  exact keeps_ite _ (endInjections_keeps (within hL rfl) (landAll_keeps (within hL rfl) (raiseEvent_keeps _ (within hL rfl) (putFld_keeps _ _ _ _ (within hL rfl) hs1)))) (keeps_gh _ (within hL rfl) h)

theorem deriveSchedule_keeps (hL : ∀ p ∈ ([.regs, .held] : List Part), p ∈ L) (h : keeps L o s) : keeps L o (deriveSchedule s) :=
  putBit_keeps _ _ _ (within hL rfl) (putFld_keeps _ _ _ _ (within hL rfl) (putWord_keeps _ _ (within hL rfl) (putWord_keeps _ _ (within hL rfl) (putWord_keeps _ _ (within hL rfl) (keeps_forEach _ (fun _ _ h => putWord_keeps _ _ (within hL rfl) h) h)))))

theorem sendAt_keeps (p t header : Nat) (f : SentFrame)
    (hL : ∀ p ∈ ([.lk] : List Part), p ∈ L) (h : keeps L o s) : keeps L o (sendAt p t header f s) :=
  keeps_lk _ (within hL rfl) (sendFrame_keeps _ (within hL rfl) h)

theorem sendOwn_keeps (c dst seq : Nat) (body : Nat → FrameBody)
    (hL : ∀ p ∈ ([.lk] : List Part), p ∈ L) (h : keeps L o s) : keeps L o (sendOwn c dst seq body s) :=
  keeps_forEach _ (fun _ _ h => sendAt_keeps _ _ _ _ (within hL rfl) h) h

end Sys2Proof.Machine
end

