-- ==== Sys2Proof/Proofs/KeepsPair.lean ====
section
/-! PROOFS. What the link, group writes, Pumphouse and the pair keep. -/

namespace Sys2Proof.Machine

variable {L : List Part} {o s : State}

theorem setLink_keeps (st : LinkState) (hL : ∀ p ∈ ([.lk] : List Part), p ∈ L) (h : keeps L o s) : keeps L o (setLink st s) :=
  keeps_lk _ (within hL rfl) h

theorem setEpoch_keeps (e : Nat)
    (hL : ∀ p ∈ ([.sys, .regs, .held, .pg, .bv, .lk, .pc] : List Part), p ∈ L) (h : keeps L o s) : keeps L o (setEpoch e s) :=
  putFld_keeps _ _ _ _ (within hL rfl) (pcSys_keeps _ _ (within hL rfl) (keeps_same h rfl rfl fun p hp => by cases p with | sys | lk => exact absurd (hL _ (by decide)) hp | _ => rfl))

theorem showRole_keeps (hL : ∀ p ∈ ([.regs, .held, .pg, .bv, .pc] : List Part), p ∈ L) (h : keeps L o s) : keeps L o (showRole s) :=
  keeps_ite _ (putFld_keeps _ _ _ _ (within hL rfl) h) (raiseEvent_keeps _ (within hL rfl) (putFld_keeps _ _ _ _ (within hL rfl) (putFld_keeps _ _ _ _ (within hL rfl) h)))

theorem superseded_keeps
    (hL : ∀ p ∈ ([.sys, .regs, .held, .pg, .bv, .lk, .pr, .gh, .pc] : List Part), p ∈ L) (h : keeps L o s) : keeps L o (superseded s) :=
  showRole_keeps (within hL rfl) (toSafe_keeps (within hL rfl) (putBit_keeps _ _ _ (within hL rfl) (setLink_keeps _ (within hL rfl) (keeps_pr _ (within hL rfl) h))))

theorem partnerEpoch_keeps (e : Nat)
    (hL : ∀ p ∈ ([.sys, .regs, .held, .pg, .bv, .lk, .pr, .gh, .pc] : List Part), p ∈ L) (h : keeps L o s) : keeps L o (partnerEpoch e s).1 := by
  unfold partnerEpoch
  extract_lets _
  refine keeps_ite_fst _ (count_keeps _ (within hL rfl) h) ?_
  refine keeps_ite_fst _ (superseded_keeps (within hL rfl) h) ?_
  exact keeps_pr _ (within hL rfl) h

theorem discardFrame_keeps (ctr : Nat)
    (hL : ∀ p ∈ ([.regs, .held, .pg, .bv, .pc] : List Part), p ∈ L) (h : keeps L o s) : keeps L o (discardFrame ctr s) :=
  pcSys_keeps _ _ (within hL rfl) (count_keeps _ (within hL rfl) h)

theorem nakFragment_keeps (hL : ∀ p ∈ ([.regs, .held, .pg, .bv, .pc] : List Part), p ∈ L) (h : keeps L o s) : keeps L o (nakFragment s) :=
  pcSys_keeps _ _ (within hL rfl) (count_keeps _ (within hL rfl) h)

theorem rxFail_keeps (p : Nat) (k : RxCheck) (src : Option Nat)
    (hL : ∀ p ∈ ([.regs, .held, .pg, .bv, .pc] : List Part), p ∈ L) (h : keeps L o s) : keeps L o (rxFail p k src s) := by
  unfold rxFail
  split
  · exact h
  · exact discardFrame_keeps _ (within hL rfl) h
  · exact discardFrame_keeps _ (within hL rfl) h
  · split
    · exact discardFrame_keeps _ (within hL rfl) h
    · exact discardFrame_keeps _ (within hL rfl) h
  · split
    · exact discardFrame_keeps _ (within hL rfl) h
    · exact discardFrame_keeps _ (within hL rfl) h

theorem relayFrame_keeps (p ftype src header len : Nat)
    (hL : ∀ p ∈ ([.lk] : List Part), p ∈ L) (h : keeps L o s) : keeps L o (relayFrame p ftype src header len s) :=
  sendAt_keeps _ _ _ _ (within hL rfl) h

theorem forwardFrame_keeps (p ftype src header len : Nat)
    (hL : ∀ p ∈ ([.lk] : List Part), p ∈ L) (h : keeps L o s) : keeps L o (forwardFrame p ftype src header len s) :=
  keeps_whenB _ (fun _ h => relayFrame_keeps _ _ _ _ _ (within hL rfl) h) h

theorem startMotion_keeps (hL : ∀ p ∈ ([.mo, .sv, .gh] : List Part), p ∈ L) (h : keeps L o s) : keeps L o (startMotion s) :=
  firstUseAll_keeps (within hL rfl) (freshProfiles_keeps (within hL rfl) h)

theorem leadFromJoin_keeps
    (hL : ∀ p ∈ ([.sys, .regs, .held, .pg, .mo, .sv, .bv, .lk, .pr, .gh, .pc] : List Part), p ∈ L) (h : keeps L o s) : keeps L o (leadFromJoin s) :=
  showRole_keeps (within hL rfl) (startMotion_keeps (within hL rfl) (setEpoch_keeps _ (within hL rfl) (keeps_same h rfl rfl fun p hp => by cases p with | sys | lk | pr => exact absurd (hL _ (by decide)) hp | _ => rfl)))

theorem leadAgain_keeps
    (hL : ∀ p ∈ ([.sys, .regs, .held, .pg, .bv, .lk, .pc] : List Part), p ∈ L) (h : keeps L o s) : keeps L o (leadAgain s) :=
  showRole_keeps (within hL rfl) (setEpoch_keeps _ (within hL rfl) (keeps_lk _ (within hL rfl) h))

theorem listenEnd_keeps (hL : ∀ p ∈ ([.lk] : List Part), p ∈ L) (h : keeps L o s) : keeps L o (listenEnd s) :=
  keeps_ite _ (keeps_lk _ (within hL rfl) h) h

theorem coldstartEnd_keeps
    (hL : ∀ p ∈ ([.sys, .regs, .held, .pg, .mo, .sv, .bv, .lk, .pr, .gh, .pc] : List Part), p ∈ L) (h : keeps L o s) : keeps L o (coldstartEnd s) :=
  keeps_ite _ (keeps_ite _ (leadFromJoin_keeps (within hL rfl) h) (leadAgain_keeps (within hL rfl) h)) h

theorem enterFollow_keeps (hL : ∀ p ∈ ([.regs, .held, .lk] : List Part), p ∈ L) (h : keeps L o s) : keeps L o (enterFollow s) :=
  keeps_whenB _ (fun _ h => putBit_keeps _ _ _ (within hL rfl) h) (setLink_keeps _ (within hL rfl) h)

theorem enterClash_keeps (hL : ∀ p ∈ ([.regs, .held, .lk] : List Part), p ∈ L) (h : keeps L o s) : keeps L o (enterClash s) :=
  keeps_whenB _ (fun _ h => sendLane_keeps _ (within hL rfl) h) (putBit_keeps _ _ _ (within hL rfl) (setLink_keeps _ (within hL rfl) h))

theorem cstartReceived_keeps (p : Nat) (k : RxCheck) (src u : Nat)
    (hL : ∀ p ∈ ([.regs, .held, .pg, .bv, .lk, .pc] : List Part), p ∈ L) (h : keeps L o s) : keeps L o (cstartReceived p k src u s) := by
  unfold cstartReceived
  extract_lets s1
  have hs1 : keeps L o s1 := forwardFrame_keeps _ _ _ _ _ (within hL rfl) h
  refine keeps_ite _ h ?_
  split
  · exact keeps_ite _ (keeps_ite _ (enterFollow_keeps (within hL rfl) hs1) (keeps_ite _ (enterClash_keeps (within hL rfl) hs1) hs1)) hs1
  · exact rxFail_keeps _ _ _ (within hL rfl) hs1

theorem clashSignal_keeps (hL : ∀ p ∈ ([.regs, .held, .lk] : List Part), p ∈ L) (h : keeps L o s) : keeps L o (clashSignal s) :=
  keeps_ite _ (enterClash_keeps (within hL rfl) h) h

theorem retryLink_keeps (hL : ∀ p ∈ ([.regs, .held, .lk] : List Part), p ∈ L) (h : keeps L o s) : keeps L o (retryLink s) :=
  keeps_ite _ (putBit_keeps _ _ _ (within hL rfl) (keeps_lk _ (within hL rfl) h)) h

theorem followMark_keeps (m : MarkIn)
    (hL : ∀ p ∈ ([.regs, .held, .mains, .lk, .time] : List Part), p ∈ L) (h : keeps L o s) : keeps L o (followMark m s) :=
  showPeriod_keeps (within hL rfl) (keeps_same h rfl rfl fun p hp => by cases p with | mains | lk | time => exact absurd (hL _ (by decide)) hp | _ => rfl)

theorem markReceived_keeps (p : Nat) (k : RxCheck) (m : MarkIn)
    (hL : ∀ p ∈ ([.sys, .regs, .held, .pg, .mains, .bv, .lk, .time, .pr, .gh, .pc] : List Part), p ∈ L)
    (h : keeps L o s) : keeps L o (markReceived p k m s) := by
  unfold markReceived
  extract_lets s1 _
  have hs1 : keeps L o s1 := forwardFrame_keeps _ _ _ _ _ (within hL rfl) h
  refine keeps_ite _ h ?_
  refine keeps_ite _ (rxFail_keeps _ _ _ (within hL rfl) hs1) ?_
  refine keeps_ite _ hs1 ?_
  refine keeps_ite _ (rxFail_keeps _ _ _ (within hL rfl) hs1) ?_
  split
  · refine keeps_ite _ (keeps_ite _ (followMark_keeps _ (within hL rfl) (enterFollow_keeps (within hL rfl) (partnerEpoch_keeps _ (within hL rfl) hs1))) (partnerEpoch_keeps _ (within hL rfl) hs1)) ?_
    exact followMark_keeps _ (within hL rfl) (enterFollow_keeps (within hL rfl) hs1)
  · exact keeps_ite _ hs1 (keeps_ite _ hs1 (keeps_ite _ (discardFrame_keeps _ (within hL rfl) hs1) (keeps_ite _ (followMark_keeps _ (within hL rfl) (partnerEpoch_keeps _ (within hL rfl) hs1)) (partnerEpoch_keeps _ (within hL rfl) hs1))))

theorem setJoined_keeps (a : Nat) (on : Bool)
    (hL : ∀ p ∈ ([.regs, .held, .pg, .bv, .lk, .pc] : List Part), p ∈ L) (h : keeps L o s) : keeps L o (setJoined a on s) :=
  keeps_ite _ h (raiseEvent_keeps _ (within hL rfl) (putBit_keeps _ _ _ (within hL rfl) (setNode_keeps _ _ (within hL rfl) h)))

theorem clockCorrection_keeps (a : Nat) (o' : Int)
    (hL : ∀ p ∈ ([.regs, .held, .lk] : List Part), p ∈ L) (h : keeps L o s) : keeps L o (clockCorrection a o' s) :=
  keeps_ite _ (count_keeps _ (within hL rfl) (setNode_keeps _ _ (within hL rfl) (putWord_keeps _ _ (within hL rfl) (setNode_keeps _ _ (within hL rfl) h)))) (putWord_keeps _ _ (within hL rfl) (setNode_keeps _ _ (within hL rfl) h))

theorem takeRecord_keeps (c a : Nat) (r : UplRec)
    (hL : ∀ p ∈ ([.sys, .regs, .held, .pg, .mo, .bv, .lk, .pr, .gh, .pc] : List Part), p ∈ L) (h : keeps L o s) : keeps L o (takeRecord c a r s) :=
  keeps_ite _ (treatReturned_keeps _ _ (within hL rfl) (setAxisUpl_keeps _ _ (within hL rfl) h)) h

theorem takeAngle_keeps (a : Nat) (angle : Word) (hL : ∀ p ∈ ([.mo] : List Part), p ∈ L) (h : keeps L o s) : keeps L o (takeAngle a angle s) :=
  keeps_mo _ (within hL rfl) h

theorem takeGroup_keeps (a gstate grep : Nat)
    (hL : ∀ p ∈ ([.mo, .lk] : List Part), p ∈ L) (h : keeps L o s) : keeps L o (takeGroup a gstate grep s) :=
  keeps_ite _ (setNode_keeps _ _ (within hL rfl) h) (keeps_ite _ (keeps_mo _ (within hL rfl) (setNode_keeps _ _ (within hL rfl) h)) (keeps_ite _ (keeps_mo _ (within hL rfl) (setNode_keeps _ _ (within hL rfl) h)) (setNode_keeps _ _ (within hL rfl) h)))

theorem confirmWaits_keeps (hL : ∀ p ∈ ([.regs, .held, .mo] : List Part), p ∈ L) (h : keeps L o s) : keeps L o (confirmWaits s) :=
  keeps_forEach _ (fun _ _ h => confirmWait_keeps _ (within hL rfl) h) h

theorem useUplink_keeps (p : Nat) (u : UplIn)
    (hL : ∀ p ∈ ([.sys, .regs, .held, .pg, .mo, .bv, .lk, .pr, .gh, .pc] : List Part), p ∈ L) (h : keeps L o s) : keeps L o (useUplink p u s) := by
  unfold useUplink
  extract_lets _ _ s1 s2 s3 s4 s5
  have hs1 : keeps L o s1 := setNode_keeps _ _ (within hL rfl) h
  have hs2 : keeps L o s2 := putFld_keeps _ _ _ _ (within hL rfl) hs1
  have hs3 : keeps L o s3 := keeps_ite _ (setJoined_keeps _ _ (within hL rfl) hs2) (keeps_ite _ (setJoined_keeps _ _ (within hL rfl) hs2) hs2)
  have hs4 : keeps L o s4 := keeps_forEach _ (fun _ _ h => takeRecord_keeps _ _ _ (within hL rfl) h) hs3
  have hs5 : keeps L o s5 := takeAngle_keeps _ _ (within hL rfl) hs4
  exact confirmWaits_keeps (within hL rfl) (pcSys_keeps _ _ (within hL rfl) (takeGroup_keeps _ _ _ (within hL rfl) hs5))

theorem uplinkFrame_keeps (p : Nat) (k : RxCheck) (u : UplIn)
    (hL : ∀ p ∈ ([.sys, .regs, .held, .pg, .mo, .bv, .lk, .pr, .gh, .pc] : List Part), p ∈ L)
    (h : keeps L o s) : keeps L o (uplinkFrame p k u s) := by
  unfold uplinkFrame
  extract_lets a src s1 k1 offset g _ s2
  have hs1 : keeps L o s1 := forwardFrame_keeps _ _ _ _ _ (within hL rfl) h
  have hs2 : keeps L o s2 := useUplink_keeps _ _ (within hL rfl) hs1
  have refused : keeps L o (rxFail p .format src s1) := rxFail_keeps _ _ _ (within hL rfl) hs1
  have dropped (a : Nat) : keeps L o (discardFrame a s1) := discardFrame_keeps _ (within hL rfl) hs1
  clear_value offset s2
  refine keeps_ite _ h (keeps_ite _ (rxFail_keeps _ _ _ (within hL rfl) hs1) (keeps_ite _ refused (keeps_ite _ (rxFail_keeps _ _ _ (within hL rfl) hs1)
    (keeps_ite _ hs1 (keeps_ite _ (dropped _) (keeps_ite _ (dropped _) (keeps_ite _ (dropped _)
      (keeps_ite _ (putBit_keeps _ _ _ (within hL rfl) (setNode_keeps _ _ (within hL rfl) hs1)) ?_))))))))
  split
  · exact clockCorrection_keeps _ _ (within hL rfl) hs2
  · exact hs2

theorem emptySlot_keeps (a : Nat)
    (hL : ∀ p ∈ ([.sys, .regs, .held, .pg, .bv, .lk, .pr, .gh, .pc] : List Part), p ∈ L) (h : keeps L o s) : keeps L o (emptySlot a s) := by
  unfold emptySlot
  extract_lets _ s1 s2 _ s3
  have hs1 : keeps L o s1 := pcSys_keeps _ _ (within hL rfl) (raiseEvent_keeps _ (within hL rfl) (count_keeps _ (within hL rfl) (setNode_keeps _ _ (within hL rfl) h)))
  have hs2 : keeps L o s2 := keeps_forEach _ (fun _ _ h => setAxisUpl_keeps _ _ (within hL rfl) h) hs1
  have hs3 : keeps L o s3 := keeps_ite _ (ghFault_keeps _ _ _ (within hL rfl) hs2) hs2
  exact keeps_ite _ h (keeps_ite _ (setJoined_keeps _ _ (within hL rfl) hs3) hs3)

theorem setSvc_keeps (v : Service) (hL : ∀ p ∈ ([.lk] : List Part), p ∈ L) (h : keeps L o s) : keeps L o (setSvc v s) :=
  keeps_lk _ (within hL rfl) h

theorem forwardSvd_keeps (c : Nat) (hL : ∀ p ∈ ([.lk] : List Part), p ∈ L) (h : keeps L o s) : keeps L o (forwardSvd c s) :=
  keeps_ite _ (forwardFrame_keeps _ _ _ _ _ (within hL rfl) h) h

theorem serviceDownlink_keeps (c : Nat) (hL : ∀ p ∈ ([.lk] : List Part), p ∈ L) (h : keeps L o s) : keeps L o (serviceDownlink c s) := by
  unfold serviceDownlink
  extract_lets _ _ _ _
  refine keeps_ite _ (forwardSvd_keeps _ (within hL rfl) h) ?_
  split
  extract_lets _ _
  split
  · exact sendOwn_keeps _ _ _ _ (within hL rfl) (setSvc_keeps _ (within hL rfl) h)
  · split
    · exact sendOwn_keeps _ _ _ _ (within hL rfl) (setSvc_keeps _ (within hL rfl) h)
    · exact sendOwn_keeps _ _ _ _ (within hL rfl) (setSvc_keeps _ (within hL rfl) h)

theorem joinRequest_keeps (a nax : Nat) (m0 m1 : Option (Nat × Nat))
    (hL : ∀ p ∈ ([.regs, .held, .lk] : List Part), p ∈ L) (h : keeps L o s) : keeps L o (joinRequest a nax m0 m1 s) := by
  unfold joinRequest
  extract_lets _ _ _ _ _ _ _ s1 s2 _
  have hs1 : keeps L o s1 := putWord_keeps _ _ (within hL rfl) (putWord_keeps _ _ (within hL rfl) h)
  have hs2 : keeps L o s2 := keeps_ite _ (putBit_keeps _ _ _ (within hL rfl) hs1) (keeps_ite _ (putBit_keeps _ _ _ (within hL rfl) hs1) (keeps_ite _ (putBit_keeps _ _ _ (within hL rfl) hs1) hs1))
  exact keeps_ite _ (setSvc_keeps _ (within hL rfl) hs2) hs1

theorem repeatFragment_keeps (a : Nat) (hL : ∀ p ∈ ([.lk] : List Part), p ∈ L) (h : keeps L o s) : keeps L o (repeatFragment a s) :=
  setSvc_keeps _ (within hL rfl) h

theorem replyFragment_keeps (a msgid : Nat) (last : Bool) (frag : Nat) (data : List Nat) (accept : Bool)
    (hL : ∀ p ∈ ([.regs, .held, .pg, .bv, .lk, .pc] : List Part), p ∈ L)
    (h : keeps L o s) : keeps L o (replyFragment a msgid last frag data accept s) := by
  unfold replyFragment
  extract_lets _ _ _ _ _
  refine keeps_ite _ (nakFragment_keeps (within hL rfl) (setSvc_keeps _ (within hL rfl) h)) ?_
  exact keeps_ite _ (setSvc_keeps _ (within hL rfl) h) (keeps_ite _ (nakFragment_keeps (within hL rfl) (setSvc_keeps _ (within hL rfl) h)) (keeps_ite _ (raiseEvent_keeps _ (within hL rfl) (setSvc_keeps _ (within hL rfl) h)) (setSvc_keeps _ (within hL rfl) h)))

theorem serviceUplink_keeps (p : Nat) (k : RxCheck) (u : SvuIn) (accept : Bool)
    (hL : ∀ p ∈ ([.regs, .held, .pg, .bv, .lk, .pc] : List Part), p ∈ L) (h : keeps L o s) : keeps L o (serviceUplink p k u accept s) := by
  unfold serviceUplink
  extract_lets _ _ s1 _ _ s2
  have hs1 : keeps L o s1 := forwardFrame_keeps _ _ _ _ _ (within hL rfl) h
  have hs2 : keeps L o s2 := keeps_ite _ (repeatFragment_keeps _ (within hL rfl) hs1) hs1
  refine keeps_ite _ h ?_
  refine keeps_ite _ (rxFail_keeps _ _ _ (within hL rfl) hs1) ?_
  refine keeps_ite _ (rxFail_keeps _ _ _ (within hL rfl) hs1) ?_
  refine keeps_ite _ (rxFail_keeps _ _ _ (within hL rfl) hs1) ?_
  refine keeps_ite _ hs1 ?_
  refine keeps_ite _ (discardFrame_keeps _ (within hL rfl) hs1) ?_
  split
  · exact keeps_ite _ (joinRequest_keeps _ _ _ _ (within hL rfl) hs2) hs2
  · exact keeps_ite _ (replyFragment_keeps _ _ _ _ _ _ (within hL rfl) hs2) hs2

theorem batchEnd_keeps (bad : Bool)
    (hL : ∀ p ∈ ([.freeCtr, .sys, .regs, .held, .pg, .sd, .mo, .sv, .bv, .lk, .pr, .gh, .ph, .pc] : List Part), p ∈ L)
    (h : keeps L o s) : keeps L o (batchEnd bad s) := by
  unfold batchEnd
  extract_lets _
  split
  · exact batchPublish_keeps _ _ _ (within hL rfl) (keeps_sv _ (within hL rfl) h)
  · split
    · exact h
    · exact batchPublish_keeps _ _ _ (within hL rfl) (batchPrograms_keeps _ (within hL rfl) h)

theorem lateBatch_keeps
    (hL : ∀ p ∈ ([.freeCtr, .sys, .regs, .held, .pg, .sd, .mo, .sv, .bv, .lk, .pr, .gh, .pc] : List Part), p ∈ L)
    (h : keeps L o s) : keeps L o (lateBatch s) := by
  unfold lateBatch
  extract_lets _
  split
  · exact keeps_sv _ (within hL rfl) h
  · exact keeps_sv _ (within hL rfl) (batchPrograms_keeps _ (within hL rfl) h)

theorem compareSetp_keeps (x : SetpKept) (others : List SetpKept)
    (hL : ∀ p ∈ ([.pr] : List Part), p ∈ L) (h : keeps L o s) : keeps L o (compareSetp x others s) :=
  keeps_pr _ (within hL rfl) h

theorem sendSetp_keeps (x : SetpQueue) (a : Nat) (recs : List SetpRec)
    (hL : ∀ p ∈ ([.regs, .held, .pg, .bv, .lk, .pr, .pc] : List Part), p ∈ L) (h : keeps L o s) : keeps L o (sendSetp x a recs s) :=
  compareSetp_keeps _ _ (within hL rfl) (pcSys_keeps _ _ (within hL rfl) (sendOwn_keeps _ _ _ _ (within hL rfl) (keeps_lk _ (within hL rfl) (setNode_keeps _ _ (within hL rfl) h))))

theorem setPointFrames_keeps (c : Nat)
    (hL : ∀ p ∈ ([.regs, .held, .pg, .bv, .lk, .pr, .pc] : List Part), p ∈ L) (h : keeps L o s) : keeps L o (setPointFrames c s) := by
  unfold setPointFrames
  extract_lets _
  split
  · exact h
  · exact keeps_ite _ (keeps_forEach _ (fun _ _ h => sendSetp_keeps _ _ _ (within hL rfl) h) (keeps_lk _ (within hL rfl) h)) (keeps_lk _ (within hL rfl) h)

theorem drainQueue_keeps (c : Nat)
    (hL : ∀ p ∈ ([.regs, .held, .pg, .bv, .lk, .pr, .pc] : List Part), p ∈ L) (h : keeps L o s) : keeps L o (drainQueue c s) :=
  keeps_forEach _ (fun _ _ h => setPointFrames_keeps _ (within hL rfl) h) h

theorem partnerSetp_keeps (p : Nat) (k : RxCheck) (a seq e : Nat) (recs : List SetpRec)
    (hL : ∀ p ∈ ([.sys, .regs, .held, .pg, .bv, .lk, .pr, .gh, .pc] : List Part), p ∈ L)
    (h : keeps L o s) : keeps L o (partnerSetp p k a seq e recs s) := by
  unfold partnerSetp
  extract_lets _ _
  refine keeps_ite _ h ?_
  refine keeps_ite _ (rxFail_keeps _ _ _ (within hL rfl) h) ?_
  exact keeps_ite _ h (keeps_ite _ (discardFrame_keeps _ (within hL rfl) h) (keeps_ite _ (partnerEpoch_keeps _ (within hL rfl) h) (compareSetp_keeps _ _ (within hL rfl) (keeps_lk _ (within hL rfl) (partnerEpoch_keeps _ (within hL rfl) h)))))

theorem setUp_keeps (p : Nat) (on : Bool) (hL : ∀ p ∈ ([.regs, .held, .lk] : List Part), p ∈ L) (h : keeps L o s) : keeps L o (setUp p on s) :=
  putBit_keeps _ _ _ (within hL rfl) (keeps_lk _ (within hL rfl) h)

theorem syncLost_keeps (p : Nat) (inFrame : Bool)
    (hL : ∀ p ∈ ([.regs, .held, .pg, .bv, .lk, .pr, .pc] : List Part), p ∈ L) (h : keeps L o s) : keeps L o (syncLost p inFrame s) :=
  keeps_ite _ (keeps_whenB _ (fun _ h => discardFrame_keeps _ (within hL rfl) h) (setUp_keeps _ _ (within hL rfl) h)) (keeps_whenB _ (fun _ h => count_keeps _ (within hL rfl) h) (putBit_keeps _ _ _ (within hL rfl) (keeps_pr _ (within hL rfl) h)))

theorem syncAcquired_keeps (p : Nat)
    (hL : ∀ p ∈ ([.regs, .held, .lk, .pr] : List Part), p ∈ L) (h : keeps L o s) : keeps L o (syncAcquired p s) :=
  keeps_ite _ (setUp_keeps _ _ (within hL rfl) h) (putBit_keeps _ _ _ (within hL rfl) (keeps_pr _ (within hL rfl) h))

theorem timeLocked_keeps (on : Bool)
    (hL : ∀ p ∈ ([.regs, .held, .pg, .bv, .pc] : List Part), p ∈ L) (h : keeps L o s) : keeps L o (timeLocked on s) :=
  keeps_ite _ h (raiseEvent_keeps _ (within hL rfl) (putBit_keeps _ _ _ (within hL rfl) h))

theorem ppsDiscipline_keeps
    (hL : ∀ p ∈ ([.regs, .held, .pg, .bv, .time, .pc] : List Part), p ∈ L) (h : keeps L o s) : keeps L o (ppsDiscipline s) := by
  unfold ppsDiscipline
  extract_lets _ _ s1 _ s2 s3
  have hs1 : keeps L o s1 := putBit_keeps _ _ _ (within hL rfl) h
  have hs2 : keeps L o s2 := keeps_time _ (within hL rfl) hs1
  have hs3 : keeps L o s3 := putFld_keeps _ _ _ _ (within hL rfl) hs2
  exact keeps_ite _ (putBit_keeps _ _ _ (within hL rfl) (keeps_time _ (within hL rfl) hs1)) (keeps_ite _ (timeLocked_keeps _ (within hL rfl) hs3) (keeps_ite _ (timeLocked_keeps _ (within hL rfl) hs3) hs3))

theorem ppsEdge_keeps (hL : ∀ p ∈ ([.regs, .held, .pg, .bv, .time, .pc] : List Part), p ∈ L) (h : keeps L o s) : keeps L o (ppsEdge s) :=
  bvPin_keeps _ _ (within hL rfl) (raiseEvent_keeps _ (within hL rfl) (keeps_ite _ (ppsDiscipline_keeps (within hL rfl) h) h))

theorem ppsHoldover_keeps
    (hL : ∀ p ∈ ([.regs, .held, .pg, .bv, .time, .pc] : List Part), p ∈ L) (h : keeps L o s) : keeps L o (ppsHoldover s) :=
  keeps_ite _ (timeLocked_keeps _ (within hL rfl) (putBit_keeps _ _ _ (within hL rfl) (keeps_time _ (within hL rfl) h))) h

theorem nodesPeriod_keeps (hL : ∀ p ∈ ([.lk] : List Part), p ∈ L) (h : keeps L o s) : keeps L o (nodesPeriod s) :=
  keeps_forEach _ (fun _ _ h => setNode_keeps _ _ (within hL rfl) h) h

theorem showOpen_keeps (c : Nat)
    (hL : ∀ p ∈ ([.regs, .held, .pg, .bv, .pc] : List Part), p ∈ L) (h : keeps L o s) : keeps L o (showOpen c s) :=
  keeps_ite _ h (raiseEvent_keeps _ (within hL rfl) (putBit_keeps _ _ _ (within hL rfl) h))

theorem linkPeriod_keeps (hL : ∀ p ∈ ([.regs, .held, .pg, .bv, .lk, .pc] : List Part), p ∈ L) (h : keeps L o s) : keeps L o (linkPeriod s) :=
  keeps_lk _ (within hL rfl) (showOpen_keeps _ (within hL rfl) (showOpen_keeps _ (within hL rfl) (nodesPeriod_keeps (within hL rfl) h)))

theorem tidyAxes_keeps (hL : ∀ p ∈ ([.lk] : List Part), p ∈ L) (h : keeps L o s) : keeps L o (tidyAxes s) :=
  keeps_lk _ (within hL rfl) h

theorem sendMarker_keeps (mark : Bool)
    (hL : ∀ p ∈ ([.regs, .held, .pg, .bv, .lk, .pr, .pc] : List Part), p ∈ L) (h : keeps L o s) : keeps L o (sendMarker mark s) :=
  keeps_forEach _ (fun _ _ h => sendOwn_keeps _ _ _ _ (within hL rfl) h) (drainQueue_keeps _ (within hL rfl) (drainQueue_keeps _ (within hL rfl) h))

theorem startCycle_keeps
    (hL : ∀ p ∈ ([.regs, .held, .pg, .bv, .lk, .pr, .pc] : List Part), p ∈ L) (h : keeps L o s) : keeps L o (startCycle s) :=
  keeps_ite _ (sendMarker_keeps _ (within hL rfl) (keeps_lk _ (within hL rfl) h)) (keeps_ite _ (sendMarker_keeps _ (within hL rfl) (keeps_lk _ (within hL rfl) h)) (keeps_ite _ (keeps_lk _ (within hL rfl) h) h))

theorem setGw_keeps (g : GroupWrite) (hL : ∀ p ∈ ([.mo] : List Part), p ∈ L) (h : keeps L o s) : keeps L o (setGw g s) :=
  keeps_mo _ (within hL rfl) h

theorem showMissing_keeps (hL : ∀ p ∈ ([.regs, .held] : List Part), p ∈ L) (h : keeps L o s) : keeps L o (showMissing s) :=
  putFld_keeps _ _ _ _ (within hL rfl) h

theorem commitHead_keeps (hL : ∀ p ∈ ([.regs, .held, .mo, .sv] : List Part), p ∈ L) (h : keeps L o s) : keeps L o (commitHead s) :=
  keeps_forEach _ (fun _ _ h => commitBiquad_keeps _ (within hL rfl) h) (keeps_forEach _ (fun _ _ h => commitTable_keeps _ (within hL rfl) h) h)

theorem gwStage_keeps (hL : ∀ p ∈ ([.regs, .held, .mo] : List Part), p ∈ L) (h : keeps L o s) : keeps L o (gwStage s) :=
  keeps_ite _ (showMissing_keeps (within hL rfl) (putFld_keeps _ _ _ _ (within hL rfl) (putFld_keeps _ _ _ _ (within hL rfl) (setGw_keeps _ (within hL rfl) h)))) h

theorem gwAbandon_keeps (hL : ∀ p ∈ ([.regs, .held, .pg, .mo, .bv, .pc] : List Part), p ∈ L) (h : keeps L o s) : keeps L o (gwAbandon s) :=
  raiseEvent_keeps _ (within hL rfl) (putBit_keeps _ _ _ (within hL rfl) (putFld_keeps _ _ _ _ (within hL rfl) (setGw_keeps _ (within hL rfl) h)))

theorem gwAbort_keeps (hL : ∀ p ∈ ([.regs, .held, .pg, .mo, .bv, .pc] : List Part), p ∈ L) (h : keeps L o s) : keeps L o (gwAbort s) :=
  keeps_ite _ (gwAbandon_keeps (within hL rfl) h) h

theorem setGrpInc_keeps (on : Bool) (hL : ∀ p ∈ ([.regs, .held] : List Part), p ∈ L) (h : keeps L o s) : keeps L o (setGrpInc on s) :=
  keeps_forEach _ (fun _ _ h => keeps_whenB _ (fun _ h => putBit_keeps _ _ _ (within hL rfl) h) h) h

theorem gwClear_keeps (hL : ∀ p ∈ ([.regs, .held, .mo] : List Part), p ∈ L) (h : keeps L o s) : keeps L o (gwClear s) :=
  keeps_ite _ (setGw_keeps _ (within hL rfl) (setGrpInc_keeps _ (within hL rfl) (putFld_keeps _ _ _ _ (within hL rfl) h))) h

theorem gwDecide_keeps (hL : ∀ p ∈ ([.regs, .held, .pg, .mo, .bv, .pc] : List Part), p ∈ L) (h : keeps L o s) : keeps L o (gwDecide s) :=
  keeps_ite _ (keeps_ite _ (putFld_keeps _ _ _ _ (within hL rfl) (setGw_keeps _ (within hL rfl) h)) (gwAbandon_keeps (within hL rfl) h)) h

theorem gwInconsistent_keeps
    (hL : ∀ p ∈ ([.regs, .held, .pg, .bv, .pc] : List Part), p ∈ L) (h : keeps L o s) : keeps L o (gwInconsistent s) :=
  keeps_ite _ (raiseEvent_keeps _ (within hL rfl) (putFld_keeps _ _ _ _ (within hL rfl) (setGrpInc_keeps _ (within hL rfl) h))) h

theorem gwCycle_keeps (hL : ∀ p ∈ ([.regs, .held, .pg, .mo, .sv, .bv, .pc] : List Part), p ∈ L) (h : keeps L o s) : keeps L o (gwCycle s) := by
  unfold gwCycle
  extract_lets _
  split
  · exact setGw_keeps _ (within hL rfl) h
  · extract_lets s1
    have hs1 : keeps L o s1 := showMissing_keeps (within hL rfl) (setGw_keeps _ (within hL rfl) h)
    refine keeps_ite _ (commitHead_keeps (within hL rfl) hs1) ?_
    refine keeps_ite _ (raiseEvent_keeps _ (within hL rfl) (putFld_keeps _ _ _ _ (within hL rfl) (setGw_keeps _ (within hL rfl) hs1))) ?_
    exact keeps_ite _ (putFld_keeps _ _ _ _ (within hL rfl) (setGw_keeps _ (within hL rfl) hs1)) (keeps_ite _ (keeps_forEach _ (fun _ _ h => keeps_whenB _ (fun _ h => stopObj_keeps _ _ _ (within hL rfl) h) h) (setGw_keeps _ (within hL rfl) hs1)) hs1)

theorem gwCommand_keeps (code : Nat)
    (hL : ∀ p ∈ ([.regs, .held, .pg, .mo, .bv, .pc] : List Part), p ∈ L) (h : keeps L o s) : keeps L o (gwCommand code s) :=
  keeps_ite _ (gwStage_keeps (within hL rfl) h) (keeps_ite _ (gwAbort_keeps (within hL rfl) h) (keeps_ite _ (gwClear_keeps (within hL rfl) h) h))

theorem setSdm_keeps (k : Fin 8) (x : Sdm) (hL : ∀ p ∈ ([.ph] : List Part), p ∈ L) (h : keeps L o s) : keeps L o (setSdm k x s) :=
  keeps_ph _ (within hL rfl) h

theorem dropFlight_keeps (hL : ∀ p ∈ ([.sys, .regs, .held, .sd, .mo, .sv] : List Part), p ∈ L) (h : keeps L o s) : keeps L o (dropFlight s) := by
  unfold dropFlight
  extract_lets _ s1 _ _ _ _
  have hs1 : keeps L o s1 := keeps_forEach _ (fun _ _ h => regSet_keeps _ _ (within hL rfl) h) h
  exact keeps_same hs1 rfl rfl fun p hp => by cases p with | sys | held | sd | mo | sv => exact absurd (hL _ (by decide)) hp | _ => rfl

theorem enterL5_keeps
    (hL : ∀ p ∈ ([.sys, .regs, .held, .mem, .pg, .sd, .mo, .sv, .bv, .lk, .gh, .ph, .pc] : List Part), p ∈ L)
    (h : keeps L o s) : keeps L o (enterL5 s) := by
  unfold enterL5
  extract_lets _ s1 _ _ _ s2
  have hs1 : keeps L o s1 := abandonArchive_keeps (within hL rfl) (dropFlight_keeps (within hL rfl) (enterSafe_keeps (within hL rfl) h))
  have hs2 : keeps L o s2 := keeps_same hs1 rfl rfl fun p hp => by cases p with | sys | ph => exact absurd (hL _ (by decide)) hp | _ => rfl
  exact keeps_ite _ h (faultRecord_keeps _ _ _ _ (within hL rfl) (raiseEvent_keeps _ (within hL rfl) (raiseEvent_keeps _ (within hL rfl) (raiseEvent_keeps _ (within hL rfl) (count_keeps _ (within hL rfl) hs2)))))

theorem setChop_keeps (ov duty : Bool) (hL : ∀ p ∈ ([.ph] : List Part), p ∈ L) (h : keeps L o s) : keeps L o (setChop ov duty s) :=
  keeps_ph _ (within hL rfl) h

theorem overvoltage_keeps (k : Fin 8) (hL : ∀ p ∈ ([.ph] : List Part), p ∈ L) (h : keeps L o s) : keeps L o (overvoltage k s) :=
  keeps_ite _ h (setChop_keeps _ _ (within hL rfl) h)

theorem holdFloor_keeps (k : Fin 8)
    (hL : ∀ p ∈ ([.sys, .regs, .held, .mem, .pg, .sd, .mo, .sv, .bv, .lk, .gh, .ph, .pc] : List Part), p ∈ L)
    (h : keeps L o s) : keeps L o (holdFloor k s) :=
  keeps_ite _ h (keeps_ite _ (enterL5_keeps (within hL rfl) h) h)

theorem showVolts_keeps (hL : ∀ p ∈ ([.regs, .held] : List Part), p ∈ L) (h : keeps L o s) : keeps L o (showVolts s) :=
  putFld_keeps _ _ _ _ (within hL rfl) (putFld_keeps _ _ _ _ (within hL rfl) h)

theorem sdmResult_keeps (k : Fin 8) (r : Word) (stuck : Bool)
    (hL : ∀ p ∈ ([.sys, .regs, .held, .mem, .pg, .sd, .mo, .sv, .bv, .lk, .gh, .ph, .pc] : List Part), p ∈ L)
    (h : keeps L o s) : keeps L o (sdmResult k r stuck s) := by
  unfold sdmResult
  extract_lets _ _ _ _ _ _ s1 s2
  have hs1 : keeps L o s1 := setSdm_keeps _ _ (within hL rfl) h
  have hs2 : keeps L o s2 := keeps_ite _ (raiseEvent_keeps _ (within hL rfl) (putBit_keeps _ _ _ (within hL rfl) hs1)) hs1
  exact keeps_ite _ h (holdFloor_keeps _ (within hL rfl) (overvoltage_keeps _ (within hL rfl) (showVolts_keeps (within hL rfl) hs2)))

theorem railFault_keeps (r : Nat)
    (hL : ∀ p ∈ ([.sys, .regs, .held, .mem, .pg, .sd, .mo, .sv, .bv, .lk, .pr, .gh, .ph, .pc] : List Part), p ∈ L)
    (h : keeps L o s) : keeps L o (railFault r s) :=
  keeps_ite _ (enterL5_keeps (within hL rfl) (ghRecord_keeps _ _ _ (within hL rfl) h)) (ghFault_keeps _ _ _ (within hL rfl) h)

theorem railReading_keeps (r nominal : Nat) (v : Word)
    (hL : ∀ p ∈ ([.regs, .held, .pg, .bv, .pc] : List Part), p ∈ L) (h : keeps L o s) : keeps L o (railReading r nominal v s) :=
  keeps_ite _ (raiseEvent_keeps _ (within hL rfl) (putBit_keeps _ _ _ (within hL rfl) (putWord_keeps _ _ (within hL rfl) h))) (putWord_keeps _ _ (within hL rfl) h)

theorem railMeasurement_keeps (vcore vser vaux vio : Word)
    (hL : ∀ p ∈ ([.regs, .held, .pg, .bv, .pc] : List Part), p ∈ L) (h : keeps L o s) : keeps L o (railMeasurement vcore vser vaux vio s) :=
  railReading_keeps _ _ _ (within hL rfl) (railReading_keeps _ _ _ (within hL rfl) (railReading_keeps _ _ _ (within hL rfl) (railReading_keeps _ _ _ (within hL rfl) h)))

theorem phCommonInstant_keeps (hL : ∀ p ∈ ([.regs, .held, .ph] : List Part), p ∈ L) (h : keeps L o s) : keeps L o (phCommonInstant s) :=
  keeps_whenB _ (fun _ h => putBit_keeps _ _ _ (within hL rfl) h) (keeps_ph _ (within hL rfl) (keeps_ph _ (within hL rfl) h))

theorem retExpiry_keeps (hL : ∀ p ∈ ([.ph] : List Part), p ∈ L) (h : keeps L o s) : keeps L o (retExpiry s) :=
  keeps_ite _ (keeps_ph _ (within hL rfl) h) h

theorem levelBoundary_keeps
    (hL : ∀ p ∈ ([.regs, .held, .pg, .bv, .ph, .pc] : List Part), p ∈ L) (h : keeps L o s) : keeps L o (levelBoundary s) := by
  unfold levelBoundary
  extract_lets _ _ _ _ s1 s2
  have hs1 : keeps L o s1 := keeps_ph _ (within hL rfl) h
  have hs2 : keeps L o s2 := keeps_upTo _ (fun _ _ h => keeps_whenB _ (fun _ h => count_keeps _ (within hL rfl) h) h) hs1
  exact keeps_ite _ h (keeps_ite _ hs2 (raiseEvent_keeps _ (within hL rfl) (raiseEvent_keeps _ (within hL rfl) hs2)))

theorem motoringScale_keeps (hL : ∀ p ∈ ([.regs, .held, .ph] : List Part), p ∈ L) (h : keeps L o s) : keeps L o (motoringScale s) :=
  putWord_keeps _ _ (within hL rfl) (putPair_keeps _ _ (within hL rfl) (putPair_keeps _ _ (within hL rfl) (keeps_ph _ (within hL rfl) h)))

theorem setDuty_keeps (hL : ∀ p ∈ ([.regs, .held, .ph] : List Part), p ∈ L) (h : keeps L o s) : keeps L o (setDuty s) :=
  putFld_keeps _ _ _ _ (within hL rfl) (keeps_ph _ (within hL rfl) h)

theorem holdBank_keeps (hL : ∀ p ∈ ([.ph] : List Part), p ∈ L) (h : keeps L o s) : keeps L o (holdBank s) :=
  keeps_ph _ (within hL rfl) h

theorem chopStart_keeps (hL : ∀ p ∈ ([.ph] : List Part), p ∈ L) (h : keeps L o s) : keeps L o (chopStart s) :=
  setChop_keeps _ _ (within hL rfl) h

theorem chopEnd_keeps (hL : ∀ p ∈ ([.ph] : List Part), p ∈ L) (h : keeps L o s) : keeps L o (chopEnd s) :=
  setChop_keeps _ _ (within hL rfl) h

theorem setPr_keeps (p : Pair) (hL : ∀ p ∈ ([.pr] : List Part), p ∈ L) (h : keeps L o s) : keeps L o (setPr p s) :=
  keeps_pr _ (within hL rfl) h

theorem laneSend_keeps (b : FrameBody) (hL : ∀ p ∈ ([.lk] : List Part), p ∈ L) (h : keeps L o s) : keeps L o (laneSend b s) :=
  keeps_whenB _ (fun _ h => sendLane_keeps _ (within hL rfl) h) h

theorem unalignAll_keeps (hL : ∀ p ∈ ([.regs, .held, .pg, .bv, .pr, .pc] : List Part), p ∈ L) (h : keeps L o s) : keeps L o (unalignAll s) :=
  showRole_keeps (within hL rfl) (setPr_keeps _ (within hL rfl) h)

theorem unalign_keeps (b : Nat)
    (hL : ∀ p ∈ ([.regs, .held, .pg, .bv, .pr, .pc] : List Part), p ∈ L) (h : keeps L o s) : keeps L o (unalign b s) :=
  keeps_ite _ h (showRole_keeps (within hL rfl) (setPr_keeps _ (within hL rfl) h))

theorem laneFrame_keeps (k : RxCheck) (e : Nat)
    (hL : ∀ p ∈ ([.sys, .regs, .held, .pg, .bv, .lk, .pr, .gh, .pc] : List Part), p ∈ L) (h : keeps L o s) : keeps L o (laneFrame k e s).1 := by
  unfold laneFrame
  extract_lets k1 t s1
  have hs1 : keeps L o s1 := setPr_keeps _ (within hL rfl) h
  refine keeps_ite_fst _ h ?_
  cases k1 with
  | code => exact count_keeps _ (within hL rfl) h
  | crc => exact count_keeps _ (within hL rfl) h
  | format => exact count_keeps _ (within hL rfl) h
  | address => exact count_keeps _ (within hL rfl) h
  | ok =>
    exact keeps_ite_fst _ h (keeps_ite_fst _ (count_keeps _ (within hL rfl) h)
      (keeps_ite_fst _ (superseded_keeps (within hL rfl) h) (putBit_keeps _ _ _ (within hL rfl) hs1)))

theorem onFrame_keeps (k : RxCheck) (e : Nat) (f : State → State) (hf : ∀ s, keeps L o s → keeps L o (f s))
    (hL : ∀ p ∈ ([.sys, .regs, .held, .pg, .bv, .lk, .pr, .gh, .pc] : List Part), p ∈ L) (h : keeps L o s) : keeps L o (onFrame k e f s) :=
  keeps_ite _ (hf _ (laneFrame_keeps _ _ (within hL rfl) h)) (laneFrame_keeps _ _ (within hL rfl) h)

theorem followEpoch_keeps (e : Nat)
    (hL : ∀ p ∈ ([.sys, .regs, .held, .pg, .bv, .lk, .pc] : List Part), p ∈ L) (h : keeps L o s) : keeps L o (followEpoch e s) :=
  keeps_ite _ (setEpoch_keeps _ (within hL rfl) h) h

theorem enterStandby_keeps (e : Nat)
    (hL : ∀ p ∈ ([.sys, .regs, .held, .pg, .mo, .sv, .bv, .lk, .pr, .gh, .pc] : List Part), p ∈ L) (h : keeps L o s) : keeps L o (enterStandby e s) :=
  unalignAll_keeps (within hL rfl) (startMotion_keeps (within hL rfl) (setEpoch_keeps _ (within hL rfl) (keeps_same h rfl rfl fun p hp => by cases p with | sys | lk | pr => exact absurd (hL _ (by decide)) hp | _ => rfl)))

theorem takeState_keeps (e : Nat) (u : StateIn)
    (hL : ∀ p ∈ ([.sys, .regs, .held, .pg, .mains, .mo, .sv, .bv, .lk, .pr, .gh, .pc] : List Part), p ∈ L)
    (h : keeps L o s) : keeps L o (takeState e u s) := by
  unfold takeState
  extract_lets _ _ _ _ s1 _ s2 s3
  have hs1 : keeps L o s1 := setPr_keeps _ (within hL rfl) h
  have hs2 : keeps L o s2 := putBit_keeps _ _ _ (within hL rfl) (keeps_ite _ (keeps_mains _ (within hL rfl) hs1) hs1)
  have hs3 : keeps L o s3 := keeps_ite _ hs2 (followEpoch_keeps _ (within hL rfl) hs2)
  exact keeps_ite _ (enterStandby_keeps _ (within hL rfl) hs3) (keeps_ite _ (unalignAll_keeps (within hL rfl) hs3) hs3)

theorem takeInc_keeps (fb : List FbIn) (sdm : List (Int × BitVec 4)) (km : Nat)
    (hL : ∀ p ∈ ([.mo, .pr] : List Part), p ∈ L) (h : keeps L o s) : keeps L o (takeInc fb sdm km s) :=
  keeps_ite _ (followOnce_keeps _ (within hL rfl) (setPr_keeps _ (within hL rfl) h)) h

theorem takeIn_keeps (b mask : Nat) (recs : List UplRec)
    (hL : ∀ p ∈ ([.pr] : List Part), p ∈ L) (h : keeps L o s) : keeps L o (takeIn b mask recs s) :=
  keeps_ite _ (setPr_keeps _ (within hL rfl) h) h

theorem computationFault_keeps (q : Nat) (axes : List Nat)
    (hL : ∀ p ∈ ([.regs, .held, .pg, .bv, .pr, .pc] : List Part), p ∈ L) (h : keeps L o s) : keeps L o (computationFault q axes s) :=
  raiseEvent_keeps _ (within hL rfl) (setPr_keeps _ (within hL rfl) (putPair_keeps _ _ (within hL rfl) (count_keeps _ (within hL rfl) h)))

theorem compareSig_keeps (b q : Nat)
    (hL : ∀ p ∈ ([.regs, .held, .pg, .bv, .pr, .pc] : List Part), p ∈ L) (h : keeps L o s) : keeps L o (compareSig b q s) := by
  unfold compareSig
  extract_lets _ s1
  have hs1 : keeps L o s1 := setPr_keeps _ (within hL rfl) h
  refine keeps_ite _ h ?_
  split
  · exact keeps_ite _ hs1 (keeps_ite _ (computationFault_keeps _ _ (within hL rfl) hs1) (unalign_keeps _ (within hL rfl) hs1))
  · exact h

theorem takeSig_keeps (x : SigRec)
    (hL : ∀ p ∈ ([.regs, .held, .pg, .bv, .pr, .pc] : List Part), p ∈ L) (h : keeps L o s) : keeps L o (takeSig x s) :=
  compareSig_keeps _ _ (within hL rfl) (setPr_keeps _ (within hL rfl) h)

theorem startDiag_keeps (hL : ∀ p ∈ ([.regs, .held, .pr] : List Part), p ∈ L) (h : keeps L o s) : keeps L o (startDiag s) :=
  keeps_ite _ h (putBit_keeps _ _ _ (within hL rfl) (setPr_keeps _ (within hL rfl) (putWord_keeps _ _ (within hL rfl) h)))

theorem diagResult_keeps (bad : Bool)
    (hL : ∀ p ∈ ([.regs, .held, .lk, .pr] : List Part), p ∈ L) (h : keeps L o s) : keeps L o (diagResult bad s) :=
  laneSend_keeps _ (within hL rfl) (putFld_keeps _ _ _ _ (within hL rfl) (setPr_keeps _ (within hL rfl) h))

theorem takeDres_keeps (pass : Bool) (hL : ∀ p ∈ ([.regs, .held, .pr] : List Part), p ∈ L) (h : keeps L o s) : keeps L o (takeDres pass s) :=
  keeps_ite _ (putFld_keeps _ _ _ _ (within hL rfl) (setPr_keeps _ (within hL rfl) h)) h

theorem closeAuth_keeps (hL : ∀ p ∈ ([.regs, .held, .gh] : List Part), p ∈ L) (h : keeps L o s) : keeps L o (closeAuth s) :=
  putBit_keeps _ _ _ (within hL rfl) (keeps_gh _ (within hL rfl) h)

theorem dropService_keeps (hL : ∀ p ∈ ([.lk] : List Part), p ∈ L) (h : keeps L o s) : keeps L o (dropService s) :=
  keeps_lk _ (within hL rfl) h

theorem becomeActive_keeps
    (hL : ∀ p ∈ ([.sys, .regs, .held, .pg, .mains, .bv, .lk, .pr, .gh, .pc] : List Part), p ∈ L) (h : keeps L o s) : keeps L o (becomeActive s) := by
  unfold becomeActive
  extract_lets _ _ _ _ _ _ s1 s2
  have hs1 : keeps L o s1 := keeps_same h rfl rfl fun p hp => by cases p with | sys | mains | lk | pr => exact absurd (hL _ (by decide)) hp | _ => rfl
  have hs2 : keeps L o s2 := putWord_keeps _ _ (within hL rfl) (putBit_keeps _ _ _ (within hL rfl) (setEpoch_keeps _ (within hL rfl) hs1))
  exact updateBrakes_keeps (within hL rfl) (closeAuth_keeps (within hL rfl) (dropService_keeps (within hL rfl) (showRole_keeps (within hL rfl) hs2)))

theorem takeOver_keeps
    (hL : ∀ p ∈ ([.sys, .regs, .held, .pg, .mains, .bv, .lk, .pr, .gh, .pc] : List Part), p ∈ L) (h : keeps L o s) : keeps L o (takeOver s) :=
  keeps_ite _ (raiseEvent_keeps _ (within hL rfl) (count_keeps _ (within hL rfl) (becomeActive_keeps (within hL rfl) h))) (enterSafe_keeps (within hL rfl) h)

theorem takeoverEff_keeps
    (hL : ∀ p ∈ ([.sys, .regs, .held, .pg, .mains, .bv, .lk, .pr, .gh, .pc] : List Part), p ∈ L) (h : keeps L o s) : keeps L o (takeoverEff s) :=
  keeps_ite _ (takeOver_keeps (within hL rfl) h) h

theorem goSilent_keeps
    (hL : ∀ p ∈ ([.sys, .regs, .held, .pg, .bv, .lk, .pr, .gh, .pc] : List Part), p ∈ L) (h : keeps L o s) : keeps L o (goSilent s) :=
  showRole_keeps (within hL rfl) (closeAuth_keeps (within hL rfl) (toSafe_keeps (within hL rfl) (keeps_same h rfl rfl fun p hp => by cases p with | lk | pr => exact absurd (hL _ (by decide)) hp | _ => rfl)))

theorem diagnosisOutcome_keeps
    (hL : ∀ p ∈ ([.sys, .regs, .held, .pg, .mains, .mo, .sv, .bv, .lk, .pr, .gh, .pc] : List Part), p ∈ L)
    (h : keeps L o s) : keeps L o (diagnosisOutcome s) := by
  unfold diagnosisOutcome
  extract_lets _ _ _ _ s1 _ s2
  have hs1 : keeps L o s1 := keeps_whenB _ (fun _ h => putFld_keeps _ _ _ _ (within hL rfl) h) (putBit_keeps _ _ _ (within hL rfl) (setPr_keeps _ (within hL rfl) h))
  have hs2 : keeps L o s2 := enterDegraded_keeps (within hL rfl) (putBit_keeps _ _ _ (within hL rfl) (setPr_keeps _ (within hL rfl) hs1))
  refine keeps_ite _ h ?_
  refine keeps_ite _ (goSilent_keeps (within hL rfl) (laneSend_keeps _ (within hL rfl) hs1)) ?_
  exact keeps_ite _ (keeps_ite _ (takeOver_keeps (within hL rfl) hs1) hs1) (keeps_ite _ (keeps_forEach _ (fun _ _ h => unalign_keeps _ (within hL rfl) h) hs2) (enterDegraded_keeps (within hL rfl) hs1))

theorem takeFail_keeps (hL : ∀ p ∈ ([.pr] : List Part), p ∈ L) (h : keeps L o s) : keeps L o (takeFail s) :=
  keeps_ite _ (setPr_keeps _ (within hL rfl) h) h

theorem pairLost_keeps (hL : ∀ p ∈ ([.regs, .held, .pg, .bv, .pr, .pc] : List Part), p ∈ L) (h : keeps L o s) : keeps L o (pairLost s) := by
  unfold pairLost
  extract_lets _ s1
  have hs1 : keeps L o s1 := raiseEvent_keeps _ (within hL rfl) (putBit_keeps _ _ _ (within hL rfl) (setPr_keeps _ (within hL rfl) h))
  exact keeps_ite _ h (keeps_ite _ (unalignAll_keeps (within hL rfl) hs1) hs1)

theorem bridge_keeps (hL : ∀ p ∈ ([.bv, .pr, .gh] : List Part), p ∈ L) (h : keeps L o s) : keeps L o (bridge s) :=
  keeps_ite _ (updateBrakes_keeps (within hL rfl) (setPr_keeps _ (within hL rfl) h)) h

theorem adoptWord_keeps (a : Nat) (v : Int) (hL : ∀ p ∈ ([.regs, .held] : List Part), p ∈ L) (h : keeps L o s) : keeps L o (adoptWord a v s) :=
  putWord_keeps _ _ (within hL rfl) h

theorem adoptSend_keeps
    (hL : ∀ p ∈ ([.regs, .held, .pg, .bv, .lk, .pr, .pc] : List Part), p ∈ L) (h : keeps L o s) : keeps L o (adoptSend s) := by
  unfold adoptSend
  extract_lets _ _ s1 _ _
  have hs1 : keeps L o s1 := keeps_forEach _ (fun _ _ h => laneSend_keeps _ (within hL rfl) h) h
  refine keeps_ite _ h ?_
  exact keeps_ite _ (laneSend_keeps _ (within hL rfl) (setPr_keeps _ (within hL rfl) h)) (keeps_ite _ (laneSend_keeps _ (within hL rfl) (setPr_keeps _ (within hL rfl) h)) (keeps_ite _ (showRole_keeps (within hL rfl) (setPr_keeps _ (within hL rfl) hs1)) h))

theorem bndCutOff_keeps (bad : Bool)
    (hL : ∀ p ∈ ([.regs, .held, .lk, .pr] : List Part), p ∈ L) (h : keeps L o s) : keeps L o (bndCutOff bad s) :=
  keeps_ite _ h (keeps_ite _ (diagResult_keeps _ (within hL rfl) (keeps_ite _ (laneSend_keeps _ (within hL rfl) (setPr_keeps _ (within hL rfl) h)) h)) (keeps_ite _ (laneSend_keeps _ (within hL rfl) (setPr_keeps _ (within hL rfl) h)) h))

theorem takeBnd_keeps (entries : List BndEntry) (hL : ∀ p ∈ ([.pr] : List Part), p ∈ L) (h : keeps L o s) : keeps L o (takeBnd entries s) :=
  keeps_ite _ (setPr_keeps _ (within hL rfl) h) h

theorem takeAdopt_keeps (a : Adopt) (hL : ∀ p ∈ ([.pr] : List Part), p ∈ L) (h : keeps L o s) : keeps L o (takeAdopt a s) :=
  keeps_ite _ (setPr_keeps _ (within hL rfl) h) h

theorem loadAdopt_keeps (a : Adopt)
    (hL : ∀ p ∈ ([.regs, .held, .pg, .mo, .sv, .bv, .pr, .pc] : List Part), p ∈ L) (h : keeps L o s) : keeps L o (loadAdopt a s) := by
  unfold loadAdopt
  split
  · refine keeps_forEach _ (fun _ _ h => regSet_keeps _ _ (within hL rfl) h) (keeps_trans h ⟨fun p hp => ?_, fun canon => ?_⟩)
    · cases p with | regs | held | mo | sv => exact absurd (hL _ (by decide)) hp | _ => rfl
    · simp only [State.canonical, Bool.and_eq_true] at canon ⊢
      obtain ⟨⟨⟨⟨⟨regs, xy⟩, shared⟩, bvRec⟩, pgm⟩, mram⟩ := canon
      exact ⟨⟨⟨⟨⟨filter_keeps_wf _ regs, xy⟩, shared⟩, bvRec⟩, pgm⟩, mram⟩
  · extract_lets _ s1 s2
    have hs1 : keeps L o s1 := keeps_forEach _ (fun _ _ h => adoptWord_keeps _ _ (within hL rfl) (setProf_keeps _ _ (within hL rfl) h)) h
    have hs2 : keeps L o s2 := adoptWord_keeps _ _ (within hL rfl) (adoptWord_keeps _ _ (within hL rfl) (setGen_keeps _ _ (within hL rfl) (setGen_keeps _ _ (within hL rfl) hs1)))
    exact adoptWord_keeps _ _ (within hL rfl) (adoptWord_keeps _ _ (within hL rfl) (setGw_keeps _ (within hL rfl) hs2))
  · exact showRole_keeps (within hL rfl) (setPr_keeps _ (within hL rfl) (keeps_forEach _ (fun _ _ h => setLoop_keeps _ _ (within hL rfl) h) h))

theorem followGroup_keeps (sto ss1 : Nat) (g : Fin 4)
    (hL : ∀ p ∈ ([.regs, .held, .pg, .bv, .gh, .pc] : List Part), p ∈ L) (h : keeps L o s) : keeps L o (followGroup sto ss1 g s) :=
  setCond_keeps _ _ (within hL rfl) h

theorem bndAction_keeps (e : BndEntry)
    (hL : ∀ p ∈ ([.regs, .held, .pg, .bv, .pr, .gh, .pc] : List Part), p ∈ L) (h : keeps L o s) : keeps L o (bndAction e s) := by
  unfold bndAction
  extract_lets _ _
  split
  · exact h
  · exact stageReg_keeps _ _ (within hL rfl) h
  · exact hwMod_keeps _ _ (within hL rfl) h
  · exact putWord_keeps _ _ (within hL rfl) h
  · exact keeps_upTo _ (fun _ _ h => followGroup_keeps _ _ _ (within hL rfl) h) (setPr_keeps _ (within hL rfl) h)
  · exact setPr_keeps _ (within hL rfl) h
  · exact keeps_gh _ (within hL rfl) h

theorem pairPeriod_keeps
    (hL : ∀ p ∈ ([.regs, .held, .pg, .bv, .pr, .gh, .pc] : List Part), p ∈ L) (h : keeps L o s) : keeps L o (pairPeriod s) := by
  unfold pairPeriod
  extract_lets _ _ _ _ s1 _ s2 s3
  have hs1 : keeps L o s1 := putBit_keeps _ _ _ (within hL rfl) (putBit_keeps _ _ _ (within hL rfl) h)
  have hs2 : keeps L o s2 := setPr_keeps _ (within hL rfl) hs1
  have hs3 : keeps L o s3 := keeps_ite _ (unalignAll_keeps (within hL rfl) hs2) hs2
  exact keeps_ite _ h (updateBrakes_keeps (within hL rfl) hs3)

theorem sendState_keeps (hL : ∀ p ∈ ([.lk] : List Part), p ∈ L) (h : keeps L o s) : keeps L o (sendState s) :=
  laneSend_keeps _ (within hL rfl) h

theorem sendInc_keeps (hL : ∀ p ∈ ([.lk] : List Part), p ∈ L) (h : keeps L o s) : keeps L o (sendInc s) :=
  keeps_ite _ (laneSend_keeps _ (within hL rfl) h) h

theorem refuseExchange_keeps (hL : ∀ p ∈ ([.regs, .held, .pr] : List Part), p ∈ L) (h : keeps L o s) : keeps L o (refuseExchange s) :=
  putBit_keeps _ _ _ (within hL rfl) (setPr_keeps _ (within hL rfl) h)

theorem xchgRequest_keeps (hL : ∀ p ∈ ([.regs, .held, .lk, .pr] : List Part), p ∈ L) (h : keeps L o s) : keeps L o (xchgRequest s) :=
  keeps_ite _ (refuseExchange_keeps (within hL rfl) h) (laneSend_keeps _ (within hL rfl) (setPr_keeps _ (within hL rfl) h))

theorem takeXreq_keeps (x : Nat) (hL : ∀ p ∈ ([.lk, .pr] : List Part), p ∈ L) (h : keeps L o s) : keeps L o (takeXreq x s) :=
  keeps_ite _ h (keeps_ite _ (laneSend_keeps _ (within hL rfl) h) (laneSend_keeps _ (within hL rfl) (setPr_keeps _ (within hL rfl) h)))

theorem takeXack_keeps (x refusal : Nat)
    (hL : ∀ p ∈ ([.regs, .held, .pr] : List Part), p ∈ L) (h : keeps L o s) : keeps L o (takeXack x refusal s) := by
  unfold takeXack
  extract_lets _
  split
  · exact keeps_ite _ (keeps_ite _ (setPr_keeps _ (within hL rfl) h) (refuseExchange_keeps (within hL rfl) h)) h
  · exact h

theorem xackTimeout_keeps (hL : ∀ p ∈ ([.regs, .held, .pr] : List Part), p ∈ L) (h : keeps L o s) : keeps L o (xackTimeout s) := by
  unfold xackTimeout
  split
  · exact keeps_ite _ (refuseExchange_keeps (within hL rfl) h) h
  · exact h

theorem dropUnclosed_keeps
    (hL : ∀ p ∈ ([.regs, .held, .sd, .mo, .sv, .pr, .gh] : List Part), p ∈ L) (h : keeps L o s) : keeps L o (dropUnclosed s) := by
  unfold dropUnclosed
  extract_lets _ s1 _ _ _ _ _ _
  have hs1 : keeps L o s1 := by
    unfold s1
    refine keeps_forEach _ (fun _ _ h => ?_) h
    split
    · exact regSet_keeps _ _ (within hL rfl) h
    · exact regSet_keeps _ _ (within hL rfl) (keeps_held _ (within hL rfl) h)
  exact keeps_same hs1 rfl rfl fun p hp => by cases p with | sd | mo | sv | pr | gh => exact absurd (hL _ (by decide)) hp | _ => rfl

theorem becomeStandby_keeps
    (hL : ∀ p ∈ ([.sys, .regs, .held, .pg, .sd, .mo, .sv, .bv, .lk, .pr, .gh, .pc] : List Part), p ∈ L)
    (h : keeps L o s) : keeps L o (becomeStandby s) := by
  unfold becomeStandby
  extract_lets s1 _ _ _ s2
  have hs1 : keeps L o s1 := keeps_forEach _ (fun _ _ h => setGroup_keeps _ _ (within hL rfl) h) (dropUnclosed_keeps (within hL rfl) h)
  have hs2 : keeps L o s2 := keeps_same hs1 rfl rfl fun p hp => by cases p with | sys | lk | pr => exact absurd (hL _ (by decide)) hp | _ => rfl
  exact closeAuth_keeps (within hL rfl) (dropService_keeps (within hL rfl) (showRole_keeps (within hL rfl) (setEpoch_keeps _ (within hL rfl) hs2)))

theorem exchangeEff_keeps
    (hL : ∀ p ∈ ([.sys, .regs, .held, .pg, .sd, .mains, .mo, .sv, .bv, .lk, .pr, .gh, .pc] : List Part), p ∈ L)
    (h : keeps L o s) : keeps L o (exchangeEff s) := by
  unfold exchangeEff
  extract_lets s1 _
  have hs1 : keeps L o s1 := count_keeps _ (within hL rfl) (keeps_ite _ (becomeStandby_keeps (within hL rfl) h) (becomeActive_keeps (within hL rfl) h))
  split
  · exact keeps_ite _ (setPr_keeps _ (within hL rfl) hs1) h
  · exact h

theorem overlapEnd_keeps (hL : ∀ p ∈ ([.bv, .pr, .gh] : List Part), p ∈ L) (h : keeps L o s) : keeps L o (overlapEnd s) := by
  unfold overlapEnd
  extract_lets _
  split
  · exact keeps_ite _ (updateBrakes_keeps (within hL rfl) (setPr_keeps _ (within hL rfl) h)) h
  · exact h

end Sys2Proof.Machine
end

