-- ==== Sys2Proof/Proofs/KeepsAccess.lean ====
section
/-! PROOFS. What resets, register writes, stores and the boot keep. -/

namespace Sys2Proof.Machine

variable {L : List Part} {o s : State}

theorem cleared_keeps
    (hL : ∀ p ∈ ([.now, .sys, .regs, .held, .mem, .cores, .pg, .sd, .mains, .fb, .fbo, .mo, .sv, .bv, .lk, .time, .pr, .gh, .ph, .can, .ks,
      .pc] : List Part), p ∈ L)
    (h : keeps L o s) : keeps L o (cleared s) := by
  have kept : keeps L o (abandonArchive s) := abandonArchive_keeps (within hL rfl) h
  refine keeps_trans kept ⟨fun p hp => ?_, fun canon => ?_⟩
  · cases p with | now | sys | regs | held | mem | cores | pg | sd | mains | fb | fbo | mo | sv | bv | lk | time | pr | gh | ph | can | ks | pc => exact absurd (hL _ (by decide)) hp | _ => rfl
  · simp only [State.canonical, Bool.and_eq_true] at canon ⊢
    obtain ⟨-, mram⟩ := canon
    exact ⟨⟨⟨⟨⟨mapPut_keeps_wf _ _ rfl rfl, rfl⟩, rfl⟩, rfl⟩, rfl⟩, mram⟩

theorem resetPart_keeps (code : Nat) (op : OpState) (step : Nat) (held : Bool)
    (hL : ∀ p ∈ ([.now, .sys, .regs, .held, .mem, .cores, .pg, .sd, .mains, .fb, .fbo, .mo, .sv, .bv, .lk, .time, .pr, .gh, .ph, .can, .ks,
      .pc] : List Part), p ∈ L)
    (h : keeps L o s) : keeps L o (resetPart code op step held s) :=
  putWord_keeps _ _ (within hL rfl) (keeps_sys _ (within hL rfl) (cleared_keeps (within hL rfl) h))

theorem storeBoot_eq (s : State) : ∃ a ws, storeBoot s = pcSys 0x5D 128 (mramPutAll a ws s) := by
  rw [storeBoot]
  rcases bootRecord s with - | ⟨k, q, w⟩
  · exact ⟨_, _, rfl⟩
  · exact ⟨_, _, rfl⟩

theorem storeBoot_keeps (hL : ∀ p ∈ ([.regs, .held, .mem, .pg, .bv, .pc] : List Part), p ∈ L) (h : keeps L o s) : keeps L o (storeBoot s) := by
  obtain ⟨a, ws, e⟩ := storeBoot_eq s
  exact e ▸ pcSys_keeps _ _ (within hL rfl) (mramPutAll_keeps _ _ (within hL rfl) h)

theorem loadBoot_keeps (hL : ∀ p ∈ ([.regs, .held] : List Part), p ∈ L) (h : keeps L o s) : keeps L o (loadBoot s) := by
  rw [loadBoot]
  rcases bootRecord s with - | ⟨k, q, w⟩
  · exact putBit_keeps _ _ _ (within hL rfl) h
  · exact putWord_keeps _ _ (within hL rfl) (putWord_keeps _ _ (within hL rfl) h)

theorem asWritten_keeps (hL : ∀ p ∈ ([.held] : List Part), p ∈ L) (h : keeps L o s) : keeps L o (asWritten s) :=
  keeps_held _ (within hL rfl) h

theorem runRequest_keeps (hL : ∀ p ∈ ([.sys, .regs, .held] : List Part), p ∈ L) (h : keeps L o s) : keeps L o (runRequest s) := by
  unfold runRequest
  extract_lets s1 s2 _
  have hs1 : keeps L o s1 := asWritten_keeps (within hL rfl) h
  have hs2 : keeps L o s2 := putBit_keeps _ _ _ (within hL rfl) h
  exact keeps_ite _ h (keeps_ite _ (putFld_keeps _ _ _ _ (within hL rfl) hs2) (keeps_ite _ (putFld_keeps _ _ _ _ (within hL rfl) hs2) (putFld_keeps _ _ _ _ (within hL rfl) (keeps_sys _ (within hL rfl) hs2))))

theorem nvRun_keeps (who : Requester) (hL : ∀ p ∈ ([.sys, .regs, .held] : List Part), p ∈ L) (h : keeps L o s) : keeps L o (nvRun who s) :=
  keeps_ite _ (runRequest_keeps (within hL rfl) h) (dropWrite_keeps _ _ _ (within hL rfl) h)

theorem nvBstore_keeps (who : Requester)
    (hL : ∀ p ∈ ([.regs, .held, .mem, .pg, .bv, .pc] : List Part), p ∈ L) (h : keeps L o s) : keeps L o (nvBstore who s) :=
  keeps_ite _ (storeBoot_keeps (within hL rfl) h) (dropWrite_keeps _ _ _ (within hL rfl) h)

theorem nvSwrst_keeps (who : Requester)
    (hL : ∀ p ∈ ([.now, .sys, .regs, .held, .mem, .cores, .pg, .sd, .mains, .fb, .fbo, .mo, .sv, .bv, .lk, .time, .pr, .gh, .ph, .can, .ks,
      .pc] : List Part), p ∈ L)
    (h : keeps L o s) : keeps L o (nvSwrst who s) :=
  keeps_ite _ h (keeps_ite _ (resetPart_keeps _ _ _ _ (within hL rfl) h) (dropWrite_keeps _ _ _ (within hL rfl) h))

theorem nvRecov_keeps (who : Requester) (hL : ∀ p ∈ ([.sys, .regs, .held] : List Part), p ∈ L) (h : keeps L o s) : keeps L o (nvRecov who s) :=
  keeps_ite _ (keeps_sys _ (within hL rfl) h) (dropWrite_keeps _ _ _ (within hL rfl) h)

theorem enterBootHold_keeps (hL : ∀ p ∈ ([.sys, .regs, .held] : List Part), p ∈ L) (h : keeps L o s) : keeps L o (enterBootHold s) :=
  putBit_keeps _ _ _ (within hL rfl) (putBit_keeps _ _ _ (within hL rfl) (keeps_sys _ (within hL rfl) h))

theorem holdBoot_keeps (hL : ∀ p ∈ ([.sys, .regs, .held] : List Part), p ∈ L) (h : keeps L o s) : keeps L o (holdBoot s) :=
  keeps_ite _ (enterBootHold_keeps (within hL rfl) h) (dropWrite_keeps _ _ _ (within hL rfl) h)

theorem releaseBoot_keeps (hL : ∀ p ∈ ([.sys, .regs, .held] : List Part), p ∈ L) (h : keeps L o s) : keeps L o (releaseBoot s) :=
  keeps_ite _ (putBit_keeps _ _ _ (within hL rfl) (putBit_keeps _ _ _ (within hL rfl) (putBit_keeps _ _ _ (within hL rfl) (keeps_sys _ (within hL rfl) h)))) h

theorem pdataWrite_keeps (who : Requester) (hi lo : Word)
    (hL : ∀ p ∈ ([.sys, .regs, .held, .mem] : List Part), p ∈ L) (h : keeps L o s) : keeps L o (pdataWrite who hi lo s) :=
  keeps_ite _ (putWord_keeps _ _ (within hL rfl) (keeps_sys _ (within hL rfl) (pgmSet_keeps _ _ _ (within hL rfl) h))) (dropWrite_keeps _ _ _ (within hL rfl) h)

theorem mdataWrite_keeps (who : Requester) (v : Word)
    (hL : ∀ p ∈ ([.regs, .held, .mem, .pg, .bv, .pc] : List Part), p ∈ L) (h : keeps L o s) : keeps L o (mdataWrite who v s) := by
  unfold mdataWrite
  extract_lets _ s1
  have hs1 : keeps L o s1 := putFld_keeps _ _ _ _ (within hL rfl) h
  exact keeps_ite _ (keeps_ite _ (pcSys_keeps _ _ (within hL rfl) (mramSet_keeps _ _ (within hL rfl) hs1)) (dropWrite_keeps _ _ _ (within hL rfl) hs1)) (dropWrite_keeps _ _ _ (within hL rfl) h)

theorem mdataWord_keeps (hL : ∀ p ∈ ([.freeCtr] : List Part), p ∈ L) (h : keeps L o s) : keeps L o (mdataWord s).2 := by
  unfold mdataWord
  extract_lets _
  split
  · split
    rename_i s1 e
    have hs1 : keeps L o s1 := keeps_of_snd e (freeNat_keeps (within hL rfl) h)
    exact hs1
  · exact h

theorem mdataRead_keeps
    (hL : ∀ p ∈ ([.freeCtr, .regs, .held, .pg, .bv, .pc] : List Part), p ∈ L) (h : keeps L o s) : keeps L o (mdataRead s).2 := by
  unfold mdataRead
  split
  rename_i s1 e
  have hs1 : keeps L o s1 := keeps_of_snd e (mdataWord_keeps (within hL rfl) h)
  exact pcSys_keeps _ _ (within hL rfl) (putFld_keeps _ _ _ _ (within hL rfl) hs1)

theorem writeReturn_keeps
    (hL : ∀ p ∈ ([.sys, .regs, .held, .mem, .pg, .bv, .pc] : List Part), p ∈ L) (h : keeps L o s) : keeps L o (writeReturn s) :=
  pcSys_keeps _ _ (within hL rfl) (keeps_sys _ (within hL rfl) (mramPutAll_keeps _ _ (within hL rfl) h))

theorem hourPassed_keeps
    (hL : ∀ p ∈ ([.sys, .regs, .held, .mem, .pg, .bv, .pc] : List Part), p ∈ L) (h : keeps L o s) : keeps L o (hourPassed s) := by
  unfold hourPassed
  extract_lets _ _ _ _ s1 _
  have hs1 : keeps L o s1 := putWord_keeps _ _ (within hL rfl) (keeps_sys _ (within hL rfl) h)
  exact keeps_ite _ h (writeReturn_keeps (within hL rfl) (keeps_ite _ (raiseEvent_keeps _ (within hL rfl) (putBit_keeps _ _ _ (within hL rfl) hs1)) hs1))

theorem lateRecord_keeps (who : Requester) (a : Nat)
    (hL : ∀ p ∈ ([.regs, .held] : List Part), p ∈ L) (h : keeps L o s) : keeps L o (lateRecord who a s) :=
  keeps_ite _ (putBit_keeps _ _ _ (within hL rfl) h) (keeps_ite _ (putBit_keeps _ _ _ (within hL rfl) h) (dropWrite_keeps _ _ _ (within hL rfl) h))

theorem genericWrite_keeps (who : Requester) (a : Nat) (v : Word) (r : RegRow)
    (hL : ∀ p ∈ ([.sys, .regs, .held] : List Part), p ∈ L) (h : keeps L o s) : keeps L o (genericWrite who a v r s) := by
  unfold genericWrite
  extract_lets _ s1 s2 _
  have hs1 : keeps L o s1 := keeps_whenB _ (fun _ h => lateRecord_keeps _ _ (within hL rfl) h) h
  have hs2 : keeps L o s2 := hwMod_keeps _ _ (within hL rfl) hs1
  exact keeps_ite _ hs2 (noteCommand_keeps _ _ (within hL rfl) (stageReg_keeps _ _ (within hL rfl) hs2))

theorem mirrorOut_keeps (who : Requester) (a : Nat) (v : Word) (r : RegRow)
    (hL : ∀ p ∈ ([.pr] : List Part), p ∈ L) (h : keeps L o s) : keeps L o (mirrorOut who a v r s) :=
  keeps_ite _ (setPr_keeps _ (within hL rfl) h) h

theorem writeCnCtrl_keeps (who : Requester) (c : Fin 2) (v : Word)
    (hL : ∀ p ∈ ([.regs, .held, .can] : List Part), p ∈ L) (h : keeps L o s) : keeps L o (writeCnCtrl who c v s) := by
  unfold writeCnCtrl
  extract_lets s1
  have hs1 : keeps L o s1 := keeps_ite _ (dropWrite_keeps _ _ _ (within hL rfl) h) (putBit_keeps _ _ _ (within hL rfl) h)
  exact keeps_ite _ (keeps_ite _ hs1 (cnInitSet_keeps _ (within hL rfl) hs1)) (cnInitClear_keeps _ (within hL rfl) hs1)

theorem writeObject_keeps (who : Requester) (c : Fin 2) (a : Nat) (v : Word) (r : RegRow)
    (hL : ∀ p ∈ ([.sys, .regs, .held, .pg, .bv, .can, .pc] : List Part), p ∈ L) (h : keeps L o s) : keeps L o (writeObject who c a v r s) := by
  unfold writeObject
  extract_lets _ _ s1
  have hs1 : keeps L o s1 := genericWrite_keeps _ _ _ _ (within hL rfl) h
  refine keeps_ite _ (keeps_whenB _ (fun _ h => cnCancel_keeps _ _ (within hL rfl) h) (keeps_whenB _ (fun _ h => cnTxrq_keeps _ _ _ (within hL rfl) h) hs1)) ?_
  exact keeps_ite _ (dropWrite_keeps _ _ _ (within hL rfl) h) (genericWrite_keeps _ _ _ _ (within hL rfl) h)

theorem writeCn_keeps (who : Requester) (c : Fin 2) (a : Nat) (v : Word) (r : RegRow)
    (hL : ∀ p ∈ ([.sys, .regs, .held, .pg, .bv, .can, .pc] : List Part), p ∈ L) (h : keeps L o s) : keeps L o (writeCn who c a v r s) := by
  unfold writeCn
  extract_lets _
  refine keeps_ite _ (writeCnCtrl_keeps _ _ _ (within hL rfl) h) ?_
  refine keeps_ite _ (keeps_ite _ (genericWrite_keeps _ _ _ _ (within hL rfl) h) (dropWrite_keeps _ _ _ (within hL rfl) h)) ?_
  refine keeps_ite _ (keeps_whenB _ (fun _ h => cnPop_keeps _ (within hL rfl) h) h) ?_
  refine keeps_ite _ (keeps_whenB _ (fun _ h => cnRpop_keeps _ (within hL rfl) h) (keeps_whenB _ (fun _ h => cnFlush_keeps _ (within hL rfl) h) (keeps_whenB _ (fun _ h => cnPush_keeps _ (within hL rfl) h) h))) ?_
  exact keeps_ite _ (writeObject_keeps _ _ _ _ _ (within hL rfl) h) (genericWrite_keeps _ _ _ _ (within hL rfl) h)

theorem writeDir_keeps (who : Requester) (i : Nat) (v : Word)
    (hL : ∀ p ∈ ([.regs, .held] : List Part), p ∈ L) (h : keeps L o s) : keeps L o (writeDir who i v s) :=
  keeps_ite _ (putFld_keeps _ _ _ _ (within hL rfl) h) (dropWrite_keeps _ _ _ (within hL rfl) (putFld_keeps _ _ _ _ (within hL rfl) h))

theorem writeNvCtrl_keeps (who : Requester) (v : Word)
    (hL : ∀ p ∈ ([.now, .sys, .regs, .held, .mem, .cores, .pg, .sd, .mains, .fb, .fbo, .mo, .sv, .bv, .lk, .time, .pr, .gh, .ph, .can, .ks,
      .pc] : List Part), p ∈ L)
    (h : keeps L o s) : keeps L o (writeNvCtrl who v s) := by
  unfold writeNvCtrl
  extract_lets s1 s2 s3
  have hs1 : keeps L o s1 := putBit_keeps _ _ _ (within hL rfl) h
  have hs2 : keeps L o s2 := keeps_ite _ hs1 (keeps_ite _ (dropWrite_keeps _ _ _ (within hL rfl) hs1) (keeps_ite _ (holdBoot_keeps (within hL rfl) hs1) (releaseBoot_keeps (within hL rfl) hs1)))
  have hs3 : keeps L o s3 := keeps_whenB _ (fun _ h => nvBstore_keeps _ (within hL rfl) h) (keeps_whenB _ (fun _ h => nvRun_keeps _ (within hL rfl) h) hs2)
  exact keeps_ite _ (nvSwrst_keeps _ (within hL rfl) hs3) (keeps_whenB _ (fun _ h => nvRecov_keeps _ (within hL rfl) h) hs3)

theorem writeNv_keeps (who : Requester) (a : Nat) (v : Word) (r : RegRow)
    (hL : ∀ p ∈ ([.now, .sys, .regs, .held, .mem, .cores, .pg, .sd, .mains, .fb, .fbo, .mo, .sv, .bv, .lk, .time, .pr, .gh, .ph, .can, .ks,
      .pc] : List Part), p ∈ L)
    (h : keeps L o s) : keeps L o (writeNv who a v r s) := by
  unfold writeNv
  refine keeps_ite _ (writeNvCtrl_keeps _ _ (within hL rfl) h) ?_
  refine keeps_ite _ (dropWrite_keeps _ _ _ (within hL rfl) h) ?_
  exact keeps_ite _ (mdataWrite_keeps _ _ (within hL rfl) h) (keeps_ite _ (regSet_keeps _ _ (within hL rfl) h) (keeps_ite _ (pdataWrite_keeps _ _ _ (within hL rfl) h) (genericWrite_keeps _ _ _ _ (within hL rfl) h)))

theorem writePg_keeps (who : Requester) (a : Nat) (v : Word) (r : RegRow)
    (hL : ∀ p ∈ ([.sys, .regs, .held, .cores, .pg, .bv, .pc] : List Part), p ∈ L) (h : keeps L o s) : keeps L o (writePg who a v r s) := by
  unfold writePg
  extract_lets _
  refine keeps_ite _ (genericWrite_keeps _ _ _ _ (within hL rfl) h) ?_
  exact keeps_ite _ (writePost_keeps _ _ _ (within hL rfl) h) (keeps_ite _ (writeDpost_keeps _ _ _ (within hL rfl) h) (keeps_ite _ (writeDcancel_keeps _ _ _ (within hL rfl) h) (genericWrite_keeps _ _ _ _ (within hL rfl) h)))

theorem writeBvCtrl_keeps (who : Requester) (g : Fin 4) (v : Word) (r : RegRow)
    (hL : ∀ p ∈ ([.sys, .regs, .held, .bv] : List Part), p ∈ L) (h : keeps L o s) : keeps L o (writeBvCtrl who g v r s) :=
  keeps_whenB _ (fun _ h => bvStop_keeps _ (within hL rfl) h) (keeps_whenB _ (fun _ h => bvForce_keeps _ (within hL rfl) h) (genericWrite_keeps _ _ _ _ (within hL rfl) (keeps_ite _ (dropWrite_keeps _ _ _ (within hL rfl) h) h)))

theorem writePc_keeps (who : Requester) (a : Nat) (v : Word) (r : RegRow)
    (hL : ∀ p ∈ ([.sys, .regs, .held, .pc] : List Part), p ∈ L) (h : keeps L o s) : keeps L o (writePc who a v r s) := by
  unfold writePc
  extract_lets _
  split
  · exact pcLoad_keeps _ _ (within hL rfl) h
  · exact keeps_pc _ (within hL rfl) h
  · refine keeps_ite _ (genericWrite_keeps _ _ _ _ (within hL rfl) (keeps_whenB _ (fun _ h => pcSnap_keeps (within hL rfl) h) h)) ?_
    exact keeps_ite _ (genericWrite_keeps _ _ _ _ (within hL rfl) (dropWrite_keeps _ _ _ (within hL rfl) h)) (genericWrite_keeps _ _ _ _ (within hL rfl) h)

theorem writePhCtrl_keeps (who : Requester) (v : Word) (r : RegRow)
    (hL : ∀ p ∈ ([.sys, .regs, .held] : List Part), p ∈ L) (h : keeps L o s) : keeps L o (writePhCtrl who v r s) :=
  keeps_ite _ (genericWrite_keeps _ _ _ _ (within hL rfl) h) (dropWrite_keeps _ _ _ (within hL rfl) h)

theorem gpioSeen_keeps (pin : Nat) (level : Bool)
    (hL : ∀ p ∈ ([.regs, .held, .pg, .bv, .pc] : List Part), p ∈ L) (h : keeps L o s) : keeps L o (gpioSeen pin level s) :=
  keeps_whenB _ (fun _ h => raiseEvent_keeps _ (within hL rfl) h) (bvPin_keeps _ _ (within hL rfl) h)

theorem gpioMoved_keeps (old : State)
    (hL : ∀ p ∈ ([.regs, .held, .pg, .bv, .pc] : List Part), p ∈ L) (h : keeps L o s) : keeps L o (gpioMoved old s) :=
  keeps_upTo _ (fun _ _ h => keeps_ite _ h (gpioSeen_keeps _ _ (within hL rfl) h)) h

theorem blockWrite_keeps (go : State → State) (who : Requester) (a : Nat) (v : Word) (r : RegRow) (hgo : ∀ s, keeps L o s → keeps L o (go s))
    (hL : ∀ p ∈ ([.now, .sys, .regs, .held, .mem, .cores, .pg, .sd, .mains, .fb, .fbo, .mo, .sv, .bv, .lk, .time, .pr, .gh, .ph, .can, .ks,
      .pc] : List Part), p ∈ L)
    (h : keeps L o s) : keeps L o (blockWrite go who a v r s) := by
  unfold blockWrite
  extract_lets _ s1
  have hs1 : keeps L o s1 := genericWrite_keeps _ _ _ _ (within hL rfl) h
  refine keeps_ite _ (writeW0_keeps _ _ (within hL rfl) h) ?_
  refine keeps_ite _ (fbCtrl_keeps _ _ (within hL rfl) h) ?_
  refine keeps_ite _ (askTable_keeps _ (within hL rfl) (genericWrite_keeps _ _ _ _ (within hL rfl) h)) ?_
  refine keeps_ite _ (askBiquad_keeps _ (within hL rfl) (genericWrite_keeps _ _ _ _ (within hL rfl) h)) ?_
  refine keeps_ite _ (genericWrite_keeps _ _ _ _ (within hL rfl) (keeps_sd _ (within hL rfl) h)) ?_
  refine keeps_ite _ (keeps_whenB _ (fun _ h => genAbort_keeps _ (within hL rfl) h) (genericWrite_keeps _ _ _ _ (within hL rfl) h)) ?_
  refine keeps_ite _ (writeBvCtrl_keeps _ _ _ _ (within hL rfl) h) ?_
  refine keeps_ite _ (keeps_whenB _ (fun _ h => archive_keeps _ _ _ _ (within hL rfl) h) hs1) ?_
  refine keeps_ite _ (keeps_whenB _ (fun _ h => retryLink_keeps (within hL rfl) h) h) ?_
  refine keeps_ite _ (keeps_ite _ (genericWrite_keeps _ _ _ _ (within hL rfl) h) (dropWrite_keeps _ _ _ (within hL rfl) h)) ?_
  refine keeps_ite _ (ghCommand_keeps _ _ (within hL rfl) h) ?_
  refine keeps_ite _ (wdConfig_keeps _ _ _ (within hL rfl) h) ?_
  refine keeps_ite _ (wdService_keeps _ _ (within hL rfl) h) ?_
  refine keeps_ite _ (writePhCtrl_keeps _ _ _ (within hL rfl) h) ?_
  refine keeps_ite _ (writePg_keeps _ _ _ _ (within hL rfl) h) ?_
  refine keeps_ite _ (writeCn_keeps _ _ _ _ _ (within hL rfl) h) ?_
  refine keeps_ite _ (writeCn_keeps _ _ _ _ _ (within hL rfl) h) ?_
  refine keeps_ite _ (keeps_ite _ (dropWrite_keeps _ _ _ (within hL rfl) h) (keeps_whenB _ hgo (genericWrite_keeps _ _ _ _ (within hL rfl) h))) ?_
  refine keeps_ite _ (dropWrite_keeps _ _ _ (within hL rfl) h) ?_
  refine keeps_ite _ (writePc_keeps _ _ _ _ (within hL rfl) h) ?_
  refine keeps_ite _ (keeps_whenB _ (fun _ h => haltCore_keeps _ (within hL rfl) h) h) ?_
  refine keeps_ite _ (writeNv_keeps _ _ _ _ (within hL rfl) h) ?_
  exact keeps_ite _ (gpioMoved_keeps _ (within hL rfl) (writeDir_keeps _ _ _ (within hL rfl) h)) (keeps_ite _ (gpioMoved_keeps _ (within hL rfl) (genericWrite_keeps _ _ _ _ (within hL rfl) h)) (genericWrite_keeps _ _ _ _ (within hL rfl) h))

theorem performWrite_keeps (go : State → State) (who : Requester) (a : Nat) (v : Word) (hgo : ∀ s, keeps L o s → keeps L o (go s))
    (hL : ∀ p ∈ ([.now, .sys, .regs, .held, .mem, .cores, .pg, .sd, .mains, .fb, .fbo, .mo, .sv, .bv, .lk, .time, .pr, .gh, .ph, .can, .ks,
      .pc] : List Part), p ∈ L)
    (h : keeps L o s) : keeps L o (performWrite go who a v s) := by
  unfold performWrite
  split
  · exact h
  · extract_lets s1
    have hs1 : keeps L o s1 := blockWrite_keeps _ _ _ _ _ hgo (within hL rfl) (mirrorOut_keeps _ _ _ _ (within hL rfl) h)
    exact keeps_ite _ (dropWrite_keeps _ _ _ (within hL rfl) h) (keeps_ite _ (signBlock_keeps _ (within hL rfl) hs1) hs1)

theorem lockedWrite_keeps (go : State → State) (open_ : Bool) (who : Requester) (a : Nat) (v : Word) (hgo : ∀ s, keeps L o s → keeps L o (go s))
    (hL : ∀ p ∈ ([.now, .sys, .regs, .held, .mem, .cores, .pg, .sd, .mains, .fb, .fbo, .mo, .sv, .bv, .lk, .time, .pr, .gh, .ph, .can, .ks,
      .pc] : List Part), p ∈ L)
    (h : keeps L o s) : keeps L o (lockedWrite go open_ who a v s) := by
  unfold lockedWrite
  extract_lets _
  split
  · exact h
  · exact keeps_ite _ (dropWrite_keeps _ _ _ (within hL rfl) h) (keeps_ite _ (dropWrite_keeps _ _ _ (within hL rfl) h) (keeps_ite _ (keeps_sys _ (within hL rfl) h) (performWrite_keeps _ _ _ _ hgo (within hL rfl) h)))

theorem scUnlock_keeps (who : Requester) (v : Word)
    (hL : ∀ p ∈ ([.sys] : List Part), p ∈ L) (h : keeps L o s) : keeps L o (scUnlock who v s) :=
  keeps_ite _ (keeps_sys _ (within hL rfl) (armLock_keeps _ (within hL rfl) h)) (armLock_keeps _ (within hL rfl) h)

theorem regWriteWith_keeps (go : State → State) (who : Requester) (a : Nat) (v : Word) (hgo : ∀ s, keeps L o s → keeps L o (go s))
    (hL : ∀ p ∈ ([.now, .sys, .regs, .held, .mem, .cores, .pg, .sd, .mains, .fb, .fbo, .mo, .sv, .bv, .lk, .time, .pr, .gh, .ph, .can, .ks,
      .pc] : List Part), p ∈ L)
    (h : keeps L o s) : keeps L o (regWriteWith go who a v s) :=
  keeps_ite _ h (keeps_ite _ (scUnlock_keeps _ _ (within hL rfl) h) (lockedWrite_keeps _ _ _ _ _ hgo (within hL rfl) (armLock_keeps _ (within hL rfl) h)))

theorem regWritePairWith_keeps (go : State → State) (who : Requester) (a : Nat) (hi lo : Word) (hgo : ∀ s, keeps L o s → keeps L o (go s))
    (hL : ∀ p ∈ ([.now, .sys, .regs, .held, .mem, .cores, .pg, .sd, .mains, .fb, .fbo, .mo, .sv, .bv, .lk, .time, .pr, .gh, .ph, .can, .ks,
      .pc] : List Part), p ∈ L)
    (h : keeps L o s) : keeps L o (regWritePairWith go who a hi lo s) := by
  unfold regWritePairWith
  extract_lets _
  refine keeps_ite _ h ?_
  exact keeps_ite _ (lockedWrite_keeps _ _ _ _ _ hgo (within hL rfl) (lockedWrite_keeps _ _ _ _ _ hgo (within hL rfl) (armLock_keeps _ (within hL rfl) h))) (regWriteWith_keeps _ _ _ _ hgo (within hL rfl) (regWriteWith_keeps _ _ _ _ hgo (within hL rfl) h))

theorem slowTransferWith_keeps (go : State → State) (hgo : ∀ s, keeps L o s → keeps L o (go s))
    (hL : ∀ p ∈ ([.now, .sys, .regs, .held, .mem, .cores, .pg, .sd, .mains, .fb, .fbo, .mo, .sv, .bv, .lk, .time, .pr, .gh, .ph, .can, .ks,
      .pc] : List Part), p ∈ L)
    (h : keeps L o s) : keeps L o (slowTransferWith go s) :=
  keeps_forEach _ (fun _ _ h => performWrite_keeps _ _ _ _ hgo (within hL rfl) h) (keeps_sys _ (within hL rfl) h)

theorem regRead_keeps (who : Requester) (a : Nat)
    (hL : ∀ p ∈ ([.freeCtr, .sys, .regs, .held, .pg, .bv, .pc] : List Part), p ∈ L) (h : keeps L o s) : keeps L o (regRead who a s).2 := by
  unfold regRead
  extract_lets _ _ _
  refine keeps_ite_snd _ h ?_
  refine keeps_ite_snd _ (mdataRead_keeps (within hL rfl) h) ?_
  refine keeps_ite_snd _ h ?_
  split
  · exact h
  · refine keeps_ite_snd _ h ?_
    exact keeps_sys _ (within hL rfl) h

theorem regReadPair_keeps (who : Requester) (a : Nat)
    (hL : ∀ p ∈ ([.freeCtr, .sys, .regs, .held, .pg, .bv, .pc] : List Part), p ∈ L) (h : keeps L o s) : keeps L o (regReadPair who a s).2 := by
  unfold regReadPair
  refine keeps_ite_snd _ h ?_
  split
  rename_i s1 e
  have hs1 : keeps L o s1 := keeps_of_snd e (regRead_keeps _ _ (within hL rfl) h)
  split
  rename_i s2 e
  have hs2 : keeps L o s2 := keeps_of_snd e (regRead_keeps _ _ (within hL rfl) hs1)
  exact hs2

theorem kioskWrite_keeps (a : Nat) (w : Word)
    (hL : ∀ p ∈ ([.now, .sys, .regs, .held, .mem, .cores, .pg, .sd, .mains, .fb, .fbo, .mo, .sv, .bv, .lk, .time, .pr, .gh, .ph, .can, .ks,
      .pc] : List Part), p ∈ L)
    (h : keeps L o s) : keeps L o (kioskWrite a w s) :=
  regWriteWith_keeps _ _ _ _ (fun _ h => h) (within hL rfl) (keeps_sys _ (within hL rfl) h)

theorem kioskWritePair_keeps (a : Nat) (v : Int)
    (hL : ∀ p ∈ ([.now, .sys, .regs, .held, .mem, .cores, .pg, .sd, .mains, .fb, .fbo, .mo, .sv, .bv, .lk, .time, .pr, .gh, .ph, .can, .ks,
      .pc] : List Part), p ∈ L)
    (h : keeps L o s) : keeps L o (kioskWritePair a v s) :=
  regWritePairWith_keeps _ _ _ _ _ (fun _ h => h) (within hL rfl) (keeps_sys _ (within hL rfl) h)

theorem writeEntry_keeps (e : KEntry) (i sub : Nat) (v : Int)
    (hL : ∀ p ∈ ([.now, .sys, .regs, .held, .mem, .cores, .pg, .sd, .mains, .fb, .fbo, .mo, .sv, .bv, .lk, .time, .pr, .gh, .ph, .can, .ks,
      .pc] : List Part), p ∈ L)
    (h : keeps L o s) : keeps L o (writeEntry e i sub v s) := by
  unfold writeEntry
  extract_lets _
  split
  · exact keeps_ite _ (dropWrite_keeps _ _ _ (within hL rfl) h) (kioskWrite_keeps _ _ (within hL rfl) h)
  · exact kioskWritePair_keeps _ _ (within hL rfl) h
  · exact kioskWrite_keeps _ _ (within hL rfl) h
  · exact keeps_ks _ (within hL rfl) h
  · exact h

theorem setDirect_keeps (e : KEntry) (i sub : Nat) (v : Int)
    (hL : ∀ p ∈ ([.regs, .held, .ks] : List Part), p ∈ L) (h : keeps L o s) : keeps L o (setDirect e i sub v s) := by
  unfold setDirect
  extract_lets put
  have put_keeps (a w t) (ht : keeps L o t) : keeps L o (put a w t) := by
    unfold put
    split
    · exact ht
    · exact regSet_keeps _ _ (within hL rfl) (keeps_held _ (within hL rfl) ht)
  clear_value put
  split
  · exact put_keeps _ _ _ h
  · exact put_keeps _ _ _ (put_keeps _ _ _ h)
  · exact put_keeps _ _ _ h
  · exact keeps_ks _ (within hL rfl) h
  · exact h

theorem setKs_keeps (k : Kiosk) (hL : ∀ p ∈ ([.ks] : List Part), p ∈ L) (h : keeps L o s) : keeps L o (setKs k s) :=
  keeps_ks _ (within hL rfl) h

theorem showCfgSig_keeps (hL : ∀ p ∈ ([.ks] : List Part), p ∈ L) (h : keeps L o s) : keeps L o (showCfgSig s) :=
  setKs_keeps _ (within hL rfl) h

theorem writeCopy_keeps (vals : List (Nat × Int)) (ovs : List Overlay)
    (hL : ∀ p ∈ ([.regs, .held, .mem, .pg, .bv, .ks, .pc] : List Part), p ∈ L) (h : keeps L o s) : keeps L o (writeCopy vals ovs s) :=
  showCfgSig_keeps (within hL rfl) (setKs_keeps _ (within hL rfl) (pcSys_keeps _ _ (within hL rfl) (mramPutAll_keeps _ _ (within hL rfl) h)))

theorem storeValue_keeps (key : Nat) (v : Int) (dflt : Int)
    (hL : ∀ p ∈ ([.regs, .held, .mem, .pg, .bv, .ks, .pc] : List Part), p ∈ L) (h : keeps L o s) : keeps L o (storeValue key v dflt s) :=
  writeCopy_keeps _ _ (within hL rfl) h

theorem loadCopy_keeps (hL : ∀ p ∈ ([.regs, .held, .pg, .bv, .ks, .pc] : List Part), p ∈ L) (h : keeps L o s) : keeps L o (loadCopy s) := by
  unfold loadCopy
  extract_lets _
  split
  · exact showCfgSig_keeps (within hL rfl) (putBit_keeps _ _ _ (within hL rfl) h)
  · extract_lets _ s1 s2
    have hs1 : keeps L o s1 := setKs_keeps _ (within hL rfl) h
    have hs2 : keeps L o s2 := by
      unfold s2
      refine keeps_forEach _ (fun _ _ h => ?_) hs1
      split
      · exact keeps_ite _ (setDirect_keeps _ _ _ _ (within hL rfl) h) h
      · exact h
    exact pcSys_keeps _ _ (within hL rfl) (showCfgSig_keeps (within hL rfl) hs2)

theorem showLog_keeps (hL : ∀ p ∈ ([.regs, .held, .pg, .bv, .pc] : List Part), p ∈ L) (h : keeps L o s) : keeps L o (showLog s) := by
  unfold showLog
  extract_lets _ _ _ s1 s2
  have hs1 : keeps L o s1 := putPair_keeps _ _ (within hL rfl) (putPair_keeps _ _ (within hL rfl) h)
  have hs2 : keeps L o s2 := keeps_whenB _ (fun _ h => raiseEvent_keeps _ (within hL rfl) h) (keeps_whenB _ (fun _ h => raiseEvent_keeps _ (within hL rfl) h) hs1)
  exact putFld_keeps _ _ _ _ (within hL rfl) (putBit_keeps _ _ _ (within hL rfl) (putBit_keeps _ _ _ (within hL rfl) hs2))

theorem logWrite_keeps (x : LogPend)
    (hL : ∀ p ∈ ([.sys, .regs, .held, .mem, .pg, .bv, .gh, .pc] : List Part), p ∈ L) (h : keeps L o s) : keeps L o (logWrite x s) := by
  unfold logWrite
  extract_lets n ws c s1
  have hs1 : keeps L o s1 := pcSys_keeps _ _ (within hL rfl) (mramPutAll_keeps _ _ (within hL rfl) h)
  clear_value s1
  exact showLog_keeps (within hL rfl) (keeps_same hs1 rfl rfl fun p hp => by cases p with | sys | gh => exact absurd (hL _ (by decide)) hp | _ => rfl)

/-- The search over the 4096 places is generalised away first: the kernel would run it. -/
theorem restoreLog_keeps (hL : ∀ p ∈ ([.sys, .regs, .held, .pg, .bv, .gh, .pc] : List Part), p ∈ L) (h : keeps L o s) : keeps L o (restoreLog s) := by
  have restored (y : SysCtl) (g : Gatehouse) : keeps L o (showLog { s with sys := y, gh := g }) :=
    showLog_keeps (within hL rfl) (keeps_gh (s := { s with sys := y }) g (within hL rfl) (keeps_sys y (within hL rfl) h))
  suffices go : ∀ r, r = restoreLog → keeps L o (r s) from go _ rfl
  intro r e
  delta restoreLog at e
  generalize List.range 4096 = places at e
  subst e
  beta_reduce
  generalize List.foldl _ none places = newest
  cases newest with
  | none => exact restored _ _
  | some x => exact restored _ _

theorem setAck_keeps (v : Nat)
    (hL : ∀ p ∈ ([.sys, .regs, .held, .pg, .bv, .pc] : List Part), p ∈ L) (h : keeps L o s) : keeps L o (setAck v s) :=
  showLog_keeps (within hL rfl) (keeps_sys _ (within hL rfl) h)

theorem setPw_keeps (p : Password) (hL : ∀ p ∈ ([.gh] : List Part), p ∈ L) (h : keeps L o s) : keeps L o (setPw p s) :=
  keeps_gh _ (within hL rfl) h

theorem showPw_keeps (hL : ∀ p ∈ ([.regs, .held] : List Part), p ∈ L) (h : keeps L o s) : keeps L o (showPw s) :=
  putBit_keeps _ _ _ (within hL rfl) (putBit_keeps _ _ _ (within hL rfl) (putBit_keeps _ _ _ (within hL rfl) h))

theorem newPassword_keeps (v : Nat)
    (hL : ∀ p ∈ ([.freeCtr, .sys, .regs, .held, .gh] : List Part), p ∈ L) (h : keeps L o s) : keeps L o (newPassword v s) :=
  showPw_keeps (within hL rfl) (keeps_sys _ (within hL rfl) (setPw_keeps _ (within hL rfl) (freeNat_keeps (within hL rfl) h)))

theorem tryPassword_keeps (f : KFrom) (v : Nat)
    (hL : ∀ p ∈ ([.regs, .held, .gh] : List Part), p ∈ L) (h : keeps L o s) : keeps L o (tryPassword f v s).1 := by
  unfold tryPassword
  extract_lets _ s1
  have hs1 : keeps L o s1 := count_keeps _ (within hL rfl) h
  refine keeps_ite_fst _ h ?_
  refine keeps_ite_fst _ (showPw_keeps (within hL rfl) (setPw_keeps _ (within hL rfl) h)) ?_
  refine keeps_ite_fst _ (showPw_keeps (within hL rfl) (setPw_keeps _ (within hL rfl) hs1)) ?_
  exact setPw_keeps _ (within hL rfl) hs1

theorem closeFor_keeps (src : BitVec 18) (port : KPort)
    (hL : ∀ p ∈ ([.regs, .held, .gh] : List Part), p ∈ L) (h : keeps L o s) : keeps L o (closeFor src port s) :=
  showPw_keeps (within hL rfl) (setPw_keeps _ (within hL rfl) h)

theorem settleDue_keeps (d : Due) (w : Word)
    (hL : ∀ p ∈ ([.regs, .held] : List Part), p ∈ L) (h : keeps L o s) : keeps L o (settleDue d w s) :=
  keeps_ite _ (regSet_keeps _ _ (within hL rfl) (keeps_held _ (within hL rfl) h)) (keeps_held _ (within hL rfl) h)

theorem refuseDue_keeps (d : Due) (hL : ∀ p ∈ ([.regs, .held] : List Part), p ∈ L) (h : keeps L o s) : keeps L o (refuseDue d s) :=
  settleDue_keeps _ _ (within hL rfl) h

theorem refuseThresholds_keeps (hL : ∀ p ∈ ([.regs, .held] : List Part), p ∈ L) (h : keeps L o s) : keeps L o (refuseThresholds s) := by
  unfold refuseThresholds
  refine keeps_upTo _ (fun _ _ h => ?_) h
  refine keeps_upTo _ (fun _ _ h => ?_) h
  extract_lets _
  split
  · exact keeps_ite _ (putBit_keeps _ _ _ (within hL rfl) (refuseDue_keeps _ (within hL rfl) h)) h
  · exact h

theorem acceptOne_keeps (d0 : Due)
    (hL : ∀ p ∈ ([.regs, .held, .cores, .pg, .sd, .mains, .sv, .bv, .gh, .pc] : List Part), p ∈ L)
    (h : keeps L o s) : keeps L o (acceptOne d0 s) := by
  unfold acceptOne
  split
  extract_lets _
  split
  extract_lets _ s1 s2 s3 _
  have hs1 : keeps L o s1 := keeps_whenB _ (fun _ h => dropWrite_keeps _ _ _ (within hL rfl) h) (keeps_whenB _ (fun _ h => putBit_keeps _ _ _ (within hL rfl) h) (keeps_whenB _ (fun _ h => putBit_keeps _ _ _ (within hL rfl) h) h))
  have hs2 : keeps L o s2 := settleDue_keeps _ _ (within hL rfl) hs1
  have hs3 : keeps L o s3 := refuseDue_keeps _ (within hL rfl) hs1
  refine keeps_ite _ hs3 ?_
  refine keeps_ite _ (putBit_keeps _ _ _ (within hL rfl) hs3) ?_
  refine keeps_ite _ (putBit_keeps _ _ _ (within hL rfl) hs3) ?_
  refine keeps_ite _ (putBit_keeps _ _ _ (within hL rfl) hs3) ?_
  refine keeps_ite _ (putBit_keeps _ _ _ (within hL rfl) hs3) ?_
  refine keeps_ite _ hs3 ?_
  refine keeps_ite _ (tbConfigTaken_keeps _ _ _ (within hL rfl) hs2) ?_
  refine keeps_ite _ (firstUseOf_keeps _ (within hL rfl) hs2) ?_
  refine keeps_ite _ (selectSet_keeps _ (within hL rfl) hs2) ?_
  exact keeps_ite _ (ckRestart_keeps _ (within hL rfl) hs2) (keeps_ite _ (descDisabled_keeps _ (within hL rfl) hs2) (keeps_ite _ (showPeriod_keeps (within hL rfl) (keeps_mains _ (within hL rfl) hs2)) hs2))

theorem feedbackTaken_keeps (ds : List Due)
    (hL : ∀ p ∈ ([.regs, .held, .sd, .fb] : List Part), p ∈ L) (h : keeps L o s) : keeps L o (feedbackTaken ds s) :=
  keeps_forEach _ (fun _ _ h => fbConfigTaken_keeps _ _ _ _ _ _ _ (within hL rfl) h) h

theorem moversTaken_keeps (ds : List Due)
    (hL : ∀ p ∈ ([.regs, .held, .sv, .gh] : List Part), p ∈ L) (h : keeps L o s) : keeps L o (moversTaken ds s) := by
  unfold moversTaken
  refine keeps_upTo _ (fun _ _ h => ?_) h
  extract_lets _ _
  refine keeps_ite _ h ?_
  exact keeps_ite _ (keeps_whenB _ (fun _ h => firstUseOf_keeps _ (within hL rfl) h) h) (putBit_keeps _ _ _ (within hL rfl) (keeps_forEach _ (fun _ _ h => keeps_ite _ (keeps_held _ (within hL rfl) h) (regSet_keeps _ _ (within hL rfl) h)) h))

theorem sourceCheck_keeps (n : Nat) (hL : ∀ p ∈ ([.regs, .held] : List Part), p ∈ L) (h : keeps L o s) : keeps L o (sourceCheck n s) :=
  keeps_ite _ (putBit_keeps _ _ _ (within hL rfl) (putBit_keeps _ _ _ (within hL rfl) h)) h

theorem sourcesTaken_keeps (ds : List Due)
    (hL : ∀ p ∈ ([.regs, .held] : List Part), p ∈ L) (h : keeps L o s) : keeps L o (sourcesTaken ds s) :=
  keeps_upTo _ (fun _ _ h => keeps_ite _ (sourceCheck_keeps _ (within hL rfl) h) h) h

theorem commitStaged_keeps (hL : ∀ p ∈ ([.regs, .held, .mo, .sv] : List Part), p ∈ L) (h : keeps L o s) : keeps L o (commitStaged s) :=
  keeps_forEach _ (fun _ _ h => commitBiquad_keeps _ (within hL rfl) h) (keeps_sv _ (within hL rfl) (keeps_forEach _ (fun _ _ h => commitTable_keeps _ (within hL rfl) h) (keeps_mo _ (within hL rfl) h)))

theorem psetFired_keeps (hL : ∀ p ∈ ([.sd] : List Part), p ∈ L) (h : keeps L o s) : keeps L o (psetFired s) :=
  keeps_sd _ (within hL rfl) h

theorem acceptWrites_keeps
    (hL : ∀ p ∈ ([.regs, .held, .cores, .pg, .sd, .mains, .fb, .fbo, .mo, .sv, .bv, .gh, .pc] : List Part), p ∈ L)
    (h : keeps L o s) : keeps L o (acceptWrites s) := by
  unfold acceptWrites
  extract_lets s1 _ _ s2 _ s3
  have hs1 : keeps L o s1 := refuseThresholds_keeps (within hL rfl) h
  have hs2 : keeps L o s2 := keeps_forEach _ (fun _ _ h => acceptOne_keeps _ (within hL rfl) h) hs1
  have hs3 : keeps L o s3 := keeps_forEach _ (fun _ _ h => signBlock_keeps _ (within hL rfl) h) (keeps_gh _ (within hL rfl) hs2)
  refine sourcesTaken_keeps _ (within hL rfl) ?_
  refine moversTaken_keeps _ (within hL rfl) ?_
  exact feedbackTaken_keeps _ (within hL rfl) (keeps_forEach _ (fun _ _ h => fboCopy_keeps _ (within hL rfl) h) (psetFired_keeps (within hL rfl) (commitEntries_keeps (within hL rfl) (commitStaged_keeps (within hL rfl) hs3))))

theorem changeEntry_keeps (old new : Nat) (x : Nat × Nat)
    (hL : ∀ p ∈ ([.regs, .held, .gh, .ks] : List Part), p ∈ L) (h : keeps L o s) : keeps L o (changeEntry old new x s) := by
  unfold changeEntry
  extract_lets _
  split
  extract_lets _ _ _
  split
  · extract_lets _ _ s1
    have hs1 : keeps L o s1 := setDirect_keeps _ _ _ _ (within hL rfl) (setKs_keeps _ (within hL rfl) h)
    refine keeps_ite _ h ?_
    split
    · exact signBlock_keeps _ (within hL rfl) (keeps_ite _ (selectSet_keeps _ (within hL rfl) hs1) hs1)
    · exact hs1
  · exact h

theorem selectOverlays_keeps (hL : ∀ p ∈ ([.regs, .held, .gh, .ks] : List Part), p ∈ L) (h : keeps L o s) : keeps L o (selectOverlays s) := by
  unfold selectOverlays
  extract_lets _ _ _ _ s1 s2 _ _ _ s3 _
  have hs1 : keeps L o s1 := keeps_whenB _ (fun _ h => putBit_keeps _ _ _ (within hL rfl) h) h
  have hs2 : keeps L o s2 := keeps_ite _ (putFld_keeps _ _ _ _ (within hL rfl) hs1) hs1
  have hs3 : keeps L o s3 := setKs_keeps _ (within hL rfl) hs2
  exact keeps_ite _ hs3 (keeps_forEach _ (fun _ _ h => changeEntry_keeps _ _ _ (within hL rfl) h) hs3)

theorem runStaged_keeps (old : State) (d : Due)
    (hL : ∀ p ∈ ([.regs, .held, .pg, .mo, .sv, .bv, .pc] : List Part), p ∈ L) (h : keeps L o s) : keeps L o (runStaged old d s) := by
  unfold runStaged
  extract_lets s1 _ _
  have hs1 : keeps L o s1 := settleDue_keeps _ _ (within hL rfl) h
  refine keeps_ite _ (gwCommand_keeps _ (within hL rfl) hs1) ?_
  refine keeps_ite _ (keeps_ite _ (genStart_keeps _ (within hL rfl) hs1) hs1) ?_
  refine keeps_ite _ (keeps_ite _ (genStart_keeps _ (within hL rfl) hs1) hs1) ?_
  exact keeps_ite _ (keeps_ite _ (keeps_ite _ (bvArm_keeps _ (within hL rfl) hs1) (dropWrite_keeps _ _ _ (within hL rfl) hs1)) hs1) (keeps_ite _ hs1 (keeps_ite _ (dropWrite_keeps _ _ _ (within hL rfl) hs1) (mpCommand_keeps _ _ (within hL rfl) hs1)))

theorem runCommands_keeps (old : State)
    (hL : ∀ p ∈ ([.sys, .regs, .held, .pg, .mo, .sv, .bv, .pc] : List Part), p ∈ L) (h : keeps L o s) : keeps L o (runCommands old s) :=
  keeps_sys _ (within hL rfl) (keeps_forEach _ (fun _ _ h => runStaged_keeps _ _ (within hL rfl) h) h)

theorem runExchange_keeps (hL : ∀ p ∈ ([.regs, .held, .lk, .pr] : List Part), p ∈ L) (h : keeps L o s) : keeps L o (runExchange s) := by
  unfold runExchange
  split
  · exact keeps_ite _ (xchgRequest_keeps (within hL rfl) (settleDue_keeps _ _ (within hL rfl) h)) (settleDue_keeps _ _ (within hL rfl) h)
  · exact h

theorem configBoundary_keeps
    (hL : ∀ p ∈ ([.sys, .regs, .held, .cores, .pg, .sd, .mains, .fb, .fbo, .mo, .sv, .bv, .gh, .pc] : List Part), p ∈ L)
    (h : keeps L o s) : keeps L o (configBoundary s) :=
  runCommands_keeps _ (within hL rfl) (acceptWrites_keeps (within hL rfl) (keeps_same h rfl rfl fun p hp => by cases p with | sys | regs | held | cores | pg | sd | mains | fb | fbo | mo | sv | bv | gh | pc => exact absurd (hL _ (by decide)) hp | _ => rfl))

theorem checkPersist_keeps (damaged : BitVec 5)
    (hL : ∀ p ∈ ([.sys, .regs, .held] : List Part), p ∈ L) (h : keeps L o s) : keeps L o (checkPersist damaged s) :=
  keeps_whenB _ (fun _ h => putBit_keeps _ _ _ (within hL rfl) h) (keeps_sys _ (within hL rfl) h)

theorem showPersist_keeps
    (hL : ∀ p ∈ ([.regs, .held, .pg, .bv, .lk, .gh, .pc] : List Part), p ∈ L) (h : keeps L o s) : keeps L o (showPersist s) := by
  unfold showPersist
  extract_lets _ _ _ _ s1
  have hs1 : keeps L o s1 := keeps_same h rfl rfl fun p hp => by cases p with | lk | gh => exact absurd (hL _ (by decide)) hp | _ => rfl
  exact showPw_keeps (within hL rfl) (showLog_keeps (within hL rfl) (putWord_keeps _ _ (within hL rfl) (putWord_keeps _ _ (within hL rfl) (putWord_keeps _ _ (within hL rfl) hs1))))

theorem loadImage_keeps (hL : ∀ p ∈ ([.regs, .held, .mem, .pg, .bv, .pc] : List Part), p ∈ L) (h : keeps L o s) : keeps L o (loadImage s) :=
  pcSys_keeps _ _ (within hL rfl) (keeps_upTo _ (fun _ _ h => keeps_upTo _ (fun _ _ h => pgmSet_keeps _ _ _ (within hL rfl) h) h) h)

theorem restoreRecord_keeps (hL : ∀ p ∈ ([.sys, .regs, .held] : List Part), p ∈ L) (h : keeps L o s) : keeps L o (restoreRecord s) := by
  unfold restoreRecord
  extract_lets newest
  cases newest with
  | none => exact putWord_keeps _ _ (within hL rfl) h
  | some q => exact putWord_keeps _ _ (within hL rfl) (keeps_sys _ (within hL rfl) h)

theorem recordReset_keeps (hL : ∀ p ∈ ([.sys, .regs, .held] : List Part), p ∈ L) (h : keeps L o s) : keeps L o (recordReset s) := by
  unfold recordReset
  extract_lets _
  split
  · exact h
  · exact faultRecord_keeps _ _ _ _ (within hL rfl) (keeps_sys _ (within hL rfl) h)

theorem restoreRings_keeps
    (hL : ∀ p ∈ ([.sys, .regs, .held, .mem, .pg, .mo, .sv, .bv, .lk, .gh, .pc] : List Part), p ∈ L) (h : keeps L o s) : keeps L o (restoreRings s) :=
  writeReturn_keeps (within hL rfl) (recordReset_keeps (within hL rfl) (restoreRecord_keeps (within hL rfl) (showSlots_keeps (within hL rfl) (restoreLog_keeps (within hL rfl) (restoreStandstill_keeps (within hL rfl) h)))))

theorem startCores_keeps (hL : ∀ p ∈ ([.cores] : List Part), p ∈ L) (h : keeps L o s) : keeps L o (startCores s) :=
  keeps_forEach _ (fun _ _ h => setCore_keeps _ _ (within hL rfl) h) h

theorem endBoot_keeps
    (hL : ∀ p ∈ ([.sys, .regs, .held, .cores, .pg, .sd, .mains, .fb, .fbo, .mo, .sv, .bv, .gh, .pc] : List Part), p ∈ L)
    (h : keeps L o s) : keeps L o (endBoot s) := by
  unfold endBoot
  extract_lets _ _ s1 _
  have hs1 : keeps L o s1 := keeps_same h rfl rfl fun p hp => by cases p with | sys | mains => exact absurd (hL _ (by decide)) hp | _ => rfl
  exact keeps_ite _ (keeps_sys _ (within hL rfl) hs1) (startCores_keeps (within hL rfl) (showPeriod_keeps (within hL rfl) (configBoundary_keeps (within hL rfl) (keeps_sys _ (within hL rfl) hs1))))

theorem toStep_keeps (n : Nat) (hL : ∀ p ∈ ([.sys] : List Part), p ∈ L) (h : keeps L o s) : keeps L o (toStep n s) :=
  keeps_sys _ (within hL rfl) h

theorem beginWait_keeps (hL : ∀ p ∈ ([.sys] : List Part), p ∈ L) (h : keeps L o s) : keeps L o (beginWait s) :=
  keeps_ite _ (toStep_keeps _ (within hL rfl) h) (keeps_sys _ (within hL rfl) h)

theorem bootStep_keeps (damaged : BitVec 5)
    (hL : ∀ p ∈ ([.sys, .regs, .held, .mem, .cores, .pg, .sd, .mains, .fb, .fbo, .mo, .sv, .bv, .lk, .gh, .ks, .pc] : List Part), p ∈ L)
    (h : keeps L o s) : keeps L o (bootStep damaged s) := by
  unfold bootStep
  extract_lets _ _
  refine keeps_ite _ h ?_
  refine keeps_ite _ (toStep_keeps _ (within hL rfl) (keeps_mains _ (within hL rfl) h)) ?_
  refine keeps_ite _ (toStep_keeps _ (within hL rfl) (loadBoot_keeps (within hL rfl) h)) ?_
  refine keeps_ite _ (beginWait_keeps (within hL rfl) (showPersist_keeps (within hL rfl) (checkPersist_keeps _ (within hL rfl) h))) ?_
  refine keeps_ite _ (keeps_ite _ (toStep_keeps _ (within hL rfl) (loadImage_keeps (within hL rfl) h)) (enterBootHold_keeps (within hL rfl) (putBit_keeps _ _ _ (within hL rfl) h))) ?_
  exact keeps_ite _ (toStep_keeps _ (within hL rfl) (loadCopy_keeps (within hL rfl) h)) (keeps_ite _ (toStep_keeps _ (within hL rfl) (restoreRings_keeps (within hL rfl) h)) (keeps_ite _ (endBoot_keeps (within hL rfl) (keeps_gh _ (within hL rfl) h)) h))

theorem bwaitOver_keeps (hL : ∀ p ∈ ([.sys] : List Part), p ∈ L) (h : keeps L o s) : keeps L o (bwaitOver s) :=
  keeps_ite _ (keeps_sys _ (within hL rfl) h) h

theorem flushAll_keeps
    (hL : ∀ p ∈ ([.freeCtr, .sys, .regs, .held, .mem, .pg, .mo, .bv, .gh, .pc] : List Part), p ∈ L) (h : keeps L o s) : keeps L o (flushAll s) := by
  unfold flushAll
  extract_lets s1 s2 s3
  have hs1 : keeps L o s1 := keeps_forEach _ (fun _ _ h => flushStore_keeps _ (within hL rfl) h) h
  have hs2 : keeps L o s2 := flushRecords_keeps (within hL rfl) hs1
  have hs3 : keeps L o s3 := by
    unfold s3
    split
    · exact hs2
    · exact logWrite_keeps _ (within hL rfl) hs2
  exact writeReturn_keeps (within hL rfl) hs3

theorem flushComplete_keeps
    (hL : ∀ p ∈ ([.now, .freeCtr, .sys, .regs, .held, .mem, .cores, .pg, .sd, .mains, .fb, .fbo, .mo, .sv, .bv, .lk, .time, .pr, .gh, .ph, .can,
      .ks, .pc] : List Part), p ∈ L)
    (h : keeps L o s) : keeps L o (flushComplete s) := by
  unfold flushComplete
  extract_lets r
  have hr : keeps L o r := cleared_keeps (within hL rfl) (flushAll_keeps (within hL rfl) h)
  clear_value r
  exact keeps_ite _ (keeps_same hr rfl rfl fun p hp => by cases p with | sys | ph => exact absurd (hL _ (by decide)) hp | _ => rfl) h

end Sys2Proof.Machine
end

