-- ==== Sys2Proof/Proofs/KeepsKiosk.lean ====
section
/-! PROOFS. What Kiosk, the boundary and the register accesses keep. -/

namespace Sys2Proof.Machine

variable {L : List Part} {o s : State}

theorem toNodeMsg_keeps (n : LinkAddr) (msgid : Nat) (kind : SvcKind) (b : List Byte)
    (hL : ∀ p ∈ ([.lk] : List Part), p ∈ L) (h : keeps L o s) : keeps L o (toNodeMsg n msgid kind b s) :=
  setSvc_keeps _ (within hL rfl) h

theorem newMsgId_keeps (hL : ∀ p ∈ ([.ks] : List Part), p ∈ L) (h : keeps L o s) : keeps L o (newMsgId s).2 := by
  unfold newMsgId
  extract_lets _ _
  exact setKs_keeps _ (within hL rfl) h

theorem mailbox_keeps (b : List Byte) (hL : ∀ p ∈ ([.regs, .held] : List Part), p ∈ L) (h : keeps L o s) : keeps L o (mailbox b s) :=
  putBit_keeps _ _ _ (within hL rfl) (putWords_keeps _ _ (within hL rfl) h)

theorem keepOut_keeps (p : KPort) (node : Nat) (b : List Byte)
    (hL : ∀ p ∈ ([.ks] : List Part), p ∈ L) (h : keeps L o s) : keeps L o (keepOut p node b s) :=
  setKs_keeps _ (within hL rfl) h

theorem canOut_keeps (c : Fin 2) (node : Nat) (b : List Byte)
    (hL : ∀ p ∈ ([.ks] : List Part), p ∈ L) (h : keeps L o s) : keeps L o (canOut c node b s) :=
  keeps_ite _ h (keepOut_keeps _ _ _ (within hL rfl) h)

theorem deliver_keeps (q : KReq) (r : KResp)
    (hL : ∀ p ∈ ([.regs, .held, .lk, .ks] : List Part), p ∈ L) (h : keeps L o s) : keeps L o (deliver q r s) := by
  unfold deliver
  extract_lets _ s1 _
  have hs1 : keeps L o s1 := setKs_keeps _ (within hL rfl) h
  refine keeps_ite _ h ?_
  split
  · exact mailbox_keeps _ (within hL rfl) hs1
  · exact canOut_keeps _ _ _ (within hL rfl) hs1
  · exact keeps_ite _ (toNodeMsg_keeps _ _ _ _ (within hL rfl) (newMsgId_keeps (within hL rfl) hs1)) (newMsgId_keeps (within hL rfl) hs1)
  · exact laneSend_keeps _ (within hL rfl) hs1
  · exact setKs_keeps _ (within hL rfl) hs1

theorem kAbort_keeps (q : KReq) (code : BitVec 32)
    (hL : ∀ p ∈ ([.regs, .held, .lk, .ks] : List Part), p ∈ L) (h : keeps L o s) : keeps L o (kAbort q code s) :=
  keeps_ite _ h (deliver_keeps _ _ (within hL rfl) (count_keeps _ (within hL rfl) h))

theorem kFinish_keeps (q : KReq) (r : KResp)
    (hL : ∀ p ∈ ([.regs, .held, .lk, .ks] : List Part), p ∈ L) (h : keeps L o s) : keeps L o (kFinish q r s) := by
  unfold kFinish
  extract_lets s1 s2 _ _
  have hs1 : keeps L o s1 := count_keeps _ (within hL rfl) h
  have hs2 : keeps L o s2 := by
    unfold s2
    split
    · exact keeps_ite _ hs1 (count_keeps _ (within hL rfl) hs1)
    · exact hs1
  exact deliver_keeps _ _ (within hL rfl) (keeps_ite _ hs2 (setKs_keeps _ (within hL rfl) hs2))

theorem approve_keeps (i : Nat) (hL : ∀ p ∈ ([.ks] : List Part), p ∈ L) (h : keeps L o s) : keeps L o (approve i s) :=
  setKs_keeps _ (within hL rfl) h

theorem secureApply_keeps (x : LogPend)
    (hL : ∀ p ∈ ([.now, .freeCtr, .sys, .regs, .held, .mem, .cores, .pg, .sd, .mains, .fb, .fbo, .mo, .sv, .bv, .lk, .time, .pr, .gh, .ph, .can,
      .ks, .pc] : List Part), p ∈ L)
    (h : keeps L o s) : keeps L o (secureApply x s) := by
  unfold secureApply
  extract_lets _ _
  split
  · split
    · exact h
    · extract_lets s1
      have hs1 : keeps L o s1 := keeps_ite _ h (writeEntry_keeps _ _ _ _ (within hL rfl) h)
      exact keeps_ite _ (newPassword_keeps _ (within hL rfl) h) (keeps_ite _ (kioskWrite_keeps _ _ (within hL rfl) h) (keeps_ite _ h (keeps_ite _ (approve_keeps _ (within hL rfl) h) (keeps_ite _ (storeValue_keeps _ _ _ (within hL rfl) hs1) hs1))))
  · exact h

theorem logSettle_keeps (x : LogPend)
    (hL : ∀ p ∈ ([.now, .freeCtr, .sys, .regs, .held, .mem, .cores, .pg, .sd, .mains, .fb, .fbo, .mo, .sv, .bv, .lk, .time, .pr, .gh, .ph, .can,
      .ks, .pc] : List Part), p ∈ L)
    (h : keeps L o s) : keeps L o (logSettle x s) := by
  unfold logSettle
  extract_lets _ s1
  have hs1 : keeps L o s1 := keeps_gh _ (within hL rfl) h
  refine keeps_ite _ h ?_
  exact keeps_ite _ (laneSend_keeps _ (within hL rfl) (secureApply_keeps _ (within hL rfl) hs1)) (keeps_ite _ (kFinish_keeps _ _ (within hL rfl) (secureApply_keeps _ (within hL rfl) hs1)) (keeps_ite _ (kFinish_keeps _ _ (within hL rfl) hs1) h))

theorem logVerified_keeps (ok : Bool)
    (hL : ∀ p ∈ ([.now, .freeCtr, .sys, .regs, .held, .mem, .cores, .pg, .sd, .mains, .fb, .fbo, .mo, .sv, .bv, .lk, .time, .pr, .gh, .ph, .can,
      .ks, .pc] : List Part), p ∈ L)
    (h : keeps L o s) : keeps L o (logVerified ok s) := by
  unfold logVerified
  extract_lets _
  split
  · exact h
  · extract_lets _ s1 _ s2
    have hs1 : keeps L o s1 := logWrite_keeps _ (within hL rfl) h
    have hs2 : keeps L o s2 := putBit_keeps _ _ _ (within hL rfl) (keeps_gh _ (within hL rfl) h)
    exact keeps_ite _ (logSettle_keeps _ (within hL rfl) (keeps_gh _ (within hL rfl) hs1)) (keeps_ite _ (laneSend_keeps _ (within hL rfl) hs2) (kFinish_keeps _ _ (within hL rfl) hs2))

theorem logAccept_keeps (x : LogPend)
    (hL : ∀ p ∈ ([.sys, .regs, .held, .pg, .bv, .lk, .gh, .pc] : List Part), p ∈ L) (h : keeps L o s) : keeps L o (logAccept x s) :=
  keeps_ite _ (keeps_gh _ (within hL rfl) (keeps_ite _ (setAck_keeps _ (within hL rfl) h) h)) (laneSend_keeps _ (within hL rfl) (keeps_gh _ (within hL rfl) (keeps_ite _ (setAck_keeps _ (within hL rfl) h) h)))

theorem secureWrite_keeps (q : KReq) (e : KEntry) (v : Int)
    (hL : ∀ p ∈ ([.sys, .regs, .held, .pg, .bv, .lk, .gh, .pc] : List Part), p ∈ L) (h : keeps L o s) : keeps L o (secureWrite q e v s).2 := by
  unfold secureWrite
  extract_lets _
  refine keeps_ite_snd _ h ?_
  refine keeps_ite_snd _ h ?_
  refine keeps_ite_snd _ h ?_
  refine keeps_ite_snd _ h ?_
  refine keeps_ite_snd _ h ?_
  refine keeps_ite_snd _ h ?_
  exact logAccept_keeps _ (within hL rfl) h

theorem partnerLogs_keeps (q : KReq)
    (hL : ∀ p ∈ ([.sys, .regs, .held, .pg, .bv, .lk, .gh, .pc] : List Part), p ∈ L) (h : keeps L o s) : keeps L o (partnerLogs q s) := by
  unfold partnerLogs
  split
  · split
    · exact keeps_ite _ (laneSend_keeps _ (within hL rfl) h) (logAccept_keeps _ (within hL rfl) h)
    · exact laneSend_keeps _ (within hL rfl) h
  · exact laneSend_keeps _ (within hL rfl) h

theorem partnerLogged_keeps (src : BitVec 18) (reqid : BitVec 16) (ok : Bool)
    (hL : ∀ p ∈ ([.now, .freeCtr, .sys, .regs, .held, .mem, .cores, .pg, .sd, .mains, .fb, .fbo, .mo, .sv, .bv, .lk, .time, .pr, .gh, .ph, .can,
      .ks, .pc] : List Part), p ∈ L)
    (h : keeps L o s) : keeps L o (partnerLogged src reqid ok s) := by
  unfold partnerLogged
  extract_lets _
  split
  · exact h
  · exact logSettle_keeps _ (within hL rfl) (keeps_gh _ (within hL rfl) h)

theorem jobSettle_keeps (j : StoreJob)
    (hL : ∀ p ∈ ([.regs, .held, .lk, .ks] : List Part), p ∈ L) (h : keeps L o s) : keeps L o (jobSettle j s) :=
  keeps_ite _ h (keeps_ite _ (laneSend_keeps _ (within hL rfl) (setKs_keeps _ (within hL rfl) h)) (keeps_ite _ h (keeps_ite _ (setKs_keeps _ (within hL rfl) h) (kFinish_keeps _ _ (within hL rfl) (setKs_keeps _ (within hL rfl) h)))))

theorem jobStart_keeps (q : KReq) (relayed ownDone : Bool) (vals : Option (List (Nat × Int)))
    (hL : ∀ p ∈ ([.regs, .held, .lk, .ks] : List Part), p ∈ L) (h : keeps L o s) : keeps L o (jobStart q relayed ownDone vals s) :=
  jobSettle_keeps _ (within hL rfl) (keeps_whenB _ (fun _ h => laneSend_keeps _ (within hL rfl) h) (setKs_keeps _ (within hL rfl) h))

theorem storeAll_keeps (q : KReq) (relayed : Bool)
    (hL : ∀ p ∈ ([.regs, .held, .lk, .ks] : List Part), p ∈ L) (h : keeps L o s) : keeps L o (storeAll q relayed s).2 := by
  unfold storeAll
  extract_lets vals
  clear_value vals
  refine keeps_ite_snd _ h ?_
  dsimp only
  exact jobStart_keeps _ _ _ _ (within hL rfl) h

theorem restoreAll_keeps (q : KReq) (relayed : Bool)
    (hL : ∀ p ∈ ([.sys, .regs, .held, .lk, .ks] : List Part), p ∈ L) (h : keeps L o s) : keeps L o (restoreAll q relayed s) :=
  jobStart_keeps _ _ _ _ (within hL rfl) (keeps_sys _ (within hL rfl) h)

theorem overlayReplace_keeps (q : KReq) (relayed : Bool)
    (hL : ∀ p ∈ ([.regs, .held, .lk, .ks] : List Part), p ∈ L) (h : keeps L o s) : keeps L o (overlayReplace q relayed s).2 := by
  unfold overlayReplace
  extract_lets i k l _ _ s1
  have hs1 : keeps L o s1 := showCfgSig_keeps (within hL rfl) (setKs_keeps _ (within hL rfl) h)
  refine keeps_ite_snd _ h (keeps_ite_snd _ h (keeps_ite_snd _ h ?_))
  dsimp only
  exact jobStart_keeps _ _ _ _ (within hL rfl) hs1

theorem storeComplete_keeps (ok : Bool)
    (hL : ∀ p ∈ ([.sys, .regs, .held, .mem, .pg, .bv, .lk, .ks, .pc] : List Part), p ∈ L) (h : keeps L o s) : keeps L o (storeComplete ok s) := by
  unfold storeComplete
  extract_lets _ _ _
  split
  · exact h
  · extract_lets s1 s2 _ _
    have hs1 : keeps L o s1 := setKs_keeps _ (within hL rfl) h
    have hs2 : keeps L o s2 := writeCopy_keeps _ _ (within hL rfl) (keeps_sys _ (within hL rfl) h)
    exact keeps_ite _ (jobSettle_keeps _ (within hL rfl) (setKs_keeps _ (within hL rfl) hs2)) (keeps_ite _ (laneSend_keeps _ (within hL rfl) hs1) (keeps_ite _ hs1 (kFinish_keeps _ _ (within hL rfl) hs1)))

theorem partnerTimeout_keeps
    (hL : ∀ p ∈ ([.regs, .held, .lk, .pr, .ks] : List Part), p ∈ L) (h : keeps L o s) : keeps L o (partnerTimeout s) := by
  unfold partnerTimeout
  extract_lets _ s1 _
  have hs1 : keeps L o s1 := putBit_keeps _ _ _ (within hL rfl) (setPr_keeps _ (within hL rfl) h)
  split
  · exact h
  · exact keeps_ite _ (setKs_keeps _ (within hL rfl) hs1) (kFinish_keeps _ _ (within hL rfl) (setKs_keeps _ (within hL rfl) hs1))

theorem partnerCompleted_keeps (src : BitVec 18) (reqid : BitVec 16) (ok : Bool)
    (hL : ∀ p ∈ ([.regs, .held, .lk, .pr, .ks] : List Part), p ∈ L) (h : keeps L o s) : keeps L o (partnerCompleted src reqid ok s) := by
  unfold partnerCompleted
  extract_lets _
  split
  · exact h
  · exact keeps_ite _ (jobSettle_keeps _ (within hL rfl) (setKs_keeps _ (within hL rfl) h)) (partnerTimeout_keeps (within hL rfl) h)

theorem partnerJob_keeps (q : KReq)
    (hL : ∀ p ∈ ([.sys, .regs, .held, .lk, .ks] : List Part), p ∈ L) (h : keeps L o s) : keeps L o (partnerJob q s) := by
  unfold partnerJob
  extract_lets _
  refine keeps_ite _ (keeps_ite _ (laneSend_keeps _ (within hL rfl) (storeAll_keeps _ _ (within hL rfl) h)) (storeAll_keeps _ _ (within hL rfl) h)) ?_
  exact keeps_ite _ (restoreAll_keeps _ _ (within hL rfl) h) (keeps_ite _ (keeps_ite _ (laneSend_keeps _ (within hL rfl) (overlayReplace_keeps _ _ (within hL rfl) h)) (overlayReplace_keeps _ _ (within hL rfl) h)) h)

theorem putOut_keeps (out : KPort) (node m : Nat) (kind : SvcKind) (q : KReq)
    (hL : ∀ p ∈ ([.regs, .held, .lk, .ks] : List Part), p ∈ L) (h : keeps L o s) : keeps L o (putOut out node m kind q s) := by
  unfold putOut
  extract_lets _ _
  split
  · exact canOut_keeps _ _ _ (within hL rfl) h
  · exact keeps_ite _ (toNodeMsg_keeps _ _ _ _ (within hL rfl) h) (laneSend_keeps _ (within hL rfl) h)
  · exact laneSend_keeps _ (within hL rfl) h
  · exact mailbox_keeps _ (within hL rfl) h
  · exact h

theorem sendOn_keeps (out : KPort) (node : Nat) (q : KReq)
    (hL : ∀ p ∈ ([.regs, .held, .lk, .ks] : List Part), p ∈ L) (h : keeps L o s) : keeps L o (sendOn out node q s) :=
  putOut_keeps _ _ _ _ _ (within hL rfl) (count_keeps _ (within hL rfl) (setKs_keeps _ (within hL rfl) (newMsgId_keeps (within hL rfl) h)))

theorem kForward_keeps (q : KReq) (hL : ∀ p ∈ ([.regs, .held, .lk, .ks] : List Part), p ∈ L) (h : keeps L o s) : keeps L o (kForward q s) := by
  unfold kForward
  split
  · exact kAbort_keeps _ _ (within hL rfl) h
  · extract_lets _
    split
    · exact kAbort_keeps _ _ (within hL rfl) h
    · exact sendOn_keeps _ _ _ (within hL rfl) h

theorem forwardTimeout_keeps (m : Nat)
    (hL : ∀ p ∈ ([.regs, .held, .lk, .ks] : List Part), p ∈ L) (h : keeps L o s) : keeps L o (forwardTimeout m s) := by
  unfold forwardTimeout
  extract_lets _
  split
  · exact h
  · exact kAbort_keeps _ _ (within hL rfl) (count_keeps _ (within hL rfl) (setKs_keeps _ (within hL rfl) h))

theorem forwardDone_keeps (m : Nat) (r : KResp)
    (hL : ∀ p ∈ ([.regs, .held, .lk, .ks] : List Part), p ∈ L) (h : keeps L o s) : keeps L o (forwardDone m r s) := by
  unfold forwardDone
  extract_lets _
  split
  · exact h
  · exact deliver_keeps _ _ (within hL rfl) (setKs_keeps _ (within hL rfl) h)

theorem responseFor_keeps (src : BitVec 18) (reqid : BitVec 16) (out : KPort → Bool) (r : KResp)
    (hL : ∀ p ∈ ([.regs, .held, .lk, .ks] : List Part), p ∈ L) (h : keeps L o s) : keeps L o (responseFor src reqid out r s) := by
  unfold responseFor
  split
  · exact h
  · exact forwardDone_keeps _ _ (within hL rfl) h

theorem passwordEntry_keeps (q : KReq) (v : Nat)
    (hL : ∀ p ∈ ([.regs, .held, .gh] : List Part), p ∈ L) (h : keeps L o s) : keeps L o (passwordEntry q v s).2 := by
  unfold passwordEntry
  extract_lets _
  exact tryPassword_keeps _ _ (within hL rfl) h

theorem routedTake_keeps (q : KReq) (hL : ∀ p ∈ ([.ks] : List Part), p ∈ L) (h : keeps L o s) : keeps L o (routedTake q s).2 := by
  unfold routedTake
  extract_lets _ _ _ _
  exact setKs_keeps _ (within hL rfl) h

theorem serveWrite_keeps (had : Bool) (q : KReq) (e : KEntry) (i sub : Nat)
    (hL : ∀ p ∈ ([.now, .sys, .regs, .held, .mem, .cores, .pg, .sd, .mains, .fb, .fbo, .mo, .sv, .bv, .lk, .time, .pr, .gh, .ph, .can, .ks,
      .pc] : List Part), p ∈ L)
    (h : keeps L o s) : keeps L o (serveWrite had q e i sub s).2 := by
  unfold serveWrite
  extract_lets _ _
  refine keeps_ite_snd _ h ?_
  refine keeps_ite_snd _ h ?_
  refine keeps_ite_snd _ h ?_
  split
  · exact h
  · refine keeps_ite_snd _ h ?_
    refine keeps_ite_snd _ h ?_
    refine keeps_ite_snd _ (overlayReplace_keeps _ _ (within hL rfl) h) ?_
    refine keeps_ite_snd _ h ?_
    split
    · exact h
    · split
      · exact h
      · refine keeps_ite_snd _ h ?_
        refine keeps_ite_snd _ (secureWrite_keeps _ _ _ (within hL rfl) h) ?_
        split
        · refine keeps_ite_snd _ (storeAll_keeps _ _ (within hL rfl) h) ?_
          exact h
        · split
          · refine keeps_ite_snd _ ?_ h
            dsimp only
            exact restoreAll_keeps _ _ (within hL rfl) h
          · refine keeps_ite_snd _ (keeps_ite _ (setKs_keeps _ (within hL rfl) h) h) ?_
            refine keeps_ite_snd _ (passwordEntry_keeps _ _ (within hL rfl) h) ?_
            refine keeps_ite_snd _ (closeFor_keeps _ _ (within hL rfl) h) ?_
            refine keeps_ite_snd _ h ?_
            exact writeEntry_keeps _ _ _ _ (within hL rfl) h

theorem routedRead_keeps (src : BitVec 18) (hL : ∀ p ∈ ([.ks] : List Part), p ∈ L) (h : keeps L o s) : keeps L o (routedRead src s).2 := by
  unfold routedRead
  extract_lets _
  split
  · exact setKs_keeps _ (within hL rfl) h
  · exact h

theorem serveRead_keeps (q : KReq) (e : KEntry) (i sub : Nat)
    (hL : ∀ p ∈ ([.freeCtr, .ks] : List Part), p ∈ L) (h : keeps L o s) : keeps L o (serveRead q e i sub s).2 := by
  unfold serveRead
  refine keeps_ite_snd _ h ?_
  refine keeps_ite_snd _ (routedRead_keeps _ (within hL rfl) h) ?_
  split
  · split
    rename_i s1 e
    have hs1 : keeps L o s1 := keeps_of_snd e (freeNat_keeps (within hL rfl) h)
    split
    rename_i s2 e
    have hs2 : keeps L o s2 := keeps_of_snd e (freeNat_keeps (within hL rfl) hs1)
    split
    · exact hs1
    · exact hs2
  · split
    · exact h
    · exact h

theorem serveEntry_keeps (had : Bool) (q : KReq) (e : KEntry) (i sub : Nat)
    (hL : ∀ p ∈ ([.now, .freeCtr, .sys, .regs, .held, .mem, .cores, .pg, .sd, .mains, .fb, .fbo, .mo, .sv, .bv, .lk, .time, .pr, .gh, .ph, .can,
      .ks, .pc] : List Part), p ∈ L)
    (h : keeps L o s) : keeps L o (serveEntry had q e i sub s).2 := by
  unfold serveEntry
  extract_lets _
  refine keeps_ite_snd _ (serveWrite_keeps _ _ _ _ _ (within hL rfl) h) ?_
  exact serveRead_keeps _ _ _ _ (within hL rfl) h

theorem serveFirmware_keeps (had : Bool) (q : KReq) (e : KEntry) (i sub : Nat)
    (hL : ∀ p ∈ ([.now, .freeCtr, .sys, .regs, .held, .mem, .cores, .pg, .sd, .mains, .fb, .fbo, .mo, .sv, .bv, .lk, .time, .pr, .gh, .ph, .can,
      .ks, .pc] : List Part), p ∈ L)
    (h : keeps L o s) : keeps L o (serveFirmware had q e i sub s).2 := by
  unfold serveFirmware
  extract_lets s1 _ _
  have hs1 : keeps L o s1 := raiseEvent_keeps _ (within hL rfl) h
  refine keeps_ite_snd _ (serveEntry_keeps _ _ _ _ _ (within hL rfl) hs1) ?_
  refine keeps_ite_snd _ (setKs_keeps _ (within hL rfl) hs1) ?_
  split
  · exact setKs_keeps _ (within hL rfl) h
  · exact nakFragment_keeps (within hL rfl) h
  · exact h

theorem useKey_keeps (q : KReq) (hL : ∀ p ∈ ([.ks] : List Part), p ∈ L) (h : keeps L o s) : keeps L o (useKey q s) :=
  setKs_keeps _ (within hL rfl) h

theorem serveNew_keeps (q : KReq)
    (hL : ∀ p ∈ ([.now, .freeCtr, .sys, .regs, .held, .mem, .cores, .pg, .sd, .mains, .fb, .fbo, .mo, .sv, .bv, .lk, .time, .pr, .gh, .ph, .can,
      .ks, .pc] : List Part), p ∈ L)
    (h : keeps L o s) : keeps L o (serveNew q s).2 := by
  unfold serveNew
  extract_lets _ s1 _ _
  have hs1 : keeps L o s1 := useKey_keeps _ (within hL rfl) h
  refine keeps_ite_snd _ (count_keeps _ (within hL rfl) hs1) ?_
  split
  · exact hs1
  · exact hs1
  · refine keeps_ite_snd _ (serveFirmware_keeps _ _ _ _ _ (within hL rfl) hs1) ?_
    exact serveEntry_keeps _ _ _ _ _ (within hL rfl) hs1

theorem kLocal_keeps (q : KReq)
    (hL : ∀ p ∈ ([.now, .freeCtr, .sys, .regs, .held, .mem, .cores, .pg, .sd, .mains, .fb, .fbo, .mo, .sv, .bv, .lk, .time, .pr, .gh, .ph, .can,
      .ks, .pc] : List Part), p ∈ L)
    (h : keeps L o s) : keeps L o (kLocal q s) := by
  unfold kLocal
  split
  · exact deliver_keeps _ _ (within hL rfl) (count_keeps _ (within hL rfl) (keeps_ite _ h (useKey_keeps _ (within hL rfl) h)))
  · split
    · rename_i s1 e
      have hs1 : keeps L o s1 := keeps_of_snd e (serveNew_keeps _ (within hL rfl) h)
      exact kFinish_keeps _ _ (within hL rfl) hs1
    · rename_i s1 e
      have hs1 : keeps L o s1 := keeps_of_snd e (serveNew_keeps _ (within hL rfl) h)
      exact hs1

theorem kBroadcast_keeps (q : KReq)
    (hL : ∀ p ∈ ([.now, .freeCtr, .sys, .regs, .held, .mem, .cores, .pg, .sd, .mains, .fb, .fbo, .mo, .sv, .bv, .lk, .time, .pr, .gh, .ph, .can,
      .ks, .pc] : List Part), p ∈ L)
    (h : keeps L o s) : keeps L o (kBroadcast q s) :=
  keeps_ite _ (count_keeps _ (within hL rfl) h) (keeps_forEach _ (fun _ _ h => putOut_keeps _ _ _ _ _ (within hL rfl) (count_keeps _ (within hL rfl) (newMsgId_keeps (within hL rfl) h))) (kLocal_keeps _ (within hL rfl) h))

theorem kRequest_keeps (q : KReq)
    (hL : ∀ p ∈ ([.now, .freeCtr, .sys, .regs, .held, .mem, .cores, .pg, .sd, .mains, .fb, .fbo, .mo, .sv, .bv, .lk, .time, .pr, .gh, .ph, .can,
      .ks, .pc] : List Part), p ∈ L)
    (h : keeps L o s) : keeps L o (kRequest q s) :=
  keeps_ite _ h (keeps_ite _ (kAbort_keeps _ _ (within hL rfl) h) (keeps_ite _ (kBroadcast_keeps _ (within hL rfl) h) (keeps_ite _ (kLocal_keeps _ (within hL rfl) h) (kForward_keeps _ (within hL rfl) h))))

theorem routeNow_keeps (q : KReq)
    (hL : ∀ p ∈ ([.now, .freeCtr, .sys, .regs, .held, .mem, .cores, .pg, .sd, .mains, .fb, .fbo, .mo, .sv, .bv, .lk, .time, .pr, .gh, .ph, .can,
      .ks, .pc] : List Part), p ∈ L)
    (h : keeps L o s) : keeps L o (routeNow q s) :=
  keeps_ite _ (kRequest_keeps _ (within hL rfl) (routedTake_keeps _ (within hL rfl) h)) (routedTake_keeps _ (within hL rfl) h)

theorem takeDone_keeps (p : KPort) (hL : ∀ p ∈ ([.lk] : List Part), p ∈ L) (h : keeps L o s) : keeps L o (takeDone p s) := by
  unfold takeDone
  extract_lets _
  split
  · exact setSvc_keeps _ (within hL rfl) h
  · exact h

theorem kServe_keeps (q : KReq)
    (hL : ∀ p ∈ ([.now, .freeCtr, .sys, .regs, .held, .mem, .cores, .pg, .sd, .mains, .fb, .fbo, .mo, .sv, .bv, .lk, .time, .pr, .gh, .ph, .can,
      .ks, .pc] : List Part), p ∈ L)
    (h : keeps L o s) : keeps L o (kServe q s) :=
  keeps_ite _ (routeNow_keeps _ (within hL rfl) (kLocal_keeps _ (within hL rfl) h)) (kLocal_keeps _ (within hL rfl) h)

theorem kTop_keeps (q : KReq)
    (hL : ∀ p ∈ ([.now, .freeCtr, .sys, .regs, .held, .mem, .cores, .pg, .sd, .mains, .fb, .fbo, .mo, .sv, .bv, .lk, .time, .pr, .gh, .ph, .can,
      .ks, .pc] : List Part), p ∈ L)
    (h : keeps L o s) : keeps L o (kTop q s) :=
  keeps_ite _ (routeNow_keeps _ (within hL rfl) (kRequest_keeps _ (within hL rfl) (takeDone_keeps _ (within hL rfl) h))) (kRequest_keeps _ (within hL rfl) (takeDone_keeps _ (within hL rfl) h))

theorem kioskGo_keeps
    (hL : ∀ p ∈ ([.now, .freeCtr, .sys, .regs, .held, .mem, .cores, .pg, .sd, .mains, .fb, .fbo, .mo, .sv, .bv, .lk, .time, .pr, .gh, .ph, .can,
      .ks, .pc] : List Part), p ∈ L)
    (h : keeps L o s) : keeps L o (kioskGo s) := by
  unfold kioskGo
  extract_lets b m t q
  clear_value q m
  exact keeps_ite _ (kTop_keeps _ (within hL rfl) h) (keeps_ite _ (responseFor_keeps _ _ _ _ (within hL rfl) h) h)

theorem serveQueued_keeps (q : KReq) (had : Bool)
    (hL : ∀ p ∈ ([.now, .freeCtr, .sys, .regs, .held, .mem, .cores, .pg, .sd, .mains, .fb, .fbo, .mo, .sv, .bv, .lk, .time, .pr, .gh, .ph, .can,
      .ks, .pc] : List Part), p ∈ L)
    (h : keeps L o s) : keeps L o (serveQueued q had s) := by
  unfold serveQueued
  split
  · split
    · rename_i s1 e
      have hs1 : keeps L o s1 := keeps_of_snd e (serveEntry_keeps _ _ _ _ _ (within hL rfl) h)
      split
      · exact routeNow_keeps _ (within hL rfl) (kFinish_keeps _ _ (within hL rfl) hs1)
      · exact kFinish_keeps _ _ (within hL rfl) hs1
    · rename_i s1 e
      exact keeps_of_snd e (serveEntry_keeps _ _ _ _ _ (within hL rfl) h)
  · exact h

theorem drainFirmware_keeps
    (hL : ∀ p ∈ ([.now, .freeCtr, .sys, .regs, .held, .mem, .cores, .pg, .sd, .mains, .fb, .fbo, .mo, .sv, .bv, .lk, .time, .pr, .gh, .ph, .can,
      .ks, .pc] : List Part), p ∈ L)
    (h : keeps L o s) : keeps L o (drainFirmware s) := by
  unfold drainFirmware
  extract_lets _ s1 _
  have hs1 : keeps L o s1 := keeps_forEach _ (fun _ _ h => serveQueued_keeps _ _ (within hL rfl) h) (setKs_keeps _ (within hL rfl) h)
  exact keeps_ite _ h (keeps_ite _ (kioskGo_keeps (within hL rfl) (setKs_keeps _ (within hL rfl) hs1)) hs1)

theorem laneTraffic_keeps (m : LaneMsg)
    (hL : ∀ p ∈ ([.now, .freeCtr, .sys, .regs, .held, .mem, .cores, .pg, .sd, .mains, .fb, .fbo, .mo, .sv, .bv, .lk, .time, .pr, .gh, .ph, .can,
      .ks, .pc] : List Part), p ∈ L)
    (h : keeps L o s) : keeps L o (laneTraffic m s) := by
  unfold laneTraffic
  refine keeps_ite _ h ?_
  split
  · exact kTop_keeps _ (within hL rfl) h
  · exact responseFor_keeps _ _ _ _ (within hL rfl) h
  · exact keeps_ite _ (sendOn_keeps _ _ _ (within hL rfl) h) h
  · exact partnerLogs_keeps _ (within hL rfl) h
  · exact partnerLogged_keeps _ _ _ (within hL rfl) h
  · exact partnerJob_keeps _ (within hL rfl) h
  · exact partnerCompleted_keeps _ _ _ (within hL rfl) h

theorem applyRecord_keeps
    (hL : ∀ p ∈ ([.now, .sys, .regs, .held, .mem, .cores, .pg, .sd, .mains, .fb, .fbo, .mo, .sv, .bv, .lk, .time, .pr, .gh, .ph, .can, .ks,
      .pc] : List Part), p ∈ L)
    (h : keeps L o s) : keeps L o (applyRecord s) := by
  unfold applyRecord
  refine keeps_forEach _ (fun _ _ h => ?_) h
  split
  · exact performWrite_keeps _ _ _ _ (fun _ h => h) (within hL rfl) h
  · exact bndAction_keeps _ (within hL rfl) h

theorem degradeNow_keeps
    (hL : ∀ p ∈ ([.sys, .regs, .held, .pg, .mo, .sv, .bv, .gh, .pc] : List Part), p ∈ L) (h : keeps L o s) : keeps L o (degradeNow s) :=
  keeps_ite _ (enterDegraded_keeps (within hL rfl) h) h

theorem levelTaken_keeps (old : Nat)
    (hL : ∀ p ∈ ([.regs, .held, .cores, .mo] : List Part), p ∈ L) (h : keeps L o s) : keeps L o (levelTaken old s) :=
  keeps_whenB _ (fun _ h => keeps_forEach _ (fun _ _ h => haltCore_keeps _ (within hL rfl) h) h) (keeps_whenB _ (fun _ h => landAll_keeps (within hL rfl) h) h)

theorem safeStops_keeps (hL : ∀ p ∈ ([.regs, .held, .mo, .gh] : List Part), p ∈ L) (h : keeps L o s) : keeps L o (safeStops s) :=
  keeps_forEach _ (fun _ _ h => keeps_ite _ (safetyStops_keeps _ (within hL rfl) (setGroup_keeps _ _ (within hL rfl) h)) h) h

theorem releaseGroups_keeps
    (hL : ∀ p ∈ ([.regs, .held, .pg, .bv, .gh, .pc] : List Part), p ∈ L) (h : keeps L o s) : keeps L o (releaseGroups s) :=
  keeps_upTo _ (fun _ _ h => keeps_whenB _ (fun _ h => releaseGroup_keeps _ (within hL rfl) h) (ackDropped_keeps _ (within hL rfl) h)) h

theorem energiseGroups_keeps (before : State)
    (hL : ∀ p ∈ ([.sv, .gh] : List Part), p ∈ L) (h : keeps L o s) : keeps L o (energiseGroups before s) :=
  keeps_forEach _ (fun _ _ h => keeps_ite _ (firstUseGroup_keeps _ (within hL rfl) h) h) h

theorem motionPeriod_keeps
    (hL : ∀ p ∈ ([.regs, .held, .mem, .pg, .mo, .bv, .gh, .ph, .pc] : List Part), p ∈ L) (h : keeps L o s) : keeps L o (motionPeriod s) :=
  keeps_ite _ (afterStill_keeps (within hL rfl) (setTreatments_keeps (within hL rfl) (standstillChecks_keeps (within hL rfl) (stepProfiles_keeps (within hL rfl) (applyCaps_keeps (within hL rfl) h))))) h

theorem nextPeriod_keeps
    (hL : ∀ p ∈ ([.regs, .held, .pg, .mains, .bv, .pc] : List Part), p ∈ L) (h : keeps L o s) : keeps L o (nextPeriod s) :=
  keeps_ite _ (showPeriod_keeps (within hL rfl) (keeps_mains _ (within hL rfl) (mainsLockAt_keeps _ (within hL rfl) h))) h

theorem joinEntry_keeps
    (hL : ∀ p ∈ ([.sys, .regs, .held, .pg, .fb, .bv, .lk, .pc] : List Part), p ∈ L) (h : keeps L o s) : keeps L o (joinEntry s) := by
  unfold joinEntry
  extract_lets s1 _ _
  have hs1 : keeps L o s1 := leaveConfig_keeps (within hL rfl) (deriveSchedule_keeps (within hL rfl) h)
  exact keeps_ite _ (engineConfigured_keeps (within hL rfl) (showRole_keeps (within hL rfl) (keeps_same hs1 rfl rfl fun p hp => by cases p with | sys | lk => exact absurd (hL _ (by decide)) hp | _ => rfl))) h

theorem forgetSent_keeps (hL : ∀ p ∈ ([.lk, .can, .ks] : List Part), p ∈ L) (h : keeps L o s) : keeps L o (forgetSent s) :=
  keeps_same h rfl rfl fun p hp => by cases p with | lk | can | ks => exact absurd (hL _ (by decide)) hp | _ => rfl

theorem boundaryPast_keeps
    (hL : ∀ p ∈ ([.now, .freeCtr, .sys, .regs, .held, .mem, .cores, .pg, .sd, .mains, .fb, .fbo, .mo, .sv, .bv, .lk, .time, .pr, .gh, .ph, .can,
      .ks, .pc] : List Part), p ∈ L)
    (h : keeps L o s) : keeps L o (boundaryPast s) := by
  unfold boundaryPast
  extract_lets s1 s2 s3
  have hs1 : keeps L o s1 := adoptSend_keeps (within hL rfl) (bvSampleAll_keeps (within hL rfl) (lateBatch_keeps (within hL rfl) (forgetSent_keeps (within hL rfl) h)))
  have hs2 : keeps L o s2 := applyRecord_keeps (within hL rfl) (gwCycle_keeps (within hL rfl) (keeps_forEach _ (fun _ _ h => loadAdopt_keeps _ (within hL rfl) h) hs1))
  have hs3 : keeps L o s3 := keeps_ite _ (goSilent_keeps (within hL rfl) hs2) hs2
  exact keeps_ite _ hs3 (levelBoundary_keeps (within hL rfl) hs3)

theorem boundaryTaken_keeps (old : State)
    (hL : ∀ p ∈ ([.sys, .regs, .held, .cores, .pg, .sd, .mains, .fb, .fbo, .mo, .sv, .bv, .gh, .ks, .pc] : List Part), p ∈ L)
    (h : keeps L o s) : keeps L o (boundaryTaken old s) := by
  unfold boundaryTaken
  extract_lets s1 s2 s3 _ s4
  have hs1 : keeps L o s1 := degradeNow_keeps (within hL rfl) (selectOverlays_keeps (within hL rfl) (acceptWrites_keeps (within hL rfl) h))
  have hs2 : keeps L o s2 := energiseGroups_keeps _ (within hL rfl) (releaseGroups_keeps (within hL rfl) hs1)
  have hs3 : keeps L o s3 := keeps_forEach _ (fun _ _ h => genBoundary_keeps _ (within hL rfl) h) hs2
  have hs4 : keeps L o s4 := keeps_whenB _ (fun _ h => followFaults_keeps (within hL rfl) h) (keeps_mo _ (within hL rfl) hs3)
  exact safeStops_keeps (within hL rfl) (levelTaken_keeps _ (within hL rfl) (runCommands_keeps _ (within hL rfl) hs4))

theorem boundaryNext_keeps
    (hL : ∀ p ∈ ([.regs, .held, .mem, .pg, .mo, .sv, .bv, .gh, .ph, .pc] : List Part), p ∈ L) (h : keeps L o s) : keeps L o (boundaryNext s) :=
  bvEndAll_keeps (within hL rfl) (enginePeriod_keeps (within hL rfl) (motionPeriod_keeps (within hL rfl) (holdBank_keeps (within hL rfl) (setDuty_keeps (within hL rfl) (motoringScale_keeps (within hL rfl) h)))))

theorem cycleBegins_keeps
    (hL : ∀ p ∈ ([.regs, .held, .pg, .mains, .bv, .lk, .pr, .gh, .pc] : List Part), p ∈ L) (h : keeps L o s) : keeps L o (cycleBegins s) := by
  unfold cycleBegins
  extract_lets s1 _
  have hs1 : keeps L o s1 := nextPeriod_keeps (within hL rfl) (tidyAxes_keeps (within hL rfl) (linkPeriod_keeps (within hL rfl) (pairPeriod_keeps (within hL rfl) h)))
  exact runExchange_keeps (within hL rfl) (sendState_keeps (within hL rfl) (startCycle_keeps (within hL rfl) (keeps_lk _ (within hL rfl) hs1)))

theorem boundary_keeps
    (hL : ∀ p ∈ ([.now, .freeCtr, .sys, .regs, .held, .mem, .cores, .pg, .sd, .mains, .fb, .fbo, .mo, .sv, .bv, .lk, .time, .pr, .gh, .ph, .can,
      .ks, .pc] : List Part), p ∈ L)
    (h : keeps L o s) : keeps L o (boundary s) := by
  unfold boundary
  extract_lets s1 s2 _
  have hs1 : keeps L o s1 := cycleBegins_keeps (within hL rfl) (boundaryNext_keeps (within hL rfl) (boundaryTaken_keeps _ (within hL rfl) (boundaryPast_keeps (within hL rfl) h)))
  have hs2 : keeps L o s2 := joinEntry_keeps (within hL rfl) (updateBrakes_keeps (within hL rfl) hs1)
  exact keeps_ite _ h (raiseEvent_keeps _ (within hL rfl) (drainFirmware_keeps (within hL rfl) (keeps_sys _ (within hL rfl) hs2)))

theorem latchFb_keeps (n : Fin 16)
    (hL : ∀ p ∈ ([.freeCtr, .sys, .regs, .held, .pg, .fb, .bv, .lk, .pr, .gh, .pc] : List Part), p ∈ L) (h : keeps L o s) : keeps L o (latchFb n s) :=
  ckFeed_keeps _ _ _ _ (within hL rfl) (setFb_keeps _ _ (within hL rfl) h)

theorem sampleSetPoints_keeps (hL : ∀ p ∈ ([.sd] : List Part), p ∈ L) (h : keeps L o s) : keeps L o (sampleSetPoints s) :=
  keeps_forEach _ (fun _ _ h => sdSample_keeps _ _ _ _ (within hL rfl) h) h

theorem commonInstant_keeps
    (hL : ∀ p ∈ ([.freeCtr, .sys, .regs, .held, .pg, .sd, .fb, .mo, .bv, .lk, .pr, .gh, .ph, .pc] : List Part), p ∈ L)
    (h : keeps L o s) : keeps L o (commonInstant s) := by
  unfold commonInstant
  extract_lets _ s1 s2 s3
  have hs1 : keeps L o s1 := keeps_forEach _ (fun _ _ h => latchFb_keeps _ (within hL rfl) h) (keeps_lk _ (within hL rfl) h)
  have hs2 : keeps L o s2 := keeps_whenB _ (fun _ h => followAll_keeps (within hL rfl) h) hs1
  have hs3 : keeps L o s3 := chopStart_keeps (within hL rfl) (phCommonInstant_keeps (within hL rfl) (sampleSetPoints_keeps (within hL rfl) hs2))
  exact keeps_ite _ h (raiseEvent_keeps _ (within hL rfl) (sendInc_keeps (within hL rfl) (startDiag_keeps (within hL rfl) hs3)))

theorem regWrite_keeps (who : Requester) (a : Nat) (v : Word)
    (hL : ∀ p ∈ ([.now, .freeCtr, .sys, .regs, .held, .mem, .cores, .pg, .sd, .mains, .fb, .fbo, .mo, .sv, .bv, .lk, .time, .pr, .gh, .ph, .can,
      .ks, .pc] : List Part), p ∈ L)
    (h : keeps L o s) : keeps L o (regWrite who a v s) :=
  regWriteWith_keeps _ _ _ _ (fun _ h => kioskGo_keeps (within hL rfl) h) (within hL rfl) h

theorem regWritePair_keeps (who : Requester) (a : Nat) (hi lo : Word)
    (hL : ∀ p ∈ ([.now, .freeCtr, .sys, .regs, .held, .mem, .cores, .pg, .sd, .mains, .fb, .fbo, .mo, .sv, .bv, .lk, .time, .pr, .gh, .ph, .can,
      .ks, .pc] : List Part), p ∈ L)
    (h : keeps L o s) : keeps L o (regWritePair who a hi lo s) :=
  regWritePairWith_keeps _ _ _ _ _ (fun _ h => kioskGo_keeps (within hL rfl) h) (within hL rfl) h

theorem addrErr_keeps (hL : ∀ p ∈ ([.regs, .held] : List Part), p ∈ L) (h : keeps L o s) : keeps L o (addrErr s) :=
  putBit_keeps _ _ _ (within hL rfl) h

theorem hpRead_keeps (a : Nat)
    (hL : ∀ p ∈ ([.freeCtr, .sys, .regs, .held, .pg, .bv, .pc] : List Part), p ∈ L) (h : keeps L o s) : keeps L o (hpRead a s).2 := by
  unfold hpRead
  extract_lets _
  split
  · exact regRead_keeps _ _ (within hL rfl) h
  · exact pcSys_keeps _ _ (within hL rfl) h
  · exact h
  · exact addrErr_keeps (within hL rfl) h

theorem hpReadPair_keeps (a : Nat)
    (hL : ∀ p ∈ ([.freeCtr, .sys, .regs, .held, .pg, .bv, .pc] : List Part), p ∈ L) (h : keeps L o s) : keeps L o (hpReadPair a s).2 := by
  unfold hpReadPair
  extract_lets _ _ _
  refine keeps_ite_snd _ (regReadPair_keeps _ _ (within hL rfl) h) ?_
  exact hpRead_keeps _ (within hL rfl) (hpRead_keeps _ (within hL rfl) h)

theorem hpWrite_keeps (a : Nat) (v : Word)
    (hL : ∀ p ∈ ([.now, .freeCtr, .sys, .regs, .held, .mem, .cores, .pg, .sd, .mains, .fb, .fbo, .mo, .sv, .bv, .lk, .time, .pr, .gh, .ph, .can,
      .ks, .pc] : List Part), p ∈ L)
    (h : keeps L o s) : keeps L o (hpWrite a v s) := by
  unfold hpWrite
  split
  · exact regWrite_keeps _ _ _ (within hL rfl) h
  · exact pcSys_keeps _ _ (within hL rfl) (sharedSet_keeps _ _ (within hL rfl) h)
  · exact addrErr_keeps (within hL rfl) h
  · exact addrErr_keeps (within hL rfl) h

theorem hpWritePair_keeps (a : Nat) (hi lo : Word)
    (hL : ∀ p ∈ ([.now, .freeCtr, .sys, .regs, .held, .mem, .cores, .pg, .sd, .mains, .fb, .fbo, .mo, .sv, .bv, .lk, .time, .pr, .gh, .ph, .can,
      .ks, .pc] : List Part), p ∈ L)
    (h : keeps L o s) : keeps L o (hpWritePair a hi lo s) :=
  keeps_ite _ (regWritePair_keeps _ _ _ _ (within hL rfl) h) (hpWrite_keeps _ _ (within hL rfl) (hpWrite_keeps _ _ (within hL rfl) h))

theorem hpReads_keeps (pair : Bool) (x1 : Nat) (x2 : Nat)
    (hL : ∀ p ∈ ([.freeCtr, .sys, .regs, .held, .pg, .bv, .pc] : List Part), p ∈ L) (h : keeps L o s) : keeps L o (hpReads pair x1 x2 s).2 := by
  induction x1 generalizing x2 s with
  | zero => exact h
  | succ n ih =>
    refine ih _ ?_
    split
    · exact hpReadPair_keeps _ (within hL rfl) h
    · exact hpRead_keeps _ (within hL rfl) h

theorem hpWrites_keeps (pair : Bool) (x1 : List Word) (x2 : Nat)
    (hL : ∀ p ∈ ([.now, .freeCtr, .sys, .regs, .held, .mem, .cores, .pg, .sd, .mains, .fb, .fbo, .mo, .sv, .bv, .lk, .time, .pr, .gh, .ph, .can,
      .ks, .pc] : List Part), p ∈ L)
    (h : keeps L o s) : keeps L o (hpWrites pair x1 x2 s) := by
  induction x1, x2, s using hpWrites.induct pair with
  | case1 => exact h
  | case2 | case3 => exact keeps_ite _ h (hpWrite_keeps _ _ (within hL rfl) h)
  | case4 _ _ _ _ _ pairs ih =>
    rw [hpWrites, if_pos pairs]
    exact ih (hpWritePair_keeps _ _ _ (within hL rfl) h)
  | case5 _ _ _ _ _ single ih =>
    rw [hpWrites, if_neg single]
    exact ih (hpWrite_keeps _ _ (within hL rfl) (hpWrite_keeps _ _ (within hL rfl) h))

theorem hpAccess_keeps (cmd a : Nat) (data : List Byte)
    (hL : ∀ p ∈ ([.now, .freeCtr, .sys, .regs, .held, .mem, .cores, .pg, .sd, .mains, .fb, .fbo, .mo, .sv, .bv, .lk, .time, .pr, .gh, .ph, .can,
      .ks, .pc] : List Part), p ∈ L)
    (h : keeps L o s) : keeps L o (hpAccess cmd a data s).2 := by
  unfold hpAccess
  extract_lets _ _ _ _ s1 _
  have hs1 : keeps L o s1 := hpReads_keeps _ _ _ (within hL rfl) h
  refine keeps_ite_snd _ h ?_
  refine keeps_ite_snd _ (addrErr_keeps (within hL rfl) h) ?_
  refine keeps_ite_snd _ (keeps_sys _ (within hL rfl) hs1) ?_
  exact hpWrites_keeps _ _ _ (within hL rfl) h

theorem hostFrame_keeps (f : List Byte)
    (hL : ∀ p ∈ ([.now, .freeCtr, .sys, .regs, .held, .mem, .cores, .pg, .sd, .mains, .fb, .fbo, .mo, .sv, .bv, .lk, .time, .pr, .gh, .ph, .can,
      .ks, .pc] : List Part), p ∈ L)
    (h : keeps L o s) : keeps L o (hostFrame f s) := by
  unfold hostFrame
  refine keeps_ite _ h ?_
  split
  · exact keeps_whenB _ (fun _ h => count_keeps _ (within hL rfl) h) (keeps_ite _ (putBit_keeps _ _ _ (within hL rfl) (hpAccess_keeps _ _ _ (within hL rfl) h)) (count_keeps _ (within hL rfl) (hpAccess_keeps _ _ _ (within hL rfl) h)))
  · exact count_keeps _ (within hL rfl) (putBit_keeps _ _ _ (within hL rfl) h)

theorem gpioEdge_keeps (pin : Nat) (level : Bool)
    (hL : ∀ p ∈ ([.sys, .regs, .held, .pg, .bv, .pc] : List Part), p ∈ L) (h : keeps L o s) : keeps L o (gpioEdge pin level s) :=
  keeps_ite _ h (keeps_ite _ (keeps_sys _ (within hL rfl) h) (gpioSeen_keeps _ _ (within hL rfl) (keeps_sys _ (within hL rfl) h)))

end Sys2Proof.Machine
end

