-- ==== Sys2Proof/Proofs/KeepsCores.lean ====
section
/-! PROOFS. What the words of a core and the commands to Kiosk keep. -/

namespace Sys2Proof.Machine

variable {L : List Part} {o s : State}

theorem storeOut_keeps (c : CoreId) (e : BufStore)
    (hL : ∀ p ∈ ([.now, .freeCtr, .sys, .regs, .held, .mem, .cores, .pg, .sd, .mains, .fb, .fbo, .mo, .sv, .bv, .lk, .time, .pr, .gh, .ph, .can,
      .ks, .pc] : List Part), p ∈ L)
    (h : keeps L o s) : keeps L o (storeOut c e s) := by
  unfold storeOut
  split
  · split
    · exact pcSys_keeps _ _ (within hL rfl) (sharedSet_keeps _ _ (within hL rfl) h)
    · exact pcSys_keeps _ _ (within hL rfl) (sharedSet_keeps _ _ (within hL rfl) (sharedSet_keeps _ _ (within hL rfl) h))
  · split
    · exact regWrite_keeps _ _ _ (within hL rfl) h
    · exact regWritePair_keeps _ _ _ _ (within hL rfl) h

theorem drainOne_keeps (c : CoreId)
    (hL : ∀ p ∈ ([.now, .freeCtr, .sys, .regs, .held, .mem, .cores, .pg, .sd, .mains, .fb, .fbo, .mo, .sv, .bv, .lk, .time, .pr, .gh, .ph, .can,
      .ks, .pc] : List Part), p ∈ L)
    (h : keeps L o s) : keeps L o (drainOne c s) := by
  unfold drainOne
  extract_lets _
  split
  · exact h
  · exact storeOut_keeps _ _ (within hL rfl) (setCore_keeps _ _ (within hL rfl) h)

theorem drainAll_keeps (c : CoreId)
    (hL : ∀ p ∈ ([.now, .freeCtr, .sys, .regs, .held, .mem, .cores, .pg, .sd, .mains, .fb, .fbo, .mo, .sv, .bv, .lk, .time, .pr, .gh, .ph, .can,
      .ks, .pc] : List Part), p ∈ L)
    (h : keeps L o s) : keeps L o (drainAll c s) :=
  drainOne_keeps _ (within hL rfl) (drainOne_keeps _ (within hL rfl) (drainOne_keeps _ (within hL rfl) (drainOne_keeps _ (within hL rfl) h)))

theorem bufferStore_keeps (c : CoreId) (e : BufStore)
    (hL : ∀ p ∈ ([.now, .freeCtr, .sys, .regs, .held, .mem, .cores, .pg, .sd, .mains, .fb, .fbo, .mo, .sv, .bv, .lk, .time, .pr, .gh, .ph, .can,
      .ks, .pc] : List Part), p ∈ L)
    (h : keeps L o s) : keeps L o (bufferStore c e s) :=
  keeps_ite _ (storeOut_keeps _ _ (within hL rfl) (drainAll_keeps _ (within hL rfl) h)) (setCore_keeps _ _ (within hL rfl) (keeps_ite _ (drainOne_keeps _ (within hL rfl) h) h))

theorem storeWord_keeps (c : CoreId) (a : Addr) (v : Word)
    (hL : ∀ p ∈ ([.now, .freeCtr, .sys, .regs, .held, .mem, .cores, .pg, .sd, .mains, .fb, .fbo, .mo, .sv, .bv, .lk, .time, .pr, .gh, .ph, .can,
      .ks, .pc] : List Part), p ∈ L)
    (h : keeps L o s) : keeps L o (storeWord c a v s) :=
  keeps_ite _ (xySet_keeps _ _ _ (within hL rfl) h) (bufferStore_keeps _ _ (within hL rfl) h)

theorem storePair_keeps (c : CoreId) (a : Addr) (hi lo : Word)
    (hL : ∀ p ∈ ([.now, .freeCtr, .sys, .regs, .held, .mem, .cores, .pg, .sd, .mains, .fb, .fbo, .mo, .sv, .bv, .lk, .time, .pr, .gh, .ph, .can,
      .ks, .pc] : List Part), p ∈ L)
    (h : keeps L o s) : keeps L o (storePair c a hi lo s) :=
  keeps_ite _ (xySet_keeps _ _ _ (within hL rfl) (xySet_keeps _ _ _ (within hL rfl) h)) (bufferStore_keeps _ _ (within hL rfl) h)

theorem loadWord_keeps (c : CoreId) (a : Addr)
    (hL : ∀ p ∈ ([.now, .freeCtr, .sys, .regs, .held, .mem, .cores, .pg, .sd, .mains, .fb, .fbo, .mo, .sv, .bv, .lk, .time, .pr, .gh, .ph, .can,
      .ks, .pc] : List Part), p ∈ L)
    (h : keeps L o s) : keeps L o (loadWord c a s).2 := by
  unfold loadWord
  extract_lets _ s1
  have hs1 : keeps L o s1 := drainAll_keeps _ (within hL rfl) h
  refine keeps_ite_snd _ h ?_
  refine keeps_ite_snd _ (pcSys_keeps _ _ (within hL rfl) hs1) ?_
  refine keeps_ite_snd _ hs1 ?_
  split
  rename_i s2 e
  have hs2 : keeps L o s2 := keeps_of_snd e (regRead_keeps _ _ (within hL rfl) hs1)
  exact hs2

theorem loadPair_keeps (c : CoreId) (a : Addr)
    (hL : ∀ p ∈ ([.now, .freeCtr, .sys, .regs, .held, .mem, .cores, .pg, .sd, .mains, .fb, .fbo, .mo, .sv, .bv, .lk, .time, .pr, .gh, .ph, .can,
      .ks, .pc] : List Part), p ∈ L)
    (h : keeps L o s) : keeps L o (loadPair c a s).2 := by
  unfold loadPair
  split
  · split
    rename_i s1 e
    have hs1 : keeps L o s1 := keeps_of_snd e (loadWord_keeps _ _ (within hL rfl) h)
    split
    rename_i s2 e
    have hs2 : keeps L o s2 := keeps_of_snd e (loadWord_keeps _ _ (within hL rfl) hs1)
    exact hs2
  · split
    rename_i s1 e
    have hs1 : keeps L o s1 := keeps_of_snd e (regReadPair_keeps _ _ (within hL rfl) (drainAll_keeps _ (within hL rfl) h))
    exact hs1

theorem putFrame_keeps (c : CoreId) (off : Nat) (x1 : List Word)
    (hL : ∀ p ∈ ([.mem] : List Part), p ∈ L) (h : keeps L o s) : keeps L o (putFrame c off x1 s) := by
  induction x1 generalizing off s with
  | nil => exact h
  | cons w ws ih => exact ih _ (keeps_ite _ (xySet_keeps _ _ _ (within hL rfl) h) h)

theorem enterAt_keeps (c : CoreId) (off : Nat) (entry : Nat) (prio : Nat) (fault : Bool) (t : Nest)
    (hL : ∀ p ∈ ([.regs, .held, .mem, .cores] : List Part), p ∈ L) (h : keeps L o s) : keeps L o (enterAt c off entry prio fault t s) :=
  count_keeps _ (within hL rfl) (putWord_keeps _ _ (within hL rfl) (setCore_keeps _ _ (within hL rfl) (putFrame_keeps _ _ _ (within hL rfl) h)))

theorem faultAddr_keeps (code addr : Nat)
    (hL : ∀ p ∈ ([.freeCtr] : List Part), p ∈ L) (h : keeps L o s) : keeps L o (faultAddr code addr s).2 := by
  unfold faultAddr
  refine keeps_ite_snd _ h ?_
  exact freeNat_keeps (within hL rfl) h

theorem coreFaultRecord_keeps (c : CoreId) (code : Nat) (addr0 : Nat)
    (hL : ∀ p ∈ ([.freeCtr, .sys, .regs, .held, .pg, .bv, .pc] : List Part), p ∈ L)
    (h : keeps L o s) : keeps L o (coreFaultRecord c code addr0 s) := by
  unfold coreFaultRecord
  extract_lets _
  split
  rename_i s1 e
  have hs1 : keeps L o s1 := keeps_of_snd e (faultAddr_keeps _ _ (within hL rfl) h)
  exact faultRecord_keeps _ _ _ _ (within hL rfl) (raiseEvent_keeps _ (within hL rfl) (count_keeps _ (within hL rfl) (putWord_keeps _ _ (within hL rfl) (putWord_keeps _ _ (within hL rfl) (putWord_keeps _ _ (within hL rfl) (putWord_keeps _ _ (within hL rfl) hs1))))))

theorem coreFault_keeps (c : CoreId) (code addr : Nat)
    (hL : ∀ p ∈ ([.freeCtr, .sys, .regs, .held, .mem, .cores, .pg, .bv, .pc] : List Part), p ∈ L)
    (h : keeps L o s) : keeps L o (coreFault c code addr s) := by
  unfold coreFault
  extract_lets s1 _ _ _ _ _ s2 _ s3
  have hs1 : keeps L o s1 := coreFaultRecord_keeps _ _ _ (within hL rfl) h
  have hs2 : keeps L o s2 := haltCore_keeps _ (within hL rfl) hs1
  have hs3 : keeps L o s3 := keeps_ite _ hs1 (coreFaultRecord_keeps _ _ _ (within hL rfl) hs1)
  exact keeps_ite _ (setCore_keeps _ _ (within hL rfl) hs2) (keeps_ite _ (enterAt_keeps _ _ _ _ _ _ (within hL rfl) hs3) (enterAt_keeps _ _ _ _ _ _ (within hL rfl) hs1))

theorem mAccess_keeps (c : CoreId) (r : CoreRegs) (old : List (Nat × Addr)) (m : MSlot)
    (hL : ∀ p ∈ ([.now, .freeCtr, .sys, .regs, .held, .mem, .cores, .pg, .sd, .mains, .fb, .fbo, .mo, .sv, .bv, .lk, .time, .pr, .gh, .ph, .can,
      .ks, .pc] : List Part), p ∈ L)
    (h : keeps L o s) : keeps L o (mAccess c r old m s).2 := by
  unfold mAccess
  split
  · split
    rename_i s1 e
    have hs1 : keeps L o s1 := keeps_of_snd e (loadWord_keeps _ _ (within hL rfl) h)
    split
    rename_i s2 e
    have hs2 : keeps L o s2 := keeps_of_snd e (loadWord_keeps _ _ (within hL rfl) hs1)
    exact hs2
  · exact storeWord_keeps _ _ _ (within hL rfl) (storeWord_keeps _ _ _ (within hL rfl) h)
  · extract_lets _
    split
    · split
      rename_i s1 e
      have hs1 : keeps L o s1 := keeps_of_snd e (loadPair_keeps _ _ (within hL rfl) h)
      exact hs1
    · split
      rename_i s1 e
      have hs1 : keeps L o s1 := keeps_of_snd e (loadWord_keeps _ _ (within hL rfl) h)
      exact hs1
  · extract_lets _
    refine keeps_ite_snd _ (storePair_keeps _ _ _ _ (within hL rfl) h) ?_
    exact storeWord_keeps _ _ _ (within hL rfl) h
  · exact h

theorem restoreFrame_keeps (c : CoreId)
    (hL : ∀ p ∈ ([.regs, .held, .cores] : List Part), p ∈ L) (h : keeps L o s) : keeps L o (restoreFrame c s) :=
  putWord_keeps _ _ (within hL rfl) (setCore_keeps _ _ (within hL rfl) h)

theorem slotsEnd_keeps (c : CoreId) (hL : ∀ p ∈ ([.regs, .held, .cores] : List Part), p ∈ L) (h : keeps L o s) : keeps L o (slotsEnd c s) := by
  unfold slotsEnd
  extract_lets _ _
  split
  · exact h
  · exact setCore_keeps _ _ (within hL rfl) h
  · exact restoreFrame_keeps _ (within hL rfl) h
  · exact setCore_keeps _ _ (within hL rfl) h

theorem advanceCore_keeps (c : CoreId) (p : BitVec 17) (view : List LoopOld)
    (hL : ∀ p ∈ ([.regs, .held, .cores] : List Part), p ∈ L) (h : keeps L o s) : keeps L o (advanceCore c p view s) := by
  unfold advanceCore
  split
  exact keeps_ite _ (setCore_keeps _ _ (within hL rfl) h) (keeps_ite _ (slotsEnd_keeps _ (within hL rfl) (setCore_keeps _ _ (within hL rfl) h)) (setCore_keeps _ _ (within hL rfl) h))

theorem wasteWord_keeps (c : CoreId) (evs : List (Nat × Nat × Nat))
    (hL : ∀ p ∈ ([.regs, .held, .cores, .pg, .bv, .pc] : List Part), p ∈ L) (h : keeps L o s) : keeps L o (wasteWord c evs s) :=
  pcCore_keeps _ _ (within hL rfl) (advanceCore_keeps _ _ _ (within hL rfl) (setCore_keeps _ _ (within hL rfl) h))

theorem countWord_keeps (c : CoreId) (k : Core) (ops : Nat) (evs : List (Nat × Nat × Nat))
    (hL : ∀ p ∈ ([.regs, .held, .pg, .bv, .pc] : List Part), p ∈ L) (h : keeps L o s) : keeps L o (countWord c k ops evs s) := by
  unfold countWord
  split
  exact pcCore_keeps _ _ (within hL rfl) (pcRecord_keeps _ _ _ _ _ (within hL rfl) h)

theorem eccCorrected_keeps (hL : ∀ p ∈ ([.regs, .held, .pg, .bv, .pc] : List Part), p ∈ L) (h : keeps L o s) : keeps L o (eccCorrected s) :=
  pcSys_keeps _ _ (within hL rfl) (raiseEvent_keeps _ (within hL rfl) (count_keeps _ (within hL rfl) h))

theorem guardWord_keeps (c : CoreId) (f : State → State) (hf : ∀ s, keeps L o s → keeps L o (f s))
    (hL : ∀ p ∈ ([.regs, .held, .cores, .pg, .bv, .pc] : List Part), p ∈ L) (h : keeps L o s) : keeps L o (guardWord c f s) :=
  keeps_ite _ h (keeps_ite _ (wasteWord_keeps _ _ (within hL rfl) h) (hf _ (setCore_keeps _ _ (within hL rfl) h)))

theorem doWord_keeps (c : CoreId) (a : ASlot) (m : MSlot)
    (hL : ∀ p ∈ ([.now, .freeCtr, .sys, .regs, .held, .mem, .cores, .pg, .sd, .mains, .fb, .fbo, .mo, .sv, .bv, .lk, .time, .pr, .gh, .ph, .can,
      .ks, .pc] : List Part), p ∈ L)
    (h : keeps L o s) : keeps L o (doWord c a m s) := by
  unfold doWord
  extract_lets _ _
  split
  rename_i s1 e
  have hs1 : keeps L o s1 := keeps_of_snd e (mAccess_keeps _ _ _ _ (within hL rfl) h)
  extract_lets _ _ s2 s3 s4
  have hs2 : keeps L o s2 := setCore_keeps _ _ (within hL rfl) hs1
  have hs3 : keeps L o s3 := countWord_keeps _ _ _ _ (within hL rfl) hs2
  have hs4 : keeps L o s4 := keeps_whenB _ (fun _ h => eccCorrected_keeps (within hL rfl) h) hs3
  exact keeps_ite _ (ghFaultEcc_keeps (within hL rfl) (coreFault_keeps _ _ _ (within hL rfl) hs4)) (advanceCore_keeps _ _ _ (within hL rfl) hs4)

theorem runWord_keeps (c : CoreId) (a : ASlot) (m : MSlot)
    (hL : ∀ p ∈ ([.now, .freeCtr, .sys, .regs, .held, .mem, .cores, .pg, .sd, .mains, .fb, .fbo, .mo, .sv, .bv, .lk, .time, .pr, .gh, .ph, .can,
      .ks, .pc] : List Part), p ∈ L)
    (h : keeps L o s) : keeps L o (runWord c a m s) := by
  unfold runWord
  exact guardWord_keeps _ _ (fun _ h => keeps_ite _ (coreFault_keeps _ _ _ (within hL rfl) h) (by
    split
    · exact coreFault_keeps _ _ _ (within hL rfl) h
    · exact doWord_keeps _ _ _ (within hL rfl) h)) (within hL rfl) h

theorem branchWord_keeps (c : CoreId) (f : State → State) (hf : ∀ s, keeps L o s → keeps L o (f s))
    (hL : ∀ p ∈ ([.freeCtr, .sys, .regs, .held, .mem, .cores, .pg, .bv, .pc] : List Part), p ∈ L)
    (h : keeps L o s) : keeps L o (branchWord c f s) := by
  refine guardWord_keeps _ _ (fun t h => ?_) (within hL rfl) h
  have runs : keeps L o (if atBodyEnd t.cores[c] then coreFault c 4 0 t else f t) :=
    keeps_ite _ (coreFault_keeps _ _ _ (within hL rfl) h) (hf _ h)
  dsimp only
  split
  · exact keeps_ite _ (wasteWord_keeps _ _ (within hL rfl) h) runs
  · exact coreFault_keeps _ _ _ (within hL rfl) h
  · exact coreFault_keeps _ _ _ (within hL rfl) h
  · exact runs

theorem plainStep_keeps (c : CoreId) (ops : Nat) (evs : List (Nat × Nat × Nat)) (f : Core → Core)
    (hL : ∀ p ∈ ([.regs, .held, .cores, .pg, .bv, .pc] : List Part), p ∈ L) (h : keeps L o s) : keeps L o (plainStep c ops evs f s) :=
  advanceCore_keeps _ _ _ (within hL rfl) (countWord_keeps _ _ _ _ (within hL rfl) (setCore_keeps _ _ (within hL rfl) h))

theorem takeBranch_keeps (c : CoreId) (cond : Cond) (anl : Bool) (target : BitVec 17) (link : Option DReg)
    (hL : ∀ p ∈ ([.regs, .held, .cores, .pg, .bv, .pc] : List Part), p ∈ L) (h : keeps L o s) : keeps L o (takeBranch c cond anl target link s) :=
  keeps_ite _ (setCore_keeps _ _ (within hL rfl) (plainStep_keeps _ _ _ _ (within hL rfl) h)) (keeps_ite _ (setCore_keeps _ _ (within hL rfl) (plainStep_keeps _ _ _ _ (within hL rfl) h)) (plainStep_keeps _ _ _ _ (within hL rfl) h))

theorem landSlot_keeps (c : CoreId) (hL : ∀ p ∈ ([.cores] : List Part), p ∈ L) (h : keeps L o s) : keeps L o (landSlot c s) :=
  setCore_keeps _ _ (within hL rfl) h

theorem openRepeat_keeps (c : CoreId) (count : Word) (last : BitVec 17)
    (hL : ∀ p ∈ ([.freeCtr, .sys, .regs, .held, .mem, .cores, .pg, .bv, .pc] : List Part), p ∈ L)
    (h : keeps L o s) : keeps L o (openRepeat c count last s) := by
  unfold openRepeat
  extract_lets _ _ s1 s2 _ _ _
  have hs1 : keeps L o s1 := plainStep_keeps _ _ _ _ (within hL rfl) h
  have hs2 : keeps L o s2 := pcCore_keeps _ _ (within hL rfl) (pcCore_keeps _ _ (within hL rfl) hs1)
  exact keeps_ite _ (coreFault_keeps _ _ _ (within hL rfl) h) (keeps_ite _ (setCore_keeps _ _ (within hL rfl) hs2) (keeps_ite _ (coreFault_keeps _ _ _ (within hL rfl) h) (plainStep_keeps _ _ _ _ (within hL rfl) h)))

theorem breakLoop_keeps (c : CoreId)
    (hL : ∀ p ∈ ([.regs, .held, .cores, .pg, .bv, .pc] : List Part), p ∈ L) (h : keeps L o s) : keeps L o (breakLoop c s) :=
  plainStep_keeps _ _ _ _ (within hL rfl) h

theorem waitWord_keeps (c : CoreId)
    (hL : ∀ p ∈ ([.regs, .held, .cores, .pg, .bv, .pc] : List Part), p ∈ L) (h : keeps L o s) : keeps L o (waitWord c s) :=
  plainStep_keeps _ _ _ _ (within hL rfl) h

theorem acceptPost_keeps (c : CoreId) (i : Nat) (p : Post)
    (hL : ∀ p ∈ ([.regs, .held, .pg, .bv, .pc] : List Part), p ∈ L) (h : keeps L o s) : keeps L o (acceptPost c i p s) :=
  putFld_keeps _ _ _ _ (within hL rfl) (pcSys_keeps _ _ (within hL rfl) (keeps_pg _ (within hL rfl) h))

theorem returnTask_keeps (c : CoreId)
    (hL : ∀ p ∈ ([.freeCtr, .sys, .regs, .held, .mem, .cores, .pg, .bv, .pc] : List Part), p ∈ L) (h : keeps L o s) : keeps L o (returnTask c s) := by
  unfold returnTask
  extract_lets _ _ _ s1 _
  have hs1 : keeps L o s1 := plainStep_keeps _ _ _ _ (within hL rfl) h
  refine keeps_ite _ (coreFault_keeps _ _ _ (within hL rfl) h) ?_
  refine keeps_ite _ (coreFault_keeps _ _ _ (within hL rfl) h) ?_
  split
  · exact retryStalled_keeps (within hL rfl) (setCore_keeps _ _ (within hL rfl) hs1)
  · exact retryStalled_keeps (within hL rfl) (pcCore_keeps _ _ (within hL rfl) (count_keeps _ (within hL rfl) (setCore_keeps _ _ (within hL rfl) (acceptPost_keeps _ _ _ (within hL rfl) hs1))))

theorem acceptTask_keeps (c : CoreId) (h' : Nat)
    (hL : ∀ p ∈ ([.freeCtr, .sys, .regs, .held, .mem, .cores, .pg, .bv, .pc] : List Part), p ∈ L)
    (h : keeps L o s) : keeps L o (acceptTask c h' s) := by
  unfold acceptTask
  extract_lets _ s1 _
  have hs1 : keeps L o s1 := setCore_keeps _ _ (within hL rfl) h
  split
  · exact h
  · split
    · exact h
    · extract_lets s2 _ _
      have hs2 : keeps L o s2 := hwMod_keeps _ _ (within hL rfl) (acceptPost_keeps _ _ _ (within hL rfl) hs1)
      refine keeps_ite _ h ?_
      exact keeps_ite _ (retryStalled_keeps (within hL rfl) (coreFault_keeps _ _ _ (within hL rfl) (setCore_keeps _ _ (within hL rfl) hs2))) (retryStalled_keeps (within hL rfl) (pcCore_keeps _ _ (within hL rfl) (enterAt_keeps _ _ _ _ _ _ (within hL rfl) hs2)))

theorem loadLong_keeps (c : CoreId) (r : RCode) (addr : Addr) (ecc : Ecc)
    (hL : ∀ p ∈ ([.now, .freeCtr, .sys, .regs, .held, .mem, .cores, .pg, .sd, .mains, .fb, .fbo, .mo, .sv, .bv, .lk, .time, .pr, .gh, .ph, .can,
      .ks, .pc] : List Part), p ∈ L)
    (h : keeps L o s) : keeps L o (loadLong c r addr ecc s) := by
  refine guardWord_keeps _ _ (fun t h => ?_) (within hL rfl) h
  dsimp only
  split
  · exact coreFault_keeps _ _ _ (within hL rfl) h
  · have loaded : keeps L o (loadWord c addr t).2 := loadWord_keeps _ _ (within hL rfl) h
    have counted := fun evs v => countWord_keeps c t.cores[c] 1 evs (within hL rfl) (setCore_keeps c v (within hL rfl) loaded)
    have corrected := fun b evs v => keeps_whenB b (fun _ h => eccCorrected_keeps (within hL rfl) h) (counted evs v)
    exact keeps_ite _ (ghFaultEcc_keeps (within hL rfl) (coreFault_keeps _ _ _ (within hL rfl) (corrected _ _ _)))
      (advanceCore_keeps _ _ _ (within hL rfl) (corrected _ _ _))

theorem storeLong_keeps (c : CoreId) (r : RCode) (addr : Addr)
    (hL : ∀ p ∈ ([.now, .freeCtr, .sys, .regs, .held, .mem, .cores, .pg, .sd, .mains, .fb, .fbo, .mo, .sv, .bv, .lk, .time, .pr, .gh, .ph, .can,
      .ks, .pc] : List Part), p ∈ L)
    (h : keeps L o s) : keeps L o (storeLong c r addr s) := by
  unfold storeLong
  exact guardWord_keeps _ _ (fun _ h => by
    split
    · exact coreFault_keeps _ _ _ (within hL rfl) h
    · exact advanceCore_keeps _ _ _ (within hL rfl) (countWord_keeps _ _ _ _ (within hL rfl) (setCore_keeps _ _ (within hL rfl) (storeWord_keeps _ _ _ (within hL rfl) h)))) (within hL rfl) h

theorem moveLong_keeps (c : CoreId) (r : RCode) (imm : BitVec 24)
    (hL : ∀ p ∈ ([.regs, .held, .cores, .pg, .bv, .pc] : List Part), p ∈ L) (h : keeps L o s) : keeps L o (moveLong c r imm s) :=
  guardWord_keeps _ _ (fun _ h => advanceCore_keeps _ _ _ (within hL rfl) (countWord_keeps _ _ _ _ (within hL rfl) (setCore_keeps _ _ (within hL rfl) h))) (within hL rfl) h

theorem jumpReg_keeps (c : CoreId) (cond : Cond) (anl : Bool) (r : DReg)
    (hL : ∀ p ∈ ([.regs, .held, .cores, .pg, .bv, .pc] : List Part), p ∈ L) (h : keeps L o s) : keeps L o (jumpReg c cond anl r s) := by
  unfold jumpReg
  exact takeBranch_keeps _ _ _ _ _ (within hL rfl) (keeps_whenB _ (fun _ h => landSlot_keeps _ (within hL rfl) h) h)

theorem repeatWord_keeps (c : CoreId) (cnt : RptCount) (last : BitVec 17)
    (hL : ∀ p ∈ ([.freeCtr, .sys, .regs, .held, .mem, .cores, .pg, .bv, .pc] : List Part), p ∈ L)
    (h : keeps L o s) : keeps L o (repeatWord c cnt last s) := by
  unfold repeatWord
  exact guardWord_keeps _ _ (fun _ h => keeps_ite _ (coreFault_keeps _ _ _ (within hL rfl) h) (by
    split
    · exact openRepeat_keeps _ _ _ (within hL rfl) h
    · exact openRepeat_keeps _ _ _ (within hL rfl) (keeps_whenB _ (fun _ h => landSlot_keeps _ (within hL rfl) h) h))) (within hL rfl) h

theorem badWord_keeps (c : CoreId) (why : BadWord)
    (hL : ∀ p ∈ ([.freeCtr, .sys, .regs, .held, .mem, .cores, .pg, .bv, .lk, .pr, .gh, .pc] : List Part), p ∈ L)
    (h : keeps L o s) : keeps L o (badWord c why s) :=
  guardWord_keeps _ _ (fun _ h => keeps_ite _ (ghFaultEcc_keeps (within hL rfl) (coreFault_keeps _ _ _ (within hL rfl) h)) (coreFault_keeps _ _ _ (within hL rfl) h)) (within hL rfl) h

theorem sdoRequest_keeps (c : Fin 2) (q : KReq)
    (hL : ∀ p ∈ ([.now, .freeCtr, .sys, .regs, .held, .mem, .cores, .pg, .sd, .mains, .fb, .fbo, .mo, .sv, .bv, .lk, .time, .pr, .gh, .ph, .can,
      .ks, .pc] : List Part), p ∈ L)
    (h : keeps L o s) : keeps L o (sdoRequest c q s) :=
  keeps_ite _ (kServe_keeps _ (within hL rfl) h) h

theorem copReset_keeps (c : Fin 2) (hL : ∀ p ∈ ([.can] : List Part), p ∈ L) (h : keeps L o s) : keeps L o (copReset c s) :=
  setCan_keeps _ _ (within hL rfl) h

theorem coSend_keeps (c : Fin 2) (cob : Nat) (data : List Byte)
    (hL : ∀ p ∈ ([.regs, .held, .can] : List Part), p ∈ L) (h : keeps L o s) : keeps L o (coSend c cob data s) :=
  count_keeps _ (within hL rfl) (setCan_keeps _ _ (within hL rfl) h)

theorem heartbeat_keeps (c : Fin 2) (hL : ∀ p ∈ ([.regs, .held, .can] : List Part), p ∈ L) (h : keeps L o s) : keeps L o (heartbeat c s) :=
  keeps_ite _ (setCan_keeps _ _ (within hL rfl) (coSend_keeps _ _ _ (within hL rfl) h)) h

theorem setTpdo_keeps (n : Nat) (x : TpdoSt) (hL : ∀ p ∈ ([.can] : List Part), p ∈ L) (h : keeps L o s) : keeps L o (setTpdo n x s) :=
  setCan_keeps _ _ (within hL rfl) h

theorem tpdoSend_keeps (n : Nat) (hL : ∀ p ∈ ([.regs, .held, .can] : List Part), p ∈ L) (h : keeps L o s) : keeps L o (tpdoSend n s) :=
  keeps_ite _ h (keeps_ite _ (setTpdo_keeps _ _ (within hL rfl) h) (setTpdo_keeps _ _ (within hL rfl) (coSend_keeps _ _ _ (within hL rfl) h)))

theorem inhibitExpiry_keeps (n : Nat)
    (hL : ∀ p ∈ ([.regs, .held, .can] : List Part), p ∈ L) (h : keeps L o s) : keeps L o (inhibitExpiry n s) :=
  keeps_ite _ (tpdoSend_keeps _ (within hL rfl) (setTpdo_keeps _ _ (within hL rfl) h)) (setTpdo_keeps _ _ (within hL rfl) h)

theorem rpdoWrites_keeps (f : KFrom) (x1 : List (Nat × Nat × Nat)) (x2 : List Byte)
    (hL : ∀ p ∈ ([.now, .sys, .regs, .held, .mem, .cores, .pg, .sd, .mains, .fb, .fbo, .mo, .sv, .bv, .lk, .time, .pr, .gh, .ph, .can, .ks,
      .pc] : List Part), p ∈ L)
    (h : keeps L o s) : keeps L o (rpdoWrites f x1 x2 s) := by
  induction x1 generalizing x2 s with
  | nil => exact h
  | cons x r ih =>
    refine ih _ ?_
    split
    · exact serveWrite_keeps _ _ _ _ _ (within hL rfl) h
    · exact h

theorem rpdoEff_keeps (n : Nat) (data : List Byte)
    (hL : ∀ p ∈ ([.now, .sys, .regs, .held, .mem, .cores, .pg, .sd, .mains, .fb, .fbo, .mo, .sv, .bv, .lk, .time, .pr, .gh, .ph, .can, .ks,
      .pc] : List Part), p ∈ L)
    (h : keeps L o s) : keeps L o (rpdoEff n data s) :=
  keeps_ite _ h (rpdoWrites_keeps _ _ _ (within hL rfl) h)

end Sys2Proof.Machine
end

