-- ==== Sys2Proof/Proofs/EveryCommand.lean ====
section
/-! PROOFS. Every command completes, and keeps the queue and the canonical form. -/

namespace Sys2Proof.Machine

/-- Every part of the state but the queue of commands. -/
def notQueue : List Part :=
  [.now, .freeCtr, .sys, .regs, .held, .mem, .cores, .pg, .sd, .mains, .fb, .fbo, .mo, .sv, .bv, .lk, .time, .pr, .gh, .ph, .can, .ks, .pc]

/-- A command's answer is a next state, with the queue and the canonical form kept. -/
def completes (s : State) (r : Host.Outcome State Fault Refusal) : Prop := ∃ u, r = .next u ∧ keeps notQueue s u

theorem next_completes {s u : State} (h : keeps notQueue s u) : completes s (.next u) := ⟨u, rfl, h⟩

theorem execMainsSenseEdge_completes (e : PinEdge) (s : State) : completes s (execMainsSenseEdge e s) := by
  have taken : keeps notQueue s { advance e.t s with mains := { s.mains with level := e.rising } } :=
    keeps_mains _ (by decide) (advance_keeps _ (by decide) (keeps_refl _ s))
  exact next_completes (keeps_ite _ (mainsEdge_keeps _ (by decide) taken) (bvPin_keeps _ _ (by decide) taken))

theorem execAbort_completes (who : Requester) (g : Fin 2) (s : State) : completes s (execAbort who g s) := by
  have h : keeps notQueue s (armLock who s) := armLock_keeps _ (by decide) (keeps_refl _ s)
  refine next_completes (keeps_ite _ (dropWrite_keeps _ _ _ (by decide) h) (genAbort_keeps _ (by decide) ?_))
  split
  · exact mirrorOut_keeps _ _ _ _ (by decide) h
  · exact h

theorem execBatchEnd_completes (bad : Bool) (t : Nat) (s : State) : completes s (execBatchEnd bad t s) := by
  have h : keeps notQueue s (advance t s) := advance_keeps _ (by decide) (keeps_refl _ s)
  refine next_completes ?_
  split
  · exact compareSig_keeps _ _ (by decide) (batchEnd_keeps _ (by decide) h)
  · exact compareSig_keeps _ _ (by decide) (batchEnd_keeps _ (by decide) h)
  · exact h

theorem execForwardedResponse_completes (msgid : BitVec 8) (r : KResp) (s : State) : completes s (execForwardedResponse msgid r s) := by
  refine next_completes (forwardDone_keeps _ _ (by decide) ?_)
  split
  · exact takeDone_keeps _ (by decide) (keeps_refl _ s)
  · exact keeps_refl _ s

theorem execTapInstruction_completes (i : TapOp) (s : State) (h : ¬(i = .makers ∧ s.sys.op = .test)) :
    completes s (execTapInstruction i s) := by
  rw [execTapInstruction, if_neg h]
  exact next_completes (keeps_sys _ (by decide) (keeps_refl _ s))

/-- Every command completes, but for a maker's own TAP instruction in TEST. -/
theorem exec_completes (c : Instr) (s : State) (known : ¬(c = .tapInstruction .makers ∧ s.sys.op = .test)) : completes s (exec c s) := by
  have h : keeps notQueue s s := keeps_refl _ s
  have hL : ∀ p ∈ notQueue, p ∈ notQueue := fun _ => id
  cases c with
  | sundialUpdate => exact next_completes (sundialUpdate_keeps (within hL rfl) h)
  | sundialDispatch => exact next_completes (sundialDispatch_keeps (within hL rfl) h)
  | w0Write => exact next_completes (regWrite_keeps _ _ _ (within hL rfl) h)
  | timebaseStandstill => exact next_completes (tbStandstill_keeps _ (within hL rfl) h)
  | mainsSenseEdge => exact execMainsSenseEdge_completes _ _
  | mainsLost => exact next_completes (mainsLost_keeps (within hL rfl) h)
  | quadratureEdge => exact next_completes (quadEdge_keeps _ _ _ _ _ (within hL rfl) (advance_keeps _ (within hL rfl) h))
  | pulseAndDirectionStep => exact next_completes (pulseStep_keeps _ _ _ _ _ (within hL rfl) (advance_keeps _ (within hL rfl) h))
  | toothEdge => exact next_completes (toothEdge_keeps _ _ _ _ (within hL rfl) (advance_keeps _ (within hL rfl) h))
  | zIndex => exact next_completes (zIndex_keeps _ _ _ _ (within hL rfl) (advance_keeps _ (within hL rfl) h))
  | ssiFrameEnd => exact next_completes (ssiFrame_keeps _ _ _ _ _ _ (within hL rfl) h)
  | mainsZeroCrossing => exact next_completes (mainsCross_keeps _ _ _ (within hL rfl) (advance_keeps _ (within hL rfl) h))
  | phaseLost => exact next_completes (phaseLost_keeps _ (within hL rfl) h)
  | fack => exact next_completes (fbAck_keeps _ (within hL rfl) (armLock_keeps _ (within hL rfl) h))
  | unseat => exact next_completes (fbUnseat_keeps _ (within hL rfl) (armLock_keeps _ (within hL rfl) h))
  | move => exact next_completes (moveCmd_keeps _ (within hL rfl) h)
  | speed => exact next_completes (speedCmd_keeps _ (within hL rfl) h)
  | follow => exact next_completes (followCmd_keeps _ (within hL rfl) h)
  | stopNormal => exact next_completes (stopCmd_keeps _ _ (within hL rfl) h)
  | stopQuick => exact next_completes (stopCmd_keeps _ _ (within hL rfl) h)
  | landing => exact next_completes (landingCmd_keeps _ (within hL rfl) h)
  | ack => exact next_completes (ackCmd_keeps _ (within hL rfl) h)
  | standstillEntry => exact next_completes (afterStill_keeps (within hL rfl) (segmentChecks_keeps (within hL rfl) (standstillIn_keeps _ (within hL rfl) h)))
  | standstillStore => exact next_completes (standstillStore_keeps _ _ (within hL rfl) h)
  | treatmentWithdrawalTimeout => exact next_completes (withdrawalTimeout_keeps _ (within hL rfl) h)
  | batchStart => exact next_completes (batchStart_keeps _ (within hL rfl) (advance_keeps _ (within hL rfl) h))
  | batchEnd => exact execBatchEnd_completes _ _ _
  | start => exact next_completes (genStart_keeps _ (within hL rfl) h)
  | abort => exact execAbort_completes _ _ _
  | injectionEnd => exact next_completes (injectionEnd_keeps _ (within hL rfl) h)
  | markReceived => exact next_completes (markReceived_keeps _ _ _ (within hL rfl) (advance_keeps _ (within hL rfl) h))
  | cstartReceived => exact next_completes (cstartReceived_keeps _ _ _ _ (within hL rfl) h)
  | listenEnd => exact next_completes (listenEnd_keeps (within hL rfl) h)
  | coldstartEnd => exact next_completes (coldstartEnd_keeps (within hL rfl) h)
  | clash => exact next_completes (clashSignal_keeps (within hL rfl) h)
  | retry => exact next_completes (retryLink_keeps (within hL rfl) (armLock_keeps _ (within hL rfl) h))
  | uplinkFrame => exact next_completes (uplinkFrame_keeps _ _ _ (within hL rfl) h)
  | emptySlot => exact next_completes (emptySlot_keeps _ (within hL rfl) h)
  | serviceDownlink => exact next_completes (serviceDownlink_keeps _ (within hL rfl) h)
  | serviceUplink => exact next_completes (serviceUplink_keeps _ _ _ _ (within hL rfl) h)
  | setPointFrame => exact next_completes (setPointFrames_keeps _ (within hL rfl) h)
  | partnerSetpHeard => exact next_completes (partnerSetp_keeps _ _ _ _ _ _ (within hL rfl) (advance_keeps _ (within hL rfl) h))
  | linkPortSyncLost => exact next_completes (syncLost_keeps _ _ (within hL rfl) h)
  | portSyncAcquired => exact next_completes (syncAcquired_keeps _ (within hL rfl) h)
  | timePpsEdge => exact next_completes (keeps_ite _ (ppsEdge_keeps (within hL rfl) (advance_keeps _ (within hL rfl) h)) (bvPin_keeps _ _ (within hL rfl) (advance_keeps _ (within hL rfl) h)))
  | ppsHoldover => exact next_completes (ppsHoldover_keeps (within hL rfl) h)
  | stage => exact next_completes (gwStage_keeps (within hL rfl) h)
  | abortBeforeCommit => exact next_completes (gwAbort_keeps (within hL rfl) h)
  | clear => exact next_completes (gwClear_keeps (within hL rfl) h)
  | groupCommitDecision => exact next_completes (gwDecide_keeps (within hL rfl) h)
  | groupInconsistent => exact next_completes (gwInconsistent_keeps (within hL rfl) h)
  | stateReceived => exact next_completes (onFrame_keeps _ _ _ (fun _ h => takeState_keeps _ _ (within hL rfl) h) (within hL rfl) h)
  | incReceived => exact next_completes (onFrame_keeps _ _ _ (fun _ h => takeInc_keeps _ _ _ (within hL rfl) h) (within hL rfl) h)
  | inReceived => exact next_completes (onFrame_keeps _ _ _ (fun _ h => takeIn_keeps _ _ _ (within hL rfl) h) (within hL rfl) h)
  | sigReceived => exact next_completes (onFrame_keeps _ _ _ (fun _ h => takeSig_keeps _ (within hL rfl) h) (within hL rfl) h)
  | diagnosisOutcome => exact next_completes (diagnosisOutcome_keeps (within hL rfl) h)
  | dresReceived => exact next_completes (onFrame_keeps _ _ _ (fun _ h => takeDres_keeps _ (within hL rfl) h) (within hL rfl) h)
  | bndCutOff => exact next_completes (bndCutOff_keeps _ (within hL rfl) h)
  | bndReceived => exact next_completes (onFrame_keeps _ _ _ (fun _ h => takeBnd_keeps _ (within hL rfl) h) (within hL rfl) h)
  | adoptReceived => exact next_completes (onFrame_keeps _ _ _ (fun _ h => takeAdopt_keeps _ (within hL rfl) h) (within hL rfl) h)
  | failReceived => exact next_completes (onFrame_keeps _ _ _ (fun _ h => takeFail_keeps (within hL rfl) (setPr_keeps _ (within hL rfl) h)) (within hL rfl) h)
  | pairLost => exact next_completes (pairLost_keeps (within hL rfl) h)
  | bridging => exact next_completes (bridge_keeps (within hL rfl) h)
  | takeover => exact next_completes (takeoverEff_keeps (within hL rfl) h)
  | xreqReceived => exact next_completes (onFrame_keeps _ _ _ (fun _ h => takeXreq_keeps _ (within hL rfl) h) (within hL rfl) h)
  | xackReceived => exact next_completes (onFrame_keeps _ _ _ (fun _ h => takeXack_keeps _ _ (within hL rfl) h) (within hL rfl) h)
  | xackTimeout => exact next_completes (xackTimeout_keeps (within hL rfl) h)
  | exchange => exact next_completes (exchangeEff_keeps (within hL rfl) h)
  | exchangeOverlapEnd => exact next_completes (overlapEnd_keeps (within hL rfl) h)
  | arm => exact next_completes (keeps_ite _ (noteCommand_keeps _ _ (within hL rfl) (stageReg_keeps _ _ (within hL rfl) (armLock_keeps _ (within hL rfl) h))) (dropWrite_keeps _ _ _ (within hL rfl) (armLock_keeps _ (within hL rfl) h)))
  | force => exact next_completes (bvForce_keeps _ (within hL rfl) (armLock_keeps _ (within hL rfl) h))
  | stop => exact next_completes (bvStop_keeps _ (within hL rfl) (armLock_keeps _ (within hL rfl) h))
  | recordDone => exact next_completes (recordDone_keeps _ (within hL rfl) h)
  | arch => exact next_completes (kWrite_keeps _ _ _ (fun _ h => archive_keeps _ _ _ _ (within hL rfl) h) (within hL rfl) h)
  | archiveComplete => exact next_completes (archiveComplete_keeps _ (within hL rfl) h)
  | dsto => exact next_completes (kWrite_keeps _ _ _ (fun _ h => maskDemand_keeps _ _ _ (within hL rfl) h) (within hL rfl) h)
  | dss1 => exact next_completes (kWrite_keeps _ _ _ (fun _ h => maskDemand_keeps _ _ _ (within hL rfl) h) (within hL rfl) h)
  | gatehouseAck => exact next_completes (kWrite_keeps _ _ _ (fun _ h => ghCommand_keeps _ _ (within hL rfl) h) (within hL rfl) h)
  | bdlyExpiry => exact next_completes (bdlyExpiry_keeps _ (within hL rfl) h)
  | ss1tExpiry => exact next_completes (ss1tExpiry_keeps _ (within hL rfl) h)
  | demandInputSample => exact next_completes (keeps_upTo _ (fun _ _ h => sampleDemand_keeps _ (within hL rfl) h) h)
  | demandDiscrepancy => exact next_completes (demandDiscrepancy_keeps _ (within hL rfl) h)
  | testPulse => exact next_completes (testPulse_keeps _ _ (within hL rfl) h)
  | testPulseEnd => exact next_completes (testPulseEnd_keeps _ _ (within hL rfl) h)
  | safeOffLineMismatch => exact next_completes (keeps_ite _ (ghFault_keeps _ _ _ (within hL rfl) h) h)
  | brakeFeedbackMismatch => exact next_completes (brakeMismatch_keeps _ (within hL rfl) h)
  | brkFbChange => exact next_completes (brkFbChange_keeps _ _ (within hL rfl) h)
  | watchdogService => exact next_completes (wdService_keeps _ _ (within hL rfl) (armLock_keeps _ (within hL rfl) (advance_keeps _ (within hL rfl) h)))
  | watchdogConfigWrite => exact next_completes (wdConfig_keeps _ _ _ (within hL rfl) (armLock_keeps _ (within hL rfl) (advance_keeps _ (within hL rfl) h)))
  | watchdogWindowMissed => exact next_completes (wdMissed_keeps _ (within hL rfl) h)
  | rescan => exact next_completes (keeps_ite _ (rescanBlock_keeps _ _ _ (within hL rfl) h) h)
  | scrub => exact next_completes (keeps_ite _ h (eccAnswer_keeps _ _ (within hL rfl) h))
  | clockFault => exact next_completes (ghFault_keeps _ _ _ (within hL rfl) h)
  | refreshLoss => exact next_completes (refreshLoss_keeps (within hL rfl) h)
  | degradedTimeExpiry => exact next_completes (keeps_ite _ (enterSafe_keeps (within hL rfl) (putFld_keeps _ _ _ _ (within hL rfl) h)) h)
  | faultRecordWrite => exact next_completes (flushRecord_keeps (within hL rfl) h)
  | sdmResult => exact next_completes (sdmResult_keeps _ _ _ (within hL rfl) h)
  | railFault => exact next_completes (railFault_keeps _ (within hL rfl) h)
  | railMeasurement => exact next_completes (railMeasurement_keeps _ _ _ _ (within hL rfl) h)
  | retTExpiry => exact next_completes (retExpiry_keeps (within hL rfl) h)
  | chopperDutyEnd => exact next_completes (chopEnd_keeps (within hL rfl) h)
  | initSet => exact next_completes (keeps_ite _ (cnInitSet_keeps _ (within hL rfl) (armLock_keeps _ (within hL rfl) h)) h)
  | initClear => exact next_completes (keeps_ite _ (cnInitClear_keeps _ (within hL rfl) (armLock_keeps _ (within hL rfl) h)) h)
  | integrationComplete => exact next_completes (keeps_ite _ (setCan_keeps _ _ (within hL rfl) h) h)
  | txrq => exact next_completes (keeps_ite _ (cnTxrq_keeps _ _ _ (within hL rfl) (armLock_keeps _ (within hL rfl) h)) h)
  | cancel => exact next_completes (keeps_ite _ (cnCancel_keeps _ _ (within hL rfl) (armLock_keeps _ (within hL rfl) h)) h)
  | push => exact next_completes (keeps_ite _ (cnPush_keeps _ (within hL rfl) (armLock_keeps _ (within hL rfl) h)) h)
  | flush => exact next_completes (keeps_ite _ (cnFlush_keeps _ (within hL rfl) (armLock_keeps _ (within hL rfl) h)) h)
  | rpop => exact next_completes (keeps_ite _ (cnRpop_keeps _ (within hL rfl) (armLock_keeps _ (within hL rfl) h)) h)
  | pop => exact next_completes (keeps_ite _ (cnPop_keeps _ (within hL rfl) (armLock_keeps _ (within hL rfl) h)) h)
  | startOfFrame => exact next_completes (cnStart_keeps _ _ (within hL rfl) (advance_keeps _ (within hL rfl) h))
  | frameEnd => exact next_completes (cnFrameEnd_keeps _ _ _ (within hL rfl) (advance_keeps _ (within hL rfl) h))
  | frameReceived => exact next_completes (cnReceive_keeps _ _ _ (within hL rfl) h)
  | busOffRecovery => exact next_completes (keeps_ite _ (cnEvt_keeps _ _ (within hL rfl) (setCan_keeps _ _ (within hL rfl) h)) h)
  | porstNLow => exact next_completes (resetPart_keeps _ _ _ _ (within hL rfl) h)
  | railPowerOnReset => exact next_completes (resetPart_keeps _ _ _ _ (within hL rfl) h)
  | rstNReset => exact next_completes (keeps_ite _ h (resetPart_keeps _ _ _ _ (within hL rfl) h))
  | rstNRelease => exact next_completes (keeps_ite _ (keeps_sys _ (within hL rfl) h) h)
  | powerUpEnd => exact next_completes (keeps_ite _ (keeps_sys _ (within hL rfl) h) h)
  | bootStepComplete => exact next_completes (bootStep_keeps _ (within hL rfl) h)
  | bwaitExpiry => exact next_completes (bwaitOver_keeps (within hL rfl) h)
  | bootHold => exact next_completes (keeps_ite _ (holdBoot_keeps (within hL rfl) (armLock_keeps _ (within hL rfl) h)) h)
  | bootHoldRelease => exact next_completes (keeps_ite _ (releaseBoot_keeps (within hL rfl) (armLock_keeps _ (within hL rfl) h)) h)
  | nvPdataWrite => exact next_completes (keeps_ite _ (pdataWrite_keeps _ _ _ (within hL rfl) (armLock_keeps _ (within hL rfl) h)) h)
  | nvMdataWrite => exact next_completes (keeps_ite _ (mdataWrite_keeps _ _ (within hL rfl) (armLock_keeps _ (within hL rfl) h)) h)
  | nvMdataRead => exact next_completes (keeps_ite _ (keeps_sys _ (within hL rfl) (mdataRead_keeps (within hL rfl) h)) h)
  | run => exact next_completes (keeps_ite _ (nvRun_keeps _ (within hL rfl) (armLock_keeps _ (within hL rfl) h)) h)
  | autorunExpiry => exact next_completes (keeps_ite _ (runRequest_keeps (within hL rfl) h) h)
  | bstore => exact next_completes (keeps_ite _ (nvBstore_keeps _ (within hL rfl) (armLock_keeps _ (within hL rfl) h)) h)
  | swrst => exact next_completes (keeps_ite _ (nvSwrst_keeps _ (within hL rfl) (armLock_keeps _ (within hL rfl) h)) h)
  | recov => exact next_completes (keeps_ite _ (nvRecov_keeps _ (within hL rfl) (armLock_keeps _ (within hL rfl) h)) h)
  | flushComplete => exact next_completes (flushComplete_keeps (within hL rfl) h)
  | internalResetRelease => exact next_completes (keeps_ite _ (resetPart_keeps _ _ _ _ (within hL rfl) h) h)
  | operatingHour => exact next_completes (hourPassed_keeps (within hL rfl) h)
  | tapInstruction i => exact execTapInstruction_completes i s fun ⟨e, test⟩ => known ⟨e ▸ rfl, test⟩
  | tapReset => exact next_completes (keeps_sys _ (within hL rfl) h)
  | svcReceived => exact next_completes (onFrame_keeps _ _ _ (fun _ h => laneTraffic_keeps _ (within hL rfl) h) (within hL rfl) h)
  | roleExchange => exact next_completes (kTop_keeps _ (within hL rfl) h)
  | password => exact next_completes (kTop_keeps _ (within hL rfl) h)
  | close => exact next_completes (kTop_keeps _ (within hL rfl) h)
  | newPassword => exact next_completes (kTop_keeps _ (within hL rfl) h)
  | authorisationIdleTimeout => exact next_completes (closeFor_keeps _ _ (within hL rfl) h)
  | lockoutEnd => exact next_completes (showPw_keeps (within hL rfl) (setPw_keeps _ (within hL rfl) h))
  | logAck => exact next_completes (kTop_keeps _ (within hL rfl) h)
  | logEntryVerified => exact next_completes (logVerified_keeps _ (within hL rfl) h)
  | sdoRequest => exact next_completes (sdoRequest_keeps _ _ (within hL rfl) h)
  | nmtResetNode => exact next_completes (keeps_ite _ (copReset_keeps _ (within hL rfl) h) h)
  | nmtResetCommunication => exact next_completes (keeps_ite _ (copReset_keeps _ (within hL rfl) h) h)
  | nmtStopped => exact next_completes (keeps_ite _ (setCan_keeps _ _ (within hL rfl) h) h)
  | heartbeat => exact next_completes (heartbeat_keeps _ (within hL rfl) h)
  | rpdo => exact next_completes (rpdoEff_keeps _ _ (within hL rfl) h)
  | tpdoEventTimer => exact next_completes (tpdoSend_keeps _ (within hL rfl) h)
  | tpdoInhibitExpiry => exact next_completes (inhibitExpiry_keeps _ (within hL rfl) h)
  | dictionaryRead => exact next_completes (kTop_keeps _ (within hL rfl) h)
  | dictionaryWrite => exact next_completes (kTop_keeps _ (within hL rfl) h)
  | key => exact next_completes (kTop_keeps _ (within hL rfl) h)
  | storeParameters => exact next_completes (kTop_keeps _ (within hL rfl) h)
  | restoreDefaults => exact next_completes (kTop_keeps _ (within hL rfl) h)
  | routedRequest => exact next_completes (kTop_keeps _ (within hL rfl) h)
  | routedResponse => exact next_completes (kTop_keeps _ (within hL rfl) h)
  | overlayWrite => exact next_completes (kTop_keeps _ (within hL rfl) h)
  | approval => exact next_completes (kTop_keeps _ (within hL rfl) h)
  | overlaySelection => exact next_completes (kTop_keeps _ (within hL rfl) h)
  | forwardTimeout => exact next_completes (forwardTimeout_keeps _ (within hL rfl) h)
  | forwardedResponse => exact execForwardedResponse_completes _ _ _
  | configurationStoreComplete => exact next_completes (storeComplete_keeps _ (within hL rfl) h)
  | partnerCompletionTimeout => exact next_completes (partnerTimeout_keeps (within hL rfl) h)
  | go => exact next_completes (keeps_ite _ h (keeps_ite _ (dropWrite_keeps _ _ _ (within hL rfl) (armLock_keeps _ (within hL rfl) h)) (keeps_whenB _ (fun _ h => kioskGo_keeps (within hL rfl) h) (armLock_keeps _ (within hL rfl) h))))
  | registerWrite => exact next_completes (keeps_ite _ (regWrite_keeps _ _ _ (within hL rfl) h) h)
  | scUnlock => exact next_completes (regWrite_keeps _ _ _ (within hL rfl) h)
  | slowDomainTransfer => exact next_completes (slowTransferWith_keeps _ (fun _ h => kioskGo_keeps (within hL rfl) h) (within hL rfl) h)
  | hostPortFrame => exact next_completes (hostFrame_keeps _ (within hL rfl) h)
  | gpioEdge => exact next_completes (gpioEdge_keeps _ _ (within hL rfl) h)
  | biquadCommit => exact next_completes (regWrite_keeps _ _ _ (within hL rfl) h)
  | blendTableCommit => exact next_completes (regWrite_keeps _ _ _ (within hL rfl) h)
  | servoPeriodBoundary => exact next_completes (boundary_keeps (within hL rfl) (advance_keeps _ (within hL rfl) h))
  | commonInstant => exact next_completes (commonInstant_keeps (within hL rfl) (advance_keeps _ (within hL rfl) h))
  | taskAcceptance => exact next_completes (acceptTask_keeps _ _ (within hL rfl) h)
  | halt => exact next_completes (kWrite_keeps _ _ _ (fun _ h => haltCore_keeps _ (within hL rfl) h) (within hL rfl) h)
  | storeBufferDrain => exact next_completes (drainOne_keeps _ (within hL rfl) h)
  | loadDataReturn => exact next_completes (setCore_keeps _ _ (within hL rfl) h)
  | nop => exact next_completes (runWord_keeps _ _ _ (within hL rfl) h)
  | add => exact next_completes (runWord_keeps _ _ _ (within hL rfl) h)
  | adc => exact next_completes (runWord_keeps _ _ _ (within hL rfl) h)
  | sub => exact next_completes (runWord_keeps _ _ _ (within hL rfl) h)
  | sbc => exact next_completes (runWord_keeps _ _ _ (within hL rfl) h)
  | cmp => exact next_completes (runWord_keeps _ _ _ (within hL rfl) h)
  | and => exact next_completes (runWord_keeps _ _ _ (within hL rfl) h)
  | or => exact next_completes (runWord_keeps _ _ _ (within hL rfl) h)
  | xor => exact next_completes (runWord_keeps _ _ _ (within hL rfl) h)
  | adds => exact next_completes (runWord_keeps _ _ _ (within hL rfl) h)
  | subs => exact next_completes (runWord_keeps _ _ _ (within hL rfl) h)
  | min => exact next_completes (runWord_keeps _ _ _ (within hL rfl) h)
  | max => exact next_completes (runWord_keeps _ _ _ (within hL rfl) h)
  | tst => exact next_completes (runWord_keeps _ _ _ (within hL rfl) h)
  | neg => exact next_completes (runWord_keeps _ _ _ (within hL rfl) h)
  | abs => exact next_completes (runWord_keeps _ _ _ (within hL rfl) h)
  | not => exact next_completes (runWord_keeps _ _ _ (within hL rfl) h)
  | asl => exact next_completes (runWord_keeps _ _ _ (within hL rfl) h)
  | asr => exact next_completes (runWord_keeps _ _ _ (within hL rfl) h)
  | lsr => exact next_completes (runWord_keeps _ _ _ (within hL rfl) h)
  | aslv => exact next_completes (runWord_keeps _ _ _ (within hL rfl) h)
  | asrv => exact next_completes (runWord_keeps _ _ _ (within hL rfl) h)
  | lsrv => exact next_completes (runWord_keeps _ _ _ (within hL rfl) h)
  | bset => exact next_completes (runWord_keeps _ _ _ (within hL rfl) h)
  | bclr => exact next_completes (runWord_keeps _ _ _ (within hL rfl) h)
  | btst => exact next_completes (runWord_keeps _ _ _ (within hL rfl) h)
  | norm => exact next_completes (runWord_keeps _ _ _ (within hL rfl) h)
  | exp => exact next_completes (runWord_keeps _ _ _ (within hL rfl) h)
  | mpy => exact next_completes (runWord_keeps _ _ _ (within hL rfl) h)
  | mac => exact next_completes (runWord_keeps _ _ _ (within hL rfl) h)
  | msu => exact next_completes (runWord_keeps _ _ _ (within hL rfl) h)
  | lda => exact next_completes (runWord_keeps _ _ _ (within hL rfl) h)
  | adda => exact next_completes (runWord_keeps _ _ _ (within hL rfl) h)
  | suba => exact next_completes (runWord_keeps _ _ _ (within hL rfl) h)
  | clra => exact next_completes (runWord_keeps _ _ _ (within hL rfl) h)
  | nega => exact next_completes (runWord_keeps _ _ _ (within hL rfl) h)
  | absa => exact next_completes (runWord_keeps _ _ _ (within hL rfl) h)
  | shav => exact next_completes (runWord_keeps _ _ _ (within hL rfl) h)
  | suma => exact next_completes (runWord_keeps _ _ _ (within hL rfl) h)
  | norma => exact next_completes (runWord_keeps _ _ _ (within hL rfl) h)
  | expa => exact next_completes (runWord_keeps _ _ _ (within hL rfl) h)
  | rnda => exact next_completes (runWord_keeps _ _ _ (within hL rfl) h)
  | addi => exact next_completes (runWord_keeps _ _ _ (within hL rfl) h)
  | subi => exact next_completes (runWord_keeps _ _ _ (within hL rfl) h)
  | cmpi => exact next_completes (runWord_keeps _ _ _ (within hL rfl) h)
  | andi => exact next_completes (runWord_keeps _ _ _ (within hL rfl) h)
  | ori => exact next_completes (runWord_keeps _ _ _ (within hL rfl) h)
  | xori => exact next_completes (runWord_keeps _ _ _ (within hL rfl) h)
  | tsti => exact next_completes (runWord_keeps _ _ _ (within hL rfl) h)
  | ldi => exact next_completes (runWord_keeps _ _ _ (within hL rfl) h)
  | ldxy => exact next_completes (runWord_keeps _ _ _ (within hL rfl) h)
  | stxy => exact next_completes (runWord_keeps _ _ _ (within hL rfl) h)
  | ld => exact next_completes (runWord_keeps _ _ _ (within hL rfl) h)
  | st => exact next_completes (runWord_keeps _ _ _ (within hL rfl) h)
  | mov => exact next_completes (runWord_keeps _ _ _ (within hL rfl) h)
  | movf => exact next_completes (runWord_keeps _ _ _ (within hL rfl) h)
  | movi => exact next_completes (runWord_keeps _ _ _ (within hL rfl) h)
  | moda => exact next_completes (runWord_keeps _ _ _ (within hL rfl) h)
  | ldLong => exact next_completes (loadLong_keeps _ _ _ _ (within hL rfl) h)
  | stLong => exact next_completes (storeLong_keeps _ _ _ (within hL rfl) h)
  | movi24 => exact next_completes (moveLong_keeps _ _ _ (within hL rfl) h)
  | b => exact next_completes (branchWord_keeps _ _ (fun _ h => takeBranch_keeps _ _ _ _ _ (within hL rfl) h) (within hL rfl) h)
  | call => exact next_completes (branchWord_keeps _ _ (fun _ h => takeBranch_keeps _ _ _ _ _ (within hL rfl) h) (within hL rfl) h)
  | jr => exact next_completes (branchWord_keeps _ _ (fun _ h => jumpReg_keeps _ _ _ _ (within hL rfl) h) (within hL rfl) h)
  | lbrk => exact next_completes (branchWord_keeps _ _ (fun _ h => breakLoop_keeps _ (within hL rfl) h) (within hL rfl) h)
  | rpt => exact next_completes (repeatWord_keeps _ _ _ (within hL rfl) h)
  | systemNop => exact next_completes (guardWord_keeps _ _ (fun _ h => plainStep_keeps _ _ _ _ (within hL rfl) h) (within hL rfl) h)
  | wait => exact next_completes (guardWord_keeps _ _ (fun _ h => waitWord_keeps _ (within hL rfl) h) (within hL rfl) h)
  | rte => exact next_completes (branchWord_keeps _ _ (fun _ h => returnTask_keeps _ (within hL rfl) h) (within hL rfl) h)
  | illegalInstruction => exact next_completes (badWord_keeps _ _ (within hL rfl) h)
  | post => exact next_completes (keeps_ite _ (writePost_keeps _ _ _ (within hL rfl) (armLock_keeps _ (within hL rfl) h)) h)
  | dpost => exact next_completes (keeps_ite _ (writeDpost_keeps _ _ _ (within hL rfl) (armLock_keeps _ (within hL rfl) h)) h)
  | dcancel => exact next_completes (keeps_ite _ (writeDcancel_keeps _ _ _ (within hL rfl) (armLock_keeps _ (within hL rfl) h)) h)
  | systemTick => exact next_completes (tickEff_keeps (within hL rfl) h)
  | eventSourcePost => exact next_completes (keeps_ite _ (evOffer_keeps _ (within hL rfl) h) h)
  | snap => exact next_completes (regWrite_keeps _ _ _ (within hL rfl) h)
  | counterLoad => exact next_completes (regWrite_keeps _ _ _ (within hL rfl) h)
  | counterWrap => exact next_completes (counterWrapEff_keeps _ _ (within hL rfl) h)

/-- Settles O59: each command's operation changes parts of the state other than its queue. -/
theorem everyCommandCompletesAndKeepsTheQueue : Obligations.EveryCommandCompletesAndKeepsTheQueue := by
  intro c s known
  obtain ⟨u, e, hu⟩ := exec_completes c s known
  exact ⟨u, e, hu.parts .pending (by decide)⟩

/-- Settles O60: a step is the effect of the front command on a state with the registers and memories of the one before. -/
theorem everyStepKeepsTheCanonicalForm : Obligations.EveryStepKeepsTheCanonicalForm := by
  intro s t canon e
  unfold step at e
  split at e
  next => exact Host.Outcome.next.inj e ▸ canon
  next c cs front =>
    by_cases makers : c = .tapInstruction .makers ∧ s.sys.op = .test
    · obtain ⟨rfl, test⟩ := makers
      simp [exec, execTapInstruction, test] at e
    · obtain ⟨u, e', hu⟩ := exec_completes c { s with pending := cs } makers
      obtain rfl : u = t := Host.Outcome.next.inj (e' ▸ e)
      exact hu.form canon

end Sys2Proof.Machine
end

