-- ==== Sys2Proof/Proofs/RegisterFrames.lean ====
section
/-! PROOFS. Which registers an operation may touch: a frame over a set of addresses, closed under the shared register operations. -/

namespace Sys2Proof.Machine

/-- Every register outside A reads in t as in s, and its word in force is the same. -/
def touches (A : Nat → Prop) (s t : State) : Prop := ∀ a, ¬A (canonAddr a) → sameReg s t a

variable {A B : Nat → Prop} {L : List Part} {o s t : State}

theorem touches_refl (A : Nat → Prop) (s : State) : touches A s s := fun a _ => sameReg_refl s a

theorem touches_trans (h : touches A o s) (k : touches A s t) : touches A o t := fun a ha => sameReg_trans (h a ha) (k a ha)

theorem touches_mono (h : touches A s t) (sub : ∀ a, A a → B a) : touches B s t := fun a ha => h a fun hA => ha (sub _ hA)

/-- Parts other than the register file hold no register. -/
theorem touches_of_sameBut (h : sameBut L s t) (hr : Part.regs ∉ L) (hh : Part.held ∉ L) : touches A s t := fun a _ =>
  sameReg_of (h _ hr) (h _ hh) a

theorem touches_sameBut (h : touches A o s) (k : sameBut L s t) (hr : Part.regs ∉ L) (hh : Part.held ∉ L) : touches A o t :=
  touches_trans h (touches_of_sameBut k hr hh)

/-- An update of the state that leaves the register file and the writes that wait. -/
theorem touches_same (h : touches A o s) (hr : t.regs = s.regs) (hh : t.held = s.held) : touches A o t :=
  touches_trans h fun a _ => sameReg_of hr hh a

theorem touches_onlyEvents (h : touches A o s) (k : onlyEvents s t) (hA : ∀ a, eventReg a = true → A a) : touches A o t :=
  touches_trans h fun a ha => k.regs a (by simp) (by simpa using fun e => ha (hA _ e))

theorem touches_hwMod {a : Nat} (f : Word → Word) (hA : A (canonAddr a)) (h : touches A o s) : touches A o (hwMod a f s) :=
  touches_trans h fun _ hb => sameReg_hwMod s f fun e => hb (e ▸ hA)

theorem touches_putBit {a : Nat} (n : Nat) (b : Bool) (hA : A (canonAddr a)) (h : touches A o s) : touches A o (putBit a n b s) :=
  touches_hwMod _ hA h

theorem touches_putFld {a : Nat} (hi lo v : Nat) (hA : A (canonAddr a)) (h : touches A o s) : touches A o (putFld a hi lo v s) :=
  touches_hwMod _ hA h

theorem touches_putWord {a : Nat} (w : Word) (hA : A (canonAddr a)) (h : touches A o s) : touches A o (putWord a w s) :=
  touches_hwMod _ hA h

theorem touches_countBy {a : Nat} (n : Nat) (hA : A (canonAddr a)) (h : touches A o s) : touches A o (countBy a n s) :=
  touches_hwMod _ hA h

theorem touches_count {a : Nat} (hA : A (canonAddr a)) (h : touches A o s) : touches A o (count a s) := touches_countBy 1 hA h

theorem touches_putPair {a : Nat} (n : Nat) (hA : A (canonAddr a)) (hA' : A (canonAddr (a + 1))) (h : touches A o s) : touches A o (putPair a n s) :=
  touches_putWord _ hA' (touches_putWord _ hA h)

theorem touches_ite (c : Prop) [Decidable c] {u : State} (h : touches A o t) (k : touches A o u) : touches A o (if c then t else u) := by
  split <;> assumption

theorem touches_forEach {α : Type} (l : List α) {f : α → State → State} (hf : ∀ x ∈ l, ∀ s, touches A o s → touches A o (f x s))
    (h : touches A o s) : touches A o (forEach l f s) := forEach_induct _ l f hf h

theorem touches_upTo (n : Nat) {f : Nat → State → State} (hf : ∀ i < n, ∀ s, touches A o s → touches A o (f i s)) (h : touches A o s) :
    touches A o (upTo n f s) := upTo_induct _ n f hf h

theorem touches_whenB (b : Bool) {f : State → State} (hf : ∀ s, touches A o s → touches A o (f s)) (h : touches A o s) :
    touches A o (whenB b f s) := whenB_induct _ b f hf h

/-- The registers that a frame with events leaves out: those listed, the event controller's and the counters'. -/
def orEvents (as : List Nat) (a : Nat) : Prop := a ∈ as ∨ eventReg a = true

theorem regsBut_of_touches {as : List Nat} (h : touches (· ∈ as) s t) : regsBut as s t := h

theorem regsButEvents_of_touches {as : List Nat} (h : touches (orEvents as) s t) : regsButEvents as s t := fun a ha he =>
  h a fun k => k.elim ha fun e => by rw [he] at e; cases e

theorem touches_events {as : List Nat} (h : touches (orEvents as) o s) (k : onlyEvents s t) : touches (orEvents as) o t :=
  touches_onlyEvents h k fun _ => .inr

/-! ### The parts that a frame keeps -/

theorem sameBut.pending (h : sameBut L s t) (hp : Part.pending ∉ L) : t.pending = s.pending := h .pending hp
theorem sameBut.now (h : sameBut L s t) (hp : Part.now ∉ L) : t.now = s.now := h .now hp
theorem sameBut.freeCtr (h : sameBut L s t) (hp : Part.freeCtr ∉ L) : t.freeCtr = s.freeCtr := h .freeCtr hp
theorem sameBut.sys (h : sameBut L s t) (hp : Part.sys ∉ L) : t.sys = s.sys := h .sys hp
theorem sameBut.regs (h : sameBut L s t) (hp : Part.regs ∉ L) : t.regs = s.regs := h .regs hp
theorem sameBut.held (h : sameBut L s t) (hp : Part.held ∉ L) : t.held = s.held := h .held hp
theorem sameBut.mem (h : sameBut L s t) (hp : Part.mem ∉ L) : t.mem = s.mem := h .mem hp
theorem sameBut.cores (h : sameBut L s t) (hp : Part.cores ∉ L) : t.cores = s.cores := h .cores hp
theorem sameBut.pg (h : sameBut L s t) (hp : Part.pg ∉ L) : t.pg = s.pg := h .pg hp
theorem sameBut.sd (h : sameBut L s t) (hp : Part.sd ∉ L) : t.sd = s.sd := h .sd hp
theorem sameBut.mains (h : sameBut L s t) (hp : Part.mains ∉ L) : t.mains = s.mains := h .mains hp
theorem sameBut.fb (h : sameBut L s t) (hp : Part.fb ∉ L) : t.fb = s.fb := h .fb hp
theorem sameBut.fbo (h : sameBut L s t) (hp : Part.fbo ∉ L) : t.fbo = s.fbo := h .fbo hp
theorem sameBut.mo (h : sameBut L s t) (hp : Part.mo ∉ L) : t.mo = s.mo := h .mo hp
theorem sameBut.sv (h : sameBut L s t) (hp : Part.sv ∉ L) : t.sv = s.sv := h .sv hp
theorem sameBut.bv (h : sameBut L s t) (hp : Part.bv ∉ L) : t.bv = s.bv := h .bv hp
theorem sameBut.lk (h : sameBut L s t) (hp : Part.lk ∉ L) : t.lk = s.lk := h .lk hp
theorem sameBut.time (h : sameBut L s t) (hp : Part.time ∉ L) : t.time = s.time := h .time hp
theorem sameBut.pr (h : sameBut L s t) (hp : Part.pr ∉ L) : t.pr = s.pr := h .pr hp
theorem sameBut.gh (h : sameBut L s t) (hp : Part.gh ∉ L) : t.gh = s.gh := h .gh hp
theorem sameBut.ph (h : sameBut L s t) (hp : Part.ph ∉ L) : t.ph = s.ph := h .ph hp
theorem sameBut.can (h : sameBut L s t) (hp : Part.can ∉ L) : t.can = s.can := h .can hp
theorem sameBut.ks (h : sameBut L s t) (hp : Part.ks ∉ L) : t.ks = s.ks := h .ks hp
theorem sameBut.pc (h : sameBut L s t) (hp : Part.pc ∉ L) : t.pc = s.pc := h .pc hp

end Sys2Proof.Machine
end

