-- ==== Sys2Proof/Proofs/QueueAndReset.lean ====
section
/-! PROOFS. The queue and the reset state. -/

namespace Sys2Proof.Machine

theorem mem_of_findRow {rs : List RegRow} {a : Nat} {r : RegRow} (h : findRow rs a = some r) : r ∈ rs := by
  induction rs with
  | nil => cases h
  | cons x xs ih =>
    rw [findRow] at h
    split at h
    · exact Option.some.inj h ▸ .head _
    · exact .tail _ (ih h)

/-- Each field of each row reads its own reset value in the reset word that the row's fields add up to: no two overlap and each value fits. -/
def resetsReadBack (rs : List RegRow) : Prop :=
  ∀ r ∈ rs, ∀ f ∈ r.fields, fld (word (fieldsReset r.fields)) f.hi f.lo = f.reset

theorem resetsReadBack_ite (c : Prop) [Decidable c] {rs ts : List RegRow} (h : resetsReadBack rs) (k : resetsReadBack ts) :
    resetsReadBack (if c then rs else ts) := by split <;> assumption

theorem blockRows_resetsReadBack (a : Nat) : resetsReadBack (blockRows a) := by
  unfold blockRows
  repeat' refine resetsReadBack_ite _ ?_ ?_
  all_goals
    unfold resetsReadBack
    decide

theorem regGet_reset (a : Nat) : regGet State.reset a = resetWord a := rfl

theorem fld_resetWord {a : Nat} {r : RegRow} {f : Fld} (hr : rowOf a = some r) (hf : f ∈ r.fields) : fld (resetWord a) f.hi f.lo = f.reset := by
  rw [resetWord, hr]
  exact blockRows_resetsReadBack a r (mem_of_findRow hr) f hf

/-- Settles O57: by the two branches of a step, and the decoder that spells none. -/
theorem stepTakesTheFrontCommand : Obligations.StepTakesTheFrontCommand := by
  refine ⟨fun _ _ _ => rfl, fun s idle => ?_, fun _ _ _ => ⟨rfl, rfl⟩⟩
  rw [step, idle]

/-- Settles O58: the reset state holds no register and no memory word of its own, so each reads at its row's reset word. -/
theorem resetLeavesTheResetValues : Obligations.ResetLeavesTheResetValues :=
  ⟨rfl, rfl, rfl, rfl, rfl, fld_resetWord (a := 0xF54004) (f := { hi := 19, lo := 16, acc := .ro, mark := .i, reset := 2, cfg := false }) rfl (by decide),
    fun a _ => regGet_reset a, fun _ _ _ hr _ hf => fld_resetWord hr hf, by decide, fun _ => rfl, by decide, rfl, rfl⟩

end Sys2Proof.Machine
end

