-- ==== Sys2Proof/Proofs/MainsTimebase.lean ====
section
/-! PROOFS. The mains timebase and standstill. -/

namespace Sys2Proof.Machine

/-- The registers of a timebase are none of the mains status, the event controller or the counters. -/
theorem tbAddr_apart (k : Fin 16) : ¬orEvents [0xF00102] (canonAddr (tbAddr k)) := by
  unfold tbAddr orEvents eventReg
  rw [canonAddr_below (by omega)]
  simp
  omega

/-- A frame that leaves out the mains status and events holds the kind of every timebase. -/
theorem tbKind_of_mainsFrame {s t : State} (h : touches (orEvents [0xF00102]) s t) (k : Fin 16) : tbKind t k = tbKind s k :=
  congrArg (fld · 18 16) (h _ (tbAddr_apart k)).2

/-- The mains edge in its three parts: the history, the status bit and the timebases. -/
theorem mainsEdge_eq (t : Nat) (s : State) : ∃ v, sameBut [.regs, .held] { s with mains := { s.mains with
      tZc := some t, lost := false, ivals := match s.mains.tZc with
        | some z => if s.mains.lost then [] else ((t - z) :: s.mains.ivals).take 4
        | none => [] } } v ∧ touches (· ∈ [0xF00102]) s v ∧ bit (regGet v 0xF00102) 16 = false ∧
      mainsEdge t s = bvPin 0x41 true (forEach (tbsWhere v fun k => tbKind v k == 5 && tbEnabled v k) (fun k s => setTb k (tbMainsEdge s.sd.tb[k]) s) v) :=
  ⟨putBit 0xF00102 16 false _, sameBut_hwMod _ _ _, touches_putBit _ _ (.head _) (touches_same (touches_refl _ s) rfl rfl), by
    rw [regGet_putBit, if_pos rfl, bit_setBit_same _ _ (by decide)], rfl⟩

theorem mainsEdge_spec (t : Nat) (s : State) :
    (mainsEdge t s).mains = { s.mains with tZc := some t, lost := false, ivals := match s.mains.tZc with
        | some z => if s.mains.lost then [] else ((t - z) :: s.mains.ivals).take 4
        | none => [] } ∧
    bit (regGet (mainsEdge t s) 0xF00102) 16 = false ∧ (∀ k : Fin 16, tbKind s k ≠ 5 → (mainsEdge t s).sd.tb[k] = s.sd.tb[k]) ∧
    touches (· ∈ [0xF00102]) s (mainsEdge t s) := by
  obtain ⟨v, begun, frame, cleared, e⟩ := mainsEdge_eq t s
  obtain ⟨loop, tb, -⟩ := forEach_setTb _ (tbsWhere_nodup v fun k => tbKind v k == 5 && tbEnabled v k) tbMainsEdge v
  rw [e]
  clear e
  generalize hw : forEach _ _ v = w at loop tb ⊢
  have pin : sameBut [.bv] w (bvPin 0x41 true w) := (bvPin_keeps _ _ (fun _ => id) (keeps_refl _ w)).parts
  refine ⟨?_, ?_, fun k hk => ?_, ?_⟩
  · rw [pin.mains (by decide), loop.mains (by decide), begun.mains (by decide)]
  · rwa [regGet_of_regs (pin.regs (by decide)), regGet_of_regs (loop.regs (by decide))]
  · have other : k ∉ tbsWhere v fun k => tbKind v k == 5 && tbEnabled v k := by simp [mem_tbsWhere, tbKind_of_mainsFrame (touches_mono frame fun _ => .inl), hk]
    rw [pin.sd (by decide), tb, if_neg other, begun.sd (by decide)]
  · exact touches_sameBut (touches_sameBut frame loop (by decide) (by decide)) pin (by decide) (by decide)

/-- What a disarmed timebase becomes. -/
def Timebase.disarmed (x : Timebase) : Timebase := { x with armed := false, arming := false, seen := 0, per := none, dir := 0, xcap := false }

theorem tb_disarmMains (s : State) (k : Fin 16) :
    (disarmMains s).sd.tb[k] = if tbKind s k = 5 then s.sd.tb[k].disarmed else s.sd.tb[k] := by
  rw [show disarmMains s = forEach (tbsWhere s fun t => tbKind s t == 5) (fun k s => setTb k (Timebase.disarmed s.sd.tb[k]) s) s from rfl,
    (forEach_setTb _ (tbsWhere_nodup s _) Timebase.disarmed s).2.1 k]
  simp [mem_tbsWhere]

theorem raiseEvent_lost (was : Bool) (s : State) : onlyEvents s (whenB was (raiseEvent 14) s) :=
  onlyEvents_whenB _ (fun _ => raiseEvent_onlyEvents (by decide)) (onlyEvents_refl s)

/-- A loss in its two parts: the status and history, and the timebases disarmed after the event of the lock lost. -/
theorem mainsLost_eq {s : State} (h : s.mains.lost = false) : ∃ v, ∃ was : Bool, sameBut [.regs, .held] { s with mains :=
      { s.mains with lost := true, ivals := [], goodCycles := 0 } } v ∧ touches (orEvents [0xF00102]) s v ∧
      bit (regGet v 0xF00102) 16 = true ∧ bit (regGet v 0xF00102) 19 = false ∧ mainsLost s = disarmMains (whenB was (raiseEvent 14) v) := by
  rw [mainsLost, if_neg (by simp [h])]
  refine ⟨putBit 0xF00102 19 false (putBit 0xF00102 16 true { s with mains := { s.mains with lost := true, ivals := [], goodCycles := 0 } }), _,
    sameBut_trans (sameBut_hwMod _ _ _) (sameBut_hwMod _ _ _),
    touches_putBit _ _ (.inl (.head _)) (touches_putBit _ _ (.inl (.head _)) (touches_same (touches_refl _ s) rfl rfl)), ?_, ?_, rfl⟩
  · rw [regGet_putBit, if_pos rfl, bit_setBit_other _ _ (by decide) (by decide), regGet_putBit, if_pos rfl, bit_setBit_same _ _ (by decide)]
  · rw [regGet_putBit, if_pos rfl, bit_setBit_same _ _ (by decide)]

theorem mainsLost_spec {s : State} (h : s.mains.lost = false) :
    (mainsLost s).mains.lost = true ∧ (mainsLost s).mains.ivals = [] ∧ bit (regGet (mainsLost s) 0xF00102) 16 = true ∧
    bit (regGet (mainsLost s) 0xF00102) 19 = false ∧ (∀ k : Fin 16, tbKind s k = 5 → (mainsLost s).sd.tb[k].armed = false) ∧
    (∀ k : Fin 16, tbKind s k ≠ 5 → (mainsLost s).sd.tb[k] = s.sd.tb[k]) ∧ touches (orEvents [0xF00102]) s (mainsLost s) := by
  obtain ⟨s1, was, begun, frame1, set, unlocked, e⟩ := mainsLost_eq h
  have raised := raiseEvent_lost was s1
  rw [e]
  clear e
  generalize whenB was (raiseEvent 14) s1 = v at raised ⊢
  have frame : touches (orEvents [0xF00102]) s v := touches_events frame1 raised
  have disarm : sameBut [.sd] v (disarmMains v) := (disarmMains_keeps (fun _ => id) (keeps_refl _ v)).parts
  have word : regGet (disarmMains v) 0xF00102 = regGet s1 0xF00102 :=
    (regGet_of_regs (disarm.regs (by decide)) _).trans (raised.regs 0xF00102 (by simp) rfl).1
  have mains : (disarmMains v).mains = { s.mains with lost := true, ivals := [], goodCycles := 0 } := by
    rw [disarm.mains (by decide), raised.parts.mains (by decide), begun.mains (by decide)]
  have tb (k : Fin 16) : (disarmMains v).sd.tb[k] = if tbKind s k = 5 then s.sd.tb[k].disarmed else s.sd.tb[k] := by
    rw [tb_disarmMains, tbKind_of_mainsFrame frame, raised.parts.sd (by decide), begun.sd (by decide)]
  rw [word, mains]
  exact ⟨rfl, rfl, set, unlocked, fun k hk => by rw [tb, if_pos hk]; rfl, fun k hk => by rw [tb, if_neg hk],
    touches_sameBut frame disarm (by decide) (by decide)⟩

/-- The level of the mains sense pin is taken at the time of its edge. -/
theorem execMainsSenseEdge_eq (e : PinEdge) (s : State) : ∃ v, keeps [.now, .mains] s v ∧ v.now = max s.now e.t ∧
    v.mains = { s.mains with level := e.rising } ∧
    execMainsSenseEdge e s = .next (if e.rising then mainsEdge v.now v else bvPin 0x41 false v) :=
  ⟨_, keeps_mains _ (by decide) (advance_keeps _ (by decide) (keeps_refl _ s)), rfl, rfl, rfl⟩

/-- Settles O1: by the history and status of the mains timebase after an edge and a loss, and the frames of their operations. -/
theorem mainsEdgeLossAndStandstill : Obligations.MainsEdgeLossAndStandstill := by
  refine ⟨fun s t le => ?_, fun s t => ?_, fun s h => ⟨_, rfl, ?_⟩, fun s k kind en ok => ⟨_, rfl, ?_⟩⟩
  · obtain ⟨v, taken, now, level, e⟩ := execMainsSenseEdge_eq ⟨true, t⟩ s
    obtain ⟨mains, cleared, tb, frame⟩ := mainsEdge_spec t v
    have edge : sameBut [.regs, .held, .mains, .sd, .bv] v (mainsEdge t v) := (mainsEdge_keeps _ (by decide) (keeps_refl _ v)).parts
    have kind (k : Fin 16) : tbKind v k = tbKind s k :=
      tbKind_of_mainsFrame (touches_of_sameBut taken.parts (by decide) (by decide)) k
    rw [max_eq_right le] at now
    rw [now] at e
    refine ⟨mainsEdge t v, e, (edge.now (by decide)).trans now, by rw [mains], by rw [mains], by rw [mains, level] <;> rfl, cleared,
      by rw [mains, level], by rw [mains, level], by rw [mains, level], fun k hk => ?_, ?_, ?_⟩
    · rw [tb k (by rwa [kind]), taken.parts.sd (by decide)]
    · exact sameBut_trans (sameBut_mono (by decide) taken.parts) (sameBut_mono (by decide) edge)
    · exact touches_trans (touches_of_sameBut taken.parts (by decide) (by decide)) frame
  · obtain ⟨v, taken, now, level, e⟩ := execMainsSenseEdge_eq ⟨false, t⟩ s
    have pin : sameBut [.bv] v (bvPin 0x41 false v) := (bvPin_keeps _ _ (fun _ => id) (keeps_refl _ v)).parts
    exact ⟨_, e, (pin.now (by decide)).trans now, (pin.mains (by decide)).trans level,
      sameBut_trans (sameBut_mono (by decide) taken.parts) (sameBut_mono (by decide) pin)⟩
  · obtain ⟨lost, ivals, set, unlocked, disarmed, others, frame⟩ := mainsLost_spec h
    exact ⟨lost, ivals, set, unlocked, disarmed, others, (mainsLost_keeps (by decide) (keeps_refl _ s)).parts, regsButEvents_of_touches frame⟩
  · rw [tbStandstill, if_pos (by simp [kind, en, ok])]
    have tb (j : Fin 16) := tb_setTb s k j { s.sd.tb[k] with still := true, per := none, seen := 0, xcap := false }
    exact ⟨by rw [tb, if_pos rfl], by rw [tb, if_pos rfl], by rw [tb, if_pos rfl], fun j other => by rw [tb, if_neg other],
      (setTb_keeps _ _ (by decide) (keeps_refl _ s)).parts⟩

end Sys2Proof.Machine
end

