-- ==== Sys2Proof/Proofs/SundialUpdates.lean ====
section
/-! PROOFS. Sundial's updates and dispatches. -/

namespace Sys2Proof.Machine

/-- The registers in which an update marks the timebases. -/
def tbStatus (a : Nat) : Prop := ∃ k : Fin 16, a = tbAddr k + 5

theorem tbAddr_not_status (k : Fin 16) : ¬tbStatus (canonAddr (tbAddr k)) := by
  rintro ⟨j, e⟩
  unfold tbAddr at e
  rw [canonAddr_below (by omega)] at e
  omega

theorem touches_tbStatus {o s : State} (k : Fin 16) (n : Nat) (b : Bool) (h : touches tbStatus o s) : touches tbStatus o (putBit (tbAddr k + 5) n b s) :=
  touches_putBit _ _ ⟨k, canonAddr_below (by unfold tbAddr; omega)⟩ h

/-- t is s with timebase k as x, and marks in the status registers of the timebases. -/
structure tbUpdated (k : Fin 16) (x : Timebase) (s t : State) : Prop where
  parts : sameBut [.regs, .held, .sd] s t
  tb : ∀ j : Fin 16, t.sd.tb[j] = if j = k then x else s.sd.tb[j]
  regs : touches tbStatus s t

theorem tbUpdated_self (k : Fin 16) (s : State) : tbUpdated k s.sd.tb[k] s s :=
  ⟨sameBut_refl _ s, fun j => by split <;> simp_all, touches_refl _ s⟩

theorem tbUpdated_setTb (k : Fin 16) (x : Timebase) (s : State) : tbUpdated k x s (setTb k x s) :=
  ⟨(setTb_keeps _ _ (by decide) (keeps_refl _ s)).parts, fun j => tb_setTb s k j x, touches_same (touches_refl _ s) rfl rfl⟩

theorem tbUpdated_mark {k : Fin 16} {x : Timebase} {s t : State} (b : Bool) (n : Nat) (h : tbUpdated k x s t) :
    tbUpdated k x s (whenB b (putBit (tbAddr k + 5) n true) t) := by
  cases b
  · exact h
  · exact ⟨sameBut_trans h.parts (putBit_keeps _ _ _ (by decide) (keeps_refl _ t)).parts, h.tb, touches_tbStatus k n true h.regs⟩

theorem tbUpdated_fired {k : Fin 16} {x : Timebase} {s t : State} (disp : List Firing) (spent : List (Nat × Bool)) (h : tbUpdated k x s t) :
    tbUpdated k x s { t with sd := { t.sd with disp := disp, spent := spent } } :=
  ⟨sameBut_trans h.parts (keeps_sd _ (by decide) (keeps_refl _ t)).parts, h.tb, touches_same h.regs rfl rfl⟩

/-- An update of a timebase changes that timebase; one on the mains or on system time takes the value of its source. -/
theorem updateTb_updated (t : Nat) (k : Fin 16) (s : State) : ∃ x, tbUpdated k x s (updateTb t k s).2 ∧
    (tbEnabled s k = true → tbCfgErr s k = false → s.sd.tb[k].armed = true → tbKind s k ≠ 0 → x.val = tbNorm (tbModulus s k) (tbValue s k t s.sd.tb[k]).1) := by
  unfold updateTb
  dsimp only
  split
  · rename_i off
    split
    · exact ⟨_, tbUpdated_setTb k _ s, fun en ok _ kind => by simp [en, ok, kind] at off⟩
    · exact ⟨_, tbUpdated_self k s, fun en ok _ kind => by simp [en, ok, kind] at off⟩
  · split
    · rename_i unarmed
      split
      · exact ⟨_, tbUpdated_setTb k _ s, fun _ _ armed _ => by rw [armed] at unarmed⟩
      · exact ⟨_, tbUpdated_setTb k _ s, fun _ _ armed _ => by rw [armed] at unarmed; cases unarmed⟩
    · exact ⟨_, tbUpdated_fired _ _ (tbUpdated_mark _ _ (tbUpdated_mark _ _ (tbUpdated_setTb k _ s))), fun _ _ _ _ => rfl⟩

/-- The timebases of a list, updated in turn at time t. -/
def updateTbs (t : Nat) (l : List (Fin 16)) (acc : List Nat × State) : List Nat × State :=
  l.foldl (fun (acc : List Nat × State) k =>
    let (d, s') := updateTb t k acc.2
    (acc.1 ++ d, s')) acc

theorem updateTbs_frame (t : Nat) (l : List (Fin 16)) (acc : List Nat × State) :
    sameBut [.regs, .held, .sd] acc.2 (updateTbs t l acc).2 ∧ touches tbStatus acc.2 (updateTbs t l acc).2 ∧
    ∀ k : Fin 16, k ∉ l → (updateTbs t l acc).2.sd.tb[k] = acc.2.sd.tb[k] := by
  induction l generalizing acc with
  | nil => exact ⟨sameBut_refl _ _, touches_refl _ _, fun _ _ => rfl⟩
  | cons j l ih =>
    obtain ⟨x, up, -⟩ := updateTb_updated t j acc.2
    obtain ⟨parts, regs, others⟩ := ih (acc.1 ++ (updateTb t j acc.2).1, (updateTb t j acc.2).2)
    refine ⟨sameBut_trans up.parts parts, touches_trans up.regs regs, fun k hk => ?_⟩
    obtain ⟨ne, notin⟩ := not_or.mp (fun h => hk (List.mem_cons.mpr h))
    exact (others k notin).trans ((up.tb k).trans (if_neg ne))

theorem tbKind_of_status {s t : State} (h : touches tbStatus s t) (k : Fin 16) : tbKind t k = tbKind s k :=
  congrArg (fld · 18 16) (h _ (tbAddr_not_status k)).2

theorem tbEnabled_of_status {s t : State} (h : touches tbStatus s t) (hs : t.sys = s.sys) (k : Fin 16) : tbEnabled t k = tbEnabled s k := by
  rw [tbEnabled, tbEnabled, bitOf, bitOf, (h _ (tbAddr_not_status k)).2, beforeJoin, beforeJoin, hs]

/-- The mains and system time have no source to configure. -/
theorem tbCfgErr_live {s : State} {k : Nat} (live : tbKind s k = 5 ∨ tbKind s k = 6) : tbCfgErr s k = false := by
  unfold tbCfgErr
  rcases live with kind | kind <;> simp [kind]

theorem tbValue_mains {s : State} {k : Nat} (t : Nat) (x : Timebase) (kind : tbKind s k = 5) :
    tbNorm (tbModulus s k) (tbValue s k t x).1 = (mainsPhase s.mains t : Int) * 4096 % (2 ^ 20 * 4096) := by
  have m : tbModulus s k = some (2 ^ 20) := if_pos kind
  simp [m, tbValue, kind, tbNorm]

theorem tbValue_time {s : State} {k : Nat} (t : Nat) (x : Timebase) (kind : tbKind s k = 6) :
    tbNorm (tbModulus s k) (tbValue s k t x).1 = ((sysTimeAt s t % 2 ^ 40 : Nat) : Int) * 4096 % (2 ^ 40 * 4096) := by
  have m : tbModulus s k = some (2 ^ 40) := (if_neg (by simp only [tbKind, tbAddr] at kind; omega)).trans (if_pos kind)
  simp [m, tbValue, kind, tbNorm]

/-- Among the timebases updated in turn, an armed live one takes its source's value as it stands when its turn comes. -/
theorem updateTbs_live (t : Nat) {l : List (Fin 16)} (nodup : l.Nodup) {k : Fin 16} (hk : k ∈ l) (acc : List Nat × State)
    (en : tbEnabled acc.2 k = true) (live : tbKind acc.2 k = 5 ∨ tbKind acc.2 k = 6) (armed : acc.2.sd.tb[k].armed = true) :
    ∃ v x, sameBut [.regs, .held, .sd] acc.2 v ∧ touches tbStatus acc.2 v ∧
      (updateTbs t l acc).2.sd.tb[k].val = tbNorm (tbModulus v k) (tbValue v k t x).1 := by
  induction l generalizing acc with
  | nil => cases hk
  | cons j l ih =>
    obtain ⟨x, up, val⟩ := updateTb_updated t j acc.2
    obtain ⟨notin, nodup⟩ := List.nodup_cons.mp nodup
    by_cases e : k = j
    · subst e
      obtain ⟨-, -, others⟩ := updateTbs_frame t l (acc.1 ++ (updateTb t k acc.2).1, (updateTb t k acc.2).2)
      refine ⟨acc.2, acc.2.sd.tb[k], sameBut_refl _ _, touches_refl _ _, ?_⟩
      rw [← val en (tbCfgErr_live live) armed (by omega)]
      exact congrArg Timebase.val ((others k notin).trans ((up.tb k).trans (if_pos rfl)))
    · have kind := tbKind_of_status up.regs k
      obtain ⟨v, y, parts, regs, read⟩ := ih nodup ((List.mem_cons.mp hk).resolve_left e)
        (acc.1 ++ (updateTb t j acc.2).1, (updateTb t j acc.2).2) ((tbEnabled_of_status up.regs (up.parts.sys (by decide)) k).trans en)
        (by rwa [kind]) ((congrArg Timebase.armed ((up.tb k).trans (if_neg e))).trans armed)
      exact ⟨v, y, sameBut_trans up.parts parts, touches_trans up.regs regs, read⟩

/-- With no post held an update is that of the timebases in turn, then the delays due and the posts retried. -/
theorem detect_eq {s : State} (h : s.sd.holdQ = []) : ∃ b, sundialUpdate.detect s = whenB b (pcSys 0x5A 1) (retryStalled
    (if (updateTbs s.now (List.finRange 16) ([], s)).1.isEmpty then (updateTbs s.now (List.finRange 16) ([], s)).2
      else fireDelays (updateTbs s.now (List.finRange 16) ([], s)).1 (updateTbs s.now (List.finRange 16) ([], s)).2)) := by
  rw [sundialUpdate.detect, h, offerHeld]
  unfold updateTbs
  generalize List.foldl _ _ _ = p
  exact ⟨_, rfl⟩

/-- What follows the updates of one instant leaves Sundial alone. -/
theorem detect_sd {s : State} (h : s.sd.holdQ = []) :
    (sundialUpdate.detect s).sd = (updateTbs s.now (List.finRange 16) ([], s)).2.sd := by
  obtain ⟨b, e⟩ := detect_eq h
  rw [e]
  generalize (updateTbs s.now (List.finRange 16) ([], s)).2 = v
  generalize (updateTbs s.now (List.finRange 16) ([], s)).1 = due
  have after : keeps [.regs, .held, .cores, .pg, .bv, .pc] v (whenB b (pcSys 0x5A 1) (retryStalled (if due.isEmpty then v else fireDelays due v))) :=
    keeps_whenB _ (fun _ => pcSys_keeps _ _ (by decide)) (retryStalled_keeps (by decide)
      (keeps_ite _ (keeps_refl _ v) (fireDelays_keeps _ (by decide) (keeps_refl _ v))))
  exact after.parts.sd (by decide)

/-- The update that a boundary falls on takes the entries of before it, and leaves the timebases to the update. -/
theorem withBefore_tb (f : State → State) (s : State) : ∃ v, sameBut [.sd] s v ∧ v.sd.tb = s.sd.tb ∧ v.sd.holdQ = s.sd.holdQ ∧
    (withBefore f s).sd.tb = (f v).sd.tb :=
  ⟨{ s with sd := { s.sd with ev := _, evBefore := [] } }, (keeps_sd _ (by decide) (keeps_refl _ s)).parts, rfl, rfl, rfl⟩

/-- An update where Sundial runs: the timebases as the instant's update leaves them. -/
theorem tb_sundialUpdate {s : State} (runs : sundialRuns s = true) (h : s.sd.holdQ = []) : ∃ v, sameBut [.now, .sd] s v ∧
    v.now = (s.now / 8 + 1) * 8 ∧ v.sd.tb = s.sd.tb ∧ (sundialUpdate s).sd.tb = (updateTbs v.now (List.finRange 16) ([], v)).2.sd.tb := by
  have e : sundialUpdate s = withBefore sundialUpdate.detect { s with now := (s.now / 8 + 1) * 8 } :=
    if_neg (by rw [show sundialRuns { s with now := (s.now / 8 + 1) * 8 } = true from runs]; decide)
  obtain ⟨v, parts, tb, holdQ, e'⟩ := withBefore_tb sundialUpdate.detect { s with now := (s.now / 8 + 1) * 8 }
  exact ⟨v, sameBut_trans (keeps_now _ (by decide) (keeps_refl _ s)).parts (sameBut_mono (by decide) parts), parts.now (by decide), tb,
    by rw [e, e', detect_sd (holdQ.trans h)]⟩

/-- Past its instant an update changes no clock. -/
theorem sundialUpdate_now (s : State) : keeps [.regs, .held, .cores, .pg, .sd, .bv, .pc] { s with now := (s.now / 8 + 1) * 8 } (sundialUpdate s) :=
  keeps_ite _ (keeps_refl _ _) (withBefore_keeps _ (fun _ => sundialUpdate.detect_keeps (by decide)) (by decide) (keeps_refl _ _))

theorem sundialUpdate_off {s : State} (off : sundialRuns s = false) : sundialUpdate s = { s with now := (s.now / 8 + 1) * 8 } :=
  if_pos (by rw [show sundialRuns { s with now := (s.now / 8 + 1) * 8 } = false from off]; decide)

theorem sundialUpdate_live {s : State} {k : Fin 16} (runs : sundialRuns s = true) (h : s.sd.holdQ = []) (en : tbEnabled s k = true)
    (armed : s.sd.tb[k].armed = true) :
    (tbKind s k = 5 → (sundialUpdate s).sd.tb[k].val = (mainsPhase s.mains ((s.now / 8 + 1) * 8) : Int) * 4096 % (2 ^ 20 * 4096)) ∧
    (tbKind s k = 6 → (sundialUpdate s).sd.tb[k].val = ((sysTimeAt s ((s.now / 8 + 1) * 8) % 2 ^ 40 : Nat) : Int) * 4096 % (2 ^ 40 * 4096)) := by
  obtain ⟨v, began, now, tb, e⟩ := tb_sundialUpdate runs h
  have regs : touches tbStatus s v := touches_of_sameBut began (by decide) (by decide)
  have turn (live : tbKind s k = 5 ∨ tbKind s k = 6) : ∃ w x, w.mains = s.mains ∧ w.time = s.time ∧ tbKind w k = tbKind s k ∧
      (sundialUpdate s).sd.tb[k].val = tbNorm (tbModulus w k) (tbValue w k v.now x).1 := by
    obtain ⟨w, x, parts, regs', val⟩ := updateTbs_live v.now (List.nodup_finRange 16) (List.mem_finRange k) ([], v)
      ((tbEnabled_of_status regs (began.sys (by decide)) k).trans en) (by rwa [tbKind_of_status regs]) (by rwa [tb])
    exact ⟨w, x, (parts.mains (by decide)).trans (began.mains (by decide)), (parts.time (by decide)).trans (began.time (by decide)), tbKind_of_status (touches_trans regs regs') k, (congrArg (fun tb : Vector Timebase 16 => tb[k].val) e).trans val⟩
  refine ⟨fun kind => ?_, fun kind => ?_⟩
  · obtain ⟨w, x, mains, -, kind', val⟩ := turn (.inl kind)
    rw [val, tbValue_mains _ _ (kind'.trans kind), mains, now]
  · obtain ⟨w, x, -, time, kind', val⟩ := turn (.inr kind)
    rw [val, tbValue_time _ _ (kind'.trans kind), now, sysTimeAt, sysTimeAt, slewDone, slewDone, time]

/-! ### Dispatches -/

theorem canonAddr_entry {n : Nat} (h : n < 2048) : canonAddr (0xF01000 + n) = 0xF01000 + n := canonAddr_below (by omega)

theorem entry_apart {n : Nat} (h : n < 2048) : eventReg (canonAddr (0xF01000 + n)) = false := by
  rw [canonAddr_entry h]
  simp [eventReg]
  omega

/-- The marks of a firing: FIRED, and the end of a one-shot entry in the table and, with no write of W0 waiting, in its register. -/
theorem fireMarks_spec {f : Firing} (s : State) (h : f.entry < 2048) :
    sameBut [.regs, .held, .sd] s (fireMarks f s) ∧ touches (· ∈ [0xF01000 + f.entry]) s (fireMarks f s) ∧
    bit (regGet (fireMarks f s) (0xF01000 + f.entry)) 3 = true ∧
    (f.oneShot = true → s.sd.w0Pend.contains f.entry = false → bit (regGet (fireMarks f s) (0xF01000 + f.entry)) 19 = false) ∧
    (fireMarks f s).sd = (if f.oneShot then { s.sd with
      ev := mapPut EvEntry.reset s.sd.ev f.entry { mapGet EvEntry.reset s.sd.ev f.entry with en := false }
      spent := s.sd.spent.filter fun x => x.1 != f.entry } else s.sd) := by
  have own : (canonAddr (0xF01000 + f.entry)) ∈ [0xF01000 + f.entry] := by rw [canonAddr_entry h]; exact .head _
  have marked (s : State) : bit (regGet (putBit (0xF01000 + f.entry) 3 true s) (0xF01000 + f.entry)) 3 = true := by
    rw [regGet_putBit, if_pos rfl, bit_setBit_same _ _ (by decide)]
  refine ⟨(fireMarks_keeps f (by decide) (keeps_refl _ s)).parts, ?_⟩
  unfold fireMarks w0Addr
  cases f.oneShot with
  | false => exact ⟨touches_putBit _ _ own (touches_refl _ s), marked s, fun h => absurd h (by decide), rfl⟩
  | true =>
    dsimp only
    rw [if_pos rfl, if_pos rfl]
    split
    · rename_i waits
      exact ⟨touches_same (touches_putBit _ _ own (touches_refl _ s)) rfl rfl, marked s, fun _ free => absurd (free.symm.trans waits) (by decide), rfl⟩
    · refine ⟨touches_putBit _ _ own (touches_same (touches_putBit _ _ own (touches_refl _ s)) rfl rfl), ?_, fun _ _ => ?_, rfl⟩
      · rw [regGet_putBit, if_pos rfl, bit_setBit_other _ _ (by decide) (by decide)]
        exact marked s
      · rw [regGet_putBit, if_pos rfl, bit_setBit_same _ _ (by decide)]

theorem getLsbD_drive (e : BitVec 16) {n : Nat} (h : n < 16) (new : Bool) :
    (if new then e ||| 1#16 <<< n else e &&& ~~~(1#16 <<< n)).getLsbD n = new := by
  cases new <;> simp [h]

/-- Action 1h drives one event output. -/
theorem driveEvo_spec (n how : Nat) (s : State) (h : n < 16) :
    sameBut [.sd, .bv] s (driveEvo n how s) ∧ (driveEvo n how s).sd = { s.sd with evo := (driveEvo n how s).sd.evo } ∧
    (driveEvo n how s).sd.evo.getLsbD n = (if how = 0 then !s.sd.evo.getLsbD n else how == 1) := by
  have driven : keeps [.bv] { s with sd := { s.sd with evo := if (if how = 0 then !s.sd.evo.getLsbD n else how == 1) then s.sd.evo ||| 1#16 <<< n
      else s.sd.evo &&& ~~~(1#16 <<< n) } } (driveEvo n how s) := keeps_ite _ (keeps_refl _ _) (bvPin_keeps _ _ (fun _ => id) (keeps_refl _ _))
  refine ⟨(driveEvo_keeps _ _ (by decide) (keeps_refl _ s)).parts, ?_⟩
  rw [driven.parts.sd (by decide)]
  exact ⟨rfl, getLsbD_drive _ h _⟩

/-- An action 0h or 1h touches no register, and nothing of Sundial but the output it drives. -/
theorem fireAction_spec {f : Firing} (s : State) (h : f.act ≤ 1) :
    sameBut [.sd, .bv] s (fireAction f s) ∧ (fireAction f s).sd = { s.sd with evo := (fireAction f s).sd.evo } ∧
    (f.act = 0 → (fireAction f s).sd.evo = s.sd.evo) ∧
    (f.act = 1 → (fireAction f s).sd.evo.getLsbD (fld f.arg 3 0) =
      (if fld f.arg 5 4 = 0 then !s.sd.evo.getLsbD (fld f.arg 3 0) else fld f.arg 5 4 == 1)) := by
  rcases Nat.le_one_iff_eq_zero_or_eq_one.mp h with zero | one
  · have e : fireAction f s = s := by simp [fireAction, zero]
    rw [e]
    exact ⟨sameBut_refl _ s, rfl, fun _ => rfl, fun one => by omega⟩
  · have e : fireAction f s = driveEvo (fld f.arg 3 0) (fld f.arg 5 4) s := by simp [fireAction, one]
    obtain ⟨parts, sd, evo⟩ := driveEvo_spec (fld f.arg 3 0) (fld f.arg 5 4) s (Nat.mod_lt _ (by decide))
    rw [e]
    exact ⟨parts, sd, fun zero => by omega, fun _ => evo⟩

/-- Settles O2: an update is the timebases in turn, and a dispatch the marks of its firing, then its action. -/
theorem sundialUpdatesAndDispatches : Obligations.SundialUpdatesAndDispatches := by
  refine ⟨fun s h => ⟨_, rfl, ?_⟩, fun s f fs queue entry act => ⟨_, rfl, ?_⟩⟩
  · have now : (sundialUpdate s).now = (s.now / 8 + 1) * 8 := (sundialUpdate_now s).parts.now (by decide)
    refine ⟨now, fun off => ?_, fun k runs en _ armed => ?_, (sundialUpdate_keeps (by decide) (keeps_refl _ s)).parts⟩
    · rw [sundialUpdate_off off]
      exact (keeps_now _ (by decide) (keeps_refl _ s)).parts
    · rw [now]
      exact sundialUpdate_live runs h en armed
  · rw [sundialDispatch, queue]
    dsimp only
    obtain ⟨mparts, mregs, fired, disabled, msd⟩ := fireMarks_spec { s with sd := { s.sd with disp := fs } } entry
    obtain ⟨aparts, asd, still, driven⟩ := fireAction_spec (fireMarks f { s with sd := { s.sd with disp := fs } }) act
    generalize fireMarks f { s with sd := { s.sd with disp := fs } } = m at *
    generalize fireAction f m = a at *
    have counted := pcSys_onlyEvents 0x59 1 (onlyEvents_refl a)
    have sd := counted.parts.sd (by decide)
    generalize pcSys 0x59 1 a = u at *
    have word : regGet u (0xF01000 + f.entry) = regGet m (0xF01000 + f.entry) :=
      (counted.regs _ (by simp) (entry_apart entry)).1.trans (regGet_of_regs (aparts.regs (by decide)) _)
    have marked : m.sd.disp = fs ∧ m.sd.evo = s.sd.evo ∧
        (f.oneShot = true → m.sd.ev = mapPut EvEntry.reset s.sd.ev f.entry { mapGet EvEntry.reset s.sd.ev f.entry with en := false }) ∧
        (f.oneShot = false → m.sd.ev = s.sd.ev) := by
      rw [msd]
      cases f.oneShot <;> exact ⟨rfl, rfl, fun h => by cases h <;> rfl, fun h => by cases h <;> rfl⟩
    obtain ⟨disp, evo, ended, stays⟩ := marked
    rw [sd, word, asd]
    dsimp only
    rw [← evo]
    refine ⟨disp, fired, fun one => ⟨?_, disabled one⟩, stays, fun n other => ?_, still, driven, ?_, ?_⟩
    · rw [ended one, mapGet_mapPut_same]
    · cases shot : f.oneShot with
      | false => rw [stays shot]
      | true => rw [ended shot, mapGet_mapPut_other _ _ _ _ other]
    · exact sameBut_trans (sameBut_mono (by decide) (keeps_sd (L := [.sd]) { s.sd with disp := fs } (by decide) (keeps_refl _ s)).parts)
        (sameBut_trans (sameBut_mono (by decide) mparts) (sameBut_trans (sameBut_mono (by decide) aparts) (sameBut_mono (by decide) counted.parts)))
    · exact regsButEvents_of_touches (touches_events (touches_sameBut (touches_trans (touches_same (touches_refl _ s) rfl rfl)
        (touches_mono mregs fun _ => .inl)) aparts (by decide) (by decide)) counted)

end Sys2Proof.Machine
end

