-- ==== Sys2Proof/Proofs/FeedbackCounting.lean ====
section
/-! PROOFS. Counting of the feedback channels. -/

namespace Sys2Proof.Machine

/-! ### A channel brought up to an edge -/

/-- t is s at a later time, with channel n as x, and repeat outputs that may have followed it. -/
structure fbUpdated (n : Fin 16) (x : FbChan) (s t : State) : Prop where
  parts : sameBut [.now, .fb, .fbo] s t
  fb : ∀ j : Fin 16, t.fb[j] = if j = n then x else s.fb[j]

theorem fbUpdated_of_fbo {n : Fin 16} {x : FbChan} {s t u : State} (h : fbUpdated n x s t) (k : sameBut [.now, .fbo] t u) : fbUpdated n x s u :=
  ⟨sameBut_trans h.parts (sameBut_mono (by decide) k), fun j => by rw [k.fb (by decide)]; exact h.fb j⟩

theorem fbUpdated_self (n : Fin 16) (s : State) : fbUpdated n s.fb[n] s s :=
  ⟨sameBut_refl _ s, fun j => by split <;> simp_all⟩

theorem fbUpdated_setFb {n : Fin 16} {x : FbChan} {s t : State} (y : FbChan) (h : fbUpdated n x s t) : fbUpdated n y s (setFb n y t) :=
  ⟨sameBut_trans h.parts (setFb_keeps _ _ (by decide) (keeps_refl _ t)).parts, fun j => by
    rw [fb_setFb]
    split
    · rfl
    · rw [h.fb j, if_neg ‹_›]⟩

theorem fbUpdated_own {n : Fin 16} {x : FbChan} {s t : State} (h : fbUpdated n x s t) : t.fb[n] = x := (h.fb n).trans (if_pos rfl)

theorem fbUpdated_advance {n : Fin 16} {x : FbChan} {s t : State} (k : Nat) (h : fbUpdated n x s t) : fbUpdated n x s (advance k t) :=
  fbUpdated_of_fbo h (advance_keeps _ (by decide) (keeps_refl _ t)).parts

/-- The synchroniser takes the levels, and the repeat outputs follow. -/
theorem fbUpdated_levels {n : Fin 16} {x : FbChan} {s t : State} (a b z : Bool) (h : fbUpdated n x s t) :
    fbUpdated n { x with sa := a, sb := b, sz := z } s (fbLevels n a b z t) := by
  rw [fbLevels, fbUpdated_own h]
  exact fbUpdated_of_fbo (fbUpdated_setFb _ h) (fboCopy_keeps _ (by decide) (keeps_refl _ _)).parts

/-- The settings and the status of the channels are registers. -/
theorem fbUpdated_regs {n : Fin 16} {x : FbChan} {s t : State} (h : fbUpdated n x s t) (a : Nat) : inForce t a = inForce s a :=
  (sameReg_of (h.parts.regs (by decide)) (h.parts.held (by decide)) a).2

theorem fbUpdated_fld {n : Fin 16} {x : FbChan} {s t : State} (h : fbUpdated n x s t) (a hi lo : Nat) : fldOf t a hi lo = fldOf s a hi lo :=
  congrArg (fld · hi lo) (fbUpdated_regs h a)

theorem fbUpdated_filter {n : Fin 16} {x : FbChan} {s t : State} (h : fbUpdated n x s t) (m : Nat) : fbFilter t m = fbFilter s m := by
  rw [fbFilter, fbFilter, fbMode, fbMode, fbUpdated_fld h, fbUpdated_fld h]

theorem fbUpdated_counts {n : Fin 16} {x : FbChan} {s t : State} (h : fbUpdated n x s t) (cfg : x.cfgErr = s.fb[n].cfgErr) :
    fbCounts t n = fbCounts s n := by
  have err (j : Fin 16) (e : j = n) : t.fb[j].cfgErr = s.fb[j].cfgErr := e ▸ (congrArg FbChan.cfgErr (fbUpdated_own h)).trans cfg
  have bad : fbModeBad t n = fbModeBad s n := by
    simp only [fbModeBad, fbMode, fbDirSrc, fbUpdated_fld h, err _ (Fin.ofNat_val_eq_self n)]
  rw [fbCounts, fbCounts, bad, beforeJoin, beforeJoin, h.parts.sys (by decide), fbMode, fbMode, fbUpdated_fld h]

/-! ### A counted edge -/

theorem canonAddr_fb {n k : Nat} (hn : n < 16) (hk : k < 32) : canonAddr (fbAddr n + k) = fbAddr n + k := by
  unfold fbAddr
  exact canonAddr_below (by omega)

theorem own_fbStat (n : Fin 16) : canonAddr (fbStat n) ∈ [fbStat n] := by
  rw [fbStat, canonAddr_fb n.isLt (by decide)]
  exact .head _

/-- t is s with channel n as x, the timebases of the channel touched, and bits of its status written. -/
structure fbCounted (n : Fin 16) (x : FbChan) (s t : State) : Prop where
  parts : sameBut [.regs, .held, .sd, .fb] s t
  fb : ∀ j : Fin 16, t.fb[j] = if j = n then x else s.fb[j]
  regs : touches (· ∈ [fbStat n]) s t
  /-- SEATED, FAULT and the confirmed direction -/
  status : ∀ b ∈ [19, 18, 9], bitOf t (fbStat n) b = bitOf s (fbStat n) b

theorem fbCounted_setFb {n : Fin 16} {x : FbChan} {s t : State} (y : FbChan) (h : fbCounted n x s t) : fbCounted n y s (setFb n y t) where
  parts := sameBut_trans h.parts (setFb_keeps _ _ (by decide) (keeps_refl _ t)).parts
  fb j := by
    rw [fb_setFb]
    split
    · rfl
    · rw [h.fb j, if_neg ‹_›]
  regs := touches_same h.regs rfl rfl
  status := h.status

theorem fbCounted_sd {n : Fin 16} {x : FbChan} {s t u : State} (h : fbCounted n x s t) (k : sameBut [.sd] t u) : fbCounted n x s u where
  parts := sameBut_trans h.parts (sameBut_mono (by decide) k)
  fb j := by rw [k.fb (by decide)]; exact h.fb j
  regs := touches_sameBut h.regs k (by decide) (by decide)
  status b hb := (congrArg (bit · b) (sameReg_of (k.regs (by decide)) (k.held (by decide)) _).2).trans (h.status b hb)

theorem fbCounted_self (n : Fin 16) (s : State) : fbCounted n s.fb[n] s s :=
  ⟨sameBut_refl _ s, fun j => by split <;> simp_all, touches_refl _ s, fun _ _ => rfl⟩

theorem fbCounted_mark {n : Fin 16} {x : FbChan} {s t : State} (v : Bool) {b : Nat} (hb : b < 20) (apart : b ∉ [19, 18, 9]) (h : fbCounted n x s t) :
    fbCounted n x s (whenB v (putBit (fbStat n) b true) t) := by
  cases v
  · exact h
  · refine ⟨sameBut_trans h.parts (putBit_keeps _ _ _ (by decide) (keeps_refl _ t)).parts, h.fb, touches_putBit _ _ (own_fbStat n) h.regs, fun c hc => ?_⟩
    refine Eq.trans ?_ (h.status c hc)
    exact (congrArg (bit · c) ((inForce_putBit t _ _ _ _).trans (if_pos rfl))).trans (bit_setBit_other _ _ hb fun e => apart (e ▸ hc))

/-- The status marks of an edge: RATE where it is fast, and the wrap of a count. -/
def fbMarks (n : Fin 16) (fast wraps : Bool) (s : State) : State := whenB wraps (putBit (fbStat n) 7 true) (whenB fast (putBit (fbStat n) 14 true) s)

theorem fbMarks_counted (n : Fin 16) (fast wraps : Bool) (s : State) : fbCounted n s.fb[n] s (fbMarks n fast wraps s) :=
  fbCounted_mark _ (by decide) (by decide) (fbCounted_mark _ (by decide) (by decide) (fbCounted_self n s))

theorem fbMarks_rate (n : Fin 16) (fast wraps : Bool) (s : State) :
    bit (regGet (fbMarks n fast wraps s) (fbStat n)) 14 = (bit (regGet s (fbStat n)) 14 || fast) := by
  have set (b : Nat) (u : State) : regGet (putBit (fbStat n) b true u) (fbStat n) = setBit (regGet u (fbStat n)) b true :=
    (regGet_putBit u _ _ _ _).trans (if_pos rfl)
  cases fast <;> cases wraps <;>
    simp [fbMarks, whenB, set, bit_setBit_same, bit_setBit_other]

/-- An edge with nothing absorbed moves both counts in the confirmed direction, and the raw count alone against it (R69). -/
theorem fbHyst_level {dirn down : Bool} {x : FbChan} (level : x.raw = x.rep) :
    fbHyst dirn 1 down x = (if down = dirn then
      ({ x with raw := wrapI 40 (x.raw + (if down then -1 else 1)), rep := wrapI 40 (x.raw + (if down then -1 else 1)) }, .moved)
      else ({ x with raw := wrapI 40 (x.raw + (if down then -1 else 1)) }, .absorbed)) := by
  simp [fbHyst, level]

theorem fbCount_moved {n : Fin 16} {s : State} {k : Nat} {down : Bool} {y : FbChan} (t : Nat) (free : Option Nat)
    (h : fbHyst (fbDown s n) k down s.fb[n] = (y, .moved)) : ∃ wraps count dir onRef, fbCount n k down t free s =
      (fun v => whenB (!fbFaulty v n) (sdEdge n count dir t free onRef) v) (setFb n
        { y with tEdge := some t, tSame := some t, tPair := pairOf s.fb[n], per := (perOf s.fb[n] t).map fun p => free.getD p } (fbMarks n (fbFast s.fb[n] t) wraps s)) := by
  unfold fbCount
  dsimp only
  rw [h]
  exact ⟨_, _, _, _, rfl⟩

theorem fbCount_absorbed {n : Fin 16} {s : State} {k : Nat} {down : Bool} {y : FbChan} (t : Nat) (free : Option Nat)
    (h : fbHyst (fbDown s n) k down s.fb[n] = (y, .absorbed)) : ∃ wraps, fbCount n k down t free s =
      sdWithdraw n (setFb n { y with tEdge := some t, hist := [], tTooth := none } (fbMarks n (fbFast s.fb[n] t) wraps s)) := by
  unfold fbCount
  dsimp only
  rw [h]
  exact ⟨_, rfl⟩

/-- One edge counted on a channel with nothing absorbed (R63, R64, R69). -/
theorem fbCount_one {n : Fin 16} {s : State} (down : Bool) (t : Nat) (free : Option Nat) (level : s.fb[n].raw = s.fb[n].rep) :
    ∃ y : FbChan, fbCounted n y s (fbCount n 1 down t free s) ∧ y.raw = wrapI 40 (s.fb[n].raw + (if down then -1 else 1)) ∧
      y.rep = (if down = fbDown s n then y.raw else s.fb[n].rep) ∧
      y.per = (if down = fbDown s n then (perOf s.fb[n] t).map fun p => free.getD p else s.fb[n].per) ∧
      bit (regGet (fbCount n 1 down t free s) (fbStat n)) 14 = (bit (regGet s (fbStat n)) 14 || fbFast s.fb[n] t) := by
  have hyst := fbHyst_level (dirn := fbDown s n) (down := down) level
  by_cases e : down = fbDown s n
  · rw [if_pos e] at hyst
    obtain ⟨wraps, count, dir, onRef, counted⟩ := fbCount_moved t free hyst
    simp only [if_pos e]
    rw [counted, ← fbMarks_rate n (fbFast s.fb[n] t) wraps s]
    have moved (y : FbChan) := fbCounted_setFb y (fbMarks_counted n (fbFast s.fb[n] t) wraps s)
    have delivered (v : State) : keeps [.sd] v (whenB (!fbFaulty v n) (sdEdge n count dir t free onRef) v) :=
      keeps_whenB _ (fun _ => sdEdge_keeps _ _ _ _ _ _ (by decide)) (keeps_refl _ v)
    exact ⟨_, fbCounted_sd (moved _) (delivered _).parts, rfl, rfl, rfl, congrArg (bit · 14) (regGet_of_regs ((delivered _).parts.regs (by decide)) _)⟩
  · rw [if_neg e] at hyst
    obtain ⟨wraps, counted⟩ := fbCount_absorbed t free hyst
    simp only [if_neg e]
    rw [counted, ← fbMarks_rate n (fbFast s.fb[n] t) wraps s]
    have absorbed (y : FbChan) := fbCounted_setFb y (fbMarks_counted n (fbFast s.fb[n] t) wraps s)
    have withdrawn (v : State) : keeps [.sd] v (sdWithdraw n v) := sdWithdraw_keeps _ (by decide) (keeps_refl _ v)
    exact ⟨_, fbCounted_sd (absorbed _) (withdrawn _).parts, rfl, rfl, rfl, congrArg (bit · 14) (regGet_of_regs ((withdrawn _).parts.regs (by decide)) _)⟩

/-! ### The edges of the three modes -/

/-- v is s brought up to an edge of channel n that is counted at t, with the free value that a fast edge takes. -/
structure fbAtEdge (n : Fin 16) (t : Nat) (s v : State) (free : Option Nat) : Prop where
  parts : sameBut [.now, .freeCtr, .fb, .fbo] s v
  others : ∀ j : Fin 16, j ≠ n → v.fb[j] = s.fb[j]
  now : v.now = max s.now (t + 4 + fbFilter s n)
  raw : v.fb[n].raw = s.fb[n].raw
  rep : v.fb[n].rep = s.fb[n].rep
  per : v.fb[n].per = s.fb[n].per
  tSame : v.fb[n].tSame = s.fb[n].tSame
  tEdge : v.fb[n].tEdge = s.fb[n].tEdge
  free : fbFast s.fb[n] t = false → free = none

/-- A channel with other levels, whose counts and times are as before. -/
structure sameCounts (x y : FbChan) : Prop where
  raw : y.raw = x.raw
  rep : y.rep = x.rep
  per : y.per = x.per
  tSame : y.tSame = x.tSame
  tEdge : y.tEdge = x.tEdge

theorem fbFast_congr {x y : FbChan} (h : y.tEdge = x.tEdge) (t : Nat) : fbFast y t = fbFast x t := by rw [fbFast, fbFast, h]

/-- The instant of the count, and the free value that goes with it. -/
theorem fbAtEdge_free {n : Fin 16} {t : Nat} {x : FbChan} {s v : State} (h : fbUpdated n x s v) (c : sameCounts s.fb[n] x)
    (now : v.now = max s.now (t + 4 + fbFilter s n)) : fbAtEdge n t s (fbFree n t v).2 (fbFree n t v).1 := by
  have drawn : keeps [.freeCtr] v (fbFree n t v).2 := fbFree_keeps _ _ (by decide) (keeps_refl _ v)
  have fb := drawn.parts.fb (by decide)
  have own : v.fb[n] = x := fbUpdated_own h
  refine ⟨sameBut_trans (sameBut_mono (by decide) h.parts) (sameBut_mono (by decide) drawn.parts), fun j other => ?_, (drawn.parts.now (by decide)).trans now,
    ?_, ?_, ?_, ?_, ?_, fun slow => ?_⟩
  · rw [fb, h.fb j, if_neg other]
  · rw [fb, own, c.raw]
  · rw [fb, own, c.rep]
  · rw [fb, own, c.per]
  · rw [fb, own, c.tSame]
  · rw [fb, own, c.tEdge]
  · rw [fbFree, own, fbFast_congr c.tEdge, slow]
    rfl

/-- What one counted edge leaves of a channel with nothing absorbed. -/
structure fbEdgeDone (n : Fin 16) (t : Nat) (down : Bool) (s u : State) : Prop where
  now : u.now = max s.now (t + 4 + fbFilter s n)
  raw : u.fb[n].raw = wrapI 40 (s.fb[n].raw + (if down then -1 else 1))
  rep : u.fb[n].rep = (if down = fbDown s n then u.fb[n].raw else s.fb[n].rep)
  status : fbDown u n = fbDown s n ∧ fbSeated u n = fbSeated s n ∧ fbFaulty u n = fbFaulty s n
  others : ∀ m : Fin 16, m ≠ n → u.fb[m] = s.fb[m]
  rate : bit (regGet u (fbStat n)) 14 = (bit (regGet s (fbStat n)) 14 || fbFast s.fb[n] t)
  per : fbFast s.fb[n] t = false → down = fbDown s n → u.fb[n].per = perOf s.fb[n] t
  keptPer : down ≠ fbDown s n → u.fb[n].per = s.fb[n].per
  parts : sameBut [.now, .freeCtr, .regs, .held, .sd, .fb, .fbo] s u
  regs : regsBut [fbStat n] s u

theorem fbEdgeDone_count {n : Fin 16} {t : Nat} (down : Bool) {s v : State} {free : Option Nat} (level : s.fb[n].raw = s.fb[n].rep)
    (h : fbAtEdge n t s v free) : fbEdgeDone n t down s (fbCount n 1 down t free v) := by
  obtain ⟨y, counted, raw, rep, per, rate⟩ := fbCount_one (n := n) down t free (h.raw.trans (level.trans h.rep.symm))
  have own : (fbCount n 1 down t free v).fb[n] = y := (counted.fb n).trans (if_pos rfl)
  have same : touches (· ∈ [fbStat n]) s v := touches_of_sameBut h.parts (by decide) (by decide)
  have stat (b : Nat) : bitOf v (fbStat n) b = bitOf s (fbStat n) b :=
    congrArg (bit · b) (inForce_of (h.parts.regs (by decide)) (h.parts.held (by decide)) _)
  have dirn : fbDown v n = fbDown s n := stat 9
  have perOf_eq : perOf v.fb[n] t = perOf s.fb[n] t := by rw [perOf, perOf, h.tSame]
  exact {
    now := (counted.parts.now (by decide)).trans h.now
    raw := by rw [own, raw, h.raw]
    rep := by rw [own, rep, dirn, h.rep]
    status := ⟨(counted.status 9 (by decide)).trans (stat 9), (counted.status 19 (by decide)).trans (stat 19),
      (counted.status 18 (by decide)).trans (stat 18)⟩
    others := fun m other => ((counted.fb m).trans (if_neg other)).trans (h.others m other)
    rate := by rw [rate, regGet_of_regs (h.parts.regs (by decide)), fbFast_congr h.tEdge]
    per := fun slow e => by rw [own, per, dirn, if_pos e, h.free slow, perOf_eq]; simp
    keptPer := fun e => by rw [own, per, dirn, if_neg e, h.per]
    parts := sameBut_trans (sameBut_mono (by decide) h.parts) (sameBut_mono (by decide) counted.parts)
    regs := regsBut_of_touches (touches_trans same counted.regs) }

/-- The start of the next tooth period is no count. -/
theorem fbEdgeDone_tooth {n : Fin 16} {t : Nat} {down : Bool} {s u : State} (k : Option Nat) (h : fbEdgeDone n t down s u) :
    fbEdgeDone n t down s (setFb n { u.fb[n] with tTooth := k } u) := by
  have fb (j : Fin 16) := fb_setFb u n j { u.fb[n] with tTooth := k }
  have own := (fb n).trans (if_pos rfl)
  exact {
    now := h.now
    raw := by rw [own]; exact h.raw
    rep := by rw [own]; exact h.rep
    status := h.status
    others := fun m other => ((fb m).trans (if_neg other)).trans (h.others m other)
    rate := h.rate
    per := fun slow e => by rw [own]; exact h.per slow e
    keptPer := fun e => by rw [own]; exact h.keptPer e
    parts := sameBut_trans h.parts (setFb_keeps _ _ (by decide) (keeps_refl _ u)).parts
    regs := regsBut_of_touches (touches_same h.regs rfl rfl) }

/-- The pin's time is the first sample of the edge. -/
theorem fbAtEdge_advance {n : Fin 16} {t : Nat} {s v : State} {free : Option Nat} (h : fbAtEdge n t (advance t s) v free) : fbAtEdge n t s v free :=
  { h with
    parts := sameBut_trans (advance_keeps _ (by decide) (keeps_refl _ s)).parts h.parts
    now := by
      have later : v.now = max (max s.now t) (t + 4 + fbFilter s n) := h.now
      omega }

/-- A level that is not held for the filter time changes no count. -/
structure fbRejected (n : Fin 16) (t : Nat) (s u : State) : Prop where
  now : u.now = max s.now t
  counts : sameCounts s.fb[n] u.fb[n]
  others : ∀ m : Fin 16, m ≠ n → u.fb[m] = s.fb[m]
  parts : sameBut [.now, .fb, .fbo] s u

theorem fbRejected_of {n : Fin 16} {t : Nat} {x : FbChan} {s u : State} (h : fbUpdated n x (advance t s) u) (c : sameCounts s.fb[n] x)
    (now : u.now = (advance t s).now) : fbRejected n t s u :=
  ⟨now, by rw [fbUpdated_own h]; exact c, fun m other => (h.fb m).trans (if_neg other),
    sameBut_trans (advance_keeps _ (by decide) (keeps_refl _ s)).parts h.parts⟩

theorem now_fbLevels (n : Fin 16) (a b z : Bool) (s : State) : (fbLevels n a b z s).now = s.now :=
  (fbLevels_keeps (L := [.fb, .fbo]) n a b z (by decide) (keeps_refl _ s)).parts.now (by decide)

theorem sameCounts_levels (x : FbChan) (a b a' b' sz : Bool) : sameCounts x { x with sa := a, sb := b, sz := sz, a := a', b := b' } :=
  ⟨rfl, rfl, rfl, rfl, rfl⟩

theorem fbAccepts_levels (n : Fin 16) (a b z : Bool) (held : Nat) (s : State) :
    fbAccepts (fbLevels n a b z s) n held = decide (fbFilter s n ≤ held) := by
  rw [fbAccepts, fbUpdated_filter (fbUpdated_levels a b z (fbUpdated_self n s))]

/-- The levels of an edge, and those accepted. -/
theorem fb_levels (n : Fin 16) (a b a' b' : Bool) (s : State) : fbUpdated n { s.fb[n] with sa := a, sb := b, a := a', b := b' } s
    (setFb n { (fbLevels n a b s.fb[n].sz s).fb[n] with a := a', b := b' } (fbLevels n a b s.fb[n].sz s)) := by
  have levels := fbUpdated_levels a b s.fb[n].sz (fbUpdated_self n s)
  rw [fbUpdated_own levels]
  exact fbUpdated_setFb _ levels

/-- A rejected edge of a quadrature channel leaves the accepted levels. -/
theorem quadEdge_rejected {n : Fin 16} {a b : Bool} {t held : Nat} {s : State} (short : held < fbFilter s n) :
    quadEdge n a b t held s = setFb n { (fbLevels n a b s.fb[n].sz s).fb[n] with a := s.fb[n].a, b := s.fb[n].b } (fbLevels n a b s.fb[n].sz s) := by
  unfold quadEdge
  dsimp only
  rw [fbAccepts_levels, decide_eq_false (by omega)]
  exact if_pos (.inr ⟨rfl, rfl⟩)

theorem level_taken (x y : Bool) : (if (true && x != y) = true then x else y) = x := by cases x <;> cases y <;> rfl

/-- Where one of two levels changes, neither none nor both do. -/
theorem oneLevel : ∀ {a x b y : Bool}, (a != x) = (b == y) → ¬(a = x ∧ b = y) ∧ ¬(a ≠ x ∧ b ≠ y) := by decide

theorem ite_bne (a x p q : Bool) : (if a ≠ x then p else q) = if a != x then p else q := by cases a <;> cases x <;> rfl

theorem fbAtEdge_settled {n : Fin 16} {x : FbChan} {s v : State} (t : Nat) (h : fbUpdated n x s v) (c : sameCounts s.fb[n] x) (now : v.now = s.now) :
    fbAtEdge n t s (fbFree n t (fbSettled v n t)).2 (fbFree n t (fbSettled v n t)).1 :=
  fbAtEdge_free (fbUpdated_advance _ h) c (by rw [← fbUpdated_filter h n, ← now]; rfl)

/-- An accepted edge of one level of a quadrature channel is counted, in the direction of the level pair. -/
theorem quadEdge_counted {n : Fin 16} {a b : Bool} {t held : Nat} {s : State} (mode : fbCounts s n = 1) (sa : s.fb[n].sa = s.fb[n].a)
    (sb : s.fb[n].sb = s.fb[n].b) (one : (a != s.fb[n].a) = (b == s.fb[n].b)) (long : fbFilter s n ≤ held) :
    ∃ v free, fbAtEdge n t s v free ∧ quadEdge n a b t held s =
      fbCount n 1 ((if a != s.fb[n].a then a != b else a == b) == bitOf s (fbAddr n) 16) t free v := by
  obtain ⟨some', notBoth⟩ := oneLevel one
  have counts : ¬(fbCounts s n ≠ 1 ∨ (a = s.fb[n].a ∧ b = s.fb[n].b)) := not_or.mpr ⟨not_not.mpr mode, some'⟩
  unfold quadEdge
  dsimp only
  rw [fbAccepts_levels, decide_eq_true long, sa, sb, level_taken, level_taken, if_neg counts, if_neg notBoth, ite_bne]
  exact ⟨_, _, fbAtEdge_settled t (fb_levels n a b a b s) (sameCounts_levels ..) (now_fbLevels ..), rfl⟩

/-- The levels of a rising edge of A, and those accepted. -/
theorem fbRise_rejected {n : Fin 16} {b : Bool} {t held : Nat} {s : State} (short : held < fbFilter s n) :
    fbRise n b t held s = (false, fbLevels n true b s.fb[n].sz s) := by
  rw [fbRise]
  dsimp only
  rw [fbAccepts_levels, decide_eq_false (by omega)]
  rfl

theorem fbRise_accepted {n : Fin 16} {b : Bool} {t held : Nat} {s : State} (long : fbFilter s n ≤ held) :
    ∃ v, fbUpdated n { s.fb[n] with sa := true, sb := b, a := true, b := b } s v ∧ v.now = s.now ∧ fbRise n b t held s = (true, fbSettled v n t) := by
  rw [fbRise]
  dsimp only
  rw [fbAccepts_levels, decide_eq_true long]
  exact ⟨_, fb_levels n true b true b s, now_fbLevels .., rfl⟩

theorem pulseStep_counted {n : Fin 16} {b : Bool} {t held : Nat} {s : State} (mode : fbCounts s n = 2) (long : fbFilter s n ≤ held) :
    ∃ v free, fbAtEdge n t s v free ∧ pulseStep n b true t held s = fbCount n 1 (b != bitOf s (fbAddr n) 16) t free v := by
  obtain ⟨v, levels, now, e⟩ := fbRise_accepted (b := b) (t := t) long
  rw [pulseStep, e]
  dsimp only
  rw [mode, if_neg (by decide), if_pos rfl]
  exact ⟨_, _, fbAtEdge_settled t levels (sameCounts_levels ..) now, rfl⟩

theorem pulseStep_rejected {n : Fin 16} {b : Bool} {t held : Nat} {s : State} (short : held < fbFilter s n) :
    pulseStep n b true t held s = fbLevels n true b s.fb[n].sz s := by
  rw [pulseStep, fbRise_rejected short]
  rfl

theorem toothEdge_rejected {n : Fin 16} {b : Bool} {t held : Nat} {s : State} (short : held < fbFilter s n) :
    toothEdge n b t held s = fbLevels n true b s.fb[n].sz s := by
  rw [toothEdge, fbRise_rejected short]
  rfl

theorem fbAtEdge_setFb {n : Fin 16} {t : Nat} {y : FbChan} {s v : State} {free : Option Nat} (h : fbAtEdge n t s v free) (c : sameCounts v.fb[n] y) :
    fbAtEdge n t s (setFb n y v) free := by
  have fb (j : Fin 16) := fb_setFb v n j y
  have own := (fb n).trans (if_pos rfl)
  exact { h with
    parts := sameBut_trans h.parts (setFb_keeps _ _ (by decide) (keeps_refl _ v)).parts
    others := fun j other => ((fb j).trans (if_neg other)).trans (h.others j other)
    raw := by rw [own, c.raw, h.raw]
    rep := by rw [own, c.rep, h.rep]
    per := by rw [own, c.per, h.per]
    tSame := by rw [own, c.tSame, h.tSame]
    tEdge := by rw [own, c.tEdge, h.tEdge] }

/-- The tooth history is no count. -/
theorem toothHist_counts (s : State) (n : Fin 16) (down : Bool) (t : Nat) (free : Option Nat) (x : FbChan) : sameCounts x (toothHist s n down t free x) := by
  unfold toothHist
  dsimp only
  split
  · split
    · exact ⟨rfl, rfl, rfl, rfl, rfl⟩
    · split <;> exact ⟨rfl, rfl, rfl, rfl, rfl⟩
  · exact ⟨rfl, rfl, rfl, rfl, rfl⟩

/-- Fields and bits in force depend on the registers alone. -/
theorem fldOf_eq {s v : State} (hr : v.regs = s.regs) (hh : v.held = s.held) : fldOf v = fldOf s := by
  funext a hi lo
  exact congrArg (fld · hi lo) (inForce_of hr hh a)

theorem bitOf_eq {s v : State} (hr : v.regs = s.regs) (hh : v.held = s.held) : bitOf v = bitOf s := by
  funext a n
  exact congrArg (bit · n) (inForce_of hr hh a)

theorem fbRef_regs {s v : State} (h : sameBut [.now, .freeCtr, .fb, .fbo] s v) (n : Nat) : fbRef v n = fbRef s n := by
  unfold fbRef fbRefBad fbRefType fbMode fbTeeth fbGap
  rw [fldOf_eq (h.regs (by decide)) (h.held (by decide))]

theorem toothDir_eq {s v : State} {n : Fin 16} (h : sameBut [.now, .freeCtr, .fb, .fbo] s v) (axis : v.fb[n].axDir = s.fb[n].axDir) (b : Bool) :
    toothDir v n b = toothDir s n b := by
  unfold toothDir fbDirSrc
  rw [fldOf_eq (h.regs (by decide)) (h.held (by decide)), bitOf_eq (h.regs (by decide)) (h.held (by decide)), axis]

/-- A tooth of a channel with no reference is counted, in the direction of its source. -/
theorem toothEdge_counted {n : Fin 16} {b : Bool} {t held : Nat} {s : State} (mode : fbCounts s n = 3) (noRef : fbRef s n = 0) (long : fbFilter s n ≤ held) :
    ∃ v free, fbAtEdge n t s v free ∧ (toothEdge n b t held s = fbCount n 1 (toothDir s n b) t free v ∨
      toothEdge n b t held s = setFb n { (fbCount n 1 (toothDir s n b) t free v).fb[n] with tTooth := some t } (fbCount n 1 (toothDir s n b) t free v)) := by
  obtain ⟨v, levels, now, e⟩ := fbRise_accepted (b := b) (t := t) long
  have edge := fbAtEdge_settled t levels (sameCounts_levels ..) now
  have drawn : keeps [.freeCtr] (fbSettled v n t) (fbFree n t (fbSettled v n t)).2 := fbFree_keeps _ _ (by decide) (keeps_refl _ _)
  have dir : toothDir (fbFree n t (fbSettled v n t)).2 n b = toothDir s n b := toothDir_eq edge.parts (by
    rw [drawn.parts.fb (by decide)]
    exact (congrArg FbChan.axDir (fbUpdated_own levels)).trans rfl) b
  have plain (d : Bool) (free : Option Nat) : toothTest (fbFree n t (fbSettled v n t)).2 n d t free = 0 :=
    if_pos (.inl ((fbRef_regs edge.parts n).trans noRef))
  rw [toothEdge, e]
  dsimp only
  rw [mode, if_neg (by decide), plain, if_pos rfl, dir]
  refine ⟨_, (fbFree n t (fbSettled v n t)).1, fbAtEdge_setFb edge (toothHist_counts (fbFree n t (fbSettled v n t)).2 n (toothDir s n b) t (fbFree n t (fbSettled v n t)).1 _), ?_⟩
  generalize fbCount n 1 (toothDir s n b) t _ _ = u
  split
  · exact .inr rfl
  · exact .inl rfl

/-! ### The Z index -/

theorem wrapN_lt (n : Nat) (v : Int) : wrapN n v < 2 ^ n := by
  unfold wrapN
  have pos : (0 : Int) < 2 ^ n := by positivity
  have := Int.emod_lt_of_pos v pos
  have := Int.emod_nonneg v pos.ne'
  zify
  rw [Int.toNat_of_nonneg (by omega)]
  omega

theorem pairN_putPair {a : Nat} (apart : canonAddr a ≠ canonAddr (a + 1)) {v : Nat} (h : v < 2 ^ 40) (s : State) : pairN (putPair a v s) a = v := by
  rw [pairN, putPair, inForce_putWord_other _ _ apart, inForce_putWord_same, inForce_putWord_same, toNat_word, toNat_word]
  omega

/-- A 40-bit signed value is its own wrap. -/
theorem wrapI_pairI (s : State) (a : Nat) : wrapI 40 (pairI s a) = pairI s a := by
  unfold wrapI pairI wrapN
  generalize pairN s a = v
  have e : ((sext 40 v) % (2 ^ 40 : Int)).toNat = v % 2 ^ 40 := by
    unfold sext
    split <;> omega
  rw [e]
  unfold sext
  rw [Nat.mod_mod]

/-- A Z edge whose level holds: the count is captured, and where the Z index is the reference it seats an unseated channel. -/
theorem zIndex_captures {n : Fin 16} {t held : Nat} {s : State} (mode : fbCounts s n = 1 ∨ fbCounts s n = 2) (low : s.fb[n].z = false)
    (long : fbFilter s n ≤ held) : ∃ x v, fbUpdated n x s v ∧ sameCounts s.fb[n] x ∧ zIndex n true t held s =
      (if fbRef s n = 3 then fbReference n false (fbDown s n) (fbRefPos s n) 0 (fbTeeth s n) (putPair (fbAddr n + 12) (wrapN 40 v.fb[n].rep) v)
        else putPair (fbAddr n + 12) (wrapN 40 v.fb[n].rep) v) := by
  have levels := fbUpdated_levels s.fb[n].sa s.fb[n].sb true (fbUpdated_self n s)
  have counts : ¬((!(true && true && !s.fb[n].z) || (fbCounts s n != 1 && fbCounts s n != 2)) = true) := by
    rw [low]
    rcases mode with e | e <;> rw [e] <;> decide
  unfold zIndex
  dsimp only
  rw [fbAccepts_levels, decide_eq_true long, if_neg counts, if_pos rfl, fbUpdated_own levels]
  have risen := fbUpdated_setFb { s.fb[n] with sz := true, z := true } levels
  exact ⟨_, _, fbUpdated_advance (t + 4 + fbFilter (setFb n { s.fb[n] with sz := true, z := true } (fbLevels n s.fb[n].sa s.fb[n].sb true s)) n) risen,
    ⟨rfl, rfl, rfl, rfl, rfl⟩, rfl⟩

/-- The registers of a channel that a Z edge writes. -/
theorem own_zcap (n : Fin 16) : canonAddr (fbAddr n + 12) ∈ [fbStat n, fbAddr n + 12, fbAddr n + 13] ∧
    canonAddr (fbAddr n + 12 + 1) ∈ [fbStat n, fbAddr n + 12, fbAddr n + 13] ∧ canonAddr (fbStat n) ∈ [fbStat n, fbAddr n + 12, fbAddr n + 13] := by
  rw [canonAddr_fb n.isLt (by decide), Nat.add_assoc, canonAddr_fb n.isLt (by decide), fbStat, canonAddr_fb n.isLt (by decide)]
  exact ⟨.tail _ (.head _), .tail _ (.tail _ (.head _)), .head _⟩

/-- A channel is seated at a value (R73). -/
theorem fbSeat_spec (n : Fin 16) (p : Int) (s : State) :
    (fbSeat n p s).fb[n].raw = wrapI 40 p ∧ (fbSeat n p s).fb[n].rep = wrapI 40 p ∧ fbSeated (fbSeat n p s) n = true ∧
    (∀ m : Fin 16, m ≠ n → (fbSeat n p s).fb[m] = s.fb[m]) ∧ sameBut [.regs, .held, .sd, .fb] s (fbSeat n p s) ∧
    touches (· ∈ [fbStat n]) s (fbSeat n p s) := by
  obtain ⟨y, seated⟩ : ∃ y : FbChan, (y.raw = wrapI 40 p ∧ y.rep = wrapI 40 p) ∧
      keeps [.sd] (setFb n y (putBit (fbStat n) 19 true s)) (fbSeat n p s) :=
    ⟨_, ⟨rfl, rfl⟩, keeps_whenB _ (fun _ => sdReference_keeps _ _ (by decide)) (keeps_refl _ _)⟩
  obtain ⟨⟨raw, rep⟩, after⟩ := seated
  have fb (j : Fin 16) : (fbSeat n p s).fb[j] = if j = n then y else s.fb[j] := by
    rw [after.parts.fb (by decide), fb_setFb, putBit_fb]
  have marked : inForce (setFb n y (putBit (fbStat n) 19 true s)) (fbStat n) = setBit (inForce s (fbStat n)) 19 true :=
    (inForce_of (setFb_regs ..) (setFb_held ..) _).trans ((inForce_putBit s _ _ _ _).trans (if_pos rfl))
  have regs : touches (· ∈ [fbStat n]) s (setFb n y (putBit (fbStat n) 19 true s)) :=
    touches_same (touches_putBit _ _ (own_fbStat n) (touches_refl _ s)) (setFb_regs ..) (setFb_held ..)
  refine ⟨by rw [fb, if_pos rfl, raw], by rw [fb, if_pos rfl, rep], ?_, fun m other => by rw [fb, if_neg other],
    (fbSeat_keeps n p (by decide) (keeps_refl _ s)).parts, touches_sameBut regs after.parts (by decide) (by decide)⟩
  rw [fbSeated, bitOf, inForce_of (after.parts.regs (by decide)) (after.parts.held (by decide)), marked, bit_setBit_same _ _ (by decide)]

/-- What a Z edge leaves of an unseated channel: the captured count, and at a reference the seat. -/
structure zCaptured (n : Fin 16) (s u : State) : Prop where
  zcap : pairN u (fbAddr n + 12) = wrapN 40 s.fb[n].rep
  seats : fbRef s n = 3 → u.fb[n].raw = fbRefPos s n ∧ u.fb[n].rep = fbRefPos s n ∧ fbSeated u n = true
  stays : fbRef s n ≠ 3 → u.fb[n].raw = s.fb[n].raw ∧ u.fb[n].rep = s.fb[n].rep ∧ fbSeated u n = false
  others : ∀ m : Fin 16, m ≠ n → u.fb[m] = s.fb[m]
  parts : sameBut [.now, .regs, .held, .sd, .fb, .fbo] s u
  regs : touches (· ∈ [fbStat n, fbAddr n + 12, fbAddr n + 13]) s u

theorem zCaptured_of {n : Fin 16} {x : FbChan} {s v : State} (h : fbUpdated n x s v) (c : sameCounts s.fb[n] x) (unseated : fbSeated s n = false) :
    zCaptured n s (if fbRef s n = 3 then fbReference n false (fbDown s n) (fbRefPos s n) 0 (fbTeeth s n) (putPair (fbAddr n + 12) (wrapN 40 v.fb[n].rep) v)
      else putPair (fbAddr n + 12) (wrapN 40 v.fb[n].rep) v) := by
  obtain ⟨own12, own13, ownStat⟩ := own_zcap n
  have raw : v.fb[n].raw = s.fb[n].raw := (congrArg FbChan.raw (fbUpdated_own h)).trans c.raw
  have rep : v.fb[n].rep = s.fb[n].rep := (congrArg FbChan.rep (fbUpdated_own h)).trans c.rep
  have addr12 : canonAddr (fbAddr n + 12) = fbAddr n + 12 := canonAddr_fb n.isLt (by decide)
  have addr13 : canonAddr (fbAddr n + 12 + 1) = fbAddr n + 13 := canonAddr_fb (k := 13) n.isLt (by decide)
  have addr16 : canonAddr (fbStat n) = fbAddr n + 16 := canonAddr_fb (k := 16) n.isLt (by decide)
  have pair : pairN (putPair (fbAddr n + 12) (wrapN 40 v.fb[n].rep) v) (fbAddr n + 12) = wrapN 40 s.fb[n].rep := by
    rw [rep]
    exact pairN_putPair (by omega) (wrapN_lt 40 _) v
  have parts : sameBut [.now, .regs, .held, .fb, .fbo] s (putPair (fbAddr n + 12) (wrapN 40 v.fb[n].rep) v) :=
    sameBut_trans (sameBut_mono (by decide) h.parts) (putPair_keeps _ _ (by decide) (keeps_refl _ v)).parts
  have regs : touches (· ∈ [fbStat n, fbAddr n + 12, fbAddr n + 13]) s (putPair (fbAddr n + 12) (wrapN 40 v.fb[n].rep) v) :=
    touches_putPair _ own12 own13 (touches_of_sameBut h.parts (by decide) (by decide))
  have seat : fbSeated (putPair (fbAddr n + 12) (wrapN 40 v.fb[n].rep) v) n = false := by
    rw [fbSeated, bitOf, putPair, inForce_putWord_other _ _ (by omega), inForce_putWord_other _ _ (by omega), fbUpdated_regs h]
    exact unseated
  have others (m : Fin 16) (other : m ≠ n) : (putPair (fbAddr n + 12) (wrapN 40 v.fb[n].rep) v).fb[m] = s.fb[m] := by
    rw [putPair_fb, h.fb m, if_neg other]
  by_cases z : fbRef s n = 3
  · rw [if_pos z, fbReference, seat, if_neg (by decide)]
    generalize putPair (fbAddr n + 12) (wrapN 40 v.fb[n].rep) v = w at *
    obtain ⟨raw', rep', seated, others', parts', regs'⟩ := fbSeat_spec n (fbRefPos s n) w
    rw [fbRefPos, wrapI_pairI] at raw' rep'
    have apart12 : canonAddr (fbAddr n + 12) ∉ [fbStat n] := by simp only [List.mem_singleton, fbStat]; omega
    have apart13 : canonAddr (fbAddr n + 12 + 1) ∉ [fbStat n] := by simp only [List.mem_singleton, fbStat]; omega
    exact ⟨by rw [← pair, pairN, pairN, (regs' _ apart12).2, (regs' _ apart13).2], fun _ => ⟨raw', rep', seated⟩, fun off => absurd z off, fun m other => (others' m other).trans (others m other),
      sameBut_trans (sameBut_mono (by decide) parts) (sameBut_mono (by decide) parts'), touches_trans regs (touches_mono regs' (by simp))⟩
  · rw [if_neg z]
    exact ⟨pair, fun on => absurd on z, fun _ => ⟨by rw [putPair_fb, raw], by rw [putPair_fb, rep], seat⟩, others, sameBut_mono (by decide) parts, regs⟩

/-! ### The statement -/

/-- The edge commands whose first sample is at t, with the direction in which each counts. -/
def edgeCommand (s : State) (n : Fin 16) (t held : Nat) (a b : Bool) (cmd : Instr) (down : Bool) : Prop :=
  (fbCounts s n = 1 ∧ (a != s.fb[n].a) = (b == s.fb[n].b) ∧ cmd = .quadratureEdge n a b ⟨t, held⟩ ∧
      down = ((if a != s.fb[n].a then a != b else a == b) == bitOf s (fbAddr n) 16)) ∨
    (fbCounts s n = 2 ∧ cmd = .pulseAndDirectionStep n b true ⟨t, held⟩ ∧ down = (b != bitOf s (fbAddr n) 16)) ∨
    (fbCounts s n = 3 ∧ fbRef s n = 0 ∧ cmd = .toothEdge n b ⟨t, held⟩ ∧ down = toothDir s n b)

theorem fb_levels_only (n : Fin 16) (a b : Bool) (t : Nat) (s : State) : fbRejected n t s (fbLevels n a b s.fb[n].sz (advance t s)) :=
  fbRejected_of (fbUpdated_levels a b s.fb[n].sz (fbUpdated_self n (advance t s))) ⟨rfl, rfl, rfl, rfl, rfl⟩ (now_fbLevels ..)

theorem edge_rejected {s : State} {n : Fin 16} {t held : Nat} {a b : Bool} {cmd : Instr} {down : Bool} (h : edgeCommand s n t held a b cmd down)
    (short : held < fbFilter s n) : ∃ u, exec cmd s = .next u ∧ fbRejected n t s u := by
  rcases h with ⟨-, -, rfl, -⟩ | ⟨-, rfl, -⟩ | ⟨-, -, rfl, -⟩
  · exact ⟨_, congrArg Host.Outcome.next (quadEdge_rejected (s := advance t s) short),
      fbRejected_of (fb_levels n a b s.fb[n].a s.fb[n].b (advance t s)) (sameCounts_levels ..) (now_fbLevels ..)⟩
  · exact ⟨_, congrArg Host.Outcome.next (pulseStep_rejected (s := advance t s) short), fb_levels_only n true b t s⟩
  · exact ⟨_, congrArg Host.Outcome.next (toothEdge_rejected (s := advance t s) short), fb_levels_only n true b t s⟩

theorem edge_counted {s : State} {n : Fin 16} {t held : Nat} {a b : Bool} {cmd : Instr} {down : Bool} (level : s.fb[n].raw = s.fb[n].rep)
    (sa : s.fb[n].sa = s.fb[n].a) (sb : s.fb[n].sb = s.fb[n].b) (h : edgeCommand s n t held a b cmd down) (long : fbFilter s n ≤ held) :
    ∃ u, exec cmd s = .next u ∧ fbEdgeDone n t down s u := by
  rcases h with ⟨mode, one, rfl, rfl⟩ | ⟨mode, rfl, rfl⟩ | ⟨mode, noRef, rfl, rfl⟩
  · obtain ⟨v, free, edge, e⟩ := quadEdge_counted (s := advance t s) (t := t) mode sa sb one long
    exact ⟨_, congrArg Host.Outcome.next e, fbEdgeDone_count _ level (fbAtEdge_advance edge)⟩
  · obtain ⟨v, free, edge, e⟩ := pulseStep_counted (s := advance t s) (t := t) (b := b) mode long
    exact ⟨_, congrArg Host.Outcome.next e, fbEdgeDone_count _ level (fbAtEdge_advance edge)⟩
  · obtain ⟨v, free, edge, e⟩ := toothEdge_counted (s := advance t s) (t := t) (b := b) mode noRef long
    have counted := fbEdgeDone_count (toothDir s n b) level (fbAtEdge_advance edge)
    rcases e with e | e
    · exact ⟨_, congrArg Host.Outcome.next e, counted⟩
    · exact ⟨_, congrArg Host.Outcome.next e, fbEdgeDone_tooth _ counted⟩

/-- Settles O3: an edge is brought up to its count, which moves the channel by one, or is rejected; a Z edge captures the count. -/
theorem feedbackChannelsCountAndSeat : Obligations.FeedbackChannelsCountAndSeat := by
  refine ⟨fun s n t held a b cmd down level sound sa sb edge => ⟨fun short => ?_, fun long => ?_⟩, fun s n t held mode unseated sound low long => ?_⟩
  · obtain ⟨u, e, r⟩ := edge_rejected edge short
    exact ⟨u, e, r.now, r.counts.raw, r.counts.rep, r.counts.per, r.others, r.parts⟩
  · obtain ⟨u, e, d⟩ := edge_counted level sa sb edge long
    obtain ⟨dirn, seated, faulty⟩ := d.status
    exact ⟨u, e, d.now, d.raw, d.rep, dirn, seated, faulty.trans sound, d.others, d.rate, d.per, d.keptPer, d.parts, d.regs⟩
  · obtain ⟨x, v, updated, counts, e⟩ := zIndex_captures (s := advance t s) (t := t) mode low long
    have z := zCaptured_of updated counts unseated
    exact ⟨_, congrArg Host.Outcome.next e, z.zcap, z.seats, z.stays, z.others,
      sameBut_trans (advance_keeps _ (by decide) (keeps_refl _ s)).parts z.parts, regsBut_of_touches z.regs⟩

end Sys2Proof.Machine
end

