-- ==== Sys2Proof/Proofs/FeedbackModes.lean ====
section
/-! PROOFS. The SSI and mains modes of the feedback channels, and their acknowledgements. -/

namespace Sys2Proof.Machine

theorem addr_fbErr (n : Fin 16) : canonAddr (fbAddr n + 19) = fbAddr n + 19 := canonAddr_fb n.isLt (by decide)

theorem addr_fbStat (n : Fin 16) : canonAddr (fbStat n) = fbStat n := canonAddr_fb (k := 16) n.isLt (by decide)

/-- A bit of the status, as written and with a later write of another bit. -/
theorem bit_putBit_same (a : Nat) {b : Nat} (v : Bool) (s : State) (hb : b < 20) : bit (regGet (putBit a b v s) a) b = v := by
  rw [regGet_putBit, if_pos rfl, bit_setBit_same _ _ hb]

theorem bit_putBit_other (a : Nat) {b c : Nat} (v : Bool) (s : State) (hb : b < 20) (apart : c ≠ b) : bit (regGet (putBit a b v s) a) c = bit (regGet s a) c := by
  rw [regGet_putBit, if_pos rfl, bit_setBit_other _ _ hb apart]

theorem bitOf_putBit_same (a : Nat) {b : Nat} (v : Bool) (s : State) (hb : b < 20) : bitOf (putBit a b v s) a b = v := by
  rw [bitOf, inForce_putBit, if_pos rfl, bit_setBit_same _ _ hb]

theorem bitOf_putBit_other (a : Nat) {b c : Nat} (v : Bool) (s : State) (hb : b < 20) (apart : c ≠ b) : bitOf (putBit a b v s) a c = bitOf s a c := by
  rw [bitOf, inForce_putBit, if_pos rfl, bit_setBit_other _ _ hb apart, bitOf]

/-! ### SSI frames -/

/-- The change that a frame value in plain binary tells. -/
def ssiDiff (s : State) (n : Fin 16) (v : BitVec 32) (p : Nat) : Int :=
  sext (fldOf s (fbAddr n + 3) 19 14) ((v.toNat % 2 ^ fldOf s (fbAddr n + 3) 19 14 + 2 ^ fldOf s (fbAddr n + 3) 19 14 - p) %
    2 ^ fldOf s (fbAddr n + 3) 19 14)

/-- A sound frame moves the count by its change, and the timebases of the channel. -/
theorem ssiFrame_sound {s : State} {n : Fin 16} {v : BitVec 32} {p : Nat} (mode : fbCounts s n = 5) (prev : s.fb[n].ssiPrev = some p)
    (plain : bitOf s (fbAddr n + 3) 13 = false) (small : |ssiDiff s n v p| ≤ (fldOf s (fbAddr n + 21) 19 0 : Int)) :
    ∃ y : FbChan, y.raw = wrapI 40 (s.fb[n].raw + ssiDiff s n v p) ∧ y.rep = y.raw ∧ y.ssiErr = 0 ∧
      ∃ moved w : State, (moved = setFb n y s ∨ ∃ down, moved = putBit (fbStat n) 9 down (setFb n y s)) ∧
        (∃ wraps, w = whenB wraps (putBit (fbStat n) 7 true) moved) ∧ keeps [.sd] w (ssiFrame n false false false false v s) := by
  unfold ssiFrame
  have sound : ¬((false || false || false || (false && s.sys.op != .runStandby) ||
      decide ((fldOf s (fbAddr n + 21) 19 0 : Int) < |ssiDiff s n v p|)) = true) := by simpa using small
  rw [if_neg (by simp [mode])]
  simp only [plain, prev, Bool.false_eq_true, if_false]
  rw [← ssiDiff, if_neg sound]
  by_cases still : ssiDiff s n v p = 0
  · simp only [if_pos still]
    exact ⟨_, rfl, rfl, rfl, _, _, .inl rfl, ⟨_, rfl⟩, keeps_whenB _ (fun _ h => ssiFrame.sdWithdrawPer_keeps _ (by decide) (sdEdge_keeps _ _ _ _ _ _ (by decide) h)) (keeps_refl _ _)⟩
  · simp only [if_neg still]
    exact ⟨_, rfl, rfl, rfl, _, _, .inr ⟨_, rfl⟩, ⟨_, rfl⟩, keeps_whenB _ (fun _ h => ssiFrame.sdWithdrawPer_keeps _ (by decide) (sdEdge_keeps _ _ _ _ _ _ (by decide) h)) (keeps_refl _ _)⟩

/-- A channel changed, with marks in its status. -/
theorem fb_frame {n : Fin 16} {y : FbChan} {s w u : State} (fb : w.fb = (setFb n y s).fb) (k : keeps [.sd] w u) (m : Fin 16) :
    u.fb[m] = if m = n then y else s.fb[m] := by
  rw [k.parts.fb (by decide), fb, fb_setFb]

theorem ssiFrame_sound_done {s : State} {n : Fin 16} {v : BitVec 32} {p : Nat} (mode : fbCounts s n = 5) (prev : s.fb[n].ssiPrev = some p)
    (plain : bitOf s (fbAddr n + 3) 13 = false) (small : |ssiDiff s n v p| ≤ (fldOf s (fbAddr n + 21) 19 0 : Int)) :
    ∃ u, ssiFrame n false false false false v s = u ∧ u.fb[n].rep = u.fb[n].raw ∧ u.fb[n].ssiErr = 0 ∧
      u.fb[n].raw = wrapI 40 (s.fb[n].raw + ssiDiff s n v p) ∧ (∀ m : Fin 16, m ≠ n → u.fb[m] = s.fb[m]) ∧
      sameBut [.regs, .held, .sd, .fb] s u ∧ regsBut [fbStat n] s u := by
  obtain ⟨y, raw, rep, err, moved, w, hmoved, ⟨wraps, hw⟩, after⟩ := ssiFrame_sound mode prev plain small
  have movedOf : moved.fb = (setFb n y s).fb ∧ keeps [.regs, .held, .fb] s moved ∧ touches (· ∈ [fbStat n]) s moved := by
    have set : keeps [.regs, .held, .fb] s (setFb n y s) := setFb_keeps _ _ (by decide) (keeps_refl _ s)
    have regs : touches (· ∈ [fbStat n]) s (setFb n y s) := touches_same (touches_refl _ s) (setFb_regs ..) (setFb_held ..)
    rcases hmoved with rfl | ⟨down, rfl⟩
    · exact ⟨rfl, set, regs⟩
    · exact ⟨putBit_fb .., putBit_keeps _ _ _ (by decide) set, touches_putBit _ _ (own_fbStat n) regs⟩
  obtain ⟨fb, parts, regs⟩ := movedOf
  have wOf : w.fb = (setFb n y s).fb ∧ keeps [.regs, .held, .fb] s w ∧ touches (· ∈ [fbStat n]) s w := by
    subst hw
    cases wraps
    · exact ⟨fb, parts, regs⟩
    · exact ⟨(putBit_fb ..).trans fb, putBit_keeps _ _ _ (by decide) parts, touches_putBit _ _ (own_fbStat n) regs⟩
  obtain ⟨fb, parts, regs⟩ := wOf
  have own := (fb_frame fb after n).trans (if_pos rfl)
  exact ⟨_, rfl, by rw [own, rep], by rw [own, err], by rw [own, raw], fun m other => (fb_frame fb after m).trans (if_neg other),
    sameBut_trans (sameBut_mono (by decide) parts.parts) (sameBut_mono (by decide) after.parts),
    regsBut_of_touches (touches_sameBut regs after.parts (by decide) (by decide))⟩

/-- The first erroneous frame of a run. -/
theorem ssiFrame_first {s : State} {n : Fin 16} {l b h c : Bool} {v : BitVec 32} (mode : fbCounts s n = 5) (none' : s.fb[n].ssiErr = 0)
    (bad : (l || b || h) = true) : ssiFrame n l b h c v s =
      count (fbAddr n + 19) (putBit (fbStat n) 13 true (setFb n { s.fb[n] with ssiErr := 1 } s)) := by
  unfold ssiFrame
  rw [if_neg (by simp [mode])]
  dsimp only
  rw [bad, Bool.true_or, Bool.true_or, if_pos rfl, ssiError, none']
  rfl

/-! ### Mains channels -/

/-- An accepted rising edge counts one cycle. -/
theorem mainsCross_counted {s : State} {n : Fin 16} {t held : Nat} (mode : fbCounts s n = 4) (long : fbFilter s n ≤ held) :
    ∃ (x y : FbChan) (v : State) (wraps freq : Bool), fbUpdated n x s v ∧ sameCounts s.fb[n] x ∧ y.raw = wrapI 40 (v.fb[n].raw + 1) ∧ y.rep = y.raw ∧ y.tRise = some t ∧
      keeps [.sd] (putBit (fbStat n) 11 freq (putBit (fbStat n) 12 false (whenB wraps (putBit (fbStat n) 7 true) (setFb n y v))))
        (mainsCross n t held s) := by
  obtain ⟨v, levels, now, e⟩ := fbRise_accepted (b := s.fb[n].sb) (t := t) long
  rw [mainsCross, e]
  dsimp only
  rw [mode, if_neg (by decide)]
  exact ⟨_, _, fbSettled v n t, _, _, fbUpdated_advance _ levels, sameCounts_levels .., rfl, rfl, rfl, sdEdge_keeps _ _ _ _ _ _ (by decide) (keeps_refl _ _)⟩

/-- The frame of marks in the status of a channel that is changed. -/
theorem fb_marked {n : Fin 16} (y : FbChan) (s : State) : touches (· ∈ [fbStat n]) s (setFb n y s) :=
  touches_same (touches_refl _ s) (setFb_regs ..) (setFb_held ..)

theorem mainsCross_done {s : State} {n : Fin 16} {t held : Nat} (mode : fbCounts s n = 4) (long : fbFilter s n ≤ held) :
    ∃ u, mainsCross n t held s = u ∧ u.fb[n].raw = wrapI 40 (s.fb[n].raw + 1) ∧ u.fb[n].rep = u.fb[n].raw ∧
      u.fb[n].tRise = some t ∧ bit (regGet u (fbStat n)) 12 = false ∧ (∀ m : Fin 16, m ≠ n → u.fb[m] = s.fb[m]) ∧
      sameBut [.now, .freeCtr, .regs, .held, .sd, .fb, .fbo] s u ∧ regsBut [fbStat n] s u := by
  obtain ⟨x, y, v, wraps, freq, up, counts, raw, rep, rise, after⟩ := mainsCross_counted (t := t) mode long
  have same : touches (· ∈ [fbStat n]) s v := touches_of_sameBut up.parts (by decide) (by decide)
  generalize hm : whenB wraps (putBit (fbStat n) 7 true) (setFb n y v) = m at after
  have fb : (putBit (fbStat n) 11 freq (putBit (fbStat n) 12 false m)).fb = (setFb n y v).fb := by
    rw [putBit_fb, putBit_fb, ← hm]
    cases wraps
    · rfl
    · exact putBit_fb ..
  have regs : touches (· ∈ [fbStat n]) s (putBit (fbStat n) 11 freq (putBit (fbStat n) 12 false m)) := by
    rw [← hm]
    exact touches_putBit _ _ (own_fbStat n) (touches_putBit _ _ (own_fbStat n)
      (touches_whenB _ (fun _ => touches_putBit _ _ (own_fbStat n)) (touches_trans same (fb_marked y v))))
  have own := (fb_frame fb after n).trans (if_pos rfl)
  refine ⟨_, rfl, ?_, by rw [own, rep], by rw [own, rise], ?_, fun j other => ?_, sameBut_mono (by decide) (mainsCross_keeps n t held (fun _ => id) (keeps_refl _ s)).parts,
    regsBut_of_touches (touches_sameBut regs after.parts (by decide) (by decide))⟩
  · rw [own, raw, fbUpdated_own up, counts.raw]
  · rw [regGet_of_regs (after.parts.regs (by decide)), bit_putBit_other _ _ _ (by decide) (by decide), bit_putBit_same _ _ _ (by decide)]
  · rw [fb_frame fb after j, if_neg other, up.fb j, if_neg other]

theorem phaseLost_done {s : State} {n : Fin 16} (mode : fbCounts s n = 4) :
    ∃ u, phaseLost n s = u ∧ u.fb[n].ivals = [] ∧ u.fb[n].raw = s.fb[n].raw ∧ bit (regGet u (fbStat n)) 12 = true ∧
      (∀ m : Fin 16, m ≠ n → u.fb[m] = s.fb[m]) ∧ sameBut [.regs, .held, .fb] s u ∧ regsBut [fbStat n] s u := by
  have e : phaseLost n s = putBit (fbStat n) 12 true (setFb n { s.fb[n] with ivals := [] } s) := if_neg (by simp [mode])
  have fb (m : Fin 16) : (putBit (fbStat n) 12 true (setFb n { s.fb[n] with ivals := [] } s)).fb[m] =
      if m = n then { s.fb[n] with ivals := [] } else s.fb[m] := by rw [putBit_fb, fb_setFb]
  refine ⟨_, e, ?_, ?_, bit_putBit_same _ _ _ (by decide), fun m other => by rw [fb, if_neg other],
    (putBit_keeps _ _ _ (by decide) (setFb_keeps _ _ (by decide) (keeps_refl _ s))).parts,
    regsBut_of_touches (touches_putBit _ _ (own_fbStat n) (fb_marked _ s))⟩
  · rw [fb, if_pos rfl]
  · rw [fb, if_pos rfl]

/-! ### FACK and UNSEAT -/

theorem tbAddr_ne_fbStat (k n : Fin 16) : canonAddr (tbAddr k) ≠ canonAddr (fbStat n) := by
  rw [addr_fbStat, fbStat, fbAddr, tbAddr, canonAddr_below (by omega)]
  omega

theorem tb_disarmChannel (ch : Nat) (s : State) (k : Fin 16) :
    (disarmChannel ch s).sd.tb[k] = if tbKind s k = 1 ∧ tbSrc s k = ch then s.sd.tb[k].disarmed else s.sd.tb[k] := by
  rw [show disarmChannel ch s = forEach (tbsWhere s fun t => tbKind s t == 1 && tbSrc s t == ch) (fun k s => setTb k (Timebase.disarmed s.sd.tb[k]) s) s
    from rfl, (forEach_setTb _ (tbsWhere_nodup s _) Timebase.disarmed s).2.1 k]
  simp [mem_tbsWhere]

/-- UNSEAT clears SEATED and disarms the timebases of the channel. -/
theorem fbUnseat_spec (n : Fin 16) (s : State) : fbSeated (fbUnseat n s) n = false ∧
    (∀ b, b ≠ 19 → bitOf (fbUnseat n s) (fbStat n) b = bitOf s (fbStat n) b ∧ bit (regGet (fbUnseat n s) (fbStat n)) b = bit (regGet s (fbStat n)) b) ∧
    (fbUnseat n s).fb = s.fb ∧
    (∀ k : Fin 16, (fbUnseat n s).sd.tb[k] = if tbKind s k = 1 ∧ tbSrc s k = n then s.sd.tb[k].disarmed else s.sd.tb[k]) ∧
    touches (· ∈ [fbStat n]) s (fbUnseat n s) := by
  rw [fbUnseat]
  have disarm : keeps [.sd] (putBit (fbStat n) 19 false s) (disarmChannel n (putBit (fbStat n) 19 false s)) :=
    disarmChannel_keeps _ (by decide) (keeps_refl _ _)
  have regs := disarm.parts.regs (by decide)
  have held := disarm.parts.held (by decide)
  refine ⟨?_, fun b other => ⟨?_, ?_⟩, (disarm.parts.fb (by decide)).trans (putBit_fb ..), fun k => ?_,
    touches_sameBut (touches_putBit _ _ (own_fbStat n) (touches_refl _ s)) disarm.parts (by decide) (by decide)⟩
  · rw [fbSeated, bitOf_eq regs held, bitOf_putBit_same _ _ _ (by decide)]
  · rw [bitOf_eq regs held, bitOf_putBit_other _ _ _ (by decide) other]
  · rw [regGet_of_regs regs, bit_putBit_other _ _ _ (by decide) other]
  · have word : inForce (putBit (fbStat n) 19 false s) (tbAddr k) = inForce s (tbAddr k) := (sameReg_hwMod s _ (tbAddr_ne_fbStat k n)).2
    rw [tb_disarmChannel, tbKind, tbSrc, fldOf, fldOf, word, putBit_sd, tbKind, tbSrc, fldOf, fldOf]

/-- FACK clears FAULT, WARN and the mismatch count, and SEATED in a mode with a reference. -/
theorem fbAck_spec (n : Fin 16) (s : State) : fbFaulty (fbAck n s) n = false ∧ bit (regGet (fbAck n s) (fbStat n)) 17 = false ∧
    (fbAck n s).fb[n].mism = 0 ∧ (fbAck n s).fb[n].raw = s.fb[n].raw ∧ fbSeated (fbAck n s) n = (fbSeated s n && fbRef s n == 0) ∧
    (∀ m : Fin 16, m ≠ n → (fbAck n s).fb[m] = s.fb[m]) ∧ touches (· ∈ [fbStat n]) s (fbAck n s) := by
  have cleared : ∃ w, touches (· ∈ [fbStat n]) s w ∧ w.fb = (setFb n { s.fb[n] with mism := 0 } s).fb ∧ bitOf w (fbStat n) 18 = false ∧
      bit (regGet w (fbStat n)) 17 = false ∧ bitOf w (fbStat n) 19 = bitOf s (fbStat n) 19 ∧ fbAck n s = if fbRef s n = 0 then w else fbUnseat n w := by
    refine ⟨putBit (fbStat n) 17 false (putBit (fbStat n) 18 false (setFb n { s.fb[n] with mism := 0 } s)),
      touches_putBit _ _ (own_fbStat n) (touches_putBit _ _ (own_fbStat n) (fb_marked _ s)), by rw [putBit_fb, putBit_fb], ?_, bit_putBit_same _ _ _ (by decide), ?_, rfl⟩
    · rw [bitOf_putBit_other _ _ _ (by decide) (by decide), bitOf_putBit_same _ _ _ (by decide)]
    · rw [bitOf_putBit_other _ _ _ (by decide) (by decide), bitOf_putBit_other _ _ _ (by decide) (by decide), bitOf_eq (setFb_regs ..) (setFb_held ..)]
  obtain ⟨w, regs, fb, faulty, warn, seated, e⟩ := cleared
  have fbw (m : Fin 16) : w.fb[m] = if m = n then { s.fb[n] with mism := 0 } else s.fb[m] := by rw [fb, fb_setFb]
  rw [e]
  by_cases ref : fbRef s n = 0
  · rw [if_pos ref]
    exact ⟨faulty, warn, by rw [fbw, if_pos rfl], by rw [fbw, if_pos rfl], by simpa [ref, fbSeated] using seated, fun m other => by rw [fbw, if_neg other], regs⟩
  · obtain ⟨unseated, status, fb', -, regs'⟩ := fbUnseat_spec n w
    rw [if_neg ref]
    exact ⟨(status 18 (by decide)).1.trans faulty, (status 17 (by decide)).2.trans warn, by rw [fb', fbw, if_pos rfl], by rw [fb', fbw, if_pos rfl],
      by simp [ref, unseated], fun m other => by rw [fb', fbw, if_neg other], touches_trans regs regs'⟩

/-- Settles O4: a frame or a zero crossing changes its channel and its status alone; FACK and UNSEAT write the status, and UNSEAT disarms. -/
theorem ssiMainsChannelsAndFaultAcks : Obligations.SsiMainsChannelsAndFaultAcks := by
  refine ⟨⟨fun s n v p mode prev plain small => ?_, fun s n l b h c v mode none' bad => ?_, fun s n t held mode long => ⟨?_, ?_⟩⟩,
    fun s who n => ⟨⟨_, rfl, ?_⟩, ⟨_, rfl, ?_⟩⟩⟩
  · obtain ⟨u, e, done⟩ := ssiFrame_sound_done mode prev plain small
    exact ⟨u, congrArg Host.Outcome.next e, done⟩
  · have fb (m : Fin 16) : (count (fbAddr n + 19) (putBit (fbStat n) 13 true (setFb n { s.fb[n] with ssiErr := 1 } s))).fb[m] =
        if m = n then { s.fb[n] with ssiErr := 1 } else s.fb[m] := by rw [count_fb, putBit_fb, fb_setFb]
    have apart : canonAddr (fbStat n) ≠ canonAddr (fbAddr n + 19) := by rw [addr_fbStat, addr_fbErr, fbStat]; omega
    have own : canonAddr (fbAddr n + 19) ∈ [fbStat n, fbAddr n + 19] := by rw [addr_fbErr]; exact .tail _ (.head _)
    refine ⟨_, congrArg Host.Outcome.next (ssiFrame_first mode none' bad), by rw [fb, if_pos rfl], by rw [fb, if_pos rfl], by rw [fb, if_pos rfl], ?_, ?_,
      fun m other => by rw [fb, if_neg other],
      (count_keeps _ (by decide) (putBit_keeps _ _ _ (by decide) (setFb_keeps _ _ (by decide) (keeps_refl _ s)))).parts,
      regsBut_of_touches (touches_count own (touches_putBit _ _ (by rw [addr_fbStat]; exact .head _) (touches_mono (fb_marked _ s) (by simp))))⟩
    · rw [regGet_count_other _ apart, bit_putBit_same _ _ _ (by decide)]
    · rw [regGet_count_same, regGet_putBit, if_neg apart.symm, regGet_of_regs (setFb_regs ..)]
  · obtain ⟨u, e, raw, rep, rise, clear, others, parts, regs⟩ := mainsCross_done (s := advance t s) (t := t) mode long
    exact ⟨u, congrArg Host.Outcome.next e, raw, rep, rise, clear, others,
      sameBut_trans (advance_keeps _ (by decide) (keeps_refl _ s)).parts parts, regs⟩
  · obtain ⟨u, e, done⟩ := phaseLost_done mode
    exact ⟨u, congrArg Host.Outcome.next e, done⟩
  · obtain ⟨faulty, warn, mism, raw, seated, others, regs⟩ := fbAck_spec n (armLock who s)
    exact ⟨faulty, warn, mism, raw, seated, others, (fbAck_keeps n (by decide) (armLock_keeps who (by decide) (keeps_refl _ s))).parts, regs⟩
  · obtain ⟨unseated, -, -, tb, regs⟩ := fbUnseat_spec n (armLock who s)
    refine ⟨unseated, fun k kind src => ?_, fun k other => ?_, (fbUnseat_keeps n (by decide) (armLock_keeps who (by decide) (keeps_refl _ s))).parts, regs⟩
    · exact congrArg Timebase.armed ((tb k).trans (if_pos ⟨kind, src⟩))
    · exact (tb k).trans (if_neg (not_and_or.mpr other))

end Sys2Proof.Machine
end

