-- ==== Sys2Proof/Proofs/GatehouseGroups.lean ====
section
/-! PROOFS. Gatehouse's groups and brakes (09 R258, R259, R262, R272, R288): what a change of a group's condition and a demand do to the groups, and that no brake of a group in STO is released. -/

namespace Sys2Proof.Machine

variable {A : Nat → Prop} {L : List Part} {o s t : State}

/-! ### Frames read at a register -/

theorem touches_of_regsButEvents {as : List Nat} (h : regsButEvents as s t) : touches (orEvents as) s t := fun a ha =>
  h a (fun m => ha (.inl m)) (by simpa using fun e => ha (.inr e))

theorem not_orEvents {as : List Nat} {a : Nat} (h : a ∉ as) (h' : eventReg a = false) : ¬orEvents as a := fun k =>
  k.elim h fun e => by rw [h'] at e; cases e

theorem orEvents_mono {as bs : List Nat} (h : ∀ a ∈ as, a ∈ bs) (a : Nat) (k : orEvents as a) : orEvents bs a := k.imp_left (h a)

theorem touches.fldOf (h : touches A s t) {a : Nat} (ha : ¬A (canonAddr a)) (hi lo : Nat) : fldOf t a hi lo = fldOf s a hi lo := by
  simp only [Machine.fldOf, (h a ha).2]

theorem touches.bitOf (h : touches A s t) {a : Nat} (ha : ¬A (canonAddr a)) (n : Nat) : bitOf t a n = bitOf s a n := by
  simp only [Machine.bitOf, (h a ha).2]

theorem touches.regGet (h : touches A s t) {a : Nat} (ha : ¬A (canonAddr a)) : regGet t a = regGet s a := (h a ha).1

/-! ### Setting brakes -/

/-- Gatehouse's own state is the same but for the brake outputs and those forced off. -/
structure brakesOnly (s t : State) : Prop where
  frame : onlyGatehouse s t
  gh : t.gh = { s.gh with brk := t.gh.brk, brkForced := t.gh.brkForced }

theorem brakesOnly_refl (s : State) : brakesOnly s s := ⟨onlyGatehouse_refl s, rfl⟩

theorem brakesOnly_trans (h : brakesOnly o s) (k : brakesOnly s t) : brakesOnly o t :=
  ⟨onlyGatehouse_trans h.frame k.frame, by rw [k.gh, h.gh]⟩

theorem brakesOnly_events (h : brakesOnly o s) (k : onlyEvents s t) : brakesOnly o t :=
  ⟨onlyGatehouse_events h.frame k, by rw [k.parts.gh (by decide)]; exact h.gh⟩

theorem brakesOnly_raiseEvent {n : Nat} (hn : n < 0x80) (h : brakesOnly o s) : brakesOnly o (raiseEvent n s) :=
  brakesOnly_events h (raiseEvent_onlyEvents hn (onlyEvents_refl _))

theorem brakesOnly_set (b f : BitVec 8) (s : State) : brakesOnly s { s with gh := { s.gh with brk := b, brkForced := f } } :=
  ⟨onlyGatehouse_gh _ (onlyGatehouse_refl s), rfl⟩

theorem brakesOnly_updateBrakes (h : brakesOnly o s) : brakesOnly o (updateBrakes s) := by
  refine upTo_induct _ 8 _ (fun n _ s h => ?_) h
  extract_lets now b
  split
  · exact h
  · exact brakesOnly_events (brakesOnly_trans h (brakesOnly_set _ _ _)) (bvPin_onlyEvents _ _ (onlyEvents_refl _))

theorem brakesOnly_forceBrake (n : Nat) (h : brakesOnly o s) : brakesOnly o (forceBrake n s) := by
  refine brakesOnly_trans h ⟨forceBrake_onlyGatehouse n (onlyGatehouse_refl s), ?_⟩
  unfold forceBrake
  extract_lets s1
  split
  · rfl
  · rw [putBit_gh]

theorem brakesOnly_forceBrakes (g : Fin 4) (h : brakesOnly o s) : brakesOnly o (forceBrakes g s) :=
  brakesOnly_updateBrakes (upTo_induct _ 8 _ (fun n _ _ => whenB_induct _ _ _ fun _ => brakesOnly_forceBrake n) h)

theorem brakesOnly.grp (h : brakesOnly s t) : t.gh.grp = s.gh.grp := by rw [h.gh]

/-! ### A change of a group's condition -/

/-- A group that takes a condition (R258). -/
def condSet (c : GrpCond) (x : Group) : Group :=
  if x.cond = c then x else { x with cond := c, brakesSet := c == .sto, stopNew := c == .ss1, pulse := 0 }

@[simp] theorem condSet_cond (c : GrpCond) (x : Group) : (condSet c x).cond = c := by
  unfold condSet; split <;> simp_all

@[simp] theorem condSet_causes (c : GrpCond) (x : Group) : (condSet c x).causes = x.causes := by
  unfold condSet; split <;> rfl

theorem setGroup_self (g : Fin 4) (s : State) : setGroup g s.gh.grp[g] s = s := by
  unfold setGroup
  rw [show s.gh.grp.set g s.gh.grp[g] = s.gh.grp from Vector.set_getElem_self _]

theorem grp_setGroup (g h : Fin 4) (x : Group) (s : State) : (setGroup g x s).gh.grp[h] = if h = g then x else s.gh.grp[h] := by
  show (s.gh.grp.set g x)[h.val] = _
  rw [Vector.getElem_set]
  by_cases e : h = g
  · rw [if_pos e, if_pos (by rw [e])]
  · rw [if_neg e, if_neg fun k => e (Fin.ext k.symm)]; rfl

theorem setCond_brakesOnly (g : Fin 4) (c : GrpCond) (s : State) :
    brakesOnly (setGroup g (condSet c s.gh.grp[g]) s) (setCond g c s) := by
  unfold setCond condSet
  extract_lets x x' s1
  by_cases e : x.cond = c
  · rw [if_pos e, if_pos e, setGroup_self]; exact brakesOnly_refl s
  · rw [if_neg e, if_neg e]
    have h1 : brakesOnly (setGroup g x' s) s1 := brakesOnly_updateBrakes (brakesOnly_raiseEvent (by omega) (brakesOnly_refl _))
    split
    · exact brakesOnly_forceBrakes g h1
    · exact h1

theorem grp_setCond (g h : Fin 4) (c : GrpCond) (s : State) :
    (setCond g c s).gh.grp[h] = if h = g then condSet c s.gh.grp[g] else s.gh.grp[h] := by
  rw [(setCond_brakesOnly g c s).grp, grp_setGroup]

/-! ### Changes of the groups alone -/

/-- Gatehouse's own state is the same but for the groups and the brakes. -/
structure groupsOnly (s t : State) : Prop where
  frame : onlyGatehouse s t
  gh : t.gh = { s.gh with grp := t.gh.grp, brk := t.gh.brk, brkForced := t.gh.brkForced }

theorem groupsOnly_refl (s : State) : groupsOnly s s := ⟨onlyGatehouse_refl s, rfl⟩

theorem groupsOnly_trans (h : groupsOnly o s) (k : groupsOnly s t) : groupsOnly o t :=
  ⟨onlyGatehouse_trans h.frame k.frame, by rw [k.gh, h.gh]⟩

theorem groupsOnly_setGroup (g : Fin 4) (x : Group) (s : State) : groupsOnly s (setGroup g x s) :=
  ⟨onlyGatehouse_setGroup g x (onlyGatehouse_refl s), rfl⟩

theorem brakesOnly.groupsOnly (h : brakesOnly s t) : groupsOnly s t := ⟨h.frame, by rw [h.gh]⟩

theorem groupsOnly_setCond (g : Fin 4) (c : GrpCond) (s : State) : groupsOnly s (setCond g c s) :=
  groupsOnly_trans (groupsOnly_setGroup _ _ _) (setCond_brakesOnly g c s).groupsOnly

theorem groupsOnly.touches (h : groupsOnly s t) : touches (orEvents [0xF34007]) s t := touches_of_regsButEvents h.frame.regs

/-! ### The brake outputs -/

theorem brkGroup_of_touches (h : touches A s t) (ha : ¬A 0xF34008) (n : Nat) : brkGroup t n = brkGroup s n := by
  unfold brkGroup; rw [h.fldOf (show ¬A (canonAddr 0xF34008) from ha)]

/-- The brake of a group in STO is set (R259). -/
theorem brkOut_of_sto {g : Fin 4} {n : Nat} (hg : brkGroup s n = g) (h : s.gh.grp[g].cond = .sto) : brkOut s n = false := by
  subst hg
  have rel : grpReleases s (brkGroup s n) = false := by unfold grpReleases; rw [h]; rfl
  unfold brkOut
  rw [rel, Bool.and_false]; rfl

theorem safeOffOn_of_sto {g : Fin 4} (h : s.gh.grp[g].cond = .sto) : safeOffOn s g = false := by
  unfold safeOffOn; rw [h]; rfl

/-! ### Demands -/

/-- What holds before a bounded loop and is carried from each step to the next holds after it. -/
theorem upTo_steps (P : Nat → State → Prop) (n : Nat) (f : Nat → State → State) (h0 : P 0 s) (hf : ∀ i < n, ∀ t, P i t → P (i + 1) (f i t)) :
    P n (upTo n f s) := by
  induction n with
  | zero => exact h0
  | succ n ih =>
    have e : upTo (n + 1) f s = f n (upTo n f s) := by simp only [upTo, List.range_succ, List.foldl_append, List.foldl_cons, List.foldl_nil]
    rw [e]
    exact hf n (by omega) _ (ih fun i hi => hf i (by omega))

/-- The condition that a demand leads a group to (R258, R259). -/
def demandedCond (sto : Bool) (c : GrpCond) : GrpCond := if sto then .sto else if c = .energised then .ss1 else c

/-- A group that a demand has reached: its cause is noted and its condition follows. -/
structure demanded (sto : Bool) (cause : Cause) (x y : Group) : Prop where
  cond : y.cond = demandedCond sto x.cond
  causes : ∀ c, c ∈ y.causes ↔ c ∈ x.causes ∨ c = cause

theorem demanded_condSet (s : State) (sto : Bool) (cause : Cause) (x : Group) :
    demanded sto cause x (condSet (demandedCond sto x.cond) (withCause s cause x)) where
  cond := condSet_cond _ _
  causes c := by
    rw [condSet_causes]
    unfold withCause
    by_cases h : cause ∈ x.causes
    · simp only [List.contains_iff_mem, h, if_true]
      exact ⟨.inl, fun k => k.elim id fun e => e ▸ h⟩
    · simp [h]

theorem setGroup_setGroup (g : Fin 4) (x y : Group) (s : State) : setGroup g y (setGroup g x s) = setGroup g y s := by
  unfold setGroup
  rw [show (s.gh.grp.set g x).set g y = s.gh.grp.set g y from Vector.set_set ..]

/-- A demand on one group but a command's, which takes nothing from a group in STO. -/
theorem groupDemand_brakesOnly (g : Fin 4) (sto : Bool) {cause : Cause} (hc : cause ≠ .command) (s : State) :
    brakesOnly (setGroup g (condSet (demandedCond sto s.gh.grp[g].cond) (withCause s cause s.gh.grp[g])) s) (groupDemand g sto cause s) := by
  have set : ∀ c, brakesOnly (setGroup g (condSet c (withCause s cause s.gh.grp[g])) s) (setCond g c (setGroup g (withCause s cause s.gh.grp[g]) s)) := fun c => by
    have k := setCond_brakesOnly g c (setGroup g (withCause s cause s.gh.grp[g]) s)
    rwa [grp_setGroup, if_pos rfl, setGroup_setGroup] at k
  unfold groupDemand demandedCond
  cases sto with
  | true => simpa using set .sto
  | false =>
    simp only [Bool.false_eq_true, if_false]
    by_cases e : s.gh.grp[g].cond = .energised
    · rw [if_pos e, if_pos e]; exact set .ss1
    · rw [if_neg e, if_neg e, if_neg fun k => hc k.2]
      have same : condSet s.gh.grp[g].cond (withCause s cause s.gh.grp[g]) = withCause s cause s.gh.grp[g] := if_pos rfl
      rw [same]; exact brakesOnly_refl _

/-- A demand on the groups of a mask reaches those and no other. -/
structure maskDemanded (mask : Nat) (sto : Bool) (cause : Cause) (s t : State) : Prop where
  only : groupsOnly s t
  hit : ∀ g : Fin 4, mask / 2 ^ g.val % 2 = 1 → demanded sto cause s.gh.grp[g] t.gh.grp[g]
  miss : ∀ g : Fin 4, mask / 2 ^ g.val % 2 = 0 → t.gh.grp[g] = s.gh.grp[g]

theorem maskDemand_spec (mask : Nat) (sto : Bool) {cause : Cause} (hc : cause ≠ .command) (s : State) :
    maskDemanded mask sto cause s (maskDemand mask sto cause s) := by
  have loop := upTo_steps (s := s) (fun i t => groupsOnly s t ∧ ∀ g : Fin 4,
      if g.val < i ∧ mask / 2 ^ g.val % 2 = 1 then demanded sto cause s.gh.grp[g] t.gh.grp[g] else t.gh.grp[g] = s.gh.grp[g])
    4 (fun g s => if mask / 2 ^ g % 2 = 1 then groupDemand (Fin.ofNat 4 g) sto cause s else s)
    ⟨groupsOnly_refl s, fun g => by rw [if_neg (by omega)]⟩
    (fun i hi t ⟨only, ih⟩ => by
      have hv : (Fin.ofNat 4 i).val = i := Nat.mod_eq_of_lt hi
      by_cases hm : mask / 2 ^ i % 2 = 1
      · rw [if_pos hm]
        have k := groupDemand_brakesOnly (Fin.ofNat 4 i) sto hc t
        refine ⟨groupsOnly_trans only (groupsOnly_trans (groupsOnly_setGroup _ _ _) k.groupsOnly), fun g => ?_⟩
        rw [k.grp, grp_setGroup]
        by_cases hg : g = Fin.ofNat 4 i
        · subst hg
          have old := ih (Fin.ofNat 4 i)
          rw [if_neg (by omega)] at old
          rw [if_pos rfl, if_pos ⟨by omega, by rw [hv]; exact hm⟩, old]
          exact demanded_condSet _ _ _ _
        · have ne : g.val ≠ i := fun e => hg (Fin.ext (e.trans hv.symm))
          rw [if_neg hg]
          simpa only [show (g.val < i + 1 ∧ mask / 2 ^ g.val % 2 = 1) ↔ (g.val < i ∧ mask / 2 ^ g.val % 2 = 1) by omega] using ih g
      · rw [if_neg hm]
        refine ⟨only, fun g => ?_⟩
        have iff : (g.val < i + 1 ∧ mask / 2 ^ g.val % 2 = 1) ↔ (g.val < i ∧ mask / 2 ^ g.val % 2 = 1) :=
          ⟨fun ⟨a, b⟩ => ⟨by rcases Nat.lt_succ_iff_lt_or_eq.mp a with a | a; exact a; exact absurd (a ▸ b) hm, b⟩, fun ⟨a, b⟩ => ⟨by omega, b⟩⟩
        simpa only [iff] using ih g)
  obtain ⟨only, groups⟩ := loop
  refine ⟨only, fun g hg => ?_, fun g hg => ?_⟩
  · have k := groups g
    rwa [if_pos ⟨g.isLt, hg⟩] at k
  · have k := groups g
    rwa [if_neg (by omega)] at k

/-! ### The demand inputs -/

theorem getLsbD_one_shift : ∀ d n : Fin 8, (1#8 <<< d.val).getLsbD n.val = decide (n.val = d.val) := by decide

theorem getLsbD_setBit8 (m : BitVec 8) (b : Bool) {d n : Nat} (hd : d < 8) (hn : n < 8) :
    (setBit8 m d b).getLsbD n = if n = d then b else m.getLsbD n := by
  have one : (1#8 <<< d).getLsbD n = decide (n = d) := getLsbD_one_shift ⟨d, hd⟩ ⟨n, hn⟩
  unfold setBit8
  cases b
  · rw [if_neg (by simp), BitVec.getLsbD_and, BitVec.getLsbD_not, one]
    by_cases e : n = d <;> simp [e, hd, hn]
  · rw [if_pos rfl, BitVec.getLsbD_or, one]
    by_cases e : n = d <;> simp [e]

theorem canonAddr_demand {d : Nat} (hd : d < 8) : canonAddr (0xF34010 + d) = 0xF34010 + d := by
  simp only [canonAddr]; split <;> omega

theorem demandNow_of (h : touches (orEvents [0xF34007]) s t) (hsys : t.sys = s.sys) {d : Nat} (hd : d < 8) : demandNow t d = demandNow s d := by
  have ha : ¬orEvents [0xF34007] (canonAddr (0xF34010 + d)) := by
    rw [canonAddr_demand hd]; simp [orEvents, eventReg]; omega
  unfold demandNow demandPins
  rw [h.fldOf ha, h.bitOf ha, hsys]

/-- The groups a demand input reaches (GMASK), whether it is enabled, and whether its demand is one for STO (R272). -/
def demandMask (s : State) (d : Nat) : Nat := fldOf s (0xF34010 + d) 15 12
def demandEnabled (s : State) (d : Nat) : Bool := bitOf s (0xF34010 + d) 19
def demandSto (s : State) (d : Nat) : Bool := !bitOf s (0xF34010 + d) 17

/-- A demand input holds a demand that a discrepancy began until its pins agree (R272). -/
def demandHeld (s : State) (d : Nat) : Bool := demandEnabled s d && (s.gh.disc.getLsbD d && (demandNow s d).2)

/-- A sample finds a demand present at an enabled input that shows or holds one. -/
def demandPresent (s : State) (d : Nat) : Bool := demandEnabled s d && ((demandNow s d).1 || demandHeld s d)

/-- One demand input is sampled. -/
structure demandSampled (d : Nat) (s t : State) : Prop where
  frame : onlyGatehouse s t
  demand : t.gh.demand = setBit8 s.gh.demand d (demandPresent s d)
  disc : t.gh.disc = setBit8 s.gh.disc d (demandHeld s d)
  hit : demandPresent s d = true → ∀ g : Fin 4, demandMask s d / 2 ^ g.val % 2 = 1 → demanded (demandSto s d) (.demand d) s.gh.grp[g] t.gh.grp[g]
  miss : ∀ g : Fin 4, (demandPresent s d = false ∨ demandMask s d / 2 ^ g.val % 2 = 0) → t.gh.grp[g] = s.gh.grp[g]

theorem sampleDemand_spec (d : Nat) (s : State) : demandSampled d s (sampleDemand d s) := by
  unfold sampleDemand
  by_cases he : bitOf s (0xF34010 + d) 19 = true
  · have hp : demandPresent s d = ((demandNow s d).1 || (s.gh.disc.getLsbD d && (demandNow s d).2)) := by
      simp [demandPresent, demandHeld, demandEnabled, he]
    have hh : demandHeld s d = (s.gh.disc.getLsbD d && (demandNow s d).2) := by simp [demandHeld, demandEnabled, he]
    rw [if_neg (by simp [he])]
    split
    rename_i dem dis hd
    simp only [hd] at hp hh
    extract_lets held _ s1
    have eh : held = demandHeld s d := hh.symm
    rw [show (dem || held) = demandPresent s d from hp.symm]
    have k := maskDemand_spec (demandMask s d) (demandSto s d) (cause := .demand d) (by simp) s1
    have frame : onlyGatehouse s s1 := onlyGatehouse_gh _ (onlyGatehouse_refl s)
    have e1 : s1.gh.demand = setBit8 s.gh.demand d (demandPresent s d) := by rw [hp]
    have e2 : s1.gh.disc = setBit8 s.gh.disc d (demandHeld s d) := by rw [← eh]
    cases hq : demandPresent s d with
    | true =>
      rw [if_pos rfl]
      exact ⟨onlyGatehouse_trans frame k.only.frame, (congrArg Gatehouse.demand k.only.gh).trans e1,
        (congrArg Gatehouse.disc k.only.gh).trans e2, fun _ => k.hit, fun g hg => k.miss g (hg.resolve_left (by simp [hq]))⟩
    | false =>
      rw [if_neg (by simp)]
      exact ⟨frame, e1, e2, fun e => (by simp [hq] at e), fun _ _ => rfl⟩
  · have hd : demandEnabled s d = false := by simpa [demandEnabled] using he
    rw [if_pos (by simpa using he)]
    exact ⟨onlyGatehouse_gh _ (onlyGatehouse_refl s), by simp [demandPresent, hd], by simp [demandHeld, hd],
      fun e => (by simp [demandPresent, hd] at e), fun _ _ => rfl⟩

/-- A group that has only gone further from energised: once in STO it stays, and no cause is lost. -/
structure sunk (x y : Group) : Prop where
  energised : y.cond = .energised → x.cond = .energised
  sto : x.cond = .sto → y.cond = .sto
  causes : ∀ c ∈ x.causes, c ∈ y.causes

theorem sunk_refl (x : Group) : sunk x x := ⟨id, id, fun _ => id⟩

theorem demanded.sunk {sto : Bool} {cause : Cause} {x y : Group} (h : demanded sto cause x y) : sunk x y where
  energised e := by
    rw [h.cond] at e
    unfold demandedCond at e
    cases sto with
    | true => cases e
    | false =>
      by_cases k : x.cond = .energised
      · exact k
      · simp [k] at e
  sto e := by rw [h.cond, e]; cases sto <;> rfl
  causes c hc := (h.causes c).mpr (.inl hc)

theorem demanded.notEnergised {sto : Bool} {cause : Cause} {x y : Group} (h : demanded sto cause x y) : y.cond ≠ .energised := by
  rw [h.cond]
  unfold demandedCond
  cases sto with
  | true => simp
  | false => by_cases k : x.cond = .energised <;> simp [k]

theorem demandSampled.sunk {d : Nat} (h : demandSampled d s t) (g : Fin 4) : sunk s.gh.grp[g] t.gh.grp[g] := by
  rcases Nat.mod_two_eq_zero_or_one (demandMask s d / 2 ^ g.val) with m | m
  · rw [h.miss g (.inr m)]; exact sunk_refl _
  · cases hp : demandPresent s d with
    | true => exact (h.hit hp g m).sunk
    | false => rw [h.miss g (.inl hp)]; exact sunk_refl _

theorem demandFields_of (h : onlyGatehouse s t) {d : Nat} (hd : d < 8) :
    demandMask t d = demandMask s d ∧ demandEnabled t d = demandEnabled s d ∧ demandSto t d = demandSto s d ∧ demandNow t d = demandNow s d := by
  have k := touches_of_regsButEvents h.regs
  have ha : ¬orEvents [0xF34007] (canonAddr (0xF34010 + d)) := by
    rw [canonAddr_demand hd]; simp [orEvents, eventReg]; omega
  unfold demandMask demandEnabled demandSto
  rw [k.fldOf ha, k.bitOf ha, k.bitOf ha]
  exact ⟨rfl, rfl, rfl, demandNow_of k (h.parts.sys (by decide)) hd⟩

/-- The demand inputs below n are sampled. -/
structure demandsSampled (n : Nat) (s t : State) : Prop where
  frame : onlyGatehouse s t
  disc : ∀ d, n ≤ d → d < 8 → t.gh.disc.getLsbD d = s.gh.disc.getLsbD d
  demand : ∀ d, d < n → t.gh.demand.getLsbD d = demandPresent s d
  hit : ∀ d, d < n → demandPresent s d = true → ∀ g : Fin 4, demandMask s d / 2 ^ g.val % 2 = 1 →
    t.gh.grp[g].cond ≠ .energised ∧ (demandSto s d = true → t.gh.grp[g].cond = .sto) ∧ Cause.demand d ∈ t.gh.grp[g].causes
  miss : (∀ d, d < n → demandPresent s d = false) → ∀ g : Fin 4, t.gh.grp[g] = s.gh.grp[g]

theorem demandsSampled_next {n : Nat} (hn : n < 8) (h : demandsSampled n s t) : demandsSampled (n + 1) s (sampleDemand n t) := by
  have k := sampleDemand_spec n t
  obtain ⟨em, ee, es, enow⟩ := demandFields_of h.frame hn
  have eh : demandHeld t n = demandHeld s n := by unfold demandHeld; rw [ee, enow, h.disc n (Nat.le_refl n) hn]
  have ep : demandPresent t n = demandPresent s n := by unfold demandPresent; rw [ee, enow, eh]
  refine ⟨onlyGatehouse_trans h.frame k.frame, fun d hd hd' => ?_, fun d hd => ?_, fun d hd hp g hm => ?_, fun q g => ?_⟩
  · rw [k.disc, getLsbD_setBit8 _ _ hn hd', if_neg (by omega)]
    exact h.disc d (by omega) hd'
  · rw [k.demand, getLsbD_setBit8 _ _ hn (by omega), ep]
    by_cases e : d = n
    · rw [if_pos e, e]
    · rw [if_neg e]; exact h.demand d (by omega)
  · by_cases e : d = n
    · subst e
      have hit := k.hit (ep.trans hp) g (em ▸ hm)
      refine ⟨hit.notEnergised, fun st => ?_, (hit.causes _).mpr (.inr rfl)⟩
      rw [hit.cond, es, st]; rfl
    · obtain ⟨h1, h2, h3⟩ := h.hit d (by omega) hp g hm
      have sk := k.sunk g
      exact ⟨fun e => h1 (sk.energised e), fun st => sk.sto (h2 st), sk.causes _ h3⟩
  · rw [k.miss g (.inl (ep.trans (q n (by omega))))]
    exact h.miss (fun d hd => q d (by omega)) g

theorem demandInputs_sampled (s : State) : demandsSampled 8 s (upTo 8 sampleDemand s) :=
  upTo_steps (demandsSampled · s) 8 sampleDemand
    ⟨onlyGatehouse_refl s, fun _ _ _ => rfl, fun d hd => absurd hd (by omega), fun d hd => absurd hd (by omega), fun _ _ => rfl⟩
    fun _ hi _ => demandsSampled_next hi

/-! ### The ends of a safe stop 1 -/

/-- A group whose safe stop 1 ends is in STO, its brakes set. -/
theorem setCond_sto_spec (g : Fin 4) (s : State) :
    (setCond g .sto s).gh.grp[g].cond = .sto ∧ (setCond g .sto s).gh.grp[g].causes = s.gh.grp[g].causes ∧
      (∀ n, n < 8 → brkGroup s n = g → brkOut (setCond g .sto s) n = false) ∧
      (∀ h : Fin 4, h ≠ g → (setCond g .sto s).gh.grp[h] = s.gh.grp[h]) ∧
      onlyGatehouse s (setCond g .sto s) := by
  have cond : (setCond g .sto s).gh.grp[g].cond = .sto := by rw [grp_setCond, if_pos rfl, condSet_cond]
  have only := (groupsOnly_setCond g .sto s)
  refine ⟨cond, by rw [grp_setCond, if_pos rfl, condSet_causes], fun n _ hg => brkOut_of_sto ?_ cond, fun h hh => by rw [grp_setCond, if_neg hh], only.frame⟩
  rw [brkGroup_of_touches only.touches (by simp [orEvents, eventReg]), hg]

/-- Settles O6. -/
theorem safeStopsEndAndDemandInputsAct : Obligations.SafeStopsEndAndDemandInputsAct := by
  unfold Obligations.SafeStopsEndAndDemandInputsAct
  refine ⟨fun s g cmd hc hcmd => ?_, fun s => ?_⟩
  · have e : exec cmd s = .next (setCond g .sto s) := by
      rcases hcmd with ⟨rfl, hb⟩ | rfl
      · exact congrArg Host.Outcome.next (if_pos ⟨hc, hb⟩)
      · exact congrArg Host.Outcome.next (if_pos hc)
    obtain ⟨cond, causes, brakes, others, only⟩ := setCond_sto_spec g s
    exact ⟨_, e, cond, causes, brakes, others, sameBut_mono (by decide) only.parts, only.regs⟩
  · have k := demandInputs_sampled s
    refine ⟨_, rfl, fun d he hd => ?_, fun quiet => ?_, sameBut_mono (by decide) k.frame.parts, k.frame.regs⟩
    · have hp : demandPresent s d = true := by simp [demandPresent, demandEnabled, he, hd]
      refine ⟨(k.demand d d.isLt).trans hp, fun g hm => ?_⟩
      obtain ⟨h1, h2, h3⟩ := k.hit d d.isLt hp g hm
      exact ⟨h1, fun st => h2 (by simp [demandSto, st]), h3⟩
    · have none : ∀ d, d < 8 → demandPresent s d = false := fun d hd => by
        cases he : demandEnabled s d with
        | false => simp [demandPresent, he]
        | true =>
          obtain ⟨q1, q2⟩ := quiet ⟨d, hd⟩ he
          have q1' : (demandNow s d).1 = false := q1
          have q2' : s.gh.disc.getLsbD d = false := q2
          simp [demandPresent, demandHeld, he, q1', q2']
      refine ⟨Vector.ext fun i hi => k.miss none ⟨i, hi⟩, BitVec.eq_of_getLsbD_eq fun i hi => ?_⟩
      rw [k.demand i hi, none i hi]
      simp

/-! ### Test pulses and the brake read-back -/

theorem bvPin_gh (n : Nat) (b : Bool) (s : State) : (bvPin n b s).gh = s.gh :=
  (bvPin_keeps (L := [.bv]) n b (by decide) (keeps_refl _ s)).parts.gh (by decide)

/-- Settles O7. -/
theorem testPulsesAndReadBack : Obligations.TestPulsesAndReadBack := by
  unfold Obligations.TestPulsesAndReadBack
  refine ⟨fun s g low => ⟨testPulse g low s, rfl, ?_⟩, fun s g => ⟨testPulseEnd g true s, rfl, ?_⟩, fun s n level => ⟨brkFbChange n level s, rfl, ?_⟩⟩
  · have frame := (testPulse_keeps (L := [.gh]) g low (by decide) (keeps_refl _ s)).parts
    by_cases hp : testPulsed s g = true ∧ s.gh.grp[g].pulse = 0
    · have e : testPulse g low s = setGroup g { s.gh.grp[g] with pulse := if low then 2 else 1 } s := if_pos (by simpa using hp)
      have hb := hp.1
      simp only [testPulsed, Bool.and_eq_true, beq_iff_eq, Bool.not_eq_true'] at hb
      obtain ⟨⟨⟨on, energised⟩, active⟩, overlap⟩ := hb
      refine ⟨fun _ _ _ _ _ => by rw [e, grp_setGroup, if_pos rfl], fun no => ?_, by rw [e, grp_setGroup, if_pos rfl],
        fun h hh => by rw [e, grp_setGroup, if_neg hh], frame⟩
      rcases no with c | c | c | ⟨x, hx, hy⟩
      · exact absurd energised c
      · rw [on] at c; cases c
      · rw [active] at c; cases c
      · rw [show s.pr.exch = some x from hx] at overlap
        rw [Option.any_some, hy] at overlap; cases overlap
    · have e : testPulse g low s = s := if_neg (by simpa using hp)
      rw [e]
      refine ⟨fun energised on active noOverlap pulse => absurd ⟨?_, pulse⟩ hp, fun _ => rfl, rfl, fun _ _ => rfl, sameBut_refl _ s⟩
      have overlap : (s.pr.exch.any fun x => x.overlap) = false := by
        cases hx : s.pr.exch with
        | none => rfl
        | some x => exact noOverlap x hx
      simp only [testPulsed, on, active, overlap, energised]; rfl
  · by_cases hp : s.gh.grp[g].pulse = 0
    · have e : testPulseEnd g true s = s := if_pos hp
      rw [e]; exact ⟨hp, rfl, fun _ _ => rfl, sameBut_refl _ s⟩
    · have e : testPulseEnd g true s = setGroup g { s.gh.grp[g] with pulse := 0 } s := if_neg hp
      rw [e]
      exact ⟨by rw [grp_setGroup, if_pos rfl], by rw [grp_setGroup, if_pos rfl], fun h hh => by rw [grp_setGroup, if_neg hh],
        (setGroup_keeps (L := [.gh]) _ _ (by decide) (keeps_refl _ s)).parts⟩
  · have frame := (brkFbChange_keeps (L := [.gh, .bv]) n level (by decide) (keeps_refl _ s)).parts
    by_cases hl : s.gh.brkFb.getLsbD n.val = level
    · have e : brkFbChange n level s = s := if_pos (by simpa using hl)
      rw [e]; exact ⟨hl, fun _ _ => rfl, rfl, rfl, sameBut_refl _ s⟩
    · have e : brkFbChange n level s = bvPin (24 + n.val) level { s with gh := { s.gh with brkFb := setBit8 s.gh.brkFb n.val level } } :=
        if_neg (by simpa using hl)
      have gh : (brkFbChange n level s).gh = { s.gh with brkFb := setBit8 s.gh.brkFb n.val level } := by rw [e, bvPin_gh]
      rw [gh]
      exact ⟨by rw [getLsbD_setBit8 _ _ n.isLt n.isLt, if_pos rfl],
        fun m hm => by rw [getLsbD_setBit8 _ _ n.isLt m.isLt, if_neg fun e => hm (Fin.ext e)], rfl, rfl, frame⟩

end Sys2Proof.Machine
end

