-- ==== Sys2Proof/Proofs/GatehouseFaults.lean ====
section
/-! PROOFS. Gatehouse's faults (09 R259, R261, R266): what a recorded fault changes, the entry into SAFE, and the reactions by grade. -/

namespace Sys2Proof.Machine

variable {A : Nat → Prop} {L : List Part} {o s t : State}

/-! ### The record of a fault -/

/-- A fault record taken: it is buffered for the MRAM, or counted as lost. -/
structure recordBuffered (s t : State) : Prop where
  parts : sameBut [.sys, .regs, .held] s t
  regs : touches (· ∈ [0xF5400A, 0xF5400B]) s t
  sys : t.sys = { s.sys with frBuf := t.sys.frBuf, per := t.sys.per }

theorem faultRecord_spec (kind code low react : Nat) (s : State) : recordBuffered s (faultRecord kind code low react s) := by
  have parts := (faultRecord_keeps (L := [.sys, .regs, .held]) kind code low react (by decide) (keeps_refl _ s)).parts
  refine ⟨parts, ?_, ?_⟩
  · unfold faultRecord
    extract_lets
    exact touches_ite _ (touches_count (by decide) (touches_refl _ s)) (touches_count (by decide) (touches_same (touches_refl _ s) rfl rfl))
  · unfold faultRecord
    extract_lets
    split
    · rw [count_sys]
    · rw [count_sys]

/-- A recorded fault: GH_FCODE holds the code, the reaction taken and the low byte, GH_FCNT counts (R266). -/
structure faultRecorded (code low taken : Nat) (s t : State) : Prop where
  parts : sameBut [.sys, .regs, .held, .pg, .bv, .pc] s t
  regs : touches (orEvents [0xF34040, 0xF34041, 0xF5400A, 0xF5400B]) s t
  sys : t.sys = { s.sys with frBuf := t.sys.frBuf, per := t.sys.per }
  code : regGet t 0xF34040 = word (code * 2 ^ 12 + taken * 2 ^ 8 + low % 256)
  cnt : regGet t 0xF34041 = regGet s 0xF34041 + 1

theorem ghRecord_spec (code low taken : Nat) (s : State) : faultRecorded code low taken s (ghRecord code low taken s) := by
  unfold ghRecord
  generalize hm : count 0xF34041 (putWord 0xF34040 (word (code * 2 ^ 12 + taken * 2 ^ 8 + low % 256)) s) = m
  have ev : onlyEvents m (bvAsync 6 (fun _ => true) (raiseEvent 26 (raiseEvent 5 m))) :=
    bvAsync_onlyEvents _ _ (raiseEvent_onlyEvents (by omega) (raiseEvent_onlyEvents (by omega) (onlyEvents_refl m)))
  generalize bvAsync 6 (fun _ => true) (raiseEvent 26 (raiseEvent 5 m)) = u at ev ⊢
  have fr := faultRecord_spec 0 code low taken u
  have m1 : touches (· ∈ [0xF34040, 0xF34041]) s m := hm ▸ touches_count (by decide) (touches_putWord _ (by decide) (touches_refl _ s))
  have m2 : sameBut [.regs, .held] s m :=
    hm ▸ (count_keeps (L := [.regs, .held]) _ (by decide) (putWord_keeps _ _ (by decide) (keeps_refl _ s))).parts
  have tail : ∀ a, a ∉ [0xF5400A, 0xF5400B] → eventReg a = false → canonAddr a = a → regGet (faultRecord 0 code low taken u) a = regGet m a := fun a h1 h2 h3 => by
    rw [fr.regs.regGet (by rw [h3]; exact h1), (ev.regs a (by simp) (by rw [h3]; exact h2)).1]
  refine ⟨?_, ?_, ?_, ?_, ?_⟩
  · exact sameBut_trans (sameBut_mono (by decide) m2) (sameBut_trans (sameBut_mono (by decide) ev.parts) (sameBut_mono (by decide) fr.parts))
  · refine touches_trans (touches_mono m1 fun a ha => .inl (List.mem_of_mem_take (i := 2) ha)) (touches_trans ?_ (touches_mono fr.regs fun a ha => .inl (List.mem_of_mem_drop (i := 2) ha)))
    exact touches_events (touches_refl _ m) ev
  · rw [fr.sys, ev.parts.sys (by decide), m2.sys (by decide)]
  · rw [tail _ (by decide) (by decide) (by decide), ← hm, regGet_count_other _ (by decide), putWord, regGet_hwMod, if_pos rfl]
  · rw [tail _ (by decide) (by decide) (by decide), ← hm]
    unfold count countBy
    rw [regGet_hwMod, if_pos rfl, regGet_putWord_other _ _ (by decide)]
    rfl

/-! ### The entry into SAFE -/

/-- Every group is in STO, and nothing but Gatehouse's outputs differs from a unit that begins to enter SAFE. -/
theorem enterSafe_spec (hop : s.sys.op ≠ .safe) : onlyGatehouse (safeBegins s) (enterSafe s) ∧ ∀ g : Fin 4, (enterSafe s).gh.grp[g].cond = .sto := by
  refine ⟨enterSafe_onlyGatehouse hop, fun g => ?_⟩
  have loop := upTo_steps (s := safeBegins s) (fun i t => ∀ g : Fin 4, g.val < i → t.gh.grp[g].cond = .sto) 4
    (fun g s => setCond (Fin.ofNat 4 g) .sto s) (fun g hg => absurd hg (by omega)) (fun i hi t ih g hg => by
      rw [grp_setCond]
      by_cases e : g = Fin.ofNat 4 i
      · rw [if_pos e, condSet_cond]
      · have hv : (Fin.ofNat 4 i).val = i := Nat.mod_eq_of_lt hi
        rw [if_neg e]
        exact ih g (Nat.lt_of_le_of_ne (by omega) fun k => e (Fin.ext (k.trans hv.symm))))
  have last : brakesOnly (upTo 4 (fun g s => setCond (Fin.ofNat 4 g) .sto s) (safeBegins s)) (enterSafe s) := by
    rw [enterSafe, if_neg hop]
    exact brakesOnly_updateBrakes (brakesOnly_raiseEvent (by omega) (brakesOnly_refl _))
  rw [last.grp]
  exact loop g g.isLt

theorem sameBut_sys_gh (x : SysCtl) (y : Gatehouse) (s : State) : sameBut [.sys, .gh] s { s with sys := x, gh := y } :=
  (keeps_gh (s := { s with sys := x }) y (by decide) (keeps_sys x (by decide) (keeps_refl [.sys, .gh] s))).parts

theorem enterSafe_op (hop : s.sys.op ≠ .safe) : (enterSafe s).sys.op = .safe := by
  rw [(enterSafe_spec hop).1.parts.sys (by decide)]; rfl

theorem safeBegins_parts (hop : s.sys.op ≠ .join) : sameBut [.sys, .gh] s (safeBegins s) := by
  unfold safeBegins
  rw [if_neg hop]
  exact sameBut_sys_gh _ _ s

theorem enterSafe_parts (hop : s.sys.op ≠ .safe) (hj : s.sys.op ≠ .join) : sameBut [.sys, .regs, .held, .pg, .bv, .pc, .gh] s (enterSafe s) :=
  sameBut_trans (sameBut_mono (by decide) (safeBegins_parts hj)) (sameBut_mono (by decide) (enterSafe_spec hop).1.parts)

theorem enterSafe_regs (hop : s.sys.op ≠ .safe) (hj : s.sys.op ≠ .join) : touches (orEvents [0xF34007]) s (enterSafe s) :=
  touches_trans (touches_of_sameBut (safeBegins_parts hj) (by decide) (by decide)) (touches_of_regsButEvents (enterSafe_spec hop).1.regs)

theorem safeOffOn_of_safe (h : s.sys.op = .safe) (g : Fin 4) : safeOffOn s g = false := by
  unfold safeOffOn; rw [h]; simp

theorem brkOut_of_safe (h : s.sys.op = .safe) (n : Nat) : brkOut s n = false := by
  unfold brkOut; rw [h]; simp

/-! ### The reactions -/

/-- A fault of grade D in RUN-ACTIVE: the part runs on and enters DEGRADED at the next boundary (R259, R266). -/
theorem ghFault_d (hop : s.sys.op = .runActive) (code low : Nat) :
    ghFault code low .d s = { ghRecord code low 3 s with gh := { (ghRecord code low 3 s).gh with degPend := true } } := by
  have react : reactOf s code .d = .d := by simp [reactOf, hop]
  have op : (ghRecord code low 3 s).sys.op = .runActive := by rw [(ghRecord_spec code low 3 s).sys]; exact hop
  unfold ghFault ghFaultBy
  rw [if_pos (by simp [ghRecords, hop]), react]
  show takeReact code (reactTaken s .d) 0 _ (ghRecord code low (reactTaken s .d) s) = _
  rw [show reactTaken s .d = 3 by simp [reactTaken, hop]]
  unfold takeReact
  rw [if_neg (by decide), if_neg (by decide), if_pos rfl, if_neg (by rw [op]; decide)]

/-- The unit's own channel is noted with a fault of the unit (R266). -/
def unitNoted (r : React) (s : State) : State := if r == .unitD || r == .unitS then { s with pr := { s.pr with lastUnit := some s.lk.q } } else s

/-- A fault of grade S in RUN-ACTIVE with no partner able to take over leads to SAFE (R259). -/
theorem ghFault_safe (hop : s.sys.op = .runActive) (hal : partnerAligned s = false) (code low : Nat) {r : React} (hr : r = .safe ∨ r = .unitS) :
    ghFault code low r s = enterSafe (ghRecord code low 4 (unitNoted r s)) := by
  have react : reactOf s code r = r := by simp [reactOf, hop]
  have taken : reactTaken s r = 4 := by rcases hr with rfl | rfl <;> simp [reactTaken, hop, hal]
  unfold ghFault ghFaultBy
  rw [if_pos (by simp [ghRecords, hop]), react, taken]
  show takeReact code 4 _ _ (ghRecord code low 4 (unitNoted r s)) = _
  unfold takeReact
  rw [if_neg (by decide), if_neg (by decide), if_neg (by decide), if_pos rfl]

/-- A fault that stops groups in RUN-ACTIVE (R259). -/
theorem ghFault_sto (hop : s.sys.op = .runActive) (code low mask : Nat) :
    ghFault code low (.sto mask) s = maskDemand mask true (.fault code) (ghRecord code low 2 s) := by
  have react : reactOf s code (.sto mask) = .sto mask := by simp [reactOf, hop]
  unfold ghFault ghFaultBy
  rw [if_pos (by simp [ghRecords, hop]), react, show reactTaken s (.sto mask) = 2 by simp [reactTaken, hop]]
  rfl

/-- The part enters SAFE after a recorded fault of grade S. -/
theorem faultToSafe (hop : s.sys.op = .runActive) (hal : partnerAligned s = false) (code : Nat) {low : Nat} (hlow : low < 256) {r : React}
    (hr : r = .safe ∨ r = .unitS) :
    ∃ u, ghFault code low r s = u ∧ u.sys.op = .safe ∧ (∀ g : Fin 4, u.gh.grp[g].cond = .sto ∧ safeOffOn u g = false) ∧ (∀ n, n < 8 → brkOut u n = false) ∧
      regGet u 0xF34040 = word (code * 2 ^ 12 + 4 * 2 ^ 8 + low) ∧ regGet u 0xF34041 = regGet s 0xF34041 + 1 ∧
      sameBut [.sys, .regs, .held, .pg, .bv, .gh, .pc, .pr] s u ∧
      regsButEvents [0xF34040, 0xF34041, 0xF34007, 0xF5400A, 0xF5400B] s u := by
  have noted : sameBut [.pr] s (unitNoted r s) := by
    unfold unitNoted; split
    · exact (keeps_pr (L := [.pr]) _ (by decide) (keeps_refl _ s)).parts
    · exact sameBut_refl _ s
  have rec4 := ghRecord_spec code low 4 (unitNoted r s)
  rw [ghFault_safe hop hal code low hr]
  generalize ghRecord code low 4 (unitNoted r s) = t at rec4
  have op : t.sys.op = .runActive := by rw [rec4.sys, noted.sys (by decide)]; exact hop
  have safe : (enterSafe t).sys.op = .safe := enterSafe_op (by rw [op]; decide)
  have sto := (enterSafe_spec (s := t) (by rw [op]; decide)).2
  have parts := enterSafe_parts (s := t) (by rw [op]; decide) (by rw [op]; decide)
  have regs := enterSafe_regs (s := t) (by rw [op]; decide) (by rw [op]; decide)
  generalize enterSafe t = u at sto safe parts regs
  have regs' : touches (orEvents [0xF34040, 0xF34041, 0xF5400A, 0xF5400B]) s t :=
    touches_trans (touches_of_sameBut noted (by decide) (by decide)) rec4.regs
  have keep : ∀ a, canonAddr a = a → ¬orEvents [0xF34007] a → regGet u a = regGet t a := fun a h1 h2 => regs.regGet (by rw [h1]; exact h2)
  refine ⟨u, rfl, safe, fun g => ⟨sto g, safeOffOn_of_safe safe g⟩, fun n _ => brkOut_of_safe safe n, ?_, ?_, ?_, ?_⟩
  · rw [keep _ (by decide) (not_orEvents (by decide) (by decide)), rec4.code, Nat.mod_eq_of_lt hlow]
  · rw [keep _ (by decide) (not_orEvents (by decide) (by decide)), rec4.cnt, regGet_of_regs (noted.regs (by decide))]
  · exact sameBut_trans (sameBut_mono (by decide) noted) (sameBut_trans (sameBut_mono (by decide) rec4.parts) (sameBut_mono (by decide) parts))
  · exact regsButEvents_of_touches (touches_trans (touches_mono regs' (orEvents_mono (by decide))) (touches_mono regs (orEvents_mono (by decide))))

/-- A fault of grade D recorded in RUN-ACTIVE. -/
theorem faultToDegraded (hop : s.sys.op = .runActive) (code : Nat) {low : Nat} (hlow : low < 256) :
    ∃ u, ghFault code low .d s = u ∧ u.sys.op = .runActive ∧ u.gh = { s.gh with degPend := true } ∧
      regGet u 0xF34040 = word (code * 2 ^ 12 + 3 * 2 ^ 8 + low) ∧ regGet u 0xF34041 = regGet s 0xF34041 + 1 ∧
      sameBut [.sys, .regs, .held, .pg, .bv, .gh, .pc] s u ∧ regsButEvents [0xF34040, 0xF34041, 0xF5400A, 0xF5400B] s u := by
  have rec3 := ghRecord_spec code low 3 s
  rw [ghFault_d hop code low]
  generalize ghRecord code low 3 s = t at rec3
  have last : sameBut [.gh] t { t with gh := { t.gh with degPend := true } } := (keeps_gh (L := [.gh]) _ (by decide) (keeps_refl _ t)).parts
  refine ⟨_, rfl, by show t.sys.op = _; rw [rec3.sys]; exact hop, by show { t.gh with degPend := true } = _; rw [rec3.parts.gh (by decide)], ?_, ?_,
    sameBut_trans (sameBut_mono (by decide) rec3.parts) (sameBut_mono (by decide) last), regsButEvents_of_touches (touches_same rec3.regs rfl rfl)⟩
  · rw [← Nat.mod_eq_of_lt hlow]; exact rec3.code
  · exact rec3.cnt

/-- Settles O8. -/
theorem faultsOfGradesSAndDReact : Obligations.FaultsOfGradesSAndDReact := by
  unfold Obligations.FaultsOfGradesSAndDReact
  refine ⟨fun s cmd code low hop hal hcmd => ?_, fun s cmd code low hop hcmd => ?_⟩
  · have step : ∃ (m : State) (r : React), sameBut [.gh] s m ∧ exec cmd s = .next (ghFault code low r m) ∧ (r = .safe ∨ r = .unitS) ∧ low < 256 := by
      rcases hcmd with ⟨g, rfl, hp, rfl, rfl⟩ | ⟨g, rfl, hp, rfl, rfl⟩ | ⟨n, rfl, hd, hne, rfl, rfl⟩ | ⟨rfl, rfl, rfl⟩ | ⟨rfl, rfl, rfl⟩ | ⟨rfl, rfl, rfl⟩
      · exact ⟨s, .safe, sameBut_refl _ s, congrArg Host.Outcome.next (if_pos hp), .inl rfl, by omega⟩
      · exact ⟨setGroup g { s.gh.grp[g] with pulse := 0 } s, .safe, (setGroup_keeps (L := [.gh]) _ _ (by decide) (keeps_refl _ s)).parts,
          congrArg Host.Outcome.next (if_neg hp), .inl rfl, by omega⟩
      · refine ⟨s, .safe, sameBut_refl _ s, congrArg Host.Outcome.next (if_pos ?_), .inl rfl, by omega⟩
        rw [hd]; exact bne_iff_ne.mpr hne
      · exact ⟨s, .unitS, sameBut_refl _ s, rfl, .inr rfl, by omega⟩
      · exact ⟨s, .unitS, sameBut_refl _ s, rfl, .inr rfl, by omega⟩
      · exact ⟨s, .unitS, sameBut_refl _ s, congrArg Host.Outcome.next (if_neg (by rw [hop]; simp)), .inr rfl, by omega⟩
    obtain ⟨m, r, hm, e, hr, hlow⟩ := step
    have opm : m.sys.op = .runActive := by rw [hm.sys (by decide)]; exact hop
    have alm : partnerAligned m = false := by
      unfold partnerAligned paired at *
      rw [hm.sys (by decide), hm.pr (by decide), show bitOf m 0xF28000 18 = bitOf s 0xF28000 18 from
        congrArg (bit · 18) (inForce_of (hm.regs (by decide)) (hm.held (by decide)) _)]
      exact hal
    obtain ⟨u, eu, op, groups, brakes, fcode, fcnt, parts, regs⟩ := faultToSafe opm alm code hlow hr
    refine ⟨u, e.trans (congrArg _ eu), op, groups, brakes, fcode, fcnt.trans ?_, sameBut_trans (sameBut_mono (by decide) hm) parts, ?_⟩
    · rw [regGet_of_regs (hm.regs (by decide))]
    · exact regsButEvents_trans (regsButEvents_of (regsBut_of (hm.regs (by decide)) (hm.held (by decide)) _)) regs
  · have step : ∃ m : State, sameBut [.now, .sys, .gh] s m ∧ m.sys.op = s.sys.op ∧ m.gh.grp = s.gh.grp ∧ exec cmd s = .next (ghFault code low .d m) ∧ low < 256 := by
      rcases hcmd with ⟨c, rfl, on, rfl, rfl⟩ | ⟨c, who, v, t, rfl, on, turn, rfl, rfl⟩ | ⟨rfl, rfl, rfl⟩ | ⟨rfl, rfl, rfl⟩
      · exact ⟨_, (setWd_keeps (L := [.now, .sys, .gh]) _ _ (by decide) (keeps_refl _ s)).parts, rfl, rfl, congrArg Host.Outcome.next (if_pos on), by omega⟩
      · refine ⟨_, (setWd_keeps (L := [.now, .sys, .gh]) c { on := true, tLast := (advance t s).now, second := !s.gh.wd[c].second, first := false } (by decide)
          (armLock_keeps who (by decide) (advance_keeps t (by decide) (keeps_refl _ s)))).parts, rfl, rfl, congrArg Host.Outcome.next ?_, by omega⟩
        have turned : (v == (if s.gh.wd[c].second then 0x5A5A5 else 0xA5A5A)) = false := beq_eq_false_iff_ne.mpr turn
        unfold wdService
        simp only [armLock_gh, advance_gh, on, turned]
        rfl
      · exact ⟨s, sameBut_refl _ s, rfl, rfl, congrArg Host.Outcome.next (if_neg (by rw [hop]; simp)), by omega⟩
      · exact ⟨s, sameBut_refl _ s, rfl, rfl, congrArg Host.Outcome.next (if_neg (by rw [hop]; simp)), by omega⟩
    obtain ⟨m, hm, ho, hg, e, hlow⟩ := step
    obtain ⟨u, eu, op, gh, fcode, fcnt, parts, regs⟩ := faultToDegraded (ho.trans hop) code hlow
    refine ⟨u, e.trans (congrArg _ eu), op, by rw [gh], by rw [gh]; exact hg, fcode, fcnt.trans ?_, sameBut_trans (sameBut_mono (by decide) hm) (sameBut_mono (by decide) parts), ?_⟩
    · rw [regGet_of_regs (hm.regs (by decide))]
    · exact regsButEvents_trans (regsButEvents_of (regsBut_of (hm.regs (by decide)) (hm.held (by decide)) _)) regs

end Sys2Proof.Machine
end

