-- ==== Sys2Proof/Proofs/GatehouseTimers.lean ====
section
/-! PROOFS. Watchdogs, discrepant demand inputs, the refresh and the degraded time (09 R270, R272, R276, R279). -/

namespace Sys2Proof.Machine

variable {A : Nat → Prop} {L : List Part} {o s t : State}

/-! ### Watchdogs -/

theorem wd_setWd (c : Fin 3) (w : Watchdog) (s : State) : (setWd c w s).gh.wd[c] = w := Vector.getElem_set_self _

theorem wdService_inTurn {c : Fin 3} {v : Word} (on : s.gh.wd[c].on = true) (turn : v = (if s.gh.wd[c].second then 0x5A5A5 else 0xA5A5A))
    (late : s.now - s.gh.wd[c].tLast ≤ 60000 * fld (regGet s (0xF34018 + c.val)) 19 10)
    (early : s.gh.wd[c].first = true ∨ 60000 * fld (regGet s (0xF34018 + c.val)) 9 0 ≤ s.now - s.gh.wd[c].tLast) :
    wdService c v s = setWd c { on := true, tLast := s.now, second := !s.gh.wd[c].second, first := false } s := by
  have turned : (v == (if s.gh.wd[c].second then 0x5A5A5 else 0xA5A5A)) = true := beq_iff_eq.mpr turn
  have notEarly : (!s.gh.wd[c].first && decide (s.now - s.gh.wd[c].tLast < wdUnits (fld (regGet s (0xF34018 + c.val)) 9 0))) = false := by
    unfold wdUnits
    rcases early with e | e
    · rw [e]; rfl
    · rw [decide_eq_false (by omega), Bool.and_false]
  have notLate : decide (wdUnits (fld (regGet s (0xF34018 + c.val)) 19 10) < s.now - s.gh.wd[c].tLast) = false := by
    unfold wdUnits; exact decide_eq_false (by omega)
  unfold wdService
  simp only [on, turned, notEarly, notLate]
  rfl

theorem canonAddr_wd (c : Fin 3) : canonAddr (0xF34018 + c.val) = 0xF34018 + c.val := by
  revert c; decide

/-- The registers that tell of a dropped write (17 R442). -/
theorem dropWrite_spec (who : Requester) (a why : Nat) (s : State) : touches (· ∈ [0xF50001, 0xF50002, 0xF50003, 0xF50004]) s (dropWrite who a why s) ∧
    regGet (dropWrite who a why s) 0xF50001 = regGet s 0xF50001 + 1 ∧
    regGet (dropWrite who a why s) 0xF50004 = word (reqNum who * 2 ^ 16 + why * 2 ^ 8) := by
  refine ⟨?_, ?_, ?_⟩
  · exact touches_putWord _ (by decide) (touches_putWord _ (by decide) (touches_putWord _ (by decide) (touches_count (by decide) (touches_refl _ s))))
  · unfold dropWrite
    rw [regGet_putWord_other _ _ (by decide), regGet_putWord_other _ _ (by decide), regGet_putWord_other _ _ (by decide), count, countBy, regGet_hwMod, if_pos rfl]
    rfl
  · unfold dropWrite
    rw [putWord, regGet_hwMod, if_pos rfl]

theorem reqNum_lt (who : Requester) : reqNum who < 16 := by
  cases who with
  | core n => exact Nat.lt_trans n.isLt (by omega)
  | host | kiosk | mirror => decide

/-- The reason that a dropped write gives. -/
theorem dropWrite_why (who : Requester) (a : Nat) {why : Nat} (hw : why < 256) (s : State) : fld (regGet (dropWrite who a why s) 0xF50004) 15 8 = why := by
  rw [(dropWrite_spec who a why s).2.2]
  have := reqNum_lt who
  simp only [fld, word, BitVec.toNat_ofNat]
  omega

theorem touches_regSet {a : Nat} (w : Word) (hA : A (canonAddr a)) (h : touches A o s) : touches A o (regSet a w s) :=
  touches_trans h fun b hb => by
    have other : canonAddr b ≠ canonAddr a := fun e => hb (e ▸ hA)
    refine ⟨by rw [regGet_regSet, if_neg other], ?_⟩
    show (match lookupNat s.held (canonAddr b) with | some w => w | none => regGet (regSet a w s) b) = inForce s b
    rw [regGet_regSet, if_neg other]
    rfl

theorem wdConfig_frame (who : Requester) (c : Fin 3) (v : Word) (s : State) :
    touches (· ∈ [0xF34018 + c.val, 0xF50001, 0xF50002, 0xF50003, 0xF50004]) s (wdConfig who c v s) := by
  have set : touches (· ∈ [0xF34018 + c.val, 0xF50001, 0xF50002, 0xF50003, 0xF50004]) s (regSet (0xF34018 + c.val) v s) :=
    touches_regSet v (by rw [canonAddr_wd]; exact List.mem_cons_self ..) (touches_refl _ s)
  unfold wdConfig
  extract_lets w s1
  refine touches_ite _ (touches_ite _ (touches_refl _ s) set) (touches_ite _ ?_ (touches_ite _ set (touches_same set rfl rfl)))
  exact touches_mono (dropWrite_spec who _ 6 s).1 fun a ha => List.mem_cons_of_mem _ ha

/-- A MAXW above MINW switches a watchdog on, one already on keeps what it expects (R270). -/
theorem wdConfig_on (who : Requester) (c : Fin 3) {v : Word} (hv : fld v 9 0 < fld v 19 10) (s : State) :
    regGet (wdConfig who c v s) (0xF34018 + c.val) = v ∧ (wdConfig who c v s).gh.wd[c].on = true ∧
      (s.gh.wd[c].on = false → (wdConfig who c v s).gh.wd[c].tLast = s.now ∧ (wdConfig who c v s).gh.wd[c].second = false) := by
  have reg : regGet (regSet (0xF34018 + c.val) v s) (0xF34018 + c.val) = v := by rw [regGet_regSet, if_pos rfl]
  unfold wdConfig
  rw [if_neg (by omega), if_neg (by omega)]
  extract_lets s1
  by_cases on : s.gh.wd[c].on = true
  · rw [if_pos on]
    exact ⟨reg, on, fun off => (by rw [on] at off; cases off)⟩
  · rw [if_neg on, wd_setWd]
    exact ⟨(regGet_of_regs rfl _).trans reg, rfl, fun _ => ⟨rfl, rfl⟩⟩

/-- A MAXW of 0 does not switch a watchdog off (R270). -/
theorem wdConfig_zero (who : Requester) (c : Fin 3) {v : Word} (hv : fld v 19 10 = 0) (s : State) : (wdConfig who c v s).gh = s.gh := by
  unfold wdConfig
  rw [if_pos hv]
  split <;> rfl

theorem wdConfig_dropped (who : Requester) (c : Fin 3) {v : Word} (hv : 0 < fld v 19 10) (hm : fld v 19 10 ≤ fld v 9 0) (s : State) :
    wdConfig who c v s = dropWrite who (0xF34018 + c.val) 6 s := by
  unfold wdConfig
  rw [if_neg (by omega), if_pos hm]

theorem watchdogWrites (s : State) (who : Requester) (c : Fin 3) (v : Word) (t : Nat) (ht : s.now ≤ t) :
    (s.gh.wd[c].on = true → v = (if s.gh.wd[c].second then 0x5A5A5 else 0xA5A5A) →
      t - s.gh.wd[c].tLast ≤ 60000 * fld (regGet s (0xF34018 + c.val)) 19 10 →
      (s.gh.wd[c].first = true ∨ 60000 * fld (regGet s (0xF34018 + c.val)) 9 0 ≤ t - s.gh.wd[c].tLast) →
      ∃ u, exec (.watchdogService who c v t) s = .next u ∧ u.gh.wd[c].on = true ∧ u.gh.wd[c].tLast = t ∧
        u.gh.wd[c].second = !s.gh.wd[c].second ∧ u.gh.wd[c].first = false ∧ sameBut [.now, .sys, .gh] s u) ∧
    ∃ u, exec (.watchdogConfigWrite who c v t) s = .next u ∧
      (fld v 9 0 < fld v 19 10 → regGet u (0xF34018 + c.val) = v ∧ u.gh.wd[c].on = true ∧
        (s.gh.wd[c].on = false → u.gh.wd[c].tLast = t ∧ u.gh.wd[c].second = false)) ∧
      (fld v 19 10 = 0 → u.gh.wd = s.gh.wd) ∧
      (0 < fld v 19 10 → fld v 19 10 ≤ fld v 9 0 → u.gh.wd = s.gh.wd ∧ regGet u (0xF34018 + c.val) = regGet s (0xF34018 + c.val) ∧
        regGet u 0xF50001 = regGet s 0xF50001 + 1 ∧ fld (regGet u 0xF50004) 15 8 = 6) ∧
      sameBut [.now, .sys, .regs, .held, .gh] s u ∧ regsBut [0xF34018 + c.val, 0xF50001, 0xF50002, 0xF50003, 0xF50004] s u := by
  generalize hm : armLock who (advance t s) = m
  have frame : sameBut [.now, .sys] s m :=
    hm ▸ (armLock_keeps (L := [.now, .sys]) who (by decide) (advance_keeps t (by decide) (keeps_refl _ s))).parts
  have now : m.now = t := by rw [← hm]; exact Nat.max_eq_right ht
  have gh : m.gh = s.gh := frame.gh (by decide)
  have regs : ∀ a, regGet m a = regGet s a := regGet_of_regs (frame.regs (by decide))
  refine ⟨fun on turn late early => ?_, wdConfig who c v m, congrArg (fun x => Host.Outcome.next (wdConfig who c v x)) hm, fun hv => ?_, fun hv => ?_,
    fun h0 hv => ?_, ?_, ?_⟩
  · rw [← gh, ← regs, ← now] at late early
    rw [← gh] at on turn
    refine ⟨_, congrArg Host.Outcome.next ((congrArg (wdService c v) hm).trans (wdService_inTurn on turn late early)), ?_⟩
    rw [wd_setWd, ← gh]
    exact ⟨rfl, now, rfl, rfl, sameBut_trans (sameBut_mono (by decide) frame) (setWd_keeps (L := [.now, .sys, .gh]) _ _ (by decide) (keeps_refl _ m)).parts⟩
  · obtain ⟨reg, on, fresh⟩ := wdConfig_on who c hv m
    rw [gh, now] at fresh
    exact ⟨reg, on, fresh⟩
  · rw [wdConfig_zero who c hv, gh]
  · rw [wdConfig_dropped who c h0 hv, dropWrite_gh, gh, dropWrite_why who _ (by omega), (dropWrite_spec who _ 6 m).2.1, regs,
      (dropWrite_spec who _ 6 m).1.regGet (by rw [canonAddr_wd]; have := c.isLt; simp; omega), regs]
    exact ⟨rfl, rfl, rfl, rfl⟩
  · exact sameBut_trans (sameBut_mono (by decide) frame) (wdConfig_keeps (L := [.now, .sys, .regs, .held, .gh]) _ _ _ (by decide) (keeps_refl _ m)).parts
  · exact regsBut_of_touches (touches_trans (touches_of_sameBut frame (by decide) (by decide)) (wdConfig_frame who c v m))

/-! ### A demand input whose pins disagree -/

theorem demandDiscrepancy_spec (s : State) (d : Fin 8) (hop : s.sys.op = .runActive) (enabled : bitOf s (0xF34010 + d.val) 19 = true)
    (differ : (demandNow s d).2 = true) :
    ∃ u, exec (.demandDiscrepancy d) s = .next u ∧ u.gh.demand.getLsbD d = true ∧ bit (regGet u 0xF34003) 16 = true ∧
      (∀ g : Fin 4, fldOf s (0xF34010 + d.val) 15 12 / 2 ^ g.val % 2 = 1 → u.gh.grp[g].cond = .sto) ∧
      (∀ g : Fin 4, fldOf s (0xF34010 + d.val) 15 12 / 2 ^ g.val % 2 = 0 → u.gh.grp[g] = s.gh.grp[g]) ∧
      regGet u 0xF34040 = word (0x60 * 2 ^ 12 + 2 * 2 ^ 8 + d.val) ∧
      sameBut [.sys, .regs, .held, .pg, .bv, .gh, .pc] s u ∧
      regsButEvents [0xF34003, 0xF34007, 0xF34040, 0xF34041, 0xF5400A, 0xF5400B] s u := by
  let s0 : State := { s with gh := { s.gh with disc := setBit8 s.gh.disc d.val true, demand := setBit8 s.gh.demand d.val true } }
  have e : demandDiscrepancy d s = ghFault 0x60 d.val (.sto (fldOf s (0xF34010 + d.val) 15 12)) (putBit 0xF34003 16 true s0) :=
    if_pos (by rw [enabled]; exact differ)
  have part0 : sameBut [.gh] s s0 := (keeps_gh (L := [.gh]) _ (by decide) (keeps_refl _ s)).parts
  have gh0 : s0.gh.grp = s.gh.grp ∧ s0.gh.demand = setBit8 s.gh.demand d.val true := ⟨rfl, rfl⟩
  have op0 : s0.sys.op = .runActive := hop
  refine ⟨_, congrArg Host.Outcome.next e, ?_⟩
  clear_value s0
  clear e
  have part1 : sameBut [.regs, .held] s0 (putBit 0xF34003 16 true s0) := (putBit_keeps (L := [.regs, .held]) _ _ _ (by decide) (keeps_refl _ s0)).parts
  have reg1 : touches (· ∈ [0xF34003]) s0 (putBit 0xF34003 16 true s0) := touches_putBit 16 true (by decide) (touches_refl _ s0)
  have bit1 : bit (regGet (putBit 0xF34003 16 true s0) 0xF34003) 16 = true := bit_putBit_same 0xF34003 true s0 (by decide)
  generalize putBit 0xF34003 16 true s0 = s1 at part1 reg1 bit1 ⊢
  rw [ghFault_sto (by rw [part1.sys (by decide)]; exact op0)]
  have record := ghRecord_spec 0x60 d.val 2 s1
  generalize ghRecord 0x60 d.val 2 s1 = t at record ⊢
  have mask := maskDemand_spec (fldOf s (0xF34010 + d.val) 15 12) true (cause := .fault 0x60) (by simp) t
  generalize maskDemand (fldOf s (0xF34010 + d.val) 15 12) true (.fault 0x60) t = u at mask ⊢
  have ght : t.gh = s0.gh := by rw [record.parts.gh (by decide), part1.gh (by decide)]
  have grpt : ∀ g : Fin 4, t.gh.grp[g] = s.gh.grp[g] := fun g => by rw [ght, gh0.1]
  refine ⟨?_, ?_, fun g hg => ?_, fun g hg => ?_, ?_, ?_, ?_⟩
  · rw [mask.only.gh]
    show t.gh.demand.getLsbD d = true
    rw [ght, gh0.2, getLsbD_setBit8 _ _ d.isLt d.isLt, if_pos rfl]
  · rw [mask.only.touches.regGet (not_orEvents (by decide) (by decide)), record.regs.regGet (not_orEvents (by decide) (by decide))]
    exact bit1
  · rw [(mask.hit g hg).cond]; rfl
  · rw [mask.miss g hg, grpt]
  · rw [mask.only.touches.regGet (not_orEvents (by decide) (by decide)), record.code, Nat.mod_eq_of_lt (Nat.lt_trans d.isLt (by omega))]
  · exact sameBut_trans (sameBut_mono (by decide) part0) (sameBut_trans (sameBut_mono (by decide) part1)
      (sameBut_trans (sameBut_mono (by decide) record.parts) (sameBut_mono (by decide) mask.only.frame.parts)))
  · refine regsButEvents_of_touches (touches_trans (touches_of_sameBut part0 (by decide) (by decide)) (touches_trans (touches_mono reg1 ?_)
      (touches_trans (touches_mono record.regs (orEvents_mono (by decide))) (touches_mono mask.only.touches (orEvents_mono (by decide))))))
    exact fun a ha => .inl (List.mem_of_mem_take (i := 1) ha)

/-! ### Loss of the refresh and the degraded time -/

theorem brkOut_of_refreshLost (h : s.gh.refreshLost = true) (n : Nat) : brkOut s n = false := by
  unfold brkOut; rw [h]; simp

theorem safeOffOn_of_refreshLost (h : s.gh.refreshLost = true) (g : Fin 4) : safeOffOn s g = false := by
  unfold safeOffOn; rw [h]; simp

theorem clearBit8 (m : BitVec 8) {d n : Nat} (hd : d < 8) (hn : n < 8) : (m &&& ~~~(1#8 <<< d)).getLsbD n = if n = d then false else m.getLsbD n :=
  getLsbD_setBit8 m false hd hn

/-- With the refresh lost an update turns every brake output off (R279). -/
theorem updateBrakes_refreshLost (h : s.gh.refreshLost = true) :
    (updateBrakes s).gh.refreshLost = true ∧ ∀ n, n < 8 → (updateBrakes s).gh.brk.getLsbD n = false := by
  refine upTo_steps (fun i t => t.gh.refreshLost = true ∧ ∀ n, n < i → t.gh.brk.getLsbD n = false) 8 _ ⟨h, fun n hn => absurd hn (by omega)⟩ ?_
  intro i hi t ⟨lost, off⟩
  extract_lets now b
  have now_off : now = false := brkOut_of_refreshLost lost i
  by_cases e : t.gh.brk.getLsbD i = now
  · rw [if_pos (beq_iff_eq.mpr e)]
    refine ⟨lost, fun n hn => ?_⟩
    rcases Nat.lt_succ_iff_lt_or_eq.mp hn with k | k
    · exact off n k
    · rw [k, e, now_off]
  · rw [if_neg (by simpa using e), bvPin_gh]
    refine ⟨lost, fun n hn => ?_⟩
    show b.getLsbD n = false
    have eb : b = t.gh.brk &&& ~~~(1#8 <<< i) := if_neg (by rw [now_off]; decide)
    rw [eb, clearBit8 _ hi (by omega)]
    split
    · rfl
    · exact off n (by omega)

theorem refreshLoss_spec (s : State) : ∃ u, exec .refreshLoss s = .next u ∧ u.gh.refreshLost = true ∧ (∀ g : Fin 4, safeOffOn u g = false) ∧
    (∀ n, n < 8 → brkOut u n = false ∧ u.gh.brk.getLsbD n = false) ∧ u.gh.grp = s.gh.grp ∧ sameBut [.gh, .bv] s u := by
  obtain ⟨lost, off⟩ := updateBrakes_refreshLost (s := { s with gh := { s.gh with refreshLost := true } }) rfl
  exact ⟨refreshLoss s, rfl, lost, safeOffOn_of_refreshLost lost, fun n hn => ⟨brkOut_of_refreshLost lost n, off n hn⟩,
    (brakesOnly_updateBrakes (brakesOnly_refl _)).grp, (refreshLoss_keeps (L := [.gh, .bv]) (by decide) (keeps_refl _ s)).parts⟩

theorem degradedTimeExpiry_spec (s : State) (hop : s.sys.op = .degraded) : ∃ u, exec .degradedTimeExpiry s = .next u ∧ u.sys.op = .safe ∧
    (∀ g : Fin 4, u.gh.grp[g].cond = .sto) ∧ (∀ n, n < 8 → brkOut u n = false) ∧ fld (regGet u 0xF34004) 18 0 = 0 ∧
    sameBut [.sys, .regs, .held, .pg, .bv, .gh, .pc] s u ∧ regsButEvents [0xF34004, 0xF34007] s u := by
  refine ⟨_, congrArg Host.Outcome.next (if_pos hop), ?_⟩
  have part1 : sameBut [.regs, .held] s (putFld 0xF34004 18 0 0 s) := (putFld_keeps (L := [.regs, .held]) _ _ _ _ (by decide) (keeps_refl _ s)).parts
  have reg1 : touches (· ∈ [0xF34004]) s (putFld 0xF34004 18 0 0 s) := touches_putFld 18 0 0 (by decide) (touches_refl _ s)
  have fld1 : fld (regGet (putFld 0xF34004 18 0 0 s) 0xF34004) 18 0 = 0 := by
    rw [regGet_putFld, if_pos rfl, fld_setFld_same _ _ (by decide) (by decide), Nat.zero_mod]
  generalize putFld 0xF34004 18 0 0 s = t at part1 reg1 fld1 ⊢
  have op : t.sys.op = .degraded := by rw [part1.sys (by decide)]; exact hop
  have regs := enterSafe_regs (s := t) (by rw [op]; decide) (by rw [op]; decide)
  have safe : (enterSafe t).sys.op = .safe := enterSafe_op (by rw [op]; decide)
  refine ⟨safe, (enterSafe_spec (by rw [op]; decide)).2, fun n _ => brkOut_of_safe safe n, ?_, ?_, ?_⟩
  · rw [regs.regGet (not_orEvents (by decide) (by decide))]; exact fld1
  · exact sameBut_trans (sameBut_mono (by decide) part1) (sameBut_mono (by decide) (enterSafe_parts (by rw [op]; decide) (by rw [op]; decide)))
  · refine regsButEvents_of_touches (touches_trans (touches_mono reg1 fun a ha => .inl (List.mem_of_mem_take (i := 1) ha)) (touches_mono regs (orEvents_mono (by decide))))

/-- Settles O9. -/
theorem watchdogsDiscrepancyAndRefresh : Obligations.WatchdogsDiscrepancyAndRefresh := by
  unfold Obligations.WatchdogsDiscrepancyAndRefresh
  exact ⟨watchdogWrites, demandDiscrepancy_spec, refreshLoss_spec, degradedTimeExpiry_spec⟩

end Sys2Proof.Machine
end

