-- ==== Sys2Proof/Proofs/RescanUpset.lean ====
section
/-! PROOFS. The rescan and an upset of the pairing bit (09 R266, R267). A block is judged on the words read before the upset; the reaction is chosen on the state after it, where a unit configured alone may have become one of a pair. -/

namespace Sys2Proof.Machine

variable {s t : State}

theorem blockBits_of_regs (hr : t.regs = s.regs) (hh : t.held = s.held) (b up : Nat) (m : Word) : blockBits t b up m = blockBits s b up m := by
  have force : inForce t = inForce s := funext (inForce_of hr hh)
  unfold blockBits axisConfigured axisCount modeOf
  simp only [fldOf_eq hr hh, force]

/-- A fault of the unit in RUN-ACTIVE with an aligned partner leaves Gatehouse's own state to the takeover (R259, 08 R244). -/
theorem ghFault_unitD_aligned (hop : s.sys.op = .runActive) (hal : partnerAligned s = true) (code low : Nat) :
    (ghFault code low .unitD s).gh = s.gh := by
  have react : reactOf s code .unitD = .unitD := by simp [reactOf, hop]
  unfold ghFault ghFaultBy
  rw [if_pos (by simp [ghRecords, hop]), react, show reactTaken s .unitD = 5 by simp [reactTaken, hop, hal]]
  show (takeReact code 5 _ _ (ghRecord code low 5 (unitNoted .unitD s))).gh = s.gh
  unfold takeReact
  rw [if_neg (by decide), if_neg (by decide), if_neg (by decide), if_neg (by decide), if_pos rfl]
  have record := (ghRecord_spec code low 5 (unitNoted .unitD s)).parts.gh (by decide)
  exact ((failPath_keeps code (by decide) (keeps_refl [.lk, .pr] _)).parts.gh (by decide)).trans record

/-- A unit in RUN-ACTIVE configured alone, whose record of a partner still shows a standby; its PR_CFG block has this signature on file. -/
def aloneWithSig (sig : Nat) : State :=
  { State.reset with
    sys := { State.reset.sys with op := .runActive }
    pr := { State.reset.pr with partnerRole := 3 }
    gh := { State.reset.gh with sigs := [(0xA00, sig)] } }

/-- The bit PAIR of PR_CFG. -/
def pairBit : Word := 0x40000

/-- A signature that the block with the upset bit does not have. -/
def otherSig : Nat := crc32 (blockBits (aloneWithSig 0) 0xA00 0xF28000 pairBit) + 1

theorem aloneWithSig_found (sig : Nat) : crc32 (blockBits (aloneWithSig sig) 0xA00 0xF28000 pairBit) + 1 = otherSig := by
  rw [otherSig, blockBits_of_regs (s := aloneWithSig 0) (t := aloneWithSig sig) rfl rfl]

/-- After the upset the unit is paired, its partner a standby. -/
theorem aloneWithSig_pairs (sig b : Nat) (x : SMap Nat) :
    let s := hwMod 0xF28000 (fun w => w ^^^ pairBit) (aloneWithSig sig)
    let u := putFld 0xF34043 13 0 b (putBit 0xF34043 19 true { s with gh := { s.gh with sigs := x } })
    partnerAligned u = true ∧ u.sys.op = .runActive ∧ u.gh.degPend = false := by
  intro s u
  have pair : bitOf u 0xF28000 18 = true := by
    have e1 : touches (· ∈ [0xF34043]) { s with gh := { s.gh with sigs := x } } u := touches_putFld 13 0 b (by decide) (touches_putBit 19 true (by decide) (touches_refl _ _))
    have e2 : inForce { s with gh := { s.gh with sigs := x } } 0xF28000 = inForce s 0xF28000 := inForce_of rfl rfl _
    have e3 : inForce (aloneWithSig sig) 0xF28000 = inForce (aloneWithSig 0) 0xF28000 := inForce_of rfl rfl _
    rw [e1.bitOf (by decide), bitOf, e2, inForce_hwMod, if_pos rfl, e3]
    decide
  have pr : u.pr = (aloneWithSig sig).pr := by rw [putFld_pr, putBit_pr]; exact hwMod_pr _ 0xF28000 (fun w => w ^^^ pairBit)
  have sys : u.sys = (aloneWithSig sig).sys := by rw [putFld_sys, putBit_sys]; exact hwMod_sys _ 0xF28000 (fun w => w ^^^ pairBit)
  have gh : u.gh = { s.gh with sigs := x } := by rw [putFld_gh, putBit_gh]
  refine ⟨?_, by rw [sys]; rfl, by rw [gh]; rfl⟩
  unfold partnerAligned paired
  rw [pair, pr]
  rfl

theorem rescanBlock_pairUpset {sig : Nat} (found : crc32 (blockBits (aloneWithSig sig) 0xA00 0xF28000 pairBit) ≠ sig) :
    (rescanBlock 0xA00 0 pairBit (aloneWithSig sig)).gh.degPend = false := by
  obtain ⟨aligned, op, quiet⟩ := aloneWithSig_pairs sig 0xA00 (mapPut 0 (aloneWithSig sig).gh.sigs 0xA00 sig)
  unfold rescanBlock
  extract_lets a sg fd s1 _ s2 s3
  rw [if_neg (show ¬fd = sg from found), if_neg (by decide)]
  exact (congrArg Gatehouse.degPend (ghFault_unitD_aligned op aligned 0x12 0)).trans quiet

/-- Refutes O10: where the upset bit is PAIR itself (PR_CFG, 08 R227), the unit is one of a pair when the reaction to fault 12h is chosen, and hands over to the standby on record in place of entering DEGRADED. -/
theorem not_rescanCorrectedErrorsAndFaultRecord : ¬ Obligations.RescanCorrectedErrorsAndFaultRecord := by
  unfold Obligations.RescanCorrectedErrorsAndFaultRecord
  rintro ⟨-, upset, -⟩
  have sig : blockSig (aloneWithSig otherSig) 0xA00 = otherSig := rfl
  have found : crc32 (blockBits (aloneWithSig otherSig) 0xA00 0xF28000 pairBit) ≠ otherSig := by
    have := aloneWithSig_found otherSig; omega
  obtain ⟨u, e, -, pend, -⟩ := upset (aloneWithSig otherSig) 0xA00 0 pairBit rfl (by decide) (.inl (by decide)) (by decide) (sig ▸ found) (by decide)
  have run : exec (.rescan 0xA00 0 pairBit) (aloneWithSig otherSig) = .next (rescanBlock 0xA00 0 pairBit (aloneWithSig otherSig)) :=
    congrArg Host.Outcome.next (if_pos rfl)
  rw [run] at e
  injection e with e
  rw [← e, rescanBlock_pairUpset found] at pend
  cases pend

end Sys2Proof.Machine
end

