-- ==== Sys2Proof/Proofs/PumphouseSpecs.lean ====
section
/-! PROOFS. Pumphouse: sigma-delta results, level L5 at a result below FLOOR, rails and timers (10 R289-R307). -/

namespace Sys2Proof.Machine

variable {A : Nat → Prop} {L : List Part} {o s t : State}

/-! ### A sigma-delta result -/

/-- The record of input k after a result (R289, R290). -/
def sdmAfter (r : Word) (stuck : Bool) (x : Sdm) : Sdm :=
  let sat := if decide (0x7FFF0 ≤ |sval r|) then min 4 (x.sat + 1) else 0
  let bad := stuck || decide (4 ≤ sat)
  let clean := if bad then 0 else min 16 (x.clean + 1)
  { x with result := sval r, valid := true, sat := sat, clean := clean, flt := bad || (x.flt && decide (clean < 16)), fltEv := x.fltEv || bad }

theorem sdmAfter_stuck (r : Word) (x : Sdm) : (sdmAfter r true x).flt = true := by simp [sdmAfter]

theorem sdmAfter_sound {r : Word} {x : Sdm} (hx : x.flt = false) (hr : |r.toInt| < 0x7FFF0) : (sdmAfter r false x).flt = false := by
  have : ¬(0x7FFF0 : Int) ≤ |sval r| := by unfold sval; omega
  simp [sdmAfter, hx, this]

/-- A result of an enabled input taken, before the hold-up input is judged. -/
structure sdmTaken (k : Fin 8) (r : Word) (stuck : Bool) (s t : State) : Prop where
  parts : sameBut [.regs, .held, .ph, .pg, .bv, .pc] s t
  regs : touches (orEvents [0xF38021, 0xF38023, 0xF38024]) s t
  same : t.ph.sdm[k] = sdmAfter r stuck s.ph.sdm[k]
  other : ∀ j : Fin 8, j ≠ k → t.ph.sdm[j] = s.ph.sdm[j]
  level : t.ph.eff = s.ph.eff ∧ t.ph.l5 = s.ph.l5
  flag : stuck = true → s.ph.sdm[k].flt = false → bit (regGet t 0xF38021) (12 + k.val) = true

theorem sdm_setSdm (k j : Fin 8) (x : Sdm) (s : State) : (setSdm k x s).ph.sdm[j] = if j = k then x else s.ph.sdm[j] := by
  show (s.ph.sdm.set k x)[j.val] = _
  rw [Vector.getElem_set]
  by_cases e : j = k
  · rw [if_pos e, if_pos (by rw [e])]
  · rw [if_neg e, if_neg fun h => e (Fin.ext h.symm)]; rfl

/-- Everything of Pumphouse but the chopper is the same. -/
def sameButChopper (s t : State) : Prop := t.ph = { s.ph with ovAct := t.ph.ovAct, dutyOn := t.ph.dutyOn, chop := t.ph.chop }

theorem setChop_sameButChopper (ov duty : Bool) (s : State) : sameButChopper s (setChop ov duty s) := rfl

theorem overvoltage_sameButChopper (k : Fin 8) (s : State) : sameButChopper s (overvoltage k s) := by
  unfold overvoltage
  split
  · rfl
  · exact setChop_sameButChopper _ _ s

/-- What a result does to the registers of the voltages and to the chopper's override leaves the inputs and the level. -/
theorem volts_spec (k : Fin 8) (s : State) :
    sameBut [.regs, .held, .ph] s (overvoltage k (showVolts s)) ∧ touches (· ∈ [0xF38023, 0xF38024]) s (overvoltage k (showVolts s)) ∧
      sameButChopper s (overvoltage k (showVolts s)) := by
  have shown : touches (· ∈ [0xF38023, 0xF38024]) s (showVolts s) := touches_putFld _ _ _ (by decide) (touches_putFld _ _ _ (by decide) (touches_refl _ s))
  have ph : (showVolts s).ph = s.ph := (showVolts_keeps (L := [.regs, .held]) (by decide) (keeps_refl _ s)).parts.ph (by decide)
  have ovr : sameBut [.ph] (showVolts s) (overvoltage k (showVolts s)) := (overvoltage_keeps (L := [.ph]) k (by decide) (keeps_refl _ _)).parts
  refine ⟨(overvoltage_keeps (L := [.regs, .held, .ph]) k (by decide) (showVolts_keeps (by decide) (keeps_refl _ s))).parts,
    touches_sameBut shown ovr (by decide) (by decide), ?_⟩
  have chop := overvoltage_sameButChopper k (showVolts s)
  unfold sameButChopper at chop ⊢
  rwa [ph] at chop

theorem sdmResult_spec (k : Fin 8) (r : Word) (stuck : Bool) (hp : s.sys.op ≠ .powerUp) (hb : s.sys.op ≠ .boot) (en : bitOf s (0xF38018 + k.val) 19 = true) :
    ∃ t, sdmResult k r stuck s = holdFloor k t ∧ sdmTaken k r stuck s t := by
  generalize h1 : setSdm k (sdmAfter r stuck s.ph.sdm[k]) s = s1
  have part1 : sameBut [.ph] s s1 := h1 ▸ (setSdm_keeps (L := [.ph]) k _ (by decide) (keeps_refl _ s)).parts
  have sdm1 : ∀ j : Fin 8, s1.ph.sdm[j] = if j = k then sdmAfter r stuck s.ph.sdm[k] else s.ph.sdm[j] := fun j => h1 ▸ sdm_setSdm k j _ s
  have level1 : s1.ph.eff = s.ph.eff ∧ s1.ph.l5 = s.ph.l5 := h1 ▸ ⟨rfl, rfl⟩
  let bad := stuck || decide (4 ≤ (if decide (0x7FFF0 ≤ |sval r|) then min 4 (s.ph.sdm[k].sat + 1) else 0))
  let s2 := if bad && !s.ph.sdm[k].flt then raiseEvent (64 + k.val) (putBit 0xF38021 (12 + k.val) true s1) else s1
  have e : sdmResult k r stuck s = holdFloor k (overvoltage k (showVolts s2)) := by
    unfold sdmResult
    rw [if_neg (by simp [en, hp, hb])]
    simp only [s2, ← h1]
    rfl
  have ev : ∀ m, onlyEvents m (raiseEvent (64 + k.val) m) := fun m => raiseEvent_onlyEvents (by omega) (onlyEvents_refl m)
  have step : sameBut [.regs, .held, .pg, .bv, .pc] s1 s2 ∧ touches (orEvents [0xF38021]) s1 s2 ∧
      (stuck = true → s.ph.sdm[k].flt = false → bit (regGet s2 0xF38021) (12 + k.val) = true) := by
    by_cases hbad : (bad && !s.ph.sdm[k].flt) = true
    · have es : s2 = raiseEvent (64 + k.val) (putBit 0xF38021 (12 + k.val) true s1) := if_pos hbad
      have put : touches (orEvents [0xF38021]) s1 (putBit 0xF38021 (12 + k.val) true s1) := touches_putBit _ _ (.inl (by decide)) (touches_refl _ s1)
      have flag : bit (regGet (putBit 0xF38021 (12 + k.val) true s1) 0xF38021) (12 + k.val) = true := bit_putBit_same _ true s1 (by omega)
      have put' := (putBit_keeps (L := [.regs, .held]) 0xF38021 (12 + k.val) true (by decide) (keeps_refl _ s1)).parts
      rw [es]
      generalize putBit 0xF38021 (12 + k.val) true s1 = m at put flag put' ⊢
      exact ⟨sameBut_trans (sameBut_mono (by decide) put') (sameBut_mono (by decide) (ev m).parts), touches_events put (ev m), fun _ _ => by
        rw [((ev m).regs _ (by simp) (by decide)).1]; exact flag⟩
    · have es : s2 = s1 := if_neg hbad
      rw [es]
      exact ⟨sameBut_refl _ s1, touches_refl _ s1, fun st fl => absurd (by rw [fl]; simp [bad, st]) hbad⟩
  clear_value s2
  obtain ⟨part2, reg2, flag2⟩ := step
  obtain ⟨part3, reg3, chop⟩ := volts_spec k s2
  rw [e]
  generalize overvoltage k (showVolts s2) = u at part3 reg3 chop ⊢
  have ph2 : s2.ph = s1.ph := part2.ph (by decide)
  refine ⟨u, rfl, ?_, ?_, ?_, fun j hj => ?_, ?_, fun st fl => ?_⟩
  · exact sameBut_trans (sameBut_mono (by decide) part1) (sameBut_trans (sameBut_mono (by decide) part2) (sameBut_mono (by decide) part3))
  · exact touches_trans (touches_of_sameBut part1 (by decide) (by decide)) (touches_trans (touches_mono reg2 (orEvents_mono (by decide)))
      (touches_mono reg3 fun a ha => .inl (List.mem_cons_of_mem _ ha)))
  · rw [chop, ph2]; exact (sdm1 k).trans (if_pos rfl)
  · rw [chop, ph2]; exact (sdm1 j).trans (if_neg hj)
  · rw [chop, ph2]; exact level1
  · rw [reg3.regGet (by decide)]; exact flag2 st fl

/-! ### Level L5 -/

/-- The writes in flight that take effect leave every register without a field marked B. -/
theorem dropFlight_regGet {a : Nat} (ha : ∀ b, canonAddr b = canonAddr a → ((rowOf b).any fun r => r.fields.any fun f => f.mark == .b) = false) (s : State) :
    regGet (dropFlight s) a = regGet s a := by
  unfold dropFlight
  extract_lets waits s1
  refine (regGet_of_regs (s := s1) rfl a).trans (forEach_induct (fun t => regGet t a = regGet s a) waits _ (fun e he t ht => ?_) rfl)
  have marked := (List.mem_filter.mp he).2
  rw [regGet_regSet, if_neg fun k => ?_]
  · exact ht
  · rw [ha e.1 k.symm] at marked; cases marked

theorem dropFlight_op (s : State) : (dropFlight s).sys.op = s.sys.op := by
  unfold dropFlight
  extract_lets waits s1
  have same : s1.sys = s.sys := forEach_induct (fun t => t.sys = s.sys) waits (fun e s => regSet e.1 e.2 s) (fun _ _ _ ht => ht) rfl
  show s1.sys.op = s.sys.op
  rw [same]

/-- The part is in SAFE on level L5 and PH_L5CNT has counted the entry (R303). -/
structure inL5 (s t : State) : Prop where
  l5 : t.ph.l5 = true
  eff : t.ph.eff = 5
  op : t.sys.op = .safe
  sto : ∀ g : Fin 4, t.gh.grp[g].cond = .sto
  cnt : regGet t 0xF38034 = regGet s 0xF38034 + 1
  parts : sameBut [.sys, .regs, .held, .mem, .sd, .pg, .bv, .gh, .ph, .pc, .mo, .sv] s t

theorem count_regGet_same (a : Nat) (s : State) : regGet (count a s) a = regGet s a + 1 := by
  unfold count countBy
  rw [regGet_hwMod, if_pos rfl]
  rfl

/-- PH_L5CNT has no field marked B, and no other address shows it. -/
theorem l5cnt_unmarked (b : Nat) (hb : canonAddr b = canonAddr 0xF38034) : ((rowOf b).any fun r => r.fields.any fun f => f.mark == .b) = false := by
  have e : b = 0xF38034 := by
    rw [show canonAddr 0xF38034 = 0xF38034 by decide] at hb
    unfold canonAddr at hb
    split at hb <;> omega
  rw [e]
  decide

theorem enterL5_spec (hop : s.sys.op = .runActive) (h5 : s.ph.l5 = false) : inL5 s (enterL5 s) := by
  have sto := (enterSafe_spec (s := s) (by rw [hop]; decide)).2
  have op := enterSafe_op (s := s) (by rw [hop]; decide)
  have parts := enterSafe_parts (s := s) (by rw [hop]; decide) (by rw [hop]; decide)
  have regs := enterSafe_regs (s := s) (by rw [hop]; decide) (by rw [hop]; decide)
  unfold enterL5
  rw [if_neg (by simp [h5, hop])]
  extract_lets drove s1 _ per _ s2
  have dropped := (dropFlight_keeps (L := [.sys, .regs, .held, .sd, .mo, .sv]) (by decide) (keeps_refl _ (enterSafe s))).parts
  have abandoned : sameBut [.mem, .bv] (dropFlight (enterSafe s)) s1 :=
    (abandonArchive_keeps (L := [.mem, .bv]) (by decide) (keeps_refl _ (dropFlight (enterSafe s)))).parts
  have op1 : s1.sys.op = .safe := by rw [abandoned.sys (by decide), dropFlight_op, op]
  have gh1 : s1.gh = (enterSafe s).gh := by rw [abandoned.gh (by decide), dropped.gh (by decide)]
  have cnt1 : regGet s1 0xF38034 = regGet s 0xF38034 := by
    rw [regGet_of_regs (abandoned.regs (by decide)), dropFlight_regGet l5cnt_unmarked, regs.regGet (not_orEvents (by decide) (by decide))]
  have part2 : sameBut [.ph, .sys] s1 s2 := (keeps_sys (s := { s1 with ph := s2.ph }) s2.sys (by decide) (keeps_ph s2.ph (by decide) (keeps_refl [.ph, .sys] s1))).parts
  have facts2 : s2.ph.l5 = true ∧ s2.ph.eff = 5 ∧ s2.sys.op = s1.sys.op ∧ regGet s2 0xF38034 = regGet s1 0xF38034 := ⟨rfl, rfl, rfl, regGet_of_regs rfl _⟩
  clear_value s2 s1
  have cnt3 := count_regGet_same 0xF38034 s2
  have part3 := (count_keeps (L := [.regs, .held]) 0xF38034 (by decide) (keeps_refl _ s2)).parts
  generalize count 0xF38034 s2 = s3 at cnt3 part3 ⊢
  have ev : onlyEvents s3 (raiseEvent 27 (raiseEvent 11 (raiseEvent 10 s3))) :=
    raiseEvent_onlyEvents (by omega) (raiseEvent_onlyEvents (by omega) (raiseEvent_onlyEvents (by omega) (onlyEvents_refl s3)))
  generalize raiseEvent 27 (raiseEvent 11 (raiseEvent 10 s3)) = s4 at ev ⊢
  have record := faultRecord_spec 3 0 0 0 s4
  generalize faultRecord 3 0 0 0 s4 = u at record ⊢
  have ph : u.ph = s2.ph := by rw [record.parts.ph (by decide), ev.parts.ph (by decide), part3.ph (by decide)]
  have gh : u.gh = (enterSafe s).gh := by rw [record.parts.gh (by decide), ev.parts.gh (by decide), part3.gh (by decide), part2.gh (by decide), gh1]
  refine ⟨by rw [ph]; exact facts2.1, by rw [ph]; exact facts2.2.1, ?_, fun g => ?_, ?_, ?_⟩
  · rw [record.sys]
    show s4.sys.op = .safe
    rw [ev.parts.sys (by decide), part3.sys (by decide), facts2.2.2.1, op1]
  · rw [gh]; exact sto g
  · rw [record.regs.regGet (by decide), (ev.regs _ (by simp) (by decide)).1, cnt3, facts2.2.2.2, cnt1]
  · exact sameBut_trans (sameBut_mono (by decide) parts) (sameBut_trans (sameBut_mono (by decide) dropped) (sameBut_trans (sameBut_mono (by decide) abandoned)
      (sameBut_trans (sameBut_mono (by decide) part2) (sameBut_trans (sameBut_mono (by decide) part3) (sameBut_trans (sameBut_mono (by decide) ev.parts)
        (sameBut_mono (by decide) record.parts))))))

/-! ### Rails -/

/-- One rail reading is shown, and its warning set where it is outside 3 % of nominal (R295). -/
structure railRead (r nominal : Nat) (v : Word) (s t : State) : Prop where
  parts : sameBut [.regs, .held, .pg, .bv, .pc] s t
  regs : touches (orEvents [0xF38021, 0xF3802C + r]) s t
  shown : regGet t (0xF3802C + r) = v
  warn : 3 * nominal < 100 * ((v.toNat : Int) - nominal).natAbs → bit (regGet t 0xF38021) (8 + r) = true
  kept : ∀ n, bit (regGet s 0xF38021) n = true → bit (regGet t 0xF38021) n = true

theorem railReading_spec {r : Nat} (hr : r < 4) (nominal : Nat) (v : Word) (s : State) : railRead r nominal v s (railReading r nominal v s) := by
  have ca : canonAddr (0xF3802C + r) = 0xF3802C + r := by unfold canonAddr; rw [if_neg (by omega)]
  have reg1 : touches (orEvents [0xF38021, 0xF3802C + r]) s (putWord (0xF3802C + r) v s) := touches_putWord v (.inl (by rw [ca]; simp)) (touches_refl _ s)
  have part1 := (putWord_keeps (L := [.regs, .held]) (0xF3802C + r) v (by decide) (keeps_refl _ s)).parts
  have shown1 : regGet (putWord (0xF3802C + r) v s) (0xF3802C + r) = v := by rw [putWord, regGet_hwMod, if_pos rfl]
  have apart : canonAddr 0xF38021 ≠ canonAddr (0xF3802C + r) := by rw [ca, show canonAddr 0xF38021 = 0xF38021 by decide]; omega
  have stat1 : regGet (putWord (0xF3802C + r) v s) 0xF38021 = regGet s 0xF38021 := regGet_putWord_other _ _ apart
  unfold railReading
  generalize putWord (0xF3802C + r) v s = s1 at reg1 part1 shown1 stat1 ⊢
  extract_lets
  by_cases hw : 3 * nominal < 100 * ((v.toNat : Int) - nominal).natAbs
  · rw [if_pos hw]
    have reg2 : touches (orEvents [0xF38021, 0xF3802C + r]) s (putBit 0xF38021 (8 + r) true s1) := touches_putBit _ _ (.inl (List.mem_cons_self ..)) reg1
    have part2 := (putBit_keeps (L := [.regs, .held]) 0xF38021 (8 + r) true (by decide) (keeps_refl _ s1)).parts
    have warn2 : bit (regGet (putBit 0xF38021 (8 + r) true s1) 0xF38021) (8 + r) = true := bit_putBit_same _ true s1 (by omega)
    have kept2 : ∀ n, bit (regGet s1 0xF38021) n = true → bit (regGet (putBit 0xF38021 (8 + r) true s1) 0xF38021) n = true := fun n hn => by
      by_cases e : n = 8 + r
      · rw [e]; exact warn2
      · rw [bit_putBit_other _ _ _ (by omega) e]; exact hn
    have shown2 : regGet (putBit 0xF38021 (8 + r) true s1) (0xF3802C + r) = v := by rw [regGet_putBit, if_neg (Ne.symm apart), shown1]
    generalize putBit 0xF38021 (8 + r) true s1 = s2 at reg2 part2 warn2 kept2 shown2 ⊢
    have ev : onlyEvents s2 (raiseEvent 96 s2) := raiseEvent_onlyEvents (by omega) (onlyEvents_refl s2)
    have same : regGet (raiseEvent 96 s2) 0xF38021 = regGet s2 0xF38021 := (ev.regs _ (by simp) (by decide)).1
    refine ⟨sameBut_trans (sameBut_mono (by decide) part1) (sameBut_trans (sameBut_mono (by decide) part2) (sameBut_mono (by decide) ev.parts)),
      touches_events reg2 ev, ?_, fun _ => by rw [same]; exact warn2, fun n hn => by rw [same]; exact kept2 n (by rw [stat1]; exact hn)⟩
    rw [(ev.regs _ (by simp) (by rw [ca]; simp [eventReg]; omega)).1, shown2]
  · rw [if_neg hw]
    exact ⟨sameBut_mono (by decide) part1, reg1, shown1, fun h => absurd h hw, fun n hn => by rw [stat1]; exact hn⟩

theorem railRead.other {r nominal : Nat} {v : Word} (h : railRead r nominal v s t) {a : Nat} (ha : canonAddr a = a) (h1 : a ≠ 0xF38021)
    (h2 : a ≠ 0xF3802C + r) (h3 : eventReg a = false) : regGet t a = regGet s a :=
  h.regs.regGet (by rw [ha]; exact not_orEvents (by simp [h1, h2]) h3)

theorem railMeasurement_spec (s : State) (a b c d : Word) : ∃ u, exec (.railMeasurement a b c d) s = .next u ∧
    regGet u 0xF3802C = a ∧ regGet u 0xF3802D = b ∧ regGet u 0xF3802E = c ∧ regGet u 0xF3802F = d ∧
    (2400 < 100 * ((a.toNat : Int) - 800).natAbs → bit (regGet u 0xF38021) 8 = true) ∧
    (2700 < 100 * ((b.toNat : Int) - 900).natAbs → bit (regGet u 0xF38021) 9 = true) ∧
    (5400 < 100 * ((c.toNat : Int) - 1800).natAbs → bit (regGet u 0xF38021) 10 = true) ∧
    (9900 < 100 * ((d.toNat : Int) - 3300).natAbs → bit (regGet u 0xF38021) 11 = true) ∧
    sameBut [.regs, .held, .pg, .bv, .pc] s u ∧ regsButEvents [0xF38021, 0xF3802C, 0xF3802D, 0xF3802E, 0xF3802F] s u := by
  refine ⟨railMeasurement a b c d s, rfl, ?_⟩
  unfold railMeasurement
  have k0 := railReading_spec (r := 0) (by omega) 800 a s
  generalize railReading 0 800 a s = s0 at k0 ⊢
  have k1 := railReading_spec (r := 1) (by omega) 900 b s0
  generalize railReading 1 900 b s0 = s1 at k1 ⊢
  have k2 := railReading_spec (r := 2) (by omega) 1800 c s1
  generalize railReading 2 1800 c s1 = s2 at k2 ⊢
  have k3 := railReading_spec (r := 3) (by omega) 3300 d s2
  generalize railReading 3 3300 d s2 = u at k3 ⊢
  refine ⟨?_, ?_, ?_, k3.shown, fun h => k3.kept _ (k2.kept _ (k1.kept _ (k0.warn (by omega)))), fun h => k3.kept _ (k2.kept _ (k1.warn (by omega))),
    fun h => k3.kept _ (k2.warn (by omega)), fun h => k3.warn (by omega), ?_, ?_⟩
  · rw [k3.other (by decide) (by decide) (by decide) (by decide), k2.other (by decide) (by decide) (by decide) (by decide),
      k1.other (by decide) (by decide) (by decide) (by decide)]
    exact k0.shown
  · rw [k3.other (by decide) (by decide) (by decide) (by decide), k2.other (by decide) (by decide) (by decide) (by decide)]
    exact k1.shown
  · rw [k3.other (by decide) (by decide) (by decide) (by decide)]
    exact k2.shown
  · exact sameBut_trans k0.parts (sameBut_trans k1.parts (sameBut_trans k2.parts k3.parts))
  · exact regsButEvents_of_touches (touches_trans (touches_mono k0.regs (orEvents_mono (by decide))) (touches_trans (touches_mono k1.regs (orEvents_mono (by decide)))
      (touches_trans (touches_mono k2.regs (orEvents_mono (by decide))) (touches_mono k3.regs (orEvents_mono (by decide))))))

/-! ### The statement -/

/-- A result of an enabled input that does not feed the hold-up bank. -/
theorem sdmResult_ordinary (s : State) (k : Fin 8) (r : Word) (stuck : Bool) (hp : s.sys.op ≠ .powerUp) (hb : s.sys.op ≠ .boot)
    (en : bitOf s (0xF38018 + k.val) 19 = true) (other : bitOf s 0xF38011 19 = false ∨ holdSrc s ≠ k) :
    ∃ u, exec (.sdmResult k r stuck) s = .next u ∧ u.ph.sdm[k].result = r.toInt ∧ u.ph.sdm[k].valid = true ∧
      (stuck = true → u.ph.sdm[k].flt = true ∧ (s.ph.sdm[k].flt = false → bit (regGet u 0xF38021) (12 + k.val) = true)) ∧
      (stuck = false → s.ph.sdm[k].flt = false → |r.toInt| < 0x7FFF0 → u.ph.sdm[k].flt = false) ∧
      (∀ j : Fin 8, j ≠ k → u.ph.sdm[j] = s.ph.sdm[j]) ∧ u.ph.eff = s.ph.eff ∧ u.ph.l5 = s.ph.l5 ∧
      sameBut [.regs, .held, .ph, .pg, .bv, .pc] s u ∧ regsButEvents [0xF38021, 0xF38023, 0xF38024] s u := by
  obtain ⟨t, e, taken⟩ := sdmResult_spec k r stuck hp hb en
  have idle : holdFloor k t = t := by
    unfold holdFloor holdFlt holdSrc
    rw [taken.regs.bitOf (not_orEvents (by decide) (by decide)), taken.regs.fldOf (not_orEvents (by decide) (by decide))]
    refine if_pos ?_
    rcases other with o | o
    · rw [o]; rfl
    · rw [show Fin.ofNat 8 (fldOf s 0xF38011 18 16) = holdSrc s from rfl, bne_iff_ne.mpr o, Bool.or_true]
  refine ⟨t, congrArg Host.Outcome.next (e.trans idle), ?_, ?_, fun st => ⟨?_, taken.flag st⟩, fun st fl hr => ?_, taken.other, taken.level.1, taken.level.2,
    taken.parts, regsButEvents_of_touches taken.regs⟩
  · rw [taken.same]; rfl
  · rw [taken.same]; rfl
  · rw [taken.same, st]; exact sdmAfter_stuck r _
  · rw [taken.same, st]; exact sdmAfter_sound fl hr

theorem canonAddr_sdm (k : Fin 8) : canonAddr (0xF38018 + k.val) = 0xF38018 + k.val := by
  revert k; decide

/-- A sound result of the hold-up input below FLOOR. -/
theorem sdmResult_belowFloor (s : State) (k : Fin 8) (r : Word) (hop : s.sys.op = .runActive) (h5 : s.ph.l5 = false)
    (en : bitOf s (0xF38018 + k.val) 19 = true) (hold : bitOf s 0xF38011 19 = true) (src : holdSrc s = k) (fl : s.ph.sdm[k].flt = false)
    (hr : |r.toInt| < 0x7FFF0) (low : holdVpm s r.toInt < fldOf s 0xF38014 9 0) :
    ∃ u, exec (.sdmResult k r false) s = .next u ∧ u.ph.l5 = true ∧ u.ph.eff = 5 ∧ u.sys.op = .safe ∧
      (∀ g : Fin 4, u.gh.grp[g].cond = .sto) ∧ regGet u 0xF38034 = regGet s 0xF38034 + 1 ∧
      sameBut [.sys, .regs, .held, .mem, .sd, .pg, .bv, .gh, .ph, .pc, .mo, .sv] s u := by
  obtain ⟨t, e, taken⟩ := sdmResult_spec (s := s) k r false (by rw [hop]; decide) (by rw [hop]; decide) en
  have same : ∀ a, canonAddr a = a → a ∉ [0xF38021, 0xF38023, 0xF38024] → eventReg a = false → ¬orEvents [0xF38021, 0xF38023, 0xF38024] (canonAddr a) :=
    fun a h1 h2 h3 => by rw [h1]; exact not_orEvents h2 h3
  have srct : holdSrc t = k := by
    unfold holdSrc; rw [taken.regs.fldOf (same _ (by decide) (by decide) (by decide))]; exact src
  have enabled : bitOf t (0xF38018 + k.val) 19 = true := by
    rw [taken.regs.bitOf (same _ (canonAddr_sdm k) (by simp; omega) (by simp [eventReg]; omega))]; exact en
  have sound : t.ph.sdm[k].flt = false := by rw [taken.same]; exact sdmAfter_sound fl hr
  have valid : t.ph.sdm[k].valid = true := by rw [taken.same]; rfl
  have result : t.ph.sdm[k].result = r.toInt := by rw [taken.same]; rfl
  have tells : holdFlt t = false := by
    unfold holdFlt sdmOut
    rw [taken.regs.bitOf (same _ (by decide) (by decide) (by decide)), hold, srct, enabled, sound, valid]
    rfl
  have below : holdVpm t t.ph.sdm[k].result < fldOf t 0xF38014 9 0 := by
    unfold holdVpm
    rw [taken.regs.fldOf (same 0xF38012 (by decide) (by decide) (by decide)), taken.regs.fldOf (same 0xF38013 (by decide) (by decide) (by decide)),
      taken.regs.fldOf (same 0xF38014 (by decide) (by decide) (by decide)), result]
    exact low
  have falls : holdFloor k t = enterL5 t := by
    unfold holdFloor
    rw [if_neg (by rw [tells, srct]; simp), if_pos below]
  have l5 := enterL5_spec (s := t) (by rw [taken.parts.sys (by decide)]; exact hop) (taken.level.2.trans h5)
  refine ⟨enterL5 t, congrArg Host.Outcome.next (e.trans falls), l5.l5, l5.eff, l5.op, l5.sto, ?_, sameBut_trans (sameBut_mono (by decide) taken.parts) l5.parts⟩
  rw [l5.cnt, taken.regs.regGet (same _ (by decide) (by decide) (by decide))]

/-- Settles O11. -/
theorem pumphouseResultsRailsAndTimers : Obligations.PumphouseResultsRailsAndTimers := by
  unfold Obligations.PumphouseResultsRailsAndTimers
  refine ⟨⟨sdmResult_ordinary, sdmResult_belowFloor⟩, ⟨railMeasurement_spec, fun s ab => ?_, fun s => ⟨chopEnd s, rfl, ?_, rfl, rfl, ?_⟩⟩, fun s r hop hal tells => ?_⟩
  · refine ⟨_, congrArg Host.Outcome.next (if_pos ab), rfl, rfl, rfl, (keeps_ph (L := [.ph]) _ (by decide) (keeps_refl _ s)).parts, fun h1 h3 eq => ?_⟩
    unfold nextMeas
    rw [if_neg (show ¬s.ph.meas < s.ph.measNext by omega)]
    exact if_pos (show (true && decide (1 ≤ s.ph.meas) && decide (s.ph.meas ≤ 3)) = true by simp [h1, h3])
  · show (drivesHold s && (s.ph.ovAct || decide (256 ≤ s.ph.duty))) = true ↔ _
    simp [drivesHold]
  · exact (chopEnd_keeps (L := [.ph]) (by decide) (keeps_refl _ s)).parts
  · have e : railFault r.val s = ghFault 0x22 r.val .unitS s := by
      refine if_neg ?_
      rcases tells with h | h
      · rw [h]; simp
      · simp [Nat.not_le.mpr h]
    obtain ⟨u, eu, op, groups, -, fcode, -, parts, -⟩ := faultToSafe hop hal 0x22 (low := r.val) (by omega) (.inr rfl)
    exact ⟨u, congrArg Host.Outcome.next (e.trans eu), op, fun g => (groups g).1, fcode, parts.ph (by decide), parts⟩

end Sys2Proof.Machine
end

