-- ==== Sys2Proof/Proofs/CaptureGroups.lean ====
section
/-! PROOFS. Belvedere's capture groups and the archive (06 R164-R181). -/

namespace Sys2Proof.Machine

variable {A : Nat → Prop} {L : List Part} {o s t : State}

/-! ### Staged words -/

theorem lookupNat_append_single {β : Type} (l : List (Nat × β)) (k : Nat) (v : β) (a : Nat) :
    lookupNat (l ++ [(k, v)]) a = (lookupNat l a).or (if a = k then some v else none) := by
  induction l with
  | nil => rfl
  | cons e l ih =>
    show (if a = e.1 then some e.2 else lookupNat (l ++ [(k, v)]) a) = Option.or (if a = e.1 then some e.2 else lookupNat l a) _
    rw [ih]
    split <;> rfl

theorem inForce_eq (s : State) (a : Nat) : inForce s a = (lookupNat s.held (canonAddr a)).getD (regGet s a) := by
  unfold inForce
  cases lookupNat s.held (canonAddr a) <;> rfl

/-- A staged write shows the new word and leaves the word in force. -/
theorem stageReg_spec (a : Nat) (w : Word) (s : State) :
    touches (· = canonAddr a) s (stageReg a w s) ∧ regGet (stageReg a w s) a = w ∧ inForce (stageReg a w s) a = inForce s a := by
  have shown : ∀ b, regGet (stageReg a w s) b = regGet (regSet a w s) b := fun b => by
    rw [stageReg_eq]; split
    · rfl
    · exact regGet_of_regs rfl b
  have held : ∀ b, lookupNat (stageReg a w s).held b = (lookupNat s.held b).or (if b = canonAddr a then some (inForce s a) else none) := fun b => by
    rw [stageReg_eq]
    split
    · rename_i h
      show lookupNat s.held b = _
      by_cases e : b = canonAddr a
      · rw [e]; rw [Option.isSome_iff_exists] at h; obtain ⟨x, hx⟩ := h; rw [hx]; rfl
      · rw [if_neg e, Option.or_none]
    · exact lookupNat_append_single s.held _ _ b
  refine ⟨fun b hb => ⟨by rw [shown, regGet_regSet, if_neg hb], ?_⟩, by rw [shown, regGet_regSet, if_pos rfl], ?_⟩
  · rw [inForce_eq, inForce_eq, held, shown, if_neg hb, Option.or_none, regGet_regSet, if_neg hb]
  · rw [inForce_eq, held, if_pos rfl]
    cases h : lookupNat s.held (canonAddr a) with
    | none => rfl
    | some x => rw [inForce_eq, h]; rfl

/-- The address that a dropped write gives. -/
theorem dropWrite_addr (who : Requester) (a why : Nat) (s : State) : regGet (dropWrite who a why s) 0xF50003 = word a := by
  unfold dropWrite
  rw [regGet_putWord_other _ _ (by decide), putWord, regGet_hwMod, if_pos rfl]

/-! ### Arming and ending a record -/

theorem canonAddr_bvStat (g : Fin 4) : canonAddr (0xF20109 + 16 * g.val) = 0xF20109 + 16 * g.val := by revert g; decide

theorem rowOf_bvStat : ∀ g : Fin 4, (rowOf (0xF20109 + 16 * g.val)).isSome = true := by decide +kernel

theorem bv_setBv (g h : Fin 4) (x : BvGroup) (s : State) : (setBv g x s).bv.g[h] = if h = g then x else s.bv.g[h] := by
  show (s.bv.g.set g x)[h.val] = _
  rw [Vector.getElem_set]
  by_cases e : h = g
  · rw [if_pos e, if_pos (by rw [e])]
  · rw [if_neg e, if_neg fun k => e (Fin.ext k.symm)]; rfl

theorem bvStNum_lt (x : BvState) : bvStNum x % 2 ^ (16 + 1 - 14) = bvStNum x := by cases x <;> rfl

theorem showBv_state (s : State) (w : Word) : ∀ g : Fin 4, fld (showBv s (0xF20109 + 16 * g.val) w) 16 14 = bvStNum s.bv.g[g].st
  | 0 | 1 | 2 | 3 => by
    rw [showBv, if_pos (by decide), fld_setFld_same _ _ (by decide) (by decide)]
    exact bvStNum_lt _

/-- The state field that a read of the group's status shows. -/
theorem liveWord_bvState (s : State) (who : Requester) (g : Fin 4) :
    fld (liveWord s who (0xF20109 + 16 * g.val)) 16 14 = bvStNum s.bv.g[g].st := by
  obtain ⟨r, hr⟩ := Option.isSome_iff_exists.mp (rowOf_bvStat g)
  have hg := g.isLt
  have here : liveWord s who (0xF20109 + 16 * g.val) = showBv s (0xF20109 + 16 * g.val) (readMask r (regGet s (0xF20109 + 16 * g.val))) := by
    unfold liveWord
    rw [hr]
    show (if _ then _ else _) = _
    rw [if_neg (by omega), if_neg (by omega), if_neg (by omega), if_neg (by omega), if_pos (by omega)]
  rw [here, showBv_state]

theorem arm_spec (s : State) (who : Requester) (g : Fin 4) : ∃ u, exec (.arm who g) s = .next u ∧
      (bvMayArm s = true → bit (regGet u (0xF20109 + 16 * g.val)) 19 = true ∧ inForce u (0xF20109 + 16 * g.val) = inForce s (0xF20109 + 16 * g.val) ∧
        regsBut [0xF20109 + 16 * g.val] s u) ∧
      (bvMayArm s = false → regGet u 0xF50001 = regGet s 0xF50001 + 1 ∧ regGet u 0xF50003 = word (0xF20109 + 16 * g.val) ∧
        fld (regGet u 0xF50004) 15 8 = 6 ∧ regsBut [0xF50001, 0xF50002, 0xF50003, 0xF50004] s u) ∧
      sameBut [.sys, .regs, .held] s u := by
  have armed : sameBut [.sys] s (armLock who s) := (armLock_keeps (L := [.sys]) who (by decide) (keeps_refl _ s)).parts
  have untouched : ∀ A, touches A s (armLock who s) := fun A => touches_of_sameBut armed (by decide) (by decide)
  cases h : bvMayArm s with
  | true =>
    refine ⟨noteCommand who (bvBase g + 9) (stageReg (bvBase g + 9) (setBit (regGet s (bvBase g + 9)) 19 true) (armLock who s)),
      congrArg Host.Outcome.next (if_pos h), fun _ => ?_, (fun e => by cases e),
      (noteCommand_keeps (L := [.sys, .regs, .held]) who _ (by decide) (stageReg_keeps _ _ (by decide) (armLock_keeps who (by decide) (keeps_refl _ s)))).parts⟩
    have base : bvBase g + 9 = 0xF20109 + 16 * g.val := by unfold bvBase; omega
    rw [base]
    obtain ⟨touch, shown, force⟩ := stageReg_spec (0xF20109 + 16 * g.val) (setBit (regGet s (0xF20109 + 16 * g.val)) 19 true) (armLock who s)
    generalize stageReg (0xF20109 + 16 * g.val) (setBit (regGet s (0xF20109 + 16 * g.val)) 19 true) (armLock who s) = m at touch shown force ⊢
    have noted : sameBut [.sys] m (noteCommand who (0xF20109 + 16 * g.val) m) := (noteCommand_keeps (L := [.sys]) who _ (by decide) (keeps_refl _ m)).parts
    have last : touches (fun _ => False) m (noteCommand who (0xF20109 + 16 * g.val) m) := touches_of_sameBut noted (by decide) (by decide)
    refine ⟨?_, ?_, ?_⟩
    · rw [last.regGet id, shown, bit_setBit_same _ _ (by decide)]
    · rw [(last _ id).2, force, (untouched (fun _ => False) _ id).2]
    · refine regsBut_of_touches (touches_trans (untouched _) (touches_trans (touches_mono touch ?_) (touches_mono last fun _ => False.elim)))
      rintro a rfl
      rw [canonAddr_bvStat]
      exact List.mem_singleton_self _
  | false =>
    refine ⟨dropWrite who (bvBase g + 9) 6 (armLock who s), congrArg Host.Outcome.next (if_neg (by rw [h]; decide)), (fun e => by cases e), fun _ => ?_,
      (dropWrite_keeps (L := [.sys, .regs, .held]) who _ 6 (by decide) (armLock_keeps who (by decide) (keeps_refl _ s))).parts⟩
    obtain ⟨touch, cnt, -⟩ := dropWrite_spec who (bvBase g + 9) 6 (armLock who s)
    refine ⟨cnt, ?_, dropWrite_why who _ (by omega) _, regsBut_of_touches (touches_trans (untouched _) touch)⟩
    rw [show bvBase g + 9 = 0xF20109 + 16 * g.val by unfold bvBase; omega]
    exact dropWrite_addr who _ 6 _

theorem bvClosed_spec (x : BvGroup) : (bvClosed x).st = x.st ∧ (bvClosed x).tEvt = x.tEvt ∧ (bvClosed x).trigWaits = x.trigWaits ∧ (bvClosed x).samples = x.samples := by
  unfold bvClosed; split <;> exact ⟨rfl, rfl, rfl, rfl⟩

theorem force_spec (s : State) (who : Requester) (g : Fin 4) (st : s.bv.g[g].st = .armed) (going : s.bv.g[g].ended = none) :
    ∃ u, exec (.force who g) s = .next u ∧ u.bv.g[g].st = .triggered ∧ u.bv.g[g].tEvt = sysTime s ∧
        (s.bv.g[g].samples = [] → u.bv.g[g].trigWaits = true) ∧ u.bv.g[g].samples = s.bv.g[g].samples ∧
        fld (liveWord u who (0xF20109 + 16 * g.val)) 16 14 = 2 ∧ (∀ h : Fin 4, h ≠ g → u.bv.g[h] = s.bv.g[h]) ∧
        sameBut [.sys, .bv] s u := by
  have parts := (bvForce_keeps (L := [.sys, .bv]) g (by decide) (armLock_keeps who (by decide) (keeps_refl _ s))).parts
  have e : bvForce g (armLock who s) = setBv g (bvAccept (armLock who s) s.now s.bv.g[g]) (armLock who s) := if_pos ⟨st, by rw [show (armLock who s).bv.g[g].ended = _ from going]; rfl⟩
  have accepted : (bvForce g (armLock who s)).bv.g[g] = bvAccept (armLock who s) s.now s.bv.g[g] := by rw [e, bv_setBv, if_pos rfl]
  obtain ⟨h1, h2, h3, h4⟩ := bvClosed_spec { s.bv.g[g] with
    st := .triggered, tEvt := sysTimeAt (armLock who s) s.now
    trig := if s.bv.g[g].samples.isEmpty || bvSampleDue (armLock who s) s.now s.bv.g[g] then none
      else some ((s.bv.g[g].samples.takeWhile fun z => decide (z.ci ≤ s.now)).length - 1)
    trigWaits := s.bv.g[g].samples.isEmpty || bvSampleDue (armLock who s) s.now s.bv.g[g] }
  have st' : (bvForce g (armLock who s)).bv.g[g].st = .triggered := by rw [accepted]; exact h1
  refine ⟨bvForce g (armLock who s), rfl, st', by rw [accepted]; exact h2, fun em => ?_, by rw [accepted]; exact h4, ?_, fun h hh => by rw [e, bv_setBv, if_neg hh]; rfl, parts⟩
  · rw [accepted]; refine h3.trans ?_; rw [em]; rfl
  · rw [liveWord_bvState, st']; rfl

theorem stop_spec (s : State) (who : Requester) (g : Fin 4) (st : s.bv.g[g].st = .armed ∨ s.bv.g[g].st = .triggered) (going : s.bv.g[g].ended = none) :
      ∃ u, exec (.stop who g) s = .next u ∧ u.bv.g[g].ended = some 1 ∧ u.bv.g[g].st = s.bv.g[g].st ∧
        u.bv.g[g].samples = s.bv.g[g].samples ∧ (∀ h : Fin 4, h ≠ g → u.bv.g[h] = s.bv.g[h]) ∧ sameBut [.sys, .bv] s u := by
  have e : bvStop g (armLock who s) = setBv g { s.bv.g[g] with ended := some 1 } (armLock who s) :=
    if_pos ⟨st, .inl (by rw [show (armLock who s).bv.g[g].ended = _ from going]; rfl)⟩
  refine ⟨bvStop g (armLock who s), rfl, ?_, ?_, ?_, fun h hh => by rw [e, bv_setBv, if_neg hh]; rfl,
    (bvStop_keeps (L := [.sys, .bv]) g (by decide) (armLock_keeps who (by decide) (keeps_refl _ s))).parts⟩
  all_goals rw [e, bv_setBv, if_pos rfl]

/-! ### The end of a record -/

/-- A list of words written from an address on: each word is read back at its place, the rest of the registers stay. -/
theorem putWords_spec (ws : List Word) {a : Nat} (ha : ∀ i, canonAddr (a + i) = a + i) (s : State) :
    touches (fun b => a ≤ b ∧ b < a + ws.length) s (putWords a ws s) ∧ ∀ i, i < ws.length → regGet (putWords a ws s) (a + i) = ws.getD i 0 := by
  induction ws generalizing a s with
  | nil => exact ⟨touches_refl _ s, fun i hi => absurd hi (by simp)⟩
  | cons w ws ih =>
    have h0 : canonAddr a = a := ha 0
    have put : touches (fun b => b = a) s (putWord a w s) := touches_putWord w h0 (touches_refl _ s)
    have got : regGet (putWord a w s) a = w := by rw [putWord, regGet_hwMod, if_pos rfl]
    obtain ⟨rest, read⟩ := ih (a := a + 1) (fun i => by have := ha (i + 1); rwa [show a + (i + 1) = a + 1 + i by omega] at this) (putWord a w s)
    refine ⟨touches_trans (touches_mono put ?_) (touches_mono rest ?_), fun i hi => ?_⟩
    · rintro b rfl; simp
    · rintro b ⟨h1, h2⟩; simp only [List.length_cons]; omega
    · cases i with
      | zero =>
        show regGet (putWords (a + 1) ws (putWord a w s)) a = w
        rw [rest.regGet (by rw [h0]; omega), got]
      | succ i =>
        show regGet (putWords (a + 1) ws (putWord a w s)) (a + (i + 1)) = _
        rw [show a + (i + 1) = a + 1 + i by omega, List.getD_cons_succ]
        exact read i (by simpa using hi)

theorem canonAddr_bv {a : Nat} (h : 0xF20000 ≤ a) : canonAddr a = a := by
  unfold canonAddr; rw [if_neg (by omega)]

/-- What a completed record leaves in the group's status: DONE, the reason and whether the record is partial, and the event of its end. -/
theorem recordMarked_spec (g : Fin 4) {r : Nat} (hr : r < 8) (p : Bool) (s : State) (hg : s.bv.g[g].st ≠ .armed) :
    let u := raiseEvent (80 + g.val) (putBit (bvBase g + 9) 10 true (putBit (bvBase g + 9) 9 p (putFld (bvBase g + 9) 13 11 r s)))
    bit (regGet u (0xF20109 + 16 * g.val)) 10 = true ∧ fld (regGet u (0xF20109 + 16 * g.val)) 13 11 = r ∧ u.bv.g[g] = s.bv.g[g] ∧
      ∀ a, canonAddr a = a → a ≠ 0xF20109 + 16 * g.val → eventReg a = false → regGet u a = regGet s a := by
  have base : bvBase g + 9 = 0xF20109 + 16 * g.val := by unfold bvBase; omega
  have ca : canonAddr (0xF20109 + 16 * g.val) = 0xF20109 + 16 * g.val := canonAddr_bvStat g
  rw [base]
  intro u
  have ev : onlyEvents (putBit (0xF20109 + 16 * g.val) 10 true (putBit (0xF20109 + 16 * g.val) 9 p (putFld (0xF20109 + 16 * g.val) 13 11 r s))) u :=
    raiseEvent_onlyEvents (by omega) (onlyEvents_refl _)
  have word0 : regGet (putBit (0xF20109 + 16 * g.val) 10 true (putBit (0xF20109 + 16 * g.val) 9 p (putFld (0xF20109 + 16 * g.val) 13 11 r s))) (0xF20109 + 16 * g.val) =
      setBit (setBit (setFld (regGet s (0xF20109 + 16 * g.val)) 13 11 r) 9 p) 10 true := by
    rw [regGet_putBit, if_pos rfl, regGet_putBit, if_pos rfl, regGet_putFld, if_pos rfl]
  have regs : touches (fun b => b = 0xF20109 + 16 * g.val) s
      (putBit (0xF20109 + 16 * g.val) 10 true (putBit (0xF20109 + 16 * g.val) 9 p (putFld (0xF20109 + 16 * g.val) 13 11 r s))) :=
    touches_putBit _ _ ca (touches_putBit _ _ ca (touches_putFld _ _ _ ca (touches_refl _ s)))
  have parts : sameBut [.regs, .held] s
      (putBit (0xF20109 + 16 * g.val) 10 true (putBit (0xF20109 + 16 * g.val) 9 p (putFld (0xF20109 + 16 * g.val) 13 11 r s))) :=
    (putBit_keeps _ _ _ (by decide) (putBit_keeps _ _ _ (by decide) (putFld_keeps (L := [.regs, .held]) _ _ _ _ (by decide) (keeps_refl _ s)))).parts
  clear_value u
  generalize putBit (0xF20109 + 16 * g.val) 10 true (putBit (0xF20109 + 16 * g.val) 9 p (putFld (0xF20109 + 16 * g.val) 13 11 r s)) = m at ev word0 regs parts
  have stat : regGet u (0xF20109 + 16 * g.val) = setBit (setBit (setFld (regGet s (0xF20109 + 16 * g.val)) 13 11 r) 9 p) 10 true := by
    rw [(ev.regs _ (by simp) (by rw [ca]; simp [eventReg]; omega)).1, word0]
  refine ⟨by rw [stat, bit_setBit_same _ _ (by decide)], ?_, ?_, fun a ha hne he => ?_⟩
  · rw [stat, fld_setBit_other _ _ (by decide) (by decide), fld_setBit_other _ _ (by decide) (by decide), fld_setFld_same _ _ (by decide) (by decide)]
    exact Nat.mod_eq_of_lt hr
  · rw [ev.group g (by rw [parts.bv (by decide)]; exact hg), parts.bv (by decide)]
  · rw [(ev.regs a (by simp) (by rw [ha]; exact he)).1, regs.regGet (by rw [ha]; exact hne)]

theorem recordDone_spec (s : State) (g : Fin 4) (r : Nat) (he : s.bv.g[g].ended = some r) (hr : r < 8) :
    ∃ u, exec (.recordDone g) s = .next u ∧ u.bv.g[g].st = .done ∧ u.bv.g[g].ended = none ∧ u.bv.g[g].samples = s.bv.g[g].samples ∧
      bit (regGet u (0xF20109 + 16 * g.val)) 10 = true ∧ fld (regGet u (0xF20109 + 16 * g.val)) 13 11 = r ∧
      (∀ who : Requester, fld (liveWord u who (0xF20109 + 16 * g.val)) 16 14 = 3) ∧ regGet u (0xF20181 + 32 * g.val) = word (bvWords s.bv.g[g]) ∧
      sameBut [.regs, .held, .pg, .bv, .pc] s u := by
  refine ⟨recordDone g s, rfl, ?_⟩
  have parts := (recordDone_keeps (L := [.regs, .held, .pg, .bv, .pc]) g (by decide) (keeps_refl _ s)).parts
  obtain ⟨base, rest, meas, e⟩ : ∃ (base : Word) (rest meas : List Word), recordDone g s =
      raiseEvent (80 + g.val) (putBit (bvBase g + 9) 10 true (putBit (bvBase g + 9) 9 (bvPartial s.bv.g[g]) (putFld (bvBase g + 9) 13 11 r
        (putWords (bvHdr g) (base :: word (bvWords s.bv.g[g]) :: rest) (putWords (bvMeas g + 16) meas
          (setBv g { s.bv.g[g] with st := .done, ended := none } s)))))) := by
    unfold recordDone
    extract_lets x
    rw [show x.ended = some r from he]
    exact ⟨_, _, _, rfl⟩
  have set : (setBv g { s.bv.g[g] with st := .done, ended := none } s).bv.g[g] = { s.bv.g[g] with st := .done, ended := none } := by rw [bv_setBv, if_pos rfl]
  have hdr := (putWords_spec (base :: word (bvWords s.bv.g[g]) :: rest) (a := bvHdr g) (fun i => canonAddr_bv (by unfold bvHdr; omega))
    (putWords (bvMeas g + 16) meas (setBv g { s.bv.g[g] with st := .done, ended := none } s))).2 1 (by simp)
  have bv : (putWords (bvHdr g) (base :: word (bvWords s.bv.g[g]) :: rest) (putWords (bvMeas g + 16) meas
      (setBv g { s.bv.g[g] with st := .done, ended := none } s))).bv = (setBv g { s.bv.g[g] with st := .done, ended := none } s).bv :=
    (putWords_keeps (L := [.regs, .held]) _ _ (by decide) (putWords_keeps _ _ (by decide) (keeps_refl _ _))).parts.bv (by decide)
  generalize putWords (bvHdr g) (base :: word (bvWords s.bv.g[g]) :: rest) (putWords (bvMeas g + 16) meas
    (setBv g { s.bv.g[g] with st := .done, ended := none } s)) = m at e hdr bv
  obtain ⟨done, why, same, regs⟩ := recordMarked_spec g hr (bvPartial s.bv.g[g]) m (by rw [bv, set]; simp)
  rw [← e, bv, set] at same
  rw [← e] at done why regs
  refine ⟨by rw [same], by rw [same], by rw [same], done, why, fun who => by rw [liveWord_bvState, same]; rfl, ?_, parts⟩
  rw [regs _ (canonAddr_bv (by omega)) (by omega) (by simp [eventReg]; omega), show 0xF20181 + 32 * g.val = bvHdr g + 1 by unfold bvHdr; omega]
  exact hdr

/-- Settles O12. -/
theorem captureGroupsRecord : Obligations.CaptureGroupsRecord := by
  unfold Obligations.CaptureGroupsRecord
  exact ⟨fun s who g => ⟨arm_spec s who g, force_spec s who g, stop_spec s who g⟩, recordDone_spec⟩

/-! ### The archive -/

theorem kWrite_unlocked {who : Requester} (h : who ∈ s.sys.unlocked) (a : Nat) (f : State → State) : kWrite who a f s = f (armLock who s) :=
  if_pos (by simpa using h)

theorem armLock_locked (who : Requester) (s : State) : who ∉ (armLock who s).sys.unlocked := by
  simp [armLock]

theorem slotValid_of_mem (h : t.mem = s.mem) (i : Nat) : slotValid t i = slotValid s i := by
  unfold slotValid mramGetAll mramGet; rw [h]

theorem newestAseq_of_mem (h : t.mem = s.mem) : newestAseq t = newestAseq s := by
  unfold newestAseq
  simp only [slotValid_of_mem h]
  unfold mramGet; rw [h]

/-- The image of a record depends on its registers below BV_ARC, on the record and on the memories. -/
theorem slotImage_congr (g : Fin 4) (slot : Nat) (hbv : t.bv = s.bv) (hmem : t.mem = s.mem) (hper : t.sys.per = s.sys.per)
    (hr : ∀ a, 0xF20000 ≤ a → a < 0xF20280 → regGet t a = regGet s a) : slotImage g slot t = slotImage g slot s := by
  have hg := g.isLt
  have rg : ∀ a n, 0xF20000 ≤ a → a + n ≤ 0xF20280 → (List.range n).map (fun i => regGet t (a + i)) = (List.range n).map (fun i => regGet s (a + i)) := fun a n h1 h2 =>
    List.map_congr_left fun i hi => hr _ (by omega) (by have := List.mem_range.mp hi; omega)
  have stat : regGet t (bvBase g + 9) = regGet s (bvBase g + 9) := hr _ (by unfold bvBase; omega) (by unfold bvBase; omega)
  have data : ∀ x, bvData t x = bvData s x := fun x => by unfold bvData bvRecGet; rw [hmem]
  unfold slotImage
  simp (disch := (simp only [bvHdr, bvMeas]; omega)) only [hbv, hper, newestAseq_of_mem hmem, stat, data, rg]

/-- The write of BV_ARC that an ARCH takes: the group, the slot and OVW. -/
def archAsked (g slot : Nat) (ovw : Bool) (s : State) : State :=
  putBit 0xF20280 10 ovw (putFld 0xF20280 16 11 slot (putFld 0xF20280 18 17 g s))

theorem archAsked_spec (g slot : Nat) (ovw : Bool) (s : State) :
    sameBut [.regs, .held] s (archAsked g slot ovw s) ∧ touches (· ∈ [0xF20280]) s (archAsked g slot ovw s) :=
  ⟨(putBit_keeps _ _ _ (by decide) (putFld_keeps _ _ _ _ (by decide) (putFld_keeps (L := [.regs, .held]) _ _ _ _ (by decide) (keeps_refl _ s)))).parts,
    touches_putBit _ _ (by decide) (touches_putFld _ _ _ (by decide) (touches_putFld _ _ _ (by decide) (touches_refl _ s)))⟩

/-- An ARCH refused with a result. -/
theorem setAres_spec {n : Nat} (hn : n < 8) (s : State) : fld (regGet (setAres n s) 0xF20280) 7 5 = n ∧ (setAres n s).bv = s.bv := by
  unfold setAres
  rw [regGet_putFld, if_pos rfl, fld_setFld_same _ _ (by decide) (by decide)]
  exact ⟨Nat.mod_eq_of_lt hn, putFld_bv ..⟩

theorem archive_frame (who : Requester) (g : Fin 4) (slot : Nat) (ovw : Bool) (hs : s.ph.tShed ≠ some s.now) : touches (· ∈ [0xF20280]) s (archive who g slot ovw s) := by
  have asked := (archAsked_spec g slot ovw s).2
  have res : ∀ n, touches (· ∈ [0xF20280]) s (setAres n (archAsked g slot ovw s)) := fun n => touches_putFld _ _ _ (by decide) asked
  unfold archive
  rw [if_neg hs]
  exact touches_ite _ asked (touches_ite _ (res 1) (touches_ite _ (res 2) (touches_ite _ (res 3) (touches_ite _ (res 5)
    (touches_putBit _ _ (by decide) (touches_same asked rfl rfl))))))

/-- What an ARCH outside a shed and with no archive running is answered (R175-R177). -/
structure archAnswered (g : Fin 4) (slot : Nat) (ovw : Bool) (s t : State) : Prop where
  notDone : s.bv.g[g].st ≠ .done → fld (regGet t 0xF20280) 7 5 = 1 ∧ t.bv = s.bv
  tooLong : s.bv.g[g].st = .done → 928 < bvWords s.bv.g[g] → fld (regGet t 0xF20280) 7 5 = 2 ∧ t.bv = s.bv
  occupied : s.bv.g[g].st = .done → bvWords s.bv.g[g] ≤ 928 → slotValid s slot = true → ovw = false → fld (regGet t 0xF20280) 7 5 = 3 ∧ t.bv = s.bv
  taken : s.bv.g[g].st = .done → bvWords s.bv.g[g] ≤ 928 → (slotValid s slot = false ∨ ovw = true) → effLevel s = 0 →
    bit (regGet t 0xF20280) 9 = true ∧ t.bv.g = s.bv.g ∧ t.bv.arch = some (g.val, slot, slotImage g slot s)

theorem archive_spec (who : Requester) (g : Fin 4) (slot : Nat) (ovw : Bool) (idle : s.bv.arch = none) (hs : s.ph.tShed ≠ some s.now) :
    archAnswered g slot ovw s (archive who g slot ovw s) := by
  obtain ⟨parts, regs⟩ := archAsked_spec g slot ovw s
  have bv : (archAsked g slot ovw s).bv = s.bv := parts.bv (by decide)
  have valid : slotValid (archAsked g slot ovw s) slot = slotValid s slot := slotValid_of_mem (parts.mem (by decide)) slot
  have level : effLevel (archAsked g slot ovw s) = effLevel s := congrArg Pump.eff (parts.ph (by decide))
  have image : slotImage g slot (archAsked g slot ovw s) = slotImage g slot s :=
    slotImage_congr g slot bv (parts.mem (by decide)) (by rw [parts.sys (by decide)]) fun a h1 h2 =>
      regs.regGet (by rw [canonAddr_bv h1]; simp; omega)
  have e : archive who g slot ovw s =
      (let m := archAsked g slot ovw s
      if m.bv.arch.isSome then m
      else if m.bv.g[g].st ≠ .done then setAres 1 m
      else if 928 < bvWords m.bv.g[g] then setAres 2 m
      else if slotValid m slot && !ovw then setAres 3 m
      else if 1 ≤ effLevel m then setAres 5 m
      else putBit 0xF20280 9 true { m with bv := { m.bv with arch := some (g.val, slot, slotImage g slot m) } }) := if_neg hs
  generalize archAsked g slot ovw s = m at bv valid level image e
  rw [e]
  simp only [bv, valid, level, image, idle]
  rw [if_neg (by simp)]
  refine ⟨fun h => ?_, fun d h => ?_, fun d h hv ho => ?_, fun d h hv hl => ?_⟩
  · rw [if_pos h]; exact ⟨(setAres_spec (by decide) m).1, (setAres_spec (n := 1) (by decide) m).2.trans bv⟩
  · rw [if_neg (by rw [d]; simp), if_pos h]
    exact ⟨(setAres_spec (by decide) m).1, (setAres_spec (n := 2) (by decide) m).2.trans bv⟩
  · rw [if_neg (by rw [d]; simp), if_neg (by omega), if_pos (by rw [hv, ho]; rfl)]
    exact ⟨(setAres_spec (by decide) m).1, (setAres_spec (n := 3) (by decide) m).2.trans bv⟩
  · rw [if_neg (by rw [d]; simp), if_neg (by omega), if_neg (by rcases hv with v | v <;> rw [v] <;> simp), if_neg (by omega), putBit_bv]
    exact ⟨bit_putBit_same _ true _ (by decide), rfl, rfl⟩

theorem arch_spec (s : State) (who : Requester) (g : Fin 4) (slot : Fin 64) (ovw : Bool) (open_ : who ∈ s.sys.unlocked) (idle : s.bv.arch = none)
    (hs : s.ph.tShed ≠ some s.now) :
    ∃ u, exec (.arch who g slot ovw) s = .next u ∧ who ∉ u.sys.unlocked ∧
      (s.bv.g[g].st ≠ .done → fld (regGet u 0xF20280) 7 5 = 1 ∧ u.bv = s.bv) ∧
      (s.bv.g[g].st = .done → 928 < bvWords s.bv.g[g] → fld (regGet u 0xF20280) 7 5 = 2 ∧ u.bv = s.bv) ∧
      (s.bv.g[g].st = .done → bvWords s.bv.g[g] ≤ 928 → slotValid s slot = true → ovw = false →
        fld (regGet u 0xF20280) 7 5 = 3 ∧ u.bv = s.bv) ∧
      (s.bv.g[g].st = .done → bvWords s.bv.g[g] ≤ 928 → (slotValid s slot = false ∨ ovw = true) → effLevel s = 0 →
        bit (regGet u 0xF20280) 9 = true ∧ u.bv.g = s.bv.g ∧ u.bv.arch = some (g.val, slot.val, slotImage g slot s)) ∧
      sameBut [.sys, .regs, .held, .bv] s u ∧ regsBut [0xF20280] s u := by
  have answered := archive_spec (s := armLock who s) who g slot.val ovw idle hs
  have image : slotImage g slot.val (armLock who s) = slotImage g slot.val s := slotImage_congr g slot.val rfl rfl rfl fun a _ _ => regGet_of_regs rfl a
  have kept := (archive_keeps (L := [.regs, .held, .bv]) who g slot.val ovw (by decide) (keeps_refl _ (armLock who s))).parts
  have armed := (armLock_keeps (L := [.sys]) who (by decide) (keeps_refl _ s)).parts
  refine ⟨_, congrArg Host.Outcome.next (kWrite_unlocked open_ _ _), ?_, answered.notDone, answered.tooLong, answered.occupied, fun d h hv hl => ?_, ?_, ?_⟩
  · rw [kept.sys (by decide)]; exact armLock_locked who s
  · rw [← image]; exact answered.taken d h hv hl
  · exact sameBut_trans (sameBut_mono (by decide) armed) (sameBut_mono (by decide) kept)
  · exact regsBut_of_touches (touches_trans (touches_of_sameBut armed (by decide) (by decide)) (archive_frame who g slot.val ovw hs))

theorem arch_shedding (s : State) (who : Requester) (g : Fin 4) (slot : Fin 64) (ovw : Bool) (open_ : who ∈ s.sys.unlocked) (hs : s.ph.tShed = some s.now) :
    ∃ u, exec (.arch who g slot ovw) s = .next u ∧ who ∉ u.sys.unlocked ∧ regGet u 0xF50001 = regGet s 0xF50001 + 1 ∧
      regGet u 0xF50003 = word 0xF20280 ∧ fld (regGet u 0xF50004) 15 8 = 6 ∧
      sameBut [.sys, .regs, .held] s u ∧ regsBut [0xF50001, 0xF50002, 0xF50003, 0xF50004] s u := by
  have armed := (armLock_keeps (L := [.sys]) who (by decide) (keeps_refl _ s)).parts
  have e : archive who g slot.val ovw (armLock who s) = dropWrite who 0xF20280 6 (armLock who s) := if_pos hs
  obtain ⟨touch, cnt, -⟩ := dropWrite_spec who 0xF20280 6 (armLock who s)
  refine ⟨_, congrArg Host.Outcome.next ((kWrite_unlocked open_ _ _).trans e), ?_, ?_, dropWrite_addr .., dropWrite_why who _ (by omega) _,
    (dropWrite_keeps (L := [.sys, .regs, .held]) who _ 6 (by decide) (armLock_keeps who (by decide) (keeps_refl _ s))).parts,
    regsBut_of_touches (touches_trans (touches_of_sameBut armed (by decide) (by decide)) touch)⟩
  · rw [dropWrite_sys]; exact armLock_locked who s
  · rw [cnt, regGet_of_regs (armed.regs (by decide))]

/-! ### The end of an archive -/

theorem mramGet_mramPutAll (ws : List Word) (a b : Nat) (ho : s.sys.op ≠ .test) :
    mramGet (mramPutAll a ws s) b = if a ≤ b ∧ b < a + ws.length then ws.getD (b - a) 0 else mramGet s b := by
  induction ws generalizing a s with
  | nil => rw [if_neg (by simp only [List.length_nil]; omega)]; rfl
  | cons w ws ih =>
    have op : (mramSet a w s).sys.op ≠ .test := by unfold mramSet; rw [if_neg ho]; exact ho
    show mramGet (mramPutAll (a + 1) ws (mramSet a w s)) b = _
    rw [ih _ op, mramGet_mramSet _ _ _ _ ho]
    simp only [List.length_cons]
    by_cases h0 : b = a
    · rw [h0, if_neg (by omega), if_pos rfl, if_pos (by omega), Nat.sub_self]; rfl
    · by_cases h1 : a + 1 ≤ b ∧ b < a + 1 + ws.length
      · rw [if_pos h1, if_pos (by omega), show b - a = (b - (a + 1)) + 1 by omega]; rfl
      · rw [if_neg h1, if_neg h0, if_neg (by omega)]

theorem archiveComplete_spec (s : State) (g slot : Nat) (img : List Word) (ha : s.bv.arch = some (g, slot, img)) (ho : s.sys.op ≠ .test) :
    ∃ u, exec (.archiveComplete true) s = .next u ∧ u.bv.arch = none ∧
      (∀ i, i < img.length → mramGet u (0x70000 + 0x400 * slot + i) = img.getD i 0) ∧
      (∀ a, (a < 0x70000 + 0x400 * slot ∨ 0x70000 + 0x400 * slot + img.length ≤ a) → mramGet u a = mramGet s a) ∧
      bit (regGet u 0xF20280) 9 = false ∧ bit (regGet u 0xF20280) 8 = true ∧ fld (regGet u 0xF20280) 7 5 = 0 ∧
      sameBut [.regs, .held, .mem, .pg, .bv, .pc] s u ∧
      regsButEvents [0xF20280, 0xF20281, 0xF20282, 0xF20283, 0xF20284] s u := by
  refine ⟨archiveComplete true s, rfl, ?_⟩
  have parts := (archiveComplete_keeps (L := [.regs, .held, .mem, .pg, .bv, .pc]) true (by decide) (keeps_refl _ s)).parts
  have e : archiveComplete true s = raiseEvent 84 (putBit 0xF20280 8 true (putBit 0xF20280 9 false (setAres 0 (showSlots
      (pcSys 0x5D img.length (mramPutAll (slotBase slot) img { s with bv := { s.bv with arch := none } })))))) := by
    unfold archiveComplete; rw [ha]; rfl
  rw [e] at parts ⊢
  have mem0 := fun b => mramGet_mramPutAll (s := { s with bv := { s.bv with arch := none } }) img (slotBase slot) b ho
  have part0 := (mramPutAll_keeps (L := [.mem, .bv]) (slotBase slot) img (by decide) (keeps_bv (L := [.mem, .bv]) { s.bv with arch := none } (by decide) (keeps_refl _ s))).parts
  have arch0 : (mramPutAll (slotBase slot) img { s with bv := { s.bv with arch := none } }).bv.arch = none :=
    congrArg Belvedere.arch ((mramPutAll_keeps (L := [.mem]) (slotBase slot) img (by decide) (keeps_refl _ _)).parts.bv (by decide))
  generalize mramPutAll (slotBase slot) img { s with bv := { s.bv with arch := none } } = m0 at mem0 part0 arch0 parts ⊢
  have ev1 : onlyEvents m0 (pcSys 0x5D img.length m0) := pcSys_onlyEvents _ _ (onlyEvents_refl _)
  generalize pcSys 0x5D img.length m0 = m1 at ev1 parts ⊢
  have regs2 : touches (orEvents [0xF20280, 0xF20281, 0xF20282, 0xF20283, 0xF20284]) m1 (putBit 0xF20280 8 true (putBit 0xF20280 9 false (setAres 0 (showSlots m1)))) := by
    refine touches_putBit _ _ (.inl (by decide)) (touches_putBit _ _ (.inl (by decide)) (touches_putFld _ _ _ (.inl (by decide)) ?_))
    refine touches_upTo 4 (fun i hi m hm => touches_putWord _ (.inl ?_) hm) (touches_refl _ m1)
    rw [canonAddr_bv (by omega)]; simp; omega
  have parts2 : sameBut [.regs, .held] m1 (putBit 0xF20280 8 true (putBit 0xF20280 9 false (setAres 0 (showSlots m1)))) :=
    (putBit_keeps _ _ _ (by decide) (putBit_keeps _ _ _ (by decide) (setAres_keeps (L := [.regs, .held]) _ (by decide) (showSlots_keeps (by decide) (keeps_refl _ m1))))).parts
  have word2 : ∃ w, regGet (putBit 0xF20280 8 true (putBit 0xF20280 9 false (setAres 0 (showSlots m1)))) 0xF20280 = setBit (setBit (setFld w 7 5 0) 9 false) 8 true := by
    unfold setAres
    exact ⟨_, by rw [regGet_putBit, if_pos rfl, regGet_putBit, if_pos rfl, regGet_putFld, if_pos rfl]⟩
  generalize putBit 0xF20280 8 true (putBit 0xF20280 9 false (setAres 0 (showSlots m1))) = m2 at regs2 parts2 word2 parts ⊢
  have ev3 : onlyEvents m2 (raiseEvent 84 m2) := raiseEvent_onlyEvents (by omega) (onlyEvents_refl _)
  generalize raiseEvent 84 m2 = u at ev3 parts ⊢
  have mem : ∀ b, mramGet u b = mramGet m0 b := fun b => by
    unfold mramGet; rw [ev3.parts.mem (by decide), parts2.mem (by decide), ev1.parts.mem (by decide)]
  obtain ⟨w, word2⟩ := word2
  have word3 : regGet u 0xF20280 = setBit (setBit (setFld w 7 5 0) 9 false) 8 true := by rw [(ev3.regs _ (by simp) (by decide)).1, word2]
  refine ⟨?_, fun i hi => ?_, fun a h => ?_, ?_, ?_, ?_, parts, ?_⟩
  · rw [ev3.arch, parts2.bv (by decide), ev1.arch, arch0]
  · rw [mem, mem0, if_pos (by unfold slotBase; omega), show 0x70000 + 0x400 * slot + i - slotBase slot = i by unfold slotBase; omega]
  · rw [mem, mem0, if_neg (by unfold slotBase; omega)]; rfl
  · rw [word3, bit_setBit_other _ _ (by decide) (by decide), bit_setBit_same _ _ (by decide)]
  · rw [word3, bit_setBit_same _ _ (by decide)]
  · rw [word3, fld_setBit_other _ _ (by decide) (by decide), fld_setBit_other _ _ (by decide) (by decide), fld_setFld_same _ _ (by decide) (by decide), Nat.zero_mod]
  · exact regsButEvents_of_touches (touches_events (touches_trans (touches_events (touches_of_sameBut part0 (by decide) (by decide)) ev1) regs2) ev3)

/-- Settles O13. -/
theorem archiveOfARecord : Obligations.ArchiveOfARecord := by
  unfold Obligations.ArchiveOfARecord
  exact ⟨arch_spec, arch_shedding, archiveComplete_spec⟩

end Sys2Proof.Machine
end

