-- ==== Sys2Proof/Proofs/PergolaPosts.lean ====
section
/-! PROOFS. Pergola's posts, the delay list, the system tick and the posts of event sources (13 R363-R382). -/

namespace Sys2Proof.Machine

variable {A : Nat → Prop} {L : List Part} {o s t : State}

/-- A field written reads back. -/
theorem fld_putFld (a : Nat) {hi lo v : Nat} (s : State) (hl : lo ≤ hi) (hh : hi < 20) (hv : v < 2 ^ (hi + 1 - lo)) :
    fld (regGet (putFld a hi lo v s) a) hi lo = v := by
  rw [regGet_putFld, if_pos rfl, fld_setFld_same _ _ hl hh, Nat.mod_eq_of_lt hv]

/-! ### Offering a post -/

theorem canonAddr_high {a : Nat} (h : 0xF20000 ≤ a) : canonAddr a = a := canonAddr_bv h

theorem descCfg_not_event {d : Nat} (hd : d < 512) {i : Nat} (hi : i < 4) {as : List Nat} (has : ∀ a ∈ as, 0xF3C800 ≤ a) :
    ¬orEvents as (canonAddr (descCfg d + i)) := by
  have e : canonAddr (descCfg d + i) = descCfg d + i := canonAddr_high (by unfold descCfg; omega)
  rw [e]
  refine not_orEvents (fun m => ?_) (by unfold descCfg; simp [eventReg]; omega)
  have := has _ m
  unfold descCfg at this; omega

/-- A post of an enabled descriptor with room: it joins the ready store, and nothing else but events. -/
theorem pushPost_spec (d : Nat) (arg : Word) (s : State) : (pushPost d arg s).pg = { s.pg with ready := s.pg.ready ++ [⟨d, arg, descKey s d⟩], evPend := (pushPost d arg s).pg.evPend } ∧
    sameBut [.regs, .held, .pg, .bv, .pc] s (pushPost d arg s) ∧ touches (orEvents []) s (pushPost d arg s) := by
  have ev : onlyEvents { s with pg := { s.pg with ready := s.pg.ready ++ [⟨d, arg, descKey s d⟩] } } (pushPost d arg s) := pcSys_onlyEvents 0x55 1 (onlyEvents_refl _)
  exact ⟨ev.pg, (pushPost_keeps d arg (by decide) (keeps_refl _ s)).parts, touches_trans (touches_of_regsButEvents (regsButEvents_of (regsBut_of rfl rfl _))) (touches_of_regsButEvents ev.regs)⟩

theorem offerPost_pushed {d : Nat} (en : descEn s d = true) (room : readyRefuses s d = false) (arg : Word) : offerPost d arg s = (true, pushPost d arg s) := by
  unfold offerPost; rw [en, room]; rfl

theorem offerPost_discarded {d : Nat} (en : descEn s d = false) (arg : Word) : offerPost d arg s = (true, discardPost d s) := by
  unfold offerPost; rw [en]; rfl

theorem offerPost_refused {d : Nat} (en : descEn s d = true) (room : readyRefuses s d = true) (arg : Word) : offerPost d arg s = (false, s) := by
  unfold offerPost; rw [en, room]; rfl

/-- The descriptors and the room for a post are read from the registers and the ready store. -/
theorem desc_of_regs (hr : t.regs = s.regs) (hh : t.held = s.held) (d : Nat) : descEn t d = descEn s d ∧ descKey t d = descKey s d := by
  unfold descEn descKey
  rw [bitOf_eq hr hh, fldOf_eq hr hh]
  exact ⟨rfl, rfl⟩

theorem readyRefuses_of_regs (hr : t.regs = s.regs) (hh : t.held = s.held) (hp : t.pg.ready = s.pg.ready) (d : Nat) : readyRefuses t d = readyRefuses s d := by
  unfold readyRefuses descClass descMaxp descPend
  rw [fldOf_eq hr hh, hp]

/-! ### Posts by a core -/

theorem pgAnswers_afterBoot (h : afterBoot s = true) (who : Requester) : pgAnswers who s = true := by unfold pgAnswers; rw [h]; rfl

theorem corePost_taken {c : Fin 8} {a : Nat} {p : StalledPost} (h : tryPost p s = (true, t)) : corePost (.core c) a p s = t := by
  unfold corePost; simp only [h]

theorem corePost_stalled {c : Fin 8} {a : Nat} {p : StalledPost} (h : tryPost p s = (false, t)) :
    corePost (.core c) a p s = stallWith c p (refusedPost (stalledDesc p) (count (0xF3C90B + 16 * c.val) t)) := by
  unfold corePost; simp only [h]

theorem cores_setCore (c k : Fin 8) (x : Core) (s : State) : (setCore c x s).cores[k] = if k = c then x else s.cores[k] := by
  show (s.cores.set c x)[k.val] = _
  rw [Vector.getElem_set]
  by_cases e : k = c
  · rw [if_pos e, if_pos (by rw [e])]
  · rw [if_neg e, if_neg fun h => e (Fin.ext h.symm)]; rfl

theorem armLock_sameBut (who : Requester) (s : State) : sameBut [.sys] s (armLock who s) :=
  (armLock_keeps who (by decide) (keeps_refl _ s)).parts

/-- The core that wrote a refused post is stalled on it, and the refusal is counted (R379). -/
structure stalledOn (c : Fin 8) (d : Nat) (p : StalledPost) (s t : State) : Prop where
  stalled : t.cores[c].stalled = some p
  others : ∀ k : Fin 8, k ≠ c → t.cores[k] = s.cores[k]
  lists : t.pg.ready = s.pg.ready ∧ t.pg.delay = s.pg.delay
  bpcnt : regGet t 0xF3C803 = regGet s 0xF3C803 + 1
  stalls : regGet t (0xF3C90B + 16 * c.val) = regGet s (0xF3C90B + 16 * c.val) + 1
  flag : bit (regGet t (descCfg d + 3)) 7 = true
  parts : sameBut [.regs, .held, .cores, .pg, .bv, .pc] s t

theorem stallWith_spec (c : Fin 8) {d : Nat} (hd : d < 512) (p : StalledPost) (s : State) :
    stalledOn c d p s (stallWith c p (refusedPost d (count (0xF3C90B + 16 * c.val) s))) := by
  have hc := c.isLt
  have cs : canonAddr (0xF3C90B + 16 * c.val) = 0xF3C90B + 16 * c.val := canonAddr_high (by omega)
  have cd : canonAddr (descCfg d + 3) = descCfg d + 3 := canonAddr_high (by unfold descCfg; omega)
  have n1 : canonAddr 0xF3C803 ≠ canonAddr (0xF3C90B + 16 * c.val) := by rw [cs, canonAddr_high (by omega)]; omega
  have n2 : canonAddr 0xF3C803 ≠ canonAddr (descCfg d + 3) := by rw [cd, canonAddr_high (by omega)]; unfold descCfg; omega
  have n3 : canonAddr (0xF3C90B + 16 * c.val) ≠ canonAddr (descCfg d + 3) := by rw [cd, cs]; unfold descCfg; omega
  have parts := (stallWith_keeps (L := [.regs, .held, .cores, .pg, .bv, .pc]) c p (by decide) (refusedPost_keeps d (by decide) (count_keeps (0xF3C90B + 16 * c.val) (by decide) (keeps_refl _ s)))).parts
  have cnt1 := count_regGet_same (0xF3C90B + 16 * c.val) s
  have part1 := (count_keeps (L := [.regs, .held]) (0xF3C90B + 16 * c.val) (by decide) (keeps_refl _ s)).parts
  have other1 : regGet (count (0xF3C90B + 16 * c.val) s) 0xF3C803 = regGet s 0xF3C803 := regGet_count_other _ n1
  generalize count (0xF3C90B + 16 * c.val) s = s1 at parts cnt1 part1 other1 ⊢
  have cnt2 : regGet (putBit (descCfg d + 3) 7 true (count 0xF3C803 s1)) 0xF3C803 = regGet s1 0xF3C803 + 1 := by
    rw [regGet_putBit, if_neg n2, count_regGet_same]
  have stalls2 : regGet (putBit (descCfg d + 3) 7 true (count 0xF3C803 s1)) (0xF3C90B + 16 * c.val) = regGet s1 (0xF3C90B + 16 * c.val) := by
    rw [regGet_putBit, if_neg n3, regGet_count_other _ (Ne.symm n1)]
  have flag2 : bit (regGet (putBit (descCfg d + 3) 7 true (count 0xF3C803 s1)) (descCfg d + 3)) 7 = true := bit_putBit_same _ true _ (by decide)
  have part2 := (putBit_keeps (L := [.regs, .held]) (descCfg d + 3) 7 true (by decide) (count_keeps 0xF3C803 (by decide) (keeps_refl _ s1))).parts
  have er : refusedPost d s1 = pcSys 0x57 1 (putBit (descCfg d + 3) 7 true (count 0xF3C803 s1)) := rfl
  rw [er] at parts ⊢
  generalize putBit (descCfg d + 3) 7 true (count 0xF3C803 s1) = s2 at parts cnt2 stalls2 flag2 part2 ⊢
  have ev : onlyEvents s2 (pcSys 0x57 1 s2) := pcSys_onlyEvents _ _ (onlyEvents_refl _)
  generalize pcSys 0x57 1 s2 = s3 at parts ev ⊢
  have regs : ∀ a, 0xF20000 ≤ a → eventReg a = false → regGet (stallWith c p s3) a = regGet s2 a := fun a h1 h2 =>
    (regGet_of_regs rfl a).trans (ev.regs a (by simp) (by rw [canonAddr_high h1]; exact h2)).1
  have cores : s3.cores = s.cores := by rw [ev.parts.cores (by decide), part2.cores (by decide), part1.cores (by decide)]
  have pg : s2.pg = s.pg := by rw [part2.pg (by decide), part1.pg (by decide)]
  refine ⟨?_, fun k hk => ?_, ⟨?_, ?_⟩, ?_, ?_, ?_, parts⟩
  · unfold stallWith; rw [cores_setCore, if_pos rfl]
  · unfold stallWith; rw [cores_setCore, if_neg hk, cores]
  · show s3.pg.ready = _; rw [ev.pg, pg]
  · show s3.pg.delay = _; rw [ev.pg, pg]
  · rw [regs _ (by omega) (by decide), cnt2, other1]
  · rw [regs _ (by omega) (by simp [eventReg]; omega), stalls2, cnt1]
  · rw [regs _ (by unfold descCfg; omega) (by unfold descCfg; simp [eventReg]; omega)]; exact flag2

theorem post_taken (s : State) (c : Fin 8) (n : CoreId) (d : BitVec 9) (hb : afterBoot s = true) (en : descEn s d.toNat = true)
    (room : readyRefuses s d.toNat = false) :
    ∃ u, exec (.post (.core c) n d) s = .next u ∧
      u.pg.ready = s.pg.ready ++ [⟨d.toNat, regGet s (0xF3C900 + 16 * n.val), descKey s d.toNat⟩] ∧ u.pg.delay = s.pg.delay ∧
      u.cores = s.cores ∧ sameBut [.sys, .regs, .held, .pg, .bv, .pc] s u ∧ regsButEvents [] s u := by
  have armed := armLock_sameBut (.core c) s
  obtain ⟨pg, parts, regs⟩ := pushPost_spec d.toNat (regGet s (0xF3C900 + 16 * n.val)) (armLock (.core c) s)
  have offered := offerPost_pushed (s := armLock (.core c) s) ((desc_of_regs rfl rfl _).1.trans en) ((readyRefuses_of_regs rfl rfl rfl _).trans room) (regGet s (0xF3C900 + 16 * n.val))
  refine ⟨_, congrArg Host.Outcome.next ((if_pos (pgAnswers_afterBoot hb _)).trans (corePost_taken offered)), ?_, by rw [pg]; rfl, ?_, ?_, ?_⟩
  · rw [pg, (desc_of_regs (s := s) rfl rfl _).2]; rfl
  · rw [parts.cores (by decide)]; rfl
  · exact sameBut_trans (sameBut_mono (by decide) armed) (sameBut_mono (by decide) parts)
  · exact regsButEvents_of_touches (touches_trans (touches_of_sameBut armed (by decide) (by decide)) regs)

theorem post_discarded (s : State) (c : Fin 8) (n : CoreId) (d : BitVec 9) (hb : afterBoot s = true) (en : descEn s d.toNat = false) :
    ∃ u, exec (.post (.core c) n d) s = .next u ∧ u.pg = s.pg ∧ u.cores = s.cores ∧ regGet u 0xF3C804 = regGet s 0xF3C804 + 1 ∧
      bit (regGet u (descCfg d.toNat + 3)) 6 = true ∧ sameBut [.sys, .regs, .held, .pg, .bv, .pc] s u := by
  have armed := armLock_sameBut (.core c) s
  have parts := (discardPost_keeps (L := [.regs, .held]) d.toNat (by decide) (keeps_refl _ (armLock (.core c) s))).parts
  have offered := offerPost_discarded (s := armLock (.core c) s) ((desc_of_regs rfl rfl _).1.trans en) (regGet s (0xF3C900 + 16 * n.val))
  have apart : canonAddr 0xF3C804 ≠ canonAddr (descCfg d.toNat + 3) := by
    have := d.isLt
    rw [canonAddr_high (by omega), canonAddr_high (by unfold descCfg; omega)]; unfold descCfg; omega
  refine ⟨_, congrArg Host.Outcome.next ((if_pos (pgAnswers_afterBoot hb _)).trans (corePost_taken offered)), parts.pg (by decide), parts.cores (by decide), ?_, ?_,
    sameBut_trans (sameBut_mono (by decide) armed) (sameBut_mono (by decide) parts)⟩
  · unfold discardPost
    rw [regGet_putBit, if_neg apart, count_regGet_same, regGet_of_regs (armed.regs (by decide))]
  · exact bit_putBit_same _ true _ (by decide)

theorem post_refused (s : State) (c : Fin 8) (n : CoreId) (d : BitVec 9) (hb : afterBoot s = true) (en : descEn s d.toNat = true)
    (full : readyRefuses s d.toNat = true) :
    ∃ u, exec (.post (.core c) n d) s = .next u ∧
      u.pg.ready = s.pg.ready ∧ u.cores[c].stalled = some (.post d.toNat (regGet s (0xF3C900 + 16 * n.val))) ∧
      (∀ k : Fin 8, k ≠ c → u.cores[k] = s.cores[k]) ∧ regGet u 0xF3C803 = regGet s 0xF3C803 + 1 ∧
      regGet u (0xF3C90B + 16 * c.val) = regGet s (0xF3C90B + 16 * c.val) + 1 ∧ bit (regGet u (descCfg d.toNat + 3)) 7 = true ∧
      sameBut [.sys, .regs, .held, .cores, .pg, .bv, .pc] s u := by
  have armed := armLock_sameBut (.core c) s
  have offered := offerPost_refused (s := armLock (.core c) s) ((desc_of_regs rfl rfl _).1.trans en) ((readyRefuses_of_regs rfl rfl rfl _).trans full) (regGet s (0xF3C900 + 16 * n.val))
  have k := stallWith_spec c d.isLt (.post d.toNat (regGet s (0xF3C900 + 16 * n.val))) (armLock (.core c) s)
  have regs : ∀ a, regGet (armLock (.core c) s) a = regGet s a := regGet_of_regs (armed.regs (by decide))
  refine ⟨_, congrArg Host.Outcome.next ((if_pos (pgAnswers_afterBoot hb _)).trans (corePost_stalled offered)), k.lists.1, k.stalled, k.others,
    k.bpcnt.trans (by rw [regs]), k.stalls.trans (by rw [regs]), k.flag, sameBut_trans (sameBut_mono (by decide) armed) (sameBut_mono (by decide) k.parts)⟩

theorem post_byHost (s : State) (n : CoreId) (d : BitVec 9) (h : Word) (cmd : Instr) (hp : s.sys.op ≠ .powerUp)
    (hc : cmd = .post .host n d ∨ cmd = .dpost .host n d ∨ cmd = .dcancel .host n h) :
    ∃ u, exec cmd s = .next u ∧ regGet u 0xF50001 = regGet s 0xF50001 + 1 ∧ fld (regGet u 0xF50004) 15 8 = 6 ∧
      sameBut [.sys, .regs, .held] s u ∧ regsBut [0xF50001, 0xF50002, 0xF50003, 0xF50004] s u := by
  have armed := armLock_sameBut .host s
  have answers : pgAnswers .host s = true := by unfold pgAnswers; simp [hp]
  have dropped : ∃ a, exec cmd s = .next (dropWrite .host a 6 (armLock .host s)) := by
    rcases hc with rfl | rfl | rfl
    all_goals exact ⟨_, congrArg Host.Outcome.next (if_pos answers)⟩
  obtain ⟨a, e⟩ := dropped
  obtain ⟨touch, cnt, -⟩ := dropWrite_spec .host a 6 (armLock .host s)
  refine ⟨_, e, cnt.trans (by rw [regGet_of_regs (armed.regs (by decide))]), dropWrite_why .host a (by omega) _,
    (dropWrite_keeps (L := [.sys, .regs, .held]) .host a 6 (by decide) (armLock_keeps .host (by decide) (keeps_refl _ s))).parts,
    regsBut_of_touches (touches_trans (touches_of_sameBut armed (by decide) (by decide)) touch)⟩

/-! ### The delay list -/

/-- The search for a free entry answers the first number from i on that is not in use, or gives up after n. -/
theorem lowestFree_spec (used : List Nat) (n i : Nat) :
    (∀ j, i ≤ j → j < lowestFree n i used → j ∈ used) ∧ i ≤ lowestFree n i used ∧ lowestFree n i used ≤ i + n ∧
      (lowestFree n i used < i + n → lowestFree n i used ∉ used) := by
  induction n generalizing i with
  | zero => exact ⟨fun j h1 h2 => absurd h2 (Nat.not_lt.mpr h1), Nat.le_refl _, Nat.le_refl _, fun h => absurd h (Nat.lt_irrefl _)⟩
  | succ n ih =>
    by_cases h : used.contains i = true
    · have e : lowestFree (n + 1) i used = lowestFree n (i + 1) used := if_pos h
      obtain ⟨h1, h2, h3, h4⟩ := ih (i + 1)
      rw [e]
      refine ⟨fun j hj hl => ?_, by omega, by omega, fun hl => h4 (by omega)⟩
      by_cases ej : j = i
      · rw [ej]; simpa using h
      · exact h1 j (by omega) hl
    · have e : lowestFree (n + 1) i used = i := if_neg h
      rw [e]
      exact ⟨fun j h1 h2 => absurd h2 (Nat.not_lt.mpr h1), Nat.le_refl _, by omega, fun _ => by simpa using h⟩

/-- With fewer than n numbers in use one below n is free. -/
theorem lowestFree_free {used : List Nat} {n : Nat} (h : used.length < n) :
    lowestFree n 0 used < n ∧ lowestFree n 0 used ∉ used ∧ ∀ j, j < lowestFree n 0 used → j ∈ used := by
  obtain ⟨below, -, le, free⟩ := lowestFree_spec used n 0
  have lt : lowestFree n 0 used < n := by
    refine Nat.lt_of_le_of_ne (by omega) fun e => ?_
    have sub : List.range n ⊆ used := fun j hj => below j (Nat.zero_le j) (by rw [e]; exact List.mem_range.mp hj)
    have := (List.nodup_range.subperm sub).length_le
    rw [List.length_range] at this
    omega
  exact ⟨lt, free (by omega), fun j hj => below j (Nat.zero_le j) hj⟩

theorem delayDue_armLock (who : Requester) (s : State) (dval : Nat) (dsel : Word) : delayDue (armLock who s) dval dsel = delayDue s dval dsel := rfl

/-- The delay post that block n asks for. -/
def asked (s : State) (n : CoreId) (d : BitVec 9) : StalledPost :=
  .delay n d.toNat (regGet s (0xF3C900 + 16 * n.val)) (pairN s (0xF3C902 + 16 * n.val)) (regGet s (0xF3C904 + 16 * n.val))

theorem exec_dpost {c : Fin 8} (hb : afterBoot s = true) (n : CoreId) (d : BitVec 9) :
    exec (.dpost (.core c) n d) s = .next (corePost (.core c) (0xF3C900 + 16 * n.val + 5) (asked s n d) (armLock (.core c) s)) := by
  refine congrArg Host.Outcome.next ((if_pos (pgAnswers_afterBoot hb _)).trans ?_)
  unfold writeDpost asked
  rw [show 0xF3C902 + 16 * n.val = 0xF3C900 + 16 * n.val + 2 by omega, show 0xF3C904 + 16 * n.val = 0xF3C900 + 16 * n.val + 4 by omega]
  rfl

theorem delayDue_legal {dval : Nat} {dsel : Word} {due : DelayDue} (hd : fld dsel 16 15 ≠ 3)
    (h : fld dsel 18 17 = 0 ∧ dval ≠ 0 ∧ due = .tick dval ∨
      (fld dsel 19 17 = 1 ∧ tbModulus s (fld dsel 14 11) = none ∧ due = .base (fld dsel 14 11) (sext 40 dval) (fld dsel 16 15))) :
    delayDue s dval dsel = some due := by
  unfold delayDue
  extract_lets srck dir tb
  rw [if_neg hd]
  rcases h with ⟨h0, hv, rfl⟩ | ⟨h1, hm, rfl⟩
  · rw [if_pos h0, if_neg hv]
  · have split19 : srck = 1 ∧ bit dsel 19 = false := by
      have := dsel.isLt
      simp only [fld, bit, srck] at h1 ⊢
      constructor
      · omega
      · rw [beq_eq_false_iff_ne]; omega
    rw [if_neg (by rw [split19.1]; decide), if_pos split19.1, if_neg (by rw [split19.2]; decide), show tbModulus s tb = none from hm]

theorem dpost_entered (s : State) (c : Fin 8) (n : CoreId) (d : BitVec 9) (due : DelayDue) (hb : afterBoot s = true) (room : s.pg.delay.length < 1024)
    (legal : delayDue s (pairN s (0xF3C902 + 16 * n.val)) (regGet s (0xF3C904 + 16 * n.val)) = some due) :
    ∃ u, exec (.dpost (.core c) n d) s = .next u ∧
      (∃ e : DelayEntry, u.pg.delay = s.pg.delay ++ [e] ∧ e.entry < 1024 ∧
        (∀ x ∈ s.pg.delay, x.entry ≠ e.entry) ∧ (∀ i, i < e.entry → ∃ x ∈ s.pg.delay, x.entry = i) ∧
        e.gen = mapGet 0 s.pg.gens e.entry ∧ mapGet 0 u.pg.gens e.entry = (e.gen + 1) % 512 ∧
        e.desc = d.toNat ∧ e.arg = regGet s (0xF3C900 + 16 * n.val) ∧ e.due = due ∧ e.fired = false ∧
        regGet u (0xF3C906 + 16 * n.val) = word (2 ^ 19 + e.gen * 2 ^ 10 + e.entry)) ∧ u.pg.ready = s.pg.ready ∧
      sameBut [.sys, .regs, .held, .pg] s u ∧ regsBut [0xF3C906 + 16 * n.val] s u := by
  have armed := armLock_sameBut (.core c) s
  have taken : tryPost (asked s n d) (armLock (.core c) s) = (true, putWord (0xF3C906 + 16 * n.val) (delayEnter d.toNat (regGet s (0xF3C900 + 16 * n.val)) due (armLock (.core c) s)).1
      (delayEnter d.toNat (regGet s (0xF3C900 + 16 * n.val)) due (armLock (.core c) s)).2) := by
    unfold asked tryPost
    simp only [delayDue_armLock, legal]
    exact if_neg (Nat.not_le.mpr room)
  obtain ⟨lt, free, below⟩ := lowestFree_free (used := s.pg.delay.map (·.entry)) (n := 1024) (by rw [List.length_map]; exact room)
  have entered := (delayEnter_keeps (L := [.pg]) d.toNat (regGet s (0xF3C900 + 16 * n.val)) due (by decide) (keeps_refl _ (armLock (.core c) s))).parts
  have put := (putWord_keeps (L := [.regs, .held]) (0xF3C906 + 16 * n.val) (delayEnter d.toNat (regGet s (0xF3C900 + 16 * n.val)) due (armLock (.core c) s)).1 (by decide)
    (keeps_refl _ (delayEnter d.toNat (regGet s (0xF3C900 + 16 * n.val)) due (armLock (.core c) s)).2)).parts
  have pg := put.pg (by decide)
  refine ⟨_, (exec_dpost hb n d).trans (congrArg Host.Outcome.next (corePost_taken taken)), ?_, by rw [pg]; rfl, ?_, ?_⟩
  · refine ⟨⟨lowestFree 1024 0 (s.pg.delay.map (·.entry)), mapGet 0 s.pg.gens (lowestFree 1024 0 (s.pg.delay.map (·.entry))), d.toNat,
      regGet s (0xF3C900 + 16 * n.val), due, false, false⟩, by rw [pg]; rfl, lt, fun x hx e => ?_, fun i hi => ?_, rfl, ?_, rfl, rfl, rfl, rfl, ?_⟩
    · exact free (List.mem_map.mpr ⟨x, hx, e⟩)
    · exact List.mem_map.mp (below i hi)
    · rw [pg]; exact mapGet_mapPut_same ..
    · rw [putWord, regGet_hwMod, if_pos rfl]; rfl
  · exact sameBut_trans (sameBut_mono (by decide) armed) (sameBut_trans (sameBut_mono (by decide) entered) (sameBut_mono (by decide) put))
  · refine regsBut_of_touches (touches_putWord _ ?_ (touches_trans (touches_of_sameBut armed (by decide) (by decide)) (touches_of_sameBut entered (by decide) (by decide))))
    rw [canonAddr_high (by omega)]; exact List.mem_singleton_self _

theorem dpost_refused (s : State) (c : Fin 8) (n : CoreId) (d : BitVec 9) (hb : afterBoot s = true)
    (bad : fld (regGet s (0xF3C904 + 16 * n.val)) 16 15 = 3 ∨
      (fld (regGet s (0xF3C904 + 16 * n.val)) 18 17 = 0 ∧ pairN s (0xF3C902 + 16 * n.val) = 0)) :
    ∃ u, exec (.dpost (.core c) n d) s = .next u ∧ u.pg = s.pg ∧ regGet u (0xF3C906 + 16 * n.val) = 0 ∧
      sameBut [.sys, .regs, .held] s u ∧ regsBut [0xF3C906 + 16 * n.val] s u := by
  have armed := armLock_sameBut (.core c) s
  have none : delayDue s (pairN s (0xF3C902 + 16 * n.val)) (regGet s (0xF3C904 + 16 * n.val)) = none := by
    unfold delayDue
    extract_lets srck dir tb
    by_cases h3 : dir = 3
    · rw [if_pos h3]
    · obtain ⟨h0, hv⟩ := bad.resolve_left h3
      rw [if_neg h3, if_pos h0, if_pos hv]
  have taken : tryPost (asked s n d) (armLock (.core c) s) = (true, putWord (0xF3C906 + 16 * n.val) 0 (armLock (.core c) s)) := by
    unfold asked tryPost
    simp only [delayDue_armLock, none]
  have put := (putWord_keeps (L := [.regs, .held]) (0xF3C906 + 16 * n.val) 0 (by decide) (keeps_refl _ (armLock (.core c) s))).parts
  refine ⟨_, (exec_dpost hb n d).trans (congrArg Host.Outcome.next (corePost_taken taken)), put.pg (by decide), by rw [putWord, regGet_hwMod, if_pos rfl],
    sameBut_trans (sameBut_mono (by decide) armed) (sameBut_mono (by decide) put), ?_⟩
  refine regsBut_of_touches (touches_putWord _ ?_ (touches_of_sameBut armed (by decide) (by decide)))
  rw [canonAddr_high (by omega)]; exact List.mem_singleton_self _

theorem dpost_full (s : State) (c : Fin 8) (n : CoreId) (d : BitVec 9) (hb : afterBoot s = true) (full : 1024 ≤ s.pg.delay.length)
    (hd : fld (regGet s (0xF3C904 + 16 * n.val)) 16 15 ≠ 3) (h0 : fld (regGet s (0xF3C904 + 16 * n.val)) 18 17 = 0)
    (hv : pairN s (0xF3C902 + 16 * n.val) ≠ 0) :
    ∃ u, exec (.dpost (.core c) n d) s = .next u ∧ u.pg.delay = s.pg.delay ∧ u.pg.ready = s.pg.ready ∧
      u.cores[c].stalled = some (.delay n d.toNat (regGet s (0xF3C900 + 16 * n.val)) (pairN s (0xF3C902 + 16 * n.val)) (regGet s (0xF3C904 + 16 * n.val))) ∧
      (∀ k : Fin 8, k ≠ c → u.cores[k] = s.cores[k]) ∧ sameBut [.sys, .regs, .held, .cores, .pg, .bv, .pc] s u := by
  have armed := armLock_sameBut (.core c) s
  have legal := delayDue_legal (s := s) (dval := pairN s (0xF3C902 + 16 * n.val)) hd (.inl ⟨h0, hv, rfl⟩)
  have refused : tryPost (asked s n d) (armLock (.core c) s) = (false, armLock (.core c) s) := by
    unfold asked tryPost
    simp only [delayDue_armLock, legal]
    exact if_pos full
  have k := stallWith_spec c d.isLt (asked s n d) (armLock (.core c) s)
  exact ⟨_, (exec_dpost hb n d).trans (congrArg Host.Outcome.next (corePost_stalled refused)), k.lists.2, k.lists.1, k.stalled, k.others,
    sameBut_trans (sameBut_mono (by decide) armed) (sameBut_mono (by decide) k.parts)⟩

/-- With no core stalled there is nothing to offer again. -/
theorem retryStalled_idle (h : ∀ k : Fin 8, s.cores[k].stalled = none) : retryStalled s = s := by
  unfold retryStalled
  exact forEach_induct (fun t => t = s) _ _ (fun n _ t ht => by subst ht; rw [h n]) rfl

theorem dcancel_found (s : State) (c : Fin 8) (n : CoreId) (h : Word) (hb : afterBoot s = true) (idle : ∀ k : Fin 8, s.cores[k].stalled = none)
    (live : ∃ e ∈ s.pg.delay, e.entry = fld h 9 0 ∧ e.gen = fld h 18 10 ∧ e.fired = false) :
    ∃ u, exec (.dcancel (.core c) n h) s = .next u ∧
      u.pg = { s.pg with delay := s.pg.delay.filter fun e => e.entry != fld h 9 0 } ∧ fld (regGet u (0xF3C908 + 16 * n.val)) 19 18 = 1 ∧
      sameBut [.sys, .regs, .held, .pg] s u ∧ regsBut [0xF3C908 + 16 * n.val] s u := by
  have armed := armLock_sameBut (.core c) s
  have any : (s.pg.delay.any fun e => e.entry == fld h 9 0 && e.gen == fld h 18 10 && !e.fired) = true := by
    obtain ⟨e, he, h1, h2, h3⟩ := live
    exact List.any_eq_true.mpr ⟨e, he, by simp [h1, h2, h3]⟩
  have cut := (keeps_pg (L := [.pg]) { s.pg with delay := s.pg.delay.filter fun e => e.entry != fld h 9 0 } (by decide) (keeps_refl _ (armLock (.core c) s))).parts
  have step : writeDcancel (.core c) n h (armLock (.core c) s) = retryStalled (putFld (0xF3C908 + 16 * n.val) 19 18 1
      { armLock (.core c) s with pg := { s.pg with delay := s.pg.delay.filter fun e => e.entry != fld h 9 0 } }) := if_pos any
  have pg1 : ({ armLock (.core c) s with pg := { s.pg with delay := s.pg.delay.filter fun e => e.entry != fld h 9 0 } } : State).pg =
      { s.pg with delay := s.pg.delay.filter fun e => e.entry != fld h 9 0 } := rfl
  have cores1 : ({ armLock (.core c) s with pg := { s.pg with delay := s.pg.delay.filter fun e => e.entry != fld h 9 0 } } : State).cores = s.cores := rfl
  generalize ({ armLock (.core c) s with pg := { s.pg with delay := s.pg.delay.filter fun e => e.entry != fld h 9 0 } } : State) = m at step cut pg1 cores1
  have put := (putFld_keeps (L := [.regs, .held]) (0xF3C908 + 16 * n.val) 19 18 1 (by decide) (keeps_refl _ m)).parts
  have still : retryStalled (putFld (0xF3C908 + 16 * n.val) 19 18 1 m) = putFld (0xF3C908 + 16 * n.val) 19 18 1 m :=
    retryStalled_idle fun k => by rw [show (putFld (0xF3C908 + 16 * n.val) 19 18 1 m).cores = s.cores from (put.cores (by decide)).trans cores1]; exact idle k
  refine ⟨_, congrArg Host.Outcome.next ((if_pos (pgAnswers_afterBoot hb _)).trans (step.trans still)), (put.pg (by decide)).trans pg1, ?_,
    sameBut_trans (sameBut_mono (by decide) armed) (sameBut_trans (sameBut_mono (by decide) cut) (sameBut_mono (by decide) put)), ?_⟩
  · exact fld_putFld _ _ (by decide) (by decide) (by decide)
  · refine regsBut_of_touches (touches_putFld _ _ _ ?_ (touches_trans (touches_of_sameBut armed (by decide) (by decide)) (touches_of_sameBut cut (by decide) (by decide))))
    rw [canonAddr_high (by omega)]; exact List.mem_singleton_self _

theorem dcancel_missed (s : State) (c : Fin 8) (n : CoreId) (h : Word) (hb : afterBoot s = true)
    (dead : ∀ e ∈ s.pg.delay, e.entry = fld h 9 0 → e.gen = fld h 18 10 → e.fired = true) :
    ∃ u, exec (.dcancel (.core c) n h) s = .next u ∧ fld (regGet u (0xF3C908 + 16 * n.val)) 19 18 = 2 ∧
      sameBut [.sys, .regs, .held] s u ∧ regsBut [0xF3C908 + 16 * n.val] s u := by
  have armed := armLock_sameBut (.core c) s
  have none : (s.pg.delay.any fun e => e.entry == fld h 9 0 && e.gen == fld h 18 10 && !e.fired) = false := by
    rw [List.any_eq_false]
    intro e he k
    simp only [Bool.and_eq_true, beq_iff_eq, Bool.not_eq_true'] at k
    obtain ⟨⟨h1, h2⟩, h3⟩ := k
    rw [dead e he h1 h2] at h3; cases h3
  have step : writeDcancel (.core c) n h (armLock (.core c) s) = putFld (0xF3C908 + 16 * n.val) 19 18 2 (armLock (.core c) s) :=
    if_neg (by rw [show (armLock (.core c) s).pg = s.pg from rfl, none]; decide)
  have put := (putFld_keeps (L := [.regs, .held]) (0xF3C908 + 16 * n.val) 19 18 2 (by decide) (keeps_refl _ (armLock (.core c) s))).parts
  refine ⟨_, congrArg Host.Outcome.next ((if_pos (pgAnswers_afterBoot hb _)).trans step), ?_,
    sameBut_trans (sameBut_mono (by decide) armed) (sameBut_mono (by decide) put), ?_⟩
  · exact fld_putFld _ _ (by decide) (by decide) (by decide)
  · refine regsBut_of_touches (touches_putFld _ _ _ ?_ (touches_of_sameBut armed (by decide) (by decide)))
    rw [canonAddr_high (by omega)]; exact List.mem_singleton_self _

/-- Settles O14. -/
theorem postsAndDelayList : Obligations.PostsAndDelayList := by
  unfold Obligations.PostsAndDelayList
  exact ⟨⟨post_taken, post_discarded, post_refused, post_byHost⟩,
    fun s c n d due hb room hd h => dpost_entered s c n d due hb room (delayDue_legal hd h), dpost_refused, dpost_full, dcancel_found, dcancel_missed⟩

end Sys2Proof.Machine
end

