-- ==== Sys2Proof/Proofs/TickStray.lean ====
section
/-! PROOFS. The system tick with an entry of a descriptor that is none of the 512 (13 R363, R372): the descriptor word is then a register that events change, and the event of a wrapped counter (14 R389) falls between the tick and the post. -/

namespace Sys2Proof.Machine

/-- The one entry of the list, due at the next tick, to descriptor 1020h, whose configuration word would stand at F40080h, the count of posts lost by pending event sources. -/
def strayEntry : DelayEntry := { entry := 0, gen := 0, desc := 0x1020, arg := 0, due := .tick 1, fired := false, refused := false }

/-- RUN-ACTIVE with that entry; the counter of elapsed delay posts is about to wrap and raise EV97, which still has a post pending. -/
def strayState : State :=
  let s : State := { State.reset with
    sys := { State.reset.sys with op := .runActive }
    pg := { State.reset.pg with delay := [strayEntry], evPend := [(97, false)] }
    pc := { State.reset.pc with cnt := [(96, 2 ^ 40 - 1)] } }
  regSet 0xF4C200 0xA0058 (regSet 0xF40080 0xFFFFF (regSet 0xF40061 0x80000 s))

/-- The ready store after the tick: the descriptor word, enabled before the tick, has wrapped to 0. -/
theorem tickEff_stray : (tickEff strayState).pg.ready = [] := by decide +kernel

/-- Refutes O15: nothing bounds the descriptor of an entry of the list, and the post of one beyond the 512 is discarded where the tick's own event clears the word taken for its configuration. -/
theorem not_ticksAndEventSourcesPost : ¬ Obligations.TicksAndEventSourcesPost := by
  unfold Obligations.TicksAndEventSourcesPost
  rintro ⟨-, elapses, -⟩
  obtain ⟨u, e, ready, -⟩ := elapses strayState strayEntry (by decide +kernel) (by decide +kernel) rfl rfl rfl rfl (by decide +kernel) (by decide +kernel)
  have run : exec .systemTick strayState = .next (tickEff strayState) := rfl
  rw [run] at e
  injection e with e
  rw [← e, tickEff_stray] at ready
  exact absurd ready.symm (by simp)

end Sys2Proof.Machine
end

