-- ==== Sys2Proof/Proofs/HaltedCounter.lean ====
section
/-! PROOFS. Performance counters of a halted core (14 R388, R389). -/

namespace Sys2Proof.Machine

/-- RUN-ACTIVE with counter 0 of C0 enabled, C0 halted. -/
def haltedCounting : State :=
  regSet 0xF4C000 0x80000
    { State.reset with
      sys := { State.reset.sys with op := .runActive }
      cores := State.reset.cores.set 0 { State.reset.cores[0] with halted := true } }

theorem counterWrapEff_halted : counterWrapEff 0 1 haltedCounting = haltedCounting :=
  if_neg (by decide +kernel)

/-- Refutes O16: the counters of a halted core do not run, which the clause on wrapping leaves out. -/
theorem not_countersSnapLoadAndWrap : ¬ Obligations.CountersSnapLoadAndWrap := by
  unfold Obligations.CountersSnapLoadAndWrap
  rintro ⟨-, -, wraps⟩
  obtain ⟨u, e, counted, -⟩ := wraps haltedCounting 0 1 (by decide +kernel) (by decide +kernel) (by decide +kernel)
  have run : exec (.counterWrap 0 1) haltedCounting = .next haltedCounting := congrArg Host.Outcome.next counterWrapEff_halted
  rw [run] at e
  injection e with e
  rw [← e] at counted
  exact absurd counted (by decide +kernel)

end Sys2Proof.Machine
end

