-- ==== Sys2Proof/Proofs/CanRequests.lean ====
section
/-! PROOFS. The CAN controllers: requests, the fall-back queue, the receive ring, modes and frames (15 R398-R411). -/

namespace Sys2Proof.Machine

variable {A : Nat → Prop} {L : List Part} {o s t : State}

/-! ### Addresses of a controller's registers -/

theorem canonAddr_cnBase (c : Fin 2) (i : Nat) : canonAddr (cnBase c + i) = cnBase c + i := canonAddr_high (by unfold cnBase; omega)

theorem canonAddr_cnObj (c : Fin 2) (n i : Nat) : canonAddr (cnObj c n + i) = cnObj c n + i := canonAddr_high (by unfold cnObj cnBase; omega)

theorem cn_quiet {c : Fin 2} {i : Nat} (hi : i < 0x2000) : eventReg (cnBase c + i) = false := by
  have := c.isLt
  unfold cnBase eventReg
  simp; omega

theorem cnObj_eq (c : Fin 2) (n : Nat) : cnObj c n = cnBase c + (0x800 + 40 * n) := by unfold cnObj; omega

/-! ### What an operation of controller c may change -/

/-- Nothing of the other controller, and of the registers only those listed and what events change. -/
structure cnOnly (c : Fin 2) (as : List Nat) (s t : State) : Prop where
  parts : sameBut [.regs, .held, .can, .pg, .bv, .pc] s t
  regs : touches (orEvents as) s t
  others : ∀ d : Fin 2, d ≠ c → t.can[d] = s.can[d]

variable {c : Fin 2} {as bs : List Nat}

theorem cnOnly_refl (s : State) : cnOnly c as s s := ⟨sameBut_refl _ s, touches_refl _ s, fun _ _ => rfl⟩

theorem cnOnly_trans (h : cnOnly c as o s) (k : cnOnly c as s t) : cnOnly c as o t :=
  ⟨sameBut_trans h.parts k.parts, touches_trans h.regs k.regs, fun d hd => (k.others d hd).trans (h.others d hd)⟩

theorem cnOnly_mono (h : cnOnly c as s t) (sub : ∀ a ∈ as, a ∈ bs) : cnOnly c bs s t := ⟨h.parts, touches_mono h.regs (orEvents_mono sub), h.others⟩

theorem cnOnly_setCan (x : Can) (s : State) : cnOnly c as s (setCan c x s) :=
  ⟨sameBut_mono (by decide) (sameBut_setCan c x s), touches_same (touches_refl _ s) rfl rfl, fun _ hd => setCan_can_other hd x s⟩

/-- A change of registers alone. -/
theorem cnOnly_regs (h : sameBut [.regs, .held] s t) (k : touches (orEvents as) s t) : cnOnly c as s t :=
  ⟨sameBut_mono (by decide) h, k, fun d _ => by rw [h.can (by decide)]⟩

theorem cnOnly_putBit {a : Nat} (n : Nat) (b : Bool) (ha : canonAddr a ∈ as) (s : State) : cnOnly c as s (putBit a n b s) :=
  cnOnly_regs (putBit_keeps a n b (by decide) (keeps_refl _ s)).parts (touches_putBit n b (.inl ha) (touches_refl _ s))

theorem cnOnly_putFld {a : Nat} (hi lo v : Nat) (ha : canonAddr a ∈ as) (s : State) : cnOnly c as s (putFld a hi lo v s) :=
  cnOnly_regs (putFld_keeps a hi lo v (by decide) (keeps_refl _ s)).parts (touches_putFld hi lo v (.inl ha) (touches_refl _ s))

theorem cnOnly_count {a : Nat} (ha : canonAddr a ∈ as) (s : State) : cnOnly c as s (count a s) :=
  cnOnly_regs (count_keeps a (by decide) (keeps_refl _ s)).parts (touches_count (.inl ha) (touches_refl _ s))

theorem cnOnly_events (h : onlyEvents s t) : cnOnly c as s t :=
  ⟨sameBut_mono (by decide) h.parts, touches_events (touches_refl _ s) h, fun d _ => by rw [h.parts.can (by decide)]⟩

theorem cnOnly.regGet (h : cnOnly c as s t) {d : Fin 2} {i : Nat} (hi : i < 0x2000) (ha : cnBase d + i ∉ as) : regGet t (cnBase d + i) = regGet s (cnBase d + i) :=
  h.regs.regGet (by rw [canonAddr_cnBase]; exact not_orEvents ha (cn_quiet hi))

theorem cnOnly.bitOf (h : cnOnly c as s t) {d : Fin 2} {i : Nat} (hi : i < 0x2000) (ha : cnBase d + i ∉ as) (n : Nat) : bitOf t (cnBase d + i) n = bitOf s (cnBase d + i) n :=
  h.regs.bitOf (by rw [canonAddr_cnBase]; exact not_orEvents ha (cn_quiet hi)) n

/-! ### Events of a controller -/

/-- The bit of CN_EVT is set; nothing else but events changes. -/
theorem cnEvt_spec (c : Fin 2) {n : Nat} (hn : n < 20) (s : State) :
    cnOnly c [cnBase c + 3] s (cnEvt c n s) ∧ bit (regGet (cnEvt c n s) (cnBase c + 3)) n = true ∧ (cnEvt c n s).can = s.can := by
  have put : cnOnly c [cnBase c + 3] s (putBit (cnBase c + 3) n true s) := cnOnly_putBit n true (by rw [canonAddr_cnBase]; exact List.mem_singleton_self _) s
  have flag : bit (Machine.regGet (putBit (cnBase c + 3) n true s) (cnBase c + 3)) n = true := bit_putBit_same _ true s hn
  have can : (putBit (cnBase c + 3) n true s).can = s.can := putBit_can ..
  have e : cnEvt c n s = whenB (!Machine.bitOf s (cnBase c + 3) n && Machine.bitOf s (cnBase c + 4) n) (raiseEvent (74 + c.val)) (putBit (cnBase c + 3) n true s) := rfl
  rw [e]
  generalize putBit (cnBase c + 3) n true s = m at put flag can ⊢
  unfold whenB
  split
  · have ev : onlyEvents m (raiseEvent (74 + c.val) m) := raiseEvent_onlyEvents (by omega) (onlyEvents_refl m)
    refine ⟨cnOnly_trans put (cnOnly_events ev), ?_, by rw [ev.parts.can (by decide), can]⟩
    rw [(cnOnly_events (c := c) (as := []) ev).regGet (by omega) (by simp)]; exact flag
  · exact ⟨put, flag, can⟩

/-! ### Requests (R400, R404) -/

/-- A request that ends: its result code is shown, TXRQ cleared, late cancel, trial and ACK errors forgotten. -/
structure cnEnded (c : Fin 2) (n code : Nat) (s t : State) : Prop where
  only : cnOnly c [cnObj c n + 3, cnBase c + 3] s t
  result : fld (Machine.regGet t (cnObj c n + 3)) 17 14 = code
  can : t.can[c] = { s.can[c] with late := t.can[c].late, tried := t.can[c].tried, acks := t.can[c].acks }

theorem fld_17_14 (w : Word) (h : bit w 17 = false) : fld w 17 14 = fld w 16 14 := by
  have := w.isLt
  simp only [bit, fld, beq_eq_false_iff_ne] at h ⊢
  omega

theorem cnObjEnd_spec (c : Fin 2) {n : Nat} (hn : n < 128) {code : Nat} (hc : code < 8) (s : State) : cnEnded c n code s (cnObjEnd c n code s) := by
  have hobj : cnObj c n = cnBase c + (0x800 + 40 * n) := cnObj_eq c n
  have e : cnObjEnd c n code s = whenB (Machine.bitOf (putFld (cnObj c n + 3) 16 14 code (putBit (cnObj c n + 3) 17 false
      (setCan c { s.can[c] with late := s.can[c].late.filter (fun k => k != n), tried := s.can[c].tried.filter (fun k => k != n), acks := mapPut 0 s.can[c].acks n 0 } s))) (cnObj c n) 6)
      (cnEvt c 19) (putFld (cnObj c n + 3) 16 14 code (putBit (cnObj c n + 3) 17 false
      (setCan c { s.can[c] with late := s.can[c].late.filter (fun k => k != n), tried := s.can[c].tried.filter (fun k => k != n), acks := mapPut 0 s.can[c].acks n 0 } s))) := rfl
  rw [e]
  have set : cnOnly c [cnObj c n + 3, cnBase c + 3] s (setCan c { s.can[c] with late := s.can[c].late.filter (fun k => k != n), tried := s.can[c].tried.filter (fun k => k != n), acks := mapPut 0 s.can[c].acks n 0 } s) :=
    cnOnly_setCan _ s
  have can1 := setCan_can_same c { s.can[c] with late := s.can[c].late.filter (fun k => k != n), tried := s.can[c].tried.filter (fun k => k != n), acks := mapPut 0 s.can[c].acks n 0 } s
  generalize setCan c { s.can[c] with late := s.can[c].late.filter (fun k => k != n), tried := s.can[c].tried.filter (fun k => k != n), acks := mapPut 0 s.can[c].acks n 0 } s = s1 at set can1 ⊢
  have mem : canonAddr (cnObj c n + 3) ∈ [cnObj c n + 3, cnBase c + 3] := by rw [canonAddr_cnObj]; exact List.mem_cons_self ..
  have put : cnOnly c [cnObj c n + 3, cnBase c + 3] s1 (putFld (cnObj c n + 3) 16 14 code (putBit (cnObj c n + 3) 17 false s1)) :=
    cnOnly_trans (cnOnly_putBit _ _ mem s1) (cnOnly_putFld _ _ _ mem _)
  have can2 : (putFld (cnObj c n + 3) 16 14 code (putBit (cnObj c n + 3) 17 false s1)).can = s1.can := by rw [putFld_can, putBit_can]
  have result : fld (Machine.regGet (putFld (cnObj c n + 3) 16 14 code (putBit (cnObj c n + 3) 17 false s1)) (cnObj c n + 3)) 17 14 = code := by
    rw [fld_17_14, fld_putFld _ _ (by decide) (by decide) hc]
    rw [regGet_putFld, if_pos rfl, bit_setFld_other _ _ (by decide) (by decide) (by decide)]
    exact bit_putBit_same _ false s1 (by decide)
  generalize putFld (cnObj c n + 3) 16 14 code (putBit (cnObj c n + 3) 17 false s1) = s2 at put can2 result ⊢
  have same : s2.can[c] = { s.can[c] with late := s2.can[c].late, tried := s2.can[c].tried, acks := s2.can[c].acks } := by rw [can2, can1]
  unfold whenB
  split
  · obtain ⟨evt, -, can3⟩ := cnEvt_spec c (n := 19) (by decide) s2
    have apart : cnBase c + (0x800 + 40 * n + 3) ∉ [cnBase c + 3] := by simp
    refine ⟨cnOnly_trans set (cnOnly_trans put (cnOnly_mono evt (by simp))), ?_, by rw [can3]; exact same⟩
    rw [show cnObj c n + 3 = cnBase c + (0x800 + 40 * n + 3) by omega] at result ⊢
    rw [evt.regGet (by omega) apart]; exact result
  · exact ⟨cnOnly_trans set put, result, same⟩

/-- A command of a requester acts on the state with its lock armed. -/
theorem afterArmLock {who : Requester} (h : cnOnly c as (armLock who s) t) :
    sameBut [.sys, .regs, .held, .can, .pg, .bv, .pc] s t ∧ touches (orEvents as) s t ∧ ∀ d : Fin 2, d ≠ c → t.can[d] = s.can[d] :=
  ⟨sameBut_trans (sameBut_mono (by decide) (armLock_sameBut who s)) (sameBut_mono (by decide) h.parts),
    touches_trans (touches_of_sameBut (armLock_sameBut who s) (by decide) (by decide)) h.regs, h.others⟩

theorem cnPend_armLock (who : Requester) (s : State) (c : Fin 2) (n : Nat) : cnPend (armLock who s) c n = cnPend s c n :=
  congrArg (bit · 17) (inForce_of rfl rfl _)

theorem armLock_regGet (who : Requester) (s : State) (a : Nat) : Machine.regGet (armLock who s) a = Machine.regGet s a := regGet_of_regs rfl a

theorem txrq_spec (s : State) (who : Requester) (c : Fin 2) (o : Fin 128) (hb : afterBoot s = true) :
    ∃ u, exec (.txrq who c o) s = .next u ∧
      ((bit (regGet s (cnObj c o)) 10 = false ∨ bit (regGet s (cnObj c o)) 9 = false ∨ cnPend s c o = true) →
        u.can = s.can ∧ regGet u (cnObj c o + 3) = regGet s (cnObj c o + 3) ∧ regGet u 0xF50001 = regGet s 0xF50001 + 1 ∧
        fld (regGet u 0xF50004) 15 8 = 7) ∧
      (bit (regGet s (cnObj c o)) 10 = true → bit (regGet s (cnObj c o)) 9 = true → cnPend s c o = false →
        bit (regGet s (cnObj c o)) 18 = true → bit (regGet s (cnBase c + 1)) 19 = false →
        fld (regGet u (cnObj c o + 3)) 17 14 = 6) ∧
      (bit (regGet s (cnObj c o)) 10 = true → bit (regGet s (cnObj c o)) 9 = true → cnPend s c o = false →
        bit (regGet s (cnObj c o)) 18 = false → bit (regGet s (cnObj c o)) 17 = false →
        fld (regGet u (cnObj c o + 3)) 17 14 = 8 ∧ regsBut [cnObj c o + 3] s u) ∧
      (∀ d : Fin 2, d ≠ c → u.can[d] = s.can[d]) ∧
      sameBut [.sys, .regs, .held, .can, .pg, .bv, .pc] s u := by
  have hc := c.isLt
  have ho := o.isLt
  have run : exec (.txrq who c o) s = .next (cnTxrq who c o.val (armLock who s)) := congrArg Host.Outcome.next (if_pos hb)
  by_cases drop : (!bit (regGet s (cnObj c o)) 10 || !bit (regGet s (cnObj c o)) 9 || cnPend s c o) = true
  · have e : cnTxrq who c o.val (armLock who s) = dropWrite who (cnObj c o + 3) 7 (armLock who s) := if_pos (by rw [armLock_regGet, cnPend_armLock]; exact drop)
    obtain ⟨touch, cnt, -⟩ := dropWrite_spec who (cnObj c o + 3) 7 (armLock who s)
    have parts := (dropWrite_keeps (L := [.sys, .regs, .held]) who (cnObj c o + 3) 7 (by decide) (armLock_keeps who (by decide) (keeps_refl _ s))).parts
    refine ⟨_, run.trans (congrArg _ e), fun _ => ⟨parts.can (by decide), ?_, ?_, dropWrite_why who _ (by omega) _⟩, fun h1 h2 h3 => ?_, fun h1 h2 h3 => ?_,
      fun d _ => by rw [parts.can (by decide)], sameBut_mono (by decide) parts⟩
    · rw [touch.regGet (by rw [canonAddr_cnObj]; simp [cnObj, cnBase]; omega), armLock_regGet]
    · rw [cnt, armLock_regGet]
    all_goals exact absurd drop (by simp [h1, h2, h3])
  · have legal : bit (regGet s (cnObj c o)) 10 = true ∧ bit (regGet s (cnObj c o)) 9 = true ∧ cnPend s c o = false := by
      simpa [Bool.or_eq_true, not_or, and_assoc] using drop
    have step : ¬(!bit (regGet (armLock who s) (cnObj c o)) 10 || !bit (regGet (armLock who s) (cnObj c o)) 9 || cnPend (armLock who s) c o) = true := by
      rw [armLock_regGet, cnPend_armLock]; exact drop
    by_cases bad : (bit (regGet s (cnObj c o)) 18 && !bit (regGet s (cnBase c + 1)) 19 || bit (regGet s (cnObj c o)) 18 && bit (regGet s (cnObj c o)) 15 ||
        bit (regGet s (cnObj c o)) 17 && !bit (regGet s (cnBase c + 1)) 18) = true
    · have e : cnTxrq who c o.val (armLock who s) = cnObjEnd c o 6 (armLock who s) :=
        (if_neg step).trans (if_pos (by rw [armLock_regGet, armLock_regGet]; exact bad))
      have ended := cnObjEnd_spec c ho (code := 6) (by decide) (armLock who s)
      obtain ⟨parts, -, others⟩ := afterArmLock ended.only
      refine ⟨_, run.trans (congrArg _ e), fun h => ?_, fun _ _ _ _ _ => ended.result, fun _ _ _ h1 h2 => ?_, others, parts⟩
      · obtain ⟨l1, l2, l3⟩ := legal
        rcases h with h | h | h
        · rw [l1] at h; cases h
        · rw [l2] at h; cases h
        · rw [l3] at h; cases h
      · rw [h1, h2] at bad; simp at bad
    · have e : cnTxrq who c o.val (armLock who s) = putFld (cnObj c o + 3) 17 14 8 (setCan c { s.can[c] with acks := mapPut 0 s.can[c].acks o 0 } (armLock who s)) :=
        (if_neg step).trans (if_neg (by rw [armLock_regGet, armLock_regGet]; exact bad))
      have set : cnOnly c [cnObj c o + 3] (armLock who s) (setCan c { s.can[c] with acks := mapPut 0 s.can[c].acks o 0 } (armLock who s)) := cnOnly_setCan _ _
      have setRegs : touches (· ∈ [cnObj c o + 3]) s (setCan c { s.can[c] with acks := mapPut 0 s.can[c].acks o 0 } (armLock who s)) := touches_same (touches_refl _ s) rfl rfl
      generalize setCan c { s.can[c] with acks := mapPut 0 s.can[c].acks o 0 } (armLock who s) = m at set setRegs e
      have mem : canonAddr (cnObj c o + 3) ∈ [cnObj c o + 3] := by rw [canonAddr_cnObj]; exact List.mem_singleton_self _
      obtain ⟨parts, -, others⟩ := afterArmLock (cnOnly_trans set (cnOnly_putFld 17 14 8 mem m))
      refine ⟨_, run.trans (congrArg _ e), fun h => ?_, fun _ _ _ h1 h2 => ?_, fun _ _ _ _ _ => ⟨fld_putFld _ _ (by decide) (by decide) (by decide), ?_⟩, others, parts⟩
      · obtain ⟨l1, l2, l3⟩ := legal
        rcases h with h | h | h
        · rw [l1] at h; cases h
        · rw [l2] at h; cases h
        · rw [l3] at h; cases h
      · rw [h1, h2] at bad; simp at bad
      · exact regsBut_of_touches (touches_putFld _ _ _ mem setRegs)

theorem cancel_spec (s : State) (who : Requester) (c : Fin 2) (o : Fin 128) (hb : afterBoot s = true) (pend : cnPend s c o = true) :
    ∃ u, exec (.cancel who c o) s = .next u ∧
      (cnInFrame s c o = false → fld (regGet u (cnObj c o + 3)) 17 14 = 2) ∧
      (cnInFrame s c o = true → o.val ∈ u.can[c].late ∧ u.regs = s.regs ∧ u.can[c].bus = s.can[c].bus) ∧
      (∀ d : Fin 2, d ≠ c → u.can[d] = s.can[d]) ∧
      sameBut [.sys, .regs, .held, .can, .pg, .bv, .pc] s u ∧ regsButEvents [cnObj c o + 3, cnBase c + 3] s u := by
  have run : exec (.cancel who c o) s = .next (cnCancel c o.val (armLock who s)) := congrArg Host.Outcome.next (if_pos hb)
  have step : ¬(!cnPend (armLock who s) c o) = true := by rw [cnPend_armLock, pend]; decide
  cases inFrame : cnInFrame s c o with
  | true =>
    have e : cnCancel c o.val (armLock who s) = setCan c { s.can[c] with late := if s.can[c].late.contains o.val then s.can[c].late else o.val :: s.can[c].late } (armLock who s) :=
      (if_neg step).trans (if_pos inFrame)
    obtain ⟨parts, regs, others⟩ := afterArmLock (cnOnly_setCan (c := c) (as := [cnObj c o + 3, cnBase c + 3])
      { s.can[c] with late := if s.can[c].late.contains o.val then s.can[c].late else o.val :: s.can[c].late } (armLock who s))
    refine ⟨_, run.trans (congrArg _ e), (fun h => by cases h), fun _ => ⟨?_, rfl, ?_⟩, others, parts, regsButEvents_of_touches regs⟩
    · rw [setCan_can_same]
      show o.val ∈ if s.can[c].late.contains o.val then s.can[c].late else o.val :: s.can[c].late
      by_cases h : s.can[c].late.contains o.val = true
      · rw [if_pos h]; simpa using h
      · rw [if_neg h]; exact List.mem_cons_self ..
    · rw [setCan_can_same]
  | false =>
    have e : cnCancel c o.val (armLock who s) = cnObjEnd c o 2 (armLock who s) := (if_neg step).trans (if_neg (by rw [show cnInFrame (armLock who s) c o = cnInFrame s c o from rfl, inFrame]; decide))
    have ended := cnObjEnd_spec c o.isLt (code := 2) (by decide) (armLock who s)
    obtain ⟨parts, regs, others⟩ := afterArmLock ended.only
    exact ⟨_, run.trans (congrArg _ e), fun _ => ended.result, (fun h => by cases h), others, parts, regsButEvents_of_touches regs⟩

/-! ### The fall-back queue and the receive ring (R408, R410) -/

theorem push_spec (s : State) (who : Requester) (c : Fin 2) (hb : afterBoot s = true) :
    ∃ u, exec (.push who c) s = .next u ∧
      (s.can[c].queue.length < 32 → u.can[c].queue = s.can[c].queue ++ [⟨(List.range 40).map fun i => regGet s (cnBase c + 0x180 + i), false, 0⟩] ∧
        u.regs = s.regs) ∧
      (32 ≤ s.can[c].queue.length → u.can = s.can ∧ regGet u (cnBase c + 0x15) = regGet s (cnBase c + 0x15) + 1 ∧
        bit (regGet u (cnBase c + 3)) 12 = true) ∧
      (∀ d : Fin 2, d ≠ c → u.can[d] = s.can[d]) ∧
      sameBut [.sys, .regs, .held, .can, .pg, .bv, .pc] s u ∧ regsButEvents [cnBase c + 3, cnBase c + 0x15] s u := by
  have run : exec (.push who c) s = .next (cnPush c (armLock who s)) := congrArg Host.Outcome.next (if_pos hb)
  by_cases full : 32 ≤ s.can[c].queue.length
  · have e : cnPush c (armLock who s) = cnEvt c 12 (count (cnBase c + 0x15) (armLock who s)) := if_pos full
    have cnt := count_regGet_same (cnBase c + 0x15) (armLock who s)
    have counted : cnOnly c [cnBase c + 3, cnBase c + 0x15] (armLock who s) (count (cnBase c + 0x15) (armLock who s)) :=
      cnOnly_count (by rw [canonAddr_cnBase]; simp) _
    have can : (count (cnBase c + 0x15) (armLock who s)).can = s.can := count_can ..
    generalize count (cnBase c + 0x15) (armLock who s) = m at e cnt counted can
    obtain ⟨evt, flag, can'⟩ := cnEvt_spec c (n := 12) (by decide) m
    obtain ⟨parts, regs, others⟩ := afterArmLock (cnOnly_trans counted (cnOnly_mono evt (by simp)))
    refine ⟨_, run.trans (congrArg _ e), fun h => absurd full (Nat.not_le.mpr h), fun _ => ⟨can'.trans can, ?_, flag⟩, others, parts, regsButEvents_of_touches regs⟩
    rw [evt.regGet (by decide) (by simp), cnt, armLock_regGet]
  · have e : cnPush c (armLock who s) = setCan c { s.can[c] with queue := s.can[c].queue ++ [⟨(List.range 40).map fun i => regGet (armLock who s) (cnBase c + 0x180 + i), false, 0⟩] } (armLock who s) :=
      if_neg full
    obtain ⟨parts, regs, others⟩ := afterArmLock (cnOnly_setCan (c := c) (as := [cnBase c + 3, cnBase c + 0x15])
      { s.can[c] with queue := s.can[c].queue ++ [⟨(List.range 40).map fun i => regGet (armLock who s) (cnBase c + 0x180 + i), false, 0⟩] } (armLock who s))
    refine ⟨_, run.trans (congrArg _ e), fun _ => ⟨?_, rfl⟩, fun h => absurd h full, others, parts, regsButEvents_of_touches regs⟩
    rw [setCan_can_same]
    simp only [armLock_regGet]

/-- The results of queue entries that end with 010b enter the result FIFO while it has room. -/
theorem flushResults_spec (es : List TqEntry) (m : State) (room : m.can[c].results.length + es.length ≤ 32) :
    let u := forEach es (fun e s => cnResult c 2 (fld (e.frame.getD 3 0) 7 0) s) m
    cnOnly c [cnBase c + 3] m u ∧ u.can[c].queue = m.can[c].queue ∧ u.can[c].results = m.can[c].results ++ es.map fun e => (2, fld (e.frame.getD 3 0) 7 0) := by
  induction es generalizing m with
  | nil => exact ⟨cnOnly_refl m, rfl, (List.append_nil _).symm⟩
  | cons e es ih =>
    simp only [List.length_cons] at room
    have step : cnResult c 2 (fld (e.frame.getD 3 0) 7 0) m = cnEvt c 18 (setCan c { m.can[c] with results := m.can[c].results ++ [(2, fld (e.frame.getD 3 0) 7 0)] } m) :=
      congrArg (cnEvt c 18) (if_neg (by omega))
    have set : cnOnly c [cnBase c + 3] m (setCan c { m.can[c] with results := m.can[c].results ++ [(2, fld (e.frame.getD 3 0) 7 0)] } m) := cnOnly_setCan _ m
    have can1 := setCan_can_same c { m.can[c] with results := m.can[c].results ++ [(2, fld (e.frame.getD 3 0) 7 0)] } m
    generalize setCan c { m.can[c] with results := m.can[c].results ++ [(2, fld (e.frame.getD 3 0) 7 0)] } m = m1 at step set can1
    obtain ⟨evt, -, can2⟩ := cnEvt_spec c (n := 18) (by decide) m1
    show cnOnly c _ m (forEach es _ (cnResult c 2 _ m)) ∧ (forEach es _ (cnResult c 2 _ m)).can[c].queue = _ ∧ (forEach es _ (cnResult c 2 _ m)).can[c].results = _
    rw [step]
    generalize cnEvt c 18 m1 = m2 at evt can2 ⊢
    have can : m2.can[c] = { m.can[c] with results := m.can[c].results ++ [(2, fld (e.frame.getD 3 0) 7 0)] } := by rw [can2, can1]
    obtain ⟨only, queue, results⟩ := ih m2 (by rw [can]; simp only [List.length_append, List.length_singleton]; omega)
    refine ⟨cnOnly_trans set (cnOnly_trans evt only), queue.trans (by rw [can]), results.trans ?_⟩
    rw [can, List.append_assoc]; rfl

theorem flush_spec (s : State) (who : Requester) (c : Fin 2) (hb : afterBoot s = true) (out : cnInFrame s c 128 = false)
    (room : s.can[c].results.length + s.can[c].queue.length ≤ 32) :
    ∃ u, exec (.flush who c) s = .next u ∧ u.can[c].queue = [] ∧
        u.can[c].results = s.can[c].results ++ s.can[c].queue.map (fun e => (2, fld (e.frame.getD 3 0) 7 0)) ∧
        (∀ d : Fin 2, d ≠ c → u.can[d] = s.can[d]) ∧
        sameBut [.sys, .regs, .held, .can, .pg, .bv, .pc] s u ∧ regsButEvents [cnBase c + 3] s u := by
  have run : exec (.flush who c) s = .next (cnFlush c (armLock who s)) := congrArg Host.Outcome.next (if_pos hb)
  have e : cnFlush c (armLock who s) = forEach s.can[c].queue (fun e s => cnResult c 2 (fld (e.frame.getD 3 0) 7 0) s)
      (setCan c { s.can[c] with queue := [], tried := s.can[c].tried.filter fun n => n != 128 } (armLock who s)) :=
    if_neg (by rw [show cnInFrame (armLock who s) c 128 = cnInFrame s c 128 from rfl, out]; decide)
  have set : cnOnly c [cnBase c + 3] (armLock who s) (setCan c { s.can[c] with queue := [], tried := s.can[c].tried.filter fun n => n != 128 } (armLock who s)) := cnOnly_setCan _ _
  have can1 := setCan_can_same c { s.can[c] with queue := [], tried := s.can[c].tried.filter fun n => n != 128 } (armLock who s)
  generalize setCan c { s.can[c] with queue := [], tried := s.can[c].tried.filter fun n => n != 128 } (armLock who s) = m at e set can1
  obtain ⟨only, queue, results⟩ := flushResults_spec (c := c) s.can[c].queue m (by rw [can1]; exact room)
  obtain ⟨parts, regs, others⟩ := afterArmLock (cnOnly_trans set only)
  exact ⟨_, run.trans (congrArg _ e), queue.trans (by rw [can1]), results.trans (by rw [can1]), others, parts, regsButEvents_of_touches regs⟩

theorem setCan_frame (c : Fin 2) (x : Can) (who : Requester) (s : State) :
    (∀ d : Fin 2, d ≠ c → (setCan c x (armLock who s)).can[d] = s.can[d]) ∧ sameBut [.sys, .can] s (setCan c x (armLock who s)) :=
  ⟨fun _ hd => setCan_can_other hd x _, sameBut_trans (sameBut_mono (by decide) (armLock_sameBut who s)) (sameBut_mono (by decide) (sameBut_setCan c x _))⟩

/-- Settles O17. -/
theorem canRequestsAndQueues : Obligations.CanRequestsAndQueues := by
  unfold Obligations.CanRequestsAndQueues
  refine ⟨⟨txrq_spec, cancel_spec⟩, fun s who c hb => ⟨push_spec s who c hb, flush_spec s who c hb, ?_, ?_⟩⟩
  · obtain ⟨others, parts⟩ := setCan_frame c { s.can[c] with results := s.can[c].results.tail } who s
    have can := setCan_can_same c { s.can[c] with results := s.can[c].results.tail } (armLock who s)
    exact ⟨_, congrArg Host.Outcome.next (if_pos hb), (congrArg Can.results can :), (congrArg Can.queue can :), (congrArg Can.ring can :), others, parts⟩
  · obtain ⟨others, parts⟩ := setCan_frame c { s.can[c] with ring := s.can[c].ring.tail, wval := !s.can[c].ring.tail.isEmpty } who s
    have can := setCan_can_same c { s.can[c] with ring := s.can[c].ring.tail, wval := !s.can[c].ring.tail.isEmpty } (armLock who s)
    exact ⟨_, congrArg Host.Outcome.next (if_pos hb), (congrArg Can.ring can :), (congrArg Can.wval can :), (congrArg Can.results can :), others, parts⟩

end Sys2Proof.Machine
end

