-- ==== Sys2Proof/Proofs/CanFrames.lean ====
section
/-! PROOFS. The modes of a CAN controller and the frames on its bus (15 R398-R411). -/

namespace Sys2Proof.Machine

variable {L : List Part} {o s t : State} {c : Fin 2} {as bs : List Nat}

/-! ### Modes (R398, R406, R407) -/

theorem mem_cnBase (c : Fin 2) (i : Nat) (h : cnBase c + i ∈ as) : canonAddr (cnBase c + i) ∈ as := by rw [canonAddr_cnBase]; exact h

theorem canonAddr_cnBase0 (c : Fin 2) : canonAddr (cnBase c) = cnBase c := canonAddr_cnBase c 0

theorem initSet_spec (s : State) (who : Requester) (c : Fin 2) (hb : afterBoot s = true) (hst : s.can[c].st ≠ .init) :
    ∃ u, exec (.initSet who c) s = .next u ∧ bit (regGet u (cnBase c)) 19 = true ∧
        (s.can[c].bus = none → u.can[c].st = .init) ∧
        (cnOnBus s.can[c] = true → s.can[c].bus.isSome = true → u.can[c].st = s.can[c].st ∧ u.can[c].initPend = true ∧
          u.can[c].bus = s.can[c].bus) ∧
        (∀ d : Fin 2, d ≠ c → u.can[d] = s.can[d]) ∧ sameBut [.sys, .regs, .held, .can] s u ∧ regsBut [cnBase c] s u := by
  have run : exec (.initSet who c) s = .next (cnInitSet c (armLock who s)) := congrArg Host.Outcome.next (if_pos hb)
  have mem : canonAddr (cnBase c) ∈ [cnBase c] := by rw [canonAddr_cnBase0]; exact List.mem_singleton_self _
  have e : cnInitSet c (armLock who s) = if cnOnBus s.can[c] && s.can[c].bus.isSome then setCan c { s.can[c] with initPend := true } (putBit (cnBase c) 19 true (armLock who s))
      else setCan c { s.can[c] with st := .init, bus := none, initPend := false } (putBit (cnBase c) 19 true (armLock who s)) := if_neg hst
  have put : cnOnly c [cnBase c] (armLock who s) (putBit (cnBase c) 19 true (armLock who s)) := cnOnly_putBit _ _ mem _
  have regs : touches (· ∈ [cnBase c]) s (putBit (cnBase c) 19 true (armLock who s)) :=
    touches_putBit _ _ mem (touches_of_sameBut (armLock_sameBut who s) (by decide) (by decide))
  have flag : bit (regGet (putBit (cnBase c) 19 true (armLock who s)) (cnBase c)) 19 = true := bit_putBit_same _ true _ (by decide)
  have parts : sameBut [.sys, .regs, .held] s (putBit (cnBase c) 19 true (armLock who s)) :=
    (putBit_keeps _ _ _ (by decide) (armLock_keeps (L := [.sys, .regs, .held]) who (by decide) (keeps_refl _ s))).parts
  generalize putBit (cnBase c) 19 true (armLock who s) = m at e put regs flag parts
  have after : ∀ x : Can, bit (regGet (setCan c x m) (cnBase c)) 19 = true ∧ (∀ d : Fin 2, d ≠ c → (setCan c x m).can[d] = s.can[d]) ∧
      sameBut [.sys, .regs, .held, .can] s (setCan c x m) ∧ regsBut [cnBase c] s (setCan c x m) := fun x =>
    ⟨(congrArg (bit · 19) (regGet_of_regs rfl _)).trans flag, fun d hd => (setCan_can_other hd x m).trans (by rw [parts.can (by decide)]),
      sameBut_trans (sameBut_mono (by decide) parts) (sameBut_mono (by decide) (sameBut_setCan c x m)), regsBut_of_touches (touches_same regs rfl rfl)⟩
  by_cases h : (cnOnBus s.can[c] && s.can[c].bus.isSome) = true
  · rw [if_pos h] at e
    obtain ⟨flag, others, parts, regs⟩ := after { s.can[c] with initPend := true }
    refine ⟨_, run.trans (congrArg _ e), flag, fun none => ?_, fun _ _ => ?_, others, parts, regs⟩
    · rw [none] at h; simp at h
    · rw [setCan_can_same]; exact ⟨rfl, rfl, rfl⟩
  · rw [if_neg h] at e
    obtain ⟨flag, others, parts, regs⟩ := after { s.can[c] with st := .init, bus := none, initPend := false }
    refine ⟨_, run.trans (congrArg _ e), flag, fun _ => ?_, fun h1 h2 => absurd (by rw [h1, h2]; rfl) h, others, parts, regs⟩
    rw [setCan_can_same]

theorem initClear_spec (s : State) (who : Requester) (c : Fin 2) (hb : afterBoot s = true) (set : bitOf s (cnBase c) 19 = true) (hst : s.can[c].st = .init) :
      ∃ u, exec (.initClear who c) s = .next u ∧
        (cnTimingOk s c = true → bit (regGet u (cnBase c)) 19 = false ∧ u.can[c].st = .integrating ∧ u.can[c].tec = 0 ∧ u.can[c].recv = 0) ∧
        (cnTimingOk s c = false → u.can = s.can ∧ bit (regGet u (cnBase c + 2)) 13 = true ∧ regGet u (cnBase c) = regGet s (cnBase c)) ∧
        (∀ d : Fin 2, d ≠ c → u.can[d] = s.can[d]) ∧
        sameBut [.sys, .regs, .held, .can] s u ∧ regsBut [cnBase c, cnBase c + 2] s u := by
  have run : exec (.initClear who c) s = .next (cnInitClear c (armLock who s)) := congrArg Host.Outcome.next (if_pos hb)
  have timing : cnTimingOk (armLock who s) c = cnTimingOk s c := by
    unfold cnTimingOk; simp only [armLock_regGet]
  have skip : ¬(!bitOf (armLock who s) (cnBase c) 19) = true := by
    rw [show bitOf (armLock who s) (cnBase c) 19 = bitOf s (cnBase c) 19 from congrArg (bit · 19) (inForce_of rfl rfl _), set]; decide
  have armed : ∀ A, touches A s (armLock who s) := fun A => touches_of_sameBut (armLock_sameBut who s) (by decide) (by decide)
  cases ok : cnTimingOk s c with
  | true =>
    have e : cnInitClear c (armLock who s) = putBit (cnBase c) 19 false (setCan c (if s.can[c].st = .init then { s.can[c] with tec := 0, recv := 0, st := .integrating } else { s.can[c] with tec := 0, recv := 0 }) (armLock who s)) :=
      (if_neg skip).trans (if_neg (by rw [timing, ok]; decide))
    rw [if_pos hst] at e
    obtain ⟨others, parts⟩ := setCan_frame c { s.can[c] with tec := 0, recv := 0, st := .integrating } who s
    have can := setCan_can_same c { s.can[c] with tec := 0, recv := 0, st := .integrating } (armLock who s)
    have regs : touches (· ∈ [cnBase c, cnBase c + 2]) s (setCan c { s.can[c] with tec := 0, recv := 0, st := .integrating } (armLock who s)) := touches_same (armed _) rfl rfl
    generalize setCan c { s.can[c] with tec := 0, recv := 0, st := .integrating } (armLock who s) = m at e others parts can regs
    refine ⟨_, run.trans (congrArg _ e), fun _ => ⟨bit_putBit_same _ false m (by decide), ?_⟩, (fun h => by cases h), fun d hd => by rw [putBit_can]; exact others d hd, ?_, ?_⟩
    · rw [putBit_can, can]; exact ⟨rfl, rfl, rfl⟩
    · exact sameBut_trans (sameBut_mono (by decide) parts) (putBit_keeps (L := [.sys, .regs, .held, .can]) _ _ _ (by decide) (keeps_refl _ m)).parts
    · exact regsBut_of_touches (touches_putBit _ _ (by rw [canonAddr_cnBase0]; exact List.mem_cons_self ..) regs)
  | false =>
    have e : cnInitClear c (armLock who s) = putBit (cnBase c + 2) 13 true (armLock who s) := (if_neg skip).trans (if_pos (by rw [timing, ok]; rfl))
    refine ⟨_, run.trans (congrArg _ e), (fun h => by cases h), fun _ => ⟨putBit_can .., bit_putBit_same _ true _ (by decide), ?_⟩, fun d _ => by rw [putBit_can]; rfl, ?_, ?_⟩
    · rw [regGet_putBit, if_neg (by rw [canonAddr_cnBase, canonAddr_cnBase0]; omega), armLock_regGet]
    · exact (putBit_keeps (L := [.sys, .regs, .held, .can]) _ _ _ (by decide) (armLock_keeps who (by decide) (keeps_refl _ s))).parts
    · exact regsBut_of_touches (touches_putBit _ _ (mem_cnBase c 2 (by simp)) (armed _))

theorem recovery_spec (s : State) (c : Fin 2) (hst : s.can[c].st = .recovering) :
      ∃ u, exec (.busOffRecovery c) s = .next u ∧ u.can[c] = { s.can[c] with st := .active, tec := 0, recv := 0 } ∧
        bit (regGet u (cnBase c + 3)) 16 = true ∧ (∀ d : Fin 2, d ≠ c → u.can[d] = s.can[d]) ∧
        sameBut [.regs, .held, .can, .pg, .bv, .pc] s u ∧ regsButEvents [cnBase c + 3] s u := by
  have set : cnOnly c [cnBase c + 3] s (setCan c { s.can[c] with st := .active, tec := 0, recv := 0 } s) := cnOnly_setCan _ s
  obtain ⟨evt, flag, can⟩ := cnEvt_spec c (n := 16) (by decide) (setCan c { s.can[c] with st := .active, tec := 0, recv := 0 } s)
  have only := cnOnly_trans set evt
  refine ⟨_, congrArg Host.Outcome.next (if_pos hst), ?_, flag, only.others, only.parts, regsButEvents_of_touches only.regs⟩
  rw [can, setCan_can_same]

/-! ### The start of a frame (R401) -/

/-- The best candidate is one of them, and none is stronger. -/
theorem cnBest_spec (l : List (Nat × Nat)) : (l ≠ [] → (cnBest l).isSome = true) ∧ ∀ x, cnBest l = some x → x ∈ l ∧ ∀ y ∈ l, x.2 ≤ y.2 := by
  induction l with
  | nil => exact ⟨fun h => absurd rfl h, fun x h => by cases h⟩
  | cons x xs ih =>
    unfold cnBest
    cases hb : cnBest xs with
    | none =>
      have empty : xs = [] := by
        by_cases e : xs = []
        · exact e
        · have := ih.1 e; rw [hb] at this; cases this
      refine ⟨fun _ => rfl, fun z hz => ?_⟩
      cases hz
      rw [empty]
      exact ⟨List.mem_cons_self .., fun y hy => by rw [List.mem_singleton.mp hy]⟩
    | some y =>
      obtain ⟨hy, least⟩ := ih.2 y hb
      by_cases lt : y.2 < x.2
      · refine ⟨fun _ => by simp [lt], fun z hz => ?_⟩
        simp only [if_pos lt] at hz
        cases hz
        exact ⟨List.mem_cons_of_mem _ hy, fun w hw => (List.mem_cons.mp hw).elim (fun e => by rw [e]; omega) (least w)⟩
      · refine ⟨fun _ => by simp [lt], fun z hz => ?_⟩
        simp only [if_neg lt] at hz
        cases hz
        exact ⟨List.mem_cons_self .., fun w hw => (List.mem_cons.mp hw).elim (fun e => by rw [e]) fun h => Nat.le_trans (Nat.not_lt.mp lt) (least w h)⟩

theorem startOfFrame_spec (s : State) (c : Fin 2) (t : Nat) (on : cnOnBus s.can[c] = true) :
    ∃ u b, exec (.startOfFrame c t) s = .next u ∧ u.can[c].bus = some b ∧ b.sof = t ∧
      (cnLomf s c = true ∨ bitOf s (cnBase c) 19 = true → b.own = none) ∧
      (cnLomf s c = false → bitOf s (cnBase c) 19 = false → (cnCandidates s c ≠ [] → b.own.isSome = true) ∧
        ∀ o, b.own = some o → ∃ k, (o, k) ∈ cnCandidates s c ∧ ∀ x ∈ cnCandidates s c, k ≤ x.2) ∧
      (∀ d : Fin 2, d ≠ c → u.can[d] = s.can[d]) ∧ sameBut [.now, .can] s u := by
  let own : Option Nat := if cnLomf s c || bitOf s (cnBase c) 19 then none else (cnBest (cnCandidates s c)).map (·.1)
  obtain ⟨tried, e⟩ : ∃ tried, cnStart c t (advance t s) = setCan c { s.can[c] with bus := some ⟨own, t⟩, tried := tried } (advance t s) :=
    ⟨_, if_neg (by rw [show (advance t s).can[c] = s.can[c] from rfl, on]; decide)⟩
  refine ⟨_, ⟨own, t⟩, congrArg Host.Outcome.next e, by rw [setCan_can_same], rfl, fun h => if_pos ?_, fun h1 h2 => ?_, fun d hd => setCan_can_other hd _ _, ?_⟩
  · rcases h with h | h <;> rw [h]
    · rfl
    · exact Bool.or_true _
  · have eown : own = (cnBest (cnCandidates s c)).map (·.1) := if_neg (by rw [h1, h2]; decide)
    obtain ⟨some_, best⟩ := cnBest_spec (cnCandidates s c)
    show (_ → own.isSome = true) ∧ ∀ o, own = some o → _
    rw [eown]
    refine ⟨fun h => by rw [Option.isSome_map]; exact some_ h, fun o ho => ?_⟩
    obtain ⟨⟨n, k⟩, hx, rfl⟩ := Option.map_eq_some_iff.mp ho
    exact ⟨k, best _ hx⟩
  · exact sameBut_trans (advance_keeps (L := [.now, .can]) t (by decide) (keeps_refl _ s)).parts (sameBut_mono (by decide) (sameBut_setCan c _ _))

/-! ### Error states and the end of a frame (R406) -/

/-- A change among the error states leaves the error counters, the lists and the bus. -/
def sameButMode (c : Fin 2) (s t : State) : Prop := t.can[c] = { s.can[c] with st := t.can[c].st }

theorem cnErrState_spec (c : Fin 2) (s : State) : cnOnly c [cnBase c + 3] s (cnErrState c s) ∧ sameButMode c s (cnErrState c s) := by
  have evt : ∀ (n : Nat) (m : State), n < 20 → cnOnly c [cnBase c + 3] s m → sameButMode c s m →
      cnOnly c [cnBase c + 3] s (cnEvt c n m) ∧ sameButMode c s (cnEvt c n m) := fun n m hn h k => by
    obtain ⟨only, -, can⟩ := cnEvt_spec c hn m
    refine ⟨cnOnly_trans h only, ?_⟩
    unfold sameButMode at k ⊢
    rw [can]; exact k
  have set : ∀ st, cnOnly c [cnBase c + 3] s (setCan c { s.can[c] with st := st } s) ∧ sameButMode c s (setCan c { s.can[c] with st := st } s) := fun st =>
    ⟨cnOnly_setCan _ s, by unfold sameButMode; rw [setCan_can_same]⟩
  unfold cnErrState
  extract_lets x want
  split
  · exact ⟨cnOnly_refl s, rfl⟩
  · split
    · obtain ⟨h1, k1⟩ := set (if bitOf s (cnBase c + 1) 15 then .recovering else .busOff)
      obtain ⟨h2, k2⟩ := evt 16 _ (by decide) h1 k1
      exact evt 15 _ (by decide) h2 k2
    · split
      · exact ⟨cnOnly_refl s, rfl⟩
      · obtain ⟨h1, k1⟩ := set want
        exact evt 16 _ (by decide) h1 k1

/-- A controller whose counters stand below their limits stays error-active. -/
theorem cnErrState_active (h : s.can[c].st = .active) (ht : s.can[c].tec < 128) (hr : s.can[c].recv < 128) : cnErrState c s = s := by
  have notOff : ¬256 ≤ s.can[c].tec := by omega
  have notPassive : ¬(128 ≤ s.can[c].tec ∨ 128 ≤ s.can[c].recv) := by omega
  unfold cnErrState
  simp only [h, notOff, notPassive]
  rfl

/-- The frame on the bus is over. -/
theorem cnBusFree_spec (c : Fin 2) (s : State) : cnOnly c [] s (cnBusFree c s) ∧ (cnBusFree c s).regs = s.regs ∧
    (cnBusFree c s).can[c] = { s.can[c] with bus := none, initPend := false, st := (cnBusFree c s).can[c].st } ∧
    (s.can[c].initPend = false → (cnBusFree c s).can[c].st = s.can[c].st) := by
  unfold cnBusFree
  extract_lets x
  cases h : x.initPend with
  | true =>
    rw [if_pos rfl, setCan_can_same]
    exact ⟨cnOnly_setCan _ s, rfl, rfl, fun k => by cases k⟩
  | false =>
    rw [if_neg (by decide), setCan_can_same]
    refine ⟨cnOnly_setCan _ s, rfl, ?_, fun _ => rfl⟩
    rw [← h]

theorem advance_sameBut (t : Nat) (s : State) : sameBut [.now] s (advance t s) := (advance_keeps t (by decide) (keeps_refl _ s)).parts

theorem advance_regGet (t : Nat) (s : State) (a : Nat) : regGet (advance t s) a = regGet s a := regGet_of_regs rfl a

/-- An instant of a controller acts on the state with the clock advanced. -/
theorem afterAdvance {k : Nat} (h : cnOnly c as (advance k s) t) :
    (∀ d : Fin 2, d ≠ c → t.can[d] = s.can[d]) ∧ sameBut [.now, .regs, .held, .can, .pg, .bv, .pc] s t :=
  ⟨h.others, sameBut_trans (sameBut_mono (by decide) (advance_sameBut k s)) (sameBut_mono (by decide) h.parts)⟩

theorem cnLomf_of_cnOnly (h : cnOnly c as s t) (hc : cnBase c ∉ as) : cnLomf t c = cnLomf s c := by
  unfold cnLomf isActive
  rw [h.parts.pr (by decide)]
  exact congrArg (· || !s.pr.active) (h.bitOf (i := 0) (by decide) hc 18)

/-- An error met as a receiver (R406, R411). -/
theorem cnRxError_spec (c : Fin 2) (eight : Bool) (s : State) :
    cnOnly c [cnBase c + 3, cnBase c + 0x14] s (cnFrameEnd.rx c eight s) ∧
      regGet (cnFrameEnd.rx c eight s) (cnBase c + 0x14) = regGet s (cnBase c + 0x14) + 1 ∧
      (cnFrameEnd.rx c eight s).can[c].tec = s.can[c].tec ∧
      (cnFrameEnd.rx c eight s).can[c].recv = (if cnLomf s c then s.can[c].recv else min 255 (s.can[c].recv + if eight then 8 else 1)) := by
  have cnt := count_regGet_same (cnBase c + 0x14) s
  have only1 : cnOnly c [cnBase c + 3, cnBase c + 0x14] s (count (cnBase c + 0x14) s) := cnOnly_count (mem_cnBase c 0x14 (by simp)) s
  have can1 : (count (cnBase c + 0x14) s).can = s.can := count_can ..
  have e : cnFrameEnd.rx c eight s = if cnLomf s c then count (cnBase c + 0x14) s
      else cnErrState c (setCan c { (count (cnBase c + 0x14) s).can[c] with recv := min 255 ((count (cnBase c + 0x14) s).can[c].recv + if eight then 8 else 1) } (count (cnBase c + 0x14) s)) := rfl
  rw [e]
  generalize count (cnBase c + 0x14) s = s1 at cnt only1 can1 ⊢
  cases lom : cnLomf s c with
  | true =>
    rw [if_pos rfl]
    exact ⟨only1, cnt, by rw [can1], by rw [can1]; rfl⟩
  | false =>
    rw [if_neg (by decide)]
    have set : cnOnly c [] s1 (setCan c { s1.can[c] with recv := min 255 (s1.can[c].recv + if eight then 8 else 1) } s1) := cnOnly_setCan _ s1
    have can2 := setCan_can_same c { s1.can[c] with recv := min 255 (s1.can[c].recv + if eight then 8 else 1) } s1
    generalize setCan c { s1.can[c] with recv := min 255 (s1.can[c].recv + if eight then 8 else 1) } s1 = s2 at set can2 ⊢
    obtain ⟨only3, mode⟩ := cnErrState_spec c s2
    refine ⟨cnOnly_trans only1 (cnOnly_trans (cnOnly_mono set (by simp)) (cnOnly_mono only3 (by simp))), ?_, ?_, ?_⟩
    · rw [only3.regGet (by decide) (by simp), set.regGet (by decide) (by simp), cnt]
    · rw [mode, can2, can1]
    · rw [mode, can2, can1]; rfl

theorem frameEnd_rxError (s : State) (c : Fin 2) (b : OnBus) (eight : Bool) (td : Option (Fin 128)) (t : Nat) (bus : s.can[c].bus = some b) (none_ : b.own = none) :
    ∃ u, exec (.frameEnd c (.rxError eight) td t) s = .next u ∧ u.can[c].bus = none ∧ u.can[c].tec = s.can[c].tec ∧
      u.can[c].recv = (if cnLomf s c then s.can[c].recv else min 255 (s.can[c].recv + if eight then 8 else 1)) ∧
      regGet u (cnBase c + 0x14) = regGet s (cnBase c + 0x14) + 1 ∧
      (∀ d : Fin 2, d ≠ c → u.can[d] = s.can[d]) ∧ sameBut [.now, .regs, .held, .can, .pg, .bv, .pc] s u := by
  have e : cnFrameEnd c (.rxError eight) td (advance t s) = cnBusFree c (cnFrameEnd.rx c eight (advance t s)) := by
    unfold cnFrameEnd
    rw [show (advance t s).can[c].bus = some b from bus]
    simp only [none_]
  obtain ⟨only, cnt, tec, recv⟩ := cnRxError_spec c eight (advance t s)
  generalize cnFrameEnd.rx c eight (advance t s) = m at e only cnt tec recv
  obtain ⟨free, regs, can, -⟩ := cnBusFree_spec c m
  obtain ⟨others, parts⟩ := afterAdvance (cnOnly_trans only (cnOnly_mono free (by simp)))
  refine ⟨_, congrArg Host.Outcome.next e, by rw [can], by rw [can]; exact tec, by rw [can]; exact recv, ?_, others, parts⟩
  rw [regGet_of_regs regs, cnt, advance_regGet]

/-! ### A frame sent (R402, R409) -/

/-- A measured loop delay changes one register only. -/
theorem cnLoopDelay_spec (c : Fin 2) (n : Nat) (td : Option (Fin 128)) (s : State) : cnOnly c [cnBase c + 10] s (cnLoopDelay c n td s) ∧ (cnLoopDelay c n td s).can = s.can := by
  unfold cnLoopDelay
  extract_lets w0
  cases td with
  | none => exact ⟨cnOnly_refl s, rfl⟩
  | some d =>
    unfold whenB
    dsimp only
    split
    · exact ⟨cnOnly_putFld _ _ _ (mem_cnBase c 10 (by simp)) s, putFld_can ..⟩
    · exact ⟨cnOnly_refl s, rfl⟩

/-- The 40 registers of a message object. -/
def objRegs (c : Fin 2) (n : Nat) : List Nat := (List.range 40).map fun i => cnBase c + (0x800 + 40 * n + i)

theorem mem_objRegs {n i : Nat} : cnBase c + i ∈ objRegs c n ↔ 0x800 + 40 * n ≤ i ∧ i < 0x800 + 40 * n + 40 := by
  unfold objRegs
  rw [List.mem_map]
  constructor
  · rintro ⟨j, hj, e⟩
    have := List.mem_range.mp hj
    omega
  · rintro ⟨h1, h2⟩
    exact ⟨i - (0x800 + 40 * n), List.mem_range.mpr (by omega), by omega⟩

theorem mem_objRegs_obj {n i : Nat} (hi : i < 40) : canonAddr (cnObj c n + i) ∈ objRegs c n := by
  rw [canonAddr_cnObj, cnObj_eq, Nat.add_assoc]
  exact mem_objRegs.mpr ⟨by omega, by omega⟩

theorem cnOnly_putWord {a : Nat} (w : Word) (ha : canonAddr a ∈ as) (s : State) : cnOnly c as s (putWord a w s) :=
  cnOnly_regs (putWord_keeps a w (by decide) (keeps_refl _ s)).parts (touches_putWord w (.inl ha) (touches_refl _ s))

/-- Words written within a message object. -/
theorem cnOnly_putWords {n i : Nat} (ws : List Word) (hi : i + ws.length ≤ 40) (s : State) :
    cnOnly c (objRegs c n) s (putWords (cnObj c n + i) ws s) ∧ (putWords (cnObj c n + i) ws s).can = s.can := by
  have parts := (putWords_keeps (L := [.regs, .held]) (cnObj c n + i) ws (by decide) (keeps_refl _ s)).parts
  refine ⟨cnOnly_regs parts (touches_mono (putWords_spec ws (fun j => by rw [Nat.add_assoc]; exact canonAddr_cnObj c n (i + j)) s).1 fun a ha => .inl ?_), parts.can (by decide)⟩
  obtain ⟨h1, h2⟩ := ha
  rw [cnObj_eq] at h1 h2
  rw [show a = cnBase c + (a - cnBase c) by omega]
  exact mem_objRegs.mpr ⟨by omega, by omega⟩

/-- The state after the request of a sent frame has ended, and after the counters of its transmitter have followed. -/
def sentEnded (c : Fin 2) (n : Nat) (w0 : Word) (ots : List Word) (s : State) : State :=
  count (cnBase c + 0x12) (putBit (cnBase c + 2) 15 false (cnObjEnd c n 1 (putWords (cnObj c n + 4) ots (putWord (cnObj c n) w0 s))))

def sentCounted (c : Fin 2) (full : List Word) (s : State) : State :=
  setCan c { s.can[c] with tec := s.can[c].tec - 1, ackRun := 0, sent := full :: s.can[c].sent } s

theorem cnSent_eq {n : Nat} (hn : n < 128) (sof : Nat) (late : s.can[c].late.contains n = false) : ∃ (w0 : Word) (full own : List Word),
    cnSent c n sof s = cnErrState c (whenB (bitOf (sentCounted c full (sentEnded c n w0 (words64 (sysTimeAt s sof)) s)) (cnBase c + 1) 16) (cnRing c own)
      (sentCounted c full (sentEnded c n w0 (words64 (sysTimeAt s sof)) s))) := by
  have notHead : ¬n = 128 := by omega
  have lateNo : cnLate s c n = false := (if_neg notHead).trans late
  unfold cnSent cnEnd
  simp only [if_neg notHead, lateNo, Bool.false_eq_true, if_false]
  exact ⟨_, _, _, rfl⟩

/-- A frame of a message object sent in the error-active state (R402, R405). -/
structure cnFrameSent (c : Fin 2) (n : Nat) (s t : State) : Prop where
  only : cnOnly c (objRegs c n ++ [cnBase c + 3, cnBase c + 2, cnBase c + 0x12]) s t
  result : fld (regGet t (cnObj c n + 3)) 17 14 = 1
  count : regGet t (cnBase c + 0x12) = regGet s (cnBase c + 0x12) + 1
  can : t.can[c] = { s.can[c] with tec := t.can[c].tec, ackRun := t.can[c].ackRun, late := t.can[c].late, tried := t.can[c].tried, acks := t.can[c].acks, sent := t.can[c].sent }

theorem sentEnded_spec (c : Fin 2) {n : Nat} (hn : n < 128) (w0 : Word) {ots : List Word} (ho : ots.length = 4) (s : State) :
    cnFrameSent c n s (sentEnded c n w0 ots s) ∧ (sentEnded c n w0 ots s).can[c].tec = s.can[c].tec := by
  have word1 : cnOnly c (objRegs c n) s (putWord (cnObj c n) w0 s) := cnOnly_putWord w0 (mem_objRegs_obj (i := 0) (by decide)) s
  have can1 : (putWord (cnObj c n) w0 s).can = s.can := putWord_can ..
  unfold sentEnded
  generalize putWord (cnObj c n) w0 s = s1 at word1 can1 ⊢
  obtain ⟨words2, can2⟩ := cnOnly_putWords (c := c) (n := n) (i := 4) ots (by omega) s1
  generalize putWords (cnObj c n + 4) ots s1 = s2 at words2 can2 ⊢
  have ended := cnObjEnd_spec c hn (code := 1) (by decide) s2
  generalize cnObjEnd c n 1 s2 = s3 at ended ⊢
  have put : cnOnly c [cnBase c + 2] s3 (putBit (cnBase c + 2) 15 false s3) := cnOnly_putBit _ _ (mem_cnBase c 2 (by simp)) s3
  have can4 : (putBit (cnBase c + 2) 15 false s3).can = s3.can := putBit_can ..
  generalize putBit (cnBase c + 2) 15 false s3 = s4 at put can4 ⊢
  have cnt := count_regGet_same (cnBase c + 0x12) s4
  have counted : cnOnly c [cnBase c + 0x12] s4 (count (cnBase c + 0x12) s4) := cnOnly_count (mem_cnBase c 0x12 (by simp)) s4
  have can5 : (count (cnBase c + 0x12) s4).can = s4.can := count_can ..
  generalize count (cnBase c + 0x12) s4 = s5 at cnt counted can5 ⊢
  have can : s5.can[c] = { s.can[c] with late := s5.can[c].late, tried := s5.can[c].tried, acks := s5.can[c].acks } := by
    rw [can5, can4, ended.can, can2, can1]
  have obj3 : cnObj c n + 3 = cnBase c + (0x800 + 40 * n + 3) := by rw [cnObj_eq]; omega
  have endOnly : cnOnly c (objRegs c n ++ [cnBase c + 3, cnBase c + 2, cnBase c + 0x12]) s2 s3 := by
    refine cnOnly_mono ended.only fun a ha => ?_
    simp only [List.mem_cons, List.not_mem_nil, or_false] at ha
    rcases ha with rfl | rfl
    · exact List.mem_append_left _ (by rw [obj3]; exact mem_objRegs.mpr ⟨by omega, by omega⟩)
    · exact List.mem_append_right _ (by simp)
  have inObj : ∀ a ∈ objRegs c n, a ∈ objRegs c n ++ [cnBase c + 3, cnBase c + 2, cnBase c + 0x12] := fun a ha => List.mem_append_left _ ha
  refine ⟨⟨?_, ?_, ?_, ?_⟩, (congrArg Can.tec can :)⟩
  · exact cnOnly_trans (cnOnly_mono word1 inObj) (cnOnly_trans (cnOnly_mono words2 inObj) (cnOnly_trans endOnly
      (cnOnly_trans (cnOnly_mono put (by simp)) (cnOnly_mono counted (by simp)))))
  · have r := ended.result
    rw [obj3] at r ⊢
    rw [counted.regGet (by omega) (by simp; omega), put.regGet (by omega) (by simp)]; exact r
  · have apart : cnBase c + 0x12 ∉ [cnObj c n + 3, cnBase c + 3] := by rw [obj3]; simp; omega
    rw [cnt, put.regGet (by omega) (by simp), ended.only.regGet (by omega) apart, words2.regGet (by omega) (fun h => by have := mem_objRegs.mp h; omega),
      word1.regGet (by omega) (fun h => by have := mem_objRegs.mp h; omega)]
  · rw [can]

theorem cnSent_spec (c : Fin 2) {n : Nat} (hn : n < 128) (sof : Nat) (s : State) (late : s.can[c].late.contains n = false) (own : bitOf s (cnBase c + 1) 16 = false)
    (act : s.can[c].st = .active) (ht : s.can[c].tec < 128) (hr : s.can[c].recv < 128) :
    cnFrameSent c n s (cnSent c n sof s) ∧ (cnSent c n sof s).can[c].tec = s.can[c].tec - 1 ∧ (cnSent c n sof s).can[c].ackRun = 0 := by
  obtain ⟨w0, full, own_, e⟩ := cnSent_eq hn sof late
  obtain ⟨sent, tec⟩ := sentEnded_spec c hn w0 (ots := words64 (sysTimeAt s sof)) rfl s
  generalize sentEnded c n w0 (words64 (sysTimeAt s sof)) s = m at e sent tec
  have set : cnOnly c [] m (sentCounted c full m) := cnOnly_setCan _ m
  have can := setCan_can_same c { m.can[c] with tec := m.can[c].tec - 1, ackRun := 0, sent := full :: m.can[c].sent } m
  have can' : (sentCounted c full m).can[c] = { m.can[c] with tec := m.can[c].tec - 1, ackRun := 0, sent := full :: m.can[c].sent } := can
  generalize sentCounted c full m = u at e set can'
  have listed : cnBase c + 1 ∉ objRegs c n ++ [cnBase c + 3, cnBase c + 2, cnBase c + 0x12] := by
    rw [List.mem_append, not_or]
    exact ⟨fun h => by have := mem_objRegs.mp h; omega, by simp⟩
  have quiet : bitOf u (cnBase c + 1) 16 = false := by
    rw [set.bitOf (by decide) (by simp), sent.only.bitOf (by decide) listed]; exact own
  have tec' : u.can[c].tec = s.can[c].tec - 1 := by rw [can']; show m.can[c].tec - 1 = _; rw [tec]
  rw [e, quiet]
  show cnFrameSent c n s (cnErrState c u) ∧ (cnErrState c u).can[c].tec = _ ∧ (cnErrState c u).can[c].ackRun = _
  rw [cnErrState_active (by rw [can', sent.can]; exact act) (by rw [tec']; omega) (by rw [can', sent.can]; exact hr)]
  refine ⟨⟨cnOnly_trans sent.only (cnOnly_mono set (by simp)), ?_, ?_, ?_⟩, tec', by rw [can']⟩
  · have obj3 : cnObj c n + 3 = cnBase c + (0x800 + 40 * n + 3) := by rw [cnObj_eq]; omega
    have r := sent.result
    rw [obj3] at r ⊢
    rw [set.regGet (by omega) (by simp)]; exact r
  · rw [set.regGet (by omega) (by simp)]; exact sent.count
  · rw [can', sent.can]

theorem frameEnd_sent (s : State) (c : Fin 2) (b : OnBus) (o : Fin 128) (td : Option (Fin 128)) (t : Nat) (bus : s.can[c].bus = some b) (mine : b.own = some o.val)
    (pend : s.can[c].initPend = false) (late : s.can[c].late.contains o.val = false) (own : bitOf s (cnBase c + 1) 16 = false)
    (act : s.can[c].st = .active) (ht : s.can[c].tec < 128) (hr : s.can[c].recv < 128) :
    ∃ u, exec (.frameEnd c .sent td t) s = .next u ∧ fld (regGet u (cnObj c o + 3)) 17 14 = 1 ∧ u.can[c].tec = s.can[c].tec - 1 ∧
      u.can[c].st = .active ∧ u.can[c].bus = none ∧ u.can[c].ackRun = 0 ∧ u.can[c].queue = s.can[c].queue ∧
      regGet u (cnBase c + 0x12) = regGet s (cnBase c + 0x12) + 1 ∧
      (∀ d : Fin 2, d ≠ c → u.can[d] = s.can[d]) ∧ sameBut [.now, .regs, .held, .can, .pg, .bv, .pc] s u := by
  have e : cnFrameEnd c .sent td (advance t s) = cnBusFree c (cnSent c o.val b.sof (cnLoopDelay c o.val td (advance t s))) := by
    unfold cnFrameEnd
    rw [show (advance t s).can[c].bus = some b from bus]
    simp only [mine]
  obtain ⟨loop, loopCan⟩ := cnLoopDelay_spec c o.val td (advance t s)
  generalize cnLoopDelay c o.val td (advance t s) = m at e loop loopCan
  have can0 : m.can[c] = s.can[c] := by rw [loopCan]; rfl
  obtain ⟨sent, tec, run⟩ := cnSent_spec c o.isLt b.sof m (by rw [can0]; exact late)
    (by rw [loop.bitOf (by decide) (by simp)]; exact own) (by rw [can0]; exact act) (by rw [can0]; exact ht) (by rw [can0]; exact hr)
  generalize cnSent c o.val b.sof m = v at e sent tec run
  obtain ⟨free, regs, can, still⟩ := cnBusFree_spec c v
  obtain ⟨others, parts⟩ := afterAdvance (as := objRegs c o.val ++ [cnBase c + 3, cnBase c + 2, cnBase c + 0x12, cnBase c + 10])
    (cnOnly_trans (cnOnly_mono loop (by simp)) (cnOnly_trans (cnOnly_mono sent.only fun a ha => by
      rcases List.mem_append.mp ha with h | h
      · exact List.mem_append_left _ h
      · exact List.mem_append_right _ (by simp only [List.mem_cons, List.not_mem_nil, or_false] at h ⊢; omega)) (cnOnly_mono free (by simp))))
  refine ⟨_, congrArg Host.Outcome.next e, ?_, ?_, ?_, by rw [can], ?_, ?_, ?_, others, parts⟩
  · rw [regGet_of_regs regs]; exact sent.result
  · rw [can]; show v.can[c].tec = _; rw [tec, can0]
  · rw [still (by rw [sent.can, can0]; exact pend), sent.can, can0]; exact act
  · rw [can]; exact run
  · rw [can]; show v.can[c].queue = _; rw [sent.can, can0]
  · rw [regGet_of_regs regs, sent.count, loop.regGet (by decide) (by simp), advance_regGet]

/-! ### A frame received -/

/-- What a copy into an object leaves in it (R411): NEW, and OVW over an unread frame. -/
def marked (c : Fin 2) (o : Nat) (s t : State) : Prop :=
  bit (regGet t (cnObj c o + 3)) 13 = true ∧ (bitOf s (cnObj c o + 3) 13 = true → bit (regGet t (cnObj c o + 3)) 12 = true)

/-- The words from the fourth on leave the control word of the object alone. -/
theorem control_putWords (c : Fin 2) (o i : Nat) (hi : 4 ≤ i) (ws : List Word) (s : State) :
    regGet (putWords (cnObj c o + i) ws s) (cnObj c o + 3) = regGet s (cnObj c o + 3) :=
  touches.regGet (putWords_spec ws (fun j => by rw [Nat.add_assoc]; exact canonAddr_cnObj c o (i + j)) s).1 (by rw [canonAddr_cnObj]; omega)

theorem cnCopy_spec {o : Nat} (ho : o < 128) (f : RxFrame) (sof : Nat) (s : State) :
    cnOnly c (objRegs c o) s (cnCopy c f sof o s) ∧ (cnCopy c f sof o s).can = s.can ∧ marked c o s (cnCopy c f sof o s) := by
  have obj3 : cnObj c o + 3 = cnBase c + (0x800 + 40 * o + 3) := by rw [cnObj_eq]; omega
  unfold cnCopy
  extract_lets a s1 s2 s3
  have only1 : cnOnly c [cnBase c + (0x800 + 40 * o)] s s1 := cnOnly_putFld _ _ _ (by rw [show a = cnObj c o + 0 from rfl, canonAddr_cnObj, cnObj_eq]; simp) s
  have can1 : s1.can = s.can := putFld_can ..
  have old : bitOf s1 (a + 3) 13 = bitOf s (a + 3) 13 := by
    rw [show a + 3 = _ from obj3]; exact only1.bitOf (by omega) (by simp) 13
  have only1' : cnOnly c (objRegs c o) s s1 := cnOnly_mono only1 fun x hx => by
    rw [List.mem_singleton] at hx; rw [hx]; exact mem_objRegs.mpr ⟨by omega, by omega⟩
  have only2 : cnOnly c (objRegs c o) s1 s2 := by
    show cnOnly _ _ _ (whenB _ _ _)
    unfold whenB
    split
    · exact cnOnly_putBit _ _ (mem_objRegs_obj (by decide)) s1
    · exact cnOnly_refl s1
  have can2 : s2.can = s1.can := by
    show (whenB _ _ _).can = _
    unfold whenB
    split
    · exact putBit_can ..
    · rfl
  have over12 : bitOf s (a + 3) 13 = true → bit (regGet s2 (a + 3)) 12 = true := fun h => by
    rw [← old] at h
    show bit (regGet (whenB (bitOf s1 (a + 3) 13) (putBit (a + 3) 12 true) s1) (a + 3)) 12 = true
    rw [h]; exact bit_putBit_same _ true s1 (by decide)
  have only3 : cnOnly c (objRegs c o) s2 s3 := cnOnly_putBit _ _ (mem_objRegs_obj (by decide)) s2
  have can3 : s3.can = s2.can := putBit_can ..
  have marked3 : marked c o s s3 :=
    ⟨bit_putBit_same _ true s2 (by decide), fun h => (bit_putBit_other _ true s2 (by decide) (by decide)).trans (over12 h)⟩
  clear_value s3
  obtain ⟨only4, can4⟩ := cnOnly_putWords (c := c) (n := o) (i := 4) (words64 sof) (by simp [words64]) s3
  have stays4 := control_putWords c o 4 (by decide) (words64 sof) s3
  generalize putWords (cnObj c o + 4) (words64 sof) s3 = s4 at only4 can4 stays4 ⊢
  obtain ⟨only5, can5⟩ := cnOnly_putWords (c := c) (n := o) (i := 8) (cnData (f.data.map (·.toNat))) (by simp [cnData]) s4
  have stays5 := control_putWords c o 8 (by decide) (cnData (f.data.map (·.toNat))) s4
  refine ⟨cnOnly_trans only1' (cnOnly_trans only2 (cnOnly_trans only3 (cnOnly_trans only4 only5))), by rw [can5, can4, can3, can2, can1], ?_⟩
  unfold marked at marked3 ⊢
  rw [stays5, stays4]; exact marked3

/-- The copies into the matching objects, one after another: no copy touches another object. -/
theorem cnCopies_spec (f : RxFrame) (sof : Nat) (os : List Nat) (hos : ∀ o ∈ os, o < 128) (apart : os.Nodup) (s : State) :
    cnOnly c (os.flatMap (objRegs c)) s (forEach os (fun o s => cnCopy c f sof o s) s) ∧ (forEach os (fun o s => cnCopy c f sof o s) s).can = s.can ∧
      ∀ o ∈ os, marked c o s (forEach os (fun o s => cnCopy c f sof o s) s) := by
  induction os generalizing s with
  | nil => exact ⟨cnOnly_refl s, rfl, fun o ho => absurd ho List.not_mem_nil⟩
  | cons o os ih =>
    obtain ⟨notIn, apart⟩ := List.nodup_cons.mp apart
    have ho := hos o (List.mem_cons_self ..)
    obtain ⟨only1, can1, mark1⟩ := cnCopy_spec (c := c) ho f sof s
    have step : forEach (o :: os) (fun o s => cnCopy c f sof o s) s = forEach os (fun o s => cnCopy c f sof o s) (cnCopy c f sof o s) := rfl
    rw [step]
    generalize cnCopy c f sof o s = s1 at only1 can1 mark1 ⊢
    obtain ⟨only2, can2, mark2⟩ := ih (fun p hp => hos p (List.mem_cons_of_mem _ hp)) apart s1
    generalize forEach os (fun o s => cnCopy c f sof o s) s1 = s2 at only2 can2 mark2 ⊢
    have obj3 : ∀ p, cnObj c p + 3 = cnBase c + (0x800 + 40 * p + 3) := fun p => by rw [cnObj_eq]; omega
    refine ⟨cnOnly_trans (cnOnly_mono only1 fun a ha => ?_) (cnOnly_mono only2 fun a ha => ?_), can2.trans can1, fun p hp => ?_⟩
    · rw [List.flatMap_cons]; exact List.mem_append_left _ ha
    · rw [List.flatMap_cons]; exact List.mem_append_right _ ha
    · rcases List.mem_cons.mp hp with rfl | hp
      · have stays : regGet s2 (cnObj c p + 3) = regGet s1 (cnObj c p + 3) := by
          rw [obj3]
          refine only2.regGet (by omega) fun h => ?_
          obtain ⟨q, hq, inq⟩ := List.mem_flatMap.mp h
          have := mem_objRegs.mp inq
          exact notIn ((show p = q by omega) ▸ hq)
        unfold marked at mark1 ⊢
        rw [stays]; exact mark1
      · have hp128 := hos p (List.mem_cons_of_mem _ hp)
        have stays : bitOf s1 (cnObj c p + 3) 13 = bitOf s (cnObj c p + 3) 13 := by
          rw [obj3]
          refine only1.bitOf (by omega) (fun h => ?_) 13
          have := mem_objRegs.mp h
          exact notIn ((show p = o by omega) ▸ hp)
        obtain ⟨new, over_⟩ := mark2 p hp
        exact ⟨new, fun h => over_ (stays.trans h)⟩

/-- A ring with room takes the frame and shows that one waits (R410). -/
theorem cnRing_spec (w : List Word) (s : State) (room : s.can[c].ring.length < 512) :
    cnOnly c [cnBase c + 0x10] s (cnRing c w s) ∧ (cnRing c w s).can[c] = { s.can[c] with ring := s.can[c].ring ++ [w], wval := true } ∧
      regGet (cnRing c w s) (cnBase c + 0x10) = regGet s (cnBase c + 0x10) + 1 := by
  have set : cnOnly c [] s (setCan c { s.can[c] with ring := s.can[c].ring ++ [w], wval := true } s) := cnOnly_setCan _ s
  have can1 := setCan_can_same c { s.can[c] with ring := s.can[c].ring ++ [w], wval := true } s
  have e : cnRing c w s = whenB (!s.can[c].wval) (raiseEvent (72 + c.val)) (count (cnBase c + 0x10) (setCan c { s.can[c] with ring := s.can[c].ring ++ [w], wval := true } s)) :=
    if_neg (by omega)
  rw [e]
  generalize setCan c { s.can[c] with ring := s.can[c].ring ++ [w], wval := true } s = s1 at set can1 ⊢
  have counted : cnOnly c [cnBase c + 0x10] s1 (count (cnBase c + 0x10) s1) := cnOnly_count (mem_cnBase c _ (by simp)) s1
  have can2 : (count (cnBase c + 0x10) s1).can = s1.can := count_can ..
  have cnt : regGet (count (cnBase c + 0x10) s1) (cnBase c + 0x10) = regGet s1 (cnBase c + 0x10) + 1 := count_regGet_same _ s1
  generalize count (cnBase c + 0x10) s1 = s2 at counted can2 cnt ⊢
  have event : onlyEvents s2 (whenB (!s.can[c].wval) (raiseEvent (72 + c.val)) s2) := by
    unfold whenB
    split
    · exact raiseEvent_onlyEvents (by omega) (onlyEvents_refl _)
    · exact onlyEvents_refl _
  generalize whenB (!s.can[c].wval) (raiseEvent (72 + c.val)) s2 = s3 at event ⊢
  have ev : cnOnly c [] s2 s3 := cnOnly_events event
  refine ⟨cnOnly_trans (cnOnly_mono set (by simp)) (cnOnly_trans counted (cnOnly_mono ev (by simp))), ?_, ?_⟩
  · rw [event.parts.can (by decide), can2, can1]
  · rw [ev.regGet (by decide) (by simp), cnt, set.regGet (by decide) (by simp)]

/-- The objects that take a frame. -/
def cnHits (s : State) (c : Fin 2) (f : RxFrame) : List Nat := (List.range 128).filter fun o => cnMatches s c f o

/-- The ring entry of a frame. -/
def rxWords (s : State) (c : Fin 2) (f : RxFrame) (t : Nat) : List Word :=
  [word (rxHead f + f.noack.toNat * 2 ^ 9 + (!(cnHits s c f).isEmpty).toNat * 2 ^ 8 + (cnHits s c f).headD 0), word f.base.toNat,
    word (if f.xtd then f.ext.toNat else 0), 0] ++ words64 (sysTimeAt s t) ++ cnData (f.data.map (·.toNat))

/-- A classic frame taken with its acknowledgement: copies, ring and, but for listen-only, the receive error count. -/
theorem cnReceive_eq (t : Nat) (on : cnOnBus s.can[c] = true) (acked : f.noack = false) (classic : f.fdf = false) :
    cnReceive c f t s = if cnLomf s c then cnRing c (rxWords s c f t) (forEach (cnHits s c f) (fun o m => cnCopy c f (sysTimeAt s t) o m) s)
      else cnErrState c (setCan c { (cnRing c (rxWords s c f t) (forEach (cnHits s c f) (fun o m => cnCopy c f (sysTimeAt s t) o m) s)).can[c] with recv := cnRecDown s.can[c].recv }
        (cnRing c (rxWords s c f t) (forEach (cnHits s c f) (fun o m => cnCopy c f (sysTimeAt s t) o m) s))) := by
  unfold cnReceive rxWords
  simp only [on, acked, classic, Bool.not_true, Bool.false_and, Bool.false_eq_true, if_false]
  rfl

theorem frameReceived_spec (s : State) (c : Fin 2) (f : RxFrame) (t : Nat) (on : cnOnBus s.can[c] = true) (acked : f.noack = false) (classic : f.fdf = false)
    (room : s.can[c].ring.length < 512) :
    ∃ u w, exec (.frameReceived c f t) s = .next u ∧ u.can[c].ring = s.can[c].ring ++ [w] ∧ w.getD 1 0 = word f.base.toNat ∧
      (w.drop 4).take 4 = words64 (sysTimeAt s t) ∧ u.can[c].wval = true ∧
      (∀ o : Fin 128, cnMatches s c f o = true → bit (regGet u (cnObj c o + 3)) 13 = true ∧
        (bitOf s (cnObj c o + 3) 13 = true → bit (regGet u (cnObj c o + 3)) 12 = true)) ∧
      u.can[c].recv = (if cnLomf s c then s.can[c].recv else cnRecDown s.can[c].recv) ∧ u.can[c].tec = s.can[c].tec ∧
      regGet u (cnBase c + 0x10) = regGet s (cnBase c + 0x10) + 1 ∧
      (∀ d : Fin 2, d ≠ c → u.can[d] = s.can[d]) ∧ sameBut [.regs, .held, .can, .pg, .bv, .pc] s u := by
  have e := cnReceive_eq (c := c) (s := s) t on acked classic
  have hw1 : (rxWords s c f t).getD 1 0 = word f.base.toNat := rfl
  have hw4 : ((rxWords s c f t).drop 4).take 4 = words64 (sysTimeAt s t) := rfl
  generalize rxWords s c f t = w at e hw1 hw4
  have below : ∀ o ∈ cnHits s c f, o < 128 := fun o ho => List.mem_range.mp (List.mem_filter.mp ho).1
  obtain ⟨copied, can1, marks⟩ := cnCopies_spec (c := c) f (sysTimeAt s t) (cnHits s c f) below (List.nodup_range.filter _) s
  generalize forEach (cnHits s c f) (fun o m => cnCopy c f (sysTimeAt s t) o m) s = s1 at e copied can1 marks
  have room1 : s1.can[c].ring.length < 512 := by rw [can1]; exact room
  obtain ⟨ringed, can2, cnt2⟩ := cnRing_spec (c := c) w s1 room1
  generalize cnRing c w s1 = s2 at e ringed can2 cnt2
  rw [can1] at can2
  let as := (cnHits s c f).flatMap (objRegs c) ++ [cnBase c + 0x10]
  have object : ∀ i ∈ (cnHits s c f).flatMap (objRegs c), ∃ j, i = cnBase c + j ∧ 0x800 ≤ j := fun i hi => by
    obtain ⟨o, ho, hi⟩ := List.mem_flatMap.mp hi
    obtain ⟨j, -, rfl⟩ := List.mem_map.mp hi
    exact ⟨_, rfl, by omega⟩
  have fixed : ∀ j, j < 0x800 → cnBase c + j ∉ (cnHits s c f).flatMap (objRegs c) := fun j hj hi => by
    obtain ⟨k, hk, h⟩ := object _ hi
    omega
  have taken : cnOnly c as s s2 := cnOnly_trans (cnOnly_mono copied fun a ha => List.mem_append_left _ ha) (cnOnly_mono ringed fun a ha => List.mem_append_right _ ha)
  have counted : regGet s2 (cnBase c + 0x10) = regGet s (cnBase c + 0x10) + 1 := by
    rw [cnt2, copied.regGet (by decide) (fixed _ (by decide))]
  have marked2 : ∀ o ∈ cnHits s c f, marked c o s s2 := fun o ho => by
    have h := marks o ho
    have obj3 : cnObj c o + 3 = cnBase c + (0x800 + 40 * o + 3) := by rw [cnObj_eq]; omega
    have ho' := below o ho
    unfold marked at h ⊢
    rw [obj3] at h ⊢
    rw [ringed.regGet (by omega) (by simp; omega)]; exact h
  have isHit : ∀ o : Fin 128, cnMatches s c f o = true → o.val ∈ cnHits s c f := fun o ho =>
    List.mem_filter.mpr ⟨List.mem_range.mpr o.isLt, ho⟩
  by_cases lom : cnLomf s c = true
  · rw [if_pos lom] at e
    refine ⟨s2, w, congrArg Host.Outcome.next e, by rw [can2], hw1, hw4, by rw [can2], fun o ho => marked2 o (isHit o ho), ?_, by rw [can2], counted,
      taken.others, taken.parts⟩
    rw [if_pos lom, can2]
  · rw [if_neg lom] at e
    have set : cnOnly c [] s2 (setCan c { s2.can[c] with recv := cnRecDown s.can[c].recv } s2) := cnOnly_setCan _ s2
    have can3 := setCan_can_same c { s2.can[c] with recv := cnRecDown s.can[c].recv } s2
    generalize setCan c { s2.can[c] with recv := cnRecDown s.can[c].recv } s2 = s3 at e set can3
    obtain ⟨only4, mode⟩ := cnErrState_spec c s3
    generalize cnErrState c s3 = u at e only4 mode
    have rest : cnOnly c [cnBase c + 3] s2 u := cnOnly_trans (cnOnly_mono set (by simp)) only4
    have all : cnOnly c (as ++ [cnBase c + 3]) s u := cnOnly_trans (cnOnly_mono taken fun a ha => List.mem_append_left _ ha) (cnOnly_mono rest fun a ha => List.mem_append_right _ ha)
    unfold sameButMode at mode
    rw [can3, can2] at mode
    refine ⟨u, w, congrArg Host.Outcome.next e, (congrArg Can.ring mode :), hw1, hw4, (congrArg Can.wval mode :), fun o ho => ?_, ?_, (congrArg Can.tec mode :), ?_,
      all.others, all.parts⟩
    · have h := marked2 o (isHit o ho)
      have obj3 : cnObj c o + 3 = cnBase c + (0x800 + 40 * o + 3) := by rw [cnObj_eq]; omega
      unfold marked at h
      rw [obj3] at h ⊢
      rw [rest.regGet (by omega) (by simp)]; exact h
    · rw [if_neg lom]; exact (congrArg Can.recv mode :)
    · rw [rest.regGet (by decide) (by simp)]; exact counted

theorem integration_spec (s : State) (c : Fin 2) (hst : s.can[c].st = .integrating) :
    ∃ u, exec (.integrationComplete c) s = .next u ∧ u.can[c] = { s.can[c] with st := .active } ∧
      (∀ d : Fin 2, d ≠ c → u.can[d] = s.can[d]) ∧ sameBut [.can] s u :=
  ⟨_, congrArg Host.Outcome.next (if_pos hst), setCan_can_same .., fun _ hd => setCan_can_other hd _ s, sameBut_mono (by decide) (sameBut_setCan _ _ s)⟩

/-- Settles O18: the mode commands end in the state of the controller they set, and a frame in its counters, its object and its ring. -/
theorem canModesAndFrames : Obligations.CanModesAndFrames := by
  unfold Obligations.CanModesAndFrames
  refine ⟨fun s who c => ⟨initSet_spec s who c, initClear_spec s who c, integration_spec s c, recovery_spec s c⟩, startOfFrame_spec, frameEnd_sent, frameEnd_rxError,
    frameReceived_spec⟩

end Sys2Proof.Machine
end

