-- ==== Sys2Proof/Proofs/CoreWords.lean ====
section
/-! PROOFS. What a word of a control core changes: one core, the events it counts, and of that core what its operations write (11 R309-R321, 12 R341). -/

namespace Sys2Proof.Machine

variable {c : CoreId} {as bs : List Nat} {o s t : State}

/-! ### One core and its events -/

/-- Between s and t only core c, the registers of `as` and events change. -/
structure coreOnly (c : CoreId) (as : List Nat) (s t : State) : Prop where
  parts : sameBut [.regs, .held, .cores, .pg, .bv, .pc] s t
  regs : touches (orEvents as) s t
  others : ∀ k : CoreId, k ≠ c → t.cores[k] = s.cores[k]
  pg : t.pg = { s.pg with evPend := t.pg.evPend }

theorem coreOnly_refl (s : State) : coreOnly c as s s := ⟨sameBut_refl _ s, touches_refl _ s, fun _ _ => rfl, rfl⟩

theorem coreOnly_trans (h : coreOnly c as o s) (k : coreOnly c as s t) : coreOnly c as o t :=
  ⟨sameBut_trans h.parts k.parts, touches_trans h.regs k.regs, fun d hd => (k.others d hd).trans (h.others d hd), by rw [k.pg, h.pg]⟩

theorem coreOnly_mono (h : coreOnly c as s t) (sub : ∀ a ∈ as, a ∈ bs) : coreOnly c bs s t := ⟨h.parts, touches_mono h.regs (orEvents_mono sub), h.others, h.pg⟩

theorem setCore_same (c : CoreId) (x : Core) (s : State) : (setCore c x s).cores[c] = x := (cores_setCore c c x s).trans (if_pos rfl)

theorem setCore_other {k : CoreId} (hk : k ≠ c) (x : Core) (s : State) : (setCore c x s).cores[k] = s.cores[k] := (cores_setCore c k x s).trans (if_neg hk)

theorem setCore_self (c : CoreId) (s : State) : setCore c s.cores[c] s = s := by
  show { s with cores := s.cores.set c.val s.cores[c.val] } = s
  rw [Vector.set_getElem_self]

theorem setCore_setCore (c : CoreId) (x y : Core) (s : State) : setCore c x (setCore c y s) = setCore c x s := by
  show { s with cores := (s.cores.set c.val y).set c.val x } = _
  rw [Vector.set_set]
  rfl

theorem setCore_parts (c : CoreId) (x : Core) (s : State) : sameBut [.cores] s (setCore c x s) := (setCore_keeps c x (by decide) (keeps_refl _ s)).parts

theorem coreOnly_setCore (x : Core) (s : State) : coreOnly c as s (setCore c x s) :=
  ⟨sameBut_mono (by decide) (setCore_parts c x s), touches_same (touches_refl _ s) rfl rfl, fun _ hk => setCore_other hk x s, rfl⟩

theorem coreOnly_events (h : onlyEvents s t) : coreOnly c as s t :=
  ⟨sameBut_mono (by decide) h.parts, touches_events (touches_refl _ s) h, fun d _ => by rw [h.parts.cores (by decide)], h.pg⟩

theorem coreOnly.mem (h : coreOnly c as s t) : t.mem = s.mem := h.parts.mem (by decide)

theorem countWord_onlyEvents (c : CoreId) (k : Core) (ops : Nat) (evs : List (Nat × Nat × Nat)) (s : State) : onlyEvents s (countWord c k ops evs s) :=
  pcCore_onlyEvents c.isLt _ (pcRecord_onlyEvents c.isLt _ _ _ _ (onlyEvents_refl s))

theorem eccCorrected_spec (c : CoreId) (s : State) : coreOnly c [0xF34042] s (eccCorrected s) ∧ (eccCorrected s).cores = s.cores := by
  have counted : coreOnly c [0xF34042] s (count 0xF34042 s) :=
    ⟨sameBut_mono (by decide) (count_keeps (L := [.regs, .held]) 0xF34042 (by decide) (keeps_refl _ s)).parts, touches_count (.inl (by decide)) (touches_refl _ s),
      fun k _ => by rw [count_cores], by rw [count_pg]⟩
  have cores1 : (count 0xF34042 s).cores = s.cores := count_cores ..
  unfold eccCorrected
  generalize count 0xF34042 s = s1 at counted cores1 ⊢
  have event : onlyEvents s1 (pcSys 0x5F 1 (raiseEvent 100 s1)) := pcSys_onlyEvents _ _ (raiseEvent_onlyEvents (by omega) (onlyEvents_refl s1))
  exact ⟨coreOnly_trans counted (coreOnly_events event), (event.parts.cores (by decide)).trans cores1⟩

/-! ### Past a word -/

/-- The core at the next address, before its delay slots are looked at. -/
def passedCore (p : BitVec 17) (view : List LoopOld) (k : Core) : Core :=
  let e := repeatEnd p view k
  { e.1 with pc := e.2.1.getD (p + 1), atLoopEdge := e.2.2 }

/-- One delay slot fewer. -/
def slotPassed (k : Core) : Core := { k with slots := k.slots - 1, annul := k.annul - 1 }

theorem advanceCore_eq (c : CoreId) (p : BitVec 17) (view : List LoopOld) (s : State) : advanceCore c p view s =
    (let k := passedCore p view s.cores[c]
     if k.slots = 0 then setCore c k s else if k.slots - 1 = 0 then slotsEnd c (setCore c (slotPassed k) s) else setCore c (slotPassed k) s) := rfl

/-- What a word leaves of its core but for the repeat levels and the next address. -/
structure passesWord (p : BitVec 17) (k k' : Core) : Prop where
  rest : k' = { k with r := { k.r with lpc := k'.r.lpc, st := k'.r.st }, pc := k'.pc, atLoopEdge := k'.atLoopEdge }
  st : ∀ n, n ≠ 3 → n ≠ 4 → bit k'.r.st n = bit k.r.st n
  next : stDepth k.r.st = 0 → k'.pc = p + 1 ∧ k'.r = k.r

theorem passedCore_passesWord (p : BitVec 17) (view : List LoopOld) (k : Core) : passesWord p k (passedCore p view k) := by
  by_cases depth : stDepth k.r.st = 0
  · have e : repeatEnd p view k = (k, none, false) := if_pos depth
    have e' : passedCore p view k = { k with pc := p + 1, atLoopEdge := false } := by unfold passedCore; rw [e]; rfl
    rw [e']
    exact ⟨rfl, fun _ _ _ => rfl, fun _ => ⟨rfl, rfl⟩⟩
  · unfold passedCore repeatEnd
    simp only [if_neg depth]
    split
    · exact ⟨rfl, fun _ _ _ => rfl, fun h => absurd h depth⟩
    · split
      · refine ⟨rfl, fun n h3 h4 => ?_, fun h => absurd h depth⟩
        exact bit_setFld_other _ _ (by decide) (by decide) (by omega)
      · split
        · exact ⟨rfl, fun _ _ _ => rfl, fun h => absurd h depth⟩
        · exact ⟨rfl, fun _ _ _ => rfl, fun h => absurd h depth⟩

/-- The core past a word that leaves no frame to restore. -/
def advancedCore (p : BitVec 17) (view : List LoopOld) (k : Core) : Core :=
  let k2 := passedCore p view k
  if k2.slots = 0 then k2
  else if k2.slots - 1 = 0 then
    match k2.after with
    | .jump t => { slotPassed k2 with pc := t, after := .none }
    | _ => slotPassed k2
  else slotPassed k2

/-- The core goes on after its delay slots, if it is in any, and has no frame to restore. -/
def plainAfter (k : Core) : Prop := k.after = .none ∨ ∃ t, k.after = .jump t

theorem advanceCore_plain (p : BitVec 17) (view : List LoopOld) (h : plainAfter s.cores[c]) :
    advanceCore c p view s = setCore c (advancedCore p view s.cores[c]) s := by
  have same : (passedCore p view s.cores[c]).after = s.cores[c].after := by rw [(passedCore_passesWord p view s.cores[c]).rest]
  rw [advanceCore_eq]
  unfold advancedCore
  generalize passedCore p view s.cores[c] = k at same
  simp only
  split
  · rfl
  · split
    · unfold slotsEnd
      rw [setCore_same]
      have after : (slotPassed k).after = s.cores[c].after := same
      simp only [after, same]
      rcases h with h | ⟨t, h⟩
      · rw [h]
      · rw [h]; exact setCore_setCore ..
    · rfl

/-- What the advance leaves of a core but for the repeat levels, the delay slots and the next address. -/
structure advancesWord (p : BitVec 17) (k k' : Core) : Prop where
  rest : k' = { k with r := { k.r with lpc := k'.r.lpc, st := k'.r.st }, pc := k'.pc, atLoopEdge := k'.atLoopEdge, slots := k'.slots, annul := k'.annul, after := k'.after }
  st : ∀ n, n ≠ 3 → n ≠ 4 → bit k'.r.st n = bit k.r.st n
  next : k.slots = 0 → stDepth k.r.st = 0 → k'.pc = p + 1
  slots : k'.slots = k.slots - 1
  annul : k.annul = 0 → k'.annul = 0
  straight : k.slots = 0 → k'.after = k.after

theorem advancedCore_advancesWord (p : BitVec 17) (view : List LoopOld) (k : Core) : advancesWord p k (advancedCore p view k) := by
  obtain ⟨rest, st, next⟩ := passedCore_passesWord p view k
  unfold advancedCore
  generalize passedCore p view k = k2 at rest st next
  have slots : k2.slots = k.slots := by rw [rest]
  have annul : k2.annul = k.annul := by rw [rest]
  have after : k2.after = k.after := by rw [rest]
  simp only
  split
  case isTrue h => exact ⟨by rw [slots, annul, after]; exact rest, st, fun _ d => (next d).1, by omega, fun h => annul.trans h, fun _ => after⟩
  case isFalse h =>
    have h0 : k.slots ≠ 0 := fun e => h (slots.trans e)
    have one : ∀ k3, k3 = { slotPassed k2 with pc := k3.pc, after := k3.after } → advancesWord p k k3 := fun k3 e =>
      ⟨by rw [e]; show Core.mk .. = _; rw [rest]; rfl, by rw [e]; exact st, fun h => absurd h h0, by rw [e]; exact congrArg (· - 1) slots,
        fun h => by rw [e]; show k2.annul - 1 = 0; omega, fun h => absurd h h0⟩
    split
    · split
      · exact one _ rfl
      · exact one _ rfl
    · exact one _ rfl

/-- What a word leaves of its core, from the effect of its operations to the next word: the rest is the repeat levels, hazards and the next address. -/
structure finishesWord (p : BitVec 17) (lds : List Load) (k k' : Core) : Prop where
  rest : k' = { k with
    r := { k.r with lpc := k'.r.lpc, st := k'.r.st }, pc := k'.pc, atLoopEdge := k'.atLoopEdge, slots := k'.slots, annul := k'.annul, after := k'.after,
    ldSlot := lds, inFlight := [], avMid := k'.avMid, avNew := k'.avNew, agOld := k'.agOld, loopOld := k'.loopOld }
  st : ∀ n, n ≠ 3 → n ≠ 4 → n ≠ 14 → n ≠ 15 → bit k'.r.st n = bit k.r.st n
  next : k.slots = 0 → stDepth k.r.st = 0 → k'.pc = p + 1
  slots : k'.slots = k.slots - 1
  annul : k.annul = 0 → k'.annul = 0
  straight : k.slots = 0 → k'.after = k.after

/-- The status word as it retires: only AV0 and AV1 change. -/
def retiredSt (k : Core) : Word := setBit (setBit k.r.st 15 (k.avMid.toNat / 2 == 1)) 14 (k.avMid.toNat % 2 == 1)

theorem retiredSt_bit (k : Core) {n : Nat} (h14 : n ≠ 14) (h15 : n ≠ 15) : bit (retiredSt k) n = bit k.r.st n := by
  unfold retiredSt
  rw [bit_setBit_other _ _ (by decide) h14, bit_setBit_other _ _ (by decide) h15]

theorem stDepth_retiredSt (k : Core) : stDepth (retiredSt k) = stDepth k.r.st := by
  unfold retiredSt stDepth
  rw [fld_setBit_other _ _ (by decide) (by decide), fld_setBit_other _ _ (by decide) (by decide)]

theorem retireWord_eq (old : CoreRegs) (ms : List (Nat × Nat × Bool)) (lds : List Load) {k : Core} (hl : k.ldSlot = []) (hf : k.inFlight = []) :
    retireWord old ms lds k = { k with
      r := setSt (retiredSt k) k.r, ldSlot := lds, inFlight := [], avMid := (retireWord old ms lds k).avMid, avNew := (retireWord old ms lds k).avNew,
      agOld := (retireWord old ms lds k).agOld, loopOld := (retireWord old ms lds k).loopOld } := by
  unfold retireWord retiredSt
  rw [hl, hf]
  rfl

theorem advancedCore_finishesWord (p : BitVec 17) (view : List LoopOld) (old : CoreRegs) (ms : List (Nat × Nat × Bool)) (lds : List Load) {k : Core}
    (hl : k.ldSlot = []) (hf : k.inFlight = []) : finishesWord p lds k (advancedCore p view (retireWord old ms lds k)) := by
  have e := retireWord_eq old ms lds hl hf
  generalize retireWord old ms lds k = k1 at e
  obtain ⟨rest, st, next, slots, annul, straight⟩ := advancedCore_advancesWord p view k1
  generalize advancedCore p view k1 = k2 at rest st next slots annul straight
  have st1 : k1.r.st = retiredSt k := by rw [e]; rfl
  have slots1 : k1.slots = k.slots := by rw [e]
  have annul1 : k1.annul = k.annul := by rw [e]
  have after1 : k1.after = k.after := by rw [e]
  refine ⟨?_, fun n h3 h4 h14 h15 => ?_, fun h d => next (slots1.trans h) ?_, slots1 ▸ slots, fun h => annul (annul1.trans h), fun h => (straight (slots1.trans h)).trans after1⟩
  · rw [rest, e]; rfl
  · rw [st n h3 h4, st1, retiredSt_bit k h14 h15]
  · rw [st1, stDepth_retiredSt]; exact d

/-! ### Words of one operation and of two -/

theorem guardWord_of_ready (f : State → State) (takes : takesWords s.cores[c] = true) (annul : s.cores[c].annul = 0) (hf : s.cores[c].inFlight = []) :
    guardWord c f s = f s := by
  have landed : landFlights s.cores[c] = s.cores[c] := by
    show { s.cores[c] with r := s.cores[c].inFlight.foldl landLoad s.cores[c].r, inFlight := [] } = s.cores[c]
    rw [hf, List.foldl_nil, ← hf]
  unfold guardWord
  simp only [landed, setCore_self, takes, annul, Bool.not_true, Bool.false_eq_true, if_false, Nat.lt_irrefl]

/-- A word retires and its core goes on: the events it counts and its core. -/
theorem retire_spec (c : CoreId) (p : BitVec 17) (view : List LoopOld) (k : Core) (ops : Nat) (evs : List (Nat × Nat × Nat)) (old : CoreRegs)
    (ms : List (Nat × Nat × Bool)) (lds : List Load) {k1 : Core} (plain : plainAfter k1) (s : State) :
    coreOnly c [] s (advanceCore c p view (countWord c k ops evs (setCore c (retireWord old ms lds k1) s))) ∧
      (advanceCore c p view (countWord c k ops evs (setCore c (retireWord old ms lds k1) s))).cores[c] = advancedCore p view (retireWord old ms lds k1) := by
  have plain1 : plainAfter (retireWord old ms lds k1) := plain
  generalize retireWord old ms lds k1 = k2 at plain1 ⊢
  have set : coreOnly c [] s (setCore c k2 s) := coreOnly_setCore k2 s
  have core1 : (setCore c k2 s).cores[c] = k2 := setCore_same ..
  generalize setCore c k2 s = s1 at set core1 ⊢
  have event := countWord_onlyEvents c k ops evs s1
  generalize countWord c k ops evs s1 = s2 at event ⊢
  have core2 : s2.cores[c] = k2 := by rw [event.parts.cores (by decide)]; exact core1
  rw [advanceCore_plain _ _ (by rw [core2]; exact plain1)]
  exact ⟨coreOnly_trans set (coreOnly_trans (coreOnly_events event) (coreOnly_setCore _ s2)), by rw [setCore_same, core2]⟩

/-- A word of one operation. -/
theorem plainStep_spec (c : CoreId) (ops : Nat) (evs : List (Nat × Nat × Nat)) (f : Core → Core) (s : State) (plain : plainAfter (f s.cores[c])) :
    coreOnly c [] s (plainStep c ops evs f s) ∧
      (plainStep c ops evs f s).cores[c] = advancedCore s.cores[c].pc s.cores[c].loopOld (retireWord s.cores[c].r [] [] (f s.cores[c])) :=
  retire_spec c _ _ _ ops evs _ [] [] plain s

theorem doWord_eq (a : ASlot) {m : MSlot} {lds : List Load} {s1 : State} (sound : mEcc m ≠ .uncorrectable)
    (access : mAccess c s.cores[c].r s.cores[c].agOld m s = (lds, s1)) : ∃ ops evs,
      doWord c a m s = advanceCore c s.cores[c].pc s.cores[c].loopOld (whenB (mEcc m == .corrected) eccCorrected (countWord c s.cores[c] ops evs
        (setCore c (retireWord s.cores[c].r (mMoves s.cores[c].r m) lds { s1.cores[c] with r := wordRegs a m s.cores[c].r s.cores[c].agOld }) s1))) := by
  unfold doWord
  simp only [access, if_neg sound]
  exact ⟨_, _, rfl⟩

/-- A sound word of two operations, after its accesses: the events it counts and its core. -/
theorem doWord_spec (c : CoreId) (a : ASlot) (m : MSlot) (s : State) (sound : mEcc m ≠ .uncorrectable) (counts : mEcc m = .corrected → 0xF34042 ∈ as) (plain : plainAfter s.cores[c])
    (cores : (mAccess c s.cores[c].r s.cores[c].agOld m s).2.cores = s.cores) :
    coreOnly c as (mAccess c s.cores[c].r s.cores[c].agOld m s).2 (doWord c a m s) ∧
      (doWord c a m s).cores[c] = advancedCore s.cores[c].pc s.cores[c].loopOld (retireWord s.cores[c].r (mMoves s.cores[c].r m)
        (mAccess c s.cores[c].r s.cores[c].agOld m s).1 { s.cores[c] with r := wordRegs a m s.cores[c].r s.cores[c].agOld }) := by
  generalize access : mAccess c s.cores[c].r s.cores[c].agOld m s = x at cores
  obtain ⟨lds, s1⟩ := x
  obtain ⟨ops, evs, e⟩ := doWord_eq a sound access
  have cores1 : s1.cores = s.cores := cores
  rw [cores1] at e
  let k1 : Core := retireWord s.cores[c].r (mMoves s.cores[c].r m) lds { s.cores[c] with r := wordRegs a m s.cores[c].r s.cores[c].agOld }
  have plain1 : plainAfter k1 := plain
  have set : coreOnly c as s1 (setCore c k1 s1) := coreOnly_setCore _ s1
  have core2 : (setCore c k1 s1).cores[c] = k1 := setCore_same ..
  rw [e]
  generalize setCore c _ s1 = s2 at set core2 ⊢
  have event := countWord_onlyEvents c s.cores[c] ops evs s2
  generalize countWord c s.cores[c] ops evs s2 = s3 at event ⊢
  have core3 : s3.cores[c] = k1 := by rw [event.parts.cores (by decide)]; exact core2
  have ecc : coreOnly c as s3 (whenB (mEcc m == .corrected) eccCorrected s3) ∧ (whenB (mEcc m == .corrected) eccCorrected s3).cores = s3.cores := by
    unfold whenB
    split
    next corrected =>
      obtain ⟨only, cores⟩ := eccCorrected_spec c s3
      exact ⟨coreOnly_mono only (by simpa using counts (eq_of_beq corrected)), cores⟩
    · exact ⟨coreOnly_refl s3, rfl⟩
  generalize whenB (mEcc m == .corrected) eccCorrected s3 = s4 at ecc ⊢
  have core4 : s4.cores[c] = k1 := by rw [ecc.2]; exact core3
  rw [advanceCore_plain _ _ (by rw [core4]; exact plain1)]
  exact ⟨coreOnly_trans set (coreOnly_trans (coreOnly_events event) (coreOnly_trans ecc.1 (coreOnly_setCore _ s4))), by rw [setCore_same, core4]⟩

/-! ### Accesses in the banks -/

theorem loadWord_bank (c : CoreId) {a : Addr} (h : a.toNat < 0x20000) (s : State) : loadWord c a s = ((xyGet s c.val a.toNat, false), s) := if_pos h

theorem storeWord_bank (c : CoreId) {a : Addr} (v : Word) (h : a.toNat < 0x20000) (s : State) : storeWord c a v s = xySet c.val a.toNat v s := if_pos h

theorem storePair_bank (c : CoreId) {a : Addr} (hi lo : Word) (h : a.toNat < 0x20000) (s : State) :
    storePair c a hi lo s = xySet c.val (a.toNat + 1) lo (xySet c.val a.toNat hi s) := if_pos h

/-- An even address of the banks and the one after it. -/
theorem loadPair_bank (c : CoreId) {a : Addr} (h : a.toNat < 0x20000) (sound : addrFault a false true = none) (s : State) :
    loadPair c a s = (((xyGet s c.val a.toNat, xyGet s c.val (a.toNat + 1)), false), s) := by
  have even : a.toNat % 2 = 0 := by
    unfold addrFault at sound
    by_contra odd
    rw [if_pos (by simp; omega)] at sound
    cases sound
  have next : (a + 1).toNat = a.toNat + 1 := by bv_omega
  have next' : (a + 1).toNat < 0x20000 := by omega
  unfold loadPair
  rw [if_pos (by omega)]
  simp only [loadWord_bank c h, loadWord_bank c next', next]

theorem xySet_parts (c a : Nat) (w : Word) (s : State) : sameBut [.mem] s (xySet c a w s) := (xySet_keeps c a w (by decide) (keeps_refl _ s)).parts

/-- Accesses of the banks change memory alone, and only where they store. -/
theorem mAccess_bank {m : MSlot} (r : CoreRegs) (old : List (Nat × Addr))
    (bank : ∀ e ∈ mAccesses r old m, addrFault e.1 e.2.1 e.2.2 = none ∧ e.1.toNat < 0x20000) (s : State) :
    sameBut [.mem] s (mAccess c r old m s).2 ∧ (slotStores m = false → (mAccess c r old m s).2 = s) := by
  have same : ∀ t, t = s → sameBut [.mem] s t ∧ (slotStores m = false → t = s) := fun t e => by
    rw [e]; exact ⟨sameBut_refl _ s, fun _ => rfl⟩
  cases m with
  | nop | mov _ _ | movf _ _ _ | movi _ _ | moda _ _ => exact same _ rfl
  | ldxy dx dy a b ma mb e =>
    refine same _ ?_
    unfold mAccess
    simp only [loadWord_bank c (bank _ (List.mem_cons_self ..)).2, loadWord_bank c (bank _ (List.mem_cons_of_mem _ (List.mem_singleton_self _))).2]
  | ld t k mod w e =>
    refine same _ ?_
    obtain ⟨sound, low⟩ := bank _ (List.mem_singleton_self _)
    unfold mAccess
    cases w with
    | true => simp only [if_true, loadPair_bank c low sound]
    | false => simp only [Bool.false_eq_true, if_false, loadWord_bank c low]
  | st t k mod w =>
    refine ⟨?_, fun h => by cases h⟩
    obtain ⟨-, low⟩ := bank _ (List.mem_singleton_self _)
    unfold mAccess
    cases w with
    | true => simp only [if_true, storePair_bank c _ _ low]; exact sameBut_trans (xySet_parts _ _ _ _) (xySet_parts _ _ _ _)
    | false => simp only [Bool.false_eq_true, if_false, storeWord_bank c _ low]; exact xySet_parts _ _ _ _
  | stxy dx dy a b ma mb =>
    refine ⟨?_, fun h => by cases h⟩
    unfold mAccess
    simp only [storeWord_bank c _ (bank _ (List.mem_cons_self ..)).2, storeWord_bank c _ (bank _ (List.mem_cons_of_mem _ (List.mem_singleton_self _))).2]
    exact sameBut_trans (xySet_parts _ _ _ _) (xySet_parts _ _ _ _)

theorem firstFault_none {l : List (Addr × Bool × Bool)} (h : ∀ e ∈ l, addrFault e.1 e.2.1 e.2.2 = none) : firstFault l = none := by
  induction l with
  | nil => rfl
  | cons e es ih =>
    obtain ⟨a, w, p⟩ := e
    unfold firstFault
    rw [h _ (List.mem_cons_self ..)]
    exact ih fun e he => h e (List.mem_cons_of_mem _ he)

/-- The A-slot's writes are those the pairing is checked against, where the M-slot writes at all. -/
structure slotIs (ds : List DReg) (acs : List AcId) (fl : Bool) (m : MSlot) (a : ASlot) : Prop where
  d : mWrites m ≠ [] → a.dW = ds
  ac : ∀ k, a.acW = some k → k ∈ acs
  flags : a.flags = fl
  breach : a.breach = false

theorem wordBad_of_fits {ds : List DReg} {acs : List AcId} {fl : Bool} {a : ASlot} {m : MSlot} {k : Core} (is : slotIs ds acs fl m a) (fits : slotFits ds acs fl m k) :
    wordBad a m = false := by
  obtain ⟨hd, hac, hfl, hb⟩ := is
  have own := fits.own
  unfold wordBad at own ⊢
  simp only [Bool.or_eq_false_iff] at own ⊢
  obtain ⟨⟨⟨⟨-, -⟩, -⟩, -⟩, own⟩ := own
  refine ⟨⟨⟨⟨hb, ?_⟩, ?_⟩, ?_⟩, own⟩
  · rw [List.any_eq_false]
    intro x hx
    rw [hd (List.ne_nil_of_mem hx)]
    rw [List.any_eq_true]
    rintro ⟨d, hdd, e⟩
    exact fits.d d hdd (by rw [beq_iff_eq] at e; rw [e]; exact hx)
  · rw [hfl]
    cases fl with
    | false => rfl
    | true => simpa using fits.st rfl
  · split
    · rfl
    next k e =>
      rw [List.any_eq_false]
      intro x hx
      have apart := fits.ac k (hac k e) x hx
      simp only [Bool.and_eq_true, decide_eq_true_eq]
      omega

theorem runWord_fits {ds : List DReg} {acs : List AcId} {fl : Bool} {a : ASlot} {m : MSlot} (ready : coreReady s.cores[c]) (is : slotIs ds acs fl m a)
    (fits : slotFits ds acs fl m s.cores[c]) : runWord c a m s = doWord c a m s := by
  obtain ⟨takes, annul, -, hf, -⟩ := ready
  unfold runWord
  rw [guardWord_of_ready _ takes annul hf]
  simp only [wordBad_of_fits is fits, firstFault_none fun e he => (fits.access e he).1, Bool.false_eq_true, if_false]

/-! ### The registers of a word -/

section
variable {code v : Nat} {w : Bool} {r : CoreRegs}

theorem vector_set_other {α : Type} {n : Nat} (x : Vector α n) {i j : Fin n} (y : α) (h : i ≠ j) : (x.set i y)[j] = x[j] :=
  Vector.getElem_set_ne i.isLt j.isLt fun e => h (Fin.ext e)

theorem setD_d (d e : DReg) (x : Word) (r : CoreRegs) : (setD d x r).d[e] = if d = e then x else r.d[e] := by
  show (r.d.set d.val x)[e.val] = _
  rw [Vector.getElem_set]
  simp only [Fin.ext_iff]
  rfl

theorem setAc_ac (k j : AcId) (x : Acc) (r : CoreRegs) : (setAc k x r).ac[j] = if k = j then x else r.ac[j] := by
  show (r.ac.set k.val x)[j.val] = _
  rw [Vector.getElem_set]
  simp only [Fin.ext_iff]
  rfl

theorem setA_a (k j : Unit8) (x : Addr) (r : CoreRegs) : (setA k x r).a[j] = if k = j then x else r.a[j] := by
  show (r.a.set k.val x)[j.val] = _
  rw [Vector.getElem_set]
  simp only [Fin.ext_iff]
  rfl

/-- A write to a register code leaves every other code. -/
structure writesOnly (code : Nat) (r r' : CoreRegs) : Prop where
  d : ∀ e : DReg, e.val ≠ code → r'.d[e] = r.d[e]
  a : ∀ k : Unit8, 16 + k.val ≠ code → r'.a[k] = r.a[k]
  m : ∀ k : Unit8, 24 + k.val ≠ code → r'.m[k] = r.m[k]
  b : ∀ k : Unit8, 32 + k.val ≠ code → r'.b[k] = r.b[k]
  l : ∀ k : Unit8, 40 + k.val ≠ code → r'.l[k] = r.l[k]
  ac : ∀ k : AcId, code < 48 + 3 * k.val ∨ 51 + 3 * k.val ≤ code → r'.ac[k] = r.ac[k]
  st : code ≠ 63 → r'.st = r.st

theorem writesOnly_of_same {r' : CoreRegs} (hd : r'.d = r.d) (ha : r'.a = r.a) (hm : r'.m = r.m) (hb : r'.b = r.b) (hl : r'.l = r.l) (hac : r'.ac = r.ac)
    (hst : code ≠ 63 → r'.st = r.st) : writesOnly code r r' :=
  ⟨fun _ _ => by rw [hd], fun _ _ => by rw [ha], fun _ _ => by rw [hm], fun _ _ => by rw [hb], fun _ _ => by rw [hl], fun _ _ => by rw [hac], hst⟩

theorem setSt_writesOnly (x : Word) (h : code = 63) : writesOnly code r (setSt x r) :=
  writesOnly_of_same rfl rfl rfl rfl rfl rfl fun h63 => absurd h h63

theorem writeCode_writesOnly (v : Nat) (w : Bool) (r : CoreRegs) (h : code < 64) : writesOnly code r (writeCode code v w r) := by
  unfold writeCode
  extract_lets v20 v24
  clear_value v24 v20
  split
  next h16 =>
    refine ⟨fun e he => ?_, fun _ _ => rfl, fun _ _ => rfl, fun _ _ => rfl, fun _ _ => rfl, fun _ _ => rfl, fun _ => rfl⟩
    rw [setD_d, if_neg]
    intro e'
    rw [← e'] at he
    exact he (Nat.mod_eq_of_lt h16)
  split
  next h0 h1 =>
    refine ⟨fun _ _ => rfl, fun k hk => ?_, fun _ _ => rfl, fun _ _ => rfl, fun _ _ => rfl, fun _ _ => rfl, fun _ => rfl⟩
    rw [setA_a, if_neg]
    intro e'
    rw [← e'] at hk
    have : (Fin.ofNat 8 (code - 16)).val = code - 16 := Nat.mod_eq_of_lt (by omega)
    omega
  split
  next h0 h1 h2 =>
    refine ⟨fun _ _ => rfl, fun _ _ => rfl, fun k hk => ?_, fun _ _ => rfl, fun _ _ => rfl, fun _ _ => rfl, fun _ => rfl⟩
    have : (Fin.ofNat 8 (code - 24)).val = code - 24 := Nat.mod_eq_of_lt (by omega)
    exact vector_set_other _ _ (by rw [Ne, Fin.ext_iff]; omega)
  split
  next h0 h1 h2 h3 =>
    refine ⟨fun _ _ => rfl, fun _ _ => rfl, fun _ _ => rfl, fun k hk => ?_, fun _ _ => rfl, fun _ _ => rfl, fun _ => rfl⟩
    have : (Fin.ofNat 8 (code - 32)).val = code - 32 := Nat.mod_eq_of_lt (by omega)
    exact vector_set_other _ _ (by rw [Ne, Fin.ext_iff]; omega)
  split
  next h0 h1 h2 h3 h4 =>
    refine ⟨fun _ _ => rfl, fun _ _ => rfl, fun _ _ => rfl, fun _ _ => rfl, fun k hk => ?_, fun _ _ => rfl, fun _ => rfl⟩
    have : (Fin.ofNat 8 (code - 40)).val = code - 40 := Nat.mod_eq_of_lt (by omega)
    exact vector_set_other _ _ (by rw [Ne, Fin.ext_iff]; omega)
  split
  next h0 h1 h2 h3 h4 h5 =>
    refine ⟨fun _ _ => rfl, fun _ _ => rfl, fun _ _ => rfl, fun _ _ => rfl, fun _ _ => rfl, fun k hk => ?_, fun _ => rfl⟩
    have : (Fin.ofNat 2 ((code - 48) / 3)).val = (code - 48) / 3 := Nat.mod_eq_of_lt (by omega)
    exact vector_set_other _ _ (by rw [Ne, Fin.ext_iff]; omega)
  split
  · exact writesOnly_of_same rfl rfl rfl rfl rfl rfl fun _ => rfl
  split
  · exact writesOnly_of_same rfl rfl rfl rfl rfl rfl fun _ => rfl
  split
  · exact writesOnly_of_same rfl rfl rfl rfl rfl rfl fun _ => rfl
  next h0 h1 h2 h3 h4 h5 h6 h7 h8 =>
    exact setSt_writesOnly _ (Nat.le_antisymm (Nat.le_of_lt_succ h) (Nat.not_lt.mp h8))

end

/-- The moves of an M-slot operation: at most one, to a code that it writes. -/
theorem mMoves_cases (old : CoreRegs) (m : MSlot) : mMoves old m = [] ∨ ∃ code v w, mMoves old m = [(code, v, w)] ∧ code ∈ mWrites m ∧ code < 64 := by
  cases m with
  | nop | ldxy _ _ _ _ _ _ _ | ld _ _ _ _ _ | st _ _ _ _ | stxy _ _ _ _ _ _ | moda _ _ => exact .inl rfl
  | mov rd rs => exact .inr ⟨_, _, _, rfl, List.mem_singleton_self _, rd.isLt⟩
  | movf dd k sh => exact .inr ⟨_, _, _, rfl, List.mem_singleton_self _, by omega⟩
  | movi rd imm => exact .inr ⟨_, _, _, rfl, List.mem_singleton_self _, rd.isLt⟩

/-- Post-modifies write pointers, and CIRC_OUT. -/
structure modifiesOnly (l : List (Unit8 × Modify)) (r r' : CoreRegs) : Prop where
  rest : r' = { r with a := r'.a, st := r'.st }
  a : ∀ k : Unit8, (∀ e ∈ l, e.1 ≠ k ∨ e.2 = .keep) → r'.a[k] = r.a[k]
  st : ∀ n, n ≠ 12 → bit r'.st n = bit r.st n

theorem applyModifies_modifiesOnly (view : CoreRegs) (old : List (Nat × Addr)) (l : List (Unit8 × Modify)) (r : CoreRegs) :
    modifiesOnly l r (applyModifies view old l r) := by
  induction l generalizing r with
  | nil => exact ⟨rfl, fun _ _ => rfl, fun _ _ => rfl⟩
  | cons e es ih =>
    let r1 : CoreRegs := if e.2 = .keep then r else setA e.1 (agModify (agUnit view old e.1) e.2).1 r
    let r2 : CoreRegs := if (agModify (agUnit view old e.1) e.2).2 then setSt (setBit r1.st 12 true) r1 else r1
    have step : applyModifies view old (e :: es) r = applyModifies view old es r2 := rfl
    have one : ∃ a', r1 = { r with a := a' } ∧ ∀ k : Unit8, e.1 ≠ k ∨ e.2 = .keep → a'[k] = r.a[k] := by
      by_cases keep : e.2 = .keep
      · exact ⟨r.a, if_pos keep, fun _ _ => rfl⟩
      · exact ⟨_, if_neg keep, fun k hk => vector_set_other _ _ (hk.resolve_right keep)⟩
    have two : ∃ st', r2 = { r1 with st := st' } ∧ ∀ n, n ≠ 12 → bit st' n = bit r1.st n := by
      by_cases out : (agModify (agUnit view old e.1) e.2).2 = true
      · exact ⟨_, if_pos out, fun n hn => bit_setBit_other _ _ (by decide) hn⟩
      · exact ⟨r1.st, if_neg out, fun _ _ => rfl⟩
    obtain ⟨rest, a, st⟩ := ih r2
    rw [step]
    generalize applyModifies view old es r2 = r3 at rest a st
    clear_value r2 r1
    obtain ⟨a', rfl, a1⟩ := one
    obtain ⟨st', rfl, st2⟩ := two
    exact ⟨rest, fun k hk => (a k fun x hx => hk x (List.mem_cons_of_mem _ hx)).trans (a1 k (hk e (List.mem_cons_self ..))), fun n hn => (st n hn).trans (st2 n hn)⟩

/-- What an A-slot operation writes to the registers: those it lists, and the flags. -/
structure slotWrites (o : SlotOut) (r r' : CoreRegs) : Prop where
  rest : r' = { r with d := r'.d, ac := r'.ac, st := r'.st }
  d : ∀ e : DReg, (∀ x ∈ o.d, x.1 ≠ e) → r'.d[e] = r.d[e]
  ac : ∀ k : AcId, (∀ x, o.ac = some x → x.1 ≠ k) → r'.ac[k] = r.ac[k]
  set : ∀ x, o.ac = some x → r'.ac[x.1] = x.2
  st : r'.st = stFlags o.alu r.st

theorem foldl_setD (l : List (DReg × Word)) (r : CoreRegs) :
    (l.foldl (fun r e => setD e.1 e.2 r) r) = { r with d := (l.foldl (fun r e => setD e.1 e.2 r) r).d } ∧
      ∀ e : DReg, (∀ x ∈ l, x.1 ≠ e) → (l.foldl (fun r e => setD e.1 e.2 r) r).d[e] = r.d[e] := by
  induction l generalizing r with
  | nil => exact ⟨rfl, fun _ _ => rfl⟩
  | cons x xs ih =>
    obtain ⟨rest, d⟩ := ih (setD x.1 x.2 r)
    refine ⟨rest, fun e he => (d e fun y hy => he y (List.mem_cons_of_mem _ hy)).trans ?_⟩
    rw [setD_d, if_neg (he x (List.mem_cons_self ..))]

theorem apply_slotWrites (o : SlotOut) (r : CoreRegs) : slotWrites o r (o.apply r) := by
  obtain ⟨rest, d⟩ := foldl_setD o.d r
  unfold SlotOut.apply
  generalize List.foldl (fun r e => setD e.1 e.2 r) r o.d = r1 at rest d
  cases h : o.ac with
  | none => exact ⟨by rw [rest]; rfl, d, fun _ _ => by rw [rest]; rfl, fun x hx => (by cases h.symm.trans hx), by rw [rest]; rfl⟩
  | some x =>
    obtain ⟨k, a⟩ := x
    refine ⟨by rw [rest]; rfl, d, fun j hj => ?_, fun y hy => ?_, by rw [rest]; rfl⟩
    · show (setAc k a r1).ac[j] = _
      rw [setAc_ac, if_neg (hj (k, a) h), rest]
    · cases h.symm.trans hy
      show (setAc k a r1).ac[k] = _
      rw [setAc_ac, if_pos rfl]

theorem setSt_d (w : Word) (r : CoreRegs) : (setSt w r).d = r.d := rfl
theorem setAc_d (k : AcId) (a : Acc) (r : CoreRegs) : (setAc k a r).d = r.d := rfl

theorem apply_d (o : SlotOut) (r : CoreRegs) : (o.apply r).d = (o.d.foldl (fun r e => setD e.1 e.2 r) r).d := by
  unfold SlotOut.apply
  rw [setSt_d]
  cases o.ac with
  | none => rfl
  | some x => exact setAc_d x.1 x.2 _

/-- The bits of ST that a move may not write: DEPTH among them (R313). -/
theorem stMove_depth (old w : Word) {n : Nat} (hn : n = 3 ∨ n = 4) : bit (stMove old w) n = bit old n := by
  unfold stMove
  simp only
  rw [bit_setBit_other _ _ (by decide) (by omega), bit_setBit_other _ _ (by decide) (by omega), bit_setFld_other _ _ (by decide) (by decide) (by omega),
    bit_setFld_other _ _ (by decide) (by decide) (by omega), bit_setFld_other _ _ (by decide) (by decide) (by omega),
    bit_setFld_other _ _ (by decide) (by decide) (by omega)]

theorem putFlag_other {b n : Nat} (f : Option Bool) (st : Word) (hb : b < 20) (h : n ≠ b) : bit (putFlag b f st) n = bit st n := by
  unfold putFlag
  split
  · rfl
  · exact bit_setBit_other _ _ hb h

theorem putFlag_same {b : Nat} (f : Option Bool) (st : Word) (hb : b < 20) : bit (putFlag b f st) b = f.getD (bit st b) := by
  unfold putFlag
  split
  · rfl
  · exact bit_setBit_same _ _ hb

/-- The flags after an operation (R343, R344): those it writes, SV where V becomes 1, the rest as they were. -/
theorem stFlags_bits (o : AluOut) (st : Word) :
    flagsAre (stFlags o st) (o.n.getD (bit st 19)) (o.z.getD (bit st 18)) (o.v.getD (bit st 17)) (o.c.getD (bit st 16)) (o.v == some true || bit st 13) ∧
      ∀ n, n < 13 → bit (stFlags o st) n = bit st n := by
  have written : ∀ w, w = putFlag 16 o.c (putFlag 17 o.v (putFlag 18 o.z (putFlag 19 o.n st))) →
      bit w 19 = o.n.getD (bit st 19) ∧ bit w 18 = o.z.getD (bit st 18) ∧ bit w 17 = o.v.getD (bit st 17) ∧ bit w 16 = o.c.getD (bit st 16) ∧
        ∀ n, n < 16 → bit w n = bit st n := by
    rintro w rfl
    refine ⟨?_, ?_, ?_, ?_, fun n hn => ?_⟩
    · rw [putFlag_other _ _ (by decide) (by decide), putFlag_other _ _ (by decide) (by decide), putFlag_other _ _ (by decide) (by decide), putFlag_same _ _ (by decide)]
    · rw [putFlag_other _ _ (by decide) (by decide), putFlag_other _ _ (by decide) (by decide), putFlag_same _ _ (by decide), putFlag_other _ _ (by decide) (by decide)]
    · rw [putFlag_other _ _ (by decide) (by decide), putFlag_same _ _ (by decide), putFlag_other _ _ (by decide) (by decide), putFlag_other _ _ (by decide) (by decide)]
    · rw [putFlag_same _ _ (by decide), putFlag_other _ _ (by decide) (by decide), putFlag_other _ _ (by decide) (by decide), putFlag_other _ _ (by decide) (by decide)]
    · rw [putFlag_other _ _ (by decide) (by omega), putFlag_other _ _ (by decide) (by omega), putFlag_other _ _ (by decide) (by omega), putFlag_other _ _ (by decide) (by omega)]
  obtain ⟨n, z, v, c, rest⟩ := written _ rfl
  unfold stFlags
  generalize putFlag 16 o.c (putFlag 17 o.v (putFlag 18 o.z (putFlag 19 o.n st))) = w at n z v c rest ⊢
  simp only
  split
  next sets =>
    refine ⟨⟨?_, ?_, ?_, ?_, ?_⟩, fun i hi => ?_⟩
    · rw [bit_setBit_other _ _ (by decide) (by decide), n]
    · rw [bit_setBit_other _ _ (by decide) (by decide), z]
    · rw [bit_setBit_other _ _ (by decide) (by decide), v]
    · rw [bit_setBit_other _ _ (by decide) (by decide), c]
    · rw [bit_setBit_same _ _ (by decide), sets]; rfl
    · rw [bit_setBit_other _ _ (by decide) (by omega), rest i (by omega)]
  next sets =>
    refine ⟨⟨n, z, v, c, ?_⟩, fun i hi => rest i (by omega)⟩
    rw [rest 13 (by decide), eq_false_of_ne_true sets, Bool.false_or]

theorem stDepth_of_bits {w w' : Word} (h3 : bit w 3 = bit w' 3) (h4 : bit w 4 = bit w' 4) : stDepth w = stDepth w' := by
  rw [bit_eq_testBit, bit_eq_testBit] at h3 h4
  refine fld_eq_iff w w' 4 3 4 3 rfl fun i hi => ?_
  match i, hi with
  | 0, _ => exact h3
  | 1, _ => exact h4

/-- What a word's registers become, code by code: the A-slot's results but for codes that the M-slot writes and pointers that it modifies. -/
structure wordResult (o : SlotOut) (m : MSlot) (r r' : CoreRegs) : Prop where
  d : ∀ e : DReg, e.val ∉ mWrites m → r'.d[e] = (o.apply r).d[e]
  ac : ∀ k : AcId, (∀ x ∈ mWrites m, x < 48 + 3 * k.val ∨ 51 + 3 * k.val ≤ x) → r'.ac[k] = (o.apply r).ac[k]
  a : ∀ k : Unit8, (∀ e ∈ mModifies m, e.1 ≠ k ∨ e.2 = .keep) → 16 + k.val ∉ mWrites m → r'.a[k] = r.a[k]
  b : ∀ k : Unit8, 32 + k.val ∉ mWrites m → r'.b[k] = r.b[k]
  l : ∀ k : Unit8, 40 + k.val ∉ mWrites m → r'.l[k] = r.l[k]
  st : 63 ∉ mWrites m → ∀ n, n ≠ 12 → bit r'.st n = bit (stFlags o.alu r.st) n
  depth : stDepth r'.st = stDepth r.st
  m : ∀ k : Unit8, 24 + k.val ∉ mWrites m → r'.m[k] = r.m[k]

theorem wordRegs_result (a : ASlot) (m : MSlot) (r : CoreRegs) (ag : List (Nat × Addr)) : wordResult (a.f r) m r (wordRegs a m r ag) := by
  have mods := applyModifies_modifiesOnly r ag (mModifies m) ((mMoves r m).foldl (fun r e => writeCode e.1 e.2.1 e.2.2 r) ((a.f r).apply r))
  obtain ⟨rest, -, -, -, st⟩ := apply_slotWrites (a.f r) r
  unfold wordRegs
  generalize applied : (a.f r).apply r = r1 at mods rest st ⊢
  have base : ∀ k : Unit8, r1.a[k] = r.a[k] ∧ r1.m[k] = r.m[k] ∧ r1.b[k] = r.b[k] ∧ r1.l[k] = r.l[k] := fun k => by rw [rest]; exact ⟨rfl, rfl, rfl, rfl⟩
  have flags := (stFlags_bits (a.f r).alu r.st).2
  have moved : ∀ r2, r2 = (mMoves r m).foldl (fun r e => writeCode e.1 e.2.1 e.2.2 r) r1 →
      (∀ n, n = 3 ∨ n = 4 → bit r2.st n = bit r1.st n) ∧ ∃ codes : List Nat, (∀ x ∈ codes, x ∈ mWrites m) ∧ ((codes = [] ∧ r2 = r1) ∨ ∃ code, codes = [code] ∧ writesOnly code r1 r2) := by
    rintro r2 rfl
    rcases mMoves_cases r m with e | ⟨code, v, w, e, mem, lt⟩
    · rw [e]; exact ⟨fun _ _ => rfl, [], by simp, .inl ⟨rfl, rfl⟩⟩
    · rw [e]
      refine ⟨fun n hn => ?_, [code], by simpa using mem, .inr ⟨code, rfl, writeCode_writesOnly v w r1 lt⟩⟩
      show bit (writeCode code v w r1).st n = _
      by_cases h : code = 63
      · rw [h]; exact stMove_depth _ _ hn
      · rw [(writeCode_writesOnly v w r1 lt).st h]
  obtain ⟨depth, codes, sub, one⟩ := moved _ rfl
  generalize (mMoves r m).foldl (fun r e => writeCode e.1 e.2.1 e.2.2 r) r1 = r2 at mods depth one ⊢
  obtain ⟨rest3, a3, st3⟩ := mods
  generalize applyModifies r ag (mModifies m) r2 = r3 at rest3 a3 st3 ⊢
  have kept : ∀ {α : Type} (f : CoreRegs → α) (P : Nat → Prop), (∀ x ∈ mWrites m, P x) → (∀ code, P code → writesOnly code r1 r2 → f r2 = f r1) → f r2 = f r1 := by
    intro α f P hP hf
    rcases one with ⟨-, e⟩ | ⟨code, hc, only⟩
    · rw [e]
    · exact hf code (hP code (sub code (by rw [hc]; exact List.mem_singleton_self _))) only
  refine ⟨fun e he => ?_, fun k hk => ?_, fun k hk hw => ?_, fun k hw => ?_, fun k hw => ?_, fun hw n hn => ?_, ?_, fun k hw => ?_⟩
  · rw [rest3, applied]; exact kept (fun r => r.d[e]) (fun x => e.val ≠ x) (fun x hx h => he (h ▸ hx)) fun code hc only => only.d e hc
  · rw [rest3, applied]; exact kept (fun r => r.ac[k]) (fun x => x < 48 + 3 * k.val ∨ 51 + 3 * k.val ≤ x) hk fun code hc only => only.ac k hc
  · rw [a3 k hk, ← (base k).1]; exact kept (fun r => r.a[k]) (fun x => 16 + k.val ≠ x) (fun x hx h => hw (h ▸ hx)) fun code hc only => only.a k hc
  · rw [rest3, ← (base k).2.2.1]; exact kept (fun r => r.b[k]) (fun x => 32 + k.val ≠ x) (fun x hx h => hw (h ▸ hx)) fun code hc only => only.b k hc
  · rw [rest3, ← (base k).2.2.2]; exact kept (fun r => r.l[k]) (fun x => 40 + k.val ≠ x) (fun x hx h => hw (h ▸ hx)) fun code hc only => only.l k hc
  · rw [st3 n hn, ← st]
    exact kept (fun r => bit r.st n) (fun x => x ≠ 63) (fun x hx h => hw (h ▸ hx)) fun code hc only => by rw [only.st hc]
  · refine stDepth_of_bits ?_ ?_
    · rw [st3 3 (by decide), depth 3 (.inl rfl), st, flags 3 (by decide)]
    · rw [st3 4 (by decide), depth 4 (.inr rfl), st, flags 4 (by decide)]
  · rw [rest3, ← (base k).2.1]; exact kept (fun r => r.m[k]) (fun x => 24 + k.val ≠ x) (fun x hx h => hw (h ▸ hx)) fun code hc only => only.m k hc

/-! ### The frame of a word -/

section
variable {p : BitVec 17} {lds : List Load} {k k' : Core} (h : finishesWord p lds k k')
include h

theorem finishesWord.d : k'.r.d = k.r.d := (congrArg (fun x : Core => x.r.d) h.rest :)
theorem finishesWord.a : k'.r.a = k.r.a := (congrArg (fun x : Core => x.r.a) h.rest :)
theorem finishesWord.m : k'.r.m = k.r.m := (congrArg (fun x : Core => x.r.m) h.rest :)
theorem finishesWord.b : k'.r.b = k.r.b := (congrArg (fun x : Core => x.r.b) h.rest :)
theorem finishesWord.l : k'.r.l = k.r.l := (congrArg (fun x : Core => x.r.l) h.rest :)
theorem finishesWord.ac : k'.r.ac = k.r.ac := (congrArg (fun x : Core => x.r.ac) h.rest :)
theorem finishesWord.storeBuf : k'.storeBuf = k.storeBuf := (congrArg Core.storeBuf h.rest :)
theorem finishesWord.waiting : k'.waiting = k.waiting := (congrArg Core.waiting h.rest :)
theorem finishesWord.nest : k'.nest = k.nest := (congrArg Core.nest h.rest :)
theorem finishesWord.ldSlot : k'.ldSlot = lds := (congrArg Core.ldSlot h.rest :)

theorem finishesWord.flags : flagsSame k.r.st k'.r.st :=
  ⟨h.st 19 (by decide) (by decide) (by decide) (by decide), h.st 18 (by decide) (by decide) (by decide) (by decide),
    h.st 17 (by decide) (by decide) (by decide) (by decide), h.st 16 (by decide) (by decide) (by decide) (by decide),
    h.st 13 (by decide) (by decide) (by decide) (by decide)⟩

end

/-- What is left of a core by a word whose registers become r', for its frame. -/
theorem wordFrame_of {ds : List DReg} {acs : List AcId} {m : MSlot} {o : SlotOut} {r' : CoreRegs} {lds : List Load} {u : State}
    (parts : sameBut [.regs, .held, .mem, .cores, .pg, .bv, .pc] s u) (regs : touches (orEvents [0xF34042]) s u) (mem : slotStores m = false → u.mem = s.mem)
    (others : ∀ k : CoreId, k ≠ c → u.cores[k] = s.cores[k]) (res : wordResult o m s.cores[c].r r')
    (fin : finishesWord s.cores[c].pc lds { s.cores[c] with r := r' } u.cores[c]) (hd : ∀ x ∈ o.d, x.1 ∈ ds) (hac : ∀ x, o.ac = some x → x.1 ∈ acs) :
    wordFrame s u c ds acs m := by
  obtain ⟨-, keepD, keepAc, -, -⟩ := apply_slotWrites o s.cores[c].r
  refine ⟨parts, regsButEvents_of_touches regs, mem, others, fin.storeBuf, fun e he hw => ?_, fun k hk hw => ?_, fun k hk hw => ?_,
    fun k => ⟨fun h => ?_, fun h => ?_, fun h => ?_⟩, fun slots depth => fin.next slots (res.depth.trans depth)⟩
  · rw [fin.d]; exact (res.d e hw).trans (keepD e fun x hx h => he (h ▸ hd x hx))
  · rw [fin.ac]; exact (res.ac k hw).trans (keepAc k fun x hx h => hk (h ▸ hac x hx))
  · rw [fin.a]; exact res.a k hk hw
  · rw [fin.m]; exact res.m k h
  · rw [fin.b]; exact res.b k h
  · rw [fin.l]; exact res.l k h

/-- A word that is sound: its frame, what the M-slot's accesses leave in memory, and how its core goes on. -/
theorem runWord_spec {ds : List DReg} {acs : List AcId} {fl : Bool} {a : ASlot} {m : MSlot} (ready : coreReady s.cores[c]) (is : slotIs ds acs fl m a)
    (fits : slotFits ds acs fl m s.cores[c]) (hd : ∀ x ∈ (a.f s.cores[c].r).d, x.1 ∈ ds) (hac : ∀ x, (a.f s.cores[c].r).ac = some x → x.1 ∈ acs) :
    wordFrame s (runWord c a m s) c ds acs m ∧ (runWord c a m s).mem = (mAccess c s.cores[c].r s.cores[c].agOld m s).2.mem ∧
      finishesWord s.cores[c].pc (mAccess c s.cores[c].r s.cores[c].agOld m s).1 { s.cores[c] with r := wordRegs a m s.cores[c].r s.cores[c].agOld }
        (runWord c a m s).cores[c] := by
  obtain ⟨access, quiet⟩ := mAccess_bank (c := c) s.cores[c].r s.cores[c].agOld fits.access s
  rw [runWord_fits ready is fits]
  obtain ⟨-, -, hl, hf, plain⟩ := ready
  obtain ⟨only, core⟩ := doWord_spec (as := [0xF34042]) c a m s fits.ecc (fun _ => List.mem_singleton_self _) plain (access.cores (by decide))
  generalize doWord c a m s = u at only core
  have fin := advancedCore_finishesWord s.cores[c].pc s.cores[c].loopOld s.cores[c].r (mMoves s.cores[c].r m) (mAccess c s.cores[c].r s.cores[c].agOld m s).1
    (k := { s.cores[c] with r := wordRegs a m s.cores[c].r s.cores[c].agOld }) hl hf
  rw [← core] at fin
  have parts : sameBut [.regs, .held, .mem, .cores, .pg, .bv, .pc] s u := sameBut_trans (sameBut_mono (by decide) access) (sameBut_mono (by decide) only.parts)
  refine ⟨wordFrame_of parts (touches_trans (touches_of_sameBut access (by decide) (by decide)) only.regs) (fun h => ?_) (fun k hk => ?_)
    (wordRegs_result a m s.cores[c].r s.cores[c].agOld) fin hd hac, only.mem, fin⟩
  · rw [only.mem, quiet h]
  · rw [only.others k hk, access.cores (by decide)]

/-- The flags of a word whose M-slot leaves ST alone: those of its A-slot. -/
theorem wordFlags {a : ASlot} {m : MSlot} {lds : List Load} {p : BitVec 17} {r : CoreRegs} {ag : List (Nat × Addr)} {k k' : Core} (hm : 63 ∉ mWrites m)
    (fin : finishesWord p lds { k with r := wordRegs a m r ag } k') :
    flagsAre k'.r.st ((a.f r).alu.n.getD (bit r.st 19)) ((a.f r).alu.z.getD (bit r.st 18)) ((a.f r).alu.v.getD (bit r.st 17)) ((a.f r).alu.c.getD (bit r.st 16))
      ((a.f r).alu.v == some true || bit r.st 13) := by
  obtain ⟨⟨n, z, v, cy, sv⟩, -⟩ := stFlags_bits (a.f r).alu r.st
  obtain ⟨n', z', v', cy', sv'⟩ := fin.flags
  have st := (wordRegs_result a m r ag).st hm
  exact ⟨n'.trans ((st 19 (by decide)).trans n), z'.trans ((st 18 (by decide)).trans z), v'.trans ((st 17 (by decide)).trans v), cy'.trans ((st 16 (by decide)).trans cy),
    sv'.trans ((st 13 (by decide)).trans sv)⟩

end Sys2Proof.Machine
end

