-- ==== Sys2Proof/Proofs/CoreArithmetic.lean ====
section
/-! PROOFS. The arithmetic of the control cores: sums, differences, comparisons, limits and signs (12 R341, R343, R344, R349). -/

namespace Sys2Proof.Machine

variable {c : CoreId} {s : State} {d : DReg} {m : MSlot} {res : Word}

/-- A word whose A-slot takes one register and sets N and Z of a result: the result where it is kept, the flags and the frame. -/
theorem aluWord {keep v ov cy : Bool} {a : ASlot} {vo co : Option Bool} (ready : coreReady s.cores[c]) (fits : slotFits (if keep then [d] else []) [] true m s.cores[c])
    (is : slotIs (if keep then [d] else []) [] true m a)
    (out : a.f s.cores[c].r = { d := if keep then [(d, res)] else [], alu := aluNZ keep res vo co })
    (hv : vo.getD (bit s.cores[c].r.st 17) = v) (hov : (vo == some true) = ov) (hc : co.getD (bit s.cores[c].r.st 16) = cy) :
    (keep = true → (runWord c a m s).cores[c].r.d[d] = res) ∧
      flagsAre (runWord c a m s).cores[c].r.st (bit res 19) (res == 0) v cy (ov || bit s.cores[c].r.st 13) ∧ wordFrame s (runWord c a m s) c (if keep then [d] else []) [] m := by
  have hd : ∀ x ∈ (a.f s.cores[c].r).d, x.1 ∈ (if keep then [d] else []) := by
    rw [out]
    cases keep <;> simp
  obtain ⟨frame, -, fin⟩ := runWord_spec ready is fits hd (fun x hx => by rw [out] at hx; cases hx)
  have flags := wordFlags (fits.st rfl) fin
  have result := (wordRegs_result a m s.cores[c].r s.cores[c].agOld).d d
  rw [out] at flags result
  simp only [aluNZ, hv, hov, hc] at flags
  refine ⟨fun h => ?_, flags, frame⟩
  subst h
  rw [fin.d]
  exact (result (fits.d d (List.mem_singleton_self _))).trans ((setD_d d d res _).trans (if_pos rfl))

/-! ### Results and flags of the operations -/

theorem aluAdd_eq (keep : Bool) (x y : Word) (b : Bool) : aluAdd keep x y b = aluNZ keep (x + y + word b.toNat)
    (some (decide ((x + y + word b.toNat).toInt ≠ x.toInt + y.toInt + b.toNat))) (some (decide (2 ^ 20 ≤ x.toNat + y.toNat + b.toNat))) := by
  unfold aluAdd
  simp only [bne, beq_eq_decide, decide_not]

theorem aluAdd_plain (keep : Bool) (x y : Word) : aluAdd keep x y false = aluNZ keep (x + y) (some (decide ((x + y).toInt ≠ x.toInt + y.toInt)))
    (some (decide (2 ^ 20 ≤ x.toNat + y.toNat))) := by
  have e : x + y + word false.toNat = x + y := BitVec.add_zero _
  rw [aluAdd_eq, e]
  simp

theorem sub_eq_add_not (x y : Word) (b : Bool) : x + ~~~y + word b.toNat = x - y - word (1 - b.toNat) := by
  unfold word
  cases b <;> simp <;> bv_omega

theorem borrow_iff (x y : Word) (b : Bool) : 2 ^ 20 ≤ x.toNat + (~~~y).toNat + b.toNat ↔ y.toNat + (1 - b.toNat) ≤ x.toNat := by
  rw [BitVec.toNat_not]
  have := y.isLt
  cases b <;> simp <;> omega

theorem aluSub_eq (keep : Bool) (x y : Word) (b : Bool) : aluSub keep x y b = aluNZ keep (x - y - word (1 - b.toNat))
    (some (decide ((x - y - word (1 - b.toNat)).toInt ≠ x.toInt - y.toInt - (1 - b.toNat : Nat)))) (some (decide (y.toNat + (1 - b.toNat) ≤ x.toNat))) := by
  have carry : (1 : Int) - (b.toNat : Int) = ((1 - b.toNat : Nat) : Int) := by cases b <;> rfl
  unfold aluSub
  simp only [sub_eq_add_not, bne, beq_eq_decide, decide_not, carry, borrow_iff]

theorem aluSub_plain (keep : Bool) (x y : Word) : aluSub keep x y true = aluNZ keep (x - y) (some (decide ((x - y).toInt ≠ x.toInt - y.toInt)))
    (some (decide (y.toNat ≤ x.toNat))) := by
  have e : x - y - word (1 - true.toNat) = x - y := BitVec.sub_zero _
  rw [aluSub_eq, e]
  simp

/-- A value limited to 20 bits is the word whose number it is. -/
theorem satI_20 (x : Int) : satI 20 x = max (-(2 ^ 19)) (min (2 ^ 19 - 1) x) := by
  unfold satI clampI
  norm_num
  omega

theorem wordI_toInt (res : Word) : wordI res.toInt = res := by
  unfold wordI
  exact BitVec.ofInt_toInt

theorem aluSat_eq {x : Int} (h : res.toInt = max (-(2 ^ 19)) (min (2 ^ 19 - 1) x)) : aluSat x = aluNZ true res (some (decide (res.toInt ≠ x))) none := by
  have e : satI 20 x = res.toInt := by rw [satI_20, h]
  unfold aluSat
  simp only [e, wordI_toInt, bne, beq_eq_decide, decide_not]

theorem aluMin_eq {x y : Word} (h : res.toInt = min x.toInt y.toInt) : aluMin x y = aluNZ true res none none := by
  have e : (if x.toInt ≤ y.toInt then x else y) = res := by
    apply BitVec.eq_of_toInt_eq
    rw [h]
    split <;> omega
  unfold aluMin
  rw [e]

theorem aluMax_eq {x y : Word} (h : res.toInt = max x.toInt y.toInt) : aluMax x y = aluNZ true res none none := by
  have e : (if x.toInt ≤ y.toInt then y else x) = res := by
    apply BitVec.eq_of_toInt_eq
    rw [h]
    split <;> omega
  unfold aluMax
  rw [e]

theorem isNeg_iff (x : Word) : isNeg x = decide (x.toInt < 0) := by
  unfold isNeg bit
  have := x.isLt
  rw [BitVec.toInt_eq_toNat_cond, Bool.eq_iff_iff, beq_iff_eq, decide_eq_true_eq]
  split <;> omega

theorem aluAbs_eq (x : Word) : aluAbs x = aluNZ true (if x.toInt < 0 then 0 - x else x) (some (x == 0x80000)) none := by
  unfold aluAbs
  rw [isNeg_iff]
  simp only [decide_eq_true_eq]

theorem slotIs_alu (d r : DReg) (f : Word → Word → Bool → AluOut) : slotIs [d] [] true m (aluSlot d r f) := ⟨fun _ => rfl, fun _ h => (by cases h), rfl, rfl⟩
theorem slotIs_cmp (d r : DReg) (f : Word → Word → AluOut) : slotIs [] [] true m (cmpSlot d r f) := ⟨fun _ => rfl, fun _ h => (by cases h), rfl, rfl⟩
theorem slotIs_one (d : DReg) (f : Word → AluOut) : slotIs [d] [] true m (oneSlot d f) := ⟨fun _ => rfl, fun _ h => (by cases h), rfl, rfl⟩
theorem slotIs_imm (d : DReg) (f : Word → AluOut) : slotIs [d] [] true m (immSlot d f) := ⟨fun _ => rfl, fun _ h => (by cases h), rfl, rfl⟩

theorem slotIs_nop {ds : List DReg} (d : DReg) (f : Word → AluOut) : slotIs ds [] true .nop (immSlot d f) := ⟨fun h => absurd rfl h, fun _ h => (by cases h), rfl, rfl⟩

theorem aluSlot_out {d r : DReg} {f : Word → Word → Bool → AluOut} {x : CoreRegs} {vo co : Option Bool} (h : f x.d[d] x.d[r] (bit x.st 16) = aluNZ true res vo co) :
    (aluSlot d r f).f x = { d := [(d, res)], alu := aluNZ true res vo co } := by
  unfold aluSlot
  simp only [h]
  rfl

theorem oneSlot_out {f : Word → AluOut} {x : CoreRegs} {vo co : Option Bool} (h : f x.d[d] = aluNZ true res vo co) :
    (oneSlot d f).f x = { d := [(d, res)], alu := aluNZ true res vo co } := by
  unfold oneSlot
  simp only [h]
  rfl

theorem immSlot_out {f : Word → AluOut} {x : CoreRegs} {vo co : Option Bool} (h : f x.d[d] = aluNZ true res vo co) :
    (immSlot d f).f x = { d := [(d, res)], alu := aluNZ true res vo co } := by
  unfold immSlot
  simp only [h]
  rfl

theorem cmpiSlot_out {f : Word → AluOut} {x : CoreRegs} {vo co : Option Bool} (h : f x.d[d] = aluNZ false res vo co) :
    (immSlot d f).f x = { d := [], alu := aluNZ false res vo co } := by
  unfold immSlot
  simp only [h]
  rfl

theorem cmpSlot_out {r : DReg} {f : Word → Word → AluOut} {x : CoreRegs} {vo co : Option Bool} (h : f x.d[d] x.d[r] = aluNZ false res vo co) :
    (cmpSlot d r f).f x = { d := [], alu := aluNZ false res vo co } := by
  unfold cmpSlot
  simp only [h]

theorem some_beq_true (b : Bool) : (some b == some true) = b := by cases b <;> rfl

/-- Settles O19: each operation is its result and flags (`aluAdd_eq` to `aluAbs_eq`) in the word of `aluWord`. -/
theorem coreArithmetic : Obligations.CoreArithmetic := by
  unfold Obligations.CoreArithmetic
  intro s c d r m imm cmd keep cy ov v res ready fits h
  rcases h with h | h | h | h | h | h | h | h | h | h | h | h
  · obtain ⟨rfl, rfl, rfl, rfl, rfl, rfl⟩ := h
    exact ⟨_, rfl, aluWord ready fits (slotIs_alu d r _) (aluSlot_out (aluAdd_plain ..)) rfl (some_beq_true _) rfl⟩
  · obtain ⟨rfl, rfl, rfl, rfl, rfl, rfl⟩ := h
    exact ⟨_, rfl, aluWord ready fits (slotIs_alu d r _) (aluSlot_out (aluAdd_eq ..)) rfl (some_beq_true _) rfl⟩
  · obtain ⟨⟨rfl, rfl⟩ | ⟨rfl, rfl⟩, rfl, rfl, rfl, rfl⟩ := h
    · exact ⟨_, rfl, aluWord ready fits (slotIs_alu d r _) (aluSlot_out (aluSub_plain ..)) rfl (some_beq_true _) rfl⟩
    · exact ⟨_, rfl, aluWord ready fits (slotIs_cmp d r _) (cmpSlot_out (aluSub_plain ..)) rfl (some_beq_true _) rfl⟩
  · obtain ⟨rfl, rfl, rfl, rfl, rfl, rfl⟩ := h
    exact ⟨_, rfl, aluWord ready fits (slotIs_alu d r _) (aluSlot_out (aluSub_eq ..)) rfl (some_beq_true _) rfl⟩
  · obtain ⟨rfl, rfl, limited, rfl, rfl, rfl⟩ := h
    exact ⟨_, rfl, aluWord ready fits (slotIs_alu d r _) (aluSlot_out (aluSat_eq limited)) rfl (some_beq_true _) rfl⟩
  · obtain ⟨rfl, rfl, limited, rfl, rfl, rfl⟩ := h
    exact ⟨_, rfl, aluWord ready fits (slotIs_alu d r _) (aluSlot_out (aluSat_eq limited)) rfl (some_beq_true _) rfl⟩
  · obtain ⟨rfl, rfl, least, rfl, rfl, rfl⟩ := h
    exact ⟨_, rfl, aluWord ready fits (slotIs_alu d r _) (aluSlot_out (aluMin_eq least)) rfl rfl rfl⟩
  · obtain ⟨rfl, rfl, greatest, rfl, rfl, rfl⟩ := h
    exact ⟨_, rfl, aluWord ready fits (slotIs_alu d r _) (aluSlot_out (aluMax_eq greatest)) rfl rfl rfl⟩
  · obtain ⟨rfl, rfl, rfl, rfl, rfl, rfl⟩ := h
    exact ⟨_, rfl, aluWord ready fits (slotIs_one d _) (oneSlot_out rfl) rfl (some_beq_true _) rfl⟩
  · obtain ⟨rfl, rfl, rfl, rfl, rfl, rfl⟩ := h
    exact ⟨_, rfl, aluWord ready fits (slotIs_one d _) (oneSlot_out (aluAbs_eq _)) rfl (some_beq_true _) rfl⟩
  · obtain ⟨rfl, rfl, rfl, rfl, rfl, rfl, rfl⟩ := h
    exact ⟨_, rfl, aluWord ready fits (slotIs_imm d _) (immSlot_out (aluAdd_plain ..)) rfl (some_beq_true _) rfl⟩
  · obtain ⟨⟨rfl, rfl⟩ | ⟨rfl, rfl⟩, rfl, rfl, rfl, rfl, rfl⟩ := h
    · exact ⟨_, rfl, aluWord ready fits (slotIs_imm d _) (immSlot_out (aluSub_plain ..)) rfl (some_beq_true _) rfl⟩
    · exact ⟨_, rfl, aluWord ready fits (slotIs_nop d _) (cmpiSlot_out (aluSub_plain ..)) rfl (some_beq_true _) rfl⟩

end Sys2Proof.Machine
end

