-- ==== Sys2Proof/Proofs/CoreLogic.lean ====
section
/-! PROOFS. Logic, single bits and shifts of the control cores (12 R343, R345, R349). -/

namespace Sys2Proof.Machine

variable {c : CoreId} {s : State} {d : DReg} {m : MSlot} {res : Word}

/-- A word whose A-slot writes one register and no flag. -/
theorem bitWord {a : ASlot} (ready : coreReady s.cores[c]) (fits : slotFits [d] [] false m s.cores[c]) (is : slotIs [d] [] false m a)
    (out : a.f s.cores[c].r = { d := [(d, res)] }) :
    (runWord c a m s).cores[c].r.d[d] = res ∧ (63 ∉ mWrites m → flagsSame s.cores[c].r.st (runWord c a m s).cores[c].r.st) ∧
      wordFrame s (runWord c a m s) c [d] [] m := by
  obtain ⟨frame, -, fin⟩ := runWord_spec ready is fits (by rw [out]; simp) (fun x hx => by rw [out] at hx; cases hx)
  have result := (wordRegs_result a m s.cores[c].r s.cores[c].agOld).d d
  rw [out] at result
  refine ⟨?_, fun hm => ?_, frame⟩
  · rw [fin.d]
    exact (result (fits.d d (List.mem_singleton_self _))).trans ((setD_d d d res _).trans (if_pos rfl))
  · have flags := wordFlags hm fin
    rw [out] at flags
    exact flags

/-- A word whose A-slot writes no register. -/
theorem flagWord {fl : Bool} {a : ASlot} (ready : coreReady s.cores[c]) (fits : slotFits [] [] fl m s.cores[c]) (is : slotIs [] [] fl m a)
    (none_ : (a.f s.cores[c].r).d = []) (noAc : (a.f s.cores[c].r).ac = none) :
    (63 ∉ mWrites m → flagsAre (runWord c a m s).cores[c].r.st ((a.f s.cores[c].r).alu.n.getD (bit s.cores[c].r.st 19))
      ((a.f s.cores[c].r).alu.z.getD (bit s.cores[c].r.st 18)) ((a.f s.cores[c].r).alu.v.getD (bit s.cores[c].r.st 17))
      ((a.f s.cores[c].r).alu.c.getD (bit s.cores[c].r.st 16)) ((a.f s.cores[c].r).alu.v == some true || bit s.cores[c].r.st 13)) ∧
      wordFrame s (runWord c a m s) c [] [] m := by
  obtain ⟨frame, -, fin⟩ := runWord_spec ready is fits (by rw [none_]; simp) (fun x hx => by rw [noAc] at hx; cases hx)
  exact ⟨fun hm => wordFlags hm fin, frame⟩

/-- A bitwise operation clears V and leaves C and SV. -/
theorem logicWord {keep : Bool} {a : ASlot} (ready : coreReady s.cores[c]) (fits : slotFits (if keep then [d] else []) [] true m s.cores[c])
    (is : slotIs (if keep then [d] else []) [] true m a)
    (out : a.f s.cores[c].r = { d := if keep then [(d, res)] else [], alu := aluNZ keep res (some false) none }) :
    (keep = true → (runWord c a m s).cores[c].r.d[d] = res) ∧
      flagsAre (runWord c a m s).cores[c].r.st (bit res 19) (res == 0) false (bit s.cores[c].r.st 16) (bit s.cores[c].r.st 13) ∧
      wordFrame s (runWord c a m s) c (if keep then [d] else []) [] m :=
  aluWord (ov := false) ready fits is out rfl rfl rfl

/-! ### Single bits -/

theorem setBit_true_eq (x : Word) (b : Fin 20) : setBit x b.val true = x ||| word (2 ^ b.val) := by
  apply BitVec.eq_of_toNat_eq
  unfold setBit
  rw [toNat_setFld _ _ le_rfl b.isLt, BitVec.toNat_or, toNat_word, Nat.mod_eq_of_lt (Nat.pow_lt_pow_right (by decide) b.isLt)]
  apply Nat.eq_of_testBit_eq
  intro i
  rw [testBit_natSetFld _ _ le_rfl, Nat.testBit_or, Nat.testBit_two_pow]
  by_cases h : b.val = i
  · subst h; simp
  · rw [if_neg (by omega), decide_eq_false h, Bool.or_false]

theorem setBit_false_eq (x : Word) (b : Fin 20) : setBit x b.val false = x &&& ~~~(word (2 ^ b.val)) := by
  apply BitVec.eq_of_getLsbD_eq
  intro i hi
  have left : (setBit x b.val false).getLsbD i = if i = b.val then false else x.getLsbD i := by
    show (setBit x b.val false).toNat.testBit i = _
    unfold setBit
    rw [toNat_setFld _ _ le_rfl b.isLt, testBit_natSetFld _ _ le_rfl]
    by_cases h : i = b.val
    · rw [if_pos (by omega), if_pos h]; simp
    · rw [if_neg (by omega), if_neg h]; rfl
  have mask : (word (2 ^ b.val)).getLsbD i = decide (b.val = i) := by
    show (word (2 ^ b.val)).toNat.testBit i = _
    rw [toNat_word, Nat.mod_eq_of_lt (Nat.pow_lt_pow_right (by decide) b.isLt), Nat.testBit_two_pow]
  rw [left, BitVec.getLsbD_and, BitVec.getLsbD_not, mask]
  by_cases h : i = b.val
  · subst h; simp
  · have : ¬b.val = i := fun e => h e.symm
    simp [h, this, hi]

/-! ### Shifts -/

theorem aluAsl_eq (x : Word) (n : Nat) : aluAsl x n = aluNZ true (word (x.toNat * 2 ^ n)) (some (decide ((word (x.toNat * 2 ^ n)).toInt ≠ x.toInt * 2 ^ n)))
    (if n = 0 then none else if 20 ≤ n then some false else some (bit x (20 - n))) := by
  unfold aluAsl
  simp only [bne, beq_eq_decide, decide_not]

theorem aluAsr_eq {x : Word} {n : Nat} (h : res.toInt = x.toInt / 2 ^ n) : aluAsr x n = aluNZ true res (some false)
    (if n = 0 then none else if 20 ≤ n then some (bit x 19) else some (bit x (n - 1))) := by
  have e : wordI (asr x.toInt n) = res := by
    rw [← wordI_toInt res, h]
    rfl
  unfold aluAsr
  rw [e]
  rfl

theorem aluLsr_eq {x : Word} {n : Nat} (h : res.toNat = x.toNat / 2 ^ n) : aluLsr x n = aluNZ true res (some false)
    (if n = 0 then none else if 20 ≤ n then some false else some (bit x (n - 1))) := by
  have e : word (x.toNat / 2 ^ n) = res := by
    rw [← h, word, BitVec.ofNat_toNat, BitVec.setWidth_eq]
  unfold aluLsr
  rw [e]

/-- The carry of a shift by n. -/
theorem shiftCarry (n : Nat) (a b old : Bool) : (if n = 0 then none else if 20 ≤ n then some a else some b).getD old = if n = 0 then old else if 20 ≤ n then a else b := by
  split
  · rfl
  · split <;> rfl

theorem slotIs_bit (d : DReg) (f : Word → Word) : slotIs [d] [] false m (bitSlot d f) := ⟨fun _ => rfl, fun _ h => (by cases h), rfl, rfl⟩

/-- Settles O20: logic and shifts in the words of `logicWord` and `aluWord`, single bits in that of `bitWord`. -/
theorem coreLogicBitsAndShifts : Obligations.CoreLogicBitsAndShifts := by
  unfold Obligations.CoreLogicBitsAndShifts
  refine ⟨fun s c d r m b imm ready => ⟨fun cmd keep res fits h => ?_, fun cmd res fits h => ?_, fun fits => ?_, fun fits => ?_⟩,
    fun s c d r m i cmd n res v cy ready fits h => ?_⟩
  · rcases h with ⟨rfl, rfl, rfl⟩ | ⟨rfl, rfl, rfl⟩ | ⟨rfl, rfl, rfl⟩ | ⟨rfl, rfl, rfl⟩ | ⟨rfl, rfl, rfl⟩ | h
    · exact ⟨_, rfl, logicWord ready fits (slotIs_alu d r _) (aluSlot_out rfl)⟩
    · exact ⟨_, rfl, logicWord ready fits (slotIs_alu d r _) (aluSlot_out rfl)⟩
    · exact ⟨_, rfl, logicWord ready fits (slotIs_alu d r _) (aluSlot_out rfl)⟩
    · exact ⟨_, rfl, logicWord ready fits (slotIs_cmp d r _) (cmpSlot_out rfl)⟩
    · exact ⟨_, rfl, logicWord ready fits (slotIs_one d _) (oneSlot_out rfl)⟩
    · rcases h with ⟨rfl, rfl, rfl, rfl⟩ | ⟨rfl, rfl, rfl, rfl⟩ | ⟨rfl, rfl, rfl, rfl⟩ | ⟨rfl, rfl, rfl, rfl⟩
      · exact ⟨_, rfl, logicWord ready fits (slotIs_imm d _) (immSlot_out rfl)⟩
      · exact ⟨_, rfl, logicWord ready fits (slotIs_imm d _) (immSlot_out rfl)⟩
      · exact ⟨_, rfl, logicWord ready fits (slotIs_imm d _) (immSlot_out rfl)⟩
      · exact ⟨_, rfl, logicWord ready fits (slotIs_nop d _) (cmpiSlot_out rfl)⟩
  · rcases h with ⟨rfl, rfl⟩ | ⟨rfl, rfl⟩ | ⟨rfl, rfl, rfl⟩
    · exact ⟨_, rfl, bitWord ready fits (slotIs_bit d _) (by unfold bitSlot; simp only [setBit_true_eq])⟩
    · exact ⟨_, rfl, bitWord ready fits (slotIs_bit d _) (by unfold bitSlot; simp only [setBit_false_eq])⟩
    · exact ⟨_, rfl, bitWord ready fits (slotIs_bit d _) rfl⟩
  · obtain ⟨flags, frame⟩ := flagWord (a := { flags := true, f := fun x => { alu := aluBtst x.d[d] b.val } }) ready fits
      ⟨fun _ => rfl, fun _ h => (by cases h), rfl, rfl⟩ rfl rfl
    exact ⟨_, rfl, flags (fits.st rfl), frame⟩
  · obtain ⟨flags, frame⟩ := flagWord (a := nopSlot) ready fits ⟨fun _ => rfl, fun _ h => (by cases h), rfl, rfl⟩ rfl rfl
    exact ⟨_, rfl, flags, frame⟩
  · have word : ∀ {a : ASlot} {vo : Bool} {x y : Bool}, slotIs [d] [] true m a →
        a.f s.cores[c].r = { d := [(d, res)], alu := aluNZ true res (some vo) (if n = 0 then none else if 20 ≤ n then some x else some y) } → _ :=
      fun {a vo x y} is out => aluWord (keep := true) ready fits is out rfl (some_beq_true vo) (shiftCarry n x y (bit s.cores[c].r.st 16))
    rcases h with ⟨⟨rfl, rfl⟩ | ⟨rfl, rfl⟩, rfl, rfl, rfl⟩ | ⟨⟨rfl, rfl⟩ | ⟨rfl, rfl⟩, shifted, rfl, rfl⟩ | ⟨⟨rfl, rfl⟩ | ⟨rfl, rfl⟩, shifted, rfl, rfl⟩
    · obtain ⟨result, rest⟩ := word (slotIs_one d fun a => aluAsl a i.val) (oneSlot_out (aluAsl_eq ..))
      exact ⟨_, rfl, result rfl, rest⟩
    · obtain ⟨result, rest⟩ := word (slotIs_alu d r fun a b _ => aluAsl a (fld b 4 0)) (aluSlot_out (aluAsl_eq ..))
      exact ⟨_, rfl, result rfl, rest⟩
    · obtain ⟨result, rest⟩ := word (slotIs_one d fun a => aluAsr a i.val) (oneSlot_out (aluAsr_eq shifted))
      exact ⟨_, rfl, result rfl, rest⟩
    · obtain ⟨result, rest⟩ := word (slotIs_alu d r fun a b _ => aluAsr a (fld b 4 0)) (aluSlot_out (aluAsr_eq shifted))
      exact ⟨_, rfl, result rfl, rest⟩
    · obtain ⟨result, rest⟩ := word (slotIs_one d fun a => aluLsr a i.val) (oneSlot_out (aluLsr_eq shifted))
      exact ⟨_, rfl, result rfl, rest⟩
    · obtain ⟨result, rest⟩ := word (slotIs_alu d r fun a b _ => aluLsr a (fld b 4 0)) (aluSlot_out (aluLsr_eq shifted))
      exact ⟨_, rfl, result rfl, rest⟩

end Sys2Proof.Machine
end

