-- ==== Sys2Proof/Proofs/CoreAccumulators.lean ====
section
/-! PROOFS. The accumulators of the control cores, normalise and exponent (12 R346-R348). -/

namespace Sys2Proof.Machine

variable {c : CoreId} {s : State} {d : DReg} {m : MSlot} {res : Word}

/-! ### Saturation -/

theorem satI_48 (x : Int) : satI 48 x = max (-(2 ^ 47)) (min (2 ^ 47 - 1) x) := by
  unfold satI clampI
  norm_num
  omega

theorem accSat_toInt (x : Int) : (accSat x).toInt = max (-(2 ^ 47)) (min (2 ^ 47 - 1) x) := by
  unfold accSat
  rw [satI_48, BitVec.toInt_ofInt]
  apply Int.bmod_eq_of_le <;> norm_num

theorem accSat_fits {x : Int} (h : -(2 ^ 47) ≤ x) (h' : x < 2 ^ 47) : (accSat x).toInt = x := by
  rw [accSat_toInt]
  omega

theorem accShift_toInt (a : Acc) (n : Int) : (accShift a n).toInt =
    max (-(2 ^ 47)) (min (2 ^ 47 - 1) (if 0 ≤ n then a.toInt * 2 ^ n.toNat else a.toInt / 2 ^ (-n).toNat)) := by
  unfold accShift
  split
  · exact accSat_toInt _
  · exact accSat_toInt _

/-- A word whose A-slot writes one accumulator, and perhaps one register, and no flag. -/
theorem accWord {k : AcId} {a : ASlot} {ds : List DReg} {x : Acc} (ready : coreReady s.cores[c]) (fits : slotFits ds [k] false m s.cores[c])
    (is : slotIs ds [k] false m a) (acc : (a.f s.cores[c].r).ac = some (k, x)) (hd : ∀ x ∈ (a.f s.cores[c].r).d, x.1 ∈ ds) (quiet : (a.f s.cores[c].r).alu = {}) :
    (runWord c a m s).cores[c].r.ac[k] = x ∧ (∀ e ∈ ds, (runWord c a m s).cores[c].r.d[e] = ((a.f s.cores[c].r).apply s.cores[c].r).d[e]) ∧
      (63 ∉ mWrites m → flagsSame s.cores[c].r.st (runWord c a m s).cores[c].r.st) ∧ wordFrame s (runWord c a m s) c ds [k] m := by
  obtain ⟨frame, -, fin⟩ := runWord_spec ready is fits hd (fun y hy => by rw [acc] at hy; cases hy; exact List.mem_singleton_self _)
  have result := wordRegs_result a m s.cores[c].r s.cores[c].agOld
  have applied := apply_slotWrites (a.f s.cores[c].r) s.cores[c].r
  refine ⟨?_, fun e he => ?_, fun hm => ?_, frame⟩
  · rw [fin.ac]
    exact (result.ac k (fits.ac k (List.mem_singleton_self _))).trans (applied.set (k, x) acc)
  · rw [fin.d]
    exact result.d e (fits.d e he)
  · have flags := wordFlags hm fin
    rw [quiet] at flags
    exact flags

/-! ### Redundant sign bits -/

/-- The count from the top: n bits equal to the sign, the next one not. -/
theorem redundantAux_eq (v : Nat) (sign : Bool) {k n : Nat} (hn : n ≤ k) (same : ∀ i, k - n ≤ i → i < k → v.testBit i = sign)
    (ends : n < k → v.testBit (k - 1 - n) ≠ sign) : redundantAux v sign k = n := by
  induction k generalizing n with
  | zero => exact (Nat.le_zero.mp hn).symm
  | succ k ih =>
    have top : (v / 2 ^ k % 2 == 1) = v.testBit k := by simp [Nat.testBit, Nat.shiftRight_eq_div_pow]
    unfold redundantAux
    rw [top]
    match n with
    | 0 =>
      have : v.testBit k ≠ sign := by simpa using ends (Nat.succ_pos k)
      rw [if_neg (by simpa using this)]
    | n + 1 =>
      have : v.testBit k = sign := same k (by omega) (by omega)
      have rest : redundantAux v sign k = n := ih (by omega) (fun i h h' => same i (by omega) (by omega)) fun h => by
        have := ends (by omega)
        rwa [show k + 1 - 1 - (n + 1) = k - 1 - n by omega] at this
      rw [if_pos (by simpa using this), rest, Nat.add_comm]

theorem redundant_20 {x : Word} {n : Nat} (hn : n ≤ 19) (same : ∀ i, 19 - n ≤ i → i < 19 → bit x i = bit x 19) (ends : n < 19 → bit x (18 - n) ≠ bit x 19) :
    redundant 20 x.toNat = n := by
  simp only [bit_eq_testBit] at same ends
  have sign : (x.toNat / 2 ^ (20 - 1) % 2 == 1) = x.toNat.testBit 19 := bit_eq_testBit x 19
  unfold redundant
  rw [sign]
  exact redundantAux_eq _ _ hn same ends

theorem redundant_48 {a : Acc} {n : Nat} (hn : n ≤ 47) (same : ∀ i, 47 - n ≤ i → i < 47 → a.getLsbD i = a.getLsbD 47)
    (ends : n < 47 → a.getLsbD (46 - n) ≠ a.getLsbD 47) : redundant 48 a.toNat = n := by
  have sign : (a.toNat / 2 ^ (48 - 1) % 2 == 1) = a.toNat.testBit 47 := by simp [Nat.testBit, Nat.shiftRight_eq_div_pow]
  unfold redundant
  rw [sign]
  exact redundantAux_eq _ _ hn same ends

/-- An accumulator with n redundant sign bits fits in 48 - n bits. -/
theorem acc_bound {a : Acc} {n : Nat} (same : ∀ i, 47 - n ≤ i → i < 47 → a.getLsbD i = a.getLsbD 47) :
    -(2 ^ (47 - n) : Int) ≤ a.toInt ∧ a.toInt < 2 ^ (47 - n) := by
  have isLt := a.isLt
  have pow : (((2 : Nat) ^ (47 - n) : Nat) : Int) = (2 : Int) ^ (47 - n) := by norm_cast
  have msb : a.getLsbD 47 = decide (2 ^ 47 ≤ a.toNat) := by
    have := BitVec.msb_eq_decide a
    rwa [BitVec.msb_eq_getLsbD_last] at this
  rw [← pow, BitVec.toInt_eq_toNat_cond]
  cases sign : a.getLsbD 47
  case false =>
    rw [sign] at same msb
    have low : a.toNat < 2 ^ (47 - n) := Nat.lt_pow_two_of_testBit _ fun i hi => by
      by_cases h : i < 47
      · exact same i hi h
      by_cases h' : i = 47
      · subst h'; exact sign
      · exact BitVec.getLsbD_of_ge a i (by omega)
    have : a.toNat < 2 ^ 47 := by simpa using (decide_eq_false_iff_not.mp msb.symm)
    rw [if_pos (by omega)]
    omega
  case true =>
    rw [sign] at same msb
    have high : (~~~a).toNat < 2 ^ (47 - n) := Nat.lt_pow_two_of_testBit _ fun i hi => by
      show (~~~a).getLsbD i = false
      rw [BitVec.getLsbD_not]
      by_cases h : i < 48
      · have : a.getLsbD i = true := by
          by_cases h' : i = 47
          · subst h'; exact sign
          · exact same i hi (by omega)
        rw [this]; simp
      · simp [h]
    rw [BitVec.toNat_not] at high
    have : 2 ^ 47 ≤ a.toNat := of_decide_eq_true msb.symm
    rw [if_neg (by omega)]
    omega

/-! ### The words -/

/-- A word whose A-slot writes registers and the sign of a value. -/
theorem signWord {a : ASlot} {ds : List DReg} {x : Word} {l : List (DReg × Word)} (ready : coreReady s.cores[c]) (fits : slotFits ds [] true m s.cores[c])
    (is : slotIs ds [] true m a) (out : a.f s.cores[c].r = { d := l, alu := { n := some (isNeg x), z := some (isZero x) } }) (hl : ∀ y ∈ l, y.1 ∈ ds) :
    (∀ e ∈ ds, (runWord c a m s).cores[c].r.d[e] = (l.foldl (fun r e => setD e.1 e.2 r) s.cores[c].r).d[e]) ∧
      flagsAre (runWord c a m s).cores[c].r.st (bit x 19) (x == 0) (bit s.cores[c].r.st 17) (bit s.cores[c].r.st 16) (bit s.cores[c].r.st 13) ∧
      wordFrame s (runWord c a m s) c ds [] m := by
  obtain ⟨frame, -, fin⟩ := runWord_spec ready is fits (by rw [out]; exact hl) (fun y hy => by rw [out] at hy; cases hy)
  have result := wordRegs_result a m s.cores[c].r s.cores[c].agOld
  have flags := wordFlags (fits.st rfl) fin
  rw [out] at flags result
  refine ⟨fun e he => ?_, flags, frame⟩
  rw [fin.d]
  refine (result.d e (fits.d e he)).trans ?_
  rw [apply_d]

theorem slotIs_acc (k : AcId) (f : CoreRegs → Acc) : slotIs [] [k] false m (accSlot k f) :=
  ⟨fun _ => rfl, fun _ h => (by cases h; exact List.mem_singleton_self _), rfl, rfl⟩

/-- An accumulator operation leaves the number it takes, limited to 48 bits. -/
theorem accSlotWord {k : AcId} {f : CoreRegs → Acc} {x : Int} (ready : coreReady s.cores[c]) (fits : slotFits [] [k] false m s.cores[c])
    (h : (f s.cores[c].r).toInt = max (-(2 ^ 47)) (min (2 ^ 47 - 1) x)) :
    (runWord c (accSlot k f) m s).cores[c].r.ac[k].toInt = max (-(2 ^ 47)) (min (2 ^ 47 - 1) x) ∧
      (63 ∉ mWrites m → flagsSame s.cores[c].r.st (runWord c (accSlot k f) m s).cores[c].r.st) ∧ wordFrame s (runWord c (accSlot k f) m s) c [] [k] m := by
  obtain ⟨acc, -, flags, frame⟩ := accWord (x := f s.cores[c].r) ready fits (slotIs_acc k f) rfl (fun y hy => (by cases hy)) rfl
  exact ⟨by rw [acc, h], flags, frame⟩

theorem macProduct_eq (mode : MacMode) (a b : Word) : macProduct mode a b = (match mode with
    | .frac => 2 * (a.toInt * b.toInt)
    | .int => a.toInt * b.toInt
    | .uint => (a.toNat : Int) * b.toNat) := by
  cases mode
  · exact Int.mul_comm ..
  · rfl
  · rfl

theorem wordI_toInt_small {n : Nat} (hn : n ≤ 47) : (wordI ((n : Int) - 8)).toInt = (n : Int) - 8 := by
  unfold wordI
  rw [BitVec.toInt_ofInt]
  apply Int.bmod_eq_of_le <;> norm_num <;> omega

/-- A left shift that leaves a sign bit loses nothing. -/
theorem limited_pos {a : Int} {n : Nat} (low : -(2 ^ (47 - n) : Int) ≤ a) (high : a < 2 ^ (47 - n)) (h : 8 ≤ n) (hn : n ≤ 47) :
    max (-(2 ^ 47)) (min (2 ^ 47 - 1) (a * 2 ^ (n - 8))) = a * 2 ^ (n - 8) := by
  have pos : (0 : Int) < 2 ^ (n - 8) := by positivity
  have split_ : (2 : Int) ^ (47 - n) * 2 ^ (n - 8) = 2 ^ 39 := by rw [← pow_add]; congr 1; omega
  have upper : a * 2 ^ (n - 8) < 2 ^ (47 - n) * 2 ^ (n - 8) := Int.mul_lt_mul_of_pos_right high pos
  have lower : -(2 ^ (47 - n) : Int) * 2 ^ (n - 8) ≤ a * 2 ^ (n - 8) := Int.mul_le_mul_of_nonneg_right low pos.le
  rw [neg_mul, split_] at lower
  rw [split_] at upper
  generalize a * 2 ^ (n - 8) = x at lower upper
  norm_num at lower upper ⊢
  omega

/-- A right shift needs no limit. -/
theorem limited_neg (a : Acc) (n : Nat) : max (-(2 ^ 47)) (min (2 ^ 47 - 1) (a.toInt / 2 ^ n)) = a.toInt / 2 ^ n := by
  have low := BitVec.le_toInt a
  have high := BitVec.toInt_lt (x := a)
  have pos : (0 : Int) < 2 ^ n := by positivity
  have one : (1 : Int) ≤ 2 ^ n := pos
  norm_num at low high
  have lower : -(2 ^ 47 : Int) ≤ a.toInt / 2 ^ n := by
    rw [Int.le_ediv_iff_mul_le pos]
    norm_num
    linarith
  have upper : a.toInt / 2 ^ n < 2 ^ 47 := by
    rw [Int.ediv_lt_iff_lt_mul pos]
    norm_num
    linarith
  omega

/-- Settles O21: the accumulator operations by `accSlotWord`, the counts by `redundant_20` and `redundant_48`. -/
theorem coreAccumulatorsAndExponents : Obligations.CoreAccumulatorsAndExponents := by
  unfold Obligations.CoreAccumulatorsAndExponents
  refine ⟨fun s c k d r mode m cmd x ready fits h => ?_, fun s c k d r m n ready => ⟨fun x hn same ends => ⟨fun hx apart fits => ?_, fun hx fits => ?_⟩,
    fun a ha hn same ends => ⟨fun fits => ?_, fun fits => ?_⟩⟩⟩
  · have limited : ∀ {p q : Int}, p = q → max (-(2 ^ 47 : Int)) (min (2 ^ 47 - 1) p) = max (-(2 ^ 47)) (min (2 ^ 47 - 1) q) := fun e => by rw [e]
    rcases h with ⟨rfl, rfl⟩ | ⟨rfl, rfl⟩ | ⟨rfl, rfl⟩ | ⟨rfl, rfl⟩ | ⟨rfl, rfl⟩ | ⟨rfl, rfl⟩ | ⟨rfl, rfl⟩ | ⟨rfl, rfl⟩ | ⟨rfl, rfl⟩ | ⟨rfl, rfl⟩ | ⟨rfl, rfl⟩ | ⟨rfl, rfl⟩
    · exact ⟨_, rfl, accSlotWord ready fits ((accSat_toInt _).trans (limited (macProduct_eq ..)))⟩
    · exact ⟨_, rfl, accSlotWord ready fits ((accSat_toInt _).trans (limited (congrArg _ (macProduct_eq ..))))⟩
    · exact ⟨_, rfl, accSlotWord ready fits ((accSat_toInt _).trans (limited (congrArg _ (macProduct_eq ..))))⟩
    · exact ⟨_, rfl, accSlotWord ready fits (accSat_toInt _)⟩
    · exact ⟨_, rfl, accSlotWord ready fits (accSat_toInt _)⟩
    · exact ⟨_, rfl, accSlotWord ready fits (accSat_toInt _)⟩
    · exact ⟨_, rfl, accSlotWord (f := fun _ => 0) ready fits (by decide)⟩
    · exact ⟨_, rfl, accSlotWord ready fits (accSat_toInt _)⟩
    · exact ⟨_, rfl, accSlotWord ready fits (by rw [← Int.natCast_natAbs]; exact accSat_toInt _)⟩
    · exact ⟨_, rfl, accSlotWord ready fits (accSat_toInt _)⟩
    · exact ⟨_, rfl, accSlotWord ready fits (accSat_toInt _)⟩
    · exact ⟨_, rfl, accSlotWord ready fits (accShift_toInt _ _)⟩
  · subst hx
    obtain ⟨results, flags, frame⟩ := signWord (a := normSlot d r) (x := s.cores[c].r.d[d]) ready fits
      ⟨fun _ => rfl, fun _ h => (by cases h), rfl, by simpa [normSlot] using apart⟩ rfl (by simp)
    refine ⟨_, rfl, (results d (by simp)).trans ?_, (results r (by simp)).trans ?_, flags, frame⟩
    · show (setD r _ (setD d _ s.cores[c].r)).d[d] = _
      rw [setD_d, if_neg (Ne.symm apart), setD_d, if_pos rfl, redundant_20 hn same ends]
    · show (setD r _ (setD d _ s.cores[c].r)).d[r] = _
      rw [setD_d, if_pos rfl, redundant_20 hn same ends]
  · subst hx
    obtain ⟨results, flags, frame⟩ := signWord (a := expSlot d r) (x := s.cores[c].r.d[r]) ready fits
      ⟨fun _ => rfl, fun _ h => (by cases h), rfl, rfl⟩ rfl (by simp)
    refine ⟨_, rfl, (results d (List.mem_singleton_self _)).trans ?_, flags, frame⟩
    show (setD d _ s.cores[c].r).d[d] = _
    rw [setD_d, if_pos rfl, redundant_20 hn same ends]
  · subst ha
    have count : accExp s.cores[c].r.ac[k] = (n : Int) - 8 := by unfold accExp; rw [redundant_48 hn same ends]
    obtain ⟨result, flags, frame⟩ := bitWord (res := wordI (accExp s.cores[c].r.ac[k]))
      (a := { dW := [d], f := fun x => { d := [(d, wordI (accExp x.ac[k]))] } }) ready fits ⟨fun _ => rfl, fun _ h => (by cases h), rfl, rfl⟩ rfl
    exact ⟨_, rfl, by rw [result, count, wordI_toInt_small hn], flags, frame⟩
  · subst ha
    have count : accExp s.cores[c].r.ac[k] = (n : Int) - 8 := by unfold accExp; rw [redundant_48 hn same ends]
    obtain ⟨low, high⟩ := acc_bound same
    obtain ⟨acc, results, flags, frame⟩ := accWord (a := normaSlot k d) (x := accShift s.cores[c].r.ac[k] (accExp s.cores[c].r.ac[k])) ready fits
      ⟨fun _ => rfl, fun _ h => (by cases h; exact List.mem_singleton_self _), rfl, rfl⟩ rfl (by simp [normaSlot]) rfl
    refine ⟨_, rfl, ?_, ?_, flags, frame⟩
    · rw [results d (List.mem_singleton_self _)]
      rw [apply_d]
      show (setD d _ s.cores[c].r).d[d].toInt = _
      rw [setD_d, if_pos rfl, count, wordI_toInt_small hn]
    · rw [acc, count, accShift_toInt]
      by_cases h : 8 ≤ n
      · rw [if_pos (by omega), if_pos h, show ((n : Int) - 8).toNat = n - 8 by omega]
        exact limited_pos low high h hn
      · rw [if_neg (by omega), if_neg h, show (-((n : Int) - 8)).toNat = 8 - n by omega]
        exact limited_neg s.cores[c].r.ac[k] (8 - n)

end Sys2Proof.Machine
end

