-- ==== Sys2Proof/Proofs/CoreMoves.lean ====
section
/-! PROOFS. Moves and accesses of a word without an A-slot operation (12 R340, R350-R357). -/

namespace Sys2Proof.Machine

variable {c : CoreId} {s : State} {m : MSlot}

/-! ### The word without an A-slot operation -/

theorem slotIs_nopSlot (m : MSlot) : slotIs [] [] false m nopSlot := ⟨fun _ => rfl, fun _ h => (by cases h), rfl, rfl⟩

theorem nop_apply (r : CoreRegs) : ((nopSlot).f r).apply r = r := rfl

/-- The pointer that a unit's post-modify leaves. -/
theorem applyModifies_a (view : CoreRegs) (old : List (Nat × Addr)) {l : List (Unit8 × Modify)} (r : CoreRegs) (apart : (l.map Prod.fst).Nodup) {k : Unit8} {mod : Modify}
    (mem : (k, mod) ∈ l) (moves : mod ≠ .keep) : (applyModifies view old l r).a[k] = (agModify (agUnit view old k) mod).1 := by
  induction l generalizing r with
  | nil => exact absurd mem List.not_mem_nil
  | cons e es ih =>
    obtain ⟨notIn, apart⟩ := List.nodup_cons.mp apart
    let r1 : CoreRegs := if e.2 = .keep then r else setA e.1 (agModify (agUnit view old e.1) e.2).1 r
    let r2 : CoreRegs := if (agModify (agUnit view old e.1) e.2).2 then setSt (setBit r1.st 12 true) r1 else r1
    have step : applyModifies view old (e :: es) r = applyModifies view old es r2 := rfl
    rw [step]
    rcases List.mem_cons.mp mem with rfl | mem
    · have rest := (applyModifies_modifiesOnly view old es r2).a k fun e he => .inl fun h => notIn (List.mem_map.mpr ⟨e, he, h⟩)
      have written : r1 = setA k (agModify (agUnit view old k) mod).1 r := if_neg moves
      have kept : r2.a = r1.a := by
        show (ite _ _ _ : CoreRegs).a = _
        split
        · rfl
        · rfl
      rw [rest, kept, written, setA_a, if_pos rfl]
    · exact ih r2 apart mem

/-- A word without an A-slot operation: memory, loads, pointers and frame. -/
theorem nopWord (ready : coreReady s.cores[c]) (fits : slotFits [] [] false m s.cores[c]) (apart : ((mModifies m).map Prod.fst).Nodup) :
    (runWord c nopSlot m s).mem = (mAccess c s.cores[c].r s.cores[c].agOld m s).2.mem ∧
      (runWord c nopSlot m s).cores[c].ldSlot = (mAccess c s.cores[c].r s.cores[c].agOld m s).1 ∧
      (∀ k mod, (k, mod) ∈ mModifies m → mod ≠ .keep →
        (runWord c nopSlot m s).cores[c].r.a[k] = (agModify (agUnit s.cores[c].r s.cores[c].agOld k) mod).1) ∧
      wordFrame s (runWord c nopSlot m s) c [] [] m := by
  obtain ⟨frame, mem, fin⟩ := runWord_spec (a := nopSlot) ready (slotIs_nopSlot m) fits (fun x hx => absurd hx List.not_mem_nil) (fun x hx => by cases hx)
  refine ⟨mem, fin.ldSlot, fun k mod hk moves => ?_, frame⟩
  rw [fin.a]
  exact applyModifies_a _ _ _ apart hk moves

/-! ### Words in the banks -/

theorem units_apart (a b : Fin 4) (ma mb : Modify) : ([((Fin.ofNat 8 a.val : Unit8), ma), (Fin.ofNat 8 (4 + b.val), mb)].map Prod.fst).Nodup := by
  simp only [List.map_cons, List.map_nil, List.nodup_cons, List.mem_singleton, List.not_mem_nil, not_false_eq_true, List.nodup_nil, and_true]
  intro h
  have := Fin.ext_iff.mp h
  rw [show (Fin.ofNat 8 a.val).val = a.val from Nat.mod_eq_of_lt (by omega), show (Fin.ofNat 8 (4 + b.val)).val = 4 + b.val from Nat.mod_eq_of_lt (by omega)] at this
  omega

theorem xyGet_of_mem {t u : State} (h : u.mem = t.mem) (n a : Nat) : xyGet u n a = xyGet t n a := by
  unfold xyGet
  rw [h]

theorem xyGet_xySet_same (n a : Nat) (w : Word) (s : State) : xyGet (xySet n a w s) n a = w := mapGet_mapPut_same ..

theorem xyGet_xySet_other {n a b : Nat} (w : Word) (h : b ≠ a) (s : State) : xyGet (xySet n a w s) n b = xyGet s n b := mapGet_mapPut_other _ _ _ _ (by omega)

theorem xy_xySet_other {n a i : Nat} (w : Word) (h : i ≠ n * 131072 + a) (s : State) : mapGet 0 (xySet n a w s).mem.xy i = mapGet 0 s.mem.xy i := mapGet_mapPut_other _ _ _ _ h

section
variable {r : CoreRegs} {old : List (Nat × Addr)}

theorem mAccess_ldxy {dx dy : DReg} {a b : Fin 4} {ma mb : Modify} {e : Ecc}
    (bank : ∀ x ∈ mAccesses r old (.ldxy dx dy a b ma mb e), addrFault x.1 x.2.1 x.2.2 = none ∧ x.1.toNat < 0x20000) :
    (mAccess c r old (.ldxy dx dy a b ma mb e) s).1 = [⟨dx.val, (xyGet s c.val (agUnit r old (Fin.ofNat 8 a.val)).a.toNat).toNat, false, false⟩,
      ⟨dy.val, (xyGet s c.val (agUnit r old (Fin.ofNat 8 (4 + b.val))).a.toNat).toNat, false, false⟩] := by
  unfold mAccess
  simp only [loadWord_bank c (bank _ (List.mem_cons_self ..)).2, loadWord_bank c (bank _ (List.mem_cons_of_mem _ (List.mem_singleton_self _))).2]

theorem mAccess_stxy {dx dy : DReg} {a b : Fin 4} {ma mb : Modify}
    (bank : ∀ x ∈ mAccesses r old (.stxy dx dy a b ma mb), addrFault x.1 x.2.1 x.2.2 = none ∧ x.1.toNat < 0x20000) :
    (mAccess c r old (.stxy dx dy a b ma mb) s).2 = xySet c.val (agUnit r old (Fin.ofNat 8 (4 + b.val))).a.toNat r.d[dy]
      (xySet c.val (agUnit r old (Fin.ofNat 8 a.val)).a.toNat r.d[dx] s) := by
  unfold mAccess
  simp only [storeWord_bank c _ (bank _ (List.mem_cons_self ..)).2, storeWord_bank c _ (bank _ (List.mem_cons_of_mem _ (List.mem_singleton_self _))).2]

theorem mAccess_ld {t : RCode} {k : Unit8} {mod : Modify} {w : Bool} {e : Ecc}
    (bank : ∀ x ∈ mAccesses r old (.ld t k mod w e), addrFault x.1 x.2.1 x.2.2 = none ∧ x.1.toNat < 0x20000) :
    (mAccess c r old (.ld t k mod w e) s).1 = if w then [⟨t.val, (xyGet s c.val (agUnit r old k).a.toNat).toNat, false, false⟩,
      ⟨t.val + 1, (xyGet s c.val ((agUnit r old k).a.toNat + 1)).toNat, false, false⟩] else [⟨t.val, (xyGet s c.val (agUnit r old k).a.toNat).toNat, false, false⟩] := by
  obtain ⟨sound, low⟩ := bank _ (List.mem_singleton_self _)
  unfold mAccess
  cases w with
  | true => simp only [if_true, loadPair_bank c low sound]; rfl
  | false => simp only [Bool.false_eq_true, if_false, loadWord_bank c low]

theorem mAccess_st {t : RCode} {k : Unit8} {mod : Modify} {w : Bool}
    (bank : ∀ x ∈ mAccesses r old (.st t k mod w), addrFault x.1 x.2.1 x.2.2 = none ∧ x.1.toNat < 0x20000) :
    (mAccess c r old (.st t k mod w) s).2 = if w then xySet c.val ((agUnit r old k).a.toNat + 1) (word (readCode r (t.val + 1)).1)
      (xySet c.val (agUnit r old k).a.toNat (word (readCode r t.val).1) s) else xySet c.val (agUnit r old k).a.toNat (word (readCode r t.val).1) s := by
  obtain ⟨-, low⟩ := bank _ (List.mem_singleton_self _)
  unfold mAccess
  cases w with
  | true => simp only [if_true, storePair_bank c _ _ low]; rfl
  | false => simp only [Bool.false_eq_true, if_false, storeWord_bank c _ low]

end

/-! ### Moves -/

theorem writeCode_d (d : DReg) (v : Nat) (wide : Bool) (r : CoreRegs) : (writeCode d.val v wide r).d[d] = word v := by
  unfold writeCode
  have here : (Fin.ofNat 16 d.val : DReg) = d := Fin.ext (Nat.mod_eq_of_lt d.isLt)
  rw [if_pos d.isLt, here, setD_d, if_pos rfl]

/-- A word of two operations whose M-slot makes no access is ready for its pairing. -/
theorem fits_of_move {k : Core} (own : wordBad nopSlot m = false) (ecc : mEcc m = .good) (still : mAccesses k.r k.agOld m = []) : slotFits [] [] false m k :=
  ⟨fun _ h => absurd h List.not_mem_nil, fun _ h => absurd h List.not_mem_nil, fun h => (by cases h), own, (by rw [ecc]; decide),
    fun _ h => absurd h (by rw [still]; exact List.not_mem_nil)⟩

/-- A word that moves one value into a register code: what is left of the core and of the rest. -/
structure movedCode (c : CoreId) (code v : Nat) (wide : Bool) (s u : State) : Prop where
  only : coreOnly c [] s u
  fin : finishesWord s.cores[c].pc [] { s.cores[c] with r := writeCode code v wide s.cores[c].r } u.cores[c]

theorem moveWord_spec (ready : coreReady s.cores[c]) (own : wordBad nopSlot m = false) (ecc : mEcc m = .good) (still : mAccesses s.cores[c].r s.cores[c].agOld m = [])
    (silent : mAccess c s.cores[c].r s.cores[c].agOld m s = ([], s)) (fixed : mModifies m = []) {code v : Nat} {wide : Bool}
    (moves : mMoves s.cores[c].r m = [(code, v, wide)]) : movedCode c code v wide s (runWord c nopSlot m s) := by
  rw [runWord_fits ready (slotIs_nopSlot m) (fits_of_move own ecc still)]
  obtain ⟨-, -, hl, hf, plain⟩ := ready
  obtain ⟨only, core⟩ := doWord_spec (as := []) c nopSlot m s (by rw [ecc]; decide) (fun h => by rw [ecc] at h; cases h) plain (by rw [silent])
  rw [silent] at only core
  have regs : wordRegs nopSlot m s.cores[c].r s.cores[c].agOld = writeCode code v wide s.cores[c].r := by
    unfold wordRegs
    rw [fixed, moves, nop_apply]
    rfl
  have fin := advancedCore_finishesWord s.cores[c].pc s.cores[c].loopOld s.cores[c].r (mMoves s.cores[c].r m) []
    (k := { s.cores[c] with r := wordRegs nopSlot m s.cores[c].r s.cores[c].agOld }) hl hf
  rw [← core, regs] at fin
  exact ⟨only, fin⟩

theorem moveLong_spec (ready : coreReady s.cores[c]) (r : RCode) (imm : BitVec 24) : movedCode c r.val imm.toNat true s (moveLong c r imm s) := by
  obtain ⟨takes, annul, hl, hf, plain⟩ := ready
  unfold moveLong
  rw [guardWord_of_ready _ takes annul hf]
  dsimp only
  obtain ⟨only, core⟩ := retire_spec c s.cores[c].pc s.cores[c].loopOld s.cores[c] 1 [] s.cores[c].r [(r.val, imm.toNat, true)] []
    (k1 := { s.cores[c] with r := writeCode r.val imm.toNat true s.cores[c].r }) plain s
  refine ⟨only, ?_⟩
  rw [core]
  exact advancedCore_finishesWord _ _ _ _ [] hl hf

/-- What a move leaves (R340): the register code it writes, and no flag. -/
theorem movedCode.result {code v : Nat} {wide : Bool} {u : State} (h : movedCode c code v wide s u) (lt : code < 63) :
    u.mem = s.mem ∧ flagsSame s.cores[c].r.st u.cores[c].r.st ∧
      (let x := writeCode code v wide s.cores[c].r
       u.cores[c].r.d = x.d ∧ u.cores[c].r.a = x.a ∧ u.cores[c].r.m = x.m ∧ u.cores[c].r.b = x.b ∧ u.cores[c].r.l = x.l ∧ u.cores[c].r.ac = x.ac) ∧
      (∀ k : CoreId, k ≠ c → u.cores[k] = s.cores[k]) ∧ sameBut [.regs, .held, .cores, .pg, .bv, .pc] s u ∧ regsButEvents [] s u := by
  obtain ⟨only, fin⟩ := h
  have flags := fin.flags
  have st := (writeCode_writesOnly v wide s.cores[c].r (Nat.lt_succ_of_lt lt)).st (Nat.ne_of_lt lt)
  have flags' : flagsSame (writeCode code v wide s.cores[c].r).st u.cores[c].r.st := flags
  rw [st] at flags'
  exact ⟨only.mem, flags', ⟨fin.d, fin.a, fin.m, fin.b, fin.l, fin.ac⟩, only.others, only.parts, regsButEvents_of_touches only.regs⟩

/-- Settles O22: the accesses in the banks by `nopWord`, the moves by `movedCode.result`. -/
theorem coreMovesAndBankAccesses : Obligations.CoreMovesAndBankAccesses := by
  unfold Obligations.CoreMovesAndBankAccesses
  intro s c ready
  refine ⟨fun dx dy a b ma mb _ fits => ?_, fun dx dy a b ma mb fits => ?_, fun r k mod w fits => ?_, fun r k mod w fits => ?_, fun k mod => ?_, fun dd k sh => ?_,
    fun rd rs i j cmd v wide h63 h => ?_⟩
  · obtain ⟨-, loads, pointers, frame⟩ := nopWord ready fits (units_apart a b ma mb)
    exact ⟨_, rfl, loads.trans (mAccess_ldxy fits.access), pointers _ _ (List.mem_cons_self ..), pointers _ _ (List.mem_cons_of_mem _ (List.mem_singleton_self _)), frame⟩
  · obtain ⟨mem, -, -, frame⟩ := nopWord ready fits (units_apart a b ma mb)
    rw [mAccess_stxy fits.access] at mem
    refine ⟨_, rfl, ?_, fun apart => ?_, fun n hx hy => ?_, ?_, frame⟩
    · rw [xyGet_of_mem mem, xyGet_xySet_same]
    · rw [xyGet_of_mem mem, xyGet_xySet_other _ (fun h => apart (BitVec.eq_of_toNat_eq h)), xyGet_xySet_same]
    · rw [mem, xy_xySet_other _ hy, xy_xySet_other _ hx]
    · rw [mem]; rfl
  · obtain ⟨-, loads, pointers, frame⟩ := nopWord ready fits (by simp [mModifies])
    rw [mAccess_ld fits.access] at loads
    exact ⟨_, rfl, fun h => by rw [loads, h]; rfl, fun h => by rw [loads, h]; rfl, pointers _ _ (List.mem_singleton_self _), frame⟩
  · obtain ⟨mem, -, pointers, frame⟩ := nopWord ready fits (by simp [mModifies])
    rw [mAccess_st fits.access] at mem
    cases w with
    | true =>
      rw [if_pos rfl] at mem
      refine ⟨_, rfl, ?_, fun _ => ?_, fun n hn hn' => ?_, pointers _ _ (List.mem_singleton_self _), (by rw [mem]; rfl), frame⟩
      · rw [xyGet_of_mem mem, xyGet_xySet_other _ (by omega), xyGet_xySet_same]
      · rw [xyGet_of_mem mem, xyGet_xySet_same]
      · rw [mem, xy_xySet_other _ (fun h => hn' rfl (h.trans (Nat.add_assoc ..).symm)), xy_xySet_other _ hn]
    | false =>
      rw [if_neg (by decide)] at mem
      refine ⟨_, rfl, ?_, fun h => (by cases h), fun n hn _ => ?_, pointers _ _ (List.mem_singleton_self _), (by rw [mem]; rfl), frame⟩
      · rw [xyGet_of_mem mem, xyGet_xySet_same]
      · rw [mem, xy_xySet_other _ hn]
  · obtain ⟨-, -, pointers, frame⟩ := nopWord (m := .moda k mod) ready (fits_of_move rfl rfl rfl) (by simp [mModifies])
    exact ⟨_, rfl, pointers _ _ (List.mem_singleton_self _), frame⟩
  · obtain ⟨-, -, -, frame⟩ := nopWord (m := .movf dd k sh) ready (fits_of_move rfl rfl rfl) List.nodup_nil
    have moved := moveWord_spec (m := .movf dd k sh) ready rfl rfl rfl rfl rfl rfl
    obtain ⟨-, flags, ⟨d, -⟩, -⟩ := moved.result (by omega)
    refine ⟨_, rfl, ?_, flags, frame⟩
    rw [d, writeCode_d, word, BitVec.ofNat_toNat, BitVec.setWidth_eq]
  · have lt : rd.val < 63 := by have := rd.isLt; omega
    rcases h with ⟨rfl, e⟩ | ⟨rfl, e, rfl⟩ | ⟨rfl, rfl, rfl⟩
    · have moved := moveWord_spec (m := .mov rd rs) (code := rd.val) (v := v) (wide := wide) ready rfl rfl rfl rfl rfl ?_
      · exact ⟨_, rfl, moved.result lt⟩
      · show [(rd.val, (readCode s.cores[c].r rs.val).1, (readCode s.cores[c].r rs.val).2)] = _
        rw [← e]
    · have wrapped : wrapN 24 i.toInt = v := by unfold wrapN; rw [← e]; exact Int.toNat_natCast v
      have moved := moveWord_spec (m := .movi rd i) (code := rd.val) (v := v) (wide := true) ready rfl rfl rfl rfl rfl (by rw [← wrapped]; rfl)
      exact ⟨_, rfl, moved.result lt⟩
    · exact ⟨_, rfl, (moveLong_spec ready rd j).result lt⟩

end Sys2Proof.Machine
end

