-- ==== Sys2Proof/Proofs/CoreWidths.lean ====
section
/-! PROOFS. Values between registers of different widths (12 R339, R340). -/

namespace Sys2Proof.Machine

variable {r : CoreRegs} {v : Nat} {wide : Bool}

theorem vector_set_at {α : Type} {n : Nat} (x : Vector α n) {i j : Fin n} (y : α) (h : i = j) : (x.set i y)[j] = y := by
  subst h
  exact Vector.getElem_set_self i.isLt

/-- The value that a 24-bit register takes is the whole value: one from a 20-bit source fits in 20 bits. -/
theorem wide_value (fits : wide = false → v < 2 ^ 20) : (if wide then v else v % 2 ^ 20) = v := by
  cases wide with
  | true => rfl
  | false => exact Nat.mod_eq_of_lt (fits rfl)

theorem fin8_of (k : Fin 8) (b : Nat) : (Fin.ofNat 8 (b + k.val - b) : Fin 8) = k := by
  rw [Nat.add_sub_cancel_left]
  exact Fin.ext (Nat.mod_eq_of_lt k.isLt)

theorem fin3_of (l : Fin 3) (b : Nat) : (Fin.ofNat 3 (b + l.val - b) : Fin 3) = l := by
  rw [Nat.add_sub_cancel_left]
  exact Fin.ext (Nat.mod_eq_of_lt l.isLt)

theorem writeCode_a (k : Fin 8) (fits : wide = false → v < 2 ^ 20) : (writeCode (16 + k.val) v wide r).a[k] = BitVec.ofNat 24 v := by
  unfold writeCode
  rw [if_neg (by omega), if_pos (by omega), fin8_of, wide_value fits, setA_a, if_pos rfl]

theorem writeCode_b (k : Fin 8) (fits : wide = false → v < 2 ^ 20) : (writeCode (32 + k.val) v wide r).b[k] = BitVec.ofNat 24 v := by
  unfold writeCode
  rw [if_neg (by omega), if_neg (by omega), if_neg (by omega), if_pos (by omega), wide_value fits]
  exact vector_set_at _ _ (fin8_of k _)

theorem writeCode_l (k : Fin 8) (fits : wide = false → v < 2 ^ 20) : (writeCode (40 + k.val) v wide r).l[k] = BitVec.ofNat 24 v := by
  unfold writeCode
  rw [if_neg (by omega), if_neg (by omega), if_neg (by omega), if_neg (by omega), if_pos (by omega), wide_value fits]
  exact vector_set_at _ _ (fin8_of k _)

theorem sext_20 (v : Nat) : sext 20 v = (BitVec.ofNat 20 v).toInt := by
  unfold sext
  rw [BitVec.toInt_eq_toNat_cond, BitVec.toNat_ofNat]
  split <;> split <;> omega

theorem writeCode_m (k : Fin 8) : (writeCode (24 + k.val) v wide r).m[k] = (if wide then BitVec.ofNat 24 v else (BitVec.ofNat 20 v).signExtend 24) := by
  unfold writeCode
  rw [if_neg (by omega), if_neg (by omega), if_pos (by omega)]
  refine (vector_set_at _ _ (fin8_of k _)).trans ?_
  cases wide with
  | true => rfl
  | false =>
    show BitVec.ofInt 24 (sext 20 v) = _
    rw [sext_20]
    rfl

/-- A part of an accumulator written by its code. -/
theorem writeCode_part (a : AcId) {part : Nat} (hp : part < 3) :
    (writeCode (48 + 3 * a.val + part) v wide r).ac[a] = accPutPart r.ac[a] part (v % 2 ^ 20) := by
  have here : (Fin.ofNat 2 ((48 + 3 * a.val + part - 48) / 3) : Fin 2) = a := by
    have : (48 + 3 * a.val + part - 48) / 3 = a.val := by omega
    rw [this]
    exact Fin.ext (Nat.mod_eq_of_lt a.isLt)
  have which : (48 + 3 * a.val + part - 48) % 3 = part := by omega
  unfold writeCode
  rw [if_neg (by omega), if_neg (by omega), if_neg (by omega), if_neg (by omega), if_neg (by omega), if_pos (by omega)]
  have put : ∀ k : AcId, k = a → ∀ p, p = part → (setAc k (accPutPart r.ac[k] p (v % 2 ^ 20)) r).ac[a] = accPutPart r.ac[a] part (v % 2 ^ 20) := by
    rintro k rfl p rfl
    rw [setAc_ac, if_pos rfl]
  exact put _ here _ which

theorem accPutPart_high (a : Acc) (v : Nat) : accPutPart a 1 (v % 2 ^ 20) = ((BitVec.ofNat 20 v).signExtend 28) ++ (0 : BitVec 20) := by
  have same : BitVec.ofNat 20 (v % 2 ^ 20) = BitVec.ofNat 20 v := BitVec.eq_of_toNat_eq (by rw [BitVec.toNat_ofNat, BitVec.toNat_ofNat, Nat.mod_mod])
  show BitVec.ofInt 48 (sext 20 (v % 2 ^ 20) * 2 ^ 20) = BitVec.ofInt 28 (BitVec.ofNat 20 v).toInt ++ 0#20
  rw [sext_20, same]
  generalize (BitVec.ofNat 20 v).toInt = x
  apply BitVec.eq_of_toNat_eq
  rw [BitVec.toNat_append, BitVec.toNat_ofInt, BitVec.toNat_ofInt, BitVec.toNat_ofNat, Nat.zero_mod, Nat.or_zero, Nat.shiftLeft_eq]
  have shifted : x * 2 ^ 20 % 2 ^ 48 = x % 2 ^ 28 * 2 ^ 20 := by
    rw [Int.mul_comm, Int.mul_comm (x % 2 ^ 28), ← Int.mul_emod_mul_of_pos x (2 ^ 28) (show (0 : Int) < 2 ^ 20 by norm_num)]
    norm_num
  norm_num at shifted ⊢
  omega

theorem accPutPart_low (a : Acc) (v : Nat) : accPutPart a 2 (v % 2 ^ 20) = (a.extractLsb' 20 28) ++ (BitVec.ofNat 20 v) := by
  apply BitVec.eq_of_toNat_eq
  show (BitVec.ofNat 48 (a.toNat / 2 ^ 20 * 2 ^ 20 + v % 2 ^ 20 % 2 ^ 20)).toNat = _
  have := a.isLt
  rw [BitVec.toNat_append, BitVec.extractLsb'_toNat, BitVec.toNat_ofNat, BitVec.toNat_ofNat, Nat.shiftRight_eq_div_pow,
    ← Nat.shiftLeft_add_eq_or_of_lt (Nat.mod_lt _ (by decide)), Nat.shiftLeft_eq]
  omega

theorem accPutPart_guard (a : Acc) (v : Nat) : accPutPart a 0 (v % 2 ^ 20) = (BitVec.ofNat 8 v) ++ (a.extractLsb' 0 40) := by
  apply BitVec.eq_of_toNat_eq
  show (BitVec.ofNat 48 (v % 2 ^ 20 % 256 * 2 ^ 40 + a.toNat % 2 ^ 40)).toNat = _
  rw [BitVec.toNat_append, BitVec.extractLsb'_toNat, BitVec.toNat_ofNat, BitVec.toNat_ofNat, Nat.shiftRight_zero,
    ← Nat.shiftLeft_add_eq_or_of_lt (Nat.mod_lt _ (by decide)), Nat.shiftLeft_eq]
  omega

theorem writeCode_lpc (l : Fin 3) : (writeCode (54 + l.val) v wide r).lpc[l] = word v := by
  unfold writeCode
  rw [if_neg (by omega), if_neg (by omega), if_neg (by omega), if_neg (by omega), if_neg (by omega), if_neg (by omega), if_pos (by omega)]
  exact vector_set_at _ _ (fin3_of l _)

theorem writeCode_lps (l : Fin 3) : (writeCode (57 + l.val) v wide r).lps[l] = BitVec.ofNat 17 v := by
  unfold writeCode
  rw [if_neg (by omega), if_neg (by omega), if_neg (by omega), if_neg (by omega), if_neg (by omega), if_neg (by omega), if_neg (by omega), if_pos (by omega)]
  exact vector_set_at _ _ (fin3_of l _)

theorem writeCode_lpe (l : Fin 3) : (writeCode (60 + l.val) v wide r).lpe[l] = BitVec.ofNat 17 v := by
  unfold writeCode
  rw [if_neg (by omega), if_neg (by omega), if_neg (by omega), if_neg (by omega), if_neg (by omega), if_neg (by omega), if_neg (by omega), if_neg (by omega),
    if_pos (by omega)]
  exact vector_set_at _ _ (fin3_of l _)

/-! ### The status word -/

/-- The bits of a word with a field moved in place. -/
theorem bit_moveFld (w x : Word) {hi lo : Nat} (hl : lo ≤ hi) (hh : hi < 20) (n : Nat) :
    bit (setFld w hi lo (fld x hi lo)) n = if lo ≤ n ∧ n ≤ hi then bit x n else bit w n := by
  rw [bit_eq_testBit, toNat_setFld _ _ hl hh, testBit_natSetFld _ _ hl]
  split
  next h =>
    rw [bit_eq_testBit]
    unfold fld
    rw [Nat.testBit_mod_two_pow, Nat.testBit_div_two_pow, decide_eq_true (by omega), Bool.true_and, Nat.sub_add_cancel h.1]
  · rw [bit_eq_testBit]

theorem bit_setBit_if (w : Word) {b : Nat} (v : Bool) (hb : b < 20) (n : Nat) : bit (setBit w b v) n = if n = b then v else bit w n := by
  split
  next h => rw [h, bit_setBit_same _ _ hb]
  next h => rw [bit_setBit_other _ _ hb h]

/-- A move into ST writes N, Z, V, C, IE, LIP, RND and SAT, clears SV and CIRC_OUT where it writes 0, and leaves the rest (R313). -/
theorem stMove_bit (old w : Word) (n : Fin 20) : bit (stMove old w) n =
    (if n = 19 ∨ n = 18 ∨ n = 17 ∨ n = 16 ∨ n = 11 ∨ n = 7 ∨ n = 6 ∨ n = 5 ∨ n = 2 ∨ n = 1 then bit w n
     else if n = 13 ∨ n = 12 then bit old n && bit w n else bit old n) := by
  unfold stMove
  dsimp only
  rw [bit_setBit_if _ _ (by decide), bit_setBit_if _ _ (by decide), bit_moveFld _ _ (by decide) (by decide), bit_moveFld _ _ (by decide) (by decide),
    bit_moveFld _ _ (by decide) (by decide), bit_moveFld _ _ (by decide) (by decide)]
  fin_cases n <;> rfl

theorem writeCode_st (n : Fin 20) : bit (writeCode 63 v wide r).st n =
    (if n = 19 ∨ n = 18 ∨ n = 17 ∨ n = 16 ∨ n = 11 ∨ n = 7 ∨ n = 6 ∨ n = 5 ∨ n = 2 ∨ n = 1 then v.testBit n
     else if n = 13 ∨ n = 12 then bit r.st n && v.testBit n else bit r.st n) := by
  have value : bit (word v) n = v.testBit n := by
    rw [bit_eq_testBit, toNat_word, Nat.testBit_mod_two_pow, decide_eq_true n.isLt, Bool.true_and]
  rw [show (writeCode 63 v wide r).st = stMove r.st (word v) from rfl, stMove_bit, value]

/-- Settles O23: what `writeCode` leaves in each kind of register. -/
theorem valuesPassBetweenWidths : Obligations.ValuesPassBetweenWidths := by
  unfold Obligations.ValuesPassBetweenWidths
  intro r v wide k a d l _ fits
  refine ⟨writeCode_d d v wide r, writeCode_a k fits, writeCode_m k, writeCode_b k fits, writeCode_l k fits, ?_, ?_, ?_, writeCode_lpc l, writeCode_lps l, writeCode_lpe l,
    writeCode_st⟩
  · rw [show 49 + 3 * a.val = 48 + 3 * a.val + 1 by omega, writeCode_part a (by decide), accPutPart_high]
  · rw [show 50 + 3 * a.val = 48 + 3 * a.val + 2 by omega, writeCode_part a (by decide), accPutPart_low]
  · exact (writeCode_part a (part := 0) (by decide)).trans (accPutPart_guard ..)

end Sys2Proof.Machine
end

