-- ==== Sys2Proof/Proofs/CoreMemory.lean ====
section
/-! PROOFS. Long moves to and from memory, halt and the traffic of the store buffer (12 R350; 11 R310, R316, R334). -/

namespace Sys2Proof.Machine

variable {c : CoreId} {as : List Nat} {s u : State}

/-- The frame of a word that makes no M-slot operation. -/
theorem wordFrame_plain {ds : List DReg} (only : coreOnly c [] s u) (buf : u.cores[c].storeBuf = s.cores[c].storeBuf)
    (d : ∀ e : DReg, e ∉ ds → u.cores[c].r.d[e] = s.cores[c].r.d[e]) (ac : u.cores[c].r.ac = s.cores[c].r.ac) (a : u.cores[c].r.a = s.cores[c].r.a)
    (m : u.cores[c].r.m = s.cores[c].r.m) (b : u.cores[c].r.b = s.cores[c].r.b) (l : u.cores[c].r.l = s.cores[c].r.l)
    (next : s.cores[c].slots = 0 → stDepth s.cores[c].r.st = 0 → u.cores[c].pc = s.cores[c].pc + 1) : wordFrame s u c ds [] .nop :=
  ⟨sameBut_mono (by decide) only.parts, regsButEvents_of_touches (touches_mono only.regs (orEvents_mono (by simp))), fun _ => only.mem, only.others, buf,
    fun e he _ => d e he, fun k _ _ => by rw [ac], fun k _ _ => by rw [a], fun k => ⟨fun _ => by rw [m], fun _ => by rw [b], fun _ => by rw [l]⟩, next⟩

/-- The frame of a word that finishes with the registers it met. -/
theorem wordFrame_finished {lds : List Load} (only : coreOnly c [] s u) (fin : finishesWord s.cores[c].pc lds s.cores[c] u.cores[c]) : wordFrame s u c [] [] .nop :=
  wordFrame_plain only fin.storeBuf (fun e _ => by rw [fin.d]) fin.ac fin.a fin.m fin.b fin.l fin.next

/-! ### Long moves -/

/-- A sound long load from a place that it reads without effect. -/
theorem loadLong_spec (ready : coreReady s.cores[c]) (r : RCode) {a : Addr} {v : Word} {far : Bool} {s1 : State} (sound : addrFault a false false = none)
    (load : loadWord c a s = ((v, far), s1)) (event : onlyEvents s s1) :
    (loadLong c r a .good s).cores[c].ldSlot = [⟨r.val, v.toNat, false, far⟩] ∧ wordFrame s (loadLong c r a .good s) c [] [] .nop := by
  obtain ⟨takes, annul, hl, hf, plain⟩ := ready
  have cores : s1.cores = s.cores := event.parts.cores (by decide)
  have e : ∃ evs, loadLong c r a .good s = advanceCore c s.cores[c].pc s.cores[c].loopOld
      (countWord c s.cores[c] 1 evs (setCore c (retireWord s.cores[c].r [] [⟨r.val, v.toNat, false, far⟩] s1.cores[c]) s1)) := by
    unfold loadLong
    rw [guardWord_of_ready _ takes annul hf]
    simp only [sound, load]
    exact ⟨_, rfl⟩
  obtain ⟨evs, e⟩ := e
  rw [cores] at e
  obtain ⟨only, core⟩ := retire_spec c s.cores[c].pc s.cores[c].loopOld s.cores[c] 1 evs s.cores[c].r [] [⟨r.val, v.toNat, false, far⟩] plain s1
  rw [← e] at only core
  have fin := advancedCore_finishesWord s.cores[c].pc s.cores[c].loopOld s.cores[c].r [] [⟨r.val, v.toNat, false, far⟩] hl hf
  rw [← core] at fin
  exact ⟨fin.ldSlot, wordFrame_finished (coreOnly_trans (coreOnly_events event) only) fin⟩

/-- A sound long store, past its effect on memory or on the buffer. -/
theorem storeLong_spec (ready : coreReady s.cores[c]) (r : RCode) {a : Addr} (sound : addrFault a true false = none) {k : Core} {s1 : State}
    (store : storeWord c a (word (readCode s.cores[c].r r.val).1) s = s1) (core1 : s1.cores[c] = { s.cores[c] with storeBuf := k.storeBuf }) :
    coreOnly c [] s1 (storeLong c r a s) ∧ (storeLong c r a s).cores[c].storeBuf = k.storeBuf ∧ (storeLong c r a s).cores[c].r.d = s.cores[c].r.d ∧
      (storeLong c r a s).cores[c].r.a = s.cores[c].r.a := by
  obtain ⟨takes, annul, hl, hf, plain⟩ := ready
  have e : ∃ evs, storeLong c r a s = advanceCore c s.cores[c].pc s.cores[c].loopOld
      (countWord c s.cores[c] 1 evs (setCore c (retireWord s.cores[c].r [] [] s1.cores[c]) s1)) := by
    unfold storeLong
    rw [guardWord_of_ready _ takes annul hf]
    simp only [sound, store]
    exact ⟨_, rfl⟩
  obtain ⟨evs, e⟩ := e
  rw [core1] at e
  obtain ⟨only, core⟩ := retire_spec c s.cores[c].pc s.cores[c].loopOld s.cores[c] 1 evs s.cores[c].r [] [] (k1 := { s.cores[c] with storeBuf := k.storeBuf }) plain s1
  rw [← e] at only core
  have fin := advancedCore_finishesWord s.cores[c].pc s.cores[c].loopOld s.cores[c].r [] [] (k := { s.cores[c] with storeBuf := k.storeBuf }) hl hf
  rw [← core] at fin
  exact ⟨only, fin.storeBuf, fin.d, fin.a⟩

theorem addrFault_low {a : Addr} (h : a.toNat < 0x20000) (w : Bool) : addrFault a w false = none := by
  unfold addrFault
  simp [h]

theorem addrFault_shared {a : Addr} (h : 0x100000 ≤ a.toNat) (h' : a.toNat < 0x200000) (w : Bool) : addrFault a w false = none := by
  unfold addrFault
  simp only [Bool.false_and, Bool.false_eq_true, if_false]
  rw [if_neg (by omega), if_neg (by omega), if_pos h']

theorem drainAll_empty (h : s.cores[c].storeBuf = []) : drainAll c s = s := by
  have one : drainOne c s = s := by unfold drainOne; rw [h]
  unfold drainAll
  rw [one, one, one, one]

theorem loadWord_shared {a : Addr} (h : 0x100000 ≤ a.toNat) (h' : a.toNat < 0x200000) (empty : s.cores[c].storeBuf = []) :
    loadWord c a s = ((sharedGet s (a.toNat - 0x100000), true), pcSys 0x5B 1 s) := by
  unfold loadWord
  simp only [drainAll_empty empty]
  rw [if_neg (by omega), if_pos h']

/-- A store to shared memory with room in the buffer. -/
theorem storeWord_shared {a : Addr} (v : Word) (h : 0x100000 ≤ a.toNat) (h' : a.toNat < 0x200000) (room : s.cores[c].storeBuf.length < 4) :
    storeWord c a v s = setCore c { s.cores[c] with storeBuf := s.cores[c].storeBuf ++ [⟨a.toNat, v, none⟩] } s := by
  unfold storeWord
  rw [if_neg (by omega)]
  unfold bufferStore
  have noPost : isPostReg a.toNat = false := by unfold isPostReg; simp; omega
  simp only [noPost, Bool.false_eq_true, if_false]
  rw [if_neg (by omega)]

/-! ### A second fault -/

theorem coreFaultRecord_parts (c : CoreId) (code addr : Nat) (s : State) :
    sameBut [.freeCtr, .sys, .regs, .held, .pg, .bv, .pc] s (coreFaultRecord c code addr s) :=
  (coreFaultRecord_keeps (L := [.freeCtr, .sys, .regs, .held, .pg, .bv, .pc]) c code addr (by decide) (keeps_refl _ s)).parts

/-- A fault with FLT = 1 halts its core (R331). -/
theorem coreFault_second (code addr : Nat) (flt : bit s.cores[c].r.st 0 = true) : coreFault c code addr s =
    setCore c { s.cores[c] with halted := true, waiting := false, dflt := true } (coreFaultRecord c code addr s) := by
  have cores : (coreFaultRecord c code addr s).cores = s.cores := (coreFaultRecord_parts c code addr s).cores (by decide)
  unfold coreFault
  generalize coreFaultRecord c code addr s = s1 at cores
  simp only
  rw [if_pos (by rw [cores]; exact flt)]
  unfold haltCore
  rw [setCore_same, setCore_setCore, cores]

theorem coreFault_halts (code addr : Nat) (flt : bit s.cores[c].r.st 0 = true) :
    (coreFault c code addr s).cores[c] = { s.cores[c] with halted := true, waiting := false, dflt := true } ∧ (coreFault c code addr s).mem = s.mem ∧
      (∀ k : CoreId, k ≠ c → (coreFault c code addr s).cores[k] = s.cores[k]) ∧ (coreFault c code addr s).regs = (coreFaultRecord c code addr s).regs := by
  have parts := coreFaultRecord_parts c code addr s
  rw [coreFault_second code addr flt]
  generalize coreFaultRecord c code addr s = s1 at parts ⊢
  exact ⟨setCore_same .., parts.mem (by decide), fun k hk => by rw [setCore_other hk, parts.cores (by decide)], rfl⟩

/-! ### The store buffer -/

theorem sharedSet_parts (a : Nat) (w : Word) (s : State) : sameBut [.mem] s (sharedSet a w s) := (sharedSet_keeps a w (by decide) (keeps_refl _ s)).parts

theorem sharedGet_of_mem {t u : State} (h : u.mem = t.mem) (a : Nat) : sharedGet u a = sharedGet t a := by
  unfold sharedGet
  rw [h]

/-- The oldest store of a buffer reaches shared memory (R316). -/
theorem drain_spec (s : State) (c : CoreId) (e : BufStore) (es : List BufStore) (buf : s.cores[c].storeBuf = e :: es) (low : 0x100000 ≤ e.addr) (high : e.addr < 0x1FFFFF) :
    ∃ u, exec (.storeBufferDrain c) s = .next u ∧ u.cores[c] = { s.cores[c] with storeBuf := es } ∧
      sharedGet u (e.addr - 0x100000) = e.value ∧ (∀ lo, e.second = some lo → sharedGet u (e.addr + 1 - 0x100000) = lo) ∧
      (∀ n, n ≠ e.addr - 0x100000 → (e.second.isSome = true → n ≠ e.addr + 1 - 0x100000) → sharedGet u n = sharedGet s n) ∧
      (∀ k : CoreId, k ≠ c → u.cores[k] = s.cores[k]) ∧ u.mem = { s.mem with shared := u.mem.shared } ∧
      sameBut [.regs, .held, .mem, .cores, .pg, .bv, .pc] s u ∧ regsButEvents [] s u := by
  let s1 := setCore c { s.cores[c] with storeBuf := es } s
  have run : drainOne c s = storeOut c e s1 := by unfold drainOne; rw [buf]
  have parts1 : sameBut [.cores] s s1 := setCore_parts _ _ _
  have core1 : s1.cores[c] = { s.cores[c] with storeBuf := es } := setCore_same ..
  have others1 : ∀ k : CoreId, k ≠ c → s1.cores[k] = s.cores[k] := fun k hk => setCore_other hk _ s
  have mem1 : s1.mem = s.mem := rfl
  clear_value s1
  have finish : ∀ m n, sameBut [.mem] s1 m → sameBut [.regs, .held, .mem, .cores, .pg, .bv, .pc] s (pcSys 0x5B n m) ∧ regsButEvents [] s (pcSys 0x5B n m) ∧
      (pcSys 0x5B n m).mem = m.mem ∧ (pcSys 0x5B n m).cores = s1.cores := fun m n h => by
    have event := pcSys_onlyEvents 0x5B n (onlyEvents_refl m)
    refine ⟨sameBut_trans (sameBut_mono (by decide) parts1) (sameBut_trans (sameBut_mono (by decide) h) (sameBut_mono (by decide) event.parts)),
      regsButEvents_of_touches (touches_events (touches_sameBut (touches_of_sameBut parts1 (by decide) (by decide)) h (by decide) (by decide)) event),
      event.parts.mem (by decide), ?_⟩
    rw [event.parts.cores (by decide), h.cores (by decide)]
  cases sec : e.second with
  | none =>
    have out : storeOut c e s1 = pcSys 0x5B 1 (sharedSet (e.addr - 0x100000) e.value s1) := by
      unfold storeOut
      rw [if_pos (by omega), sec]
    obtain ⟨parts, regs, mem, cores⟩ := finish _ 1 (sharedSet_parts (e.addr - 0x100000) e.value s1)
    rw [← out] at parts regs mem cores
    refine ⟨_, congrArg Host.Outcome.next run, by rw [cores]; exact core1, ?_, fun lo h => (by cases h), fun n hn _ => ?_, fun k hk => by rw [cores]; exact others1 k hk, ?_, parts, regs⟩
    · rw [sharedGet_of_mem mem, sharedGet_sharedSet, if_pos rfl]
    · rw [sharedGet_of_mem mem, sharedGet_sharedSet, if_neg hn, sharedGet_of_mem mem1]
    · rw [mem, ← mem1]; rfl
  | some lo =>
    have out : storeOut c e s1 = pcSys 0x5B 2 (sharedSet (e.addr + 1 - 0x100000) lo (sharedSet (e.addr - 0x100000) e.value s1)) := by
      unfold storeOut
      rw [if_pos (by omega), sec]
    obtain ⟨parts, regs, mem, cores⟩ := finish _ 2 (sameBut_trans (sharedSet_parts (e.addr - 0x100000) e.value s1) (sharedSet_parts (e.addr + 1 - 0x100000) lo _))
    rw [← out] at parts regs mem cores
    refine ⟨_, congrArg Host.Outcome.next run, by rw [cores]; exact core1, ?_, fun l h => ?_, fun n hn hn' => ?_, fun k hk => by rw [cores]; exact others1 k hk, ?_, parts, regs⟩
    · rw [sharedGet_of_mem mem, sharedGet_sharedSet, if_neg (by omega), sharedGet_sharedSet, if_pos rfl]
    · cases h
      rw [sharedGet_of_mem mem, sharedGet_sharedSet, if_pos rfl]
    · rw [sharedGet_of_mem mem, sharedGet_sharedSet, if_neg (hn' rfl), sharedGet_sharedSet, if_neg hn, sharedGet_of_mem mem1]
    · rw [mem, ← mem1]; rfl

theorem halt_spec (s : State) (c : CoreId) (who : Requester) (open_ : who ∈ s.sys.unlocked) :
    ∃ u, exec (.halt who c) s = .next u ∧ u.cores[c] = { s.cores[c] with halted := true, waiting := false } ∧
      who ∉ u.sys.unlocked ∧ (∀ k : CoreId, k ≠ c → u.cores[k] = s.cores[k]) ∧ sameBut [.sys, .cores] s u := by
  have run : kWrite who (scBase c) (haltCore c) s = haltCore c (armLock who s) := kWrite_unlocked open_ _ _
  have locked := armLock_locked who s
  have parts := armLock_sameBut who s
  generalize armLock who s = s1 at run locked parts
  refine ⟨_, congrArg Host.Outcome.next run, ?_, locked, fun k hk => ?_, sameBut_trans (sameBut_mono (by decide) parts) (sameBut_mono (by decide) (setCore_parts c _ s1))⟩
  · unfold haltCore
    rw [setCore_same, parts.cores (by decide)]
  · unfold haltCore
    rw [setCore_other hk, parts.cores (by decide)]

/-- Settles O24: long moves by `loadLong_spec` and `storeLong_spec`, the traffic by `drain_spec`. -/
theorem coreLongMovesAndMemoryTraffic : Obligations.CoreLongMovesAndMemoryTraffic := by
  unfold Obligations.CoreLongMovesAndMemoryTraffic
  refine ⟨fun s c r a ready => ⟨fun low => ?_, fun low high empty => ?_, fun low => ?_, fun low high room => ?_, fun gap flt => ?_⟩,
    fun s c => ⟨fun who => halt_spec s c who, drain_spec s c, _, rfl, ?_, ?_, ?_, ?_, fun k hk => setCore_other hk _ s, setCore_parts _ _ _⟩⟩
  · exact ⟨_, rfl, loadLong_spec ready r (addrFault_low low false) (loadWord_bank c low s) (onlyEvents_refl s)⟩
  · exact ⟨_, rfl, loadLong_spec ready r (addrFault_shared low high false) (loadWord_shared low high empty) (pcSys_onlyEvents _ _ (onlyEvents_refl s))⟩
  · obtain ⟨only, buf, d, p⟩ := storeLong_spec (k := s.cores[c]) ready r (addrFault_low low true) (storeWord_bank c _ low s) rfl
    have parts := xySet_parts c.val a.toNat (word (readCode s.cores[c].r r.val).1) s
    refine ⟨_, rfl, ?_, fun n hn => ?_, ?_, buf, d, p, only.others, sameBut_trans (sameBut_mono (by decide) parts) (sameBut_mono (by decide) only.parts),
      regsButEvents_of_touches (touches_trans (touches_of_sameBut parts (by decide) (by decide)) only.regs)⟩
    · rw [xyGet_of_mem only.mem, xyGet_xySet_same]
    · rw [only.mem, xy_xySet_other _ hn]
    · rw [only.mem]; rfl
  · have buffered := storeWord_shared (word (readCode s.cores[c].r r.val).1) low high room
    obtain ⟨only, buf, d, p⟩ := storeLong_spec (k := { s.cores[c] with storeBuf := s.cores[c].storeBuf ++ [⟨a.toNat, word (readCode s.cores[c].r r.val).1, none⟩] }) ready r
      (addrFault_shared low high true) buffered (setCore_same ..)
    have all : coreOnly c [] s (storeLong c r a s) := coreOnly_trans (coreOnly_setCore _ s) only
    exact ⟨_, rfl, buf, d, p, all.others, all.parts, regsButEvents_of_touches all.regs⟩
  · obtain ⟨takes, annul, -, hf, -⟩ := ready
    have bad : addrFault a true false = some 2 := by
      unfold addrFault
      simp only [Bool.false_and, Bool.false_eq_true, if_false]
      rcases gap with ⟨h, h'⟩ | ⟨h, h'⟩
      · rw [if_neg (by omega), if_pos (by omega)]
      · rw [if_neg (by omega), if_neg (by omega), if_neg (by omega), if_neg (by omega), if_pos (by omega)]
    have e : storeLong c r a s = coreFault c 2 a.toNat s := by
      unfold storeLong
      rw [guardWord_of_ready _ takes annul hf]
      simp only [bad]
    obtain ⟨core, mem, -, -⟩ := coreFault_halts 2 a.toNat flt
    refine ⟨_, congrArg Host.Outcome.next e, by rw [core], by rw [core], mem, by rw [core]⟩
  · show (setCore c (landFlights s.cores[c]) s).cores[c].inFlight = []
    rw [setCore_same]; rfl
  · show (setCore c (landFlights s.cores[c]) s).cores[c].r = _
    rw [setCore_same]; rfl
  · show (setCore c (landFlights s.cores[c]) s).cores[c].ldSlot = _
    rw [setCore_same]; rfl
  · show (setCore c (landFlights s.cores[c]) s).cores[c].pc = _
    rw [setCore_same]; rfl

end Sys2Proof.Machine
end

