-- ==== Sys2Proof/Proofs/CoreBranches.lean ====
section
/-! PROOFS. Branches and their delay slots (11 R319; 12 R358, R359). -/

namespace Sys2Proof.Machine

variable {c : CoreId} {s u : State}

/-- A branch-type word outside delay slots and body ends is run. -/
theorem branchWord_of_ready (f : State → State) (ready : coreReady s.cores[c]) (straight : s.cores[c].after = .none) (inside : atBodyEnd s.cores[c] = false) :
    branchWord c f s = f s := by
  obtain ⟨takes, annul, -, hf, -⟩ := ready
  unfold branchWord
  rw [guardWord_of_ready _ takes annul hf]
  simp only [straight, inside, Bool.false_eq_true, if_false]

/-- What a branch at k writes into its core: its return address where it links and is taken. -/
def linkCore (cond : Cond) (link : Option DReg) (k k1 : Core) : Core :=
  { k1 with r := match link with
      | some d => if condHolds cond k.r.st then setD d (word (k.pc + 3).toNat) k1.r else k1.r
      | none => k1.r }

/-- The delay slots that a branch opens. -/
def branched (cond : Cond) (anl : Bool) (target : BitVec 17) (st : Word) (k : Core) : Core :=
  if condHolds cond st then { k with slots := 2, annul := 0, after := .jump target } else if anl then { k with slots := 2, annul := 2, after := .none } else k

def branchEvents (taken anl : Bool) : List (Nat × Nat × Nat) := if taken then [(7, 1, 1)] else if anl then [(8, 1, 1)] else []

theorem takeBranch_eq (cond : Cond) (anl : Bool) (target : BitVec 17) (link : Option DReg) (s : State) : takeBranch c cond anl target link s =
    (let s1 := plainStep c 1 (branchEvents (condHolds cond s.cores[c].r.st) anl) (linkCore cond link s.cores[c]) s
     setCore c (branched cond anl target s.cores[c].r.st s1.cores[c]) s1) := by
  have e : takeBranch c cond anl target link s =
    (let s1 := plainStep c 1 (branchEvents (condHolds cond s.cores[c].r.st) anl) (linkCore cond link s.cores[c]) s
     if condHolds cond s.cores[c].r.st then setCore c { s1.cores[c] with slots := 2, annul := 0, after := .jump target } s1
     else if anl then setCore c { s1.cores[c] with slots := 2, annul := 2, after := .none } s1 else s1) := rfl
  rw [e]
  unfold branched
  generalize plainStep c 1 _ (linkCore cond link s.cores[c]) s = s1
  simp only
  split
  · rfl
  · split
    · rfl
    · exact (setCore_self c s1).symm

structure linksOnly (taken : Bool) (link : Option DReg) (ret : Word) (r r' : CoreRegs) : Prop where
  rest : r' = { r with d := r'.d }
  kept : taken = false → r'.d = r.d
  other : ∀ e : DReg, e ∉ link.toList → r'.d[e] = r.d[e]
  ret : taken = true → ∀ d, link = some d → r'.d[d] = ret

theorem linkCore_linksOnly (cond : Cond) (link : Option DReg) (k : Core) :
    linksOnly (condHolds cond k.r.st) link (word (k.pc + 3).toNat) k.r (linkCore cond link k k).r := by
  cases link with
  | none => exact ⟨rfl, fun _ => rfl, fun _ _ => rfl, fun _ _ h => by cases h⟩
  | some d =>
    cases taken : condHolds cond k.r.st with
    | true =>
      have e : (linkCore cond (some d) k k).r = setD d (word (k.pc + 3).toNat) k.r := if_pos taken
      rw [e]
      refine ⟨rfl, fun h => (by cases h), fun x hx => ?_, fun _ x hx => ?_⟩
      · rw [setD_d, if_neg fun h => hx (by rw [h]; exact List.mem_singleton_self _)]
      · cases hx
        rw [setD_d, if_pos rfl]
    | false =>
      have e : (linkCore cond (some d) k k).r = k.r := if_neg (by rw [taken]; decide)
      rw [e]
      exact ⟨rfl, fun _ => rfl, fun _ _ => rfl, fun h => by cases h⟩

/-- What a branch leaves (R319, R359). -/
theorem takeBranch_spec (cond : Cond) (anl : Bool) (target : BitVec 17) (link : Option DReg) (ready : coreReady s.cores[c]) (slots : s.cores[c].slots = 0)
    (straight : s.cores[c].after = .none) (u : State) (hu : u = takeBranch c cond anl target link s) :
    (condHolds cond s.cores[c].r.st = true → u.cores[c].slots = 2 ∧ u.cores[c].annul = 0 ∧ u.cores[c].after = .jump target ∧
        ∀ r, link = some r → u.cores[c].r.d[r] = word (s.cores[c].pc + 3).toNat) ∧
      (condHolds cond s.cores[c].r.st = false → anl = true → u.cores[c].slots = 2 ∧ u.cores[c].annul = 2 ∧ u.cores[c].after = .none) ∧
      (condHolds cond s.cores[c].r.st = false → anl = false → u.cores[c].slots = 0 ∧ u.cores[c].after = .none) ∧
      (condHolds cond s.cores[c].r.st = false → u.cores[c].r.d = s.cores[c].r.d) ∧
      flagsSame s.cores[c].r.st u.cores[c].r.st ∧ wordFrame s u c link.toList [] .nop := by
  have e := takeBranch_eq (c := c) cond anl target link s
  rw [← hu] at e
  obtain ⟨-, -, hl, hf, plain⟩ := ready
  obtain ⟨only, core⟩ := plainStep_spec c 1 (branchEvents (condHolds cond s.cores[c].r.st) anl) (linkCore cond link s.cores[c]) s plain
  have fin := advancedCore_finishesWord s.cores[c].pc s.cores[c].loopOld s.cores[c].r [] [] (k := linkCore cond link s.cores[c] s.cores[c]) hl hf
  rw [← core] at fin
  generalize plainStep c 1 (branchEvents (condHolds cond s.cores[c].r.st) anl) (linkCore cond link s.cores[c]) s = s1 at e only fin
  have core1 : u.cores[c] = branched cond anl target s.cores[c].r.st s1.cores[c] := by rw [e]; exact setCore_same ..
  have all : coreOnly c [] s u := by rw [e]; exact coreOnly_trans only (coreOnly_setCore _ s1)
  have slots1 : s1.cores[c].slots = 0 := by rw [fin.slots]; exact (congrArg (· - 1) slots :)
  have after1 : s1.cores[c].after = .none := (fin.straight slots).trans straight
  have rest : u.cores[c] = { s1.cores[c] with slots := u.cores[c].slots, annul := u.cores[c].annul, after := u.cores[c].after } := by
    rw [core1]
    unfold branched
    split
    · rfl
    · split <;> rfl
  obtain ⟨restR, kept, other, ret⟩ := linkCore_linksOnly cond link s.cores[c]
  have r1 : u.cores[c].r = s1.cores[c].r := (congrArg Core.r rest :)
  have buf : u.cores[c].storeBuf = s1.cores[c].storeBuf := (congrArg Core.storeBuf rest :)
  have pc1 : u.cores[c].pc = s1.cores[c].pc := (congrArg Core.pc rest :)
  have st1 : (linkCore cond link s.cores[c] s.cores[c]).r.st = s.cores[c].r.st := (congrArg CoreRegs.st restR :)
  have d1 : u.cores[c].r.d = (linkCore cond link s.cores[c] s.cores[c]).r.d := by rw [r1, fin.d]
  refine ⟨fun taken => ?_, fun notTaken annulling => ?_, fun notTaken plainOne => ?_, fun notTaken => d1.trans (kept notTaken), ?_, ?_⟩
  · have open_ : u.cores[c] = { s1.cores[c] with slots := 2, annul := 0, after := .jump target } := core1.trans (if_pos taken)
    refine ⟨by rw [open_], by rw [open_], by rw [open_], fun r hr => ?_⟩
    rw [d1]
    exact ret taken r hr
  · have open_ : u.cores[c] = { s1.cores[c] with slots := 2, annul := 2, after := .none } := core1.trans ((if_neg (by rw [notTaken]; decide)).trans (if_pos annulling))
    exact ⟨by rw [open_], by rw [open_], by rw [open_]⟩
  · have on : u.cores[c] = s1.cores[c] := core1.trans ((if_neg (by rw [notTaken]; decide)).trans (if_neg (by rw [plainOne]; decide)))
    exact ⟨by rw [on]; exact slots1, by rw [on]; exact after1⟩
  · have flags := fin.flags
    rw [st1] at flags
    rw [r1]
    exact flags
  · exact wordFrame_plain all (buf.trans fin.storeBuf) (fun x hx => by rw [d1]; exact other x hx) (by rw [r1, fin.ac]; exact (congrArg CoreRegs.ac restR :))
      (by rw [r1, fin.a]; exact (congrArg CoreRegs.a restR :)) (by rw [r1, fin.m]; exact (congrArg CoreRegs.m restR :))
      (by rw [r1, fin.b]; exact (congrArg CoreRegs.b restR :)) (by rw [r1, fin.l]; exact (congrArg CoreRegs.l restR :))
      (fun h hd => by rw [pc1]; exact fin.next h (by rw [st1]; exact hd))

/-! ### Delay slots -/

theorem landFlights_of_none (hf : s.cores[c].inFlight = []) : landFlights s.cores[c] = s.cores[c] := by
  show { s.cores[c] with r := s.cores[c].inFlight.foldl landLoad s.cores[c].r, inFlight := [] } = s.cores[c]
  rw [hf, List.foldl_nil, ← hf]

/-- The last delay slot of a taken branch leads to its target. -/
theorem advancedCore_jump (p : BitVec 17) (view : List LoopOld) {k : Core} {t : BitVec 17} (slots : k.slots = 1) (after : k.after = .jump t) :
    (advancedCore p view k).pc = t ∧ (advancedCore p view k).slots = 0 ∧ (advancedCore p view k).after = .none := by
  have rest := (passedCore_passesWord p view k).rest
  have slots2 : (passedCore p view k).slots = 1 := (congrArg Core.slots rest :).trans slots
  have after2 : (passedCore p view k).after = .jump t := (congrArg Core.after rest :).trans after
  have e : advancedCore p view k = { slotPassed (passedCore p view k) with pc := t, after := .none } := by
    unfold advancedCore
    generalize passedCore p view k = k2 at slots2 after2
    simp [slots2, after2]
  rw [e]
  refine ⟨rfl, ?_, rfl⟩
  show (passedCore p view k).slots - 1 = 0
  rw [slots2]

theorem advancedCore_annul (p : BitVec 17) (view : List LoopOld) {k : Core} (slots : k.slots ≠ 0) : (advancedCore p view k).annul = k.annul - 1 := by
  have rest := (passedCore_passesWord p view k).rest
  have slots2 : (passedCore p view k).slots = k.slots := (congrArg Core.slots rest :)
  have annul2 : (passedCore p view k).annul = k.annul := (congrArg Core.annul rest :)
  unfold advancedCore
  generalize passedCore p view k = k2 at slots2 annul2
  simp only
  rw [if_neg (by rw [slots2]; exact slots), ← annul2]
  split
  · split <;> rfl
  · rfl

/-- A system word that changes nothing but its core's next address. -/
theorem systemNop_spec (s : State) (c : CoreId) (ready : coreReady s.cores[c]) : ∃ k1 : Core, k1.r.st = retiredSt s.cores[c] ∧ k1.slots = s.cores[c].slots ∧
    k1.after = s.cores[c].after ∧ (guardWord c (plainStep c 0 [] id) s).cores[c] = advancedCore s.cores[c].pc s.cores[c].loopOld k1 ∧
      finishesWord s.cores[c].pc [] s.cores[c] (guardWord c (plainStep c 0 [] id) s).cores[c] ∧ coreOnly c [] s (guardWord c (plainStep c 0 [] id) s) := by
  obtain ⟨takes, annul, hl, hf, plain⟩ := ready
  rw [guardWord_of_ready _ takes annul hf]
  obtain ⟨only, core⟩ := plainStep_spec c 0 [] id s plain
  have fin := advancedCore_finishesWord s.cores[c].pc s.cores[c].loopOld s.cores[c].r [] [] hl hf
  have e := retireWord_eq s.cores[c].r [] [] hl hf
  exact ⟨retireWord s.cores[c].r [] [] s.cores[c], by rw [e]; rfl, by rw [e], by rw [e], core, by rw [core]; exact fin, only⟩

/-- A word in an annulled slot has no effect. -/
theorem wasteWord_spec (s : State) (c : CoreId) (evs : List (Nat × Nat × Nat)) (straight : s.cores[c].after = .none) (hl : s.cores[c].ldSlot = [])
    (hf : s.cores[c].inFlight = []) : coreOnly c [] s (wasteWord c evs s) ∧
      (wasteWord c evs s).cores[c] = advancedCore s.cores[c].pc s.cores[c].loopOld (retireWord s.cores[c].r [] [] s.cores[c]) ∧
      finishesWord s.cores[c].pc [] s.cores[c] (wasteWord c evs s).cores[c] := by
  have fin := advancedCore_finishesWord s.cores[c].pc s.cores[c].loopOld s.cores[c].r [] [] hl hf
  let k1 : Core := retireWord s.cores[c].r [] [] s.cores[c]
  have plain1 : plainAfter k1 := .inl straight
  have e : wasteWord c evs s = pcCore c.val ((1, 1, 0) :: (4, 2, 1) :: evs) (advanceCore c s.cores[c].pc s.cores[c].loopOld (setCore c k1 s)) := by
    unfold wasteWord
    rw [landFlights_of_none hf]
  have set : coreOnly c [] s (setCore c k1 s) := coreOnly_setCore k1 s
  have core1 : (setCore c k1 s).cores[c] = k1 := setCore_same ..
  rw [advanceCore_plain _ _ (by rw [core1]; exact plain1), core1, setCore_setCore] at e
  have event := pcCore_onlyEvents c.isLt ((1, 1, 0) :: (4, 2, 1) :: evs) (onlyEvents_refl (setCore c (advancedCore s.cores[c].pc s.cores[c].loopOld k1) s))
  have core : (wasteWord c evs s).cores[c] = advancedCore s.cores[c].pc s.cores[c].loopOld k1 := by
    rw [e, event.parts.cores (by decide), setCore_same]
  refine ⟨?_, core, by rw [core]; exact fin⟩
  rw [e]
  exact coreOnly_trans (coreOnly_setCore _ s) (coreOnly_events event)

/-- Settles O25: branches by `takeBranch_spec`, the slot before the target by `advancedCore_jump`, annulled words by `wasteWord_spec`. -/
theorem coreBranchesAndDelaySlots : Obligations.CoreBranchesAndDelaySlots := by
  unfold Obligations.CoreBranchesAndDelaySlots
  refine ⟨fun s c cond anl r t cmd link tgt ready slots straight inside h => ?_, fun s c t ready slots after => ?_,
    fun s c d r m takes same open_ straight hl hf => ?_⟩
  · rcases h with ⟨rfl, rfl, rfl⟩ | ⟨rfl, rfl, rfl⟩ | ⟨rfl, rfl, rfl⟩
    · have run : branchWord c (takeBranch c cond anl tgt none) s = takeBranch c cond anl tgt none s := branchWord_of_ready _ ready straight inside
      obtain ⟨taken, annulled, on, kept, flags, frame⟩ := takeBranch_spec cond anl tgt none ready slots straight _ rfl
      refine ⟨_, congrArg Host.Outcome.next run, fun h => ?_, annulled, on, fun h => by rw [kept h], flags, frame⟩
      obtain ⟨h1, h2, h3, -⟩ := taken h
      exact ⟨h1, h2, h3, fun h => by cases h⟩
    · have run : branchWord c (takeBranch c cond anl tgt (some r)) s = takeBranch c cond anl tgt (some r) s := branchWord_of_ready _ ready straight inside
      obtain ⟨taken, annulled, on, kept, flags, frame⟩ := takeBranch_spec cond anl tgt (some r) ready slots straight _ rfl
      refine ⟨_, congrArg Host.Outcome.next run, fun h => ?_, annulled, on, fun h => by rw [kept h], flags, frame⟩
      obtain ⟨h1, h2, h3, h4⟩ := taken h
      exact ⟨h1, h2, h3, fun _ => h4 r rfl⟩
    · have quiet : slotLoads s.cores[c] r = false := by unfold slotLoads; rw [ready.2.2.1]; rfl
      have jump : jumpReg c cond anl r s = takeBranch c cond anl (BitVec.ofNat 17 s.cores[c].r.d[r].toNat) none s := by
        unfold jumpReg
        rw [quiet]
        rfl
      have run : branchWord c (jumpReg c cond anl r) s = takeBranch c cond anl (BitVec.ofNat 17 s.cores[c].r.d[r].toNat) none s :=
        (branchWord_of_ready _ ready straight inside).trans jump
      obtain ⟨taken, annulled, on, kept, flags, frame⟩ := takeBranch_spec cond anl (BitVec.ofNat 17 s.cores[c].r.d[r].toNat) none ready slots straight _ rfl
      refine ⟨_, congrArg Host.Outcome.next run, fun h => ?_, annulled, on, fun h => by rw [kept h], flags, frame⟩
      obtain ⟨h1, h2, h3, -⟩ := taken h
      exact ⟨h1, h2, h3, fun h => by cases h⟩
  · obtain ⟨k1, -, slots1, after1, core, fin, only⟩ := systemNop_spec s c ready
    obtain ⟨pc, none_, on⟩ := advancedCore_jump s.cores[c].pc s.cores[c].loopOld (slots1.trans slots) (after1.trans after)
    rw [← core] at pc none_ on
    exact ⟨_, rfl, pc, none_, on, fin.flags, wordFrame_finished only fin⟩
  · obtain ⟨only, core, fin⟩ := wasteWord_spec s c [] straight hl hf
    have e : runWord c (aluSlot d r fun a b _ => aluAdd true a b false) m s = wasteWord c [] s := by
      unfold runWord guardWord
      simp only [takes, Bool.not_true, Bool.false_eq_true, if_false]
      rw [if_pos open_]
    refine ⟨_, congrArg Host.Outcome.next e, fin.d, fin.flags, ?_, wordFrame_finished only fin⟩
    have e1 := retireWord_eq s.cores[c].r [] [] hl hf
    have slots1 : (retireWord s.cores[c].r [] [] s.cores[c]).slots = s.cores[c].slots := by rw [e1]
    have annul1 : (retireWord s.cores[c].r [] [] s.cores[c]).annul = s.cores[c].annul := by rw [e1]
    rw [core, advancedCore_annul _ _ (by omega), annul1]

end Sys2Proof.Machine
end

