-- ==== Sys2Proof/Proofs/CoreRepeats.lean ====
section
/-! PROOFS. Block repeats (11 R320, R321; 12 R359, R360). -/

namespace Sys2Proof.Machine

variable {c : CoreId} {s : State} {p : BitVec 17} {k : Core}

/-- No active level ends at p. -/
def insideBodies (p : BitVec 17) (k : Core) : Prop := ∀ l : Fin 3, l.val < stDepth k.r.st → k.r.lpe[l] ≠ p

theorem stDepth_lt (st : Word) : stDepth st < 4 := Nat.mod_lt _ (by decide)

theorem inside_of_atBodyEnd (h : atBodyEnd k = false) : insideBodies k.pc k := by
  intro l hl e
  unfold atBodyEnd at h
  rw [List.any_eq_false] at h
  exact h l (List.mem_finRange l) (by simp [hl, e])

theorem repeatEnd_inside (h : insideBodies p k) : repeatEnd p [] k = (k, none, false) := by
  unfold repeatEnd
  by_cases depth : stDepth k.r.st = 0
  · exact if_pos depth
  · have lt := stDepth_lt k.r.st
    have here : (Fin.ofNat 3 (stDepth k.r.st - 1)).val = stDepth k.r.st - 1 := Nat.mod_eq_of_lt (by omega)
    have apart := h (Fin.ofNat 3 (stDepth k.r.st - 1)) (by omega)
    simp only [if_neg depth, loopView]
    exact if_pos (bne_iff_ne.mpr fun e => apart (BitVec.eq_of_toNat_eq e))

/-- Past a word that ends no body and stands in no delay slot. -/
theorem advancedCore_inside (slots : k.slots = 0) (h : insideBodies p k) : advancedCore p [] k = { k with pc := p + 1, atLoopEdge := false } := by
  have e : passedCore p [] k = { k with pc := p + 1, atLoopEdge := false } := by
    unfold passedCore
    rw [repeatEnd_inside h]
    rfl
  unfold advancedCore
  rw [e]
  exact if_pos slots

/-- The core after a word of one operation inside its bodies and outside delay slots. -/
theorem retired_inside (old : CoreRegs) (hl : k.ldSlot = []) (hf : k.inFlight = []) (slots : k.slots = 0) (h : insideBodies p k) :
    (advancedCore p [] (retireWord old [] [] k)).pc = p + 1 ∧ (advancedCore p [] (retireWord old [] [] k)).r = setSt (retiredSt k) k.r := by
  have e := retireWord_eq old [] [] hl hf
  generalize retireWord old [] [] k = k1 at e
  have r1 : k1.r = setSt (retiredSt k) k.r := (congrArg Core.r e :)
  have slots1 : k1.slots = 0 := (congrArg Core.slots e :).trans slots
  have inside1 : insideBodies p k1 := by
    intro l hl
    rw [r1] at hl ⊢
    exact h l (by rw [← stDepth_retiredSt]; exact hl)
  rw [advancedCore_inside slots1 inside1]
  exact ⟨rfl, r1⟩

/-! ### Opening a level -/

/-- The core with a level opened. -/
def openedLevel (l : Fin 3) (count : Word) (start last : BitVec 17) (k : Core) : Core :=
  { k with
    r := setSt (setFld k.r.st 4 3 (l.val + 1)) { k.r with lpc := k.r.lpc.set l count, lps := k.r.lps.set l start, lpe := k.r.lpe.set l last }
    loopOld := k.loopOld.filter fun e => e.code != 54 + l.val && e.code != 57 + l.val && e.code != 60 + l.val }

theorem openRepeat_open {count : Word} {last : BitVec 17} (later : s.cores[c].pc.toNat < last.toNat) (apart : last.toNat ≠ s.cores[c].pc.toNat + 2)
    (some_ : count ≠ 0) {l : Fin 3} (depth : stDepth s.cores[c].r.st = l.val) :
    openRepeat c count last s = plainStep c 1 [] (openedLevel l count (s.cores[c].pc + 1) last) s := by
  have start : (s.cores[c].pc + 1).toNat = s.cores[c].pc.toNat + 1 := by bv_omega
  have here : (Fin.ofNat 3 (stDepth s.cores[c].r.st) : Fin 3) = l := by rw [depth]; exact Fin.ext (Nat.mod_eq_of_lt l.isLt)
  unfold openRepeat openedLevel
  simp only [start]
  rw [if_neg (by omega), if_neg some_, if_neg (by omega)]
  simp only [here]
  simp only [depth]

theorem openRepeat_skip {last : BitVec 17} (later : s.cores[c].pc.toNat < last.toNat) (apart : last.toNat ≠ s.cores[c].pc.toNat + 2) :
    openRepeat c 0 last s = (let s2 := pcCore c.val [(1, 1, 0), (4, 2, 1)] (pcCore c.val [(1, 1, 0), (4, 2, 1), (0x0B, 1, 1)] (plainStep c 1 [] id s))
      setCore c { s2.cores[c] with pc := last + 1 } s2) := by
  have start : (s.cores[c].pc + 1).toNat = s.cores[c].pc.toNat + 1 := by bv_omega
  unfold openRepeat
  simp only [start]
  rw [if_neg (by omega)]
  rfl

/-- A level opened in a core between levels: it is the innermost and starts at the next address (R320). -/
theorem openedLevel_spec (old : CoreRegs) (l : Fin 3) (count : Word) {last : BitVec 17} {k : Core} (hl : k.ldSlot = []) (hf : k.inFlight = []) (slots : k.slots = 0)
    (inside : insideBodies k.pc k) (depth : stDepth k.r.st = l.val) (apart : last ≠ k.pc) :
    (advancedCore k.pc [] (retireWord old [] [] (openedLevel l count (k.pc + 1) last k))).pc = k.pc + 1 ∧
      stDepth (advancedCore k.pc [] (retireWord old [] [] (openedLevel l count (k.pc + 1) last k))).r.st = l.val + 1 ∧
      (advancedCore k.pc [] (retireWord old [] [] (openedLevel l count (k.pc + 1) last k))).r =
        setSt (retiredSt (openedLevel l count (k.pc + 1) last k)) (openedLevel l count (k.pc + 1) last k).r := by
  have depth1 : stDepth (openedLevel l count (k.pc + 1) last k).r.st = l.val + 1 := by
    show fld (setFld k.r.st 4 3 (l.val + 1)) 4 3 = _
    rw [fld_setFld_same _ _ (by decide) (by decide)]
    omega
  have inside1 : insideBodies k.pc (openedLevel l count (k.pc + 1) last k) := by
    intro j hj
    rw [depth1] at hj
    show (k.r.lpe.set l.val last)[j] ≠ k.pc
    by_cases h : l = j
    · rw [vector_set_at _ _ h]; exact apart
    · rw [vector_set_other _ _ h]
      exact inside j (by rw [depth]; omega)
  obtain ⟨pc, r⟩ := retired_inside old (k := openedLevel l count (k.pc + 1) last k) hl hf slots inside1
  refine ⟨pc, ?_, r⟩
  rw [r]
  exact (stDepth_retiredSt _).trans depth1

/-- A change of the DEPTH field leaves the flags. -/
theorem flags_setDepth (st : Word) (v : Nat) (b b' : Bool) : flagsSame st (setBit (setBit (setFld st 4 3 v) 15 b) 14 b') := by
  have one : ∀ n, 4 < n → n ≠ 14 → n ≠ 15 → bit (setBit (setBit (setFld st 4 3 v) 15 b) 14 b') n = bit st n := fun n hn h14 h15 => by
    rw [bit_setBit_other _ _ (by decide) h14, bit_setBit_other _ _ (by decide) h15, bit_setFld_other _ _ (by decide) (by decide) (.inr hn)]
  exact ⟨one 19 (by decide) (by decide) (by decide), one 18 (by decide) (by decide) (by decide), one 17 (by decide) (by decide) (by decide),
    one 16 (by decide) (by decide) (by decide), one 13 (by decide) (by decide) (by decide)⟩

/-- The registers other than the repeat levels and ST are those of r. -/
def levelsOnly (r r' : CoreRegs) : Prop := r' = { r with lpc := r'.lpc, lps := r'.lps, lpe := r'.lpe, st := r'.st }

/-- The frame of a word that changes repeat levels. -/
theorem wordFrame_levels {u : State} (only : coreOnly c [] s u) (buf : u.cores[c].storeBuf = s.cores[c].storeBuf) (r : levelsOnly s.cores[c].r u.cores[c].r)
    (pc : u.cores[c].pc = s.cores[c].pc + 1) : wordFrame s u c [] [] .nop := by
  unfold levelsOnly at r
  exact wordFrame_plain only buf (fun e _ => (congrArg (fun x : CoreRegs => x.d[e]) r :)) (congrArg CoreRegs.ac r :) (congrArg CoreRegs.a r :) (congrArg CoreRegs.m r :)
    (congrArg CoreRegs.b r :) (congrArg CoreRegs.l r :) fun _ _ => pc

/-- RPT with a count opens the next level (R320). -/
theorem openRepeat_spec {count : Word} {last : BitVec 17} (ready : coreReady s.cores[c]) (slots : s.cores[c].slots = 0) (inside : atBodyEnd s.cores[c] = false)
    (fresh : s.cores[c].loopOld = []) (later : s.cores[c].pc.toNat < last.toNat) (apart : last.toNat ≠ s.cores[c].pc.toNat + 2) (some_ : count ≠ 0) {l : Fin 3}
    (depth : stDepth s.cores[c].r.st = l.val) (u : State) (hu : u = openRepeat c count last s) :
    stDepth u.cores[c].r.st = l.val + 1 ∧ u.cores[c].r.lpc[l] = count ∧ u.cores[c].r.lps[l] = s.cores[c].pc + 1 ∧ u.cores[c].r.lpe[l] = last ∧
      (∀ k : Fin 3, k ≠ l → u.cores[c].r.lpc[k] = s.cores[c].r.lpc[k] ∧ u.cores[c].r.lpe[k] = s.cores[c].r.lpe[k]) ∧
      u.cores[c].pc = s.cores[c].pc + 1 ∧ flagsSame s.cores[c].r.st u.cores[c].r.st ∧ wordFrame s u c [] [] .nop := by
  obtain ⟨-, -, hl, hf, plain⟩ := ready
  rw [openRepeat_open later apart some_ depth] at hu
  obtain ⟨only, core⟩ := plainStep_spec c 1 [] (openedLevel l count (s.cores[c].pc + 1) last) s plain
  rw [← hu, fresh] at core
  rw [← hu] at only
  have fin := advancedCore_finishesWord s.cores[c].pc [] s.cores[c].r [] [] (k := openedLevel l count (s.cores[c].pc + 1) last s.cores[c]) hl hf
  obtain ⟨pc, level, r⟩ := openedLevel_spec s.cores[c].r l count hl hf slots (inside_of_atBodyEnd inside) depth
    (fun e : last = s.cores[c].pc => by rw [e] at later; omega)
  rw [← core] at fin pc level r
  refine ⟨level, ?_, ?_, ?_, fun k hk => ⟨?_, ?_⟩, pc, ?_, wordFrame_levels only fin.storeBuf (by unfold levelsOnly; rw [r]; rfl) pc⟩
  · rw [r]; exact vector_set_at _ _ rfl
  · rw [r]; exact vector_set_at _ _ rfl
  · rw [r]; exact vector_set_at _ _ rfl
  · rw [r]; exact vector_set_other _ _ (Ne.symm hk)
  · rw [r]; exact vector_set_other _ _ (Ne.symm hk)
  · rw [r]; exact flags_setDepth ..

/-- RPT with a count of 0 skips the body (R360). -/
theorem skipRepeat_spec {last : BitVec 17} (ready : coreReady s.cores[c]) (slots : s.cores[c].slots = 0) (inside : atBodyEnd s.cores[c] = false)
    (fresh : s.cores[c].loopOld = []) (later : s.cores[c].pc.toNat < last.toNat) (apart : last.toNat ≠ s.cores[c].pc.toNat + 2) (u : State) (hu : u = openRepeat c 0 last s) :
    u.cores[c].pc = last + 1 ∧ stDepth u.cores[c].r.st = stDepth s.cores[c].r.st ∧
      u.cores[c].r.d = s.cores[c].r.d ∧ (∀ k : CoreId, k ≠ c → u.cores[k] = s.cores[k]) ∧
      sameBut [.regs, .held, .cores, .pg, .bv, .pc] s u ∧ regsButEvents [] s u := by
  obtain ⟨-, -, hl, hf, plain⟩ := ready
  rw [openRepeat_skip later apart] at hu
  obtain ⟨only, core⟩ := plainStep_spec c 1 [] id s plain
  obtain ⟨-, r⟩ := retired_inside s.cores[c].r hl hf slots (inside_of_atBodyEnd inside)
  rw [fresh] at core
  have r1 : (plainStep c 1 [] id s).cores[c].r = setSt (retiredSt s.cores[c]) s.cores[c].r := by rw [core]; exact r
  generalize plainStep c 1 [] id s = s1 at only r1 hu
  have event : onlyEvents s1 (pcCore c.val [(1, 1, 0), (4, 2, 1)] (pcCore c.val [(1, 1, 0), (4, 2, 1), (0x0B, 1, 1)] s1)) :=
    pcCore_onlyEvents c.isLt _ (pcCore_onlyEvents c.isLt _ (onlyEvents_refl s1))
  generalize pcCore c.val [(1, 1, 0), (4, 2, 1)] (pcCore c.val [(1, 1, 0), (4, 2, 1), (0x0B, 1, 1)] s1) = s2 at event hu
  have all : coreOnly c [] s u := by rw [hu]; exact coreOnly_trans only (coreOnly_trans (coreOnly_events event) (coreOnly_setCore _ s2))
  have r2 : u.cores[c].r = setSt (retiredSt s.cores[c]) s.cores[c].r := by
    rw [hu, ← r1]
    dsimp only
    rw [setCore_same, event.parts.cores (by decide)]
  refine ⟨by rw [hu]; dsimp only; rw [setCore_same], ?_, by rw [r2]; rfl, all.others, all.parts, regsButEvents_of_touches all.regs⟩
  rw [r2]
  exact stDepth_retiredSt _

/-- A field put back. -/
theorem setFld_fld (w : Word) {hi lo : Nat} (hl : lo ≤ hi) (hh : hi < 20) : setFld w hi lo (fld w hi lo) = w := by
  apply BitVec.eq_of_getLsbD_eq
  intro i _
  have h := bit_moveFld w w hl hh i
  rw [bit_eq_testBit, ite_self, bit_eq_testBit] at h
  exact h

/-- LBRK pops the innermost level (R359). -/
theorem breakLoop_spec (ready : coreReady s.cores[c]) (slots : s.cores[c].slots = 0) (inside : atBodyEnd s.cores[c] = false) (fresh : s.cores[c].loopOld = [])
    (u : State) (hu : u = breakLoop c s) :
    stDepth u.cores[c].r.st = stDepth s.cores[c].r.st - 1 ∧ u.cores[c].r.lpc = s.cores[c].r.lpc ∧
      u.cores[c].pc = s.cores[c].pc + 1 ∧ flagsSame s.cores[c].r.st u.cores[c].r.st ∧ wordFrame s u c [] [] .nop := by
  obtain ⟨-, -, hl, hf, plain⟩ := ready
  have finish : ∀ (f : Core → Core) (v : Nat), u = plainStep c 1 [] f s → f s.cores[c] = { s.cores[c] with r := setSt (setFld s.cores[c].r.st 4 3 v) s.cores[c].r } →
      v ≤ stDepth s.cores[c].r.st → stDepth u.cores[c].r.st = v ∧ u.cores[c].r.lpc = s.cores[c].r.lpc ∧
        u.cores[c].pc = s.cores[c].pc + 1 ∧ flagsSame s.cores[c].r.st u.cores[c].r.st ∧ wordFrame s u c [] [] .nop := fun f v hu' hf' hv => by
    obtain ⟨only, core⟩ := plainStep_spec c 1 [] f s (by rw [hf']; exact plain)
    rw [← hu', fresh, hf'] at core
    rw [← hu'] at only
    have depth1 : stDepth (setFld s.cores[c].r.st 4 3 v) = v := by
      unfold stDepth
      rw [fld_setFld_same _ _ (by decide) (by decide)]
      have := stDepth_lt s.cores[c].r.st
      omega
    have inside1 : insideBodies s.cores[c].pc { s.cores[c] with r := setSt (setFld s.cores[c].r.st 4 3 v) s.cores[c].r } := fun l hl' =>
      inside_of_atBodyEnd inside l (Nat.lt_of_lt_of_le (Nat.lt_of_lt_of_eq hl' depth1) hv)
    have fin := advancedCore_finishesWord s.cores[c].pc [] s.cores[c].r [] [] (k := { s.cores[c] with r := setSt (setFld s.cores[c].r.st 4 3 v) s.cores[c].r }) hl hf
    obtain ⟨pc, r⟩ := retired_inside s.cores[c].r (k := { s.cores[c] with r := setSt (setFld s.cores[c].r.st 4 3 v) s.cores[c].r }) hl hf slots inside1
    rw [← core] at fin pc r
    refine ⟨?_, by rw [r]; rfl, pc, by rw [r]; exact flags_setDepth .., wordFrame_levels only fin.storeBuf (by unfold levelsOnly; rw [r]; rfl) pc⟩
    rw [r]
    exact (stDepth_retiredSt _).trans depth1
  refine finish _ (stDepth s.cores[c].r.st - 1) hu ?_ (Nat.sub_le ..)
  dsimp only
  split
  next zero =>
    have same : setFld s.cores[c].r.st 4 3 (stDepth s.cores[c].r.st - 1) = s.cores[c].r.st := by
      rw [zero, Nat.zero_sub, ← zero]
      exact setFld_fld _ (by decide) (by decide)
    rw [same]; rfl
  · rfl

/-- Settles O26: RPT by `openRepeat_spec` and `skipRepeat_spec`, LBRK by `breakLoop_spec`. -/
theorem coreRepeatsOpenAndPop : Obligations.CoreRepeatsOpenAndPop := by
  unfold Obligations.CoreRepeatsOpenAndPop
  intro s c ready slots straight inside fresh
  refine ⟨fun d cnt n last hn later apart => ?_, ?_⟩
  · have run : ∀ count, n = count → exec (.rpt c cnt last) s = .next (openRepeat c count last s) := by
      rintro count rfl
      obtain ⟨takes, annul, hl, hf, -⟩ := ready
      have quiet : ∀ d, slotLoads s.cores[c] d = false := fun d => by unfold slotLoads; rw [hl]; rfl
      have e : repeatWord c cnt last s = openRepeat c n last s := by
        unfold repeatWord
        rw [guardWord_of_ready _ takes annul hf]
        dsimp only
        rw [inside, if_neg (by decide)]
        rcases hn with ⟨i, rfl, rfl⟩ | ⟨rfl, rfl⟩
        · rfl
        · dsimp only
          rw [quiet d]
          rfl
      exact congrArg Host.Outcome.next e
    refine ⟨fun some_ l depth => ⟨_, run n rfl, ?_⟩, fun zero => ⟨_, run 0 zero, ?_⟩⟩
    · exact openRepeat_spec ready slots inside fresh later apart some_ depth _ rfl
    · exact skipRepeat_spec ready slots inside fresh later apart _ rfl
  · have run : branchWord c (breakLoop c) s = breakLoop c s := branchWord_of_ready _ ready straight inside
    exact ⟨_, congrArg Host.Outcome.next run, breakLoop_spec ready slots inside fresh _ rfl⟩

end Sys2Proof.Machine
end

