-- ==== Sys2Proof/Proofs/CoreReturn.lean ====
section
/-! PROOFS. System words and the return from a task (11 R326, R327; 12 R361). -/

namespace Sys2Proof.Machine

variable {c : CoreId} {s : State}

/-- WAIT pauses its core where IE = 1 (R361). -/
theorem waitWord_spec (s : State) (c : CoreId) (ready : coreReady s.cores[c]) :
    (guardWord c (waitWord c) s).cores[c].waiting = bit s.cores[c].r.st 11 ∧ flagsSame s.cores[c].r.st (guardWord c (waitWord c) s).cores[c].r.st ∧
      wordFrame s (guardWord c (waitWord c) s) c [] [] .nop := by
  obtain ⟨takes, annul, hl, hf, plain⟩ := ready
  rw [guardWord_of_ready _ takes annul hf]
  have awake : s.cores[c].waiting = false := by
    unfold takesWords at takes
    simp only [Bool.and_eq_true, Bool.not_eq_true'] at takes
    exact takes.1.2
  have e : ∃ f : Core → Core, waitWord c s = plainStep c 1 [] f s ∧ f s.cores[c] = { s.cores[c] with waiting := bit s.cores[c].r.st 11 } := by
    refine ⟨_, rfl, ?_⟩
    cases ie : bit s.cores[c].r.st 11 with
    | true => rfl
    | false =>
      have asIs : s.cores[c] = { s.cores[c] with waiting := s.cores[c].waiting } := rfl
      rw [awake] at asIs
      exact asIs
  obtain ⟨f, e, hf'⟩ := e
  obtain ⟨only, core⟩ := plainStep_spec c 1 [] f s (by rw [hf']; exact plain)
  rw [hf'] at core
  have fin := advancedCore_finishesWord s.cores[c].pc s.cores[c].loopOld s.cores[c].r [] [] (k := { s.cores[c] with waiting := bit s.cores[c].r.st 11 }) hl hf
  rw [← core] at fin
  rw [e]
  exact ⟨fin.waiting, fin.flags, wordFrame_plain only fin.storeBuf (fun x _ => by rw [fin.d]) fin.ac fin.a fin.m fin.b fin.l fin.next⟩

theorem presentedTo_none (empty : s.pg.ready = []) : presentedTo s c = none := by
  unfold presentedTo presentations
  rw [empty]
  rfl

/-- RTE with no task to chain (R327). -/
theorem returnTask_spec (ready : coreReady s.cores[c]) (slots : s.cores[c].slots = 0) (task : s.cores[c].base = false)
    (frame : fldOf s (scBase c + 2) 16 0 ≠ 0x10000) (noFault : bit s.cores[c].r.st 0 = false) (empty : s.pg.ready = [])
    (idle : ∀ k : CoreId, s.cores[k].stalled = none) (u : State) (hu : u = returnTask c s) :
    u.cores[c].slots = 2 ∧ u.cores[c].annul = 0 ∧ u.cores[c].after = .restore ∧ u.cores[c].nest = s.cores[c].nest.tail ∧ wordFrame s u c [] [] .nop := by
  obtain ⟨-, -, hl, hf, plain⟩ := ready
  let left : Core → Core := fun k => { k with nest := k.nest.tail }
  obtain ⟨only, core⟩ := plainStep_spec c 1 [(0x18, 1, 1)] left s plain
  have fin := advancedCore_finishesWord s.cores[c].pc s.cores[c].loopOld s.cores[c].r [] [] (k := left s.cores[c]) hl hf
  rw [← core] at fin
  have chainless : ∀ s1 : State, s1.pg.ready = [] → ∀ pri, chainPost c pri s1 = none := fun s1 h pri => by
    unfold chainPost
    dsimp only
    rw [presentedTo_none (s := setCore c _ s1) h]
  have e : returnTask c s = retryStalled (setCore c { (plainStep c 1 [(0x18, 1, 1)] left s).cores[c] with slots := 2, annul := 0, after := .restore }
      (plainStep c 1 [(0x18, 1, 1)] left s)) := by
    have none_ := chainless (plainStep c 1 [(0x18, 1, 1)] left s) (by rw [only.pg]; exact empty)
    unfold returnTask
    dsimp only
    rw [if_neg (by rw [task]; simpa using frame), if_neg (by rw [noFault]; decide)]
    change (match chainPost c _ (plainStep c 1 [(0x18, 1, 1)] left s) with | none => _ | some (i, p) => _) = _
    rw [none_]
  rw [← hu] at e
  generalize plainStep c 1 [(0x18, 1, 1)] left s = s1 at e only fin
  have idle1 : ∀ k : CoreId, (setCore c { s1.cores[c] with slots := 2, annul := 0, after := .restore } s1).cores[k].stalled = none := fun k => by
    by_cases h : k = c
    · subst h
      rw [setCore_same]
      exact (congrArg Core.stalled fin.rest :).trans (idle k)
    · rw [setCore_other h, only.others k h]
      exact idle k
  rw [retryStalled_idle idle1] at e
  have core1 : u.cores[c] = { s1.cores[c] with slots := 2, annul := 0, after := .restore } := by rw [e, setCore_same]
  have all : coreOnly c [] s u := by rw [e]; exact coreOnly_trans only (coreOnly_setCore _ s1)
  refine ⟨by rw [core1], by rw [core1], by rw [core1], by rw [core1]; exact fin.nest, ?_⟩
  exact wordFrame_plain all (by rw [core1]; exact fin.storeBuf) (fun x _ => by rw [core1]; exact congrArg (fun d : Vector Word 16 => d[x]) fin.d)
    (by rw [core1]; exact fin.ac) (by rw [core1]; exact fin.a) (by rw [core1]; exact fin.m) (by rw [core1]; exact fin.b) (by rw [core1]; exact fin.l)
    (fun h hd => by rw [core1]; exact fin.next h hd)

/-! ### The frame on top of the event stack -/

theorem canonAddr_scBase (c : CoreId) (i : Nat) : canonAddr (scBase c + i) = scBase c + i := canonAddr_high (by unfold scBase; omega)

theorem scBase_not_event (c : CoreId) {i : Nat} (hi : i < 16) : eventReg (scBase c + i) = false := by
  unfold eventReg scBase
  have := c.isLt
  simp
  omega

/-- Without loads to land, settling a core changes hazards and AV0, AV1. -/
theorem settle_rest {k : Core} (hl : k.ldSlot = []) (hf : k.inFlight = []) : settle k = { k with
    r := setSt (settle k).r.st k.r, inFlight := [], ldSlot := [], agOld := [], loopOld := [], avMid := (settle k).avMid, avNew := (settle k).avNew } := by
  unfold settle
  rw [hl, hf]
  rfl

/-- A core with a frame restored. -/
def restoredCore (w : Nat → Word) (k : Core) : Core :=
  { k with
    r := { k.r with
      lpc := Vector.ofFn fun i : Fin 3 => w (1 + 3 * i.val)
      lps := Vector.ofFn fun i : Fin 3 => BitVec.ofNat 17 (w (2 + 3 * i.val)).toNat
      lpe := Vector.ofFn fun i : Fin 3 => BitVec.ofNat 17 (w (3 + 3 * i.val)).toNat
      st := w 11 }
    pc := BitVec.ofNat 17 (w 10).toNat, base := k.nest.isEmpty, slots := 0, annul := 0, after := .none, atLoopEdge := false }

/-- The words of the frame on top of the event stack. -/
def topFrame (s : State) (c : CoreId) (i : Nat) : Word := xyGet s c.val (0x10000 + (fldOf s (scBase c + 2) 16 0 + i) % 0x10000)

theorem restoreFrame_eq (c : CoreId) (s : State) : restoreFrame c s =
    putWord (scBase c + 2) (word (fldOf s (scBase c + 2) 16 0 + 12)) (setCore c (restoredCore (topFrame s c) (settle s.cores[c])) s) := rfl

/-- What RTE restores (R327). -/
theorem restore_spec (s : State) (c : CoreId) (takes : takesWords s.cores[c] = true) (annul : s.cores[c].annul = 0) (slots : s.cores[c].slots = 1)
    (after : s.cores[c].after = .restore) (hl : s.cores[c].ldSlot = []) (hf : s.cores[c].inFlight = []) :
    let w (i : Nat) : Word := xyGet s c.val (0x10000 + (fldOf s (scBase c + 2) 16 0 + i) % 0x10000)
    ∃ u, exec (.systemNop c) s = .next u ∧ u.cores[c].r.st = w 11 ∧ u.cores[c].pc = BitVec.ofNat 17 (w 10).toNat ∧
      (∀ l : Fin 3, u.cores[c].r.lpc[l] = w (1 + 3 * l.val) ∧ u.cores[c].r.lps[l] = BitVec.ofNat 17 (w (2 + 3 * l.val)).toNat ∧
        u.cores[c].r.lpe[l] = BitVec.ofNat 17 (w (3 + 3 * l.val)).toNat) ∧
      u.cores[c].slots = 0 ∧ u.cores[c].base = s.cores[c].nest.isEmpty ∧ u.cores[c].r.d = s.cores[c].r.d ∧
      regGet u (scBase c + 2) = word (fldOf s (scBase c + 2) 16 0 + 12) ∧ (∀ k : CoreId, k ≠ c → u.cores[k] = s.cores[k]) ∧
      sameBut [.regs, .held, .cores, .pg, .bv, .pc] s u ∧ regsButEvents [scBase c + 2] s u := by
  let k1 : Core := retireWord s.cores[c].r [] [] s.cores[c]
  have e : guardWord c (plainStep c 0 [] id) s = advanceCore c s.cores[c].pc s.cores[c].loopOld (countWord c s.cores[c] 0 [] (setCore c k1 s)) := by
    rw [guardWord_of_ready _ takes annul hf]
    rfl
  have e1 := retireWord_eq s.cores[c].r [] [] hl hf
  have set : coreOnly c [] s (setCore c k1 s) := coreOnly_setCore k1 s
  have core1 : (setCore c k1 s).cores[c] = k1 := setCore_same ..
  generalize setCore c k1 s = s1 at e set core1
  have event := countWord_onlyEvents c s.cores[c] 0 [] s1
  generalize countWord c s.cores[c] 0 [] s1 = s2 at e event
  have core2 : s2.cores[c] = k1 := by rw [event.parts.cores (by decide)]; exact core1
  have passed := (passedCore_passesWord s.cores[c].pc s.cores[c].loopOld k1).rest
  rw [advanceCore_eq, core2] at e
  generalize passedCore s.cores[c].pc s.cores[c].loopOld k1 = k2 at e passed
  have same1 : k1.slots = s.cores[c].slots ∧ k1.after = s.cores[c].after ∧ k1.ldSlot = [] ∧ k1.inFlight = [] ∧ k1.r.d = s.cores[c].r.d ∧ k1.nest = s.cores[c].nest := by
    show (retireWord _ _ _ _ : Core).slots = _ ∧ (retireWord _ _ _ _ : Core).after = _ ∧ (retireWord _ _ _ _ : Core).ldSlot = _ ∧
      (retireWord _ _ _ _ : Core).inFlight = _ ∧ (retireWord _ _ _ _ : Core).r.d = _ ∧ (retireWord _ _ _ _ : Core).nest = _
    rw [e1]
    exact ⟨rfl, rfl, rfl, rfl, rfl, rfl⟩
  clear_value k1
  obtain ⟨slots1, after1, hl1, hf1, d1, nest1⟩ := same1
  have slots2 : k2.slots = 1 := (congrArg Core.slots passed :).trans (slots1.trans slots)
  have after2 : (slotPassed k2).after = .restore := (congrArg Core.after passed :).trans (after1.trans after)
  have hl2 : (slotPassed k2).ldSlot = [] := (congrArg Core.ldSlot passed :).trans hl1
  have hf2 : (slotPassed k2).inFlight = [] := (congrArg Core.inFlight passed :).trans hf1
  have d2 : (slotPassed k2).r.d = s.cores[c].r.d := (congrArg (fun k : Core => k.r.d) passed :).trans d1
  have nest2 : (slotPassed k2).nest = s.cores[c].nest := (congrArg Core.nest passed :).trans nest1
  simp only [slots2] at e
  rw [if_neg (by decide), if_pos (by decide)] at e
  have only3 : coreOnly c [] s (setCore c (slotPassed k2) s2) := coreOnly_trans set (coreOnly_trans (coreOnly_events event) (coreOnly_setCore _ s2))
  have core3 : (setCore c (slotPassed k2) s2).cores[c] = slotPassed k2 := setCore_same ..
  generalize setCore c (slotPassed k2) s2 = s3 at e only3 core3
  have run : slotsEnd c s3 = restoreFrame c s3 := by
    unfold slotsEnd
    dsimp only
    rw [core3, after2]
  rw [run, restoreFrame_eq, core3] at e
  have esp : fldOf s3 (scBase c + 2) 16 0 = fldOf s (scBase c + 2) 16 0 :=
    only3.regs.fldOf (by rw [canonAddr_scBase]; exact not_orEvents List.not_mem_nil (scBase_not_event c (by decide))) 16 0
  have words : topFrame s3 c = topFrame s c := by
    funext i
    unfold topFrame
    rw [esp, xyGet_of_mem only3.mem]
  rw [esp, words] at e
  have settled := settle_rest hl2 hf2
  have d3 : (settle (slotPassed k2)).r.d = s.cores[c].r.d := (congrArg (fun k : Core => k.r.d) settled :).trans d2
  have nest3 : (settle (slotPassed k2)).nest = s.cores[c].nest := (congrArg Core.nest settled :).trans nest2
  generalize settle (slotPassed k2) = k3 at e d3 nest3
  have only4 : coreOnly c [] s (setCore c (restoredCore (topFrame s c) k3) s3) := coreOnly_trans only3 (coreOnly_setCore _ s3)
  have core4 : (setCore c (restoredCore (topFrame s c) k3) s3).cores[c] = restoredCore (topFrame s c) k3 := setCore_same ..
  generalize setCore c (restoredCore (topFrame s c) k3) s3 = s4 at e only4 core4
  have cores5 : (putWord (scBase c + 2) (word (fldOf s (scBase c + 2) 16 0 + 12)) s4).cores = s4.cores := putWord_cores ..
  have parts5 : sameBut [.regs, .held] s4 (putWord (scBase c + 2) (word (fldOf s (scBase c + 2) 16 0 + 12)) s4) :=
    (putWord_keeps _ _ (by decide) (keeps_refl _ s4)).parts
  have core5 : (putWord (scBase c + 2) (word (fldOf s (scBase c + 2) 16 0 + 12)) s4).cores[c] = restoredCore (topFrame s c) k3 := by rw [cores5]; exact core4
  refine ⟨_, congrArg Host.Outcome.next e, by rw [core5]; rfl, by rw [core5]; rfl, fun l => ?_, by rw [core5]; rfl, by rw [core5]; exact congrArg List.isEmpty nest3,
    by rw [core5]; exact d3, regGet_putWord_same .., fun k hk => by rw [cores5]; exact only4.others k hk,
    sameBut_trans only4.parts (sameBut_mono (by decide) parts5),
    regsButEvents_of_touches (touches_putWord _ (.inl (by rw [canonAddr_scBase]; exact List.mem_singleton_self _)) (touches_mono only4.regs (orEvents_mono (by simp))))⟩
  rw [core5]
  exact ⟨Vector.getElem_ofFn _, Vector.getElem_ofFn _, Vector.getElem_ofFn _⟩

/-- Settles O27: the system words by `systemNop_spec`, `waitWord_spec` and `returnTask_spec`, the return by `restore_spec`. -/
theorem coreSystemWordsAndReturn : Obligations.CoreSystemWordsAndReturn := by
  unfold Obligations.CoreSystemWordsAndReturn
  refine ⟨fun s c ready => ⟨?_, ⟨_, rfl, waitWord_spec s c ready⟩, fun slots straight inside task frame noFault empty idle => ?_⟩, restore_spec⟩
  · obtain ⟨-, -, -, -, -, fin, only⟩ := systemNop_spec s c ready
    have awake : s.cores[c].waiting = false := by
      have takes := ready.1
      unfold takesWords at takes
      simp only [Bool.and_eq_true, Bool.not_eq_true'] at takes
      exact takes.1.2
    exact ⟨_, rfl, fin.flags, fin.waiting.trans awake, wordFrame_finished only fin⟩
  · have run : branchWord c (returnTask c) s = returnTask c s := branchWord_of_ready _ ready straight inside
    exact ⟨_, congrArg Host.Outcome.next run, returnTask_spec ready slots task frame noFault empty idle _ rfl⟩

end Sys2Proof.Machine
end

