-- ==== Sys2Proof/Proofs/CoreEntries.lean ====
section
/-! PROOFS. Entry of tasks and of core faults (11 R324-R326, R328-R331). -/

namespace Sys2Proof.Machine

variable {c : CoreId} {s : State}

/-! ### The frame of an entry -/

theorem putFrame_parts (c : CoreId) (off : Nat) (ws : List Word) (s : State) : sameBut [.mem] s (putFrame c off ws s) :=
  (putFrame_keeps c off ws (by decide) (keeps_refl _ s)).parts

/-- A frame that fits in the Y bank is written there and nowhere else. -/
theorem putFrame_spec (c : CoreId) (ws : List Word) {off : Nat} (fits : off + ws.length ≤ 0x10000) (s : State) :
    (putFrame c off ws s).mem = { s.mem with xy := (putFrame c off ws s).mem.xy } ∧
      (∀ j, j < ws.length → xyGet (putFrame c off ws s) c.val (0x10000 + off + j) = ws.getD j 0) ∧
      ∀ n, (n < c.val * 131072 + 0x10000 + off ∨ c.val * 131072 + 0x10000 + off + ws.length ≤ n) →
        mapGet 0 (putFrame c off ws s).mem.xy n = mapGet 0 s.mem.xy n := by
  induction ws generalizing off s with
  | nil => exact ⟨rfl, fun j hj => absurd hj (Nat.not_lt_zero j), fun _ _ => rfl⟩
  | cons w ws ih =>
    rw [List.length_cons] at fits
    have step : putFrame c off (w :: ws) s = putFrame c (off + 1) ws (xySet c.val (0x10000 + off) w s) :=
      congrArg (putFrame c (off + 1) ws) (if_pos (by omega))
    obtain ⟨mem, words, others⟩ := ih (off := off + 1) (by omega) (xySet c.val (0x10000 + off) w s)
    rw [step]
    generalize putFrame c (off + 1) ws (xySet c.val (0x10000 + off) w s) = u at mem words others
    refine ⟨mem, fun j hj => ?_, fun n hn => ?_⟩
    · match j with
      | 0 =>
        show mapGet 0 u.mem.xy (c.val * 131072 + (0x10000 + off + 0)) = w
        rw [others _ (.inl (by omega))]
        exact xyGet_xySet_same ..
      | j + 1 =>
        have h := words j (by rw [List.length_cons] at hj; omega)
        rw [show 0x10000 + off + (j + 1) = 0x10000 + (off + 1) + j by omega, h]
        rfl
    · rw [List.length_cons] at hn
      rw [others n (by omega), xy_xySet_other _ (by omega)]

/-! ### The entry -/

/-- A settled core at an entry. -/
def enteredCore (entry prio : Nat) (fault : Bool) (t : Nest) (k : Core) : Core :=
  { k with r := setSt (stEntry k.r.st prio fault) k.r, pc := BitVec.ofNat 17 entry, base := false, waiting := false,
           slots := 0, annul := 0, after := .none, atLoopEdge := false, nest := t :: k.nest }

theorem enterAt_eq (c : CoreId) (off entry prio : Nat) (fault : Bool) (t : Nest) (s : State) : enterAt c off entry prio fault t s =
    count (scBase c + 11) (putWord (scBase c + 2) (word off) (setCore c (enteredCore entry prio fault t (settle s.cores[c]))
      (putFrame c off (frameWords (settle s.cores[c]).r (settle s.cores[c]).pc fault t.desc) s))) := rfl

/-- What an entry leaves, its frame apart. -/
structure entered (c : CoreId) (off entry prio : Nat) (fault : Bool) (t : Nest) (s u : State) : Prop where
  parts : sameBut [.regs, .held, .mem, .cores] s u
  regs : touches (· ∈ [scBase c + 2, scBase c + 11]) s u
  core : u.cores[c] = enteredCore entry prio fault t (settle s.cores[c])
  others : ∀ k : CoreId, k ≠ c → u.cores[k] = s.cores[k]
  esp : regGet u (scBase c + 2) = word off
  mem : u.mem = (putFrame c off (frameWords (settle s.cores[c]).r (settle s.cores[c]).pc fault t.desc) s).mem

theorem enterAt_spec (c : CoreId) (off entry prio : Nat) (fault : Bool) (t : Nest) (s : State) : entered c off entry prio fault t s (enterAt c off entry prio fault t s) := by
  rw [enterAt_eq]
  have parts1 := putFrame_parts c off (frameWords (settle s.cores[c]).r (settle s.cores[c]).pc fault t.desc) s
  generalize framed : putFrame c off (frameWords (settle s.cores[c]).r (settle s.cores[c]).pc fault t.desc) s = s1 at parts1 ⊢
  generalize core : enteredCore entry prio fault t (settle s.cores[c]) = k
  have set : coreOnly c [] s1 (setCore c k s1) := coreOnly_setCore k s1
  have parts2 := setCore_parts c k s1
  have core2 : (setCore c k s1).cores[c] = k := setCore_same ..
  have regs2 : (setCore c k s1).regs = s1.regs ∧ (setCore c k s1).held = s1.held := ⟨rfl, rfl⟩
  generalize setCore c k s1 = s2 at set parts2 core2 regs2 ⊢
  have a2 : canonAddr (scBase c + 2) = scBase c + 2 := canonAddr_scBase c 2
  have a11 : canonAddr (scBase c + 11) = scBase c + 11 := canonAddr_scBase c 11
  have parts3 : sameBut [.regs, .held] s2 (putWord (scBase c + 2) (word off) s2) := (putWord_keeps _ _ (by decide) (keeps_refl _ s2)).parts
  have regs3 : touches (· ∈ [scBase c + 2, scBase c + 11]) s2 (putWord (scBase c + 2) (word off) s2) :=
    touches_putWord _ (by rw [a2]; simp) (touches_refl _ s2)
  have esp3 : regGet (putWord (scBase c + 2) (word off) s2) (scBase c + 2) = word off := regGet_putWord_same ..
  generalize putWord (scBase c + 2) (word off) s2 = s3 at parts3 regs3 esp3 ⊢
  have parts4 : sameBut [.regs, .held] s3 (count (scBase c + 11) s3) := (count_keeps _ (by decide) (keeps_refl _ s3)).parts
  have regs4 : touches (· ∈ [scBase c + 2, scBase c + 11]) s3 (count (scBase c + 11) s3) := touches_count (by rw [a11]; simp) (touches_refl _ s3)
  have esp4 : regGet (count (scBase c + 11) s3) (scBase c + 2) = regGet s3 (scBase c + 2) := regGet_count_other _ (by rw [a2, a11]; omega)
  generalize count (scBase c + 11) s3 = s4 at parts4 regs4 esp4 ⊢
  have cores : s4.cores = s2.cores := (parts4.cores (by decide)).trans (parts3.cores (by decide))
  refine ⟨sameBut_trans (sameBut_mono (by decide) parts1) (sameBut_trans (sameBut_mono (by decide) parts2) (sameBut_trans (sameBut_mono (by decide) parts3)
    (sameBut_mono (by decide) parts4))), ?_, by rw [cores, core]; exact core2, fun k hk => ?_, by rw [esp4]; exact esp3, ?_⟩
  · exact touches_trans (touches_sameBut (touches_of_sameBut parts1 (by decide) (by decide)) parts2 (by decide) (by decide)) (touches_trans regs3 regs4)
  · rw [cores, set.others k hk, parts1.cores (by decide)]
  · rw [framed, parts4.mem (by decide), parts3.mem (by decide), parts2.mem (by decide)]

/-- The status word at an entry (R325). -/
theorem stEntry_spec (st : Word) {prio : Nat} (hp : prio < 8) (fault : Bool) :
    stPri (stEntry st prio fault) = prio ∧ stDepth (stEntry st prio fault) = 0 ∧ bit (stEntry st prio fault) 0 = fault ∧
      ∀ n, 10 < n → bit (stEntry st prio fault) n = bit st n := by
  unfold stEntry stPri stDepth
  refine ⟨?_, ?_, bit_setBit_same _ _ (by decide), fun n hn => ?_⟩
  · rw [fld_setBit_other _ _ (by decide) (by decide), fld_setFld_other _ _ (by decide) (by decide) (by decide), fld_setFld_other _ _ (by decide) (by decide) (by decide),
      fld_setFld_other _ _ (by decide) (by decide) (by decide), fld_setFld_same _ _ (by decide) (by decide)]
    omega
  · rw [fld_setBit_other _ _ (by decide) (by decide), fld_setFld_other _ _ (by decide) (by decide) (by decide), fld_setFld_same _ _ (by decide) (by decide), Nat.zero_mod]
  · rw [bit_setBit_other _ _ (by decide) (by omega), bit_setFld_other _ _ (by decide) (by decide) (by omega), bit_setFld_other _ _ (by decide) (by decide) (by omega),
      bit_setFld_other _ _ (by decide) (by decide) (by omega), bit_setFld_other _ _ (by decide) (by decide) (by omega)]

theorem onlyEvents.regGet {t : State} (h : onlyEvents s t) {a : Nat} (ha : eventReg (canonAddr a) = false) : regGet t a = regGet s a :=
  (h.regs a (by simp) ha).1

/-! ### Tasks -/

theorem descCfg_apart {d : Nat} (hd : d < 512) (c : CoreId) (i : Nat) {j : Nat} (hj : j < 4) : descCfg d + j ≠ scBase c + i := by
  unfold descCfg scBase
  omega

/-- A post taken from the ready store for a core: the hold-off counter and the CORE field of its descriptor (R366, R370). -/
structure postTaken (c : CoreId) (i : Nat) (p : Post) (s t : State) : Prop where
  parts : sameBut [.regs, .held, .pg, .bv, .pc] s t
  regs : touches (orEvents [scBase c + 9, descCfg p.desc + 3]) s t
  ready : t.pg.ready = s.pg.ready.eraseIdx i
  delay : t.pg.delay = s.pg.delay

theorem acceptPost_spec (c : CoreId) (i : Nat) (p : Post) (f : Word → Word) (s : State) : postTaken c i p s (hwMod (scBase c + 9) f (acceptPost c i p s)) := by
  let s0 : State := { s with pg := { s.pg with ready := s.pg.ready.eraseIdx i } }
  have parts0 : sameBut [.pg] s s0 := (keeps_pg { s.pg with ready := s.pg.ready.eraseIdx i } (by decide) (keeps_refl _ s)).parts
  have ready0 : s0.pg.ready = s.pg.ready.eraseIdx i := rfl
  have delay0 : s0.pg.delay = s.pg.delay := rfl
  have e : acceptPost c i p s = putFld (descCfg p.desc + 3) 10 8 c.val (pcSys 0x56 1 s0) := rfl
  rw [e]
  clear_value s0
  have event := pcSys_onlyEvents 0x56 1 (onlyEvents_refl s0)
  generalize pcSys 0x56 1 s0 = s1 at event ⊢
  have a3 : canonAddr (descCfg p.desc + 3) = descCfg p.desc + 3 := canonAddr_high (by unfold descCfg; omega)
  have a9 : canonAddr (scBase c + 9) = scBase c + 9 := canonAddr_scBase c 9
  have parts2 : sameBut [.regs, .held] s1 (putFld (descCfg p.desc + 3) 10 8 c.val s1) := (putFld_keeps _ _ _ _ (by decide) (keeps_refl _ s1)).parts
  have regs2 : touches (orEvents [scBase c + 9, descCfg p.desc + 3]) s1 (putFld (descCfg p.desc + 3) 10 8 c.val s1) :=
    touches_putFld _ _ _ (.inl (by rw [a3]; simp)) (touches_refl _ s1)
  generalize putFld (descCfg p.desc + 3) 10 8 c.val s1 = s2 at parts2 regs2 ⊢
  have parts3 : sameBut [.regs, .held] s2 (hwMod (scBase c + 9) f s2) := (hwMod_keeps _ _ (by decide) (keeps_refl _ s2)).parts
  have regs3 : touches (orEvents [scBase c + 9, descCfg p.desc + 3]) s2 (hwMod (scBase c + 9) f s2) := touches_hwMod _ (.inl (by rw [a9]; simp)) (touches_refl _ s2)
  generalize hwMod (scBase c + 9) f s2 = s3 at parts3 regs3 ⊢
  have pg : s3.pg = s1.pg := (parts3.pg (by decide)).trans (parts2.pg (by decide))
  refine ⟨sameBut_trans (sameBut_mono (by decide) parts0) (sameBut_trans (sameBut_mono (by decide) event.parts) (sameBut_trans (sameBut_mono (by decide) parts2)
    (sameBut_mono (by decide) parts3))), ?_, ?_, ?_⟩
  · exact touches_trans (touches_trans (touches_events (touches_of_sameBut parts0 (by decide) (by decide)) event) regs2) regs3
  · rw [pg, event.pg]; exact ready0
  · rw [pg, event.pg]; exact delay0

/-- A field of the core's or the descriptor's registers that the acceptance does not write. -/
theorem postTaken.scFld {i : Nat} {p : Post} {t : State} (h : postTaken c i p s t) (hd : p.desc < 512) {j : Nat} (hj : j < 9) (hi lo : Nat) :
    fldOf t (scBase c + j) hi lo = fldOf s (scBase c + j) hi lo := by
  refine h.regs.fldOf ?_ hi lo
  rw [canonAddr_scBase]
  refine not_orEvents ?_ (scBase_not_event c (by omega))
  have := descCfg_apart hd c j (j := 3) (by decide)
  simp
  omega

theorem postTaken.descFld {i : Nat} {p : Post} {t : State} (h : postTaken c i p s t) (hd : p.desc < 512) {j : Nat} (hj : j < 3) (hi lo : Nat) :
    fldOf t (descCfg p.desc + j) hi lo = fldOf s (descCfg p.desc + j) hi lo := by
  refine h.regs.fldOf ?_ hi lo
  rw [canonAddr_high (by unfold descCfg; omega)]
  refine not_orEvents ?_ (by unfold eventReg descCfg; simp; omega)
  have := descCfg_apart hd c 9 (j := j) (by omega)
  simp
  omega

theorem settle_bit {k : Core} (hl : k.ldSlot = []) (hf : k.inFlight = []) {n : Nat} (h14 : n ≠ 14) (h15 : n ≠ 15) : bit (settle k).r.st n = bit k.r.st n := by
  have e : (settle k).r.st = setBit (setBit k.r.st 15 (accAv k.r.ac[0])) 14 (accAv k.r.ac[1]) := by
    unfold settle
    rw [hl, hf]
    rfl
  rw [e, bit_setBit_other _ _ (by decide) h14, bit_setBit_other _ _ (by decide) h15]

/-- The core that an entry leaves, from one with no loads to land. -/
theorem enteredCore_spec {k : Core} (hl : k.ldSlot = []) (hf : k.inFlight = []) (entry : Nat) {prio : Nat} (hp : prio < 8) (fault : Bool) (t : Nest) (u : Core)
    (hu : u = enteredCore entry prio fault t (settle k)) :
    u.pc = BitVec.ofNat 17 entry ∧ stPri u.r.st = prio ∧ stDepth u.r.st = 0 ∧ bit u.r.st 0 = fault ∧ u.base = false ∧ u.waiting = false ∧ u.nest = t :: k.nest ∧
      u.r.d = k.r.d ∧ u.r.ac = k.r.ac ∧ flagsSame k.r.st u.r.st ∧ u.halted = k.halted := by
  have settled := settle_rest hl hf
  have d : (settle k).r.d = k.r.d := (congrArg (fun k : Core => k.r.d) settled :)
  have ac : (settle k).r.ac = k.r.ac := (congrArg (fun k : Core => k.r.ac) settled :)
  have nest : (settle k).nest = k.nest := (congrArg Core.nest settled :)
  have halted : (settle k).halted = k.halted := (congrArg Core.halted settled :)
  obtain ⟨pri, depth, flt, high⟩ := stEntry_spec (settle k).r.st hp fault
  have flag : ∀ n, 10 < n → n ≠ 14 → n ≠ 15 → bit (stEntry (settle k).r.st prio fault) n = bit k.r.st n := fun n h h14 h15 => (high n h).trans (settle_bit hl hf h14 h15)
  subst hu
  exact ⟨rfl, pri, depth, flt, rfl, rfl, congrArg (t :: ·) nest, d, ac,
    ⟨flag 19 (by decide) (by decide) (by decide), flag 18 (by decide) (by decide) (by decide), flag 17 (by decide) (by decide) (by decide),
      flag 16 (by decide) (by decide) (by decide), flag 13 (by decide) (by decide) (by decide)⟩, halted⟩

theorem mayAccept_quiet {k : Core} (h : mayAccept k = true) : k.ldSlot = [] ∧ k.inFlight = [] := by
  unfold mayAccept at h
  simp only [Bool.and_eq_true, List.isEmpty_iff] at h
  obtain ⟨⟨⟨⟨⟨-, hl⟩, -⟩, hf⟩, -⟩, -⟩ := h
  exact ⟨hl, hf⟩

theorem acceptTask_spec (s : State) (c : CoreId) (h i : Nat) (p : Post) (presented : presentedTo s c = some i) (post : s.pg.ready[i]? = some p) (hd : p.desc < 512)
    (may : mayAccept s.cores[c] = true) (idle : ∀ k : CoreId, s.cores[k].stalled = none) (room : fldOf s (scBase c + 3) 15 0 + 12 ≤ fldOf s (scBase c + 2) 16 0)
    (top : fldOf s (scBase c + 2) 16 0 ≤ 0x10000) :
    ∃ u, exec (.taskAcceptance c h) s = .next u ∧ u.cores[c].pc = BitVec.ofNat 17 (descEntry s p.desc) ∧
      stPri u.cores[c].r.st = descPrio s p.desc ∧ stDepth u.cores[c].r.st = 0 ∧ bit u.cores[c].r.st 0 = false ∧
      u.cores[c].base = false ∧ u.cores[c].waiting = false ∧ u.cores[c].nest = ⟨p.desc, p.arg, p.key⟩ :: s.cores[c].nest ∧
      u.cores[c].r.d = s.cores[c].r.d ∧ u.cores[c].r.ac = s.cores[c].r.ac ∧
      flagsSame s.cores[c].r.st u.cores[c].r.st ∧ u.pg.ready = s.pg.ready.eraseIdx i ∧ u.pg.delay = s.pg.delay ∧
      regGet u (scBase c + 2) = word (fldOf s (scBase c + 2) 16 0 - 12) ∧
      xyGet u c.val (0x10000 + fldOf s (scBase c + 2) 16 0 - 12 + 10) = word s.cores[c].pc.toNat ∧
      (∀ k : CoreId, k ≠ c → u.cores[k] = s.cores[k]) ∧ u.mem = { s.mem with xy := u.mem.xy } ∧
      (∀ n, (n < c.val * 131072 + 0x10000 + fldOf s (scBase c + 2) 16 0 - 12 ∨ c.val * 131072 + 0x10000 + fldOf s (scBase c + 2) 16 0 ≤ n) →
        mapGet 0 u.mem.xy n = mapGet 0 s.mem.xy n) ∧
      sameBut [.regs, .held, .mem, .cores, .pg, .bv, .pc] s u ∧
      regsButEvents [scBase c + 2, scBase c + 9, scBase c + 11, descCfg p.desc + 3] s u := by
  obtain ⟨hl, hf⟩ := mayAccept_quiet may
  have run : ∃ f, acceptTask c h s = (let s1 := hwMod (scBase c + 9) f (acceptPost c i p s)
      if fldOf s1 (scBase c + 2) 16 0 < fldOf s1 (scBase c + 3) 15 0 + 12 then retryStalled (coreFault c 6 0 (setCore c { s1.cores[c] with waiting := false } s1))
      else retryStalled (pcCore c.val [(0x17, 1, 1)]
        (enterAt c (fldOf s1 (scBase c + 2) 16 0 - 12) (descEntry s1 p.desc) (descPrio s1 p.desc) false ⟨p.desc, p.arg, p.key⟩ s1))) := by
    unfold acceptTask
    simp only [presented, post, landFlights_of_none hf, may, Bool.not_true, Bool.false_eq_true, if_false, setCore_self]
    exact ⟨_, rfl⟩
  obtain ⟨f, run⟩ := run
  have taken := acceptPost_spec c i p f s
  generalize hwMod (scBase c + 9) f (acceptPost c i p s) = s1 at run taken
  have esp : fldOf s1 (scBase c + 2) 16 0 = fldOf s (scBase c + 2) 16 0 := taken.scFld hd (by decide) 16 0
  have esl : fldOf s1 (scBase c + 3) 15 0 = fldOf s (scBase c + 3) 15 0 := taken.scFld hd (by decide) 15 0
  have entry : descEntry s1 p.desc = descEntry s p.desc := taken.descFld hd (by decide) 16 0
  have prio : descPrio s1 p.desc = descPrio s p.desc := taken.descFld hd (j := 0) (by decide) 16 14
  have hp : descPrio s p.desc < 8 := Nat.mod_lt _ (by decide)
  have cores1 : s1.cores = s.cores := taken.parts.cores (by decide)
  dsimp only at run
  rw [esp, esl, entry, prio, if_neg (by omega)] at run
  have ent := enterAt_spec c (fldOf s (scBase c + 2) 16 0 - 12) (descEntry s p.desc) (descPrio s p.desc) false ⟨p.desc, p.arg, p.key⟩ s1
  generalize enterAt c (fldOf s (scBase c + 2) 16 0 - 12) (descEntry s p.desc) (descPrio s p.desc) false ⟨p.desc, p.arg, p.key⟩ s1 = s2 at run ent
  obtain ⟨parts2, regs2, core2, others2, esp2, mem2⟩ := ent
  rw [cores1] at core2 mem2
  have event := pcCore_onlyEvents c.isLt [(0x17, 1, 1)] (onlyEvents_refl s2)
  generalize pcCore c.val [(0x17, 1, 1)] s2 = u at run event
  have coresU : u.cores = s2.cores := event.parts.cores (by decide)
  have memU : u.mem = s2.mem := event.parts.mem (by decide)
  obtain ⟨pc, pri, depth, flt, base, waiting, nest, d, ac, flags, -⟩ := enteredCore_spec hl hf (descEntry s p.desc) hp false ⟨p.desc, p.arg, p.key⟩ _ core2
  have stalled2 : s2.cores[c].stalled = none := by
    rw [core2]
    exact (congrArg Core.stalled (settle_rest hl hf) :).trans (idle c)
  have idleU : ∀ k : CoreId, u.cores[k].stalled = none := fun k => by
    rw [coresU]
    by_cases hk : k = c
    · rw [hk]; exact stalled2
    · rw [others2 k hk, cores1]; exact idle k
  rw [retryStalled_idle idleU] at run
  obtain ⟨memF, words, otherWords⟩ := putFrame_spec c (frameWords (settle s.cores[c]).r (settle s.cores[c]).pc false p.desc) (off := fldOf s (scBase c + 2) 16 0 - 12)
    (by show _ + 12 ≤ _; omega) s1
  have mem1 : s1.mem = s.mem := taken.parts.mem (by decide)
  have memAll : u.mem = (putFrame c (fldOf s (scBase c + 2) 16 0 - 12) (frameWords (settle s.cores[c]).r (settle s.cores[c]).pc false p.desc) s1).mem := memU.trans mem2
  have ret : (settle s.cores[c]).pc = s.cores[c].pc := (congrArg Core.pc (settle_rest hl hf) :)
  refine ⟨u, congrArg Host.Outcome.next run, by rw [coresU]; exact pc, by rw [coresU]; exact pri, by rw [coresU]; exact depth, by rw [coresU]; exact flt,
    by rw [coresU]; exact base, by rw [coresU]; exact waiting, by rw [coresU]; exact nest, by rw [coresU]; exact d, by rw [coresU]; exact ac, by rw [coresU]; exact flags,
    ?_, ?_, ?_, ?_, fun k hk => by rw [coresU, others2 k hk, cores1], ?_, fun n hn => ?_, ?_, ?_⟩
  · rw [event.pg, parts2.pg (by decide)]; exact taken.ready
  · rw [event.pg, parts2.pg (by decide)]; exact taken.delay
  · rw [event.regGet (by rw [canonAddr_scBase]; exact scBase_not_event c (by decide)), esp2]
  · rw [xyGet_of_mem memAll, show 0x10000 + fldOf s (scBase c + 2) 16 0 - 12 + 10 = 0x10000 + (fldOf s (scBase c + 2) 16 0 - 12) + 10 by omega, words 10 (by show 10 < 12; decide), ← ret]
    rfl
  · rw [memAll, ← mem1]; exact memF
  · rw [memAll, otherWords n (by show _ ∨ _ + 12 ≤ n; omega), mem1]
  · exact sameBut_trans (sameBut_mono (by decide) taken.parts) (sameBut_trans (sameBut_mono (by decide) parts2) (sameBut_mono (by decide) event.parts))
  · refine regsButEvents_of_touches (touches_events (touches_trans (touches_mono taken.regs (orEvents_mono (by simp))) (touches_mono regs2 fun a ha => .inl ?_)) event)
    simp only [List.mem_cons, List.not_mem_nil, or_false] at ha ⊢
    omega

/-! ### Faults -/

/-- The registers of a core's fault record. -/
def faultRegs (c : CoreId) : List Nat := [scBase c + 5, scBase c + 6, scBase c + 7, scBase c + 8, scBase c + 10, 0xF5400A, 0xF5400B]

theorem scBase_apart (c : CoreId) {j : Nat} (hj : j < 16) (a : Nat) (ha : a = 0xF5400A ∨ a = 0xF5400B) : scBase c + j ≠ a := by
  unfold scBase
  have := c.isLt
  omega

theorem faultAddr_spec (code addr : Nat) (s : State) : sameBut [.freeCtr] s (faultAddr code addr s).2 := by
  unfold faultAddr
  split
  · exact sameBut_refl _ s
  · exact (freeNat_keeps (by decide) (keeps_refl _ s)).parts

/-- What a core fault records (R330). -/
structure faultNoted (c : CoreId) (code : Nat) (s t : State) : Prop where
  parts : sameBut [.freeCtr, .sys, .regs, .held, .pg, .bv, .pc] s t
  regs : touches (orEvents (faultRegs c)) s t
  code : regGet t (scBase c + 5) = word (code * 2 ^ 12 + (if code = 9 ∨ code = 6 then 0 else 2 ^ 11))
  pc : regGet t (scBase c + 8) = word s.cores[c].pc.toNat
  count : regGet t (scBase c + 10) = regGet s (scBase c + 10) + 1

theorem coreFaultRecord_spec (c : CoreId) (code addr : Nat) (s : State) : faultNoted c code s (coreFaultRecord c code addr s) := by
  have parts := coreFaultRecord_parts c code addr s
  have own : ∀ i, canonAddr (scBase c + i) = scBase c + i := canonAddr_scBase c
  have listed : ∀ i ∈ [5, 6, 7, 8, 10], orEvents (faultRegs c) (canonAddr (scBase c + i)) := fun i hi => by
    rw [own]
    refine .inl ?_
    unfold faultRegs
    simp only [List.mem_cons, List.not_mem_nil, or_false] at hi ⊢
    omega
  have e : coreFaultRecord c code addr s = faultRecord 1 code c.val 0 (raiseEvent (17 + c.val) (Machine.count (scBase c + 10)
      (putWord (scBase c + 8) (word (faultAddr code addr s).2.cores[c].pc.toNat) (putWord (scBase c + 7) (word (faultAddr code addr s).1)
        (putWord (scBase c + 6) (word ((faultAddr code addr s).1 / 2 ^ 20 % 16))
          (putWord (scBase c + 5) (word (code * 2 ^ 12 + (if code = 9 ∨ code = 6 then 0 else 2 ^ 11))) (faultAddr code addr s).2)))))) := rfl
  have parts0 := faultAddr_spec code addr s
  rw [e] at parts ⊢
  generalize (faultAddr code addr s).1 = ad at parts ⊢
  generalize (faultAddr code addr s).2 = s0 at parts parts0 ⊢
  have regs0 : touches (orEvents (faultRegs c)) s s0 := touches_of_sameBut parts0 (by decide) (by decide)
  have count0 : regGet s0 (scBase c + 10) = regGet s (scBase c + 10) := regGet_of_regs (parts0.regs (by decide)) _
  rw [parts0.cores (by decide)] at parts ⊢
  have regs1 : touches (orEvents (faultRegs c)) s (putWord (scBase c + 5) (word (code * 2 ^ 12 + (if code = 9 ∨ code = 6 then 0 else 2 ^ 11))) s0) :=
    touches_putWord _ (listed 5 (by decide)) regs0
  have code1 : regGet (putWord (scBase c + 5) (word (code * 2 ^ 12 + (if code = 9 ∨ code = 6 then 0 else 2 ^ 11))) s0) (scBase c + 5) = _ := regGet_putWord_same ..
  have count1 : regGet (putWord (scBase c + 5) (word (code * 2 ^ 12 + (if code = 9 ∨ code = 6 then 0 else 2 ^ 11))) s0) (scBase c + 10) = _ :=
    regGet_putWord_other _ _ (by rw [own, own]; omega)
  generalize putWord (scBase c + 5) (word (code * 2 ^ 12 + (if code = 9 ∨ code = 6 then 0 else 2 ^ 11))) s0 = s1 at parts regs1 code1 count1 ⊢
  have regs3 : touches (orEvents (faultRegs c)) s (putWord (scBase c + 7) (word ad) (putWord (scBase c + 6) (word (ad / 2 ^ 20 % 16)) s1)) :=
    touches_putWord _ (listed 7 (by decide)) (touches_putWord _ (listed 6 (by decide)) regs1)
  have same3 : ∀ i, i ≠ 6 → i ≠ 7 → regGet (putWord (scBase c + 7) (word ad) (putWord (scBase c + 6) (word (ad / 2 ^ 20 % 16)) s1)) (scBase c + i) = regGet s1 (scBase c + i) :=
    fun i h6 h7 => by rw [regGet_putWord_other _ _ (by rw [own, own]; omega), regGet_putWord_other _ _ (by rw [own, own]; omega)]
  generalize putWord (scBase c + 7) (word ad) (putWord (scBase c + 6) (word (ad / 2 ^ 20 % 16)) s1) = s3 at parts regs3 same3 ⊢
  have regs4 : touches (orEvents (faultRegs c)) s (putWord (scBase c + 8) (word s.cores[c].pc.toNat) s3) := touches_putWord _ (listed 8 (by decide)) regs3
  have pc4 : regGet (putWord (scBase c + 8) (word s.cores[c].pc.toNat) s3) (scBase c + 8) = _ := regGet_putWord_same ..
  have same4 : ∀ i, i ≠ 8 → regGet (putWord (scBase c + 8) (word s.cores[c].pc.toNat) s3) (scBase c + i) = regGet s3 (scBase c + i) :=
    fun i h => regGet_putWord_other _ _ (by rw [own, own]; omega)
  generalize putWord (scBase c + 8) (word s.cores[c].pc.toNat) s3 = s4 at parts regs4 pc4 same4 ⊢
  have regs5 : touches (orEvents (faultRegs c)) s (Machine.count (scBase c + 10) s4) := touches_count (listed 10 (by decide)) regs4
  have count5 : regGet (Machine.count (scBase c + 10) s4) (scBase c + 10) = _ := regGet_count_same ..
  have same5 : ∀ i, i ≠ 10 → regGet (Machine.count (scBase c + 10) s4) (scBase c + i) = regGet s4 (scBase c + i) := fun i h => regGet_count_other _ (by rw [own, own]; omega)
  generalize Machine.count (scBase c + 10) s4 = s5 at parts regs5 count5 same5 ⊢
  have event : onlyEvents s5 (raiseEvent (17 + c.val) s5) := raiseEvent_onlyEvents (by have := c.isLt; omega) (onlyEvents_refl s5)
  generalize raiseEvent (17 + c.val) s5 = s6 at parts event ⊢
  have same6 : ∀ i, i < 16 → regGet s6 (scBase c + i) = regGet s5 (scBase c + i) := fun i hi => event.regGet (by rw [own]; exact scBase_not_event c hi)
  obtain ⟨-, regs7, -⟩ := faultRecord_spec 1 code c.val 0 s6
  have same7 : ∀ i, i < 16 → regGet (faultRecord 1 code c.val 0 s6) (scBase c + i) = regGet s6 (scBase c + i) := fun i hi =>
    regs7.regGet (by rw [own]; have h1 := scBase_apart c hi _ (.inl rfl); have h2 := scBase_apart c hi _ (.inr rfl); simp; omega)
  have regsAll : touches (orEvents (faultRegs c)) s (faultRecord 1 code c.val 0 s6) :=
    touches_trans (touches_events regs5 event) (touches_mono regs7 fun a ha => .inl (by unfold faultRegs; simp at ha ⊢; omega))
  refine ⟨parts, regsAll, ?_, ?_, ?_⟩
  · rw [same7 5 (by decide), same6 5 (by decide), same5 5 (by decide), same4 5 (by decide), same3 5 (by decide) (by decide), code1]
  · rw [same7 8 (by decide), same6 8 (by decide), same5 8 (by decide), pc4]
  · rw [same7 10 (by decide), same6 10 (by decide), count5, same4 10 (by decide), same3 10 (by decide) (by decide), count1, count0]

/-- A field of a register that the fault record does not write. -/
theorem faultNoted.fld {code : Nat} {t : State} (h : faultNoted c code s t) {j : Nat} (hj : j < 5) (hi lo : Nat) :
    fldOf t (scBase c + j) hi lo = fldOf s (scBase c + j) hi lo := by
  refine h.regs.fldOf ?_ hi lo
  rw [canonAddr_scBase]
  refine not_orEvents ?_ (scBase_not_event c (by omega))
  have h1 := scBase_apart c (j := j) (by omega) _ (.inl rfl)
  have h2 := scBase_apart c (j := j) (by omega) _ (.inr rfl)
  unfold faultRegs
  simp
  omega

/-- A first fault with room for its frame enters at FVEC (R330). -/
theorem coreFault_first {code : Nat} (addr : Nat) (clear_ : bit s.cores[c].r.st 0 = false) (room : fldOf s (scBase c + 3) 15 0 + 12 ≤ fldOf s (scBase c + 2) 16 0) :
    ∃ t, faultNoted c code s t ∧ entered c (fldOf s (scBase c + 2) 16 0 - 12) (fldOf s (scBase c + 4) 16 0) (stPri s.cores[c].r.st) true ⟨0x1FF, 0, none⟩ t (coreFault c code addr s) := by
  have noted := coreFaultRecord_spec c code addr s
  refine ⟨coreFaultRecord c code addr s, noted, ?_⟩
  unfold coreFault
  generalize coreFaultRecord c code addr s = t at noted ⊢
  have cores : t.cores = s.cores := noted.parts.cores (by decide)
  dsimp only
  rw [cores, noted.fld (by decide), noted.fld (by decide), noted.fld (by decide), if_neg (by rw [clear_]; decide), if_neg (by omega)]
  exact enterAt_spec ..

theorem faultCode_fld : fld (word (4 * 2 ^ 12 + (if (4 : Nat) = 9 ∨ (4 : Nat) = 6 then 0 else 2 ^ 11))) 19 12 = 4 := by decide

theorem illegal_first (s : State) (c : CoreId) (why : BadWord) (sound : why ≠ .ecc) (takes : takesWords s.cores[c] = true) (annul : s.cores[c].annul = 0)
    (hf : s.cores[c].inFlight = []) (clear_ : bit s.cores[c].r.st 0 = false) (room : fldOf s (scBase c + 3) 15 0 + 12 ≤ fldOf s (scBase c + 2) 16 0) :
    ∃ u, exec (.illegalInstruction c why) s = .next u ∧ u.cores[c].pc = BitVec.ofNat 17 (fldOf s (scBase c + 4) 16 0) ∧
      bit u.cores[c].r.st 0 = true ∧ u.cores[c].base = false ∧ u.cores[c].halted = false ∧
      u.cores[c].nest = ⟨0x1FF, 0, none⟩ :: s.cores[c].nest ∧ fld (regGet u (scBase c + 5)) 19 12 = 4 ∧
      regGet u (scBase c + 8) = word s.cores[c].pc.toNat ∧ regGet u (scBase c + 10) = regGet s (scBase c + 10) + 1 ∧
      regGet u (scBase c + 2) = word (fldOf s (scBase c + 2) 16 0 - 12) ∧ (∀ k : CoreId, k ≠ c → u.cores[k] = s.cores[k]) := by
  have run : badWord c why s = coreFault c 4 0 s := by
    unfold badWord
    rw [guardWord_of_ready _ takes annul hf]
    exact if_neg sound
  have awake : s.cores[c].halted = false := by
    unfold takesWords at takes
    simp only [Bool.and_eq_true, Bool.not_eq_true'] at takes
    exact takes.1.1.2
  obtain ⟨t, noted, ent⟩ := coreFault_first (code := 4) 0 clear_ room
  generalize coreFault c 4 0 s = u at run ent
  obtain ⟨-, regs, core, others, esp, -⟩ := ent
  have cores : t.cores = s.cores := noted.parts.cores (by decide)
  rw [cores] at core
  have same : ∀ i, i ≠ 2 → i ≠ 11 → regGet u (scBase c + i) = regGet t (scBase c + i) := fun i h2 h11 =>
    regs.regGet (by rw [canonAddr_scBase]; simp; omega)
  have hp : stPri s.cores[c].r.st < 8 := Nat.mod_lt _ (by decide)
  refine ⟨u, congrArg Host.Outcome.next run, by rw [core]; rfl, ?_, by rw [core]; rfl, by rw [core]; exact awake, by rw [core]; rfl, ?_, ?_, ?_, esp, fun k hk => by rw [others k hk, cores]⟩
  · rw [core]
    exact (stEntry_spec _ hp true).2.2.1
  · rw [same 5 (by decide) (by decide), noted.code]
    exact faultCode_fld
  · rw [same 8 (by decide) (by decide), noted.pc]
  · rw [same 10 (by decide) (by decide), noted.count]

theorem illegal_second (s : State) (c : CoreId) (why : BadWord) (sound : why ≠ .ecc) (takes : takesWords s.cores[c] = true) (annul : s.cores[c].annul = 0)
    (hf : s.cores[c].inFlight = []) (set : bit s.cores[c].r.st 0 = true) :
    ∃ u, exec (.illegalInstruction c why) s = .next u ∧ u.cores[c].halted = true ∧ u.cores[c].dflt = true ∧ u.cores[c].r = s.cores[c].r ∧
      u.cores[c].pc = s.cores[c].pc ∧ fld (regGet u (scBase c + 5)) 19 12 = 4 ∧ u.mem = s.mem ∧ (∀ k : CoreId, k ≠ c → u.cores[k] = s.cores[k]) := by
  have run : badWord c why s = coreFault c 4 0 s := by
    unfold badWord
    rw [guardWord_of_ready _ takes annul hf]
    exact if_neg sound
  obtain ⟨core, mem, others, regs⟩ := coreFault_halts (s := s) (c := c) 4 0 set
  have noted := coreFaultRecord_spec c 4 0 s
  refine ⟨_, congrArg Host.Outcome.next run, by rw [core], by rw [core], by rw [core], by rw [core], ?_, mem, others⟩
  rw [regGet_of_regs regs, noted.code]
  exact faultCode_fld

/-- Settles O28: tasks by `acceptTask_spec`, faults by `illegal_first` and `illegal_second`. -/
theorem tasksAndCoreFaultsAreEntered : Obligations.TasksAndCoreFaultsAreEntered := by
  unfold Obligations.TasksAndCoreFaultsAreEntered
  exact ⟨acceptTask_spec, fun s c why sound takes annul hf => ⟨illegal_first s c why sound takes annul hf, illegal_second s c why sound takes annul hf⟩⟩

end Sys2Proof.Machine
end

