-- ==== Sys2Proof/Proofs/MotionCommands.lean ====
section
/-! PROOFS. Profiles, and the commands MOVE, SPEED and FOLLOW (04 R94, R97, R98, R101). -/

namespace Sys2Proof.Machine

variable {s : State}

/-! ### The profile of an object -/

theorem profOf_setProf_same (o : Nat) (x : Profile) (s : State) : profOf (setProf o x s) o = x :=
  mapGet_mapPut_same _ _ _ _

theorem profOf_setProf_other {o q : Nat} (x : Profile) (s : State) (h : q ≠ o) : profOf (setProf o x s) q = profOf s q :=
  mapGet_mapPut_other _ _ _ _ h

theorem profOf_of_mo {s t : State} (h : t.mo = s.mo) (q : Nat) : profOf t q = profOf s q :=
  congrArg (fun m : Motion => mapGet Profile.reset m.prof q) h

theorem setProf_parts (o : Nat) (x : Profile) (s : State) : sameBut [.mo] s (setProf o x s) :=
  (keeps_mo _ (by decide) (keeps_refl [.mo] s)).parts

/-- Only the profile of one object, among all of the state, is another. -/
structure onlyProf (o : Nat) (s t : State) : Prop where
  others : ∀ q, q ≠ o → profOf t q = profOf s q
  mo : t.mo = { s.mo with prof := t.mo.prof }
  parts : sameBut [.mo] s t

theorem onlyProf_setProf (o : Nat) (x : Profile) (s : State) : onlyProf o s (setProf o x s) :=
  ⟨fun _ hq => profOf_setProf_other x s hq, rfl, setProf_parts o x s⟩

/-! ### The registers of an object -/

theorem mpBase_bounds (o : Fin 288) : 0xF08000 ≤ mpBase o ∧ mpBase o + 64 ≤ 0xF0F800 := by
  have := o.isLt
  unfold mpBase
  split <;> omega

theorem canonAddr_mp (o : Fin 288) {k : Nat} (h : k < 64) : canonAddr (mpBase o + k) = mpBase o + k := by
  have := mpBase_bounds o
  exact if_neg (by omega)

theorem canonAddr_mpStat (o : Fin 288) : canonAddr (mpStat o) = mpStat o := canonAddr_mp o (by decide)

/-- What setting a bit of MP_STAT leaves as it is. -/
theorem mpStat_setBit (o : Fin 288) {n : Nat} (hn : n < 20) (s : State) :
    bit (regGet (putBit (mpStat o) n true s) (mpStat o)) n = true ∧ sameBut [.regs, .held] s (putBit (mpStat o) n true s) ∧
      regsBut [mpStat o] s (putBit (mpStat o) n true s) := by
  refine ⟨?_, (putBit_keeps _ _ _ (by decide) (keeps_refl _ s)).parts, ?_⟩
  · rw [regGet_putBit, if_pos rfl, bit_setBit_same _ _ hn]
  · exact regsBut_of_touches (touches_putBit _ _ (by rw [canonAddr_mpStat]; exact List.mem_singleton_self _) (touches_refl _ s))

/-! ### A command with no treatment in its way -/

theorem runCommand_free {o code : Nat} (free : ∀ a ∈ commandAxes s o code, mapGet 0 s.mo.treat a = 0) :
    runCommand o code s = doCommand o code s := by
  refine if_pos (List.isEmpty_iff.mpr (List.filter_eq_nil_iff.mpr fun a ha => ?_))
  simp [free a ha]

/-- A profile at rest with a speed to run at plans its MOVE at once, with no sign (R97, R98). -/
theorem moveTo_rest {l : Limits} (P : Int) {x : Profile} (v : x.v = 0) (a : x.a = 0) (speed : 0 < l.v) :
    ∃ segs, moveTo l P x = ({ startPlan x segs (.at_ P) with st := .moving, ramp := 0, vPlan := l.v }, false, false) := by
  have direction : (if x.v = 0 then sgn x.a else sgn x.v) = 0 := by rw [if_pos v, a]; rfl
  have plan : moveTo l P x = (planMove l P x, false, false) := by
    unfold moveTo
    rw [direction]
    exact if_neg (by simp)
  rw [plan]
  unfold planMove
  rw [if_neg (by omega)]
  exact ⟨_, rfl⟩

/-- A MOVE of an object at rest starts its plan and is no more than that. -/
theorem doMove_rest {o : Nat} (P : Int) (v : (profOf s o).v = 0) (a : (profOf s o).a = 0) (speed : 0 < effVlim s o) :
    ∃ x : Profile, doMove o P s = setProf o x s ∧ x.st = .moving ∧ x.goal = .at_ P ∧ x.p0 = (profOf s o).p ∧ x.sp = (profOf s o).sp := by
  obtain ⟨segs, e⟩ := moveTo_rest (l := limitsOf s o) P (x := { profOf s o with waitCmd := 0, clamped := false }) v a speed
  exact ⟨_, congrArg (fun r => putMoved o r s) e, rfl, rfl, rfl, rfl⟩

theorem effVlim_of_limitsOk {o : Nat} (h : limitsOk s o = true) : 0 < effVlim s o := by
  simp only [limitsOk, Bool.and_eq_true, decide_eq_true_eq] at h
  exact h.2

/-! ### MOVE -/

/-- An accepted MOVE is carried out or waits for its treatments. -/
theorem moveCmd_accepted {o : Nat} (may : mayMove s o = true) (idle : (profOf s o).st = .idle) (ok : limitsOk s o = true)
    (mover : 256 ≤ o → effLevel s < 2 ∧ pairI s (mpBase o + 42) ≤ pairI s (mpBase o + 4) ∧
      pairI s (mpBase o + 4) ≤ pairI s (mpBase o + 44)) : moveCmd o s = runCommand o 1 s := by
  refine if_pos ?_
  by_cases h : 256 ≤ o
  · obtain ⟨level, lo, hi⟩ := mover h
    simp [may, idle, ok, Int.not_lt.mpr lo, Int.not_lt.mpr hi, Nat.not_le.mpr level]
  · simp [may, idle, ok, h]

theorem move_accepted (s : State) (o : Fin 288) (may : mayMove s o = true) (idle : (profOf s o).st = .idle) (v : (profOf s o).v = 0)
    (a : (profOf s o).a = 0) (ok : limitsOk s o = true)
    (mover : 256 ≤ o.val → effLevel s < 2 ∧ pairI s (mpBase o + 42) ≤ pairI s (mpBase o + 4) ∧
      pairI s (mpBase o + 4) ≤ pairI s (mpBase o + 44))
    (free : ∀ a ∈ commandAxes s o 1, mapGet 0 s.mo.treat a = 0) :
    ∃ u, exec (.move o) s = .next u ∧ (profOf u o).st = .moving ∧ (profOf u o).goal = .at_ (pairI s (mpBase o + 4)) ∧
      (profOf u o).p0 = (profOf s o).p ∧ (profOf u o).sp = (profOf s o).sp ∧ (∀ q, q ≠ o.val → profOf u q = profOf s q) ∧
      u.mo = { s.mo with prof := u.mo.prof } ∧ sameBut [.mo] s u := by
  obtain ⟨x, e, st, goal, p0, sp⟩ := doMove_rest (pairI s (mpBase o + 4)) v a (effVlim_of_limitsOk ok)
  have run : moveCmd o.val s = setProf o.val x s :=
    (moveCmd_accepted may idle ok mover).trans ((runCommand_free free).trans e)
  have only := onlyProf_setProf o.val x s
  refine ⟨_, congrArg Host.Outcome.next run, ?_, ?_, ?_, ?_, only.others, only.mo, only.parts⟩ <;> rwa [profOf_setProf_same]

/-! ### SPEED -/

theorem speed_accepted (s : State) (o : Fin 288) (may : mayMove s o = true) (axis : o.val < 256)
    (st : (profOf s o).st ∈ [ProfState.idle, .moving, .speed, .following]) (ok : limitsOk s o = true) (free : mapGet 0 s.mo.treat o = 0) :
    ∃ u, exec (.speed o) s = .next u ∧ (profOf u o).st = .speed ∧ (profOf u o).goal = .cruise ∧
      (profOf u o).vTgt = perV s (sext 32 (u32 s (mpBase o + 6))) ∧ (profOf u o).p0 = (profOf s o).p ∧
      (∀ q, q ≠ o.val → profOf u q = profOf s q) ∧ u.mo = { s.mo with prof := u.mo.prof } ∧ sameBut [.mo] s u := by
  have accepted : speedCmd o.val s = runCommand o.val 2 s := by
    refine if_pos ?_
    simp only [List.mem_cons, List.not_mem_nil, or_false] at st
    rcases st with h | h | h | h <;> simp [may, axis, ok, h]
  have axes : ∀ a ∈ commandAxes s o 2, mapGet 0 s.mo.treat a = 0 := by
    have own : commandAxes s o 2 = [o.val] := if_pos axis
    intro a ha
    rw [own, List.mem_singleton] at ha
    rwa [ha]
  have run : speedCmd o.val s = doSpeed o.val s := accepted.trans (runCommand_free axes)
  have only := onlyProf_setProf o.val (planSpeed (limitsOf s o) (perV s (sext 32 (u32 s (mpBase o + 6)))) (limitsOf s o).a (limitsOf s o).j
    { profOf s o with waitCmd := 0, clamped := false }) s
  refine ⟨_, congrArg Host.Outcome.next run, ?_, ?_, ?_, ?_, only.others, only.mo, only.parts⟩ <;>
    (unfold doSpeed; rw [profOf_setProf_same]; rfl)

/-! ### FOLLOW -/

/-- The profile of a FOLLOW that takes effect. -/
def engaged (x : Profile) (x0 offs : Int) : Profile :=
  { x with st := .following, ramp := 0, goal := .none, segs := [], tau := 0, cutDir := 0, waitCmd := 0, vPlan := 0, x0 := x0, offs := offs }

theorem doFollow_kept {o : Nat} (h : bitOf s (mpBase o + 28) 13 = false) :
    doFollow o s = setProf o (engaged (profOf s o) (followInput s o) (pairI s (mpBase o + 32))) s := by
  unfold doFollow
  simp only [h]
  rfl

theorem doFollow_rel {o : Nat} (h : bitOf s (mpBase o + 28) 13 = true) :
    ∃ offs, doFollow o s = setProf o (engaged (profOf s o) (followInput s o) offs) (putPair (mpBase o + 32) (wrapN 40 (profOf s o).sp) s) := by
  unfold doFollow
  simp only [h]
  exact ⟨_, rfl⟩

theorem follow_accepted (s : State) (o : Fin 288) (may : mayMove s o = true) (st : (profOf s o).st ∈ [ProfState.idle, .speed])
    (src : fldOf s (mpBase o + 28) 19 18 ∈ [1, 2]) (rate : u32 s (mpBase o + 34) ≠ 0)
    (free : ∀ a ∈ commandAxes s o 3, mapGet 0 s.mo.treat a = 0) :
    ∃ u, exec (.follow o) s = .next u ∧ (profOf u o).st = .following ∧ (profOf u o).x0 = followInput s o ∧
      (bitOf s (mpBase o + 28) 13 = true → pairN u (mpBase o + 32) = wrapN 40 (profOf s o).sp) ∧
      (bitOf s (mpBase o + 28) 13 = false → sameBut [.mo] s u) ∧ (∀ q, q ≠ o.val → profOf u q = profOf s q) ∧
      sameBut [.mo, .regs, .held] s u ∧ regsBut [mpBase o + 32, mpBase o + 33] s u := by
  have accepted : followCmd o.val s = runCommand o.val 3 s := by
    refine if_pos ?_
    simp only [List.mem_cons, List.not_mem_nil, or_false] at st src
    rcases st with h | h <;> rcases src with k | k <;> simp [may, rate, h, k]
  have run : followCmd o.val s = doFollow o.val s := accepted.trans (runCommand_free free)
  have hi : canonAddr (mpBase o + 32) = mpBase o + 32 := canonAddr_mp o (by decide)
  have lo : canonAddr (mpBase o + 33) = mpBase o + 33 := canonAddr_mp o (by decide)
  cases h : bitOf s (mpBase o + 28) 13
  · have only := onlyProf_setProf o.val (engaged (profOf s o) (followInput s o) (pairI s (mpBase o + 32))) s
    refine ⟨_, congrArg Host.Outcome.next (run.trans (doFollow_kept h)), ?_, ?_, fun k => Bool.noConfusion k, fun _ => only.parts,
      only.others, sameBut_mono (by decide) only.parts, touches_of_sameBut only.parts (by decide) (by decide)⟩ <;> (rw [profOf_setProf_same]; rfl)
  · obtain ⟨offs, e⟩ := doFollow_rel h
    have stored := pairN_putPair (a := mpBase o + 32) (by rw [hi, lo]; omega) (wrapN_lt 40 (profOf s o).sp) s
    have words : touches (· ∈ [mpBase o + 32, mpBase o + 33]) s (putPair (mpBase o + 32) (wrapN 40 (profOf s o).sp) s) :=
      touches_putPair _ (by rw [hi]; simp) (by rw [lo]; simp) (touches_refl _ s)
    have parts : sameBut [.regs, .held] s (putPair (mpBase o + 32) (wrapN 40 (profOf s o).sp) s) :=
      (putPair_keeps _ _ (by decide) (keeps_refl _ s)).parts
    have mo := putPair_mo (s := s) (mpBase o + 32) (wrapN 40 (profOf s o).sp)
    generalize putPair (mpBase o + 32) (wrapN 40 (profOf s o).sp) s = t at e stored words parts mo
    have only := onlyProf_setProf o.val (engaged (profOf s o) (followInput s o) offs) t
    refine ⟨_, congrArg Host.Outcome.next (run.trans e), ?_, ?_, fun _ => stored, fun k => Bool.noConfusion k,
      fun q hq => (only.others q hq).trans (profOf_of_mo mo q),
      sameBut_trans (sameBut_mono (by decide) parts) (sameBut_mono (by decide) only.parts), regsBut_of_touches words⟩ <;>
      (rw [profOf_setProf_same]; rfl)

/-! ### Refusals -/

theorem motion_refused (s : State) (o : Fin 288) (cmd : Instr) (hcmd : cmd = .move o ∨ cmd = .speed o ∨ cmd = .follow o)
    (why : mayMove s o = false ∨ (profOf s o).st ∈ [ProfState.stopping, .held, .waiting]) :
    ∃ u, exec cmd s = .next u ∧ bit (regGet u (mpStat o)) 6 = true ∧ sameBut [.regs, .held] s u ∧ regsBut [mpStat o] s u := by
  have notTaken : (mayMove s o && ((profOf s o).st == .idle || (profOf s o).st == .moving || (profOf s o).st == .speed || (profOf s o).st == .following)) = false := by
    simp only [List.mem_cons, List.not_mem_nil, or_false] at why
    rcases why with h | h | h | h <;> simp [h]
  have refused : exec cmd s = .next (mpRefuse o.val s) := by
    rcases hcmd with rfl | rfl | rfl
    · refine congrArg Host.Outcome.next (if_neg fun k => ?_)
      simp only [Bool.and_eq_true] at k
      simp_all
    · refine congrArg Host.Outcome.next (if_neg fun k => ?_)
      simp only [Bool.and_eq_true] at k
      simp_all
    · refine congrArg Host.Outcome.next (if_neg fun k => ?_)
      simp only [Bool.and_eq_true] at k
      simp_all
  exact ⟨_, refused, mpStat_setBit o (by decide) s⟩

/-- Settles O29: an accepted command starts what it names, in its own profile alone; any other sets REFUSED. -/
theorem moveSpeedAndFollow : Obligations.MoveSpeedAndFollow := fun s o =>
  ⟨move_accepted s o, speed_accepted s o, follow_accepted s o, motion_refused s o⟩

end Sys2Proof.Machine
end

