-- ==== Sys2Proof/Proofs/StopsAndLandings.lean ====
section
/-! PROOFS. STOP, LANDING and ACK of a profile (04 R94, R104, R126). -/

namespace Sys2Proof.Machine

variable {s : State}

/-! ### A stop that ends idle -/

/-- The direction of a stop: against the velocity, or at rest against the acceleration. -/
def stopDir (x : Profile) : Int := if x.v = 0 then -(sgn x.a) else -(sgn x.v)

theorem stopDir_rest {x : Profile} (v : x.v = 0) (a : x.a = 0) : stopDir x = 0 := by
  rw [stopDir, if_pos v, a]
  rfl

theorem stopDir_moving {x : Profile} (v : x.v ≠ 0) : stopDir x ≠ 0 := by
  rw [stopDir, if_neg v]
  unfold sgn
  split
  · decide
  · rw [if_pos (by omega)]
    decide

/-- A stop that has a ramp set to stop along. -/
theorem planStop_able {l : Limits} {k r : Nat} (x : Profile) (able : rampSet l k = (r, true)) :
    planStop l k .rest x =
      if stopDir x = 0 then (finishStop l { x with goal := .rest }, false)
      else if passes x.v x.a 0 (l.ramp r).2 (stopDir x) then
        ({ startPlan x [removeAcc x.a (l.ramp r).2 (stopDir x) false] .rest with st := .stopping, ramp := r, cutDir := -(stopDir x) }, false)
      else ({ startPlan x (changePhases x.v x.a 0 (l.ramp r).1 (l.ramp r).2 (stopDir x) false) .rest with st := .stopping, ramp := r }, false) := by
  unfold planStop
  rw [able]
  rfl

/-- With a ramp set to stop along, a profile in motion stops along it and one at rest is idle; nothing is cut off. -/
theorem planStop_ramp {l : Limits} {k : Nat} (x : Profile) (ok : (rampSet l k).2 = true) :
    (planStop l k .rest x).2 = false ∧
      (x.v ≠ 0 → (planStop l k .rest x).1.st = .stopping ∧ (planStop l k .rest x).1.ramp = (rampSet l k).1 ∧
        (planStop l k .rest x).1.goal = .rest) ∧
      (x.v = 0 → x.a = 0 → (planStop l k .rest x).1.st = .idle ∧ (planStop l k .rest x).1.sp = x.sp) := by
  rw [planStop_able x (Prod.ext rfl ok : rampSet l k = ((rampSet l k).1, true))]
  split
  case isTrue h => exact ⟨rfl, fun v => absurd h (stopDir_moving v), fun _ _ => ⟨rfl, rfl⟩⟩
  case isFalse h => split <;> exact ⟨rfl, fun _ => ⟨rfl, rfl, rfl⟩, fun v a => absurd (stopDir_rest v a) h⟩

/-- Without one, a profile at rest keeps its set-point too. -/
theorem planStop_rest_sp {l : Limits} {k : Nat} {x : Profile} (v : x.v = 0) (a : x.a = 0) : (planStop l k .rest x).1.sp = x.sp := by
  unfold planStop
  obtain ⟨r, able⟩ := rampSet l k
  rw [show (if x.v = 0 then -(sgn x.a) else -(sgn x.v)) = stopDir x from rfl, stopDir_rest v a]
  cases able <;> rfl

theorem noteStopped_only (o : Nat) (s : State) :
    (noteStopped o s).mo = { s.mo with stopped := (noteStopped o s).mo.stopped } ∧ sameBut [.mo] s (noteStopped o s) ∧
      (noteStopped o s).mo.stopped.contains o = true := by
  unfold noteStopped
  split
  case isTrue h => exact ⟨rfl, sameBut_refl _ s, h⟩
  case isFalse => exact ⟨rfl, (keeps_mo _ (by decide) (keeps_refl [.mo] s)).parts, by simp⟩

/-- A stop, that ends idle, of a profile that is neither stopping nor held. -/
theorem stopObj_fresh {o k : Nat} (st : (profOf s o).st ∉ [ProfState.stopping, .held]) :
    stopObj o k false s =
      markCut o (planStop (limitsOf s o) k .rest { profOf s o with waitCmd := 0, clamped := false }).2
        (setProf o (planStop (limitsOf s o) k .rest { profOf s o with waitCmd := 0, clamped := false }).1 (noteStopped o s)) := by
  have held : (profOf s o).st ≠ .held := fun h => st (by simp [h])
  have stopping : (profOf s o).st ≠ .stopping := fun h => st (by simp [h])
  refine (if_neg held).trans ?_
  exact if_neg fun h => stopping h.1

theorem stop_commanded (s : State) (o : Fin 288) (cmd : Instr) (k : Nat)
    (hcmd : cmd = .stopNormal o ∧ k = 1 ∨ cmd = .stopQuick o ∧ k = 2) (has : hasProfile s o = true)
    (st : (profOf s o).st ∉ [ProfState.stopping, .held]) (ok : (rampSet (limitsOf s o) k).2 = true) :
    ∃ u, exec cmd s = .next u ∧
      ((profOf s o).v ≠ 0 → (profOf u o).st = .stopping ∧ (profOf u o).ramp = (rampSet (limitsOf s o) k).1 ∧ (profOf u o).goal = .rest) ∧
      ((profOf s o).v = 0 → (profOf s o).a = 0 → (profOf u o).st = .idle ∧ (profOf u o).sp = (profOf s o).sp) ∧
      (∀ q, q ≠ o.val → profOf u q = profOf s q) ∧ stopActs u o = true ∧
      u.mo = { s.mo with prof := u.mo.prof, stopped := u.mo.stopped } ∧ sameBut [.mo] s u := by
  have held : (profOf s o).st ≠ .held := fun h => st (by simp [h])
  have taken : exec cmd s = .next (stopObj o.val k false s) := by
    have guard : (hasProfile s o && (profOf s o).st != .held) = true := by simp [has, held]
    rcases hcmd with ⟨rfl, rfl⟩ | ⟨rfl, rfl⟩ <;> exact congrArg Host.Outcome.next (if_pos guard)
  obtain ⟨cut, moving, rest⟩ := planStop_ramp { profOf s o with waitCmd := 0, clamped := false } ok
  have e := (stopObj_fresh (k := k) st).trans (congrArg (fun b => markCut o.val b _) cut)
  obtain ⟨mo, parts, noted⟩ := noteStopped_only o.val s
  generalize (planStop (limitsOf s o) k .rest { profOf s o with waitCmd := 0, clamped := false }).1 = y at e moving rest
  generalize noteStopped o.val s = t at e mo parts noted
  have only := onlyProf_setProf o.val y t
  have old : ∀ q, profOf t q = profOf s q := fun q => (congrArg (fun m : Motion => mapGet Profile.reset m.prof q) mo :)
  refine ⟨_, taken.trans (congrArg Host.Outcome.next e), fun v => ?_, fun v a => ?_, fun q hq => (only.others q hq).trans (old q), ?_,
    ?_, sameBut_trans parts only.parts⟩
  · show (profOf (setProf o.val y t) o).st = _ ∧ (profOf (setProf o.val y t) o).ramp = _ ∧ (profOf (setProf o.val y t) o).goal = _
    rw [profOf_setProf_same]
    exact moving v
  · show (profOf (setProf o.val y t) o).st = _ ∧ (profOf (setProf o.val y t) o).sp = _
    rw [profOf_setProf_same]
    exact rest v a
  · show (t.mo.stopped.contains o.val || _) = true
    rw [noted, Bool.true_or]
  · exact congrArg (fun m : Motion => { m with prof := mapPut Profile.reset t.mo.prof o.val y }) mo

/-! ### LANDING -/

theorem leastBy_none (key : Int → Int) {ls : List Int} (h : ls ≠ []) : leastBy key ls ≠ none := by
  match ls, h with
  | x :: xs, _ =>
    unfold leastBy
    cases leastBy key xs with
    | none => simp
    | some y => dsimp only; split <;> simp

theorem leastBy_least (key : Int → Int) {ls : List Int} {P : Int} (h : leastBy key ls = some P) :
    P ∈ ls ∧ ∀ q ∈ ls, key P ≤ key q := by
  induction ls generalizing P with
  | nil => cases h
  | cons x xs ih =>
    unfold leastBy at h
    cases rest : leastBy key xs with
    | none =>
      rw [rest] at h
      have empty : xs = [] := Classical.byContradiction fun k => leastBy_none key k rest
      cases h
      simp [empty]
    | some y =>
      rw [rest] at h
      obtain ⟨mem, least⟩ := ih rest
      dsimp only at h
      split at h
      case isTrue c =>
        cases h
        refine ⟨List.mem_cons_self .., fun q hq => ?_⟩
        rcases List.mem_cons.mp hq with rfl | hq
        · exact le_refl _
        · have := least q hq
          omega
      case isFalse c =>
        cases h
        refine ⟨List.mem_cons_of_mem _ mem, fun q hq => ?_⟩
        rcases List.mem_cons.mp hq with rfl | hq
        · omega
        · exact least q hq

theorem landingFor_rest {o : Nat} (v : (profOf s o).v = 0) (a : (profOf s o).a = 0) :
    landingFor s o = leastBy (fun p => |p * 2 ^ 24 - (profOf s o).p|) (landingsOf s o) := by
  have direction : (if (profOf s o).v = 0 then sgn (profOf s o).a else sgn (profOf s o).v) = 0 := by rw [if_pos v, a]; rfl
  exact if_pos direction

/-- What a LANDING without an enabled landing leaves as it is, for a mover at rest. -/
theorem noLanding_rest (o : Fin 288) (idle : (profOf s o).st = .idle) (v : (profOf s o).v = 0) (a : (profOf s o).a = 0) :
    bit (regGet (noLanding o.val s) 0xF0FA10) 17 = true ∧ (profOf (noLanding o.val s) o).sp = (profOf s o).sp ∧
      (∀ q, q ≠ o.val → profOf (noLanding o.val s) q = profOf s q) ∧ sameBut [.mo, .regs, .held] s (noLanding o.val s) := by
  obtain ⟨mo, parts, -⟩ := noteStopped_only o.val s
  have fresh := stopObj_fresh (s := s) (o := o.val) (k := 1) (by simp [idle])
  have sp := planStop_rest_sp (l := limitsOf s o) (k := 1) (x := { profOf s o with waitCmd := 0, clamped := false }) v a
  generalize (planStop (limitsOf s o) 1 .rest { profOf s o with waitCmd := 0, clamped := false }).1 = y at fresh sp
  generalize (planStop (limitsOf s o) 1 .rest { profOf s o with waitCmd := 0, clamped := false }).2 = cut at fresh
  generalize noteStopped o.val s = t at fresh mo parts
  have only := onlyProf_setProf o.val y t
  have old : ∀ q, profOf t q = profOf s q := fun q => (congrArg (fun m : Motion => mapGet Profile.reset m.prof q) mo :)
  have marks : sameBut [.regs, .held] (setProf o.val y t) (markCut o.val cut (setProf o.val y t)) :=
    (markCut_keeps _ _ (by decide) (keeps_refl _ _)).parts
  have same : ∀ q, profOf (noLanding o.val s) q = profOf (setProf o.val y t) q := fun q =>
    profOf_of_mo (by rw [noLanding, putBit_mo, fresh]; exact marks.mo (by decide)) q
  refine ⟨?_, ?_, fun q hq => (same q).trans ((only.others q hq).trans (old q)),
    (noLanding_keeps o.val (by decide) (keeps_refl _ s)).parts⟩
  · unfold noLanding
    rw [regGet_putBit, if_pos rfl, bit_setBit_same _ _ (by decide)]
  · rw [same, profOf_setProf_same, sp]

theorem landing_accepted (s : State) (o : Fin 288) (may : mayMove s o = true) (mover : 256 ≤ o.val) (idle : (profOf s o).st = .idle)
    (v : (profOf s o).v = 0) (a : (profOf s o).a = 0) (ok : limitsOk s o = true)
    (free : ∀ a ∈ commandAxes s o 6, mapGet 0 s.mo.treat a = 0) :
    ∃ u, exec (.landing o) s = .next u ∧
      (landingsOf s o ≠ [] → ∃ P ∈ landingsOf s o, (∀ q ∈ landingsOf s o, |P * 2 ^ 24 - (profOf s o).p| ≤ |q * 2 ^ 24 - (profOf s o).p|) ∧
        (profOf u o).st = .moving ∧ (profOf u o).goal = .at_ P ∧ u.regs = s.regs) ∧
      (landingsOf s o = [] → bit (regGet u 0xF0FA10) 17 = true ∧ (profOf u o).sp = (profOf s o).sp) ∧
      (∀ q, q ≠ o.val → profOf u q = profOf s q) ∧ sameBut [.mo, .regs, .held] s u := by
  have accepted : exec (.landing o) s = .next (landObj o.val s) :=
    congrArg Host.Outcome.next (if_pos (by simp [may, mover, idle, ok]))
  cases found : landingFor s o with
  | none =>
    have empty : landingsOf s o = [] := Classical.byContradiction fun k => leastBy_none _ k ((landingFor_rest v a).symm.trans found)
    have stops : landObj o.val s = noLanding o.val s := if_pos found
    obtain ⟨sign, sp, others, parts⟩ := noLanding_rest o idle v a
    exact ⟨_, accepted.trans (congrArg Host.Outcome.next stops), fun k => absurd empty k, fun _ => ⟨sign, sp⟩, others, parts⟩
  | some P =>
    obtain ⟨mem, least⟩ := leastBy_least _ ((landingFor_rest v a).symm.trans found)
    obtain ⟨x, e, st, goal, -, -⟩ := doMove_rest P v a (effVlim_of_limitsOk ok)
    have chosen : landObj o.val s = runCommand o.val 6 s := by
      refine (if_neg (by rw [found]; exact Option.some_ne_none P)).trans (if_neg fun k => ?_)
      rw [idle] at k
      cases k.1
    have command : doCommand o.val 6 s = doMove o.val P s := by
      show (match landingFor s o with | some P => doMove o.val P s | none => noLanding o.val s) = _
      rw [found]
    have only := onlyProf_setProf o.val x s
    refine ⟨_, accepted.trans (congrArg Host.Outcome.next (chosen.trans ((runCommand_free free).trans (command.trans e)))),
      fun _ => ⟨P, mem, least, ?_, ?_, rfl⟩, fun k => ?_, only.others, sameBut_mono (by decide) only.parts⟩
    · rwa [profOf_setProf_same]
    · rwa [profOf_setProf_same]
    · rw [k] at mem
      cases mem

/-! ### ACK, and what is refused -/

theorem ack_held (s : State) (o : Fin 288) (has : hasProfile s o = true) (held : (profOf s o).st = .held) :
    ∃ u, exec (.ack o) s = .next u ∧ (profOf u o).st = .idle ∧ (profOf u o).ramp = 0 ∧ (profOf u o).sp = (profOf s o).sp ∧
      (∀ q, q ≠ o.val → profOf u q = profOf s q) ∧ u.mo = { s.mo with prof := u.mo.prof } ∧ sameBut [.mo] s u := by
  have taken : exec (.ack o) s = .next (setProf o.val { profOf s o with st := .idle, ramp := 0, goal := .none } s) :=
    congrArg Host.Outcome.next (if_pos (by simp [has, held]))
  have only := onlyProf_setProf o.val { profOf s o with st := .idle, ramp := 0, goal := .none } s
  refine ⟨_, taken, ?_, ?_, ?_, only.others, only.mo, only.parts⟩ <;> rw [profOf_setProf_same]

theorem stop_held_refused (s : State) (o : Fin 288) (held : (profOf s o).st = .held) (cmd : Instr)
    (hcmd : cmd = .stopNormal o ∨ cmd = .stopQuick o) :
    ∃ u, exec cmd s = .next u ∧ bit (regGet u (mpStat o)) 6 = true ∧ sameBut [.regs, .held] s u ∧ regsBut [mpStat o] s u := by
  have refused : exec cmd s = .next (mpRefuse o.val s) := by
    have guard : ¬(hasProfile s o && (profOf s o).st != .held) = true := by simp [held]
    rcases hcmd with rfl | rfl <;> exact congrArg Host.Outcome.next (if_neg guard)
  exact ⟨_, refused, mpStat_setBit o (by decide) s⟩

theorem ack_refused (s : State) (o : Fin 288) (held : (profOf s o).st ≠ .held) :
    ∃ u, exec (.ack o) s = .next u ∧ bit (regGet u (mpStat o)) 6 = true ∧ sameBut [.regs, .held] s u ∧ regsBut [mpStat o] s u :=
  ⟨_, congrArg Host.Outcome.next (if_neg (by simp [held])), mpStat_setBit o (by decide) s⟩

/-- Settles O30: a stop plans along the least severe set it can, a LANDING moves to the nearest landing, ACK releases. -/
theorem stopLandingAndAck : Obligations.StopLandingAndAck := fun s o =>
  ⟨stop_commanded s o, landing_accepted s o, fun has held => ⟨ack_held s o has held, stop_held_refused s o held⟩, ack_refused s o⟩

end Sys2Proof.Machine
end

