-- ==== Sys2Proof/Proofs/StandstillEntries.lean ====
section
/-! PROOFS. Entry into standstill where a segment axis has a write waiting (04 R107, 17 R448). -/

namespace Sys2Proof.Machine

/-- Axis 1 at rest with a profile, and the segment axis 0 that carries no mover: a write that waits for its boundary keeps STILL of axis 0 in force while its register shows it clear. -/
def waitingStill : State :=
  let s := regSet (mpBase 1) 0x80000 (regSet (mpBase 0) 0x88000 State.reset)
  { s with
    held := [(mpStat 0, 0x4000)]
    sv := { s.sv with loops := [(0, { LoopSt.reset with age := 1 })] } }

/-- Axis 0 counts as still by the word in force, so that its register is left clear. -/
theorem standstillEntry_waitingStill :
    (∃ u, exec (.standstillEntry 1) waitingStill = .next u ∧ bit (regGet u (mpStat 0)) 14 = false) :=
  ⟨_, rfl, by decide +kernel⟩

/-- Refutes O31: STILL of a segment axis is read in force when its movers have come to rest, and set in the register only where it is not in force. -/
theorem not_standstillStoresAndTreatments : ¬ Obligations.StandstillStoresAndTreatments := by
  unfold Obligations.StandstillStoresAndTreatments
  intro h
  obtain ⟨entry, -, -⟩ := h waitingStill 1
  obtain ⟨u, e, -, segments, -⟩ := entry (by decide +kernel) (by decide +kernel) (by decide +kernel) (by decide +kernel) (by decide +kernel)
  obtain ⟨t, run, clear⟩ := standstillEntry_waitingStill
  rw [run] at e
  injection e with e
  have still := segments 0 (by decide +kernel) (by decide +kernel) (by decide +kernel) (by decide +kernel)
    (by decide +kernel)
  rw [← e, clear] at still
  cases still

end Sys2Proof.Machine
end

