-- ==== Sys2Proof/Proofs/GroupWrites.lean ====
section
/-! PROOFS. Group writes (04 R120, R122). -/

namespace Sys2Proof.Machine

variable {s : State}

/-! ### Fields in force -/

theorem fldOf_putFld_same (a : Nat) {hi lo : Nat} (v : Nat) (s : State) (hl : lo ≤ hi) (hh : hi < 20) :
    fldOf (putFld a hi lo v s) a hi lo = v % 2 ^ (hi + 1 - lo) := by
  rw [fldOf, inForce_putFld, if_pos rfl, fld_setFld_same _ _ hl hh]

theorem fldOf_putFld_apart (a : Nat) {hi lo hi' lo' : Nat} (v : Nat) (s : State) (hl : lo ≤ hi) (hh : hi < 20) (apart : hi' < lo ∨ hi < lo') :
    fldOf (putFld a hi lo v s) a hi' lo' = fldOf s a hi' lo' := by
  rw [fldOf, inForce_putFld, if_pos rfl, fld_setFld_other _ _ hl hh apart, fldOf]

theorem fldOf_putFld_other {a b : Nat} (hi lo v : Nat) {hi' lo' : Nat} (s : State) (h : canonAddr b ≠ canonAddr a) :
    fldOf (putFld a hi lo v s) b hi' lo' = fldOf s b hi' lo' := by
  rw [fldOf, inForce_putFld, if_neg h, fldOf]

theorem setGw_parts (g : GroupWrite) (s : State) : sameBut [.mo] s (setGw g s) := (keeps_mo _ (by decide) (keeps_refl [.mo] s)).parts

/-- The phase is the upper half of the field that holds it with the count of repeats. -/
theorem fld_phase (w : Word) : fld w 19 18 = fld w 19 16 / 4 := by
  unfold fld
  omega

theorem fldOf_setGw (g : GroupWrite) (s : State) : fldOf (setGw g s) = fldOf s := fldOf_eq rfl rfl

/-- The registers of a group write that its phases change. -/
def gwRegs : List Nat := [0xF0FA01, 0xF0FA02]

theorem gwMembers_of_touches {t : State} (h : touches (· ∈ gwRegs) s t) : gwMembers t = gwMembers s := by
  refine congrArg (List.map (· + 2)) (List.filter_congr fun i hi => ?_)
  have bound : i < 120 := List.mem_range.mp hi
  have canon : canonAddr (0xF0FA04 + i / 20) = 0xF0FA04 + i / 20 := if_neg (by omega)
  exact h.bitOf (by rw [canon]; simp [gwRegs]; omega) _

/-! ### STAGE -/

/-- The attempt that STAGE opens. -/
def openedAttempt (s : State) : GroupWrite :=
  { cycle := some 0, sent := 1, staged := [], applied := [], tables := stagedTables s, biquads := stagedBiquads s }

/-- The new epoch of STAGE, with phase 1 and no repeats. -/
def openEpoch (n : Nat) (s : State) : State := putFld 0xF0FA01 15 0 n (putFld 0xF0FA01 19 16 4 s)

theorem openEpoch_spec (n : Nat) (s : State) :
    gwPhase (openEpoch n s) = 1 ∧ gwEpoch (openEpoch n s) = n % 2 ^ 16 ∧ touches (· ∈ gwRegs) s (openEpoch n s) ∧
      sameBut [.regs, .held] s (openEpoch n s) := by
  refine ⟨?_, fldOf_putFld_same _ _ _ (by decide) (by decide),
    touches_putFld _ _ _ (by decide) (touches_putFld _ _ _ (by decide) (touches_refl _ s)),
    (putFld_keeps _ _ _ _ (by decide) (putFld_keeps _ _ _ _ (by decide) (keeps_refl _ s))).parts⟩
  show fldOf (putFld 0xF0FA01 15 0 n (putFld 0xF0FA01 19 16 4 s)) 0xF0FA01 19 18 = 1
  rw [fldOf_putFld_apart _ _ _ (by decide) (by decide) (by decide), fldOf, fld_phase]
  exact congrArg (· / 4) (fldOf_putFld_same 0xF0FA01 (hi := 19) (lo := 16) 4 s (by decide) (by decide))

/-- MISSING, of an attempt in which no member has applied yet, counts every member. -/
theorem showMissing_spec (s : State) (none : s.mo.gw.applied = []) :
    fldOf (showMissing s) 0xF0FA02 6 0 = (gwMembers s).length % 128 ∧ gwPhase (showMissing s) = gwPhase s ∧
      gwEpoch (showMissing s) = gwEpoch s ∧ touches (· ∈ gwRegs) s (showMissing s) ∧ sameBut [.regs, .held] s (showMissing s) := by
  refine ⟨?_, fldOf_putFld_other _ _ _ _ (by decide), fldOf_putFld_other _ _ _ _ (by decide),
    touches_putFld _ _ _ (by decide) (touches_refl _ s), (putFld_keeps _ _ _ _ (by decide) (keeps_refl _ s)).parts⟩
  rw [showMissing, fldOf_putFld_same _ _ _ (by decide) (by decide), none]
  simp

theorem stage_idle (s : State) (idle : gwPhase s = 0) (runs : running s = true) :
    ∃ u, exec .stage s = .next u ∧ gwPhase u = 1 ∧ gwEpoch u = (gwEpoch s + 1) % 2 ^ 16 ∧
      u.mo.gw = { cycle := some 0, sent := 1, staged := [], applied := [], tables := stagedTables s, biquads := stagedBiquads s } ∧
      fldOf u 0xF0FA02 6 0 = (gwMembers s).length % 128 ∧ u.mo.prof = s.mo.prof ∧ sameBut [.mo, .regs, .held] s u ∧
      regsBut [0xF0FA01, 0xF0FA02] s u := by
  have run : exec .stage s = .next (showMissing (openEpoch (gwEpoch s + 1) (setGw (openedAttempt s) s))) :=
    congrArg Host.Outcome.next (if_pos ⟨idle, runs⟩)
  obtain ⟨phase, epoch, regs, parts⟩ := openEpoch_spec (gwEpoch s + 1) (setGw (openedAttempt s) s)
  have mo := parts.mo (by decide)
  generalize openEpoch (gwEpoch s + 1) (setGw (openedAttempt s) s) = t at run phase epoch regs parts mo
  obtain ⟨missing, phase', epoch', regs', parts'⟩ := showMissing_spec t (by rw [mo]; rfl)
  have mo' := (parts'.mo (by decide)).trans mo
  have members : gwMembers t = gwMembers s := (gwMembers_of_touches regs).trans (gwMembers_of_touches (touches_refl _ s))
  refine ⟨_, run, phase'.trans phase, epoch'.trans epoch, congrArg Motion.gw mo', members ▸ missing,
    (congrArg Motion.prof mo' :),
    sameBut_trans (sameBut_mono (by decide) (setGw_parts (openedAttempt s) s))
      (sameBut_trans (sameBut_mono (by decide) parts) (sameBut_mono (by decide) parts')), ?_⟩
  exact regsBut_of_touches (touches_trans (touches_trans (touches_of_sameBut (setGw_parts (openedAttempt s) s) (by decide) (by decide)) regs) regs')

/-! ### ABORT and the decision -/

/-- The attempt that an ABORT leaves. -/
def endedAttempt (s : State) : GroupWrite := { s.mo.gw with cycle := none, sent := 3, tables := [], biquads := [] }

theorem gwAbandon_spec (s : State) :
    gwPhase (gwAbandon s) = 0 ∧ (gwAbandon s).mo.gw.cycle = none ∧ (gwAbandon s).mo.gw.sent = 3 ∧
      bit (regGet (gwAbandon s) 0xF0FA02) 19 = true ∧ (gwAbandon s).mo.prof = s.mo.prof ∧
      sameBut [.mo, .regs, .held, .pg, .bv, .pc] s (gwAbandon s) ∧ regsButEvents [0xF0FA01, 0xF0FA02] s (gwAbandon s) := by
  have kept := setGw_parts (endedAttempt s) s
  have mo : (setGw (endedAttempt s) s).mo = { s.mo with gw := endedAttempt s } := rfl
  have run : gwAbandon s = raiseEvent 79 (putBit 0xF0FA02 19 true (putFld 0xF0FA01 19 18 0 (setGw (endedAttempt s) s))) := rfl
  generalize setGw (endedAttempt s) s = t at run kept mo
  have phase : fldOf (putFld 0xF0FA01 19 18 0 t) 0xF0FA01 19 18 = 0 := fldOf_putFld_same _ _ _ (by decide) (by decide)
  have aborted := bit_putBit_same 0xF0FA02 true (putFld 0xF0FA01 19 18 0 t) (b := 19) (by decide)
  have phase' : fldOf (putBit 0xF0FA02 19 true (putFld 0xF0FA01 19 18 0 t)) 0xF0FA01 19 18 = 0 :=
    (congrArg (fld · 19 18) ((inForce_putBit ..).trans (if_neg (by decide)))).trans phase
  have parts : sameBut [.regs, .held] t (putBit 0xF0FA02 19 true (putFld 0xF0FA01 19 18 0 t)) :=
    (putBit_keeps _ _ _ (by decide) (putFld_keeps _ _ _ _ (by decide) (keeps_refl _ t))).parts
  have regs : touches (orEvents gwRegs) s (putBit 0xF0FA02 19 true (putFld 0xF0FA01 19 18 0 t)) :=
    touches_putBit _ _ (.inl (by decide)) (touches_putFld _ _ _ (.inl (by decide)) (touches_of_sameBut kept (by decide) (by decide)))
  generalize putBit 0xF0FA02 19 true (putFld 0xF0FA01 19 18 0 t) = v at run aborted phase' parts regs
  have events : onlyEvents v (gwAbandon s) := run ▸ raiseEvent_onlyEvents (by decide) (onlyEvents_refl v)
  have moU : (gwAbandon s).mo = { s.mo with gw := endedAttempt s } :=
    (events.parts.mo (by decide)).trans ((parts.mo (by decide)).trans mo)
  generalize gwAbandon s = u at events moU
  refine ⟨?_, congrArg (fun m : Motion => m.gw.cycle) moU, congrArg (fun m : Motion => m.gw.sent) moU, ?_, (congrArg Motion.prof moU :),
    sameBut_trans (sameBut_mono (by decide) kept) (sameBut_trans (sameBut_mono (by decide) parts) (sameBut_mono (by decide) events.parts)),
    regsButEvents_of_touches (touches_events regs events)⟩
  · exact (congrArg (fld · 19 18) (events.regs 0xF0FA01 (by decide) (by decide)).2).trans phase'
  · rw [events.regGet (by decide), aborted]

theorem abort_staged (s : State) (staged : gwPhase s = 1) :
    ∃ u, exec .abortBeforeCommit s = .next u ∧ gwPhase u = 0 ∧ u.mo.gw.cycle = none ∧ u.mo.gw.sent = 3 ∧
      bit (regGet u 0xF0FA02) 19 = true ∧ u.mo.prof = s.mo.prof ∧ sameBut [.mo, .regs, .held, .pg, .bv, .pc] s u ∧
      regsButEvents [0xF0FA01, 0xF0FA02] s u :=
  ⟨_, congrArg Host.Outcome.next (if_pos staged), gwAbandon_spec s⟩

theorem decision (s : State) (staged : gwPhase s = 1) (two : s.mo.gw.cycle = some 2) :
    ∃ u, exec .groupCommitDecision s = .next u ∧
      ((∀ a ∈ gwMembers s, a ∈ s.mo.gw.staged) → gwPhase u = 2 ∧ u.mo.gw = { s.mo.gw with sent := 2 }) ∧
      ((∃ a ∈ gwMembers s, a ∉ s.mo.gw.staged) → gwPhase u = 0 ∧ u.mo.gw.sent = 3 ∧ bit (regGet u 0xF0FA02) 19 = true) ∧
      sameBut [.mo, .regs, .held, .pg, .bv, .pc] s u ∧ regsButEvents [0xF0FA01, 0xF0FA02] s u := by
  have taken : exec .groupCommitDecision s = .next (if (gwMembers s).all fun a => s.mo.gw.staged.contains a
      then putFld 0xF0FA01 19 18 2 (setGw { s.mo.gw with sent := 2 } s) else gwAbandon s) :=
    congrArg Host.Outcome.next (if_pos ⟨staged, two⟩)
  by_cases all : (gwMembers s).all (fun a => s.mo.gw.staged.contains a) = true
  · rw [if_pos all] at taken
    have kept := setGw_parts { s.mo.gw with sent := 2 } s
    have mo := putFld_mo (s := setGw { s.mo.gw with sent := 2 } s) 0xF0FA01 19 18 2
    refine ⟨_, taken, fun _ => ⟨fldOf_putFld_same _ _ _ (by decide) (by decide), (congrArg Motion.gw mo :)⟩, fun ⟨a, ha, out⟩ => absurd ?_ out,
      sameBut_trans (sameBut_mono (by decide) kept) (sameBut_mono (by decide) (putFld_keeps _ _ _ _ (by decide) (keeps_refl [.regs, .held] _)).parts),
      regsButEvents_of_touches (touches_putFld _ _ _ (.inl (by decide)) (touches_of_sameBut kept (by decide) (by decide)))⟩
    exact List.contains_iff_mem.mp (List.all_eq_true.mp all a ha)
  · rw [if_neg all] at taken
    obtain ⟨phase, -, sent, aborted, -, parts, regs⟩ := gwAbandon_spec s
    refine ⟨_, taken, fun h => absurd ?_ all, fun _ => ⟨phase, sent, aborted⟩, parts, regs⟩
    exact List.all_eq_true.mpr fun a ha => List.contains_iff_mem.mpr (h a ha)

/-! ### The inconsistent group -/

/-- GRP_INC of one axis of a group. -/
def markAxis (on : Bool) (x : Nat) (s : State) : State := whenB (decide (x < 256)) (putBit (mpStat x) 3 on) s

/-- Marking an axis marks its own register, and none otherwise than all. -/
theorem markAxis_spec (on : Bool) (y x : Nat) (s : State) (h : y = x ∧ x < 256 ∨ bit (regGet s (mpStat x)) 3 = on) :
    bit (regGet (markAxis on y s) (mpStat x)) 3 = on := by
  unfold markAxis whenB
  split
  case isTrue =>
    rw [regGet_putBit]
    split
    case isTrue => exact bit_setBit_same _ _ (by decide)
    case isFalse apart => exact h.resolve_left fun k => apart (by rw [k.1])
  case isFalse big => exact h.resolve_left fun k => big (by rw [k.1]; exact decide_eq_true k.2)

/-- The axes of a list are marked in GRP_INC, or no longer. -/
theorem markAxes_spec (on : Bool) (l : List Nat) {x : Nat} (s : State) (h : x ∈ l ∧ x < 256 ∨ bit (regGet s (mpStat x)) 3 = on) :
    bit (regGet (forEach l (markAxis on) s) (mpStat x)) 3 = on := by
  induction l generalizing s with
  | nil => exact h.resolve_left fun k => absurd k.1 (List.not_mem_nil)
  | cons y l ih =>
    refine ih (markAxis on y s) ?_
    rcases h with ⟨mem, small⟩ | done
    · rcases List.mem_cons.mp mem with rfl | mem
      · exact .inr (markAxis_spec on x x s (.inl ⟨rfl, small⟩))
      · exact .inl ⟨mem, small⟩
    · exact .inr (markAxis_spec on y x s (.inr done))

/-- The registers of the axes. -/
def axisStat (a : Nat) : Prop := ∃ x, x < 256 ∧ a = mpStat x

theorem mpStat_axis {x : Nat} (h : x < 256) : mpStat x = 0xF08002 + 64 * x := by
  unfold mpStat mpBase
  rw [if_pos h]
  omega

theorem canonAddr_axisStat {x : Nat} (h : x < 256) : canonAddr (mpStat x) = mpStat x := by
  rw [mpStat_axis h]
  exact if_neg (by omega)

theorem setGrpInc_touches (on : Bool) (s : State) : touches axisStat s (setGrpInc on s) :=
  touches_forEach (groupAxes s) (fun x _ s hs => by
    unfold whenB
    split
    case isTrue h => exact touches_putBit _ _ ⟨x, of_decide_eq_true h, canonAddr_axisStat (of_decide_eq_true h)⟩ hs
    case isFalse => exact hs) (touches_refl _ s)

theorem setGrpInc_marks (on : Bool) {a x : Nat} (member : a ∈ gwMembers s) (own : x ∈ nodeAxes s a) (small : x < 256) :
    bit (regGet (setGrpInc on s) (mpStat x)) 3 = on :=
  markAxes_spec on (groupAxes s) s (.inl ⟨List.mem_append_left _ (List.mem_flatMap.mpr ⟨a, member, own⟩), small⟩)

theorem not_axisStat {a : Nat} (h : 0xF0C000 ≤ a) : ¬axisStat a := by
  rintro ⟨x, small, rfl⟩
  rw [mpStat_axis small] at h
  omega

theorem mpStat_not_event {x : Nat} (h : x < 256) : eventReg (canonAddr (mpStat x)) = false := by
  rw [canonAddr_axisStat h, mpStat_axis h]
  simp [eventReg]
  omega

theorem inconsistent (s : State) (committed : gwPhase s = 2) (nine : s.mo.gw.cycle = some 9)
    (missing : ∃ a ∈ gwMembers s, a ∉ s.mo.gw.applied) :
    ∃ u, exec .groupInconsistent s = .next u ∧ gwPhase u = 3 ∧
      (∀ a ∈ gwMembers s, ∀ x ∈ nodeAxes s a, x < 256 → bit (regGet u (mpStat x)) 3 = true) ∧
      sameBut [.regs, .held, .pg, .bv, .pc] s u := by
  obtain ⟨a, member, out⟩ := missing
  have any : (gwMembers s).any (fun a => !s.mo.gw.applied.contains a) = true :=
    List.any_eq_true.mpr ⟨a, member, by simp [out]⟩
  have run : exec .groupInconsistent s = .next (raiseEvent 28 (putFld 0xF0FA01 19 18 3 (setGrpInc true s))) :=
    congrArg Host.Outcome.next (if_pos ⟨committed, nine, any⟩)
  have events : onlyEvents (putFld 0xF0FA01 19 18 3 (setGrpInc true s)) (raiseEvent 28 (putFld 0xF0FA01 19 18 3 (setGrpInc true s))) :=
    raiseEvent_onlyEvents (by decide) (onlyEvents_refl _)
  refine ⟨_, run, ?_, fun a ha x hx small => ?_, sameBut_trans (sameBut_mono (by decide)
    (putFld_keeps 0xF0FA01 19 18 3 (by decide) (setGrpInc_keeps true (by decide) (keeps_refl [.regs, .held] s))).parts) events.parts⟩
  · exact (congrArg (fld · 19 18) (events.regs 0xF0FA01 (by decide) (by decide)).2).trans (fldOf_putFld_same _ _ _ (by decide) (by decide))
  · have apart : canonAddr (mpStat x) ≠ canonAddr 0xF0FA01 := by
      rw [canonAddr_axisStat small, mpStat_axis small]
      show _ ≠ 0xF0FA01
      omega
    rw [events.regGet (mpStat_not_event small), regGet_putFld, if_neg apart, setGrpInc_marks true ha hx small]

theorem clear_inconsistent (s : State) (phase : gwPhase s = 3) :
    ∃ u, exec .clear s = .next u ∧ gwPhase u = 0 ∧ u.mo.gw.cycle = none ∧
      (∀ a ∈ gwMembers s, ∀ x ∈ nodeAxes s a, x < 256 → bit (regGet u (mpStat x)) 3 = false) ∧ sameBut [.mo, .regs, .held] s u := by
  have run : exec .clear s = .next (setGw GroupWrite.reset (setGrpInc false (putFld 0xF0FA01 19 18 0 s))) :=
    congrArg Host.Outcome.next (if_pos phase)
  have regs : touches (· ∈ gwRegs) s (putFld 0xF0FA01 19 18 0 s) := touches_putFld _ _ _ (by decide) (touches_refl _ s)
  have members := gwMembers_of_touches regs
  have idle : fldOf (putFld 0xF0FA01 19 18 0 s) 0xF0FA01 19 18 = 0 := fldOf_putFld_same _ _ _ (by decide) (by decide)
  have parts := (putFld_keeps 0xF0FA01 19 18 0 (by decide) (keeps_refl [.regs, .held] s)).parts
  generalize putFld 0xF0FA01 19 18 0 s = t at run regs members idle parts
  have axes : ∀ a ∈ gwMembers s, nodeAxes t a = nodeAxes s a := by
    intro a ha
    obtain ⟨i, hi, rfl⟩ := List.mem_map.mp ha
    have bound : i < 120 := List.mem_range.mp (List.mem_filter.mp hi).1
    have canon : canonAddr (lkNode (i + 2)) = lkNode (i + 2) := if_neg (by unfold lkNode; omega)
    have apart : ¬canonAddr (lkNode (i + 2)) ∈ gwRegs := by rw [canon]; simp [gwRegs, lkNode]; omega
    unfold nodeAxes nodeNax nodeFirst
    rw [regs.fldOf apart, regs.fldOf apart]
  have marks := setGrpInc_touches false t
  refine ⟨_, run, ?_, rfl, fun a ha x hx small => ?_, ?_⟩
  · exact (congrFun (congrFun (congrFun (fldOf_setGw ..) _) _) _).trans ((marks.fldOf (not_axisStat (by decide)) 19 18).trans idle)
  · exact setGrpInc_marks false (members ▸ ha) (axes a ha ▸ hx) small
  · exact sameBut_trans (sameBut_mono (by decide) parts) (sameBut_trans
      (sameBut_mono (by decide) (setGrpInc_keeps false (by decide) (keeps_refl [.regs, .held] t)).parts)
      (sameBut_mono (by decide) (setGw_parts GroupWrite.reset _)))

/-- Settles O32: the phases of a group write follow one another as 04 R120 and R122 give them. That STAGE takes the head's own staged tables and biquads is the model's choice (log entry 26). -/
theorem groupWritesStageCommitAndAbort : Obligations.GroupWritesStageCommitAndAbort := fun s =>
  ⟨stage_idle s, abort_staged s, decision s, inconsistent s, clear_inconsistent s⟩

end Sys2Proof.Machine
end

