-- ==== Sys2Proof/Proofs/ServoPrograms.lean ====
section
/-! PROOFS. What the programs of a batch leave as they are: the configuration, the queues of the link, the groups in STO (05 R128, R137-R149). -/

namespace Sys2Proof.Machine

variable {o s t : State}

/-! ### The registers that the engine writes -/

/-- Status of an object, status and readouts of an axis window, what a check and a fault show, events. -/
def engineReg (a : Nat) : Prop :=
  eventReg a = true ∨ a ∈ [0xF34007, 0xF34040, 0xF34041, 0xF5400A, 0xF5400B] ∨ (0xF34100 ≤ a ∧ a < 0xF34300) ∨
    (0xF08000 ≤ a ∧ a < 0xF0F800 ∧ a % 64 = 2) ∨ (0xF10000 ≤ a ∧ a < 0xF20000 ∧ a % 256 ∈ [2, 3, 0x92, 0x93])

theorem engineReg_mpStat {x : Nat} (h : x < 288) : engineReg (canonAddr (mpStat x)) := by
  have e : canonAddr (mpStat x) = mpStat x := canonAddr_mpStat ⟨x, h⟩
  rw [e]
  unfold mpStat mpBase
  refine .inr (.inr (.inr (.inl ?_)))
  split <;> omega

theorem engineReg_window {x k : Nat} (h : x < 256) (hk : k ∈ [2, 3, 0x92, 0x93]) : engineReg (canonAddr (svBase x + k)) := by
  have small : k < 0xE0 ∧ k % 256 = k := by
    simp only [List.mem_cons, List.not_mem_nil, or_false] at hk
    rcases hk with rfl | rfl | rfl | rfl <;> decide
  have e : canonAddr (svBase x + k) = svBase x + k := if_neg (by unfold svBase; omega)
  rw [e]
  refine .inr (.inr (.inr (.inr ⟨by unfold svBase; omega, by unfold svBase; omega, ?_⟩)))
  rwa [show (svBase x + k) % 256 = k by unfold svBase; omega]

theorem engineReg_check {c : Nat} (h : c < 64) : engineReg (canonAddr (ckAddr c + 7)) := by
  have e : canonAddr (ckAddr c + 7) = ckAddr c + 7 := if_neg (by unfold ckAddr; omega)
  rw [e]
  unfold ckAddr
  exact .inr (.inr (.inl (by omega)))

theorem engineReg_gatehouse (a : Nat) (h : orEvents [0xF34007, 0xF34040, 0xF34041, 0xF5400A, 0xF5400B] a) : engineReg a :=
  h.elim (fun k => .inr (.inl k)) .inl

/-! ### What a computation keeps -/

/-- A state that a unit computing its programs has come to from another. -/
structure computed (o s : State) : Prop where
  regs : touches engineReg o s
  toSend : s.lk.toSend = o.lk.toSend
  q : s.lk.q = o.lk.q
  subst : s.sv.subst = o.sv.subst
  sto : ∀ g : Fin 4, o.gh.grp[g].cond = .sto → s.gh.grp[g].cond = .sto

theorem computed_refl (s : State) : computed s s := ⟨touches_refl _ s, rfl, rfl, rfl, fun _ => id⟩

theorem computed_trans (h : computed o s) (k : computed s t) : computed o t :=
  ⟨touches_trans h.regs k.regs, k.toSend.trans h.toSend, k.q.trans h.q, k.subst.trans h.subst, fun g hg => k.sto g (h.sto g hg)⟩

/-- A step that leaves the link, the substitutes and the groups alone. -/
theorem computed_step (h : computed o s) (regs : touches engineReg s t) (lk : t.lk = s.lk) (sv : t.sv.subst = s.sv.subst)
    (gh : t.gh.grp = s.gh.grp) : computed o t :=
  computed_trans h ⟨regs, by rw [lk], by rw [lk], sv, fun g hg => by rw [gh]; exact hg⟩

/-- A step that changes registers of the engine only. -/
theorem computed_regs (h : computed o s) (parts : sameBut [.regs, .held] s t) (regs : touches engineReg s t) : computed o t :=
  computed_step h regs (parts.lk (by decide)) (by rw [parts.sv (by decide)]) (by rw [parts.gh (by decide)])

/-- A step outside the registers, the link, the servo engine and Gatehouse. -/
theorem computed_parts (h : computed o s) (parts : sameBut [.freeCtr, .sys, .sd, .mo, .pr] s t) : computed o t :=
  computed_step h (touches_of_sameBut parts (by decide) (by decide)) (parts.lk (by decide)) (by rw [parts.sv (by decide)])
    (by rw [parts.gh (by decide)])

theorem computed_putBit {a : Nat} (n : Nat) (b : Bool) (ha : engineReg (canonAddr a)) (h : computed o s) : computed o (putBit a n b s) :=
  computed_regs h (putBit_keeps _ _ _ (by decide) (keeps_refl _ s)).parts (touches_putBit n b ha (touches_refl _ s))

theorem computed_putWord {a : Nat} (w : Word) (ha : engineReg (canonAddr a)) (h : computed o s) : computed o (putWord a w s) :=
  computed_regs h (putWord_keeps _ _ (by decide) (keeps_refl _ s)).parts (touches_putWord w ha (touches_refl _ s))

theorem computed_putPair {a : Nat} (n : Nat) (ha : engineReg (canonAddr a)) (hb : engineReg (canonAddr (a + 1))) (h : computed o s) :
    computed o (putPair a n s) :=
  computed_regs h (putPair_keeps _ _ (by decide) (keeps_refl _ s)).parts (touches_putPair n ha hb (touches_refl _ s))

theorem computed_whenB (b : Bool) {f : State → State} (hf : ∀ s, computed o s → computed o (f s)) (h : computed o s) :
    computed o (whenB b f s) := whenB_induct _ b f hf h

theorem computed_ite (c : Prop) [Decidable c] (h : computed o s) (k : computed o t) : computed o (if c then s else t) := by
  split <;> assumption

theorem computed_forEach {α : Type} (l : List α) {f : α → State → State} (hf : ∀ x ∈ l, ∀ s, computed o s → computed o (f x s))
    (h : computed o s) : computed o (forEach l f s) := by
  induction l generalizing s with
  | nil => exact h
  | cons x l ih => exact ih (fun y hy => hf y (List.mem_cons_of_mem x hy)) (hf x (List.mem_cons_self ..) s h)

theorem computed_setLoop (x : Nat) (l : LoopSt) (h : computed o s) : computed o (setLoop x l s) :=
  computed_step h (touches_same (touches_refl _ s) rfl rfl) rfl rfl rfl

theorem computed_startAt (x : Nat) (p : Int) (h : computed o s) : computed o (startAt x p s) :=
  computed_parts h (sameBut_mono (by decide) (startAt_keeps x p (by decide) (keeps_refl [.mo] s)).parts)

theorem computed_sdSample (kind src : Nat) (v : Int) (ci : Nat) (h : computed o s) : computed o (sdSample kind src v ci s) :=
  computed_parts h (sameBut_mono (by decide) (sdSample_keeps kind src v ci (by decide) (keeps_refl [.sd] s)).parts)

/-! ### Faults raised by a check -/

theorem computed_groups (h : computed o s) (only : groupsOnly s t) (sto : ∀ g : Fin 4, s.gh.grp[g].cond = .sto → t.gh.grp[g].cond = .sto) :
    computed o t := by
  have parts := only.frame.parts
  refine computed_trans h ⟨touches_mono only.touches fun a ha => engineReg_gatehouse a (orEvents_mono (by simp) a ha), ?_, ?_, ?_, sto⟩
  · rw [parts.lk (by decide)]
  · rw [parts.lk (by decide)]
  · rw [parts.sv (by decide)]

theorem computed_maskDemand (mask : Nat) (sto : Bool) {cause : Cause} (hc : cause ≠ .command) (h : computed o s) :
    computed o (maskDemand mask sto cause s) := by
  have k := maskDemand_spec mask sto hc s
  refine computed_groups h k.only fun g hg => ?_
  rcases Nat.mod_two_eq_zero_or_one (mask / 2 ^ g.val) with m | m
  · rw [k.miss g m, hg]
  · rw [(k.hit g m).cond, hg]
    cases sto <;> rfl

theorem computed_enterSafe (h : computed o s) : computed o (enterSafe s) := by
  by_cases hop : s.sys.op = .safe
  · rw [enterSafe, if_pos hop]
    exact h
  · obtain ⟨only, sto⟩ := enterSafe_spec hop
    have lk := only.parts.lk (by decide)
    have old : (safeBegins s).lk.toSend = s.lk.toSend ∧ (safeBegins s).lk.q = s.lk.q := by
      unfold safeBegins
      split <;> exact ⟨rfl, rfl⟩
    refine computed_trans h ⟨?_, by rw [lk, old.1], by rw [lk, old.2], by rw [only.parts.sv (by decide)]; rfl, fun g _ => sto g⟩
    exact touches_trans (touches_same (touches_refl _ s) rfl rfl)
      (touches_mono (touches_of_regsButEvents only.regs) fun a ha => engineReg_gatehouse a (orEvents_mono (by simp) a ha))

theorem computed_failPath (code : Nat) (h : computed o s) : computed o (failPath code s) :=
  computed_trans h ⟨touches_same (touches_refl _ s) rfl rfl, rfl, rfl, rfl, fun _ => id⟩

theorem computed_ghRecord (code low taken : Nat) (h : computed o s) : computed o (ghRecord code low taken s) := by
  have k := ghRecord_spec code low taken s
  exact computed_step h (touches_mono k.regs fun a ha => engineReg_gatehouse a (orEvents_mono (by simp) a ha)) (k.parts.lk (by decide))
    (by rw [k.parts.sv (by decide)]) (by rw [k.parts.gh (by decide)])

theorem computed_takeReact (code taken mask : Nat) {cause : Cause} (hc : cause ≠ .command) (h : computed o s) :
    computed o (takeReact code taken mask cause s) := by
  unfold takeReact
  refine computed_ite _ (computed_maskDemand mask false hc h) (computed_ite _ (computed_maskDemand mask true hc h)
    (computed_ite _ (computed_ite _ h ?_) (computed_ite _ (computed_enterSafe h) (computed_ite _ (computed_failPath code h) h))))
  exact computed_step h (touches_same (touches_refl _ s) rfl rfl) rfl rfl rfl

theorem computed_ghFaultBy (code low : Nat) (r : React) {cause : Cause} (hc : cause ≠ .command) (h : computed o s) :
    computed o (ghFaultBy code low r cause s) := by
  refine computed_ite _ (computed_takeReact _ _ _ hc (computed_ghRecord _ _ _ (computed_ite _ ?_ h))) h
  exact computed_step h (touches_same (touches_refl _ s) rfl rfl) rfl rfl rfl

theorem computed_events (h : computed o s) (k : onlyEvents s t) : computed o t :=
  computed_step h (touches_onlyEvents (touches_refl _ s) k fun _ => .inl) (k.parts.lk (by decide)) (by rw [k.parts.sv (by decide)])
    (by rw [k.parts.gh (by decide)])

theorem computed_ckSample (sub : Bool) {c : Nat} (hc : c < 64) (x : Int) (h : computed o s) : computed o (ckSample sub c x s) := by
  unfold ckSample
  refine computed_ite _ h ?_
  split
  rename_i free s1 e
  have hs1 : computed o s1 := by
    cases e
    exact computed_step h (touches_same (touches_refl _ s) rfl rfl) rfl rfl rfl
  extract_lets k0 k1 k2 held was act k3 s2
  have hs2 : computed o s2 := computed_putBit _ _ (engineReg_check hc) (computed_putBit _ _ (engineReg_check hc) (computed_putBit _ _ (engineReg_check hc)
    (computed_step hs1 (touches_same (touches_refl _ s1) rfl rfl) rfl rfl rfl)))
  refine computed_ite _ (computed_ghFaultBy _ _ _ (by simp) ?_) hs2
  exact computed_events (computed_putBit _ _ (engineReg_check hc) hs2) (raiseEvent_onlyEvents (by decide) (onlyEvents_refl _))

theorem computed_ckFeed (sub : Bool) (kind src : Nat) (x : Int) (h : computed o s) : computed o (ckFeed sub kind src x s) :=
  computed_forEach _ (fun _ hc _ h => computed_ckSample sub (List.mem_range.mp (List.mem_filter.mp hc).1) x h) h

/-! ### The programs -/

theorem computed_intake {a : Nat} (ha : a < 256) (h : computed o s) : computed o (intake a s) := by
  unfold intake
  extract_lets l x
  split
  rename_i l1 sat _
  extract_lets s1
  exact computed_ckFeed _ _ _ _ (computed_sdSample _ _ _ _ (computed_startAt _ _
    (computed_whenB _ (fun _ => computed_putBit _ _ (engineReg_window ha (by decide))) (computed_setLoop _ _ h))))

theorem computed_stickies {a : Nat} (ha : a < 256) (g : StageFlags) (h : computed o s) : computed o (stickies a g s) :=
  computed_forEach _ (fun _ _ _ h => computed_putBit _ _ (engineReg_window ha (by decide)) h) h

theorem computed_stopObj {x : Nat} (hx : x < 288) (k : Nat) (hold : Bool) (h : computed o s) : computed o (stopObj x k hold s) := by
  have note : computed o (noteStopped x s) :=
    computed_parts h (sameBut_mono (by decide) (noteStopped_only x s).2.1)
  have set (y : Profile) {t : State} (ht : computed o t) : computed o (setProf x y t) :=
    computed_parts ht (sameBut_mono (by decide) (setProf_parts x y t))
  unfold stopObj
  extract_lets y l t r
  refine computed_ite _ h (computed_ite _ (computed_ite _ (set _ note) note) ?_)
  split
  exact computed_whenB _ (fun _ => computed_putBit _ _ (engineReg_mpStat hx)) (set _ note)

theorem computed_moverProgram (b : Nat) {a m : Nat} (ha : a < 256) (hm : m < 32) (h : computed o s) : computed o (moverProgram b a m s).1 := by
  have mover : engineReg (canonAddr (mpStat (256 + m))) := engineReg_mpStat (by omega)
  unfold moverProgram
  extract_lets _ _
  split
  extract_lets _
  split
  extract_lets s1
  have hs1 : computed o s1 := computed_startAt _ _ (computed_setLoop _ _ h)
  split
  extract_lets _ s2 _ s3 s4
  have hs2 : computed o s2 := computed_stickies ha _ (computed_whenB _ (fun _ => computed_putBit _ _ (engineReg_window ha (by decide))) (computed_setLoop _ _ hs1))
  have hs3 : computed o s3 := computed_step hs2 (touches_same (touches_refl _ s2) rfl rfl) rfl rfl rfl
  have hs4 : computed o s4 := computed_ite _ (computed_stopObj (by omega) _ _ (computed_putBit _ _ mover hs3))
    (computed_whenB _ (fun _ => computed_putBit _ _ mover) hs3)
  exact computed_ckFeed _ _ _ _ (computed_sdSample _ _ _ _ hs4)

theorem computed_moverPrograms (b : Nat) {a : Nat} (ha : a < 256) {ms : List Nat} (hm : ∀ m ∈ ms, m < 32) (h : computed o s) :
    computed o (moverPrograms b a ms s).1 := by
  suffices go : ∀ (t : State) (f : StageFlags), computed o t → computed o (ms.foldl (fun (x : State × StageFlags) m =>
      let r := moverProgram b a m x.1; (r.1, x.2.or r.2)) (t, f)).1 from go s _ h
  induction ms with
  | nil => exact fun _ _ ht => ht
  | cons m ms ih =>
    exact fun _ _ ht => ih (fun n hn => hm n (List.mem_cons_of_mem m hn)) _ _ (computed_moverProgram b ha (hm m (List.mem_cons_self ..)) ht)

theorem ledBy_lt {a m : Nat} (h : m ∈ ledBy s a) : m < 32 :=
  List.mem_range.mp (List.mem_filter.mp (List.mem_filter.mp h).1).1

/-- An axis that no drive is attached to: its lane shows that it ran. -/
theorem axisProgram_noDrive {a : Nat} (off : svOut s a = 0) (ha : a < 256) (lane : Nat) (v1 : Int) (first : Bool) (g : StageFlags) :
    computed s (axisProgram a lane v1 first g s) ∧ (axisProgram a lane v1 first g s).sv = s.sv := by
  have e : axisProgram a lane v1 first g s = whenB (lane == s.lk.q % 8 && !s.pr.diag) (putPair (svBase a + 0x92) s.lk.q)
    (putWord (svBase a + 2) (word (2 ^ 19 + (lane == s.lk.q % 8 && !s.pr.diag).toNat * 2 ^ 8)) s) := if_pos off
  rw [e]
  refine ⟨computed_whenB _ (fun _ => computed_putPair _ (engineReg_window ha (by decide)) (engineReg_window (k := 0x93) ha (by decide)))
    (computed_putWord _ (engineReg_window ha (by decide)) (computed_refl s)), ?_⟩
  have parts : sameBut [.regs, .held] s _ :=
    (keeps_whenB (lane == s.lk.q % 8 && !s.pr.diag) (fun t (h : keeps [.regs, .held] s t) => putPair_keeps (svBase a + 0x92) s.lk.q (by decide) h)
      (putWord_keeps (svBase a + 2) (word (2 ^ 19 + (lane == s.lk.q % 8 && !s.pr.diag).toNat * 2 ^ 8)) (by decide) (keeps_refl _ s))).parts
  exact parts.sv (by decide)

/-- The program of a driven axis: its output words are those of the state after its input stage. -/
theorem axisProgram_drive {a : Nat} (on : svOut s a ≠ 0) (ha : a < 256) (lane : Nat) (v1 : Int) (first : Bool) (g : StageFlags) :
    computed s (axisProgram a lane v1 first g s) ∧ ∃ (s1 : State) (l : LoopSt), computed s s1 ∧
      (axisProgram a lane v1 first g s).sv.outs = mapPut OutRec.reset s.sv.outs a (outWords s1 a l) := by
  unfold axisProgram
  extract_lets checked f seg s1
  have hs1 : computed s s1 := computed_whenB _ (fun _ => computed_putBit _ _ (engineReg_mpStat (by omega))) (computed_refl s)
  have sv1 : s1.sv = s.sv := (keeps_whenB (L := [.regs, .held]) _ (fun t h => putBit_keeps _ _ _ (by decide) h) (keeps_refl _ s)).parts.sv (by decide)
  rw [if_neg on]
  split
  extract_lets l3
  split
  extract_lets l4 s2 s3
  have hs2 : computed s s2 := computed_stickies ha _ (computed_putWord _ (engineReg_window ha (by decide)) (computed_setLoop _ _ hs1))
  have hs3 : computed s s3 := computed_whenB _ (fun _ => computed_putPair _ (engineReg_window ha (by decide)) (engineReg_window (k := 0x93) ha (by decide))) hs2
  have sv3 : s3.sv = (setLoop a l4 s1).sv :=
    (keeps_whenB (L := [.regs, .held]) _ (fun t h => putPair_keeps _ _ (by decide) h)
      (stickies_keeps _ _ (by decide) (putWord_keeps _ _ (by decide) (keeps_refl _ (setLoop a l4 s1))))).parts.sv (by decide)
  refine ⟨computed_step hs3 (touches_same (touches_refl _ s3) rfl rfl) rfl rfl rfl, s1, l4, hs1, ?_⟩
  exact congrArg (fun m => mapPut OutRec.reset m a (outWords s1 a l4)) ((congrArg Servo.outs sv3).trans (congrArg Servo.outs sv1 :))

theorem computed_axisProgram {a : Nat} (ha : a < 256) (lane : Nat) (v1 : Int) (first : Bool) (g : StageFlags) (h : computed o s) :
    computed o (axisProgram a lane v1 first g s) := by
  by_cases off : svOut s a = 0
  · exact computed_trans h (axisProgram_noDrive off ha lane v1 first g).1
  · exact computed_trans h (axisProgram_drive off ha lane v1 first g).1

/-! ### The configuration that a computation reads -/

theorem not_engineReg_group {a : Nat} (ha : a < 256) : ¬engineReg (canonAddr (0xF34020 + a / 8)) := by
  have e : canonAddr (0xF34020 + a / 8) = 0xF34020 + a / 8 := if_neg (by omega)
  rw [e]
  unfold engineReg
  simp [eventReg]
  omega

theorem not_engineReg_window {a k : Nat} (ha : a < 256) (hk : k < 0xE0) (out : k ∉ [2, 3, 0x92, 0x93]) : ¬engineReg (canonAddr (svBase a + k)) := by
  have e : canonAddr (svBase a + k) = svBase a + k := if_neg (by unfold svBase; omega)
  rw [e]
  unfold engineReg svBase
  simp [eventReg] at out ⊢
  omega

theorem computed.axisGroup (h : computed o s) {a : Nat} (ha : a < 256) : axisGroup s a = axisGroup o a :=
  congrArg (Fin.ofNat 4) (h.regs.fldOf (not_engineReg_group ha) _ _)

theorem computed.svOut (h : computed o s) {a : Nat} (ha : a < 256) : svOut s a = svOut o a :=
  h.regs.fldOf (not_engineReg_window (k := 0) ha (by decide) (by decide)) 19 18

theorem computed.svJpart (h : computed o s) {a : Nat} (ha : a < 256) : svJpart s a = svJpart o a :=
  h.regs.bitOf (not_engineReg_window (k := 0) ha (by decide) (by decide)) 17

theorem computed.axisCount (h : computed o s) : axisCount s = axisCount o := by
  unfold Machine.axisCount modeOf
  rw [h.regs.fldOf (by unfold engineReg; decide) 19 18]

/-- An axis of a group in STO is given EN = 0 (R147). -/
theorem outWords_deEnergised (h : computed o s) {a : Nat} (ha : a < 256) (sto : o.gh.grp[axisGroup o a].cond = .sto) (l : LoopSt) :
    (outWords s a l).en = false := by
  have group : objGroup s a = axisGroup o a := (if_pos ha).trans (h.axisGroup ha)
  have cond : s.gh.grp[objGroup s a].cond = .sto := (congrArg (fun g : Fin 4 => s.gh.grp[g].cond) group).trans (h.sto _ sto)
  have off : deEnergised s a = true := by rw [deEnergised, cond]; rfl
  unfold outWords
  simp only [off]
  split
  · rfl
  · split <;> rfl

/-! ### The programs of a batch -/

/-- The lane, the velocity before, whether it is the first use and the flags of its movers, of each axis of a batch. -/
abbrev LaneItem := ((Nat × Nat) × (Int × Bool)) × StageFlags

def LaneItem.axis (x : LaneItem) : Nat := x.1.1.1

def runLane (x : LaneItem) (s : State) : State := axisProgram x.1.1.1 x.1.1.2 x.1.2.1 x.1.2.2 x.2 s

def outEn (s : State) (a : Nat) : Bool := (mapGet OutRec.reset s.sv.outs a).en

/-- The program of an axis of a group in STO, or of another axis, leaves it with EN = 0. -/
theorem runLane_off (x : LaneItem) (hx : x.axis < 256) (h : computed o s) {a : Nat} (sto : o.gh.grp[axisGroup o a].cond = .sto)
    (on : svOut o a ≠ 0) (off : x.axis = a ∨ outEn s a = false) : outEn (runLane x s) a = false := by
  by_cases drive : svOut s x.axis = 0
  · have apart : x.axis ≠ a := fun e => on (by rw [← h.svOut (e ▸ hx), ← e]; exact drive)
    exact (congrArg (fun v : Servo => (mapGet OutRec.reset v.outs a).en) (axisProgram_noDrive drive hx ..).2).trans (off.resolve_left apart)
  · obtain ⟨-, s1, l, run, outs⟩ := axisProgram_drive drive hx x.1.1.2 x.1.2.1 x.1.2.2 x.2
    unfold outEn runLane
    rw [show (axisProgram x.1.1.1 x.1.1.2 x.1.2.1 x.1.2.2 x.2 s).sv.outs = _ from outs]
    by_cases e : a = x.axis
    · subst e
      rw [mapGet_mapPut_same]
      exact outWords_deEnergised (computed_trans h run) hx sto l
    · rw [mapGet_mapPut_other _ _ _ _ e]
      exact off.resolve_left fun k => e k.symm

theorem runLanes_spec (l : List LaneItem) (hl : ∀ x ∈ l, x.axis < 256) (h : computed o s) :
    computed o (forEach l runLane s) ∧ ∀ a, o.gh.grp[axisGroup o a].cond = .sto → svOut o a ≠ 0 →
      ((∃ x ∈ l, x.axis = a) ∨ outEn s a = false) → outEn (forEach l runLane s) a = false := by
  induction l generalizing s with
  | nil => exact ⟨h, fun a _ _ off => off.resolve_left fun ⟨_, hx, _⟩ => absurd hx (List.not_mem_nil)⟩
  | cons x l ih =>
    have hx := hl x (List.mem_cons_self ..)
    have step {a : Nat} := runLane_off (a := a) x hx h
    obtain ⟨run, rest⟩ := ih (s := runLane x s) (fun y hy => hl y (List.mem_cons_of_mem x hy)) (computed_axisProgram hx _ _ _ _ h)
    refine ⟨run, fun a sto on off => rest a sto on ?_⟩
    rcases off with ⟨y, hy, e⟩ | off
    · rcases List.mem_cons.mp hy with rfl | hy
      · exact .inr (step sto on (.inl e))
      · exact .inl ⟨y, hy, e⟩
    · exact .inr (step sto on (.inr off))

theorem axisCount_le (s : State) : axisCount s ≤ 256 := by
  unfold axisCount
  split
  · omega
  · split <;> omega

theorem batchAxes_lt {b a : Nat} (h : a ∈ batchAxes s b) : a < 256 :=
  Nat.lt_of_lt_of_le (List.mem_range.mp (List.mem_filter.mp (List.mem_of_mem_drop (List.mem_of_mem_take h))).1) (axisCount_le s)

/-- The mover programs of a list of axes, with their flags. -/
def movedLanes (b : Nat) (u : State) (l : List Nat) (x : State × List StageFlags) : State × List StageFlags :=
  l.foldl (fun (x : State × List StageFlags) a => let r := moverPrograms b a (ledBy u a) x.1; (r.1, x.2 ++ [r.2])) x

theorem movedLanes_spec (b : Nat) (u : State) (l : List Nat) (hl : ∀ a ∈ l, a < 256) (t : State) (fs : List StageFlags) (h : computed o t) :
    computed o (movedLanes b u l (t, fs)).1 ∧ (movedLanes b u l (t, fs)).2.length = fs.length + l.length := by
  induction l generalizing t fs with
  | nil => exact ⟨h, rfl⟩
  | cons a l ih =>
    obtain ⟨run, len⟩ := ih (fun c hc => hl c (List.mem_cons_of_mem a hc)) _ (fs ++ [(moverPrograms b a (ledBy u a) t).2])
      (computed_moverPrograms b (hl a (List.mem_cons_self ..)) (fun m => ledBy_lt) h)
    refine ⟨run, len.trans ?_⟩
    rw [List.length_append, List.length_singleton, List.length_cons]
    omega

/-- The programs of a batch keep the queues and the configuration, and leave each driven axis of a group in STO with EN = 0. -/
theorem batchPrograms_spec (b : Nat) (s : State) :
    computed s (batchPrograms b s) ∧ (batchPrograms b s).sv.batch = none ∧ (batchPrograms b s).sv.done = b ∧
      ∀ a ∈ batchAxes s b, svOut s a ≠ 0 → s.gh.grp[axisGroup s a].cond = .sto → outEn (batchPrograms b s) a = false := by
  have small : ∀ a ∈ batchAxes s b, a < 256 := fun a => batchAxes_lt
  unfold batchPrograms
  extract_lets axes olds s1 s2 s3
  have hs1 : computed s s1 := computed_forEach _ (fun a ha _ h => computed_intake (small a (List.mem_of_mem_filter ha)) h) (computed_refl s)
  obtain ⟨hs2, len⟩ := movedLanes_spec b s1 axes small s1 [] hs1
  have axisList : ((axes.zipIdx.zip olds).zip s2.2).map LaneItem.axis = axes := by
    have lanes : axes.zipIdx.length ≤ olds.length := by rw [List.length_zipIdx, List.length_map]
    have items : (axes.zipIdx.zip olds).length ≤ s2.2.length := by
      have flags : s2.2.length = 0 + axes.length := len
      rw [List.length_zip, flags, List.length_zipIdx]
      omega
    calc ((axes.zipIdx.zip olds).zip s2.2).map LaneItem.axis
        = ((((axes.zipIdx.zip olds).zip s2.2).map Prod.fst).map Prod.fst).map Prod.fst := by rw [List.map_map, List.map_map]; rfl
      _ = axes := by rw [List.map_fst_zip items, List.map_fst_zip lanes, List.zipIdx_map_fst]
  have inList : ∀ x ∈ (axes.zipIdx.zip olds).zip s2.2, LaneItem.axis x < 256 := fun x hx => by
    have member : LaneItem.axis x ∈ axes := by rw [← axisList]; exact List.mem_map_of_mem hx
    exact small _ member
  obtain ⟨run, off⟩ := runLanes_spec _ inList hs2
  refine ⟨computed_step run (touches_same (touches_refl _ _) rfl rfl) rfl rfl rfl, rfl, rfl, fun a ha on sto => ?_⟩
  obtain ⟨x, hx, e⟩ := List.mem_map.mp (axisList.symm ▸ ha : a ∈ ((axes.zipIdx.zip olds).zip s2.2).map LaneItem.axis)
  exact off a sto on (.inl ⟨x, hx, e⟩)

end Sys2Proof.Machine
end

