-- ==== Sys2Proof/Proofs/ServoBatches.lean ====
section
/-! PROOFS. Batches of the servo engine: their start, their end, and the end of one that ran on past T0 (05 R127, R129-R131, R147). -/

namespace Sys2Proof.Machine

variable {s t : State}

/-! ### The start of a batch -/

theorem engineRuns_advance (t : Nat) (s : State) : engineRuns (advance t s) = engineRuns s := rfl
theorem isStandby_advance (t : Nat) (s : State) : isStandby (advance t s) = isStandby s := rfl
theorem paired_advance (t : Nat) (s : State) : paired (advance t s) = paired s := rfl
theorem batchCount_advance (t : Nat) (s : State) : batchCount (advance t s) = batchCount s := rfl
theorem batchReady_advance (t b : Nat) (s : State) : batchReady (advance t s) b = batchReady s b := rfl
theorem batchAxes_advance (t b : Nat) (s : State) : batchAxes (advance t s) b = batchAxes s b := rfl
theorem substMask_advance (t b : Nat) (s : State) : substMask (advance t s) b = substMask s b := rfl

/-- The axes of a batch that start with substitutes. -/
def substAxes (s : State) (b : Nat) : List Nat :=
  (batchAxes s b).zipIdx.filterMap fun x => if substMask s b / 2 ^ x.2 % 2 = 1 then some x.1 else none

/-- A batch that starts: its substitutes are on the list and shown in their windows. -/
def batchBegun (b : Nat) (s : State) : State :=
  forEach (substAxes s b) (fun a s => putBit (svBase a + 3) 8 true s)
    { s with sv := { s.sv with batch := some b, subst := s.sv.subst ++ substAxes s b } }

/-- In a unit of no pair a batch that may start does, with LATE where substitutes were taken at its latest start. -/
theorem batchStart_alone (late : Bool) (run : engineRuns s = true) (alone : paired s = false) (own : isStandby s = false)
    (free : s.sv.batch = none) (none : s.sv.late = none) (left : s.sv.done + 1 ≤ batchCount s)
    (may : late = true ∨ batchReady s (s.sv.done + 1) = true) :
    batchStart late s = whenB (late && substMask s (s.sv.done + 1) != 0) (putBit 0xF100E0 11 true) (batchBegun (s.sv.done + 1) s) := by
  have ready : (late || batchReady s (s.sv.done + 1)) = true := by rcases may with h | h <;> simp [h]
  unfold batchStart
  simp only [own, alone, Bool.false_eq_true, if_false, Bool.false_and]
  rw [if_neg (by simp [run, free, none, ready]; omega)]
  rfl

/-- Where no substitute is taken, a batch starts with its inputs. -/
theorem substAxes_none {b : Nat} (h : substMask s b = 0) : substAxes s b = [] := by
  unfold substAxes
  rw [h]
  refine List.filterMap_eq_nil_iff.mpr fun x _ => if_neg ?_
  rw [Nat.zero_div]
  decide

theorem markSubst_spec (l : List Nat) {a : Nat} (s : State) (h : a ∈ l ∨ bit (regGet s (svBase a + 3)) 8 = true) :
    bit (regGet (forEach l (fun a s => putBit (svBase a + 3) 8 true s) s) (svBase a + 3)) 8 = true := by
  induction l generalizing s with
  | nil => exact h.resolve_left (List.not_mem_nil)
  | cons y l ih =>
    refine ih (putBit (svBase y + 3) 8 true s) ?_
    by_cases same : canonAddr (svBase a + 3) = canonAddr (svBase y + 3)
    · exact .inr (by rw [regGet_putBit, if_pos same, bit_setBit_same _ _ (by decide)])
    · have apart : a ≠ y := fun e => same (by rw [e])
      rcases h with mem | done
      · exact .inl ((List.mem_cons.mp mem).resolve_left apart)
      · exact .inr (by rw [regGet_putBit, if_neg same, done])

theorem batchBegun_parts (b : Nat) (s : State) : sameBut [.sv, .regs, .held] s (batchBegun b s) :=
  (keeps_forEach _ (fun _ _ h => putBit_keeps _ _ _ (by decide) h) (keeps_sv _ (by decide) (keeps_refl [.sv, .regs, .held] s))).parts

theorem batchBegun_sv (b : Nat) (s : State) :
    (batchBegun b s).sv = { s.sv with batch := some b, subst := s.sv.subst ++ substAxes s b } :=
  (keeps_forEach (L := [.regs, .held]) (substAxes s b) (fun a t h => putBit_keeps (svBase a + 3) 8 true (by decide) h)
    (keeps_refl _ { s with sv := { s.sv with batch := some b, subst := s.sv.subst ++ substAxes s b } })).parts.sv (by decide)

theorem window_not_servo {a : Nat} : canonAddr (svBase a + 3) ≠ canonAddr 0xF100E0 := by
  rw [show canonAddr (svBase a + 3) = svBase a + 3 from if_neg (by unfold svBase; omega)]
  show svBase a + 3 ≠ 0xF100E0
  unfold svBase
  omega

theorem batch_starts (s : State) (late : Bool) (t : Nat) (run : engineRuns s = true) (alone : paired s = false) (own : isStandby s = false)
    (free : s.sv.batch = none) (none : s.sv.late = none) (left : s.sv.done + 1 ≤ batchCount s)
    (may : late = true ∨ batchReady s (s.sv.done + 1) = true) :
    ∃ u, exec (.batchStart late t) s = .next u ∧ u.sv.batch = some (s.sv.done + 1) ∧
      u.sv = { s.sv with batch := u.sv.batch, subst := u.sv.subst } ∧
      (substMask s (s.sv.done + 1) = 0 → u.sv.subst = s.sv.subst ∧ sameBut [.now, .sv] s u) ∧
      (substMask s (s.sv.done + 1) ≠ 0 → late = true → bit (regGet u 0xF100E0) 11 = true ∧
        ∀ a ∈ u.sv.subst, a ∉ s.sv.subst → bit (regGet u (svBase a + 3)) 8 = true) ∧
      sameBut [.now, .sv, .regs, .held] s u := by
  have clock : sameBut [.now] s (advance t s) := (keeps_now _ (by decide) (keeps_refl [.now] s)).parts
  have call : exec (.batchStart late t) s = .next (batchStart late (advance t s)) := rfl
  have begun := batchStart_alone (s := advance t s) late run alone own free none left may
  have mask := substMask_advance t (s.sv.done + 1) s
  have sv : (advance t s).sv = s.sv := rfl
  have axes : substAxes (advance t s) (s.sv.done + 1) = substAxes s (s.sv.done + 1) := rfl
  generalize advance t s = v at call clock begun mask sv axes
  rw [sv, mask] at begun
  have parts := batchBegun_parts (s.sv.done + 1) v
  have svB := batchBegun_sv (s.sv.done + 1) v
  rw [sv, axes] at svB
  have late' : sameBut [.regs, .held] (batchBegun (s.sv.done + 1) v)
      (whenB (late && substMask s (s.sv.done + 1) != 0) (putBit 0xF100E0 11 true) (batchBegun (s.sv.done + 1) v)) :=
    (keeps_whenB _ (fun _ h => putBit_keeps _ _ _ (by decide) h) (keeps_refl _ _)).parts
  have svU := (late'.sv (by decide)).trans svB
  refine ⟨_, call.trans (congrArg Host.Outcome.next begun), congrArg Servo.batch svU, svU.trans (by rw [svU]), fun quiet => ?_, fun lacks isLate => ?_,
    sameBut_trans (sameBut_mono (by decide) clock) (sameBut_trans (sameBut_mono (by decide) parts) (sameBut_mono (by decide) late'))⟩
  · have empty := substAxes_none quiet
    refine ⟨by rw [svU, empty, List.append_nil], ?_⟩
    rw [quiet, Bool.and_comm, show ((0 : Nat) != 0) = false from rfl, Bool.false_and]
    have only : sameBut [.sv] v (batchBegun (s.sv.done + 1) v) := by
      rw [batchBegun, axes, empty]
      exact (keeps_sv _ (by decide) (keeps_refl [.sv] v)).parts
    exact sameBut_trans (sameBut_mono (by decide) clock) (sameBut_mono (by decide) only)
  · have on : (late && substMask s (s.sv.done + 1) != 0) = true := by simp [lacks, isLate]
    rw [on]
    refine ⟨bit_putBit_same _ _ _ (by decide), fun a ha out => ?_⟩
    have member : a ∈ substAxes s (s.sv.done + 1) := by
      have ha' : a ∈ (batchBegun (s.sv.done + 1) v).sv.subst := ha
      rw [svB] at ha'
      exact (List.mem_append.mp ha').resolve_left out
    have marked := markSubst_spec (substAxes v (s.sv.done + 1)) (a := a)
      { v with sv := { v.sv with batch := some (s.sv.done + 1), subst := v.sv.subst ++ substAxes v (s.sv.done + 1) } } (.inl (axes ▸ member))
    show bit (regGet (putBit 0xF100E0 11 true (batchBegun (s.sv.done + 1) v)) _) 8 = true
    rw [regGet_putBit]
    split
    case isTrue same => exact absurd same (window_not_servo)
    case isFalse => exact marked

theorem batch_waits (s : State) (late : Bool) (t : Nat) (busy : s.sv.batch.isSome = true ∨ s.sv.late.isSome = true) :
    ∃ u, exec (.batchStart late t) s = .next u ∧ sameBut [.now] s u := by
  have clock : sameBut [.now] s (advance t s) := (keeps_now _ (by decide) (keeps_refl [.now] s)).parts
  have stays : batchStart late (advance t s) = advance t s := if_pos (by
    rcases busy with h | h
    · simp [h]
    · simp [h])
  exact ⟨_, congrArg Host.Outcome.next stays, clock⟩

/-! ### The end of a batch -/

theorem checkLane_agrees (b q : Nat) (s : State) : checkLane b q false s = s := by
  unfold checkLane
  split <;> rfl

/-- The set-points of a batch in the queue of the link. -/
def queuedSetp (qs : List SetpQueue) (s : State) : State :=
  { s with lk := { s.lk with toSend := s.lk.toSend ++ qs.map fun x => { x with ready := s.now + 40 } } }

/-- The set-points queued, and in a pair the signatures sent. -/
def handedOn (sig : SigRec) (qs : List SetpQueue) (s : State) : State :=
  if paired (queuedSetp qs s) then
    sendFrame { pairFrame (queuedSetp qs s) (.pSig sig.batch sig.own sig.isig sig.osig) with seq := sig.seq }
      { queuedSetp qs s with pr := { s.pr with sigOwn := s.pr.sigOwn ++ [sig] } }
  else queuedSetp qs s

theorem handedOn_toSend (sig : SigRec) (qs : List SetpQueue) (s : State) :
    (handedOn sig qs s).lk.toSend = s.lk.toSend ++ qs.map fun x => { x with ready := s.now + 40 } := by
  unfold handedOn
  split <;> rfl

theorem batchPublish_eq (sig : SigRec) (qs : List SetpQueue) (s : State) :
    batchPublish false sig qs s =
      afterStill (if sig.batch = batchCount (handedOn sig qs s) then raiseEvent 3 (handedOn sig qs s) else handedOn sig qs s) := by
  unfold batchPublish
  simp only [checkLane_agrees]
  rfl

/-- What the end of a batch hands on leaves the servo engine, the memories and the queues before it as they are. -/
theorem batchPublish_spec (sig : SigRec) (qs : List SetpQueue) (s : State) :
    (batchPublish false sig qs s).sv = s.sv ∧ (batchPublish false sig qs s).mem = s.mem ∧
      (batchPublish false sig qs s).lk.toSend = s.lk.toSend ++ qs.map fun x => { x with ready := s.now + 40 } := by
  have parts := (batchPublish_keeps (L := [.sys, .regs, .held, .pg, .bv, .lk, .pr, .gh, .ph, .pc]) false sig qs (by decide) (keeps_refl _ s)).parts
  refine ⟨parts.sv (by decide), parts.mem (by decide), ?_⟩
  have handed := handedOn_toSend sig qs s
  rw [batchPublish_eq]
  generalize handedOn sig qs s = u at handed
  have events : (if sig.batch = batchCount u then raiseEvent 3 u else u).lk = u.lk := by
    split
    · exact (raiseEvent_onlyEvents (by decide) (onlyEvents_refl u)).parts.lk (by decide)
    · rfl
  have still := (afterStill_keeps (L := [.regs, .held, .pg, .bv, .gh, .ph, .pc]) (by decide)
    (keeps_refl _ (if sig.batch = batchCount u then raiseEvent 3 u else u))).parts.lk (by decide)
  rw [still, events, handed]

theorem compareSig_spec (b q : Nat) (s : State) :
    (compareSig b q s).sv = s.sv ∧ (compareSig b q s).mem = s.mem ∧ (compareSig b q s).lk = s.lk := by
  have parts := (compareSig_keeps (L := [.regs, .held, .pg, .bv, .pr, .pc]) b q (by decide) (keeps_refl _ s)).parts
  exact ⟨parts.sv (by decide), parts.mem (by decide), parts.lk (by decide)⟩

theorem lateBatch_ends (s : State) (sig : SigRec) (qs : List SetpQueue) (t : Nat) (late : s.sv.late = some (sig, qs)) :
    ∃ u, exec (.batchEnd false t) s = .next u ∧ u.sv = { s.sv with late := none } ∧ u.mem = s.mem ∧
      u.lk.toSend = s.lk.toSend ++ qs.map fun x => { x with ready := max s.now t + 40 } := by
  have run : exec (.batchEnd false t) s = .next (compareSig sig.batch sig.seq (batchPublish false sig qs { advance t s with sv := { s.sv with late := none } })) := by
    have late' : (advance t s).sv.late = some (sig, qs) := late
    show execBatchEnd false t s = _
    unfold execBatchEnd batchEnd
    simp only [late']
    rfl
  obtain ⟨sv, mem, toSend⟩ := batchPublish_spec sig qs { advance t s with sv := { s.sv with late := none } }
  obtain ⟨sv', mem', lk'⟩ := compareSig_spec sig.batch sig.seq (batchPublish false sig qs { advance t s with sv := { s.sv with late := none } })
  exact ⟨_, run, sv'.trans sv, mem'.trans mem, (congrArg Link.toSend lk').trans toSend⟩

/-! ### The set-points of a batch -/

theorem not_engineReg_node {a : Nat} (ha : a < 122) : ¬engineReg (canonAddr (lkNode a)) := by
  have e : canonAddr (lkNode a) = lkNode a := if_neg (by unfold lkNode; omega)
  rw [e]
  unfold engineReg lkNode
  simp [eventReg]
  omega

theorem computed.engineAxes {o s : State} (h : computed o s) : engineAxes s = engineAxes o := by
  unfold Machine.engineAxes
  rw [h.axisCount]
  refine List.filter_congr fun a ha => ?_
  have small := Nat.lt_of_lt_of_le (List.mem_range.mp ha) (axisCount_le o)
  rw [h.svOut small, h.svJpart small]

/-- The nodes that a batch feeds are configured, and no program changes that. -/
theorem computed.nodes {o s : State} (h : computed o s) (c b : Nat) : batchNodes s c b = batchNodes o c b := by
  have engine := h.engineAxes
  have count := h.axisCount
  have channel {a : Nat} (ha : a < 122) : nodeCh s a = nodeCh o a := congrArg Bool.toNat (h.regs.bitOf (not_engineReg_node ha) 18)
  have enabled {a : Nat} (ha : a < 122) : nodeEn s a = nodeEn o a := by
    unfold nodeEn
    rw [h.regs.bitOf (not_engineReg_node ha) 19]
  have nodes : chNodes s c = chNodes o c :=
    List.filter_congr fun a ha => by rw [enabled (List.mem_range.mp ha), channel (List.mem_range.mp ha)]
  have axes {a : Nat} (ha : a < 122) : nodeAxes s a = nodeAxes o a := by
    unfold nodeAxes nodeNax nodeFirst
    rw [h.regs.fldOf (not_engineReg_node ha), h.regs.fldOf (not_engineReg_node ha)]
  unfold batchNodes
  rw [nodes]
  refine List.filter_congr fun a ha => ?_
  have small : a < 122 := List.mem_range.mp (List.mem_filter.mp ha).1
  unfold nodeBatch batchOf carriesAxis
  rw [axes small, channel small, engine, count]

/-- The set-points that a batch hands on, of the cycle it was computed in. -/
theorem batchQueues_eq (s : State) (b : Nat) :
    ∃ x y : SetpQueue, batchQueues s b = [x, y] ∧ x.ch = 0 ∧ y.ch = 1 ∧
      ∀ q ∈ [x, y], q.batch = b ∧ q.seq = s.lk.q ∧ q.frames.map (·.1) = batchNodes s q.ch b := by
  refine ⟨_, _, rfl, rfl, rfl, fun q hq => ?_⟩
  rcases List.mem_cons.mp hq with rfl | hq
  · exact ⟨rfl, rfl, (List.map_map ..).trans (List.map_id _)⟩
  · rw [List.mem_singleton.mp hq]
    exact ⟨rfl, rfl, (List.map_map ..).trans (List.map_id _)⟩

theorem batch_ends (s : State) (b t : Nat) (notLate : s.sv.late = none) (busy : s.sv.batch = some b) :
    ∃ u, exec (.batchEnd false t) s = .next u ∧ u.sv.batch = none ∧ u.sv.done = b ∧ u.sv.subst = s.sv.subst ∧ u.mem = s.mem ∧
      (∃ x y : SetpQueue, u.lk.toSend = s.lk.toSend ++ [x, y] ∧ x.ch = 0 ∧ y.ch = 1 ∧
        ∀ q ∈ [x, y], q.batch = b ∧ q.seq = s.lk.q ∧ q.ready = max s.now t + 40 ∧ q.frames.map (·.1) = batchNodes s q.ch b) ∧
      ∀ a ∈ batchAxes s b, svOut s a ≠ 0 → s.gh.grp[axisGroup s a].cond = .sto → (mapGet OutRec.reset u.sv.outs a).en = false := by
  have run : exec (.batchEnd false t) s = .next (compareSig b s.lk.q (batchPublish false (sigOf (batchPrograms b (advance t s)) b)
      (batchQueues (batchPrograms b (advance t s)) b) (batchPrograms b (advance t s)))) := by
    have late' : (advance t s).sv.late = none := notLate
    have busy' : (advance t s).sv.batch = some b := busy
    show execBatchEnd false t s = _
    unfold execBatchEnd batchEnd
    simp only [late', busy']
    rfl
  obtain ⟨kept, batch, done, off⟩ := batchPrograms_spec b (advance t s)
  have parts := (batchPrograms_keeps (L := [.freeCtr, .sys, .regs, .held, .pg, .sd, .mo, .sv, .bv, .lk, .pr, .gh, .pc]) b (by decide) (keeps_refl _ (advance t s))).parts
  have now : (batchPrograms b (advance t s)).now = max s.now t := parts.now (by decide)
  have mem : (batchPrograms b (advance t s)).mem = s.mem := parts.mem (by decide)
  have toSend : (batchPrograms b (advance t s)).lk.toSend = s.lk.toSend := kept.toSend
  have q : (batchPrograms b (advance t s)).lk.q = s.lk.q := kept.q
  have subst : (batchPrograms b (advance t s)).sv.subst = s.sv.subst := kept.subst
  have nodes (c : Nat) : batchNodes (batchPrograms b (advance t s)) c b = batchNodes s c b := kept.nodes c b
  generalize batchPrograms b (advance t s) = v at run batch done off now mem toSend q subst nodes
  obtain ⟨x, y, queues, chX, chY, each⟩ := batchQueues_eq v b
  rw [queues] at run
  obtain ⟨svP, memP, sendP⟩ := batchPublish_spec (sigOf v b) [x, y] v
  obtain ⟨svC, memC, lkC⟩ := compareSig_spec b s.lk.q (batchPublish false (sigOf v b) [x, y] v)
  have svU := svC.trans svP
  refine ⟨_, run, (congrArg Servo.batch svU).trans batch, (congrArg Servo.done svU).trans done, (congrArg Servo.subst svU).trans subst,
    memC.trans (memP.trans mem), ⟨{ x with ready := v.now + 40 }, { y with ready := v.now + 40 }, ?_, chX, chY, fun z hz => ?_⟩, fun a ha on sto => ?_⟩
  · rw [lkC, sendP, toSend]
    rfl
  · have known (w : SetpQueue) (hw : w ∈ [x, y]) (e : z = { w with ready := v.now + 40 }) :
        z.batch = b ∧ z.seq = s.lk.q ∧ z.ready = max s.now t + 40 ∧ z.frames.map (·.1) = batchNodes s z.ch b := by
      obtain ⟨hb, hs, hf⟩ := each w hw
      rw [e]
      exact ⟨hb, hs.trans q, congrArg (· + 40) now, hf.trans (nodes _)⟩
    rcases List.mem_cons.mp hz with e | hz
    · exact known x (List.mem_cons_self ..) e
    · exact known y (by simp) (List.mem_singleton.mp hz)
  · exact (congrArg (fun m : Servo => (mapGet OutRec.reset m.outs a).en) svU).trans (off a ha on sto)

end Sys2Proof.Machine
end

