-- ==== Sys2Proof/Proofs/TestSignals.lean ====
section
/-! PROOFS. Test signals (05 R155-R157). -/

namespace Sys2Proof.Machine

variable {s : State} {g : Fin 2}

/-! ### A generator -/

theorem canonAddr_gen (g : Fin 2) : canonAddr (genAddr g + 7) = genAddr g + 7 := by
  revert g
  decide

theorem gen_not_event (g : Fin 2) : eventReg (canonAddr (genAddr g + 7)) = false := by
  revert g
  decide

theorem setGen_parts (g : Fin 2) (x : Gen) (s : State) : sameBut [.sv] s (setGen g x s) := (keeps_sv _ (by decide) (keeps_refl [.sv] s)).parts

theorem gens_setGen (g h : Fin 2) (x : Gen) (s : State) : (setGen g x s).sv.gens[h] = if h = g then x else s.sv.gens[h] := by
  split
  case isTrue e => exact vector_set_at _ _ e.symm
  case isFalse e => exact Vector.getElem_set_ne g.isLt h.isLt fun k => e (Fin.ext k.symm)

/-! ### The end of an injection -/

/-- An injection has ended for a reason: its last sample stands, END and its cause are shown. -/
structure injected_ended (g : Fin 2) (r : Nat) (s u : State) : Prop where
  stopped : u.sv.gens[g].running = false
  sample : u.sv.gens[g].sample = s.sv.gens[g].sample
  idle : bit (regGet u (genAddr g + 7)) 17 = false
  ended : bit (regGet u (genAddr g + 7)) 16 = true
  cause : fld (regGet u (genAddr g + 7)) 15 13 = r
  others : ∀ h : Fin 2, h ≠ g → u.sv.gens[h] = s.sv.gens[h]
  sv : u.sv = { s.sv with gens := u.sv.gens }
  parts : sameBut [.sv, .regs, .held, .pg, .bv, .pc] s u
  regs : touches (orEvents [genAddr g + 7]) s u

theorem injEnd_spec (g : Fin 2) {r : Nat} (hr : r < 8) (s : State) : injected_ended g r s (injEnd g r s) := by
  have kept := setGen_parts g { s.sv.gens[g] with running := false } s
  have run : injEnd g r s = raiseEvent 85 (putBit (genAddr g + 7) 17 false (putBit (genAddr g + 7) 16 true (putFld (genAddr g + 7) 15 13 r
    (setGen g { s.sv.gens[g] with running := false } s)))) := rfl
  have gens (h : Fin 2) := gens_setGen g h { s.sv.gens[g] with running := false } s
  have sv : (setGen g { s.sv.gens[g] with running := false } s).sv =
    { s.sv with gens := (setGen g { s.sv.gens[g] with running := false } s).sv.gens } := rfl
  generalize setGen g { s.sv.gens[g] with running := false } s = t at run kept gens sv
  have shown : regGet (putBit (genAddr g + 7) 17 false (putBit (genAddr g + 7) 16 true (putFld (genAddr g + 7) 15 13 r t))) (genAddr g + 7) =
      setBit (setBit (setFld (regGet t (genAddr g + 7)) 15 13 r) 16 true) 17 false := by
    rw [regGet_putBit, if_pos rfl, regGet_putBit, if_pos rfl, regGet_putFld, if_pos rfl]
  have parts : sameBut [.regs, .held] t (putBit (genAddr g + 7) 17 false (putBit (genAddr g + 7) 16 true (putFld (genAddr g + 7) 15 13 r t))) :=
    (putBit_keeps _ _ _ (by decide) (putBit_keeps _ _ _ (by decide) (putFld_keeps _ _ _ _ (by decide) (keeps_refl _ t)))).parts
  have own : orEvents [genAddr g + 7] (canonAddr (genAddr g + 7)) := .inl (by rw [canonAddr_gen]; exact List.mem_singleton_self _)
  have regs : touches (orEvents [genAddr g + 7]) s (putBit (genAddr g + 7) 17 false (putBit (genAddr g + 7) 16 true (putFld (genAddr g + 7) 15 13 r t))) :=
    touches_putBit _ _ own (touches_putBit _ _ own (touches_putFld _ _ _ own (touches_of_sameBut kept (by decide) (by decide))))
  generalize putBit (genAddr g + 7) 17 false (putBit (genAddr g + 7) 16 true (putFld (genAddr g + 7) 15 13 r t)) = v at run shown parts regs
  have events : onlyEvents v (injEnd g r s) := run ▸ raiseEvent_onlyEvents (by decide) (onlyEvents_refl v)
  generalize injEnd g r s = u at events
  have word : regGet u (genAddr g + 7) = setBit (setBit (setFld (regGet t (genAddr g + 7)) 15 13 r) 16 true) 17 false :=
    (events.regGet (gen_not_event g)).trans shown
  have svU : u.sv = t.sv := (events.parts.sv (by decide)).trans (parts.sv (by decide))
  refine ⟨?_, ?_, ?_, ?_, ?_, fun h hh => ?_, ?_, ?_, touches_events regs events⟩
  · rw [svU, gens, if_pos rfl]
  · rw [svU, gens, if_pos rfl]
  · rw [word, bit_setBit_same _ _ (by decide)]
  · rw [word, bit_setBit_other _ _ (by decide) (by decide), bit_setBit_same _ _ (by decide)]
  · rw [word, fld_setBit_other _ _ (by decide) (by decide), fld_setBit_other _ _ (by decide) (by decide),
      fld_setFld_same _ _ (by decide) (by decide)]
    exact Nat.mod_eq_of_lt hr
  · rw [svU, gens, if_neg hh]
  · rw [svU, sv]
  · exact sameBut_trans (sameBut_mono (by decide) kept) (sameBut_trans (sameBut_mono (by decide) parts) (sameBut_mono (by decide) events.parts))

/-! ### START -/

/-- A generator at its sample 0. -/
def startedGen (s : State) (g : Fin 2) : Gen :=
  { running := true, k := 0, lfsr := 0x7FFF, phi := 0, inc := u32 s (genAddr g + 2),
    ratio := if fldOf s (genAddr g) 8 6 = 1 then sweepRatio (u32 s (genAddr g + 2)) (u32 s (genAddr g + 4)) (fldOf s (genAddr g + 6) 19 0) else 0,
    sample := 0, acts := false }

/-- BUSY shown, the generator at its sample 0. -/
def shownGen (g : Fin 2) (s : State) : State := putBit (genAddr g + 7) 17 true (setGen g (startedGen s g) s)

theorem genStart_runs (op : s.sys.op = .runActive ∨ s.sys.op = .runStandby) (level : effLevel s = 0)
    (quiet : stopActs s (objOfGen s g) = false) (ok : injOk s g = true) (pt : fldOf s (genAddr g) 10 9 ≠ 0)
    (len : fldOf s (genAddr g + 6) 19 0 ≠ 0) (sig : fldOf s (genAddr g) 8 6 < 4) :
    genStart g s = setGen g { startedGen s g with acts := true, sample := genValue (shownGen g s) g } (shownGen g s) := by
  have accepted : (s.sys.op == .runActive || s.sys.op == .runStandby || s.sys.op == .degraded || s.sys.op == .safe) = true := by
    rcases op with h | h <;> simp [h]
  have notLost : ¬(1 ≤ effLevel s ∨ stopActs s (objOfGen s g) = true ∨ s.sys.op = .degraded ∨ s.sys.op = .safe) := by
    rcases op with h | h <;> simp [h, level, quiet]
  refine (if_neg ?_).trans ((if_neg notLost).trans (if_pos ok))
  rw [accepted]
  simp only [Bool.not_true, Bool.or_false, Bool.or_eq_true, beq_iff_eq, decide_eq_true_eq, not_or]
  exact ⟨⟨pt, len⟩, Nat.not_le.mpr sig⟩

theorem start_runs (s : State) (g : Fin 2) (op : s.sys.op = .runActive ∨ s.sys.op = .runStandby) (level : effLevel s = 0)
    (quiet : stopActs s (objOfGen s g) = false) (ok : injOk s g = true) (pt : fldOf s (genAddr g) 10 9 ≠ 0)
    (len : fldOf s (genAddr g + 6) 19 0 ≠ 0) (sig : fldOf s (genAddr g) 8 6 < 4) :
    ∃ u, exec (.start g) s = .next u ∧ u.sv.gens[g].running = true ∧ u.sv.gens[g].k = 0 ∧ u.sv.gens[g].phi = 0 ∧ u.sv.gens[g].lfsr = 0x7FFF ∧
      u.sv.gens[g].inc = u32 s (genAddr g + 2) ∧ bit (regGet u (genAddr g + 7)) 17 = true ∧
      (∀ h : Fin 2, h ≠ g → u.sv.gens[h] = s.sv.gens[h]) ∧ u.sv = { s.sv with gens := u.sv.gens } ∧
      sameBut [.sv, .regs, .held] s u ∧ regsBut [genAddr g + 7] s u := by
  have run : exec (.start g) s = .next _ := congrArg Host.Outcome.next (genStart_runs op level quiet ok pt len sig)
  have busy : bit (regGet (shownGen g s) (genAddr g + 7)) 17 = true := bit_putBit_same _ _ _ (by decide)
  have sv : (shownGen g s).sv = { s.sv with gens := s.sv.gens.set g (startedGen s g) } := putBit_sv ..
  have old (h : Fin 2) (hh : h ≠ g) : (shownGen g s).sv.gens[h] = s.sv.gens[h] := by
    rw [sv]
    exact (gens_setGen g h (startedGen s g) s).trans (if_neg hh)
  have kept := setGen_parts g (startedGen s g) s
  have parts : sameBut [.sv, .regs, .held] s (shownGen g s) :=
    sameBut_trans (sameBut_mono (by decide) kept) (sameBut_mono (by decide) (putBit_keeps (L := [.regs, .held]) _ _ _ (by decide) (keeps_refl _ _)).parts)
  have regs : touches (· ∈ [genAddr g + 7]) s (shownGen g s) :=
    touches_putBit _ _ (by rw [canonAddr_gen]; exact List.mem_singleton_self _) (touches_of_sameBut kept (by decide) (by decide))
  generalize genValue (shownGen g s) g = y at run
  generalize shownGen g s = t at run busy sv old parts regs
  have gens (h : Fin 2) := gens_setGen g h { startedGen s g with acts := true, sample := y } t
  have own := (gens g).trans (if_pos rfl)
  have last := setGen_parts g { startedGen s g with acts := true, sample := y } t
  refine ⟨_, run, congrArg Gen.running own, congrArg Gen.k own, congrArg Gen.phi own, congrArg Gen.lfsr own, congrArg Gen.inc own, busy,
    fun h hh => ((gens h).trans (if_neg hh)).trans (old h hh), ?_, sameBut_trans parts (sameBut_mono (by decide) last),
    regsBut_of_touches (touches_sameBut regs last (by decide) (by decide))⟩
  exact congrArg (fun m : Servo => { m with gens := t.sv.gens.set g { startedGen s g with acts := true, sample := y } }) sv

theorem start_refused (s : State) (g : Fin 2)
    (bad : fldOf s (genAddr g) 10 9 = 0 ∨ fldOf s (genAddr g + 6) 19 0 = 0 ∨ 4 ≤ fldOf s (genAddr g) 8 6) : exec (.start g) s = .next s := by
  refine congrArg Host.Outcome.next (if_pos ?_)
  rcases bad with h | h | h <;> simp [h]

/-! ### ABORT and the other ends -/

/-- What ABORT does before the injection ends leaves the servo engine and the registers alone. -/
theorem abort_taken (s : State) (who : Requester) (g : Fin 2) (run : s.sv.gens[g].running = true)
    (taken : standbyDrops who (genAddr g + 7) s = false) :
    ∃ v, exec (.abort who g) s = .next (injEnd g 1 v) ∧ sameBut [.sys, .pr] s v := by
  have lock := armLock_sameBut who s
  have notDropped : standbyDrops who (genAddr g + 7) (armLock who s) = false := taken
  have ends (v : State) (parts : sameBut [.sys, .pr] s v) : genAbort g v = injEnd g 1 v :=
    if_pos (by rw [parts.sv (by decide)]; exact run)
  cases row : rowOf (genAddr g + 7) with
  | none =>
    have parts : sameBut [.sys, .pr] s (armLock who s) := sameBut_mono (by decide) lock
    refine ⟨_, congrArg Host.Outcome.next ((if_neg (by rw [notDropped]; decide)).trans ?_), parts⟩
    rw [row]
    exact ends _ parts
  | some r =>
    have parts : sameBut [.sys, .pr] s (mirrorOut who (genAddr g + 7) 0x40000 r (armLock who s)) :=
      sameBut_trans (sameBut_mono (by decide) lock)
        (sameBut_mono (by decide) (mirrorOut_keeps (L := [.pr]) who (genAddr g + 7) 0x40000 r (by decide) (keeps_refl _ _)).parts)
    refine ⟨_, congrArg Host.Outcome.next ((if_neg (by rw [notDropped]; decide)).trans ?_), parts⟩
    rw [row]
    exact ends _ parts

theorem injectionEnd_ends {r : Nat} (run : s.sv.gens[g].running = true) (cause : injCause s g = some r) :
    exec (.injectionEnd g) s = .next (injEnd g r s) := by
  refine congrArg Host.Outcome.next ((if_pos run).trans ?_)
  rw [cause]

/-- The reason that ends a running injection by itself. -/
theorem injCause_of {r : Nat}
    (why : injOk s g = false ∧ r = 5 ∨ injOk s g = true ∧ stopActs s (objOfGen s g) = false ∧ s.sys.op = .runActive ∧ effLevel s = 0 ∧
      fldOf s (genAddr g + 6) 19 0 ≤ s.sv.gens[g].k ∧ r = 0) : injCause s g = some r ∧ r < 8 := by
  rcases why with ⟨ok, rfl⟩ | ⟨ok, quiet, op, level, done, rfl⟩
  · exact ⟨if_pos (by rw [ok]; rfl), by decide⟩
  · refine ⟨?_, by decide⟩
    refine (if_neg (by rw [ok]; decide)).trans ((if_neg (by rw [quiet]; decide)).trans ((if_neg ?_).trans ((if_neg ?_).trans (if_pos done))))
    · rw [op]; simp
    · rw [level]; decide

theorem injection_ends (s : State) (g : Fin 2) (cmd : Instr) (r : Nat) (run : s.sv.gens[g].running = true)
    (why : (∃ who, cmd = .abort who g ∧ standbyDrops who (genAddr g + 7) s = false ∧ r = 1) ∨
      (cmd = .injectionEnd g ∧ injOk s g = false ∧ r = 5) ∨
      (cmd = .injectionEnd g ∧ injOk s g = true ∧ stopActs s (objOfGen s g) = false ∧ s.sys.op = .runActive ∧ effLevel s = 0 ∧
        fldOf s (genAddr g + 6) 19 0 ≤ s.sv.gens[g].k ∧ r = 0)) :
    ∃ u, exec cmd s = .next u ∧ u.sv.gens[g].running = false ∧ u.sv.gens[g].sample = s.sv.gens[g].sample ∧
      bit (regGet u (genAddr g + 7)) 17 = false ∧ bit (regGet u (genAddr g + 7)) 16 = true ∧ fld (regGet u (genAddr g + 7)) 15 13 = r ∧
      (∀ h : Fin 2, h ≠ g → u.sv.gens[h] = s.sv.gens[h]) ∧ u.sv = { s.sv with gens := u.sv.gens } ∧
      ((∀ who, cmd ≠ .abort who g) → sameBut [.sv, .regs, .held, .pg, .bv, .pc] s u) ∧
      sameBut [.sys, .sv, .regs, .held, .pg, .bv, .pc, .pr] s u ∧ regsButEvents [genAddr g + 7] s u := by
  have byItself (cause : injCause s g = some r ∧ r < 8) (e : cmd = .injectionEnd g) : ∃ v, exec cmd s = .next (injEnd g r v) ∧ r < 8 ∧
      sameBut [.sys, .pr] s v ∧ ((∀ who, cmd ≠ .abort who g) → v = s) :=
    ⟨s, e ▸ injectionEnd_ends run cause.1, cause.2, sameBut_refl _ s, fun _ => rfl⟩
  have ended : ∃ v, exec cmd s = .next (injEnd g r v) ∧ r < 8 ∧ sameBut [.sys, .pr] s v ∧ ((∀ who, cmd ≠ .abort who g) → v = s) := by
    rcases why with ⟨who, e, taken, rfl⟩ | ⟨e, h⟩ | ⟨e, h⟩
    · obtain ⟨v, abort, parts⟩ := abort_taken s who g run taken
      exact ⟨v, e ▸ abort, by decide, parts, fun k => absurd e (k who)⟩
    · exact byItself (injCause_of (.inl h)) e
    · exact byItself (injCause_of (.inr h)) e
  obtain ⟨v, e, hr, parts, same⟩ := ended
  have spec := injEnd_spec g hr v
  have sv := parts.sv (by decide)
  refine ⟨_, e, spec.stopped, spec.sample.trans (by rw [sv]), spec.idle, spec.ended, spec.cause, fun h hh => (spec.others h hh).trans (by rw [sv]),
    spec.sv.trans (by rw [sv]), fun k => ?_, sameBut_trans (sameBut_mono (by decide) parts) (sameBut_mono (by decide) spec.parts), ?_⟩
  · have stays := same k
    subst stays
    exact spec.parts
  · exact regsButEvents_of_touches (touches_trans (touches_of_sameBut parts (by decide) (by decide)) spec.regs)

theorem abort_dropped (s : State) (g : Fin 2) (who : Requester) (drops : standbyDrops who (genAddr g + 7) s = true) :
    ∃ u, exec (.abort who g) s = .next u ∧ regGet u 0xF50001 = regGet s 0xF50001 + 1 ∧ fld (regGet u 0xF50004) 15 8 = 4 ∧
      sameBut [.sys, .regs, .held] s u ∧ regsBut [0xF50001, 0xF50002, 0xF50003, 0xF50004] s u := by
  have run : exec (.abort who g) s = .next (dropWrite who (genAddr g + 7) 4 (armLock who s)) := congrArg Host.Outcome.next (if_pos drops)
  have lock := armLock_sameBut who s
  obtain ⟨regs, count, -⟩ := dropWrite_spec who (genAddr g + 7) 4 (armLock who s)
  refine ⟨_, run, count, dropWrite_why _ _ (by decide) _, ?_, ?_⟩
  · exact sameBut_trans (sameBut_mono (by decide) lock) (sameBut_mono (by decide) (dropWrite_keeps (L := [.regs, .held]) _ _ _ (by decide) (keeps_refl _ _)).parts)
  · exact regsBut_of_touches (touches_trans (touches_of_sameBut lock (by decide) (by decide)) regs)

/-- Settles O33. That a batch that runs past T0 publishes at its end, and that START of a running generator restarts it, are the model's choices (log entries 71 and 20). -/
theorem servoBatchesAndTestSignals : Obligations.ServoBatchesAndTestSignals :=
  ⟨⟨fun s late t run alone own => ⟨fun free none left may => batch_starts s late t run alone own free none left may, batch_waits s late t⟩,
      lateBatch_ends, batch_ends⟩,
    fun s g => ⟨start_runs s g, start_refused s g, injection_ends s g, abort_dropped s g⟩⟩

end Sys2Proof.Machine
end

