-- ==== Sys2Proof/Proofs/ColdStart.lean ====
section
/-! PROOFS. Cold start of the link (07 R205, R209, R213-R215). -/

namespace Sys2Proof.Machine

variable {s : State}

/-! ### Epochs and roles -/

/-- A new role epoch, kept in MRAM too. -/
structure epochSet (v : Nat) (s t : State) : Prop where
  lk : t.lk = { s.lk with epoch := v }
  sys : t.sys = { s.sys with per := { s.sys.per with epoch := v } }
  parts : sameBut [.sys, .regs, .held, .pg, .bv, .lk, .pc] s t
  regs : touches (orEvents [0xF2800C]) s t

theorem setEpoch_spec (e : Nat) (s : State) : epochSet (e % 65536) s (setEpoch e s) := by
  have parts := (setEpoch_keeps (L := [.sys, .regs, .held, .pg, .bv, .lk, .pc]) e (by decide) (keeps_refl _ s)).parts
  have events := pcSys_onlyEvents 0x5D 1 (onlyEvents_refl { s with lk := { s.lk with epoch := e % 65536 }, sys := { s.sys with per := { s.sys.per with epoch := e % 65536 } } })
  have same : touches (orEvents [0xF2800C]) s { s with lk := { s.lk with epoch := e % 65536 }, sys := { s.sys with per := { s.sys.per with epoch := e % 65536 } } } :=
    touches_same (touches_refl _ s) rfl rfl
  have run : setEpoch e s = putFld 0xF2800C 15 0 (e % 65536)
    (pcSys 0x5D 1 { s with lk := { s.lk with epoch := e % 65536 }, sys := { s.sys with per := { s.sys.per with epoch := e % 65536 } } }) := rfl
  rw [run] at parts ⊢
  generalize pcSys 0x5D 1 { s with lk := { s.lk with epoch := e % 65536 }, sys := { s.sys with per := { s.sys.per with epoch := e % 65536 } } } = t at parts events
  refine ⟨?_, ?_, parts, touches_putFld _ _ _ (.inl (by decide)) (touches_events same events)⟩
  · rw [putFld_lk, events.parts.lk (by decide)]
  · rw [putFld_sys, events.parts.sys (by decide)]

/-- The role shown is that of the state. -/
theorem showRole_spec (s : State) :
    fldOf (showRole s) 0xF30002 19 17 = roleNow s % 8 ∧ touches (orEvents [0xF30002]) s (showRole s) ∧
      sameBut [.regs, .held, .pg, .bv, .pc] s (showRole s) := by
  have parts := (showRole_keeps (L := [.regs, .held, .pg, .bv, .pc]) (by decide) (keeps_refl _ s)).parts
  have count : touches (orEvents [0xF30002]) s (putFld 0xF30002 5 0 s.pr.unaligned.length s) :=
    touches_putFld _ _ _ (.inl (by decide)) (touches_refl _ s)
  have run : showRole s = if fldOf (putFld 0xF30002 5 0 s.pr.unaligned.length s) 0xF30002 19 17 = roleNow s
    then putFld 0xF30002 5 0 s.pr.unaligned.length s
    else raiseEvent 25 (putFld 0xF30002 19 17 (roleNow s) (putFld 0xF30002 5 0 s.pr.unaligned.length s)) := rfl
  generalize putFld 0xF30002 5 0 s.pr.unaligned.length s = t at count run
  refine ⟨?_, ?_, parts⟩
  · rw [run]
    split
    case isTrue h =>
      have small : roleNow s < 8 := h ▸ Nat.mod_lt _ (by decide)
      rw [h, Nat.mod_eq_of_lt small]
    case isFalse =>
      have events : onlyEvents (putFld 0xF30002 19 17 (roleNow s) t) (raiseEvent 25 (putFld 0xF30002 19 17 (roleNow s) t)) :=
        raiseEvent_onlyEvents (by decide) (onlyEvents_refl _)
      exact (congrArg (fld · 19 17) (events.regs 0xF30002 (by decide) (by decide)).2).trans (fldOf_putFld_same _ _ _ (by decide) (by decide))
  · rw [run]
    exact touches_ite _ count (touches_events (touches_putFld _ _ _ (.inl (by decide)) count) (raiseEvent_onlyEvents (by decide) (onlyEvents_refl _)))

theorem paired_of_touches {as : List Nat} {t : State} (h : touches (orEvents as) s t) (out : 0xF28000 ∉ as) : paired t = paired s :=
  h.bitOf (a := 0xF28000) (not_orEvents (a := 0xF28000) out (by decide)) 18

/-! ### LISTEN and COLDSTART end -/

theorem listen_ends (s : State) (st : s.lk.st = .listen) :
    ∃ u, exec .listenEnd s = .next u ∧ u.lk = { s.lk with st := .coldstart, left := 0 } ∧ sameBut [.lk] s u :=
  ⟨_, congrArg Host.Outcome.next (if_pos st), rfl, (keeps_lk _ (by decide) (keeps_refl [.lk] s)).parts⟩

/-- A unit that takes the lead from JOIN, before its epoch, its motion and its role. -/
def leading (s : State) : State :=
  { s with lk := { s.lk with st := .lead, running := true }, pr := { s.pr with active := true, wasActive := true }, sys := { s.sys with op := .runActive } }

theorem leading_parts (s : State) : sameBut [.lk, .pr, .sys] s (leading s) :=
  (keeps_sys (s := { s with lk := { s.lk with st := .lead, running := true }, pr := { s.pr with active := true, wasActive := true } }) _ (by decide)
    (keeps_pr (s := { s with lk := { s.lk with st := .lead, running := true } }) _ (by decide) (keeps_lk _ (by decide) (keeps_refl [.lk, .pr, .sys] s)))).parts

theorem roleNow_active (run : s.sys.op = .runActive) (pair : paired s = true) (sounds : s.pr.silent = false) : roleNow s = 1 := by
  unfold roleNow
  rw [if_neg (by rw [sounds]; decide), if_neg (by rw [pair]; decide), run]

theorem coldstart_ends (s : State) (st : s.lk.st = .coldstart) (left : s.lk.left = 4) (op : s.sys.op = .join) :
    ∃ u, exec .coldstartEnd s = .next u ∧ u.lk.st = .lead ∧ u.lk.running = true ∧ u.sys.op = .runActive ∧ u.pr.active = true ∧
      (s.pr.partnerEpoch = none → u.lk.epoch = (s.sys.per.epoch + 1) % 65536) ∧
      (∀ e, s.pr.partnerEpoch = some e → u.lk.epoch = (newerEpoch s.sys.per.epoch e + 1) % 65536) ∧ u.sys.per.epoch = u.lk.epoch ∧
      (paired s = true → s.pr.silent = false → fldOf u 0xF30002 19 17 = 1) ∧ u.mem = s.mem ∧ u.cores = s.cores := by
  have run : exec .coldstartEnd s = .next (showRole (startMotion (setEpoch (coldEpoch s) (leading s)))) :=
    congrArg Host.Outcome.next ((if_pos ⟨st, left⟩).trans (if_pos op))
  have lead := leading_parts s
  have epoch := setEpoch_spec (coldEpoch s) (leading s)
  generalize setEpoch (coldEpoch s) (leading s) = a at run epoch
  have motion := (startMotion_keeps (L := [.mo, .sv, .gh]) (by decide) (keeps_refl _ a)).parts
  generalize startMotion a = b at run motion
  obtain ⟨shown, -, role⟩ := showRole_spec b
  have lk : (showRole b).lk = { (leading s).lk with epoch := coldEpoch s % 65536 } :=
    (role.lk (by decide)).trans ((motion.lk (by decide)).trans epoch.lk)
  have sysB : b.sys = { (leading s).sys with per := { s.sys.per with epoch := coldEpoch s % 65536 } } := (motion.sys (by decide)).trans epoch.sys
  have sys := (role.sys (by decide)).trans sysB
  have prB : b.pr = (leading s).pr := (motion.pr (by decide)).trans (epoch.parts.pr (by decide))
  have pr := (role.pr (by decide)).trans prB
  refine ⟨_, run, congrArg Link.st lk, congrArg Link.running lk, congrArg SysCtl.op sys, congrArg Pair.active pr, fun alone => ?_, fun e known => ?_,
    ?_, fun pair sounds => ?_, ?_, ?_⟩
  · refine (congrArg Link.epoch lk).trans (congrArg (· % 65536) ?_)
    rw [coldEpoch, alone]
  · refine (congrArg Link.epoch lk).trans (congrArg (· % 65536) ?_)
    rw [coldEpoch, known]
  · exact (congrArg (fun m : SysCtl => m.per.epoch) sys).trans (congrArg Link.epoch lk).symm
  · have pairB : paired b = true := by
      have regs := touches_sameBut (touches_trans (touches_of_sameBut lead (by decide) (by decide)) epoch.regs) motion (by decide) (by decide)
      rw [paired_of_touches regs (by decide), pair]
    rw [shown, roleNow_active (congrArg SysCtl.op sysB) pairB ((congrArg Pair.silent prB).trans sounds)]
  · rw [role.mem (by decide), motion.mem (by decide), epoch.parts.mem (by decide), lead.mem (by decide)]
  · rw [role.cores (by decide), motion.cores (by decide), epoch.parts.cores (by decide), lead.cores (by decide)]

/-! ### CSTART and the clash -/

/-- A head that comes to follow. -/
theorem enterFollow_spec (s : State) :
    (enterFollow s).lk = { s.lk with st := .follow } ∧ (paired s = false → bit (regGet (enterFollow s) 0xF54001) 14 = true) ∧
      sameBut [.lk, .regs, .held] s (enterFollow s) ∧ touches (· ∈ [0xF54001]) s (enterFollow s) := by
  refine ⟨?_, fun alone => ?_, (enterFollow_keeps (by decide) (keeps_refl _ s)).parts, ?_⟩
  · show (whenB _ _ (setLink .follow s)).lk = _
    unfold whenB
    split
    · rw [putBit_lk]
      rfl
    · rfl
  · show bit (regGet (whenB (!paired s) _ _) _) 14 = true
    rw [alone]
    exact bit_putBit_same _ _ _ (by decide)
  · exact touches_whenB _ (fun _ => touches_putBit _ _ (by decide)) (touches_same (touches_refl _ s) rfl rfl)

/-- A head that enters CLASH, and signals it to a partner. -/
theorem enterClash_spec (s : State) :
    (enterClash s).lk = { s.lk with st := .clash, sent := s.lk.sent ++ (if paired s then [pairFrame s .pClash] else []) } ∧
      bit (regGet (enterClash s) 0xF28009) 16 = true ∧
      sameBut [.lk, .regs, .held] s (enterClash s) ∧ touches (· ∈ [0xF28009]) s (enterClash s) := by
  have regs : touches (· ∈ [0xF28009]) s (putBit 0xF28009 16 true (setLink .clash s)) :=
    touches_putBit _ _ (by decide) (touches_same (touches_refl _ s) rfl rfl)
  have bitSet := bit_putBit_same 0xF28009 true (setLink .clash s) (b := 16) (by decide)
  have unit : lkUnitB (putBit 0xF28009 16 true (setLink .clash s)) = lkUnitB s := regs.bitOf (by decide) 19
  have lk := putBit_lk (s := setLink .clash s) 0xF28009 16 true
  have pr := putBit_pr (s := setLink .clash s) 0xF28009 16 true
  have now := putBit_now (s := setLink .clash s) 0xF28009 16 true
  have run : enterClash s = whenB (paired s) (sendLane .pClash) (putBit 0xF28009 16 true (setLink .clash s)) := rfl
  generalize putBit 0xF28009 16 true (setLink .clash s) = t at run regs bitSet unit lk pr now
  have frame : pairFrame t .pClash = pairFrame s .pClash := by
    unfold pairFrame partnerAddr ownAddr
    rw [unit, lk, pr, now]
    rfl
  refine ⟨?_, ?_, (enterClash_keeps (by decide) (keeps_refl _ s)).parts, ?_⟩
  · rw [run]
    cases paired s
    · exact lk.trans (by rw [if_neg (by decide), List.append_nil]; rfl)
    · show ({ t.lk with sent := t.lk.sent ++ [pairFrame t .pClash] } : Link) = _
      rw [frame, lk]
      rfl
  · rw [run]
    cases paired s <;> exact bitSet
  · rw [run]
    exact touches_whenB _ (fun _ h => touches_same h rfl rfl) regs

theorem cstart_received (s : State) (p : Fin 4) (src : LinkAddr) (uid : BitVec 64) (counts : linkCounts s = true) (up : portUp s p = true)
    (st : s.lk.st = .listen ∨ s.lk.st = .coldstart) :
    ∃ u, exec (.cstartReceived p .ok src uid) s = .next u ∧
      (src.val < ownAddr s → u.lk.st = .follow ∧ (paired s = false → bit (regGet u 0xF54001) 14 = true)) ∧
      (src.val = ownAddr s → uid.toNat ≠ Config.uid → u.lk.st = .clash ∧ bit (regGet u 0xF28009) 16 = true) ∧
      (ownAddr s < src.val → u.lk.st = s.lk.st) ∧ u.lk.q = s.lk.q ∧
      sameBut [.lk, .regs, .held] s u ∧ regsBut [0xF54001, 0xF28009] s u := by
  obtain ⟨sent, txEnd, forwarded⟩ := forwardFrame_eq p.val 2 src.val 12 16 s
  have parts := (forwardFrame_keeps (L := [.lk]) p.val 2 src.val 12 16 (by decide) (keeps_refl _ s)).parts
  have run : exec (.cstartReceived p .ok src uid) s = .next (if src.val < ownAddr s then enterFollow (forwardFrame p.val 2 src.val 12 16 s)
      else if src.val = ownAddr s ∧ uid.toNat ≠ Config.uid then enterClash (forwardFrame p.val 2 src.val 12 16 s)
      else forwardFrame p.val 2 src.val 12 16 s) := by
    refine congrArg Host.Outcome.next ((if_neg (by rw [counts]; decide)).trans ?_)
    rw [rxCheck, if_pos up]
    exact if_pos st
  have lk := congrArg State.lk forwarded
  generalize forwardFrame p.val 2 src.val 12 16 s = t at run parts lk
  have pairT : paired t = paired s := by
    unfold paired
    rw [bitOf_eq (parts.regs (by decide)) (parts.held (by decide))]
  have quiet : touches (· ∈ [0xF54001, 0xF28009]) s t := touches_of_sameBut parts (by decide) (by decide)
  rcases Nat.lt_trichotomy src.val (ownAddr s) with low | same | high
  · rw [if_pos low] at run
    obtain ⟨lkU, joinErr, partsU, regsU⟩ := enterFollow_spec t
    refine ⟨_, run, fun _ => ⟨congrArg Link.st lkU, fun alone => joinErr (pairT.trans alone)⟩, fun e => absurd e (Nat.ne_of_lt low),
      fun h => absurd h (Nat.not_lt.mpr (Nat.le_of_lt low)), by rw [lkU, lk],
      sameBut_trans (sameBut_mono (by decide) parts) partsU, ?_⟩
    exact regsBut_of_touches (touches_trans quiet (touches_mono regsU fun a ha => by simp at ha; simp [ha]))
  · by_cases other : uid.toNat ≠ Config.uid
    · rw [if_neg (by omega), if_pos ⟨same, other⟩] at run
      obtain ⟨lkU, shown, partsU, regsU⟩ := enterClash_spec t
      refine ⟨_, run, fun h => absurd same (Nat.ne_of_lt h), fun _ _ => ⟨congrArg Link.st lkU, shown⟩,
        fun h => absurd same (Nat.ne_of_gt h), by rw [lkU, lk],
        sameBut_trans (sameBut_mono (by decide) parts) partsU, ?_⟩
      exact regsBut_of_touches (touches_trans quiet (touches_mono regsU fun a ha => by simp at ha; simp [ha]))
    · rw [if_neg (by omega), if_neg (fun h => other h.2)] at run
      exact ⟨_, run, fun h => absurd same (Nat.ne_of_lt h), fun _ h => absurd h other, fun h => absurd same (Nat.ne_of_gt h),
        (congrArg Link.q lk :), sameBut_mono (by decide) parts, regsBut_of_touches quiet⟩
  · rw [if_neg (by omega), if_neg (fun h => by omega)] at run
    exact ⟨_, run, fun h => absurd h (by omega), fun h => absurd h (by omega), fun _ => (congrArg Link.st lk :),
      (congrArg Link.q lk :), sameBut_mono (by decide) parts, regsBut_of_touches quiet⟩

theorem clash_signalled (s : State) (on : s.lk.st ≠ .off) (notYet : s.lk.st ≠ .clash) :
    ∃ u, exec .clash s = .next u ∧ u.lk = { s.lk with st := .clash, sent := u.lk.sent } ∧
      u.lk.sent = s.lk.sent ++ (if paired s then [pairFrame s .pClash] else []) ∧ bit (regGet u 0xF28009) 16 = true ∧
      sameBut [.lk, .regs, .held] s u ∧ regsBut [0xF28009] s u := by
  obtain ⟨lk, shown, parts, regs⟩ := enterClash_spec s
  refine ⟨_, congrArg Host.Outcome.next (if_pos ?_), lk.trans (by rw [lk]), congrArg Link.sent lk, shown, parts, regsBut_of_touches regs⟩
  simp [linkOn, on, notYet]

theorem retry_clash (s : State) (who : Requester) (st : s.lk.st = .clash) :
    ∃ u, exec (.retry who) s = .next u ∧ u.lk = { s.lk with st := .listen, left := 4 } ∧
      bit (regGet u 0xF28009) 16 = false ∧ sameBut [.sys, .lk, .regs, .held] s u ∧ regsBut [0xF28009] s u := by
  have run : exec (.retry who) s = .next (retryLink (armLock who s)) := rfl
  have lock := armLock_sameBut who s
  have lkA := lock.lk (by decide)
  generalize armLock who s = t at run lock lkA
  have go : retryLink t = putBit 0xF28009 16 false { t with lk := { t.lk with st := .listen, left := 4 } } := if_pos (by rw [lkA]; exact st)
  have listens : sameBut [.lk] t { t with lk := { t.lk with st := .listen, left := 4 } } := (keeps_lk _ (by decide) (keeps_refl [.lk] t)).parts
  refine ⟨_, run.trans (congrArg Host.Outcome.next go), ?_, bit_putBit_same _ _ _ (by decide), ?_, ?_⟩
  · rw [putBit_lk]
    exact congrArg (fun m : Link => { m with st := .listen, left := 4 }) lkA
  · exact sameBut_trans (sameBut_mono (by decide) lock) (sameBut_trans (sameBut_mono (by decide) listens)
      (sameBut_mono (by decide) (putBit_keeps (L := [.regs, .held]) _ _ _ (by decide) (keeps_refl _ _)).parts))
  · exact regsBut_of_touches (touches_putBit _ _ (by decide) (touches_sameBut (touches_of_sameBut lock (by decide) (by decide)) listens (by decide) (by decide)))

/-! ### MARK -/

/-- A MARK that passes every check gives the cycle its number, its start and its length. -/
theorem followMark_spec (m : MarkIn) (s : State) :
    (followMark m s).lk = { s.lk with q := m.seq.toNat, running := true, marked := true, t0 := s.now - (m.corr.toNat + m.delay) * 3 / 40, lastMark := some m.seq.toNat } ∧
      (followMark m s).mains.p = m.perInt.toNat * 65536 + m.perFr.toNat ∧
      regGet (followMark m s) 0xF00104 = word m.perInt.toNat ∧ regGet (followMark m s) 0xF00105 = word (m.perFr.toNat * 16) ∧
      sameBut [.lk, .regs, .held, .mains, .time] s (followMark m s) ∧ touches (· ∈ [0xF00104, 0xF00105]) s (followMark m s) := by
  have parts := (followMark_keeps (L := [.regs, .held, .mains, .lk, .time]) m (by decide) (keeps_refl _ s)).parts
  have fr : m.perFr.toNat < 65536 := m.perFr.isLt
  have int : m.perInt.toNat < 65536 := m.perInt.isLt
  have e1 : (m.perInt.toNat * 65536 + m.perFr.toNat) / 65536 % 65536 = m.perInt.toNat := by omega
  have e2 : (m.perInt.toNat * 65536 + m.perFr.toNat) % 65536 = m.perFr.toNat := by omega
  refine ⟨?_, ?_, ?_, ?_, sameBut_mono (by decide) parts, ?_⟩
  · rw [followMark, showPeriod, putWord_lk, putWord_lk]
    rfl
  · rw [followMark, showPeriod, putWord_mains, putWord_mains]
  · rw [followMark, showPeriod, regGet_putWord_other _ _ (by decide), regGet_putWord_same, e1]
  · rw [followMark, showPeriod, regGet_putWord_same, e2]
  · exact touches_putWord _ (by decide) (touches_putWord _ (by decide) (touches_same (touches_refl _ s) rfl rfl))

/-- A frame of the partner with its epoch no older is taken by a head that does not lead. -/
theorem partnerEpoch_taken {e : Nat} (fresh : serialOlder 16 e s.lk.epoch = false) (st : s.lk.st ≠ .lead) :
    partnerEpoch e s = ({ s with pr := { s.pr with heardLink := true } }, true) :=
  (if_neg (by rw [fresh]; decide)).trans (if_neg fun h => st h.1)

/-- A unit that has heard its partner on the link. -/
def heard (s : State) : State := { s with pr := { s.pr with heardLink := true } }

/-- A MARK of the partner that passes every check is followed; one heard in LISTEN or COLDSTART leads to FOLLOW. -/
theorem markReceived_taken {p : Nat} {m : MarkIn} (counts : linkCounts s = true) (up : portUp s p = true) (src : m.src = partnerAddr s)
    (fresh : serialOlder 16 m.epoch.toNat s.lk.epoch = false)
    (st : s.lk.st = .listen ∨ s.lk.st = .coldstart ∨
      s.lk.st = .follow ∧ s.lk.marked = false ∧ ∀ q, s.lk.lastMark = some q → m.seq.toNat = (q + 1) % 2 ^ 32) :
    ∃ v, markReceived p .ok m s = followMark m v ∧ v.lk.st = .follow ∧ sameBut [.lk, .pr, .regs, .held] s v ∧ touches (· ∈ [0xF54001]) s v := by
  obtain ⟨sent, txEnd, forwarded⟩ := forwardFrame_eq p 1 m.src 12 16 s
  have parts := (forwardFrame_keeps (L := [.lk]) p 1 m.src 12 16 (by decide) (keeps_refl _ s)).parts
  have stF : (forwardFrame p 1 m.src 12 16 s).lk.st = s.lk.st := (congrArg (fun x : State => x.lk.st) forwarded :)
  have epochF : (forwardFrame p 1 m.src 12 16 s).lk.epoch = s.lk.epoch := (congrArg (fun x : State => x.lk.epoch) forwarded :)
  have isHead : ¬ 2 ≤ m.src := by rw [src]; exact Nat.not_le.mpr (partnerAddr_lt_two s)
  have notOwn : m.src ≠ ownAddr s := by rw [src]; exact partnerAddr_ne_ownAddr s
  have notLead : s.lk.st ≠ .lead := by rcases st with h | h | ⟨h, -⟩ <;> simp [h]
  have on : linkOn s = true := by rcases st with h | h | ⟨h, -⟩ <;> simp [linkOn, h]
  have taken : partnerEpoch m.epoch.toNat (forwardFrame p 1 m.src 12 16 s) = (heard (forwardFrame p 1 m.src 12 16 s), true) :=
    partnerEpoch_taken (by rw [epochF]; exact fresh) (by rw [stF]; exact notLead)
  have check : rxCheck s p .ok = .ok := if_pos up
  have heardParts : sameBut [.lk, .pr] s (heard (forwardFrame p 1 m.src 12 16 s)) :=
    sameBut_trans (sameBut_mono (by decide) parts) (sameBut_mono (by decide) (keeps_pr _ (by decide) (keeps_refl [.pr] _)).parts)
  have unfolded : markReceived p .ok m s =
      if s.lk.st = .listen ∨ s.lk.st = .coldstart then followMark m (enterFollow (heard (forwardFrame p 1 m.src 12 16 s)))
      else if s.lk.st = .follow ∧ markCopy s m.seq.toNat then forwardFrame p 1 m.src 12 16 s
      else if s.lk.st = .follow ∧ !markSeqOk s m.seq.toNat then discardFrame (0xF28018 + p) (forwardFrame p 1 m.src 12 16 s)
      else if (heard (forwardFrame p 1 m.src 12 16 s)).lk.st == .follow then followMark m (heard (forwardFrame p 1 m.src 12 16 s))
      else heard (forwardFrame p 1 m.src 12 16 s) := by
    refine (if_neg (by rw [counts]; decide)).trans ((if_neg (by simp [check])).trans ((if_neg (by rw [on]; decide)).trans ((if_neg isHead).trans ?_)))
    rw [taken, if_pos src, if_neg notOwn]
    rfl
  generalize forwardFrame p 1 m.src 12 16 s = f at stF epochF heardParts unfolded
  by_cases first : s.lk.st = .listen ∨ s.lk.st = .coldstart
  · rw [if_pos first] at unfolded
    obtain ⟨lk, -, follow, regs⟩ := enterFollow_spec (heard f)
    exact ⟨_, unfolded, congrArg Link.st lk, sameBut_trans (sameBut_mono (by decide) heardParts) (sameBut_mono (by decide) follow),
      touches_trans (touches_of_sameBut heardParts (by decide) (by decide)) regs⟩
  · obtain ⟨follow, unmarked, next⟩ := (st.resolve_left fun h => first (.inl h)).resolve_left fun h => first (.inr h)
    have inTurn : markSeqOk s m.seq.toNat = true := by
      unfold markSeqOk
      cases last : s.lk.lastMark with
      | none => rfl
      | some q => simp [next q last]
    have stH : (heard f).lk.st = .follow := stF.trans follow
    rw [if_neg first, if_neg (by simp [markCopy, unmarked]), if_neg (by simp [inTurn]), if_pos (by rw [stH]; rfl)] at unfolded
    exact ⟨_, unfolded, stH, sameBut_mono (by decide) heardParts, touches_of_sameBut heardParts (by decide) (by decide)⟩

theorem mark_received (s : State) (p : Fin 4) (m : MarkIn) (t : Nat) (counts : linkCounts s = true) (up : portUp s p = true)
    (src : m.src = partnerAddr s) (fresh : serialOlder 16 m.epoch.toNat s.lk.epoch = false)
    (st : s.lk.st = .listen ∨ s.lk.st = .coldstart ∨
      s.lk.st = .follow ∧ s.lk.marked = false ∧ ∀ q, s.lk.lastMark = some q → m.seq.toNat = (q + 1) % 2 ^ 32) :
    ∃ u, exec (.markReceived p .ok m t) s = .next u ∧ u.lk.st = .follow ∧ u.lk.q = m.seq.toNat ∧ u.lk.lastMark = some m.seq.toNat ∧
      u.lk.marked = true ∧ u.lk.running = true ∧ u.lk.t0 = max s.now t - (m.corr.toNat + m.delay) * 3 / 40 ∧
      u.mains.p = m.perInt.toNat * 65536 + m.perFr.toNat ∧
      regGet u 0xF00104 = word m.perInt.toNat ∧ regGet u 0xF00105 = word (m.perFr.toNat * 16) ∧
      sameBut [.now, .lk, .regs, .held, .mains, .time, .pr] s u ∧ regsBut [0xF54001, 0xF00104, 0xF00105] s u := by
  have clock : sameBut [.now] s (advance t s) := (keeps_now _ (by decide) (keeps_refl [.now] s)).parts
  obtain ⟨v, run, follow, parts, regs⟩ := markReceived_taken (s := advance t s) (p := p.val) counts up src fresh st
  have now : v.now = max s.now t := parts.now (by decide)
  obtain ⟨lk, period, int, frac, partsU, regsU⟩ := followMark_spec m v
  refine ⟨_, congrArg Host.Outcome.next run, ?_, congrArg Link.q lk, congrArg Link.lastMark lk, congrArg Link.marked lk, congrArg Link.running lk,
    (congrArg Link.t0 lk).trans (by rw [now]), period, int, frac, ?_, ?_⟩
  · exact (congrArg Link.st lk).trans follow
  · exact sameBut_trans (sameBut_mono (by decide) clock) (sameBut_trans (sameBut_mono (by decide) parts) (sameBut_mono (by decide) partsU))
  · exact regsBut_of_touches (touches_trans (touches_of_sameBut clock (by decide) (by decide))
      (touches_trans (touches_mono regs fun a ha => by simp at ha; simp [ha]) (touches_mono regsU fun a ha => List.mem_cons_of_mem _ ha)))

/-- Settles O34. That a CLASH is met in every link state but OFF, and leaves the operating state unchanged, is the model's choice (log entries 22 and 70). -/
theorem coldStartFindsTheLeader : Obligations.ColdStartFindsTheLeader :=
  ⟨listen_ends, coldstart_ends, cstart_received, clash_signalled, retry_clash, mark_received⟩

end Sys2Proof.Machine
end

