-- ==== Sys2Proof/Proofs/Uplinks.lean ====
section
/-! PROOFS. Uplinks and empty slots (07 R205, R206, R217, R220). -/

namespace Sys2Proof.Machine

variable {s t u : State} {a : Nat}

/-! ### Faults leave the link's tables alone -/

/-- Nothing of the link but its state and the frames sent is another. -/
def linkTables (s t : State) : Prop := t.lk = { s.lk with st := t.lk.st, sent := t.lk.sent }

theorem linkTables_refl (s : State) : linkTables s s := rfl

theorem linkTables_trans (h : linkTables s t) (k : linkTables t u) : linkTables s u :=
  k.trans (congrArg (fun m : Link => { m with st := u.lk.st, sent := u.lk.sent }) h)

theorem linkTables_of_lk (h : t.lk = s.lk) : linkTables s t := by
  unfold linkTables
  rw [h]

theorem takeReact_linkTables (code taken mask : Nat) (cause : Cause) (hc : cause ≠ .command) (s : State) :
    linkTables s (takeReact code taken mask cause s) := by
  have demand (sto : Bool) : linkTables s (maskDemand mask sto cause s) :=
    linkTables_of_lk ((maskDemand_spec mask sto hc s).only.frame.parts.lk (by decide))
  have safe : linkTables s (enterSafe s) := by
    by_cases hop : s.sys.op = .safe
    · rw [enterSafe, if_pos hop]
      exact linkTables_refl s
    · have lk := (enterSafe_spec hop).1.parts.lk (by decide)
      have begins : linkTables s (safeBegins s) := by
        unfold safeBegins
        split <;> exact rfl
      exact linkTables_trans begins (linkTables_of_lk lk)
  unfold takeReact
  split
  · exact demand false
  · split
    · exact demand true
    · split
      · split <;> exact linkTables_refl s
      · split
        · exact safe
        · split
          · exact rfl
          · exact linkTables_refl s

theorem ghFaultBy_linkTables (code low : Nat) (r : React) {cause : Cause} (hc : cause ≠ .command) (s : State) :
    linkTables s (ghFaultBy code low r cause s) := by
  have record (taken : Nat) (v : State) : linkTables v (ghRecord code low taken v) := linkTables_of_lk ((ghRecord_spec code low taken v).parts.lk (by decide))
  unfold ghFaultBy
  split
  case isTrue =>
    extract_lets taken q v
    have hv : linkTables s v := by
      show linkTables s (if _ then _ else _)
      split <;> exact rfl
    exact linkTables_trans hv (linkTables_trans (record _ _) (takeReact_linkTables _ _ _ _ hc _))
  case isFalse => exact linkTables_refl s

/-! ### The state of a node -/

theorem nodeOf_setNode_same (a : Nat) (n : NodeSt) (s : State) : nodeOf (setNode a n s) a = n := mapGet_mapPut_same _ _ _ _

theorem nodeOf_setNode_other {b : Nat} (n : NodeSt) (s : State) (h : b ≠ a) : nodeOf (setNode a n s) b = nodeOf s b :=
  mapGet_mapPut_other _ _ _ _ h

theorem nodeOf_of_nodes (h : t.lk.nodes = s.lk.nodes) (n : Nat) : nodeOf t n = nodeOf s n := by
  unfold nodeOf
  rw [h]

/-- What the unit knows of the other nodes and of the axes, and of this node whether it was heard and has joined, is as before. -/
structure nodeKept (a : Nat) (s t : State) : Prop where
  got : (nodeOf t a).got = (nodeOf s a).got
  empties : (nodeOf t a).empties = (nodeOf s a).empties
  joined : (nodeOf t a).joined = (nodeOf s a).joined
  others : ∀ n, n ≠ a → nodeOf t n = nodeOf s n
  axes : t.lk.axes = s.lk.axes

theorem nodeKept_of_tables (nodes : t.lk.nodes = s.lk.nodes) (axes : t.lk.axes = s.lk.axes) : nodeKept a s t :=
  have same := nodeOf_of_nodes nodes
  ⟨by rw [same], by rw [same], by rw [same], fun n _ => same n, axes⟩

theorem nodeKept_of_lk (h : t.lk = s.lk) : nodeKept a s t := nodeKept_of_tables (by rw [h]) (by rw [h])

theorem nodeKept_trans (h : nodeKept a s t) (k : nodeKept a t u) : nodeKept a s u :=
  ⟨k.got.trans h.got, k.empties.trans h.empties, k.joined.trans h.joined, fun n hn => (k.others n hn).trans (h.others n hn), k.axes.trans h.axes⟩

/-- A change of what a node reported, not of whether it was heard. -/
theorem nodeKept_setNode {n : NodeSt} (got : n.got = (nodeOf s a).got) (empties : n.empties = (nodeOf s a).empties)
    (joined : n.joined = (nodeOf s a).joined) : nodeKept a s (setNode a n s) := by
  refine ⟨?_, ?_, ?_, fun b hb => nodeOf_setNode_other n s hb, rfl⟩ <;> rwa [nodeOf_setNode_same]

theorem canonAddr_node {a k : Nat} (h : a < 128) (hk : k < 16) : canonAddr (lkNode a + k) = lkNode a + k := if_neg (by unfold lkNode; omega)

theorem node_not_event {k : Nat} (h : a < 128) (hk : k < 16) : eventReg (canonAddr (lkNode a + k)) = false := by
  rw [canonAddr_node h hk]
  unfold lkNode
  simp [eventReg]
  omega

/-- A node joins or leaves. -/
structure nodeJoins (a : Nat) (on : Bool) (s t : State) : Prop where
  joined : (nodeOf t a).joined = on
  got : (nodeOf t a).got = (nodeOf s a).got
  empties : (nodeOf s a).empties = 0 → (nodeOf t a).empties = 0
  others : ∀ n, n ≠ a → nodeOf t n = nodeOf s n
  axes : t.lk.axes = s.lk.axes
  parts : sameBut [.regs, .held, .pg, .bv, .lk, .pc] s t
  regs : touches (orEvents [lkNode a + 1]) s t

theorem setJoined_spec (h : a < 128) (on : Bool) (s : State) : nodeJoins a on s (setJoined a on s) := by
  have parts := (setJoined_keeps (L := [.regs, .held, .pg, .bv, .lk, .pc]) a on (by decide) (keeps_refl _ s)).parts
  unfold setJoined at parts ⊢
  split
  case isTrue e => exact ⟨eq_of_beq e, rfl, id, fun _ _ => rfl, rfl, sameBut_refl _ s, touches_refl _ s⟩
  case isFalse e =>
    rw [if_neg e] at parts
    have lk := putBit_lk (s := setNode a { nodeOf s a with joined := on, leaving := !on, empties := 0 } s) (lkNode a + 1) 19 on
    have regs : touches (orEvents [lkNode a + 1]) s (putBit (lkNode a + 1) 19 on (setNode a { nodeOf s a with joined := on, leaving := !on, empties := 0 } s)) :=
      touches_putBit _ _ (.inl (by rw [canonAddr_node h (by decide)]; exact List.mem_singleton_self _)) (touches_same (touches_refl _ s) rfl rfl)
    generalize putBit (lkNode a + 1) 19 on (setNode a { nodeOf s a with joined := on, leaving := !on, empties := 0 } s) = v at parts lk regs ⊢
    have events : onlyEvents v (raiseEvent 77 v) := raiseEvent_onlyEvents (by decide) (onlyEvents_refl v)
    have lkU := (events.parts.lk (by decide)).trans lk
    have same := nodeOf_of_nodes (congrArg Link.nodes lkU)
    refine ⟨?_, ?_, fun _ => ?_, fun n hn => ?_, (congrArg Link.axes lkU :), parts, touches_events regs events⟩
    · rw [same, nodeOf_setNode_same]
    · rw [same, nodeOf_setNode_same]
    · rw [same, nodeOf_setNode_same]
    · rw [same, nodeOf_setNode_other _ _ hn]

/-! ### The records of an uplink -/

theorem axisUpl_of_axes (h : t.lk.axes = s.lk.axes) (x : Nat) : axisUpl t x = axisUpl s x := by
  unfold axisUpl
  rw [h]

theorem carriesAxis_of_count (h : axisCount t = axisCount s) (c x : Nat) : carriesAxis t c x = carriesAxis s c x := by
  unfold carriesAxis
  rw [h]

theorem carriesAxis_lt {c x : Nat} (h : carriesAxis s c x = true) : x < 256 := by
  unfold carriesAxis at h
  rw [Bool.and_eq_true, decide_eq_true_eq] at h
  exact Nat.lt_of_lt_of_le h.1 (axisCount_le s)

/-- What a record of the uplink shows of its axis. -/
def receivedUpl (r : UplRec) : AxisUpl := { pos := r.pos.toInt, force := r.fact.toInt, astat := r.astat.toNat, fresh := true }

/-- The treatment returned changes the tables of treatments, MP_STAT and what a fault changes. -/
theorem treatReturned_spec {x : Nat} (hx : x < 256) (ret : Nat) (s : State) :
    linkTables s (treatReturned x ret s) ∧ axisCount (treatReturned x ret s) = axisCount s := by
  have put (v : Nat) (s : State) : linkTables s { s with mo := { s.mo with treatBad := mapPut 0 s.mo.treatBad x v } } ∧
      axisCount { s with mo := { s.mo with treatBad := mapPut 0 s.mo.treatBad x v } } = axisCount s := ⟨rfl, rfl⟩
  unfold treatReturned
  split
  · exact ⟨linkTables_refl s, rfl⟩
  · extract_lets cmd n f
    split
    · exact put 11 s
    · split
      · exact put 0 s
      · split
        · exact put 0 s
        · split
          · exact ⟨linkTables_refl s, rfl⟩
          · split
            · have bad := computed_putBit (o := f 2 s) 10 true (engineReg_mpStat (x := x) (by omega)) (computed_refl (f 2 s))
              refine ⟨?_, ?_⟩
              · refine linkTables_trans (linkTables_of_lk ?_) (ghFaultBy_linkTables _ _ _ (by simp) _)
                rw [putBit_lk]
              · exact (computed_ghFaultBy 0x32 x (.sto (2 ^ (axisGroup s x).val)) (cause := .fault 0x32) (by simp) bad).axisCount
            · exact put 1 s

theorem takeRecord_spec (c x : Nat) (r : UplRec) (s : State) :
    (takeRecord c x r s).lk.nodes = s.lk.nodes ∧ axisCount (takeRecord c x r s) = axisCount s ∧
      (carriesAxis s c x = true → axisUpl (takeRecord c x r s) x = receivedUpl r) ∧
      (∀ y, y ≠ x ∨ carriesAxis s c y = false → axisUpl (takeRecord c x r s) y = axisUpl s y) := by
  unfold takeRecord
  by_cases carries : carriesAxis s c x = true
  · rw [if_pos carries]
    obtain ⟨tables, count⟩ := treatReturned_spec (carriesAxis_lt carries) (r.astat.toNat / 1024) (setAxisUpl x (receivedUpl r) s)
    have axes := axisUpl_of_axes (congrArg Link.axes tables :)
    refine ⟨(congrArg Link.nodes tables :), count, fun _ => (axes x).trans (mapGet_mapPut_same _ _ _ _), fun y hy => ?_⟩
    have apart : y ≠ x := hy.elim id fun out e => by rw [e, carries] at out; cases out
    exact (axes y).trans (mapGet_mapPut_other _ _ _ _ apart)
  · rw [if_neg carries]
    exact ⟨rfl, rfl, fun k => absurd k carries, fun _ _ => rfl⟩

/-- The records of an uplink, from axis first on. -/
theorem takeRecords_spec (c first : Nat) (recs : List UplRec) (k : Nat) (s : State) :
    let v := forEach (recs.zipIdx k) (fun x s => takeRecord c (first + x.2) x.1 s) s
    v.lk.nodes = s.lk.nodes ∧ axisCount v = axisCount s ∧
      (∀ (i : Nat) (r : UplRec), recs[i]? = some r → carriesAxis s c (first + k + i) = true → axisUpl v (first + k + i) = receivedUpl r) ∧
      (∀ x, (x < first + k ∨ first + k + recs.length ≤ x ∨ carriesAxis s c x = false) → axisUpl v x = axisUpl s x) := by
  induction recs generalizing k s with
  | nil => exact ⟨rfl, rfl, fun i r h => by simp at h, fun _ _ => rfl⟩
  | cons r recs ih =>
    intro v
    obtain ⟨nodes1, count1, own, others⟩ := takeRecord_spec c (first + k) r s
    obtain ⟨nodes, count, rest, outside⟩ := ih (k + 1) (takeRecord c (first + k) r s)
    have carries := carriesAxis_of_count count1 c
    refine ⟨nodes.trans nodes1, count.trans count1, fun i q hi on => ?_, fun x hx => ?_⟩
    · match i with
      | 0 =>
        cases hi
        refine (outside (first + k) (.inl (by omega))).trans (own on)
      | i + 1 =>
        have at' : first + k + (i + 1) = first + (k + 1) + i := by omega
        rw [at'] at on ⊢
        exact rest i q hi (by rw [carries]; exact on)
    · rw [List.length_cons] at hx
      have apart : x < first + (k + 1) ∨ first + (k + 1) + recs.length ≤ x ∨ carriesAxis (takeRecord c (first + k) r s) c x = false := by
        rw [carries]
        rcases hx with h | h | h
        · exact .inl (by omega)
        · exact .inr (.inl (by omega))
        · exact .inr (.inr h)
      refine (outside x apart).trans (others x ?_)
      rcases hx with h | h | h
      · exact .inl (by omega)
      · exact .inl (by omega)
      · exact .inr h

/-! ### The first valid copy -/

theorem takeGroup_kept (a gstate grep : Nat) (s : State) : nodeKept a s (takeGroup a gstate grep s) := by
  have noted : nodeKept a s (setNode a { nodeOf s a with grp := gstate, grpEpoch := grep } s) := nodeKept_setNode rfl rfl rfl
  unfold takeGroup
  extract_lets s1 gw ins
  split
  · exact noted
  · split
    · exact nodeKept_trans noted (nodeKept_of_lk rfl)
    · split
      · exact nodeKept_trans noted (nodeKept_of_lk rfl)
      · exact noted

theorem clockCorrection_kept (a : Nat) (x : Int) (s : State) : nodeKept a s (clockCorrection a x s) := by
  have noted : nodeKept a s (setNode a { nodeOf s a with ofs := x } s) := nodeKept_setNode rfl rfl rfl
  have written (w : Word) : nodeKept a s (putWord (lkNode a + 7) w (setNode a { nodeOf s a with ofs := x } s)) :=
    nodeKept_trans noted (nodeKept_of_lk (putWord_lk ..))
  unfold clockCorrection
  extract_lets n s1
  split
  · have later : nodeKept a s1 (setNode a { n with ofs := x, tcorr := clampI (-2048) 2047 (-(roundDiv x 8)), corrWait := 5 } s1) :=
      nodeKept_setNode (written _).got.symm (written _).empties.symm (written _).joined.symm
    exact nodeKept_trans (written _) (nodeKept_trans later (nodeKept_of_lk (count_lk ..)))
  · exact written _

/-- A node's uplink used: the node is heard, its membership follows NST, and its records are those of its axes. -/
structure uplinkUsed (c : Nat) (f : UplIn) (s t : State) : Prop where
  got : (nodeOf t f.node).got = true
  empties : (nodeOf t f.node).empties = 0
  joins : f.nst.toNat = 1 → (nodeOf t f.node).joined = true
  leaves : f.nst.toNat = 2 → (nodeOf t f.node).joined = false
  others : ∀ n, n ≠ f.node.val → nodeOf t n = nodeOf s n
  records : ∀ (i : Nat) (r : UplRec), f.recs[i]? = some r → carriesAxis s c (nodeFirst s f.node + i) = true →
    axisUpl t (nodeFirst s f.node + i) = receivedUpl r
  outside : ∀ x, (x < nodeFirst s f.node ∨ nodeFirst s f.node + f.recs.length ≤ x ∨ carriesAxis s c x = false) → axisUpl t x = axisUpl s x

theorem uplinkUsed_kept {c : Nat} {f : UplIn} (h : uplinkUsed c f s t) (k : nodeKept f.node.val t u) : uplinkUsed c f s u :=
  ⟨k.got.trans h.got, k.empties.trans h.empties, fun n => k.joined.trans (h.joins n), fun n => k.joined.trans (h.leaves n),
    fun n hn => (k.others n hn).trans (h.others n hn), fun i r hr on => (axisUpl_of_axes k.axes _).trans (h.records i r hr on),
    fun x hx => (axisUpl_of_axes k.axes x).trans (h.outside x hx)⟩

/-- The state of a node whose uplink has come at port p. -/
def heardNode (p : Nat) (n : NodeSt) : NodeSt := { n with got := true, empties := 0, rx0 := p % 2 == 0, rx1 := p % 2 == 1 }

/-- A node is heard in its slot, at one port. -/
def hearNode (p a : Nat) (s : State) : State :=
  putFld (lkNode a + 1) 18 17 (if p % 2 = 0 then 2 else 1) (setNode a (heardNode p (nodeOf s a)) s)

/-- Membership follows what the node reports (R220). -/
def followNst (a nst : Nat) (s : State) : State := if nst = 2 then setJoined a false s else if nst = 1 then setJoined a true s else s

theorem followNst_spec (h : a < 128) (nst : Nat) (s : State) (fresh : (nodeOf s a).empties = 0) :
    (nodeOf (followNst a nst s) a).got = (nodeOf s a).got ∧ (nodeOf (followNst a nst s) a).empties = 0 ∧
      (nst = 1 → (nodeOf (followNst a nst s) a).joined = true) ∧ (nst = 2 → (nodeOf (followNst a nst s) a).joined = false) ∧
      (∀ n, n ≠ a → nodeOf (followNst a nst s) n = nodeOf s n) ∧ (followNst a nst s).lk.axes = s.lk.axes ∧
      touches (orEvents [lkNode a + 1]) s (followNst a nst s) := by
  unfold followNst
  split
  case isTrue e =>
    have k := setJoined_spec h false s
    exact ⟨k.got, k.empties fresh, fun e' => absurd (e.symm.trans e') (by decide), fun _ => k.joined, k.others, k.axes, k.regs⟩
  case isFalse e =>
    split
    case isTrue e' =>
      have k := setJoined_spec h true s
      exact ⟨k.got, k.empties fresh, fun _ => k.joined, fun e2 => absurd e2 e, k.others, k.axes, k.regs⟩
    case isFalse e' =>
      exact ⟨rfl, fresh, fun e2 => absurd e2 e', fun e2 => absurd e2 e, fun _ _ => rfl, rfl, touches_refl _ s⟩

theorem useUplink_spec (p : Nat) (f : UplIn) (s : State) : uplinkUsed (p / 2) f s (useUplink p f s) := by
  have small : f.node.val < 128 := f.node.isLt
  have plusOne : orEvents [lkNode f.node.val + 1] (canonAddr (lkNode f.node.val + 1)) :=
    .inl (by rw [canonAddr_node small (by decide)]; exact List.mem_singleton_self _)
  have regs2 : touches (orEvents [lkNode f.node.val + 1]) s (hearNode p f.node.val s) := touches_putFld _ _ _ plusOne (touches_same (touches_refl _ s) rfl rfl)
  have lk2 : (hearNode p f.node.val s).lk = (setNode f.node.val (heardNode p (nodeOf s f.node.val)) s).lk := putFld_lk ..
  have run : useUplink p f s = confirmWaits (pcSys 0x50 1 (takeGroup f.node.val (f.nstat.toNat / 256 % 16) f.grep.toNat
    (takeAngle (nodeFirst s f.node.val + f.auxIdx.toNat) f.angle
      (forEach f.recs.zipIdx (fun x t => takeRecord (p / 2) (nodeFirst (hearNode p f.node.val s) f.node.val + x.2) x.1 t)
        (followNst f.node.val f.nst.toNat (hearNode p f.node.val s)))))) := rfl
  have node : ¬orEvents [lkNode f.node.val + 1] (canonAddr (lkNode f.node.val)) := by
    have e : canonAddr (lkNode f.node.val) = lkNode f.node.val := canonAddr_node (k := 0) small (by decide)
    rw [e]
    exact not_orEvents (by simp) (e ▸ node_not_event (k := 0) small (by decide))
  have first : nodeFirst (hearNode p f.node.val s) f.node.val = nodeFirst s f.node.val := regs2.fldOf node 13 6
  rw [first] at run
  have same2 := nodeOf_of_nodes (congrArg Link.nodes lk2)
  obtain ⟨got3, empties3, joins3, leaves3, others3, axes3, regs3⟩ := followNst_spec small f.nst.toNat (hearNode p f.node.val s)
    (by rw [same2, nodeOf_setNode_same]; rfl)
  have count3 : axisCount (followNst f.node.val f.nst.toNat (hearNode p f.node.val s)) = axisCount s := by
    unfold axisCount modeOf
    rw [(touches_trans regs2 regs3).fldOf (not_orEvents (by simp [lkNode, canonAddr]; omega) (by decide)) 19 18]
  generalize hearNode p f.node.val s = s2 at run lk2 same2 got3 others3 axes3 count3 empties3 joins3 leaves3
  generalize followNst f.node.val f.nst.toNat s2 = s3 at run got3 others3 axes3 count3 empties3 joins3 leaves3
  obtain ⟨nodes4, -, records4, outside4⟩ := takeRecords_spec (p / 2) (nodeFirst s f.node.val) f.recs 0 s3
  have same4 := nodeOf_of_nodes nodes4
  have carries := carriesAxis_of_count count3 (p / 2)
  have axesS (x : Nat) : axisUpl s3 x = axisUpl s x := axisUpl_of_axes (axes3.trans (congrArg Link.axes lk2)) x
  have used : uplinkUsed (p / 2) f s (forEach f.recs.zipIdx (fun x t => takeRecord (p / 2) (nodeFirst s f.node.val + x.2) x.1 t) s3) := by
    refine ⟨?_, ?_, fun n => ?_, fun n => ?_, fun n hn => ?_, fun i r hi on => ?_, fun x hx => ?_⟩
    · rw [same4, got3, same2, nodeOf_setNode_same]
      rfl
    · rw [same4, empties3]
    · rw [same4, joins3 n]
    · rw [same4, leaves3 n]
    · rw [same4, others3 n hn, same2, nodeOf_setNode_other _ _ hn]
    · exact records4 i r hi (by rw [carries]; exact on)
    · exact (outside4 x (by rw [carries]; exact hx)).trans (axesS x)
  generalize forEach f.recs.zipIdx (fun x t => takeRecord (p / 2) (nodeFirst s f.node.val + x.2) x.1 t) s3 = s4 at run used
  have angle : (takeAngle (nodeFirst s f.node.val + f.auxIdx.toNat) f.angle s4).lk = s4.lk := rfl
  have group := takeGroup_kept f.node.val (f.nstat.toNat / 256 % 16) f.grep.toNat (takeAngle (nodeFirst s f.node.val + f.auxIdx.toNat) f.angle s4)
  generalize takeGroup f.node.val (f.nstat.toNat / 256 % 16) f.grep.toNat (takeAngle (nodeFirst s f.node.val + f.auxIdx.toNat) f.angle s4) = s6 at run group
  have last : (confirmWaits (pcSys 0x50 1 s6)).lk = s6.lk :=
    ((confirmWaits_keeps (L := [.regs, .held, .mo]) (by decide) (keeps_refl _ (pcSys 0x50 1 s6))).parts.lk (by decide)).trans
      ((pcSys_onlyEvents 0x50 1 (onlyEvents_refl s6)).parts.lk (by decide))
  rw [run]
  exact uplinkUsed_kept used (nodeKept_trans (nodeKept_of_lk angle) (nodeKept_trans group (nodeKept_of_lk last)))

/-! ### UPLINK_FRAME -/

/-- What forwarding leaves of the state. -/
theorem forwardFrame_spec (p ftype src header len : Nat) (s : State) :
    (forwardFrame p ftype src header len s).lk.nodes = s.lk.nodes ∧ (forwardFrame p ftype src header len s).lk.axes = s.lk.axes ∧
      sameBut [.lk] s (forwardFrame p ftype src header len s) := by
  obtain ⟨sent, txEnd, e⟩ := forwardFrame_eq p ftype src header len s
  exact ⟨(congrArg (fun x : State => x.lk.nodes) e :), (congrArg (fun x : State => x.lk.axes) e :),
    (forwardFrame_keeps _ _ _ _ _ (by decide) (keeps_refl _ s)).parts⟩

/-- A discarded frame counts where its check names. -/
theorem discardFrame_spec {ctr : Nat} (plain : eventReg (canonAddr ctr) = false) (own : canonAddr ctr = ctr) (s : State) :
    regGet (discardFrame ctr s) ctr = regGet s ctr + 1 ∧ (discardFrame ctr s).lk = s.lk ∧
      sameBut [.regs, .held, .pg, .bv, .pc] s (discardFrame ctr s) ∧ touches (orEvents [ctr]) s (discardFrame ctr s) := by
  have events : onlyEvents (count ctr s) (discardFrame ctr s) := pcSys_onlyEvents 0x53 1 (onlyEvents_refl _)
  have parts : sameBut [.regs, .held] s (count ctr s) := (count_keeps _ (by decide) (keeps_refl _ s)).parts
  refine ⟨?_, (events.parts.lk (by decide)).trans (parts.lk (by decide)), sameBut_trans (sameBut_mono (by decide) parts) events.parts, ?_⟩
  · rw [events.regGet plain, count_regGet_same]
  · exact touches_events (touches_count (.inl (by rw [own]; exact List.mem_singleton_self _)) (touches_refl _ s)) events

/-- An uplink that passes the checks on the frame. -/
theorem uplinkFrame_checked {p : Fin 4} {f : UplIn} (st : s.lk.st = .lead ∨ s.lk.st = .follow) (counts : linkCounts s = true)
    (up : portUp s p = true) (en : nodeEn s f.node = true) (ch : nodeCh s f.node = p.val / 2) (len : f.recs.length = nodeNax s f.node) :
    uplinkFrame p.val .ok f s =
      if f.seq.toNat ≠ s.lk.q then discardFrame (lkNode f.node.val + 5) (forwardFrame p.val 4 f.node.val 8 (8 + 9 * f.recs.length) s)
      else if (uplOffset s p.val f).any (fun x => decide (x < -((fldOf s 0xF28001 9 0 : Int) * 8))) then
        discardFrame (lkNode f.node.val + 3) (forwardFrame p.val 4 f.node.val 8 (8 + 9 * f.recs.length) s)
      else if (uplOffset s p.val f).any (fun x => decide ((fldOf s 0xF28001 9 0 : Int) * 8 < x)) then
        discardFrame (lkNode f.node.val + 4) (forwardFrame p.val 4 f.node.val 8 (8 + 9 * f.recs.length) s)
      else if (nodeOf s f.node.val).got then
        putBit (lkNode f.node.val + 1) (if p.val % 2 = 0 then 18 else 17) true
          (setNode f.node.val (if p.val % 2 = 0 then { nodeOf (forwardFrame p.val 4 f.node.val 8 (8 + 9 * f.recs.length) s) f.node.val with rx0 := true }
            else { nodeOf (forwardFrame p.val 4 f.node.val 8 (8 + 9 * f.recs.length) s) f.node.val with rx1 := true })
            (forwardFrame p.val 4 f.node.val 8 (8 + 9 * f.recs.length) s))
      else
        match uplOffset s p.val f with
        | some x => clockCorrection f.node.val x (useUplink p.val f (forwardFrame p.val 4 f.node.val 8 (8 + 9 * f.recs.length) s))
        | none => useUplink p.val f (forwardFrame p.val 4 f.node.val 8 (8 + 9 * f.recs.length) s) := by
  have check : rxCheck s p.val .ok = .ok := if_pos up
  have notLost : ¬(s.lk.st ≠ .lead ∧ s.lk.st ≠ .follow) := fun h => st.elim h.1 h.2
  refine (if_neg (by rw [counts]; decide)).trans ((if_neg (by simp [check])).trans ((if_neg ?_).trans ((if_neg ?_).trans (if_neg notLost))))
  · rintro (⟨h, -⟩ | ⟨-, h⟩)
    · exact h ch
    · exact h len
  · simp [en]

theorem uplink_taken (s : State) (p : Fin 4) (f : UplIn) (st : s.lk.st = .lead ∨ s.lk.st = .follow) (counts : linkCounts s = true)
    (up : portUp s p = true) (en : nodeEn s f.node = true) (ch : nodeCh s f.node = p.val / 2) (len : f.recs.length = nodeNax s f.node)
    (seq : f.seq.toNat = s.lk.q) (window : ∀ x, uplOffset s p f = some x → |x| ≤ 8 * (fldOf s 0xF28001 9 0 : Int))
    (notYet : (nodeOf s f.node).got = false) :
    ∃ u, exec (.uplinkFrame p .ok f) s = .next u ∧ (nodeOf u f.node).got = true ∧ (nodeOf u f.node).empties = 0 ∧
      (f.nst.toNat = 1 → (nodeOf u f.node).joined = true) ∧ (f.nst.toNat = 2 → (nodeOf u f.node).joined = false) ∧
      (∀ (i : Nat) (r : UplRec), f.recs[i]? = some r → carriesAxis s (p.val / 2) (nodeFirst s f.node + i) = true →
        axisUpl u (nodeFirst s f.node + i) = { pos := r.pos.toInt, force := r.fact.toInt, astat := r.astat.toNat, fresh := true }) ∧
      (∀ x, (x < nodeFirst s f.node ∨ nodeFirst s f.node + nodeNax s f.node ≤ x ∨ carriesAxis s (p.val / 2) x = false) →
        axisUpl u x = axisUpl s x) ∧
      (∀ n, n ≠ f.node.val → nodeOf u n = nodeOf s n) ∧ u.mem = s.mem ∧ u.cores = s.cores := by
  obtain ⟨nodes, axes, parts⟩ := forwardFrame_spec p.val 4 f.node.val 8 (8 + 9 * f.recs.length) s
  have whole := (uplinkFrame_keeps (L := [.sys, .regs, .held, .pg, .mo, .bv, .lk, .pr, .gh, .pc]) p.val .ok f (by decide) (keeps_refl _ s)).parts
  have run := uplinkFrame_checked st counts up en ch len
  generalize forwardFrame p.val 4 f.node.val 8 (8 + 9 * f.recs.length) s = v at nodes axes parts run
  have fields := fldOf_eq (parts.regs (by decide)) (parts.held (by decide))
  have first : nodeFirst v f.node.val = nodeFirst s f.node.val := by
    unfold nodeFirst
    rw [fields]
  have count : axisCount v = axisCount s := by
    unfold axisCount modeOf
    rw [fields]
  have carries := carriesAxis_of_count count (p.val / 2)
  have used := useUplink_spec p.val f v
  have inside : ∀ x, uplOffset s p.val f = some x → -((fldOf s 0xF28001 9 0 : Int) * 8) ≤ x ∧ x ≤ (fldOf s 0xF28001 9 0 : Int) * 8 := by
    intro x hx
    have := abs_le.mp (window x hx)
    omega
  have last : uplinkUsed (p.val / 2) f v (uplinkFrame p.val .ok f s) := by
    rw [run, if_neg (fun h => h seq)]
    cases offset : uplOffset s p.val f with
    | none =>
      rw [if_neg (by simp), if_neg (by simp), if_neg (by rw [notYet]; decide)]
      exact used
    | some x =>
      obtain ⟨low, high⟩ := inside x offset
      rw [if_neg (by simp; omega), if_neg (by simp; omega), if_neg (by rw [notYet]; decide)]
      exact uplinkUsed_kept used (clockCorrection_kept f.node.val x _)
  refine ⟨_, rfl, last.got, last.empties, last.joins, last.leaves, fun i r hr on => ?_, fun x hx => ?_, fun n hn => ?_,
    whole.mem (by decide), whole.cores (by decide)⟩
  · have record := last.records i r hr (by rw [first, carries]; exact on)
    rw [first] at record
    exact record
  · exact (last.outside x (by rw [first, len, carries]; exact hx)).trans (axisUpl_of_axes axes x)
  · exact (last.others n hn).trans (nodeOf_of_nodes nodes n)

theorem uplink_otherSeq (s : State) (p : Fin 4) (f : UplIn) (st : s.lk.st = .lead ∨ s.lk.st = .follow) (counts : linkCounts s = true)
    (up : portUp s p = true) (en : nodeEn s f.node = true) (ch : nodeCh s f.node = p.val / 2) (len : f.recs.length = nodeNax s f.node)
    (seq : f.seq.toNat ≠ s.lk.q) :
    ∃ u, exec (.uplinkFrame p .ok f) s = .next u ∧ regGet u (lkNode f.node + 5) = regGet s (lkNode f.node + 5) + 1 ∧
      u.lk.axes = s.lk.axes ∧ u.lk.nodes = s.lk.nodes ∧ sameBut [.lk, .regs, .held, .pg, .bv, .pc] s u ∧ regsButEvents [lkNode f.node + 5] s u := by
  have run := (uplinkFrame_checked st counts up en ch len).trans (if_pos seq)
  obtain ⟨nodes, axes, parts⟩ := forwardFrame_spec p.val 4 f.node.val 8 (8 + 9 * f.recs.length) s
  generalize forwardFrame p.val 4 f.node.val 8 (8 + 9 * f.recs.length) s = v at nodes axes parts run
  obtain ⟨count, lk, partsU, regs⟩ := discardFrame_spec (node_not_event (k := 5) f.node.isLt (by decide)) (canonAddr_node f.node.isLt (by decide)) v
  refine ⟨_, congrArg Host.Outcome.next run, count.trans (congrArg (· + 1) (regGet_of_regs (parts.regs (by decide)) _)), ?_, ?_,
    sameBut_trans (sameBut_mono (by decide) parts) (sameBut_mono (by decide) partsU), ?_⟩
  · rw [lk, axes]
  · rw [lk, nodes]
  · exact regsButEvents_of_touches (touches_trans (touches_of_sameBut parts (by decide) (by decide)) regs)

/-! ### EMPTY_SLOT -/

theorem not_engineReg_nodeWord {k : Nat} (h : a < 128) (hk : k < 16) : ¬engineReg (canonAddr (lkNode a + k)) := by
  rw [canonAddr_node h hk]
  unfold engineReg lkNode
  simp [eventReg]
  omega

/-- The axes of a list have no fresh record. -/
theorem staleAxes_spec (l : List Nat) (s : State) :
    (∀ x, x ∈ l ∨ (axisUpl s x).fresh = false →
        (axisUpl (forEach l (fun x s => setAxisUpl x { axisUpl s x with fresh := false } s) s) x).fresh = false) ∧
      (forEach l (fun x s => setAxisUpl x { axisUpl s x with fresh := false } s) s).lk.nodes = s.lk.nodes ∧
      sameBut [.lk] s (forEach l (fun x s => setAxisUpl x { axisUpl s x with fresh := false } s) s) := by
  induction l generalizing s with
  | nil => exact ⟨fun x h => h.resolve_left (List.not_mem_nil), rfl, sameBut_refl _ s⟩
  | cons y l ih =>
    obtain ⟨stale, nodes, parts⟩ := ih (setAxisUpl y { axisUpl s y with fresh := false } s)
    have own : sameBut [.lk] s (setAxisUpl y { axisUpl s y with fresh := false } s) := (keeps_lk _ (by decide) (keeps_refl [.lk] s)).parts
    refine ⟨fun x h => stale x ?_, nodes, sameBut_trans own parts⟩
    by_cases e : x = y
    · exact .inr (by rw [e, axisUpl, setAxisUpl, mapGet_mapPut_same])
    · have kept : axisUpl (setAxisUpl y { axisUpl s y with fresh := false } s) x = axisUpl s x := mapGet_mapPut_other _ _ _ _ e
      rw [kept]
      exact h.imp_left fun m => (List.mem_cons.mp m).resolve_left e

/-- A slot counted empty. -/
def slotEmpty (a : Nat) (s : State) : State :=
  pcSys 0x51 1 (raiseEvent 15 (count (lkNode a + 2) (setNode a { nodeOf s a with empties := (nodeOf s a).empties + 1 } s)))

theorem slotEmpty_spec (h : a < 128) (s : State) :
    regGet (slotEmpty a s) (lkNode a + 2) = regGet s (lkNode a + 2) + 1 ∧
      (slotEmpty a s).lk = (setNode a { nodeOf s a with empties := (nodeOf s a).empties + 1 } s).lk := by
  have events : onlyEvents (count (lkNode a + 2) (setNode a { nodeOf s a with empties := (nodeOf s a).empties + 1 } s)) (slotEmpty a s) :=
    pcSys_onlyEvents 0x51 1 (raiseEvent_onlyEvents (by decide) (onlyEvents_refl _))
  exact ⟨(events.regGet (node_not_event h (by decide))).trans (count_regGet_same ..), (events.parts.lk (by decide)).trans (count_lk ..)⟩

/-- After LMAX empty slots of a member, the fault of its link (R266). -/
theorem linkFault_spec (c : Prop) [Decidable c] (low : Nat) (r : React) (s : State) :
    linkTables s (if c then ghFault 0x30 low r s else s) ∧ touches engineReg s (if c then ghFault 0x30 low r s else s) := by
  split
  · exact ⟨ghFaultBy_linkTables _ _ _ (by simp) s, (computed_ghFaultBy 0x30 low r (cause := .fault 0x30) (by simp) (computed_refl s)).regs⟩
  · exact ⟨linkTables_refl s, touches_refl _ s⟩

theorem empty_slot (s : State) (n : LinkAddr) (st : s.lk.st = .lead ∨ s.lk.st = .follow) (en : nodeEn s n = true) (notYet : (nodeOf s n).got = false) :
    ∃ u, exec (.emptySlot n) s = .next u ∧ regGet u (lkNode n + 2) = regGet s (lkNode n + 2) + 1 ∧
      (∀ x ∈ nodeAxes s n, (axisUpl u x).fresh = false) ∧
      ((nodeOf s n).joined = true → (nodeOf s n).empties = 15 → (nodeOf u n).joined = false) ∧
      ((nodeOf s n).empties < 15 → (nodeOf u n).joined = (nodeOf s n).joined ∧ (nodeOf u n).empties = (nodeOf s n).empties + 1) ∧
      u.mem = s.mem ∧ u.cores = s.cores := by
  have notLost : ¬((s.lk.st ≠ .lead ∧ s.lk.st ≠ .follow) ∨ (!nodeEn s n) = true ∨ (nodeOf s n.val).got = true) := by
    rw [en, notYet]
    rintro (h | h | h)
    · exact st.elim h.1 h.2
    · cases h
    · cases h
  have whole := (emptySlot_keeps (L := [.sys, .regs, .held, .pg, .bv, .lk, .pr, .gh, .pc]) n.val (by decide) (keeps_refl _ s)).parts
  obtain ⟨counted, lk1⟩ := slotEmpty_spec n.isLt s
  obtain ⟨stale, nodes2, parts2⟩ := staleAxes_spec (nodeAxes s n) (slotEmpty n.val s)
  have run : ∃ (c : Prop) (_ : Decidable c) (r : React), emptySlot n.val s =
      if (nodeOf s n.val).joined ∧ (nodeOf s n.val).empties + 1 = 16 then
        setJoined n.val false (if c then ghFault 0x30 n.val r (forEach (nodeAxes s n) (fun x s => setAxisUpl x { axisUpl s x with fresh := false } s) (slotEmpty n.val s))
          else forEach (nodeAxes s n) (fun x s => setAxisUpl x { axisUpl s x with fresh := false } s) (slotEmpty n.val s))
      else (if c then ghFault 0x30 n.val r (forEach (nodeAxes s n) (fun x s => setAxisUpl x { axisUpl s x with fresh := false } s) (slotEmpty n.val s))
        else forEach (nodeAxes s n) (fun x s => setAxisUpl x { axisUpl s x with fresh := false } s) (slotEmpty n.val s)) :=
    ⟨(nodeOf s n.val).joined ∧ (nodeOf s n.val).empties + 1 = lmaxOf s, inferInstance, reactField (fldOf s 0xF3400B 15 14) (nodeGroups s n.val), if_neg notLost⟩
  obtain ⟨c, dec, r, run⟩ := run
  generalize slotEmpty n.val s = s1 at run counted lk1 stale nodes2 parts2
  generalize forEach (nodeAxes s n) (fun x s => setAxisUpl x { axisUpl s x with fresh := false } s) s1 = s2 at run stale nodes2 parts2
  obtain ⟨tables, regs⟩ := linkFault_spec c n.val r s2
  generalize (if c then ghFault 0x30 n.val r s2 else s2) = s3 at run tables regs
  have same3 (b : Nat) : nodeOf s3 b = nodeOf (setNode n.val { nodeOf s n.val with empties := (nodeOf s n.val).empties + 1 } s) b :=
    nodeOf_of_nodes ((congrArg Link.nodes tables :).trans (nodes2.trans (congrArg Link.nodes lk1))) b
  have own3 : nodeOf s3 n.val = { nodeOf s n.val with empties := (nodeOf s n.val).empties + 1 } := (same3 n.val).trans (nodeOf_setNode_same ..)
  have counted3 : regGet s3 (lkNode n + 2) = regGet s (lkNode n + 2) + 1 := by
    rw [regs.regGet (not_engineReg_nodeWord n.isLt (by decide)), regGet_of_regs (parts2.regs (by decide)), counted]
  have stale3 : ∀ x ∈ nodeAxes s n, (axisUpl s3 x).fresh = false := fun x hx => by
    rw [axisUpl_of_axes (congrArg Link.axes tables :)]
    exact stale x (.inl hx)
  have left := setJoined_spec n.isLt false s3
  have counted4 : regGet (setJoined n.val false s3) (lkNode n + 2) = regGet s (lkNode n + 2) + 1 := by
    rw [left.regs.regGet (not_orEvents (by rw [canonAddr_node n.isLt (by decide)]; simp) (node_not_event n.isLt (by decide))), counted3]
  refine ⟨_, rfl, ?_, fun x hx => ?_, fun joined fifteen => ?_, fun few => ?_, whole.mem (by decide), whole.cores (by decide)⟩
  · rw [run]
    split
    · exact counted4
    · exact counted3
  · rw [run]
    split
    · exact (congrArg AxisUpl.fresh (axisUpl_of_axes left.axes x)).trans (stale3 x hx)
    · exact stale3 x hx
  · rw [run, if_pos ⟨joined, by rw [fifteen]⟩]
    exact left.joined
  · rw [run, if_neg (by omega), own3]
    exact ⟨rfl, rfl⟩

/-- Settles O35. That the uplink of a node with no measured delay is taken without the check of its window is the model's choice (log entry 22). -/
theorem uplinksAndEmptySlots : Obligations.UplinksAndEmptySlots :=
  ⟨fun s p f st counts up en ch len => ⟨uplink_taken s p f st counts up en ch len, uplink_otherSeq s p f st counts up en ch len⟩, empty_slot⟩

end Sys2Proof.Machine
end

