-- ==== Sys2Proof/Proofs/ServiceFrames.lean ====
section
/-! PROOFS. Frames of the service channel (07 R189, R192, R218, R221-R223). -/

namespace Sys2Proof.Machine

variable {s t : State}

/-! ### Frames of the head itself -/

/-- One frame on each of a list of ports. -/
def sendPorts (l : List Nat) (dst seq : Nat) (b : FrameBody) (s : State) : State :=
  forEach l (fun p s => let t := portFree s p (50 * s.now); sendAt p t 12 (headFrame s dst seq b) s) s

/-- Frames sent: for whom, at which ports and with what, in the unit's own name. -/
structure framesSent (l : List Nat) (dst seq : Nat) (b : FrameBody) (s : State) (new : List SentFrame) : Prop where
  frames : new.map (fun f => (f.dst, f.port, f.body)) = l.map fun p => (dst, p, b)
  head : ∀ f ∈ new, f.body = b ∧ f.dst = dst ∧ f.src = ownAddr s ∧ f.act = s.pr.active ∧ f.seq = seq ∧ f.epoch = s.lk.epoch

theorem framesSent.ports {l : List Nat} {dst seq : Nat} {b : FrameBody} {new : List SentFrame} (h : framesSent l dst seq b s new) :
    new.map (·.port) = l :=
  calc new.map (·.port)
      = (new.map fun f => (f.dst, f.port, f.body)).map fun x => x.2.1 := by rw [List.map_map]; rfl
    _ = l := by rw [h.frames]; exact (List.map_map ..).trans (List.map_id l)

theorem sendPorts_spec (l : List Nat) (dst seq : Nat) (b : FrameBody) (s : State) :
    ∃ new txEnd, sendPorts l dst seq b s = { s with lk := { s.lk with sent := s.lk.sent ++ new, txEnd := txEnd } } ∧
      framesSent l dst seq b s new := by
  induction l generalizing s with
  | nil =>
    refine ⟨[], s.lk.txEnd, ?_, rfl, fun f hf => absurd hf (List.not_mem_nil)⟩
    rw [List.append_nil]
    rfl
  | cons p l ih =>
    obtain ⟨new, txEnd, run, sent⟩ := ih (sendAt p (portFree s p (50 * s.now)) 12 (headFrame s dst seq b) s)
    refine ⟨{ headFrame s dst seq b with port := p, at_ := portFree s p (50 * s.now) } :: new, txEnd, ?_, ?_, fun f hf => ?_⟩
    · refine (show sendPorts (p :: l) dst seq b s = _ from run).trans ?_
      rw [List.append_cons]
      rfl
    · rw [List.map_cons, List.map_cons, sent.frames]
      rfl
    · rcases List.mem_cons.mp hf with rfl | hf
      · exact ⟨rfl, rfl, rfl, rfl, rfl, rfl⟩
      · exact sent.head f hf

theorem sendOwn_spec (c dst seq : Nat) (b : FrameBody) (s : State) :
    ∃ new txEnd, sendOwn c dst seq (fun _ => b) s = { s with lk := { s.lk with sent := s.lk.sent ++ new, txEnd := txEnd } } ∧
      framesSent (ownPorts s c) dst seq b s new :=
  sendPorts_spec (ownPorts s c) dst seq b s

/-! ### SVD -/

/-- The acknowledgement that an SVD carries to a node. -/
def ackField (v : Service) (a : Nat) : Nat :=
  match v.ack.find? fun x => x.1 == a with
  | some (_, true) => 1
  | some (_, false) => 2
  | none => 0

/-- With nothing to say, the SVD of a leading head names its grant alone. -/
theorem serviceDownlink_quiet (c : Nat) (lead : s.lk.st = .lead) (noAnswer : s.lk.svc.answer = []) (noOut : s.lk.svc.out = []) :
    ∃ v : Service, serviceDownlink c s =
        sendOwn c (if (grantOf s c).isSome then ((grantOf s c).getD (0, 0)).1 else 127) s.lk.q
          (fun _ => .svd ((grantOf s c).getD (0, 0)).1 ((grantOf s c).getD (0, 0)).2 (ackField s.lk.svc ((grantOf s c).getD (0, 0)).1) 0 false 0 [])
          (setSvc v s) ∧
      (∀ a k, grantOf s c = some (a, k) → (c, a, k) ∈ v.grant) := by
  unfold serviceDownlink
  rw [if_neg (fun h => h lead)]
  rcases grantOf s c with _ | ⟨a, k⟩
  · simp only [noAnswer, noOut, List.find?_nil]
    exact ⟨_, rfl, fun a k h => by cases h⟩
  · simp only [noAnswer, noOut, List.find?_nil]
    refine ⟨_, rfl, fun a' k' h => ?_⟩
    cases h
    exact List.mem_append_right _ (List.mem_singleton_self _)

theorem service_downlink (s : State) (c : Fin 2) (lead : s.lk.st = .lead) (noAnswer : s.lk.svc.answer = []) (noOut : s.lk.svc.out = []) :
    ∃ u new, exec (.serviceDownlink c) s = .next u ∧ u.lk.sent = s.lk.sent ++ new ∧ new.map (·.port) = ownPorts s c ∧
      (∀ f ∈ new, f.body = .svd ((grantOf s c).getD (0, 0)).1 ((grantOf s c).getD (0, 0)).2
          (match s.lk.svc.ack.find? fun x => x.1 == ((grantOf s c).getD (0, 0)).1 with
            | some (_, true) => 1
            | some (_, false) => 2
            | none => 0) 0 false 0 [] ∧
        f.dst = (((grantOf s c).map (·.1)).getD 127) ∧ f.src = ownAddr s ∧ f.act = s.pr.active ∧ f.seq = s.lk.q ∧ f.epoch = s.lk.epoch) ∧
      (∀ a k, grantOf s c = some (a, k) → (c.val, a, k) ∈ u.lk.svc.grant) ∧ sameBut [.lk] s u := by
  obtain ⟨v, run, grant⟩ := serviceDownlink_quiet c.val lead noAnswer noOut
  obtain ⟨new, txEnd, e, sent⟩ := sendOwn_spec c.val (if (grantOf s c).isSome then ((grantOf s c).getD (0, 0)).1 else 127) s.lk.q
    (.svd ((grantOf s c).getD (0, 0)).1 ((grantOf s c).getD (0, 0)).2 (ackField s.lk.svc ((grantOf s c).getD (0, 0)).1) 0 false 0 []) (setSvc v s)
  have dst : (if (grantOf s c).isSome then ((grantOf s c).getD (0, 0)).1 else 127) = (((grantOf s c).map (·.1)).getD 127) := by
    cases grantOf s c <;> rfl
  have parts := (serviceDownlink_keeps (L := [.lk]) c.val (by decide) (keeps_refl _ s)).parts
  refine ⟨_, new, rfl, ?_, sent.ports, fun f hf => ?_, fun a k h => ?_, parts⟩
  · rw [run, e]
    rfl
  · obtain ⟨body, whom, src, act, seq, epoch⟩ := sent.head f hf
    exact ⟨body, whom.trans dst, src, act, seq, epoch⟩
  · rw [run, e]
    exact grant a k h

/-- The partner's SVD goes from the closure of a channel to its node section (R189). -/
theorem service_forwarded (s : State) (c : Fin 2) (follow : s.lk.st = .follow) (pair : paired s = true) (node : portRole s (2 * c.val) = 1)
    (closure : portRole s (2 * c.val + 1) = 2) :
    ∃ u f, exec (.serviceDownlink c) s = .next u ∧ u.lk.sent = s.lk.sent ++ [f] ∧ f.port = 2 * c.val ∧ f.src = partnerAddr s ∧
      (∃ x, f.body = .forwarded 5 (8 + sMax s) x) ∧ u.lk = { s.lk with sent := u.lk.sent, txEnd := u.lk.txEnd } ∧ sameBut [.lk] s u := by
  have other : (if (2 * c.val + 1) % 2 = 0 then 2 * c.val + 1 + 1 else 2 * c.val + 1 - 1) = 2 * c.val := by
    rw [if_neg (by omega)]
    rfl
  have run : exec (.serviceDownlink c) s = .next (relayFrame (2 * c.val + 1) 5 (partnerAddr s) 12 (8 + sMax s) s) := by
    refine congrArg Host.Outcome.next ((if_pos (by rw [follow]; decide)).trans ((if_pos ⟨follow, pair⟩).trans ?_))
    refine if_pos ?_
    rw [other, closure, node]
    simp [linkOn, follow]
  have relay : ∃ at_ x, relayFrame (2 * c.val + 1) 5 (partnerAddr s) 12 (8 + sMax s) s =
      sendAt (2 * c.val) at_ 12 { port := 2 * c.val, at_ := at_, src := partnerAddr s, dst := 127, act := false, seq := s.lk.q, epoch := 0, body := .forwarded 5 (8 + sMax s) x } s := by
    unfold relayFrame
    rw [other]
    exact ⟨_, _, rfl⟩
  obtain ⟨at_, x, relay⟩ := relay
  exact ⟨_, _, run.trans (congrArg Host.Outcome.next relay), rfl, rfl, rfl, ⟨x, rfl⟩, rfl, (keeps_lk _ (by decide) (keeps_refl [.lk] s)).parts⟩

/-! ### SVU -/

/-- What a service uplink of a granted node in turn does. -/
theorem serviceUplink_taken {p : Fin 4} {f : SvuIn} (accept : Bool) (lead : s.lk.st = .lead) (counts : linkCounts s = true) (up : portUp s p = true)
    (en : nodeEn s f.node = true) (ch : nodeCh s f.node = p.val / 2) (seq : f.seq.toNat = s.lk.q) (keep : f.refused = false) :
    ∃ v, v.lk.svc = s.lk.svc ∧ v.lk.st = .lead ∧ sameBut [.lk] s v ∧
      (∀ id fr d, f.body = .reply id false fr d → (p.val / 2, f.node.val, 1) ∈ s.lk.svc.grant →
        serviceUplink p.val .ok f accept s = replyFragment f.node.val id.toNat false fr d (accept && svcRoom s) v) ∧
      (∀ nax, f.body = .join nax none none → (p.val / 2, f.node.val, 2) ∈ s.lk.svc.grant →
        serviceUplink p.val .ok f accept s = joinRequest f.node.val nax none none v) := by
  obtain ⟨sent, txEnd, e⟩ := forwardFrame_eq p.val 6 f.node.val 8 (svuLen f.body) s
  have check : rxCheck s p.val .ok = .ok := if_pos up
  refine ⟨forwardFrame p.val 6 f.node.val 8 (svuLen f.body) s, (congrArg (fun x : State => x.lk.svc) e :), (congrArg (fun x : State => x.lk.st) e :).trans lead,
    (forwardFrame_keeps _ _ _ _ _ (by decide) (keeps_refl _ s)).parts,
    fun id fr d body granted => ?_, fun nax body granted => ?_⟩
  · have room : svcRoom (forwardFrame p.val 6 f.node.val 8 (svuLen f.body) s) = svcRoom s := by rw [e]; rfl
    refine (if_neg (by rw [counts]; decide)).trans ((if_neg (by simp [check])).trans ((if_neg (by simp [en])).trans ((if_neg fun h => h ch).trans
      ((if_neg fun h => h.1 lead).trans ((if_neg fun h => h seq).trans ?_)))))
    simp only [body, keep, Bool.false_and, Bool.false_eq_true, if_false] at room ⊢
    rw [room]
    exact if_pos (List.contains_iff_mem.mpr granted)
  · refine (if_neg (by rw [counts]; decide)).trans ((if_neg (by simp [check])).trans ((if_neg (by simp [en])).trans ((if_neg fun h => h ch).trans
      ((if_neg fun h => h.1 lead).trans ((if_neg fun h => h seq).trans ?_)))))
    simp only [body, keep, Bool.false_and, Bool.false_eq_true, if_false]
    exact if_pos (by simp [granted])


/-- What is owed to a node once its fragment has been looked at. -/
def owed (a : Nat) (b : Bool) (v : Service) : Service := { v with ack := (v.ack.filter fun x => x.1 != a) ++ [(a, b)] }

theorem owed_mem (a : Nat) (b : Bool) (v : Service) : (a, b) ∈ (owed a b v).ack := List.mem_append_right _ (List.mem_singleton_self _)

theorem setSvc_parts (v : Service) (s : State) : sameBut [.lk] s (setSvc v s) := (keeps_lk _ (by decide) (keeps_refl [.lk] s)).parts

/-- A fragment answerOwed NAK. -/
theorem nak_spec (a : Nat) (s : State) :
    (nakFragment (setSvc (owed a false s.lk.svc) s)).lk.svc = owed a false s.lk.svc ∧
      regGet (nakFragment (setSvc (owed a false s.lk.svc) s)) 0xF2800D = regGet s 0xF2800D + 1 ∧
      sameBut [.lk, .regs, .held, .pg, .bv, .pc] s (nakFragment (setSvc (owed a false s.lk.svc) s)) ∧
      touches (orEvents [0xF2800D]) s (nakFragment (setSvc (owed a false s.lk.svc) s)) := by
  have own := setSvc_parts (owed a false s.lk.svc) s
  have svc : (setSvc (owed a false s.lk.svc) s).lk.svc = owed a false s.lk.svc := rfl
  generalize setSvc (owed a false s.lk.svc) s = v at own svc
  have events : onlyEvents (count 0xF2800D v) (nakFragment v) := pcSys_onlyEvents 0x54 1 (onlyEvents_refl _)
  have counted : sameBut [.regs, .held] v (count 0xF2800D v) := (count_keeps _ (by decide) (keeps_refl _ v)).parts
  refine ⟨?_, ?_, ?_, ?_⟩
  · rw [events.parts.lk (by decide), counted.lk (by decide), svc]
  · rw [events.regGet (by decide), count_regGet_same, regGet_of_regs (own.regs (by decide))]
  · exact sameBut_trans (sameBut_mono (by decide) own) (sameBut_trans (sameBut_mono (by decide) counted) (sameBut_mono (by decide) events.parts))
  · exact touches_events (touches_count (.inl (by decide)) (touches_of_sameBut own (by decide) (by decide))) events

/-- The first fragment of a reply that is not complete with it. -/
theorem replyFragment_first (a id fr : Nat) (d : List Nat) (accept : Bool) (inb : s.lk.svc.inb = []) :
    replyFragment a id false fr d accept s =
      if !accept then nakFragment (setSvc (owed a false s.lk.svc) s)
      else if fr ≠ 0 then nakFragment (setSvc (owed a false s.lk.svc) s)
      else setSvc (owed a true { s.lk.svc with inb := [⟨a, id, 1, d⟩] }) s := by
  unfold replyFragment
  extract_lets v ackd cur others got
  have e : cur = ⟨a, id, 0, []⟩ := by
    simp only [cur, v, inb]
    rfl
  have next : cur.next = 0 := by rw [e]
  have same : ackd = owed a := rfl
  have first : others ++ [{ cur with next := 0 + 1, bytes := cur.bytes ++ d }] = [⟨a, id, 1, d⟩] := by
    simp only [e, others, v, inb, List.filter_nil]
    rfl
  rw [next, if_neg (Nat.succ_ne_zero fr), if_neg (show ¬false = true by decide)]
  by_cases zero : fr = 0
  · subst zero
    show (if (!accept) = true then _ else if (0 : Nat) ≠ 0 then _ else setSvc (ackd true { v with inb := others ++ [{ cur with next := 0 + 1, bytes := cur.bytes ++ d }] }) s) = _
    rw [first, same]
  · rw [if_pos zero, if_pos zero, same]

theorem reply_fragment (s v : State) (a id fr : Nat) (d : List Nat) (accept : Bool) (svc : v.lk.svc = s.lk.svc) (parts : sameBut [.lk] s v)
    (new : s.lk.svc.inb = []) :
    (accept = true → fr = 0 → (replyFragment a id false fr d accept v).lk.svc.inb = [⟨a, id, 1, d⟩] ∧
        (a, true) ∈ (replyFragment a id false fr d accept v).lk.svc.ack) ∧
      (accept = false → (replyFragment a id false fr d accept v).lk.svc.inb = [] ∧ (a, false) ∈ (replyFragment a id false fr d accept v).lk.svc.ack ∧
        regGet (replyFragment a id false fr d accept v) 0xF2800D = regGet s 0xF2800D + 1) ∧
      sameBut [.lk, .regs, .held, .pg, .bv, .pc] s (replyFragment a id false fr d accept v) ∧
      regsButEvents [0xF2800D] s (replyFragment a id false fr d accept v) := by
  obtain ⟨nakSvc, nakCount, nakParts, nakRegs⟩ := nak_spec a v
  have inb : v.lk.svc.inb = [] := by rw [svc, new]
  have quiet : touches (orEvents [0xF2800D]) s v := touches_of_sameBut parts (by decide) (by decide)
  have nakWhole : sameBut [.lk, .regs, .held, .pg, .bv, .pc] s (nakFragment (setSvc (owed a false v.lk.svc) v)) :=
    sameBut_trans (sameBut_mono (by decide) parts) nakParts
  have run := replyFragment_first a id fr d accept inb
  cases accept
  · rw [if_pos (show (!false) = true from rfl)] at run
    rw [run]
    refine ⟨fun h => (by cases h), fun _ => ⟨by rw [nakSvc, owed, inb], by rw [nakSvc]; exact owed_mem a false _, ?_⟩, nakWhole,
      regsButEvents_of_touches (touches_trans quiet nakRegs)⟩
    rw [nakCount, regGet_of_regs (parts.regs (by decide))]
  · rw [if_neg (by decide)] at run
    by_cases first : fr = 0
    · rw [if_neg (not_not.mpr first)] at run
      have own := setSvc_parts (owed a true { v.lk.svc with inb := [⟨a, id, 1, d⟩] }) v
      rw [run]
      exact ⟨fun _ _ => ⟨rfl, owed_mem a true _⟩, fun h => (by cases h), sameBut_trans (sameBut_mono (by decide) parts) (sameBut_mono (by decide) own),
        regsButEvents_of_touches (touches_sameBut quiet own (by decide) (by decide))⟩
    · rw [if_pos first] at run
      rw [run]
      exact ⟨fun _ h => absurd h first, fun h => (by cases h), nakWhole, regsButEvents_of_touches (touches_trans quiet nakRegs)⟩

/-- The delays of a node that measured none. -/
def storeDelays (a : Nat) (s : State) : State := putWord (lkNode a + 9) 0xFFFFF (putWord (lkNode a + 8) 0xFFFFF s)

/-- The answer owed to a node that asks to join. -/
def answerOwed (a code : Nat) (v : Service) : Service := { v with answer := (v.answer.filter fun x => x.1 != a) ++ [(a, code)] }

theorem answerOwed_mem (a code : Nat) (v : Service) : (a, code) ∈ (answerOwed a code v).answer := List.mem_append_right _ (List.mem_singleton_self _)

theorem joinRequest_unmeasured (a nax : Nat) (lead : s.lk.st = .lead) :
    joinRequest a nax none none s =
      if nax ≠ nodeNax s a then setSvc (answerOwed a 1 (putBit 0xF28009 10 true (storeDelays a s)).lk.svc) (putBit 0xF28009 10 true (storeDelays a s))
      else setSvc (answerOwed a 0 (storeDelays a s).lk.svc) (storeDelays a s) := by
  unfold joinRequest
  rw [if_pos lead]
  by_cases same : nax = nodeNax s a
  · simp only [same, ne_eq, not_true_eq_false, if_false]
    rfl
  · simp only [same, ne_eq, not_false_eq_true, if_true]
    rfl

/-- The answer to a join request that measured nothing (R218, R219). -/
theorem join_request (s v : State) {a : Nat} (h : a < 128) (nax : Nat) (lead : v.lk.st = .lead) (parts : sameBut [.lk] s v) :
    (nax = nodeNax s a → (a, 0) ∈ (joinRequest a nax none none v).lk.svc.answer) ∧
      (nax ≠ nodeNax s a → (a, 1) ∈ (joinRequest a nax none none v).lk.svc.answer ∧ bit (regGet (joinRequest a nax none none v) 0xF28009) 10 = true) ∧
      regGet (joinRequest a nax none none v) (lkNode a + 8) = 0xFFFFF ∧ regGet (joinRequest a nax none none v) (lkNode a + 9) = 0xFFFFF ∧
      sameBut [.lk, .regs, .held] s (joinRequest a nax none none v) ∧ regsBut [lkNode a + 8, lkNode a + 9, 0xF28009] s (joinRequest a nax none none v) := by
  have quiet : touches (· ∈ [lkNode a + 8, lkNode a + 9, 0xF28009]) s v := touches_of_sameBut parts (by decide) (by decide)
  have eight : canonAddr (lkNode a + 8) = lkNode a + 8 := canonAddr_node h (by decide)
  have nine : canonAddr (lkNode a + 9) = lkNode a + 9 := canonAddr_node h (by decide)
  have ownAxes : nodeNax v a = nodeNax s a := by
    unfold nodeNax
    rw [fldOf_eq (parts.regs (by decide)) (parts.held (by decide))]
  have run := joinRequest_unmeasured a nax lead
  rw [ownAxes] at run
  have word8 := regGet_putWord_same (s := v) (lkNode a + 8) 0xFFFFF
  have delays : regGet (storeDelays a v) (lkNode a + 8) = 0xFFFFF ∧ regGet (storeDelays a v) (lkNode a + 9) = 0xFFFFF := by
    refine ⟨?_, regGet_putWord_same _ _ _⟩
    rw [storeDelays, regGet_putWord_other _ _ (by rw [eight, nine]; omega), word8]
  have partsD : sameBut [.regs, .held] v (storeDelays a v) := (putWord_keeps _ _ (by decide) (putWord_keeps _ _ (by decide) (keeps_refl _ v))).parts
  have regsD : touches (· ∈ [lkNode a + 8, lkNode a + 9, 0xF28009]) s (storeDelays a v) :=
    touches_putWord _ (by rw [nine]; simp) (touches_putWord _ (by rw [eight]; simp) quiet)
  generalize storeDelays a v = w at run delays partsD regsD
  have partsW : sameBut [.lk, .regs, .held] s w := sameBut_trans (sameBut_mono (by decide) parts) (sameBut_mono (by decide) partsD)
  by_cases same : nax = nodeNax s a
  · rw [if_neg (not_not.mpr same)] at run
    have own := setSvc_parts (answerOwed a 0 w.lk.svc) w
    rw [run]
    have regs8 (x : Nat) : regGet (setSvc (answerOwed a 0 w.lk.svc) w) x = regGet w x := regGet_of_regs (own.regs (by decide)) x
    exact ⟨fun _ => answerOwed_mem a 0 _, fun k => absurd same k, (regs8 _).trans delays.1, (regs8 _).trans delays.2,
      sameBut_trans partsW (sameBut_mono (by decide) own), regsBut_of_touches (touches_sameBut regsD own (by decide) (by decide))⟩
  · rw [if_pos same] at run
    have shown := bit_putBit_same 0xF28009 true w (b := 10) (by decide)
    have partsP : sameBut [.regs, .held] w (putBit 0xF28009 10 true w) := (putBit_keeps _ _ _ (by decide) (keeps_refl _ w)).parts
    have regsP : touches (· ∈ [lkNode a + 8, lkNode a + 9, 0xF28009]) s (putBit 0xF28009 10 true w) :=
      touches_putBit _ _ (by rw [show canonAddr 0xF28009 = 0xF28009 from rfl]; simp) regsD
    have other {x : Nat} (hx : canonAddr x ≠ 0xF28009) : regGet (putBit 0xF28009 10 true w) x = regGet w x := (regGet_putBit ..).trans (if_neg hx)
    have eight' := other (x := lkNode a + 8) (by rw [eight]; unfold lkNode; omega)
    have nine' := other (x := lkNode a + 9) (by rw [nine]; unfold lkNode; omega)
    generalize putBit 0xF28009 10 true w = y at run shown partsP regsP eight' nine'
    have own := setSvc_parts (answerOwed a 1 y.lk.svc) y
    have regsY (x : Nat) : regGet (setSvc (answerOwed a 1 y.lk.svc) y) x = regGet y x := regGet_of_regs (own.regs (by decide)) x
    rw [run]
    exact ⟨fun k => absurd k same, fun _ => ⟨answerOwed_mem a 1 _, by rw [regsY, shown]⟩, (regsY _).trans (eight'.trans delays.1), (regsY _).trans (nine'.trans delays.2),
      sameBut_trans partsW (sameBut_trans (sameBut_mono (by decide) partsP) (sameBut_mono (by decide) own)),
      regsBut_of_touches (touches_sameBut regsP own (by decide) (by decide))⟩

theorem service_uplink (s : State) (p : Fin 4) (f : SvuIn) (accept : Bool) (lead : s.lk.st = .lead) (counts : linkCounts s = true)
    (up : portUp s p = true) (en : nodeEn s f.node = true) (ch : nodeCh s f.node = p.val / 2) (seq : f.seq.toNat = s.lk.q) (keep : f.refused = false) :
    (∀ id fr d, f.body = .reply id false fr d → (p.val / 2, f.node.val, 1) ∈ s.lk.svc.grant → s.lk.svc.inb = [] →
      ∃ u, exec (.serviceUplink p .ok f accept) s = .next u ∧
        (accept = true → svcRoom s = true → fr = 0 → u.lk.svc.inb = [⟨f.node.val, id.toNat, 1, d⟩] ∧ (f.node.val, true) ∈ u.lk.svc.ack) ∧
        (accept = false ∨ svcRoom s = false → u.lk.svc.inb = [] ∧ (f.node.val, false) ∈ u.lk.svc.ack ∧ regGet u 0xF2800D = regGet s 0xF2800D + 1) ∧
        sameBut [.lk, .regs, .held, .pg, .bv, .pc] s u ∧ regsButEvents [0xF2800D] s u) ∧
    (∀ nax, f.body = .join nax none none → (p.val / 2, f.node.val, 2) ∈ s.lk.svc.grant →
      ∃ u, exec (.serviceUplink p .ok f accept) s = .next u ∧
        (nax = nodeNax s f.node → (f.node.val, 0) ∈ u.lk.svc.answer) ∧
        (nax ≠ nodeNax s f.node → (f.node.val, 1) ∈ u.lk.svc.answer ∧ bit (regGet u 0xF28009) 10 = true) ∧
        regGet u (lkNode f.node + 8) = 0xFFFFF ∧ regGet u (lkNode f.node + 9) = 0xFFFFF ∧ sameBut [.lk, .regs, .held] s u ∧
        regsBut [lkNode f.node + 8, lkNode f.node + 9, 0xF28009] s u) := by
  obtain ⟨v, svc, st, parts, reply, join⟩ := serviceUplink_taken accept lead counts up en ch seq keep
  refine ⟨fun id fr d body granted new => ?_, fun nax body granted => ?_⟩
  · obtain ⟨taken, refused, whole, regs⟩ := reply_fragment s v f.node.val id.toNat fr d (accept && svcRoom s) svc parts new
    refine ⟨_, congrArg Host.Outcome.next (reply id fr d body granted), fun yes room => taken (by rw [yes, room]; rfl), fun no => refused ?_, whole, regs⟩
    rcases no with h | h <;> rw [h]
    · rfl
    · exact Bool.and_false _
  · exact ⟨_, congrArg Host.Outcome.next (join nax body granted), join_request s v f.node.isLt nax st parts⟩

end Sys2Proof.Machine
end

