-- ==== Sys2Proof/Proofs/SetPointFrames.lean ====
section
/-! PROOFS. Set-point frames (07 R195, R200, R205; 08 R238). -/

namespace Sys2Proof.Machine

variable {o s t : State}

/-! ### The frames of a batch -/

/-- The set-point frame of a node, by the state in which its batch leaves. -/
def setpFrames (o : State) (c : Nat) (x : SetpQueue) (f : Nat × List SetpRec) : List (Nat × Nat × FrameBody) :=
  (ownPorts o c).map fun p => (f.1, p, FrameBody.setp x.gcmd x.gepoch (nodeOf o f.1).tcorr f.2)

/-- A state from which the frames of some nodes have left. -/
structure setpsSent (o : State) (c : Nat) (x : SetpQueue) (done : List (Nat × List SetpRec)) (s : State) : Prop where
  sent : ∃ new, s.lk.sent = o.lk.sent ++ new ∧ (new.map fun f => (f.dst, f.port, f.body)) = done.flatMap (setpFrames o c x) ∧
    ∀ f ∈ new, f.seq = x.seq ∧ f.src = ownAddr o ∧ f.act = true ∧ f.epoch = o.lk.epoch
  toSend : s.lk.toSend = o.lk.toSend
  epoch : s.lk.epoch = o.lk.epoch
  nodes : ∀ n, n ∉ done.map (·.1) → nodeOf s n = nodeOf o n
  pr : s.pr = { o.pr with osigDiff := s.pr.osigDiff }
  regs : touches (orEvents []) o s
  parts : sameBut [.lk, .pr, .regs, .held, .pg, .bv, .pc] o s

theorem ownPorts_of_touches (h : touches (orEvents []) o s) {c : Nat} (hc : c < 2) : ownPorts s c = ownPorts o c := by
  refine List.filter_congr fun p hp => ?_
  have small : p < 4 := by
    simp only [List.mem_cons, List.not_mem_nil, or_false] at hp
    omega
  have e : canonAddr (0xF28010 + p) = 0xF28010 + p := if_neg (by omega)
  have out : ¬orEvents [] (canonAddr (0xF28010 + p)) := not_orEvents (List.not_mem_nil) (by rw [e]; simp [eventReg]; omega)
  unfold portRole
  rw [h.fldOf out]

/-- The state of the link as a node's frame leaves: its correction taken, the frame kept. -/
def keepSetp (x : SetpQueue) (a : Nat) (recs : List SetpRec) (s : State) : State :=
  { setNode a { nodeOf s a with tcorr := 0 } s with
    lk := { (setNode a { nodeOf s a with tcorr := 0 } s).lk with setpOwn := s.lk.setpOwn ++ [⟨a, x.seq, recs⟩] } }

theorem sendSetp_active (x : SetpQueue) (a : Nat) (recs : List SetpRec) (act : s.pr.active = true) :
    sendSetp x a recs s = compareSetp ⟨a, x.seq, recs⟩ s.lk.setpHeard
      (pcSys 0x52 1 (sendOwn x.ch a x.seq (fun _ => .setp x.gcmd x.gepoch (nodeOf s a).tcorr recs) (keepSetp x a recs s))) := by
  unfold sendSetp
  simp only [act, if_true]
  rfl

theorem setpsSent_step {c : Nat} (hc : c < 2) {x : SetpQueue} (ch : x.ch = c) {done : List (Nat × List SetpRec)} (act : o.pr.active = true)
    (h : setpsSent o c x done s) (f : Nat × List SetpRec) (new : f.1 ∉ done.map (·.1)) : setpsSent o c x (done ++ [f]) (sendSetp x f.1 f.2 s) := by
  have active : s.pr.active = true := (congrArg Pair.active h.pr).trans act
  have run := sendSetp_active x f.1 f.2 active
  have tcorr : (nodeOf s f.1).tcorr = (nodeOf o f.1).tcorr := by rw [h.nodes f.1 new]
  have kept : sameBut [.lk] s (keepSetp x f.1 f.2 s) :=
    (keeps_lk (s := setNode f.1 { nodeOf s f.1 with tcorr := 0 } s) _ (by decide) (keeps_lk _ (by decide) (keeps_refl [.lk] s))).parts
  obtain ⟨frames, txEnd, e, out⟩ := sendOwn_spec x.ch f.1 x.seq (.setp x.gcmd x.gepoch (nodeOf s f.1).tcorr f.2) (keepSetp x f.1 f.2 s)
  have sentParts := (sendOwn_keeps (L := [.lk]) x.ch f.1 x.seq (fun _ => .setp x.gcmd x.gepoch (nodeOf s f.1).tcorr f.2) (by decide) (keeps_refl _ (keepSetp x f.1 f.2 s))).parts
  have lk := congrArg State.lk e
  generalize sendOwn x.ch f.1 x.seq (fun _ => .setp x.gcmd x.gepoch (nodeOf s f.1).tcorr f.2) (keepSetp x f.1 f.2 s) = v at run sentParts lk
  have events : onlyEvents v (pcSys 0x52 1 v) := pcSys_onlyEvents 0x52 1 (onlyEvents_refl v)
  generalize pcSys 0x52 1 v = w at run events
  have lkW : w.lk = v.lk := events.parts.lk (by decide)
  have regsW : touches (orEvents []) o w :=
    touches_events (touches_trans h.regs (touches_trans (touches_of_sameBut kept (by decide) (by decide)) (touches_of_sameBut sentParts (by decide) (by decide)))) events
  have prW : w.pr = s.pr := (events.parts.pr (by decide)).trans ((sentParts.pr (by decide)).trans (kept.pr (by decide)))
  have partsW : sameBut [.lk, .pr, .regs, .held, .pg, .bv, .pc] o w :=
    sameBut_trans h.parts (sameBut_trans (sameBut_mono (by decide) kept) (sameBut_trans (sameBut_mono (by decide) sentParts) (sameBut_mono (by decide) events.parts)))
  have lkU : (sendSetp x f.1 f.2 s).lk = w.lk := (congrArg State.lk run :)
  have prU : (sendSetp x f.1 f.2 s).pr = { s.pr with osigDiff := (sendSetp x f.1 f.2 s).pr.osigDiff } := by
    rw [run]
    exact congrArg (fun m : Pair => { m with osigDiff := (compareSetp ⟨f.1, x.seq, f.2⟩ s.lk.setpHeard w).pr.osigDiff }) prW
  have last : sameBut [.pr] w (sendSetp x f.1 f.2 s) := run ▸ (compareSetp_keeps _ _ (by decide) (keeps_refl [.pr] w)).parts
  have unit : ownAddr (keepSetp x f.1 f.2 s) = ownAddr o := by
    unfold ownAddr lkUnitB
    rw [(touches_trans h.regs (touches_of_sameBut kept (by decide) (by decide))).bitOf (a := 0xF28000) (not_orEvents (a := 0xF28000) (List.not_mem_nil) (by decide)) 19]
  have ports : ownPorts (keepSetp x f.1 f.2 s) x.ch = ownPorts o c := by
    rw [ch]
    exact ownPorts_of_touches (touches_trans h.regs (touches_of_sameBut kept (by decide) (by decide))) hc
  have lkAll : (sendSetp x f.1 f.2 s).lk = { (keepSetp x f.1 f.2 s).lk with sent := s.lk.sent ++ frames, txEnd := txEnd } := lkU.trans (lkW.trans lk)
  obtain ⟨old, sentOld, framesOld, headsOld⟩ := h.sent
  refine ⟨⟨old ++ frames, ?_, ?_, fun g hg => ?_⟩, ?_, ?_, fun n hn => ?_, ?_, touches_sameBut regsW last (by decide) (by decide), ?_⟩
  · rw [lkAll, ← List.append_assoc, ← sentOld]
  · rw [List.map_append, framesOld, out.frames, ports, tcorr, List.flatMap_append, List.flatMap_singleton]
    rfl
  · rcases List.mem_append.mp hg with hg | hg
    · exact headsOld g hg
    · obtain ⟨-, -, src, isAct, seq, epoch⟩ := out.head g hg
      exact ⟨seq, src.trans unit, isAct.trans active, epoch.trans h.epoch⟩
  · rw [lkAll]
    exact h.toSend
  · rw [lkAll]
    exact h.epoch
  · rw [List.map_append, List.mem_append, not_or, List.map_singleton, List.mem_singleton] at hn
    have nodes : (sendSetp x f.1 f.2 s).lk.nodes = (setNode f.1 { nodeOf s f.1 with tcorr := 0 } s).lk.nodes := by rw [lkAll]; rfl
    rw [nodeOf_of_nodes nodes, nodeOf_setNode_other _ _ hn.2, h.nodes n hn.1]
  · exact prU.trans (congrArg (fun m : Pair => { m with osigDiff := (sendSetp x f.1 f.2 s).pr.osigDiff }) h.pr)
  · exact sameBut_trans partsW (sameBut_mono (by decide) last)

theorem setpsSent_all {c : Nat} (hc : c < 2) {x : SetpQueue} (ch : x.ch = c) (act : o.pr.active = true) (l : List (Nat × List SetpRec))
    {done : List (Nat × List SetpRec)} (distinct : ((done ++ l).map (·.1)).Nodup) (h : setpsSent o c x done s) :
    setpsSent o c x (done ++ l) (forEach l (fun f s => sendSetp x f.1 f.2 s) s) := by
  induction l generalizing done s with
  | nil =>
    rw [List.append_nil]
    exact h
  | cons f l ih =>
    have apart : f.1 ∉ done.map (·.1) := by
      rw [List.map_append, List.map_cons, List.nodup_append] at distinct
      exact fun k => distinct.2.2 f.1 k f.1 (List.mem_cons_self ..) rfl
    have step := setpsSent_step hc ch act h f apart
    have rest := ih (done := done ++ [f]) (by rwa [← List.append_cons]) step
    rw [← List.append_cons] at rest
    exact rest

/-- A state whose oldest completed batch has been taken from the queue. -/
def taken (x : SetpQueue) (s : State) : State :=
  { s with lk := { s.lk with toSend := s.lk.toSend.erase x } }

theorem setpsSent_none {c : Nat} {x : SetpQueue} : setpsSent o c x [] o :=
  ⟨⟨[], (List.append_nil _).symm, rfl, fun _ h => absurd h List.not_mem_nil⟩, rfl, rfl, fun _ _ => rfl, rfl, touches_refl _ o, sameBut_refl _ o⟩

/-- The set-points of the oldest completed batch of a channel go to its nodes that have joined or are leaving. -/
theorem setpoint_frame (s : State) (c : Fin 2) (x : SetpQueue) (found : s.lk.toSend.find? (fun y => y.ch == c.val) = some x)
    (lead : s.lk.st = .lead) (sounds : s.pr.silent = false) (act : s.pr.active = true) (distinct : (x.frames.map (·.1)).Nodup) :
    ∃ u new, exec (.setPointFrame c) s = .next u ∧ u.lk.toSend = s.lk.toSend.erase x ∧ u.lk.sent = s.lk.sent ++ new ∧
      (new.map fun f => (f.dst, f.port, f.body)) = (x.frames.filter fun f => (nodeOf s f.1).joined || (nodeOf s f.1).leaving).flatMap (fun f =>
        (ownPorts s c).map fun p => (f.1, p, FrameBody.setp x.gcmd x.gepoch (nodeOf s f.1).tcorr f.2)) ∧
      (∀ f ∈ new, f.seq = x.seq ∧ f.src = ownAddr s ∧ f.act = true ∧ f.epoch = s.lk.epoch) ∧
      u.pr = { s.pr with osigDiff := u.pr.osigDiff } ∧ sameBut [.lk, .pr, .regs, .held, .pg, .bv, .pc] s u ∧ regsButEvents [] s u := by
  have ch : x.ch = c.val := eq_of_beq (List.find?_some found :)
  have sends : sendsSetp (taken x s) = true := by
    unfold sendsSetp taken
    rw [sounds, lead]
    rfl
  have goes : (x.frames.filter fun f => ((nodeOf (taken x s) f.1).joined || (nodeOf (taken x s) f.1).leaving) && ((taken x s).pr.active || nodeAligned (taken x s) f.1)) =
      x.frames.filter fun f => (nodeOf s f.1).joined || (nodeOf s f.1).leaving := by
    refine List.filter_congr fun f _ => ?_
    rw [show (taken x s).pr.active = true from act, Bool.true_or, Bool.and_true]
    rfl
  have run : setPointFrames c.val s = forEach (x.frames.filter fun f => (nodeOf s f.1).joined || (nodeOf s f.1).leaving)
      (fun f s => sendSetp x f.1 f.2 s) (taken x s) := by
    rw [← goes]
    unfold setPointFrames
    rw [found]
    exact if_pos sends
  have all := setpsSent_all c.isLt ch (o := taken x s) act (x.frames.filter fun f => (nodeOf s f.1).joined || (nodeOf s f.1).leaving) (done := [])
    (distinct.sublist (List.filter_sublist.map _)) setpsSent_none
  rw [← run, List.nil_append] at all
  have e : exec (.setPointFrame c) s = .next (setPointFrames c.val s) := rfl
  generalize setPointFrames c.val s = u at e all
  have begun : sameBut [.lk] s (taken x s) := (keeps_lk _ (by decide) (keeps_refl [.lk] s)).parts
  obtain ⟨new, sent, frames, heads⟩ := all.sent
  refine ⟨u, new, e, all.toSend, sent, frames, heads, all.pr, sameBut_trans (sameBut_mono (by decide) begun) all.parts,
    regsButEvents_of_touches (touches_trans (touches_of_sameBut begun (by decide) (by decide)) all.regs)⟩

/-! ### PARTNER_SETP_HEARD -/

/-- A unit that has heard a set-point of its partner. -/
def heardSetp (x : SetpKept) (s : State) : State :=
  { heard s with lk := { s.lk with setpHeard := s.lk.setpHeard ++ [x] } }

theorem serialOlder_self (k a : Nat) : serialOlder k a a = false := by
  unfold serialOlder
  rw [bne_self_eq_false, Bool.false_and]

theorem serialNewer_self (k a : Nat) : serialNewer k a a = false := by
  have lt : a % 2 ^ k < 2 ^ k := Nat.mod_lt _ (Nat.two_pow_pos k)
  have zero : (a + 2 ^ k - a % 2 ^ k) % 2 ^ k = 0 := by
    rw [show a + 2 ^ k - a % 2 ^ k = 2 ^ k + a / 2 ^ k * 2 ^ k from by have := Nat.div_add_mod' a (2 ^ k); omega, Nat.add_mul_mod_self_right, Nat.mod_self]
  unfold serialNewer
  simp only [zero]
  rfl

/-- The differences that a set-point of the partner tells are those against the unit's own frame of that node and SEQ. -/
theorem compareSetp_heard (x : SetpKept) (s : State) :
    compareSetp x s.lk.setpOwn (heardSetp x s) = { heardSetp x s with pr := { (heardSetp x s).pr with osigDiff :=
      s.pr.osigDiff ++ ((s.lk.setpOwn.filter fun y => y.node == x.node && y.seq == x.seq).take 1).flatMap fun y => setpDiffs s x y } } := rfl

/-- The pairs of a list with itself have equal sides. -/
theorem eq_of_mem_zip_self {α : Type} {l : List α} {p : α × α} (h : p ∈ l.zip l) : p.1 = p.2 := by
  obtain ⟨i, hi⟩ := List.mem_iff_getElem?.mp h
  obtain ⟨x, hx, y, hy, rfl⟩ : ∃ x, l[i]? = some x ∧ ∃ y, l[i]? = some y ∧ (x, y) = p := by
    rw [List.getElem?_zip_eq_some] at hi
    exact ⟨p.1, hi.1, p.2, hi.2, rfl⟩
  exact Option.some.inj (hx.symm.trans hy)

theorem setpDiffs_same (x y : SetpKept) (same : x.recs = y.recs) : setpDiffs s x y = [] := by
  unfold setpDiffs
  rw [List.filter_eq_nil_iff]
  intro d hd
  obtain ⟨r, hr, some⟩ := List.mem_filterMap.mp hd
  have equal : r.2.1 = r.2.2 := eq_of_mem_zip_self (l := x.recs) (by rw [← same] at hr; exact (List.of_mem_zip hr).2)
  rw [if_pos equal] at some
  cases some

theorem mem_setpDiffs {x y : SetpKept} {i a : Nat} {r q : SetpRec} (axis : (nodeAxes s x.node)[i]? = some a) (mine : y.recs[i]? = some r)
    (heard : x.recs[i]? = some q) (differ : r ≠ q) (aligned : batchOf s a ∉ s.pr.unaligned) (fresh : (batchOf s a, x.seq) ∉ s.pr.compared) :
    (x.seq, batchOf s a, a) ∈ s.pr.osigDiff ++ setpDiffs s x y := by
  by_cases known : (x.seq, batchOf s a, a) ∈ s.pr.osigDiff
  · exact List.mem_append_left _ known
  · refine List.mem_append_right _ (List.mem_filter.mpr ⟨List.mem_filterMap.mpr ⟨(a, q, r), ?_, if_neg (Ne.symm differ)⟩, ?_⟩)
    · exact List.mem_iff_getElem?.mpr ⟨i, List.getElem?_zip_eq_some.mpr ⟨axis, List.getElem?_zip_eq_some.mpr ⟨heard, mine⟩⟩⟩
    · simp [aligned, fresh, known]

/-- A set-point of the partner in its window is kept and compared with the unit's own of that node and SEQ. -/
theorem partnerSetp_taken {p a seq e : Nat} {recs : List SetpRec} (counts : linkCounts s = true) (up : portUp s p = true) (st : s.lk.st ≠ .off)
    (pair : paired s = true) (window : setpWindow s (p / 2) = some seq) (epoch : e = s.lk.epoch) :
    partnerSetp p .ok a seq e recs s = compareSetp ⟨a, seq, recs⟩ s.lk.setpOwn (heardSetp ⟨a, seq, recs⟩ s) := by
  have check : rxCheck s p .ok = .ok := if_pos up
  have on : linkOn s = true := bne_iff_ne.mpr st
  have known : partnerEpoch e s = (heard s, true) := by
    unfold partnerEpoch
    rw [epoch, serialOlder_self, if_neg (by decide), if_neg (fun h => by rw [serialNewer_self] at h; exact absurd h.2 (by decide))]
    rfl
  unfold partnerSetp
  simp only [counts, Bool.not_true, Bool.false_eq_true, if_false, check, ne_eq, not_true, on, pair, Bool.or_self, window, known]
  rfl

theorem partnerSetp_discarded {p a seq e : Nat} {recs : List SetpRec} (counts : linkCounts s = true) (up : portUp s p = true) (st : s.lk.st ≠ .off)
    (pair : paired s = true) (window : setpWindow s (p / 2) ≠ some seq) : partnerSetp p .ok a seq e recs s = discardFrame (0xF28018 + p) s := by
  have check : rxCheck s p .ok = .ok := if_pos up
  have on : linkOn s = true := bne_iff_ne.mpr st
  unfold partnerSetp
  simp only [counts, Bool.not_true, Bool.false_eq_true, if_false, check, ne_eq, not_true, on, pair, Bool.or_self]
  exact if_pos window

theorem compareSetp_spec (x : SetpKept) (s : State) (u : State) (e : u = compareSetp x s.lk.setpOwn (heardSetp x s)) :
    u.pr.heardLink = true ∧ u.lk = { s.lk with setpHeard := s.lk.setpHeard ++ [x] } ∧
      ((∀ y ∈ s.lk.setpOwn, y.node = x.node → y.seq ≠ x.seq) → u.pr.osigDiff = s.pr.osigDiff) ∧
      (∀ own : SetpKept, s.lk.setpOwn.find? (fun y => y.node == x.node && y.seq == x.seq) = some own →
        (x.recs = own.recs → u.pr.osigDiff = s.pr.osigDiff) ∧
        ∀ (i a : Nat) (r q : SetpRec), (nodeAxes s x.node)[i]? = some a → own.recs[i]? = some r → x.recs[i]? = some q → r ≠ q →
          batchOf s a ∉ s.pr.unaligned → (batchOf s a, x.seq) ∉ s.pr.compared → (x.seq, batchOf s a, a) ∈ u.pr.osigDiff) ∧
      u.pr = { s.pr with heardLink := true, osigDiff := u.pr.osigDiff } ∧ sameBut [.pr, .lk] s u := by
  have diffs : u.pr.osigDiff = s.pr.osigDiff ++ ((s.lk.setpOwn.filter fun y => y.node == x.node && y.seq == x.seq).take 1).flatMap fun y => setpDiffs s x y :=
    (congrArg (fun v : State => v.pr.osigDiff) e).trans (congrArg (fun v : State => v.pr.osigDiff) (compareSetp_heard x s))
  have parts : sameBut [.pr, .lk] s (heardSetp x s) := (keeps_lk _ (by decide) (keeps_pr _ (by decide) (keeps_refl [.pr, .lk] s))).parts
  have compared := (compareSetp_keeps x s.lk.setpOwn (by decide) (keeps_refl [.pr, .lk] (heardSetp x s))).parts
  refine ⟨congrArg (fun v : State => v.pr.heardLink) e, congrArg State.lk e, fun none => ?_, fun own found => ?_, ?_, e ▸ sameBut_trans parts compared⟩
  · have empty : (s.lk.setpOwn.filter fun y => y.node == x.node && y.seq == x.seq) = [] :=
      List.filter_eq_nil_iff.mpr fun y hy h => by
        rw [Bool.and_eq_true, beq_iff_eq, beq_iff_eq] at h
        exact none y hy h.1 h.2
    rw [diffs, empty]
    exact List.append_nil _
  · have first : ((s.lk.setpOwn.filter fun y => y.node == x.node && y.seq == x.seq).take 1) = [own] := by
      rw [List.take_one, List.head?_filter, found]
      rfl
    rw [first, List.flatMap_singleton] at diffs
    refine ⟨fun same => ?_, fun i a r q axis mine heard differ aligned fresh => ?_⟩
    · rw [diffs, setpDiffs_same x own same, List.append_nil]
    · rw [diffs]
      exact mem_setpDiffs axis mine heard differ aligned fresh
  · rw [e]
    rfl

theorem partner_setpoint_in_window (s : State) (p : Fin 4) (n : LinkAddr) (seq : BitVec 32) (e : BitVec 16) (recs : List SetpRec) (t : Nat)
    (st : s.lk.st ≠ .off) (pair : paired s = true) (counts : linkCounts s = true) (up : portUp s p = true) (epoch : e.toNat = s.lk.epoch)
    (window : setpWindow (advance t s) (p.val / 2) = some seq.toNat) :
    ∃ u, exec (.partnerSetpHeard p .ok n seq e ⟨recs, t⟩) s = .next u ∧ u.pr.heardLink = true ∧
      u.lk = { s.lk with setpHeard := s.lk.setpHeard ++ [⟨n, seq.toNat, recs⟩] } ∧
      ((∀ y ∈ s.lk.setpOwn, y.node = n.val → y.seq ≠ seq.toNat) → u.pr.osigDiff = s.pr.osigDiff) ∧
      (∀ own : SetpKept, s.lk.setpOwn.find? (fun y => y.node == n.val && y.seq == seq.toNat) = some own →
        (recs = own.recs → u.pr.osigDiff = s.pr.osigDiff) ∧
        ∀ (i x : Nat) (r q : SetpRec), (nodeAxes s n)[i]? = some x → own.recs[i]? = some r → recs[i]? = some q → r ≠ q →
          batchOf s x ∉ s.pr.unaligned → (batchOf s x, seq.toNat) ∉ s.pr.compared → (seq.toNat, batchOf s x, x) ∈ u.pr.osigDiff) ∧
      u.pr = { s.pr with heardLink := true, osigDiff := u.pr.osigDiff } ∧ sameBut [.now, .pr, .lk] s u := by
  have run : partnerSetp p.val .ok n.val seq.toNat e.toNat recs (advance t s) = _ :=
    partnerSetp_taken (s := advance t s) counts up st pair window epoch
  have parts : sameBut [.now] s (advance t s) := (keeps_now _ (by decide) (keeps_refl [.now] s)).parts
  have out : exec (.partnerSetpHeard p .ok n seq e ⟨recs, t⟩) s = .next (partnerSetp p.val .ok n.val seq.toNat e.toNat recs (advance t s)) := rfl
  generalize partnerSetp p.val .ok n.val seq.toNat e.toNat recs (advance t s) = u at run out
  obtain ⟨heardLink, lk, others, own, pr, partsU⟩ := compareSetp_spec ⟨n, seq.toNat, recs⟩ (advance t s) u run
  exact ⟨u, out, heardLink, lk, others, own, pr, sameBut_trans (sameBut_mono (by decide) parts) (sameBut_mono (by decide) partsU)⟩

theorem partner_setpoint_out_of_window (s : State) (p : Fin 4) (n : LinkAddr) (seq : BitVec 32) (e : BitVec 16) (recs : List SetpRec) (t : Nat)
    (st : s.lk.st ≠ .off) (pair : paired s = true) (counts : linkCounts s = true) (up : portUp s p = true)
    (window : setpWindow (advance t s) (p.val / 2) ≠ some seq.toNat) :
    ∃ u, exec (.partnerSetpHeard p .ok n seq e ⟨recs, t⟩) s = .next u ∧ regGet u (0xF28018 + p.val) = regGet s (0xF28018 + p.val) + 1 ∧
      u.pr = s.pr ∧ u.lk = s.lk ∧ sameBut [.now, .regs, .held, .pg, .bv, .pc] s u ∧ regsButEvents [0xF28018 + p.val] s u := by
  have run : partnerSetp p.val .ok n.val seq.toNat e.toNat recs (advance t s) = discardFrame (0xF28018 + p.val) (advance t s) :=
    partnerSetp_discarded (s := advance t s) counts up st pair window
  have parts : sameBut [.now] s (advance t s) := (keeps_now _ (by decide) (keeps_refl [.now] s)).parts
  have own : canonAddr (0xF28018 + p.val) = 0xF28018 + p.val := if_neg (by omega)
  obtain ⟨count, lk, partsU, regs⟩ := discardFrame_spec (ctr := 0xF28018 + p.val) (by rw [own]; simp [eventReg]; omega) own (advance t s)
  have out : exec (.partnerSetpHeard p .ok n seq e ⟨recs, t⟩) s = .next (partnerSetp p.val .ok n.val seq.toNat e.toNat recs (advance t s)) := rfl
  exact ⟨_, out.trans (congrArg _ run), count, partsU.pr (by decide), lk, sameBut_trans (sameBut_mono (by decide) parts) (sameBut_mono (by decide) partsU),
    regsButEvents_of_touches (touches_trans (touches_of_sameBut parts (by decide) (by decide)) regs)⟩

/-- Settles O36. The answer codes of a join are log entry 24, the count of a set-point out of its window at its port log entry 69. -/
theorem serviceAndSetPointFrames : Obligations.ServiceAndSetPointFrames :=
  ⟨service_downlink, service_forwarded, service_uplink, setpoint_frame, fun s p n seq e recs t st pair counts up epoch =>
    ⟨partner_setpoint_in_window s p n seq e recs t st pair counts up epoch, partner_setpoint_out_of_window s p n seq e recs t st pair counts up⟩⟩

end Sys2Proof.Machine
end

