-- ==== Sys2Proof/Proofs/PortsAndTime.lean ====
section
/-! PROOFS. Ports and system time (07 R185, R212; 08 R229). -/

namespace Sys2Proof.Machine

variable {o s t : State}

/-! ### The ports -/

theorem portUp_setUp (p : Nat) (hp : p < 4) (on : Bool) (s : State) (q : Fin 4) :
    portUp (setUp p on s) q = if q.val = p then on else portUp s q := by
  have lk : (setUp p on s).lk.up = if on then s.lk.up ||| (1#4 <<< p) else s.lk.up &&& ~~~(1#4 <<< p) :=
    congrArg Link.up (putBit_lk ..)
  have one : (1#4 <<< p).getLsbD q = decide (q.val = p) := by
    rw [BitVec.getLsbD_shiftLeft, BitVec.getLsbD_one]
    have := q.isLt
    by_cases h : q.val = p
    · simp [h, hp]
    · simp [h]
      omega
  unfold portUp
  rw [lk]
  cases on
  · rw [if_neg (by decide), BitVec.getLsbD_and, BitVec.getLsbD_not, one]
    by_cases h : q.val = p <;> simp [h]
  · rw [if_pos rfl, BitVec.getLsbD_or, one]
    by_cases h : q.val = p <;> simp [h]

theorem portReg_plain {k p : Nat} (hk : k = 0xF28014 ∨ k = 0xF2801C) (hp : p < 4) : canonAddr (k + p) = k + p ∧ eventReg (canonAddr (k + p)) = false := by
  have own : canonAddr (k + p) = k + p := if_neg (by omega)
  refine ⟨own, ?_⟩
  rw [own]
  simp [eventReg]
  omega

/-- A port gains or loses sync, and shows it. -/
theorem setUp_spec {p : Nat} (hp : p < 4) (on : Bool) (s : State) :
    bit (regGet (setUp p on s) (0xF28014 + p)) 19 = on ∧ touches (· ∈ [0xF28014 + p]) s (setUp p on s) ∧
      sameBut [.lk, .regs, .held] s (setUp p on s) := by
  refine ⟨bit_putBit_same _ _ _ (by decide), touches_putBit 19 on ?_ (touches_same (touches_refl _ s) rfl rfl), (setUp_keeps p on (by decide) (keeps_refl _ s)).parts⟩
  rw [(portReg_plain (.inl rfl) hp).1]
  exact List.mem_singleton_self _

/-- A port that loses sync; a frame broken by it counts. -/
theorem syncLost_port {p : Nat} (hp : p < 4) (b : Bool) (s : State) :
    bit (regGet (syncLost p b s) (0xF28014 + p)) 19 = false ∧
      (b = true → regGet (syncLost p b s) (0xF2801C + p) = regGet s (0xF2801C + p) + 1) ∧ (b = false → regsBut [0xF28014 + p] s (syncLost p b s)) ∧
      regsButEvents [0xF28014 + p, 0xF2801C + p] s (syncLost p b s) ∧ ∀ q, portUp (syncLost p b s) q = portUp (setUp p false s) q := by
  have run : syncLost p b s = whenB b (discardFrame (0xF2801C + p)) (setUp p false s) := if_pos hp
  obtain ⟨shown, regs, parts⟩ := setUp_spec hp false s
  obtain ⟨own, plain⟩ := portReg_plain (.inr rfl : 0xF2801C = 0xF28014 ∨ 0xF2801C = 0xF2801C) hp
  obtain ⟨ownUp, plainUp⟩ := portReg_plain (.inl rfl : 0xF28014 = 0xF28014 ∨ 0xF28014 = 0xF2801C) hp
  have wide : touches (orEvents [0xF28014 + p, 0xF2801C + p]) s (setUp p false s) :=
    touches_mono regs fun a h => .inl (List.mem_cons.mpr (.inl (List.mem_singleton.mp h)))
  rw [run]
  generalize setUp p false s = v at shown regs parts wide
  cases b with
  | false => exact ⟨shown, fun h => (by cases h), fun _ => regsBut_of_touches regs, regsButEvents_of_touches wide, fun _ => rfl⟩
  | true =>
    obtain ⟨counted, lk, -, others⟩ := discardFrame_spec plain own v
    rw [show whenB true (discardFrame (0xF2801C + p)) v = discardFrame (0xF2801C + p) v from if_pos rfl]
    have other : regGet v (0xF2801C + p) = regGet s (0xF2801C + p) :=
      regs.regGet (by rw [own]; simp)
    have kept : regGet (discardFrame (0xF2801C + p) v) (0xF28014 + p) = regGet v (0xF28014 + p) :=
      others.regGet (not_orEvents (by rw [ownUp]; simp) plainUp)
    refine ⟨(congrArg (bit · 19) kept).trans shown, fun _ => counted.trans (congrArg (· + 1) other), fun h => (by cases h), ?_, fun q => ?_⟩
    · exact regsButEvents_of_touches (touches_trans wide (touches_mono others (orEvents_mono fun a h => List.mem_cons_of_mem _ h)))
    · exact congrArg (fun l : Link => l.up.getLsbD q) lk

/-- The pair lane that loses sync; a frame broken by it counts. -/
theorem syncLost_lane (b : Bool) (s : State) :
    (syncLost 4 b s).pr.laneUp = false ∧ bit (regGet (syncLost 4 b s) 0xF30002) 16 = false ∧
      (b = true → regGet (syncLost 4 b s) 0xF30011 = regGet s 0xF30011 + 1) ∧ regsBut [0xF30002, 0xF30011] s (syncLost 4 b s) ∧
      (syncLost 4 b s).lk = s.lk := by
  have run : syncLost 4 b s = whenB b (count 0xF30011) (putBit 0xF30002 16 false { s with pr := { s.pr with laneUp := false } }) := rfl
  have down : (putBit 0xF30002 16 false { s with pr := { s.pr with laneUp := false } }).pr.laneUp = false := by rw [putBit_pr]
  have shown : bit (regGet (putBit 0xF30002 16 false { s with pr := { s.pr with laneUp := false } }) 0xF30002) 16 = false := bit_putBit_same _ _ _ (by decide)
  have regs : touches (· ∈ [0xF30002, 0xF30011]) s (putBit 0xF30002 16 false { s with pr := { s.pr with laneUp := false } }) :=
    touches_putBit 16 false (by decide) (touches_same (touches_refl _ s) rfl rfl)
  have other : regGet (putBit 0xF30002 16 false { s with pr := { s.pr with laneUp := false } }) 0xF30011 = regGet s 0xF30011 := by
    rw [regGet_putBit, if_neg (by decide)]
    exact regGet_of_regs rfl _
  have lk : (putBit 0xF30002 16 false { s with pr := { s.pr with laneUp := false } }).lk = s.lk := putBit_lk ..
  rw [run]
  generalize putBit 0xF30002 16 false { s with pr := { s.pr with laneUp := false } } = v at down shown regs other lk
  cases b with
  | false => exact ⟨down, shown, fun h => (by cases h), regsBut_of_touches regs, lk⟩
  | true =>
    have parts : sameBut [.regs, .held] v (count 0xF30011 v) := (count_keeps _ (by decide) (keeps_refl _ v)).parts
    refine ⟨(congrArg Pair.laneUp (parts.pr (by decide)) :).trans down, ?_, fun _ => (count_regGet_same _ v).trans (congrArg (· + 1) other),
      regsBut_of_touches (touches_count (by decide) regs), (parts.lk (by decide)).trans lk⟩
    have kept : touches (· ∈ [0xF30011]) v (count 0xF30011 v) := touches_count (by decide) (touches_refl _ v)
    exact (congrArg (bit · 16) (kept.regGet (a := 0xF30002) (by decide))).trans shown

theorem port_sync_lost (s : State) (p : PortId) (b : Bool) :
    ∃ u, exec (.linkPortSyncLost p b) s = .next u ∧
      (∀ q : Fin 4, q.val = p.val → portUp u q = false ∧ bit (regGet u (0xF28014 + p.val)) 19 = false ∧
        (b = true → regGet u (0xF2801C + p.val) = regGet s (0xF2801C + p.val) + 1) ∧ (b = false → regsBut [0xF28014 + p.val] s u) ∧
        regsButEvents [0xF28014 + p.val, 0xF2801C + p.val] s u) ∧
      (p.val = 4 → u.pr.laneUp = false ∧ bit (regGet u 0xF30002) 16 = false ∧
        (b = true → regGet u 0xF30011 = regGet s 0xF30011 + 1) ∧ regsBut [0xF30002, 0xF30011] s u) ∧
      (∀ q : Fin 4, q.val ≠ p.val → portUp u q = portUp s q) ∧ sameBut [.lk, .pr, .regs, .held, .pg, .bv, .pc] s u := by
  refine ⟨syncLost p.val b s, rfl, fun q hq => ?_, fun hp => ?_, fun q hq => ?_, (syncLost_keeps p.val b (by decide) (keeps_refl _ s)).parts⟩
  · have hp : p.val < 4 := hq ▸ q.isLt
    obtain ⟨shown, counted, quiet, regs, up⟩ := syncLost_port hp b s
    exact ⟨(up q).trans ((portUp_setUp p.val hp false s q).trans (if_pos hq)), shown, counted, quiet, regs⟩
  · rw [hp]
    obtain ⟨down, shown, counted, regs, -⟩ := syncLost_lane b s
    exact ⟨down, shown, counted, regs⟩
  · by_cases hp : p.val < 4
    · exact ((syncLost_port hp b s).2.2.2.2 q).trans ((portUp_setUp p.val hp false s q).trans (if_neg hq))
    · have hp4 : p.val = 4 := by have := p.isLt; omega
      rw [hp4]
      obtain ⟨-, -, -, -, lk⟩ := syncLost_lane b s
      exact congrArg (fun l : Link => l.up.getLsbD q) lk

theorem port_sync_acquired (s : State) (p : PortId) :
    ∃ u, exec (.portSyncAcquired p) s = .next u ∧
      (∀ q : Fin 4, q.val = p.val → portUp u q = true ∧ bit (regGet u (0xF28014 + p.val)) 19 = true ∧ regsBut [0xF28014 + p.val] s u) ∧
      (p.val = 4 → u.pr.laneUp = true ∧ bit (regGet u 0xF30002) 16 = true ∧ regsBut [0xF30002] s u) ∧
      (∀ q : Fin 4, q.val ≠ p.val → portUp u q = portUp s q) ∧ sameBut [.lk, .pr, .regs, .held] s u := by
  have lane : p.val = 4 → syncAcquired p.val s = putBit 0xF30002 16 true { s with pr := { s.pr with laneUp := true } } := fun hp => if_neg (by omega)
  have port : p.val < 4 → syncAcquired p.val s = setUp p.val true s := fun hp => if_pos hp
  refine ⟨syncAcquired p.val s, rfl, fun q hq => ?_, fun hp => ?_, fun q hq => ?_, (syncAcquired_keeps p.val (by decide) (keeps_refl _ s)).parts⟩
  · have hp : p.val < 4 := hq ▸ q.isLt
    obtain ⟨shown, regs, -⟩ := setUp_spec hp true s
    rw [port hp]
    exact ⟨(portUp_setUp p.val hp true s q).trans (if_pos hq), shown, regsBut_of_touches regs⟩
  · rw [lane hp]
    exact ⟨congrArg Pair.laneUp (putBit_pr ..), bit_putBit_same _ _ _ (by decide),
      regsBut_of_touches (touches_putBit 16 true (by decide) (touches_same (touches_refl _ s) rfl rfl))⟩
  · by_cases hp : p.val < 4
    · rw [port hp]
      exact (portUp_setUp p.val hp true s q).trans (if_neg hq)
    · rw [lane (by have := p.isLt; omega)]
      exact congrArg (fun l : Link => l.up.getLsbD q) (putBit_lk ..)

/-! ### System time -/

theorem clampI_eq {lo hi : Int} (h : lo ≤ hi) (v : Int) : clampI lo hi v = max lo (min hi v) := by
  unfold clampI
  split
  · omega
  · split <;> omega

/-- LOCKED is as it is told, and nothing else of the time changes. -/
theorem timeLocked_spec (on : Bool) (s : State) :
    bitOf (timeLocked on s) 0xF28025 19 = on ∧ bit (regGet (timeLocked on s) 0xF28025) 18 = bit (regGet s 0xF28025) 18 ∧
      (timeLocked on s).time = s.time ∧ touches (orEvents [0xF28025]) s (timeLocked on s) := by
  unfold timeLocked
  split
  next same => exact ⟨eq_of_beq same, rfl, rfl, touches_refl _ s⟩
  next =>
    have events : onlyEvents (putBit 0xF28025 19 on s) (raiseEvent 87 (putBit 0xF28025 19 on s)) := raiseEvent_onlyEvents (by decide) (onlyEvents_refl _)
    refine ⟨?_, ?_, (events.parts.time (by decide)).trans (putBit_time ..), touches_events (touches_putBit 19 on (.inl (by decide)) (touches_refl _ s)) events⟩
    · have kept := (events.regs 0xF28025 (by decide) (by decide)).2
      exact (congrArg (bit · 19) kept).trans (bitOf_putBit_same _ _ _ (by decide))
    · rw [events.regGet (by decide), bit_putBit_other _ _ _ (by decide) (by decide)]

/-- A state with another disciplined time. -/
def withTime (x : TimeSt) (s : State) : State := { s with time := x }

theorem regGet_withTime (x : TimeSt) (s : State) (a : Nat) : regGet (withTime x s) a = regGet s a := regGet_of_regs rfl a

theorem withTime_touches {A : Nat → Prop} (x : TimeSt) (h : touches A o s) : touches A o (withTime x s) := touches_same h rfl rfl

/-- What a first rising edge of PPS makes of system time. -/
def steppedTime (s : State) : TimeSt :=
  { offset := s.time.offset - slewDone s s.now - ppsError (sysTime s), slew := 0, stepped := true, good := 0, tEdge := some s.now }

/-- What a later rising edge of PPS makes of it. -/
def slewedTime (s : State) : TimeSt :=
  { offset := s.time.offset - slewDone s s.now, slew := clampI (-20000) 20000 (ppsError (sysTime s)), stepped := true,
    good := if |ppsError (sysTime s)| ≤ 40 then min 4 (s.time.good + 1) else 0, tEdge := some s.now }

theorem ppsDiscipline_first (first : s.time.stepped = false) :
    ppsDiscipline s = putBit 0xF28025 17 true (withTime (steppedTime s) (putBit 0xF28025 18 false s)) := by
  unfold ppsDiscipline
  simp only [first]
  rfl

/-- The state in which a later edge has set the slew and its error is shown. -/
def slewed (s : State) : State :=
  putFld 0xF28025 11 0 (wrapN 12 (clampI (-2047) 2047 (ppsError (sysTime s)))) (withTime (slewedTime s) (putBit 0xF28025 18 false s))

theorem ppsDiscipline_later (later : s.time.stepped = true) :
    ppsDiscipline s = if 100 < |ppsError (sysTime s)| then timeLocked false (slewed s)
      else if (slewedTime s).good = 4 then timeLocked true (slewed s) else slewed s := by
  unfold ppsDiscipline
  simp only [later]
  rfl

theorem ppsDiscipline_spec (s : State) :
    (ppsDiscipline s).time = (if s.time.stepped then slewedTime s else steppedTime s) ∧
      bit (regGet (ppsDiscipline s) 0xF28025) 18 = false ∧
      (s.time.stepped = true → (100 < |ppsError (sysTime s)| → bitOf (ppsDiscipline s) 0xF28025 19 = false) ∧
        (|ppsError (sysTime s)| ≤ 40 → 3 ≤ s.time.good → bitOf (ppsDiscipline s) 0xF28025 19 = true)) ∧
      touches (orEvents [0xF28025]) s (ppsDiscipline s) := by
  have lit : orEvents [0xF28025] (canonAddr 0xF28025) := .inl (by decide)
  cases steps : s.time.stepped with
  | false =>
    rw [ppsDiscipline_first steps]
    refine ⟨putBit_time .., ?_, fun h => (by cases h), touches_putBit 17 true lit (withTime_touches _ (touches_putBit 18 false lit (touches_refl _ s)))⟩
    rw [bit_putBit_other _ _ _ (by decide) (by decide), regGet_withTime]
    exact bit_putBit_same 0xF28025 false s (by decide)
  | true =>
    have time : (slewed s).time = slewedTime s := putFld_time ..
    have held : bit (regGet (slewed s) 0xF28025) 18 = false := by
      unfold slewed
      rw [regGet_putFld, if_pos rfl, bit_setFld_other _ _ (by decide) (by decide) (by decide), regGet_withTime]
      exact bit_putBit_same 0xF28025 false s (by decide)
    have regs : touches (orEvents [0xF28025]) s (slewed s) :=
      touches_putFld 11 0 _ lit (withTime_touches _ (touches_putBit 18 false lit (touches_refl _ s)))
    rw [ppsDiscipline_later steps]
    by_cases wide : 100 < |ppsError (sysTime s)|
    · obtain ⟨locked, shown, same, others⟩ := timeLocked_spec false (slewed s)
      rw [if_pos wide]
      exact ⟨same.trans time, shown.trans held, fun _ => ⟨fun _ => locked, fun h => by omega⟩, touches_trans regs others⟩
    · rw [if_neg wide]
      by_cases four : (slewedTime s).good = 4
      · obtain ⟨locked, shown, same, others⟩ := timeLocked_spec true (slewed s)
        rw [if_pos four]
        exact ⟨same.trans time, shown.trans held, fun _ => ⟨fun h => absurd h wide, fun _ _ => locked⟩, touches_trans regs others⟩
      · rw [if_neg four]
        refine ⟨time, held, fun _ => ⟨fun h => absurd h wide, fun near most => absurd ?_ four⟩, regs⟩
        have e : (slewedTime s).good = min 4 (s.time.good + 1) := if_pos near
        omega

theorem pps_rising (s : State) (t : Nat) (en : bitOf s 0xF28024 19 = true) (lead : s.lk.st = .lead) (later : s.now ≤ t) :
    ∃ u, exec (.timePpsEdge ⟨true, t⟩) s = .next u ∧ u.now = t ∧ u.time.tEdge = some t ∧ bit (regGet u 0xF28025) 18 = false ∧
      (s.time.stepped = false → u.time.stepped = true ∧ u.time.slew = 0 ∧
        u.time.offset = s.time.offset - slewDone s t - ppsError (sysTimeAt s t)) ∧
      (s.time.stepped = true → u.time.slew = max (-20000) (min 20000 (ppsError (sysTimeAt s t))) ∧
        (|ppsError (sysTimeAt s t)| ≤ 40 → 3 ≤ s.time.good → bitOf u 0xF28025 19 = true) ∧
        (100 < |ppsError (sysTimeAt s t)| → bitOf u 0xF28025 19 = false)) ∧
      sameBut [.now, .time, .regs, .held, .pg, .bv, .pc] s u ∧ regsButEvents [0xF28025] s u := by
  have now : (advance t s).now = t := max_eq_right later
  have at_t : sysTime (advance t s) = sysTimeAt s t := congrArg (sysTimeAt s) now
  have done : slewDone (advance t s) (advance t s).now = slewDone s t := congrArg (slewDone s) now
  have acts : (if bitOf (advance t s) 0xF28024 19 && (advance t s).lk.st == .lead then ppsDiscipline (advance t s) else advance t s) = ppsDiscipline (advance t s) :=
    if_pos (by rw [show bitOf (advance t s) 0xF28024 19 = true from en, show (advance t s).lk.st = .lead from lead]; rfl)
  have run : exec (.timePpsEdge ⟨true, t⟩) s = .next (ppsEdge (advance t s)) := rfl
  have edge : ppsEdge (advance t s) = bvPin 0x40 true (raiseEvent 86 (ppsDiscipline (advance t s))) := by
    unfold ppsEdge
    rw [acts]
  have begun : sameBut [.now] s (advance t s) := (keeps_now _ (by decide) (keeps_refl [.now] s)).parts
  have parts := (ppsEdge_keeps (L := [.regs, .held, .pg, .bv, .time, .pc]) (by decide) (keeps_refl _ (advance t s))).parts
  obtain ⟨time, held, locked, regs⟩ := ppsDiscipline_spec (advance t s)
  have events : onlyEvents (ppsDiscipline (advance t s)) (ppsEdge (advance t s)) :=
    edge ▸ bvPin_onlyEvents 0x40 true (raiseEvent_onlyEvents (by decide) (onlyEvents_refl _))
  generalize ppsDiscipline (advance t s) = v at time held locked regs events
  generalize ppsEdge (advance t s) = u at run parts events
  have timeU : u.time = if s.time.stepped then slewedTime (advance t s) else steppedTime (advance t s) := (events.parts.time (by decide)).trans time
  have lock : bitOf u 0xF28025 19 = bitOf v 0xF28025 19 := congrArg (bit · 19) (events.regs 0xF28025 (by decide) (by decide)).2
  rw [at_t] at locked
  refine ⟨u, run, (parts.now (by decide)).trans now, ?_, (congrArg (bit · 18) (events.regGet (by decide))).trans held, fun first => ?_, fun again => ?_,
    sameBut_trans (sameBut_mono (by decide) begun) (sameBut_mono (by decide) parts),
    regsButEvents_of_touches (touches_trans (touches_of_sameBut begun (by decide) (by decide)) (touches_events regs events))⟩
  · rw [timeU]
    cases s.time.stepped <;> exact congrArg some now
  · rw [timeU, first, if_neg (by decide)]
    refine ⟨rfl, rfl, ?_⟩
    show s.time.offset - slewDone (advance t s) (advance t s).now - ppsError (sysTime (advance t s)) = _
    rw [done, at_t]
  · obtain ⟨lost, gained⟩ := locked again
    refine ⟨?_, fun near most => lock.trans (gained near most), fun far => lock.trans (lost far)⟩
    rw [timeU, again, if_pos rfl, ← clampI_eq (by decide), ← at_t]
    rfl

theorem pps_holdover (s : State) (en : bitOf s 0xF28024 19 = true) (lead : s.lk.st = .lead) :
    ∃ u, exec .ppsHoldover s = .next u ∧ bit (regGet u 0xF28025) 18 = true ∧ bitOf u 0xF28025 19 = false ∧ u.time.good = 0 ∧
      sameBut [.time, .regs, .held, .pg, .bv, .pc] s u ∧ regsButEvents [0xF28025] s u := by
  have run : ppsHoldover s = timeLocked false (putBit 0xF28025 18 true { s with time := { s.time with good := 0 } }) :=
    if_pos (by rw [en, lead]; rfl)
  have parts := (ppsHoldover_keeps (L := [.time, .regs, .held, .pg, .bv, .pc]) (by decide) (keeps_refl _ s)).parts
  obtain ⟨lost, shown, time, regs⟩ := timeLocked_spec false (putBit 0xF28025 18 true { s with time := { s.time with good := 0 } })
  have out : exec .ppsHoldover s = .next (ppsHoldover s) := rfl
  rw [run] at parts out
  refine ⟨_, out, shown.trans (bit_putBit_same _ _ _ (by decide)), lost, ?_, parts, regsButEvents_of_touches
    (touches_trans (touches_putBit 18 true (.inl (by decide)) (touches_same (touches_refl _ s) rfl rfl)) regs)⟩
  rw [time, putBit_time]

theorem pps_falling (s : State) (t : Nat) : ∃ u, exec (.timePpsEdge ⟨false, t⟩) s = .next u ∧ u.now = max s.now t ∧ sameBut [.now, .bv] s u := by
  have begun : sameBut [.now] s (advance t s) := (keeps_now _ (by decide) (keeps_refl [.now] s)).parts
  have parts := (bvPin_keeps (L := [.bv]) 0x40 false (by decide) (keeps_refl _ (advance t s))).parts
  exact ⟨bvPin 0x40 false (advance t s), rfl, parts.now (by decide), sameBut_trans (sameBut_mono (by decide) begun) (sameBut_mono (by decide) parts)⟩

/-- Settles O37. -/
theorem portsAndSystemTime : Obligations.PortsAndSystemTime :=
  ⟨port_sync_lost, port_sync_acquired, pps_rising, pps_falling, pps_holdover⟩

end Sys2Proof.Machine
end

