-- ==== Sys2Proof/Proofs/PairLaneFrames.lean ====
section
/-! PROOFS. Frames of the pair lane (08 R229-R231, R234, R235, R237-R239, R241, R242, R245). -/

namespace Sys2Proof.Machine

variable {o s t : State}

/-! ### The axes of the engine -/

theorem engineAxes_of_touches {as : List Nat} (h : touches (orEvents as) s t) (out : ∀ a ∈ as, 0xF20000 ≤ a ∧ a ≠ 0xF54002) :
    engineAxes t = engineAxes s := by
  have count : axisCount t = axisCount s := by
    unfold axisCount modeOf
    rw [h.fldOf (a := 0xF54002) (not_orEvents (a := 0xF54002) (fun k => (out _ k).2 rfl) (by decide)) 19 18]
  unfold engineAxes
  rw [count]
  refine List.filter_congr fun a ha => ?_
  have small := Nat.lt_of_lt_of_le (List.mem_range.mp ha) (axisCount_le s)
  have own : canonAddr (svBase a) = svBase a := if_neg (by unfold svBase; omega)
  have window : ¬orEvents as (canonAddr (svBase a)) := by
    rw [own]
    refine not_orEvents (fun k => ?_) ?_
    · have := (out _ k).1
      unfold svBase at this
      omega
    · unfold svBase
      simp [eventReg]
      omega
  unfold svOut svJpart
  rw [h.fldOf window, h.bitOf window]

theorem allBatches_of_touches {as : List Nat} (h : touches (orEvents as) s t) (out : ∀ a ∈ as, 0xF20000 ≤ a ∧ a ≠ 0xF54002) :
    allBatches t = allBatches s := by
  unfold allBatches batchCount
  rw [engineAxes_of_touches h out]

theorem batchAxes_of_touches {as : List Nat} (h : touches (orEvents as) s t) (out : ∀ a ∈ as, 0xF20000 ≤ a ∧ a ≠ 0xF54002) (b : Nat) :
    batchAxes t b = batchAxes s b := by
  unfold batchAxes
  rw [engineAxes_of_touches h out]

/-! ### The checks of every frame -/

theorem onFrame_code {k : RxCheck} {e : Nat} {f : State → State} (counts : linkCounts s = true) (pair : paired s = true)
    (bad : s.pr.laneUp = false ∨ k = .code) : onFrame k e f s = count 0xF30011 s := by
  have check : (if s.pr.laneUp then k else .code) = RxCheck.code := by
    rcases bad with down | rfl
    · rw [down]
      rfl
    · exact ite_self _
  have lane : laneFrame k e s = (count 0xF30011 s, false) := by
    unfold laneFrame
    rw [if_neg (by rw [pair, counts]; decide), check]
  unfold onFrame
  rw [lane]
  rfl

theorem onFrame_invalid {k : RxCheck} {e : Nat} {f : State → State} (counts : linkCounts s = true) (pair : paired s = true)
    (up : s.pr.laneUp = true) (bad : k ∈ [RxCheck.crc, .format, .address]) : onFrame k e f s = count 0xF30010 s := by
  have lane : laneFrame k e s = (count 0xF30010 s, false) := by
    unfold laneFrame
    rw [if_neg (by rw [pair, counts]; decide), if_pos up]
    cases k with
    | crc => rfl
    | format => rfl
    | address => rfl
    | code => exact absurd bad (by decide)
    | ok => exact absurd bad (by decide)
  unfold onFrame
  rw [lane]
  rfl

theorem onFrame_stale {e : Nat} {f : State → State} (counts : linkCounts s = true) (pair : paired s = true) (up : s.pr.laneUp = true)
    (st : s.lk.st ≠ .off) (old : serialOlder 16 e s.lk.epoch = true) : onFrame .ok e f s = count 0xF3000B s := by
  have on : linkOn s = true := bne_iff_ne.mpr st
  have lane : laneFrame .ok e s = (count 0xF3000B s, false) := by
    unfold laneFrame
    rw [if_neg (by rw [pair, counts]; decide), if_pos up]
    exact (if_neg (by rw [on]; decide)).trans (if_pos old)
  unfold onFrame
  rw [lane]
  rfl

/-- The state in which a frame has passed the checks of the lane. -/
def laneHeard (s : State) : State := putBit 0xF30002 13 false (setPr { s.pr with heardLane := true, lost := false } s)

theorem onFrame_taken {e : Nat} {f : State → State} (counts : linkCounts s = true) (pair : paired s = true) (up : s.pr.laneUp = true)
    (st : s.lk.st ≠ .off) (same : e = s.lk.epoch) : onFrame .ok e f s = f (laneHeard s) := by
  have on : linkOn s = true := bne_iff_ne.mpr st
  have lane : laneFrame .ok e s = (laneHeard s, true) := by
    unfold laneFrame
    rw [if_neg (by rw [pair, counts]; decide), if_pos up]
    refine (if_neg (by rw [on]; decide)).trans ((if_neg ?_).trans ((if_neg ?_).trans rfl))
    · rw [same, serialOlder_self]
      decide
    · rw [same, serialNewer_self]
      exact fun h => absurd h.2 (by decide)
  unfold onFrame
  rw [lane]
  rfl

theorem setPr_parts (p : Pair) (s : State) : sameBut [.pr] s (setPr p s) := (keeps_pr _ (by decide) (keeps_refl [.pr] s)).parts

theorem laneHeard_parts (s : State) : sameBut [.pr, .regs, .held] s (laneHeard s) :=
  (putBit_keeps 0xF30002 13 false (by decide) (keeps_pr { s.pr with heardLane := true, lost := false } (by decide) (keeps_refl [.pr, .regs, .held] s))).parts

theorem laneHeard_pr (s : State) : (laneHeard s).pr = { s.pr with heardLane := true, lost := false } := putBit_pr ..

theorem laneHeard_touches (s : State) : touches (· ∈ [0xF30002]) s (laneHeard s) :=
  touches_putBit 13 false (by decide) (touches_of_sameBut (setPr_parts _ s) (by decide) (by decide))

theorem laneHeard_found (s : State) : bit (regGet (laneHeard s) 0xF30002) 13 = false := bit_putBit_same _ _ _ (by decide)

theorem isStandby_of (sys : t.sys = s.sys) (active : t.pr.active = s.pr.active) (pair : paired t = paired s) : isStandby t = isStandby s := by
  unfold isStandby
  rw [sys, active, pair]

theorem laneHeard_paired (s : State) : paired (laneHeard s) = paired s := (laneHeard_touches s).bitOf (a := 0xF28000) (by decide) 18

theorem laneHeard_isStandby (s : State) : isStandby (laneHeard s) = isStandby s :=
  isStandby_of ((laneHeard_parts s).sys (by decide)) (congrArg Pair.active (laneHeard_pr s) :) (laneHeard_paired s)

/-- Every command of the pair lane takes its frame through the checks. -/
theorem laneCommand (e : BitVec 16) (cmd : RxCheck → Instr) (h : (∃ x, cmd = fun k => .stateReceived k e x) ∨ (∃ x y z, cmd = fun k => .incReceived k e x y z) ∨
    (∃ x y z, cmd = fun k => .inReceived k e x y z) ∨ (∃ x y z, cmd = fun k => .sigReceived k e x y z) ∨ (∃ x, cmd = fun k => .dresReceived k e x) ∨
    (∃ x, cmd = fun k => .bndReceived k e x) ∨ (∃ x, cmd = fun k => .adoptReceived k e x) ∨ (∃ x, cmd = fun k => .failReceived k e x) ∨
    (∃ x, cmd = fun k => .xreqReceived k e x) ∨ ∃ x y, cmd = fun k => .xackReceived k e x y) :
    ∃ f, ∀ k s, exec (cmd k) s = .next (onFrame k e.toNat f s) := by
  rcases h with ⟨x, rfl⟩ | ⟨x, y, z, rfl⟩ | ⟨x, y, z, rfl⟩ | ⟨x, y, z, rfl⟩ | ⟨x, rfl⟩ | ⟨x, rfl⟩ | ⟨x, rfl⟩ | ⟨x, rfl⟩ | ⟨x, rfl⟩ | ⟨x, y, rfl⟩ <;>
    exact ⟨_, fun _ _ => rfl⟩

/-- A frame that does no more than count. -/
theorem counted {a : Nat} (own : canonAddr a = a) (s : State) :
    regGet (count a s) a = regGet s a + 1 ∧ sameBut [.regs, .held] s (count a s) ∧ regsBut [a] s (count a s) :=
  ⟨count_regGet_same a s, (count_keeps _ (by decide) (keeps_refl _ s)).parts,
    regsBut_of_touches (touches_count (by rw [own]; exact List.mem_singleton_self a) (touches_refl _ s))⟩

/-! ### STATE -/

/-- The partner's STATE as the unit keeps it, before what it makes of it. -/
def stateKept (u : StateIn) (s : State) : State :=
  setPr { s.pr with partnerCfgSig := some u.cfgsig.toNat, partnerEpoch := if s.lk.st == .listen || s.lk.st == .coldstart then some u.stored.toNat else s.pr.partnerEpoch,
                    partnerRole := u.role.toNat, partnerState := true, jRecv := u.j.toNat, cfgDiff := u.cfgsig.toNat != s.ks.cfgSig } s

/-- … and with the mains phase that a standby takes, and the difference of configuration shown. -/
def stateTaken (u : StateIn) (s : State) : State :=
  putBit 0xF30002 10 (u.cfgsig.toNat != s.ks.cfgSig)
    (if u.act && !(stateKept u s).pr.active then { stateKept u s with mains := { s.mains with j := u.j.toNat } } else stateKept u s)

theorem stateTaken_spec (u : StateIn) (s : State) :
    (stateTaken u s).pr = (stateKept u s).pr ∧ bit (regGet (stateTaken u s) 0xF30002) 10 = (u.cfgsig.toNat != s.ks.cfgSig) ∧
      bit (regGet (stateTaken u s) 0xF30002) 13 = bit (regGet s 0xF30002) 13 ∧
      (u.act = true → s.pr.active = false → (stateTaken u s).mains.j = u.j.toNat) ∧
      sameBut [.pr, .mains, .regs, .held] s (stateTaken u s) ∧ touches (· ∈ [0xF30002]) s (stateTaken u s) := by
  have kept : sameBut [.pr, .mains] s (stateKept u s) := sameBut_mono (by decide) (setPr_parts _ s)
  have active : (stateKept u s).pr.active = s.pr.active := rfl
  have inner : ∃ v, stateTaken u s = putBit 0xF30002 10 (u.cfgsig.toNat != s.ks.cfgSig) v ∧ v.pr = (stateKept u s).pr ∧ sameBut [.pr, .mains] s v ∧
      (u.act = true → s.pr.active = false → v.mains.j = u.j.toNat) := by
    refine ⟨_, rfl, ?_⟩
    rw [active]
    split
    next => exact ⟨rfl, sameBut_trans kept (keeps_mains _ (by decide) (keeps_refl [.pr, .mains] (stateKept u s))).parts, fun _ _ => rfl⟩
    next no => exact ⟨rfl, kept, fun act passive => absurd (by rw [act, passive]; rfl) no⟩
  obtain ⟨v, run, pr, parts, phase⟩ := inner
  rw [run]
  have same : regGet v 0xF30002 = regGet s 0xF30002 := regGet_of_regs (parts.regs (by decide)) _
  refine ⟨(putBit_pr ..).trans pr, bit_putBit_same _ _ _ (by decide), ?_, fun act passive => ?_,
    sameBut_trans (sameBut_mono (by decide) parts) (putBit_keeps _ _ _ (by decide) (keeps_refl _ v)).parts,
    touches_putBit 10 _ (by decide) (touches_of_sameBut parts (by decide) (by decide))⟩
  · rw [bit_putBit_other _ _ _ (by decide) (by decide), same]
  · rw [putBit_mains]
    exact phase act passive

theorem followEpoch_same {e : Nat} (same : e = s.lk.epoch) : followEpoch e s = s :=
  if_neg (by rw [same, serialNewer_self, Bool.and_false]; decide)

/-- What the kept STATE leads to, in a state whose epoch is the partner's. -/
def stateActs (e was : Nat) (diff : Bool) (u : StateIn) (s : State) : State :=
  if s.sys.op = .join ∧ s.lk.st = .follow ∧ u.role.toNat = 1 ∧ !diff ∧ u.unitB ≠ lkUnitB s ∧ !bitOf s 0xF28009 16 then enterStandby e s
  else if s.pr.active && partnerAnew was u then unalignAll s
  else s

theorem takeState_sameEpoch {e : Nat} {u : StateIn} (same : e = s.lk.epoch) :
    takeState e u s = stateActs e s.pr.partnerRole (u.cfgsig.toNat != s.ks.cfgSig) u (stateTaken u s) := by
  have epoch : (stateTaken u s).lk.epoch = s.lk.epoch := congrArg Link.epoch ((stateTaken_spec u s).2.2.2.2.1.lk (by decide))
  have third : (if (stateTaken u s).sys.op = .join then stateTaken u s else followEpoch e (stateTaken u s)) = stateTaken u s := by
    rw [followEpoch_same (same.trans epoch.symm), ite_self]
  exact congrArg (stateActs e s.pr.partnerRole (u.cfgsig.toNat != s.ks.cfgSig) u) third

/-- A bit of PR_STAT that showing the role leaves. -/
theorem showRole_bit {c : Nat} (lo : 6 ≤ c) (hi : c < 17) (s : State) : bit (regGet (showRole s) 0xF30002) c = bit (regGet s 0xF30002) c := by
  have first : bit (regGet (putFld 0xF30002 5 0 s.pr.unaligned.length s) 0xF30002) c = bit (regGet s 0xF30002) c := by
    rw [regGet_putFld, if_pos rfl, bit_setFld_other _ _ (by decide) (by decide) (by omega)]
  have run : showRole s = if fldOf (putFld 0xF30002 5 0 s.pr.unaligned.length s) 0xF30002 19 17 = roleNow s
    then putFld 0xF30002 5 0 s.pr.unaligned.length s
    else raiseEvent 25 (putFld 0xF30002 19 17 (roleNow s) (putFld 0xF30002 5 0 s.pr.unaligned.length s)) := rfl
  generalize putFld 0xF30002 5 0 s.pr.unaligned.length s = t at first run
  rw [run]
  split
  next => exact first
  next =>
    have events : onlyEvents (putFld 0xF30002 19 17 (roleNow s) t) (raiseEvent 25 (putFld 0xF30002 19 17 (roleNow s) t)) :=
      raiseEvent_onlyEvents (by decide) (onlyEvents_refl _)
    rw [events.regGet (by decide), regGet_putFld, if_pos rfl, bit_setFld_other _ _ (by decide) (by decide) (by omega), first]

/-- Alignment lost in every batch. -/
theorem unalignAll_spec (s : State) :
    (unalignAll s).pr = { s.pr with unaligned := allBatches s, adoptStep := if s.pr.active then 1 else s.pr.adoptStep } ∧
      allBatches (unalignAll s) = allBatches s ∧ touches (orEvents [0xF30002]) s (unalignAll s) ∧
      (∀ c, 6 ≤ c → c < 17 → bit (regGet (unalignAll s) 0xF30002) c = bit (regGet s 0xF30002) c) ∧
      sameBut [.regs, .held, .pg, .bv, .pr, .pc] s (unalignAll s) := by
  obtain ⟨-, regs, parts⟩ := showRole_spec (setPr { s.pr with unaligned := allBatches s, adoptStep := if s.pr.active then 1 else s.pr.adoptStep } s)
  have begun := setPr_parts { s.pr with unaligned := allBatches s, adoptStep := if s.pr.active then 1 else s.pr.adoptStep } s
  have all : touches (orEvents [0xF30002]) s (unalignAll s) := touches_trans (touches_of_sameBut begun (by decide) (by decide)) regs
  refine ⟨parts.pr (by decide), allBatches_of_touches all (by decide), all, fun c lo hi => ?_,
    sameBut_trans (sameBut_mono (by decide) begun) (sameBut_mono (by decide) parts)⟩
  exact (showRole_bit lo hi _).trans (congrArg (bit · c) (regGet_of_regs (begun.regs (by decide)) _))

/-- A unit that enters standby, before its epoch. -/
def standbyBegins (s : State) : State :=
  { s with sys := { s.sys with op := .runStandby }, pr := { s.pr with active := false, empty := 0 } }

theorem enterStandby_spec (e : Nat) (s : State) :
    (enterStandby e s).sys.op = .runStandby ∧
      (enterStandby e s).pr = { s.pr with active := false, empty := 0, unaligned := allBatches (enterStandby e s) } ∧
      touches (orEvents [0xF2800C, 0xF30002]) s (enterStandby e s) ∧
      (∀ c, 6 ≤ c → c < 17 → bit (regGet (enterStandby e s) 0xF30002) c = bit (regGet s 0xF30002) c) := by
  have run : enterStandby e s = unalignAll (startMotion (setEpoch e (standbyBegins s))) := rfl
  have begun : sameBut [.sys, .pr] s (standbyBegins s) :=
    (keeps_pr (s := { s with sys := { s.sys with op := .runStandby } }) { s.pr with active := false, empty := 0 } (by decide)
      (keeps_sys _ (by decide) (keeps_refl [.sys, .pr] s))).parts
  have epoch := setEpoch_spec e (standbyBegins s)
  have sysA : (setEpoch e (standbyBegins s)).sys.op = .runStandby := congrArg SysCtl.op epoch.sys
  have prA : (setEpoch e (standbyBegins s)).pr = { s.pr with active := false, empty := 0 } := epoch.parts.pr (by decide)
  rw [run]
  generalize setEpoch e (standbyBegins s) = a at epoch sysA prA
  have motion := (startMotion_keeps (L := [.mo, .sv, .gh]) (by decide) (keeps_refl _ a)).parts
  generalize startMotion a = b at motion
  have regsB : touches (orEvents [0xF2800C]) s b :=
    touches_sameBut (touches_trans (touches_of_sameBut begun (by decide) (by decide)) epoch.regs) motion (by decide) (by decide)
  have prB : b.pr = { s.pr with active := false, empty := 0 } := (motion.pr (by decide)).trans prA
  obtain ⟨pr, batches, regs, bits, parts⟩ := unalignAll_spec b
  refine ⟨?_, ?_, touches_trans (touches_mono regsB (orEvents_mono (by simp))) (touches_mono regs (orEvents_mono (by simp))), fun c lo hi => ?_⟩
  · rw [parts.sys (by decide), motion.sys (by decide), sysA]
  · rw [pr, prB, batches]
    rfl
  · rw [bits c lo hi]
    exact congrArg (bit · c) (regsB.regGet (a := 0xF30002) (not_orEvents (a := 0xF30002) (by decide) (by decide)))

/-- Whatever the kept STATE leads to, what was taken down stays. -/
theorem stateActs_keeps (e was : Nat) (diff : Bool) (u : StateIn) (s : State) :
    (stateActs e was diff u s).pr.partnerRole = s.pr.partnerRole ∧ (stateActs e was diff u s).pr.partnerEpoch = s.pr.partnerEpoch ∧
      (stateActs e was diff u s).pr.partnerCfgSig = s.pr.partnerCfgSig ∧ (stateActs e was diff u s).pr.jRecv = s.pr.jRecv ∧
      (stateActs e was diff u s).pr.heardLane = s.pr.heardLane ∧
      ∀ c, 6 ≤ c → c < 17 → bit (regGet (stateActs e was diff u s) 0xF30002) c = bit (regGet s 0xF30002) c := by
  unfold stateActs
  split
  next =>
    obtain ⟨-, pr, -, bits⟩ := enterStandby_spec e s
    rw [pr]
    exact ⟨rfl, rfl, rfl, rfl, rfl, bits⟩
  next =>
    split
    next =>
      obtain ⟨pr, -, -, bits, -⟩ := unalignAll_spec s
      rw [pr]
      exact ⟨rfl, rfl, rfl, rfl, rfl, bits⟩
    next => exact ⟨rfl, rfl, rfl, rfl, rfl, fun _ _ _ => rfl⟩

/-- Outside JOIN a STATE changes no more than the alignment. -/
theorem stateActs_running {e was : Nat} {diff : Bool} {u : StateIn} (run : s.sys.op ≠ .join) :
    (s.pr.active = true → partnerAnew was u = true →
      (stateActs e was diff u s).pr.unaligned = allBatches (stateActs e was diff u s) ∧ (stateActs e was diff u s).pr.adoptStep = 1) ∧
      sameBut [.regs, .held, .pg, .bv, .pr, .pc] s (stateActs e was diff u s) ∧ touches (orEvents [0xF30002]) s (stateActs e was diff u s) := by
  obtain ⟨pr, batches, regs, -, parts⟩ := unalignAll_spec s
  unfold stateActs
  rw [if_neg (fun h => run h.1)]
  split
  next h =>
    refine ⟨fun active _ => ⟨?_, ?_⟩, parts, regs⟩
    · rw [pr, batches]
    · rw [pr, active]
      rfl
  next h => exact ⟨fun active anew => absurd (by rw [active, anew]; rfl) h, sameBut_refl _ s, touches_refl _ s⟩

theorem state_received (s : State) (e : BitVec 16) (counts : linkCounts s = true) (pair : paired s = true) (st : s.lk.st ≠ .off)
    (up : s.pr.laneUp = true) (epoch : e.toNat = s.lk.epoch) (x : StateIn) :
    ∃ u, exec (.stateReceived .ok e x) s = .next u ∧ u.pr.partnerRole = x.role.toNat ∧
      u.pr.partnerEpoch = (if s.lk.st = .listen ∨ s.lk.st = .coldstart then some x.stored.toNat else s.pr.partnerEpoch) ∧
      u.pr.partnerCfgSig = some x.cfgsig.toNat ∧ u.pr.jRecv = x.j.toNat ∧ u.pr.heardLane = true ∧ bit (regGet u 0xF30002) 13 = false ∧
      bit (regGet u 0xF30002) 10 = decide (x.cfgsig.toNat ≠ s.ks.cfgSig) ∧
      (s.sys.op = .join → s.lk.st = .follow → x.role = 1 → x.cfgsig.toNat = s.ks.cfgSig → x.unitB ≠ lkUnitB s → bitOf s 0xF28009 16 = false →
        u.sys.op = .runStandby ∧ u.pr.active = false ∧ u.pr.unaligned = allBatches u) ∧
      (s.sys.op ≠ .join → s.pr.active = true → x.role = 2 → (s.pr.partnerRole ≠ 2 ∧ s.pr.partnerRole ≠ 3 ∨ x.status.getLsbD 5 = true) →
        u.pr.unaligned = allBatches u ∧ u.pr.adoptStep = 1) ∧
      (s.sys.op ≠ .join → (x.act = true → s.pr.active = false → u.mains.j = x.j.toNat) ∧
        sameBut [.pr, .regs, .held, .mains, .pg, .bv, .pc] s u ∧ regsButEvents [0xF30002] s u) := by
  have heardParts := laneHeard_parts s
  have heardPr := laneHeard_pr s
  have heardRegs := laneHeard_touches s
  have found := laneHeard_found s
  have run : exec (.stateReceived .ok e x) s = .next (takeState e.toNat x (laneHeard s)) :=
    congrArg Host.Outcome.next (onFrame_taken counts pair up st epoch)
  rw [takeState_sameEpoch (epoch.trans (congrArg Link.epoch (heardParts.lk (by decide)).symm))] at run
  generalize laneHeard s = v at run heardParts heardPr heardRegs found
  obtain ⟨takenPr, diffBit, lostBit, phase, takenParts, takenRegs⟩ := stateTaken_spec x v
  generalize stateTaken x v = w at run takenPr diffBit lostBit phase takenParts takenRegs
  have ks : v.ks = s.ks := heardParts.ks (by decide)
  have lkV : v.lk = s.lk := heardParts.lk (by decide)
  have lkW : w.lk = s.lk := (takenParts.lk (by decide)).trans lkV
  have sysW : w.sys = s.sys := (takenParts.sys (by decide)).trans (heardParts.sys (by decide))
  have regsW : touches (· ∈ [0xF30002]) s w := touches_trans heardRegs takenRegs
  have was : v.pr.partnerRole = s.pr.partnerRole := (congrArg Pair.partnerRole heardPr :)
  have active : w.pr.active = s.pr.active := (congrArg Pair.active takenPr :).trans (congrArg Pair.active heardPr :)
  rw [was, ks] at run
  obtain ⟨role, stored, cfg, phaseIn, heard, bits⟩ := stateActs_keeps e.toNat s.pr.partnerRole (x.cfgsig.toNat != s.ks.cfgSig) x w
  refine ⟨_, run, ?_, ?_, ?_, ?_, ?_, ?_, ?_, fun join follow lead same other calm => ?_, fun op act anew cause => ?_, fun op => ?_⟩
  · exact role.trans (congrArg Pair.partnerRole takenPr :)
  · rw [stored, (congrArg Pair.partnerEpoch takenPr :)]
    show (if v.lk.st == .listen || v.lk.st == .coldstart then some x.stored.toNat else v.pr.partnerEpoch) = _
    rw [lkV, (congrArg Pair.partnerEpoch heardPr :)]
    refine ite_congr ?_ (fun _ => rfl) (fun _ => rfl)
    simp
  · exact cfg.trans (congrArg Pair.partnerCfgSig takenPr :)
  · exact phaseIn.trans (congrArg Pair.jRecv takenPr :)
  · rw [heard, (congrArg Pair.heardLane takenPr :)]
    exact (congrArg Pair.heardLane heardPr :)
  · rw [bits 13 (by decide) (by decide), lostBit, found]
  · rw [bits 10 (by decide) (by decide), diffBit, ks]
    simp [bne, Bool.beq_eq_decide_eq]
  · have enters : stateActs e.toNat s.pr.partnerRole (x.cfgsig.toNat != s.ks.cfgSig) x w = enterStandby e.toNat w := by
      refine if_pos ⟨by rw [sysW, join], by rw [lkW, follow], by rw [lead]; rfl, by rw [same]; simp, ?_, ?_⟩
      · rw [show lkUnitB w = lkUnitB s from regsW.bitOf (a := 0xF28000) (by decide) 19]
        exact other
      · rw [regsW.bitOf (a := 0xF28009) (by decide) 16, calm]
        rfl
    obtain ⟨op, pr, -, -⟩ := enterStandby_spec e.toNat w
    rw [enters]
    exact ⟨op, (congrArg Pair.active pr :), (congrArg Pair.unaligned pr :)⟩
  · have new : partnerAnew s.pr.partnerRole x = true := by
      unfold partnerAnew
      rw [anew]
      simpa using cause
    exact (stateActs_running (by rw [sysW]; exact op)).1 (active.trans act) new
  · obtain ⟨-, parts, regs⟩ := stateActs_running (e := e.toNat) (was := s.pr.partnerRole) (diff := x.cfgsig.toNat != s.ks.cfgSig) (u := x) (s := w) (by rw [sysW]; exact op)
    refine ⟨fun act passive => ?_, ?_, ?_⟩
    · rw [parts.mains (by decide)]
      exact phase act ((congrArg Pair.active heardPr :).trans passive)
    · exact sameBut_trans (sameBut_mono (by decide) heardParts) (sameBut_trans (sameBut_mono (by decide) takenParts) (sameBut_mono (by decide) parts))
    · exact regsButEvents_of_touches (touches_trans (touches_mono regsW fun _ h => .inl h) regs)

/-! ### What a standby keeps of the active -/

theorem inc_received (s : State) (e : BitVec 16) (counts : linkCounts s = true) (pair : paired s = true) (st : s.lk.st ≠ .off)
    (up : s.pr.laneUp = true) (epoch : e.toNat = s.lk.epoch) (standby : isStandby s = true) (fb : List FbIn) (sdm : List (Int × BitVec 4)) (km : Nat) :
    ∃ u, exec (.incReceived .ok e fb sdm km) s = .next u ∧
      u.pr = { s.pr with heardLane := true, lost := false, inc := some (fb, sdm, km) } ∧ u.mem = s.mem ∧ u.cores = s.cores ∧ u.lk = s.lk := by
  have heardParts := laneHeard_parts s
  have heardPr := laneHeard_pr s
  have is := (laneHeard_isStandby s).trans standby
  have run : exec (.incReceived .ok e fb sdm km) s = .next (takeInc fb sdm km (laneHeard s)) :=
    congrArg Host.Outcome.next (onFrame_taken counts pair up st epoch)
  generalize laneHeard s = v at run heardParts heardPr is
  have take : takeInc fb sdm km v = followOnce v (setPr { v.pr with inc := some (fb, sdm, km) } v) := if_pos is
  have set := setPr_parts { v.pr with inc := some (fb, sdm, km) } v
  have parts := (followOnce_keeps v (L := [.mo]) (by decide) (keeps_refl _ (setPr { v.pr with inc := some (fb, sdm, km) } v))).parts
  rw [take] at run
  refine ⟨_, run, ?_, ?_, ?_, ?_⟩
  · refine (parts.pr (by decide)).trans ?_
    show ({ v.pr with inc := some (fb, sdm, km) } : Pair) = _
    rw [heardPr]
  · rw [parts.mem (by decide), set.mem (by decide), heardParts.mem (by decide)]
  · rw [parts.cores (by decide), set.cores (by decide), heardParts.cores (by decide)]
  · rw [parts.lk (by decide), set.lk (by decide), heardParts.lk (by decide)]

/-- A frame of which the unit keeps something of the pair, and no more. -/
theorem keptOnly (p : Pair) (s : State) :
    (setPr p (laneHeard s)).pr = p ∧ sameBut [.pr, .regs, .held] s (setPr p (laneHeard s)) ∧ regsBut [0xF30002] s (setPr p (laneHeard s)) :=
  ⟨rfl, sameBut_trans (laneHeard_parts s) (sameBut_mono (by decide) (setPr_parts p _)),
    regsBut_of_touches (touches_sameBut (laneHeard_touches s) (setPr_parts p _) (by decide) (by decide))⟩

theorem standby_keeps (s : State) (e : BitVec 16) (counts : linkCounts s = true) (pair : paired s = true) (st : s.lk.st ≠ .off)
    (up : s.pr.laneUp = true) (epoch : e.toNat = s.lk.epoch) (standby : isStandby s = true) :
    (∀ (b : Nat) (m : BitVec 8) (recs : List UplRec), (∀ y ∈ s.pr.ins, y.1 ≠ b) → ∃ u, exec (.inReceived .ok e b m recs) s = .next u ∧
      u.pr = { s.pr with heardLane := true, lost := false, ins := s.pr.ins ++ [(b, m.toNat, recs)] } ∧
      sameBut [.pr, .regs, .held] s u ∧ regsBut [0xF30002] s u) ∧
    (∀ l, ∃ u, exec (.bndReceived .ok e l) s = .next u ∧ u.pr = { s.pr with heardLane := true, lost := false, bndIn := s.pr.bndIn ++ l } ∧
      sameBut [.pr, .regs, .held] s u ∧ regsBut [0xF30002] s u) ∧
    (∀ a, ∃ u, exec (.adoptReceived .ok e a) s = .next u ∧ u.pr = { s.pr with heardLane := true, lost := false, adopt := s.pr.adopt ++ [a] } ∧
      sameBut [.pr, .regs, .held] s u ∧ regsBut [0xF30002] s u) := by
  have is := (laneHeard_isStandby s).trans standby
  have heardPr := laneHeard_pr s
  refine ⟨fun b m recs first => ?_, fun l => ?_, fun a => ?_⟩
  · have new : (laneHeard s).pr.ins.any (fun x => x.1 == b) = false := by
      rw [(congrArg Pair.ins heardPr :), List.any_eq_false]
      exact fun y hy h => first y hy (eq_of_beq h)
    have run : exec (.inReceived .ok e b m recs) s = .next (takeIn b m.toNat recs (laneHeard s)) :=
      congrArg Host.Outcome.next (onFrame_taken counts pair up st epoch)
    rw [show takeIn b m.toNat recs (laneHeard s) = setPr { (laneHeard s).pr with ins := (laneHeard s).pr.ins ++ [(b, m.toNat, recs)] } (laneHeard s) from
      if_pos (by rw [is, new]; rfl), heardPr] at run
    exact ⟨_, run, keptOnly _ s⟩
  · have run : exec (.bndReceived .ok e l) s = .next (takeBnd l (laneHeard s)) := congrArg Host.Outcome.next (onFrame_taken counts pair up st epoch)
    rw [show takeBnd l (laneHeard s) = setPr { (laneHeard s).pr with bndIn := (laneHeard s).pr.bndIn ++ l } (laneHeard s) from if_pos is, heardPr] at run
    exact ⟨_, run, keptOnly _ s⟩
  · have run : exec (.adoptReceived .ok e a) s = .next (takeAdopt a (laneHeard s)) := congrArg Host.Outcome.next (onFrame_taken counts pair up st epoch)
    rw [show takeAdopt a (laneHeard s) = setPr { (laneHeard s).pr with adopt := (laneHeard s).pr.adopt ++ [a] } (laneHeard s) from if_pos is, heardPr] at run
    exact ⟨_, run, keptOnly _ s⟩

/-! ### DRES and FAIL -/

theorem dres_received (s : State) (e : BitVec 16) (counts : linkCounts s = true) (pair : paired s = true) (st : s.lk.st ≠ .off)
    (up : s.pr.laneUp = true) (epoch : e.toNat = s.lk.epoch) (pass : Bool) (diag : s.pr.diag = true) :
    ∃ u, exec (.dresReceived .ok e pass) s = .next u ∧ u.pr.partRes = (if pass then 1 else 2) ∧
      fld (regGet u 0xF30003) 17 16 = (if pass then 1 else 2) ∧ sameBut [.pr, .regs, .held] s u ∧ regsBut [0xF30002, 0xF30003] s u := by
  have run : exec (.dresReceived .ok e pass) s = .next (takeDres pass (laneHeard s)) := congrArg Host.Outcome.next (onFrame_taken counts pair up st epoch)
  rw [show takeDres pass (laneHeard s) = putFld 0xF30003 17 16 (if pass then 1 else 2) (setPr { (laneHeard s).pr with partRes := if pass then 1 else 2 } (laneHeard s)) from
    if_pos ((congrArg Pair.diag (laneHeard_pr s) :).trans diag)] at run
  obtain ⟨pr, parts, regs⟩ := keptOnly { (laneHeard s).pr with partRes := if pass then 1 else 2 } s
  generalize setPr { (laneHeard s).pr with partRes := if pass then 1 else 2 } (laneHeard s) = v at run pr parts regs
  refine ⟨_, run, ?_, ?_, sameBut_trans parts (putFld_keeps _ _ _ _ (by decide) (keeps_refl _ v)).parts,
    regsBut_of_touches (touches_putFld _ _ _ (by decide) (touches_mono regs fun a h => List.mem_cons.mpr (.inl (List.mem_singleton.mp h))))⟩
  · rw [putFld_pr, pr]
  · rw [regGet_putFld, if_pos rfl, fld_setFld_same _ _ (by decide) (by decide)]
    cases pass <;> rfl

theorem fail_received (s : State) (e : BitVec 16) (counts : linkCounts s = true) (pair : paired s = true) (st : s.lk.st ≠ .off)
    (up : s.pr.laneUp = true) (epoch : e.toNat = s.lk.epoch) (c : BitVec 8) :
    ∃ u, exec (.failReceived .ok e c) s = .next u ∧ u.pr.partnerRole = 4 ∧ u.pr.failCause = c.toNat ∧
      u.pr.failHeard = (s.pr.failHeard || isStandby s) ∧ sameBut [.pr, .regs, .held] s u ∧ regsBut [0xF30002] s u := by
  have run : exec (.failReceived .ok e c) s = .next (takeFail (setPr { (laneHeard s).pr with partnerRole := 4, failCause := c.toNat } (laneHeard s))) :=
    congrArg Host.Outcome.next (onFrame_taken counts pair up st epoch)
  obtain ⟨pr, parts, regs⟩ := keptOnly { (laneHeard s).pr with partnerRole := 4, failCause := c.toNat } s
  have is : isStandby (setPr { (laneHeard s).pr with partnerRole := 4, failCause := c.toNat } (laneHeard s)) = isStandby s := laneHeard_isStandby s
  have was : (setPr { (laneHeard s).pr with partnerRole := 4, failCause := c.toNat } (laneHeard s)).pr.failHeard = s.pr.failHeard := (congrArg Pair.failHeard (laneHeard_pr s) :)
  generalize setPr { (laneHeard s).pr with partnerRole := 4, failCause := c.toNat } (laneHeard s) = v at run pr parts regs is was
  cases standby : isStandby s with
  | true =>
    rw [show takeFail v = setPr { v.pr with failHeard := true } v from if_pos (is.trans standby)] at run
    have set := setPr_parts { v.pr with failHeard := true } v
    refine ⟨_, run, (congrArg Pair.partnerRole pr :), (congrArg Pair.failCause pr :), (Bool.or_true _).symm, sameBut_trans parts (sameBut_mono (by decide) set),
      regsBut_of_touches (touches_sameBut regs set (by decide) (by decide))⟩
  | false =>
    rw [show takeFail v = v from if_neg (by rw [is, standby]; decide)] at run
    exact ⟨_, run, (congrArg Pair.partnerRole pr :), (congrArg Pair.failCause pr :), by rw [was, Bool.or_false], parts, regs⟩

/-! ### SIG -/

/-- The axes of a batch that differ between two SIGs, or differed on the link. -/
def sigDiffs (s : State) (b q : Nat) (mine theirs : List Nat) : List Nat :=
  let lanes := ((batchAxes s b).zip (mine.zip theirs)).filterMap fun x => if x.2.1 = x.2.2 then none else some x.1
  lanes ++ s.pr.osigDiff.filterMap fun x => if x.1 = q ∧ x.2.1 = b ∧ !lanes.contains x.2.2 then some x.2.2 else none

theorem sigDiffs_none {b q : Nat} {mine theirs : List Nat} (same : mine = theirs) (link : ∀ x ∈ s.pr.osigDiff, x.1 = q → x.2.1 ≠ b) :
    sigDiffs s b q mine theirs = [] := by
  unfold sigDiffs
  rw [List.append_eq_nil_iff, List.filterMap_eq_nil_iff, List.filterMap_eq_nil_iff]
  refine ⟨fun x hx => if_pos ?_, fun x hx => if_neg fun h => link x hx h.1 h.2.1⟩
  rw [same] at hx
  exact eq_of_mem_zip_self (List.of_mem_zip hx).2

theorem mem_sigDiffs {b q a : Nat} {mine theirs : List Nat}
    (h : (∃ v w, (a, v, w) ∈ (batchAxes s b).zip (mine.zip theirs) ∧ v ≠ w) ∨ (q, b, a) ∈ s.pr.osigDiff) : a ∈ sigDiffs s b q mine theirs := by
  by_cases lane : a ∈ ((batchAxes s b).zip (mine.zip theirs)).filterMap fun x => if x.2.1 = x.2.2 then none else some x.1
  · exact List.mem_append_left _ lane
  · rcases h with ⟨v, w, at_, differ⟩ | link
    · exact absurd (List.mem_filterMap.mpr ⟨_, at_, if_neg differ⟩) lane
    · exact List.mem_append_right _ (List.mem_filterMap.mpr ⟨_, link, if_pos ⟨rfl, rfl, by simpa using lane⟩⟩)

/-- The two SIGs of a batch and cycle, both there: they are compared. -/
theorem compareSig_both {b q : Nat} {mine theirs : SigRec} (pair : paired s = true) (aligned : b ∉ s.pr.unaligned) (fresh : (b, q) ∉ s.pr.compared)
    (own : s.pr.sigOwn.find? (fun x => x.batch == b && x.seq == q) = some mine)
    (other : s.pr.sigPartner.find? (fun x => x.batch == b && x.seq == q) = some theirs) :
    compareSig b q s = if (sigDiffs s b q mine.osig theirs.osig).isEmpty then setPr { s.pr with compared := s.pr.compared ++ [(b, q)] } s
      else if mine.isig = theirs.isig then computationFault q (sigDiffs s b q mine.osig theirs.osig) (setPr { s.pr with compared := s.pr.compared ++ [(b, q)] } s)
      else unalign b (setPr { s.pr with compared := s.pr.compared ++ [(b, q)] } s) := by
  unfold compareSig
  rw [if_neg (by rw [pair]; simp [aligned, fresh])]
  simp only [own, other]
  rfl

/-- A unit that keeps the cycle of a computation fault and the lanes to diagnose. -/
def divergenceNoted (q : Nat) (axes : List Nat) (s : State) : State :=
  setPr { s.pr with diagQ := q, lastComp := some q, diagNext := s.pr.diagNext ++ axes.filter fun a => !s.pr.diagNext.contains a } s

theorem computationFault_spec (q : Nat) (axes : List Nat) (s : State) :
    (computationFault q axes s).pr = { s.pr with diagQ := q, lastComp := some q, diagNext := s.pr.diagNext ++ axes.filter fun a => !s.pr.diagNext.contains a } ∧
      regGet (computationFault q axes s) 0xF3000A = regGet s 0xF3000A + 1 ∧
      sameBut [.regs, .held, .pg, .bv, .pr, .pc] s (computationFault q axes s) ∧
      touches (orEvents [0xF30004, 0xF30005, 0xF3000A]) s (computationFault q axes s) := by
  have counts := count_regGet_same 0xF3000A s
  have countPr : (count 0xF3000A s).pr = s.pr := (count_keeps (L := [.regs, .held]) _ (by decide) (keeps_refl _ s)).parts.pr (by decide)
  have countRegs : touches (orEvents [0xF30004, 0xF30005, 0xF3000A]) s (count 0xF3000A s) := touches_count (.inl (by decide)) (touches_refl _ s)
  have parts := (computationFault_keeps (L := [.regs, .held, .pg, .bv, .pr, .pc]) q axes (by decide) (keeps_refl _ s)).parts
  have run : computationFault q axes s = raiseEvent 12 (divergenceNoted q axes (putPair 0xF30004 q (count 0xF3000A s))) := rfl
  rw [run] at parts ⊢
  generalize count 0xF3000A s = v at counts countPr countRegs parts ⊢
  have pairPr : (putPair 0xF30004 q v).pr = v.pr := (putPair_keeps (L := [.regs, .held]) _ _ (by decide) (keeps_refl _ v)).parts.pr (by decide)
  have pairRegs : touches (orEvents [0xF30004, 0xF30005, 0xF3000A]) s (putPair 0xF30004 q v) :=
    touches_putPair q (.inl (by decide)) (.inl (by decide)) countRegs
  have pairCount : regGet (putPair 0xF30004 q v) 0xF3000A = regGet v 0xF3000A :=
    (touches_putPair (A := (· ∈ [0xF30004, 0xF30005])) q (by decide) (by decide) (touches_refl _ v)).regGet (by decide)
  generalize putPair 0xF30004 q v = w at pairPr pairRegs pairCount parts ⊢
  have set : sameBut [.pr] w (divergenceNoted q axes w) := setPr_parts _ w
  have events : onlyEvents (divergenceNoted q axes w) (raiseEvent 12 (divergenceNoted q axes w)) := raiseEvent_onlyEvents (by decide) (onlyEvents_refl _)
  refine ⟨(events.parts.pr (by decide)).trans ?_, ?_, parts, touches_events (touches_sameBut pairRegs set (by decide) (by decide)) events⟩
  · show ({ w.pr with diagQ := q, lastComp := some q, diagNext := w.pr.diagNext ++ axes.filter fun a => !w.pr.diagNext.contains a } : Pair) = _
    rw [pairPr, countPr]
  · rw [events.regGet (by decide), regGet_of_regs (set.regs (by decide)), pairCount, counts]

/-- The pair with one batch more unaligned. -/
def withUnaligned (b : Nat) (p : Pair) : Pair :=
  { p with unaligned := p.unaligned ++ [b], adoptStep := if p.active && p.adoptStep == 0 then 3 else p.adoptStep }

theorem unalign_spec {b : Nat} (aligned : b ∉ s.pr.unaligned) :
    (unalign b s).pr = withUnaligned b s.pr ∧ sameBut [.regs, .held, .pg, .bv, .pr, .pc] s (unalign b s) ∧ touches (orEvents [0xF30002]) s (unalign b s) := by
  have run : unalign b s = showRole (setPr (withUnaligned b s.pr) s) := if_neg (by simpa using aligned)
  have set := setPr_parts (withUnaligned b s.pr) s
  obtain ⟨-, regs, parts⟩ := showRole_spec (setPr (withUnaligned b s.pr) s)
  rw [run]
  exact ⟨parts.pr (by decide), sameBut_trans (sameBut_mono (by decide) set) (sameBut_mono (by decide) parts),
    touches_trans (touches_of_sameBut set (by decide) (by decide)) regs⟩

theorem sig_received (s : State) (e : BitVec 16) (counts : linkCounts s = true) (pair : paired s = true) (st : s.lk.st ≠ .off)
    (up : s.pr.laneUp = true) (epoch : e.toNat = s.lk.epoch) (b : Nat) (seq : BitVec 32) (own : Bool) (isig : BitVec 32) (osig : List (BitVec 16))
    (o : SigRec) (aligned : b ∉ s.pr.unaligned) (fresh : (b, seq.toNat) ∉ s.pr.compared)
    (mine : s.pr.sigOwn.find? (fun x => x.batch == b && x.seq == seq.toNat) = some o) (first : ∀ x ∈ s.pr.sigPartner, x.batch = b → x.seq ≠ seq.toNat) :
    ∃ u, exec (.sigReceived .ok e ⟨seq, b, own⟩ isig osig) s = .next u ∧ (b, seq.toNat) ∈ u.pr.compared ∧
      (o.osig = osig.map (·.toNat) → (∀ x ∈ s.pr.osigDiff, x.1 = seq.toNat → x.2.1 ≠ b) → regGet u 0xF3000A = regGet s 0xF3000A ∧
        u.pr.diagNext = s.pr.diagNext ∧ u.pr.unaligned = s.pr.unaligned) ∧
      (∀ a, (∃ v w, (a, v, w) ∈ (batchAxes s b).zip (o.osig.zip (osig.map (·.toNat))) ∧ v ≠ w) ∨ (seq.toNat, b, a) ∈ s.pr.osigDiff →
        (o.isig = isig.toNat → regGet u 0xF3000A = regGet s 0xF3000A + 1 ∧ a ∈ u.pr.diagNext ∧ u.pr.diagQ = seq.toNat ∧
          u.pr.lastComp = some seq.toNat ∧ u.pr.unaligned = s.pr.unaligned) ∧
        (o.isig ≠ isig.toNat → regGet u 0xF3000A = regGet s 0xF3000A ∧ u.pr.diagNext = s.pr.diagNext ∧ b ∈ u.pr.unaligned)) ∧
      sameBut [.pr, .regs, .held, .pg, .bv, .pc] s u ∧ regsButEvents [0xF30002, 0xF30004, 0xF30005, 0xF3000A] s u := by
  let theirs : SigRec := ⟨b, seq.toNat, own, isig.toNat, osig.map (·.toNat)⟩
  have run : exec (.sigReceived .ok e ⟨seq, b, own⟩ isig osig) s =
      .next (compareSig b seq.toNat (setPr { (laneHeard s).pr with sigPartner := (laneHeard s).pr.sigPartner ++ [theirs] } (laneHeard s))) :=
    congrArg Host.Outcome.next (onFrame_taken counts pair up st epoch)
  obtain ⟨pr, parts, regs⟩ := keptOnly { (laneHeard s).pr with sigPartner := (laneHeard s).pr.sigPartner ++ [theirs] } s
  generalize setPr { (laneHeard s).pr with sigPartner := (laneHeard s).pr.sigPartner ++ [theirs] } (laneHeard s) = v at run pr parts regs
  rw [laneHeard_pr] at pr
  have regs' : touches (orEvents [0xF30002]) s v := touches_mono regs fun _ h => .inl h
  have none : s.pr.sigPartner.find? (fun x => x.batch == b && x.seq == seq.toNat) = none :=
    List.find?_eq_none.mpr fun x hx h => by
      rw [Bool.and_eq_true, beq_iff_eq, beq_iff_eq] at h
      exact first x hx h.1 h.2
  have other : v.pr.sigPartner.find? (fun x => x.batch == b && x.seq == seq.toNat) = some theirs := by
    rw [(congrArg Pair.sigPartner pr :)]
    show (s.pr.sigPartner ++ [theirs]).find? _ = _
    rw [List.find?_append, none, Option.none_or]
    simp [theirs]
  rw [compareSig_both ((paired_of_touches regs' (by decide)).trans pair) (by rw [(congrArg Pair.unaligned pr :)]; exact aligned)
    (by rw [(congrArg Pair.compared pr :)]; exact fresh) ((congrArg (fun p : Pair => p.sigOwn.find? _) pr :).trans mine) other] at run
  have diffs : sigDiffs v b seq.toNat o.osig theirs.osig = sigDiffs s b seq.toNat o.osig (osig.map (·.toNat)) := by
    unfold sigDiffs
    rw [batchAxes_of_touches regs' (by decide), (congrArg Pair.osigDiff pr :)]
  rw [diffs] at run
  have set := setPr_parts { v.pr with compared := v.pr.compared ++ [(b, seq.toNat)] } v
  have setPrEq : (setPr { v.pr with compared := v.pr.compared ++ [(b, seq.toNat)] } v).pr = { v.pr with compared := v.pr.compared ++ [(b, seq.toNat)] } := rfl
  generalize setPr { v.pr with compared := v.pr.compared ++ [(b, seq.toNat)] } v = w at run set setPrEq
  have partsW : sameBut [.pr, .regs, .held] s w := sameBut_trans parts (sameBut_mono (by decide) set)
  have regsW : touches (orEvents [0xF30002]) s w := touches_sameBut regs' set (by decide) (by decide)
  have countW : regGet w 0xF3000A = regGet s 0xF3000A := regsW.regGet (a := 0xF3000A) (not_orEvents (a := 0xF3000A) (by decide) (by decide))
  have prW : w.pr = { s.pr with heardLane := true, lost := false, sigPartner := s.pr.sigPartner ++ [theirs], compared := s.pr.compared ++ [(b, seq.toNat)] } := by
    rw [setPrEq, pr]
  have wide : ∀ a, orEvents [0xF30002] a → orEvents [0xF30002, 0xF30004, 0xF30005, 0xF3000A] a := orEvents_mono (by simp)
  have compared : (b, seq.toNat) ∈ w.pr.compared := by
    rw [(congrArg Pair.compared prW :)]
    exact List.mem_append_right _ (List.mem_singleton_self _)
  by_cases same : sigDiffs s b seq.toNat o.osig (osig.map (·.toNat)) = []
  · rw [same, if_pos List.isEmpty_nil] at run
    refine ⟨w, run, compared, fun _ _ => ⟨countW, (congrArg Pair.diagNext prW :), (congrArg Pair.unaligned prW :)⟩, fun a ha => ?_,
      sameBut_mono (by decide) partsW, regsButEvents_of_touches (touches_mono regsW wide)⟩
    have there := mem_sigDiffs ha
    rw [same] at there
    exact absurd there List.not_mem_nil
  · rw [if_neg (by rwa [List.isEmpty_iff])] at run
    have differ : o.osig = osig.map (·.toNat) → (∀ x ∈ s.pr.osigDiff, x.1 = seq.toNat → x.2.1 ≠ b) → False := fun e k => same (sigDiffs_none e k)
    by_cases inputs : o.isig = isig.toNat
    · rw [if_pos inputs] at run
      obtain ⟨prU, count, partsU, regsU⟩ := computationFault_spec seq.toNat (sigDiffs s b seq.toNat o.osig (osig.map (·.toNat))) w
      generalize computationFault seq.toNat (sigDiffs s b seq.toNat o.osig (osig.map (·.toNat))) w = u at run prU count partsU regsU
      refine ⟨u, run, ?_, fun e k => (differ e k).elim, fun a ha => ⟨fun _ => ⟨count.trans (congrArg (· + 1) countW), ?_, (congrArg Pair.diagQ prU :),
        (congrArg Pair.lastComp prU :), (congrArg Pair.unaligned prU :).trans (congrArg Pair.unaligned prW :)⟩, fun no => absurd inputs no⟩,
        sameBut_trans (sameBut_mono (by decide) partsW) (sameBut_mono (by decide) partsU),
        regsButEvents_of_touches (touches_trans (touches_mono regsW wide) (touches_mono regsU (orEvents_mono (by simp))))⟩
      · rw [(congrArg Pair.compared prU :)]
        exact compared
      · rw [(congrArg Pair.diagNext prU :), List.mem_append, List.mem_filter]
        by_cases known : a ∈ w.pr.diagNext
        · exact .inl known
        · exact .inr ⟨mem_sigDiffs ha, by simpa using known⟩
    · rw [if_neg inputs] at run
      have alignedW : b ∉ w.pr.unaligned := by
        rw [(congrArg Pair.unaligned prW :)]
        exact aligned
      obtain ⟨prU, partsU, regsU⟩ := unalign_spec alignedW
      generalize unalign b w = u at run prU partsU regsU
      have countU : regGet u 0xF3000A = regGet w 0xF3000A := regsU.regGet (a := 0xF3000A) (not_orEvents (a := 0xF3000A) (by decide) (by decide))
      refine ⟨u, run, ?_, fun e k => (differ e k).elim, fun a ha => ⟨fun yes => absurd yes inputs, fun _ => ⟨countU.trans countW,
        (congrArg Pair.diagNext prU :).trans (congrArg Pair.diagNext prW :), ?_⟩⟩,
        sameBut_trans (sameBut_mono (by decide) partsW) (sameBut_mono (by decide) partsU),
        regsButEvents_of_touches (touches_trans (touches_mono regsW wide) (touches_mono regsU wide))⟩
      · rw [(congrArg Pair.compared prU :)]
        exact compared
      · rw [(congrArg Pair.unaligned prU :)]
        exact List.mem_append_right _ (List.mem_singleton_self b)

/-- Settles O38. A frame on a lane that is not up counts as a code error by log entry 22, and PR_DIVSEQ takes the SEQ of the inputs by log entry 26. -/
theorem pairLaneFramesAreTaken : Obligations.PairLaneFramesAreTaken := by
  intro s e counts pair
  refine ⟨fun cmd shape => ?_, fun st up epoch => ⟨state_received s e counts pair st up epoch,
    fun standby => ⟨inc_received s e counts pair st up epoch standby, standby_keeps s e counts pair st up epoch standby⟩,
    sig_received s e counts pair st up epoch, dres_received s e counts pair st up epoch, fail_received s e counts pair st up epoch⟩⟩
  obtain ⟨f, run⟩ := laneCommand e cmd shape
  refine ⟨fun k bad => ?_, fun up k bad => ?_, fun st up old => ?_⟩
  · exact ⟨_, (run k s).trans (congrArg _ (onFrame_code counts pair bad)), counted (by decide) s⟩
  · exact ⟨_, (run k s).trans (congrArg _ (onFrame_invalid counts pair up bad)), counted (by decide) s⟩
  · exact ⟨_, (run .ok s).trans (congrArg _ (onFrame_stale counts pair up st old)), counted (by decide) s⟩

end Sys2Proof.Machine
end

