-- ==== Sys2Proof/Proofs/Takeover.lean ====
section
/-! PROOFS. Takeover and diagnosis of the pair (08 R231, R234, R239, R240, R242-R245). -/

namespace Sys2Proof.Machine

variable {o s t : State}

/-! ### Brake outputs brought up to date -/

/-- A brake output is told by the registers, the condition of its group, the role and the state. -/
theorem brkOut_congr (h : touches A s t) (out : ¬A 0xF34007 ∧ ¬A 0xF34008 ∧ ¬A 0xF34009) (grp : t.gh.grp = s.gh.grp)
    (lost : t.gh.refreshLost = s.gh.refreshLost) (drives : drivesOutputs t = drivesOutputs s) (op : t.sys.op = s.sys.op) (n : Nat) :
    brkOut t n = brkOut s n := by
  obtain ⟨o7, o8, o9⟩ := out
  unfold brkOut grpReleases
  rw [h.bitOf (a := 0xF34009) o9, h.bitOf (a := 0xF34007) o7, brkGroup_of_touches h o8, grp, lost, drives, op]

theorem brkOut_of_parts (h : sameBut [.gh, .bv] s t) (gh : t.gh = { s.gh with brk := t.gh.brk }) (n : Nat) : brkOut t n = brkOut s n := by
  refine brkOut_congr (A := fun _ => False) (touches_of_sameBut h (by decide) (by decide)) ⟨id, id, id⟩ (congrArg Gatehouse.grp gh :)
    (congrArg Gatehouse.refreshLost gh :) ?_ ?_ n
  · unfold drivesOutputs
    rw [h.pr (by decide)]
  · rw [h.sys (by decide)]

/-- After an update every brake output shows its condition. -/
theorem updateBrakes_shows (s : State) :
    (∀ n, n < 8 → (updateBrakes s).gh.brk.getLsbD n = brkOut (updateBrakes s) n) ∧
      (updateBrakes s).gh = { s.gh with brk := (updateBrakes s).gh.brk } ∧ sameBut [.gh, .bv] s (updateBrakes s) := by
  have loop : (∀ n, n < 8 → (updateBrakes s).gh.brk.getLsbD n = brkOut s n) ∧
      (updateBrakes s).gh = { s.gh with brk := (updateBrakes s).gh.brk } ∧ sameBut [.gh, .bv] s (updateBrakes s) := by
    refine upTo_steps (fun i t => (∀ n, n < i → t.gh.brk.getLsbD n = brkOut s n) ∧ t.gh = { s.gh with brk := t.gh.brk } ∧ sameBut [.gh, .bv] s t) 8 _
      ⟨fun n hn => absurd hn (Nat.not_lt_zero n), rfl, sameBut_refl _ s⟩ ?_
    intro i hi t ⟨shown, gh, parts⟩
    extract_lets now b
    have now_eq : now = brkOut s i := brkOut_of_parts parts gh i
    by_cases e : t.gh.brk.getLsbD i = now
    · rw [if_pos (beq_iff_eq.mpr e)]
      refine ⟨fun n hn => ?_, gh, parts⟩
      rcases Nat.lt_succ_iff_lt_or_eq.mp hn with k | k
      · exact shown n k
      · rw [k, e, now_eq]
    · rw [if_neg (by simpa using e), bvPin_gh]
      refine ⟨fun n hn => ?_, ?_, ?_⟩
      · show (setBit8 t.gh.brk i now).getLsbD n = _
        rw [getLsbD_setBit8 _ _ hi (by omega)]
        split
        next k => rw [now_eq, k]
        next k => exact shown n (by omega)
      · show ({ t.gh with brk := b } : Gatehouse) = { s.gh with brk := b }
        rw [gh]
      · exact sameBut_trans parts (bvPin_keeps _ _ (by decide) (keeps_gh { t.gh with brk := b } (by decide) (keeps_refl [.gh, .bv] t))).parts
  obtain ⟨shown, gh, parts⟩ := loop
  exact ⟨fun n hn => (shown n hn).trans (brkOut_of_parts parts gh n).symm, gh, parts⟩

/-! ### Sending on the lane -/

theorem laneSend_on {b : FrameBody} (on : onLane s = true) :
    (laneSend b s).lk = { s.lk with sent := s.lk.sent ++ [pairFrame s b] } ∧ sameBut [.lk] s (laneSend b s) := by
  have run : laneSend b s = sendLane b s := by
    unfold laneSend
    rw [on]
    rfl
  exact ⟨run ▸ rfl, (laneSend_keeps b (by decide) (keeps_refl [.lk] s)).parts⟩

theorem pairFrame_congr (regs : touches (orEvents as) s t) (out : 0xF28000 ∉ as) (now : t.now = s.now) (active : t.pr.active = s.pr.active)
    (q : t.lk.q = s.lk.q) (epoch : t.lk.epoch = s.lk.epoch) (b : FrameBody) : pairFrame t b = pairFrame s b := by
  have unit : lkUnitB t = lkUnitB s := regs.bitOf (a := 0xF28000) (not_orEvents (a := 0xF28000) out (by decide)) 19
  unfold pairFrame partnerAddr ownAddr
  rw [unit, now, active, q, epoch]

theorem paired_of_onLane (on : onLane s = true) : paired s = true := by
  unfold onLane at on
  rw [Bool.and_eq_true, Bool.and_eq_true] at on
  exact on.1.1

/-- The pair with the record of the cycle closed. -/
def recordClosed (s : State) : State :=
  setPr { s.pr with bndClosed := (bndWaiting s).take 170, bndOut := ((bndWaiting s).drop 170).filter fun e => s.pr.bndOut.contains e } s

theorem record_sent (s : State) (on : onLane s = true) (act : s.pr.active = true) (calm : s.pr.diag = false) :
    ∃ u, exec (.bndCutOff false) s = .next u ∧ u.lk.sent = s.lk.sent ++ [pairFrame s (.pBnd ((bndWaiting s).take 170))] ∧
      u.pr = { s.pr with bndClosed := (bndWaiting s).take 170, bndOut := u.pr.bndOut } ∧ ((bndWaiting s).length ≤ 170 → u.pr.bndOut = []) ∧
      sameBut [.pr, .lk] s u := by
  have begun := setPr_parts { s.pr with bndClosed := (bndWaiting s).take 170, bndOut := ((bndWaiting s).drop 170).filter fun e => s.pr.bndOut.contains e } s
  obtain ⟨lk, parts⟩ := laneSend_on (b := .pBnd ((bndWaiting s).take 170)) (s := recordClosed s) on
  have run : bndCutOff false s = laneSend (.pBnd ((bndWaiting s).take 170)) (recordClosed s) := by
    have still : ¬(laneSend (.pBnd ((bndWaiting s).take 170)) (recordClosed s)).pr.diag = true := by
      rw [parts.pr (by decide)]
      exact fun h => absurd (calm.symm.trans h) (by decide)
    have closes : (if s.pr.active then laneSend (.pBnd ((bndWaiting s).take 170)) (recordClosed s) else s) =
        laneSend (.pBnd ((bndWaiting s).take 170)) (recordClosed s) := if_pos act
    exact (if_neg (by rw [paired_of_onLane on]; decide)).trans
      ((congrArg (fun v : State => if v.pr.diag then diagResult false v else v) closes).trans (if_neg still))
  have out : exec (.bndCutOff false) s = .next (bndCutOff false s) := rfl
  rw [run] at out
  have pr := parts.pr (by decide)
  refine ⟨_, out, congrArg Link.sent lk, ?_, fun few => ?_, sameBut_trans (sameBut_mono (by decide) begun) (sameBut_mono (by decide) parts)⟩
  · rw [pr]
    rfl
  · rw [pr]
    show ((bndWaiting s).drop 170).filter _ = []
    rw [List.drop_eq_nil_of_le few]
    rfl

theorem result_sent (s : State) (on : onLane s = true) (passive : s.pr.active = false) (diag : s.pr.diag = true) :
    ∃ u, exec (.bndCutOff true) s = .next u ∧ u.pr.ownRes = 2 ∧ fld (regGet u 0xF30003) 19 18 = 2 ∧
      u.lk.sent = s.lk.sent ++ [pairFrame s (.pDres false)] ∧ sameBut [.pr, .lk, .regs, .held] s u ∧ regsBut [0xF30003] s u := by
  have run : bndCutOff true s = diagResult true s := by
    unfold bndCutOff
    rw [if_neg (by rw [paired_of_onLane on]; decide)]
    simp only [passive, Bool.false_eq_true, if_false]
    exact if_pos diag
  have unfolded : diagResult true s = laneSend (.pDres false) (putFld 0xF30003 19 18 2 (setPr { s.pr with ownRes := 2 } s)) := rfl
  have begun := setPr_parts { s.pr with ownRes := 2 } s
  have regs : touches (· ∈ [0xF30003]) s (putFld 0xF30003 19 18 2 (setPr { s.pr with ownRes := 2 } s)) :=
    touches_putFld 19 18 2 (by decide) (touches_of_sameBut begun (by decide) (by decide))
  have shown : fld (regGet (putFld 0xF30003 19 18 2 (setPr { s.pr with ownRes := 2 } s)) 0xF30003) 19 18 = 2 := by
    rw [regGet_putFld, if_pos rfl, fld_setFld_same _ _ (by decide) (by decide)]
    rfl
  have put := (putFld_keeps (L := [.regs, .held]) 0xF30003 19 18 2 (by decide) (keeps_refl _ (setPr { s.pr with ownRes := 2 } s))).parts
  rw [unfolded] at run
  generalize putFld 0xF30003 19 18 2 (setPr { s.pr with ownRes := 2 } s) = v at run regs shown put
  have pr : v.pr = { s.pr with ownRes := 2 } := put.pr (by decide)
  have lk : v.lk = s.lk := (put.lk (by decide)).trans (begun.lk (by decide))
  have regs' : touches (orEvents [0xF30003]) s v := touches_mono regs fun _ h => .inl h
  have onV : onLane v = true := by
    rw [← on]
    unfold onLane
    rw [pr, lk, paired_of_touches regs' (by decide)]
  obtain ⟨lkU, parts⟩ := laneSend_on (b := .pDres false) onV
  have frame : pairFrame v (.pDres false) = pairFrame s (.pDres false) :=
    pairFrame_congr regs' (by decide) ((put.now (by decide)).trans (begun.now (by decide))) (congrArg Pair.active pr :) (by rw [lk]) (by rw [lk]) _
  have out : exec (.bndCutOff true) s = .next (bndCutOff true s) := rfl
  rw [run] at out
  refine ⟨_, out, ?_, ?_, ?_, sameBut_trans (sameBut_mono (by decide) begun) (sameBut_trans (sameBut_mono (by decide) put) (sameBut_mono (by decide) parts)),
    regsBut_of_touches (touches_sameBut regs parts (by decide) (by decide))⟩
  · rw [parts.pr (by decide), pr]
  · rw [regGet_of_regs (parts.regs (by decide)), shown]
  · exact (congrArg Link.sent lkU).trans (by rw [frame, lk])

/-! ### PAIR_LOST -/

/-- The state in which the loss of the pair is shown. -/
def lossShown (s : State) : State := raiseEvent 30 (putBit 0xF30002 13 true (setPr { s.pr with lost := true } s))

theorem lossShown_spec (s : State) : (lossShown s).pr = { s.pr with lost := true } ∧ bit (regGet (lossShown s) 0xF30002) 13 = true ∧
    touches (orEvents [0xF30002]) s (lossShown s) ∧ sameBut [.pr, .regs, .held, .pg, .bv, .pc] s (lossShown s) := by
  have begun := setPr_parts { s.pr with lost := true } s
  have put := (putBit_keeps (L := [.regs, .held]) 0xF30002 13 true (by decide) (keeps_refl _ (setPr { s.pr with lost := true } s))).parts
  have shown := bit_putBit_same 0xF30002 (b := 13) true (setPr { s.pr with lost := true } s) (by decide)
  have regs : touches (orEvents [0xF30002]) s (putBit 0xF30002 13 true (setPr { s.pr with lost := true } s)) :=
    touches_putBit 13 true (.inl (by decide)) (touches_of_sameBut begun (by decide) (by decide))
  have pr : (putBit 0xF30002 13 true (setPr { s.pr with lost := true } s)).pr = { s.pr with lost := true } := put.pr (by decide)
  unfold lossShown
  generalize putBit 0xF30002 13 true (setPr { s.pr with lost := true } s) = v at put shown regs pr
  have events : onlyEvents v (raiseEvent 30 v) := raiseEvent_onlyEvents (by decide) (onlyEvents_refl _)
  exact ⟨(events.parts.pr (by decide)).trans pr, (congrArg (bit · 13) (events.regGet (by decide))).trans shown, touches_events regs events,
    sameBut_trans (sameBut_mono (by decide) begun) (sameBut_trans (sameBut_mono (by decide) put) (sameBut_mono (by decide) events.parts))⟩

theorem pair_lost (s : State) (pair : paired s = true) (was : s.pr.lost = false) (gone : laneGone s = true) :
    ∃ u, exec .pairLost s = .next u ∧ u.pr.lost = true ∧ bit (regGet u 0xF30002) 13 = true ∧ (s.pr.active = true → u.pr.unaligned = allBatches s) ∧
      (isStandby s = true → s.pr.heardLink = true → u.pr.unaligned = allBatches s) ∧
      (s.pr.active = false → s.pr.heardLink = false → s.pr.laneMiss < 2 → u.pr.unaligned = s.pr.unaligned) ∧
      sameBut [.pr, .regs, .held, .pg, .bv, .pc] s u ∧ regsButEvents [0xF30002] s u := by
  have run : exec .pairLost s = .next (if (lossShown s).pr.active || (isStandby (lossShown s) && ((lossShown s).pr.heardLink || decide (2 ≤ (lossShown s).pr.laneMiss)))
      then unalignAll (lossShown s) else lossShown s) :=
    congrArg Host.Outcome.next (if_neg (by rw [pair, was, gone]; decide))
  obtain ⟨pr, shown, regs, parts⟩ := lossShown_spec s
  have is : isStandby (lossShown s) = isStandby s :=
    isStandby_of (parts.sys (by decide)) (congrArg Pair.active pr :) (paired_of_touches regs (by decide))
  rw [is, (congrArg Pair.active pr :), (congrArg Pair.heardLink pr :), (congrArg Pair.laneMiss pr :)] at run
  generalize lossShown s = v at run pr shown regs parts is
  obtain ⟨prU, -, regsU, bits, partsU⟩ := unalignAll_spec v
  have batches : allBatches v = allBatches s := allBatches_of_touches regs (by decide)
  by_cases cause : (s.pr.active || (isStandby s && (s.pr.heardLink || decide (2 ≤ s.pr.laneMiss)))) = true
  · rw [if_pos cause] at run
    have all : (unalignAll v).pr.unaligned = allBatches s := (congrArg Pair.unaligned prU :).trans batches
    refine ⟨_, run, ?_, (bits 13 (by decide) (by decide)).trans shown, fun _ => all, fun _ _ => all, fun passive quiet few => ?_,
      sameBut_trans parts (sameBut_mono (by decide) partsU), regsButEvents_of_touches (touches_trans regs regsU)⟩
    · rw [(congrArg Pair.lost prU :), (congrArg Pair.lost pr :)]
    · rw [passive, quiet, decide_eq_false (by omega)] at cause
      simp at cause
  · rw [if_neg cause] at run
    refine ⟨_, run, (congrArg Pair.lost pr :), shown, fun act => absurd (by rw [act, Bool.true_or]) cause,
      fun standby heard => absurd (by rw [standby, heard]; simp) cause, fun _ _ _ => (congrArg Pair.unaligned pr :), parts, regsButEvents_of_touches regs⟩

/-! ### Bridging and takeover -/

theorem bridging_begins (s : State) (standby : s.sys.op = .runStandby) (one : emptyNow s = 1) :
    ∃ u, exec .bridging s = .next u ∧ u.pr = { s.pr with bridging := true } ∧
      (∀ n, n < 8 → u.gh.brk.getLsbD n = brkOut u n) ∧ sameBut [.pr, .gh, .bv, .regs, .held] s u ∧ regsButEvents [] s u := by
  have run : exec .bridging s = .next (updateBrakes (setPr { s.pr with bridging := true } s)) := congrArg Host.Outcome.next (if_pos ⟨standby, one⟩)
  have begun := setPr_parts { s.pr with bridging := true } s
  obtain ⟨shown, -, parts⟩ := updateBrakes_shows (setPr { s.pr with bridging := true } s)
  exact ⟨_, run, parts.pr (by decide), shown, sameBut_trans (sameBut_mono (by decide) begun) (sameBut_mono (by decide) parts),
    regsButEvents_of_touches (touches_sameBut (touches_of_sameBut begun (by decide) (by decide)) parts (by decide) (by decide))⟩

/-- The pair of a unit that takes the active role. -/
def pairActive (p : Pair) : Pair :=
  { p with active := true, wasActive := true, bridging := false, empty := 0, failHeard := false, unaligned := [], adoptStep := 0 }

/-- A unit that takes the active role, before its epoch and its outputs. -/
def activeBegins (s : State) : State :=
  { s with sys := { s.sys with op := if s.sys.op = .degraded then OpState.degraded else .runActive, per := { s.sys.per with xage := 0 } }, lk := { s.lk with st := .lead },
           pr := pairActive s.pr, mains := { s.mains with mlOn := true } }

theorem sameBut_role (x : SysCtl) (y : Link) (z : Pair) (w : Mains) (s : State) :
    sameBut [.sys, .lk, .pr, .mains] s { s with sys := x, lk := y, pr := z, mains := w } :=
  (keeps_mains (s := { s with sys := x, lk := y, pr := z }) w (by decide) (keeps_pr (s := { s with sys := x, lk := y }) z (by decide)
    (keeps_lk (s := { s with sys := x }) y (by decide) (keeps_sys x (by decide) (keeps_refl [.sys, .lk, .pr, .mains] s))))).parts

theorem activeBegins_parts (s : State) : sameBut [.sys, .lk, .pr, .mains] s (activeBegins s) :=
  sameBut_role { s.sys with op := if s.sys.op = .degraded then OpState.degraded else .runActive, per := { s.sys.per with xage := 0 } } { s.lk with st := .lead }
    (pairActive s.pr) { s.mains with mlOn := true } s

/-- The registers that a unit taking the active role writes. -/
abbrev roleRegs : List Nat := [0xF2800C, 0xF30002, 0xF30006, 0xF34045]

/-- A unit that has taken the active role, with the next epoch. -/
structure roleTaken (s u : State) : Prop where
  op : s.sys.op ≠ .degraded → u.sys.op = .runActive
  epoch : u.lk.epoch = (s.lk.epoch + 1) % 65536
  kept : u.sys.per.epoch = u.lk.epoch
  age : u.sys.per.xage = 0
  link : u.lk.st = .lead
  pr : u.pr = pairActive s.pr
  auth : u.gh.pw.auth = []
  mains : u.mains = { s.mains with mlOn := true }
  brakes : ∀ n, n < 8 → u.gh.brk.getLsbD n = brkOut u n
  parts : sameBut [.sys, .regs, .held, .pg, .mains, .bv, .lk, .pr, .gh, .pc] s u
  regs : touches (orEvents roleRegs) s u

theorem closeAuth_spec (s : State) : (closeAuth s).gh = { s.gh with pw := { s.gh.pw with auth := [] } } ∧ sameBut [.regs, .held, .gh] s (closeAuth s) ∧
    touches (· ∈ [0xF34045]) s (closeAuth s) :=
  ⟨putBit_gh .., (closeAuth_keeps (by decide) (keeps_refl _ s)).parts, touches_putBit 19 false (by decide) (touches_same (touches_refl _ s) rfl rfl)⟩

theorem dropService_spec (s : State) : (dropService s).lk = { s.lk with svc := (dropService s).lk.svc } ∧ sameBut [.lk] s (dropService s) :=
  ⟨rfl, (dropService_keeps (by decide) (keeps_refl _ s)).parts⟩

theorem becomeActive_spec (s : State) : roleTaken s (becomeActive s) := by
  have begun := activeBegins_parts s
  have run : becomeActive s = updateBrakes (closeAuth (dropService (showRole (putWord 0xF30006 0 (putBit 0xF30002 9 false
    (setEpoch (s.lk.epoch + 1) (activeBegins s))))))) := rfl
  have parts := (becomeActive_keeps (L := [.sys, .regs, .held, .pg, .mains, .bv, .lk, .pr, .gh, .pc]) (by decide) (keeps_refl _ s)).parts
  have epoch := setEpoch_spec (s.lk.epoch + 1) (activeBegins s)
  rw [run] at parts ⊢
  generalize setEpoch (s.lk.epoch + 1) (activeBegins s) = a at epoch parts ⊢
  have put := (putWord_keeps (L := [.regs, .held]) 0xF30006 0 (by decide) (putBit_keeps 0xF30002 9 false (by decide) (keeps_refl _ a))).parts
  have regsA : touches (orEvents roleRegs) s a :=
    touches_trans (touches_of_sameBut begun (by decide) (by decide)) (touches_mono epoch.regs (orEvents_mono (by simp)))
  have regsB : touches (orEvents roleRegs) s (putWord 0xF30006 0 (putBit 0xF30002 9 false a)) :=
    touches_putWord 0 (.inl (by decide)) (touches_putBit 9 false (.inl (by decide)) regsA)
  generalize putWord 0xF30006 0 (putBit 0xF30002 9 false a) = b at put regsB parts ⊢
  obtain ⟨-, regsC, partsC⟩ := showRole_spec b
  generalize showRole b = c at regsC partsC parts ⊢
  obtain ⟨lkD, partsD⟩ := dropService_spec c
  generalize dropService c = d at lkD partsD parts ⊢
  obtain ⟨ghE, partsE, regsE⟩ := closeAuth_spec d
  generalize closeAuth d = e at ghE partsE regsE parts ⊢
  obtain ⟨brakes, ghU, partsU⟩ := updateBrakes_shows e
  generalize updateBrakes e = u at brakes ghU partsU parts ⊢
  have lkC : c.lk = { s.lk with st := .lead, epoch := (s.lk.epoch + 1) % 65536 } := by
    rw [partsC.lk (by decide), put.lk (by decide), epoch.lk]
    rfl
  have lk : u.lk = { d.lk with svc := d.lk.svc } := by rw [partsU.lk (by decide), partsE.lk (by decide)]
  have sys : u.sys = { (activeBegins s).sys with per := { (activeBegins s).sys.per with epoch := (s.lk.epoch + 1) % 65536 } } := by
    rw [partsU.sys (by decide), partsE.sys (by decide), partsD.sys (by decide), partsC.sys (by decide), put.sys (by decide), epoch.sys]
  have epochU : u.lk.epoch = (s.lk.epoch + 1) % 65536 := by
    rw [(congrArg Link.epoch lk :), (congrArg Link.epoch lkD :), lkC]
  refine ⟨fun whole => ?_, epochU, ?_, (congrArg (fun x : SysCtl => x.per.xage) sys :), ?_, ?_, ?_, ?_, brakes, parts, ?_⟩
  · exact (congrArg SysCtl.op sys :).trans (if_neg whole)
  · rw [epochU]
    exact (congrArg (fun x : SysCtl => x.per.epoch) sys :)
  · rw [(congrArg Link.st lk :), (congrArg Link.st lkD :), lkC]
  · rw [partsU.pr (by decide), partsE.pr (by decide), partsD.pr (by decide), partsC.pr (by decide), put.pr (by decide), epoch.parts.pr (by decide)]
    rfl
  · rw [(congrArg (fun x : Gatehouse => x.pw.auth) ghU :), ghE]
  · rw [partsU.mains (by decide), partsE.mains (by decide), partsD.mains (by decide), partsC.mains (by decide), put.mains (by decide), epoch.parts.mains (by decide)]
    rfl
  · refine touches_sameBut (touches_trans (touches_sameBut (touches_trans regsB (touches_mono regsC (orEvents_mono (by simp)))) partsD (by decide) (by decide)) ?_)
      partsU (by decide) (by decide)
    exact touches_mono regsE fun x h => .inl (by rw [List.mem_singleton.mp h]; decide)

/-- A standby that takes over counts it. -/
theorem takeOver_aligned (aligned : s.pr.unaligned = []) :
    takeOver s = raiseEvent 13 (count 0xF3000E (becomeActive s)) := if_pos (by rw [aligned]; rfl)

theorem takeover_aligned (s : State) (standby : s.sys.op = .runStandby) (due : 2 ≤ emptyNow s ∨ s.pr.failHeard = true) (aligned : s.pr.unaligned = []) :
    ∃ u, exec .takeover s = .next u ∧ u.sys.op = .runActive ∧ u.pr.active = true ∧ u.lk.st = .lead ∧
      u.lk.epoch = (s.lk.epoch + 1) % 65536 ∧ u.sys.per.epoch = u.lk.epoch ∧ u.sys.per.xage = 0 ∧ u.gh.pw.auth = [] ∧
      regGet u 0xF3000E = regGet s 0xF3000E + 1 ∧ (∀ n, n < 8 → u.gh.brk.getLsbD n = brkOut u n) ∧ u.mem = s.mem ∧ u.cores = s.cores ∧ u.mo = s.mo ∧
      u.mains = { s.mains with mlOn := true } := by
  have is : isStandby s = true := by unfold isStandby; rw [standby]; rfl
  have run : exec .takeover s = .next (takeOver s) := congrArg Host.Outcome.next (if_pos (by rw [is]; simpa using due))
  have taken := becomeActive_spec s
  rw [takeOver_aligned aligned] at run
  generalize becomeActive s = v at run taken
  have counts := count_regGet_same 0xF3000E v
  have parts := (count_keeps (L := [.regs, .held]) 0xF3000E (by decide) (keeps_refl _ v)).parts
  have regs : touches (· ∈ [0xF3000E]) v (count 0xF3000E v) := touches_count (by decide) (touches_refl _ v)
  generalize count 0xF3000E v = w at run counts parts regs
  have events : onlyEvents w (raiseEvent 13 w) := raiseEvent_onlyEvents (by decide) (onlyEvents_refl _)
  generalize raiseEvent 13 w = u at run events
  have all : sameBut [.regs, .held, .pg, .bv, .pc] v u := sameBut_trans (sameBut_mono (by decide) parts) events.parts
  have regsU : touches (orEvents [0xF3000E]) v u := touches_events (touches_mono regs fun _ h => .inl h) events
  have sys := all.sys (by decide)
  have lk := all.lk (by decide)
  have pr := all.pr (by decide)
  have gh := all.gh (by decide)
  have old : regGet v 0xF3000E = regGet s 0xF3000E := taken.regs.regGet (a := 0xF3000E) (not_orEvents (a := 0xF3000E) (by decide) (by decide))
  refine ⟨u, run, ?_, ?_, ?_, ?_, ?_, ?_, ?_, ?_, fun n hn => ?_, ?_, ?_, ?_, ?_⟩
  · rw [sys, taken.op (by rw [standby]; decide)]
  · rw [pr, (congrArg Pair.active taken.pr :)]
    rfl
  · rw [lk, taken.link]
  · rw [lk, taken.epoch]
  · rw [sys, lk, taken.kept]
  · rw [sys, taken.age]
  · rw [gh, taken.auth]
  · rw [events.regGet (by decide), counts, old]
  · rw [gh, taken.brakes n hn]
    refine (brkOut_congr regsU ⟨?_, ?_, ?_⟩ (by rw [gh]) (by rw [gh]) ?_ (by rw [sys]) n).symm
    · exact not_orEvents (a := 0xF34007) (by decide) (by decide)
    · exact not_orEvents (a := 0xF34008) (by decide) (by decide)
    · exact not_orEvents (a := 0xF34009) (by decide) (by decide)
    · unfold drivesOutputs
      rw [pr]
  · rw [all.mem (by decide), taken.parts.mem (by decide)]
  · rw [all.cores (by decide), taken.parts.cores (by decide)]
  · rw [all.mo (by decide), taken.parts.mo (by decide)]
  · rw [all.mains (by decide), taken.mains]

theorem takeover_unaligned (s : State) (standby : s.sys.op = .runStandby) (due : 2 ≤ emptyNow s ∨ s.pr.failHeard = true) (unaligned : s.pr.unaligned ≠ []) :
    ∃ u, exec .takeover s = .next u ∧ u.sys.op = .safe ∧ u.pr = s.pr ∧ u.lk = s.lk ∧
      (∀ g : Fin 4, u.gh.grp[g].cond = .sto) ∧ u.mem = s.mem ∧ u.cores = s.cores := by
  have is : isStandby s = true := by unfold isStandby; rw [standby]; rfl
  have run : exec .takeover s = .next (takeOver s) := congrArg Host.Outcome.next (if_pos (by rw [is]; simpa using due))
  have safe : takeOver s = enterSafe s := if_neg (by rwa [List.isEmpty_iff])
  have parts := enterSafe_parts (s := s) (by rw [standby]; decide) (by rw [standby]; decide)
  rw [safe] at run
  exact ⟨_, run, enterSafe_op (by rw [standby]; decide), parts.pr (by decide), parts.lk (by decide), (enterSafe_spec (by rw [standby]; decide)).2,
    parts.mem (by decide), parts.cores (by decide)⟩

/-! ### Entering DEGRADED -/

/-- The registers that the programs, the profiles and the generators write. -/
def programReg (a : Nat) : Prop := engineReg a ∨ a ∈ [0xF0FA10, 0xF100F7, 0xF100FF]

theorem programReg_event (a : Nat) (h : eventReg a = true) : programReg a := .inl (.inl h)

theorem touches_markCut {x : Nat} (hx : x < 288) (cut : Bool) (h : touches programReg o s) : touches programReg o (markCut x cut s) :=
  touches_whenB _ (fun _ => touches_putBit 8 true (.inl (engineReg_mpStat hx))) h

theorem touches_setProf (x : Nat) (p : Profile) (h : touches programReg o s) : touches programReg o (setProf x p s) :=
  touches_sameBut h (setProf_parts x p s) (by decide) (by decide)

theorem touches_stopObj {x : Nat} (hx : x < 288) (k : Nat) (hold : Bool) (h : touches programReg o s) : touches programReg o (stopObj x k hold s) :=
  touches_trans h (touches_mono (computed_stopObj hx k hold (computed_refl s)).regs fun _ => .inl)

theorem touches_noLanding {x : Nat} (hx : x < 288) (h : touches programReg o s) : touches programReg o (noLanding x s) :=
  touches_putBit 17 true (.inr (by decide)) (touches_stopObj hx 1 false h)

theorem touches_doMove {x : Nat} (hx : x < 288) (p : Int) (h : touches programReg o s) : touches programReg o (doMove x p s) :=
  touches_markCut hx _ (touches_whenB _ (fun _ => touches_putBit 5 true (.inl (engineReg_mpStat hx))) (touches_setProf _ _ h))

theorem touches_landCommand {x : Nat} (hx : x < 288) (h : touches programReg o s) : touches programReg o (runCommand x 6 s) := by
  unfold runCommand
  extract_lets axes s1
  refine touches_ite _ ?_ (touches_setProf _ _ ?_)
  · show touches programReg o (match landingFor s x with
      | some P => doMove x P s
      | none => noLanding x s)
    split
    · exact touches_doMove hx _ h
    · exact touches_noLanding hx h
  · exact touches_forEach _ (fun _ _ _ k => touches_same k rfl rfl) h

theorem touches_forcedLanding {x : Nat} (hx : x < 288) (h : touches programReg o s) : touches programReg o (forcedLanding x s) :=
  touches_ite _ (touches_ite _ (touches_noLanding hx h) (touches_ite _
    (touches_ite _ (touches_noLanding hx h) (touches_ite _ h (touches_landCommand hx h))) (touches_stopObj hx 1 false h))) h

theorem touches_landAll (h : touches programReg o s) : touches programReg o (landAll s) :=
  touches_forEach _ (fun _ hx _ k =>
    have small := List.mem_range.mp (List.mem_filter.mp hx).1
    touches_ite _ (touches_forcedLanding small k) (touches_ite _ k (touches_stopObj small 1 false k))) h

theorem touches_injEnd (g : Fin 2) (r : Nat) (h : touches programReg o s) : touches programReg o (injEnd g r s) := by
  have at_ : programReg (canonAddr (genAddr g + 7)) := .inr (by
    revert g
    decide)
  refine touches_onlyEvents ?_ (raiseEvent_onlyEvents (by decide) (onlyEvents_refl _)) programReg_event
  exact touches_putBit 17 false at_ (touches_putBit 16 true at_ (touches_putFld 15 13 r at_ (touches_sameBut h (setGen_parts g _ s) (by decide) (by decide))))

theorem touches_endInjections (h : touches programReg o s) : touches programReg o (endInjections s) := by
  refine touches_forEach _ (fun g _ s k => ?_) h
  unfold injectionEnd
  split
  · split
    · exact touches_injEnd g _ k
    · exact k
  · exact k

/-- A unit that begins to run DEGRADED. -/
def degradedBegins (s : State) : State :=
  { s with sys := { s.sys with op := .degraded }, gh := { s.gh with degPend := false, tDeg := s.now } }

/-- A unit in RUN enters DEGRADED: nothing of the pair changes, nor a register outside the programs but the degraded time. -/
theorem enterDegraded_spec (run : s.sys.op = .runActive ∨ s.sys.op = .runStandby) :
    (enterDegraded s).sys.op = .degraded ∧ (enterDegraded s).pr = s.pr ∧ touches (fun a => programReg a ∨ a = 0xF34004) s (enterDegraded s) := by
  have unfolded : enterDegraded s = endInjections (landAll (raiseEvent 8 (putFld 0xF34004 18 0 (degTime s) (degradedBegins s)))) := if_pos run
  have begun : sameBut [.sys, .gh] s (degradedBegins s) := sameBut_sys_gh _ _ s
  have sys : (putFld 0xF34004 18 0 (degTime s) (degradedBegins s)).sys = { s.sys with op := .degraded } := putFld_sys ..
  have pr : (putFld 0xF34004 18 0 (degTime s) (degradedBegins s)).pr = s.pr := putFld_pr ..
  have regs : touches (fun a => programReg a ∨ a = 0xF34004) s (putFld 0xF34004 18 0 (degTime s) (degradedBegins s)) :=
    touches_putFld 18 0 _ (.inr (by decide)) (touches_of_sameBut begun (by decide) (by decide))
  rw [unfolded]
  generalize putFld 0xF34004 18 0 (degTime s) (degradedBegins s) = a at sys pr regs
  have events : onlyEvents a (raiseEvent 8 a) := raiseEvent_onlyEvents (by decide) (onlyEvents_refl _)
  have regs' := touches_onlyEvents regs events fun x h => .inl (programReg_event x h)
  have program := touches_endInjections (touches_landAll (touches_refl programReg (raiseEvent 8 a)))
  have parts := (endInjections_keeps (L := [.regs, .held, .pg, .sv, .bv, .pc, .mo]) (by decide) (landAll_keeps (by decide) (keeps_refl _ (raiseEvent 8 a)))).parts
  refine ⟨?_, ?_, touches_trans regs' (touches_mono program fun _ => .inl)⟩
  · rw [parts.sys (by decide), events.parts.sys (by decide), sys]
  · rw [parts.pr (by decide), events.parts.pr (by decide), pr]

theorem enterDegraded_regGet (run : s.sys.op = .runActive ∨ s.sys.op = .runStandby) {a : Nat} (ha : a = 0xF30002 ∨ a = 0xF30003) :
    regGet (enterDegraded s) a = regGet s a := by
  refine (enterDegraded_spec run).2.2.regGet (a := a) ?_
  rcases ha with rfl | rfl <;>
  · unfold programReg engineReg
    decide

/-- The axes of the engine are told outside the registers that entering DEGRADED writes. -/
theorem enterDegraded_engineAxes (run : s.sys.op = .runActive ∨ s.sys.op = .runStandby) : engineAxes (enterDegraded s) = engineAxes s := by
  have regs := (enterDegraded_spec run).2.2
  have count : axisCount (enterDegraded s) = axisCount s := by
    unfold axisCount modeOf
    rw [regs.fldOf (a := 0xF54002) (by unfold programReg engineReg; decide) 19 18]
  unfold engineAxes
  rw [count]
  refine List.filter_congr fun a ha => ?_
  have small := Nat.lt_of_lt_of_le (List.mem_range.mp ha) (axisCount_le s)
  have own : canonAddr (svBase a + 0) = svBase a + 0 := if_neg (by unfold svBase; omega)
  have window : ¬(programReg (canonAddr (svBase a + 0)) ∨ canonAddr (svBase a + 0) = 0xF34004) := by
    refine not_or.mpr ⟨not_or.mpr ⟨not_engineReg_window small (by decide) (by decide), ?_⟩, ?_⟩
    · rw [own]
      unfold svBase
      simp
      omega
    · rw [own]
      unfold svBase
      omega
  unfold svOut svJpart
  rw [regs.fldOf (a := svBase a) window, regs.bitOf (a := svBase a) window]

/-! ### The outcome of a diagnosis -/

/-- The state in which a diagnosis has ended, before its outcome. -/
def diagEnded (s : State) : State :=
  whenB (s.pr.partRes == 0) (putFld 0xF30003 17 16 3) (putBit 0xF30002 12 false (setPr { s.pr with diag := false, diagLanes := [] } s))

theorem diagEnded_spec (s : State) : (diagEnded s).pr = { s.pr with diag := false, diagLanes := [] } ∧ sameBut [.pr, .regs, .held] s (diagEnded s) ∧
    touches (· ∈ [0xF30002, 0xF30003]) s (diagEnded s) ∧ (s.pr.partRes = 0 → fld (regGet (diagEnded s) 0xF30003) 17 16 = 3) ∧
    (s.pr.partRes ≠ 0 → touches (· ∈ [0xF30002]) s (diagEnded s)) := by
  have begun := setPr_parts { s.pr with diag := false, diagLanes := [] } s
  have put := (putBit_keeps (L := [.regs, .held]) 0xF30002 12 false (by decide) (keeps_refl _ (setPr { s.pr with diag := false, diagLanes := [] } s))).parts
  have regs : touches (· ∈ [0xF30002]) s (putBit 0xF30002 12 false (setPr { s.pr with diag := false, diagLanes := [] } s)) :=
    touches_putBit 12 false (by decide) (touches_of_sameBut begun (by decide) (by decide))
  have pr : (putBit 0xF30002 12 false (setPr { s.pr with diag := false, diagLanes := [] } s)).pr = { s.pr with diag := false, diagLanes := [] } := put.pr (by decide)
  unfold diagEnded
  generalize putBit 0xF30002 12 false (setPr { s.pr with diag := false, diagLanes := [] } s) = v at put regs pr
  have wide : touches (· ∈ [0xF30002, 0xF30003]) s v := touches_mono regs fun a h => List.mem_cons.mpr (.inl (List.mem_singleton.mp h))
  by_cases none : s.pr.partRes = 0
  · rw [none]
    refine ⟨(putFld_pr ..).trans pr, sameBut_trans (sameBut_mono (by decide) begun) (sameBut_mono (by decide) (sameBut_trans put (putFld_keeps _ _ _ _ (by decide) (keeps_refl _ v)).parts)),
      touches_putFld 17 16 3 (by decide) wide, fun _ => ?_, fun h => absurd rfl h⟩
    show fld (regGet (putFld 0xF30003 17 16 3 v) 0xF30003) 17 16 = 3
    rw [regGet_putFld, if_pos rfl, fld_setFld_same _ _ (by decide) (by decide)]
    rfl
  · rw [beq_false_of_ne none]
    exact ⟨pr, sameBut_trans (sameBut_mono (by decide) begun) (sameBut_mono (by decide) put), wide, fun h => absurd h none, fun _ => regs⟩

theorem diagnosisOutcome_eq (diag : s.pr.diag = true) :
    diagnosisOutcome s = if s.pr.ownRes = 2 then goSilent (laneSend (.pFail 0x11) (diagEnded s))
      else if s.pr.partRes = 2 then (if isStandby (diagEnded s) then takeOver (diagEnded s) else diagEnded s)
      else if s.pr.partRes = 1 then
        forEach (s.pr.diagLanes.map (batchOf (enterDegraded (putBit 0xF30002 11 true (setPr { (diagEnded s).pr with deg := true } (diagEnded s)))))) unalign
          (enterDegraded (putBit 0xF30002 11 true (setPr { (diagEnded s).pr with deg := true } (diagEnded s))))
      else enterDegraded (diagEnded s) := if_neg (by rw [diag]; decide)

/-- A unit silent on both its links. -/
def silenced (s : State) : State :=
  { s with pr := { s.pr with silent := true, active := false, bridging := false, failPend := false }, lk := { s.lk with st := .off } }

theorem toSafe_silenced (out : s.sys.op ≠ .recovery) :
    (toSafe (silenced s)).sys.op = .safe ∧ (toSafe (silenced s)).pr = (silenced s).pr ∧ (toSafe (silenced s)).lk = (silenced s).lk ∧
      (toSafe (silenced s)).mem = s.mem ∧ (toSafe (silenced s)).cores = s.cores := by
  have run : toSafe (silenced s) = enterSafe (silenced s) := if_neg out
  have parts := (enterSafe_keeps (L := [.sys, .regs, .held, .pg, .bv, .lk, .gh, .pc]) (by decide) (keeps_refl _ (silenced s))).parts
  rw [run]
  refine ⟨?_, parts.pr (by decide), ?_, parts.mem (by decide), parts.cores (by decide)⟩
  · by_cases safe : (silenced s).sys.op = .safe
    · rw [enterSafe, if_pos safe, safe]
    · exact enterSafe_op safe
  · by_cases safe : (silenced s).sys.op = .safe
    · rw [enterSafe, if_pos safe]
    · refine ((enterSafe_spec safe).1.parts.lk (by decide)).trans ?_
      show (if (silenced s).sys.op = .join then { (silenced s).lk with st := LinkState.off } else (silenced s).lk) = _
      exact ite_self _

theorem diagnosis_fails (s : State) (diag : s.pr.diag = true) (own : s.pr.ownRes = 2) (out : s.sys.op ≠ .recovery) (on : onLane s = true) :
    ∃ u, exec .diagnosisOutcome s = .next u ∧ u.sys.op = .safe ∧ u.pr.silent = true ∧ u.pr.active = false ∧ u.pr.diag = false ∧
      u.lk = { s.lk with st := .off, sent := s.lk.sent ++ [pairFrame s (.pFail 0x11)] } ∧ u.mem = s.mem ∧ u.cores = s.cores := by
  obtain ⟨pr, parts, regs, -, -⟩ := diagEnded_spec s
  have run : exec .diagnosisOutcome s = .next (goSilent (laneSend (.pFail 0x11) (diagEnded s))) :=
    congrArg Host.Outcome.next ((diagnosisOutcome_eq diag).trans (if_pos own))
  generalize diagEnded s = v at run pr parts regs
  have regs' : touches (orEvents [0xF30002, 0xF30003]) s v := touches_mono regs fun _ h => .inl h
  have lk := parts.lk (by decide)
  have onV : onLane v = true := by
    rw [← on]
    unfold onLane
    rw [pr, lk, paired_of_touches regs' (by decide)]
  have frame : pairFrame v (.pFail 0x11) = pairFrame s (.pFail 0x11) :=
    pairFrame_congr regs' (by decide) (parts.now (by decide)) (congrArg Pair.active pr :) (by rw [lk]) (by rw [lk]) _
  obtain ⟨lkW, partsW⟩ := laneSend_on (b := .pFail 0x11) onV
  generalize laneSend (.pFail 0x11) v = w at run lkW partsW
  obtain ⟨op, prX, lkX, mem, cores⟩ := toSafe_silenced (s := w) (by rw [partsW.sys (by decide), parts.sys (by decide)]; exact out)
  have unfolded : goSilent w = showRole (closeAuth (toSafe (silenced w))) := rfl
  rw [unfolded] at run
  generalize toSafe (silenced w) = x at run op prX lkX mem cores
  have partsY := (closeAuth_spec x).2.1
  generalize closeAuth x = y at run partsY
  have partsU := (showRole_spec y).2.2
  have prU : (showRole y).pr = (silenced w).pr := by rw [partsU.pr (by decide), partsY.pr (by decide), prX]
  refine ⟨_, run, ?_, (congrArg Pair.silent prU :), (congrArg Pair.active prU :), ?_, ?_, ?_, ?_⟩
  · rw [partsU.sys (by decide), partsY.sys (by decide), op]
  · rw [(congrArg Pair.diag prU :)]
    show w.pr.diag = false
    rw [partsW.pr (by decide), pr]
  · rw [partsU.lk (by decide), partsY.lk (by decide), lkX]
    show ({ w.lk with st := .off } : Link) = _
    rw [lkW, frame, lk]
  · rw [partsU.mem (by decide), partsY.mem (by decide), mem, partsW.mem (by decide), parts.mem (by decide)]
  · rw [partsU.cores (by decide), partsY.cores (by decide), cores, partsW.cores (by decide), parts.cores (by decide)]

theorem diagEnded_isStandby (s : State) : isStandby (diagEnded s) = isStandby s := by
  obtain ⟨pr, parts, regs, -, -⟩ := diagEnded_spec s
  exact isStandby_of (parts.sys (by decide)) (congrArg Pair.active pr :)
    (paired_of_touches (touches_mono regs fun _ h => .inl h : touches (orEvents [0xF30002, 0xF30003]) s (diagEnded s)) (by decide))

theorem partner_fails (s : State) (diag : s.pr.diag = true) (own : s.pr.ownRes ≠ 2) (part : s.pr.partRes = 2) (no : isStandby s = false) :
    ∃ u, exec .diagnosisOutcome s = .next u ∧ u.pr = { s.pr with diag := false, diagLanes := [] } ∧ sameBut [.pr, .regs, .held] s u ∧ regsBut [0xF30002] s u := by
  obtain ⟨pr, parts, -, -, regs⟩ := diagEnded_spec s
  have run : exec .diagnosisOutcome s = .next (diagEnded s) :=
    congrArg Host.Outcome.next ((diagnosisOutcome_eq diag).trans ((if_neg own).trans ((if_pos part).trans (if_neg (by rw [diagEnded_isStandby, no]; decide)))))
  exact ⟨_, run, pr, parts, regsBut_of_touches (regs (by rw [part]; decide))⟩

theorem partner_fails_standby (s : State) (diag : s.pr.diag = true) (own : s.pr.ownRes ≠ 2) (part : s.pr.partRes = 2) (standby : s.sys.op = .runStandby)
    (aligned : s.pr.unaligned = []) :
    ∃ u, exec .diagnosisOutcome s = .next u ∧ u.sys.op = .runActive ∧ u.pr.active = true ∧ u.pr.diag = false ∧ u.lk.st = .lead ∧
      u.lk.epoch = (s.lk.epoch + 1) % 65536 := by
  have is : isStandby s = true := by unfold isStandby; rw [standby]; rfl
  obtain ⟨pr, parts, -, -, -⟩ := diagEnded_spec s
  have run : exec .diagnosisOutcome s = .next (takeOver (diagEnded s)) :=
    congrArg Host.Outcome.next ((diagnosisOutcome_eq diag).trans ((if_neg own).trans ((if_pos part).trans (if_pos (by rw [diagEnded_isStandby, is])))))
  generalize diagEnded s = v at run pr parts
  rw [takeOver_aligned ((congrArg Pair.unaligned pr :).trans aligned)] at run
  have taken := becomeActive_spec v
  generalize becomeActive v = w at run taken
  have kept : sameBut [.regs, .held, .pg, .bv, .pc] w (raiseEvent 13 (count 0xF3000E w)) :=
    sameBut_trans (sameBut_mono (by decide) (count_keeps (L := [.regs, .held]) 0xF3000E (by decide) (keeps_refl _ w)).parts)
      (raiseEvent_onlyEvents (n := 13) (by decide) (onlyEvents_refl (count 0xF3000E w))).parts
  refine ⟨_, run, ?_, ?_, ?_, ?_, ?_⟩
  · rw [kept.sys (by decide), taken.op (by rw [parts.sys (by decide), standby]; decide)]
  · rw [kept.pr (by decide), (congrArg Pair.active taken.pr :)]
    rfl
  · rw [kept.pr (by decide), (congrArg Pair.diag taken.pr :)]
    exact (congrArg Pair.diag pr :)
  · rw [kept.lk (by decide), taken.link]
  · rw [kept.lk (by decide), taken.epoch, parts.lk (by decide)]

/-- What losing the alignment of batches leaves. -/
structure lessAligned (s t : State) : Prop where
  more : ∀ b ∈ s.pr.unaligned, b ∈ t.pr.unaligned
  pr : t.pr = { s.pr with unaligned := t.pr.unaligned, adoptStep := t.pr.adoptStep }
  shown : bit (regGet t 0xF30002) 11 = bit (regGet s 0xF30002) 11
  sys : t.sys = s.sys
  regs : touches (orEvents [0xF30002]) s t

theorem lessAligned_refl (s : State) : lessAligned s s := ⟨fun _ => id, rfl, rfl, rfl, touches_refl _ s⟩

theorem lessAligned_trans (h : lessAligned o s) (k : lessAligned s t) : lessAligned o t :=
  ⟨fun b hb => k.more b (h.more b hb), by rw [k.pr, h.pr], k.shown.trans h.shown, k.sys.trans h.sys, touches_trans h.regs k.regs⟩

theorem unalign_lessAligned (b : Nat) (s : State) : lessAligned s (unalign b s) ∧ b ∈ (unalign b s).pr.unaligned := by
  by_cases known : b ∈ s.pr.unaligned
  · have same : unalign b s = s := if_pos (by simpa using known)
    rw [same]
    exact ⟨lessAligned_refl s, known⟩
  · obtain ⟨pr, parts, regs⟩ := unalign_spec known
    have shown : bit (regGet (unalign b s) 0xF30002) 11 = bit (regGet s 0xF30002) 11 := by
      have run : unalign b s = showRole (setPr (withUnaligned b s.pr) s) := if_neg (by simpa using known)
      rw [run, showRole_bit (by decide) (by decide), regGet_of_regs ((setPr_parts (withUnaligned b s.pr) s).regs (by decide))]
    have more : (unalign b s).pr.unaligned = s.pr.unaligned ++ [b] := (congrArg Pair.unaligned pr :)
    refine ⟨⟨fun c hc => ?_, ?_, shown, parts.sys (by decide), regs⟩, ?_⟩
    · rw [more]
      exact List.mem_append_left _ hc
    · rw [pr]
      rfl
    · rw [more]
      exact List.mem_append_right _ (List.mem_singleton_self b)

/-- Batches that lose their alignment one after another. -/
theorem unalign_all (l : List Nat) (s : State) : lessAligned s (forEach l unalign s) ∧ ∀ b ∈ l, b ∈ (forEach l unalign s).pr.unaligned := by
  induction l generalizing s with
  | nil => exact ⟨lessAligned_refl s, fun b hb => absurd hb List.not_mem_nil⟩
  | cons c l ih =>
    obtain ⟨first, there⟩ := unalign_lessAligned c s
    obtain ⟨rest, all⟩ := ih (unalign c s)
    refine ⟨lessAligned_trans first rest, fun b hb => ?_⟩
    rcases List.mem_cons.mp hb with rfl | hb
    · exact rest.more b there
    · exact all b hb

/-- The state in which both units have passed: degraded by diagnosis. -/
def bothPassed (s : State) : State := putBit 0xF30002 11 true (setPr { s.pr with deg := true } s)

theorem bothPassed_spec (s : State) : (bothPassed s).pr = { s.pr with deg := true } ∧ bit (regGet (bothPassed s) 0xF30002) 11 = true ∧
    sameBut [.pr, .regs, .held] s (bothPassed s) ∧ touches (orEvents [0xF30002]) s (bothPassed s) := by
  have begun := setPr_parts { s.pr with deg := true } s
  exact ⟨putBit_pr .., bit_putBit_same _ _ _ (by decide),
    sameBut_trans (sameBut_mono (by decide) begun) (putBit_keeps 0xF30002 11 true (by decide) (keeps_refl [.pr, .regs, .held] (setPr { s.pr with deg := true } s))).parts,
    touches_putBit 11 true (.inl (by decide)) (touches_of_sameBut begun (by decide) (by decide))⟩

theorem diagnosis_degrades (s : State) (diag : s.pr.diag = true) (own : s.pr.ownRes ≠ 2) (part : s.pr.partRes ≠ 2)
    (running : s.sys.op = .runActive ∨ s.sys.op = .runStandby) :
    ∃ u, exec .diagnosisOutcome s = .next u ∧ u.sys.op = .degraded ∧ u.pr.diag = false ∧ (s.pr.partRes = 1 → u.pr.deg = true ∧
      bit (regGet u 0xF30002) 11 = true ∧ ∀ a ∈ s.pr.diagLanes, batchOf s a ∈ u.pr.unaligned) ∧ (s.pr.partRes = 0 → fld (regGet u 0xF30003) 17 16 = 3) := by
  obtain ⟨pr, parts, regs, none, -⟩ := diagEnded_spec s
  have e := (diagnosisOutcome_eq diag).trans ((if_neg own).trans (if_neg part))
  have out : exec .diagnosisOutcome s = .next (diagnosisOutcome s) := rfl
  rw [e] at out
  generalize diagEnded s = v at out pr parts regs none
  have run : v.sys.op = .runActive ∨ v.sys.op = .runStandby := by rwa [parts.sys (by decide)]
  by_cases pass : s.pr.partRes = 1
  · rw [if_pos pass, show putBit 0xF30002 11 true (setPr { v.pr with deg := true } v) = bothPassed v from rfl] at out
    obtain ⟨prW, shown, partsW, regsW⟩ := bothPassed_spec v
    generalize bothPassed v = w at out prW shown partsW regsW
    have runW : w.sys.op = .runActive ∨ w.sys.op = .runStandby := by rwa [partsW.sys (by decide)]
    obtain ⟨op, prX, -⟩ := enterDegraded_spec runW
    have shownX := enterDegraded_regGet runW (.inl rfl)
    have axes : engineAxes (enterDegraded w) = engineAxes s := by
      rw [enterDegraded_engineAxes runW, engineAxes_of_touches (touches_trans (touches_mono regs fun _ h => .inl h : touches (orEvents [0xF30002, 0xF30003]) s v)
        (touches_mono regsW (orEvents_mono (by simp)))) (by decide)]
    generalize enterDegraded w = x at out op prX shownX axes
    obtain ⟨less, all⟩ := unalign_all (s.pr.diagLanes.map (batchOf x)) x
    refine ⟨_, out, ?_, ?_, fun _ => ⟨?_, ?_, fun a ha => ?_⟩, fun zero => absurd (pass.symm.trans zero) (by decide)⟩
    · rw [less.sys, op]
    · rw [(congrArg Pair.diag less.pr :), prX, (congrArg Pair.diag prW :), (congrArg Pair.diag pr :)]
    · rw [(congrArg Pair.deg less.pr :), prX, (congrArg Pair.deg prW :)]
    · rw [less.shown, shownX, shown]
    · refine all _ (List.mem_map.mpr ⟨a, ha, ?_⟩)
      unfold batchOf
      rw [axes]
  · rw [if_neg pass] at out
    obtain ⟨op, prX, -⟩ := enterDegraded_spec run
    refine ⟨_, out, op, by rw [prX, (congrArg Pair.diag pr :)], fun h => absurd h pass, fun zero => ?_⟩
    rw [enterDegraded_regGet run (.inr rfl), none zero]

/-- Settles O39. -/
theorem takeoverAndDiagnosis : Obligations.TakeoverAndDiagnosis := fun s =>
  ⟨record_sent s, result_sent s, pair_lost s,
    fun standby => ⟨bridging_begins s standby, fun due => ⟨takeover_aligned s standby due, takeover_unaligned s standby due⟩⟩,
    fun diag => ⟨diagnosis_fails s diag, partner_fails s diag, partner_fails_standby s diag, diagnosis_degrades s diag⟩⟩

end Sys2Proof.Machine
end

