-- ==== Sys2Proof/Proofs/PairExchange.lean ====
section
/-! PROOFS. The commanded exchange of the pair (08 R248, R251). -/

namespace Sys2Proof.Machine

variable {o s t : State}

/-! ### The request and its answer -/

theorem refuseExchange_spec (s : State) : (refuseExchange s).pr = { s.pr with exch := none } ∧ bit (regGet (refuseExchange s) 0xF30002) 7 = true ∧
    sameBut [.pr, .regs, .held] s (refuseExchange s) ∧ touches (· ∈ [0xF30002]) s (refuseExchange s) :=
  ⟨putBit_pr .., bit_putBit_same _ _ _ (by decide), (refuseExchange_keeps (by decide) (keeps_refl _ s)).parts,
    touches_putBit 7 true (by decide) (touches_of_sameBut (setPr_parts _ s) (by decide) (by decide))⟩

theorem laneHeard_onLane (s : State) : onLane (laneHeard s) = onLane s := by
  unfold onLane
  rw [laneHeard_paired, (congrArg Pair.silent (laneHeard_pr s) :), (laneHeard_parts s).lk (by decide)]

theorem laneHeard_pairFrame (b : FrameBody) (s : State) : pairFrame (laneHeard s) b = pairFrame s b :=
  pairFrame_congr (as := [0xF30002]) (touches_mono (laneHeard_touches s) fun _ h => .inl h) (by decide) ((laneHeard_parts s).now (by decide))
    (congrArg Pair.active (laneHeard_pr s) :) (by rw [(laneHeard_parts s).lk (by decide)]) (by rw [(laneHeard_parts s).lk (by decide)]) b

theorem linkOn_of_onLane (on : onLane s = true) : s.lk.st ≠ .off := by
  unfold onLane at on
  rw [Bool.and_eq_true, Bool.and_eq_true] at on
  exact bne_iff_ne.mp on.2

theorem xreq_received (s : State) (e : BitVec 16) (x : BitVec 32) (on : onLane s = true) (counts : linkCounts s = true) (up : s.pr.laneUp = true)
    (epoch : e.toNat = s.lk.epoch) (standby : s.sys.op = .runStandby) :
    ∃ u, exec (.xreqReceived .ok e x) s = .next u ∧
      (s.pr.unaligned = [] → s.pr.deg = false → s.pr.diag = false → gwPhase s = 0 → s.pr.lastComp = none →
        u.lk.sent = s.lk.sent ++ [pairFrame s (.pXack x.toNat 0)] ∧ u.pr.exch = some ⟨s.lk.q, x.toNat, true, false⟩) ∧
      (s.pr.unaligned ≠ [] ∨ s.pr.deg = true ∨ s.pr.diag = true ∨ gwPhase s ≠ 0 →
        u.lk.sent = s.lk.sent ++ [pairFrame s (.pXack x.toNat 1)] ∧ u.pr.exch = s.pr.exch) ∧
      sameBut [.pr, .lk, .regs, .held] s u ∧ regsBut [0xF30002] s u := by
  have is : isStandby (laneHeard s) = true := by
    rw [laneHeard_isStandby]
    unfold isStandby
    rw [standby]
    rfl
  have run : exec (.xreqReceived .ok e x) s = .next (takeXreq x.toNat (laneHeard s)) :=
    congrArg Host.Outcome.next (onFrame_taken counts (paired_of_onLane on) up (linkOn_of_onLane on) epoch)
  have parts := laneHeard_parts s
  have pr := laneHeard_pr s
  have regs := laneHeard_touches s
  have onV := (laneHeard_onLane s).trans on
  have frame (b : FrameBody) := laneHeard_pairFrame b s
  generalize laneHeard s = v at run is parts pr regs onV frame
  have op : v.sys.op = .runStandby := by rw [parts.sys (by decide), standby]
  have phase : gwPhase v = gwPhase s := regs.fldOf (a := 0xF0FA01) (by decide) 19 18
  have lk := parts.lk (by decide)
  have take : takeXreq x.toNat v = if exchangeRefused v then laneSend (.pXack x.toNat 1) v
      else laneSend (.pXack x.toNat 0) (setPr { v.pr with exch := some ⟨v.lk.q, x.toNat, true, false⟩ } v) := by
    unfold takeXreq
    rw [if_neg (by rw [is]; decide), op]
    rfl
  rw [take] at run
  by_cases refused : exchangeRefused v = true
  · rw [if_pos refused] at run
    obtain ⟨lkU, partsU⟩ := laneSend_on (b := .pXack x.toNat 1) onV
    refine ⟨_, run, fun aligned whole calm idle never => ?_, fun _ => ⟨?_, ?_⟩, sameBut_trans (sameBut_mono (by decide) parts) (sameBut_mono (by decide) partsU),
      regsBut_of_touches (touches_sameBut regs partsU (by decide) (by decide))⟩
    · unfold exchangeRefused at refused
      rw [(congrArg Pair.unaligned pr :), (congrArg Pair.deg pr :), (congrArg Pair.diag pr :), (congrArg Pair.lost pr : v.pr.lost = false), (congrArg Pair.lastComp pr :),
        phase, op, aligned, whole, calm, idle, never] at refused
      exact (Bool.false_ne_true refused).elim
    · rw [congrArg Link.sent lkU, frame, lk]
    · rw [partsU.pr (by decide), (congrArg Pair.exch pr :)]
  · rw [if_neg refused] at run
    have begun := setPr_parts { v.pr with exch := some ⟨v.lk.q, x.toNat, true, false⟩ } v
    obtain ⟨lkU, partsU⟩ := laneSend_on (b := .pXack x.toNat 0) (s := setPr { v.pr with exch := some ⟨v.lk.q, x.toNat, true, false⟩ } v) onV
    refine ⟨_, run, fun _ _ _ _ _ => ⟨?_, ?_⟩, fun cause => absurd ?_ refused,
      sameBut_trans (sameBut_mono (by decide) parts) (sameBut_trans (sameBut_mono (by decide) begun) (sameBut_mono (by decide) partsU)),
      regsBut_of_touches (touches_sameBut (touches_sameBut regs begun (by decide) (by decide)) partsU (by decide) (by decide))⟩
    · refine (congrArg Link.sent lkU).trans ?_
      show v.lk.sent ++ [pairFrame v (.pXack x.toNat 0)] = _
      rw [frame, lk]
    · rw [partsU.pr (by decide)]
      show some (Exch.mk v.lk.q x.toNat true false) = _
      rw [lk]
    · unfold exchangeRefused
      rw [(congrArg Pair.unaligned pr :), (congrArg Pair.deg pr :), (congrArg Pair.diag pr :), phase]
      simp only [Bool.or_eq_true, Bool.not_eq_true', bne_iff_ne, ne_eq]
      rcases cause with some | deg | diag | busy
      · simp [some]
      · simp [deg]
      · simp [diag]
      · simp [busy]

theorem xack_received (s : State) (e : BitVec 16) (y : Exch) (x : BitVec 32) (r : BitVec 8) (st : s.lk.st ≠ .off) (pair : paired s = true)
    (counts : linkCounts s = true) (up : s.pr.laneUp = true) (epoch : e.toNat = s.lk.epoch) (act : s.pr.active = true) (asks : s.pr.exch = some y)
    (same : y.x = x.toNat) (before : y.overlap = false) :
    ∃ u, exec (.xackReceived .ok e x r) s = .next u ∧ (r = 0 → u.pr.exch = some { y with acked := true }) ∧
      (r ≠ 0 → u.pr.exch = none ∧ bit (regGet u 0xF30002) 7 = true) ∧ sameBut [.pr, .regs, .held] s u ∧ regsBut [0xF30002] s u := by
  have run : exec (.xackReceived .ok e x r) s = .next (takeXack x.toNat r.toNat (laneHeard s)) :=
    congrArg Host.Outcome.next (onFrame_taken counts pair up st epoch)
  have pr := laneHeard_pr s
  have take : takeXack x.toNat r.toNat (laneHeard s) =
      if r.toNat = 0 then setPr { (laneHeard s).pr with exch := some { y with acked := true } } (laneHeard s) else refuseExchange (laneHeard s) := by
    unfold takeXack
    simp only [(congrArg Pair.exch pr :), asks]
    exact if_pos (by rw [(congrArg Pair.active pr :), act, same, before, beq_self_eq_true]; rfl)
  rw [take] at run
  by_cases zero : r.toNat = 0
  · have r0 : r = 0 := BitVec.eq_of_toNat_eq zero
    rw [if_pos zero] at run
    obtain ⟨-, parts, regs⟩ := keptOnly { (laneHeard s).pr with exch := some { y with acked := true } } s
    exact ⟨_, run, fun _ => rfl, fun no => absurd r0 no, parts, regs⟩
  · rw [if_neg zero] at run
    obtain ⟨prU, shown, parts, regs⟩ := refuseExchange_spec (laneHeard s)
    refine ⟨_, run, fun r0 => absurd (by rw [r0]; rfl) zero, fun _ => ⟨(congrArg Pair.exch prU :), shown⟩,
      sameBut_trans (laneHeard_parts s) parts, regsBut_of_touches (touches_trans (laneHeard_touches s) regs)⟩

theorem xack_late (s : State) (y : Exch) (asks : s.pr.exch = some y) (act : s.pr.active = true) (silent : y.acked = false)
    (late : 2 ≤ (s.lk.q + 2 ^ 32 - y.c) % 2 ^ 32) :
    ∃ u, exec .xackTimeout s = .next u ∧ u.pr = { s.pr with exch := none } ∧ bit (regGet u 0xF30002) 7 = true ∧ sameBut [.pr, .regs, .held] s u ∧
      regsBut [0xF30002] s u := by
  have run : exec .xackTimeout s = .next (refuseExchange s) := by
    refine congrArg Host.Outcome.next ?_
    unfold xackTimeout
    simp only [asks]
    exact if_pos (by rw [act, silent, decide_eq_true late]; rfl)
  obtain ⟨pr, shown, parts, regs⟩ := refuseExchange_spec s
  exact ⟨_, run, pr, shown, parts, regsBut_of_touches regs⟩

/-! ### What a unit that gives the role up drops -/

theorem lookupNat_filter_ne {β : Type} (l : List (Nat × β)) {k a : Nat} (h : a ≠ k) : lookupNat (l.filter fun e => e.1 != k) a = lookupNat l a := by
  induction l with
  | nil => rfl
  | cons e l ih =>
    by_cases same : e.1 = k
    · rw [List.filter_cons_of_neg (by simp [same]), ih]
      show _ = if a = e.1 then some e.2 else lookupNat l a
      rw [if_neg (by rw [same]; exact h)]
    · rw [List.filter_cons_of_pos (by simp [same])]
      show (if a = e.1 then some e.2 else lookupNat (l.filter fun e => e.1 != k) a) = if a = e.1 then some e.2 else lookupNat l a
      rw [ih]

theorem inForce_of_lookup {a : Nat} (h : lookupNat t.held (canonAddr a) = lookupNat s.held (canonAddr a)) (k : regGet t a = regGet s a) :
    inForce t a = inForce s a := by
  unfold inForce
  rw [h, k]

/-- A write that waits forgotten: no other register is another. -/
theorem touches_unheld {A : Nat → Prop} {k : Nat} (hA : A k) (h : touches A o s) :
    touches A o { s with held := s.held.filter fun e => e.1 != k } :=
  touches_trans h fun _ ha => ⟨rfl, inForce_of_lookup (lookupNat_filter_ne _ fun e => ha (by rw [e]; exact hA)) rfl⟩

theorem replicated_canon {a : Nat} (h : replicated a = true) : replicated (canonAddr a) = true := by
  unfold canonAddr
  split
  next r =>
    unfold replicated
    simp
    omega
  next => exact h

/-- What becomes of a word that waits in a unit that gives the role up. -/
def dropWord (e : Nat × Word) (s : State) : State :=
  match closedWrite s e.1 with
  | some v => regSet e.1 (withB e.1 v e.2) s
  | none => regSet e.1 e.2 { s with held := s.held.filter fun x => x.1 != e.1 }

def wordsDropped (s : State) : State := forEach (s.held.filter fun e => replicated e.1) dropWord s

theorem wordsDropped_spec (s : State) : sameBut [.regs, .held] s (wordsDropped s) ∧ touches (fun a => replicated a = true) s (wordsDropped s) := by
  refine forEach_induct (fun t => sameBut [.regs, .held] s t ∧ touches (fun a => replicated a = true) s t) _ dropWord (fun e he t h => ?_)
    ⟨sameBut_refl _ s, touches_refl _ s⟩
  have rep : replicated e.1 = true := (List.mem_filter.mp he).2
  unfold dropWord
  split
  · exact ⟨sameBut_trans h.1 (regSet_keeps _ _ (by decide) (keeps_refl [.regs, .held] t)).parts, touches_regSet _ (replicated_canon rep) h.2⟩
  · exact ⟨sameBut_trans h.1 (regSet_keeps _ _ (by decide) (keeps_held _ (by decide) (keeps_refl [.regs, .held] t))).parts,
      touches_regSet _ (replicated_canon rep) (touches_unheld (A := fun a => replicated a = true) rep h.2)⟩

theorem dropUnclosed_spec (s : State) : (dropUnclosed s).pr = { s.pr with bndOut := [] } ∧ (dropUnclosed s).gh = { s.gh with degPend := (dropUnclosed s).gh.degPend } ∧
    (dropUnclosed s).mo = { s.mo with blendPend := (dropUnclosed s).mo.blendPend } ∧ sameBut [.regs, .held, .sd, .mo, .sv, .pr, .gh] s (dropUnclosed s) ∧
    touches (fun a => replicated a = true) s (dropUnclosed s) := by
  obtain ⟨parts, regs⟩ := wordsDropped_spec s
  have pr : (dropUnclosed s).pr = { (wordsDropped s).pr with bndOut := [] } := rfl
  have gh : (dropUnclosed s).gh = { (wordsDropped s).gh with degPend := (dropUnclosed s).gh.degPend } := rfl
  have mo : (dropUnclosed s).mo = { (wordsDropped s).mo with blendPend := (dropUnclosed s).mo.blendPend } := rfl
  refine ⟨?_, ?_, ?_, (dropUnclosed_keeps (by decide) (keeps_refl _ s)).parts, touches_same regs rfl rfl⟩
  · rw [pr, parts.pr (by decide)]
  · rw [gh, parts.gh (by decide)]
  · rw [mo, parts.mo (by decide)]

/-! ### The exchange -/

/-- The test pulses of groups ended. -/
def pulsesEnded (l : List (Fin 4)) (s : State) : State := forEach l (fun g s => setGroup g { s.gh.grp[g] with pulse := 0 } s) s

theorem pulsesEnded_spec (l : List (Fin 4)) (s : State) :
    (∀ g : Fin 4, g ∈ l ∨ s.gh.grp[g].pulse = 0 → (pulsesEnded l s).gh.grp[g].pulse = 0) ∧
      (pulsesEnded l s).gh = { s.gh with grp := (pulsesEnded l s).gh.grp } ∧ sameBut [.gh] s (pulsesEnded l s) := by
  induction l generalizing s with
  | nil => exact ⟨fun g h => h.resolve_left List.not_mem_nil, rfl, sameBut_refl _ s⟩
  | cons f l ih =>
    have here : (setGroup f { s.gh.grp[f] with pulse := 0 } s).gh.grp[f].pulse = 0 :=
      congrArg Group.pulse (vector_set_at s.gh.grp { s.gh.grp[f] with pulse := 0 } rfl)
    have there (g : Fin 4) (h : g ≠ f) : (setGroup f { s.gh.grp[f] with pulse := 0 } s).gh.grp[g] = s.gh.grp[g] :=
      Vector.getElem_set_ne f.isLt g.isLt fun e => h (Fin.ext e.symm)
    have parts : sameBut [.gh] s (setGroup f { s.gh.grp[f] with pulse := 0 } s) := (keeps_gh _ (by decide) (keeps_refl [.gh] s)).parts
    have step : pulsesEnded (f :: l) s = pulsesEnded l (setGroup f { s.gh.grp[f] with pulse := 0 } s) := rfl
    obtain ⟨rest, gh, partsL⟩ := ih (setGroup f { s.gh.grp[f] with pulse := 0 } s)
    rw [step]
    refine ⟨fun g h => rest g ?_, gh, sameBut_trans parts partsL⟩
    by_cases e : g = f
    · rw [e]
      exact .inr here
    · rcases h with h | h
      · exact .inl ((List.mem_cons.mp h).resolve_left e)
      · exact .inr (by rw [there g e, h])

/-- The pair of a unit that gives the role up. -/
def pairStandby (p : Pair) : Pair := { p with active := false, bridging := true, empty := 0, unaligned := [], adoptStep := 0 }

/-- A unit that gives the role up, before its epoch and its role. -/
def standbyYields (s : State) : State :=
  { s with sys := { s.sys with op := .runStandby }, lk := { s.lk with st := .follow, marked := false }, pr := pairStandby s.pr }

theorem becomeStandby_eq (s : State) : becomeStandby s =
    closeAuth (dropService (showRole (setEpoch (s.lk.epoch + 1) (standbyYields (pulsesEnded (List.finRange 4) (dropUnclosed s)))))) := by
  have lk : (pulsesEnded (List.finRange 4) (dropUnclosed s)).lk = s.lk :=
    ((pulsesEnded_spec (List.finRange 4) (dropUnclosed s)).2.2.lk (by decide)).trans ((dropUnclosed_spec s).2.2.2.1.lk (by decide))
  rw [← lk]
  rfl

/-- A unit that has given the role up. -/
structure roleGiven (s u : State) : Prop where
  op : u.sys.op = .runStandby
  pr : u.pr = pairStandby { s.pr with bndOut := [] }
  link : u.lk.st = .follow
  epoch : u.lk.epoch = (s.lk.epoch + 1) % 65536
  brakes : u.gh.brk = s.gh.brk
  pulses : ∀ g : Fin 4, u.gh.grp[g].pulse = 0
  mo : u.mo = { s.mo with blendPend := u.mo.blendPend }
  parts : sameBut [.sys, .regs, .held, .pg, .sd, .mo, .sv, .bv, .lk, .pr, .gh, .pc] s u
  regs : touches (fun a => replicated a = true ∨ orEvents roleRegs a) s u

theorem becomeStandby_spec (s : State) : roleGiven s (becomeStandby s) := by
  have parts := (becomeStandby_keeps (L := [.sys, .regs, .held, .pg, .sd, .mo, .sv, .bv, .lk, .pr, .gh, .pc]) (by decide) (keeps_refl _ s)).parts
  rw [becomeStandby_eq] at parts ⊢
  obtain ⟨prA, ghA, moA, partsA, regsA⟩ := dropUnclosed_spec s
  generalize dropUnclosed s = a at prA ghA moA partsA regsA parts ⊢
  obtain ⟨ended, ghB, partsB⟩ := pulsesEnded_spec (List.finRange 4) a
  generalize pulsesEnded (List.finRange 4) a = b at ended ghB partsB parts ⊢
  have partsC : sameBut [.sys, .lk, .pr, .mains] b (standbyYields b) :=
    sameBut_role { b.sys with op := .runStandby } { b.lk with st := .follow, marked := false } (pairStandby b.pr) b.mains b
  have epoch := setEpoch_spec (s.lk.epoch + 1) (standbyYields b)
  generalize setEpoch (s.lk.epoch + 1) (standbyYields b) = d at epoch parts ⊢
  obtain ⟨-, regsE, partsE⟩ := showRole_spec d
  generalize showRole d = e at regsE partsE parts ⊢
  obtain ⟨lkF, partsF⟩ := dropService_spec e
  generalize dropService e = f at lkF partsF parts ⊢
  obtain ⟨ghU, partsU, regsU⟩ := closeAuth_spec f
  generalize closeAuth f = u at ghU partsU regsU parts ⊢
  have gh : f.gh = b.gh := by rw [partsF.gh (by decide), partsE.gh (by decide), epoch.parts.gh (by decide), partsC.gh (by decide)]
  have lk : u.lk = { e.lk with svc := f.lk.svc } := (partsU.lk (by decide)).trans lkF
  have lkE : e.lk = { (standbyYields b).lk with epoch := (s.lk.epoch + 1) % 65536 } := (partsE.lk (by decide)).trans epoch.lk
  have mo : u.mo = a.mo := by
    rw [partsU.mo (by decide), partsF.mo (by decide), partsE.mo (by decide), epoch.parts.mo (by decide), partsC.mo (by decide), partsB.mo (by decide)]
  have sys : u.sys.op = d.sys.op := by rw [partsU.sys (by decide), partsF.sys (by decide), partsE.sys (by decide)]
  refine ⟨?_, ?_, ?_, ?_, ?_, fun g => ?_, ?_, parts, ?_⟩
  · exact sys.trans (congrArg SysCtl.op epoch.sys)
  · rw [partsU.pr (by decide), partsF.pr (by decide), partsE.pr (by decide), epoch.parts.pr (by decide)]
    show pairStandby b.pr = _
    rw [partsB.pr (by decide), prA]
  · rw [(congrArg Link.st lk :), (congrArg Link.st lkE :)]
    rfl
  · rw [(congrArg Link.epoch lk :), (congrArg Link.epoch lkE :)]
  · rw [(congrArg Gatehouse.brk ghU :), gh, (congrArg Gatehouse.brk ghB :), (congrArg Gatehouse.brk ghA :)]
  · rw [(congrArg Gatehouse.grp ghU :), gh]
    exact ended g (.inl (List.mem_finRange g))
  · rw [mo]
    exact moA
  · have first : touches (fun a => replicated a = true ∨ orEvents roleRegs a) s (standbyYields b) :=
      touches_sameBut (touches_sameBut (touches_mono regsA fun _ => .inl) partsB (by decide) (by decide)) partsC (by decide) (by decide)
    have second : touches (fun a => replicated a = true ∨ orEvents roleRegs a) (standbyYields b) e :=
      touches_trans (touches_mono epoch.regs fun x h => .inr (orEvents_mono (by simp) x h)) (touches_mono regsE fun x h => .inr (orEvents_mono (by simp) x h))
    refine touches_trans (touches_sameBut (touches_trans first second) partsF (by decide) (by decide)) ?_
    exact touches_mono regsU fun x h => .inr (.inl (by rw [List.mem_singleton.mp h]; decide))

/-- What the exchange does once it is due: the role changes, it counts, and the overlap begins. -/
def exchanged (y : Exch) (s : State) : State :=
  setPr { (count 0xF3000D s).pr with exch := some { y with overlap := true } } (count 0xF3000D s)

theorem exchanged_spec (y : Exch) (s : State) : (exchanged y s).pr = { s.pr with exch := some { y with overlap := true } } ∧
    regGet (exchanged y s) 0xF3000D = regGet s 0xF3000D + 1 ∧ sameBut [.pr, .regs, .held] s (exchanged y s) ∧ touches (· ∈ [0xF3000D]) s (exchanged y s) := by
  have counts := count_regGet_same 0xF3000D s
  have parts := (count_keeps (L := [.regs, .held]) 0xF3000D (by decide) (keeps_refl _ s)).parts
  have regs : touches (· ∈ [0xF3000D]) s (count 0xF3000D s) := touches_count (by decide) (touches_refl _ s)
  unfold exchanged
  generalize count 0xF3000D s = v at counts parts regs
  have set := setPr_parts { v.pr with exch := some { y with overlap := true } } v
  refine ⟨?_, ?_, sameBut_trans (sameBut_mono (by decide) parts) (sameBut_mono (by decide) set), touches_sameBut regs set (by decide) (by decide)⟩
  · show ({ v.pr with exch := some { y with overlap := true } } : Pair) = _
    rw [parts.pr (by decide)]
  · rw [regGet_of_regs (set.regs (by decide)), counts]

theorem exchangeEff_due {y : Exch} (asks : s.pr.exch = some y) (acked : y.acked = true) (before : y.overlap = false) (due : (s.lk.q + 1) % 2 ^ 32 = y.x)
    (run : s.sys.op = .runActive ∨ s.sys.op = .runStandby) :
    exchangeEff s = exchanged y (if s.pr.active then becomeStandby s else becomeActive s) := by
  unfold exchangeEff
  simp only [asks]
  refine (if_pos ?_).trans rfl
  rw [acked, before, due, beq_self_eq_true]
  simpa using run

theorem exchange_yields (s : State) (y : Exch) (asks : s.pr.exch = some y) (acked : y.acked = true) (before : y.overlap = false)
    (due : (s.lk.q + 1) % 2 ^ 32 = y.x) (op : s.sys.op = .runActive) (act : s.pr.active = true) :
    ∃ u, exec .exchange s = .next u ∧ u.sys.op = .runStandby ∧ u.pr.active = false ∧
      u.pr.bridging = true ∧ u.lk.st = .follow ∧ u.lk.epoch = (s.lk.epoch + 1) % 65536 ∧ u.pr.exch = some { y with overlap := true } ∧
      regGet u 0xF3000D = regGet s 0xF3000D + 1 ∧ u.gh.brk = s.gh.brk ∧ (∀ g : Fin 4, u.gh.grp[g].pulse = 0) ∧
      u.mem = s.mem ∧ u.cores = s.cores ∧ u.mo = { s.mo with blendPend := u.mo.blendPend } := by
  have run : exec .exchange s = .next (exchanged y (becomeStandby s)) :=
    congrArg Host.Outcome.next ((exchangeEff_due asks acked before due (.inl op)).trans (congrArg (exchanged y) (if_pos act)))
  have given := becomeStandby_spec s
  generalize becomeStandby s = v at run given
  obtain ⟨pr, counts, parts, -⟩ := exchanged_spec y v
  have old : regGet v 0xF3000D = regGet s 0xF3000D := given.regs.regGet (a := 0xF3000D) (not_or.mpr ⟨by decide, not_orEvents (a := 0xF3000D) (by decide) (by decide)⟩)
  generalize exchanged y v = u at run pr counts parts
  have prV := given.pr
  refine ⟨u, run, ?_, ?_, ?_, ?_, ?_, (congrArg Pair.exch pr :), ?_, ?_, fun g => ?_, ?_, ?_, ?_⟩
  · rw [parts.sys (by decide), given.op]
  · rw [(congrArg Pair.active pr :), (congrArg Pair.active prV :)]
    rfl
  · rw [(congrArg Pair.bridging pr :), (congrArg Pair.bridging prV :)]
    rfl
  · rw [parts.lk (by decide), given.link]
  · rw [parts.lk (by decide), given.epoch]
  · rw [counts, old]
  · rw [parts.gh (by decide), given.brakes]
  · rw [parts.gh (by decide), given.pulses g]
  · rw [parts.mem (by decide), given.parts.mem (by decide)]
  · rw [parts.cores (by decide), given.parts.cores (by decide)]
  · rw [parts.mo (by decide)]
    exact given.mo

theorem exchange_takes (s : State) (y : Exch) (asks : s.pr.exch = some y) (acked : y.acked = true) (before : y.overlap = false)
    (due : (s.lk.q + 1) % 2 ^ 32 = y.x) (op : s.sys.op = .runStandby) (passive : s.pr.active = false) :
    ∃ u, exec .exchange s = .next u ∧ u.sys.op = .runActive ∧ u.pr.active = true ∧
      u.lk.st = .lead ∧ u.lk.epoch = (s.lk.epoch + 1) % 65536 ∧ u.pr.exch = some { y with overlap := true } ∧
      regGet u 0xF3000D = regGet s 0xF3000D + 1 ∧ (∀ n, n < 8 → u.gh.brk.getLsbD n = brkOut u n) ∧ u.mem = s.mem ∧ u.cores = s.cores ∧ u.mo = s.mo := by
  have run : exec .exchange s = .next (exchanged y (becomeActive s)) :=
    congrArg Host.Outcome.next ((exchangeEff_due asks acked before due (.inr op)).trans (congrArg (exchanged y) (if_neg (by rw [passive]; decide))))
  have taken := becomeActive_spec s
  generalize becomeActive s = v at run taken
  obtain ⟨pr, counts, parts, regs⟩ := exchanged_spec y v
  have old : regGet v 0xF3000D = regGet s 0xF3000D := taken.regs.regGet (a := 0xF3000D) (not_orEvents (a := 0xF3000D) (by decide) (by decide))
  generalize exchanged y v = u at run pr counts parts regs
  refine ⟨u, run, ?_, ?_, ?_, ?_, (congrArg Pair.exch pr :), ?_, fun n hn => ?_, ?_, ?_, ?_⟩
  · rw [parts.sys (by decide), taken.op (by rw [op]; decide)]
  · rw [(congrArg Pair.active pr :), (congrArg Pair.active taken.pr :)]
    rfl
  · rw [parts.lk (by decide), taken.link]
  · rw [parts.lk (by decide), taken.epoch]
  · rw [counts, old]
  · rw [parts.gh (by decide), taken.brakes n hn]
    refine (brkOut_congr regs (by decide) (by rw [parts.gh (by decide)]) (by rw [parts.gh (by decide)]) ?_ (by rw [parts.sys (by decide)]) n).symm
    unfold drivesOutputs
    rw [(congrArg Pair.active pr :), (congrArg Pair.bridging pr :)]
  · rw [parts.mem (by decide), taken.parts.mem (by decide)]
  · rw [parts.cores (by decide), taken.parts.cores (by decide)]
  · rw [parts.mo (by decide), taken.parts.mo (by decide)]

theorem overlap_ends (s : State) (y : Exch) (asks : s.pr.exch = some y) (overlap : y.overlap = true) (due : (s.lk.q + 1) % 2 ^ 32 = (y.x + 2) % 2 ^ 32) :
    ∃ u, exec .exchangeOverlapEnd s = .next u ∧ u.pr = { s.pr with exch := none, bridging := false } ∧ (∀ n, n < 8 → u.gh.brk.getLsbD n = brkOut u n) ∧
      sameBut [.pr, .gh, .bv, .regs, .held] s u ∧ regsButEvents [] s u := by
  have run : exec .exchangeOverlapEnd s = .next (updateBrakes (setPr { s.pr with exch := none, bridging := false } s)) := by
    refine congrArg Host.Outcome.next ?_
    unfold overlapEnd
    simp only [asks]
    exact if_pos (by rw [overlap, due, beq_self_eq_true]; rfl)
  have begun := setPr_parts { s.pr with exch := none, bridging := false } s
  obtain ⟨shown, -, parts⟩ := updateBrakes_shows (setPr { s.pr with exch := none, bridging := false } s)
  exact ⟨_, run, parts.pr (by decide), shown, sameBut_trans (sameBut_mono (by decide) begun) (sameBut_mono (by decide) parts),
    regsButEvents_of_touches (touches_sameBut (touches_of_sameBut begun (by decide) (by decide)) parts (by decide) (by decide))⟩

/-- Settles O40. The refusal code 1 in XACK is log entry 26. -/
theorem exchangeIsAgreedAndCarriedOut : Obligations.ExchangeIsAgreedAndCarriedOut := fun s =>
  ⟨xreq_received s, xack_received s, fun y asks => ⟨xack_late s y asks,
    fun acked before due => ⟨exchange_yields s y asks acked before due, exchange_takes s y asks acked before due⟩, overlap_ends s y asks⟩⟩

end Sys2Proof.Machine
end

