-- ==== Sys2Proof/Proofs/Resets.lean ====
section
/-! PROOFS. Resets of the part (10 R303; 19 R468, R469, R494). -/

namespace Sys2Proof.Machine

variable {o s t : State}

/-! ### Everything cleared -/

theorem abandonArchive_none (h : s.bv.arch = none) : abandonArchive s = s := by
  unfold abandonArchive
  rw [h]

theorem abandonArchive_parts (s : State) : sameBut [.mem, .bv] s (abandonArchive s) := (abandonArchive_keeps (by decide) (keeps_refl _ s)).parts

/-- A channel at its reset value but for the levels at its inputs. -/
def inputLevels (x : FbChan) : FbChan := { FbChan.reset with a := x.a, b := x.b, z := x.z, sa := x.sa, sb := x.sb, sz := x.sz }

/-- What `cleared` leaves of a state. -/
structure clearedFrom (s u : State) : Prop where
  pending : u.pending = s.pending
  freeCtr : u.freeCtr = s.freeCtr
  mem : u.mem = { State.reset.mem with mram := u.mem.mram }
  mram : s.bv.arch = none → u.mem.mram = s.mem.mram
  gh : u.gh = { State.reset.gh with brkFb := s.gh.brkFb }
  fb : ∀ n : Fin 16, u.fb[n] = inputLevels s.fb[n]
  sys : u.sys = { State.reset.sys with per := s.sys.per, gpio := s.sys.gpio, tap := tapAfter s.sys.tap, testEn := s.sys.testEn, resetRec := s.sys.resetRec }
  regs : touches (· ∈ [0xF54004]) State.reset u
  parts : sameBut [.pending, .freeCtr, .sys, .regs, .held, .mem, .gh, .fb] State.reset u

theorem cleared_spec (s : State) : clearedFrom s (cleared s) := by
  have parts := abandonArchive_parts s
  have run : cleared s = { State.reset with
    pending := (abandonArchive s).pending, freeCtr := (abandonArchive s).freeCtr, mem := { State.reset.mem with mram := (abandonArchive s).mem.mram }
    sys := { State.reset.sys with per := (abandonArchive s).sys.per, gpio := (abandonArchive s).sys.gpio, tap := tapAfter (abandonArchive s).sys.tap,
                                  testEn := (abandonArchive s).sys.testEn, resetRec := (abandonArchive s).sys.resetRec }
    gh := { State.reset.gh with brkFb := (abandonArchive s).gh.brkFb }
    fb := (abandonArchive s).fb.map inputLevels
    regs := mapPut (resetWord 0xF54004) [] 0xF54004 (regGet (abandonArchive s) 0xF54004) } := rfl
  rw [run]
  refine ⟨parts.pending (by decide), parts.freeCtr (by decide), rfl, fun none => ?_, ?_, fun n => ?_, ?_, fun a ha => ⟨?_, ?_⟩, fun p hp => ?_⟩
  · show (abandonArchive s).mem.mram = _
    rw [abandonArchive_none none]
  · rw [parts.gh (by decide)]
  · show ((abandonArchive s).fb.map inputLevels)[n] = _
    rw [parts.fb (by decide)]
    exact Vector.getElem_map ..
  · rw [parts.sys (by decide)]
  · exact mapGet_mapPut_other _ _ _ _ fun e => ha (by rw [e]; exact List.mem_singleton_self _)
  · exact mapGet_mapPut_other _ _ _ _ fun e => ha (by rw [e]; exact List.mem_singleton_self _)
  · cases p <;> simp at hp <;> rfl

/-! ### The reset of a code -/

/-- The persistent block with a reset of a code more. -/
def withReset (code : Nat) (p : Persist) : Persist := { p with resets := p.resets.set (code - 1) (p.resets.getD (code - 1) 0 + 1) }

/-- A cleared part that begins in a state, before its reset source is shown. -/
def resetBegins (code : Nat) (op : OpState) (step : Nat) (held : Bool) (s : State) : State :=
  { s with sys := { s.sys with op := op, step := step, rstHeld := held, resetRec := some code, per := withReset code s.sys.per } }

/-- The control of a part after a reset. -/
def resetSys (code : Nat) (op : OpState) (step : Nat) (held : Bool) (x : SysCtl) : SysCtl :=
  { State.reset.sys with
    op := op, step := step, rstHeld := held, resetRec := some code, gpio := x.gpio, tap := tapAfter x.tap, testEn := x.testEn, per := withReset code x.per }

/-- A part after a reset. -/
structure resetTo (code : Nat) (op : OpState) (step : Nat) (held : Bool) (s u : State) : Prop where
  sys : u.sys = resetSys code op step held s.sys
  source : regGet u 0xF54004 = word (code * 2 ^ 16 + fld (regGet s 0xF54004) 19 16 * 2 ^ 12)
  pending : u.pending = s.pending
  freeCtr : u.freeCtr = s.freeCtr
  mem : u.mem = { State.reset.mem with mram := u.mem.mram }
  mram : s.bv.arch = none → u.mem.mram = s.mem.mram
  gh : u.gh = { State.reset.gh with brkFb := s.gh.brkFb }
  fb : ∀ n : Fin 16, u.fb[n] = inputLevels s.fb[n]
  regs : touches (· ∈ [0xF54004]) State.reset u
  parts : sameBut [.pending, .freeCtr, .sys, .regs, .held, .mem, .gh, .fb] State.reset u

theorem resetPart_spec (code : Nat) (op : OpState) (step : Nat) (held : Bool) (s : State) : resetTo code op step held s (resetPart code op step held s) := by
  have c := cleared_spec s
  have run : resetPart code op step held s = putWord 0xF54004 (word (code * 2 ^ 16 + fld (regGet s 0xF54004) 19 16 * 2 ^ 12))
    (resetBegins code op step held (cleared s)) := rfl
  rw [run]
  generalize cleared s = a at c
  have begun : sameBut [.sys] a (resetBegins code op step held a) := (keeps_sys _ (by decide) (keeps_refl [.sys] a)).parts
  have sys : (resetBegins code op step held a).sys = 
      { a.sys with op := op, step := step, rstHeld := held, resetRec := some code, per := withReset code a.sys.per } := rfl
  generalize resetBegins code op step held a = b at begun sys
  have put := (putWord_keeps (L := [.regs, .held]) 0xF54004 (word (code * 2 ^ 16 + fld (regGet s 0xF54004) 19 16 * 2 ^ 12)) (by decide) (keeps_refl _ b)).parts
  have all := sameBut_trans (l := [.sys, .regs, .held]) (sameBut_mono (by decide) begun) (sameBut_mono (by decide) put)
  refine ⟨?_, regGet_putWord_same _ _ _, ?_, ?_, ?_, fun none => ?_, ?_, fun n => ?_, ?_, ?_⟩
  · rw [put.sys (by decide), sys, c.sys]
    rfl
  · rw [all.pending (by decide), c.pending]
  · rw [all.freeCtr (by decide), c.freeCtr]
  · rw [all.mem (by decide)]
    exact c.mem
  · rw [all.mem (by decide), c.mram none]
  · rw [all.gh (by decide), c.gh]
  · rw [all.fb (by decide), c.fb n]
  · exact touches_putWord _ (by decide) (touches_sameBut c.regs begun (by decide) (by decide))
  · exact sameBut_trans c.parts (sameBut_mono (by decide) all)

/-- Another lock changes nothing of what a reset keeps. -/
theorem resetTo_armLock {code : Nat} {op : OpState} {step : Nat} {held : Bool} {u : State} (who : Requester)
    (h : resetTo code op step held (armLock who s) u) : resetTo code op step held s u :=
  ⟨h.sys, h.source, h.pending, h.freeCtr, h.mem, h.mram, h.gh, h.fb, h.regs, h.parts⟩

theorem reset_command (s : State) (cmd : Instr) (code : Nat) (op : OpState) (step : Nat) (held : Bool)
    (shape : cmd = .porstNLow ∧ code = 1 ∧ op = .powerUp ∧ step = 0 ∧ held = false ∨
      cmd = .railPowerOnReset ∧ code = 2 ∧ op = .powerUp ∧ step = 0 ∧ held = false ∨
      cmd = .internalResetRelease ∧ s.ph.l5 = true ∧ s.ph.flushed = true ∧ code = 3 ∧ op = .powerUp ∧ step = 0 ∧ held = false ∨
      cmd = .rstNReset ∧ s.sys.op ≠ .powerUp ∧ s.ph.l5 = false ∧ code = 4 ∧ op = .boot ∧ step = 0 ∧ held = true ∨
      (∃ who, cmd = .swrst who) ∧ s.ph.l5 = false ∧ s.sys.rstHeld = false ∧ s.sys.op ∈ [OpState.config, .join, .safe, .recovery] ∧ code = 5 ∧
        op = .boot ∧ step = 1 ∧ held = false) :
    1 ≤ code ∧ code ≤ 5 ∧ ∃ u, exec cmd s = .next u ∧ resetTo code op step held s u := by
  rcases shape with ⟨rfl, rfl, rfl, rfl, rfl⟩ | ⟨rfl, rfl, rfl, rfl, rfl⟩ | ⟨rfl, five, flushed, rfl, rfl, rfl, rfl⟩ | ⟨rfl, out, calm, rfl, rfl, rfl, rfl⟩ |
    ⟨⟨who, rfl⟩, calm, free, out, rfl, rfl, rfl, rfl⟩
  · exact ⟨by decide, by decide, _, rfl, resetPart_spec 1 .powerUp 0 false s⟩
  · exact ⟨by decide, by decide, _, rfl, resetPart_spec 2 .powerUp 0 false s⟩
  · exact ⟨by decide, by decide, _, congrArg Host.Outcome.next (if_pos (by rw [five, flushed]; rfl)), resetPart_spec 3 .powerUp 0 false s⟩
  · exact ⟨by decide, by decide, _, congrArg Host.Outcome.next (if_neg (by rw [calm]; simpa using out)), resetPart_spec 4 .boot 0 true s⟩
  · simp only [List.mem_cons, List.not_mem_nil, or_false] at out
    have reach : nvReach s = true := by
      unfold nvReach
      rw [free]
      rcases out with h | h | h | h <;> rw [h] <;> rfl
    have taken : nvSwrst who (armLock who s) = resetPart 5 .boot 1 false (armLock who s) := by
      refine (if_neg (by rw [armLock_ph, calm]; decide)).trans (if_pos ?_)
      rcases out with h | h | h | h
      · exact .inl h
      · exact .inr (.inl h)
      · exact .inr (.inr (.inl h))
      · exact .inr (.inr (.inr (.inl h)))
    exact ⟨by decide, by decide, _, congrArg Host.Outcome.next ((if_pos reach).trans taken), resetTo_armLock who (resetPart_spec 5 .boot 1 false (armLock who s))⟩

theorem resets_clear (s : State) (cmd : Instr) (code : Nat) (op : OpState) (step : Nat) (held : Bool)
    (shape : cmd = .porstNLow ∧ code = 1 ∧ op = .powerUp ∧ step = 0 ∧ held = false ∨
      cmd = .railPowerOnReset ∧ code = 2 ∧ op = .powerUp ∧ step = 0 ∧ held = false ∨
      cmd = .internalResetRelease ∧ s.ph.l5 = true ∧ s.ph.flushed = true ∧ code = 3 ∧ op = .powerUp ∧ step = 0 ∧ held = false ∨
      cmd = .rstNReset ∧ s.sys.op ≠ .powerUp ∧ s.ph.l5 = false ∧ code = 4 ∧ op = .boot ∧ step = 0 ∧ held = true ∨
      (∃ who, cmd = .swrst who) ∧ s.ph.l5 = false ∧ s.sys.rstHeld = false ∧ s.sys.op ∈ [OpState.config, .join, .safe, .recovery] ∧ code = 5 ∧
        op = .boot ∧ step = 1 ∧ held = false) :
    ∃ u, exec cmd s = .next u ∧ u.sys.op = op ∧ u.sys.step = step ∧ u.sys.rstHeld = held ∧ u.sys.resetRec = some code ∧
      regGet u 0xF54004 = word (code * 2 ^ 16 + fld (regGet s 0xF54004) 19 16 * 2 ^ 12) ∧ u.pending = s.pending ∧ u.freeCtr = s.freeCtr ∧
      u.mem = { State.reset.mem with mram := u.mem.mram } ∧ (s.bv.arch = none → u.mem.mram = s.mem.mram) ∧
      u.sys.per = { s.sys.per with resets := u.sys.per.resets } ∧
      (s.sys.per.resets.length = 5 → u.sys.per.resets.getD (code - 1) 0 = s.sys.per.resets.getD (code - 1) 0 + 1 ∧
        ∀ i, i ≠ code - 1 → u.sys.per.resets[i]? = s.sys.per.resets[i]?) ∧
      regsBut [0xF54004] State.reset u ∧ u.gh = { State.reset.gh with brkFb := s.gh.brkFb } ∧ u.sys.tap = tapAfter s.sys.tap ∧
      (∀ n : Fin 16, u.fb[n] = { FbChan.reset with a := s.fb[n].a, b := s.fb[n].b, z := s.fb[n].z, sa := s.fb[n].sa, sb := s.fb[n].sb, sz := s.fb[n].sz }) ∧
      sameBut [.pending, .freeCtr, .sys, .regs, .held, .mem, .gh, .fb] State.reset u := by
  obtain ⟨low, high, u, run, h⟩ := reset_command s cmd code op step held shape
  have resets : u.sys.per.resets = s.sys.per.resets.set (code - 1) (s.sys.per.resets.getD (code - 1) 0 + 1) := (congrArg (fun x : SysCtl => x.per.resets) h.sys :)
  refine ⟨u, run, (congrArg SysCtl.op h.sys :), (congrArg SysCtl.step h.sys :), (congrArg SysCtl.rstHeld h.sys :), (congrArg SysCtl.resetRec h.sys :), h.source,
    h.pending, h.freeCtr, h.mem, h.mram, ?_, fun five => ⟨?_, fun i apart => ?_⟩, regsBut_of_touches h.regs, h.gh, (congrArg SysCtl.tap h.sys :), h.fb, h.parts⟩
  · rw [h.sys]
    rfl
  · rw [resets, List.getD_eq_getElem?_getD, List.getElem?_set_self (by omega)]
    rfl
  · rw [resets, List.getElem?_set_ne (Ne.symm apart)]

/-! ### Resets ignored, dropped and released -/

theorem rstN_ignored (s : State) (h : s.sys.op = .powerUp ∨ s.ph.l5 = true) : exec .rstNReset s = .next s := congrArg Host.Outcome.next (if_pos h)

theorem rstN_released (s : State) (held : s.sys.rstHeld = true) :
    ∃ u, exec .rstNRelease s = .next u ∧ u.sys = { s.sys with rstHeld := false, step := 1 } ∧ sameBut [.sys] s u :=
  ⟨_, congrArg Host.Outcome.next (if_pos held), rfl, (keeps_sys _ (by decide) (keeps_refl [.sys] s)).parts⟩

theorem powerUp_ends (s : State) (t : Bool) (op : s.sys.op = .powerUp) (calm : s.ph.l5 = false) :
    ∃ u, exec (.powerUpEnd t) s = .next u ∧ u.sys = { s.sys with op := .boot, step := 1, testEn := t } ∧ sameBut [.sys] s u :=
  ⟨_, congrArg Host.Outcome.next (if_pos ⟨op, by rw [calm]; rfl⟩), rfl, (keeps_sys _ (by decide) (keeps_refl [.sys] s)).parts⟩

theorem swrst_dropped (s : State) (who : Requester) (calm : s.ph.l5 = false) (free : s.sys.rstHeld = false) (op : s.sys.op = .runActive) (level : effLevel s ≠ 4) :
    ∃ u, exec (.swrst who) s = .next u ∧
      regGet u 0xF50001 = regGet s 0xF50001 + 1 ∧ fld (regGet u 0xF50004) 15 8 = 6 ∧ sameBut [.sys, .regs, .held] s u ∧
      regsBut [0xF50001, 0xF50002, 0xF50003, 0xF50004] s u := by
  have reach : nvReach s = true := by
    unfold nvReach
    rw [free, op]
    rfl
  have taken : nvSwrst who (armLock who s) = dropWrite who 0xF54000 6 (armLock who s) := by
    refine (if_neg (by rw [armLock_ph, calm]; decide)).trans (if_neg ?_)
    rw [show (armLock who s).sys.op = .runActive from op]
    rintro (h | h | h | h | ⟨h, -⟩)
    · cases h
    · cases h
    · cases h
    · cases h
    · exact level h
  obtain ⟨regs, counts, -⟩ := dropWrite_spec who 0xF54000 6 (armLock who s)
  have begun := armLock_sameBut who s
  exact ⟨_, congrArg Host.Outcome.next ((if_pos reach).trans taken), counts, dropWrite_why who _ (by decide) _,
    sameBut_trans (sameBut_mono (by decide) begun) (dropWrite_keeps _ _ _ (by decide) (keeps_refl [.sys, .regs, .held] (armLock who s))).parts,
    regsBut_of_touches (touches_trans (touches_of_sameBut begun (by decide) (by decide)) regs)⟩

/-! ### The end of the flush -/

theorem flushRecords_retSeq (s : State) : (flushRecords s).sys.per.retSeq = s.sys.per.retSeq := by
  refine upTo_induct (fun t => t.sys.per.retSeq = s.sys.per.retSeq) 32 _ (fun _ _ t h => ?_) rfl
  unfold flushRecord
  split
  · exact h
  · next e es _ =>
      have parts := (pcSys_keeps (L := [.regs, .held, .mem, .pg, .bv, .pc]) 0x5D e.length (by decide) (mramPutAll_keeps (0x800 + 8 * ((e.getD 1 0).toNat % 256)) e (by decide)
        (keeps_refl _ { t with sys := { t.sys with frBuf := es } }))).parts
      rw [parts.sys (by decide)]
      exact h

/-- A state in which the entry of the change log with number n is in MRAM, with the CRC over it. -/
def logTaken (n c : Nat) (s : State) : State :=
  { s with sys := { s.sys with per := { s.sys.per with logNext := (n + 1) % 2 ^ 32 } }, gh := { s.gh with logCrc := c } }

theorem showLogTaken_retSeq (n c : Nat) (s : State) : (showLog (logTaken n c s)).sys.per.retSeq = s.sys.per.retSeq :=
  (congrArg (fun x : SysCtl => x.per.retSeq) ((showLog_keeps (L := [.regs, .held, .pg, .bv, .pc]) (by decide) (keeps_refl _ (logTaken n c s))).parts.sys (by decide)) :)

theorem logWrite_retSeq (x : LogPend) (s : State) : (logWrite x s).sys.per.retSeq = s.sys.per.retSeq := by
  unfold logWrite
  extract_lets n ws c s1
  clear_value c ws
  have first : s1.sys = s.sys := (pcSys_keeps (L := [.regs, .held, .mem, .pg, .bv, .pc]) 0x5D 12 (by decide)
    (mramPutAll_keeps (0x64000 + 12 * (n % 4096)) ws (by decide) (keeps_refl _ s))).parts.sys (by decide)
  clear_value s1 n
  rw [← first]
  exact showLogTaken_retSeq n c s1

/-- What the flush writes before the return record. -/
def flushFirst (s : State) : State :=
  match (flushRecords (forEach s.mo.stores flushStore s)).gh.log.find? fun x => !x.own with
  | none => flushRecords (forEach s.mo.stores flushStore s)
  | some x => logWrite x (flushRecords (forEach s.mo.stores flushStore s))

theorem flushFirst_retSeq (s : State) : (flushFirst s).sys.per.retSeq = s.sys.per.retSeq := by
  have stores : (forEach s.mo.stores flushStore s).sys = s.sys :=
    forEach_induct (fun t => t.sys = s.sys) _ _ (fun x _ t h =>
      ((flushStore_keeps (L := [.freeCtr, .regs, .held, .mem, .pg, .mo, .bv, .pc]) x (by decide) (keeps_refl _ t)).parts.sys (by decide)).trans h) rfl
  have records := flushRecords_retSeq (forEach s.mo.stores flushStore s)
  rw [stores] at records
  unfold flushFirst
  split
  · exact records
  · exact (logWrite_retSeq _ _).trans records

theorem writeReturn_retSeq (s : State) : (writeReturn s).sys.per.retSeq = (s.sys.per.retSeq + 1) % 2 ^ 32 := by
  unfold writeReturn
  extract_lets ws s1
  have first : s1.sys = s.sys := (mramPutAll_keeps (L := [.mem]) _ ws (by decide) (keeps_refl _ s)).parts.sys (by decide)
  have last := (pcSys_keeps (L := [.regs, .held, .pg, .bv, .pc]) 0x5D ws.length (by decide)
    (keeps_refl _ { s1 with sys := { s1.sys with per := { s1.sys.per with retSeq := (s1.sys.per.retSeq + 1) % 2 ^ 32 } } })).parts
  rw [last.sys (by decide), ← first]

/-- A part whose flush is over waits in POWER-UP for the release of its reset, HOLD_DIS as it was. -/
def flushedPart (hold : Bool) (s : State) : State :=
  { s with sys := { s.sys with op := .powerUp, step := 0, resetRec := none }, ph := { s.ph with l5 := true, flushed := true, holdDis := hold, holdChg := false } }

theorem flush_completes (s : State) (five : s.ph.l5 = true) (before : s.ph.flushed = false) :
    ∃ u, exec .flushComplete s = .next u ∧ u.sys.op = .powerUp ∧ u.ph.l5 = true ∧ u.ph.flushed = true ∧
      u.ph.holdDis = s.ph.holdDis ∧ u.pending = s.pending ∧ u.sys.per.retSeq ≠ s.sys.per.retSeq ∧ regsBut [0xF54004] State.reset u ∧
      u.cores = State.reset.cores := by
  have run : exec .flushComplete s = .next (flushedPart s.ph.holdDis (cleared (flushAll s))) := by
    refine congrArg Host.Outcome.next ?_
    unfold flushComplete
    generalize cleared (flushAll s) = r
    exact if_pos (by rw [five, before]; rfl)
  have seq : (flushAll s).sys.per.retSeq = (s.sys.per.retSeq + 1) % 2 ^ 32 := by
    rw [show flushAll s = writeReturn (flushFirst s) from rfl, writeReturn_retSeq, flushFirst_retSeq]
  have pending := (flushAll_keeps (L := [.freeCtr, .sys, .regs, .held, .mem, .pg, .mo, .bv, .gh, .pc]) (by decide) (keeps_refl _ s)).parts.pending (by decide)
  generalize flushAll s = f at run seq pending
  have c := cleared_spec f
  generalize cleared f = v at run c
  have perV : v.sys.per = f.sys.per := (congrArg SysCtl.per c.sys :)
  refine ⟨_, run, rfl, rfl, rfl, rfl, c.pending.trans pending, ?_, regsBut_of_touches (touches_same c.regs rfl rfl), c.parts.cores (by decide)⟩
  show v.sys.per.retSeq ≠ _
  rw [perV, seq]
  omega

/-- Settles O41. The levels of the feedback and brake read-back outlast a reset by log entry 72; POWER-UP with everything cleared while the reset of L5 is held is log entry 58. -/
theorem resetsClearThePart : Obligations.ResetsClearThePart := fun s cmd code op step held shape =>
  ⟨resets_clear s cmd code op step held shape, rstN_ignored s, rstN_released s, powerUp_ends s, swrst_dropped s, flush_completes s⟩

end Sys2Proof.Machine
end

