-- ==== Sys2Proof/Proofs/BootSteps.lean ====
section
/-! PROOFS. The steps of BOOT and boot hold (19 R471-R474). -/

namespace Sys2Proof.Machine

variable {o s t : State}

/-! ### Program memory -/

theorem pgmGet_pgmSet_same (n i : Nat) (w : BitVec 40) (s : State) : pgmGet (pgmSet n i w s) n i = w := mapGet_mapPut_same ..

theorem pgmGet_pgmSet_other {n i m j : Nat} (w : BitVec 40) (s : State) (hi : i < 131072) (hj : j < 131072) (apart : (m, j) ≠ (n, i)) :
    pgmGet (pgmSet n i w s) m j = pgmGet s m j :=
  mapGet_mapPut_other _ _ _ _ fun e => apart (by
    have : m = n ∧ j = i := by omega
    rw [this.1, this.2])

theorem pgmSet_mem (n i : Nat) (w : BitVec 40) (s : State) : (pgmSet n i w s).mem = { s.mem with pgm := (pgmSet n i w s).mem.pgm } := rfl

theorem pgmSet_parts (n i : Nat) (w : BitVec 40) (s : State) : sameBut [.mem] s (pgmSet n i w s) := (pgmSet_keeps n i w (by decide) (keeps_refl _ s)).parts

/-- The instruction of place i in the segment of core n. -/
def imageInstr (s : State) (n i : Nat) : BitVec 40 :=
  BitVec.ofNat 40 ((mramGet s (segBase s n + 2 * i)).toNat * 2 ^ 20 + (mramGet s (segBase s n + 2 * i + 1)).toNat)

theorem imageInstr_toNat (s : State) (n i : Nat) :
    (imageInstr s n i).toNat = (mramGet s (segBase s n + 2 * i)).toNat * 2 ^ 20 + (mramGet s (segBase s n + 2 * i + 1)).toNat := by
  have hi := (mramGet s (segBase s n + 2 * i)).isLt
  have lo := (mramGet s (segBase s n + 2 * i + 1)).isLt
  unfold imageInstr
  rw [BitVec.toNat_ofNat, Nat.mod_eq_of_lt (by omega)]

theorem segLen_le (s : State) (n : Nat) : segLen s n ≤ 131072 := min_le_left ..

/-- A state into whose program memory the part of a core's segment that lies below j, and those of the cores below n, have been loaded. -/
structure loadedTo (s : State) (n j : Nat) (t : State) : Prop where
  cores : ∀ m i, m < n → i < segLen s m → pgmGet t m i = imageInstr s m i
  here : ∀ i, i < j → pgmGet t n i = imageInstr s n i
  others : ∀ m i, i < 131072 → (m < n → segLen s m ≤ i) → (m = n → j ≤ i) → pgmGet t m i = pgmGet s m i
  mem : t.mem = { s.mem with pgm := t.mem.pgm }
  parts : sameBut [.mem] s t

theorem loadedTo.mram (h : loadedTo s n j t) (a : Nat) : mramGet t a = mramGet s a := (congrArg (fun m : Mems => mapGet 0 m.mram a) h.mem :)

theorem loadedTo.segLen (h : loadedTo s n j t) (m : Nat) : segLen t m = segLen s m := by
  unfold Machine.segLen
  rw [h.mram]

theorem loadedTo.instr (h : loadedTo s n j t) (m i : Nat) : imageInstr t m i = imageInstr s m i := by
  have base : segBase t m = segBase s m := by
    unfold segBase
    rw [funext h.segLen]
  unfold imageInstr
  rw [base, h.mram, h.mram]

theorem loadedTo_step {n j : Nat} (h : loadedTo s n j t) (hj : j < segLen s n) : loadedTo s n (j + 1) (pgmSet n j (imageInstr t n j) t) := by
  have small := Nat.lt_of_lt_of_le hj (segLen_le s n)
  refine ⟨fun m i hm hi => ?_, fun i hi => ?_, fun m i hi low high => ?_, ?_, sameBut_trans h.parts (pgmSet_parts _ _ _ _)⟩
  · rw [pgmGet_pgmSet_other _ _ small (Nat.lt_of_lt_of_le hi (segLen_le s m)) fun e => by injection e; omega, h.cores m i hm hi]
  · by_cases e : i = j
    · rw [e, pgmGet_pgmSet_same, h.instr]
    · rw [pgmGet_pgmSet_other _ _ small (by omega) fun k => e (by injection k), h.here i (by omega)]
  · rw [pgmGet_pgmSet_other _ _ small hi fun e => by injection e with a b; have := high a; omega, h.others m i hi low fun e => by have := high e; omega]
  · rw [pgmSet_mem, h.mem]

theorem loadedTo_core {n : Nat} (h : loadedTo s n 0 t) : loadedTo s (n + 1) 0 (upTo (segLen t n) (fun i s => pgmSet n i (imageInstr s n i) s) t) := by
  rw [h.segLen]
  have all := upTo_steps (loadedTo s n) (segLen s n) (fun i s => pgmSet n i (imageInstr s n i) s) h fun i hi _ k => loadedTo_step k hi
  generalize upTo (segLen s n) (fun i s => pgmSet n i (imageInstr s n i) s) t = u at all
  refine ⟨fun m i hm hi => ?_, fun i hi => absurd hi (Nat.not_lt_zero i), fun m i hi low _ => ?_, all.mem, all.parts⟩
  · by_cases e : m = n
    · rw [e]
      exact all.here i (by rw [← e]; exact hi)
    · exact all.cores m i (by omega) hi
  · exact all.others m i hi (fun k => low (by omega)) fun e => by rw [← e]; exact low (by omega)

/-- Every core's segment is loaded. -/
theorem loadImage_spec (s : State) :
    (∀ n i, n < 8 → i < segLen s n → pgmGet (loadImage s) n i = imageInstr s n i) ∧
      (∀ n i, n < 8 → segLen s n ≤ i → i < 131072 → pgmGet (loadImage s) n i = pgmGet s n i) ∧
      (loadImage s).mem = { s.mem with pgm := (loadImage s).mem.pgm } ∧ (loadImage s).sys = s.sys := by
  have none : loadedTo s 0 0 s := ⟨fun _ _ h => absurd h (Nat.not_lt_zero _), fun _ h => absurd h (Nat.not_lt_zero _), fun _ _ _ _ _ => rfl, rfl, sameBut_refl _ s⟩
  have all := upTo_steps (fun n => loadedTo s n 0) 8 (fun n s => upTo (segLen s n) (fun i s => pgmSet n i (imageInstr s n i) s) s) none
    fun n _ _ h => loadedTo_core h
  have run : loadImage s = pcSys 0x5E (imageLen s) (upTo 8 (fun n s => upTo (segLen s n) (fun i s => pgmSet n i (imageInstr s n i) s) s) s) := rfl
  rw [run]
  generalize upTo 8 (fun n s => upTo (segLen s n) (fun i s => pgmSet n i (imageInstr s n i) s) s) s = t at all
  have events : onlyEvents t (pcSys 0x5E (imageLen s) t) := pcSys_onlyEvents 0x5E _ (onlyEvents_refl t)
  generalize pcSys 0x5E (imageLen s) t = u at events
  have mem := events.parts.mem (by decide)
  have pgm (n i : Nat) : pgmGet u n i = pgmGet t n i := congrArg (fun m : Mems => mapGet 0 m.pgm (n * 131072 + i)) mem
  refine ⟨fun n i hn hi => (pgm n i).trans (all.cores n i hn hi), fun n i hn lo hi => (pgm n i).trans (all.others n i hi (fun _ => lo) fun e => by omega), ?_, ?_⟩
  · rw [mem]
    exact all.mem
  · rw [events.parts.sys (by decide), all.parts.sys (by decide)]

/-! ### The steps -/

theorem bootStep_eq (d : BitVec 5) (op : s.sys.op = .boot) (free : s.sys.rstHeld = false) (hold : s.sys.bootHold = false) (wait : s.sys.bwait = false) :
    bootStep d s = if s.sys.step = 1 then toStep 2 { s with mains := { s.mains with tBoot := s.now } }
      else if s.sys.step = 2 then toStep 3 (loadBoot s)
      else if s.sys.step = 3 then beginWait (showPersist (checkPersist d s))
      else if s.sys.step = 5 then (if imageOk s then toStep 6 (loadImage s) else enterBootHold (putBit 0xF54001 18 true s))
      else if s.sys.step = 6 then toStep 7 (loadCopy s)
      else if s.sys.step = 7 then toStep 8 (restoreRings s)
      else if s.sys.step = 8 then endBoot { s with gh := { s.gh with sigs := [] } }
      else s := by
  refine if_neg ?_
  unfold bootRuns
  rw [op, free, hold, wait]
  decide

theorem toStep_parts (n : Nat) (s : State) : sameBut [.sys] s (toStep n s) := (keeps_sys _ (by decide) (keeps_refl [.sys] s)).parts

theorem fld_word_mode {x : Nat} (h : x < 4) : fld (word (x * 2 ^ 18)) 19 18 = x := by
  unfold fld word
  rw [BitVec.toNat_ofNat]
  omega

theorem fld_word_wait {x : Nat} (h : x < 2 ^ 17) : fld (word (x * 2)) 17 1 = x := by
  unfold fld word
  rw [BitVec.toNat_ofNat]
  omega

/-- What step 2 does with the record it has found. -/
def bootRecordUsed (r : Option (Nat × Nat × Word)) (s : State) : State :=
  match r with
  | none => putBit 0xF54001 15 true s
  | some (_, _, w) => putWord 0xF54003 (word (fld w 17 1 * 2)) (putWord 0xF54002 (word (fld w 19 18 * 2 ^ 18)) s)

theorem loadBoot_eq (s : State) : loadBoot s = bootRecordUsed (bootRecord s) s := rfl

theorem loadBoot_found {k q : Nat} {w : Word} (record : bootRecord s = some (k, q, w)) :
    loadBoot s = putWord 0xF54003 (word (fld w 17 1 * 2)) (putWord 0xF54002 (word (fld w 19 18 * 2 ^ 18)) s) :=
  (loadBoot_eq s).trans (congrArg (fun r => bootRecordUsed r s) record)

theorem loadBoot_missing (record : bootRecord s = none) : loadBoot s = putBit 0xF54001 15 true s :=
  (loadBoot_eq s).trans (congrArg (fun r => bootRecordUsed r s) record)

theorem fld_loadBoot {k q : Nat} {w : Word} (record : bootRecord s = some (k, q, w)) :
    fld (regGet (loadBoot s) 0xF54002) 19 18 = fld w 19 18 ∧ fld (regGet (loadBoot s) 0xF54003) 17 1 = fld w 17 1 := by
  have mode : fld w 19 18 < 4 := Nat.mod_lt _ (by decide)
  have wait : fld w 17 1 < 2 ^ 17 := Nat.mod_lt _ (by decide)
  rw [loadBoot_found record]
  refine ⟨?_, ?_⟩
  · rw [regGet_putWord_other _ _ (by decide), regGet_putWord_same, fld_word_mode mode]
  · rw [regGet_putWord_same, fld_word_wait wait]

theorem loadBoot_frame (s : State) : sameBut [.regs, .held] s (loadBoot s) ∧ touches (· ∈ [0xF54001, 0xF54002, 0xF54003]) s (loadBoot s) := by
  cases record : bootRecord s with
  | none =>
    rw [loadBoot_missing record]
    exact ⟨(putBit_keeps _ _ _ (by decide) (keeps_refl _ s)).parts, touches_putBit 15 true (by decide) (touches_refl _ s)⟩
  | some x =>
    rw [loadBoot_found record]
    exact ⟨(putWord_keeps _ _ (by decide) (putWord_keeps _ _ (by decide) (keeps_refl _ s))).parts,
      touches_putWord _ (by decide) (touches_putWord _ (by decide) (touches_refl _ s))⟩

theorem toStep_spec {n : Nat} {v : State} {as : List Nat} (parts : sameBut [.regs, .held] s v) (regs : touches (· ∈ as) s v) :
    (toStep n v).sys = { s.sys with step := n } ∧ sameBut [.sys, .regs, .held] s (toStep n v) ∧ regsBut as s (toStep n v) := by
  refine ⟨?_, sameBut_trans (sameBut_mono (by decide) parts) (sameBut_mono (by decide) (toStep_parts n v)),
    regsBut_of_touches (touches_sameBut regs (toStep_parts n v) (by decide) (by decide))⟩
  show ({ v.sys with step := n } : SysCtl) = _
  rw [parts.sys (by decide)]

theorem regGet_toStep (n : Nat) (s : State) (a : Nat) : regGet (toStep n s) a = regGet s a := regGet_of_regs rfl a

theorem bootStep_record (d : BitVec 5) (run : exec (.bootStepComplete d) s = .next (toStep 3 (loadBoot s))) :
    ∃ u, exec (.bootStepComplete d) s = .next u ∧ u.sys = { s.sys with step := 3 } ∧
      (∀ k q w, bootRecord s = some (k, q, w) → fld (regGet u 0xF54002) 19 18 = fld w 19 18 ∧ fld (regGet u 0xF54003) 17 1 = fld w 17 1) ∧
      (bootRecord s = none → bit (regGet u 0xF54001) 15 = true) ∧ sameBut [.sys, .regs, .held] s u ∧ regsBut [0xF54001, 0xF54002, 0xF54003] s u := by
  obtain ⟨parts, regs⟩ := loadBoot_frame s
  obtain ⟨sys, partsU, regsU⟩ := toStep_spec (n := 3) parts regs
  refine ⟨_, run, sys, fun k q w found => ?_, fun missing => ?_, partsU, regsU⟩
  · rw [regGet_toStep, regGet_toStep]
    exact fld_loadBoot found
  · rw [regGet_toStep, loadBoot_missing missing, bit_putBit_same _ _ _ (by decide)]

/-! ### The persistent block -/

/-- The registers of the change log and of the authorisations. -/
abbrev logRegs : List Nat := [0xF34048, 0xF34049, 0xF3404A, 0xF3404B, 0xF3404C]

theorem showLog_touches (s : State) : touches (orEvents logRegs) s (showLog s) := by
  unfold showLog
  extract_lets u full near s1 s2
  have first : touches (orEvents logRegs) s s1 := touches_putPair _ (.inl (by decide)) (.inl (by decide)) (touches_putPair _ (.inl (by decide)) (.inl (by decide)) (touches_refl _ s))
  have raised : touches (orEvents logRegs) s s2 :=
    touches_whenB _ (fun v h => touches_events h (raiseEvent_onlyEvents (by decide) (onlyEvents_refl v)))
      (touches_whenB _ (fun v h => touches_events h (raiseEvent_onlyEvents (by decide) (onlyEvents_refl v))) first)
  exact touches_putFld 12 0 _ (.inl (by decide)) (touches_putBit 18 _ (.inl (by decide)) (touches_putBit 19 _ (.inl (by decide)) raised))

theorem showPw_touches (s : State) : touches (· ∈ [0xF34045]) s (showPw s) :=
  touches_putBit 17 _ (by decide) (touches_putBit 18 _ (by decide) (touches_putBit 19 _ (by decide) (touches_refl _ s)))

/-- The items of the persistent block in the places where the part uses them. -/
def persistUsed (s : State) : State :=
  { s with lk := { s.lk with epoch := s.sys.per.epoch },
           gh := { s.gh with pw := { s.gh.pw with salt := s.sys.per.salt, digest := s.sys.per.digest, isDefault := s.sys.per.pwDefault } } }

theorem showPersist_spec (s : State) :
    (showPersist s).lk.epoch = s.sys.per.epoch ∧ (showPersist s).gh.pw.digest = s.sys.per.digest ∧ regGet (showPersist s) 0xF30006 = word s.sys.per.xage ∧
      regGet (showPersist s) 0xF38034 = word s.sys.per.l5cnt ∧ (showPersist s).sys = s.sys ∧ (showPersist s).mem = s.mem ∧
      regGet (showPersist s) 0xF54001 = regGet s 0xF54001 ∧ inForce (showPersist s) 0xF54003 = inForce s 0xF54003 := by
  have run : showPersist s = showPw (showLog (putWord 0xF38034 (word s.sys.per.l5cnt) (putWord 0xF30006 (word s.sys.per.xage)
    (putWord 0xF2800C (word s.sys.per.epoch) (persistUsed s))))) := rfl
  have put := (putWord_keeps (L := [.regs, .held]) 0xF38034 (word s.sys.per.l5cnt) (by decide) (putWord_keeps 0xF30006 (word s.sys.per.xage) (by decide)
    (putWord_keeps 0xF2800C (word s.sys.per.epoch) (by decide) (keeps_refl _ (persistUsed s))))).parts
  have begun : touches (· ∈ [0xF2800C, 0xF30006, 0xF38034]) s (persistUsed s) := touches_same (touches_refl _ s) rfl rfl
  have regs : touches (· ∈ [0xF2800C, 0xF30006, 0xF38034]) s (putWord 0xF38034 (word s.sys.per.l5cnt) (putWord 0xF30006 (word s.sys.per.xage)
      (putWord 0xF2800C (word s.sys.per.epoch) (persistUsed s)))) :=
    touches_putWord _ (by decide) (touches_putWord _ (by decide) (touches_putWord _ (by decide) begun))
  have l5 : regGet (putWord 0xF38034 (word s.sys.per.l5cnt) (putWord 0xF30006 (word s.sys.per.xage)
      (putWord 0xF2800C (word s.sys.per.epoch) (persistUsed s)))) 0xF38034 = word s.sys.per.l5cnt := regGet_putWord_same _ _ _
  have xage : regGet (putWord 0xF38034 (word s.sys.per.l5cnt) (putWord 0xF30006 (word s.sys.per.xage)
      (putWord 0xF2800C (word s.sys.per.epoch) (persistUsed s)))) 0xF30006 = word s.sys.per.xage := by
    rw [regGet_putWord_other _ _ (by decide), regGet_putWord_same]
  rw [run]
  have lk : (putWord 0xF38034 (word s.sys.per.l5cnt) (putWord 0xF30006 (word s.sys.per.xage)
      (putWord 0xF2800C (word s.sys.per.epoch) (persistUsed s)))).lk.epoch = s.sys.per.epoch := congrArg Link.epoch (put.lk (by decide))
  have gh : (putWord 0xF38034 (word s.sys.per.l5cnt) (putWord 0xF30006 (word s.sys.per.xage)
      (putWord 0xF2800C (word s.sys.per.epoch) (persistUsed s)))).gh.pw.digest = s.sys.per.digest := congrArg (fun x : Gatehouse => x.pw.digest) (put.gh (by decide))
  have sys := put.sys (by decide)
  have mem := put.mem (by decide)
  generalize putWord 0xF38034 (word s.sys.per.l5cnt) (putWord 0xF30006 (word s.sys.per.xage) (putWord 0xF2800C (word s.sys.per.epoch) (persistUsed s))) = v
    at regs l5 xage lk gh sys mem
  have parts := (showPw_keeps (L := [.regs, .held, .pg, .bv, .pc]) (by decide) (showLog_keeps (by decide) (keeps_refl _ v))).parts
  have rest : touches (orEvents (0xF34045 :: logRegs)) v (showPw (showLog v)) :=
    touches_trans (touches_mono (showLog_touches v) (orEvents_mono fun _ => List.mem_cons_of_mem _))
      (touches_mono (showPw_touches (showLog v)) fun a h => .inl (by rw [List.mem_singleton.mp h]; exact List.mem_cons_self ..))
  have still {a : Nat} (out : canonAddr a ∉ 0xF34045 :: logRegs) (plain : eventReg (canonAddr a) = false) := rest a (not_orEvents out plain)
  refine ⟨?_, ?_, ?_, ?_, ?_, ?_, ?_, ?_⟩
  · rw [parts.lk (by decide), lk]
  · rw [parts.gh (by decide), gh]
  · rw [(still (a := 0xF30006) (by decide) (by decide)).1, xage]
  · rw [(still (a := 0xF38034) (by decide) (by decide)).1, l5]
  · rw [parts.sys (by decide), sys]
    rfl
  · rw [parts.mem (by decide), mem]
    rfl
  · rw [(still (a := 0xF54001) (by decide) (by decide)).1, regs.regGet (a := 0xF54001) (by decide)]
  · rw [(still (a := 0xF54003) (by decide) (by decide)).2, (regs 0xF54003 (by decide)).2]

/-- The persistent block with each damaged item at its delivery value. -/
def repaired (damaged : BitVec 5) (p : Persist) : Persist :=
  { p with
    epoch := if damaged.getLsbD 0 then 0 else p.epoch
    xage := if damaged.getLsbD 1 then 0 else p.xage
    logAckHi := if damaged.getLsbD 2 then 0xFFF else p.logAckHi
    logAckLo := if damaged.getLsbD 2 then 0xFFFFF else p.logAckLo
    l5cnt := if damaged.getLsbD 3 then 0 else p.l5cnt
    salt := if damaged.getLsbD 4 then 0 else p.salt
    digest := if damaged.getLsbD 4 then 0 else p.digest
    pwDefault := p.pwDefault || damaged.getLsbD 4 }

theorem checkPersist_spec (d : BitVec 5) (s : State) :
    (checkPersist d s).sys = { s.sys with per := repaired d s.sys.per } ∧ (d ≠ 0 → bit (regGet (checkPersist d s) 0xF54001) 12 = true) ∧
      sameBut [.sys, .regs, .held] s (checkPersist d s) ∧ inForce (checkPersist d s) 0xF54003 = inForce s 0xF54003 := by
  have run : checkPersist d s = whenB (d != 0) (putBit 0xF54001 12 true) { s with sys := { s.sys with per := repaired d s.sys.per } } := rfl
  have parts := (checkPersist_keeps (L := [.sys, .regs, .held]) d (by decide) (keeps_refl _ s)).parts
  rw [run] at parts ⊢
  by_cases sound : d = 0
  · rw [bne_eq_false_iff_eq.mpr sound] at parts ⊢
    exact ⟨rfl, fun no => absurd sound no, parts, rfl⟩
  · rw [bne_iff_ne.mpr sound] at parts ⊢
    refine ⟨rfl, fun _ => bit_putBit_same _ _ _ (by decide), parts, ?_⟩
    show inForce (putBit 0xF54001 12 true { s with sys := { s.sys with per := repaired d s.sys.per } }) 0xF54003 = _
    rw [inForce_putBit, if_neg (by decide)]
    rfl

theorem beginWait_spec (s : State) : (beginWait s).sys.step = (if fldOf s 0xF54003 8 1 = 0 then 5 else 4) ∧
    (s.sys.bwait = false → (beginWait s).sys.bwait = decide (fldOf s 0xF54003 8 1 ≠ 0)) ∧ sameBut [.sys] s (beginWait s) := by
  unfold beginWait
  by_cases zero : fldOf s 0xF54003 8 1 = 0
  · rw [if_pos zero, if_pos zero]
    exact ⟨rfl, fun h => by rw [decide_eq_false (not_not.mpr zero)]; exact h, toStep_parts 5 s⟩
  · rw [if_neg zero, if_neg zero]
    exact ⟨rfl, fun _ => (decide_eq_true zero).symm, (keeps_sys _ (by decide) (keeps_refl [.sys] s)).parts⟩

theorem bootStep_persist (d : BitVec 5) (wait : s.sys.bwait = false)
    (run : exec (.bootStepComplete d) s = .next (beginWait (showPersist (checkPersist d s)))) :
    ∃ u, exec (.bootStepComplete d) s = .next u ∧ u.sys.step = (if fldOf s 0xF54003 8 1 = 0 then 5 else 4) ∧
      u.sys.bwait = decide (fldOf s 0xF54003 8 1 ≠ 0) ∧ u.lk.epoch = (if d.getLsbD 0 then 0 else s.sys.per.epoch) ∧
      regGet u 0xF30006 = word (if d.getLsbD 1 then 0 else s.sys.per.xage) ∧ regGet u 0xF38034 = word (if d.getLsbD 3 then 0 else s.sys.per.l5cnt) ∧
      u.gh.pw.digest = (if d.getLsbD 4 then 0 else s.sys.per.digest) ∧ (d ≠ 0 → bit (regGet u 0xF54001) 12 = true) ∧ u.mem = s.mem := by
  obtain ⟨sys, damaged, parts, word1⟩ := checkPersist_spec d s
  generalize checkPersist d s = a at run sys damaged parts word1
  obtain ⟨epoch, digest, xage, l5, sysB, mem, flag, word2⟩ := showPersist_spec a
  rw [(congrArg (fun x : SysCtl => x.per) sys : a.sys.per = repaired d s.sys.per)] at epoch digest xage l5
  generalize showPersist a = b at run epoch digest xage l5 sysB mem flag word2
  obtain ⟨step, waits, partsU⟩ := beginWait_spec b
  have same : fldOf b 0xF54003 8 1 = fldOf s 0xF54003 8 1 := congrArg (fld · 8 1) (word2.trans word1)
  have waitB : b.sys.bwait = false := by
    rw [sysB, sys]
    exact wait
  rw [same] at step waits
  refine ⟨_, run, step, waits waitB, ?_, ?_, ?_, ?_, fun bad => ?_, ?_⟩
  · rw [partsU.lk (by decide), epoch]
    rfl
  · rw [regGet_of_regs (partsU.regs (by decide)), xage]
    rfl
  · rw [regGet_of_regs (partsU.regs (by decide)), l5]
    rfl
  · rw [partsU.gh (by decide), digest]
    rfl
  · rw [regGet_of_regs (partsU.regs (by decide)), flag, damaged bad]
  · rw [partsU.mem (by decide), mem, parts.mem (by decide)]

/-! ### The image, and boot hold -/

theorem enterBootHold_spec (s : State) : (enterBootHold s).sys = { s.sys with bootHold := true, bwait := false } ∧ bit (regGet (enterBootHold s) 0xF54001) 19 = true ∧
    bit (regGet (enterBootHold s) 0xF54000) 17 = true ∧ bit (regGet (enterBootHold s) 0xF54001) 18 = bit (regGet s 0xF54001) 18 ∧
    sameBut [.sys, .regs, .held] s (enterBootHold s) ∧ touches (· ∈ [0xF54000, 0xF54001]) s (enterBootHold s) := by
  have parts := (enterBootHold_keeps (L := [.sys, .regs, .held]) (by decide) (keeps_refl _ s)).parts
  have old : regGet (putBit 0xF54000 17 true { s with sys := { s.sys with bootHold := true, bwait := false } }) 0xF54001 = regGet s 0xF54001 := by
    rw [regGet_putBit, if_neg (by decide)]
    rfl
  have first : bit (regGet (putBit 0xF54000 17 true { s with sys := { s.sys with bootHold := true, bwait := false } }) 0xF54000) 17 = true :=
    bit_putBit_same _ _ _ (by decide)
  have regs : touches (· ∈ [0xF54000, 0xF54001]) s (putBit 0xF54000 17 true { s with sys := { s.sys with bootHold := true, bwait := false } }) :=
    touches_putBit 17 true (by decide) (touches_same (touches_refl _ s) rfl rfl)
  have sys : (putBit 0xF54000 17 true { s with sys := { s.sys with bootHold := true, bwait := false } }).sys = { s.sys with bootHold := true, bwait := false } := putBit_sys ..
  have run : enterBootHold s = putBit 0xF54001 19 true (putBit 0xF54000 17 true { s with sys := { s.sys with bootHold := true, bwait := false } }) := rfl
  rw [run] at parts ⊢
  generalize putBit 0xF54000 17 true { s with sys := { s.sys with bootHold := true, bwait := false } } = v at parts old first regs sys
  refine ⟨(putBit_sys ..).trans sys, bit_putBit_same _ _ _ (by decide), ?_, ?_, parts, touches_putBit 19 true (by decide) regs⟩
  · rw [regGet_putBit, if_neg (by decide), first]
  · rw [bit_putBit_other _ _ _ (by decide) (by decide), old]

theorem bootStep_image (d : BitVec 5) (wait : s.sys.bwait = false)
    (run : exec (.bootStepComplete d) s = .next (if imageOk s then toStep 6 (loadImage s) else enterBootHold (putBit 0xF54001 18 true s))) :
    (imageOk s = true → ∃ u, exec (.bootStepComplete d) s = .next u ∧ u.sys = { s.sys with step := 6 } ∧
      (∀ n i, n < 8 → i < segLen s n → (pgmGet u n i).toNat =
        (mramGet s (segBase s n + 2 * i)).toNat * 2 ^ 20 + (mramGet s (segBase s n + 2 * i + 1)).toNat) ∧
      (∀ n i, n < 8 → segLen s n ≤ i → i < 131072 → pgmGet u n i = pgmGet s n i) ∧ u.mem = { s.mem with pgm := u.mem.pgm }) ∧
    (imageOk s = false → ∃ u, exec (.bootStepComplete d) s = .next u ∧ u.sys = { s.sys with bootHold := true } ∧
      bit (regGet u 0xF54001) 18 = true ∧ bit (regGet u 0xF54001) 19 = true ∧ sameBut [.sys, .regs, .held] s u ∧
      regsBut [0xF54000, 0xF54001] s u) := by
  refine ⟨fun ok => ?_, fun bad => ?_⟩
  · obtain ⟨loaded, others, mem, sys⟩ := loadImage_spec s
    rw [if_pos ok] at run
    generalize loadImage s = v at run loaded others mem sys
    refine ⟨toStep 6 v, run, ?_, fun n i hn hi => ?_, others, mem⟩
    · show ({ v.sys with step := 6 } : SysCtl) = _
      rw [sys]
    · rw [show pgmGet (toStep 6 v) n i = pgmGet v n i from rfl, loaded n i hn hi, imageInstr_toNat]
  · rw [if_neg (by rw [bad]; decide)] at run
    have marked := bit_putBit_same 0xF54001 (b := 18) true s (by decide)
    have parts := (putBit_keeps (L := [.regs, .held]) 0xF54001 18 true (by decide) (keeps_refl _ s)).parts
    have regs : touches (· ∈ [0xF54000, 0xF54001]) s (putBit 0xF54001 18 true s) := touches_putBit 18 true (by decide) (touches_refl _ s)
    generalize putBit 0xF54001 18 true s = v at run marked parts regs
    obtain ⟨sys, held, -, kept, partsU, regsU⟩ := enterBootHold_spec v
    refine ⟨_, run, ?_, kept.trans marked, held, sameBut_trans (sameBut_mono (by decide) parts) partsU, regsBut_of_touches (touches_trans regs regsU)⟩
    rw [sys, parts.sys (by decide), ← wait]

/-! ### The later steps -/

theorem bootStep_copy (d : BitVec 5) (run : exec (.bootStepComplete d) s = .next (toStep 7 (loadCopy s))) :
    ∃ u, exec (.bootStepComplete d) s = .next u ∧ u.sys.step = 7 ∧ (newestCopy s = none → bit (regGet u 0xF54001) 16 = true) := by
  refine ⟨_, run, rfl, fun none => ?_⟩
  have load : loadCopy s = showCfgSig (putBit 0xF54001 16 true s) := by
    unfold loadCopy
    rw [none]
  have parts := (showCfgSig_keeps (L := [.ks]) (by decide) (keeps_refl _ (putBit 0xF54001 16 true s))).parts
  show bit (regGet (loadCopy s) 0xF54001) 16 = true
  rw [load, regGet_of_regs (parts.regs (by decide)), bit_putBit_same _ _ _ (by decide)]

theorem hasProgram_congr (sys : t.sys.hostPgm = s.sys.hostPgm) (mem : t.mem = s.mem) (n : Nat) : hasProgram t n = hasProgram s n := by
  unfold hasProgram segLen mramGet
  rw [sys, mem]

/-- A core as CORE_START leaves it. -/
def startedCore (has : Bool) : Core := if has then { Core.reset with run := true, base := true } else { Core.reset with halted := true }

theorem startCores_step (l : List (Fin 8)) (s : State) :
    sameBut [.cores] s (forEach l (fun n s => setCore n (startedCore (hasProgram s n.val)) s) s) ∧
      ∀ n : CoreId, n ∈ l ∨ s.cores[n] = startedCore (hasProgram s n.val) →
        (forEach l (fun n s => setCore n (startedCore (hasProgram s n.val)) s) s).cores[n] = startedCore (hasProgram s n.val) := by
  induction l generalizing s with
  | nil => exact ⟨sameBut_refl _ s, fun n h => h.resolve_left List.not_mem_nil⟩
  | cons f l ih =>
    have parts : sameBut [.cores] s (setCore f (startedCore (hasProgram s f.val)) s) := (keeps_cores _ (by decide) (keeps_refl [.cores] s)).parts
    have same (n : Nat) : hasProgram (setCore f (startedCore (hasProgram s f.val)) s) n = hasProgram s n := hasProgram_congr rfl rfl n
    obtain ⟨rest, all⟩ := ih (setCore f (startedCore (hasProgram s f.val)) s)
    refine ⟨sameBut_trans parts rest, fun n h => ?_⟩
    have there := all n
    rw [same] at there
    refine there ?_
    by_cases e : n = f
    · rw [e]
      exact .inr (vector_set_at _ _ rfl)
    · rcases h with h | h
      · exact .inl ((List.mem_cons.mp h).resolve_left e)
      · refine .inr (.trans ?_ h)
        exact Vector.getElem_set_ne f.isLt n.isLt fun k => e (Fin.ext k.symm)

/-- Each core with a program starts in its base context, and any other is halted. -/
theorem startCores_spec (s : State) : sameBut [.cores] s (startCores s) ∧ ∀ n : CoreId, (startCores s).cores[n] = startedCore (hasProgram s n.val) :=
  have all := startCores_step (List.finRange 8) s
  ⟨all.1, fun n => all.2 n (.inl (List.mem_finRange n))⟩

theorem runCommands_sys (old : State) (s : State) : (runCommands old s).sys = { s.sys with cmdBy := (runCommands old s).sys.cmdBy } := by
  unfold runCommands
  extract_lets s1
  have same : s1.sys = s.sys := forEach_induct (fun t => t.sys = s.sys) _ _ (fun d _ t h =>
    ((runStaged_keeps (L := [.regs, .held, .pg, .mo, .sv, .bv, .pc]) old d (by decide) (keeps_refl _ t)).parts.sys (by decide)).trans h) rfl
  clear_value s1
  show ({ s1.sys with cmdBy := _ } : SysCtl) = _
  rw [same]

/-- The words that BOOT has loaded, waiting as writes for its end. -/
def bootTaken (s : State) : State :=
  let has (lo n : Nat) : Bool := s.regs.any fun e => decide (lo ≤ e.1) && decide (e.1 < lo + n)
  let loaded := bootLoaded s
  { s with
    held := loaded ++ s.held.filter fun e => !(loaded.any fun x => x.1 == e.1)
    sd := { s.sd with w0Pend := (List.range 2048).filter fun e => has (0xF01000 + e) 1 }
    mo := { s.mo with blendPend := (List.range 192).filter fun t => has (0xF0C000 + 64 * t) 64 }
    sv := { s.sv with bqPend := (List.range 1024).filter fun n => has (svBase (n / 4) + 0x60 + 8 * (n % 4)) 5 } }

theorem configBoundary_eq (s : State) : configBoundary s = runCommands s (acceptWrites (bootTaken s)) := rfl

/-- Taking the writes of BOOT at its end leaves the control of the part but for who asked for commands. -/
theorem configBoundary_sys (s : State) : (configBoundary s).sys = { s.sys with cmdBy := (configBoundary s).sys.cmdBy } := by
  have accepted : (acceptWrites (bootTaken s)).sys = s.sys :=
    (acceptWrites_keeps (L := [.regs, .held, .cores, .pg, .sd, .mains, .fb, .fbo, .mo, .sv, .bv, .gh, .pc]) (by decide) (keeps_refl _ (bootTaken s))).parts.sys (by decide)
  have commands := runCommands_sys s (acceptWrites (bootTaken s))
  rw [accepted] at commands
  rw [configBoundary_eq]
  exact commands

theorem configBoundary_mem (s : State) : (configBoundary s).mem = s.mem :=
  (configBoundary_keeps (L := [.sys, .regs, .held, .cores, .pg, .sd, .mains, .fb, .fbo, .mo, .sv, .bv, .gh, .pc]) (by decide) (keeps_refl _ s)).parts.mem (by decide)

/-- A part at the end of BOOT, before it goes on in TEST or CONFIG. -/
def bootEnds (op : OpState) (s : State) : State :=
  { s with sys := { s.sys with step := 0, tBoundary := s.now, op := op }, mains := { s.mains with p := nominalPeriod s * 65536 }, gh := { s.gh with sigs := [] } }

theorem endBoot_test (test : s.sys.testEn = true) :
    endBoot { s with gh := { s.gh with sigs := [] } } = bootEnds .test s := if_pos test

theorem endBoot_config (quiet : s.sys.testEn = false) :
    endBoot { s with gh := { s.gh with sigs := [] } } = startCores (showPeriod (configBoundary (bootEnds .config s))) :=
  if_neg (by
    show ¬s.sys.testEn = true
    rw [quiet]
    decide)

theorem bootStep_ends (d : BitVec 5) (run : exec (.bootStepComplete d) s = .next (endBoot { s with gh := { s.gh with sigs := [] } })) :
    ∃ u, exec (.bootStepComplete d) s = .next u ∧ u.sys.step = 0 ∧
      (s.sys.testEn = true → u.sys.op = .test) ∧
      (s.sys.testEn = false → u.sys.op = .config ∧ ∀ n : CoreId, u.cores[n] =
        if hasProgram s n.val then { Core.reset with run := true, base := true } else { Core.reset with halted := true }) := by
  cases test : s.sys.testEn with
  | true =>
    rw [endBoot_test test] at run
    exact ⟨_, run, rfl, fun _ => rfl, fun h => (by cases h)⟩
  | false =>
    rw [endBoot_config test] at run
    have sys := configBoundary_sys (bootEnds .config s)
    have mem := configBoundary_mem (bootEnds .config s)
    generalize configBoundary (bootEnds .config s) = a at run sys mem
    have shown := (showPeriod_keeps (L := [.regs, .held]) (by decide) (keeps_refl _ a)).parts
    generalize showPeriod a = b at run shown
    obtain ⟨parts, cores⟩ := startCores_spec b
    have sysB : b.sys = { (bootEnds .config s).sys with cmdBy := a.sys.cmdBy } := (shown.sys (by decide)).trans sys
    have memB : b.mem = s.mem := (shown.mem (by decide)).trans mem
    refine ⟨_, run, ?_, fun h => (by cases h), fun _ => ⟨?_, fun n => ?_⟩⟩
    · rw [parts.sys (by decide), sysB]
      rfl
    · rw [parts.sys (by decide), sysB]
      rfl
    · rw [cores n, hasProgram_congr (s := s) (by rw [sysB]; rfl) memB]
      rfl

theorem restoreRings_cores (s : State) : (restoreRings s).cores = s.cores :=
  (restoreRings_keeps (L := [.sys, .regs, .held, .mem, .pg, .mo, .sv, .bv, .lk, .gh, .pc]) (by decide) (keeps_refl _ s)).parts.cores (by decide)

theorem bootStep_to {n : Nat} {v : State} (d : BitVec 5) (cores : v.cores = s.cores) (run : exec (.bootStepComplete d) s = .next (toStep n v)) :
    ∃ u, exec (.bootStepComplete d) s = .next u ∧ u.sys.step = n ∧ u.cores = s.cores :=
  ⟨toStep n v, run, rfl, cores⟩

/-! ### Boot hold -/

theorem nvReach_boot (op : s.sys.op = .boot) (free : s.sys.rstHeld = false) : nvReach s = true := by
  unfold nvReach
  rw [op, free]
  rfl

theorem bwait_ends (op : s.sys.op = .boot) (step : s.sys.step = 4) (wait : s.sys.bwait = true) :
    ∃ u, exec .bwaitExpiry s = .next u ∧ u.sys = { s.sys with step := 5, bwait := false } ∧ sameBut [.sys] s u :=
  ⟨_, congrArg Host.Outcome.next (if_pos ⟨op, step, wait⟩), rfl, (keeps_sys _ (by decide) (keeps_refl [.sys] s)).parts⟩

theorem boot_holds (op : s.sys.op = .boot) (free : s.sys.rstHeld = false) (hold : s.sys.bootHold = false) (step : s.sys.step = 4) :
    ∃ u, exec .bootHold s = .next u ∧ u.sys.bootHold = true ∧ u.sys.bwait = false ∧ bit (regGet u 0xF54001) 19 = true ∧
      bit (regGet u 0xF54000) 17 = true ∧ sameBut [.sys, .regs, .held] s u ∧ regsBut [0xF54000, 0xF54001] s u := by
  have run : exec .bootHold s = .next (enterBootHold (armLock .host s)) :=
    congrArg Host.Outcome.next ((if_pos (nvReach_boot op free)).trans (if_pos ⟨op, step, by rw [show (armLock .host s).sys.bootHold = false from hold]; rfl⟩))
  have begun := armLock_sameBut .host s
  obtain ⟨sys, held, asked, -, parts, regs⟩ := enterBootHold_spec (armLock .host s)
  exact ⟨_, run, (congrArg SysCtl.bootHold sys :), (congrArg SysCtl.bwait sys :), held, asked, sameBut_trans (sameBut_mono (by decide) begun) parts,
    regsBut_of_touches (touches_trans (touches_of_sameBut begun (by decide) (by decide)) regs)⟩

theorem pdata_dropped (op : s.sys.op = .boot) (free : s.sys.rstHeld = false) (hold : s.sys.bootHold = false) (hi lo : Word) :
    ∃ u, exec (.nvPdataWrite hi lo) s = .next u ∧ regGet u 0xF50001 = regGet s 0xF50001 + 1 ∧ fld (regGet u 0xF50004) 15 8 = 6 ∧
      sameBut [.sys, .regs, .held] s u ∧ regsBut [0xF50001, 0xF50002, 0xF50003, 0xF50004] s u := by
  have run : exec (.nvPdataWrite hi lo) s = .next (dropWrite .host 0xF54009 6 (armLock .host s)) :=
    congrArg Host.Outcome.next ((if_pos (nvReach_boot op free)).trans (if_neg (by rw [show (armLock .host s).sys.bootHold = false from hold]; decide)))
  have begun := armLock_sameBut .host s
  obtain ⟨regs, counts, -⟩ := dropWrite_spec .host 0xF54009 6 (armLock .host s)
  exact ⟨_, run, counts, dropWrite_why .host _ (by decide) _,
    sameBut_trans (sameBut_mono (by decide) begun) (dropWrite_keeps _ _ _ (by decide) (keeps_refl [.sys, .regs, .held] (armLock .host s))).parts,
    regsBut_of_touches (touches_trans (touches_of_sameBut begun (by decide) (by decide)) regs)⟩

theorem boot_released (op : s.sys.op = .boot) (free : s.sys.rstHeld = false) (hold : s.sys.bootHold = true) :
    ∃ u, exec .bootHoldRelease s = .next u ∧ u.sys.bootHold = false ∧ u.sys.step = (if s.sys.hostPgm then 6 else 5) ∧
      bit (regGet u 0xF54001) 17 = s.sys.hostPgm ∧ sameBut [.sys, .regs, .held] s u ∧ regsBut [0xF54000, 0xF54001] s u := by
  have run : exec .bootHoldRelease s = .next (releaseBoot (armLock .host s)) := congrArg Host.Outcome.next (if_pos (nvReach_boot op free))
  have begun := armLock_sameBut .host s
  have unfolded : releaseBoot (armLock .host s) = putBit 0xF54001 17 s.sys.hostPgm (putBit 0xF54001 19 false (putBit 0xF54000 17 false
      { armLock .host s with sys := { (armLock .host s).sys with bootHold := false, step := if s.sys.hostPgm then 6 else 5 } })) := if_pos hold
  have parts := (releaseBoot_keeps (L := [.sys, .regs, .held]) (by decide) (keeps_refl _ (armLock .host s))).parts
  rw [unfolded] at run parts
  refine ⟨_, run, ?_, ?_, bit_putBit_same _ _ _ (by decide), sameBut_trans (sameBut_mono (by decide) begun) parts,
    regsBut_of_touches (touches_putBit 17 _ (by decide) (touches_putBit 19 false (by decide) (touches_putBit 17 false (by decide)
      (touches_same (touches_of_sameBut begun (by decide) (by decide)) rfl rfl))))⟩
  · rw [putBit_sys, putBit_sys, putBit_sys]
  · rw [putBit_sys, putBit_sys, putBit_sys]

/-- A part with a program loaded by the host port. -/
def hostLoaded (s : State) : State := { s with sys := { s.sys with hostPgm := true } }

theorem fld_addr_lt (w : Word) : fld w 19 17 < 8 ∧ fld w 16 0 < 131072 := ⟨Nat.mod_lt _ (by decide), Nat.mod_lt _ (by decide)⟩

theorem pdata_taken (op : s.sys.op = .boot) (free : s.sys.rstHeld = false) (hold : s.sys.bootHold = true) (hi lo : Word) :
    ∃ u, exec (.nvPdataWrite hi lo) s = .next u ∧
      (pgmGet u (fld (regGet s 0xF54007) 19 17) (fld (regGet s 0xF54007) 16 0)).toNat = hi.toNat * 2 ^ 20 + lo.toNat ∧
      (∀ n i, n < 8 → i < 131072 → (n, i) ≠ (fld (regGet s 0xF54007) 19 17, fld (regGet s 0xF54007) 16 0) → pgmGet u n i = pgmGet s n i) ∧
      regGet u 0xF54007 = regGet s 0xF54007 + 1 ∧ u.sys.hostPgm = true ∧ u.mem = { s.mem with pgm := u.mem.pgm } ∧
      sameBut [.sys, .regs, .held, .mem] s u ∧ regsBut [0xF54007] s u := by
  obtain ⟨small, place⟩ := fld_addr_lt (regGet s 0xF54007)
  have run : exec (.nvPdataWrite hi lo) s = .next (pdataWrite .host hi lo (armLock .host s)) := congrArg Host.Outcome.next (if_pos (nvReach_boot op free))
  have taken : pdataWrite .host hi lo (armLock .host s) = putWord 0xF54007 (regGet s 0xF54007 + 1) (hostLoaded
      (pgmSet (fld (regGet s 0xF54007) 19 17) (fld (regGet s 0xF54007) 16 0) (BitVec.ofNat 40 (hi.toNat * 2 ^ 20 + lo.toNat)) (armLock .host s))) :=
    if_pos (by rw [show (armLock .host s).sys.bootHold = true from hold]; rfl)
  have parts := (pdataWrite_keeps (L := [.sys, .regs, .held, .mem]) .host hi lo (by decide) (keeps_refl _ (armLock .host s))).parts
  have begun := armLock_sameBut .host s
  rw [taken] at run parts
  generalize fld (regGet s 0xF54007) 19 17 = n at small run parts
  generalize fld (regGet s 0xF54007) 16 0 = i at place run parts
  have same := pgmGet_pgmSet_same n i (BitVec.ofNat 40 (hi.toNat * 2 ^ 20 + lo.toNat)) (armLock .host s)
  have other (m j : Nat) (hj : j < 131072) (apart : (m, j) ≠ (n, i)) :=
    pgmGet_pgmSet_other (BitVec.ofNat 40 (hi.toNat * 2 ^ 20 + lo.toNat)) (armLock .host s) place hj apart
  have mem := pgmSet_mem n i (BitVec.ofNat 40 (hi.toNat * 2 ^ 20 + lo.toNat)) (armLock .host s)
  have set := pgmSet_parts n i (BitVec.ofNat 40 (hi.toNat * 2 ^ 20 + lo.toNat)) (armLock .host s)
  generalize pgmSet n i (BitVec.ofNat 40 (hi.toNat * 2 ^ 20 + lo.toNat)) (armLock .host s) = v at run parts same other mem set
  refine ⟨_, run, ?_, fun m j _ hj apart => other m j hj apart, regGet_putWord_same _ _ _, ?_, mem, sameBut_trans (sameBut_mono (by decide) begun) parts,
    regsBut_of_touches (touches_putWord _ (by decide) (touches_same (touches_sameBut (touches_of_sameBut begun (by decide) (by decide)) set (by decide) (by decide)) rfl rfl))⟩
  · refine (congrArg BitVec.toNat same).trans ?_
    have high := hi.isLt
    have low := lo.isLt
    rw [BitVec.toNat_ofNat, Nat.mod_eq_of_lt (by omega)]
  · rw [putWord_sys]
    rfl

theorem mdata_taken (op : s.sys.op = .boot) (free : s.sys.rstHeld = false) (hold : s.sys.bootHold = true) (v : Word)
    (place : fld (regGet s 0xF54005) 18 0 < 0x100 ∨ 0x25000 ≤ fld (regGet s 0xF54005) 18 0 ∧ fld (regGet s 0xF54005) 18 0 < 0x40000) :
    ∃ u, exec (.nvMdataWrite v) s = .next u ∧ mramGet u (fld (regGet s 0xF54005) 18 0) = v ∧
      (∀ a, a ≠ fld (regGet s 0xF54005) 18 0 → mramGet u a = mramGet s a) ∧
      fld (regGet u 0xF54005) 18 0 = (fld (regGet s 0xF54005) 18 0 + 1) % 2 ^ 19 ∧ u.mem = { s.mem with mram := u.mem.mram } := by
  have begun := armLock_sameBut .host s
  have run : exec (.nvMdataWrite v) s = .next (mdataWrite .host v (armLock .host s)) := congrArg Host.Outcome.next (if_pos (nvReach_boot op free))
  have taken : mdataWrite .host v (armLock .host s) = pcSys 0x5D 1 (mramSet (fld (regGet s 0xF54005) 18 0) v
      (putFld 0xF54005 18 0 (fld (regGet s 0xF54005) 18 0 + 1) (armLock .host s))) :=
    (if_pos (by rw [show (armLock .host s).sys.bootHold = true from hold]; rfl)).trans (if_pos place)
  rw [taken] at run
  have shown : fld (regGet (putFld 0xF54005 18 0 (fld (regGet s 0xF54005) 18 0 + 1) (armLock .host s)) 0xF54005) 18 0 = (fld (regGet s 0xF54005) 18 0 + 1) % 2 ^ 19 := by
    rw [regGet_putFld, if_pos rfl, fld_setFld_same _ _ (by decide) (by decide)]
  generalize fld (regGet s 0xF54005) 18 0 = a at run shown
  have put := (putFld_keeps (L := [.regs, .held]) 0xF54005 18 0 (a + 1) (by decide) (keeps_refl _ (armLock .host s))).parts
  generalize putFld 0xF54005 18 0 (a + 1) (armLock .host s) = w at run shown put
  have opW : w.sys.op ≠ .test := by
    rw [put.sys (by decide), show (armLock .host s).sys.op = .boot from op]
    decide
  have memW : w.mem = s.mem := (put.mem (by decide)).trans (begun.mem (by decide))
  have set : mramSet a v w = { w with mem := { w.mem with mram := mapPut 0 w.mem.mram a v } } := if_neg opW
  have get (b : Nat) := mramGet_mramSet (s := w) a b v opW
  have regs : regGet (mramSet a v w) 0xF54005 = regGet w 0xF54005 := regGet_of_regs ((mramSet_keeps (L := [.mem]) a v (by decide) (keeps_refl _ w)).parts.regs (by decide)) _
  have events : onlyEvents (mramSet a v w) (pcSys 0x5D 1 (mramSet a v w)) := pcSys_onlyEvents 0x5D 1 (onlyEvents_refl _)
  have mem := events.parts.mem (by decide)
  have read (b : Nat) : mramGet (pcSys 0x5D 1 (mramSet a v w)) b = mramGet (mramSet a v w) b := congrArg (fun m : Mems => mapGet 0 m.mram b) mem
  refine ⟨_, run, ?_, fun b apart => ?_, ?_, ?_⟩
  · rw [read, get, if_pos rfl]
  · rw [read, get, if_neg apart]
    exact congrArg (fun m : Mems => mapGet 0 m.mram b) memW
  · rw [events.regGet (by decide), regs, shown]
  · rw [mem, set]
    show ({ w.mem with mram := _ } : Mems) = _
    rw [memW]

/-- Settles O42. Which core has a program is log entry 51. -/
theorem bootStepsAndBootHold : Obligations.BootStepsAndBootHold := by
  intro s op free
  refine ⟨fun hold => ⟨fun wait d => ?_, bwait_ends op, boot_holds op free hold, pdata_dropped op free hold⟩,
    fun hold => ⟨boot_released op free hold, pdata_taken op free hold, mdata_taken op free hold⟩⟩
  have run : exec (.bootStepComplete d) s = .next (bootStep d s) := rfl
  rw [bootStep_eq d op free hold wait] at run
  refine ⟨fun step => ?_, fun step => ?_, fun step => ?_, fun step => ?_, fun step => ?_, fun step => ?_, fun step => ?_⟩
  · rw [if_pos step] at run
    exact ⟨_, run, rfl, sameBut_trans (sameBut_mono (by decide) (keeps_mains { s.mains with tBoot := s.now } (by decide) (keeps_refl [.mains] s)).parts)
      (sameBut_mono (by decide) (toStep_parts 2 { s with mains := { s.mains with tBoot := s.now } }))⟩
  · rw [if_neg (by omega), if_pos step] at run
    exact bootStep_record d run
  · rw [if_neg (by omega), if_neg (by omega), if_pos step] at run
    exact bootStep_persist d wait run
  · rw [if_neg (by omega), if_neg (by omega), if_neg (by omega), if_pos step] at run
    exact bootStep_image d wait run
  · rw [if_neg (by omega), if_neg (by omega), if_neg (by omega), if_neg (by omega), if_pos step] at run
    exact bootStep_copy d run
  · rw [if_neg (by omega), if_neg (by omega), if_neg (by omega), if_neg (by omega), if_neg (by omega), if_pos step] at run
    exact bootStep_to d (restoreRings_cores s) run
  · rw [if_neg (by omega), if_neg (by omega), if_neg (by omega), if_neg (by omega), if_neg (by omega), if_neg (by omega), if_pos step] at run
    exact bootStep_ends d run

end Sys2Proof.Machine
end

