-- ==== Sys2Proof/Proofs/RunAndStores.lean ====
section
/-! PROOFS. The requests to leave CONFIG, the boot record, RECOVERY, the return record and the test access port (19 R471, R475, R477, R478, R480, R482). -/

namespace Sys2Proof.Machine

variable {o s t : State}

/-! ### Requests to leave CONFIG -/

/-- A part that waits for the boundary that takes it to JOIN. -/
def joinAsked (s : State) : State := { s with sys := { s.sys with joinReq := true } }

/-- A request to leave CONFIG has been answered, where the schedule and the demand inputs as written are in error or not. -/
structure requestTaken (bad conflict : Bool) (s u : State) : Prop where
  sched : bit (regGet u 0xF28009) 15 = bad
  late : bad = true → u.sys.joinReq = false ∧ fld (regGet u 0xF54001) 11 4 = 1
  pins : bad = false → conflict = true → u.sys.joinReq = false ∧ fld (regGet u 0xF54001) 11 4 = 2
  sound : bad = false → conflict = false → u.sys.joinReq = true ∧ fld (regGet u 0xF54001) 11 4 = 0
  op : u.sys.op = s.sys.op
  parts : sameBut [.sys, .regs, .held] s u

theorem cref_shown (n : Nat) (s : State) :
    bit (regGet (putFld 0xF54001 11 4 n s) 0xF28009) 15 = bit (regGet s 0xF28009) 15 ∧
      fld (regGet (putFld 0xF54001 11 4 n s) 0xF54001) 11 4 = n % 256 :=
  ⟨congrArg (bit · 15) ((regGet_putFld ..).trans (if_neg (by decide))),
    (congrArg (fld · 11 4) ((regGet_putFld ..).trans (if_pos rfl))).trans (fld_setFld_same _ _ (by decide) (by decide))⟩

theorem runRequest_spec (op : s.sys.op = .config) (free : s.sys.joinReq = false) : requestTaken (schedBad (asWritten s)) (dinConflict (asWritten s)) s (runRequest s) := by
  have unfolded : runRequest s = if schedBad (asWritten s) then putFld 0xF54001 11 4 1 (putBit 0xF28009 15 (schedBad (asWritten s)) s)
      else if dinConflict (asWritten s) then putFld 0xF54001 11 4 2 (putBit 0xF28009 15 (schedBad (asWritten s)) s)
      else putFld 0xF54001 11 4 0 (joinAsked (putBit 0xF28009 15 (schedBad (asWritten s)) s)) :=
    if_neg (by rw [op, free]; decide)
  have parts := (runRequest_keeps (L := [.sys, .regs, .held]) (by decide) (keeps_refl _ s)).parts
  rw [unfolded] at parts ⊢
  generalize schedBad (asWritten s) = bad at parts ⊢
  generalize dinConflict (asWritten s) = conflict at parts ⊢
  have shown : bit (regGet (putBit 0xF28009 15 bad s) 0xF28009) 15 = bad := bit_putBit_same _ _ _ (by decide)
  have sys : (putBit 0xF28009 15 bad s).sys = s.sys := putBit_sys ..
  generalize putBit 0xF28009 15 bad s = v at parts shown sys ⊢
  have asked : bit (regGet (joinAsked v) 0xF28009) 15 = bad := shown
  have askedSys : (joinAsked v).sys = { s.sys with joinReq := true } := congrArg (fun x : SysCtl => { x with joinReq := true }) sys
  generalize joinAsked v = w at parts asked askedSys ⊢
  cases bad with
  | true =>
    obtain ⟨sched, cref⟩ := cref_shown 1 v
    exact ⟨sched.trans shown, fun _ => ⟨(congrArg SysCtl.joinReq ((putFld_sys ..).trans sys)).trans free, cref⟩, (by intro h; cases h), (by intro h; cases h),
      congrArg SysCtl.op ((putFld_sys ..).trans sys), parts⟩
  | false =>
    cases conflict with
    | true =>
      obtain ⟨sched, cref⟩ := cref_shown 2 v
      exact ⟨sched.trans shown, (by intro h; cases h), fun _ _ => ⟨(congrArg SysCtl.joinReq ((putFld_sys ..).trans sys)).trans free, cref⟩, (by intro _ h; cases h),
        congrArg SysCtl.op ((putFld_sys ..).trans sys), parts⟩
    | false =>
      obtain ⟨sched, cref⟩ := cref_shown 0 w
      exact ⟨sched.trans asked, (by intro h; cases h), (by intro _ h; cases h), fun _ _ => ⟨(congrArg SysCtl.joinReq ((putFld_sys ..).trans askedSys) :), cref⟩,
        (congrArg SysCtl.op ((putFld_sys ..).trans askedSys) :), parts⟩

theorem run_asked (who : Requester) (op : s.sys.op = .config) (free : s.sys.rstHeld = false) :
    exec (.run who) s = .next (runRequest (armLock who s)) :=
  congrArg Host.Outcome.next ((if_pos (by rw [nvReach, op, free]; decide)).trans (if_pos op))

theorem autorun_asked (op : s.sys.op = .config) (auto : bitOf s 0xF54003 17 = true) (hold : bitOf s 0xF54000 18 = false) :
    exec .autorunExpiry s = .next (runRequest s) :=
  congrArg Host.Outcome.next (if_pos ⟨op, auto, by rw [hold]; rfl⟩)

/-! ### The boot record -/

theorem mramSet_mem (a : Nat) (w : Word) (s : State) : (mramSet a w s).mem = { s.mem with mram := (mramSet a w s).mem.mram } := by
  unfold mramSet
  by_cases h : s.sys.op = .test
  · rw [if_pos h]
  · rw [if_neg h]

theorem mramPutAll_mem (ws : List Word) (a : Nat) (s : State) :
    (mramPutAll a ws s).mem = { s.mem with mram := (mramPutAll a ws s).mem.mram } := by
  induction ws generalizing a s with
  | nil => rfl
  | cons w ws ih =>
    have first := mramSet_mem a w s
    have rest := ih (a + 1) (mramSet a w s)
    show (mramPutAll (a + 1) ws (mramSet a w s)).mem = { s.mem with mram := (mramPutAll (a + 1) ws (mramSet a w s)).mem.mram }
    generalize mramSet a w s = v at first rest ⊢
    rw [rest, first]

theorem mramGetAll_of {l : List Word} {a : Nat} (h : ∀ i, i < l.length → mramGet s (a + i) = l.getD i 0) : mramGetAll s a l.length = l := by
  unfold mramGetAll
  refine List.ext_getElem (by simp) fun i _ hi => ?_
  rw [List.getElem_map, List.getElem_range, h i hi, List.getD_eq_getElem]

theorem mramGetAll_congr {a n : Nat} (h : ∀ i, i < n → mramGet t (a + i) = mramGet s (a + i)) : mramGetAll t a n = mramGetAll s a n :=
  List.map_congr_left fun i hi => h i (List.mem_range.mp hi)

theorem bootCopy_congr {k : Nat} (h : ∀ i, i < 128 → mramGet t (128 * k + i) = mramGet s (128 * k + i)) : bootCopy t k = bootCopy s k := by
  have words : mramGetAll t (128 * k) 126 = mramGetAll s (128 * k) 126 := mramGetAll_congr fun i hi => h i (by omega)
  have crc : mramGetAll t (128 * k + 126) 2 = mramGetAll s (128 * k + 126) 2 := mramGetAll_congr fun i hi => by
    rw [Nat.add_assoc]
    exact h (126 + i) (by omega)
  unfold bootCopy
  rw [words, crc]

/-- A copy that holds some words, whose mode is not the reserved one, and their CRC reads back as its SEQ and word 3. -/
theorem bootCopy_held {k : Nat} {ws : List Word} (len : ws.length = 126) (mode : fld (ws.getD 3 0) 19 18 ≠ 3)
    (h : ∀ i, i < 128 → mramGet t (128 * k + i) = (ws ++ crcWords ws).getD i 0) :
    bootCopy t k = some (fld (ws.getD 1 0) 11 0 * 2 ^ 20 + (ws.getD 2 0).toNat, ws.getD 3 0) := by
  have two : (crcWords ws).length = 2 := rfl
  have words : mramGetAll t (128 * k) 126 = ws := by
    rw [← len]
    exact mramGetAll_of fun i hi => by
      rw [h i (by omega), List.getD_append _ _ _ _ hi]
  have crc : mramGetAll t (128 * k + 126) 2 = crcWords ws := by
    rw [← two]
    generalize crcWords ws = cs at h two
    exact mramGetAll_of fun i hi => by
      rw [Nat.add_assoc, h _ (by omega), List.getD_append_right _ _ _ _ (by omega), len, Nat.add_sub_cancel_left]
  unfold bootCopy
  rw [words, crc]
  exact if_pos ⟨rfl, mode⟩

/-- The copy that BSTORE writes, and its SEQ. -/
def nextCopy : Option (Nat × Nat × Word) → Nat × Nat
  | none => (0, 1)
  | some (k, q, _) => (1 - k, (q + 1) % 2 ^ 32)

/-- The words of a copy of the boot record before its CRC. -/
def bootWords (seq : Nat) (mode boot : Nat) : List Word :=
  [word 0x1000, word (seq / 2 ^ 20), word seq, word (mode * 2 ^ 18 + boot * 2)] ++ List.replicate 122 0

/-- A state whose boot record has been written into copy k. -/
def copyStored (k seq mode boot : Nat) (s : State) : State :=
  pcSys 0x5D 128 (mramPutAll (128 * k) (bootWords seq mode boot ++ crcWords (bootWords seq mode boot)) s)

theorem storeBoot_stored (s : State) : storeBoot s = copyStored (nextCopy (bootRecord s)).1 (nextCopy (bootRecord s)).2
    (fld (regGet s 0xF54002) 19 18) (fld (regGet s 0xF54003) 17 1) s := by
  rw [storeBoot, copyStored, bootWords]
  rcases bootRecord s with - | ⟨k, q, w⟩
  · rfl
  · rfl

theorem fld_copy_mode {mode boot : Nat} (hm : mode < 4) (hb : boot < 2 ^ 17) :
    fld (word (mode * 2 ^ 18 + boot * 2)) 19 18 = mode ∧ fld (word (mode * 2 ^ 18 + boot * 2)) 17 1 = boot := by
  unfold fld
  rw [toNat_word]
  constructor <;> simp only [Nat.reducePow, Nat.reduceAdd, Nat.reduceSub] <;> omega

theorem copySeq {seq : Nat} (h : seq < 2 ^ 32) : fld (word (seq / 2 ^ 20)) 11 0 * 2 ^ 20 + (word seq).toNat = seq := by
  unfold fld
  rw [toNat_word, toNat_word]
  simp only [Nat.reducePow, Nat.reduceAdd, Nat.reduceSub]
  omega

theorem copyStored_frame (k seq mode boot : Nat) (s : State) :
    (copyStored k seq mode boot s).mem = { s.mem with mram := (copyStored k seq mode boot s).mem.mram } ∧
      sameBut [.sys, .mem, .pg, .bv, .pc, .regs, .held] s (copyStored k seq mode boot s) ∧ touches (orEvents []) s (copyStored k seq mode boot s) := by
  unfold copyStored
  generalize bootWords seq mode boot ++ crcWords (bootWords seq mode boot) = ws
  have mem := mramPutAll_mem ws (128 * k) s
  have parts := (mramPutAll_keeps (L := [.mem]) (128 * k) ws (by decide) (keeps_refl _ s)).parts
  generalize mramPutAll (128 * k) ws s = v at mem parts
  have events : onlyEvents v (pcSys 0x5D 128 v) := pcSys_onlyEvents 0x5D 128 (onlyEvents_refl _)
  refine ⟨?_, sameBut_trans (sameBut_mono (by decide) parts) (sameBut_mono (by decide) events.parts),
    touches_events (touches_of_sameBut parts (by decide) (by decide)) events⟩
  rw [events.parts.mem (by decide)]
  exact mem

theorem copyStored_spec {k seq mode boot : Nat} (hs : seq < 2 ^ 32) (hm : mode < 4) (hb : boot < 2 ^ 17) (known : mode ≠ 3) (op : s.sys.op ≠ .test) :
    (∃ w, bootCopy (copyStored k seq mode boot s) k = some (seq, w) ∧ fld w 19 18 = mode ∧ fld w 17 1 = boot) := by
  obtain ⟨inMode, inBoot⟩ := fld_copy_mode hm hb
  refine ⟨word (mode * 2 ^ 18 + boot * 2), ?_, inMode, inBoot⟩
  refine (bootCopy_held (ws := bootWords seq mode boot) rfl (fun e => known (inMode.symm.trans e)) fun i hi => ?_).trans
    (congrArg (fun n => some (n, word (mode * 2 ^ 18 + boot * 2))) (copySeq hs))
  unfold copyStored
  have len : (bootWords seq mode boot ++ crcWords (bootWords seq mode boot)).length = 128 := rfl
  generalize bootWords seq mode boot ++ crcWords (bootWords seq mode boot) = ws at len
  have read := mramGet_mramPutAll (s := s) ws (128 * k) (128 * k + i) op
  generalize mramPutAll (128 * k) ws s = v at read
  have mem := (pcSys_onlyEvents (o := v) 0x5D 128 (onlyEvents_refl _)).parts.mem (by decide)
  refine (congrArg (fun m : Mems => mapGet 0 m.mram (128 * k + i)) mem).trans (read.trans ?_)
  rw [if_pos (by omega), Nat.add_sub_cancel_left]

theorem copyStored_other {k seq mode boot b : Nat} (out : b < 128 * k ∨ 128 * k + 128 ≤ b) (op : s.sys.op ≠ .test) :
    mramGet (copyStored k seq mode boot s) b = mramGet s b := by
  unfold copyStored
  have len : (bootWords seq mode boot ++ crcWords (bootWords seq mode boot)).length = 128 := rfl
  generalize bootWords seq mode boot ++ crcWords (bootWords seq mode boot) = ws at len
  have read := mramGet_mramPutAll (s := s) ws (128 * k) b op
  generalize mramPutAll (128 * k) ws s = v at read
  have mem := (pcSys_onlyEvents (o := v) 0x5D 128 (onlyEvents_refl _)).parts.mem (by decide)
  exact (congrArg (fun m : Mems => mapGet 0 m.mram b) mem).trans (read.trans (if_neg (by omega)))

/-- The newer of two copies and its number. -/
def newerCopy : Option (Nat × Word) → Option (Nat × Word) → Option (Nat × Nat × Word)
  | none, none => none
  | some x, none => some (0, x)
  | none, some y => some (1, y)
  | some x, some y => if serialNewer 32 y.1 x.1 then some (1, y) else some (0, x)

theorem bootRecord_eq (s : State) : bootRecord s = newerCopy (bootCopy s 0) (bootCopy s 1) := by
  rw [bootRecord]
  rcases bootCopy s 0 with - | x
  · rcases bootCopy s 1 with - | y
    · rfl
    · rfl
  · rcases bootCopy s 1 with - | y
    · rfl
    · rfl

theorem newerCopy_which {x y : Option (Nat × Word)} {k q : Nat} {w : Word} (h : newerCopy x y = some (k, q, w)) : k ≤ 1 := by
  unfold newerCopy at h
  split at h
  · cases h
  · cases h; omega
  · cases h; omega
  · split at h
    · cases h; omega
    · cases h; omega

theorem bootRecord_congr (mem : t.mem = s.mem) : bootRecord t = bootRecord s := by
  have read (b : Nat) : mramGet t b = mramGet s b := congrArg (fun m : Mems => mapGet 0 m.mram b) mem
  rw [bootRecord_eq, bootRecord_eq, bootCopy_congr fun _ _ => read _, bootCopy_congr (k := 1) fun _ _ => read _]

theorem nextCopy_le (x : Option (Nat × Nat × Word)) : (nextCopy x).1 ≤ 1 ∧ (nextCopy x).2 < 2 ^ 32 := by
  unfold nextCopy
  split
  · decide
  · exact ⟨by omega, Nat.mod_lt _ (by decide)⟩

theorem bstore_spec (who : Requester) (op : s.sys.op = .config) (free : s.sys.rstHeld = false) :
    ∃ u, exec (.bstore who) s = .next u ∧
      (fld (regGet s 0xF54002) 19 18 ≠ 3 →
        (bootRecord s = none → ∃ w, bootCopy u 0 = some (1, w) ∧ fld w 19 18 = fld (regGet s 0xF54002) 19 18 ∧ fld w 17 1 = fld (regGet s 0xF54003) 17 1) ∧
        (∀ k q w, bootRecord s = some (k, q, w) → ∃ w', bootCopy u (1 - k) = some ((q + 1) % 2 ^ 32, w') ∧
          fld w' 19 18 = fld (regGet s 0xF54002) 19 18 ∧ fld w' 17 1 = fld (regGet s 0xF54003) 17 1 ∧ bootCopy u k = bootCopy s k)) ∧
      (∀ a, 0x100 ≤ a → mramGet u a = mramGet s a) ∧ u.mem = { s.mem with mram := u.mem.mram } ∧ sameBut [.sys, .mem, .pg, .bv, .pc, .regs, .held] s u ∧
      regsButEvents [] s u := by
  have run : exec (.bstore who) s = .next (storeBoot (armLock who s)) :=
    congrArg Host.Outcome.next ((if_pos (by rw [nvReach, op, free]; decide)).trans (if_pos op))
  have begun := armLock_sameBut who s
  have notTest : (armLock who s).sys.op ≠ .test := fun e => by
    rw [show (armLock who s).sys.op = s.sys.op from rfl, op] at e
    cases e
  have record : bootRecord (armLock who s) = bootRecord s := bootRecord_congr rfl
  have regs (a : Nat) : regGet (armLock who s) a = regGet s a := rfl
  have mem : (armLock who s).mem = s.mem := rfl
  rw [storeBoot_stored, record, regs, regs] at run
  generalize armLock who s = v at run begun notTest mem
  have modeSmall : fld (regGet s 0xF54002) 19 18 < 4 := Nat.mod_lt _ (by decide)
  have bootSmall : fld (regGet s 0xF54003) 17 1 < 2 ^ 17 := Nat.mod_lt _ (by decide)
  generalize fld (regGet s 0xF54002) 19 18 = mode at run modeSmall ⊢
  generalize fld (regGet s 0xF54003) 17 1 = boot at run bootSmall ⊢
  have read (b : Nat) : mramGet v b = mramGet s b := congrArg (fun m : Mems => mapGet 0 m.mram b) mem
  obtain ⟨small, seqSmall⟩ := nextCopy_le (bootRecord s)
  obtain ⟨memU, parts, touched⟩ := copyStored_frame (nextCopy (bootRecord s)).1 (nextCopy (bootRecord s)).2 mode boot v
  refine ⟨_, run, fun known => ⟨fun missing => ?_, fun k q w found => ?_⟩, fun a above => ?_, ?_, sameBut_trans (sameBut_mono (by decide) begun) parts,
    regsButEvents_of_touches (touches_trans (touches_of_sameBut begun (by decide) (by decide)) touched)⟩
  · rw [missing]
    exact copyStored_spec (k := 0) (seq := 1) (by decide) modeSmall bootSmall known notTest
  · have which := newerCopy_which ((bootRecord_eq s).symm.trans found)
    rw [found]
    obtain ⟨w', copy, inMode, inBoot⟩ := copyStored_spec (k := 1 - k) (seq := (q + 1) % 2 ^ 32) (Nat.mod_lt _ (by decide)) modeSmall bootSmall known notTest
    exact ⟨w', copy, inMode, inBoot, bootCopy_congr fun i hi => (copyStored_other (k := 1 - k) (by omega) notTest).trans (read _)⟩
  · exact (copyStored_other (by omega) notTest).trans (read _)
  · rw [memU, mem]

/-! ### RECOVERY -/

theorem recov_taken (who : Requester) (op : s.sys.op = .safe) (free : s.sys.rstHeld = false) (up : s.ph.l5 = false) (auth : bitOf s 0xF34045 19 = true) :
    ∃ u, exec (.recov who) s = .next u ∧ u.sys.op = .recovery ∧ sameBut [.sys] s u := by
  have begun := armLock_sameBut who s
  have run : exec (.recov who) s = .next { armLock who s with sys := { (armLock who s).sys with op := .recovery } } :=
    congrArg Host.Outcome.next ((if_pos (by rw [nvReach, op, free]; decide)).trans (if_pos ⟨op, auth, by
      show (!s.ph.l5) = true
      rw [up]
      rfl⟩))
  exact ⟨_, run, rfl, sameBut_trans begun (keeps_sys _ (by decide) (keeps_refl [.sys] _)).parts⟩

theorem recov_dropped (who : Requester) (op : s.sys.op = .safe) (free : s.sys.rstHeld = false) (auth : bitOf s 0xF34045 19 = false) :
    ∃ u, exec (.recov who) s = .next u ∧ u.sys.op = .safe ∧ regGet u 0xF50001 = regGet s 0xF50001 + 1 ∧
      fld (regGet u 0xF50004) 15 8 = 6 ∧ sameBut [.sys, .regs, .held] s u ∧ regsBut [0xF50001, 0xF50002, 0xF50003, 0xF50004] s u := by
  have begun := armLock_sameBut who s
  have run : exec (.recov who) s = .next (dropWrite who 0xF54000 6 (armLock who s)) :=
    congrArg Host.Outcome.next ((if_pos (by rw [nvReach, op, free]; decide)).trans (if_neg fun h => by
      have auth' : bitOf (armLock who s) 0xF34045 19 = false := auth
      rw [auth'] at h
      exact absurd h.2.1 (by decide)))
  obtain ⟨regs, counts, -⟩ := dropWrite_spec who 0xF54000 6 (armLock who s)
  have parts := (dropWrite_keeps (L := [.regs, .held]) who 0xF54000 6 (by decide) (keeps_refl _ (armLock who s))).parts
  refine ⟨_, run, (congrArg SysCtl.op (parts.sys (by decide))).trans op, counts, dropWrite_why who _ (by decide) _,
    sameBut_trans (sameBut_mono (by decide) begun) (sameBut_mono (by decide) parts),
    regsBut_of_touches (touches_trans (touches_of_sameBut begun (by decide) (by decide)) regs)⟩

/-! ### NV_MDATA -/

/-- The host's read port shows a word. -/
def hostShown (w : Word) (s : State) : State := { s with sys := { s.sys with rdata := [w] } }

theorem mdata_read (on : s.sys.op ≠ .powerUp) (free : s.sys.rstHeld = false)
    (plain : (fld (regGet s 0xF54005) 18 0 < 0x100 ∨ 0x200 ≤ fld (regGet s 0xF54005) 18 0) ∧ (fld (regGet s 0xF54005) 18 0 < 0x400 ∨ 0x800 ≤ fld (regGet s 0xF54005) 18 0)) :
    ∃ u, exec (.nvMdataRead .host) s = .next u ∧ u.sys.rdata = [mramGet s (fld (regGet s 0xF54005) 18 0)] ∧
      fld (regGet u 0xF54005) 18 0 = (fld (regGet s 0xF54005) 18 0 + 1) % 2 ^ 19 ∧ u.mem = s.mem ∧ u.cores = s.cores := by
  have reach : nvReach s = true := by
    rw [nvReach, free, show (s.sys.op != OpState.powerUp) = true from bne_iff_ne.mpr on]
    rfl
  have word : mdataWord s = (mramGet s (fld (regGet s 0xF54005) 18 0), s) := if_neg (by omega)
  have read : mdataRead s = (mramGet s (fld (regGet s 0xF54005) 18 0), pcSys 0x5E 1 (putFld 0xF54005 18 0 (fld (regGet s 0xF54005) 18 0 + 1) s)) := by
    unfold mdataRead
    rw [word]
  have run : exec (.nvMdataRead .host) s = .next (hostShown (mdataRead s).1 (mdataRead s).2) := congrArg Host.Outcome.next (if_pos reach)
  rw [read] at run
  have next : fld (regGet (putFld 0xF54005 18 0 (fld (regGet s 0xF54005) 18 0 + 1) s) 0xF54005) 18 0 = (fld (regGet s 0xF54005) 18 0 + 1) % 2 ^ 19 :=
    (congrArg (fld · 18 0) ((regGet_putFld ..).trans (if_pos rfl))).trans (fld_setFld_same _ _ (by decide) (by decide))
  have parts := (putFld_keeps (L := [.regs, .held]) 0xF54005 18 0 (fld (regGet s 0xF54005) 18 0 + 1) (by decide) (keeps_refl _ s)).parts
  generalize putFld 0xF54005 18 0 (fld (regGet s 0xF54005) 18 0 + 1) s = v at run next parts
  have events : onlyEvents v (pcSys 0x5E 1 v) := pcSys_onlyEvents 0x5E 1 (onlyEvents_refl _)
  generalize pcSys 0x5E 1 v = w at run events
  refine ⟨_, run, rfl, ?_, (events.parts.mem (by decide)).trans (parts.mem (by decide)), (events.parts.cores (by decide)).trans (parts.cores (by decide))⟩
  exact (congrArg (fld · 18 0) (events.regGet (by decide))).trans next

/-! ### Operating hours and the return record -/

theorem returnWords_length (resets : s.sys.per.resets.length = 5) (kinds : s.sys.per.kinds.length = 4) : (returnWords s).length = 33 := by
  rw [returnWords]
  simp only [List.length_append, List.length_flatMap, List.length_cons, List.length_nil, List.map_const', List.sum_replicate, resets, kinds, crcWords, words64]
  rfl

/-- A part whose return record has taken the next SEQ. -/
def returnCounted (s : State) : State := { s with sys := { s.sys with per := { s.sys.per with retSeq := (s.sys.per.retSeq + 1) % 2 ^ 32 } } }

theorem writeReturn_eq (s : State) : writeReturn s = pcSys 0x5D (returnWords s).length
    (returnCounted (mramPutAll (0x200 + 0x100 * ((s.sys.per.retSeq + 1) % 2)) (returnWords s) s)) := by
  rw [writeReturn, returnCounted]

theorem writeReturn_spec (s : State) : (writeReturn s).sys = (returnCounted s).sys ∧ touches (orEvents []) s (writeReturn s) ∧
    sameBut [.sys, .regs, .held, .mem, .pg, .bv, .pc] s (writeReturn s) ∧
    ((returnWords s).length ≤ 0x100 → s.sys.op ≠ .test → ∀ a, a < 0x200 ∨ 0x400 ≤ a → mramGet (writeReturn s) a = mramGet s a) := by
  rw [writeReturn_eq]
  generalize returnWords s = ws
  have half : (s.sys.per.retSeq + 1) % 2 < 2 := Nat.mod_lt _ (by decide)
  generalize (s.sys.per.retSeq + 1) % 2 = k at half
  have parts := (mramPutAll_keeps (L := [.mem]) (0x200 + 0x100 * k) ws (by decide) (keeps_refl _ s)).parts
  have read := mramGet_mramPutAll (s := s) ws (0x200 + 0x100 * k)
  generalize mramPutAll (0x200 + 0x100 * k) ws s = v at parts read
  have sys : (returnCounted v).sys = (returnCounted s).sys :=
    congrArg (fun x : SysCtl => { x with per := { x.per with retSeq := (x.per.retSeq + 1) % 2 ^ 32 } }) (parts.sys (by decide))
  have set : sameBut [.sys] v (returnCounted v) := (keeps_sys _ (by decide) (keeps_refl [.sys] v)).parts
  generalize returnCounted v = w at sys set
  have events : onlyEvents w (pcSys 0x5D ws.length w) := pcSys_onlyEvents 0x5D _ (onlyEvents_refl _)
  generalize pcSys 0x5D ws.length w = u at events
  refine ⟨(events.parts.sys (by decide)).trans sys, touches_events (touches_sameBut (touches_of_sameBut parts (by decide) (by decide)) set (by decide) (by decide)) events,
    sameBut_trans (sameBut_mono (by decide) parts) (sameBut_trans (sameBut_mono (by decide) set) (sameBut_mono (by decide) events.parts)), fun len op a out => ?_⟩
  exact (congrArg (fun m : Mems => mapGet 0 m.mram a) ((events.parts.mem (by decide)).trans (set.mem (by decide)))).trans
    ((read a op).trans (if_neg (by omega)))

/-- The age of the last exchange, an hour later. -/
def agePassed (s : State) : Nat := if s.sys.op = .runStandby then min 0xFFFFF (s.sys.per.xage + 1) else s.sys.per.xage

/-- A part with its hours counted. -/
def hourCounted (s : State) : State := { s with sys := { s.sys with per := { s.sys.per with hours := (s.sys.per.hours + 1) % 2 ^ 32, hoursRun := if s.sys.op = .runActive then (s.sys.per.hoursRun + 1) % 2 ^ 32 else s.sys.per.hoursRun, xage := agePassed s } } }

/-- XAGE_EXP is set, and its event raised, where the age has come to its limit. -/
def ageShown (s : State) : State :=
  if decide (24 * max 1 (fldOf s 0xF30000 19 8) ≤ s.sys.per.xage) && s.sys.op == .runStandby && !bitOf s 0xF30002 9 then raiseEvent 99 (putBit 0xF30002 9 true s) else s

theorem ageShown_spec (s : State) : touches (orEvents [0xF30002]) s (ageShown s) ∧ sameBut [.regs, .held, .pg, .bv, .pc] s (ageShown s) := by
  unfold ageShown
  split
  · exact ⟨touches_events (touches_putBit 9 true (.inl (by decide)) (touches_refl _ s)) (raiseEvent_onlyEvents (by decide) (onlyEvents_refl _)),
      (raiseEvent_keeps 99 (by decide) (putBit_keeps 0xF30002 9 true (by decide) (keeps_refl [.regs, .held, .pg, .bv, .pc] s))).parts⟩
  · exact ⟨touches_refl _ s, sameBut_refl _ s⟩

theorem hourPassed_eq (on : s.sys.op ≠ .powerUp) (run : s.sys.op ≠ .test) (free : s.sys.rstHeld = false) :
    hourPassed s = writeReturn (ageShown (putWord 0xF30006 (word (agePassed s)) (hourCounted s))) := by
  refine (if_neg (by rw [free]; exact fun h => h.elim on fun h => h.elim run fun h => by cases h)).trans (congrArg writeReturn ?_)
  show (if decide (24 * max 1 (fldOf (putWord 0xF30006 (word (agePassed s)) (hourCounted s)) 0xF30000 19 8) ≤ agePassed s) && s.sys.op == .runStandby &&
    !bitOf (putWord 0xF30006 (word (agePassed s)) (hourCounted s)) 0xF30002 9 then _ else _) = _
  have sys : (putWord 0xF30006 (word (agePassed s)) (hourCounted s)).sys = (hourCounted s).sys := putWord_sys ..
  unfold ageShown
  rw [sys]
  rfl

theorem hour_counts (on : s.sys.op ≠ .powerUp) (up : s.sys.op ≠ .test) (free : s.sys.rstHeld = false) :
    ∃ u, exec .operatingHour s = .next u ∧ u.sys.per.hours = (s.sys.per.hours + 1) % 2 ^ 32 ∧ u.sys.op = s.sys.op ∧
      u.sys.per.hoursRun = (if s.sys.op = .runActive then (s.sys.per.hoursRun + 1) % 2 ^ 32 else s.sys.per.hoursRun) ∧
      u.sys.per.xage = (if s.sys.op = .runStandby then min 0xFFFFF (s.sys.per.xage + 1) else s.sys.per.xage) ∧
      regGet u 0xF30006 = word u.sys.per.xage ∧
      (s.sys.per.resets.length = 5 → s.sys.per.kinds.length = 4 → ∀ a, a < 0x200 ∨ 0x400 ≤ a → mramGet u a = mramGet s a) ∧ u.cores = s.cores ∧ u.lk = s.lk := by
  have run : exec .operatingHour s = .next (hourPassed s) := rfl
  rw [hourPassed_eq on up free] at run
  have set : sameBut [.sys] s (hourCounted s) := (keeps_sys (hourCounted s).sys (by decide) (keeps_refl [.sys] s)).parts
  have put := (putWord_keeps (L := [.regs, .held]) 0xF30006 (word (agePassed s)) (by decide) (keeps_refl _ (hourCounted s))).parts
  have shown : regGet (putWord 0xF30006 (word (agePassed s)) (hourCounted s)) 0xF30006 = word (agePassed s) := regGet_putWord_same _ _ _
  generalize putWord 0xF30006 (word (agePassed s)) (hourCounted s) = v at run put shown
  obtain ⟨touched, aged⟩ := ageShown_spec v
  generalize ageShown v = w at run touched aged
  obtain ⟨sysU, events, parts, kept⟩ := writeReturn_spec w
  have sys : w.sys = (hourCounted s).sys := (aged.sys (by decide)).trans (put.sys (by decide))
  have per : (returnCounted w).sys = (returnCounted (hourCounted s)).sys :=
    congrArg (fun x : SysCtl => { x with per := { x.per with retSeq := (x.per.retSeq + 1) % 2 ^ 32 } }) sys
  have sysEnd := sysU.trans per
  have mem : w.mem = s.mem := (aged.mem (by decide)).trans ((put.mem (by decide)).trans (set.mem (by decide)))
  refine ⟨_, run, (congrArg (fun x : SysCtl => x.per.hours) sysEnd :), (congrArg SysCtl.op sysEnd :), (congrArg (fun x : SysCtl => x.per.hoursRun) sysEnd :),
    (congrArg (fun x : SysCtl => x.per.xage) sysEnd :), ?_, fun resets kinds a out => ?_,
    (parts.cores (by decide)).trans ((aged.cores (by decide)).trans ((put.cores (by decide)).trans (set.cores (by decide)))),
    (parts.lk (by decide)).trans ((aged.lk (by decide)).trans ((put.lk (by decide)).trans (set.lk (by decide))))⟩
  · rw [events.regGet (not_orEvents (by decide) (by decide)), touched.regGet (not_orEvents (by decide) (by decide)), shown]
    exact congrArg (fun x : SysCtl => word x.per.xage) sysEnd.symm
  · have small := returnWords_length (s := w) (by rw [sys]; exact resets) (by rw [sys]; exact kinds)
    exact (kept (by rw [small]; decide) (by rw [sys]; exact up) a out).trans (congrArg (fun m : Mems => mapGet 0 m.mram a) mem)

/-! ### The test access port -/

theorem tap_taken (i : TapOp) (mine : i ≠ .makers ∨ s.sys.op ≠ .test) :
    ∃ u, exec (.tapInstruction i) s = .next u ∧
      u.sys = { s.sys with tap := u.sys.tap } ∧ (i ∈ [TapOp.extest, .clamp, .highz, .makers] → s.sys.op ≠ .test → u.sys.tap = .bypass) ∧
      (i = .idcode → u.sys.tap = .idcode) ∧ (i = .sample → u.sys.tap = .sample) ∧ (i = .extest → s.sys.op = .test → u.sys.tap = .extest) ∧
      sameBut [.sys] s u := by
  have run : exec (.tapInstruction i) s = .next { s with sys := { s.sys with tap := tapTaken s i } } :=
    if_neg fun h => mine.elim (fun k => k h.1) (fun k => k h.2)
  refine ⟨_, run, rfl, fun boundary up => ?_, fun e => ?_, fun e => ?_, fun e op => ?_, (keeps_sys _ (by decide) (keeps_refl [.sys] s)).parts⟩
  · show tapTaken s i = .bypass
    cases i with
    | extest | clamp | highz => exact if_neg up
    | makers => rfl
    | bypass | idcode | sample => exact absurd boundary (by decide)
  · rw [e]
    rfl
  · rw [e]
    rfl
  · rw [e]
    exact if_pos op

/-- Settles O43. The copy that BSTORE writes where there is none (copy 0, SEQ 1) is log entry 32, a maker's own instruction in TEST log entry 61. -/
theorem requestsStoresAndTestPort : Obligations.RequestsStoresAndTestPort := by
  intro s
  refine ⟨fun op free up cmd r asked => ?_, fun who op up => bstore_spec who op up,
    fun who op up on => ⟨recov_taken who op up on, recov_dropped who op up⟩, mdata_read, hour_counts, tap_taken,
    fun op => if_pos ⟨rfl, op⟩, ⟨_, rfl, rfl, (keeps_sys _ (by decide) (keeps_refl [.sys] s)).parts⟩⟩
  obtain ⟨who, rfl, rfl⟩ | ⟨rfl, auto, hold, rfl⟩ := asked
  · have taken := runRequest_spec (s := armLock who s) op free
    exact ⟨_, run_asked who op up, taken.sched, taken.late, taken.pins, taken.sound, taken.op.trans op,
      sameBut_trans (sameBut_mono (by decide) (armLock_sameBut who s)) taken.parts⟩
  · have taken := runRequest_spec op free
    exact ⟨_, autorun_asked op auto hold, taken.sched, taken.late, taken.pins, taken.sound, taken.op.trans op, taken.parts⟩

end Sys2Proof.Machine
end

