-- ==== Sys2Proof/Proofs/MailboxLocks.lean ====
section
/-! PROOFS. A write of the mailbox's GO arms the lock of Kiosk too, when the request writes a register (16 R423, R431; 17 R451). -/

namespace Sys2Proof.Machine

/-- A part in CONFIG with a message in the mailbox that writes 7 to 2000h:03h, its own SNN's partner entry, and the lock of Kiosk unlocked. -/
def mailboxState : State :=
  { State.reset with
    regs := [(0xF49400, 0x00200), (0xF49405, 0x00020), (0xF49406, 0x00300), (0xF49407, 0x00300), (0xF49409, 0x00700)]
    sys := { State.reset.sys with op := .config, unlocked := [.kiosk] } }

theorem registerWrite_exec (who : Requester) {a : Addr} (v : Word) (s : State) (periph : 0xF00000 ≤ a.toNat) :
    exec (.registerWrite who a v) s = .next (regWrite who a.toNat v s) := congrArg Host.Outcome.next (if_pos periph)

theorem mailboxState_writes : regGet (regWrite .host 0xF48018 0x80000 mailboxState) 0xF48002 = 7 := by decide +kernel

theorem mailboxState_arms : Requester.kiosk ∉ (regWrite .host 0xF48018 0x80000 mailboxState).sys.unlocked := by decide +kernel

/-- Refutes O44: the host's write of GO has Kiosk write a register in the same step, and that write arms the lock of Kiosk, which was unlocked, though Kiosk is not the writer. -/
theorem not_registerWritesAndLocks : ¬ Obligations.RegisterWritesAndLocks := by
  intro h
  obtain ⟨-, written, -⟩ := h mailboxState .host 0xF48018 0x80000 (by decide) rfl (by decide)
  obtain ⟨u, run, -, others, -⟩ := written (by decide)
  rw [registerWrite_exec _ _ _ (by decide), show (0xF48018 : Addr).toNat = 0xF48018 by decide] at run
  injection run with e
  subst e
  exact mailboxState_arms ((others .kiosk (by decide)).mpr (by decide))

end Sys2Proof.Machine
end

