-- ==== Sys2Proof/Proofs/SharedAccesses.lean ====
section
/-! PROOFS. An access of the host port to shared memory is counted where a system counter counts event 5Bh (14 R387; 17 R454). -/

namespace Sys2Proof.Machine

/-- A part in CONFIG whose first system counter counts the accesses to shared memory. -/
def accessCounting : State := { State.reset with regs := [(0xF4C200, 0x8005B)], sys := { State.reset.sys with op := .config } }

/-- A write of one word, of value 0, at the first word of shared memory. -/
def sharedFrame : List Byte := [0x80, 0x10, 0, 0, 0, 0, 0]

theorem sharedFrame_exec : exec (.hostPortFrame sharedFrame) accessCounting = .next (hostFrame sharedFrame accessCounting) := rfl

theorem sharedFrame_counts : pcGet (hostFrame sharedFrame accessCounting) 96 = 1 := by decide +kernel

/-- Refutes O45: the frame counts in the system counter that is set to count accesses to shared memory, which the clause says nothing of. -/
theorem not_hostPortPinsAndStagedWords : ¬ Obligations.HostPortPinsAndStagedWords := by
  intro h
  obtain ⟨frames, -⟩ := h accessCounting (by decide) rfl
  obtain ⟨shared, -⟩ := frames 0x10 0 0 0 0 0
  obtain ⟨u, run, -, -, -, -, parts, -⟩ := shared (by decide) (by decide)
  rw [show ([0x80, 0x10, 0, 0, 0, 0, 0] : List Byte) = sharedFrame from rfl, sharedFrame_exec] at run
  injection run with e
  have counted := sharedFrame_counts
  rw [e] at counted
  have same : pcGet u 96 = 0 := (congrArg (fun c : Counters => mapGet 0 c.cnt 96) (parts.pc (by decide))).trans (by decide)
  rw [same] at counted
  exact absurd counted (by decide)

end Sys2Proof.Machine
end

