-- ==== Sys2Proof/Proofs/KioskAnswers.lean ====
section
/-! PROOFS. How Kiosk takes and answers a request (16 R420, R422, R429-R432): what an answer leaves alone, and the way of a fresh request to its entry. -/

namespace Sys2Proof.Machine

variable {o s t u : State} {q : KReq} {r : KResp}

/-! ### What an answered request leaves alone -/

/-- The address of a Kiosk register. -/
def kioskReg (a : Nat) : Prop := 0xF48000 ≤ a ∧ a < 0xF4C000

/-- The registers that a request answered may change: Kiosk's, those of events and those listed. -/
def kioskOr (as : List Nat) (a : Nat) : Prop := kioskReg a ∨ orEvents as a

theorem kioskFrame_of {ps : List Part} {as : List Nat} (parts : sameBut ([.ks, .lk, .regs, .held, .pg, .bv, .pc] ++ ps) s u)
    (regs : touches (kioskOr as) s u) : kioskFrame ps as s u :=
  ⟨parts, fun a out other quiet => regs a fun h => h.elim (fun k => by unfold kioskReg at k; omega) (not_orEvents other quiet)⟩

theorem kioskFrame_trans {ps : List Part} {as : List Nat} (first : kioskFrame ps as o s) (next : kioskFrame ps as s t) : kioskFrame ps as o t := by
  obtain ⟨parts, regs⟩ := first
  obtain ⟨parts', regs'⟩ := next
  exact ⟨sameBut_trans parts parts', fun a out other quiet =>
    ⟨(regs' a out other quiet).1.trans (regs a out other quiet).1, (regs' a out other quiet).2.trans (regs a out other quiet).2⟩⟩

theorem kioskFrame_mono {ps ps' : List Part} {as as' : List Nat} (h : kioskFrame ps as s t) (hp : ∀ p ∈ ps, p ∈ ps') (ha : ∀ a ∈ as, a ∈ as') :
    kioskFrame ps' as' s t := by
  obtain ⟨parts, regs⟩ := h
  exact ⟨sameBut_mono (fun p k => List.mem_append.mpr ((List.mem_append.mp k).imp id (hp p))) parts,
    fun a out other quiet => regs a out (fun k => other (ha _ k)) quiet⟩

/-! ### Answers -/

/-- The answer r to a request q has been given. -/
structure delivered (q : KReq) (r : KResp) (s u : State) : Prop where
  answer : u.ks.answer = some ⟨q, r⟩
  parts : sameBut [.regs, .held, .lk, .ks] s u
  ks : u.ks = { s.ks with answer := u.ks.answer, served := u.ks.served, outMsg := u.ks.outMsg, nextMsg := u.ks.nextMsg, routed := u.ks.routed }
  routed : (∀ k, q.from_.port ≠ .entry k) → u.ks.routed = s.ks.routed
  regs : (respBytes q r).length ≤ 0x2000 → touches kioskReg s u

theorem packWords_length : ∀ b : List Byte, (packWords b).length ≤ b.length
  | [] => Nat.le_refl 0
  | [_] => Nat.le_refl 1
  | _ :: _ :: l => by
    have := packWords_length l
    simp only [packWords, List.length_cons]
    omega

theorem canonAddr_kiosk {a : Nat} (h : 0xF20000 ≤ a) : canonAddr a = a := if_neg (by omega)

theorem mailbox_regs {b : List Byte} (small : b.length ≤ 0x2000) (s : State) : touches kioskReg s (mailbox b s) := by
  obtain ⟨regs, -⟩ := putWords_spec (packWords b) (a := 0xF49C10) (fun i => canonAddr_kiosk (by omega)) s
  have len := packWords_length b
  unfold mailbox
  refine touches_putBit 18 true (by unfold kioskReg; decide) (touches_mono regs fun a h => ?_)
  unfold kioskReg
  omega

/-- A part that keeps the answer it gives. -/
def answerKept (q : KReq) (r : KResp) (s : State) : State := setKs { s.ks with answer := some ⟨q, r⟩ } s

theorem answerKept_parts (q : KReq) (r : KResp) (s : State) : sameBut [.ks] s (answerKept q r s) := (keeps_ks _ (by decide) (keeps_refl [.ks] s)).parts

theorem delivered_of_parts {L : List Part} (parts : sameBut L (answerKept q r s) u) (sub : ∀ p ∈ L, p ∈ ([.regs, .held, .lk] : List Part))
    (regs : (respBytes q r).length ≤ 0x2000 → touches kioskReg (answerKept q r s) u) : delivered q r s u := by
  have ks : u.ks = (answerKept q r s).ks := parts.ks fun h => absurd (sub _ h) (by decide)
  refine ⟨?_, ?_, ?_, fun _ => ?_, fun small => touches_trans (touches_of_sameBut (answerKept_parts q r s) (by decide) (by decide)) (regs small)⟩
  · rw [ks]
    rfl
  · exact sameBut_trans (sameBut_mono (by decide) (answerKept_parts q r s)) (sameBut_mono (fun p h => by
      have := sub p h
      revert this
      cases p <;> decide) parts)
  · rw [ks]
    rfl
  · rw [ks]
    rfl

theorem delivered_lane (b : FrameBody) (q : KReq) (r : KResp) (s : State) : delivered q r s (laneSend b (answerKept q r s)) :=
  have parts := (laneSend_keeps (L := [.lk]) b (by decide) (keeps_refl _ (answerKept q r s))).parts
  delivered_of_parts parts (by decide) fun _ => touches_of_sameBut parts (by decide) (by decide)

theorem delivered_mailbox (q : KReq) (r : KResp) (s : State) : delivered q r s (mailbox (respBytes q r) (answerKept q r s)) :=
  delivered_of_parts (mailbox_keeps (L := [.regs, .held]) _ (by decide) (keeps_refl _ (answerKept q r s))).parts (by decide) fun small => mailbox_regs small _

/-- An update of what Kiosk puts out leaves the answer delivered. -/
theorem delivered_out {v : State} (d : delivered q r s v) (m : List OutMsg) (n : Nat) :
    delivered q r s (setKs { v.ks with outMsg := m, nextMsg := n } v) := by
  obtain ⟨answer, parts, ks, routed, regs⟩ := d
  refine ⟨answer, sameBut_trans parts (keeps_ks { v.ks with outMsg := m, nextMsg := n } (by decide) (keeps_refl [.regs, .held, .lk, .ks] v)).parts, ?_, routed,
    fun small => touches_same (regs small) rfl rfl⟩
  show ({ v.ks with outMsg := m, nextMsg := n } : Kiosk) = _
  rw [ks]
  rfl

theorem delivered_kept (q : KReq) (r : KResp) (s : State) : delivered q r s (answerKept q r s) :=
  delivered_of_parts (L := []) (sameBut_refl _ _) (by decide) fun _ => touches_refl _ _

theorem delivered_can (c : Fin 2) (n : Nat) (b : List Byte) (q : KReq) (r : KResp) (s : State) : delivered q r s (canOut c n b (answerKept q r s)) := by
  unfold canOut
  split
  · exact delivered_kept q r s
  · exact delivered_out (delivered_kept q r s) _ (answerKept q r s).ks.nextMsg

/-- An update of the link leaves the answer delivered. -/
theorem delivered_link {v w : State} (d : delivered q r s v) (parts : sameBut [.lk] v w) : delivered q r s w := by
  obtain ⟨answer, old, ks, routed, regs⟩ := d
  have same : w.ks = v.ks := parts.ks (by decide)
  refine ⟨by rw [same, answer], sameBut_trans old (sameBut_mono (by decide) parts), by rw [same]; exact ks, by rw [same]; exact routed,
    fun small => touches_sameBut (regs small) parts (by decide) (by decide)⟩

theorem delivered_node (n : LinkAddr) (b : List Byte) (q : KReq) (r : KResp) (s : State) :
    delivered q r s (if (newMsgId (answerKept q r s)).2.lk.st = .lead then toNodeMsg n (newMsgId (answerKept q r s)).1 .response b (newMsgId (answerKept q r s)).2
      else (newMsgId (answerKept q r s)).2) := by
  have named : delivered q r s (newMsgId (answerKept q r s)).2 := delivered_out (delivered_kept q r s) (answerKept q r s).ks.outMsg _
  split
  · exact delivered_link named (toNodeMsg_keeps (L := [.lk]) n _ .response b (by decide) (keeps_refl _ _)).parts
  · exact named

theorem delivered_entry (src : BitVec 18) (x : Option (List Byte)) (q : KReq) (r : KResp) (k : Nat) (from_ : q.from_.port = .entry k) (s : State) :
    delivered q r s (setKs { (answerKept q r s).ks with routed := (src, x) :: (answerKept q r s).ks.routed.filter fun y => y.1 != src } (answerKept q r s)) :=
  ⟨rfl, (keeps_ks _ (by decide) (keeps_refl [.regs, .held, .lk, .ks] s)).parts, rfl, fun no => absurd from_ (no k),
    fun _ => touches_same (touches_refl _ s) rfl rfl⟩

theorem deliver_spec (q : KReq) (r : KResp) (s : State) (own : q.from_.dst.toNat ≠ 262143) : delivered q r s (deliver q r s) := by
  obtain ⟨⟨port, src, dst, reqid, hop⟩, w, i, sub, d⟩ := q
  cases port with
  | hp =>
    rw [show deliver ⟨⟨.hp, src, dst, reqid, hop⟩, w, i, sub, d⟩ r s = _ from if_neg own]
    exact delivered_mailbox _ r s
  | can c =>
    rw [show deliver ⟨⟨.can c, src, dst, reqid, hop⟩, w, i, sub, d⟩ r s = _ from if_neg own]
    exact delivered_can c 0 _ _ r s
  | link n =>
    rw [show deliver ⟨⟨.link n, src, dst, reqid, hop⟩, w, i, sub, d⟩ r s = _ from if_neg own]
    exact delivered_node n _ _ r s
  | pair =>
    rw [show deliver ⟨⟨.pair, src, dst, reqid, hop⟩, w, i, sub, d⟩ r s = _ from if_neg own]
    exact delivered_lane _ _ r s
  | entry k =>
    rw [show deliver ⟨⟨.entry k, src, dst, reqid, hop⟩, w, i, sub, d⟩ r s = _ from if_neg own]
    exact delivered_entry src _ _ r k rfl s

/-- What comes before the answer changes the counters of Kiosk and its record of requests served. -/
theorem delivered_after {v : State} (d : delivered q r v u) (ks : v.ks = { s.ks with served := v.ks.served }) (parts : sameBut [.regs, .held, .ks] s v)
    (regs : touches kioskReg s v) : delivered q r s u := by
  obtain ⟨answer, parts', ks', routed', regs'⟩ := d
  refine ⟨answer, sameBut_trans (sameBut_mono (by decide) parts) parts', ?_, fun no => (routed' no).trans (by rw [ks]), fun small => touches_trans regs (regs' small)⟩
  rw [ks', ks]

/-- A part that has counted a request served, and an abort. -/
def requestCounted (q : KReq) (r : KResp) (s : State) : State :=
  match r with
  | .abort _ => if q.from_.dst.toNat = 262143 then count 0xF48010 s else count 0xF48011 (count 0xF48010 s)
  | .data _ => count 0xF48010 s

theorem requestCounted_spec (q : KReq) (r : KResp) (s : State) : sameBut [.regs, .held] s (requestCounted q r s) ∧ touches kioskReg s (requestCounted q r s) := by
  have one := touches_count (A := kioskReg) (a := 0xF48010) (by unfold kioskReg; decide) (touches_refl _ s)
  have first := count_keeps (L := [.regs, .held]) 0xF48010 (by decide) (keeps_refl _ s)
  cases r with
  | data b => exact ⟨first.parts, one⟩
  | abort c =>
    by_cases all : q.from_.dst.toNat = 262143
    · rw [show requestCounted q (.abort c) s = _ from if_pos all]
      exact ⟨first.parts, one⟩
    · rw [show requestCounted q (.abort c) s = _ from if_neg all]
      exact ⟨(count_keeps 0xF48011 (by decide) first).parts, touches_count (by unfold kioskReg; decide) one⟩

/-- A request came by CAN, whose requests carry no identifier. -/
def byCan : KPort → Bool
  | .can _ => true
  | _ => false

theorem kFinish_spec (q : KReq) (r : KResp) (s : State) (own : q.from_.dst.toNat ≠ 262143) : delivered q r s (kFinish q r s) := by
  obtain ⟨parts, regs⟩ := requestCounted_spec q r s
  have ks : (requestCounted q r s).ks = s.ks := parts.ks (by decide)
  have unfolded : kFinish q r s = deliver q r (if byCan q.from_.port then requestCounted q r s
      else setKs { (requestCounted q r s).ks with served := (⟨q, r⟩ :: (requestCounted q r s).ks.served).take 32 } (requestCounted q r s)) := by
    cases r <;> rfl
  rw [unfolded]
  refine delivered_after (deliver_spec q r _ own) ?_ ?_ ?_
  · split
    · rw [ks]
    · show ({ (requestCounted q r s).ks with served := _ } : Kiosk) = _
      rw [ks]
      rfl
  · split
    · exact sameBut_mono (by decide) parts
    · exact sameBut_trans (sameBut_mono (by decide) parts) (keeps_ks _ (by decide) (keeps_refl [.regs, .held, .ks] _)).parts
  · split
    · exact regs
    · exact touches_same regs rfl rfl

theorem kioskFrame_delivered (d : delivered q r s u) (small : (respBytes q r).length ≤ 0x2000) : kioskFrame [] [] s u :=
  kioskFrame_of (sameBut_mono (by decide) d.parts) (touches_mono (d.regs small) fun _ => .inl)

/-! ### A request on its way to its entry -/

/-- A part that has taken a message from the link and used up the key of its source. -/
def keyUsed (src : BitVec 18) (v : Service) (s : State) : State :=
  { s with lk := { s.lk with svc := v }, ks := { s.ks with keys := s.ks.keys.filter fun x => x != src } }

section
variable (src : BitVec 18) (v : Service) (s : State)

theorem keyUsed_parts : sameBut [.lk, .ks] s (keyUsed src v s) := (keeps_lk (keyUsed src v s).lk (by decide) (keeps_ks (keyUsed src v s).ks (by decide) (keeps_refl [.lk, .ks] s))).parts

theorem keyUsed_frame : kioskFrame [] [] s (keyUsed src v s) :=
  kioskFrame_of (sameBut_mono (by decide) (keyUsed_parts src v s)) (touches_of_sameBut (keyUsed_parts src v s) (by decide) (by decide))

theorem kLookup_keyUsed (i sub : Nat) : kLookup (keyUsed src v s) i sub = kLookup s i sub := rfl

theorem showSd_keyUsed : showSd (keyUsed src v s) = showSd s := rfl
theorem showFb_keyUsed : showFb (keyUsed src v s) = showFb s := rfl
theorem showMp_keyUsed : showMp (keyUsed src v s) = showMp s := rfl
theorem svReadout_keyUsed : svReadout (keyUsed src v s) = svReadout s := rfl
theorem showBv_keyUsed : showBv (keyUsed src v s) = showBv s := rfl
theorem showLk_keyUsed : showLk (keyUsed src v s) = showLk s := rfl
theorem showGh_keyUsed : showGh (keyUsed src v s) = showGh s := rfl
theorem phLevelWord_keyUsed : phLevelWord (keyUsed src v s) = phLevelWord s := rfl
theorem showPg_keyUsed : showPg (keyUsed src v s) = showPg s := rfl
theorem showEv_keyUsed : showEv (keyUsed src v s) = showEv s := rfl
theorem cnShow_keyUsed : cnShow (keyUsed src v s) = cnShow s := rfl
theorem showKs_keyUsed : showKs (keyUsed src v s) = showKs s := rfl
theorem showSc_keyUsed : showSc (keyUsed src v s) = showSc s := rfl
theorem nvBusy_keyUsed : nvBusy (keyUsed src v s) = nvBusy s := rfl
theorem gpioLevel_keyUsed : gpioLevel (keyUsed src v s) = gpioLevel s := rfl
theorem effLevel_keyUsed : effLevel (keyUsed src v s) = effLevel s := rfl
theorem pcGet_keyUsed : pcGet (keyUsed src v s) = pcGet s := rfl

theorem showPc_keyUsed : showPc (keyUsed src v s) = showPc s := by
  funext a w
  unfold showPc
  rw [effLevel_keyUsed, pcGet_keyUsed, show (keyUsed src v s).pc = s.pc from rfl]

/-- No register shows the service messages of the link or the keys. -/
theorem liveWord_keyUsed (who : Requester) (a : Nat) : liveWord (keyUsed src v s) who a = liveWord s who a := by
  unfold liveWord
  rw [showSd_keyUsed, showFb_keyUsed, showMp_keyUsed, svReadout_keyUsed, showBv_keyUsed, showLk_keyUsed, showGh_keyUsed, phLevelWord_keyUsed, showPg_keyUsed,
    showEv_keyUsed, cnShow_keyUsed, showKs_keyUsed, showSc_keyUsed, nvBusy_keyUsed, gpioLevel_keyUsed, showPc_keyUsed,
    show regGet (keyUsed src v s) = regGet s from rfl]

theorem entryValue_keyUsed (e : KEntry) (i sub : Nat) : entryValue (keyUsed src v s) e i sub = entryValue s e i sub := by
  have words : liveWord (keyUsed src v s) .kiosk = liveWord s .kiosk := funext (liveWord_keyUsed src v s .kiosk)
  unfold entryValue
  rw [words, show calcValue (keyUsed src v s) i sub = calcValue s i sub from rfl]
  rfl

end

theorem takeDone_eq (p : KPort) (s : State) : ∃ v, takeDone p s = setSvc v s := by
  cases p with
  | link n => exact ⟨_, rfl⟩
  | hp | can _ | pair | entry _ => exact ⟨s.lk.svc, rfl⟩

theorem recorded_fresh (fresh : freshHere s q.from_) : recorded s q = none := by
  obtain ⟨-, -, -, -, new⟩ := fresh
  obtain ⟨⟨port, src, dst, reqid, hop⟩, w, i, sub, d⟩ := q
  cases port with
  | can c => rfl
  | hp | link _ | pair | entry _ =>
    obtain ⟨c, e⟩ | new := new
    · cases e
    · exact List.find?_eq_none.mpr fun x hx h => by
        obtain ⟨hs, hr⟩ := Bool.and_eq_true_iff.mp h
        exact new x hx (eq_of_beq hs) (eq_of_beq hr)

/-- The answer of an entry that is served goes out; one that comes later is not given yet. -/
def finishServe (q : KReq) : Option KResp × State → State
  | (some r, s) => kFinish q r s
  | (none, s) => s

theorem kLocal_fresh (fresh : freshHere s q.from_) : kLocal q s = finishServe q (serveNew q s) := by
  rw [kLocal, recorded_fresh fresh]
  rcases serveNew q s with ⟨_ | r, u⟩
  · rfl
  · rfl

theorem kRequest_fresh (fresh : freshHere s q.from_) : kRequest q s = finishServe q (serveNew q s) := by
  rw [← kLocal_fresh fresh]
  obtain ⟨serves, hop, dst, own, -⟩ := fresh
  unfold kRequest
  rw [if_neg (by rw [show kServes s = true from serves]; decide), if_neg (by omega), if_neg dst, if_pos own]

theorem kTop_fresh (fresh : freshHere s q.from_) (plain : isRouted q = false ∨ roleChanged s q = true) :
    ∃ v, kTop q s = finishServe q (serveNew q (setSvc v s)) := by
  obtain ⟨v, taken⟩ := takeDone_eq q.from_.port s
  have fresh' : freshHere (setSvc v s) q.from_ := fresh
  refine ⟨v, ?_⟩
  rw [← kRequest_fresh fresh', ← taken]
  refine if_neg fun h => ?_
  have routes : routesNow (takeDone q.from_.port s) q = true := (Bool.and_eq_true_iff.mp h).2
  rw [taken] at routes
  unfold routesNow at routes
  obtain h | h := plain
  · rw [h] at routes
    exact absurd routes (by simp)
  · rw [show roleChanged (setSvc v s) q = roleChanged s q from rfl, h] at routes
    exact absurd routes (by simp)

/-- What serves a request that names an entry of an index below 6000h, as the entry is looked up. -/
def lookupServe (q : KReq) (had : Bool) (i sub : Nat) (s : State) : Lookup → Option KResp × State
  | .noIndex => (some (.abort 0x06020000), s)
  | .noSub => (some (.abort 0x06090011), s)
  | .found e => if byFirmware i sub then serveFirmware had q e i sub s else serveEntry had q e i sub s

theorem mirrorOf_low {i : Nat} (low : i < 0x6000) (sub : Nat) (s : State) : mirrorOf s i sub = (i, sub) := if_neg (by omega)

theorem serveNew_low (q : KReq) (low : q.index.toNat < 0x6000) (v : Service) (own : roleChanged s q = false) :
    serveNew q (setSvc v s) = lookupServe q (s.ks.keys.contains q.from_.src) q.index.toNat q.sub.toNat (keyUsed q.from_.src v s) (kLookup s q.index.toNat q.sub.toNat) := by
  have used : useKey q (setSvc v s) = keyUsed q.from_.src v s := rfl
  have same : ({ q with index := BitVec.ofNat 16 q.index.toNat, sub := BitVec.ofNat 8 q.sub.toNat } : KReq) = q := by
    rw [BitVec.ofNat_toNat, BitVec.ofNat_toNat, BitVec.setWidth_eq, BitVec.setWidth_eq]
  unfold serveNew
  rw [used]
  dsimp only
  rw [mirrorOf_low low, show roleChanged (keyUsed q.from_.src v s) q = false from own, if_neg (by decide), kLookup_keyUsed, same]
  cases kLookup s q.index.toNat q.sub.toNat with
  | noIndex | noSub | found e => rfl

theorem serveNew_roleChanged (q : KReq) (v : Service) (changed : roleChanged s q = true) :
    serveNew q (setSvc v s) = (some (.abort 0x08000043), count 0xF3000C (keyUsed q.from_.src v s)) :=
  if_pos changed

theorem roleChanged_own {f : KFrom} {w : Bool} {i : BitVec 16} {sub : BitVec 8} {d : List Byte} (own : ownRole s f) : roleChanged s ⟨f, w, i, sub, d⟩ = false := by
  unfold roleChanged isAlias
  obtain h | h | h := own
  · rw [h]
    simp
  · rw [h]
    simp
  · rw [show (fldOf s 0xF48001 17 0 == f.dst.toNat) = false from beq_eq_false_iff_ne.mpr h]
    simp

theorem roleChanged_read (f : KFrom) (i sub : Nat) : roleChanged s (rreq f i sub) = false := rfl

theorem roleChanged_alias {f : KFrom} {i : Nat} {sub : Nat} {d : List Byte} (alias_ : ¬ ownRole s f) : roleChanged s (wreq f i sub d) = true := by
  unfold ownRole at alias_
  simp only [not_or, Bool.not_eq_false, ne_eq, not_not] at alias_
  obtain ⟨standby, enabled, name⟩ := alias_
  show (true && isStandby s && (bitOf s 0xF48001 19 && fldOf s 0xF48001 17 0 == f.dst.toNat)) = true
  rw [standby, enabled, name]
  simp

section
variable {f : KFrom} {i sub : Nat}

theorem rreq_names (hi : i < 0x10000) (hs : sub < 0x100) : (rreq f i sub).index.toNat = i ∧ (rreq f i sub).sub.toNat = sub :=
  ⟨(BitVec.toNat_ofNat ..).trans (Nat.mod_eq_of_lt hi), (BitVec.toNat_ofNat ..).trans (Nat.mod_eq_of_lt hs)⟩

theorem wreq_names {data : List Byte} (hi : i < 0x10000) (hs : sub < 0x100) : (wreq f i sub data).index.toNat = i ∧ (wreq f i sub data).sub.toNat = sub :=
  ⟨(BitVec.toNat_ofNat ..).trans (Nat.mod_eq_of_lt hi), (BitVec.toNat_ofNat ..).trans (Nat.mod_eq_of_lt hs)⟩

theorem read_served (fresh : freshHere s f) (hi : i < 0x6000) (hs : sub < 0x100) :
    ∃ v, kTop (rreq f i sub) s = finishServe (rreq f i sub) (lookupServe (rreq f i sub) (s.ks.keys.contains f.src) i sub (keyUsed f.src v s) (kLookup s i sub)) := by
  obtain ⟨named, subNamed⟩ := rreq_names (f := f) (i := i) (sub := sub) (by omega) hs
  obtain ⟨v, top⟩ := kTop_fresh (q := rreq f i sub) fresh (.inl rfl)
  rw [serveNew_low (rreq f i sub) (by omega) v (roleChanged_read f i sub), named, subNamed] at top
  exact ⟨v, top⟩

theorem write_served {data : List Byte} (fresh : freshHere s f) (own : ownRole s f) (hi : i < 0x6000) (hs : sub < 0x100) (plain : i = 0x2011 → sub ≠ 1) :
    ∃ v, kTop (wreq f i sub data) s =
      finishServe (wreq f i sub data) (lookupServe (wreq f i sub data) (s.ks.keys.contains f.src) i sub (keyUsed f.src v s) (kLookup s i sub)) := by
  obtain ⟨named, subNamed⟩ := wreq_names (f := f) (i := i) (sub := sub) (data := data) (by omega) hs
  have unrouted : isRouted (wreq f i sub data) = false := by
    by_contra h
    obtain ⟨h, one⟩ := Bool.and_eq_true_iff.mp (Bool.not_eq_false _ ▸ h)
    have index := congrArg BitVec.toNat (eq_of_beq (Bool.and_eq_true_iff.mp h).2)
    have subIndex := congrArg BitVec.toNat (eq_of_beq one)
    rw [named] at index
    rw [subNamed] at subIndex
    exact plain index subIndex
  obtain ⟨v, top⟩ := kTop_fresh (q := wreq f i sub data) fresh (.inl unrouted)
  rw [serveNew_low (wreq f i sub data) (by omega) v (roleChanged_own own), named, subNamed] at top
  exact ⟨v, top⟩

theorem write_roleChanged {data : List Byte} (fresh : freshHere s f) (alias_ : ¬ ownRole s f) :
    ∃ v, kTop (wreq f i sub data) s = kFinish (wreq f i sub data) (.abort 0x08000043) (count 0xF3000C (keyUsed f.src v s)) := by
  have changed := roleChanged_alias (i := i) (sub := sub) (d := data) alias_
  obtain ⟨v, top⟩ := kTop_fresh (q := wreq f i sub data) fresh (.inr changed)
  rw [serveNew_roleChanged _ v changed] at top
  exact ⟨v, top⟩

end

end Sys2Proof.Machine
end

