-- ==== Sys2Proof/Proofs/ShortEntries.lean ====
section
/-! PROOFS. The entries of the dictionary below 6000h are short numbers, or strings and domains (16 R421, R424-R428). -/

namespace Sys2Proof.Machine

variable {s : State}

/-- The values of an entry are short numbers, or strings and domains. -/
def shortEntry (e : KEntry) : Prop := e.ty.size.getD 0 ≤ 8

/-- An entry that is found is short. -/
def shortFound (x : Option KEntry) : Prop := ∀ e, x = some e → shortEntry e

@[simp] theorem shortFound_some (y : KEntry) : shortFound (some y) ↔ shortEntry y :=
  ⟨fun h => h y rfl, fun h e k => by
    cases k
    exact h⟩

@[simp] theorem shortFound_none : shortFound none := fun e k => by cases k

@[simp] theorem shortEntry_kent (t : KType) (right : KRight) (back : KBack) : shortEntry (kent t right back) ↔ t.size.getD 0 ≤ 8 := Iff.rfl
@[simp] theorem shortEntry_setP (y : KEntry) : shortEntry y.setP ↔ shortEntry y := Iff.rfl
@[simp] theorem shortEntry_setO (y : KEntry) : shortEntry y.setO ↔ shortEntry y := Iff.rfl
@[simp] theorem shortEntry_setM (y : KEntry) : shortEntry y.setM ↔ shortEntry y := Iff.rfl

@[simp] theorem mpEntry_short (b off : Nat) : shortFound (mpEntry b off) := by
  unfold mpEntry
  dsimp only
  split <;> simp [KType.size]

@[simp] theorem axisEntry_short (i a : Nat) : shortFound (axisEntry i a) := by
  unfold axisEntry
  dsimp only
  split <;> simp [KType.size]

@[simp] theorem regEntry_short (a : Nat) : shortEntry (regEntry a) := by
  unfold regEntry
  cases rowOf a with
  | none => simp [KType.size]
  | some r =>
    dsimp only
    split
    · split
      · exact (by decide : 4 ≤ 8)
      · exact (by decide : 5 ≤ 8)
    · exact (by decide : 3 ≤ 8)

/-- The definition is unfolded as a function, under a predicate of functions: at an address the kernel would take the base of the block in unary. -/
theorem moverEntry_shortAs (Q : (Nat → KEntry) → Prop) (h : ∀ f : Nat → KEntry, (∀ a, shortEntry (f a)) → Q f) : Q moverEntry := by
  delta moverEntry
  refine h _ fun a => ?_
  extract_lets off
  clear_value off
  rcases found : mpEntry (a - off) off with - | e
  · dsimp only
    split <;> simp [KType.size]
  · exact mpEntry_short _ _ e found

theorem moverEntry_short (a : Nat) : shortEntry (moverEntry a) := moverEntry_shortAs (fun f => ∀ a, shortEntry (f a)) (fun _ h => h) a

/-- An index whose entries are all short. -/
def shortIndex (f : Nat → Option KEntry) : Prop := ∀ sub, shortFound (f sub)

theorem ofRegs_short (l : List Nat) : shortIndex (ofRegs l) := fun sub => by
  unfold ofRegs
  split
  · exact shortFound_none
  · exact fun e h => by
      obtain ⟨a, -, rfl⟩ := Option.map_eq_some_iff.mp h
      exact regEntry_short a

theorem moverRegs_short (l : List Nat) : shortIndex (moverRegs l) := fun sub => by
  unfold moverRegs
  split
  · exact shortFound_none
  · exact fun e h => by
      obtain ⟨a, -, rfl⟩ := Option.map_eq_some_iff.mp h
      exact moverEntry_short a

theorem axisArray_short (s : State) (i first : Nat) : shortIndex (axisArray s i first) := fun sub => by
  unfold axisArray
  split_ifs <;> simp [KType.size]

theorem lookupNat_short {l : List (Nat × KEntry)} (h : ∀ x ∈ l, shortEntry x.2) (sub : Nat) : shortFound (lookupNat l sub) := by
  induction l with
  | nil => exact shortFound_none
  | cons x l ih =>
    obtain ⟨i, y⟩ := x
    rw [lookupNat]
    split
    · exact (shortFound_some y).mpr (h (i, y) (List.mem_cons_self ..))
    · exact ih fun z hz => h z (List.mem_cons_of_mem _ hz)

/-- An index that holds entries holds short ones. -/
def shortAt (x : Option (Nat → Option KEntry)) : Prop := ∀ f, x = some f → shortIndex f

theorem shortAt_some {f : Nat → Option KEntry} (h : ∀ sub, shortFound (f sub)) : shortAt (some f) := fun g k => by
  cases k
  exact h

theorem shortAt_none : shortAt none := fun f k => by cases k

theorem shortAt_ite {c : Prop} [Decidable c] {x y : Option (Nat → Option KEntry)} (hx : shortAt x) (hy : shortAt y) : shortAt (if c then x else y) := by
  split
  · exact hx
  · exact hy

theorem shortFound_ite {c : Prop} [Decidable c] {x y : Option KEntry} (hx : shortFound x) (hy : shortFound y) : shortFound (if c then x else y) := by
  split
  · exact hx
  · exact hy

theorem uintP_short {n : Nat} (h : n ≤ 8) : shortEntry (uintP n) := h

theorem shortAt_block (l : List Nat) : shortAt (some (ofRegs l)) := shortAt_some (ofRegs_short l)

theorem shortAt_pick {l : List (Nat × KEntry)} (h : ∀ x ∈ l, shortEntry x.2) : shortAt (some fun sub => lookupNat l sub) := shortAt_some (lookupNat_short h)

theorem commIndex_short (i : Nat) : shortAt (commIndex i) := by
  have num (n : Nat) (h : n ≤ 8) (right : KRight) (back : KBack) : shortFound (some (kent (.uns n) right back)) := (shortFound_some _).mpr h
  have held (n : Nat) (h : n ≤ 8) : shortFound (some (uintP n)) := (shortFound_some _).mpr h
  have text (right : KRight) : shortFound (some (kent .str right .calc)) := (shortFound_some _).mpr (Nat.zero_le 8)
  have one (sub : Nat) {x : Option KEntry} (h : shortFound x) : shortAt (some fun k => if k = sub then x else none) :=
    shortAt_some fun _ => shortFound_ite h shortFound_none
  unfold commIndex
  dsimp only
  repeat' apply shortAt_ite
  exacts [one 0 (num 4 (by decide) _ _), one 0 (num 1 (by decide) _ _), one 0 (text _), one 0 (text _), one 0 (text _), one 1 (num 4 (by decide) _ _),
    one 0 (held 2 (by decide)),
    shortAt_some fun _ => shortFound_ite (num 4 (by decide) _ _) (shortFound_ite (num 4 (by decide) _ _) (shortFound_ite (num 4 (by decide) _ _) shortFound_none)),
    shortAt_some fun _ => shortFound_ite (num 4 (by decide) _ _) shortFound_none,
    shortAt_some fun _ => shortFound_ite (held 4 (by decide)) (shortFound_ite (held 1 (by decide)) shortFound_none),
    shortAt_some fun _ => shortFound_ite (held 4 (by decide)) (shortFound_ite (held 1 (by decide)) (shortFound_ite (held 2 (by decide)) shortFound_none)),
    shortAt_some fun _ => shortFound_ite (held 1 (by decide)) (shortFound_ite (held 4 (by decide)) shortFound_none),
    shortAt_none]

theorem deviceIndex_short (s : State) (i : Nat) : shortAt (deviceIndex s i) := by
  have block (a n : Nat) : shortAt (some (ofRegs (regsAt a n))) := shortAt_block _
  have axes (e first : Nat) : shortAt (some (axisArray s e first)) := shortAt_some (axisArray_short s e first)
  unfold deviceIndex
  dsimp only
  repeat' apply shortAt_ite
  exacts [shortAt_pick (by simp [KType.size]), shortAt_pick (by simp [KType.size]), shortAt_pick (by simp [KType.size]), shortAt_pick (by simp [KType.size]),
    shortAt_some fun _ => shortFound_ite ((shortFound_some _).mpr (by decide : 1 ≤ 8)) shortFound_none, shortAt_pick (by simp [KType.size]),
    block _ _, block _ _, block _ _, block _ _, shortAt_some fun _ => shortFound_ite ((shortFound_some _).mpr (regEntry_short _)) shortFound_none,
    axes _ _, axes _ _, shortAt_some (moverRegs_short _), block _ _, block _ _, block _ _, shortAt_block _, block _ _, block _ _, block _ _, block _ _, block _ _,
    block _ _, block _ _, block _ _, block _ _, shortAt_pick (by simp [KType.size]), shortAt_pick (by simp [KType.size]), block _ _, block _ _, shortAt_block _,
    shortAt_pick (by simp [KType.size]), shortAt_pick (by simp [KType.size]), shortAt_none]

theorem typeOfCode_short (n : Nat) : (typeOfCode n).size.getD 0 ≤ 8 := by
  unfold typeOfCode
  split <;> simp [KType.size]

theorem firmwareEntryAt_short (i : Nat) : shortIndex (firmwareEntryAt i) := fun sub e h => by
  unfold firmwareEntryAt at h
  dsimp only at h
  split at h
  · cases h
  · cases h
    exact typeOfCode_short _

theorem kLookup_short {i sub : Nat} (low : i < 0x6000) {e : KEntry} (found : kLookup s i sub = .found e) : shortEntry e := by
  unfold kLookup at found
  split at found
  · cases found
  · next f index =>
    have short : shortIndex f := by
      unfold kIndex at index
      split at index
      · exact commIndex_short i f index
      · split at index
        · exact deviceIndex_short s i f index
        · split at index
          · cases index
            exact firmwareEntryAt_short i
          · cases index
    split at found
    · next e' inside =>
      cases found
      exact short sub e inside
    · cases found

end Sys2Proof.Machine
end

