-- ==== Sys2Proof/Proofs/StagedWrites.lean ====
section
/-! PROOFS. A register written by Kiosk whose fields are all staged for the boundary (16 R423; 17 R442). -/

namespace Sys2Proof.Machine

variable {s t : State}

/-- Every field of a register is read and written, or a command, and staged for the boundary. -/
def allStaged (r : RegRow) : Prop := ∀ f ∈ r.fields, (f.acc = .rw ∨ f.acc = .sc) ∧ f.mark = .b

theorem mergeI_staged {fs : List Fld} (h : ∀ f ∈ fs, (f.acc = .rw ∨ f.acc = .sc) ∧ f.mark = .b) (cfg : Bool) (v w : Word) : mergeI cfg fs v w = w := by
  induction fs generalizing w with
  | nil => rfl
  | cons f fs ih =>
    obtain ⟨acc, mark⟩ := h f (List.mem_cons_self ..)
    have clear (x : Access) (no : x ≠ .rw ∧ x ≠ .sc) : f.acc ≠ x := fun k =>
      acc.elim (fun a => no.1 (k.symm.trans a)) fun a => no.2 (k.symm.trans a)
    rw [mergeI, List.foldl_cons, if_neg (by rw [mark]; simp), if_neg (clear .w1c (by decide)), if_neg (clear .w0c (by decide))]
    exact ih (fun g hg => h g (List.mem_cons_of_mem _ hg)) w

/-- A register holds a word shown beside the word in force. -/
structure stagedWord (a : Nat) (w : Word) (s t : State) : Prop where
  shown : regGet t a = w
  force : inForce t a = inForce s a
  per : t.sys.per = s.sys.per
  regs : touches (· = canonAddr a) s t
  parts : sameBut [.sys, .regs, .held] s t

theorem stageReg_staged (a : Nat) (w : Word) (s : State) : stagedWord a w s (stageReg a w s) := by
  obtain ⟨regs, shown, force⟩ := stageReg_spec a w s
  have parts := (stageReg_keeps a w (by decide) (keeps_refl [.regs, .held] s)).parts
  exact ⟨shown, force, congrArg SysCtl.per (parts.sys (by decide)), regs, sameBut_mono (by decide) parts⟩

theorem noteCommand_per (who : Requester) (a : Nat) (s : State) : (noteCommand who a s).sys.per = s.sys.per := by
  unfold noteCommand
  split <;> rfl

theorem genericWrite_staged (who : Requester) (a : Nat) (v : Word) {r : RegRow} (staged : allStaged r)
    (late : configLate (s.sys.op == .config) r.fields v (regGet s a) = false) :
    stagedWord a (mergeB (s.sys.op == .config) r.fields v (regGet s a)) s (genericWrite who a v r s) := by
  have plain (w : Word) : mergeI (s.sys.op == .config) r.fields v w = w := mergeI_staged staged _ v w
  have unfolded : genericWrite who a v r s =
      if mergeB (s.sys.op == .config) r.fields v (regGet (hwMod a (mergeI (s.sys.op == .config) r.fields v) s) a) = regGet (hwMod a (mergeI (s.sys.op == .config) r.fields v) s) a
      then hwMod a (mergeI (s.sys.op == .config) r.fields v) s
      else noteCommand who a (stageReg a (mergeB (s.sys.op == .config) r.fields v (regGet (hwMod a (mergeI (s.sys.op == .config) r.fields v) s) a))
        (hwMod a (mergeI (s.sys.op == .config) r.fields v) s)) := by
    unfold genericWrite
    dsimp only
    rw [late, show whenB false (lateRecord who a) s = s from rfl]
  have get : regGet (hwMod a (mergeI (s.sys.op == .config) r.fields v) s) a = regGet s a := by rw [regGet_hwMod, if_pos rfl, plain]
  have force : inForce (hwMod a (mergeI (s.sys.op == .config) r.fields v) s) a = inForce s a := by rw [inForce_hwMod, if_pos rfl, plain]
  have regs : touches (· = canonAddr a) s (hwMod a (mergeI (s.sys.op == .config) r.fields v) s) := touches_hwMod _ rfl (touches_refl _ s)
  have parts := (hwMod_keeps (L := [.regs, .held]) a (mergeI (s.sys.op == .config) r.fields v) (by decide) (keeps_refl _ s)).parts
  rw [unfolded, get]
  generalize hwMod a (mergeI (s.sys.op == .config) r.fields v) s = m at get force regs parts
  generalize mergeB (s.sys.op == .config) r.fields v (regGet s a) = w
  by_cases same : w = regGet s a
  · rw [if_pos same]
    exact ⟨get.trans same.symm, force, congrArg SysCtl.per (parts.sys (by decide)), regs, sameBut_mono (by decide) parts⟩
  · rw [if_neg same]
    obtain ⟨shown, force', per, regs', parts'⟩ := stageReg_staged a w m
    generalize stageReg a w m = n at shown force' per regs' parts'
    have noted : sameBut [.sys] n (noteCommand who a n) := (noteCommand_keeps (L := [.sys]) who a (by decide) (keeps_refl _ n)).parts
    have last : touches (fun _ => False) n (noteCommand who a n) := touches_of_sameBut noted (by decide) (by decide)
    exact ⟨(last a id).1.trans shown, (last a id).2.trans (force'.trans force),
      (noteCommand_per who a n).trans (per.trans (congrArg SysCtl.per (parts.sys (by decide)))), touches_trans regs (touches_trans regs' (touches_mono last fun _ => False.elim)),
      sameBut_trans (sameBut_mono (by decide) parts) (sameBut_trans parts' (sameBut_mono (by decide) noted))⟩

theorem mirrorOut_staged (who : Requester) (a : Nat) (v : Word) {r : RegRow} (staged : allStaged r) (s : State) : mirrorOut who a v r s = s := by
  have none_ : (r.fields.any fun f => f.mark == .i && (f.acc == .rw || ((f.acc == .w1c || f.acc == .sc) && fld v f.hi f.lo != 0))) = false :=
    List.any_eq_false.mpr fun f hf => by
      rw [(staged f hf).2]
      exact Bool.false_ne_true
  unfold mirrorOut
  dsimp only
  rw [none_, Bool.and_false]
  rfl

theorem performWrite_staged {go : State → State} {who : Requester} {a : Nat} {v : Word} {r : RegRow} (row : rowOf a = some r) (staged : allStaged r)
    (plain : blockWrite go who a v r s = genericWrite who a v r s) (kept : standbyDrops who a s = false) :
    performWrite go who a v s = genericWrite who a v r s := by
  have none_ : (r.fields.any fun f => f.acc == .rw && f.mark == .i) = false := List.any_eq_false.mpr fun f hf => by
    rw [(staged f hf).2, Bool.and_eq_true]
    exact fun h => absurd h.2 (by decide)
  unfold performWrite
  rw [row]
  dsimp only
  rw [kept, if_neg Bool.false_ne_true, mirrorOut_staged who a v staged, plain, none_, if_neg Bool.false_ne_true]

/-- The lock of Kiosk is unlocked. -/
def kioskOpen (s : State) : State := { s with sys := { s.sys with unlocked := .kiosk :: s.sys.unlocked } }

theorem lockedWrite_staged {go : State → State} {a : Nat} {w : Word} {r : RegRow} (row : rowOf a = some r) (staged : allStaged r) (fast : isSlow a = false)
    (plain : ∀ t, blockWrite go .kiosk a w r t = genericWrite .kiosk a w r t) : lockedWrite go true .kiosk a w s = genericWrite .kiosk a w r s := by
  unfold lockedWrite
  rw [row]
  dsimp only
  rw [if_neg (by simp), if_neg (by simp), fast, if_neg Bool.false_ne_true, performWrite_staged row staged (plain _) (by unfold standbyDrops; simp)]

theorem kioskWrite_staged {a : Nat} {w : Word} {r : RegRow} (row : rowOf a = some r) (staged : allStaged r) (fast : isSlow a = false) (other : a ≠ 0xF50000)
    (reach : nvReach s = true) (plain : ∀ t, blockWrite (fun s => s) .kiosk a w r t = genericWrite .kiosk a w r t)
    (late : configLate (s.sys.op == .config) r.fields w (regGet s a) = false) :
    stagedWord a (mergeB (s.sys.op == .config) r.fields w (regGet s a)) s (kioskWrite a w s) := by
  have unfolded : kioskWrite a w s = genericWrite .kiosk a w r (armLock .kiosk (kioskOpen s)) := by
    refine (if_neg (by
      show ¬(!nvReach s) = true
      rw [reach]
      decide)).trans ((if_neg other).trans ?_)
    have open_ : (kioskOpen s).sys.unlocked.contains .kiosk = true := by simp [kioskOpen]
    show lockedWrite (fun s => s) ((kioskOpen s).sys.unlocked.contains .kiosk) .kiosk a w (armLock .kiosk (kioskOpen s)) = _
    rw [open_, lockedWrite_staged row staged fast plain]
  rw [unfolded]
  have begun : sameBut [.sys] s (armLock .kiosk (kioskOpen s)) := (keeps_sys (armLock .kiosk (kioskOpen s)).sys (by decide) (keeps_refl [.sys] s)).parts
  obtain ⟨shown, force, per, regs, parts⟩ := genericWrite_staged (s := armLock .kiosk (kioskOpen s)) .kiosk a w staged late
  have same : touches (fun _ => False) s (armLock .kiosk (kioskOpen s)) := touches_of_sameBut begun (by decide) (by decide)
  exact ⟨shown, force.trans (same a id).2, per, touches_trans (touches_mono same fun _ => False.elim) regs, sameBut_trans (sameBut_mono (by decide) begun) parts⟩

end Sys2Proof.Machine
end

