-- ==== Sys2Proof/Proofs/DictionaryRequests.lean ====
section
/-! PROOFS. Dictionary requests are answered (16 R420-R423, R429-R432). -/

namespace Sys2Proof.Machine

variable {o s t u : State} {q : KReq} {r : KResp} {e : KEntry} {f : KFrom} {i sub : Nat} {data : List Byte}

/-! ### The length of a response -/

theorem leBytes_length (n : Nat) (v : Int) : (leBytes n v).length = n := by simp [leBytes]

theorem respBytes_data_length (q : KReq) (b : List Byte) : (respBytes q (.data b)).length = 18 + b.length := by
  simp only [respBytes, List.length_append, leBytes_length, List.length_cons, List.length_nil]

theorem respBytes_abort_length (q : KReq) (c : BitVec 32) : (respBytes q (.abort c)).length = 18 := by
  simp only [respBytes, List.length_append, leBytes_length, List.length_cons, List.length_nil]

theorem bytes_length (ty : KType) (v : Int) : (ty.bytes v).length = ty.size.getD 0 := leBytes_length _ _

theorem abort_small (q : KReq) (c : BitVec 32) : (respBytes q (.abort c)).length ≤ 0x2000 := by
  rw [respBytes_abort_length]
  decide

theorem data_small (q : KReq) {b : List Byte} (h : b.length ≤ 0x1000) : (respBytes q (.data b)).length ≤ 0x2000 := by
  rw [respBytes_data_length]
  omega

/-! ### Reads -/

/-- A read that an entry served by hardware answers. -/
def readAnswer (s : State) (e : KEntry) (i sub : Nat) : KResp :=
  if e.right = .wo then .abort 0x06010001 else .data (e.ty.bytes (entryValue s e i sub))

theorem serveRead_plain (q : KReq) (hardware : e.back ≠ .firmware) (sized : e.ty.size ≠ none) (local_ : i ≠ 0x2011) (s : State) :
    serveRead q e i sub s = (readAnswer s e i sub, s) := by
  unfold serveRead readAnswer
  by_cases wo : e.right = .wo
  · rw [if_pos wo, if_pos wo]
  · rw [if_neg wo, if_neg wo, if_neg local_, if_neg hardware]
    cases size : e.ty.size with
    | none => exact absurd size sized
    | some n => rfl

theorem byFirmware_local (h : byFirmware i sub = false) : i ≠ 0x2011 := fun e => by
  rw [e] at h
  exact absurd h (by simp [byFirmware])

/-- A request whose answer is given without further effect. -/
theorem answered_at_once (v : Service) (own : q.from_.dst.toNat ≠ 262143) (small : (respBytes q r).length ≤ 0x2000)
    (run : t = kFinish q r (keyUsed q.from_.src v s)) : t.ks.answer = some ⟨q, r⟩ ∧ kioskFrame [] [] s t := by
  have done := kFinish_spec q r (keyUsed q.from_.src v s) own
  rw [← run] at done
  exact ⟨done.answer, kioskFrame_trans (keyUsed_frame _ v s) (kioskFrame_delivered done small)⟩

theorem read_entry (fresh : freshHere s f) (hi : i < 0x6000) (hs : sub < 0x100) (found : kLookup s i sub = .found e) (mine : byFirmware i sub = false)
    (hardware : e.back ≠ .firmware) (sized : e.ty.size ≠ none) :
    (kTop (rreq f i sub) s).ks.answer = some ⟨rreq f i sub, readAnswer s e i sub⟩ ∧ kioskFrame [] [] s (kTop (rreq f i sub) s) := by
  obtain ⟨v, top⟩ := read_served fresh hi hs
  have value : readAnswer (keyUsed f.src v s) e i sub = readAnswer s e i sub := by
    unfold readAnswer
    rw [entryValue_keyUsed]
  rw [found, show lookupServe (rreq f i sub) (s.ks.keys.contains f.src) i sub (keyUsed f.src v s) (.found e) = _ from if_neg (by rw [mine]; decide),
    show serveEntry (s.ks.keys.contains f.src) (rreq f i sub) e i sub (keyUsed f.src v s) =
      (some (serveRead (rreq f i sub) e i sub (keyUsed f.src v s)).1, (serveRead (rreq f i sub) e i sub (keyUsed f.src v s)).2) from rfl,
    serveRead_plain _ hardware sized (byFirmware_local mine), value] at top
  refine answered_at_once v fresh.2.2.1 ?_ top
  unfold readAnswer
  split
  · exact abort_small _ _
  · refine data_small _ ?_
    rw [bytes_length]
    exact Nat.le_trans (kLookup_short hi found) (by decide)

theorem read_noIndex (fresh : freshHere s f) (hi : i < 0x6000) (hs : sub < 0x100) (missing : kLookup s i sub = .noIndex) :
    (kTop (rreq f i sub) s).ks.answer = some ⟨rreq f i sub, .abort 0x06020000⟩ := by
  obtain ⟨v, top⟩ := read_served fresh hi hs
  rw [missing] at top
  exact (answered_at_once v fresh.2.2.1 (abort_small _ _) top).1

theorem read_noSub (fresh : freshHere s f) (hi : i < 0x6000) (hs : sub < 0x100) (missing : kLookup s i sub = .noSub) :
    (kTop (rreq f i sub) s).ks.answer = some ⟨rreq f i sub, .abort 0x06090011⟩ := by
  obtain ⟨v, top⟩ := read_served fresh hi hs
  rw [missing] at top
  exact (answered_at_once v fresh.2.2.1 (abort_small _ _) top).1

/-! ### Writes that are refused -/

theorem write_alias (fresh : freshHere s f) (alias_ : ¬ ownRole s f) :
    (kTop (wreq f i sub data) s).ks.answer = some ⟨wreq f i sub data, .abort 0x08000043⟩ ∧
      regGet (kTop (wreq f i sub data) s) 0xF3000C = regGet s 0xF3000C + 1 ∧ kioskFrame [] [0xF3000C] s (kTop (wreq f i sub data) s) := by
  obtain ⟨v, top⟩ := write_roleChanged (i := i) (sub := sub) (data := data) fresh alias_
  have counts : regGet (count 0xF3000C (keyUsed f.src v s)) 0xF3000C = regGet s 0xF3000C + 1 := count_regGet_same ..
  have frame : kioskFrame [] [0xF3000C] s (count 0xF3000C (keyUsed f.src v s)) :=
    kioskFrame_trans (kioskFrame_mono (keyUsed_frame _ v s) (by simp) (by simp))
      (kioskFrame_of (count_keeps 0xF3000C (by decide) (keeps_refl _ _)).parts (touches_count (.inr (.inl (by decide))) (touches_refl _ _)))
  generalize count 0xF3000C (keyUsed f.src v s) = w at top counts frame
  have done := kFinish_spec (wreq f i sub data) (.abort 0x08000043) w fresh.2.2.1
  rw [← top] at done
  refine ⟨done.answer, ?_, kioskFrame_trans frame (kioskFrame_mono (kioskFrame_delivered done (abort_small _ _)) (by simp) (by simp))⟩
  rw [(done.regs (abort_small _ _)).regGet (by unfold kioskReg; decide), counts]

theorem write_noIndex (fresh : freshHere s f) (own : ownRole s f) (hi : i < 0x6000) (hs : sub < 0x100) (missing : kLookup s i sub = .noIndex) :
    (kTop (wreq f i sub data) s).ks.answer = some ⟨wreq f i sub data, .abort 0x06020000⟩ := by
  obtain ⟨v, top⟩ := write_served (data := data) fresh own hi hs fun e one => by
    rw [e, one] at missing
    cases missing
  rw [missing] at top
  exact (answered_at_once v fresh.2.2.1 (abort_small _ _) top).1

theorem write_noSub (fresh : freshHere s f) (own : ownRole s f) (hi : i < 0x6000) (hs : sub < 0x100) (missing : kLookup s i sub = .noSub) :
    (kTop (wreq f i sub data) s).ks.answer = some ⟨wreq f i sub data, .abort 0x06090011⟩ := by
  obtain ⟨v, top⟩ := write_served (data := data) fresh own hi hs fun e one => by
    rw [e, one] at missing
    cases missing
  rw [missing] at top
  exact (answered_at_once v fresh.2.2.1 (abort_small _ _) top).1

/-- A write of an entry that hardware serves. -/
theorem write_entry (fresh : freshHere s f) (own : ownRole s f) (hi : i < 0x6000) (hs : sub < 0x100) (found : kLookup s i sub = .found e)
    (mine : byFirmware i sub = false) :
    ∃ v, kTop (wreq f i sub data) s = finishServe (wreq f i sub data)
      (serveWrite (s.ks.keys.contains f.src) (wreq f i sub data) e i sub (keyUsed f.src v s)) := by
  obtain ⟨v, top⟩ := write_served (data := data) fresh own hi hs fun e => absurd e (byFirmware_local mine)
  rw [found, show lookupServe (wreq f i sub data) (s.ks.keys.contains f.src) i sub (keyUsed f.src v s) (.found e) = _ from if_neg (by rw [mine]; decide)] at top
  exact ⟨v, top⟩

/-- What the right of an entry refuses at once. -/
def rightCode (had auth : Bool) : KRight → Option (BitVec 32)
  | .const => some 0x06010002
  | .ro => some 0x06010002
  | .rwK => if had then none else some 0x08000040
  | .rwS => if auth then none else some 0x08000041
  | _ => none

theorem serveWrite_refused {had : Bool} {c : BitVec 32} (refused : rightCode had (authorised s q.from_) e.right = some c) :
    serveWrite had q e i sub s = (some (.abort c), s) := by
  unfold serveWrite
  dsimp only
  cases right : e.right with
  | const | ro =>
    rw [right] at refused
    cases refused
    rw [if_pos (by simp)]
  | rwK =>
    rw [right] at refused
    cases had with
    | true => cases refused
    | false =>
      cases refused
      rw [if_neg (by simp), if_pos (by simp)]
  | rwS =>
    rw [right] at refused
    cases auth : authorised s q.from_ with
    | true =>
      rw [auth] at refused
      cases refused
    | false =>
      rw [auth] at refused
      cases refused
      rw [if_neg (by simp), if_neg (by simp), if_pos (by simp)]
  | wo | rw =>
    rw [right] at refused
    cases refused

theorem write_refused {c : BitVec 32} (fresh : freshHere s f) (own : ownRole s f) (hi : i < 0x6000) (hs : sub < 0x100) (found : kLookup s i sub = .found e)
    (mine : byFirmware i sub = false) (refused : rightCode (s.ks.keys.contains f.src) (authorised s f) e.right = some c) :
    (kTop (wreq f i sub data) s).ks.answer = some ⟨wreq f i sub data, .abort c⟩ ∧ kioskFrame [] [] s (kTop (wreq f i sub data) s) := by
  obtain ⟨v, top⟩ := write_entry (data := data) fresh own hi hs found mine
  rw [serveWrite_refused (c := c) refused] at top
  exact answered_at_once v fresh.2.2.1 (abort_small _ _) top

/-! ### Writes that are taken -/

/-- A write whose right, role, form and value an entry accepts, with the value of its bytes. -/
structure writeTaken (had : Bool) (q : KReq) (e : KEntry) (i sub : Nat) (v : Int) (s : State) : Prop where
  right : rightCode had (authorised s q.from_) e.right = none
  role : roleCode s e = none
  free : ovHolds s s.ks.sel i sub = none
  local_ : i ≠ 0x2011
  plain : ¬(0x3400 ≤ i ∧ i < 0x3410 ∧ sub = 1)
  size : e.ty.size = some q.data.length
  short : q.data.length ≤ 4096
  value : e.ty.value q.data = some v
  code : valueCode s e i sub v = none
  late : entryLate s e v = false

/-- What a write does that is taken, by its entry. -/
def serveValue (q : KReq) (e : KEntry) (i sub : Nat) (v : Int) (s : State) : Option KResp × State :=
  if e.right = .rwS then secureWrite q e v s
  else if i = 0x1010 then (if v = 0x65766173 then storeAll q false s else (some (.abort 0x06090030), s))
  else if i = 0x1011 then (if v = 0x64616F6C then (none, restoreAll q false s) else (some (.abort 0x06090030), s))
  else if i = 0x2001 then (some (.data []), if v = 0x5A0F3 then setKs { s.ks with keys := q.from_.src :: s.ks.keys } s else s)
  else if i = 0x2002 ∧ sub = 1 then passwordEntry q v.toNat s
  else if i = 0x2002 then (some (.data []), closeFor q.from_.src q.from_.port s)
  else if i = 0x3410 ∧ s.sys.op = .safe then (some (.abort 0x08000022), s)
  else (some (.data []), writeEntry e i sub v s)

theorem serveWrite_taken {had : Bool} {v : Int} (h : writeTaken had q e i sub v s) : serveWrite had q e i sub s = serveValue q e i sub v s := by
  obtain ⟨right, role, free, local_, plain, size, short, value, code, late⟩ := h
  have fixed : ¬(e.right = .const ∨ e.right = .ro) := by
    rintro (h | h) <;> (rw [h] at right; cases right)
  have key : ¬(e.right = .rwK ∧ !had) := by
    rintro ⟨h, no⟩
    rw [h] at right
    cases had with
    | true => cases no
    | false => cases right
  have auth : ¬(e.right = .rwS ∧ !authorised s q.from_) := by
    rintro ⟨h, no⟩
    rw [h] at right
    rw [Bool.not_eq_true'] at no
    rw [no] at right
    cases right
  unfold serveWrite
  dsimp only
  rw [if_neg fixed, if_neg key, if_neg auth, role]
  dsimp only
  rw [free, if_neg (by decide), if_neg local_, if_neg plain, if_neg (by simp [size, short]), value]
  dsimp only
  rw [code]
  dsimp only
  rw [late, if_neg (by decide)]
  rfl

theorem roleCode_unreplicated (h : entryReplicated e = false) : roleCode s e = none := if_neg (by rw [h, Bool.and_false]; decide)

theorem roleCode_own (h : isStandby s = false) : roleCode s e = none := if_neg (by
    rw [h]
    exact Bool.false_ne_true)

/-- A request that takes effect before it is answered. -/
theorem answered_after {ps : List Part} {as : List Nat} {w : State} (own : q.from_.dst.toNat ≠ 262143) (small : (respBytes q r).length ≤ 0x2000)
    (frame : kioskFrame ps as s w) (run : t = kFinish q r w) : delivered q r w t ∧ kioskFrame ps as s t := by
  have done := kFinish_spec q r w own
  rw [← run] at done
  exact ⟨done, kioskFrame_trans frame (kioskFrame_mono (kioskFrame_delivered done small) (by simp) (by simp))⟩

theorem write_value {v : Int} (fresh : freshHere s f) (own : ownRole s f) (hi : i < 0x6000) (hs : sub < 0x100) (found : kLookup s i sub = .found e)
    (mine : byFirmware i sub = false) (taken : writeTaken (s.ks.keys.contains f.src) (wreq f i sub data) e i sub v s)
    (late : ∀ k, entryLate (keyUsed f.src k s) e v = entryLate s e v) (code : ∀ k, valueCode (keyUsed f.src k s) e i sub v = valueCode s e i sub v) :
    ∃ k, kTop (wreq f i sub data) s = finishServe (wreq f i sub data) (serveValue (wreq f i sub data) e i sub v (keyUsed f.src k s)) := by
  obtain ⟨k, top⟩ := write_entry (data := data) fresh own hi hs found mine
  have taken' : writeTaken (s.ks.keys.contains f.src) (wreq f i sub data) e i sub v (keyUsed f.src k s) :=
    { taken with code := (code k).trans taken.code, late := (late k).trans taken.late }
  rw [serveWrite_taken taken'] at top
  exact ⟨k, top⟩

/-! ### The heartbeat time -/

theorem leNat_two (b0 b1 : Byte) : leNat [b0, b1] = b1.toNat * 256 + b0.toNat := by
  simp only [leNat]
  omega

theorem value_unsigned {ty : KType} {b : List Byte} (plain : ty.signed = false) (fits : leNat b < 2 ^ ty.width) : ty.value b = some (leNat b : Nat) := by
  unfold KType.value KType.trunc
  rw [plain]
  refine if_pos (.inr ?_)
  show ((wrapN ty.width (leNat b : Nat) : Nat) : Int) = (leNat b : Nat)
  unfold wrapN
  rw [Int.emod_eq_of_lt (by omega) (by exact_mod_cast fits)]
  rfl

theorem heartbeat_written (b1 b0 : Byte) (fresh : freshHere s f) (own : ownRole s f) (free : ovHolds s s.ks.sel 0x1017 0 = none) :
    ∃ u, exec (.dictionaryWrite f 0x1017 0 [b0, b1]) s = .next u ∧ mapGet 0 u.ks.vals (ekey 0x1017 0) = b1.toNat * 256 + b0.toNat ∧
      (∀ k, k ≠ ekey 0x1017 0 → mapGet 0 u.ks.vals k = mapGet 0 s.ks.vals k) ∧ answered u f true 0x1017 0 [b0, b1] (.data []) ∧ kioskFrame [] [] s u := by
  have number := leNat_two b0 b1
  have fits : leNat [b0, b1] < 2 ^ 16 := by
    have h0 := b0.isLt
    have h1 := b1.isLt
    omega
  obtain ⟨k, top⟩ := write_value (data := [b0, b1]) (v := (leNat [b0, b1] : Nat)) (e := uintP 2) (i := 0x1017) (sub := 0) fresh own (by decide) (by decide)
    rfl rfl ⟨rfl, roleCode_unreplicated rfl, free, by decide, by decide, rfl, Nat.le_of_ble_eq_true rfl, value_unsigned rfl fits, rfl, rfl⟩ (fun _ => rfl) (fun _ => rfl)
  have frame : kioskFrame [] [] s (writeEntry (uintP 2) 0x1017 0 (leNat [b0, b1] : Nat) (keyUsed f.src k s)) :=
    kioskFrame_trans (keyUsed_frame _ k s) (kioskFrame_of (keeps_ks _ (by decide) (keeps_refl _ (keyUsed f.src k s))).parts (touches_same (touches_refl _ _) rfl rfl))
  obtain ⟨done, frameU⟩ := answered_after (t := kTop (wreq f 0x1017 0 [b0, b1]) s) fresh.2.2.1 (data_small _ (by decide)) frame top
  have vals : (kTop (wreq f 0x1017 0 [b0, b1]) s).ks.vals = mapPut 0 s.ks.vals (ekey 0x1017 0) (leNat [b0, b1] : Nat) := by
    rw [done.ks]
    rfl
  refine ⟨_, rfl, ?_, fun j other => ?_, done.answer, frameU⟩
  · show mapGet 0 (kTop (wreq f 0x1017 0 [b0, b1]) s).ks.vals (ekey 0x1017 0) = _
    rw [vals, mapGet_mapPut_same, number]
    push_cast
    rfl
  · show mapGet 0 (kTop (wreq f 0x1017 0 [b0, b1]) s).ks.vals j = _
    rw [vals, mapGet_mapPut_other _ _ _ _ other]

/-! ### The key -/

/-- A part that keeps a source whose last request was the key. -/
def keyKept (src : BitVec 18) (s : State) : State := setKs { s.ks with keys := src :: s.ks.keys } s

theorem keyKept_frame (src : BitVec 18) (s : State) : kioskFrame [] [] s (keyKept src s) :=
  kioskFrame_of (keeps_ks _ (by decide) (keeps_refl _ s)).parts (touches_same (touches_refl _ s) rfl rfl)

theorem key_written (fresh : freshHere s f) (own : ownRole s f) (len : data.length = 3) (fits : leNat data < 0x100000) (free : ovHolds s s.ks.sel 0x2001 0 = none) :
    ∃ u, exec (.key f data) s = .next u ∧ answered u f true 0x2001 0 data (.data []) ∧ (f.src ∈ u.ks.keys ↔ leNat data = 0x5A0F3) ∧
      (∀ x, x ≠ f.src → (x ∈ u.ks.keys ↔ x ∈ s.ks.keys)) ∧ kioskFrame [] [] s u := by
  obtain ⟨k, top⟩ := write_value (data := data) (v := (leNat data : Nat)) (e := kent .uint20 .wo .calc) (i := 0x2001) (sub := 0) fresh own (by decide) (by decide)
    rfl rfl ⟨rfl, roleCode_unreplicated rfl, free, by decide, by decide, congrArg some len.symm, by
      show data.length ≤ 4096
      omega, value_unsigned rfl fits, rfl, rfl⟩ (fun _ => rfl) (fun _ => rfl)
  have run : exec (.key f data) s = .next (kTop (wreq f 0x2001 0 data) s) := rfl
  have served : serveValue (wreq f 0x2001 0 data) (kent .uint20 .wo .calc) 0x2001 0 (leNat data : Nat) (keyUsed f.src k s) =
      (some (.data []), if ((leNat data : Nat) : Int) = 0x5A0F3 then keyKept f.src (keyUsed f.src k s) else keyUsed f.src k s) := rfl
  rw [served] at top
  generalize kTop (wreq f 0x2001 0 data) s = u at top run
  have gone : f.src ∉ (keyUsed f.src k s).ks.keys := fun h => by
    obtain ⟨-, other⟩ := List.mem_filter.mp h
    simp at other
  have kept (x : BitVec 18) (other : x ≠ f.src) : x ∈ (keyUsed f.src k s).ks.keys ↔ x ∈ s.ks.keys := by
    show x ∈ s.ks.keys.filter _ ↔ _
    rw [List.mem_filter]
    exact and_iff_left (bne_iff_ne.mpr other)
  have first := keyUsed_frame f.src k s
  generalize keyUsed f.src k s = w at top gone kept first
  by_cases key : leNat data = 0x5A0F3
  · rw [if_pos (by exact_mod_cast key)] at top
    obtain ⟨done, frame⟩ := answered_after fresh.2.2.1 (data_small _ (by decide)) (kioskFrame_trans first (keyKept_frame f.src w)) top
    have keys : u.ks.keys = f.src :: w.ks.keys := by
      rw [done.ks]
      rfl
    refine ⟨u, run, done.answer, ?_, fun x other => ?_, frame⟩
    · rw [keys]
      exact iff_of_true (List.mem_cons_self ..) key
    · rw [keys, List.mem_cons]
      exact (or_iff_right other).trans (kept x other)
  · rw [if_neg (by exact_mod_cast key)] at top
    obtain ⟨done, frame⟩ := answered_after fresh.2.2.1 (data_small _ (by decide)) first top
    have keys : u.ks.keys = w.ks.keys := by rw [done.ks]
    refine ⟨u, run, done.answer, ?_, fun x other => ?_, frame⟩
    · rw [keys]
      exact iff_of_false gone key
    · rw [keys]
      exact kept x other

/-! ### A motion register of an axis -/

/-- The row of MP_STILL of the axes. -/
def stillRow : RegRow := (reg "MP_STILL" 0xF08003 [rwB 19 8 0x10, rwB 7 0 0x64]).arr 256 64

theorem rowOf_still (a : Fin 128) : rowOf (mpBase a.val + 3) = some stillRow := by
  revert a
  decide +kernel

theorem still_base (a : Fin 128) : mpBase a.val + 3 = 0xF08003 + 64 * a.val := by
  unfold mpBase
  rw [if_pos (by omega)]
  omega

theorem mergeB_still (cfg : Bool) (v w : Word) : mergeB cfg stillRow.fields v w = v := by
  have merged : mergeB cfg stillRow.fields v w = setFld (setFld w 19 8 (fld v 19 8)) 7 0 (fld v 7 0) := rfl
  rw [merged]
  refine BitVec.eq_of_toNat_eq ?_
  have hv := v.isLt
  have hw := w.isLt
  unfold setFld fld natSetFld
  rw [toNat_word, toNat_word]
  simp only [Nat.reducePow, Nat.reduceAdd, Nat.reduceSub]
  omega

theorem blockWrite_axis {go : State → State} (who : Requester) {a : Nat} (v : Word) (r : RegRow) (low : 0xF08000 ≤ a) (high : a < 0xF0C000) (s : State) :
    blockWrite go who a v r s = genericWrite who a v r s := by
  have canon : canonAddr a = a := if_neg (by omega)
  unfold blockWrite
  rw [canon]
  repeat rw [if_neg (by omega)]

theorem still_fast (a : Fin 128) : isSlow (mpBase a.val + 3) = false := by
  revert a
  decide +kernel

theorem configLate_still (cfg : Bool) (v w : Word) : configLate cfg stillRow.fields v w = false := by
  cases cfg with
  | true => rfl
  | false => rfl

/-- The entry of an axis's MP_STILL. -/
def stillEntry (a : Fin 128) : KEntry := (kent .uint20 .rw (.reg (mpBase a.val + 3))).setP

theorem kLookup_still (a : Fin 128) (there : a.val < axisCount s) : kLookup s 0x2218 (a.val + 1) = .found (stillEntry a) := by
  have array : kLookup s 0x2218 (a.val + 1) = match axisArray s 0x18 0 (a.val + 1) with
      | some e => .found e
      | none => .noSub := rfl
  have entry : axisArray s 0x18 0 (a.val + 1) = some (stillEntry a) := by
    unfold axisArray
    rw [if_neg (by omega), if_pos (by omega), show 0 + (a.val + 1) - 1 = a.val by omega]
    rfl
  rw [array, entry]

theorem entryLate_still (a : Fin 128) (v : Int) : entryLate s (stillEntry a) v = false := by
  have late : entryLate s (stillEntry a) v = match rowOf (mpBase a.val + 3) with
      | some r => configLate (s.sys.op == .config) r.fields (wordI v) (regGet s (mpBase a.val + 3))
      | none => false := rfl
  rw [late, rowOf_still]
  exact configLate_still ..

theorem nvReach_running (on : afterBoot s = true) (free : s.sys.rstHeld = false) : nvReach s = true := by
  unfold nvReach
  rw [free]
  cases op : s.sys.op with
  | powerUp =>
    unfold afterBoot at on
    rw [op] at on
    exact absurd on (by decide)
  | _ => rfl

theorem leNat_three (b0 b1 b2 : Byte) : leNat [b0, b1, b2] = b2.toNat * 65536 + b1.toNat * 256 + b0.toNat := by
  simp only [leNat]
  omega

theorem still_written (a : Fin 128) (b2 b1 b0 : Byte) (fresh : freshHere s f) (standby : isStandby s = false) (free : s.sys.rstHeld = false)
    (there : a.val < axisCount s) (small : b2.toNat < 16) (uncovered : ovHolds s s.ks.sel 0x2218 (a.val + 1) = none) :
    ∃ u, exec (.dictionaryWrite f 0x2218 (BitVec.ofNat 8 (a.val + 1)) [b0, b1, b2]) s = .next u ∧
      answered u f true 0x2218 (a.val + 1) [b0, b1, b2] (.data []) ∧
      regGet u (mpBase a.val + 3) = word (b2.toNat * 65536 + b1.toNat * 256 + b0.toNat) ∧ inForce u (mpBase a.val + 3) = inForce s (mpBase a.val + 3) ∧
      kioskFrame [.sys] [mpBase a.val + 3] s u := by
  have number := leNat_three b0 b1 b2
  have fits : leNat [b0, b1, b2] < 2 ^ 20 := by
    have h0 := b0.isLt
    have h1 := b1.isLt
    omega
  have found := kLookup_still a there
  obtain ⟨k, top⟩ := write_value (data := [b0, b1, b2]) (v := (leNat [b0, b1, b2] : Nat)) (e := stillEntry a) (i := 0x2218) (sub := a.val + 1) fresh (.inl standby)
    (by decide) (by omega) found rfl ⟨rfl, roleCode_own standby, uncovered, by decide, by omega, rfl, Nat.le_of_ble_eq_true rfl, value_unsigned rfl fits, rfl,
      entryLate_still a _⟩ (fun _ => rfl) (fun _ => rfl)
  have base := still_base a
  have served : serveValue (wreq f 0x2218 (a.val + 1) [b0, b1, b2]) (stillEntry a) 0x2218 (a.val + 1) (leNat [b0, b1, b2] : Nat) (keyUsed f.src k s) =
      (some (.data []), if mpBase a.val + 3 = 0xF30001 then dropWrite .kiosk (mpBase a.val + 3) 5 (keyUsed f.src k s)
        else kioskWrite (mpBase a.val + 3) (wordI (leNat [b0, b1, b2] : Nat)) (keyUsed f.src k s)) := rfl
  have named : BitVec.toNat (BitVec.ofNat 8 (a.val + 1)) = a.val + 1 := (BitVec.toNat_ofNat ..).trans (Nat.mod_eq_of_lt (by omega))
  have run : exec (.dictionaryWrite f 0x2218 (BitVec.ofNat 8 (a.val + 1)) [b0, b1, b2]) s = .next (kTop (wreq f 0x2218 (a.val + 1) [b0, b1, b2]) s) :=
    congrArg (fun n => Host.Outcome.next (kTop (wreq f 0x2218 n [b0, b1, b2]) s)) named
  rw [served, if_neg (by omega)] at top
  obtain ⟨shown, force, -, regs, parts⟩ := kioskWrite_staged (s := keyUsed f.src k s) (w := wordI (leNat [b0, b1, b2] : Nat)) (rowOf_still a)
    (by unfold allStaged stillRow; decide) (still_fast a) (by omega) (nvReach_running fresh.1 free)
    (fun t => blockWrite_axis .kiosk _ stillRow (by omega) (by omega) t) (configLate_still ..)
  rw [mergeB_still] at shown
  have canon : canonAddr (mpBase a.val + 3) = mpBase a.val + 3 := if_neg (by omega)
  have frame : kioskFrame [.sys] [mpBase a.val + 3] (keyUsed f.src k s) (kioskWrite (mpBase a.val + 3) (wordI (leNat [b0, b1, b2] : Nat)) (keyUsed f.src k s)) :=
    kioskFrame_of (sameBut_mono (by decide) parts) (touches_mono regs fun b e => .inr (.inl (by rw [e, canon]; exact List.mem_singleton_self _)))
  generalize kioskWrite (mpBase a.val + 3) (wordI (leNat [b0, b1, b2] : Nat)) (keyUsed f.src k s) = w at top shown force frame
  obtain ⟨done, frameU⟩ := answered_after fresh.2.2.1 (data_small _ (by decide)) (kioskFrame_trans (kioskFrame_mono (keyUsed_frame f.src k s) (by simp) (by simp)) frame) top
  have out : ¬kioskReg (canonAddr (mpBase a.val + 3)) := by
    rw [canon]
    unfold kioskReg
    omega
  have last := done.regs (data_small _ (by decide)) _ out
  refine ⟨_, run, done.answer, ?_, ?_, frameU⟩
  · rw [last.1, shown, number]
    exact BitVec.ofInt_natCast ..
  · rw [last.2, force]
    rfl

/-- Settles O46. The order in which a request with several errors is checked, and a wrong key value answered as accepted, are log entry 36. -/
theorem dictionaryRequestsAreAnswered : Obligations.DictionaryRequestsAreAnswered := by
  intro s f fresh
  refine ⟨fun i sub low => ⟨?_, fun data alias_ => ?_, fun data own => ?_⟩, fun own => ⟨fun b1 b0 => heartbeat_written b1 b0 fresh own, fun data => key_written fresh own⟩,
    fun a b2 b1 b0 => still_written a b2 b1 b0 fresh⟩
  · refine ⟨_, rfl, read_noIndex fresh low sub.isLt, read_noSub fresh low sub.isLt, fun e found mine hardware sized => ?_⟩
    obtain ⟨answer, frame⟩ := read_entry fresh low sub.isLt found mine hardware sized
    refine ⟨fun wo => ?_, fun readable => ?_, frame⟩
    · rw [show readAnswer s e i.toNat sub.toNat = _ from if_pos wo] at answer
      exact answer
    · rw [show readAnswer s e i.toNat sub.toNat = _ from if_neg readable] at answer
      exact answer
  · obtain ⟨answer, counts, frame⟩ := write_alias (i := i.toNat) (sub := sub.toNat) (data := data) fresh alias_
    exact ⟨_, rfl, answer, counts, frame⟩
  · refine ⟨_, rfl, write_noIndex fresh own low sub.isLt, write_noSub fresh own low sub.isLt, fun e found mine => ⟨fun fixed => ?_, fun right locked => ?_, fun right closed => ?_⟩⟩
    · refine write_refused fresh own low sub.isLt found mine ?_
      obtain h | h := fixed
      · rw [h]
        rfl
      · rw [h]
        rfl
    · refine write_refused fresh own low sub.isLt found mine ?_
      rw [right, show s.ks.keys.contains f.src = false from Bool.eq_false_iff.mpr fun h => locked (List.contains_iff_mem.mp h)]
      rfl
    · refine write_refused fresh own low sub.isLt found mine ?_
      rw [right, closed]
      rfl

end Sys2Proof.Machine
end

