-- ==== Sys2Proof/Proofs/LaneHeld.lean ====
section
/-! PROOFS. A frame of the pair lane is not taken while a reset is held (19 R469; 20 R494). -/

namespace Sys2Proof.Machine

/-- A paired unit in CONFIG with its lane up and RST_N held. -/
def laneHeld : State :=
  { State.reset with
    regs := [(0xF28000, 0x40000)]
    sys := { State.reset.sys with op := .config, rstHeld := true }
    lk := { State.reset.lk with st := .listen }
    pr := { State.reset.pr with laneUp := true } }

/-- A read that has been forwarded 8 times. -/
def tiredRead : KReq := { from_ := ⟨.pair, 0, 0x3FFFF, 0, 8⟩, write := false, index := 0x1000, sub := 0, data := [] }

/-- The unit once it has heard its partner on the lane. -/
def laneHeldHeard : State := putBit 0xF30002 13 false { laneHeld with pr := { laneHeld.pr with heardLane := true, lost := false } }

theorem laneHeld_ignores : exec (.svcReceived .ok 0 (.request tiredRead)) laneHeld = .next (onFrame .ok 0 (laneTraffic (.request tiredRead)) laneHeld) := rfl

theorem laneHeld_unheard : (onFrame .ok 0 (laneTraffic (.request tiredRead)) laneHeld).pr.heardLane = false := by decide +kernel

theorem laneHeldHeard_read : exec (.dictionaryRead { tiredRead.from_ with port := .pair } tiredRead.index tiredRead.sub) laneHeldHeard =
    .next (kTop (rreq { tiredRead.from_ with port := .pair } tiredRead.index.toNat tiredRead.sub.toNat) laneHeldHeard) := rfl

theorem laneHeldHeard_heard :
    (kTop (rreq { tiredRead.from_ with port := .pair } tiredRead.index.toNat tiredRead.sub.toNat) laneHeldHeard).pr.heardLane = true := by decide +kernel

/-- Refutes O47: with RST_N held the unit takes no frame of the pair lane, so it does not show its partner heard, which the clause on relayed requests leaves out. -/
theorem not_requestsTravelAndReturn : ¬ Obligations.RequestsTravelAndReturn := by
  rintro ⟨-, -, relayed, -, -⟩
  obtain ⟨read, -⟩ := relayed laneHeld 0 tiredRead (by decide) (by decide +kernel) rfl rfl rfl
  obtain ⟨u, run, other⟩ := read rfl rfl
  rw [laneHeld_ignores] at run
  rw [show putBit 0xF30002 13 false { laneHeld with pr := { laneHeld.pr with heardLane := true, lost := false } } = laneHeldHeard from rfl, laneHeldHeard_read] at other
  injection run with e
  injection other with e'
  have heard := laneHeldHeard_heard
  rw [e', ← e, laneHeld_unheard] at heard
  cases heard

end Sys2Proof.Machine
end

