-- ==== Sys2Proof/Proofs/Passwords.lean ====
section
/-! PROOFS. Passwords open and lock (09 R280, R281). -/

namespace Sys2Proof.Machine

variable {s t u : State} {f : KFrom} {data : List Byte}

/-! ### GH_PW_STAT -/

/-- GH_PW_STAT shows the authorisations and the lockout. -/
structure pwShown (s t : State) : Prop where
  gh : t.gh = s.gh
  opened : bit (regGet t 0xF34045) 19 = !s.gh.pw.auth.isEmpty
  locked : bit (regGet t 0xF34045) 18 = s.gh.pw.locked
  parts : sameBut [.regs, .held] s t
  regs : touches (· ∈ [0xF34045]) s t

theorem showPw_spec (s : State) : pwShown s (showPw s) := by
  have parts := (showPw_keeps (L := [.regs, .held]) (by decide) (keeps_refl _ s)).parts
  have word : regGet (showPw s) 0xF34045 = setBit (setBit (setBit (regGet s 0xF34045) 19 (!s.gh.pw.auth.isEmpty)) 18 s.gh.pw.locked) 17 s.gh.pw.isDefault := by
    unfold showPw
    rw [regGet_putBit, if_pos rfl, regGet_putBit, if_pos rfl, regGet_putBit, if_pos rfl]
  refine ⟨parts.gh (by decide), ?_, ?_, parts, touches_putBit 17 _ (by decide) (touches_putBit 18 _ (by decide) (touches_putBit 19 _ (by decide) (touches_refl _ s)))⟩
  · rw [word, bit_setBit_other _ _ (by decide) (by decide), bit_setBit_other _ _ (by decide) (by decide), bit_setBit_same _ _ (by decide)]
  · rw [word, bit_setBit_other _ _ (by decide) (by decide), bit_setBit_same _ _ (by decide)]

theorem setPw_shown (p : Password) (s : State) : pwShown (setPw p s) (showPw (setPw p s)) := showPw_spec _

theorem setPw_parts (p : Password) (s : State) : sameBut [.gh] s (setPw p s) := (keeps_gh _ (by decide) (keeps_refl [.gh] s)).parts

/-- The frame of a change of the password's state that GH_PW_STAT shows. -/
theorem pwShown_frame {p : Password} (h : pwShown (setPw p s) t) : kioskFrame [.gh] [0xF34045] s t :=
  kioskFrame_of (sameBut_trans (sameBut_mono (by decide) (setPw_parts p s)) (sameBut_mono (by decide) h.parts))
    (touches_mono (touches_trans (touches_of_sameBut (setPw_parts p s) (by decide) (by decide)) h.regs) fun _ k => .inr (.inl k))

/-! ### Attempts -/

/-- An open authorisation of a source and port, among those that stand. -/
def withAuth (f : KFrom) (l : List (BitVec 18 × KPort)) : List (BitVec 18 × KPort) := if l.contains (f.src, f.port) then l else l ++ [(f.src, f.port)]

theorem mem_withAuth (f : KFrom) (l : List (BitVec 18 × KPort)) : (f.src, f.port) ∈ withAuth f l := by
  unfold withAuth
  split
  · next h => exact List.contains_iff_mem.mp h
  · exact List.mem_append_right _ (List.mem_singleton_self _)

/-- The password's state once the right one has been given. -/
def pwOpened (f : KFrom) (p : Password) : Password := { p with auth := withAuth f p.auth, wrong := 0, nextLock := 60 }

/-- The password's state once the third wrong one in a row has been given. -/
def pwLocked (now : Nat) (p : Password) : Password :=
  { p with wrong := 0, locked := true, lockEnd := now + p.nextLock * 600000000, nextLock := min 3840 (2 * p.nextLock) }

theorem tryPassword_right {v : Nat} (free : s.gh.pw.locked = false) (right : pwMatches s v = true) :
    tryPassword f v s = (showPw (setPw (pwOpened f s.gh.pw) s), true) := by
  unfold tryPassword
  dsimp only
  rw [free, if_neg (by decide), if_pos right, pwOpened, withAuth, free]

theorem tryPassword_wrong {v : Nat} (free : s.gh.pw.locked = false) (wrong : pwMatches s v = false) (few : s.gh.pw.wrong < 2) :
    tryPassword f v s = (setPw { s.gh.pw with wrong := s.gh.pw.wrong + 1 } (count 0xF34046 s), false) := by
  unfold tryPassword
  dsimp only
  rw [free, if_neg (by decide), wrong, if_neg (by decide), if_neg (by omega)]

theorem tryPassword_third {v : Nat} (free : s.gh.pw.locked = false) (wrong : pwMatches s v = false) (many : 2 ≤ s.gh.pw.wrong) :
    tryPassword f v s = (showPw (setPw (pwLocked s.now s.gh.pw) (count 0xF34046 s)), false) := by
  unfold tryPassword
  dsimp only
  rw [free, if_neg (by decide), wrong, if_neg (by decide), if_pos (by omega), pwLocked]

theorem tryPassword_locked {v : Nat} (locked : s.gh.pw.locked = true) : tryPassword f v s = (s, false) := if_pos locked

theorem leNat_lt (b : List Byte) : leNat b < 2 ^ (8 * b.length) := by
  induction b with
  | nil => decide
  | cons x l ih =>
    have hx := x.isLt
    simp only [leNat, List.length_cons]
    rw [show 2 ^ (8 * (l.length + 1)) = 256 * 2 ^ (8 * l.length) by rw [Nat.mul_add, Nat.pow_add]; ring]
    omega

theorem password_served (fresh : freshHere s f) (own : ownRole s f) (free : ovHolds s s.ks.sel 0x2002 1 = none) (len : data.length = 4) :
    ∃ k, exec (.password f data) s = .next (kFinish (wreq f 0x2002 1 data)
      (if (tryPassword f (leNat data) (keyUsed f.src k s)).2 then .data [] else .abort 0x08000041) (tryPassword f (leNat data) (keyUsed f.src k s)).1) := by
  have fits : leNat data < 2 ^ 32 := by
    have := leNat_lt data
    rwa [len] at this
  obtain ⟨k, top⟩ := write_value (data := data) (v := (leNat data : Nat)) (e := kent (.uns 4) .wo .calc) (i := 0x2002) (sub := 1) fresh own (by decide) (by decide)
    rfl rfl ⟨rfl, roleCode_unreplicated rfl, free, by decide, by decide, congrArg some len.symm, by
      show data.length ≤ 4096
      omega, value_unsigned rfl fits, rfl, rfl⟩ (fun _ => rfl) (fun _ => rfl)
  have served : serveValue (wreq f 0x2002 1 data) (kent (.uns 4) .wo .calc) 0x2002 1 (leNat data : Nat) (keyUsed f.src k s) =
      passwordEntry (wreq f 0x2002 1 data) ((leNat data : Nat) : Int).toNat (keyUsed f.src k s) := rfl
  rw [served, Int.toNat_natCast] at top
  exact ⟨k, congrArg Host.Outcome.next top⟩

theorem password_right (fresh : freshHere s f) (own : ownRole s f) (free : ovHolds s s.ks.sel 0x2002 1 = none) (len : data.length = 4)
    (open_ : s.gh.pw.locked = false) (right : pwMatches s (leNat data) = true) :
    ∃ u, exec (.password f data) s = .next u ∧ answered u f true 0x2002 1 data (.data []) ∧
      authorised u f = true ∧ u.gh.pw = { s.gh.pw with auth := u.gh.pw.auth, wrong := 0, nextLock := 60 } ∧ bit (regGet u 0xF34045) 19 = true ∧
      kioskFrame [.gh] [0xF34045] s u := by
  obtain ⟨k, run⟩ := password_served fresh own free len
  rw [tryPassword_right (s := keyUsed f.src k s) open_ right] at run
  have shown := setPw_shown (pwOpened f s.gh.pw) (keyUsed f.src k s)
  have frame := kioskFrame_trans (kioskFrame_mono (ps' := [.gh]) (as' := [0xF34045]) (keyUsed_frame f.src k s) (by simp) (by simp)) (pwShown_frame shown)
  have run : exec (.password f data) s = .next (kFinish (wreq f 0x2002 1 data) (.data []) (showPw (setPw (pwOpened f s.gh.pw) (keyUsed f.src k s)))) := run
  have pw : (showPw (setPw (pwOpened f s.gh.pw) (keyUsed f.src k s))).gh.pw = pwOpened f s.gh.pw := congrArg Gatehouse.pw shown.gh
  have opened : bit (regGet (showPw (setPw (pwOpened f s.gh.pw) (keyUsed f.src k s))) 0xF34045) 19 = !(withAuth f s.gh.pw.auth).isEmpty := shown.opened
  generalize showPw (setPw (pwOpened f s.gh.pw) (keyUsed f.src k s)) = w at run frame pw opened
  obtain ⟨done, frameU⟩ := answered_after (t := kFinish (wreq f 0x2002 1 data) (.data []) w) fresh.2.2.1 (data_small _ (by decide)) frame rfl
  generalize kFinish (wreq f 0x2002 1 data) (.data []) w = u at run done frameU
  have mine := mem_withAuth f s.gh.pw.auth
  have pwU : u.gh.pw = pwOpened f s.gh.pw := (congrArg Gatehouse.pw (done.parts.gh (by decide))).trans pw
  refine ⟨u, run, done.answer, ?_, ?_, ?_, frameU⟩
  · unfold authorised
    rw [pwU]
    exact List.contains_iff_mem.mpr mine
  · rw [pwU]
    rfl
  · rw [(done.regs (data_small _ (by decide))).regGet (by unfold kioskReg; decide), opened]
    cases l : withAuth f s.gh.pw.auth with
    | nil =>
      rw [l] at mine
      cases mine
    | cons x y => rfl

theorem password_locked (fresh : freshHere s f) (own : ownRole s f) (free : ovHolds s s.ks.sel 0x2002 1 = none) (len : data.length = 4)
    (locked : s.gh.pw.locked = true) :
    ∃ u, exec (.password f data) s = .next u ∧ answered u f true 0x2002 1 data (.abort 0x08000041) ∧ kioskFrame [] [] s u := by
  obtain ⟨k, run⟩ := password_served fresh own free len
  rw [tryPassword_locked (s := keyUsed f.src k s) locked] at run
  obtain ⟨done, frame⟩ := answered_after (q := wreq f 0x2002 1 data) (r := .abort 0x08000041) fresh.2.2.1 (abort_small _ _) (keyUsed_frame f.src k s) rfl
  exact ⟨_, run, done.answer, frame⟩

/-- A wrong password has been counted. -/
theorem count_wrong (s : State) : regGet (count 0xF34046 s) 0xF34046 = regGet s 0xF34046 + 1 ∧ kioskFrame [.gh] [0xF34045, 0xF34046] s (count 0xF34046 s) ∧
    (count 0xF34046 s).gh = s.gh :=
  ⟨count_regGet_same .., kioskFrame_of (count_keeps 0xF34046 (by decide) (keeps_refl _ s)).parts (touches_count (.inr (.inl (by decide))) (touches_refl _ s)),
    (count_keeps (L := [.regs, .held]) 0xF34046 (by decide) (keeps_refl _ s)).parts.gh (by decide)⟩

theorem password_wrong (fresh : freshHere s f) (own : ownRole s f) (free : ovHolds s s.ks.sel 0x2002 1 = none) (len : data.length = 4)
    (open_ : s.gh.pw.locked = false) (wrong : pwMatches s (leNat data) = false) :
    ∃ u, exec (.password f data) s = .next u ∧ answered u f true 0x2002 1 data (.abort 0x08000041) ∧ regGet u 0xF34046 = regGet s 0xF34046 + 1 ∧
      u.gh.pw.auth = s.gh.pw.auth ∧ (s.gh.pw.wrong < 2 → u.gh.pw = { s.gh.pw with wrong := s.gh.pw.wrong + 1 }) ∧
      (2 ≤ s.gh.pw.wrong → u.gh.pw.locked = true ∧ u.gh.pw.lockEnd = s.now + s.gh.pw.nextLock * 600000000 ∧
        u.gh.pw.nextLock = min 3840 (2 * s.gh.pw.nextLock) ∧ bit (regGet u 0xF34045) 18 = true) ∧ kioskFrame [.gh] [0xF34045, 0xF34046] s u := by
  obtain ⟨k, run⟩ := password_served fresh own free len
  obtain ⟨counts, counted, -⟩ := count_wrong (keyUsed f.src k s)
  have counts : regGet (count 0xF34046 (keyUsed f.src k s)) 0xF34046 = regGet s 0xF34046 + 1 := counts
  have first := kioskFrame_trans (kioskFrame_mono (ps' := [.gh]) (as' := [0xF34045, 0xF34046]) (keyUsed_frame f.src k s) (by simp) (by simp)) counted
  have out {a : Nat} (h : ¬kioskReg (canonAddr a)) {t u : State} (d : delivered (wreq f 0x2002 1 data) (.abort 0x08000041) t u) : regGet u a = regGet t a :=
    (d.regs (abort_small _ _)).regGet h
  by_cases few : s.gh.pw.wrong < 2
  · rw [tryPassword_wrong (s := keyUsed f.src k s) open_ wrong few] at run
    have run : exec (.password f data) s = .next (kFinish (wreq f 0x2002 1 data) (.abort 0x08000041)
      (setPw { s.gh.pw with wrong := s.gh.pw.wrong + 1 } (count 0xF34046 (keyUsed f.src k s)))) := run
    generalize count 0xF34046 (keyUsed f.src k s) = c at run counts first
    have set := setPw_parts { s.gh.pw with wrong := s.gh.pw.wrong + 1 } c
    have frame := kioskFrame_trans first (kioskFrame_of (sameBut_mono (by decide) set) (touches_of_sameBut set (by decide) (by decide)))
    have counts : regGet (setPw { s.gh.pw with wrong := s.gh.pw.wrong + 1 } c) 0xF34046 = regGet s 0xF34046 + 1 := counts
    have pw : (setPw { s.gh.pw with wrong := s.gh.pw.wrong + 1 } c).gh.pw = { s.gh.pw with wrong := s.gh.pw.wrong + 1 } := rfl
    generalize setPw { s.gh.pw with wrong := s.gh.pw.wrong + 1 } c = w at run frame counts pw
    obtain ⟨done, frameU⟩ := answered_after (q := wreq f 0x2002 1 data) (r := .abort 0x08000041) fresh.2.2.1 (abort_small _ _) frame rfl
    have pwU := (congrArg Gatehouse.pw (done.parts.gh (by decide))).trans pw
    exact ⟨_, run, done.answer, (out (by unfold kioskReg; decide) done).trans counts, (congrArg Password.auth pwU :), fun _ => pwU,
      fun many => absurd many (by omega), frameU⟩
  · rw [tryPassword_third (s := keyUsed f.src k s) open_ wrong (Nat.le_of_not_lt few)] at run
    have run : exec (.password f data) s = .next (kFinish (wreq f 0x2002 1 data) (.abort 0x08000041)
      (showPw (setPw (pwLocked s.now s.gh.pw) (count 0xF34046 (keyUsed f.src k s))))) := run
    generalize count 0xF34046 (keyUsed f.src k s) = c at run counts first
    have shown := setPw_shown (pwLocked s.now s.gh.pw) c
    have frame := kioskFrame_trans first (kioskFrame_mono (ps' := [.gh]) (as' := [0xF34045, 0xF34046]) (pwShown_frame shown) (by simp) (by simp))
    have counts : regGet (showPw (setPw (pwLocked s.now s.gh.pw) c)) 0xF34046 = regGet s 0xF34046 + 1 := (shown.regs.regGet (by decide)).trans counts
    have pw : (showPw (setPw (pwLocked s.now s.gh.pw) c)).gh.pw = pwLocked s.now s.gh.pw := congrArg Gatehouse.pw shown.gh
    have locked : bit (regGet (showPw (setPw (pwLocked s.now s.gh.pw) c)) 0xF34045) 18 = true := shown.locked
    generalize showPw (setPw (pwLocked s.now s.gh.pw) c) = w at run frame counts pw locked
    obtain ⟨done, frameU⟩ := answered_after (q := wreq f 0x2002 1 data) (r := .abort 0x08000041) fresh.2.2.1 (abort_small _ _) frame rfl
    have pwU := (congrArg Gatehouse.pw (done.parts.gh (by decide))).trans pw
    refine ⟨_, run, done.answer, (out (by unfold kioskReg; decide) done).trans counts, (congrArg Password.auth pwU).trans ?_, fun h => absurd h few,
      fun _ => ⟨(congrArg Password.locked pwU).trans ?_, (congrArg Password.lockEnd pwU).trans ?_, (congrArg Password.nextLock pwU).trans ?_, ?_⟩, frameU⟩
    · rw [pwLocked]
    · rw [pwLocked]
    · rw [pwLocked]
    · rw [pwLocked]
    · rw [out (by unfold kioskReg; decide) done, locked]

/-! ### Closing -/

theorem closeFor_auth (src : BitVec 18) (port : KPort) (s : State) :
    (closeFor src port s).gh.pw.auth = s.gh.pw.auth.filter fun x => x != (src, port) :=
  (congrArg (fun g : Gatehouse => g.pw.auth) (setPw_shown { s.gh.pw with auth := s.gh.pw.auth.filter fun x => x != (src, port) } s).gh :)

theorem closeFor_members (src : BitVec 18) (port : KPort) (s : State) :
    (src, port) ∉ (closeFor src port s).gh.pw.auth ∧ ∀ x, x ≠ (src, port) → (x ∈ (closeFor src port s).gh.pw.auth ↔ x ∈ s.gh.pw.auth) := by
  rw [closeFor_auth]
  refine ⟨fun h => ?_, fun x other => ?_⟩
  · have := (List.mem_filter.mp h).2
    simp at this
  · rw [List.mem_filter]
    exact and_iff_left (bne_iff_ne.mpr other)

theorem close_written (fresh : freshHere s f) (own : ownRole s f) (free : ovHolds s s.ks.sel 0x2002 2 = none) (b : Byte) :
    ∃ u, exec (.close f [b]) s = .next u ∧ answered u f true 0x2002 2 [b] (.data []) ∧ authorised u f = false ∧
      (∀ x, x ≠ (f.src, f.port) → (x ∈ u.gh.pw.auth ↔ x ∈ s.gh.pw.auth)) ∧ kioskFrame [.gh] [0xF34045] s u := by
  have fits : leNat [b] < 2 ^ 8 := leNat_lt [b]
  obtain ⟨k, top⟩ := write_value (data := [b]) (v := (leNat [b] : Nat)) (e := kent (.uns 1) .wo .calc) (i := 0x2002) (sub := 2) fresh own (by decide) (by decide)
    rfl rfl ⟨rfl, roleCode_unreplicated rfl, free, by decide, by decide, rfl, Nat.le_of_ble_eq_true rfl, value_unsigned rfl fits, rfl, rfl⟩ (fun _ => rfl) (fun _ => rfl)
  have served : serveValue (wreq f 0x2002 2 [b]) (kent (.uns 1) .wo .calc) 0x2002 2 (leNat [b] : Nat) (keyUsed f.src k s) =
      (some (.data []), closeFor f.src f.port (keyUsed f.src k s)) := rfl
  rw [served] at top
  obtain ⟨closed, others⟩ := closeFor_members f.src f.port (keyUsed f.src k s)
  have frame := kioskFrame_trans (kioskFrame_mono (ps' := [.gh]) (as' := [0xF34045]) (keyUsed_frame f.src k s) (by simp) (by simp))
    (pwShown_frame (setPw_shown { (keyUsed f.src k s).gh.pw with auth := (keyUsed f.src k s).gh.pw.auth.filter fun x => x != (f.src, f.port) } (keyUsed f.src k s)))
  have others : ∀ x, x ≠ (f.src, f.port) → (x ∈ (closeFor f.src f.port (keyUsed f.src k s)).gh.pw.auth ↔ x ∈ s.gh.pw.auth) := others
  have frame : kioskFrame [.gh] [0xF34045] s (closeFor f.src f.port (keyUsed f.src k s)) := frame
  have run : exec (.close f [b]) s = .next (kTop (wreq f 0x2002 2 [b]) s) := rfl
  generalize closeFor f.src f.port (keyUsed f.src k s) = w at top closed others frame
  obtain ⟨done, frameU⟩ := answered_after (t := kTop (wreq f 0x2002 2 [b]) s) fresh.2.2.1 (data_small _ (by decide)) frame top
  have auth : (kTop (wreq f 0x2002 2 [b]) s).gh.pw.auth = w.gh.pw.auth := congrArg (fun g : Gatehouse => g.pw.auth) (done.parts.gh (by decide))
  refine ⟨_, run, done.answer, ?_, fun x other => by rw [auth]; exact others x other, frameU⟩
  refine Bool.eq_false_iff.mpr fun h => closed ?_
  rw [← auth]
  exact List.contains_iff_mem.mp h

theorem authorisation_idles (src : BitVec 18) (port : KPort) (s : State) :
    ∃ u, exec (.authorisationIdleTimeout src port) s = .next u ∧ (src, port) ∉ u.gh.pw.auth ∧
      (∀ x, x ≠ (src, port) → (x ∈ u.gh.pw.auth ↔ x ∈ s.gh.pw.auth)) ∧ bit (regGet u 0xF34045) 19 = !u.gh.pw.auth.isEmpty ∧
      sameBut [.gh, .regs, .held] s u ∧ regsBut [0xF34045] s u := by
  obtain ⟨closed, others⟩ := closeFor_members src port s
  have set := setPw_parts { s.gh.pw with auth := s.gh.pw.auth.filter fun x => x != (src, port) } s
  have shown := setPw_shown { s.gh.pw with auth := s.gh.pw.auth.filter fun x => x != (src, port) } s
  refine ⟨_, rfl, closed, others, ?_, sameBut_trans (sameBut_mono (by decide) set) (sameBut_mono (by decide) shown.parts),
    regsBut_of_touches (touches_trans (touches_of_sameBut set (by decide) (by decide)) shown.regs)⟩
  rw [closeFor_auth]
  exact shown.opened

theorem lockout_ends (s : State) :
    ∃ u, exec .lockoutEnd s = .next u ∧ u.gh.pw = { s.gh.pw with locked := false, lockEnd := 0 } ∧ bit (regGet u 0xF34045) 18 = false ∧
      sameBut [.gh, .regs, .held] s u ∧ regsBut [0xF34045] s u := by
  have set := setPw_parts { s.gh.pw with locked := false, lockEnd := 0 } s
  have shown := setPw_shown { s.gh.pw with locked := false, lockEnd := 0 } s
  exact ⟨_, rfl, congrArg Gatehouse.pw shown.gh, shown.locked, sameBut_trans (sameBut_mono (by decide) set) (sameBut_mono (by decide) shown.parts),
    regsBut_of_touches (touches_trans (touches_of_sameBut set (by decide) (by decide)) shown.regs)⟩

/-- Settles O48. The abort code of a wrong password is log entry 38. -/
theorem passwordsOpenAndLock : Obligations.PasswordsOpenAndLock := fun s =>
  ⟨fun _ _ fresh own free len => ⟨password_right fresh own free len, password_wrong fresh own free len, password_locked fresh own free len⟩,
    fun _ b fresh own free => close_written fresh own free b, fun src port => authorisation_idles src port s, lockout_ends s⟩

end Sys2Proof.Machine
end

