-- ==== Sys2Proof/Proofs/SecureWrites.lean ====
section
/-! PROOFS. RW-S writes and the change log (09 R280, R282-R284; 16 R434). -/

namespace Sys2Proof.Machine

variable {s t u : State} {q : KReq} {e : KEntry} {f : KFrom} {i sub kind : Nat} {data : List Byte} {v : Int} {x : LogPend}

/-! ### What an RW-S write is answered, and what it leaves waiting -/

/-- The kind of the log entry of a write. -/
def logKind (i : Nat) : Nat := if i = 0x2002 then 2 else if i = 0x3050 then 3 else if 0x3400 ≤ i ∧ i < 0x3410 then 1 else 0

theorem logKind_ack : logKind i = 3 ↔ i = 0x3050 := by
  unfold logKind
  split_ifs <;> simp_all

/-- The value of an RW-S write is one its entry takes. -/
structure secureFits (s : State) (i : Nat) (v : Int) : Prop where
  exchange : i = 0x2003 → v = 0x5A0F3
  ack : i = 0x3050 → ackOk s v.toNat = true
  overlay : 0x3400 ≤ i → i < 0x3410 → v = ovCrc s.ks.ov[Fin.ofNat 16 (i - 0x3400)]

theorem secureWrite_closed (closed : secureClosed s = true) : secureWrite q e v s = (some (.abort 0x08000022), s) := if_pos closed

theorem secureWrite_fits (fits : secureFits s q.index.toNat v) (single : e.p = false) (opened : secureClosed s = false) :
    secureWrite q e v s = if q.index.toNat ≠ 0x3050 ∧ !logRoom s then (some (.abort 0x08000042), s) else (none, logAccept (logOf s e q v) s) := by
  obtain ⟨exchange, ack, overlay⟩ := fits
  unfold secureWrite
  dsimp only
  rw [opened, if_neg Bool.false_ne_true, if_neg fun h => h.2 (exchange h.1), if_neg fun h => by
      rw [ack h.1] at h
      exact absurd h.2 (by decide), if_neg fun h => h.2.2 (overlay h.1 h.2.1), single, Bool.false_and, if_neg Bool.false_ne_true]

/-- A part whose acknowledgement of the change log is v. -/
def ackKept (v : Nat) (s : State) : State := { s with sys := { s.sys with per := { s.sys.per with logAckHi := word (v / 2 ^ 20), logAckLo := word v } } }

theorem logAck_ackKept {v : Nat} (fits : v < 2 ^ 32) (s : State) : logAck (ackKept v s) = v := by
  show ((word (v / 2 ^ 20)).toNat * 2 ^ 20 + (word v).toNat) % 2 ^ 32 = v
  rw [toNat_word, toNat_word]
  omega

theorem setAck_spec {v : Nat} (fits : v < 2 ^ 32) (s : State) : logAck (setAck v s) = v ∧ sameBut [.sys, .regs, .held, .pg, .bv, .pc] s (setAck v s) := by
  have kept : sameBut [.sys] s (ackKept v s) := (keeps_sys (ackKept v s).sys (by decide) (keeps_refl [.sys] s)).parts
  have shown : sameBut [.regs, .held, .pg, .bv, .pc] (ackKept v s) (setAck v s) := (showLog_keeps (by decide) (keeps_refl _ (ackKept v s))).parts
  have per : logAck (setAck v s) = logAck (ackKept v s) := by
    unfold logAck
    rw [shown.sys (by decide)]
  exact ⟨per.trans (logAck_ackKept fits s), sameBut_trans (sameBut_mono (by decide) kept) (sameBut_mono (by decide) shown)⟩

/-- An entry waits for the change log. -/
structure entryWaits (x : LogPend) (s u : State) : Prop where
  log : u.gh.log = s.gh.log ++ [x]
  pw : u.gh.pw = s.gh.pw
  ack : x.kind = 3 → ackOk s x.new = true → logAck u = x.new
  parts : sameBut [.sys, .gh, .lk, .regs, .held, .pg, .bv, .pc] s u
  sys : x.kind ≠ 3 → u.sys = s.sys

/-- A part with an entry at the end of those that wait for the change log. -/
def logQueued (x : LogPend) (s : State) : State := { s with gh := { s.gh with log := s.gh.log ++ [x] } }

theorem logQueued_parts (x : LogPend) (s : State) : sameBut [.gh] s (logQueued x s) := (keeps_gh (logQueued x s).gh (by decide) (keeps_refl [.gh] s)).parts

theorem logQueued_log (x : LogPend) (s : State) : (logQueued x s).gh.log = s.gh.log ++ [x] := rfl
theorem logQueued_pw (x : LogPend) (s : State) : (logQueued x s).gh.pw = s.gh.pw := rfl
theorem logQueued_sys (x : LogPend) (s : State) : (logQueued x s).sys = s.sys := rfl

/-- A part that has taken an acknowledgement of the change log, if the entry is one. -/
def ackTaken (x : LogPend) (s : State) : State := if x.kind = 3 ∧ ackOk s x.new then setAck x.new s else s

theorem logAccept_parts (x : LogPend) (s : State) : sameBut [.lk] (logQueued x (ackTaken x s)) (logAccept x s) := by
  have unfolded : logAccept x s = if x.relayed || x.partner = 1 then logQueued x (ackTaken x s)
    else laneSend (.pSvc (.logWrite x.req)) (logQueued x (ackTaken x s)) := rfl
  rw [unfolded]
  generalize logQueued x (ackTaken x s) = w
  split
  · exact sameBut_refl _ w
  · exact (laneSend_keeps (L := [.lk]) _ (by decide) (keeps_refl _ w)).parts

theorem ackTaken_spec (x : LogPend) (s : State) (kept : x.kind = 3 → x.new < 2 ^ 32) :
    (x.kind = 3 → ackOk s x.new = true → logAck (ackTaken x s) = x.new) ∧ sameBut [.sys, .regs, .held, .pg, .bv, .pc] s (ackTaken x s) ∧
      (x.kind ≠ 3 → (ackTaken x s).sys = s.sys) := by
  unfold ackTaken
  by_cases acked : x.kind = 3 ∧ ackOk s x.new
  · rw [if_pos acked]
    obtain ⟨ack, parts⟩ := setAck_spec (kept acked.1) s
    exact ⟨fun _ _ => ack, parts, fun no => absurd acked.1 no⟩
  · rw [if_neg acked]
    exact ⟨fun h3 h => absurd ⟨h3, h⟩ acked, sameBut_refl _ s, fun _ => rfl⟩

theorem logAccept_spec (x : LogPend) (s : State) (kept : x.kind = 3 → x.new < 2 ^ 32) : entryWaits x s (logAccept x s) := by
  have last := logAccept_parts x s
  obtain ⟨ack, parts, sys⟩ := ackTaken_spec x s kept
  generalize ackTaken x s = t at last ack parts sys
  have mid := logQueued_parts x t
  have ackQ : logAck (logQueued x t) = logAck t := by
    unfold logAck
    rw [logQueued_sys]
  have log := logQueued_log x t
  have pw := logQueued_pw x t
  have sysQ := logQueued_sys x t
  generalize logQueued x t = w at last mid ackQ log pw sysQ
  generalize logAccept x s = u at last
  refine ⟨?_, ?_, fun h3 h => ?_, sameBut_trans (sameBut_mono (by decide) parts) (sameBut_trans (sameBut_mono (by decide) mid) (sameBut_mono (by decide) last)), fun no => ?_⟩
  · rw [last.gh (by decide), log, parts.gh (by decide)]
  · rw [last.gh (by decide), pw, parts.gh (by decide)]
  · rw [← ack h3 h, ← ackQ]
    unfold logAck
    rw [last.sys (by decide)]
  · rw [last.sys (by decide), sysQ, sys no]

/-! ### The four writes -/

/-- A request to write an entry of right RW-S that the entry takes, without regard to authorisation and room. -/
structure secureRequest (s : State) (e : KEntry) (i sub kind : Nat) (data : List Byte) : Prop where
  found : kLookup s i sub = .found e
  right : e.right = .rwS
  single : e.p = false
  role : entryReplicated e = false
  mine : byFirmware i sub = false
  low : i < 0x6000
  second : sub < 0x100 ∧ sub ≠ 1
  size : e.ty.size = some data.length
  short : data.length ≤ 4
  value : e.ty.value data = some (leNat data : Nat)
  code : ∀ t, valueCode t e i sub (leNat data : Nat) = none
  late : ∀ t, entryLate t e (leNat data : Nat) = false
  kinds : kind = logKind i
  fits : secureFits s i (leNat data : Nat)

theorem newPassword_request (len : data.length = 4) (s : State) : secureRequest s (kent (.uns 4) .rwS (.fixed 0)) 0x2002 3 2 data := by
  have small := leNat_lt data
  rw [len] at small
  exact ⟨rfl, rfl, rfl, rfl, rfl, by decide, by decide, congrArg some len.symm, by omega, value_unsigned rfl small, fun _ => rfl, fun _ => rfl, rfl,
    ⟨fun h => absurd h (by decide), fun h => absurd h (by decide), fun h => absurd h (by decide)⟩⟩

theorem exchange_request (len : data.length = 3) (key : leNat data = 0x5A0F3) (s : State) : secureRequest s (kent .uint20 .rwS (.fixed 0)) 0x2003 0 0 data :=
  ⟨rfl, rfl, rfl, rfl, rfl, by decide, by decide, congrArg some len.symm, by omega, value_unsigned rfl (by rw [key]; decide), fun _ => rfl, fun _ => rfl, rfl,
    ⟨fun _ => by rw [key]; rfl, fun h => absurd h (by decide), fun h => absurd h (by decide)⟩⟩

theorem configLate_readOnly (cfg : Bool) (hi lo n : Nat) (v w : Word) : configLate cfg [ro hi lo n] v w = false := by
  cases cfg <;> rfl

theorem ack_request (len : data.length = 4) (ack : ackOk s (leNat data) = true) : secureRequest s (kent (.uns 4) .rwS (.pair 0xF3404A)) 0x3050 2 3 data := by
  have small := leNat_lt data
  rw [len] at small
  have late (t : State) (v : Int) : entryLate t (kent (.uns 4) .rwS (.pair 0xF3404A)) v = false :=
    (congrArg₂ or (configLate_readOnly (t.sys.op == .config) 11 0 0xFFF _ _) (configLate_readOnly (t.sys.op == .config) 19 0 0xFFFFF _ _) :)
  exact ⟨rfl, rfl, rfl, rfl, rfl, by decide, by decide, congrArg some len.symm, by omega, value_unsigned rfl small, fun _ => rfl, fun t => late t _, rfl,
    ⟨fun h => absurd h (by decide), fun _ => ack, fun h => absurd h (by decide)⟩⟩

/-- The entry that approves an overlay. -/
def approvalEntry : KEntry := kent (.uns 4) .rwS .calc

theorem kLookup_approval (k : Fin 16) (s : State) : kLookup s (0x3400 + k.val) 2 = .found approvalEntry := by
  fin_cases k <;> rfl

theorem valueCode_approval (k : Fin 16) (v : Int) (s : State) : valueCode s approvalEntry (0x3400 + k.val) 2 v = none := by
  unfold valueCode
  rw [if_neg (by omega), if_neg (by omega), if_neg (by omega)]
  rfl

theorem byFirmware_approval (k : Fin 16) : byFirmware (0x3400 + k.val) 2 = false := by
  revert k
  decide

theorem approval_request (k : Fin 16) (len : data.length = 4) (crc : leNat data = ovCrc s.ks.ov[k]) : secureRequest s approvalEntry (0x3400 + k.val) 2 1 data := by
  have small := leNat_lt data
  rw [len] at small
  refine ⟨kLookup_approval k s, rfl, rfl, rfl, byFirmware_approval k, by omega, by decide, congrArg some len.symm, by omega, value_unsigned rfl small, valueCode_approval k _, fun _ => rfl, ?_,
    ⟨fun h => absurd h (by omega), fun h => absurd h (by omega), fun _ _ => ?_⟩⟩
  · unfold logKind
    rw [if_neg (by omega), if_neg (by omega), if_pos (by omega)]
  · have same : Fin.ofNat 16 (0x3400 + k.val - 0x3400) = k := Fin.ext (by
      rw [Fin.val_ofNat, Nat.add_sub_cancel_left]
      exact Nat.mod_eq_of_lt k.isLt)
    exact congrArg Nat.cast (crc.trans (congrArg (fun j : Fin 16 => ovCrc s.ks.ov[j]) same.symm))

theorem secure_served (r : secureRequest s e i sub kind data) (fresh : freshHere s f) (own : ownRole s f) (free : ovHolds s s.ks.sel i sub = none)
    (auth : authorised s f = true) :
    ∃ k, kTop (wreq f i sub data) s = finishServe (wreq f i sub data) (secureWrite (wreq f i sub data) e (leNat data : Nat) (keyUsed f.src k s)) := by
  obtain ⟨found, right, -, role, mine, low, ⟨two, second⟩, size, short, value, code, late, -, -⟩ := r
  obtain ⟨k, top⟩ := write_value (data := data) (v := (leNat data : Nat)) fresh own low two found mine
    ⟨by rw [right, show authorised s (wreq f i sub data).from_ = true from auth]; rfl, roleCode_unreplicated role, free, byFirmware_local mine, fun h => second h.2.2, size,
      Nat.le_trans short (by decide), value, code s, late s⟩ (fun _ => (late _).trans (late s).symm) (fun _ => (code _).trans (code s).symm)
  rw [show serveValue (wreq f i sub data) e i sub (leNat data : Nat) (keyUsed f.src k s) = secureWrite (wreq f i sub data) e (leNat data : Nat) (keyUsed f.src k s)
    from if_pos right] at top
  exact ⟨k, top⟩

theorem secure_refused (r : secureRequest s e i sub kind data) (fresh : freshHere s f) (own : ownRole s f) (closed : authorised s f = false) :
    answered (kTop (wreq f i sub data) s) f true i sub data (.abort 0x08000041) ∧ kioskFrame [] [] s (kTop (wreq f i sub data) s) :=
  write_refused fresh own r.low r.second.1 r.found r.mine (by
    rw [r.right, closed]
    rfl)

theorem secure_closed (r : secureRequest s e i sub kind data) (fresh : freshHere s f) (own : ownRole s f) (free : ovHolds s s.ks.sel i sub = none)
    (auth : authorised s f = true) (closed : secureClosed s = true) :
    answered (kTop (wreq f i sub data) s) f true i sub data (.abort 0x08000022) ∧ kioskFrame [] [] s (kTop (wreq f i sub data) s) := by
  obtain ⟨k, top⟩ := secure_served r fresh own free auth
  rw [secureWrite_closed (s := keyUsed f.src k s) closed] at top
  exact answered_at_once k fresh.2.2.1 (abort_small _ _) top

theorem wreq_index (f : KFrom) (sub : Nat) (data : List Byte) (low : i < 0x6000) : (wreq f i sub data).index.toNat = i :=
  (BitVec.toNat_ofNat ..).trans (Nat.mod_eq_of_lt (by omega))

theorem secure_fitting (r : secureRequest s e i sub kind data) (fresh : freshHere s f) (own : ownRole s f) (free : ovHolds s s.ks.sel i sub = none)
    (auth : authorised s f = true) (opened : secureClosed s = false) :
    ∃ k, kTop (wreq f i sub data) s = finishServe (wreq f i sub data)
      (if i ≠ 0x3050 ∧ !logRoom s then (some (.abort 0x08000042), keyUsed f.src k s)
        else (none, logAccept (logOf (keyUsed f.src k s) e (wreq f i sub data) (leNat data : Nat)) (keyUsed f.src k s))) := by
  obtain ⟨k, top⟩ := secure_served r fresh own free auth
  have index := wreq_index f sub data r.low
  rw [secureWrite_fits (s := keyUsed f.src k s) (by
    rw [index]
    exact ⟨r.fits.exchange, r.fits.ack, r.fits.overlay⟩) r.single opened, index] at top
  exact ⟨k, top⟩

theorem secure_full (r : secureRequest s e i sub kind data) (fresh : freshHere s f) (own : ownRole s f) (free : ovHolds s s.ks.sel i sub = none)
    (auth : authorised s f = true) (opened : secureClosed s = false) (full : logRoom s = false) (needs : kind ≠ 3) :
    answered (kTop (wreq f i sub data) s) f true i sub data (.abort 0x08000042) ∧ kioskFrame [] [] s (kTop (wreq f i sub data) s) := by
  obtain ⟨k, top⟩ := secure_fitting r fresh own free auth opened
  rw [if_pos ⟨fun h => needs (r.kinds.trans (logKind_ack.mpr h)), by rw [full]; rfl⟩] at top
  exact answered_at_once k fresh.2.2.1 (abort_small _ _) top

/-- An RW-S write waits for its entry in the change log. -/
structure secureWaits (f : KFrom) (i sub kind : Nat) (data : List Byte) (s u : State) (x : LogPend) : Prop where
  log : u.gh.log = s.gh.log ++ [x]
  req : x.req = ⟨f, true, BitVec.ofNat 16 i, BitVec.ofNat 8 sub, data⟩
  kinds : x.kind = kind
  own : x.own = false
  relayed : x.relayed = false
  partner : pairRuns s = false → x.partner = 1
  answer : u.ks.answer = s.ks.answer
  pw : u.gh.pw = s.gh.pw
  ov : u.ks.ov = s.ks.ov
  ack : kind = 3 → logAck u = leNat data
  sys : kind ≠ 3 → u.sys = s.sys
  mem : u.mem = s.mem
  cores : u.cores = s.cores

theorem log40_small {n : Nat} (small : n < 2 ^ 32) : log40 (n : Nat) = n := by
  unfold log40 wrapN
  rw [Int.emod_eq_of_lt (by omega) (by omega)]
  rfl

theorem logOf_new {v : Int} (ack : q.index.toNat = 0x3050) (size : e.ty.size = some 4) (s : State) : (logOf s e q v).new = log40 v := by
  unfold logOf
  dsimp only
  rw [ack, size, if_neg (by decide), if_neg (by decide)]

theorem secure_accepted (r : secureRequest s e i sub kind data) (fresh : freshHere s f) (own : ownRole s f) (free : ovHolds s s.ks.sel i sub = none)
    (auth : authorised s f = true) (opened : secureClosed s = false) (room : logRoom s = true ∨ kind = 3) (four : i = 0x3050 → data.length = 4) :
    ∃ x, secureWaits f i sub kind data s (kTop (wreq f i sub data) s) x := by
  obtain ⟨k, top⟩ := secure_fitting r fresh own free auth opened
  rw [if_neg (by
    rintro ⟨h, no⟩
    obtain room | h3 := room
    · rw [room] at no
      cases no
    · exact h (logKind_ack.mp (r.kinds.symm.trans h3)))] at top
  have index := wreq_index f sub data r.low
  have kindOf : (logOf (keyUsed f.src k s) e (wreq f i sub data) (leNat data : Nat)).kind = kind := by
    show logKind (wreq f i sub data).index.toNat = kind
    rw [index, r.kinds]
  have new (h3 : kind = 3) : (logOf (keyUsed f.src k s) e (wreq f i sub data) (leNat data : Nat)).new = leNat data := by
    have ack := logKind_ack.mp (r.kinds.symm.trans h3)
    have small := leNat_lt data
    rw [four ack] at small
    rw [logOf_new (index.trans ack) (r.size.trans (congrArg some (four ack))), log40_small small]
  have partner (single : pairRuns s = false) : (logOf (keyUsed f.src k s) e (wreq f i sub data) (leNat data : Nat)).partner = 1 := by
    show (if pairRuns s = true then 0 else 1) = 1
    rw [single]
    rfl
  have req : (logOf (keyUsed f.src k s) e (wreq f i sub data) (leNat data : Nat)).req = ⟨f, true, BitVec.ofNat 16 i, BitVec.ofNat 8 sub, data⟩ := rfl
  have own_ : (logOf (keyUsed f.src k s) e (wreq f i sub data) (leNat data : Nat)).own = false := rfl
  have relayed : (logOf (keyUsed f.src k s) e (wreq f i sub data) (leNat data : Nat)).relayed = false := rfl
  have begun := keyUsed_parts f.src k s
  have ks : (keyUsed f.src k s).ks.answer = s.ks.answer ∧ (keyUsed f.src k s).ks.ov = s.ks.ov := ⟨rfl, rfl⟩
  have acks : ackOk (keyUsed f.src k s) = ackOk s := rfl
  generalize keyUsed f.src k s = w at top kindOf new partner req own_ relayed begun ks acks
  generalize logOf w e (wreq f i sub data) (leNat data : Nat) = x at top kindOf new partner req own_ relayed
  have small (h3 : kind = 3) : leNat data < 2 ^ 32 := by
    have small := leNat_lt data
    rwa [four (logKind_ack.mp (r.kinds.symm.trans h3))] at small
  obtain ⟨log, pw, ack, parts, sys⟩ := logAccept_spec x w fun h3 => by
    rw [kindOf] at h3
    rw [new h3]
    exact small h3
  have top : kTop (wreq f i sub data) s = logAccept x w := top
  rw [top]
  generalize logAccept x w = u at log pw ack parts sys
  refine ⟨x, ?_, req, kindOf, own_, relayed, partner, ?_, ?_, ?_, fun h3 => ?_, fun no => ?_, ?_, ?_⟩
  · rw [log, begun.gh (by decide)]
  · rw [parts.ks (by decide), ks.1]
  · rw [pw, begun.gh (by decide)]
  · rw [parts.ks (by decide), ks.2]
  · rw [ack (kindOf.trans h3) (by
      rw [new h3, acks]
      have := r.fits.ack (logKind_ack.mp (r.kinds.symm.trans h3))
      rwa [Int.toNat_natCast] at this), new h3]
  · rw [sys (by rwa [kindOf]), begun.sys (by decide)]
  · rw [parts.mem (by decide), begun.mem (by decide)]
  · rw [parts.cores (by decide), begun.cores (by decide)]

/-- What the statement says of one of the four writes. -/
theorem secure_write {cmd : Instr} (run : exec cmd s = .next (kTop (wreq f i sub data) s)) (r : secureRequest s e i sub kind data)
    (four : i = 0x3050 → data.length = 4) (fresh : freshHere s f) (own : ownRole s f) (free : ovHolds s s.ks.sel i sub = none) :
    (authorised s f = false → ∃ u, exec cmd s = .next u ∧ answered u f true i sub data (.abort 0x08000041) ∧ kioskFrame [] [] s u) ∧
    (authorised s f = true → secureClosed s = true → ∃ u, exec cmd s = .next u ∧ answered u f true i sub data (.abort 0x08000022) ∧ kioskFrame [] [] s u) ∧
    (authorised s f = true → secureClosed s = false → logRoom s = false → kind ≠ 3 →
      ∃ u, exec cmd s = .next u ∧ answered u f true i sub data (.abort 0x08000042) ∧ kioskFrame [] [] s u) ∧
    (authorised s f = true → secureClosed s = false → (logRoom s = true ∨ kind = 3) →
      ∃ (u : State) (x : LogPend), exec cmd s = .next u ∧ u.gh.log = s.gh.log ++ [x] ∧
        x.req = ⟨f, true, BitVec.ofNat 16 i, BitVec.ofNat 8 sub, data⟩ ∧ x.kind = kind ∧ x.own = false ∧ x.relayed = false ∧
        (pairRuns s = false → x.partner = 1) ∧ u.ks.answer = s.ks.answer ∧ u.gh.pw = s.gh.pw ∧ u.ks.ov = s.ks.ov ∧
        (kind = 3 → logAck u = leNat data) ∧ (kind ≠ 3 → u.sys = s.sys) ∧ u.mem = s.mem ∧ u.cores = s.cores) := by
  refine ⟨fun closed => ⟨_, run, secure_refused r fresh own closed⟩, fun auth closed => ⟨_, run, secure_closed r fresh own free auth closed⟩,
    fun auth opened full needs => ⟨_, run, secure_full r fresh own free auth opened full needs⟩, fun auth opened room => ?_⟩
  obtain ⟨x, log, req, kinds, own_, relayed, partner, answer, pw, ov, ack, sys, mem, cores⟩ := secure_accepted r fresh own free auth opened room four
  exact ⟨_, x, run, log, req, kinds, own_, relayed, partner, answer, pw, ov, ack, sys, mem, cores⟩

/-! ### An entry in MRAM -/

theorem logWords_length (n c : Nat) (x : LogPend) : (logWords n c x).length = 12 := rfl

/-- An entry of the change log has been written to MRAM. -/
structure logWritten (x : LogPend) (s t : State) : Prop where
  words : s.sys.op ≠ .test → mramGetAll t (0x64000 + 12 * (logNext s % 4096)) 12 = logWords (logNext s) s.gh.logCrc x
  sys : t.sys = { s.sys with per := { s.sys.per with logNext := (logNext s + 1) % 2 ^ 32 } }
  gh : t.gh = { s.gh with logCrc := t.gh.logCrc }
  parts : sameBut [.sys, .regs, .held, .mem, .pg, .bv, .gh, .pc] s t

theorem mramGetAll_of_mem (mem : t.mem = s.mem) (a n : Nat) : mramGetAll t a n = mramGetAll s a n :=
  mramGetAll_congr fun i _ => by
    unfold mramGet
    rw [mem]

theorem logTaken_shown (n c : Nat) (s : State) :
    (showLog (logTaken n c s)).sys = { s.sys with per := { s.sys.per with logNext := (n + 1) % 2 ^ 32 } } ∧ (showLog (logTaken n c s)).gh = { s.gh with logCrc := c } ∧
      (showLog (logTaken n c s)).mem = s.mem := by
  have shown : sameBut [.regs, .held, .pg, .bv, .pc] (logTaken n c s) (showLog (logTaken n c s)) := (showLog_keeps (by decide) (keeps_refl _ (logTaken n c s))).parts
  exact ⟨shown.sys (by decide), shown.gh (by decide), shown.mem (by decide)⟩

theorem mramPutAll_read {ws : List Word} {a : Nat} (runs : s.sys.op ≠ .test) : mramGetAll (mramPutAll a ws s) a ws.length = ws :=
  mramGetAll_of fun i hi => by
    rw [mramGet_mramPutAll ws a (a + i) runs, if_pos (by omega), Nat.add_sub_cancel_left]

theorem logPut_spec (a n c : Nat) (ws : List Word) (s : State) :
    (s.sys.op ≠ .test → mramGetAll (showLog (logTaken n c (pcSys 0x5D 12 (mramPutAll a ws s)))) a ws.length = ws) ∧
      (showLog (logTaken n c (pcSys 0x5D 12 (mramPutAll a ws s)))).sys = { s.sys with per := { s.sys.per with logNext := (n + 1) % 2 ^ 32 } } ∧
      (showLog (logTaken n c (pcSys 0x5D 12 (mramPutAll a ws s)))).gh = { s.gh with logCrc := c } := by
  have put := (mramPutAll_keeps (L := [.mem]) a ws (by decide) (keeps_refl _ s)).parts
  have read (runs : s.sys.op ≠ .test) : mramGetAll (mramPutAll a ws s) a ws.length = ws := mramPutAll_read runs
  generalize mramPutAll a ws s = m at put read ⊢
  have counts := (pcSys_keeps (L := [.pc, .regs, .held, .pg, .bv]) 0x5D 12 (by decide) (keeps_refl _ m)).parts
  generalize pcSys 0x5D 12 m = p at counts ⊢
  obtain ⟨sys, gh, mem⟩ := logTaken_shown n c p
  refine ⟨fun runs => ?_, ?_, ?_⟩
  · rw [mramGetAll_of_mem mem, mramGetAll_of_mem (counts.mem (by decide)), read runs]
  · rw [sys, counts.sys (by decide), put.sys (by decide)]
  · rw [gh, counts.gh (by decide), put.gh (by decide)]

theorem logWrite_spec (x : LogPend) (s : State) : logWritten x s (logWrite x s) := by
  have parts := (logWrite_keeps (L := [.sys, .regs, .held, .mem, .pg, .bv, .gh, .pc]) x (by decide) (keeps_refl _ s)).parts
  have unfolded : ∃ c, logWrite x s = showLog (logTaken (logNext s) c
      (pcSys 0x5D 12 (mramPutAll (0x64000 + 12 * (logNext s % 4096)) (logWords (logNext s) s.gh.logCrc x) s))) := ⟨_, rfl⟩
  obtain ⟨c, unfolded⟩ := unfolded
  obtain ⟨read, sys, gh⟩ := logPut_spec (0x64000 + 12 * (logNext s % 4096)) (logNext s) c (logWords (logNext s) s.gh.logCrc x) s
  rw [logWords_length, ← unfolded] at read
  rw [← unfolded] at sys gh
  generalize logWrite x s = t at parts read sys gh
  exact ⟨read, sys, by rw [gh], parts⟩

/-! ### What takes effect with its entry -/

/-- An RW-S write has taken effect, its entry being verified. -/
structure secureDone (s t : State) : Prop where
  parts : sameBut [.freeCtr, .sys, .regs, .held, .gh, .ks] s t
  log : t.gh.log = s.gh.log
  next : t.sys.per.logNext = s.sys.per.logNext

/-- A part with the new password v and its salt. -/
def passwordKept (salt v : Nat) (s : State) : State :=
  { s with
    freeCtr := s.freeCtr + 1, gh := { s.gh with pw := { s.gh.pw with salt := salt, digest := pwDigest salt v, isDefault := v == 0 } },
    sys := { s.sys with per := { s.sys.per with salt := salt, digest := pwDigest salt v, pwDefault := v == 0 } } }

theorem newPassword_spec (v : Nat) (s : State) : secureDone s (newPassword v s) ∧ (newPassword v s).gh.pw.isDefault = decide (v = 0) ∧
    (newPassword v s).gh.pw.digest = pwDigest (newPassword v s).gh.pw.salt v ∧ (newPassword v s).sys.per.digest = (newPassword v s).gh.pw.digest ∧
    (newPassword v s).freeCtr = s.freeCtr + 1 := by
  have parts := (newPassword_keeps (L := [.freeCtr, .sys, .regs, .held, .gh, .ks]) v (by decide) (keeps_refl _ s)).parts
  have unfolded : ∃ salt, newPassword v s = showPw (passwordKept salt v s) := ⟨_, rfl⟩
  obtain ⟨salt, unfolded⟩ := unfolded
  have shown := showPw_spec (passwordKept salt v s)
  rw [← unfolded] at shown
  generalize newPassword v s = t at parts shown ⊢
  have gh := shown.gh
  have sys := shown.parts.sys (by decide)
  have free := shown.parts.freeCtr (by decide)
  refine ⟨⟨parts, ?_, ?_⟩, ?_, ?_, ?_, ?_⟩
  · rw [gh]
    rfl
  · rw [sys]
    rfl
  · rw [gh]
    rfl
  · rw [gh, passwordKept]
  · rw [gh, sys, passwordKept]
  · rw [free]
    rfl

/-- The row of PR_CTRL. -/
def pairCtrlRow : RegRow := (reg "PR_CTRL" 0xF30001 [scB 19 19]).locked

theorem mergeB_pairCtrl (cfg : Bool) (w : Word) : mergeB cfg pairCtrlRow.fields (word (2 ^ 19)) w = setBit w 19 true := rfl

theorem rowOf_pairCtrl : rowOf 0xF30001 = some pairCtrlRow := by decide +kernel

theorem blockWrite_pairCtrl {go : State → State} (v : Word) (s : State) : blockWrite go .kiosk 0xF30001 v pairCtrlRow s = genericWrite .kiosk 0xF30001 v pairCtrlRow s := by
  have canon : canonAddr 0xF30001 = 0xF30001 := if_neg (by decide)
  unfold blockWrite
  rw [canon]
  repeat rw [if_neg (by decide)]
  rw [if_pos rfl, if_pos rfl]

theorem exchangeAsked (reach : nvReach s = true) :
    secureDone s (kioskWrite 0xF30001 (word (2 ^ 19)) s) ∧ bit (regGet (kioskWrite 0xF30001 (word (2 ^ 19)) s) 0xF30001) 19 = true := by
  have late : configLate (s.sys.op == .config) pairCtrlRow.fields (word (2 ^ 19)) (regGet s 0xF30001) = false := by
    cases s.sys.op == .config <;> rfl
  obtain ⟨shown, -, per, -, parts⟩ := kioskWrite_staged (s := s) (a := 0xF30001) (w := word (2 ^ 19)) (r := pairCtrlRow) rowOf_pairCtrl
    (by unfold allStaged pairCtrlRow; decide) (by decide) (by decide) reach (fun t => blockWrite_pairCtrl _ t) late
  refine ⟨⟨sameBut_mono (by decide) parts, congrArg Gatehouse.log (parts.gh (by decide)), congrArg Persist.logNext per⟩, ?_⟩
  rw [shown, mergeB_pairCtrl]
  exact bit_setBit_same _ _ (by decide)

theorem approve_spec (k : Fin 16) (s : State) : secureDone s (approve k.val s) ∧ (approve k.val s).ks.ov[k].approved = true ∧
    (approve k.val s).ks.ov[k].recs = s.ks.ov[k].recs ∧ (approve k.val s).ks.ov[k].lastCrc = ovCrc s.ks.ov[k] := by
  have same : Fin.ofNat 16 k.val = k := Fin.ofNat_val_eq_self k
  have parts : sameBut [.ks] s (approve k.val s) := (approve_keeps k.val (by decide) (keeps_refl [.ks] s)).parts
  have entry : (approve k.val s).ks.ov[k] = { s.ks.ov[k] with approved := true, lastCrc := ovCrc s.ks.ov[k] } := by
    have set := vector_set_at s.ks.ov { s.ks.ov[k] with approved := true, lastCrc := ovCrc s.ks.ov[k] } (rfl : k = k)
    exact (congrArg (fun j : Fin 16 => (s.ks.ov.set j { s.ks.ov[j] with approved := true, lastCrc := ovCrc s.ks.ov[j] })[k]) same).trans set
  refine ⟨⟨sameBut_mono (by decide) parts, congrArg Gatehouse.log (parts.gh (by decide)), congrArg (fun x : SysCtl => x.per.logNext) (parts.sys (by decide))⟩, ?_, ?_, ?_⟩ <;> rw [entry]

/-! ### An entry that is verified -/

/-- The effect of an RW-S write of an entry that is found. -/
def secureEffect (e : KEntry) (i sub : Nat) (v : Int) (s : State) : State :=
  if i = 0x2002 then newPassword v.toNat s
  else if i = 0x2003 then kioskWrite 0xF30001 (word (2 ^ 19)) s
  else if i = 0x3050 then s
  else if 0x3400 ≤ i ∧ i < 0x3410 then approve (i - 0x3400) s
  else if e.p then storeValue (ekey i sub) v (entryDefault e i sub) (if entryReplicated e && isStandby s then s else writeEntry e i sub v s)
  else if entryReplicated e && isStandby s then s else writeEntry e i sub v s

theorem secureEffect_exchange (e : KEntry) (sub : Nat) (v : Int) (s : State) : secureEffect e 0x2003 sub v s = kioskWrite 0xF30001 (word (2 ^ 19)) s := by
  rw [secureEffect, if_neg (by decide), if_pos rfl]

theorem secureApply_found (index : x.req.index.toNat = i) (second : x.req.sub.toNat = sub) (found : kLookup s i sub = .found e)
    (value : e.ty.value x.req.data = some v) : secureApply x s = secureEffect e i sub v s := by
  unfold secureApply
  dsimp only
  rw [index, second, found]
  dsimp only
  rw [value]
  rfl

/-- A part whose change log waits for no entry but those of l. -/
def logLeft (l : List LogPend) (s : State) : State := { s with gh := { s.gh with log := l } }

theorem logLeft_parts (l : List LogPend) (s : State) : sameBut [.gh] s (logLeft l s) := (keeps_gh (logLeft l s).gh (by decide) (keeps_refl [.gh] s)).parts

theorem logSettle_applied {y : LogPend} (own : y.own = true) (relayed : y.relayed = false) (partner : y.partner = 1) (s : State) :
    logSettle y s = kFinish y.req (.data []) (secureApply y (logLeft (s.gh.log.erase y) s)) := by
  unfold logSettle
  dsimp only
  rw [own, if_neg (by decide), relayed, if_neg Bool.false_ne_true, if_pos partner, logLeft]

/-- The entry of a request as this unit has written and verified it. -/
def ownWritten (x : LogPend) : LogPend := { x with own := true }

theorem logVerified_found (found : (s.gh.log.find? fun x => !x.own) = some x) :
    logVerified true s = logSettle (ownWritten x) (logLeft ((logWrite x s).gh.log.map fun z => if z = x then ownWritten x else z) (logWrite x s)) := by
  rw [logVerified, found]
  dsimp only
  rw [if_pos rfl, logLeft]
  rfl

theorem logLeft_logLeft (k l : List LogPend) (s : State) : logLeft k (logLeft l s) = logLeft k s := rfl

/-- The entry at the head is written: the request takes effect and is answered. -/
theorem logVerified_head {l : List LogPend} (log : s.gh.log = x :: l) (new : x ∉ l) (own : x.own = false) (relayed : x.relayed = false) (partner : x.partner = 1) :
    logVerified true s = kFinish x.req (.data []) (secureApply (ownWritten x) (logLeft l (logWrite x s))) := by
  have taken : (logWrite x s).gh.log = x :: l := by
    rw [(logWrite_spec x s).gh, log]
  have marked : ((x :: l).map fun z => if z = x then ownWritten x else z) = ownWritten x :: l := by
    rw [List.map_cons, if_pos rfl]
    refine congrArg _ ((List.map_congr_left fun z hz => if_neg fun h : z = x => new (h ▸ hz)).trans (List.map_id l))
  have found : (s.gh.log.find? fun x => !x.own) = some x := by
    rw [log, List.find?_cons_of_pos (by rw [own]; rfl)]
  rw [logVerified_found found, taken, marked]
  generalize logWrite x s = w
  rw [logSettle_applied (y := ownWritten x) rfl relayed partner, logLeft_logLeft, show (logLeft (ownWritten x :: l) w).gh.log = ownWritten x :: l from rfl, List.erase_cons_head]
  rfl

theorem logFailed_head {l : List LogPend} (log : s.gh.log = x :: l) (own : x.own = false) (relayed : x.relayed = false) :
    logVerified false s = kFinish x.req (.abort 0x06060000) (putBit 0xF3404C 17 true (logLeft l s)) := by
  have left : ((x :: l).erase x : List LogPend) = l := List.erase_cons_head ..
  unfold logVerified
  rw [log, List.find?_cons_of_pos (by rw [own]; rfl)]
  dsimp only
  rw [left, if_neg Bool.false_ne_true, relayed, if_neg Bool.false_ne_true]
  rfl

theorem log_failed {l : List LogPend} (log : s.gh.log = x :: l) (own : x.own = false) (relayed : x.relayed = false) (single : x.req.from_.dst.toNat ≠ 262143) :
    ∃ u, exec (.logEntryVerified false) s = .next u ∧ u.gh.log = l ∧ u.ks.answer = some ⟨x.req, .abort 0x06060000⟩ ∧
      bit (regGet u 0xF3404C) 17 = true ∧ u.gh.pw = s.gh.pw ∧ u.ks.ov = s.ks.ov ∧ u.mem = s.mem ∧ u.sys = s.sys := by
  have run : exec (.logEntryVerified false) s = .next (logVerified false s) := rfl
  have left := logLeft_parts l s
  have kept : (logLeft l s).gh.log = l ∧ (logLeft l s).gh.pw = s.gh.pw := ⟨rfl, rfl⟩
  rw [logFailed_head log own relayed] at run
  generalize logLeft l s = w at run left kept
  have flagged := (putBit_keeps (L := [.regs, .held]) 0xF3404C 17 true (by decide) (keeps_refl _ w)).parts
  have flag : bit (regGet (putBit 0xF3404C 17 true w) 0xF3404C) 17 = true := by
    rw [regGet_putBit, if_pos rfl]
    exact bit_setBit_same _ _ (by decide)
  generalize putBit 0xF3404C 17 true w = v at run flagged flag
  have done := kFinish_spec x.req (.abort 0x06060000) v single
  generalize kFinish x.req (.abort 0x06060000) v = u at run done
  refine ⟨u, run, ?_, done.answer, ?_, ?_, ?_, ?_, ?_⟩
  · rw [done.parts.gh (by decide), flagged.gh (by decide), kept.1]
  · rw [(done.regs (abort_small _ _)).regGet (by unfold kioskReg; decide), flag]
  · rw [done.parts.gh (by decide), flagged.gh (by decide), kept.2]
  · rw [done.ks]
    show v.ks.ov = s.ks.ov
    rw [flagged.ks (by decide), left.ks (by decide)]
  · rw [done.parts.mem (by decide), flagged.mem (by decide), left.mem (by decide)]
  · rw [done.parts.sys (by decide), flagged.sys (by decide), left.sys (by decide)]

/-- The part that applies the request of a verified entry. -/
structure entryTaken (x : LogPend) (l : List LogPend) (s g : State) : Prop where
  log : g.gh.log = l
  sys : g.sys = { s.sys with per := { s.sys.per with logNext := (logNext s + 1) % 2 ^ 32 } }
  words : s.sys.op ≠ .test → mramGetAll g (0x64000 + 12 * (logNext s % 4096)) 12 = logWords (logNext s) s.gh.logCrc x
  parts : sameBut [.sys, .regs, .held, .mem, .pg, .bv, .gh, .pc] s g

theorem entryTaken_head (x : LogPend) (l : List LogPend) (s : State) : entryTaken x l s (logLeft l (logWrite x s)) := by
  obtain ⟨words, sys, -, parts⟩ := logWrite_spec x s
  generalize logWrite x s = w at words sys parts
  have left := logLeft_parts l w
  refine ⟨rfl, (left.sys (by decide)).trans sys, fun runs => ?_, sameBut_trans parts (sameBut_mono (by decide) left)⟩
  rw [mramGetAll_of_mem (left.mem (by decide)), words runs]

/-- A request that has taken effect with its entry is answered. -/
structure entryAnswered (x : LogPend) (l : List LogPend) (s a u : State) : Prop where
  log : u.gh.log = l
  next : u.sys.per.logNext = (logNext s + 1) % 2 ^ 32
  words : mramGetAll u (0x64000 + 12 * (logNext s % 4096)) 12 = logWords (logNext s) s.gh.logCrc x
  answer : u.ks.answer = some ⟨x.req, .data []⟩
  parts : sameBut [.regs, .held, .lk, .ks] a u
  ov : u.ks.ov = a.ks.ov
  regs : touches kioskReg a u

theorem entry_answered {l : List LogPend} {g a : State} (taken : entryTaken x l s g) (done : secureDone g a) (runs : s.sys.op ≠ .test)
    (single : x.req.from_.dst.toNat ≠ 262143) : entryAnswered x l s a (kFinish x.req (.data []) a) := by
  obtain ⟨log, sys, words, -⟩ := taken
  obtain ⟨parts, log', next'⟩ := done
  obtain ⟨answer, last, ks, -, regs⟩ := kFinish_spec x.req (.data []) a single
  generalize kFinish x.req (.data []) a = u at answer last ks regs
  refine ⟨?_, ?_, ?_, answer, last, by rw [ks], regs (data_small _ (by decide))⟩
  · rw [last.gh (by decide), log', log]
  · rw [last.sys (by decide), next', sys]
  · rw [mramGetAll_of_mem (last.mem (by decide)), mramGetAll_of_mem (parts.mem (by decide)), words runs]

section
variable {l : List LogPend} (log : s.gh.log = x :: l) (new : x ∉ l) (own : x.own = false) (relayed : x.relayed = false) (partner : x.partner = 1)
  (single : x.req.from_.dst.toNat ≠ 262143) (runs : s.sys.op ≠ .test)
include log new own relayed partner single runs

/-- The entry at the head of the queue is verified, and its request found. -/
theorem entry_verified (low : i < 0x6000) (two : sub < 0x100) (index : x.req.index = BitVec.ofNat 16 i) (second : x.req.sub = BitVec.ofNat 8 sub)
    (found : ∀ t, kLookup t i sub = .found e) (value : e.ty.value x.req.data = some v) (effect : ∀ g, entryTaken x l s g → secureDone g (secureEffect e i sub v g)) :
    ∃ g u, exec (.logEntryVerified true) s = .next u ∧ entryTaken x l s g ∧ entryAnswered x l s (secureEffect e i sub v g) u := by
  have run : exec (.logEntryVerified true) s = .next (logVerified true s) := rfl
  have taken := entryTaken_head x l s
  rw [logVerified_head log new own relayed partner] at run
  generalize logLeft l (logWrite x s) = g at run taken
  rw [secureApply_found (x := ownWritten x) ((congrArg BitVec.toNat index).trans ((BitVec.toNat_ofNat ..).trans (Nat.mod_eq_of_lt (by omega))))
    ((congrArg BitVec.toNat second).trans ((BitVec.toNat_ofNat ..).trans (Nat.mod_eq_of_lt (by omega)))) (found g) value] at run
  exact ⟨g, _, run, taken, entry_answered taken (effect g taken) runs single⟩

theorem password_verified (index : x.req.index = BitVec.ofNat 16 0x2002) (second : x.req.sub = BitVec.ofNat 8 3) (len : x.req.data.length = 4) :
    ∃ a u, exec (.logEntryVerified true) s = .next u ∧ entryAnswered x l s a u ∧ u.gh.pw.isDefault = decide (leNat x.req.data = 0) ∧
      u.gh.pw.digest = pwDigest u.gh.pw.salt (leNat x.req.data) ∧ u.sys.per.digest = u.gh.pw.digest ∧ u.freeCtr = s.freeCtr + 1 := by
  have small := leNat_lt x.req.data
  rw [len] at small
  obtain ⟨g, u, run, taken, done⟩ := entry_verified log new own relayed partner single runs (e := kent (.uns 4) .rwS (.fixed 0)) (i := 0x2002) (sub := 3) (v := (leNat x.req.data : Nat))
    (by decide) (by decide) index second (fun _ => rfl) (value_unsigned rfl small) fun g _ => (newPassword_spec _ g).1
  have effect : secureEffect (kent (.uns 4) .rwS (.fixed 0)) 0x2002 3 (leNat x.req.data : Nat) g = newPassword (leNat x.req.data) g := rfl
  rw [effect] at done
  obtain ⟨-, zero, digest, kept, free⟩ := newPassword_spec (leNat x.req.data) g
  generalize newPassword (leNat x.req.data) g = a at done zero digest kept free
  have gh := done.parts.gh (by decide)
  refine ⟨a, u, run, done, ?_, ?_, ?_, ?_⟩
  · rw [gh, zero]
  · rw [gh, digest]
  · rw [done.parts.sys (by decide), gh, kept]
  · rw [done.parts.freeCtr (by decide), free, taken.parts.freeCtr (by decide)]

theorem exchange_verified (on : s.sys.op ≠ .powerUp) (free : s.sys.rstHeld = false) (index : x.req.index = BitVec.ofNat 16 0x2003) (second : x.req.sub = BitVec.ofNat 8 0)
    (key : leNat x.req.data = 0x5A0F3) :
    ∃ a u, exec (.logEntryVerified true) s = .next u ∧ entryAnswered x l s a u ∧ bit (regGet u 0xF30001) 19 = true := by
  have asked (g : State) (taken : entryTaken x l s g) := exchangeAsked (s := g) (by
    unfold nvReach
    rw [taken.sys]
    show (s.sys.op != .powerUp && !s.sys.rstHeld) = true
    rw [free, Bool.not_false, Bool.and_true]
    exact bne_iff_ne.mpr on)
  obtain ⟨g, u, run, taken, done⟩ := entry_verified log new own relayed partner single runs (e := kent .uint20 .rwS (.fixed 0)) (i := 0x2003) (sub := 0) (v := (leNat x.req.data : Nat))
    (by decide) (by decide) index second (fun _ => rfl) (value_unsigned rfl (by rw [key]; decide)) fun g taken => by
      rw [secureEffect_exchange]
      exact (asked g taken).1
  obtain ⟨-, flag⟩ := asked g taken
  rw [secureEffect_exchange] at done
  generalize kioskWrite 0xF30001 (word (2 ^ 19)) g = a at done flag
  refine ⟨a, u, run, done, ?_⟩
  rw [done.regs.regGet (by unfold kioskReg; decide), flag]

theorem approval_verified (k : Fin 16) (index : x.req.index = BitVec.ofNat 16 (0x3400 + k.val)) (second : x.req.sub = BitVec.ofNat 8 2) (len : x.req.data.length = 4) :
    ∃ a u, exec (.logEntryVerified true) s = .next u ∧ entryAnswered x l s a u ∧ u.ks.ov[k].approved = true ∧ u.ks.ov[k].recs = s.ks.ov[k].recs ∧
      u.ks.ov[k].lastCrc = ovCrc s.ks.ov[k] := by
  have small := leNat_lt x.req.data
  rw [len] at small
  have effect (g : State) : secureEffect approvalEntry (0x3400 + k.val) 2 (leNat x.req.data : Nat) g = approve k.val g := by
    unfold secureEffect
    rw [if_neg (by omega), if_neg (by omega), if_neg (by omega), if_pos (by omega), Nat.add_sub_cancel_left]
  obtain ⟨g, u, run, taken, done⟩ := entry_verified log new own relayed partner single runs (e := approvalEntry) (i := 0x3400 + k.val) (sub := 2) (v := (leNat x.req.data : Nat))
    (by omega) (by decide) index second (kLookup_approval k) (value_unsigned rfl small) fun g _ => by
      rw [effect]
      exact (approve_spec k g).1
  rw [effect] at done
  obtain ⟨-, approved, recs, crc⟩ := approve_spec k g
  have ov : g.ks = s.ks := taken.parts.ks (by decide)
  generalize approve k.val g = a at done approved recs crc
  refine ⟨a, u, run, done, ?_, ?_, ?_⟩
  · rw [done.ov, approved]
  · rw [done.ov, recs, ov]
  · rw [done.ov, crc, ov]

end

/-- Settles O49. The acknowledgement that frees entries at once, the log position that advances as the entry is verified, and the salt are log entries 38 and 2. -/
theorem secureWritesWaitForTheirLogEntry : Obligations.SecureWritesWaitForTheirLogEntry := by
  intro s
  refine ⟨fun cmd f i sub kind data fresh own free which => ?_, fun x l log new own relayed partner single => ⟨fun runs free on i sub index second which => ?_,
    log_failed log own relayed single⟩⟩
  · obtain ⟨rfl, rfl, rfl, rfl, len⟩ | ⟨rfl, rfl, rfl, rfl, len, key⟩ | ⟨k, rfl, rfl, rfl, rfl, len, crc⟩ | ⟨rfl, rfl, rfl, rfl, len, ack⟩ := which
    · exact secure_write rfl (newPassword_request len s) (fun h => absurd h (by decide)) fresh own free
    · exact secure_write rfl (exchange_request len key s) (fun h => absurd h (by decide)) fresh own free
    · exact secure_write rfl (approval_request k len crc) (fun h => absurd h (by omega)) fresh own free
    · exact secure_write rfl (ack_request len ack) (fun _ => len) fresh own free
  · obtain ⟨rfl, rfl, len⟩ | ⟨rfl, rfl, len, key⟩ | ⟨k, rfl, rfl, len⟩ := which
    · obtain ⟨a, u, run, done, pw⟩ := password_verified log new own relayed partner single runs index second len
      exact ⟨u, run, done.log, done.next, done.words, done.answer, fun _ => pw, fun h => absurd h (by decide), fun k h => absurd h (by omega)⟩
    · obtain ⟨a, u, run, done, flag⟩ := exchange_verified log new own relayed partner single runs on free index second key
      exact ⟨u, run, done.log, done.next, done.words, done.answer, fun h => absurd h (by decide), fun _ => flag, fun k h => absurd h (by omega)⟩
    · obtain ⟨a, u, run, done, ov⟩ := approval_verified log new own relayed partner single runs k index second len
      refine ⟨u, run, done.log, done.next, done.words, done.answer, fun h => absurd h (by omega), fun h => absurd h (by omega), fun j h => ?_⟩
      obtain rfl : j = k := Fin.ext (by omega)
      exact ov

end Sys2Proof.Machine
end

