-- ==== Sys2Proof/Proofs/SafeLeft.lean ====
section
/-! PROOFS. A selection of overlays is dropped in the cycle in which SAFE was entered, whatever the state is then (16 R436). -/

namespace Sys2Proof.Machine

/-- A unit in RECOVERY in the very cycle in which it entered SAFE, with SNN 1. -/
def safeLeft : State :=
  { State.reset with
    regs := [(0xF48000, 1)]
    sys := { State.reset.sys with op := .recovery, tSafe := some State.reset.now } }

/-- A requester at CAN 0. -/
def canSource : KFrom := ⟨.can 0, 0, 1, 0, 0⟩

theorem safeLeft_fresh : freshHere safeLeft canSource := ⟨by decide +kernel, by decide, by decide, by decide +kernel, .inl ⟨0, rfl⟩⟩

theorem safeLeft_drops : fld (regGet (kTop (wreq canSource 0x3410 1 [1, 0]) safeLeft) 0xF48008) 15 0 = 0 := by decide +kernel

/-- Refutes O50: a unit that has left SAFE in the cycle in which it entered it drops the selection, which the clause on a selection outside SAFE leaves out. -/
theorem not_storesRestoresAndOverlays : ¬ Obligations.StoresRestoresAndOverlays := by
  intro h
  obtain ⟨-, selection, -⟩ := h safeLeft
  obtain ⟨u, run, selected, -⟩ := selection canSource 0 1 safeLeft_fresh (by decide) rfl (by decide +kernel)
  obtain ⟨-, shown, -⟩ := selected (by decide)
  have run : Host.Outcome.next (kTop (wreq canSource 0x3410 1 [1, 0]) safeLeft) = .next u := run
  injection run with e
  rw [← e, safeLeft_drops] at shown
  exact absurd shown (by decide)

end Sys2Proof.Machine
end

