-- ==== Sys2Proof/Proofs/CanopenServices.lean ====
section
/-! PROOFS. CANopen services (15 R415, R417). -/

namespace Sys2Proof.Machine

variable {s t u : State} {c : Fin 2}

/-! ### Frames -/

/-- The part whose port c has sent the frame f. -/
def frameKept (c : Fin 2) (f : List Word) (s : State) : State := setCan c { s.can[c] with sent := f :: s.can[c].sent } s

/-- Port c has sent the frame f of the CANopen layer, and counted it. -/
structure frameOut (c : Fin 2) (f : List Word) (s t : State) : Prop where
  can : t.can[c] = { s.can[c] with sent := f :: s.can[c].sent }
  counts : regGet t (cnBase c + 0x12) = regGet s (cnBase c + 0x12) + 1
  parts : sameBut [.can, .regs, .held] s t
  regs : touches (· ∈ [cnBase c + 0x12]) s t

theorem frameOut_count (c : Fin 2) (f : List Word) (s : State) : frameOut c f s (count (cnBase c + 0x12) (frameKept c f s)) := by
  have counts := (count_keeps (L := [.regs, .held]) (cnBase c + 0x12) (by decide) (keeps_refl _ (frameKept c f s))).parts
  have kept : sameBut [.can] s (frameKept c f s) := sameBut_setCan _ _ _
  have can : (frameKept c f s).can[c] = { s.can[c] with sent := f :: s.can[c].sent } := setCan_can_same ..
  refine ⟨?_, count_regGet_same .., sameBut_trans (sameBut_mono (by decide) kept) (sameBut_mono (by decide) counts),
    touches_count (by rw [canonAddr_cnBase]; exact List.mem_singleton_self _) (touches_same (touches_refl _ s) rfl rfl)⟩
  rw [counts.can (by decide), can]

theorem coSend_out (c : Fin 2) (cob : Nat) (data : List Byte) (s : State) : ∃ f, frameOut c f s (coSend c cob data s) := ⟨_, frameOut_count c _ s⟩

/-- A frame with a base identifier and one byte. -/
theorem coSend_short (c : Fin 2) {cob : Nat} (low : cob < 2048) (b : Byte) (s : State) :
    ∃ f, frameOut c f s (coSend c cob [b] s) ∧ f.take 2 = [word 0x800, word cob] := by
  have base : (cob / 2 ^ 29 % 2 == 1) = false := by
    rw [Nat.div_eq_of_lt (by omega)]
    rfl
  have sent : coSend c cob [b] s = count (cnBase c + 0x12) (frameKept c ([word 0x800, word cob, word 0, 0] ++ words64 (sysTime s) ++ cnData [b.toNat]) s) := by
    have head : false.toNat * 2 ^ 19 + (decide (8 < [b].length)).toNat * 2 ^ 18 + dlcOf [b].length * 2 ^ 11 = 0x800 := by
      simp [dlcOf]
    simp only [coSend, base, Nat.mod_eq_of_lt low, Bool.false_eq_true, if_false, head]
    rfl
  rw [sent]
  exact ⟨_, frameOut_count c _ s, rfl⟩

/-! ### The heartbeat -/

theorem heartbeat_sent (up : coUp s c = true) (runs : s.can[c].stopped = false) (on : mapGet 0 s.ks.vals (ekey 0x1017 0) ≠ 0) :
    ∃ (u : State) (f : List Word), exec (.heartbeat c) s = .next u ∧ u.can[c].sent = f :: s.can[c].sent ∧
      f.take 2 = [word 0x800, word (0x700 + fldOf s (copAddr c) 17 11)] ∧ u.can[c].beats = s.can[c].beats + 1 ∧
      regGet u (cnBase c + 0x12) = regGet s (cnBase c + 0x12) + 1 ∧ sameBut [.can, .regs, .held] s u ∧ regsBut [cnBase c + 0x12] s u := by
  have node : fldOf s (copAddr c) 17 11 < 128 := Nat.mod_lt _ (by decide)
  obtain ⟨f, ⟨can, counts, parts, regs⟩, head⟩ := coSend_short c (cob := 0x700 + fldOf s (copAddr c) 17 11) (by omega) 5 s
  have sent : heartbeat c s = setCan c { (coSend c (0x700 + fldOf s (copAddr c) 17 11) [5] s).can[c] with beats := (coSend c (0x700 + fldOf s (copAddr c) 17 11) [5] s).can[c].beats + 1 }
      (coSend c (0x700 + fldOf s (copAddr c) 17 11) [5] s) := if_pos (by rw [up, runs, bne_iff_ne.mpr on]; rfl)
  have run : exec (.heartbeat c) s = .next (heartbeat c s) := rfl
  rw [sent] at run
  generalize coSend c (0x700 + fldOf s (copAddr c) 17 11) [5] s = t at run can counts parts regs
  have canU := setCan_can_same c { t.can[c] with beats := t.can[c].beats + 1 } t
  refine ⟨_, f, run, ?_, head, ?_, counts, sameBut_trans parts (sameBut_mono (by decide) (sameBut_setCan _ _ _)), regsBut_of_touches (touches_same regs rfl rfl)⟩
  · rw [canU, can]
  · rw [canU, can]

/-! ### Transmit PDOs -/

theorem setTpdo_spec {n : Nat} (port : pdoPort s (65 + n) = c) (x : TpdoSt) :
    tpdoSt (setTpdo n x s) n = x ∧ (setTpdo n x s).can[c] = { s.can[c] with tpdo := mapPut TpdoSt.reset s.can[c].tpdo n x } ∧ sameBut [.can] s (setTpdo n x s) := by
  subst port
  have can : (setTpdo n x s).can[pdoPort s (65 + n)] = { s.can[pdoPort s (65 + n)] with tpdo := mapPut TpdoSt.reset s.can[pdoPort s (65 + n)].tpdo n x } :=
    setCan_can_same ..
  refine ⟨?_, can, sameBut_setCan _ _ _⟩
  show mapGet TpdoSt.reset (setTpdo n x s).can[pdoPort s (65 + n)].tpdo n = x
  rw [can]
  exact mapGet_mapPut_same ..

theorem coUp_congr (st : t.can[c].st = s.can[c].st) (h : sameBut [.can] s t) : coUp t c = coUp s c := by
  have regs := h.regs (by decide)
  have held := h.held (by decide)
  unfold coUp afterBoot cnOnBus cnLomf isActive
  rw [st, h.sys (by decide), h.pr (by decide), bitOf_eq regs held, fldOf_eq regs held]

/-- A TPDO may be transmitted by port c. -/
structure tpdoOn (c : Fin 2) (n : Nat) (s : State) : Prop where
  port : pdoPort s (65 + n) = c
  up : coUp s c = true
  runs : s.can[c].stopped = false
  valid : pdoVal s (0x1800 + n) 1 / 2 ^ 31 % 2 = 0
  maps : pdoVal s (0x1A00 + n) 0 ≠ 0

theorem tpdoSend_on {n : Nat} (on : tpdoOn c n s) : tpdoSend n s = if (tpdoSt s n).inhibit then setTpdo n { tpdoSt s n with held := true } s
    else setTpdo n { inhibit := decide (pdoVal s (0x1800 + n) 3 ≠ 0), held := false } (coSend c (pdoVal s (0x1800 + n) 1) (tpdoBytes s n) s) := by
  obtain ⟨rfl, up, runs, valid, maps⟩ := on
  exact if_neg (by
    rw [up, runs, valid, beq_eq_false_iff_ne.mpr maps]
    decide)

/-- Port c has transmitted a TPDO. -/
structure tpdoSent (c : Fin 2) (n : Nat) (s u : State) : Prop where
  sent : ∃ f, u.can[c].sent = f :: s.can[c].sent
  st : tpdoSt u n = { inhibit := decide (pdoVal s (0x1800 + n) 3 ≠ 0), held := false }
  counts : regGet u (cnBase c + 0x12) = regGet s (cnBase c + 0x12) + 1
  parts : sameBut [.can, .regs, .held] s u
  regs : regsBut [cnBase c + 0x12] s u

theorem pdoVal_congr (ks : t.ks = s.ks) : pdoVal t = pdoVal s := by
  funext i sub
  unfold pdoVal
  rw [ks]

theorem pdoPort_congr (ks : t.ks = s.ks) : pdoPort t = pdoPort s := by
  funext sub
  unfold pdoPort
  rw [pdoVal_congr ks]

theorem tpdoSend_sent {n : Nat} (on : tpdoOn c n s) (free : (tpdoSt s n).inhibit = false) : tpdoSent c n s (tpdoSend n s) := by
  rw [tpdoSend_on on, free, if_neg Bool.false_ne_true]
  obtain ⟨f, can, counts, parts, regs⟩ := coSend_out c (pdoVal s (0x1800 + n) 1) (tpdoBytes s n) s
  generalize coSend c (pdoVal s (0x1800 + n) 1) (tpdoBytes s n) s = t at can counts parts regs
  have port : pdoPort t (65 + n) = c := by rw [pdoPort_congr (parts.ks (by decide)), on.port]
  obtain ⟨st, sent, set⟩ := setTpdo_spec port { inhibit := decide (pdoVal s (0x1800 + n) 3 ≠ 0), held := false }
  refine ⟨⟨f, ?_⟩, st, ?_, sameBut_trans parts (sameBut_mono (by decide) set), regsBut_of_touches (touches_sameBut regs set (by decide) (by decide))⟩
  · rw [sent, can]
  · rw [← counts]
    exact regGet_of_regs (set.regs (by decide)) _

theorem tpdo_timer {n : Fin 64} (on : tpdoOn c n.val s) :
    ((tpdoSt s n.val).inhibit = false → ∃ u, exec (.tpdoEventTimer n) s = .next u ∧ tpdoSent c n.val s u) ∧
    ((tpdoSt s n.val).inhibit = true → ∃ u, exec (.tpdoEventTimer n) s = .next u ∧ u.can[c].sent = s.can[c].sent ∧
      tpdoSt u n.val = { inhibit := true, held := true } ∧ sameBut [.can] s u) := by
  refine ⟨fun free => ⟨_, rfl, tpdoSend_sent on free⟩, fun held => ⟨_, rfl, ?_⟩⟩
  rw [tpdoSend_on on, held, if_pos rfl]
  obtain ⟨st, sent, set⟩ := setTpdo_spec on.port { tpdoSt s n.val with held := true }
  exact ⟨by rw [sent], st.trans (congrArg (fun b => (⟨b, true⟩ : TpdoSt)) held), set⟩

theorem tpdo_inhibit {n : Fin 64} (on : tpdoOn c n.val s) :
    ∃ u, exec (.tpdoInhibitExpiry n) s = .next u ∧ ((tpdoSt s n.val).held = false → tpdoSt u n.val = { inhibit := false, held := false } ∧
        u.can[c].sent = s.can[c].sent ∧ sameBut [.can] s u) ∧
      ((tpdoSt s n.val).held = true → ∃ f, u.can[c].sent = f :: s.can[c].sent) := by
  obtain ⟨st, can, set⟩ := setTpdo_spec (s := s) (n := n.val) on.port { inhibit := false, held := false }
  have run : exec (.tpdoInhibitExpiry n) s = .next (if (tpdoSt s n.val).held then tpdoSend n.val (setTpdo n.val { inhibit := false, held := false } s)
    else setTpdo n.val { inhibit := false, held := false } s) := rfl
  generalize setTpdo n.val { inhibit := false, held := false } s = t at run st can set
  refine ⟨_, run, fun no => ?_, fun held => ?_⟩
  · rw [no, if_neg Bool.false_ne_true]
    exact ⟨st, by rw [can], set⟩
  · rw [held, if_pos rfl]
    have ks := set.ks (by decide)
    have val := pdoVal_congr ks
    have on' : tpdoOn c n.val t := ⟨by rw [pdoPort_congr ks, on.port], (coUp_congr (by rw [can]) set).trans on.up, by rw [can]; exact on.runs, by rw [val]; exact on.valid,
      by rw [val]; exact on.maps⟩
    obtain ⟨f, sent⟩ := (tpdoSend_sent on' (by rw [st])).sent
    rw [can] at sent
    exact ⟨f, sent⟩

/-! ### Pairs of registers written by Kiosk -/

theorem kioskWritePair_staged {a : Nat} {v : Int} {rh rl : RegRow} (marked : pairMarked a = true) (rowHi : rowOf a = some rh) (rowLo : rowOf (a + 1) = some rl)
    (stagedHi : allStaged rh) (stagedLo : allStaged rl) (fastHi : isSlow a = false) (fastLo : isSlow (a + 1) = false) (reach : nvReach s = true)
    (plainHi : ∀ w t, blockWrite (fun s => s) .kiosk a w rh t = genericWrite .kiosk a w rh t)
    (plainLo : ∀ w t, blockWrite (fun s => s) .kiosk (a + 1) w rl t = genericWrite .kiosk (a + 1) w rl t) :
    kioskWritePair a v s = genericWrite .kiosk (a + 1) (word (wrapN 40 v)) rl (genericWrite .kiosk a (word (wrapN 40 v / 2 ^ 20)) rh (armLock .kiosk (kioskOpen s))) := by
  have open_ : (kioskOpen s).sys.unlocked.contains .kiosk = true := by simp [kioskOpen]
  have unfolded : kioskWritePair a v s = lockedWrite (fun s => s) ((kioskOpen s).sys.unlocked.contains .kiosk) .kiosk (a + 1) (word (wrapN 40 v))
      (lockedWrite (fun s => s) ((kioskOpen s).sys.unlocked.contains .kiosk) .kiosk a (word (wrapN 40 v / 2 ^ 20)) (armLock .kiosk (kioskOpen s))) :=
    (if_neg (by
      show ¬(!nvReach s) = true
      rw [reach]
      decide)).trans (if_pos marked)
  rw [unfolded, open_, lockedWrite_staged rowHi stagedHi fastHi (plainHi _), lockedWrite_staged rowLo stagedLo fastLo (plainLo _)]

/-! ### The target of an axis -/

/-- The rows of MP_TGT of the axes. -/
def targetHi : RegRow := ((reg "TGT_HI" 0xF08004 [rwB 19 0]).arr 256 64).paired
def targetLo : RegRow := ((reg "TGT_LO" 0xF08005 [rwB 19 0]).arr 256 64).paired

theorem rowOf_target (a : Fin 128) : rowOf (mpBase a.val + 4) = some targetHi ∧ rowOf (mpBase a.val + 5) = some targetLo := by
  revert a
  decide +kernel

theorem target_fast (a : Fin 128) : isSlow (mpBase a.val + 4) = false ∧ isSlow (mpBase a.val + 5) = false := by
  revert a
  decide +kernel

theorem target_marked (a : Fin 128) : pairMarked (mpBase a.val + 4) = true := by
  revert a
  decide +kernel

theorem mergeB_whole (cfg : Bool) (v w : Word) : mergeB cfg [rwB 19 0] v w = v := by
  have merged : mergeB cfg [rwB 19 0] v w = setFld w 19 0 (fld v 19 0) := rfl
  rw [merged]
  refine BitVec.eq_of_toNat_eq ?_
  have hv := v.isLt
  have hw := w.isLt
  unfold setFld fld natSetFld
  rw [toNat_word]
  simp only [Nat.reducePow, Nat.reduceAdd, Nat.reduceSub]
  omega

theorem configLate_whole (cfg : Bool) (v w : Word) : configLate cfg [rwB 19 0] v w = false := by cases cfg <;> rfl

theorem target_staged : allStaged targetHi ∧ allStaged targetLo := by
  unfold allStaged targetHi targetLo
  decide

/-- MP_TGT of an axis holds a number shown beside the one in force. -/
structure targetShown (a : Fin 128) (n : Nat) (s t : State) : Prop where
  shown : (regGet t (mpBase a.val + 4)).toNat * 2 ^ 20 + (regGet t (mpBase a.val + 5)).toNat = n
  force : pairN t (mpBase a.val + 4) = pairN s (mpBase a.val + 4)
  parts : sameBut [.sys, .regs, .held] s t
  regs : regsBut [mpBase a.val + 4, mpBase a.val + 5] s t

theorem target_written (a : Fin 128) {v : Int} {n : Nat} (small : n < 2 ^ 40) (wrapped : wrapN 40 v = n) (reach : nvReach s = true) :
    targetShown a n s (kioskWritePair (mpBase a.val + 4) v s) := by
  have base := still_base a
  obtain ⟨rowHi, rowLo⟩ := rowOf_target a
  obtain ⟨fastHi, fastLo⟩ := target_fast a
  rw [kioskWritePair_staged (target_marked a) rowHi rowLo target_staged.1 target_staged.2 fastHi fastLo reach
    (fun w t => blockWrite_axis .kiosk w targetHi (by omega) (by omega) t) (fun w t => blockWrite_axis .kiosk w targetLo (by omega) (by omega) t), wrapped]
  have begun : sameBut [.sys] s (armLock .kiosk (kioskOpen s)) := (keeps_sys (armLock .kiosk (kioskOpen s)).sys (by decide) (keeps_refl [.sys] s)).parts
  generalize armLock .kiosk (kioskOpen s) = x at begun
  obtain ⟨shownHi, forceHi, -, regsHi, partsHi⟩ := genericWrite_staged (s := x) .kiosk (mpBase a.val + 4) (word (n / 2 ^ 20)) target_staged.1 (configLate_whole ..)
  rw [show targetHi.fields = [rwB 19 0] from rfl, mergeB_whole] at shownHi
  generalize genericWrite .kiosk (mpBase a.val + 4) (word (n / 2 ^ 20)) targetHi x = m at shownHi forceHi regsHi partsHi
  obtain ⟨shownLo, forceLo, -, regsLo, partsLo⟩ := genericWrite_staged (s := m) .kiosk (mpBase a.val + 4 + 1) (word n) target_staged.2 (configLate_whole ..)
  rw [show targetLo.fields = [rwB 19 0] from rfl, mergeB_whole] at shownLo
  generalize genericWrite .kiosk (mpBase a.val + 4 + 1) (word n) targetLo m = u at shownLo forceLo regsLo partsLo
  have canonHi : canonAddr (mpBase a.val + 4) = mpBase a.val + 4 := if_neg (by omega)
  have canonLo : canonAddr (mpBase a.val + 4 + 1) = mpBase a.val + 4 + 1 := if_neg (by omega)
  have start : touches (fun _ => False) s x := touches_of_sameBut begun (by decide) (by decide)
  have hi := regsLo (mpBase a.val + 4) (by rw [canonHi, canonLo]; omega)
  have lo := regsHi (mpBase a.val + 4 + 1) (by rw [canonHi, canonLo]; omega)
  refine ⟨?_, ?_, sameBut_trans (sameBut_mono (by decide) begun) (sameBut_trans partsHi partsLo), regsBut_of_touches ?_⟩
  · rw [hi.1, shownHi, show mpBase a.val + 5 = mpBase a.val + 4 + 1 from rfl, shownLo, toNat_word, toNat_word]
    omega
  · unfold pairN
    rw [hi.2, forceHi, (start _ id).2, forceLo, lo.2, (start _ id).2]
  · refine touches_trans (touches_mono start fun _ => False.elim) (touches_trans (touches_mono regsHi fun b e => ?_) (touches_mono regsLo fun b e => ?_))
    · rw [e, canonHi]
      exact List.mem_cons_self ..
    · rw [e, canonLo]
      exact List.mem_cons_of_mem _ (List.mem_singleton_self _)

/-! ### Receive PDOs -/

/-- The entry of an axis's MP_TGT. -/
def targetEntry (a : Fin 128) : KEntry := (kent .int40 .rw (.pair (mpBase a.val + 4))).setM

theorem kLookup_target (a : Fin 128) (there : a.val < axisCount s) : kLookup s 0x220B (a.val + 1) = .found (targetEntry a) := by
  have array : kLookup s 0x220B (a.val + 1) = match axisArray s 0x0B 0 (a.val + 1) with
      | some e => .found e
      | none => .noSub := rfl
  have entry : axisArray s 0x0B 0 (a.val + 1) = some (targetEntry a) := by
    unfold axisArray
    rw [if_neg (by omega), if_pos (by omega), show 0 + (a.val + 1) - 1 = a.val by omega]
    rfl
  rw [array, entry]

theorem wrapN_sext {n : Nat} (small : n < 2 ^ 40) : wrapN 40 (sext 40 n) = n := by
  unfold wrapN sext
  split <;> omega

theorem value_signed {b : List Byte} (five : b.length = 5) : KType.int40.value b = some (sext 40 (leNat b)) := by
  have small := leNat_lt b
  rw [five] at small
  unfold KType.value KType.trunc
  rw [five]
  exact if_pos (.inr (congrArg (sext 40) (wrapN_sext small)))

theorem entryLate_target (a : Fin 128) (v : Int) : entryLate s (targetEntry a) v = false := by
  obtain ⟨rowHi, rowLo⟩ := rowOf_target a
  have late : entryLate s (targetEntry a) v = ((match rowOf (mpBase a.val + 4) with
      | some r => configLate (s.sys.op == .config) r.fields (word (wrapN 40 v / 2 ^ 20)) (regGet s (mpBase a.val + 4))
      | none => false) || match rowOf (mpBase a.val + 5) with
      | some r => configLate (s.sys.op == .config) r.fields (word (wrapN 40 v)) (regGet s (mpBase a.val + 5))
      | none => false) := rfl
  rw [late, rowHi, rowLo]
  exact congrArg₂ or (configLate_whole ..) (configLate_whole ..)

theorem rpdo_written {n : Fin 64} (a : Fin 128) (b4 b3 b2 b1 b0 : Byte) (port : pdoPort s (1 + n.val) = c) (up : coUp s c = true) (runs : s.can[c].stopped = false)
    (valid : pdoVal s (0x1400 + n.val) 1 / 2 ^ 31 % 2 = 0) (own : isStandby s = false) (free : s.sys.rstHeld = false)
    (maps : mapped s (0x1600 + n.val) = [(0x220B, a.val + 1, 5)]) (there : a.val < axisCount s) (uncovered : ovHolds s s.ks.sel 0x220B (a.val + 1) = none) :
    ∃ u, exec (.rpdo n [b0, b1, b2, b3, b4]) s = .next u ∧ targetShown a (leNat [b0, b1, b2, b3, b4]) s u := by
  subst port
  have small : leNat [b0, b1, b2, b3, b4] < 2 ^ 40 := leNat_lt [b0, b1, b2, b3, b4]
  have on : afterBoot s = true := by
    unfold coUp at up
    simp only [Bool.and_eq_true] at up
    exact up.1.1.1.1
  have taken : writeTaken false (wreq (sdoFrom s (pdoPort s (1 + n.val)) 0) 0x220B (a.val + 1) [b0, b1, b2, b3, b4]) (targetEntry a) 0x220B (a.val + 1)
      (sext 40 (leNat [b0, b1, b2, b3, b4])) s :=
    ⟨rfl, roleCode_own own, uncovered, by decide, by omega, rfl, Nat.le_of_ble_eq_true rfl, value_signed rfl, rfl, entryLate_target a _⟩
  have run : exec (.rpdo n [b0, b1, b2, b3, b4]) s = .next (rpdoEff n.val [b0, b1, b2, b3, b4] s) := rfl
  have effect : rpdoEff n.val [b0, b1, b2, b3, b4] s = kioskWritePair (mpBase a.val + 4) (sext 40 (leNat [b0, b1, b2, b3, b4])) s := by
    have long : decide ([b0, b1, b2, b3, b4].length < (([(0x220B, a.val + 1, 5)] : List (Nat × Nat × Nat)).map (·.2.2)).sum) = false :=
      decide_eq_false (Nat.lt_irrefl 5)
    unfold rpdoEff
    dsimp only
    rw [maps, if_neg (by rw [up, runs, valid, long]; decide)]
    unfold rpdoWrites
    rw [kLookup_target a there]
    dsimp only
    rw [show List.take 5 [b0, b1, b2, b3, b4] = [b0, b1, b2, b3, b4] from rfl, serveWrite_taken taken]
    rfl
  rw [effect] at run
  exact ⟨_, run, target_written a small (wrapN_sext small) (nvReach_running on free)⟩

/-- Settles O51. That frames of the CANopen layer leave at once and are counted, the byte of the heartbeat, and the bit that makes a PDO invalid are log entries 40, 48 and 47. -/
theorem canopenServicesRun : Obligations.CanopenServicesRun := by
  refine ⟨fun s c up runs on => heartbeat_sent up runs on, fun s n up runs valid maps => ?_, fun s n a b4 b3 b2 b1 b0 up runs valid own free maps there uncovered => ?_⟩
  · have on : tpdoOn (pdoPort s (65 + n.val)) n.val s := ⟨rfl, up, runs, valid, maps⟩
    obtain ⟨sends, holds⟩ := tpdo_timer on
    refine ⟨fun free => ?_, holds, tpdo_inhibit on⟩
    obtain ⟨u, run, sent, st, counts, parts, regs⟩ := sends free
    exact ⟨u, run, sent, st, counts, parts, regs⟩
  · obtain ⟨u, run, shown, force, parts, regs⟩ := rpdo_written (c := pdoPort s (1 + n.val)) a b4 b3 b2 b1 b0 rfl up runs valid own free maps there uncovered
    exact ⟨u, run, shown, force, parts, regs⟩

end Sys2Proof.Machine
end

