-- ==== Sys2Proof/Proofs/KioskTime.lean ====
section
/-! PROOFS. Whatever Kiosk and the registers do, time and Pumphouse stand still unless the part is reset (19 R469; 10 R297). -/

namespace Sys2Proof.Machine

variable {n : Nat} {s t : State}

/-- The state is one at time n, or one that a reset has left with Pumphouse at its reset values. -/
def timedOr (n : Nat) (s : State) : Prop := s.now = n ∨ s.ph = State.reset.ph

/-- The parts that requests and register writes change without a reset. -/
def calm : List Part := [.freeCtr, .sys, .regs, .held, .mem, .cores, .pg, .sd, .fb, .mo, .sv, .bv, .lk, .pr, .gh, .can, .ks, .pc]

theorem timedOr.calm (h : timedOr n s) (k : keeps calm s t) : timedOr n t := by
  obtain now | ph := h
  · exact .inl ((k.parts.now (by decide)).trans now)
  · exact .inr ((k.parts.ph (by decide)).trans ph)

/-- A part of the calm ones. -/
theorem calm_of {A : List Part} (h : A.all (calm.contains ·) = true) : ∀ p ∈ A, p ∈ calm := within (B := calm) (fun _ => id) h

theorem timedOr_ite (c : Prop) [Decidable c] (h : timedOr n s) (k : timedOr n t) : timedOr n (if c then s else t) := by split <;> assumption

theorem timedOr_ite_snd {α : Type} (c : Prop) [Decidable c] {p q : α × State} (h : timedOr n p.2) (k : timedOr n q.2) : timedOr n (if c then p else q).2 := by
  split <;> assumption

theorem timedOr_whenB (b : Bool) {f : State → State} (hf : ∀ s, timedOr n s → timedOr n (f s)) (h : timedOr n s) : timedOr n (whenB b f s) :=
  whenB_induct _ b f hf h

theorem timedOr_forEach {α : Type} (l : List α) {f : α → State → State} (hf : ∀ x s, timedOr n s → timedOr n (f x s)) (h : timedOr n s) : timedOr n (forEach l f s) :=
  forEach_induct _ l f (fun x _ s => hf x s) h

/-! ### Writes of registers -/

theorem resetPart_ph (code : Nat) (op : OpState) (step : Nat) (held : Bool) (s : State) : (resetPart code op step held s).ph = State.reset.ph := rfl

theorem timedOr_nvSwrst (who : Requester) (h : timedOr n s) : timedOr n (nvSwrst who s) :=
  timedOr_ite _ h (timedOr_ite _ (.inr (resetPart_ph ..)) (h.calm (dropWrite_keeps _ _ _ (calm_of rfl) (keeps_refl _ s))))

theorem timedOr_writeNvCtrl (who : Requester) (v : Word) (h : timedOr n s) : timedOr n (writeNvCtrl who v s) := by
  unfold writeNvCtrl
  extract_lets s1 s2 s3
  have h1 : keeps calm s s1 := putBit_keeps _ _ _ (calm_of rfl) (keeps_refl _ s)
  have h2 : keeps calm s s2 := keeps_ite _ h1 (keeps_ite _ (dropWrite_keeps _ _ _ (calm_of rfl) h1) (keeps_ite _ (holdBoot_keeps (calm_of rfl) h1) (releaseBoot_keeps (calm_of rfl) h1)))
  have h3 : keeps calm s s3 := keeps_whenB _ (fun _ h => nvBstore_keeps _ (calm_of rfl) h) (keeps_whenB _ (fun _ h => nvRun_keeps _ (calm_of rfl) h) h2)
  exact timedOr_ite _ (timedOr_nvSwrst _ (h.calm h3)) (h.calm (keeps_whenB _ (fun _ h => nvRecov_keeps _ (calm_of rfl) h) h3))

theorem timedOr_writeNv (who : Requester) (a : Nat) (v : Word) (r : RegRow) (h : timedOr n s) : timedOr n (writeNv who a v r s) := by
  have here := keeps_refl calm s
  refine timedOr_ite _ (timedOr_writeNvCtrl who v h) (h.calm ?_)
  refine keeps_ite _ (dropWrite_keeps _ _ _ (calm_of rfl) here) (keeps_ite _ (mdataWrite_keeps _ _ (calm_of rfl) here) ?_)
  exact keeps_ite _ (regSet_keeps _ _ (calm_of rfl) here) (keeps_ite _ (pdataWrite_keeps _ _ _ (calm_of rfl) here) (genericWrite_keeps _ _ _ _ (calm_of rfl) here))

theorem timedOr_blockWrite {go : State → State} (hgo : ∀ s, timedOr n s → timedOr n (go s)) (who : Requester) (a : Nat) (v : Word) (r : RegRow) (h : timedOr n s) :
    timedOr n (blockWrite go who a v r s) := by
  have here := keeps_refl calm s
  have plain : keeps calm s (genericWrite who a v r s) := genericWrite_keeps _ _ _ _ (calm_of rfl) here
  have dropped (why : Nat) : keeps calm s (dropWrite who a why s) := dropWrite_keeps _ _ _ (calm_of rfl) here
  unfold blockWrite
  extract_lets _ s1
  refine timedOr_ite _ (h.calm (writeW0_keeps _ _ (calm_of rfl) here)) ?_
  refine timedOr_ite _ (h.calm (fbCtrl_keeps _ _ (calm_of rfl) here)) ?_
  refine timedOr_ite _ (h.calm (askTable_keeps _ (calm_of rfl) plain)) ?_
  refine timedOr_ite _ (h.calm (askBiquad_keeps _ (calm_of rfl) plain)) ?_
  refine timedOr_ite _ (h.calm (genericWrite_keeps _ _ _ _ (calm_of rfl) (keeps_sd _ (calm_of rfl) here))) ?_
  refine timedOr_ite _ (h.calm (keeps_whenB _ (fun _ h => genAbort_keeps _ (calm_of rfl) h) plain)) ?_
  refine timedOr_ite _ (h.calm (writeBvCtrl_keeps _ _ _ _ (calm_of rfl) here)) ?_
  refine timedOr_ite _ (h.calm (keeps_whenB _ (fun _ h => archive_keeps _ _ _ _ (calm_of rfl) h) plain)) ?_
  refine timedOr_ite _ (h.calm (keeps_whenB _ (fun _ h => retryLink_keeps (calm_of rfl) h) here)) ?_
  refine timedOr_ite _ (timedOr_ite _ (h.calm plain) (h.calm (dropped 5))) ?_
  refine timedOr_ite _ (h.calm (ghCommand_keeps _ _ (calm_of rfl) here)) ?_
  refine timedOr_ite _ (h.calm (wdConfig_keeps _ _ _ (calm_of rfl) here)) ?_
  refine timedOr_ite _ (h.calm (wdService_keeps _ _ (calm_of rfl) here)) ?_
  refine timedOr_ite _ (h.calm (writePhCtrl_keeps _ _ _ (calm_of rfl) here)) ?_
  refine timedOr_ite _ (h.calm (writePg_keeps _ _ _ _ (calm_of rfl) here)) ?_
  refine timedOr_ite _ (h.calm (writeCn_keeps _ _ _ _ _ (calm_of rfl) here)) ?_
  refine timedOr_ite _ (h.calm (writeCn_keeps _ _ _ _ _ (calm_of rfl) here)) ?_
  refine timedOr_ite _ (timedOr_ite _ (h.calm (dropped 6)) (timedOr_whenB _ hgo (h.calm plain))) ?_
  refine timedOr_ite _ (h.calm (dropped 6)) ?_
  refine timedOr_ite _ (h.calm (writePc_keeps _ _ _ _ (calm_of rfl) here)) ?_
  refine timedOr_ite _ (h.calm (keeps_whenB _ (fun _ h => haltCore_keeps _ (calm_of rfl) h) here)) ?_
  refine timedOr_ite _ (timedOr_writeNv who a v r h) ?_
  refine timedOr_ite _ (h.calm (gpioMoved_keeps _ (calm_of rfl) (writeDir_keeps _ _ _ (calm_of rfl) here))) ?_
  exact timedOr_ite _ (h.calm (gpioMoved_keeps _ (calm_of rfl) plain)) (h.calm plain)

theorem timedOr_performWrite {go : State → State} (hgo : ∀ s, timedOr n s → timedOr n (go s)) (who : Requester) (a : Nat) (v : Word) (h : timedOr n s) :
    timedOr n (performWrite go who a v s) := by
  unfold performWrite
  cases rowOf a with
  | none => exact h
  | some r =>
    have written := timedOr_blockWrite hgo who a v r (h.calm (mirrorOut_keeps who a v r (calm_of rfl) (keeps_refl _ s)))
    exact timedOr_ite _ (h.calm (dropWrite_keeps _ _ _ (calm_of rfl) (keeps_refl _ s)))
      (timedOr_ite _ (written.calm (signBlock_keeps _ (calm_of rfl) (keeps_refl _ _))) written)

theorem timedOr_lockedWrite {go : State → State} (hgo : ∀ s, timedOr n s → timedOr n (go s)) (open_ : Bool) (who : Requester) (a : Nat) (v : Word) (h : timedOr n s) :
    timedOr n (lockedWrite go open_ who a v s) := by
  have dropped (why : Nat) : timedOr n (dropWrite who a why s) := h.calm (dropWrite_keeps _ _ _ (calm_of rfl) (keeps_refl _ s))
  unfold lockedWrite
  cases rowOf a with
  | none => exact h
  | some r => exact timedOr_ite _ (dropped 1) (timedOr_ite _ (dropped 5) (timedOr_ite _ (h.calm (keeps_sys _ (calm_of rfl) (keeps_refl _ s))) (timedOr_performWrite hgo who a v h)))

theorem timedOr_regWriteWith {go : State → State} (hgo : ∀ s, timedOr n s → timedOr n (go s)) (who : Requester) (a : Nat) (v : Word) (h : timedOr n s) :
    timedOr n (regWriteWith go who a v s) :=
  timedOr_ite _ h (timedOr_ite _ (h.calm (scUnlock_keeps _ _ (calm_of rfl) (keeps_refl _ s)))
    (timedOr_lockedWrite hgo _ who a v (h.calm (armLock_keeps _ (calm_of rfl) (keeps_refl _ s)))))

theorem timedOr_regWritePairWith {go : State → State} (hgo : ∀ s, timedOr n s → timedOr n (go s)) (who : Requester) (a : Nat) (hi lo : Word) (h : timedOr n s) :
    timedOr n (regWritePairWith go who a hi lo s) :=
  timedOr_ite _ h (timedOr_ite _
    (timedOr_lockedWrite hgo _ who (a + 1) lo (timedOr_lockedWrite hgo _ who a hi (h.calm (armLock_keeps _ (calm_of rfl) (keeps_refl _ s)))))
    (timedOr_regWriteWith hgo who (a + 1) lo (timedOr_regWriteWith hgo who a hi h)))

theorem timedOr_kioskWrite (a : Nat) (w : Word) (h : timedOr n s) : timedOr n (kioskWrite a w s) :=
  timedOr_regWriteWith (fun _ => id) .kiosk a w (h.calm (keeps_sys _ (calm_of rfl) (keeps_refl _ s)))

theorem timedOr_kioskWritePair (a : Nat) (v : Int) (h : timedOr n s) : timedOr n (kioskWritePair a v s) :=
  timedOr_regWritePairWith (fun _ => id) .kiosk a _ _ (h.calm (keeps_sys _ (calm_of rfl) (keeps_refl _ s)))

/-! ### Requests -/

theorem timedOr_writeEntry (e : KEntry) (i sub : Nat) (v : Int) (h : timedOr n s) : timedOr n (writeEntry e i sub v s) := by
  unfold writeEntry
  split
  · exact timedOr_ite _ (h.calm (dropWrite_keeps _ _ _ (calm_of rfl) (keeps_refl _ s))) (timedOr_kioskWrite _ _ h)
  · exact timedOr_kioskWritePair _ _ h
  · exact timedOr_kioskWrite _ _ h
  · exact h.calm (keeps_ks _ (calm_of rfl) (keeps_refl _ s))
  · exact h

theorem timedOr_serveWrite (had : Bool) (q : KReq) (e : KEntry) (i sub : Nat) (h : timedOr n s) : timedOr n (serveWrite had q e i sub s).2 := by
  have here := keeps_refl calm s
  unfold serveWrite
  extract_lets _
  refine timedOr_ite_snd _ h (timedOr_ite_snd _ h (timedOr_ite_snd _ h ?_))
  split
  · exact h
  · refine timedOr_ite_snd _ h (timedOr_ite_snd _ h (timedOr_ite_snd _ (h.calm (overlayReplace_keeps _ _ (calm_of rfl) here)) (timedOr_ite_snd _ h ?_)))
    split
    · exact h
    · split
      · exact h
      · refine timedOr_ite_snd _ h (timedOr_ite_snd _ (h.calm (secureWrite_keeps _ _ _ (calm_of rfl) here)) ?_)
        refine timedOr_ite_snd _ (timedOr_ite_snd _ (h.calm (storeAll_keeps _ _ (calm_of rfl) here)) h) ?_
        refine timedOr_ite_snd _ (timedOr_ite_snd _ (h.calm (restoreAll_keeps q false (calm_of rfl) here)) h) ?_
        refine timedOr_ite_snd _ (h.calm (keeps_ite _ (setKs_keeps _ (calm_of rfl) here) here)) ?_
        refine timedOr_ite_snd _ (h.calm (passwordEntry_keeps _ _ (calm_of rfl) here)) ?_
        exact timedOr_ite_snd _ (h.calm (closeFor_keeps _ _ (calm_of rfl) here)) (timedOr_ite_snd _ h (timedOr_writeEntry e i sub _ h))

theorem timedOr_serveEntry (had : Bool) (q : KReq) (e : KEntry) (i sub : Nat) (h : timedOr n s) : timedOr n (serveEntry had q e i sub s).2 :=
  timedOr_ite_snd _ (timedOr_serveWrite had q e i sub h) (h.calm (serveRead_keeps q e i sub (calm_of rfl) (keeps_refl _ s)))

theorem timedOr_serveFirmware (had : Bool) (q : KReq) (e : KEntry) (i sub : Nat) (h : timedOr n s) : timedOr n (serveFirmware had q e i sub s).2 := by
  have raised : keeps calm s (raiseEvent 16 s) := raiseEvent_keeps _ (calm_of rfl) (keeps_refl _ s)
  refine timedOr_ite_snd _ (timedOr_serveEntry had q e i sub (h.calm raised)) (timedOr_ite_snd _ (h.calm (setKs_keeps _ (calm_of rfl) raised)) ?_)
  split
  · exact h.calm (setKs_keeps _ (calm_of rfl) (keeps_refl _ s))
  · exact h.calm (nakFragment_keeps (calm_of rfl) (keeps_refl _ s))
  · exact h

theorem timedOr_serveNew (q : KReq) (h : timedOr n s) : timedOr n (serveNew q s).2 := by
  have used : keeps calm s (useKey q s) := useKey_keeps _ (calm_of rfl) (keeps_refl _ s)
  unfold serveNew
  dsimp only
  refine timedOr_ite_snd _ (h.calm (count_keeps _ (calm_of rfl) used)) ?_
  split
  · exact h.calm used
  · exact h.calm used
  · exact timedOr_ite_snd _ (timedOr_serveFirmware _ _ _ _ _ (h.calm used)) (timedOr_serveEntry _ _ _ _ _ (h.calm used))

theorem timedOr_finishServe (q : KReq) (p : Option KResp × State) (h : timedOr n p.2) : timedOr n (finishServe q p) := by
  obtain ⟨r | r, s1⟩ := p
  · exact h
  · exact h.calm (kFinish_keeps q r (calm_of rfl) (keeps_refl _ s1))

theorem timedOr_kLocal (q : KReq) (h : timedOr n s) : timedOr n (kLocal q s) := by
  unfold kLocal
  split
  · exact h.calm (deliver_keeps _ _ (calm_of rfl) (count_keeps _ (calm_of rfl) (keeps_ite _ (keeps_refl _ s) (useKey_keeps _ (calm_of rfl) (keeps_refl _ s)))))
  · exact timedOr_finishServe q _ (timedOr_serveNew q h)

theorem timedOr_kRequest (q : KReq) (h : timedOr n s) : timedOr n (kRequest q s) := by
  have served := timedOr_kLocal q h
  have sent : timedOr n (kBroadcast q s) := timedOr_ite _ (h.calm (count_keeps _ (calm_of rfl) (keeps_refl _ s)))
    (timedOr_forEach _ (fun _ u k => k.calm (putOut_keeps _ _ _ _ _ (calm_of rfl) (count_keeps _ (calm_of rfl) (newMsgId_keeps (calm_of rfl) (keeps_refl _ u))))) served)
  exact timedOr_ite _ h (timedOr_ite _ (h.calm (kAbort_keeps _ _ (calm_of rfl) (keeps_refl _ s)))
    (timedOr_ite _ sent (timedOr_ite _ served (h.calm (kForward_keeps _ (calm_of rfl) (keeps_refl _ s))))))

theorem timedOr_routeNow (q : KReq) (h : timedOr n s) : timedOr n (routeNow q s) := by
  have taken : timedOr n (routedTake q s).2 := h.calm (routedTake_keeps _ (calm_of rfl) (keeps_refl _ s))
  exact timedOr_ite _ (timedOr_kRequest _ taken) taken

theorem timedOr_kTop (q : KReq) (h : timedOr n s) : timedOr n (kTop q s) := by
  have taken : timedOr n (takeDone q.from_.port s) := h.calm (takeDone_keeps _ (calm_of rfl) (keeps_refl _ s))
  exact timedOr_ite _ (timedOr_routeNow q (timedOr_kRequest q taken)) (timedOr_kRequest q taken)

theorem timedOr_kioskGo (h : timedOr n s) : timedOr n (kioskGo s) := by
  unfold kioskGo
  extract_lets b m w x q
  clear_value q m
  exact timedOr_ite _ (timedOr_kTop _ h) (timedOr_ite _ (h.calm (responseFor_keeps _ _ _ _ (calm_of rfl) (keeps_refl _ s))) h)

theorem timedOr_serveQueued (q : KReq) (had : Bool) (h : timedOr n s) : timedOr n (serveQueued q had s) := by
  unfold serveQueued
  split
  · next e _ =>
    have served := timedOr_serveEntry had q e q.index.toNat q.sub.toNat h
    split
    · next r s1 run =>
      rw [run] at served
      have done : timedOr n (kFinish q r s1) := served.calm (kFinish_keeps q r (calm_of rfl) (keeps_refl _ s1))
      split
      · exact timedOr_routeNow q done
      · exact done
    · next s1 run => rwa [run] at served
  · exact h

theorem timedOr_drainFirmware (h : timedOr n s) : timedOr n (drainFirmware s) := by
  unfold drainFirmware
  extract_lets _ s1 _
  have h1 : timedOr n s1 := timedOr_forEach _ (fun _ _ k => timedOr_serveQueued _ _ k) (h.calm (setKs_keeps _ (calm_of rfl) (keeps_refl _ s)))
  exact timedOr_ite _ h (timedOr_ite _ (timedOr_kioskGo (h1.calm (setKs_keeps _ (calm_of rfl) (keeps_refl _ s1)))) h1)

end Sys2Proof.Machine
end

