-- ==== Sys2Proof/Proofs/ResetRecorded.lean ====
section
/-! PROOFS. A record of the partner that writes SWRST resets the unit inside a boundary, and its time with it (08 R234; 19 R469, R510). -/

namespace Sys2Proof.Machine

/-- A unit in CONFIG that has received a record with a write of SWRST. -/
def resetRecorded : State :=
  { State.reset with
    sys := { State.reset.sys with op := .config }
    pr := { State.reset.pr with bndIn := [.write 0xF54000 (word (2 ^ 15))] } }

theorem resetRecorded_runs : exec (.servoPeriodBoundary 5) resetRecorded = .next (boundary (advance 5 resetRecorded)) := rfl

theorem resetRecorded_now : (boundary (advance 5 resetRecorded)).now = 0 := by decide +kernel

theorem resetRecorded_sum : (boundary (advance 5 resetRecorded)).ph.aSum ≠ State.reset.ph.aSum := by decide +kernel

/-- A boundary that ends in the work of firmware from a state at time 5 does not end as this one does. -/
theorem resetRecorded_late {w : State} (now : w.now = 5) : boundary (advance 5 resetRecorded) ≠ raiseEvent 0 (drainFirmware w) := fun same => by
  have served : timedOr 5 (raiseEvent 0 (drainFirmware w)) := (timedOr_drainFirmware (.inl now)).calm (raiseEvent_keeps 0 (calm_of rfl) (keeps_refl _ _))
  rw [← same] at served
  obtain time | ph := served
  · rw [resetRecorded_now] at time
    cases time
  · exact resetRecorded_sum (congrArg Pump.aSum ph)

/-- Refutes O52: a write of SWRST in the record applied at a boundary puts the time of the unit back to 0, where the statement has the time of the boundary. -/
theorem not_boundaryAndCommonInstant : ¬ Obligations.BoundaryAndCommonInstant := by
  intro h
  obtain ⟨-, running⟩ := h resetRecorded 5
  obtain ⟨⟨u, w, run, drained, -, now, -⟩, -⟩ := running (by decide)
  rw [resetRecorded_runs] at run
  injection run with e
  exact resetRecorded_late now (e.trans drained)

end Sys2Proof.Machine
end

