-- ==== Sys2Proof/Proofs/OutputPins.lean ====
section
/-! PROOFS. The output pins follow the state and the role (02 R55; 08 R227; 10 R291, R303; 17 R456; 19 R478; 20 R488, R489). -/

namespace Sys2Proof.Machine

variable {s u : State}

/-! ### HIGHZ -/

theorem scanned_highz (h : s.sys.tap = .highz) (x : Option Bool) : scanned s x = none := if_pos h

theorem scanned_other (h : s.sys.tap ≠ .highz) (x : Option Bool) : scanned s x = x := if_neg h

/-- Every pin is high-impedance. -/
theorem pins_highz (h : s.sys.tap = .highz) :
    (∀ g, safeOffP s g = none ∧ safeOffN s g = none) ∧ (∀ n, brkPin s n = none) ∧ (∀ o, evoPin s o = none) ∧ (∀ m, fboPins s m = none) ∧
      chopPin s = none ∧ holdDisPin s = none ∧ holdChgPin s = none ∧ sdmClkDriven s = false ∧ canTxDriven s = false ∧
      (∀ p, gpioPin s p = none) ∧ hpIrqPin s = none := by
  have off := scanned_highz h
  refine ⟨fun g => ⟨off _, off _⟩, fun n => off _, fun o => off _, fun m => if_pos h, off _, off _, off _, ?_, ?_, fun p => off _, off _⟩
  · unfold sdmClkDriven
    rw [h]
    simp
  · unfold canTxDriven
    rw [h]
    simp

/-! ### The safety outputs -/

theorem safeOff_off (scan : s.sys.tap ≠ .highz) {g : Fin 4} (off : safeOffOn s g = false) : safeOffP s g = some false ∧ safeOffN s g = some false := by
  unfold safeOffP safeOffN
  rw [scanned_other scan, scanned_other scan, off]
  exact ⟨rfl, rfl⟩

theorem safeOffOn_off {g : Fin 4} (h : drivesOutputs s = false ∨ s.sys.op = .safe ∨ s.gh.grp[g].cond = .sto ∨ s.gh.refreshLost = true) : safeOffOn s g = false := by
  unfold safeOffOn
  obtain h | h | h | h := h <;> rw [h] <;> simp

theorem safeOffOn_on {g : Fin 4} (drives : drivesOutputs s = true) (live : s.sys.op ≠ .safe) (energised : s.gh.grp[g].cond ≠ .sto)
    (fresh : s.gh.refreshLost = false) : safeOffOn s g = true := by
  unfold safeOffOn
  rw [drives, fresh, bne_iff_ne.mpr live, bne_iff_ne.mpr energised]
  rfl

theorem safeOff_on (scan : s.sys.tap ≠ .highz) {g : Fin 4} (on : safeOffOn s g = true) :
    safeOffP s g = some (s.gh.grp[g].pulse != 1) ∧ safeOffN s g = some (s.gh.grp[g].pulse != 2) := by
  unfold safeOffP safeOffN
  rw [scanned_other scan, scanned_other scan, on, Bool.true_and, Bool.true_and]
  exact ⟨rfl, rfl⟩

/-! ### The outputs of a role -/

/-- The outputs that a unit drives in its role are high-impedance where it drives none and is not in L5. -/
theorem role_off (scan : s.sys.tap ≠ .highz) (evo : evoDriven s = false) (fbo : fboDriven s = false) :
    (∀ o, evoPin s o = none) ∧ (∀ m, fboPins s m = none) ∧ chopPin s = none := by
  refine ⟨fun o => ?_, fun m => ?_, ?_⟩
  · unfold evoPin
    rw [scanned_other scan, evo]
    rfl
  · unfold fboPins fboPin
    rw [if_neg scan, fbo]
    rfl
  · unfold chopPin
    rw [scanned_other scan, fbo]
    rfl

theorem hold_off (scan : s.sys.tap ≠ .highz) (fbo : fboDriven s = false) (out : s.ph.l5 = false) : holdDisPin s = none ∧ holdChgPin s = none := by
  unfold holdDisPin holdChgPin
  rw [scanned_other scan, scanned_other scan, out, fbo]
  exact ⟨rfl, rfl⟩

/-- The role of a standby. -/
theorem roleNow_standby (standby : isStandby s = true) (pair : paired s = true) : 2 ≤ roleNow s := by
  have roles : 2 ≤ if s.pr.unaligned.isEmpty then 3 else 2 := by split <;> decide
  unfold roleNow
  by_cases silent : s.pr.silent = true
  · rw [if_pos silent]
    decide
  · rw [if_neg silent, pair, if_neg (by decide)]
    dsimp only
    unfold isStandby at standby
    rw [pair] at standby
    cases op : s.sys.op with
    | runStandby => exact roles
    | degraded =>
      rw [op] at standby
      have passive : s.pr.active = false := by simpa using standby
      rw [passive, if_neg Bool.false_ne_true]
      exact roles
    | _ =>
      rw [op] at standby
      cases standby

theorem fboDriven_standby (standby : isStandby s = true) : fboDriven s = false := by
  unfold isStandby at standby
  unfold fboDriven
  cases op : s.sys.op with
  | degraded =>
    rw [op] at standby
    have passive : s.pr.active = false := by
      simp at standby
      exact standby.2
    rw [passive]
    rfl
  | runStandby => exact Bool.and_false _
  | _ =>
    rw [op] at standby
    cases standby

theorem standby_pins (scan : s.sys.tap ≠ .highz) (standby : isStandby s = true) (pair : paired s = true) (out : s.ph.l5 = false) :
    (∀ o, evoPin s o = none) ∧ (∀ m, fboPins s m = none) ∧ chopPin s = none ∧ holdDisPin s = none ∧ holdChgPin s = none ∧ sdmClkDriven s = false := by
  have role := roleNow_standby standby pair
  have one : (roleNow s == 1) = false := beq_eq_false_iff_ne.mpr (by omega)
  have zero : (roleNow s == 0) = false := beq_eq_false_iff_ne.mpr (by omega)
  have fbo := fboDriven_standby standby
  obtain ⟨evoOff, fboOff, chop⟩ := role_off scan (by
    unfold evoDriven
    rw [pair, if_pos rfl, one, Bool.and_false]) fbo
  obtain ⟨dis, chg⟩ := hold_off scan fbo out
  refine ⟨evoOff, fboOff, chop, dis, chg, ?_⟩
  unfold sdmClkDriven
  rw [pair, if_pos rfl, one, zero]
  simp

theorem active_pins (scan : s.sys.tap ≠ .highz) (op : s.sys.op = .runActive) (active : s.pr.active = true) (heard : s.pr.silent = false) (free : s.sys.rstHeld = false)
    (out : s.ph.l5 = false) :
    (∀ o : Fin 16, evoPin s o = some (s.sd.evo.getLsbD o.val)) ∧ (∀ m, fboPins s m ≠ none) ∧ chopPin s = some s.ph.chop ∧
      holdDisPin s = some s.ph.holdDis ∧ holdChgPin s = some s.ph.holdChg ∧ sdmClkDriven s = true := by
  have role (pair : paired s = true) : roleNow s = 1 := by
    unfold roleNow
    rw [heard, pair, op]
    rfl
  have fbo : fboDriven s = true := by
    unfold fboDriven
    rw [active, op]
    rfl
  refine ⟨fun o => ?_, fun m => ?_, ?_, ?_, ?_, ?_⟩
  · have evo : evoDriven s = true := by
      unfold evoDriven nvReach
      rw [op, free, heard]
      by_cases pair : paired s = true
      · rw [if_pos pair, role pair]
        rfl
      · rw [if_neg pair]
        rfl
    unfold evoPin
    rw [scanned_other scan, evo, if_pos rfl]
  · unfold fboPins fboPin
    rw [if_neg scan, fbo, if_neg (by decide)]
    split <;> exact Option.some_ne_none _
  · unfold chopPin
    rw [scanned_other scan, fbo, if_pos rfl]
  · unfold holdDisPin
    rw [scanned_other scan, out, if_neg Bool.false_ne_true, fbo, if_pos rfl]
  · unfold holdChgPin
    rw [scanned_other scan, out, if_neg Bool.false_ne_true, fbo, if_pos rfl]
  · unfold sdmClkDriven afterBoot
    rw [op, free, bne_iff_ne.mpr scan]
    by_cases pair : paired s = true
    · rw [if_pos pair, role pair]
      rfl
    · rw [if_neg pair]
      rfl

/-! ### GPIO, CAN and the host's interrupt -/

theorem gpio_pins (scan : s.sys.tap ≠ .highz) (p : Fin 32) :
    (gpioDriven s p.val = true → gpioPin s p = some (bitOf s (0xF5C002 + p.val / 16) (p.val % 16))) ∧
      (gpioDriven s p.val = false → gpioPin s p = none ∧ gpioLevel s p.val = s.sys.gpio.getLsbD p.val) := by
  unfold gpioPin gpioLevel
  rw [scanned_other scan]
  refine ⟨fun drives => ?_, fun reads => ?_⟩
  · rw [drives, if_pos rfl, if_pos rfl]
  · rw [reads, if_neg Bool.false_ne_true, if_neg Bool.false_ne_true]
    exact ⟨rfl, rfl⟩

theorem hpIrq_low (scan : s.sys.tap ≠ .highz) (reach : nvReach s = true) : hpIrqPin s = some false ↔ bitOf s 0xF48018 18 = true ∧ bitOf s 0xF48018 17 = true := by
  unfold hpIrqPin
  rw [scanned_other scan, reach]
  cases bitOf s 0xF48018 18 <;> cases bitOf s 0xF48018 17 <;> simp

theorem canTx_driven (scan : s.sys.tap ≠ .highz) (reach : nvReach s = true) : canTxDriven s = true := by
  unfold canTxDriven
  rw [reach, bne_iff_ne.mpr scan]
  rfl

/-! ### After a reset -/

/-- A part in POWER-UP, or with RST_N held in BOOT, that Gatehouse keeps still. -/
structure resetLeft (u : State) : Prop where
  scan : u.sys.tap ≠ .highz
  reach : nvReach u = false
  before : u.sys.op = .powerUp ∨ u.sys.op = .boot
  sto : ∀ g : Fin 4, u.gh.grp[g].cond = .sto
  brakes : u.gh.brk = 0

theorem tapAfter_scans (t : TapIr) : tapAfter t ≠ .highz := by
  cases t <;> simp [tapAfter]

theorem reset_sto (g : Fin 4) : State.reset.gh.grp[g].cond = .sto := by
  revert g
  decide

theorem resetPart_left (code : Nat) (held : Bool) (step : Nat) (op : OpState) (h : op = .powerUp ∨ op = .boot ∧ held = true) (s : State) :
    resetLeft (resetPart code op step held s) where
  scan := tapAfter_scans (abandonArchive s).sys.tap
  reach := by
    show (op != .powerUp && !held) = false
    obtain rfl | ⟨rfl, rfl⟩ := h <;> rfl
  before := h.imp id And.left
  sto := reset_sto
  brakes := rfl

theorem flushedPart_left (dis : Bool) {r : State} (c : clearedFrom s r) : resetLeft (flushedPart dis r) where
  scan := by
    show r.sys.tap ≠ .highz
    rw [c.sys]
    exact tapAfter_scans _
  reach := rfl
  before := .inl rfl
  sto := fun g => by
    show r.gh.grp[g].cond = .sto
    rw [c.gh]
    exact reset_sto g
  brakes := by
    show r.gh.brk = 0
    rw [c.gh]
    rfl

/-- The pins that need no level of Pumphouse. -/
theorem reset_pins (h : resetLeft u) :
    u.sys.tap ≠ .highz ∧ (∀ g, safeOffP u g = some false ∧ safeOffN u g = some false) ∧ (∀ n, brkPin u n = some false) ∧
      (∀ o, evoPin u o = none) ∧ (∀ m, fboPins u m = none) ∧ chopPin u = none ∧ sdmClkDriven u = false ∧ canTxDriven u = false ∧
      (∀ p, gpioPin u p = none) ∧ hpIrqPin u = none ∧ fboDriven u = false := by
  obtain ⟨scan, reach, before, sto, brakes⟩ := h
  have fbo : fboDriven u = false := by
    unfold fboDriven
    obtain op | op := before <;> rw [op] <;> exact Bool.and_false _
  obtain ⟨evoOff, fboOff, chop⟩ := role_off scan (by
    unfold evoDriven
    rw [reach, Bool.false_and]) fbo
  refine ⟨scan, fun g => safeOff_off scan (safeOffOn_off (.inr (.inr (.inl (sto g))))), fun n => ?_, evoOff, fboOff, chop, ?_, ?_, fun p => ?_, ?_, fbo⟩
  · unfold brkPin
    rw [scanned_other scan, brakes]
    simp
  · have early : afterBoot u = false := by
      unfold afterBoot
      obtain op | op := before <;> rw [op] <;> rfl
    unfold sdmClkDriven
    rw [early]
    rfl
  · unfold canTxDriven
    rw [reach, Bool.false_and]
  · unfold gpioPin gpioDriven
    rw [scanned_other scan, reach, Bool.false_and, Bool.false_and, if_neg Bool.false_ne_true]
  · unfold hpIrqPin
    rw [scanned_other scan, reach, Bool.false_and, Bool.false_and, if_neg Bool.false_ne_true]

/-- The hold-up outputs once the flush of L5 has ended. -/
theorem hold_flushed (scan : u.sys.tap ≠ .highz) (five : u.ph.l5 = true) :
    holdDisPin u = (if u.ph.holdDis = true then some true else none) ∧ holdChgPin u = if u.ph.holdDis = true then some false else none := by
  unfold holdDisPin holdChgPin
  rw [scanned_other scan, scanned_other scan, if_pos five, if_pos five]
  exact ⟨rfl, rfl⟩

/-- Every pin stands still after a command that resets the part: the safety outputs low, HOLD_DIS as the end of the flush leaves it, every other one high-impedance. -/
def stillPins (cmd : Instr) (s u : State) : Prop :=
  (u.sys.tap ≠ .highz) ∧ (∀ g, safeOffP u g = some false ∧ safeOffN u g = some false) ∧ (∀ n, brkPin u n = some false) ∧
      (∀ o, evoPin u o = none) ∧ (∀ m, fboPins u m = none) ∧ chopPin u = none ∧ sdmClkDriven u = false ∧ canTxDriven u = false ∧
      (∀ p, gpioPin u p = none) ∧ hpIrqPin u = none ∧
      (holdDisPin u = if cmd = .flushComplete ∧ s.ph.holdDis = true then some true else none) ∧
      (holdChgPin u = if cmd = .flushComplete ∧ s.ph.holdDis = true then some false else none)

theorem pins_reset {cmd : Instr} (run : exec cmd s = .next u) (left : resetLeft u) (other : cmd ≠ .flushComplete) (out : u.ph.l5 = false) :
    ∃ u, exec cmd s = .next u ∧ stillPins cmd s u := by
  obtain ⟨scan, safe, brakes, evo, fbo, chop, sdm, tx, gpio, irq, quiet⟩ := reset_pins left
  obtain ⟨dis, chg⟩ := hold_off scan quiet out
  refine ⟨u, run, scan, safe, brakes, evo, fbo, chop, sdm, tx, gpio, irq, ?_, ?_⟩
  · rw [dis, if_neg fun h => other h.1]
  · rw [chg, if_neg fun h => other h.1]

theorem pins_flushed (five : s.ph.l5 = true) (before : s.ph.flushed = false) :
    ∃ u, exec .flushComplete s = .next u ∧ stillPins .flushComplete s u := by
  have run : exec .flushComplete s = .next (flushedPart s.ph.holdDis (cleared (flushAll s))) := by
    refine congrArg Host.Outcome.next ?_
    unfold flushComplete
    generalize cleared (flushAll s) = r
    exact if_pos (by rw [five, before]; rfl)
  have left := flushedPart_left s.ph.holdDis (cleared_spec (flushAll s))
  generalize cleared (flushAll s) = r at run left
  obtain ⟨scan, safe, brakes, evo, fbo, chop, sdm, tx, gpio, irq, -⟩ := reset_pins left
  obtain ⟨dis, chg⟩ := hold_flushed scan rfl
  have kept : (flushedPart s.ph.holdDis r).ph.holdDis = true ↔ Instr.flushComplete = .flushComplete ∧ s.ph.holdDis = true := ⟨fun h => ⟨rfl, h⟩, And.right⟩
  refine ⟨_, run, scan, safe, brakes, evo, fbo, chop, sdm, tx, gpio, irq, ?_, ?_⟩
  · exact dis.trans (if_congr kept rfl rfl)
  · exact chg.trans (if_congr kept rfl rfl)

/-- Settles O56. -/
theorem pinsFollowStateAndRole : Obligations.PinsFollowStateAndRole := by
  intro s
  refine ⟨pins_highz, fun scan => ⟨fun g => ⟨fun off => safeOff_off scan (safeOffOn_off off), fun drives live energised fresh =>
      safeOff_on scan (safeOffOn_on drives live energised fresh)⟩, fun n => scanned_other scan _, standby_pins scan, active_pins scan, gpio_pins scan,
      fun reach => ⟨canTx_driven scan reach, hpIrq_low scan reach⟩⟩, fun cmd which => ?_⟩
  obtain rfl | rfl | ⟨rfl, on, out⟩ | ⟨rfl, five, before⟩ := which
  · exact pins_reset rfl (resetPart_left 1 false 0 .powerUp (.inl rfl) s) (by simp) rfl
  · exact pins_reset rfl (resetPart_left 2 false 0 .powerUp (.inl rfl) s) (by simp) rfl
  · have run : exec .rstNReset s = .next (resetPart 4 .boot 0 true s) := congrArg Host.Outcome.next (if_neg (by
      rintro (h | h)
      · exact on h
      · rw [out] at h
        cases h))
    exact pins_reset run (resetPart_left 4 true 0 .boot (.inr ⟨rfl, rfl⟩) s) (by simp) rfl
  · exact pins_flushed five before

end Sys2Proof.Machine
end
